-- ==== Sys2Proof/Word.lean ====
section
/-!
DEFINITION. The plainest word arithmetic: a field of a word (00_scope R10), byte strings in little-endian order
(R9), saturating and wrapping counters (18_faults_and_reserves R567).
-/
namespace Sys2Proof

/-- NAME[lo+len-1 : lo] of a word, as a number (R10). -/
def fld {n : Nat} (w : BitVec n) (lo len : Nat) : Nat := (w.toNat >>> lo) % 2 ^ len

/-- The word with NAME[lo+len-1 : lo] replaced by `v` modulo 2^len (R10). -/
def setFld {n : Nat} (w : BitVec n) (lo len v : Nat) : BitVec n :=
  BitVec.ofNat n (w.toNat - (fld w lo len) <<< lo + (v % 2 ^ len) <<< lo)

/-- One bit of a word as a Bool (R10). -/
def bit {n : Nat} (w : BitVec n) (k : Nat) : Bool := w.toNat.testBit k

/-- The word with bit `k` set to `b`. -/
def setBit {n : Nat} (w : BitVec n) (k : Nat) (b : Bool) : BitVec n := setFld w k 1 (if b then 1 else 0)

/-- A Bool as the number of a one-bit field. -/
def b2n (b : Bool) : Nat := if b then 1 else 0

/-- A signed field of `len` bits as an integer (two's complement). -/
def sext (len v : Nat) : Int := if v % 2 ^ len < 2 ^ (len - 1) then (v % 2 ^ len : Nat) else (v % 2 ^ len : Nat) - (2 ^ len : Nat)

/-- An integer as the number of a two's complement field of `len` bits. -/
def unsext (len : Nat) (v : Int) : Nat := (v % (2 ^ len : Nat)).toNat

/-- The `n` bytes of `v`, least significant first (R9). -/
def leBytes : Nat → Nat → List Nat
  | 0, _ => []
  | n + 1, v => v % 256 :: leBytes n (v / 256)

/-- The number whose bytes, least significant first, are given (R9). -/
def ofBytes : List Nat → Nat
  | [] => 0
  | b :: bs => b % 256 + 256 * ofBytes bs

/-- A counter that sticks at `max` (R567, class Statistics). -/
def stick (max v : Nat) : Nat := if v ≤ max then v else max

/-- Ceiling of a quotient. -/
def ceilDiv (a b : Nat) : Nat := if b = 0 then 0 else (a + b - 1) / b

/-- The number of one bits of a 4-bit or wider index (used by the Walsh sign of 04 R153). -/
def popcount : Nat → Nat → Nat
  | 0, _ => 0
  | n + 1, v => v % 2 + popcount n (v / 2)

/-- Clamp an integer into [lo, hi]. -/
def clampI (lo hi v : Int) : Int := if v < lo then lo else if hi < v then hi else v

end Sys2Proof
end

