-- ==== Sys2Proof/Syntax.lean ====
section
/-!
DEFINITION. The commands the block takes: one constructor per row of spec/opcode_table.json, with the row's operands.
A host command carries the request it came in (`Req`); every other row is an event or an access and carries the time
that passed since the previous command (`Dt`). Verdicts of cryptography and of analogue measurement arrive as operands
(log entries 2 and 8).
-/
namespace Sys2Proof

/-- The time since the previous command, counted in three asynchronous clock domains (01 R46): CCLK cycles of 2.5 ns,
RTC cycles of 1/32 768 s, and ETH_TX ticks of 8 ns. -/
structure Dt where
  cclk : Nat := 0
  rtc : Nat := 0
  eth : Nat := 0
  deriving DecidableEq, Repr

/-- A frame as it arrives at an Ethernet port (12 R385-R391): the port, the source MAC, its length with tag and trailer, the VLAN identifier
of its tag (none untagged), and the LanId and SequenceNr of its PRP trailer (none without a valid one). -/
structure Arrival where
  port : Nat := 0
  src : Nat := 0
  len : Nat := 64
  vid : Option Nat := none
  trailer : Option (Nat × Nat) := none
  deriving DecidableEq, Repr

/-- A VXC request as it reaches the M-region: the message, field by field, and how it came (10, tables "VXC message" and "FLAGS of a VXC
message"; R332-R336). -/
structure Req where
  dt : Dt := {}
  /-- CMD, LEN, SEQ, SESSION, FLAGS and STATUS of the header. -/
  cmd : Nat := 0
  len : Nat := 0
  seq : Nat := 0
  ses : Nat := 0
  flags : BitVec 16 := 0
  status : Nat := 0
  /-- PAYLOAD and TAG, and the length of the whole transfer or datagram in bytes. -/
  payload : List Nat := []
  tag : Nat := 0
  size : Nat := 32
  /-- LEN matches the command's layout (11 R352). -/
  lenOk : Bool := true
  /-- Arrived on USB, as one transfer on bulk endpoint 01h; otherwise in a UDP datagram. -/
  usb : Bool := false
  /-- Of a datagram: IPv4 source address, UDP source and destination port, whether it came in fragments, and the frame that brought it. -/
  ip : Nat := 0
  port : Nat := 0
  dport : Nat := 41620
  frag : Bool := false
  via : Arrival := {}
  deriving DecidableEq, Repr

/-- The three regions of the die (01 R24). -/
inductive Region where
  | c
  | d
  | m
  deriving DecidableEq, Repr

/-- A bus master (01, "Open access among masters"), as far as a rule distinguishes masters. -/
inductive Master where
  | triple (r : Region)
  | dma (r : Region)
  /-- A hardware engine, by the number of its block (table "Block windows"). -/
  | engine (block : Nat)
  | mem
  deriving DecidableEq, Repr

/-- The site time parameters (06 R200, table "Site time parameters"). -/
structure DstRule where
  month : Nat
  week : Nat
  weekday : Nat
  minutes : Nat
  deriving DecidableEq, Repr

structure Site where
  lat : Int := 0
  lon : Int := 0
  stdOfs : Int := 0
  dstEn : Bool := false
  dstStart : DstRule := ⟨3, 5, 6, 120⟩
  dstEnd : DstRule := ⟨10, 5, 6, 180⟩
  defFloor : Nat := 0
  defCeil : Nat := 10000
  ntFloor : Nat := 3000
  ntCeil : Nat := 10000
  deriving DecidableEq, Repr

/-- A component entry of a Decant package header (15 R466). -/
structure Comp where
  type : Nat
  cver : Nat
  length : Nat
  /-- (LO, HI) of interfaces 0-5. -/
  ifr : List (Nat × Nat)
  chash : Nat
  /-- PVER of a node image's own header (15, table "Node image header"). -/
  pver : Nat := 0
  deriving DecidableEq, Repr

/-- What the module checks of a host certificate's signature (10 R337, R339): the SHA-256 hash of the signed part, big-endian, and the certificate's own
public key, x + 2^256 y. -/
structure HostCert where
  tbs : Nat
  pub : Nat
  deriving DecidableEq, Repr

/-- A Decant package header (15 R466). -/
structure PkgHeader where
  magicOk : Bool
  hdrLen : Nat
  ncomp : Nat
  productOk : Bool
  version : Nat
  secVer : Nat
  baseHash : Nat
  targetHash : Nat
  pkgLen : Nat
  payloadHash : Nat
  dir : List Comp
  deriving DecidableEq, Repr

/-- One sample of a phase, 24 bits of its voltage and of its current input (07 R222): what decimation, high-pass and the converters' trims give, whose
coefficients the spec does not state (log entry 40). Full scale is the peak of a sine of RMS value FS (R219). The samples of an interval come in
order, from the first whose 125 µs reach into it. -/
structure Sample where
  v : Int
  i : Int
  deriving DecidableEq, Repr

/-- A header of an uplink report as decoded: feeder, minislot, index (04, table "Uplink report, 96 bits"). -/
structure Rep where
  dt : Dt := {}
  f : Nat
  slot : Nat
  idx : Nat
  /-- LEVEL of the report; the types without one give none. -/
  level : Option Nat := none
  deriving DecidableEq, Repr

/-- What one LED position reads at the end of a measurement window (09 R312): voltage in units of 0.05 V. -/
structure LedRead where
  col : Nat
  volt : Nat
  deriving DecidableEq, Repr

/-- A received sign-bus response (09 R323): what the module's checks look at. -/
structure SbusFrame where
  crcOk : Bool
  addr : Nat
  cmd : Nat
  seq : Nat
  status : Nat
  pay : List Nat
  deriving DecidableEq, Repr

/-- A received Ethernet frame, as far as 12 R385-R391 look at it. -/
structure EthFrame where
  src : Nat
  len : Nat
  /-- VLAN identifier of the tag; none untagged. -/
  vid : Option Nat
  /-- PTP message. -/
  ptp : Bool
  /-- Link-local peer-delay frame. -/
  peerDelay : Bool
  /-- PRP trailer: LanId and SequenceNr; none for a frame without a valid trailer. -/
  trailer : Option (Nat × Nat)
  /-- An IP datagram the module handles (VXC or PTP over UDP, ARP, ICMP echo); every other IP datagram is counted. -/
  handled : Bool
  deriving DecidableEq, Repr

/-- What an Announce says of its time scale: PTP_TIMESCALE, currentUtcOffsetValid and currentUtcOffset (12 R406). -/
structure AnnTime where
  ptpScale : Bool := false
  utcValid : Bool := false
  utcOffset : Int := 0
  deriving DecidableEq, Repr

/-- The damage of a stored word: erroneous byte symbols of its codeword of 21, each with the error added to it (17 R512). -/
abbrev Damage := List (Nat × Nat)

/-- The commands of the block: one constructor per row of spec/opcode_table.json. -/
inductive Instr where
  -- SYS (11, table "SYS commands")
  | sysIdentify (r : Req)
  | sysStatus (r : Req)
  | sysSessionOpen (r : Req) (priv certPriv : BitVec 16) (nh epk serial : Nat) (cert : HostCert) (certSig : Nat) (notBefore notAfter : Nat)
  | sysSessionConfirm (r : Req) (sig : Nat)
  | sysSessionClose (r : Req)
  | sysSubscribe (r : Req) (classes : BitVec 16) (sevMin : Nat)
  | sysNotifyRead (r : Req) (first count : Nat)
  | sysSessions (r : Req)
  | sysNetSet (r : Req) (ipv4 mask gw vlan : Nat)
  | sysNetRead (r : Req)
  | sysLifecycle (r : Req) (new serialChk : Nat)
  -- TIME
  | timeTbStatus (r : Req)
  | timeStampRead (r : Req) (hcn count : Nat)
  | timeTbSet (r : Req) (profileSel : Nat) (fdrVset : BitVec 8)
  | timeRtcRead (r : Req)
  | timeRtcSet (r : Req) (year month day hour min sec dst : Nat)
  | timeRtcStep (r : Req) (dir : Nat)
  | timePtpSet (r : Req) (domP domS delayP delayS fallback : Nat)
  | timePtpRead (r : Req)
  -- LINK
  | linkStatus (r : Req)
  | linkAttenSet (r : Req) (feeder atten : Nat)
  | linkStageSet (r : Req) (feeder stage : Nat)
  -- NODE
  | nodeRegister (r : Req) (eui wik wikA addr : Nat)
  | nodeDeregister (r : Req) (eui : Nat)
  | nodeRead (r : Req) (first count : Nat)
  | nodeGroupsRead (r : Req) (addr : Nat)
  | nodeGroupSet (r : Req) (addr gslot group valid : Nat)
  | nodeSceneSet (r : Req) (addr scene level : Nat)
  | nodeParamSet (r : Req) (addr param value : Nat)
  | nodeLevel (r : Req) (group level tgt : Nat)
  | nodeScene (r : Req) (scope group scene tgt : Nat)
  | nodeOverride (r : Req) (scope id level tgt endHcn : Nat)
  -- GRAPH
  | graphStop (r : Req)
  | graphEdgeWrite (r : Req) (first : Nat) (entries : List (BitVec 32))
  | graphNodeWrite (r : Req) (first : Nat) (entries : List (BitVec 128))
  | graphCurveWrite (r : Req) (curve : Nat) (points : List (BitVec 32))
  | graphSlewWrite (r : Req) (slew : Nat) (profile : BitVec 64)
  | graphCfgWrite (r : Req) (substeps ageLimit : Nat)
  | graphRestart (r : Req) (tgt : Nat)
  | graphRead (r : Req) (first count table : Nat)
  | graphStatus (r : Req)
  -- SCHED
  | schedWrite (r : Req) (group : Nat) (header : BitVec 32) (entries : List (BitVec 64))
  | schedRead (r : Req) (group : Nat)
  | schedHolWrite (r : Req) (cal : Nat) (dates : List (BitVec 32))
  | schedHolRead (r : Req) (cal : Nat)
  | schedSiteWrite (r : Req) (site : Site)
  | schedSiteRead (r : Req)
  | schedSunRead (r : Req) (date : BitVec 32)
  | schedLimitsRead (r : Req) (addr : Nat)
  -- METER
  | meterInputSet (r : Req) (tgt input : Nat) (header : BitVec 64) (points : List (BitVec 64))
  | meterGlobalSet (r : Req) (tgt vnomA vnomB saveInt calInt : Nat)
  | meterPulseSet (r : Req) (tgt out qty : Nat) (fdrMask : BitVec 8) (const : Nat)
  | meterCfgRead (r : Req) (sect : Nat)
  | meterRecordRead (r : Req) (feeder hcn count : Nat)
  | meterSubscribe (r : Req) (fdrMask : BitVec 8) (n : Nat)
  | meterSnapshot (r : Req) (tgt : Nat)
  | meterSnapRead (r : Req) (first count : Nat)
  | meterAccRead (r : Req) (first count : Nat)
  | meterGapRead (r : Req)
  | meterCalibrate (r : Req) (input : Nat)
  | meterSatClear (r : Req) (mask : BitVec 8)
  | meterStatus (r : Req)
  -- ACCORD
  | accordModelSet (r : Req) (tgt first : Nat) (entries : List (BitVec 64))
  | accordDefaultSet (r : Req) (entry : BitVec 64)
  | accordModelRead (r : Req) (first count : Nat)
  | accordAccountRead (r : Req) (first count : Nat)
  | accordPhaseRead (r : Req) (first count : Nat)
  | accordSnapshot (r : Req) (tgt : Nat)
  | accordSnapRead (r : Req) (first count sect : Nat)
  | accordCfgSet (r : Req) (resThr attTol : Nat)
  | accordStatus (r : Req)
  -- BLOTTER
  | blotterRequest (r : Req) (addr delta deadline : Nat)
  | blotterCancel (r : Req) (req : Nat)
  | blotterResultRead (r : Req) (mode key count : Nat)
  | blotterNodeRead (r : Req) (first count : Nat)
  | blotterClear (r : Req) (addr : Nat)
  | blotterCfgSet (r : Req) (bc br : BitVec 32)
  | blotterStatus (r : Req)
  -- SIGN
  | signWrite (r : Req) (dest daddr offset : Nat) (data : List Nat)
  | signSwap (r : Req) (mode tgt : Nat) (loc : Bool) (rem : List (Nat × Nat))
  | signCfgSet (r : Req) (cfg : BitVec 32) (gcur : Nat)
  | signTrimSet (r : Req) (first : Nat) (trims : List Nat)
  | signPopSet (r : Req) (row : Nat) (pop : BitVec 64)
  | signDefaultSet (r : Req) (offset : Nat) (commit : Bool) (data : List Nat)
  | signStatus (r : Req)
  | signFaultRead (r : Req) (row : Nat)
  | signBus (r : Req) (port daddr scmd : Nat) (pay : List Nat)
  | signCellSet (r : Req) (col cell : Nat)
  | signColsRead (r : Req)
  -- KEY
  | keySlotRead (r : Req)
  | keyLoad (r : Req) (slot : Nat) (attr : BitVec 64) (wkey wkeyA : Nat)
  | keyGenerate (r : Req) (slot : Nat) (attr : BitVec 64)
  | keyCommit (r : Req) (slot kcv : Nat)
  | keyInvalidate (r : Req) (slot : Nat)
  | keyRollover (r : Req) (feeder tgt : Nat)
  | keyRollRead (r : Req) (feeder : Nat)
  | keyOperatorSet (r : Req) (pub sigFst sigSnd : Nat)
  | keyDenySet (r : Req) (serials : List Nat)
  | keyDenyRead (r : Req)
  | keyTamperSet (r : Req) (respA respB : Nat)
  | keyTamperRead (r : Req)
  | keyTamperAck (r : Req) (input : Nat)
  -- UPD
  | updHeader (r : Req) (hdr : PkgHeader) (sig : Nat)
  | updBlock (r : Req) (offset : Nat) (data : List Nat)
  | updBitmap (r : Req) (first count : Nat)
  | updActivate (r : Req) (tgt : Nat) (hashOk : Bool)
  | updConfirm (r : Req)
  | updAbort (r : Req)
  | updStatus (r : Req)
  | updNodeActivate (r : Req) (img group tgt : Nat)
  | updNodeStatus (r : Req) (first count img : Nat)
  -- LOG
  | logRead (r : Req) (area start count sevMin code : Nat)
  | logClear (r : Req)
  | logStatus (r : Req)
  | logRateSet (r : Req) (code refill : Nat)
  -- MEM
  | memRead (r : Req) (addr width len : Nat) (found : List (Nat × Damage)) (lostAt : Option Nat)
  | memWrite (r : Req) (addr width : Nat) (data : List Nat) (found : List (Nat × Damage)) (lostAt : Option Nat)
  -- TEST
  | testSelftest (r : Req) (kind index : Nat) (pass : Bool) (data : Nat)
  | testReturn (r : Req) (kind index : Nat) (pass : Bool)
  | testRetire (r : Req) (kind index : Nat)
  | testReserves (r : Req)
  | testRestart (r : Req) (target : Nat)
  | testWearSet (r : Req) (kind thresh : Nat)
  -- register accesses of any master
  | registerWrite (dt : Dt) (m : Master) (addr : Nat) (value : BitVec 32)
  | rcCounterRead (dt : Dt) (m : Master) (addr inc : Nat)
  | jncHcnLoRead (dt : Dt) (m : Master)
  | dbSetWrite (dt : Dt) (m : Master) (target : Region) (bits w1c : BitVec 32)
  -- event recorder
  | evtinPortPush (dt : Dt) (region : Region) (code src : Nat) (pay : List Nat)
  | eventLineEntry (dt : Dt) (block code cell : Nat) (pay : List Nat)
  | eventRecordWrite (dt : Dt)
  | tokenRefill (dt : Dt) (code : Nat)
  | logClearEraseDone (dt : Dt)
  -- regions and chip
  | voterDisagree (dt : Dt) (region : Region) (pos : Nat) (allDiffer : Bool)
  | regionRestart (dt : Dt) (region : Region)
  | regionResume (dt : Dt) (region : Region)
  | chipFault (dt : Dt)
  -- time base
  | zeroCrossing (dt : Dt) (rising : Bool) (rms : Nat)
  | setBCrossing (dt : Dt) (rising : Bool) (rms : Nat)
  | hcnEdge (dt : Dt) (found : Bool) (rms : Nat)
  | virtualEdge (dt : Dt)
  | lockStepTimeout (dt : Dt)
  -- link
  | blockClose (dt : Dt) (f : Nat)
  | frameBurstStart (dt : Dt) (f : Nat)
  | uplinkBurstDecoded (dt : Dt) (f slot type idx : Nat) (micCurrent micRetiring : Bool) (snr : Nat)
  | presRise (rep : Rep) (sense strength : Nat) (loc : Bool)
  | presFall (rep : Rep) (last : Nat)
  | daylight (rep : Rep) (lux : Nat) (pres fb : Bool) (temp : Nat)
  | statusReport (rep : Rep) (nflags : BitVec 16) (pver fwver : Nat)
  | ack (rep : Rep) (op result ref : Nat)
  | imgStatus (rep : Rep) (img state missing first : Nat)
  | joinReq (dt : Dt) (f euiHigh euiLow : Nat) (micOkFor : List Nat)
  | quarantineEnd (dt : Dt) (addr : Nat)
  | presTimeout (dt : Dt) (addr : Nat)
  | daylightTimeout (dt : Dt) (addr : Nat)
  | linkInactive50 (dt : Dt) (f : Nat)
  | nodeKeyResend (dt : Dt) (addr : Nat)
  | backgroundResend (dt : Dt) (f id : Nat)
  | echoFailure (dt : Dt) (f : Nat)
  | stageLoadCheck (dt : Dt) (stage : Nat) (pass currentPass rxPass : Bool)
  | spareStageCheck (dt : Dt)
  | extFaultClear (dt : Dt) (f : Nat)
  -- Sillage
  | sillagePass (dt : Dt)
  | passCommit (dt : Dt) (mismatch mismatch2 rerunFits : Bool) (timeUs : Nat)
  | sillageAutoRestart (dt : Dt)
  -- schedules
  | finalConversion (dt : Dt)
  | dstStepIssue (dt : Dt)
  -- metering
  | meterRecordComplete (dt : Dt) (f : Nat) (phases : List (List Sample)) (clip : Bool)
  | pulseStart (dt : Dt) (out : Nat)
  | pulseEnd (dt : Dt) (out : Nat)
  | meterSnapshotComplete (dt : Dt)
  | periodicSave (dt : Dt)
  | converterFailure (dt : Dt) (conv : Nat)
  | spareDwellEnd (dt : Dt) (conv : Nat) (spare : List Nat)
  | calibrationDue (dt : Dt) (input : Nat)
  | calibrationStep (dt : Dt) (within : Bool) (offset gain : Int)
  -- Accord and Blotter
  | levelSnapshotCopy (dt : Dt)
  | accordAttribution (dt : Dt) (f : Nat)
  | windowCorrelate (dt : Dt) (x : Nat)
  | probeAckTimeout (dt : Dt) (addr : Nat)
  | requestRetry (dt : Dt) (req : Nat)
  | requestDeadline (dt : Dt) (req : Nat)
  | autoSweepDue (dt : Dt) (addr : Nat)
  | modelTableStore (dt : Dt)
  -- sign
  | scanSyncEvent (dt : Dt)
  | signSyncEdge (dt : Dt)
  | signSyncLost (dt : Dt)
  | rowSlotStart (dt : Dt)
  | ledMeasure (dt : Dt) (probe : Bool) (reads : List LedRead)
  | swapBoundary (dt : Dt)
  | backCopyDone (dt : Dt)
  | cellFailure (dt : Dt) (cells : List Nat)
  | sinkCellTest (dt : Dt) (cell : Nat) (pass : Bool)
  | sbusSyncSend (dt : Dt)
  | sbusTransaction (dt : Dt) (port : Nat)
  | sbusResponse (dt : Dt) (port : Nat) (fr : SbusFrame)
  | sbusResponseTimeout (dt : Dt) (port : Nat)
  | sbusEchoMismatch (dt : Dt) (port : Nat)
  -- mailbox transport
  | sessionConfirmTimeout (dt : Dt) (ses : Nat)
  | sessionIdleTimeout (dt : Dt) (ses : Nat)
  | usbBusReset (dt : Dt)
  | notificationRelease (dt : Dt) (ses : Nat)
  -- Ethernet, PRP, PTP
  | ethFrameRx (dt : Dt) (port : Nat) (fr : EthFrame)
  | arpRequest (dt : Dt) (port : Arrival) (ip : Nat)
  | icmpEchoRequest (dt : Dt) (port : Arrival)
  | prpSupervisionTx (dt : Dt)
  | ptpSyncRx (dt : Dt) (port : Arrival) (domain seq : Nat) (twoStep : Bool) (t1 err corr : Int) (logInterval : Int)
  | ptpFollowUpRx (dt : Dt) (port : Arrival) (domain seq : Nat) (t1 corr : Int)
  | ptpAnnounceRx (dt : Dt) (port : Arrival) (domain master rank : Nat) (time : AnnTime) (udp : Bool) (logInterval : Int)
  | ptpDelayRespRx (dt : Dt) (port : Arrival) (domain seq : Nat) (t4 corr : Int) (logInterval : Int)
  | ptpPdelayReqRx (dt : Dt) (port : Arrival) (udp : Bool) (seq : Nat) (corr turnaround : Int)
  | ptpPdelayRespRx (dt : Dt) (port : Arrival) (seq : Nat) (err corr : Int)
  | ptpDelayReqTx (dt : Dt) (port domain : Nat) (spread err : Int)
  | ptpSourceLost (dt : Dt) (src : Nat)
  | ptpSourceReturn (dt : Dt) (src : Nat)
  | ptpAdjWrite (dt : Dt) (m : Master) (adj : Int)
  | ptpIncrWrite (dt : Dt) (m : Master) (incr : Nat)
  | ptpTimeNsRead (dt : Dt) (m : Master)
  | rtcHourlyCheck (dt : Dt)
  | ethLinkDown (dt : Dt) (port : Nat)
  | ethLinkUp (dt : Dt) (port speed : Nat)
  -- RTC
  | rtcBlockRead (dt : Dt) (m : Master) (offset : Nat)
  | rtcYearRead (dt : Dt) (m : Master)
  | rtcFreezeTimeout (dt : Dt)
  | rtcFieldWrite (dt : Dt) (m : Master) (offset : Nat) (value : BitVec 32)
  | rtcSecsWrite (dt : Dt) (m : Master) (value : BitVec 32)
  | rtcSetApply (dt : Dt)
  | stepFwd (dt : Dt) (m : Master) (both : Bool)
  | stepBack (dt : Dt) (m : Master) (both : Bool)
  | rtcStepApply (dt : Dt)
  | rtcCalendarWrap (dt : Dt)
  | backupSwitchVbat (dt : Dt)
  | backupSwitchRail (dt : Dt)
  | rtcValidLoss (dt : Dt)
  | tamperAssert (dt : Dt) (inputB : Bool)
  | tlogAck (dt : Dt) (m : Master) (n : Nat)
  -- keys, Decant
  | twinExpiry (dt : Dt) (slot : Nat)
  | stagingEraseDone (dt : Dt)
  | payloadVerifyDone (dt : Dt) (ok : Bool)
  | reconstructionDone (dt : Dt) (ok : Bool)
  | switchRunTimeout (dt : Dt)
  | trialMinute (dt : Dt)
  | nodeImageRoundEnd (dt : Dt) (f : Nat)
  -- memory and DMA
  | scrubVisit (dt : Dt) (mac : Nat) (found : Damage)
  | mramScrubPass (dt : Dt) (corrected uncorrectable : List Nat)
  | dmaStart (dt : Dt) (region : Region) (ch : Nat)
  | dmaAbort (dt : Dt) (region : Region) (ch : Nat)
  | dmaRequest (dt : Dt) (region : Region) (ch : Nat)
  | dmaBurstDone (dt : Dt) (region : Region) (ch : Nat) (data : List Nat) (found : List (Nat × Damage)) (request : Bool)
  | dmaPeriphReset (dt : Dt) (region : Region) (ch : Nat) (beats : Nat)
  | dmaDescEnd (dt : Dt) (region : Region) (ch : Nat)
  | ageMinute (dt : Dt)
  -- supply, reset, start-up
  | supplyFail (dt : Dt)
  | finalSaveComplete (dt : Dt)
  | rtcifIsolate (dt : Dt)
  | supplyCycleReset (dt : Dt)
  | rstNLow (dt : Dt) (lowNs : Nat)
  | resetRelease (dt : Dt) (vin bankCap : Nat) (holdupOk : Bool) (pins : BitVec 8)
  | bootRomDone (dt : Dt) (manifestOkA manifestOkB : Bool) (programOk : Bool)
  | mImageLoaded (dt : Dt)
  | keyStoreReady (dt : Dt)
  | cdImagesLoaded (dt : Dt) (ok : Bool)
  | restoreStep (dt : Dt)
  | lifecycleWipeDone (dt : Dt)
  -- remaining rows
  | unlistedCmdRequest (r : Req) (cmd : Nat)
  | uplinkMinislotEnd (dt : Dt) (f slot : Nat) (detected : Bool) (noise : Nat)
  | tamperRearm (dt : Dt) (inputB : Bool)
  | vinReturn (dt : Dt)
  | holdupEnd (dt : Dt)
  | calibrateStartTimeout (dt : Dt)
  | periodicSaveDone (dt : Dt)
  deriving DecidableEq, Repr

end Sys2Proof
end

