-- ==== Sys2Proof/Decode.lean ====
section
/-!
DEFINITION. The reading of a table word. No row of spec/opcode_table.json gives bits: a command reaches the block as a
message, an access or an event, never as an instruction word (log entry 1).
-/
namespace Sys2Proof

/-- The command that a word spells by the table's bits: none, since no row gives any (log entry 1). -/
def decodeTableWord (_nbits _w : Nat) : Option Instr := none

end Sys2Proof
end

