-- ==== Sys2Proof/Config.lean ====
section
/-!
DEFINITION. What the spec leaves open: free values with no body (nothing in Lean can evaluate one or prove a value of
one), and the cryptographic functions that the spec takes from standards it only names. Each is named in the assumption
log (notes/assumptions).
-/
namespace Sys2Proof.Config

/-- A free value, fresh for each index: applied to State's counter `fresh` (log entry 3). -/
opaque freeNat : Nat → Nat

/-- Whether a result that is no whole number of its unit is rounded up; the spec states no rounding (log entry 4). -/
opaque roundUp : Int → Int → Bool

/-- The widths in bytes, less 1 and modulo 4, of the counter and of the length field of the KDF of 04 R139 and 14 R435: SP 800-108 leaves
them to its user (log entry 2). -/
opaque kdfWidth : Nat → Nat

/-- Drundayth's release key, the public half that the boot ROM holds, x + 2^256 y (15 R466; log entry 2). -/
opaque releaseKey : Unit → Nat

/-- A value of a metering configuration component, by CHASH and item: its content is not in the spec (15 R466; log entry 49). -/
opaque meterImage : Nat → Nat → Nat

/-- A sample code of the fractional-delay filter for a delay in units of 5 ns, at a place in an input's codes (07 R232), and of the filter that retards a
voltage by 90 degrees at every frequency (R228): neither filter's arithmetic is stated (log entry 40). -/
opaque delayed : Int → List Int → Nat → Int
opaque retarded : List Int → Nat → Int

/-- Sunrise (false) or sunset (true) in seconds after local midnight in UTC, for day number, LAT and LON; none where the
event does not occur. 06 R204 states the zenith distance and an error bound, and no algorithm (log entry 5). -/
opaque sunEvent : Nat → Int → Int → Bool → Option Int

/-- Whether a minute of age at a filtered temperature, an irrational value, is held rounded up to 2^-32 s (18 R558; log entry 6). -/
opaque ageRound : Int → Bool

/-- How long a restart that began at a time reads ISOLATED (0) and WIPE (1), in cycles; only bounds are stated (01 R43; log entry 48). -/
opaque restartTime : Nat → Nat → Nat

/-- The value a block register offset reads as where no chapter describes a register there (log entry 7). -/
opaque undescribed : Nat → Nat

/-- What the metering queue of the junction does with a record at a time: 0 when M serves it, 1 when the record waits, more when the queue is full;
neither its depth in records nor its service is stated (07 R238; log entry 41). -/
opaque queueServes : Nat → Nat

/-- How long the firmware takes with a received frame, in cycles, by port and time; 12 R386 states no rate (log entry 47). -/
opaque rxTime : Nat → Nat → Nat

/-- Whether a level of FDR_RLYn holds its feeder off: the carrier decides the polarity (03 R102; log entry 29). -/
opaque relayOff : Bool → Bool

end Sys2Proof.Config
end

