-- ==== Sys2Proof/Machine/Table.lean ====
section
/-!
DEFINITION. A sparse table: a list of (key, value) pairs, keys strictly rising, no entry equal to the table's default.
Every indexed piece of state uses it (node tables, feeders, memory bytes), so equal contents are equal data.
-/
namespace Sys2Proof.Machine

/-- A sparse table from numbers; an unlisted key reads as the default the reader names. -/
abbrev Tbl (α : Type) := List (Nat × α)

/-- Read one key; `d` is the table's default. -/
def tget {α : Type} (d : α) : Tbl α → Nat → α
  | [], _ => d
  | (k, v) :: r, i => if i = k then v else if i < k then d else tget d r i

/-- Remove one key. -/
def tdel {α : Type} : Tbl α → Nat → Tbl α
  | [], _ => []
  | (k, v) :: r, i => if i = k then r else if i < k then (k, v) :: r else (k, v) :: tdel r i

/-- Put one key, in order. -/
def tput {α : Type} : Tbl α → Nat → α → Tbl α
  | [], i, x => [(i, x)]
  | (k, v) :: r, i, x => if i = k then (i, x) :: r else if i < k then (i, x) :: (k, v) :: r else (k, v) :: tput r i x

/-- Write one key: writing the default removes the entry. -/
def tset {α : Type} [DecidableEq α] (d : α) (t : Tbl α) (i : Nat) (x : α) : Tbl α :=
  if x = d then tdel t i else tput t i x

/-- Change one key by a function. -/
def tmod {α : Type} [DecidableEq α] (d : α) (t : Tbl α) (i : Nat) (f : α → α) : Tbl α :=
  tset d t i (f (tget d t i))

/-- Keys above `lo` rise strictly. -/
def tsorted {α : Type} : Nat → Tbl α → Bool
  | _, [] => true
  | lo, (k, _) :: r => decide (lo ≤ k) && tsorted (k + 1) r

/-- The canonical form: keys strictly rising and no entry equal to the default. -/
def twf {α : Type} [DecidableEq α] (d : α) (t : Tbl α) : Bool :=
  tsorted 0 t && t.all (fun e => decide (e.2 ≠ d))

/-- The numbers `a`, `a+1`, … of a range of length `n`. -/
def rangeFrom : Nat → Nat → List Nat
  | _, 0 => []
  | a, n + 1 => a :: rangeFrom (a + 1) n

/-- Two alternating stored copies of a value, each with its sequence number; a copy whose CRC-32 does not hold, or that was never
written, is none (05 R191, 06 R198, 07 R234, 08 R266, 09 R311, 14 R433, R444; log entry 50). -/
structure Copies (α : Type) where
  first : Option (Nat × α) := none
  second : Option (Nat × α) := none
  deriving DecidableEq, Repr

/-- The newer valid copy, with its sequence number. -/
def Copies.top {α : Type} (c : Copies α) : Option (Nat × α) :=
  match c.first, c.second with
  | some x, some y => if x.1 < y.1 then some y else some x
  | some x, none => some x
  | none, o => o

/-- What the newer valid copy holds; none where neither is valid. -/
def Copies.newest {α : Type} (c : Copies α) : Option α := c.top.map Prod.snd

/-- Write a value over the older copy, with the next sequence number. -/
def Copies.put {α : Type} (c : Copies α) (x : α) : Copies α :=
  match c.first, c.second with
  | none, none => { c with first := some (0, x) }
  | some a, none => { c with second := some (a.1 + 1, x) }
  | none, some b => { c with first := some (b.1 + 1, x) }
  | some a, some b => if a.1 < b.1 then { c with first := some (b.1 + 1, x) } else { c with second := some (a.1 + 1, x) }

/-- Write a value over the older copy and destroy the other: key material that goes leaves neither (14 R436, R453). -/
def Copies.only {α : Type} (c : Copies α) (x : α) : Copies α :=
  let w := some ((c.top.map (fun t => t.1 + 1)).getD 0, x)
  match c.first, c.second with
  | some _, none => { first := none, second := w }
  | _, _ => { first := w, second := none }

/-- Write consecutive keys from `i` on. -/
def tsetAll {α : Type} [DecidableEq α] (d : α) (t : Tbl α) (i : Nat) : List α → Tbl α
  | [] => t
  | x :: xs => tsetAll d (tset d t i x) (i + 1) xs

end Sys2Proof.Machine
end

