-- ==== Sys2Proof/Machine/State.lean ====
section
/-!
DEFINITION. The state of the block: every register, queue, buffer, counter, mode and stored record the spec gives the
VXS-4816, as plain data, one structure per functional block, and the queue of waiting commands. A field's default is its
value at reset. Comments name the rule (R<n>) or register that gives the field.
-/
namespace Sys2Proof.Machine

/-- The ways the machine can stop with a fault: none. Every behaviour the spec gives the block is a next state, and a bus
error is an answer to its master (01 R50), so no command raises a fault. Safe. -/
inductive Fault where
  deriving DecidableEq, Repr

/-- The ways a command can be refused by the model. -/
inductive Refusal where
  /-- Raised by exec alone, for a command whose meaning is not written; safe. -/
  | notModelled (mnemonic : String)
  deriving DecidableEq, Repr

/-! ## VXC vocabulary (10, 11) -/

/-- Status codes (11 R357). -/
inductive Status where
  | ok
  | deferred
  | busy
  | badCmd
  | length
  | range
  | state
  | late
  | notFound
  | full
  | conflict
  | auth
  | denied
  | orphaned
  | tamper
  | kcvFail
  | usage
  | product
  | base
  | version
  | signature
  | hash
  | interface
  | timeout
  | busError
  | periphLost
  | discarded
  | notMeasured
  | fault
  deriving DecidableEq, Repr

/-- A payload: fields in byte order, each (value, size in bytes) (11 R350). -/
abbrev Payload := List (Nat × Nat)

/-- A notification held in a session's ring (10 R347). -/
structure Note where
  nseq : Nat
  cmd : Nat
  final : Bool
  st : Status
  pay : Payload
  deriving DecidableEq, Repr

/-- A response as sent, kept for the response cache (10 R342). -/
structure Resp where
  seq : Nat
  cmd : Nat
  st : Status
  pay : Payload
  deriving DecidableEq, Repr

/-- What the block emits at its boundary while it runs one command. -/
inductive Out where
  /-- A VXC response (10 R344): the IPv4 address and UDP port it goes to, none over USB (R333, R341); its TAG, none without a session (R336,
  R348); session, module SEQ, DUP. -/
  | resp (dest : Option (Nat × Nat)) (tag : Option Nat) (ses modSeq : Nat) (dup : Bool) (r : Resp)
  /-- A VXC notification sent (10 R347), as a response is. -/
  | note (dest : Option (Nat × Nat)) (tag : Option Nat) (ses modSeq : Nat) (n : Note)
  /-- A beacon on a feeder: its 36 bits as a number, and the attenuation and stage it goes out with (04 R119). -/
  | beacon (f : Nat) (bits : BitVec 36) (stage atten : Nat)
  /-- The carrier phases, in units of 45 degrees, of one slot on a feeder (03 R94, R98). -/
  | slot (f slotNo : Nat) (phases : List Nat)
  /-- A sign-bus frame on a port (09 R323), and the bits of its characters on SBUSp_TXD, 1 µs each (R322). -/
  | sbus (port : Nat) (frame : List Nat) (line : List Bool)
  /-- A raw register or memory read value (to the master that read). -/
  | readData (addr value : Nat)
  /-- A bus error to the master of the access (01 R50). -/
  | busError (addr : Nat)
  /-- An Ethernet frame sent on a port: kind 0 ARP reply, 1 gratuitous ARP, 2 ICMP echo reply, 3 PRP supervision, 4 the UDP datagram, whole and with
  Don't Fragment set, from port 41620, that carries the message emitted after it (10 R332); source and destination MAC, the latter where a
  rule gives it; LanId and SequenceNr of the PRP trailer; tag, PCP and VID (12 R383, R385, R387, R388). -/
  | eth (port kind src : Nat) (dst : Option Nat) (prp : Nat × Nat) (tag : Option Nat)
  /-- The transfer on a bulk IN endpoint that carries the message emitted after it, by the lengths of its packets (10 R333). -/
  | usb (endpoint : Nat) (packets : List Nat)
  /-- A PTP message sent on a port (12 R391, R396): kind 4 Delay_Req, 5 Pdelay_Req, 6 Pdelay_Resp; sequenceId; over UDP, with its checksum, or over IEEE
  802.3; source MAC, and destination MAC or multicast IPv4 address (R383, R392); tag; originTimestamp in ns, or the correctionField of a
  response, whose requestReceiptTimestamp is `receipt`. -/
  | ptp (port kind seq : Nat) (udp : Option Nat) (src dst : Nat) (tag : Option Nat) (stamp : Int) (receipt : Option Nat)
  /-- A received frame passed up to the layer above (12 R389). -/
  | ethUp (port : Nat) (fr : EthFrame)
  /-- The junction interrupt to a region (01 R38). -/
  | irq (r : Region)
  /-- A pulse output starts conducting, for a width in 10 µs (07 R243, R244). -/
  | pulse (out width : Nat)
  /-- One row slot of the sign scan: the row, the levels of ROW_SEL0-15 while it is selected, the currents of its probe (none outside a
  probe frame) and its pixel currents, per column in units of 1/8 355 840 mA (09 R299, R301, R302, R313). -/
  | row (r : Nat) (sel : BitVec 16) (probe current : List Nat)
  deriving DecidableEq, Repr

/-! ## Event recorder (16) -/

/-- An intake entry (16 R495, R502): the record less SEQ, MARK and CRC. -/
structure EvEntry where
  code : Nat
  src : Nat
  pay : List Nat
  hcn : Nat
  virt : Bool
  rtcSec : Nat
  rtcValid : Bool
  summary : Bool
  /-- Time of intake: entries of one moment go by queue (R495). -/
  time : Nat
  deriving DecidableEq, Repr

/-- Drops or suppressions awaiting their summary (16 R504, R506). -/
structure Tally where
  count : Nat := 0
  first : Nat := 0
  last : Nat := 0
  deriving DecidableEq, Repr

/-- The token bucket of a code (16 R505). -/
structure Bucket where
  tokens : Nat := 8
  /-- Below 8 tokens: since when the next one is due, in CCLK cycles (R505). -/
  since : Nat := 0
  supp : Tally := {}
  deriving DecidableEq, Repr

/-- A value for each region. -/
structure PerRegion (α : Type) where
  c : α
  d : α
  m : α
  deriving DecidableEq, Repr

/-- The recorder's state outside MRAM (16 R502-R511, EVTIN window). -/
structure Intake where
  qC : List EvEntry := []
  qD : List EvEntry := []
  qM : List EvEntry := []
  qX : List EvEntry := []
  dropC : Tally := {}
  dropD : Tally := {}
  dropM : Tally := {}
  dropX : Tally := {}
  buckets : Tbl Bucket := []
  /-- Codes whose SUPPRESSED summary waits for a free chip queue entry (R506). -/
  waitSum : List Nat := []
  /-- Writing paused (EVTIN_STAT PAUSED); reset value 1. -/
  paused : Bool := true
  /-- LOG CLEAR in its step 3 (R510). -/
  clearing : Bool := false
  crcBad : Nat := 0
  nextSeq : Nat := 0
  /-- The entries being written into the intake ports (EVTIN_PORT_x; R502). -/
  ports : PerRegion (BitVec 512) := ⟨0, 0, 0⟩
  permNext : Nat := 0
  circNext : Nat := 0
  suppTotal : Nat := 0
  dropTotal : Nat := 0
  deriving DecidableEq, Repr

/-! ## Mailbox transport and sessions (10) -/

/-- A METER subscription of a session and its running aggregation (07 R238). -/
structure MeterSub where
  fdrMask : BitVec 8
  n : Nat
  /-- Per feeder: intervals gathered so far, newest first, as half-cycle records. -/
  part : Tbl (List (BitVec 640)) := []
  /-- Aggregated records that wait in the junction's metering queue, with their feeder, oldest first. -/
  wait : List (Nat × BitVec 640) := []
  dropped : Nat := 0
  deriving DecidableEq, Repr

/-- One VXC session, half-open ones included (10 R337-R347). -/
structure Session where
  id : Nat
  usb : Bool
  ip : Nat
  port : Nat
  priv : BitVec 16
  halfOpen : Bool
  serial : Nat
  /-- Of a half-open session: the host's public key and the hash that its confirmation signs (R337). -/
  hostPub : Nat := 0
  transcript : Nat := 0
  openedAt : Nat
  lastGood : Nat
  tagFails : List Nat := []
  /-- H of R342. -/
  hi : Nat := 0
  /-- Bit i: SEQ H - i accepted (R342). -/
  seen : BitVec 64 := 0
  answered : List Resp := []
  modSeq : Nat := 0
  classes : BitVec 16 := 0
  sevMin : Nat := 0
  nseq : Nat := 0
  ring : List Note := []
  /-- NSEQ of notifications that wait for the rate limit, oldest first (R347). -/
  waiting : List Nat := []
  lost : Nat := 0
  tokens : Nat := 16
  /-- When the rate limit last gained a notification, or began to fall short of its burst (R347). -/
  tokenAt : Nat := 0
  /-- (SEQ, CMD, source port) accepted and not yet answered (R341, R343). -/
  outst : List (Nat × Nat × Nat) := []
  sub : Option MeterSub := none
  /-- The host-to-module and the module-to-host key, 16 bytes each (R338). -/
  keyIn : Nat := 0
  keyOut : Nat := 0
  deriving DecidableEq, Repr

/-- The counts of discarded messages by kind (10 R335). -/
structure DiscardCnt where
  /-- A length that does not fit LEN, a LEN above 1 400, a RSVD bit set, RESP = 1. -/
  size : Nat := 0
  len : Nat := 0
  rsvd : Nat := 0
  resp : Nat := 0
  tag : Nat := 0
  session : Nat := 0
  sequence : Nat := 0
  source : Nat := 0
  deriving DecidableEq, Repr

/-! ## Actions bound to an HCN (02 R85-R90) -/

/-- What a host-issued action does at its HCN. -/
inductive ActWhat where
  /-- A group or scene command: its link command's number, its members and its level or scene (11 R365). -/
  | groupLevel (cmdId : Nat) (members : List Nat) (level : Nat)
  | sceneRecall (cmdId : Nat) (members : List Nat) (scene : Nat)
  /-- An image activation: its link command's number, IMG, members (15 R490). -/
  | imgActivate (cmdId img : Nat) (members : List Nat)
  | overrideSet (nodes : List Nat) (level : Option Nat) (endHcn : Nat)
  | graphRestart
  | meterInput (input : Nat) (header : BitVec 64) (points : List (BitVec 64))
  | meterGlobal (vnomA vnomB saveInt calInt : Nat)
  | meterPulse (out qty mask const : Nat)
  | meterSnap
  | accordModel (first : Nat) (entries : List (BitVec 64))
  | accordSnap
  | signSwap (loc : Bool) (rem : List (Nat × Nat))
  | probe (addr code delta base req attempt : Nat)
  deriving DecidableEq, Repr

/-- The classes of R88, by rank. -/
structure Action where
  t : Nat
  /-- 1 key, 2 configuration, 3 level, 4 probe, 5 other (R88). -/
  cls : Nat
  /-- Order of acceptance (R88). -/
  order : Nat
  ses : Nat
  seq : Nat
  cmd : Nat
  what : ActWhat
  deriving DecidableEq, Repr

/-! ## Junction, regions and chip level (01, 17, 18, 19) -/

inductive VoterMode where
  | triple
  | duplex
  | rejoin
  | restart
  deriving DecidableEq, Repr

/-- VOTER_STAT of a region (01 R27-R32). -/
structure Voter where
  disagree : Nat := 0
  excluded : BitVec 4 := 0
  members : BitVec 4 := 7
  /-- SPARE_POS; none when SPARE_VALID = 0. -/
  spare : Option Nat := some 3
  mode : VoterMode := .triple
  /-- A core retired by command leaves at the next HCN edge (18 R565). -/
  retire : Option Nat := none
  deriving DecidableEq, Repr

inductive RegionState where
  | run
  | isolated
  | wipe
  | load
  deriving DecidableEq, Repr

/-- A region's entry in JNC_REGION_STAT (01 R43). -/
structure RegionStat where
  st : RegionState := .run
  restarts : Nat := 0
  /-- When the last restart began. -/
  at_ : Nat := 0
  deriving DecidableEq, Repr

/-- The memory registers and tracking of one SRAM macro (17 R516-R521). -/
structure Macro where
  uncorr : Nat := 0
  corr : Nat := 0
  uaddr : Option Nat := none
  passCnt : Nat := 0
  ptr : Nat := 0
  /-- When the scrubber made its last visit (R518). -/
  visitAt : Nat := 0
  /-- Tracking table: (word, count), oldest first (R519). -/
  track : List (Nat × Nat) := []
  deriving DecidableEq, Repr

/-- State of a DMA channel or context (17, CH_STAT). -/
inductive DmaState where
  | idle
  | wait
  | active
  | stopping
  deriving DecidableEq, Repr

/-- A cell channel or region engine context with its transfer in progress (17 R530-R544). -/
structure Channel where
  /-- CH_DESC. -/
  desc : Nat := 0
  st : DmaState := .idle
  lastCode : Nat := 0
  done : Nat := 0
  /-- The descriptor as fetched. -/
  raw : BitVec 512 := 0
  /-- Index of the pair and bytes done of it (channel); bytes of the descriptor, and bytes transferred. -/
  pair : Nat := 0
  off : Nat := 0
  total : Nat := 0
  moved : Nat := 0
  abortReq : Bool := false
  /-- CODE that the descriptor ends with, LOST_ADDR and LOST_LEN. -/
  code : Nat := 0
  lostAddr : Nat := 0
  lostLen : Nat := 0
  /-- The peripheral's request line. -/
  request : Bool := false
  deriving DecidableEq, Repr

/-- The DMA block of a region: channels 0-15, contexts as 16-19, DMA_IRQ (17 R530, R544). -/
structure DmaBlock where
  ch : Tbl Channel := []
  /-- The context that took the last burst (R530). -/
  turn : Nat := 3
  irq : BitVec 32 := 0
  deriving DecidableEq, Repr

/-- The junction's registers (01 R38-R42). -/
structure Junction where
  dbPend : PerRegion (BitVec 32) := ⟨0, 0, 0⟩
  hcnHiLatch : Option Nat := none
  /-- Stamp history by k mod 1 024 (02 R81). -/
  stamps : Tbl (BitVec 256) := []
  /-- Level snapshot buffers 0 and 1 (08 R262), keyed 16 384 × buffer + address; absent entries read ABSENT. -/
  snap : Tbl (BitVec 16) := []
  /-- HCN of the newest snapshot published, and whether D still has it to copy (08 R262, R264). -/
  snapHcn : Option Nat := none
  snapDue : Bool := false
  /-- The Blotter results area, 512 records, and the position of the next one (01 R37; 08 R296; log entry 37). -/
  results : Tbl (BitVec 256) := []
  resNext : Nat := 0
  regions : PerRegion RegionStat := ⟨{}, {}, {}⟩
  voters : PerRegion Voter := ⟨{}, {}, {}⟩
  dma : PerRegion DmaBlock := ⟨{}, {}, {}⟩
  /-- Macros: C 0-47, D 48-79, M 80-127, junction 128-129. -/
  macros : Tbl Macro := []
  /-- CFABRIC's count of corrected beats (18 R550). -/
  fabricCorr : Nat := 0
  deriving DecidableEq, Repr

/-- Where start-up stands (19 R582). -/
inductive Phase where
  | reset
  | bootRom
  | loadM
  | mRuns
  | keysReady
  | cdRun
  | lockStep
  | complete
  | bootStuck
  deriving DecidableEq, Repr

/-- The supply and reset block (19 R569-R586). -/
structure Power where
  phase : Phase := .reset
  /-- Cause of the reset that led here; RST_CAUSE shows it once start-up completes. -/
  cause : Nat := 1
  vin : Nat := 0
  bankCap : Nat := 0
  holdupOk : Bool := false
  supplyFail : Bool := false
  /-- A shutdown by command runs (R578). -/
  cmdShutdown : Bool := false
  /-- VIN is back and the 100 ms count runs (R575), from the time below. -/
  vinBack : Bool := false
  vinAt : Nat := 0
  /-- When the loads were shed (R574), and when supply fail was detected (R573). -/
  shedAt : Nat := 0
  failAt : Nat := 0
  /-- The SUPPLY_FAIL record has been written (R507, R575). -/
  failRecDone : Bool := false
  /-- The final save's node part is complete (R249). -/
  finalDone : Bool := false
  drive : BitVec 8 := 0
  pinLvl : BitVec 8 := 0
  /-- Feeders that their relay level holds off (03 R102). -/
  fdrOff : BitVec 8 := 0
  /-- Pending actions that the last module reset discarded, by the region that held them (02 R90). -/
  lostActs : PerRegion Nat := ⟨0, 0, 0⟩
  /-- Outputs at high impedance (R580): sign outputs, sign bus, row selects; pulse outputs. -/
  signHiZ : Bool := true
  pulseHiZ : Bool := true
  deriving DecidableEq, Repr

/-! ## Half-cycle time base (02) -/

inductive TbState where
  | hold
  | locked
  | slew
  | virtual
  | outOfProfile
  | qualify
  deriving DecidableEq, Repr

/-- Voltage set B (02 R77, R78). -/
structure SetB where
  present : Bool := false
  /-- The mapping exists; BOFS of the current HCN in CCLK cycles. -/
  mapped : Bool := false
  bofs : Int := 0
  absent : Nat := 0
  /-- Newest HCNs that a crossing was assigned to, newest first, each with the verdict of its RMS check. -/
  got : List (Nat × Bool) := []
  /-- A crossing assigned to the next HCN ahead of its edge: time and RMS verdict. -/
  early : Option (Nat × Bool) := none
  /-- Time of the last set-B crossing. -/
  lastCross : Option Nat := none
  /-- Consecutive crossings missing, and the newest intervals (07 R231). -/
  missing : Nat := 0
  hist : List Nat := []
  good : Nat := 0
  /-- Start of the metering interval of a set-B feeder, (HCN, time), newest first (07 R223, R225). -/
  cuts : List (Nat × Nat) := []
  /-- The newest HCN whose presence has been judged (R78). -/
  judged : Nat := 0
  /-- The HCN of the newest remap, and the time at which the crossing that the old mapping assigns to it is expected, until it has come (R77;
  07 R225). -/
  remap : Option Nat := none
  oldCut : Option Nat := none
  deriving DecidableEq, Repr

/-- The time base (02). Times are in CCLK cycles of 2.5 ns. -/
structure TimeBase where
  st : TbState := .hold
  hcn : Nat := 0
  /-- An HCN has been issued in this run. -/
  running : Bool := false
  flags : BitVec 10 := 0
  relockCnt : Nat := 0
  period : Nat := 0
  setB : SetB := {}
  /-- In force this run (R59, R76). -/
  sel : Nat := 0
  vset : BitVec 8 := 0
  /-- Profile: false 50 Hz, true 60 Hz; fixed under AUTO (R60). -/
  p60 : Bool := false
  fixed : Bool := false
  /-- The last real half-cycles, and those whose 8-half-cycle mean was valid (R68), newest first, at most 16. -/
  hist : List Nat := []
  goodHist : List Nat := []
  /-- Real half-cycles since the crossings were last broken, at most 16. -/
  chain : Nat := 0
  lastCross : Option Nat := none
  lastRising : Bool := false
  /-- The half-cycle that ended at the last crossing had 40 % of the nominal voltage (R65). -/
  lastOk : Bool := false
  /-- Consecutive out-of-range half-cycles (R61), phase errors over 1 ms (R67), missing half-cycles (R65). -/
  outCnt : Nat := 0
  phaseCnt : Nat := 0
  missCnt : Nat := 0
  /-- Consecutive missing crossings of set A (07 R231). -/
  freqMiss : Nat := 0
  freqGood : Nat := 0
  /-- Qualification: qualifying half-cycles counted, and whether it came from OUT_OF_PROFILE (R63). -/
  qCount : Nat := 0
  qFromOop : Bool := false
  /-- QUALIFY is complete; the next edge is the reference edge (R69). -/
  relockNext : Bool := false
  slewNext : Bool := false
  /-- Edges issued in LOCKED since its entry, up to 17 (R64). -/
  lockEdges : Nat := 0
  /-- Time of the crossing that the newest edge converges on (R66, R69); the offset and the count of slewed half-cycles (R70,
  R72); the reference edge, (HCN, time), until its crossing has come. -/
  target : Nat := 0
  offset0 : Nat := 0
  slewed : Nat := 0
  refAt : Option (Nat × Nat) := none
  /-- Time of the last edge, and of the newest edges as (HCN, time), newest first. -/
  lastEdge : Nat := 0
  cuts : List (Nat × Nat) := []
  /-- Nominal voltages in force (07 R221), mV. -/
  vnomA : Nat := 0
  vnomB : Nat := 0
  /-- The virtual period and the time of the last virtual edge, in 1/48 CCLK cycle (R68). -/
  virtPeriod : Nat := 0
  virtAt : Nat := 0
  /-- Start of the lock step (R74). -/
  lockAt : Nat := 0
  /-- Saved HCN s and resume value u (R73). -/
  savedS : Nat := 0
  resume : Nat := 0
  /-- RTC written or stepped, PTP stepped, since the previous edge (R82). -/
  rtcStep : Bool := false
  ptpStep : Bool := false
  deriving DecidableEq, Repr

/-! ## Wetur link (03, 04) -/

/-- The stage bank (03 R108-R115). -/
structure StageBank where
  /-- Stage driving feeder n; default n (WTX_ASSIGN). `none` is Fh. -/
  assign : Tbl (Option Nat) := []
  spare : Option Nat := some 8
  spareValid : Bool := true
  excluded : BitVec 9 := 0
  extFault : BitVec 8 := 0
  muted : BitVec 8 := 0
  atten : Tbl Nat := []
  /-- Stages that wait for their load check: (stage, feeder it drove), ascending (R111, R113). -/
  suspects : List (Nat × Nat) := []
  /-- A STAGE_SET waits for the feeder's next frame boundary: (feeder, stage) (R114). -/
  setNext : List (Nat × Nat) := []
  /-- Feeders whose stage is to be excluded at that boundary (18 R565). -/
  retiring : BitVec 8 := 0
  /-- The newest substitution: the feeder that took the spare, and when (R113). -/
  lastSub : Option (Nat × Nat) := none
  /-- HCN at which a suspect was last checked: one in a frame (R113). -/
  checked : Option Nat := none
  deriving DecidableEq, Repr

/-- A receive path and its echo check (03 R106, R107, R116). -/
structure RxPath where
  echoFail : Nat := 0
  rxFail : Bool := false
  /-- (HCN, value) of the last 256 frames' bursts and silent minislots. -/
  snrs : List (Nat × Nat) := []
  noises : List (Nat × Nat) := []
  /-- Frames driven since learning of the gain began, up to 17; LEARNING from 1 to 16. -/
  learn : Nat := 0
  /-- Frame and minislot of the last burst decoded: one in a minislot (R106). -/
  got : Option (Nat × Nat) := none
  decoded : Nat := 0
  decodeFail : Nat := 0
  badType : Nat := 0
  badMic : Nat := 0
  badSlot : Nat := 0
  deriving DecidableEq, Repr

/-- A downlink item (04, table "Downlink items"). -/
inductive Item where
  | groupLevel (cseq group level exec : Nat)
  | sceneRecall (cseq group scene exec : Nat)
  | sceneAll (cseq scene exec : Nat)
  | probe (idx code delta start : Nat)
  | groupSet (idx gslot group valid : Nat)
  | sceneSet (idx scene level : Nat)
  | nodeCfg (idx param value : Nat)
  | leave (idx : Nat)
  | keyFeeder (gen exec : Nat)
  | nodeKey (idx ksel gen : Nat)
  | imgBlock (img blk : Nat)
  | imgActivate (cseq img group exec : Nat)
  deriving DecidableEq, Repr

/-- A link command on one feeder (04 R128, R129). -/
structure LinkCmd where
  id : Nat
  /-- Order of acceptance, and the HCN of acceptance. -/
  order : Nat
  accHcn : Nat
  t : Nat
  item : Item
  sent : Nat := 0
  cseq : Option Nat := none
  deriving DecidableEq, Repr

/-- A background item (04 R127, R610). -/
structure BgItem where
  id : Nat
  item : Item
  sent : Nat := 0
  /-- Waiting to be placed in a block. -/
  due : Bool := true
  /-- Frame of the last transmission. -/
  sentAt : Nat := 0
  /-- Part of a node's configuration sent after a join; its record is already kept. -/
  joinCfg : Bool := false
  deriving DecidableEq, Repr

/-- A join in progress: the EUI, the index assigned, JHCN, and which of the two JOIN_KEYs are still to send (04 R146). -/
structure Join where
  eui : Nat
  idx : Nat
  jhcn : Nat
  ksel1 : Bool := true
  ksel0 : Bool := true
  deriving DecidableEq, Repr

/-- A change-queue entry (05 R175). -/
structure QEntry where
  idx : Nat
  level : Nat
  hcn : Nat
  /-- HEAD mark: position among the HEAD entries, none without it. -/
  head : Option Nat := none
  deriving DecidableEq, Repr

/-- A level record in a block: the node index, the level, and for R110 the HCN its change entered the queue, the SENT it replaced, its
rank among all placements (05 R176), and the level in force that it replaces with whether that was known. -/
structure LevelRec where
  idx : Nat
  level : Nat
  entered : Nat
  before : Nat
  rank : Nat := 0
  force : Nat := 10000
  known : Bool := false
  deriving DecidableEq, Repr

/-- The JOIN_KEY of an open block (04, table "Open block content"). -/
structure JoinKey where
  eui : Nat
  idx : Nat
  ksel : Nat
  jhcn : Nat
  deriving DecidableEq, Repr

/-- A closed block and what the MAC needs to resend it (04 R126, 03 R110). -/
structure Block where
  hcn : Nat
  bt : Nat
  kgen : Nat := 0
  rrNow : Nat := 64
  rrNext : Nat := 64
  /-- RR_NEXT as carried before this block. -/
  rrPrev : Nat := 64
  levels : List LevelRec := []
  items : List Item := []
  join : Option JoinKey := none
  deriving DecidableEq, Repr

/-- Distribution of one node image on a feeder (15 R487, R488). -/
structure ImgDist where
  img : Nat
  round : Nat := 1
  next : Nat := 0
  nblk : Nat := 0
  waiting : Bool := false
  /-- Frame of the last block sent. -/
  endedAt : Nat := 0
  deriving DecidableEq, Repr

/-- One feeder of the link. -/
structure Feeder where
  /-- The link is active in the half-cycle of the newest edge (R102); the frame under way is active, and its HCN. -/
  active : Bool := false
  live : Bool := false
  frame : Nat := 0
  /-- The reference instant of that frame, and the HCN before the newest whose frame has still to start (02 R76, 03 R99). -/
  refTime : Nat := 0
  owed : Option Nat := none
  /-- The block of the frame under way has been closed. -/
  closed : Bool := false
  /-- Phases of beacon slot 1 of this frame, the reference of slot 2 (R98). -/
  ref : List Nat := []
  /-- Consecutive inactive frames; frames left of the first 8 active; this frame is one of them (R126, R154). -/
  inactive : Nat := 50
  first8 : Nat := 8
  resync : Bool := false
  /-- CACK for the next beacon (R118). -/
  cack : Nat := 31
  /-- RR_NOW in force, and RR_NEXT as last carried by a full-HCN block (R135). -/
  rrNow : Nat := 64
  rrNext : Nat := 64
  /-- RR_NOW before the newest edge: that of a set-B frame that runs on past it. -/
  rrWas : Nat := 64
  /-- Joins pending, oldest first (R146). -/
  joins : List Join := []
  cmds : List LinkCmd := []
  cseq : Nat := 0
  queue : List QEntry := []
  /-- Placements so far: the rank of the next one (05 R176). -/
  headCnt : Nat := 0
  /-- The block of the current frame, and whether an echo failure damaged it (03 R110). -/
  block : Option Block := none
  damaged : Bool := false
  /-- A damaged frame's items to send again, and whether it was full-HCN. -/
  resend : List Item := []
  resendFull : Bool := false
  /-- Frames since the last substitution (R112), held echo failure, frames that passed since EXT_FAULT. -/
  sinceSub : Nat := 9
  heldFail : Bool := false
  /-- HCN at which the stage that waits for its load check was taken off this feeder (R111). -/
  suspAt : Nat := 0
  /-- The suspect of the last substitution has passed its load check (R111). -/
  subPassed : Bool := false
  extPass : Nat := 0
  satRun : Nat := 0
  sat : Bool := false
  satTold : Bool := false
  satFrames : Nat := 0
  aged : Nat := 0
  age : Nat := 0
  /-- Distribution of a rollover: the HCN it began at, KEY_FEEDER waits to be placed, and the nodes whose NODE_KEY waits, in
  order (R142). -/
  kfStart : Nat := 0
  kfDue : Bool := false
  keyQ : List Nat := []
  dist : List ImgDist := []
  /-- Frames of the last 16 in which the queue was saturated ended this many frames ago (08 R278). -/
  sinceSat : Nat := 16
  /-- Reports under a retired generation were recorded (R143). -/
  oldGenEvent : Bool := false
  /-- HCNs of the newest frames in which the link was inactive (08 R283). -/
  idle : List Nat := []
  deriving DecidableEq, Repr

/-- A node's last IMG_STATUS of an image (15 R488, R489): STATE, MISSING, FIRST, its frame, and the frame of the first report since
which it has read COMPLETE or SCHEDULED. -/
structure ImgState where
  st : Nat := 0
  missing : Nat := 0
  first : Nat := 0
  frame : Nat := 0
  ready : Option Nat := none
  deriving DecidableEq, Repr

/-- The module's volatile knowledge of a joined node (04, 05, 08). -/
structure NodeDyn where
  pver : Nat := 0
  fwver : Nat := 0
  nflags : BitVec 16 := 0
  level : Nat := 0
  temp : Nat := 0
  lastRx : Nat := 0
  /-- Frames of the last DAYLIGHT report and of the last scheduled report. -/
  lastDl : Nat := 0
  lastTurn : Nat := 0
  incompatible : Bool := false
  /-- Quarantine until the event ends it; contention reports counted in the window (R137). -/
  quarNext : Bool := false
  quarantined : Bool := false
  quarFrom : Nat := 0
  contention : List Nat := []
  /-- Frame of a local raise's end: r + 2 of R152, while raised. -/
  localUntil : Option Nat := none
  /-- Level in force (08 R262) and whether it is known (R263). -/
  force : Nat := 10000
  known : Bool := false
  /-- The last group or scene command that took effect: its HCN and its order (05 R177). -/
  cmdAt : Nat × Nat := (0, 0)
  /-- Change placed in the last block: takes effect at the next edge. -/
  next : Option Nat := none
  /-- Key generation acknowledged (R144) and transmissions of NODE_KEY. -/
  keyAcked : Bool := false
  keySent : Nat := 0
  keySentAt : Nat := 0
  /-- Probe under way: START, code, step, base (R153). -/
  probe : Option (Nat × Nat × Nat × Nat) := none
  /-- Last IMG_STATUS per IMG. -/
  img : Tbl ImgState := []
  deriving DecidableEq, Repr

/-! ## Sillage engine (05) -/

inductive SilState where
  | stopped
  | run
  | restartPending
  | faulted
  deriving DecidableEq, Repr

/-- The Sillage tables as the words of the Sillage range (05 R163). -/
structure SilTables where
  edges : Tbl (BitVec 32) := []
  nodes : Tbl (BitVec 128) := []
  states : Tbl (BitVec 64) := []
  /-- What a state word that is not listed reads: 0 until SENT and OUT come back (R193, R194), then both unknown. -/
  stDef : BitVec 64 := 0
  /-- Entries not listed read `limDef`: the entry of a node that no schedule and no override touches (06 R208). -/
  limDef : BitVec 64 := 0
  limits : Tbl (BitVec 64) := []
  /-- Field history, keyed 16 384 × slot + address. -/
  hist : Tbl (BitVec 16) := []
  sensors : Tbl (BitVec 32) := []
  /-- Curve points, keyed 16 × curve + point. -/
  curves : Tbl (BitVec 32) := []
  slews : Tbl (BitVec 64) := []
  deriving DecidableEq, Repr

/-- A sensor change that the MAC hands over between passes (05 R158): bits to clear, bits to set, and whether SENT becomes
unknown (R183). -/
structure SensorMsg where
  addr : Nat
  clr : BitVec 32
  bits : BitVec 32
  unknown : Bool
  deriving DecidableEq, Repr

structure Sillage where
  st : SilState := .stopped
  autoRestarted : Bool := false
  ageLimit : Nat := 0
  substeps : Nat := 0
  passLimit : Nat := 0
  passTime : Nat := 0
  abandonCnt : Nat := 0
  rerunCnt : Nat := 0
  faultCnt : Nat := 0
  last : Nat := 0
  rst : Nat := 0
  lastHiLatch : Option Nat := none
  tab : SilTables := {}
  /-- HCN of the pass that runs, with its results not yet committed: (address, PHI), and (address, GOAL, OUT) of managed
  nodes; and the nodes whose SENT and OUT a command set while it runs. -/
  pass : Option Nat := none
  newPhi : List (Nat × Nat) := []
  newOut : List (Nat × Nat × Nat) := []
  touched : List Nat := []
  held : List SensorMsg := []
  /-- GRAPH STOPs that wait for the running pass to commit: (session, SEQ). -/
  stopBy : List (Nat × Nat) := []
  abandonRun : Nat := 0
  faultAt : Nat := 0
  autoAt : Option Nat := none
  /-- The engine enters RUN at the next HCN edge (R194). -/
  runNext : Bool := false
  /-- The first HCN with a pass since RUN was entered, and the HCN of the last pass that started (R157). -/
  firstPass : Nat := 0
  started : Option Nat := none
  /-- The limit array waits for the running pass to commit (R168). -/
  limitWait : Bool := false
  /-- Bus errors that stopped the running pass (01 R50). -/
  busStops : Nat := 0
  deriving DecidableEq, Repr

/-! ## Schedules (06) -/

/-- A converted target in C-region SRAM (06 R210, R211). -/
structure SchedTarget where
  group : Nat
  entry : Nat
  /-- Day number and second of the civil instant. -/
  day : Nat
  sec : Nat
  hcn : Nat
  /-- Converted finally; only limit targets stay listed then. -/
  final : Bool
  deriving DecidableEq, Repr

/-- Merged limits bound to HCN t, as they stand at a civil time in seconds; none while civil time is invalid (06 R208, R212,
R216). -/
structure LimitAct where
  t : Nat
  civil : Option Nat
  deriving DecidableEq, Repr

structure Sched where
  targets : List SchedTarget := []
  limitActs : List LimitAct := []
  /-- Civil second whose limits were written last: a write that was bound earlier does not take it back (R206, R212). -/
  upTo : Nat := 0
  /-- Scene commands accepted from schedules (06 R209). -/
  cmds : List Action := []
  /-- Civil day whose midnight was handled last (R210). -/
  lastDay : Option Nat := none
  /-- Civil time was valid at the last look (R216). -/
  wasValid : Bool := false
  /-- The step the module has issued: forward or back (R200). -/
  ownStep : Option Bool := none
  deriving DecidableEq, Repr

/-! ## Feeder metering (07) -/

inductive Role where
  | measure
  | spare
  | shadow
  | cal
  | excluded
  deriving DecidableEq, Repr

/-- A converter (07 R252-R259). -/
structure Conv where
  role : Role := .measure
  input : Nat := 63
  deriving DecidableEq, Repr

/-- A calibration in progress (07 R257, R258); `retire` for a RETIRE by shadow and switch (18 R565). -/
structure Calib where
  conv : Nat
  input : Nat
  spare : Nat
  /-- The HCN of boundary b, the step reached (0 before b), and the input of the spare's dwell. -/
  b : Nat
  step : Nat := 0
  dwell : Nat := 0
  retire : Bool := false
  deriving DecidableEq, Repr

/-- A calibration that is due: the input, the METER CALIBRATE that waits for it with its time of acceptance, and a retirement
(18 R565). -/
structure CalWait where
  input : Nat
  who : Option (Nat × Nat × Nat) := none
  retire : Bool := false
  /-- Due by CAL_INT: these start in ascending input order, after those due at once (R257). -/
  periodic : Bool := false
  deriving DecidableEq, Repr

/-- An input's configuration (07 R232): header and 16 temperature points. -/
structure InputCfg where
  header : BitVec 64
  points : List (BitVec 64)
  deriving DecidableEq, Repr

/-- Pulse settings of an output (07 PULSE_SRC, PULSE_CONST). -/
structure PulseCfg where
  qty : Nat := 0
  mask : BitVec 8 := 0
  const : Nat := 0
  deriving DecidableEq, Repr

/-- The metering configuration held in MRAM (07 R234). -/
structure MeterCfg where
  inputs : Tbl InputCfg := []
  vnomA : Nat := 230000
  vnomB : Nat := 230000
  saveInt : Nat := 1
  calInt : Nat := 24
  pulse : Tbl PulseCfg := []
  deriving DecidableEq, Repr

/-- A pulse output (07 R243-R246). Energy in units of 2^-32. -/
structure Pulse where
  reg : Nat := 0
  pend : Nat := 0
  sat : Bool := false
  conducting : Bool := false
  /-- Width of the pulse under way in 10 µs, and the end of the gap after the last pulse. -/
  width : Nat := 0
  gapEnd : Nat := 0
  /-- When the pulse under way began. -/
  began : Nat := 0
  /-- Source power of the newest intervals, (HCN, sum, feeders taken in), newest first. -/
  powers : List (Nat × Nat × Nat) := []
  /-- Time at which PEND last reached FFFFh or lost a pulse (R260). -/
  satAt : Nat := 0
  /-- The first HCN counted under the settings in force. -/
  since : Nat := 0
  deriving DecidableEq, Repr

/-- The summed state a save or a snapshot copies (07 R242, R247). LONG and fraction as one count of 2^-32. -/
structure Totals where
  acc : Tbl Nat := []
  accounts : Tbl (BitVec 128) := []
  phases : Tbl (BitVec 512) := []
  pulseA : Nat × Nat := (0, 0)
  pulseB : Nat × Nat := (0, 0)
  deriving DecidableEq, Repr

inductive SnapState where
  | none
  | pending
  | filling
  | ready
  deriving DecidableEq, Repr

/-- A snapshot buffer (07 R242, 08 R272). -/
structure Snap where
  st : SnapState := .none
  t : Nat := 0
  stamp : BitVec 256 := 0
  tot : Totals := {}
  deriving DecidableEq, Repr

/-- An energy gap (07 R250, R251): payload word and split. -/
structure Gap where
  pay : BitVec 256
  split : List Nat
  deriving DecidableEq, Repr

/-- An ENERGY_GAP record to make at the first metered interval (07 R250): HCN_FROM, KIND, whether the module restarted, the
save's RTC time (none when not valid), and the saved means. -/
structure GapOpen where
  fromHcn : Nat
  kind : Nat
  module : Bool
  rtc : Option (Nat × Nat)
  means : List Nat
  deriving DecidableEq, Repr

/-- Metering state of the D-region (07). -/
structure Meter where
  /-- Converters; unlisted ones have the role and input of their reset. -/
  conv : Tbl (Option Conv) := []
  /-- Filtered temperature, the sensor's failure, and the readings at the newest edges as (HCN, reading, failed). -/
  temp : Int := 0
  tempFail : Bool := false
  /-- The filter's value in units of 2^-16 of 0.125 °C, and the time of its last measurement (R233). -/
  tempAcc : Int := 0
  tempAt : Option Nat := none
  temps : List (Nat × Int × Bool) := []
  failCnt : Nat := 0
  driftCnt : Nat := 0
  calCnt : Nat := 0
  infail : BitVec 30 := 0
  /-- HCN at which an input failed, and the spans of time in which inputs had no converter, newest first (R255). -/
  failFrom : Tbl Nat := []
  failSpans : Tbl (List (Nat × Option Nat)) := []
  /-- The configuration in force, and those it replaced with the HCN of the change, newest first (R234). -/
  cfg : MeterCfg := ⟨[], 0, 0, 0, 0, []⟩
  cfgs : List (Nat × MeterCfg) := []
  /-- The accumulators of R239, in units of 2^-32. -/
  acc : Tbl Nat := []
  pulse : Tbl Pulse := []
  /-- The last 256 records per feeder, newest first (R237). -/
  records : Tbl (List (BitVec 640)) := []
  /-- The spans of time in which samples of an input are interpolated, newest first (R254, R256). -/
  interpAt : Tbl (List (Nat × Nat)) := []
  /-- The instant of the first sample since the converters' one start (R222), and the newest codes of an input as (number of the first one,
  codes), newest first (R254). -/
  sampleAt : Nat := 0
  hist : Tbl (List (Nat × List Int)) := []
  /-- Active import per phase index, (HCN, mW), newest first (R247). -/
  imports : Tbl (List (Nat × Nat)) := []
  snap : Snap := {}
  saveSeq : Nat := 0
  saveHcn : Nat := 0
  saveHiLatch : Option Nat := none
  /-- A periodic save whose state is forming, by its s, with the totals after every interval of HCN s - 1 and earlier
  (R247). -/
  saveFill : Option Nat := none
  saveTot : Totals := {}
  /-- The save slot being written, and its s. -/
  saving : Option (Nat × Nat) := none
  /-- Time at which the final save closed the intervals (R249). -/
  closed : Option Nat := none
  gapOpen : Option GapOpen := none
  calib : Option Calib := none
  /-- Calibrations that are due, oldest first. -/
  calDue : List CalWait := []
  /-- First HCN metered since metering began (R226), and per feeder one above the HCN of the last record. -/
  begun : Option Nat := none
  next : Tbl Nat := []
  /-- Per feeder the end of its last record's interval: the next one begins there (R223). -/
  ended : Tbl (Option Nat) := []
  /-- The HCN at which a spare's dwell began (R253), and the time of an input's last calibration (R257). -/
  dwellAt : Tbl Nat := []
  calAt : Tbl Nat := []
  /-- MAFE_AGE in 2^-32 s, and MAFE_HOURS in s (18 R558). -/
  age : Nat := 0
  hours : Nat := 0
  /-- When the minute of age under way began (18 R558). -/
  ageAt : Nat := 0
  deriving DecidableEq, Repr

/-! ## Accord and Blotter (08) -/

/-- A Blotter request (08 R277). -/
structure PReq where
  id : Nat
  addr : Nat
  ses : Nat
  /-- 0: 24 h from acceptance is given as an absolute HCN. -/
  deadline : Nat
  delta : Nat
  /-- Priority order 1-5 of R277. -/
  prio : Nat
  attempt : Nat := 1
  /-- Deferred with a cause (0: not deferred); retry not before. -/
  cause : Nat := 0
  retryAt : Nat := 0
  /-- Commanded for START with code. -/
  start : Option Nat := none
  code : Nat := 0
  /-- Outcome of attempt 1, 0 before it (R289). -/
  out1 : Nat := 0
  /-- Cancelled by the host after it was commanded: its result is not notified (11 R371). -/
  quiet : Bool := false
  /-- R - E of attempt 1 was negative; code of attempt 1. -/
  neg : Bool := false
  code1 : Nat := 0
  /-- START of the newest window it was commanded for; 0 before one (R296). -/
  lastStart : Nat := 0
  deriving DecidableEq, Repr

/-- A judged probe whose result waits for its ACK (08 R285, R286). -/
structure Judged where
  outcome : Nat
  r : Int
  e : Int
  phase : Nat
  nf : Nat
  deriving DecidableEq, Repr

/-- A probe in a window (08 R281-R287). -/
structure Probe where
  req : Nat
  addr : Nat
  code : Nat
  delta : Nat
  base : Nat
  start : Nat
  attempt : Nat
  /-- Judged, and the RESULT of an ACK that has come (R286). -/
  judged : Option Judged := none
  ackRes : Option Nat := none
  deriving DecidableEq, Repr

/-- The correlator's noise floor of a phase (08 R284). -/
structure Noise where
  nf : Nat := 0
  samples : List Int := []
  deriving DecidableEq, Repr

structure Accord where
  default : BitVec 64 := 0
  models : Tbl (BitVec 64) := []
  accounts : Tbl (BitVec 128) := []
  phases : Tbl (BitVec 512) := []
  /-- Entries that writes and learning replaced: (first HCN of the new one, address, old entry), newest first (R266, R293). -/
  modelWas : List (Nat × Nat × BitVec 64) := []
  /-- Fraction of UNC per node, in units of 2^-32 mWh. -/
  uncFrac : Tbl Nat := []
  /-- Per feeder, one above the HCN of the last interval attributed. -/
  attr : Tbl Nat := []
  /-- Snapshot ring, keyed 16 384 × (k mod 4) + address; and the HCNs it holds, newest first. -/
  ring : Tbl (BitVec 16) := []
  ringHcn : List Nat := []
  resThr : Nat := 0
  attTol : Nat := 0
  alarm : BitVec 24 := 0
  held : Nat := 0
  unmeas : Nat := 0
  /-- Residual power of the last 1 024 measured intervals per phase, in µW, newest first (R273). -/
  means : Tbl (List Int) := []
  snap : Snap := {}
  deriving DecidableEq, Repr

/-- One interval of a phase as the correlator takes it: HCN, P' in mW over `modelDen`, and whether it flags its window (R282,
R283). -/
structure Corr where
  hcn : Nat
  p : Int
  flag : Bool
  deriving DecidableEq, Repr

/-- The last window of a phase: START, whether it was flagged, and R of codes 1-15 in mW (R282). -/
structure Window where
  start : Nat := 0
  flag : Bool := true
  r : List Int := []
  deriving DecidableEq, Repr

/-- A node's fit (08 R292, R293): the mid-levels of the observations since LEARNING began, newest first; the information matrix of
P1 and P2, as whole numbers in units of 50^-scale of the square of the observation's denominator, and none before the first
observation; and whether an EXP beyond 15 has stopped it. -/
structure Fit where
  mids : List Nat := []
  info : Option (Int × Int × Int) := none
  scale : Nat := 0
  stopped : Bool := false
  deriving DecidableEq, Repr

structure Blotter where
  bcCfg : BitVec 32 := 0
  brCfg : BitVec 32 := 0
  reqs : List PReq := []
  nextReq : Nat := 1
  probes : List Probe := []
  /-- Every probe planned for the newest windows, ended or not: (START, address, code, phases) (R281, R282). -/
  plan : List (Nat × Nat × Nat × List Nat) := []
  noise : Tbl Noise := []
  /-- The newest 48 intervals and the last window correlated, per phase. -/
  corr : Tbl (List Corr) := []
  win : Tbl Window := []
  /-- HCN at which FAILED of a node set (R290). -/
  failedAt : Tbl Nat := []
  status : Tbl (BitVec 32) := []
  results : List (BitVec 256) := []
  fits : Tbl Fit := []
  /-- Time at which the AUTO sweep last requested a node (R277). -/
  sweptAt : Tbl (Option Nat) := []
  deriving DecidableEq, Repr

/-! ## Sign matrix and sign bus (09) -/

/-- A position's measurement history (09 R314). -/
structure Led where
  openRun : Nat := 0
  shortRun : Nat := 0
  passRun : Nat := 0
  /-- 0 not measured, 1 OK, 2 OPEN, 3 SHORT. -/
  st : Nat := 0
  /-- It has been declared SHORT, and not OK since (R315). -/
  shorted : Bool := false
  lastFrame : Nat := 0
  deriving DecidableEq, Repr

/-- The sign configuration in MRAM (09 R331). The defaults are those of SCAN_CFG; NCOL is 48 and the rest 0 (log entry 45). -/
structure SignCfg where
  scan : BitVec 32 := 0x18030308
  gcur : Nat := 0
  /-- Trim per column, default 32. -/
  trims : Tbl Nat := []
  /-- Populated positions per row. -/
  pop : Tbl (BitVec 50) := []
  deriving DecidableEq, Repr

/-- A cell that waits for its load test in a sync guard, for the column it drove or drives (09 R320). -/
structure CellTest where
  cell : Nat
  col : Nat
  suspect : Bool
  deriving DecidableEq, Repr

structure Sign where
  failCnt : Nat := 0
  excl : BitVec 50 := 0
  /-- Cell that drives each column, at reset cells 0-47 their own; a column not listed has none (3Fh). -/
  cells : List (Nat × Nat) := (rangeFrom 0 48).map (fun c => (c, c))
  dead : BitVec 50 := 0
  /-- In force (SCAN_CFG, SINK_GCUR, SINK_COL TRIM, POP); 0 until loaded. -/
  cfg : SignCfg := { scan := 0 }
  /-- Cells that failed in this slot, (column, cell), and cells that wait for their test (R319, R320). -/
  failed : List (Nat × Nat) := []
  tests : List CellTest := []
  /-- Cells to connect to columns at the next frame boundary, (column, cell) (R321; 18 R563). -/
  cellNext : List (Nat × Nat) := []
  /-- Cells to retire at the next frame boundary (18 R565). -/
  retireNext : List Nat := []
  cutCnt : Nat := 0
  divCut : Bool := false
  syncLost : Bool := false
  freeRun : Bool := false
  backReady : Bool := false
  run : Bool := false
  front : Bool := false
  frameLen : Nat := 0
  slotLen : Nat := 0
  swapPend : Bool := false
  swapAtHcn : Bool := false
  swapHcn : Nat := 0
  swapHiLatch : Option Nat := none
  /-- Pixels, keyed 1 024 × buffer + byte. -/
  pix : Tbl Nat := []
  /-- Default frame staged by DEFAULT_SET (R374). -/
  staged : Tbl Nat := []
  /-- Positions, keyed 50 × row + column. -/
  leds : Tbl Led := []
  /-- Start of the scan; frames since; next row; frame of this sync period and frames per period; a frame is under way. -/
  startAt : Nat := 0
  frameNo : Nat := 0
  row : Nat := 0
  frameOfPeriod : Nat := 0
  perPeriod : Nat := 8
  inFrame : Bool := false
  /-- The row slot begun last: row, start and end in thirds of a CCLK cycle (R302); and the row whose select was active before it, with the
  time it goes inactive. -/
  slot : Option (Nat × Nat × Nat) := none
  selPrev : Option (Nat × Nat) := none
  /-- An HCN edge is to be taken as a sync event (R303). -/
  edgeDue : Bool := false
  /-- The last sync event, in thirds of a CCLK cycle; the sync periods since the scan started, and the one in which a spare was last
  tested (R303, R320). -/
  syncAt : Option Nat := none
  periodNo : Nat := 0
  testedAt : Tbl Nat := []
  /-- The level of SIGN_SYNC after its last active edge (R303); the last active edge that was accepted and the length of the last valid period
  (R307). -/
  syncPin : Bool := false
  lastEdge : Option Nat := none
  syncPeriod : Nat := 0
  /-- Of the current probe frame: positions that read open and that pass, keyed 50 × row + column, and the rows whose ROW_OPEN is made
  (R316, R318). -/
  probeOpen : List Nat := []
  probePass : List Nat := []
  rowTold : List Nat := []
  deriving DecidableEq, Repr

/-- A transaction on a sign-bus port (09 R327): a host's request (session, SEQ, CMD) or the module's own poll, or a SWAP of a
SIGN SWAP, named by its number. -/
structure SbusTx where
  daddr : Nat
  cmd : Nat
  pay : List Nat
  host : Option (Nat × Nat × Nat) := none
  swapOf : Option Nat := none
  attempt : Nat := 0
  deriving DecidableEq, Repr

structure SbusPort where
  echoFail : Nat := 0
  timeouts : Nat := 0
  crcErr : Nat := 0
  fault : Bool := false
  pres : BitVec 64 := 0
  seq : Nat := 0
  /-- Consecutive echo failures; the last transmission has had no mismatch (R329). -/
  echoRun : Nat := 0
  txOk : Bool := false
  /-- Consecutive failed transactions per address (R328). -/
  failRun : Tbl Nat := []
  dstat : Tbl Nat := []
  /-- On the wire, with its SEQ; to retry; waiting, oldest first. -/
  cur : Option (SbusTx × Nat) := none
  retry : Option SbusTx := none
  queue : List SbusTx := []
  /-- HCN of the last SYNC, STATUS poll and IDENT; of the last IDENT per address; the next address of the round robin. -/
  syncHcn : Option Nat := none
  pollHcn : Option Nat := none
  pollNext : Nat := 1
  /-- The addresses polled in the half-cycle of the last poll. -/
  polled : List Nat := []
  identHcn : Option Nat := none
  identAt : Tbl (Option Nat) := []
  /-- In FAULT: the SYNC of this attempt passed its echo check. -/
  syncPass : Bool := false
  /-- When the last character on the line ends: of the frame being sent, or of the last response (R323, R328). -/
  lineEnd : Nat := 0
  /-- SBUSp_DE is raised from the first time to the second (R322). -/
  de : Nat × Nat := (0, 0)
  deriving DecidableEq, Repr

/-- A SIGN SWAP that names remote drivers (09 R330, R373): its number, t (none for an immediate one), the drivers still to
answer OK, those listed as late, and its request. -/
structure RemSwap where
  id : Nat
  t : Option Nat
  wait : List (Nat × Nat)
  late : List (Nat × Nat) := []
  ses : Nat
  seq : Nat
  deriving DecidableEq, Repr

/-! ## Ethernet, PRP and PTP (12) -/

/-- A frame in a receive queue: what the module takes from it (12 R386). -/
inductive RxFrame where
  | eth (fr : EthFrame)
  | arp (a : Arrival) (ip : Nat)
  | icmp (a : Arrival)
  | sync (domain seq : Nat) (twoStep : Bool) (t1 : Int) (stamp : Int × Nat) (corr logInterval : Int)
  | followUp (domain seq : Nat) (t1 corr : Int)
  | announce (domain master rank : Nat) (time : AnnTime) (udp : Bool) (logInterval : Int)
  | delayResp (domain seq : Nat) (t4 corr logInterval : Int)
  | pdelayReq (udp : Bool) (seq : Nat) (stamp corr turnaround : Int)
  | pdelayResp (seq : Nat) (stamp : Int × Nat) (corr : Int)
  deriving DecidableEq, Repr

structure EthPort where
  /-- The two receive queues, (time of arrival, frame), oldest first, and when the firmware is free for the next frame (R386; log entry 47). -/
  ptpQ : List (Nat × RxFrame) := []
  restQ : List (Nat × RxFrame) := []
  rxFree : Nat := 0
  rxDrop : Nat := 0
  linkCnt : Nat := 0
  link : Bool := false
  speed : Nat := 0
  dup : Nat := 0
  wrongLan : Nat := 0
  evict : Nat := 0
  deriving DecidableEq, Repr

/-- A PRP node table entry (12 R389, R390). -/
structure PrpNode where
  src : Nat
  used : Nat
  /-- (SequenceNr, time passed up), newest first, at most 64. -/
  seqs : List (Nat × Nat) := []
  deriving DecidableEq, Repr

/-- One of the four PTP sources (12 R401, R402). -/
structure PtpSrc where
  /-- Best master known: (identity, rank in the BMCA comparison, lower better). -/
  master : Option (Nat × Nat) := none
  /-- Its transport is UDP; its last Announce, and the announce interval in CCLK cycles (R392, R393, R402). -/
  udp : Bool := false
  annAt : Nat := 0
  annInt : Nat := 0
  /-- The sync interval in CCLK cycles, 0 before a Sync, and the last completed exchange (R402). -/
  syncInt : Nat := 0
  exchAt : Nat := 0
  /-- The Delay_Req interval in CCLK cycles, the time of the last Delay_Req, and the next sequenceId (R393). -/
  reqInt : Nat := 0
  reqAt : Option Nat := none
  reqSeq : Nat := 0
  /-- What it says of its time scale and of UTC (R406). -/
  time : AnnTime := {}
  /-- Consecutive completed Sync exchanges, the sequenceId of the last Sync, and completed delay measurements (R402). -/
  exch : Nat := 0
  lastSeq : Option Nat := none
  delays : Nat := 0
  qual : Bool := false
  /-- Time since which it has been qualified; whether the clock has refused it since (R403). -/
  since : Nat := 0
  refused : Bool := false
  offset : Int := 0
  /-- Sync waiting for its Follow_Up: (seq, t2, corrections, received by, clock epoch). -/
  sync : Option (Nat × Int × Int × Nat × Nat) := none
  /-- Delay_Req waiting for its Delay_Resp: (seq, t3, sent at, clock epoch). -/
  req : Option (Nat × Int × Nat × Nat) := none
  /-- t2 - t1 less corrections of the last Sync exchange, with its clock epoch; the last 8 path delays, newest first. -/
  t2mt1 : Option (Int × Nat) := none
  paths : List Int := []
  /-- Consecutive exchanges beyond 1 ms (R404). -/
  over1ms : Nat := 0
  deriving DecidableEq, Repr

/-- The link delay of a port (R400), once measured, and its Pdelay_Req that waits: (seq, t3, sent at, clock epoch). -/
structure LinkDelay where
  delay : Option Int := none
  req : Option (Nat × Int × Nat × Nat) := none
  /-- The time of the last Pdelay_Req, and the next sequenceId (R393). -/
  reqAt : Option Nat := none
  reqSeq : Nat := 0
  deriving DecidableEq, Repr

structure Net where
  ports : Tbl EthPort := []
  prpSeq : Nat := 0
  nodes : List PrpNode := []
  /-- Evictions towards the next record (R390). -/
  evictions : Nat := 0
  ptpIgnored : Nat := 0
  /-- The last supervision frame (R387). -/
  supAt : Option Nat := none
  /-- ICMP echo replies in the current second: (second, count). -/
  icmp : Nat × Nat := (0, 0)
  /-- Local clock (R398). -/
  sec : Nat := 0
  ns : Nat := 0
  frac : Nat := 0
  incr : Nat := 0x0800000000
  /-- Latched by a read of PTP_TIME_NS: (sec, frac). -/
  latch : Nat × Nat := (0, 0)
  stepCnt : Nat := 0
  steps : Nat := 0
  /-- Counts the steps of the clock without end, to tell exchanges that span one (R397). -/
  epoch : Nat := 0
  src : Option Nat := none
  ptpSrc : Nat := 0
  slewing : Bool := false
  srcs : Tbl PtpSrc := []
  peer : Tbl LinkDelay := []
  /-- INCR over the last 64 s: (time from which, value), newest first (R405). -/
  incrs : List (Nat × Nat) := []
  /-- Since when the clock runs (R398, R408). -/
  startAt : Nat := 0
  /-- Time of the previous hourly check; a set waits for a second boundary (R406). -/
  lastCheck : Option Nat := none
  setDue : Bool := false
  deriving DecidableEq, Repr

/-! ## Real-time clock (13): the backup domain and its interface -/

/-- A tamper log entry (13 R426). -/
structure TlogEntry where
  main : Bool
  inputB : Bool
  valid : Bool
  sub : Nat
  lin : Nat
  deriving DecidableEq, Repr

/-- The backup domain: it outlives a module reset (13 R420-R424, 19 R579). -/
structure Backup where
  /-- Prescaler SUB and the calendar as seconds since 2000-01-01 00:00:00. -/
  sub : Nat := 0
  secs : Nat := 0
  valid : Bool := false
  /-- Running from VBAT. -/
  onVbat : Bool := false
  /-- The supply is below the retention level: the count stands (R424). -/
  held : Bool := false
  log : List TlogEntry := []
  ovf : Nat := 0
  /-- A step waits for the next second boundary: forward or back (R418). -/
  step : Option Bool := none
  /-- A set crosses into the domain (R417): seconds of the set. -/
  crossing : Option Nat := none
  /-- Tamper inputs counted as asserted, until re-armed (14 R456). -/
  inA : Bool := false
  inB : Bool := false
  deriving DecidableEq, Repr

/-- The RTC interface in the M-region (13 R413-R422). -/
structure RtcIf where
  /-- Frozen shadows: (SUB, secs, started at). -/
  shadow : Option (Nat × Nat × Nat) := none
  wrMin : Option Nat := none
  wrHour : Option Nat := none
  wrDay : Option Nat := none
  wrMonth : Option Nat := none
  wrYear : Option Nat := none
  rejCnt : Nat := 0
  rejCause : Nat := 0
  batLow : Bool := false
  lockout : Bool := false
  isolated : Bool := false
  deriving DecidableEq, Repr

/-! ## Keys (14) -/

/-- A key slot in the key area of MRAM (14 R431, R433): attribute word, the key wrapped under its storage key, or of a public key its
AES-CMAC, and the public point. -/
structure KeyCell where
  attr : BitVec 64 := 0
  stored : List Nat := []
  pubX : Nat := 0
  pubY : Nat := 0
  deriving DecidableEq, Repr

/-- A key slot as the key store uses it (14 R431, R433): attribute word, the key in key-store memory, public point. -/
structure Slot where
  attr : BitVec 64 := 0
  key : Nat := 0
  pubX : Nat := 0
  pubY : Nat := 0
  deriving DecidableEq, Repr

/-- A pending twin in key-store memory (14 R435-R437). -/
structure Twin where
  attr : BitVec 64
  key : Nat
  kcv : Nat
  at_ : Nat
  deriving DecidableEq, Repr

/-- Key-store state that a reset clears (14). -/
structure KeyStore where
  /-- The keys in use: key-store memory, which has no address (R433). -/
  plain : Tbl Nat := []
  twins : Tbl (Option Twin) := []
  /-- Retiring feeder keys: t and the slot before it, erased at the edge of t + 2 (R445). -/
  retiring : Tbl (Option (Nat × Slot)) := []
  tamperCnt : Nat := 0
  rootOk : Bool := false
  /-- Assertions counted before the key store was ready (R460): (input, log item). -/
  early : List (Nat × Nat) := []
  deriving DecidableEq, Repr

/-! ## Decant (15) -/

inductive Stage where
  | idle
  | receiving
  | verifying
  | ready
  | reconstructing
  | armed
  | switching
  | trial
  | confirming
  deriving DecidableEq, Repr

/-- A firmware set in a bank (15 R464). -/
structure FwSet where
  version : Nat := 0
  secVer : Nat := 0
  bankHash : Nat := 0
  dir : List Comp := []
  valid : Bool := false
  deriving DecidableEq, Repr

/-- The components that the model's module is delivered with in bank A (a model's choice, log entry 55). -/
def factoryDir : List Comp :=
  [⟨1, 0, 1, [(1, 1), (1, 1), (0, 0), (1, 1), (0, 0), (1, 2)], 1, 0⟩, ⟨2, 0, 1, [(1, 1), (0, 0), (1, 1), (0, 0), (1, 1), (0, 0)], 2, 0⟩,
   ⟨3, 0, 1, [(0, 0), (1, 1), (1, 1), (0, 0), (0, 0), (0, 0)], 3, 0⟩, ⟨4, 0, 1, [(0, 0), (0, 0), (0, 0), (1, 1), (0, 0), (0, 0)], 4, 0⟩,
   ⟨5, 0, 1, [(0, 0), (0, 0), (0, 0), (0, 0), (1, 1), (0, 0)], 5, 0⟩]

/-- Decant's records in MRAM and OTP (15 R470-R486, NVMC_BOOT). -/
structure Decant where
  stage : Stage := .idle
  setA : FwSet := { dir := factoryDir, valid := true }
  setB : FwSet := {}
  /-- Banks: false A, true B. -/
  active : Bool := false
  bankC : Bool := false
  bankD : Bool := false
  bankM : Bool := false
  bankDsp : Bool := false
  secVer : Nat := 0
  trialBoots : Nat := 0
  trialMin : Nat := 0
  hdr : Option PkgHeader := none
  nblk : Nat := 0
  bitmap : List Nat := []
  /-- Staging sectors still to erase. -/
  eraseDue : Bool := false
  /-- Activation: t, its place in the order of acceptance (02 R88), order, position, request, and whether one reconstruction has
  failed (R478). -/
  t : Nat := 0
  ord : Nat := 0
  order : List Nat := []
  pos : Nat := 0
  by_ : Option (Nat × Nat) := none
  failedOnce : Bool := false
  /-- Region of the last step must read RUN by this time (R482). -/
  runBy : Option Nat := none
  /-- When the minute of trial under way began (R483). -/
  minuteAt : Nat := 0
  /-- Metering configuration replaced at its step (R480). -/
  keptMeter : Option MeterCfg := none
  /-- The signature of the header, which the manifest keeps with it (R464, R466). -/
  hdrSig : Nat := 0
  revertCause : Option Nat := none
  deriving DecidableEq, Repr

/-! ## MRAM, OTP and flash: what outlives a reset (19 R579) -/

/-- A save slot (07 R247, R248). -/
structure SaveSlot where
  seq : Nat := 0
  /-- MARK_F and MARK_N read VALID (and the CRC checks). -/
  markF : Bool := false
  markN : Bool := false
  final : Bool := false
  s : Nat := 0
  rtcSec : Nat := 0
  rtcSub : Nat := 0
  rtcValid : Bool := false
  tot : Totals := {}
  means : List Nat := []
  deriving DecidableEq, Repr

/-- A registration and the module's stored record of the node (04 R146, R207; 11 R363). -/
structure Reg where
  eui : Nat
  ik : Nat
  fixed : Option Nat := none
  /-- Joined at this address. -/
  addr : Option Nat := none
  /-- The stored install key can still be unwrapped under slot 4 (14 R440). -/
  usable : Bool := true
  deriving DecidableEq, Repr

/-- What the node last acknowledged (04 R154, R610): groups (GSLOT → GROUP + 1), scenes, parameters. -/
structure NodeCfg where
  groups : Tbl Nat := []
  scenes : Tbl Nat := []
  params : Tbl (Option Nat) := []
  deriving DecidableEq, Repr

/-- A stored schedule (06 R198). -/
structure SchedRec where
  header : BitVec 32 := 0
  entries : List (BitVec 64) := []
  deriving DecidableEq, Repr

structure Override where
  level : Nat
  endHcn : Nat
  /-- Order of acceptance of the command (05 R177). -/
  order : Nat
  deriving DecidableEq, Repr

/-- A feeder-key rollover record (14 R444). -/
structure Roll where
  t : Nat
  gen : Nat
  ses : Nat
  seq : Nat
  deriving DecidableEq, Repr

structure NetCfg where
  ipv4 : Nat := 0
  mask : Nat := 0
  gw : Nat := 0
  vlan : Nat := 0
  deriving DecidableEq, Repr

structure PtpCfg where
  domP : Nat := 0
  domS : Nat := 255
  delayP : Nat := 0
  delayS : Nat := 0
  fallback : Nat := 0
  deriving DecidableEq, Repr

/-- The Sillage configuration that a restart writes to MRAM (05 R191). -/
structure GraphCopy where
  edges : Tbl (BitVec 32)
  nodes : Tbl (BitVec 128)
  curves : Tbl (BitVec 32)
  slews : Tbl (BitVec 64)
  substeps : Nat
  ageLimit : Nat
  deriving DecidableEq, Repr

/-- The schedule set as MRAM keeps it: schedules, holiday calendars and site parameters (06 R198, table "Site time parameters"). -/
structure SchedSet where
  scheds : Tbl SchedRec := []
  hols : Tbl (List (BitVec 32)) := []
  site : Site := {}
  deriving DecidableEq, Repr

/-- A scene entry that was accepted for a civil date: the schedule's group, the entry's index, the day, and the order of the command's
acceptance (06 R209; log entry 58). -/
structure SceneRun where
  group : Nat
  entry : Nat
  day : Nat
  order : Nat
  deriving DecidableEq, Repr

/-- The model table and the Blotter node status as MRAM keeps them (08 R266). -/
structure ModelSet where
  models : Tbl (BitVec 64) := []
  bstatus : Tbl (BitVec 32) := []
  deriving DecidableEq, Repr

/-- Erase counts of a bank's sectors: of the manifest and component area, which are erased together, and of each sector of the staging area
(18 R560). -/
structure Erases where
  comp : Nat := 0
  staging : Tbl Nat := []
  deriving DecidableEq, Repr

/-- The NVM controller's scrub of MRAM: the words that needed correction in the last pass, and when that pass ended (18 R561). -/
structure Nvmc where
  corr : List Nat := []
  passAt : Nat := 0
  deriving DecidableEq, Repr

structure Nv where
  -- identity
  coated : Bool := false
  serial : Nat := 0
  mac0 : Nat := 0
  mac1 : Nat := 0
  -- time base
  profileSel : Nat := 0
  fdrVset : BitVec 8 := 0
  lastP60 : Bool := false
  -- saves
  slot0 : SaveSlot := {}
  slot1 : SaveSlot := {}
  -- Sillage configuration copies (05 R191)
  graphs : Copies GraphCopy := {}
  overrides : Tbl (Option Override) := []
  -- nodes
  regs : List Reg := []
  nodes : Tbl NodeCfg := []
  bg : Tbl (List BgItem) := []
  atten : Tbl Nat := []
  -- schedules
  schedSets : Copies SchedSet := {}
  /-- Scene entries that were accepted: never twice for a date, a reset between or not (R209). -/
  sceneRuns : List SceneRun := []
  /-- Days whose missing sun event is recorded (R205). -/
  sunTold : List Nat := []
  dstActive : Bool := false
  /-- Local standard second at which the module's own step last changed DST_ACTIVE; none after a set of the clock (R213). -/
  dstStep : Option Nat := none
  -- metering
  meterCfgs : Copies MeterCfg := {}
  trims : Tbl (Int × Int) := []
  gaps : List Gap := []
  -- Accord, Blotter
  accDefault : BitVec 64 := 0
  modelSets : Copies ModelSet := {}
  modelsDirty : Bool := false
  acCfg : Nat × Nat := (100, 10)
  bcCfg : BitVec 32 := 0x03028144
  brCfg : BitVec 32 := 0x0005000F
  -- sign
  signCfg : SignCfg := {}
  frames : Copies (Tbl Nat) := {}
  -- network
  net : NetCfg := {}
  ptp : PtpCfg := {}
  -- keys
  keyAreas : Copies (Tbl KeyCell) := {}
  root : Option Nat := none
  rootOff : Bool := false
  /-- Life cycle (R451, R452): 0 MANUFACTURE, 1 FIELD, 2 SERVICE, 3 SCRAPPED; OTP entries left; wipe pending. -/
  lcs : Nat := 0
  otpLeft : Nat := 63
  wipeDue : Bool := false
  /-- The state before the life-cycle change whose wipe is pending (14 R453). -/
  wipeFrom : Nat := 0
  seals : BitVec 3 := 0
  respA : Nat := 1
  respB : Nat := 1
  /-- The deny list, in two alternating copies as the keys (14 R450). -/
  denySets : Copies (List Nat) := {}
  rollSets : Copies (Tbl (Option Roll)) := {}
  lastRoll : Tbl Nat := []
  -- Decant
  upd : Decant := {}
  -- recorder
  /-- Slots of the areas, as the 64 bytes that stand there (16, "Recorder area in the MRAM window"). -/
  permArea : Tbl (BitVec 512) := []
  circArea : Tbl (BitVec 512) := []
  permStarted : Bool := false
  /-- Wraps of SEQ (R496). -/
  evWrap : Nat := 0
  refill : Tbl Nat := []
  -- wear, age, reserves
  wear : Tbl Nat := []
  thresh : Tbl Nat := []
  age : Nat := 0
  hours : Nat := 0
  mramUsed : Nat := 0
  aUsed : Nat := 0
  bUsed : Nat := 0
  /-- Erase counts of the sectors of each bank (18 R560). -/
  eraseA : Erases := {}
  eraseB : Erases := {}
  remap : Tbl (List Nat) := []
  -- stage, receive path, converter and sink cell exclusions are not stored (19 R579)
  deriving DecidableEq, Repr

/-! ## Addressed memory (01 R48) -/

/-- Bytes of SRAM, MRAM and flash that no structure above holds, and the poisoned words. -/
structure Mem where
  bytes : List Host.Cell := []
  poisoned : List Nat := []
  deriving DecidableEq, Repr

/-- VXC transport of the M-region (10) and its totals (11 R355). -/
structure Vxc where
  sessions : List Session := []
  discards : DiscardCnt := {}
  /-- 32-bit totals the M-region keeps of cleared counters, by register address and low bit (11 R355). -/
  totals : Tbl Nat := []
  /-- Phases in residual alarm, as the M-region keeps them (08 R273). -/
  alarms : BitVec 24 := 0
  netInForce : NetCfg := {}
  deriving DecidableEq, Repr

/-- The whole state. -/
structure State where
  /-- Commands that wait, first in first out (the model's own field, 98). -/
  pending : List Instr := []
  /-- What the last command emitted, oldest first (the model's own field). -/
  out : List Out := []
  /-- Free values drawn so far (the model's own field). -/
  fresh : Nat := 0
  /-- CCLK cycles and ETH_TX ticks since reset release (the model's own fields; R41 crossings read them). -/
  now : Nat := 0
  /-- Acceptance counter that orders actions and commands (02 R88). -/
  order : Nat := 0
  pow : Power := {}
  jnc : Junction := {}
  tb : TimeBase := {}
  /-- Host-issued actions (02 R87). -/
  acts : List Action := []
  /-- Link frames still suppressed while the link DSP changes its image (15 R480). -/
  dspFrames : Nat := 0
  /-- Join requests refused for their EUI (04 R146). -/
  joinRefused : Nat := 0
  wtx : StageBank := {}
  rx : Tbl RxPath := []
  fdr : Tbl Feeder := []
  nodes : Tbl NodeDyn := []
  sil : Sillage := {}
  sched : Sched := {}
  meter : Meter := {}
  accord : Accord := {}
  blot : Blotter := {}
  sign : Sign := {}
  sbus : Tbl SbusPort := []
  remSwaps : List RemSwap := []
  net : Net := {}
  rtc : RtcIf := {}
  bk : Backup := {}
  keys : KeyStore := {}
  ev : Intake := {}
  vxc : Vxc := {}
  nvmc : Nvmc := {}
  nv : Nv := {}
  mem : Mem := {}
  deriving DecidableEq, Repr

/-- The machine right after reset: every register at the value the spec's Reset columns give (00 R14: a cfg or meas
field reads 0), nothing stored, start-up not begun. -/
def State.reset : State := {}

end Sys2Proof.Machine
end

