-- ==== Sys2Proof/Machine/Copies.lean ====
section
/-!
DEFINITION. What the module reads of each part of MRAM that is kept in two alternating copies, and writes to it: the newer valid copy
is read, the older one is overwritten (05 R191, R193; 06 R198; 07 R234; 08 R266; 09 R311; 14 R433, R444, R450).
-/
namespace Sys2Proof.Machine

/-- The stored Sillage configuration; none where neither copy is valid (05 R193). -/
def Nv.graph (v : Nv) : Option GraphCopy := v.graphs.newest
def Nv.setGraph (v : Nv) (g : GraphCopy) : Nv := { v with graphs := v.graphs.put g }

/-- The stored schedule set; every schedule reads as disabled where neither copy is valid (06 R198). -/
def Nv.schedSet (v : Nv) : SchedSet := v.schedSets.newest.getD {}
def Nv.scheds (v : Nv) : Tbl SchedRec := v.schedSet.scheds
def Nv.hols (v : Nv) : Tbl (List (BitVec 32)) := v.schedSet.hols
def Nv.site (v : Nv) : Site := v.schedSet.site
def Nv.setScheds (v : Nv) (x : Tbl SchedRec) : Nv := { v with schedSets := v.schedSets.put { v.schedSet with scheds := x } }
def Nv.setHols (v : Nv) (x : Tbl (List (BitVec 32))) : Nv := { v with schedSets := v.schedSets.put { v.schedSet with hols := x } }
def Nv.setSite (v : Nv) (x : Site) : Nv := { v with schedSets := v.schedSets.put { v.schedSet with site := x } }

/-- The stored metering configuration; the defaults where neither copy is valid (07 R234). -/
def Nv.meterCfg (v : Nv) : MeterCfg := v.meterCfgs.newest.getD {}
def Nv.setMeterCfg (v : Nv) (c : MeterCfg) : Nv := { v with meterCfgs := v.meterCfgs.put c }

/-- The stored node models and Blotter node status (08 R266). -/
def Nv.modelSet (v : Nv) : ModelSet := v.modelSets.newest.getD {}
def Nv.models (v : Nv) : Tbl (BitVec 64) := v.modelSet.models
def Nv.bstatus (v : Nv) : Tbl (BitVec 32) := v.modelSet.bstatus
def Nv.setModelSet (v : Nv) (x : ModelSet) : Nv := { v with modelSets := v.modelSets.put x }

/-- The stored default frame; none where neither copy is valid (09 R311). -/
def Nv.defaultFrame (v : Nv) : Option (Tbl Nat) := v.frames.newest
def Nv.setDefaultFrame (v : Nv) (x : Tbl Nat) : Nv := { v with frames := v.frames.put x }

/-- The key area (14 R433). -/
def Nv.slots (v : Nv) : Tbl KeyCell := v.keyAreas.newest.getD []

/-- Write the key area over its older copy; the other copy, which still holds what was replaced, is then destroyed (14 R436, R438, R457). -/
def Nv.setSlots (v : Nv) (x : Tbl KeyCell) : Nv := { v with keyAreas := v.keyAreas.only x }

/-- The feeder-key rollover records (14 R444). -/
def Nv.rolls (v : Nv) : Tbl (Option Roll) := v.rollSets.newest.getD []
def Nv.setRolls (v : Nv) (x : Tbl (Option Roll)) : Nv := { v with rollSets := v.rollSets.put x }

/-- The deny list; empty where neither copy is valid (14 R450). -/
def Nv.deny (v : Nv) : List Nat := v.denySets.newest.getD []
def Nv.setDeny (v : Nv) (x : List Nat) : Nv := { v with denySets := v.denySets.put x }

end Sys2Proof.Machine
end

