-- ==== Sys2Proof/Machine/Crypto.lean ====
section
/-!
DEFINITION. The cryptographic functions that the spec takes from the standards it names: AES (FIPS 197) and AES-CMAC (SP 800-38B), for 10
R336 and 14 R432-R435; AES-CCM (SP 800-38C), for 04 R138; the counter-mode KDF (SP 800-108), for 04 R139 and 14 R435; SHA-256 (FIPS
180-4) and HKDF (RFC 5869), for 10 R337, R338 and 14 R432. Byte strings are lists of bytes, first byte first; a key held as a number has
its first byte least significant (log entry 2).
-/
namespace Sys2Proof.Machine

/-- Entry i of a table of `w`-bit values, packed `per` to a number, the first least significant. -/
def packed (w per : Nat) (t : List Nat) (i : Nat) : Nat := (t.getD (i / per) 0 >>> (w * (i % per))) % 2 ^ w

/-! ## AES -/

/-- The S-box (FIPS 197), entry 0 in the least significant byte. -/
def sboxTable : Nat :=
  0x16BB54B00F2D99416842E6BF0D89A18CDF2855CEE9871E9B948ED9691198F8E19E1DC186B95735610EF6034866B53E708A8BBD4B1F74DDE8C6B4A61C2E2578BA08AE7A65EAF4566CA94ED58D6D37C8E779E4959162ACD3C25C2406490A3A32E0DB0B5EDE14B8EE4688902A22DC4F816073195D643D7EA7C41744975FEC130CCDD2F3FF1021DAB6BCF5389D928F40A351A89F3C507F02F94585334D43FBAAEFD0CF584C4A39BECB6A5BB1FC20ED00D153842FE329B3D63B52A05A6E1B1A2C830975B227EBE28012079A059618C323C7041531D871F1E5A534CCF73F362693FDB7C072A49CAFA2D4ADF04759FA7DC982CA76ABD7FE2B670130C56F6BF27B777C63

/-- SubBytes of one byte. -/
def sbox (b : Nat) : Nat := (sboxTable >>> (8 * b)) % 256

/-- Bytewise exclusive or. -/
def xorB (a b : List Nat) : List Nat := List.zipWith (fun x y => x ^^^ y) a b

/-- Groups of `n` bytes, at most `fuel` of them; the last one may be shorter. -/
def groups (n : Nat) : Nat → List Nat → List (List Nat)
  | 0, _ => []
  | fuel + 1, l => if l.isEmpty then [] else l.take n :: groups n fuel (l.drop n)

/-- SubBytes and ShiftRows of a state of 16 bytes held as a number, first byte least significant: byte i of the result is that of byte 5 i mod
16. -/
def subShift (n : Nat) : Nat → Nat
  | 0 => 0
  | i + 1 => subShift n i + sbox ((n >>> (8 * (5 * i % 16))) % 256) * 256 ^ i

/-- Multiplication of every byte by x in GF(2^8). -/
def xtimes (n : Nat) : Nat :=
  ((n &&& 0x7F7F7F7F7F7F7F7F7F7F7F7F7F7F7F7F) <<< 1) ^^^ (((n >>> 7) &&& 0x01010101010101010101010101010101) * 0x1B)

/-- Every column turned by one byte: its byte i is that of row i + 1. -/
def turnColumns (n : Nat) : Nat :=
  ((n >>> 8) &&& 0x00FFFFFF00FFFFFF00FFFFFF00FFFFFF) + ((n &&& 0x000000FF000000FF000000FF000000FF) <<< 24)

/-- MixColumns. -/
def mixColumns (n : Nat) : Nat :=
  let t := turnColumns n
  xtimes n ^^^ xtimes t ^^^ t ^^^ turnColumns t ^^^ turnColumns (turnColumns t)

/-- The rounds after the first key addition. -/
def aesRounds : List Nat → Nat → Nat
  | [], s => s
  | [k], s => subShift s 16 ^^^ k
  | k :: ks, s => aesRounds ks (mixColumns (subShift s 16) ^^^ k)

/-- SubBytes of a word of the key schedule. -/
def subWord (w : Nat) : Nat :=
  sbox (w % 256) + sbox ((w >>> 8) % 256) * 256 + sbox ((w >>> 16) % 256) * 65536 + sbox ((w >>> 24) % 256) * 16777216

/-- More words of the key schedule, newest first; `i` is the number of the next word, `nk` the words of the key. -/
def keyWords (nk : Nat) : Nat → Nat → List Nat → List Nat
  | 0, _, l => l
  | n + 1, i, l =>
    let p := l.headD 0
    let g := if i % nk = 0 then subWord ((p >>> 8) + (p % 256) * 16777216) ^^^ packed 8 10 [0x361B8040201008040201] (i / nk - 1)
      else if 6 < nk ∧ i % nk = 4 then subWord p else p
    keyWords nk n (i + 1) ((l.getD (nk - 1) 0 ^^^ g) :: l)

/-- The round keys of a key of 16 or 32 bytes, as numbers. -/
def roundKeys (key : List Nat) : List Nat :=
  let nk := key.length / 4
  let w := keyWords nk (4 * (nk + 7) - nk) nk ((groups 4 nk key).map ofBytes).reverse
  (groups 4 (nk + 7) w.reverse).map (fun l => l.getD 0 0 + l.getD 1 0 * 2 ^ 32 + l.getD 2 0 * 2 ^ 64 + l.getD 3 0 * 2 ^ 96)

/-- AES encryption of one block. -/
def aes (key block : List Nat) : List Nat :=
  match roundKeys key with
  | k :: ks => leBytes 16 (aesRounds ks (ofBytes block ^^^ k))
  | [] => block

/-- The inverse S-box (FIPS 197), entry 0 in the least significant byte. -/
def invSboxTable : Nat :=
  0x7D0C2155631469E126D677BA7E042B17619953833CBBEBC8B0F52AAE4D3BE0A0EF9CC9939F7AE52D0D4AB519A97F51605FEC8027591012B131C7078833A8DD1FF45ACD78FEC0DB9A2079D2C64B3E56FC1BBE18AA0E62B76F89C5291D711AF1476EDF751CE837F9E28535ADE72274AC9673E6B4F0CECFF297EADC674F4111913A6B8A130103BDAFC1020F3FCA8F1E2CD00645B3B80558E4F70AD3BC8C00ABD890849D8DA75746155EDAB9EDFD5048706C92B6655DCC5CA4D41698688664F6F87225D18B6D49A25B76B224D92866A12E084EC3FA420B954CEE3D23C2A632947B54CBE9DEC444438E3487FF2F9B8239E37CFBD7F3819EA340BF38A53630D56A0952

/-- InvShiftRows and InvSubBytes: byte i of the result is that of byte 13 i mod 16. -/
def invSubShift (n : Nat) : Nat → Nat
  | 0 => 0
  | i + 1 => invSubShift n i + ((invSboxTable >>> (8 * ((n >>> (8 * (13 * i % 16))) % 256))) % 256) * 256 ^ i

/-- The inverse rounds after the last round key. MixColumns is its own inverse after three more turns of it. -/
def aesInvRounds : List Nat → Nat → Nat
  | [], s => s
  | [k], s => invSubShift s 16 ^^^ k
  | k :: ks, s => aesInvRounds ks (mixColumns (mixColumns (mixColumns (invSubShift s 16 ^^^ k))))

/-- AES decryption of one block. -/
def aesInv (key block : List Nat) : List Nat :=
  match (roundKeys key).reverse with
  | k :: ks => leBytes 16 (aesInvRounds ks (ofBytes block ^^^ k))
  | [] => block

/-- Zero bytes. -/
def zeros (n : Nat) : List Nat := List.replicate n 0

/-- Bytes, most significant first. -/
def beBytes (n v : Nat) : List Nat := (leBytes n v).reverse
def ofBe (l : List Nat) : Nat := ofBytes l.reverse

/-- CBC-MAC over whole blocks. -/
def cbcMac (key : List Nat) (l : List (List Nat)) : List Nat := l.foldl (fun x b => aes key (xorB x b)) (zeros 16)

/-! ## AES-CMAC and the KDF -/

/-- Doubling in GF(2^128). -/
def dbl (l : List Nat) : List Nat :=
  let n := ofBe l
  beBytes 16 (if n < 2 ^ 127 then 2 * n else (2 * n) ^^^ (2 ^ 128 + 0x87))

/-- AES-CMAC, 16 bytes (SP 800-38B). -/
def cmac (key m : List Nat) : List Nat :=
  let k1 := dbl (aes key (zeros 16))
  let l := groups 16 (m.length + 1) m
  let last := l.getLastD []
  let last := if last.length = 16 then xorB last k1 else xorB (last ++ 0x80 :: zeros (15 - last.length)) (dbl k1)
  cbcMac key (l.dropLast ++ [last])

/-- The counter-mode KDF with AES-CMAC: `n` bytes from a key, a label and a context. The widths of its counter and of its length field, which
SP 800-108 leaves to its user and the spec does not state, are free (log entry 2). -/
def kdf (n : Nat) (key label context : List Nat) : List Nat :=
  let r := 1 + Config.kdfWidth 0 % 4
  let w := 1 + Config.kdfWidth 1 % 4
  ((List.range ((n + 15) / 16)).flatMap (fun i => cmac key (beBytes r (i + 1) ++ label ++ 0 :: context ++ beBytes w (8 * n)))).take n

/-! ## AES key wrap (RFC 3394) -/

/-- One pass over the semiblocks: the register A and the semiblocks, `t` the count of the step. -/
def wrapPass (kek : List Nat) : Nat → List (List Nat) → List Nat → List Nat × List (List Nat)
  | _, [], a => (a, [])
  | t, r :: rs, a =>
    let b := aes kek (a ++ r)
    let w := wrapPass kek (t + 1) rs (xorB (b.take 8) (beBytes 8 t))
    (w.1, b.drop 8 :: w.2)

/-- One pass backwards: the semiblocks come last first, and the count falls. -/
def unwrapPass (kek : List Nat) : Nat → List (List Nat) → List Nat → List Nat × List (List Nat)
  | _, [], a => (a, [])
  | t, r :: rs, a =>
    let b := aesInv kek (xorB a (beBytes 8 t) ++ r)
    let w := unwrapPass kek (t - 1) rs (b.take 8)
    (w.1, b.drop 8 :: w.2)

/-- The default initial value. -/
def wrapIv : List Nat := List.replicate 8 0xA6

/-- Wrap whole semiblocks; the result is one semiblock longer, the register A first. -/
def rfcWrap (kek plain : List Nat) : List Nat :=
  let r := groups 8 plain.length plain
  let w := (List.range 6).foldl (fun x j => wrapPass kek (r.length * j + 1) x.2 x.1) (wrapIv, r)
  w.1 ++ w.2.flatten

/-- Unwrap; none where the integrity check fails. -/
def rfcUnwrap (kek wrapped : List Nat) : Option (List Nat) :=
  let r := (groups 8 wrapped.length (wrapped.drop 8)).reverse
  let w := (List.range 6).foldl (fun x j => unwrapPass kek (r.length * (6 - j)) x.2 x.1) (wrapped.take 8, r)
  if w.1 = wrapIv then some w.2.reverse.flatten else none

/-- The order n of P-256 (FIPS 186). -/
def p256n : Nat := 0xFFFFFFFF00000000FFFFFFFFFFFFFFFFBCE6FAADA7179E84F3B9CAC2FC632551

/-! ## AES-CCM -/

/-- Zero bytes up to whole blocks, in blocks. -/
def padBlocks (l : List Nat) : List (List Nat) := groups 16 (l.length + 1) (l ++ zeros ((16 - l.length % 16) % 16))

/-- AES-CCM with a nonce of 13 bytes and a tag of 4: ciphertext and tag (SP 800-38C; 04 R138). -/
def ccm (key nonce aad plain : List Nat) : List Nat × List Nat :=
  let b0 := ((if aad.isEmpty then 9 else 73) :: nonce) ++ beBytes 2 plain.length
  let a := if aad.isEmpty then [] else padBlocks (beBytes 2 aad.length ++ aad)
  let ctr := fun i => aes key ((1 :: nonce) ++ beBytes 2 i)
  let c := ((padBlocks plain).zipIdx.flatMap (fun e => xorB e.1 (ctr (e.2 + 1)))).take plain.length
  (c, xorB ((cbcMac key (b0 :: a ++ padBlocks plain)).take 4) (ctr 0))

/-! ## SHA-256 and HKDF -/

/-- Addition and rotation of 32-bit words. -/
def add32 (l : List Nat) : Nat := l.foldl (fun a b => a + b) 0 % 4294967296
def rotr (k n : Nat) : Nat := n >>> k + n % 2 ^ k * 2 ^ (32 - k)

/-- The round constants (FIPS 180-4). -/
def shaK (i : Nat) : Nat := packed 32 8
 [0xAB1C5ED5923F82A459F111F13956C25BE9B5DBA5B5C0FBCF71374491428A2F98,
  0xC19BF1749BDC06A780DEB1FE72BE5D74550C7DC3243185BE12835B01D807AA98,
  0x76F988DA5CB0A9DC4A7484AA2DE92C6F240CA1CC0FC19DC6EFBE4786E49B69C1,
  0x1429296706CA6351D5A79147C6E00BF3BF597FC7B00327C8A831C66D983E5152,
  0x92722C8581C2C92E766A0ABB650A735453380D134D2C6DFC2E1B213827B70A85,
  0x106AA070F40E3585D6990624D192E819C76C51A3C24B8B70A81A664BA2BFE8A1,
  0x682E6FF35B9CCA4F4ED8AA4A391C0CB334B0BCB52748774C1E376C0819A4C116,
  0xC67178F2BEF9A3F7A4506CEB90BEFFFA8CC7020884C8781478A5636F748F82EE] i

/-- The initial hash value. -/
def shaInit : List Nat := (List.range 8).map (packed 32 8
 [0x5BE0CD191F83D9AB9B05688C510E527FA54FF53A3C6EF372BB67AE856A09E667])

/-- More words of the message schedule, newest first. -/
def shaSched : Nat → List Nat → List Nat
  | 0, l => l
  | n + 1, l =>
    let w := fun k => l.getD (k - 1) 0
    let s0 := rotr 7 (w 15) ^^^ rotr 18 (w 15) ^^^ (w 15 >>> 3)
    let s1 := rotr 17 (w 2) ^^^ rotr 19 (w 2) ^^^ (w 2 >>> 10)
    shaSched n (add32 [w 16, s0, w 7, s1] :: l)

/-- One round on the working variables a to h. -/
def shaRound (v : List Nat) (kw : Nat) : List Nat :=
  match v with
  | [a, b, c, d, e, f, g, h] =>
    let s1 := rotr 6 e ^^^ rotr 11 e ^^^ rotr 25 e
    let s0 := rotr 2 a ^^^ rotr 13 a ^^^ rotr 22 a
    let t1 := add32 [h, s1, (e &&& f) ^^^ ((4294967295 - e) &&& g), kw]
    [add32 [t1, s0, (a &&& b) ^^^ (a &&& c) ^^^ (b &&& c)], a, b, c, add32 [d, t1], e, f, g]
  | v => v

/-- One 64-byte block. -/
def shaBlock (h block : List Nat) : List Nat :=
  let w := (shaSched 48 ((groups 4 16 block).map ofBe).reverse).reverse
  List.zipWith (fun x y => add32 [x, y]) h ((w.zipIdx.map (fun e => add32 [e.1, shaK e.2])).foldl shaRound h)

/-- SHA-256 of a byte string, 32 bytes. -/
def sha256 (m : List Nat) : List Nat :=
  let p := m ++ 0x80 :: zeros ((119 - m.length % 64) % 64) ++ beBytes 8 (8 * m.length)
  ((groups 64 (p.length / 64) p).foldl shaBlock shaInit).flatMap (beBytes 4)

/-- HMAC-SHA-256 under a key of at most 64 bytes. -/
def hmac (key m : List Nat) : List Nat :=
  let k := key ++ zeros (64 - key.length)
  sha256 (k.map (fun b => b ^^^ 0x5C) ++ sha256 (k.map (fun b => b ^^^ 0x36) ++ m))

/-- HKDF-SHA-256, 32 bytes (RFC 5869). -/
def hkdf (salt ikm info : List Nat) : List Nat := hmac (hmac salt ikm) (info ++ [1])

end Sys2Proof.Machine
end

