-- ==== Sys2Proof/Machine/Flags.lean ====
section
/-!
DEFINITION. Codes and check values: the VXC status values (11 R357), the severities of event codes (16 R497, R498) and the
three checks of the wire formats (04 R120, R125; 09 R324).
-/
namespace Sys2Proof.Machine

/-- The value of a status code (11 R357, table "Status codes"). -/
def Status.value : Status → Nat
  | .ok => 0x0000 | .deferred => 0x0001 | .busy => 0x0002
  | .badCmd => 0x0100 | .length => 0x0101 | .range => 0x0102 | .state => 0x0103 | .late => 0x0104
  | .notFound => 0x0105 | .full => 0x0106 | .conflict => 0x0107
  | .auth => 0x0200 | .denied => 0x0201
  | .orphaned => 0x0300 | .tamper => 0x0301 | .kcvFail => 0x0302 | .usage => 0x0303
  | .product => 0x0400 | .base => 0x0401 | .version => 0x0402 | .signature => 0x0403 | .hash => 0x0404
  | .interface => 0x0405
  | .timeout => 0x0500 | .busError => 0x0501 | .periphLost => 0x0502 | .discarded => 0x0503
  | .notMeasured => 0x0504 | .fault => 0x0505

/-- One bit into a check register of width `w`, most significant bit first. -/
def crcBit (w poly reg : Nat) (b : Bool) : Nat :=
  let sh := (reg * 2) % 2 ^ w
  if (reg.testBit (w - 1)) != b then sh ^^^ poly else sh

/-- A check over bits in the order given. -/
def crcBits (w poly init : Nat) (bits : List Bool) : Nat := bits.foldl (crcBit w poly) init

/-- The eight bits of a byte, most significant first. -/
def byteMsb (b : Nat) : List Bool := [7, 6, 5, 4, 3, 2, 1, 0].map (fun k => b.testBit k)

/-- The lowest `n` bits of a number, least significant first. -/
def lsbBits : Nat → Nat → List Bool
  | 0, _ => []
  | n + 1, v => (v % 2 == 1) :: lsbBits n (v / 2)

/-- The number whose bits, least significant first, are given. -/
def ofBits : List Bool → Nat
  | [] => 0
  | b :: bs => b2n b + 2 * ofBits bs

/-- CRC8 of a beacon on feeder `f` (04 R120). -/
def crc8 (f : Nat) (bits : List Bool) : Nat := crcBits 8 0x07 (0xF8 + f) bits

/-- CRC-16/CCITT-FALSE (09 R324). -/
def crc16 (bytes : List Nat) : Nat := crcBits 16 0x1021 0xFFFF (bytes.flatMap byteMsb)

/-- One bit into the reflected register of the CRC-32 of IEEE 802.3 (log entry 9). -/
def crc32Bit (reg : Nat) (b : Bool) : Nat :=
  if (reg % 2 == 1) != b then (reg / 2) ^^^ 0xEDB88320 else reg / 2

/-- CRC-32 of IEEE 802.3 over bits in transmission order (04 R125, 16 R495; log entry 9). -/
def crc32 (bits : List Bool) : Nat := (bits.foldl crc32Bit 0xFFFFFFFF) ^^^ 0xFFFFFFFF

/-- The codes of the table "Event codes" with their severities (16 R497). -/
def eventCodes : List (Nat × Nat) :=
  [(0x0001, 2), (0x0002, 4), (0x0003, 3), (0x0004, 2), (0x0005, 4), (0x0006, 5), (0x0007, 6), (0x0008, 7), (0x0009, 5),
   (0x0201, 3), (0x0202, 4), (0x0203, 4), (0x0301, 5), (0x0302, 3), (0x0701, 5), (0x0901, 4), (0x0902, 3),
   (0x0A01, 3), (0x0A02, 4), (0x0A03, 5), (0x0A04, 3), (0x0A05, 4), (0x0B01, 7), (0x0C01, 5)]

/-- A code some event carries: one of the table, or a generic code gg00h (16 R498). -/
def codeDefined (c : Nat) : Bool := (eventCodes.any (fun e => e.1 == c)) || (c % 256 == 0 && decide (c / 256 < 16))

/-- The severity of a code; a generic code has severity 2 (16 R497, R498). -/
def sevOf (c : Nat) : Nat :=
  match eventCodes.find? (fun e => e.1 == c) with
  | some e => e.2
  | none => 2

/-- A code that has a token bucket (16 R505). -/
def codeRated (c : Nat) : Bool := codeDefined c && decide (4 ≤ c ∨ c = 0)

end Sys2Proof.Machine
end

