-- ==== Sys2Proof/Machine/Ops.lean ====
section
/-!
DEFINITION. The operations every meaning uses: time passing between commands, what the block emits, free values, events
entering the recorder's intake, counters at their limits, VXC sessions with their responses and notifications, the
acceptance of a host request, and the actions bound to an HCN.
-/
namespace Sys2Proof.Machine

/-- What exec answers. -/
abbrev Res := Host.Outcome State Fault Refusal

/-! ## Sorting -/

/-- Lexicographic order of keys. -/
def keyLe : List Nat → List Nat → Bool
  | [], _ => true
  | _ :: _, [] => false
  | a :: as, b :: bs => if a < b then true else if b < a then false else keyLe as bs

/-- Insert by key. -/
def insBy {α : Type} (key : α → List Nat) (x : α) : List α → List α
  | [] => [x]
  | y :: ys => if keyLe (key x) (key y) then x :: y :: ys else y :: insBy key x ys

/-- Sort by key. -/
def sortBy {α : Type} (key : α → List Nat) : List α → List α
  | [] => []
  | x :: xs => insBy key x (sortBy key xs)

/-! ## Small accessors -/

/-- Read the value of one region. -/
def PerRegion.get {α : Type} (p : PerRegion α) : Region → α
  | .c => p.c
  | .d => p.d
  | .m => p.m

/-- Write the value of one region. -/
def PerRegion.set {α : Type} (p : PerRegion α) (r : Region) (x : α) : PerRegion α :=
  match r with
  | .c => { p with c := x }
  | .d => { p with d := x }
  | .m => { p with m := x }

/-- The number of a region: C 0, D 1, M 2. -/
def regionNo : Region → Nat
  | .c => 0
  | .d => 1
  | .m => 2

/-- A feeder of the link; the default is a feeder right after reset. -/
def State.feeder (s : State) (f : Nat) : Feeder := tget {} s.fdr f

/-- Change one feeder. -/
def State.onFeeder (s : State) (f : Nat) (g : Feeder → Feeder) : State := { s with fdr := tmod {} s.fdr f g }

/-- The module's volatile knowledge of a node. -/
def State.node (s : State) (a : Nat) : NodeDyn := tget {} s.nodes a

/-- Change the volatile knowledge of a node. -/
def State.onNode (s : State) (a : Nat) (g : NodeDyn → NodeDyn) : State := { s with nodes := tmod {} s.nodes a g }

/-- The stored configuration of a node. -/
def State.ncfg (s : State) (a : Nat) : NodeCfg := tget {} s.nv.nodes a

/-- Change the stored configuration of a node. -/
def State.onNcfg (s : State) (a : Nat) (g : NodeCfg → NodeCfg) : State :=
  { s with nv := { s.nv with nodes := tmod {} s.nv.nodes a g } }

/-- Change MRAM, OTP and flash content. -/
def State.onNv (s : State) (g : Nv → Nv) : State := { s with nv := g s.nv }

/-- Start-up has completed, so there is a current HCN (11 R609, 19 R585). -/
def State.started (s : State) : Bool := decide (s.pow.phase = .complete)

/-- Rank of a start-up phase. -/
def Phase.rank : Phase → Nat
  | .reset => 0 | .bootRom => 1 | .loadM => 2 | .mRuns => 3 | .keysReady => 4 | .cdRun => 5 | .lockStep => 6
  | .complete => 7 | .bootStuck => 0

/-- Whether a region reads RUN: its start-up step has come (19 R582) and no restart holds it (01 R43). -/
def State.runs (s : State) (r : Region) : Bool :=
  decide ((match r with | .m => 3 | _ => 5) ≤ s.pow.phase.rank) && decide ((s.jnc.regions.get r).st = .run)

/-! ## Time (log entry 10) -/

/-- CCLK cycles in a second, a millisecond and 10 µs (01, table "Clock domains"). -/
def secC : Nat := 400000000
def msC : Nat := 400000
def us10C : Nat := 4000

/-- Seconds from 2000-01-01 to the end of 2199-12-31 (13 R410). -/
def calSecs : Nat := 6311433600

/-- The prescaler and calendar after `n` RTC cycles. It waits at a second boundary that a step or the calendar's wrap is due
at: those boundaries are commands of their own (13 R410, R418; log entry 10). -/
def Backup.tick (b : Backup) (n : Nat) : Backup :=
  let sub := b.sub + n
  let secs := b.secs + sub / 32768
  if b.held then b
  else if sub < 32768 then { b with sub := sub }
  else if b.step.isSome then { b with sub := 32767 }
  else if secs < calSecs then { b with sub := sub % 32768, secs := secs }
  else { b with sub := 32767, secs := calSecs - 1 }

/-- The local PTP clock after `n` ETH_TX ticks of INCR each (12 R398). -/
def Net.tick (t : Net) (n : Nat) : Net :=
  let q := t.ns * 4294967296 + t.frac + n * t.incr
  let ns := q / 4294967296
  { t with frac := q % 4294967296, ns := ns % 1000000000, sec := (t.sec + ns / 1000000000) % 281474976710656 }

/-- 8 µs, the longest hold of a rejoin (01 R30). -/
def rejoinC : Nat := 3200

/-- Positions that are not excluded, ascending. -/
def Voter.good (v : Voter) : List Nat := (rangeFrom 0 4).filter (fun n => !(bit v.excluded n))

/-- The spare is the one that stands, else the lowest position that is neither excluded nor a member (01 R27, R32). -/
def Voter.withSpare (v : Voter) : Voter :=
  { v with spare := match v.spare with | some n => some n | none => v.good.find? (fun n => !(bit v.members n)) }

/-- A rejoin that began at an edge is over 8 µs after it: the spare votes, and a core returned meanwhile is the spare (01 R30, R32). -/
def Voter.settled (v : Voter) (edge now : Nat) : Voter :=
  if v.mode = .rejoin ∧ edge + rejoinC ≤ now then
    ({ v with
      mode := .triple, spare := none
      members := match v.spare with | some n => setBit v.members n true | none => v.members } : Voter).withSpare
  else v

/-- The voters of the regions after a rejoin's time. -/
def Junction.settled (j : Junction) (edge now : Nat) : Junction :=
  { j with voters := ⟨j.voters.c.settled edge now, j.voters.d.settled edge now, j.voters.m.settled edge now⟩ }

/-- Time passes, and what the last command emitted is gone. The local clock holds while the M-region restarts (12 R408). -/
def State.tick (s : State) (d : Dt) : State :=
  { s with
    out := []
    now := s.now + d.cclk
    jnc := s.jnc.settled s.tb.lastEdge (s.now + d.cclk)
    bk := s.bk.tick d.rtc
    net := if s.jnc.regions.m.st = .run then s.net.tick d.eth else s.net }

/-- LIN (13 R411). -/
def State.lin (s : State) : Nat := s.bk.secs % 4294967296

/-! ## Emission and free values -/

/-- Emit one output. -/
def State.emit (s : State) (o : Out) : State := { s with out := s.out ++ [o] }

/-- Draw a free value below `m` (log entry 3). -/
def State.draw (s : State) (m : Nat) : Nat × State := (Config.freeNat s.fresh % m, { s with fresh := s.fresh + 1 })

/-- A quotient of whole numbers where the spec states no rounding: floor, plus a free bit when it is not exact (log entry
4). -/
def roundDiv (a : Int) (b : Int) : Int :=
  let q := Int.fdiv a b
  if a = q * b then q else q + (if Config.roundUp a b then 1 else 0)

/-! ## The event recorder's intake (16) -/

/-- The queues of EVTIN: the region queues and the chip queue. -/
inductive Queue where
  | c
  | d
  | m
  | chip
  deriving DecidableEq, Repr

/-- The queue of a region. -/
def queueOf : Region → Queue
  | .c => .c
  | .d => .d
  | .m => .m

/-- Entries in a queue. -/
def Intake.q (e : Intake) : Queue → List EvEntry
  | .c => e.qC
  | .d => e.qD
  | .m => e.qM
  | .chip => e.qX

/-- Drops of a queue awaiting their summary. -/
def Intake.drop (e : Intake) : Queue → Tally
  | .c => e.dropC
  | .d => e.dropD
  | .m => e.dropM
  | .chip => e.dropX

/-- Set the entries of a queue. -/
def Intake.setQ (e : Intake) (k : Queue) (l : List EvEntry) : Intake :=
  match k with
  | .c => { e with qC := l }
  | .d => { e with qD := l }
  | .m => { e with qM := l }
  | .chip => { e with qX := l }

/-- Set the drop tally of a queue. -/
def Intake.setDrop (e : Intake) (k : Queue) (t : Tally) : Intake :=
  match k with
  | .c => { e with dropC := t }
  | .d => { e with dropD := t }
  | .m => { e with dropM := t }
  | .chip => { e with dropX := t }

/-- The depth of a queue (16, "Intake"). -/
def Queue.cap : Queue → Nat
  | .chip => 8
  | _ => 32

/-- The number of a queue in a DROPPED record. -/
def Queue.no : Queue → Nat
  | .c => 0
  | .d => 1
  | .m => 2
  | .chip => 3

/-- A tally with one more count at an HCN; its count is a 32-bit statistics count (R567). -/
def Tally.add (t : Tally) (hcn : Nat) : Tally :=
  { count := stick 0xFFFFFFFF (t.count + 1), first := if t.count = 0 then hcn else t.first, last := hcn }

/-- The entry EVTIN makes of a code, a source and a payload at this moment (R495). -/
def State.entry (s : State) (code src : Nat) (pay : List Nat) (summary : Bool) : EvEntry :=
  { code := code, src := src, pay := pay, hcn := s.tb.hcn, virt := bit s.tb.flags 0, rtcSec := s.lin,
    rtcValid := s.bk.valid, summary := summary, time := s.now }

/-- Push an entry at the tail of its queue, or count a drop when it is full (R502 step 2, R504). -/
def Intake.push (e : Intake) (k : Queue) (x : EvEntry) : Intake :=
  if (e.q k).length < k.cap then e.setQ k (e.q k ++ [x])
  else { e.setDrop k ((e.drop k).add x.hcn) with dropTotal := stick 0xFFFFFFFF (e.dropTotal + 1) }

/-- One event into intake: rate limit, then queue (R502). A token taken from a full bucket starts the time of the next (R505). -/
def State.raiseOne (s : State) (k : Queue) (code src : Nat) (pay : List Nat) : State :=
  let x := s.entry code src pay false
  let b := tget {} s.ev.buckets code
  if codeRated code && b.tokens == 0 then
    { s with ev := { s.ev with
        buckets := tset {} s.ev.buckets code { b with supp := b.supp.add x.hcn }
        suppTotal := stick 0xFFFFFFFF (s.ev.suppTotal + 1) } }
  else
    let ev := if codeRated code then { s.ev with buckets := tset {} s.ev.buckets code { b with
                tokens := b.tokens - 1, since := if 8 ≤ b.tokens then s.now else b.since } }
              else s.ev
    { s with ev := ev.push k x }

/-- SOURCE of the recorder itself. -/
def srcEvtin : Nat := 3 * 2 ^ 30 + 3 * 2 ^ 28 + 0x03 * 2 ^ 20 + 0xFFF * 2 ^ 8

/-- COUNTER_STUCK once the total of suppressed or of dropped events, which no register holds, has reached its limit since `e` (R506; 18 R567;
log entry 11). -/
def State.totalsTold (s : State) (e : Intake) : State :=
  if (e.suppTotal < 0xFFFFFFFF ∧ 0xFFFFFFFF ≤ s.ev.suppTotal) ∨ (e.dropTotal < 0xFFFFFFFF ∧ 0xFFFFFFFF ≤ s.ev.dropTotal)
  then s.raiseOne .chip 0x0004 srcEvtin [0, 0, 0, 0, 0]
  else s

/-- An event enters intake (R502). -/
def State.raise (s : State) (k : Queue) (code src : Nat) (pay : List Nat) : State := (s.raiseOne k code src pay).totalsTold s.ev

/-- SOURCE of firmware that names no unit: region level, its region, BLOCK FFh, CELL FFFh (R498). -/
def srcFw (r : Region) : Nat := 2 * 2 ^ 30 + regionNo r * 2 ^ 28 + 0xFF * 2 ^ 20 + 0xFFF * 2 ^ 8

/-- The REGION field of a block number (table "Block windows"): blocks below 10h are the chip's. -/
def blockRegion (block : Nat) : Nat := if block < 0x10 then 3 else if block < 0x20 then 0 else if block < 0x30 then 1 else 2

/-- SOURCE of a block: level 0 cell, 1 block, 3 chip; block is bits [23:16] of its window base; cell FFFh for none. -/
def srcHw (level block cell : Nat) : Nat :=
  level * 2 ^ 30 + blockRegion block * 2 ^ 28 + block * 2 ^ 20 + (cell % 4096) * 2 ^ 8

/-- The queue that reports of a block enter (R502). -/
def blockQueue (block : Nat) : Queue :=
  match blockRegion block with
  | 0 => .c
  | 1 => .d
  | 2 => .m
  | _ => .chip

/-- An event of a hardware block. -/
def State.raiseHw (s : State) (level block cell code : Nat) (pay : List Nat) : State :=
  s.raise (blockQueue block) code (srcHw level block cell) pay

/-- An event of a region's firmware. -/
def State.raiseFw (s : State) (r : Region) (code : Nat) (pay : List Nat) : State :=
  s.raise (queueOf r) code (srcFw r) pay

/-- The payload of a generic event: ADDR, then the values named, each (value, bytes) (R498). -/
def genPay (addr : Nat) (vals : Payload) : List Nat := leBytes 4 addr ++ vals.flatMap (fun v => leBytes v.2 v.1)

/-- A generic event of a region's firmware. -/
def State.raiseGen (s : State) (r : Region) (gg addr : Nat) (vals : Payload) : State :=
  s.raiseFw r (gg * 256) (genPay addr vals)

/-- A generic event of a hardware unit: the level that handled it (0 cell, 1 block, 2 region), block and cell (R498; 01 R33). -/
def State.raiseUnit (s : State) (level block cell gg addr : Nat) (vals : Payload) : State :=
  s.raiseHw level block cell (gg * 256) (genPay addr vals)

/-! ## Counters at their limits (18 R567) -/

/-- COUNTER_STUCK for a field of a register of a block: ADDR and LSB. -/
def State.stuck (s : State) (addr lsb : Nat) : State :=
  let block := addr / 65536 % 256
  s.raiseHw (if block < 0x10 then 3 else 1) block 0xFFF 0x0004 (leBytes 4 addr ++ [lsb])

/-- COUNTER_STUCK for a field of a table in SRAM that a block counts in (08 R297). -/
def State.stuckTable (s : State) (block addr lsb : Nat) : State :=
  s.raiseHw 1 block 0xFFF 0x0004 (leBytes 4 addr ++ [lsb])

/-- COUNTER_STUCK for a count that firmware of a region keeps and no register holds: ADDR and LSB 0 (R498; log entry 11). -/
def State.stuckFw (s : State) (r : Region) (b : Bool) : State := if b then s.raiseFw r 0x0004 [0, 0, 0, 0, 0] else s

/-- One more makes a 32-bit count stick. -/
def fills32 (n : Nat) : Bool := n + 1 == 0xFFFFFFFF

/-- One more on a statistics counter: the new value, and whether this increment made it stick (log entry 11). -/
def bump (max v : Nat) : Nat × Bool := (stick max (v + 1), v + 1 == max)

/-- Raise COUNTER_STUCK when an increment made the counter stick. -/
def State.stuckIf (s : State) (b : Bool) (addr lsb : Nat) : State := if b then s.stuck addr lsb else s

/-- Whether a statistics counter that goes from `v` to `v + n` reaches its limit on the way. -/
def bumpBy (max v n : Nat) : Nat × Bool := (stick max (v + n), decide (v < max) && decide (max ≤ v + n))

/-! ## VXC sessions (10) -/

/-- Addresses of the block windows (01, table "Block windows"). -/
def wClkrst : Nat := 0x40000000
def wJnc : Nat := 0x40010000
def wEvtin : Nat := 0x40030000
def wSillage : Nat := 0x40110000
def wBlotcmd : Nat := 0x40120000
def wWmac : Nat := 0x40130000
def wWtx : Nat := 0x40140000
def wWrx : Nat := 0x40150000
def wMafe : Nat := 0x40210000
def wMdsp : Nat := 0x40220000
def wAccord : Nat := 0x40230000
def wBlotcor : Nat := 0x40240000
def wPulse : Nat := 0x40250000
def wEth0 : Nat := 0x40310000

/-- The window of a MAC. -/
def wEth (p : Nat) : Nat := wEth0 + 0x10000 * p

def wPrp : Nat := 0x40330000
def wPtp : Nat := 0x40340000
def wKeyst : Nat := 0x40350000
def wNvmc : Nat := 0x40360000
def wRtcif : Nat := 0x40370000
def wSink : Nat := 0x40380000
def wScan : Nat := 0x40390000
def wSbus : Nat := 0x403A0000

/-- The session of an identifier. -/
def State.session (s : State) (id : Nat) : Option Session := s.vxc.sessions.find? (fun x => x.id == id)

/-- Change one session. -/
def State.onSession (s : State) (id : Nat) (g : Session → Session) : State :=
  { s with vxc := { s.vxc with sessions := s.vxc.sessions.map (fun x => if x.id == id then g x else x) } }

/-- Causes of a session's end, in the order of R340 (log entry 12). -/
inductive EndCause where
  | close
  | idle
  | tagFailures
  | seqEnd
  | restart
  | operator
  | usb
  | deny
  deriving DecidableEq, Repr

/-- The number that the end's record carries (log entry 12). -/
def EndCause.no : EndCause → Nat
  | .close => 0
  | .idle => 1
  | .tagFailures => 2
  | .seqEnd => 3
  | .restart => 4
  | .operator => 5
  | .usb => 6
  | .deny => 7

/-- End a session: its keys are erased and the end is recorded with its cause (R340). A half-open session is dropped
without a record. -/
def State.endSession (s : State) (id : Nat) (why : EndCause) : State :=
  match s.session id with
  | none => s
  | some x =>
    let s := { s with vxc := { s.vxc with sessions := s.vxc.sessions.filter (fun y => y.id != id) } }
    if x.halfOpen then s else s.raiseGen .m 0x01 0 [(why.no, 1)]

/-- End every session. -/
def State.endAll (s : State) (why : EndCause) : State :=
  (s.vxc.sessions.map Session.id).foldl (fun s i => s.endSession i why) s

/-- The next module SEQ of a session, and the session's end when it reaches FFFF_FFFFh (R340, R342). -/
def State.modSeqOf (s : State) (id : Nat) : Nat := ((s.session id).map (fun x => x.modSeq + 1)).getD 0

/-! ## Frames at the Ethernet ports (12 R383-R391) -/

/-- A port. -/
def State.eport (s : State) (p : Nat) : EthPort := tget {} s.net.ports p

/-- Change the network state. -/
def State.onNet (s : State) (g : Net → Net) : State := { s with net := g s.net }

/-- Change a port. -/
def State.onEport (s : State) (p : Nat) (g : EthPort → EthPort) : State :=
  s.onNet (fun n => { n with ports := tmod {} n.ports p g })

/-- A port whose link is up (12 R407). -/
def State.linkUp (s : State) (p : Nat) : Bool := (tget {} s.net.ports p).link

/-- The MACs run and the ports are up (R407, R408; 19 R574). -/
def State.netRuns (s : State) : Bool := s.runs .m && !s.pow.supplyFail && !s.pow.cmdShutdown

/-- A frame can come or go on a port. -/
def State.portOk (s : State) (p : Nat) : Bool := s.netRuns && decide (p < 2) && s.linkUp p

/-- The tag of a frame the module sends, link-local peer-delay frames apart: PCP and VID (R385). -/
def State.tag (s : State) (pcp : Nat) : Option Nat :=
  if s.vxc.netInForce.vlan = 0 then none else some (pcp * 8192 + s.vxc.netInForce.vlan)

/-- Frames sent other than PTP frames (R384, R387; 10 R332). -/
inductive Frame where
  | arpReply (dst : Nat)
  | arpAll
  | echoReply (dst : Nat)
  | supervision
  | datagram
  deriving DecidableEq, Repr

/-- KIND and destination MAC of a frame: the asker's, the broadcast address, the supervision address; a datagram's next hop is in no rule. -/
def Frame.form : Frame → Nat × Option Nat
  | .arpReply d => (0, some d)
  | .arpAll => (1, some 0xFFFFFFFFFFFF)
  | .echoReply d => (2, some d)
  | .supervision => (3, some 0x01154E000100)
  | .datagram => (4, none)

/-- A frame on one port: from MAC0, with the trailer of its LAN (R383, R387, R388). -/
def State.frameOut (s : State) (p : Nat) (k : Frame) : Out := .eth p k.form.1 s.nv.mac0 k.form.2 (0xA + p, s.net.prpSeq) (s.tag 4)

/-- The next SequenceNr (R388). -/
def State.prpNext (s : State) : State := { s with net := { s.net with prpSeq := (s.net.prpSeq + 1) % 65536 } }

/-- Send a frame other than a PTP frame: on both ports with one SequenceNr, or on the one that is up (R388). -/
def State.sendFrame (s : State) (k : Frame) : State :=
  let up := [0, 1].filter s.linkUp
  if up.isEmpty then s else { s with out := s.out ++ up.map (fun p => s.frameOut p k) }.prpNext

/-- A frame whose tag the module accepts (R385). -/
def State.vlanOk (s : State) (vid : Option Nat) (peerDelay : Bool) : Bool :=
  let v := s.vxc.netInForce.vlan
  if v = 0 then vid == none || vid == some 0 else vid == some v || (vid == none && peerDelay)

/-- A frame that the MAC accepts, by its port, size and tag (R385). -/
def State.accepts (s : State) (a : Arrival) (peerDelay : Bool) : Bool :=
  s.portOk a.port && decide (a.len ≤ 1528) && s.vlanOk a.vid peerDelay

/-- One more on a counter of a port. -/
def State.portCount (s : State) (p max addr lsb : Nat) (rd : EthPort → Nat) (wr : EthPort → Nat → EthPort) : State :=
  let b := bump max (rd (s.eport p))
  (s.onEport p (fun e => wr e b.1)).stuckIf b.2 addr lsb

/-- One more frame of a port discarded at a full queue or as unhandled (R384, R386). -/
def State.rxDropped (s : State) (p : Nat) : State := s.portCount p 0xFFFF (wEth p) 16 EthPort.rxDrop (fun e v => { e with rxDrop := v })

/-- The node table's entry of a source: touched, or made; a full table loses the entry unused longest, and each 256 evictions make
a record (R387, R390). -/
def State.prpTouch (s : State) (p src : Nat) : State :=
  let live := s.net.nodes.filter (fun n => decide (s.now < n.used + 60 * secC))
  match live.find? (fun n => n.src == src) with
  | some n =>
    s.onNet (fun t => { t with nodes := { n with used := s.now } :: live.filter (fun m => m.src != src) })
  | none =>
    if live.length < 128 then s.onNet (fun t => { t with nodes := ⟨src, s.now, []⟩ :: live })
    else
      let c := s.net.evictions + 1
      let s := s.onNet (fun t => { t with nodes := ⟨src, s.now, []⟩ :: live.take 127, evictions := c % 256 })
      let s := s.portCount p 0xFFFF (wPrp + 4 + 16 * p) 0 EthPort.evict (fun e v => { e with evict := v })
      if c = 256 then s.raiseGen .m 0x01 0 [] else s

/-- SequenceNrs passed up for a source. -/
def State.prpSeqs (s : State) (src : Nat) : List (Nat × Nat) :=
  ((s.net.nodes.find? (fun n => n.src == src)).map PrpNode.seqs).getD []

/-- The highest of the SequenceNrs passed up, counted round from the oldest one kept (R387, R388). -/
def prpTop (l : List (Nat × Nat)) (seq : Nat) : Nat :=
  l.foldr (fun e top => if (e.1 + 65536 - top) % 65536 < 32768 then e.1 else top) ((l.getLast?.map Prod.fst).getD seq)

/-- A SequenceNr already passed up, within the window of 64 numbers below the highest and 400 ms (R387, R389). -/
def State.prpDup (s : State) (src seq : Nat) : Bool :=
  let l := s.prpSeqs src
  l.any (fun e => e.1 == seq && decide (s.now < e.2 + 400 * msC) && decide ((prpTop l seq + 65536 - seq) % 65536 < 64))

/-- Note a SequenceNr as passed up. -/
def State.prpNote (s : State) (src seq : Nat) : State :=
  s.onNet (fun t => { t with nodes := t.nodes.map (fun (n : PrpNode) =>
    if n.src == src then { n with seqs := ((seq, s.now) :: n.seqs).take 64 } else n) })

/-- Duplicate discard: whether a frame is passed up, and what is noted and counted of it (R389). -/
def State.prpTake (s : State) (a : Arrival) : Bool × State :=
  let s := s.prpTouch a.port a.src
  match a.trailer with
  | none => (true, s)
  | some (lan, seq) =>
    let s := if lan ≠ 0xA + a.port then
        s.portCount a.port 0xFFFF (wPrp + 4 + 16 * a.port) 16 EthPort.wrongLan (fun e v => { e with wrongLan := v }) else s
    if s.prpDup a.src seq then
      (false, s.portCount a.port 0xFFFFFFFF (wPrp + 16 * a.port) 0 EthPort.dup (fun e v => { e with dup := v }))
    else (true, s.prpNote a.src seq)

/-- When the firmware is free again after it has taken up a frame at a time; how long it takes is in no rule. -/
def rxDone (p at_ : Nat) : Nat := at_ + Config.rxTime p at_

/-- Of `n` frames that wait at a port, those that the firmware has not taken up by now. -/
def rxLeft (p now : Nat) : Nat → Nat → Nat
  | 0, _ => 0
  | n + 1, free => if now < free then n + 1 else rxLeft p now n (rxDone p free)

/-- The queue of frames other than PTP messages is full: PTP messages are served before it (R386). -/
def State.restFull (s : State) (p : Nat) : Bool :=
  let e := s.eport p
  decide (64 ≤ min e.restQ.length (rxLeft p s.now (e.ptpQ.length + e.restQ.length) e.rxFree))

/-! ## Messages of a session (10 R332-R347) -/

/-- Packets of a transfer of `n` bytes: full ones of 64 bytes, and a short or a zero-length one that ends it (10 R333). -/
def usbPackets (n : Nat) : List Nat := List.replicate (n / 64) 64 ++ [n % 64]

/-- The length of a VXC message (10, table "VXC message"). -/
def Out.vxcLen : Out → Nat
  | .resp _ tag _ _ _ r => 20 + (r.pay.map Prod.snd).foldl (· + ·) 0 + (if tag.isSome then 16 else 0)
  | .note _ tag _ _ n => 20 + (n.pay.map Prod.snd).foldl (· + ·) 0 + (if tag.isSome then 16 else 0)
  | _ => 0

/-- Send one message: as a transfer on endpoint 82h, or as one datagram on whichever ports are up (10 R332, R333; 12 R388). -/
def State.say (s : State) (usb : Bool) (o : Out) : State :=
  (if usb then s.emit (.usb 0x82 (usbPackets o.vxcLen)) else s.sendFrame .datagram).emit o

/-- The bytes of a message from the module (10, tables "VXC message" and "FLAGS of a VXC message"), less its TAG. -/
def vxcBytes (cmd seq ses flags : Nat) (st : Status) (pay : Payload) : List Nat :=
  let body := pay.flatMap (fun v => leBytes v.2 v.1)
  leBytes 2 cmd ++ leBytes 2 body.length ++ leBytes 4 seq ++ leBytes 4 ses ++ leBytes 2 flags ++ leBytes 2 st.value ++ body

/-- TAG of a message from the module: the AES-CMAC of its bytes under the module-to-host key (10 R336). -/
def Session.tag (x : Session) (bytes : List Nat) : Nat := ofBytes (cmac (leBytes 16 x.keyOut) bytes)

/-- Where a message of a session goes: over UDP to its address, at a port (10 R341). -/
def Session.dest (x : Session) (port : Nat) : Option (Nat × Nat) := if x.usb then none else some (x.ip, port)

/-- A response of a session, to a source port (10 R341, R344). -/
def Session.respOut (x : Session) (port n : Nat) (dup : Bool) (r : Resp) : Out :=
  .resp (x.dest port) (some (x.tag (vxcBytes r.cmd n x.id (1 + 32 * b2n dup) r.st ((r.seq, 4) :: r.pay)))) x.id n dup r

/-- A notification of a session, to the source port of its last good request (10 R341, R347). -/
def Session.noteOut (x : Session) (k : Nat) (n : Note) : Out :=
  .note (x.dest x.port) (some (x.tag (vxcBytes n.cmd k x.id (5 + 64 * b2n n.final) n.st ((n.nseq, 4) :: n.pay)))) x.id k n

/-- A response outside a session, to where its request came from (10 R337, R341, R348). -/
def openResp (r : Req) (cmd : Nat) (st : Status) (pay : Payload) : Out :=
  .resp (if r.usb then none else some (r.ip, r.port)) none 0 0 false ⟨r.seq, cmd, st, pay⟩

/-- Send one message of a session: its module SEQ counts, and the session ends at FFFF_FFFFh (R340). -/
def State.sendOn (s : State) (id : Nat) (o : Session → Nat → Out) : State :=
  match s.session id with
  | none => s
  | some x =>
    let s := (s.onSession id (fun y => { y with modSeq := x.modSeq + 1 })).say x.usb (o x (x.modSeq + 1))
    if 0xFFFFFFFF ≤ x.modSeq + 1 then s.endSession id .seqEnd else s

/-- The source port of a request of a session: of one that was held, or of the last one (R341). -/
def Session.portOf (x : Session) (seq : Nat) : Nat := ((x.outst.find? (fun o => o.1 == seq)).map (fun o => o.2.2)).getD x.port

/-- Store and send the response to an accepted request (R341, R342, R344). -/
def State.respond (s : State) (id : Nat) (r : Resp) : State :=
  let port := ((s.session id).map (fun x => x.portOf r.seq)).getD 0
  (s.onSession id (fun x => { x with
    answered := (r :: x.answered).take 16
    outst := x.outst.filter (fun o => o.1 != r.seq) })).sendOn id (fun x n => x.respOut port n false r)

/-- Put a notification in a session's ring; the oldest of 256 is overwritten and LOST counts it (R347). -/
def Session.ringAdd (x : Session) (n : Note) : Session :=
  let full := decide (256 ≤ x.ring.length)
  { x with
    nseq := n.nseq
    ring := (n :: x.ring).take 256
    lost := if full then stick 0xFFFFFFFF (x.lost + 1) else x.lost
    waiting := if full then x.waiting.filter (fun k => (x.ring.take 255).any (fun m => m.nseq == k)) else x.waiting }

/-- One notification of the rate limit is spent: from a full burst its time begins (R347). -/
def Session.spend (x : Session) (now : Nat) : Session :=
  { x with tokens := x.tokens - 1, tokenAt := if 16 ≤ x.tokens then now else x.tokenAt }

/-- A notification to one session: it takes NSEQ and a ring entry. A completion is sent at once; another one is sent if
the rate allows and none waits, else it waits in the ring (R345, R347). -/
def State.notify (s : State) (id cmd : Nat) (final : Bool) (st : Status) (pay : Payload) : State :=
  match s.session id with
  | none => s
  | some x =>
    if x.halfOpen then s else
    let n : Note := ⟨(x.nseq + 1) % 4294967296, cmd, final, st, pay⟩
    let s := (s.onSession id (fun y => y.ringAdd n)).stuckFw .m (decide (256 ≤ x.ring.length) && fills32 x.lost)
    if final then s.sendOn id (fun y k => y.noteOut k n)
    else if x.waiting.isEmpty && decide (0 < x.tokens) then
      (s.onSession id (fun y => y.spend s.now)).sendOn id (fun y k => y.noteOut k n)
    else s.onSession id (fun y => { y with waiting := y.waiting ++ [n.nseq] })

/-- A notification of a class to every session that subscribes to it (11 R358). -/
def State.notifyClass (s : State) (cls cmd : Nat) (st : Status) (pay : Payload) : State :=
  ((s.vxc.sessions.filter (fun x => bit x.classes cls)).map Session.id).foldl
    (fun s i => s.notify i cmd false st pay) s

/-- The completion of a DEFERRED request: the request's SEQ, then the result fields (R345). -/
def State.complete (s : State) (ses seq cmd : Nat) (st : Status) (pay : Payload) : State :=
  s.notify ses cmd true st ((seq, 4) :: pay)

/-! ## Host requests (10 R335-R348, 11 R349-R356) -/

/-- Privilege bits (10 R339, table "VXC_PRIV bits"). -/
inductive Priv where
  | read
  | operate
  | configure
  | keys
  | update
  | clear
  | mem
  | test
  | lifecycle
  | anyone
  deriving DecidableEq, Repr

/-- Whether a session's privileges cover a need. -/
def Priv.ok (p : Priv) (w : BitVec 16) : Bool :=
  match p with
  | .read => bit w 0
  | .operate => bit w 1
  | .configure => bit w 2
  | .keys => bit w 3
  | .update => bit w 4
  | .clear => bit w 5
  | .mem => bit w 6
  | .test => bit w 7
  | .lifecycle => bit w 8
  | .anyone => true

/-- Who issued a request that is to be answered later. -/
structure Who where
  ses : Nat
  seq : Nat
  deriving DecidableEq, Repr

/-- What a command's own rules answer. -/
inductive Ans where
  /-- OK with a payload and the new state. -/
  | ok (pay : Payload) (s : State)
  /-- A refusal with its DETAIL; nothing takes effect. -/
  | no (st : Status) (detail : Nat)
  /-- A code that arises during execution, with its payload and what has taken effect (11 R352). -/
  | ended (st : Status) (pay : Payload) (s : State)
  /-- Accepted for TARGET. -/
  | deferred (target : Nat) (s : State)
  /-- Accepted; the response goes out in a later command's step. -/
  | later (s : State)
  /-- OK now, and `fin` is the state once the response has gone out and what follows it has happened (11 R360, R376,
  R380). -/
  | okThen (pay : Payload) (s : State) (fin : State → State)

/-- The checks of a request in the order of 11 R352: the first that applies refuses it. -/
def checked (cs : List (Bool × Status)) (k : Ans) : Ans :=
  match cs.find? (fun c => c.1) with
  | some c => .no c.2 0
  | none => k

/-- The payload of a refusal: DETAIL, or RETRY_MS for BUSY (11 R351, R609). RETRY_MS is a free value (log entry 13). -/
def State.refusalPay (s : State) (st : Status) (detail : Nat) : Payload × State :=
  if st = .busy then
    let (v, s') := s.draw (if s.started then 65536 else 1501)
    ([(v, 2)], s')
  else ([(detail, 4)], s)

/-- Answer a request by what its command's rules said; `reply` sends one response. -/
def State.settle (s : State) (reply : State → Status → Payload → State) (hold : State → State) : Ans → State
  | .ok pay s' => reply s' .ok pay
  | .no st d => let (p, s') := s.refusalPay st d; reply s' st p
  | .ended st pay s' => reply s' st pay
  | .deferred t s' => reply s' .deferred [(t, 6)]
  | .later s' => hold s'
  | .okThen pay s' fin => fin (reply s' .ok pay)

/-- A command as 11 lists it: code, privilege, whether it belongs to the open subset. -/
structure CmdSpec where
  cmd : Nat
  need : Priv
  openRead : Bool := false

/-- Count a discarded message (10 R335). -/
def State.discard (s : State) (g : DiscardCnt → DiscardCnt) : State :=
  { s with vxc := { s.vxc with discards := g s.vxc.discards } }

/-- Counts of discarded messages that stand at their limit. -/
def DiscardCnt.full (d : DiscardCnt) : Nat := ([d.size, d.len, d.rsvd, d.resp, d.tag, d.session, d.sequence, d.source].filter (fun n => decide (0xFFFFFFFF ≤ n))).length

/-- A message is discarded and counted, with COUNTER_STUCK when its count reaches its limit (10 R335; 18 R567). -/
def State.discarded (s : State) (g : DiscardCnt → DiscardCnt) : State :=
  (s.discard g).stuckFw .m (decide (s.vxc.discards.full < (g s.vxc.discards).full))

/-- A statistics count of 32 bits (11 R355). -/
def up32 (n : Nat) : Nat := stick 0xFFFFFFFF (n + 1)

/-- TAG failures of a session in the last 60 s, with one more now; 32 end the session (R340). -/
def State.tagFail (s : State) (x : Session) : State :=
  let l := s.now :: x.tagFails.filter (fun t => decide (s.now < t + 60 * secC))
  let s := s.onSession x.id (fun y => { y with tagFails := l })
  if 32 ≤ l.length then s.endSession x.id .tagFailures else s

/-- Whether a request SEQ is new, repeats one of the last 16 answered, or is to be discarded (R342). -/
inductive SeqVerdict where
  | fresh
  | again (r : Resp)
  | stale
  deriving DecidableEq, Repr

/-- R342's verdict on a request SEQ. -/
def Session.seqVerdict (x : Session) (seq : Nat) : SeqVerdict :=
  if x.hi < seq then .fresh
  else if 0 < seq && decide (x.hi < seq + 64) && !(bit x.seen (x.hi - seq)) then .fresh
  else match x.answered.find? (fun r => r.seq == seq) with
    | some r => .again r
    | none => .stale

/-- The session after a request SEQ is accepted (R342). -/
def Session.accept (x : Session) (seq : Nat) : Session :=
  if x.hi < seq then
    { x with hi := seq, seen := BitVec.ofNat 64 ((if seq - x.hi < 64 then x.seen.toNat <<< (seq - x.hi) else 0) + 1) }
  else { x with seen := setBit x.seen (x.hi - seq) true }

/-- The state once a request has passed R335, R341 and its TAG: the TAG's time and the source are noted. -/
def Session.heard (x : Session) (r : Req) (now : Nat) : Session :=
  { x with lastGood := now, port := if r.usb then x.port else r.port }

/-- What reaches the execution of a request (10 R335, R341, R342, R348). -/
inductive Gate where
  /-- Dropped without an answer; the state counts it. -/
  | drop (s : State)
  /-- An unauthenticated request on USB (R348). -/
  | unauth (s : State)
  /-- The stored response goes out again (R342). -/
  | again (s : State) (x : Session) (r : Resp)
  /-- A request of an open session, accepted. -/
  | accept (s : State) (x : Session)

/-- No request reaches a module whose M-region does not run, or whose ports a shutdown has powered down (19 R574, R585), and none
over UDP while IPV4 is 0 (12 R384). -/
def State.deaf (s : State) (r : Req) : Bool :=
  !s.runs .m || s.pow.supplyFail || s.pow.cmdShutdown || (!r.usb && s.vxc.netInForce.ipv4 == 0)

/-- Whether a request gets from its port to VXC, and the state then: a datagram's frame is accepted, finds room in its queue and passes
duplicate discard (12 R385, R386, R389), and one to another port, or in fragments, is not VXC's (12 R384; 10 R332). -/
def State.arrived (s : State) (r : Req) : Bool × State :=
  if r.usb then (true, s)
  else if !s.accepts r.via false then (false, s)
  else if s.restFull r.via.port then (false, s.rxDropped r.via.port)
  else
    let x := s.prpTake r.via
    if !x.1 || r.frag then (false, x.2)
    else if r.dport ≠ 41620 then (false, x.2.rxDropped r.via.port)
    else x

/-- The first rule of its form that a message breaks, as R335 lists them: its length, LEN, a RSVD bit, RESP. -/
def malformed (r : Req) : Option Nat :=
  if r.size ≠ (if bit r.flags 4 then 16 else 32) + r.len then some 0
  else if 1400 < r.len then some 1
  else if r.flags &&& 0xFF82#16 ≠ 0 then some 2
  else if bit r.flags 0 then some 3
  else none

/-- One more malformed message of a kind. -/
def DiscardCnt.upForm (d : DiscardCnt) (k : Nat) : DiscardCnt :=
  match k with
  | 0 => { d with size := up32 d.size }
  | 1 => { d with len := up32 d.len }
  | 2 => { d with rsvd := up32 d.rsvd }
  | _ => { d with resp := up32 d.resp }

/-- NOTAG of a request (10, table "FLAGS of a VXC message"). -/
def noTag (r : Req) : Bool := bit r.flags 4

/-- Bytes 0 to 15 + LEN of a request (10, table "VXC message"). -/
def reqBytes (r : Req) : List Nat :=
  leBytes 2 r.cmd ++ leBytes 2 r.len ++ leBytes 4 r.seq ++ leBytes 4 r.ses ++ leBytes 2 r.flags.toNat ++ leBytes 2 r.status ++ r.payload

/-- TAG of a request checks under a session's host-to-module key (10 R336). -/
def Session.tagOk (x : Session) (r : Req) : Bool := r.tag == ofBytes (cmac (leBytes 16 x.keyIn) (reqBytes r))

/-- The rules that stand before a request's execution. -/
def State.gate (s : State) (r : Req) (halfOpenOk : Bool) : Gate :=
  if s.deaf r then .drop s
  else
  let a := s.arrived r
  let s := a.2
  if !a.1 then .drop s
  else match malformed r with
  | some k => .drop (s.discarded (fun d => d.upForm k))
  | none =>
  if r.ses = 0 then
    if r.usb && noTag r then .unauth s else .drop (s.discarded (fun d => { d with session := up32 d.session }))
  else match s.session r.ses with
    | none => .drop (s.discarded (fun d => { d with session := up32 d.session }))
    | some x =>
      if x.halfOpen && !halfOpenOk then .drop (s.discarded (fun d => { d with session := up32 d.session }))
      else if x.usb != r.usb || (!r.usb && r.ip != x.ip) then
        .drop (s.discarded (fun d => { d with source := up32 d.source }))
      else if !x.tagOk r || noTag r then .drop ((s.discarded (fun d => { d with tag := up32 d.tag })).tagFail x)
      else
        let s := s.onSession x.id (fun y => y.heard r s.now)
        match x.seqVerdict r.seq with
        | .stale => .drop (s.discarded (fun d => { d with sequence := up32 d.sequence }))
        | .again a => .again s x a
        | .fresh => .accept (s.onSession x.id (fun y => (y.accept r.seq))) x

/-- The session ends after the answer when the request SEQ has reached FFFF_FFFFh (R340). -/
def State.seqLimit (s : State) (r : Req) : State := if 0xFFFFFFFF ≤ r.seq then s.endSession r.ses .seqEnd else s

/-- BUSY in place of what a ninth outstanding request would do, after the refusals that stand before it (R343; 11 R352; INTERFACE among them, whose
DETAIL may be drawn). -/
def Ans.ninth (a : Ans) (full : Bool) : Ans :=
  match a with
  | .no st d => .no st d
  | .ended .interface p s => .ended .interface p s
  | a => if full then .no .busy 0 else a

/-- One VXC request: gates, privilege (R339), length, the command's own rules, and BUSY at the ninth outstanding request (R343; 11
R352). -/
def hostCmd (c : CmdSpec) (r : Req) (body : Who → State → Ans) (s0 : State) : Res :=
  let s := s0.tick r.dt
  .next (match s.gate r false with
  | .drop s' => s'
  | .unauth s =>
    let reply := fun (s : State) st pay => s.say true (openResp r c.cmd st pay)
    if !c.openRead then reply s .auth [(0, 4)]
    else if !r.lenOk then reply s .length [(0, 4)]
    else s.settle reply id (body ⟨0, r.seq⟩ s)
  | .again s' x a => s'.sendOn x.id (fun y n => y.respOut y.port n true a)
  | .accept s' x =>
    let reply := fun (s : State) st pay => s.respond x.id ⟨r.seq, c.cmd, st, pay⟩
    let hold := fun (s : State) => s.onSession x.id (fun y => { y with outst := y.outst ++ [(r.seq, c.cmd, r.port)] })
    let ans : Ans :=
      if !c.need.ok x.priv then .no .denied 0
      else if !r.lenOk then .no .length 0
      else (body ⟨x.id, r.seq⟩ s').ninth (decide (8 ≤ x.outst.length))
    (s'.settle reply hold ans).seqLimit r)

/-- The late answer of a request that was held (R343, R344). -/
def State.answer (s : State) (w : Who) (cmd : Nat) (st : Status) (pay : Payload) : State :=
  s.respond w.ses ⟨w.seq, cmd, st, pay⟩

/-! ## Targets (02 R86, 11 R353, R609) -/

/-- A target that is RANGE: TGT = 0 where the row names no default, or more than 2^31 ahead. -/
def State.badTgt (s : State) (t : Nat) : Bool := t == 0 || (s.started && decide (s.tb.hcn + 2147483648 < t))

/-- The LATE checks of a target with its lead; before start-up completes BUSY stands in their place (R609). -/
def State.lateTgt (s : State) (t lead : Nat) : List (Bool × Status) :=
  [(!s.started, .busy), (decide (t < s.tb.hcn + lead), .late)]

/-- R609's BUSY for a command that uses h without naming a target. -/
def State.needH (s : State) : Bool × Status := (!s.started, .busy)

/-- A probe's steps are the module's own action, planned by Blotter, and no host-issued one (02 R87, 08 R281). -/
def ActWhat.hosted : ActWhat → Bool
  | .probe .. => false
  | _ => true

/-- The pending host-issued actions are at their limit (02 R87). -/
def State.actsFull (s : State) : Bool := decide (4096 ≤ (s.acts.filter (fun a => a.what.hosted)).length)

/-- The class of an action (02 R88). -/
def ActWhat.cls : ActWhat → Nat
  | .graphRestart => 2
  | .meterInput .. => 2
  | .meterGlobal .. => 2
  | .meterPulse .. => 2
  | .accordModel .. => 2
  | .groupLevel .. => 3
  | .sceneRecall .. => 3
  | .imgActivate .. => 5
  | .overrideSet .. => 3
  | .probe .. => 4
  | .meterSnap => 5
  | .accordSnap => 5
  | .signSwap .. => 5

/-- The region whose SRAM holds an action (02 R90; log entry 14). -/
def ActWhat.home : ActWhat → Region
  | .graphRestart => .c
  | .groupLevel .. => .c
  | .sceneRecall .. => .c
  | .imgActivate .. => .c
  | .overrideSet .. => .c
  | .probe .. => .c
  | .signSwap .. => .m
  | _ => .d

/-- Bind a host-issued action to its HCN, in order of acceptance (02 R86-R88). -/
def State.bind (s : State) (t : Nat) (w : Who) (cmd : Nat) (what : ActWhat) : State :=
  { s with
    acts := s.acts ++ [⟨t, what.cls, s.order, w.ses, w.seq, cmd, what⟩]
    order := s.order + 1 }

/-- Accepted scenes that were discarded before their HCN have not run (06 R209, R215). -/
def Nv.forgetScenes (v : Nv) (l : List Action) : Nv :=
  { v with sceneRuns := v.sceneRuns.filter (fun e => !l.any (fun a => a.order == e.order)) }

/-- Discard the pending actions a region holds, the C-region's scene commands from schedules included: one record with their
number, and each host-issued one completes with DISCARDED (02 R90, 10 R345). -/
def State.discardActs (s : State) (r : Region) : State :=
  let gone := s.acts.filter (fun a => decide (a.what.home = r))
  let n := gone.length + (if r = .c then s.sched.cmds.length else 0)
  let s := { s with
    acts := s.acts.filter (fun a => !decide (a.what.home = r))
    nv := if r = .c then s.nv.forgetScenes s.sched.cmds else s.nv
    sched := if r = .c then { s.sched with cmds := [] } else s.sched }
  if n = 0 then s
  else gone.foldl (fun s a => s.complete a.ses a.seq a.cmd .discarded []) (s.raiseGen r 0x02 0 [(n, 2)])

/-! ## Paged reads (11 R354) -/

/-- The page of a table of `total` items of `size` bytes: the smaller of COUNT and what fits in 1 400 bytes after `head`
bytes, and no more than there are. -/
def pageCount (total first count size head : Nat) : Nat :=
  min (min count ((1400 - 4 - head - 10) / size)) (total - first)

/-- The payload of a page: TOTAL, FIRST, COUNT, the command's own leading fields, the items (log entry 15). -/
def pagePay (total first n : Nat) (pre : Payload) (item : Nat → Payload) : Payload :=
  [(total, 4), (first, 4), (n, 2)] ++ pre ++ (rangeFrom first n).flatMap item

/-- A whole paged read: RANGE for FIRST at or above TOTAL. `pre` holds the command's own leading fields. -/
def paged (total first count size : Nat) (pre : Payload) (item : Nat → Payload) (s : State) : Ans :=
  checked [(decide (total ≤ first), .range)]
    (.ok (pagePay total first
      (pageCount total first count size ((pre.map Prod.snd).foldl (· + ·) 0)) pre item) s)

/-! ## Measured periods (02 R61, R77) -/

/-- The sum of the newest `n` half-cycles. -/
def sumOf (n : Nat) (l : List Nat) : Nat := (l.take n).foldl (· + ·) 0

/-- The exact nominal half-cycle in 1/48 CCLK cycle (R59). -/
def nominal48 (p60 : Bool) : Nat := if p60 then 160000000 else 192000000

/-- The measured period: the mean over the last 8 real half-cycles (R61), or the nominal half-cycle before there is one. -/
def TimeBase.measured (t : TimeBase) : Nat :=
  if t.hist.isEmpty then nominal48 t.p60 / 48 else sumOf 8 t.hist / min 8 t.hist.length

/-- The measured period of set B. -/
def SetB.period (b : SetB) (t : Nat) : Nat := if b.hist.isEmpty then t else sumOf 8 b.hist / min 8 b.hist.length

end Sys2Proof.Machine
end

