-- ==== Sys2Proof/Machine/Views.lean ====
section
/-!
DEFINITION. The values that registers show: for each register of the chip level and of the M-region's small blocks, its
fields at their bit positions, as its chapter's field map gives them. A field marked cfg or meas reads 0 until its start-up
step (00 R14, 19 R584).
-/
namespace Sys2Proof.Machine

/-- A word from (lowest bit, length, value) fields (00 R10). -/
def pack : List (Nat × Nat × Nat) → Nat
  | [] => 0
  | (lo, len, v) :: r => (v % 2 ^ len) <<< lo + pack r

/-- A value that reads 0 before the start-up step of rank `k` (00 R14, 19 R584). -/
def State.cfgAt (s : State) (k v : Nat) : Nat := if k ≤ s.pow.phase.rank then v else 0

/-! ## Chip level (01, 19) -/

/-- MODE of VOTER_STAT. -/
def VoterMode.no : VoterMode → Nat
  | .triple => 0
  | .duplex => 1
  | .rejoin => 2
  | .restart => 3

/-- VOTER_STAT (01, table "VOTER_STAT"). -/
def Voter.stat (v : Voter) : Nat :=
  pack [(16, 8, v.disagree), (12, 4, v.excluded.toNat), (8, 4, v.members.toNat), (7, 1, b2n v.spare.isSome),
    (4, 2, v.spare.getD 3), (0, 2, v.mode.no)]

/-- A region's two state bits (01, table "JNC_REGION_STAT"). -/
def RegionState.no : RegionState → Nat
  | .run => 0
  | .isolated => 1
  | .wipe => 2
  | .load => 3

/-- The time of a region's wipe in CCLK cycles: 20.5, 27.3 and 16.4 µs (17 R522). -/
def wipeC : Region → Nat
  | .c => 8192
  | .d => 10923
  | .m => 6554

/-- The step a restart reads: ISOLATED for at most 5 µs, WIPE for its wipe and at most 100 µs, then LOAD; how long within these bounds is free
(01 R43; log entry 48). -/
def restartShows (r : Region) (at_ now : Nat) : RegionState :=
  let i := Config.restartTime at_ 0 % 2001
  let w := wipeC r + Config.restartTime at_ 1 % (40001 - wipeC r)
  if now < at_ + i then .isolated else if now < at_ + i + w then .wipe else .load

/-- The state a region reads: its start-up step, or its restart (01 R43, 19 R582; log entry 16). -/
def State.regionShows (s : State) (r : Region) : RegionState :=
  let k := s.pow.phase.rank
  if k = 0 then .run
  else if k = 1 then .wipe
  else if k < (match r with | .m => 3 | _ => 5) then .load
  else match (s.jnc.regions.get r).st with
    | .run => .run
    | _ => restartShows r (s.jnc.regions.get r).at_ s.now

/-- JNC_REGION_STAT (01). -/
def State.regionStat (s : State) : Nat :=
  pack [(22, 2, (s.regionShows .m).no), (20, 2, (s.regionShows .d).no), (18, 2, (s.regionShows .c).no),
    (8, 4, s.jnc.regions.m.restarts), (4, 4, s.jnc.regions.d.restarts), (0, 4, s.jnc.regions.c.restarts)]

/-- CLKRST_PWR_STAT (19); HOLDUP_LOW is a BANK_CAP below 1.2 mF (R572). -/
def Power.pwrStat (p : Power) : Nat :=
  pack [(20, 12, p.vin), (10, 10, p.bankCap), (7, 1, b2n (p.phase.rank ≠ 0 && decide (p.bankCap < 120))),
    (6, 1, b2n p.holdupOk), (5, 1, b2n p.supplyFail)]

/-- CLKRST_RST_CAUSE (19): 0 until start-up completes. -/
def State.rstCause (s : State) : Nat := s.cfgAt 7 s.pow.cause

/-- CLKRST_RLY (19). -/
def Power.rly (p : Power) : Nat := pack [(8, 8, p.drive.toNat), (0, 8, p.pinLvl.toNat)]

/-! ## Time base (02 R80) -/

/-- STATE of JNC_TB_STAT (02, table "Time-base states"). -/
def TbState.no : TbState → Nat
  | .hold => 0
  | .locked => 1
  | .slew => 2
  | .virtual => 3
  | .outOfProfile => 4
  | .qualify => 5

/-- JNC_TB_STAT. -/
def TimeBase.stat (t : TimeBase) : Nat := pack [(24, 8, t.relockCnt), (16, 3, t.st.no), (0, 10, t.flags.toNat)]

/-- BOFS as the register and the stamp carry it: 0 while B_PRESENT is 0; units of 0.5 µs (02 R80, R82). -/
def TimeBase.bofsShown (t : TimeBase) : Nat := if bit t.flags 5 then unsext 16 (roundDiv t.setB.bofs 200) else 0

/-- JNC_TB_CFG as configured; it applies from the next start-up (02 R80). -/
def State.tbCfg (s : State) : Nat := s.cfgAt 6 (pack [(8, 8, s.nv.fdrVset.toNat), (0, 2, s.nv.profileSel)])

/-- The selection and the voltage sets in force this run, in the layout of JNC_TB_CFG (11, TIME TB_STATUS CFG). -/
def State.tbCfgInForce (s : State) : Nat := s.cfgAt 6 (pack [(8, 8, s.tb.vset.toNat), (0, 2, s.tb.sel)])

/-! ## Sillage status (05 R195) -/

/-- STATE of SIL_STAT. -/
def SilState.no : SilState → Nat
  | .stopped => 0
  | .run => 1
  | .restartPending => 2
  | .faulted => 3

/-- SIL_STAT. -/
def Sillage.stat (g : Sillage) : Nat := pack [(7, 1, b2n g.autoRestarted), (0, 3, g.st.no)]

/-- SIL_CFG. -/
def Sillage.cfg (g : Sillage) : Nat := pack [(16, 8, g.ageLimit), (0, 4, g.substeps)]

/-- SIL_PASS: LIMIT takes its value at the RESUMED edge or at the lock-step timeout (19 R584). -/
def State.passReg (s : State) : Nat := pack [(16, 16, s.cfgAt 7 s.sil.passLimit), (0, 16, s.sil.passTime)]

/-- SIL_CNT. -/
def Sillage.cnt (g : Sillage) : Nat := pack [(24, 8, g.abandonCnt), (16, 8, g.rerunCnt), (8, 8, g.faultCnt)]

/-! ## Metering temperature (07 R233) -/

/-- MAFE_TEMP. -/
def State.mafeTemp (s : State) : Nat := pack [(16, 1, b2n s.meter.tempFail), (0, 16, s.cfgAt 5 (unsext 16 s.meter.temp))]

/-! ## Keys (14 R463) -/

/-- STATE of a slot: 0 EMPTY, 1 ACTIVE, 2 ORPHANED (14 R431). -/
def Slot.st (k : Slot) : Nat := fld k.attr 62 2

/-- GEN, KCV, TYPE, CLASS, PARENT, USAGE of a slot (14 R431). -/
def Slot.gen (k : Slot) : Nat := fld k.attr 44 16
def Slot.type (k : Slot) : Nat := fld k.attr 16 4
def Slot.cls (k : Slot) : Nat := fld k.attr 14 2
def Slot.parent (k : Slot) : Nat := fld k.attr 8 6
def Slot.usage (k : Slot) : Nat := fld k.attr 0 6

/-- A key slot: its cell in MRAM, and its key in key-store memory (14 R433). -/
def State.slot (s : State) (n : Nat) : Slot :=
  let c := tget {} s.nv.slots n
  { attr := c.attr, key := tget 0 s.keys.plain n, pubX := c.pubX, pubY := c.pubY }

/-- Keys are sealed: a seal bit is set (14 R460, R461). -/
def State.sealed (s : State) : Bool := s.nv.seals != 0

/-- A slot holds a sealed key: every TREE key is, while a seal bit is set (14 R460, R461). -/
def State.sealedSlot (s : State) (n : Nat) : Bool := s.sealed && (s.slot n).cls == 2 && (s.slot n).st != 0

/-- ATTR as SLOT_READ and KS_ATTR return it: the stored word with PENDING (14 R431). -/
def State.attrShown (s : State) (n : Nat) : Nat :=
  s.cfgAt 4 ((s.slot n).attr.toNat % 2 ^ 60 + (s.slot n).st * 2 ^ 62 + (if s.sealedSlot n then 2 ^ 60 else 0))
    + (if (tget none s.keys.twins n).isSome then 2 ^ 61 else 0)

/-- KS_STAT (14 R463). -/
def State.ksStat (s : State) : Nat :=
  pack [(24, 8, s.keys.tamperCnt), (16, 2, s.cfgAt 2 s.nv.lcs), (5, 6, s.cfgAt 2 s.nv.otpLeft),
    (4, 1, s.cfgAt 2 (b2n s.keys.rootOk)), (3, 1, s.cfgAt 4 (b2n (bit s.nv.seals 2))),
    (2, 1, s.cfgAt 4 (b2n (bit s.nv.seals 1))), (1, 1, s.cfgAt 4 (b2n (bit s.nv.seals 0)))]

/-- KS_TCFG (14 R463). -/
def State.ksTcfg (s : State) : Nat :=
  pack [(5, 1, b2n s.bk.inB), (4, 1, b2n s.bk.inA), (2, 2, s.cfgAt 4 s.nv.respB), (0, 2, s.cfgAt 4 s.nv.respA)]

/-! ## HCN, boundaries and stamps (02) -/

/-- A feeder is on voltage set B. -/
def State.onB (s : State) (f : Nat) : Bool := bit s.tb.vset f

/-- The time a boundary list gives for an HCN. -/
def cutOf (l : List (Nat × Nat)) (k : Nat) : Option Nat := (l.find? (fun e => e.1 == k)).map Prod.snd

/-- FLAGS of the stamp of HCN k (02 R81). -/
def State.stampFlags (s : State) (k : Nat) : Nat :=
  let w := tget 0 s.jnc.stamps (k % 1024)
  if fld w 0 48 = k % 281474976710656 then fld w 48 10 else 0

/-! ## Doorbells (01 R38-R40) -/

/-- A doorbell: bits set, and the junction interrupt to the region (01 R38-R40). -/
def State.ringDb (s : State) (r : Region) (bits : BitVec 32) : State :=
  let p := s.jnc.dbPend.get r ||| bits
  let s : State := { s with jnc := { s.jnc with dbPend := s.jnc.dbPend.set r p } }
  if p = 0 then s else s.emit (.irq r)

/-- Bits of a doorbell cleared (01 R38). -/
def State.clearDb (s : State) (r : Region) (bits : BitVec 32) : State :=
  { s with jnc := { s.jnc with dbPend := s.jnc.dbPend.set r (s.jnc.dbPend.get r &&& ~~~bits) } }

/-! ## Firmware banks (15) -/

/-- The base of a bank in its flash window (15 R464). -/
def bankBase (b : Bool) : Nat := if b then 0x24000000 else 0x20000000

/-- The set in a bank. -/
def Decant.bank (u : Decant) (b : Bool) : FwSet := if b then u.setB else u.setA

/-- Where a component of a directory starts in its bank: each on a 4 KiB boundary, in directory order (R464). -/
def compOfs : List Comp → Nat → Option Nat
  | [], _ => none
  | c :: l, type => if c.type = type then some 0x1000 else (compOfs l type).map (fun o => o + 4096 * ceilDiv c.length 4096)

/-- The version of a component type in a bank; 0 where the bank has none. -/
def FwSet.compVer (w : FwSet) (t : Nat) : Nat := ((w.dir.find? (fun c => c.type == t)).map Comp.cver).getD 0

end Sys2Proof.Machine
end

