-- ==== Sys2Proof/Machine/Reserve.lean ====
section
/-!
DEFINITION. Reserves and wear as every kind of unit uses them (18 R555-R557, R564): the RESERVE notification, the wear
score, and the threshold.
-/
namespace Sys2Proof.Machine

/-- A RESERVE notification: ACTION 0 excluded, 1 substituted, 2 returned (18 R564, 11 R358). -/
def State.reserveNote (s : State) (kind index action : Nat) : State :=
  s.notifyClass 9 0x0F80 .ok [(kind, 1), (index, 1), (action, 1)]

/-- The wear score of a unit (18 R555). -/
def State.wearOf (s : State) (kind unit : Nat) : Nat := tget 0 s.nv.wear (kind * 64 + unit)

/-- The default threshold of a kind (18 R556). -/
def threshDef (kind : Nat) : Nat := if kind = 4 then 4 else if kind = 2 then 0 else 3

/-- The threshold of a kind (18 R556). -/
def State.threshOf (s : State) (kind : Nat) : Nat := tget (threshDef kind) s.nv.thresh kind

/-- One more incident of a unit; its score is a 32-bit statistics count (18 R555, R567). -/
def State.wearInc (s : State) (kind unit : Nat) : State :=
  (s.onNv (fun v => { v with wear := tmod 0 v.wear (kind * 64 + unit) up32 })).stuckFw .m (fills32 (s.wearOf kind unit))

/-- The policy of a kind is on and the unit's score has reached THRESH (18 R556). -/
def State.worn (s : State) (kind unit : Nat) : Bool :=
  decide (s.threshOf kind ≠ 0 ∧ s.threshOf kind ≤ s.wearOf kind unit)

/-- The event of a worn unit that stays in service for want of a spare (18 R556). -/
def State.wornEvent (s : State) (r : Region) (kind unit : Nat) : State :=
  s.raiseGen r 0x0F 0 [(kind, 1), (unit, 1)]

/-- A 32-bit total of an RC counter, by register and lowest bit (11 R355; log entry 27). -/
def State.total (s : State) (addr lsb : Nat) : Nat := tget 0 s.vxc.totals (addr * 32 + lsb)

/-- Count in a total, with COUNTER_STUCK from the firmware that keeps it (18 R567). -/
def State.addTotal (s : State) (addr lsb n : Nat) : State :=
  let b := bumpBy 0xFFFFFFFF (s.total addr lsb) n
  let s : State := { s with vxc := { s.vxc with totals := tmod 0 s.vxc.totals (addr * 32 + lsb) (fun v => stick 0xFFFFFFFF (v + n)) } }
  if b.2 then s.raiseFw .m 0x0004 (leBytes 4 addr ++ [lsb]) else s

end Sys2Proof.Machine
end

