-- ==== Sys2Proof/Machine/Meter.lean ====
section
/-!
DEFINITION. Feeder metering (07): the input configuration, half-cycle records and their accumulation, pulse outputs,
snapshots, saves and gaps, and the METER group's reads and writes of them (11, table "METER commands", R369).
-/
namespace Sys2Proof.Machine

/-! ## Configuration (R219, R221, R232-R234) -/

/-- Fields of an input's header. -/
def inFs (w : BitVec 64) : Nat := fld w 32 32
def inNlt (w : BitVec 64) : Nat := fld w 0 32

/-- Fields of a temperature point. -/
def ptTemp (w : BitVec 64) : Int := sext 16 (fld w 48 16)
def ptGain (w : BitVec 64) : Int := sext 16 (fld w 0 16)

/-- The default configuration of an input (R219, R232). -/
def inputDef (x : Nat) : InputCfg :=
  let fs := if x < 24 then 100000 else 400000
  ⟨BitVec.ofNat 64 (fs * 4294967296 + fs / 2000), List.replicate 16 0⟩

/-- The configuration of an input. -/
def MeterCfg.input (c : MeterCfg) (x : Nat) : InputCfg := ((c.inputs.find? (fun e => e.1 == x)).map Prod.snd).getD (inputDef x)

/-- The settings of a pulse output. -/
def MeterCfg.out (c : MeterCfg) (o : Nat) : PulseCfg := tget {} c.pulse o

/-- The configuration that applies to the interval of HCN k: what the changes bound to a later HCN replaced (R234). -/
def Meter.cfgFor (m : Meter) (k : Nat) : MeterCfg :=
  (m.cfgs.takeWhile (fun e => decide (k < e.1))).foldl (fun _ e => e.2) m.cfg

/-- PHASE of a temperature point, in units of 5 ns. -/
def ptPhase (w : BitVec 64) : Int := sext 16 (fld w 16 16)

/-- A field of a table between points a and b, or past the last one (R232). -/
def ptWalk (g : BitVec 64 → Int) (temp : Int) : BitVec 64 → List (BitVec 64) → Int
  | a, [] => g a
  | a, b :: r =>
    if ptTemp b ≤ temp then ptWalk g temp b r
    else g a + roundDiv ((g b - g a) * (temp - ptTemp a)) (ptTemp b - ptTemp a)

/-- A field of a table at a temperature: GAIN in units of 2^-20, PHASE in units of 5 ns (R232). -/
def ptAt (g : BitVec 64 → Int) (pts : List (BitVec 64)) (temp : Int) : Int :=
  match pts with
  | [] => 0
  | p :: r => if ptTemp p ≤ temp then ptWalk g temp p r else g p
def gainAt (pts : List (BitVec 64)) (temp : Int) : Int := ptAt ptGain pts temp
def phaseAt (pts : List (BitVec 64)) (temp : Int) : Int := ptAt ptPhase pts temp

/-- A temperature outside the span of a table; one whose points all carry the same TEMP has none (R232). -/
def outsideSpan (pts : List (BitVec 64)) (temp : Int) : Bool :=
  let a := ptTemp (pts.headD 0)
  let b := ptTemp (pts.getLastD 0)
  a != b && decide (temp < a ∨ b < temp)

/-! ## Quantities (R228-R231, R235) -/

/-- The largest r below 2^n + r0 with r² × den ≤ num. -/
def rootSearch (num den : Nat) : Nat → Nat → Nat
  | 0, r => r
  | n + 1, r => let c := r + 2 ^ n; if c * c * den ≤ num then rootSearch num den n c else rootSearch num den n r

/-- The square root of a quotient in whole units, with a free bit where it is not exact (log entry 4). -/
def rootDiv (num den : Nat) : Nat :=
  if den = 0 then 0 else
  let r := rootSearch num den 32 0
  if r * r * den = num then r else r + (if Config.roundUp num den then 1 else 0)

/-- The quantities of one phase in one interval. -/
structure Ph where
  p : Int := 0
  q : Int := 0
  s : Nat := 0
  irms : Nat := 0
  vrms : Nat := 0
  deriving DecidableEq, Repr

/-- The weight of a sample in an interval: how much of the 125 µs centred on its instant lies in it, in CCLK cycles (R224). -/
def sampleWeight (iv : Nat × Nat) (t : Nat) : Nat := min (t + 25000) iv.2 - max (t - 25000) iv.1

/-- The number of the first sample of an interval, and how many reach into it: one every 125 µs from the converters' start on (R222, R224). -/
def Meter.firstSample (m : Meter) (iv : Nat × Nat) : Nat := (iv.1 + 25000 - m.sampleAt) / 50000
def Meter.sampleCount (m : Meter) (iv : Nat × Nat) : Nat :=
  if iv.2 ≤ iv.1 then 0 else (iv.2 + 24999 - m.sampleAt) / 50000 + 1 - m.firstSample iv

/-- A sample of a phase for its sums: weight, voltage, retarded voltage and current as codes. -/
structure PhSample where
  w : Nat
  v : Int
  vq : Int
  i : Int
  deriving DecidableEq, Repr

/-- The square of a code's unit: 2^46 codes of full scale over the 2 of a sine's peak, and 2^20 twice for the factor of the gain (R219, R232). -/
def codeUnit : Nat := 2 ^ 85

/-- The quantities over the samples of an interval, with FS and the gain corrections of the voltage and current inputs (R228,
R232). S is formed from VRMS and IRMS as rounded to whole mV and mA (DESIGN CHOICE, log entry 40). -/
def quantities (xs : List PhSample) (fv fi : Nat) (gv gi : Int) : Ph :=
  let ns : Nat := (xs.map PhSample.w).foldl (· + ·) 0
  if ns = 0 then {} else
  let kv : Int := fv * (1048576 + gv)
  let ki : Int := fi * (1048576 + gi)
  let sum := fun (g : PhSample → Int) => xs.foldl (fun t x => t + x.w * g x) 0
  let p := roundDiv (sum (fun x => x.v * x.i) * (kv * ki)) (1000 * ns * codeUnit)
  let q := roundDiv (sum (fun x => x.vq * x.i) * (kv * ki)) (1000 * ns * codeUnit)
  let v := rootDiv ((sum (fun x => x.v * x.v)).toNat * (kv * kv).toNat) (ns * codeUnit)
  let i := rootDiv ((sum (fun x => x.i * x.i)).toNat * (ki * ki).toNat) (ns * codeUnit)
  { p := p, q := q, s := (roundDiv (v * i : Nat) 1000).toNat, irms := i, vrms := v }

/-- The phase block (table). -/
def Ph.word (x : Ph) : Nat :=
  pack [(128, 32, x.vrms), (96, 32, x.irms), (64, 32, x.s), (32, 32, unsext 32 x.q), (0, 32, unsext 32 x.p)]

/-- Quadrant Q1-Q4 as 0-3 (table "Quadrants"). -/
def quadrant (p q : Int) : Nat := if 0 ≤ q then (if 0 ≤ p then 0 else 1) else if p < 0 then 2 else 3

/-- Energy of a power in mW over a duration in 2.5 ns, in units of 2^-32 mWh (R240). -/
def energy (power dur : Nat) : Nat := (roundDiv ((power * dur * 4294967296 : Nat)) 1440000000000).toNat

/-- What an interval adds to one set of accumulators (R229). -/
def contrib (base : Nat) (p q : Int) (sv dur : Nat) : List (Nat × Nat) :=
  [(base + (if 0 ≤ p then 0 else 1), energy p.natAbs dur), (base + 2 + quadrant p q, energy q.natAbs dur),
    (base + (if 0 ≤ p then 6 else 7), energy sv dur)]

/-- Frequency in mHz: the mean over the last 8 crossing intervals, 0 until 8 consecutive ones have been measured (R231). -/
def freqOf (hist : List Nat) (good : Nat) : Nat :=
  if good < 8 then 0 else (roundDiv 1600000000000 ((hist.take 8).foldl (· + ·) 0 : Nat)).toNat

/-! ## Intervals (R223-R226) -/

/-- The voltage input of a phase of a feeder, p from 0 (R220). -/
def State.voltIn (s : State) (f p : Nat) : Nat := (if s.onB f then 27 else 24) + p

/-- The HCN of a feeder's next record. -/
def State.ivlNext (s : State) (f : Nat) : Option Nat := s.meter.begun.map (fun b => max b (tget 0 s.meter.next f))

/-- Start and end of a feeder's next interval, of HCN k: from the end of its last one, or the boundary of k where there is none, to the
boundary of k + 1 of its voltage set, or to the instant at which the final save closed it (R223, R249). -/
def State.ivl (s : State) (f k : Nat) : Option (Nat × Nat) :=
  let cuts := if s.onB f then s.tb.setB.cuts else s.tb.cuts
  match (match tget none s.meter.ended f with | some a => some a | none => cutOf cuts k) with
  | none => none
  | some a =>
    match cutOf cuts (k + 1), s.meter.closed with
    | some b, none => if b ≤ s.now then some (a, max a b) else none
    | some b, some c => if b ≤ c then some (a, max a b) else if a < c then some (a, c) else none
    | none, some c => if a < c then some (a, c) else none
    | none, none => none

/-- The intervals of a feeder before HCN t are all complete. -/
def State.ivlsDone (s : State) (f t : Nat) : Bool :=
  match s.ivlNext f with
  | some k => decide (t ≤ k)
  | none => true

/-- The temperature reading that an interval is corrected with: that at its start (R232). -/
def Meter.tempFor (m : Meter) (k : Nat) : Int × Bool :=
  ((m.temps.find? (fun e => e.1 == k)).map Prod.snd).getD (m.temp, m.tempFail)

/-- The module temperature at an edge: an analogue reading that no command carries, so a free value, filtered with a time constant of 1 s; a
failed sensor holds the last good value (R233; log entry 42). -/
def State.measureTemp (s : State) : State :=
  let (b, s) := s.draw 2
  let (v, s) := s.draw 65536
  let fails := decide (b = 1)
  let acc : Int := if fails then s.meter.tempAcc else match s.meter.tempAt with
    | some t => s.meter.tempAcc + ((sext 16 v * 65536 - s.meter.tempAcc) * (min secC (s.now - t) : Nat)) / (secC : Nat)
    | none => sext 16 v * 65536
  let temp := roundDiv acc 65536
  { s with meter := { s.meter with
      tempAcc := acc, tempAt := if fails then s.meter.tempAt else some s.now
      tempFail := fails, temp := temp, temps := ((s.tb.hcn, temp, fails) :: s.meter.temps).take 4 } }

/-! ## Pulse outputs (R243-R246) -/

/-- The power that an output counts of a feeder total (table PULSE_SRC_x, QTY). -/
def pulsePower (qty : Nat) (p q : Int) (sv : Nat) : Nat :=
  match qty with
  | 0 => if 0 ≤ p then p.natAbs else 0
  | 1 => if 0 ≤ p then 0 else p.natAbs
  | 6 => if quadrant p q ≤ 1 then q.natAbs else 0
  | 7 => if quadrant p q ≤ 1 then 0 else q.natAbs
  | 8 => if 0 ≤ p then sv else 0
  | 9 => if 0 ≤ p then 0 else sv
  | n => if n ≤ 5 ∧ quadrant p q + 2 = n then q.natAbs else 0

/-- The energy register and PEND after an interval's contribution, and whether PEND stands at FFFFh (R243, R245). -/
def pulseAdd (const e : Nat) (x : Nat × Nat) : (Nat × Nat) × Bool :=
  if const = 0 then (x, false) else
  let total := x.1 + e
  let n := x.2 + total / (const * 4294967296)
  ((total % (const * 4294967296), min 65535 n), decide (65535 ≤ n ∧ x.2 < n))

/-- A pulse output. -/
def State.pulse (s : State) (o : Nat) : Pulse := tget {} s.meter.pulse o

/-- Change a pulse output. -/
def State.onPulse (s : State) (o : Nat) (g : Pulse → Pulse) : State :=
  { s with meter := { s.meter with pulse := tmod {} s.meter.pulse o g } }

/-- The newest source powers with a feeder's share of HCN k added (R244). -/
def powerAdd (l : List (Nat × Nat × Nat)) (k pw : Nat) : List (Nat × Nat × Nat) :=
  if l.any (fun e => e.1 == k) then l.map (fun e => if e.1 = k then (k, e.2.1 + pw, e.2.2 + 1) else e)
  else ((k, pw, 1) :: l).take 24

/-- The last 16 intervals that every feeder of the mask has completed (R244). -/
def powersWhole (mask : BitVec 8) (l : List (Nat × Nat × Nat)) : List Nat :=
  ((l.filter (fun e => decide (popcount 8 mask.toNat ≤ e.2.2))).take 16).map (fun e => e.2.1)

/-- An output takes an interval of a feeder; SAT makes one event record as it sets (R243, R245). -/
def State.pulseTake (s : State) (o f k : Nat) (p q : Int) (sv dur : Nat) : State :=
  let c := s.meter.cfg.out o
  let x := s.pulse o
  if k < x.since || !bit c.mask f then s else
  let pw := pulsePower c.qty p q sv
  let r := pulseAdd c.const (energy pw dur) (x.reg, x.pend)
  let s := s.onPulse o (fun y => { y with
    reg := r.1.1, pend := r.1.2, sat := y.sat || r.2, satAt := if r.2 then s.now else y.satAt, powers := powerAdd y.powers k pw })
  if r.2 && !x.sat then s.raiseUnit 1 0x25 o 0x07 (wPulse + 0x24) [(o, 1)] else s

/-- The pulse width in 10 µs, fixed as the pulse starts (R244). -/
def pulseWidth (const : Nat) (l : List Nat) : Nat :=
  let sum := l.foldl (· + ·) 0
  if sum = 0 then 3000 else
  let t := const * 360000000 * l.length / sum
  if 6000 ≤ t then 3000 else if t < 200 then 100 else t / 2

/-- PULSE_START: a count of PEND becomes a pulse, once the pulse before it and its gap are over (R243-R245). The output is
dead while it is at high impedance (19 R580), and once the intervals are closed (19 R574). -/
def execPulseStart (dt : Dt) (o : Nat) (s : State) : Res :=
  let s := s.tick dt
  let x := s.pulse o
  .next (if 1 < o || x.pend == 0 || x.conducting || decide (s.now < x.gapEnd) || s.pow.pulseHiZ || !s.runs .d
      || s.meter.closed.isSome || s.pow.supplyFail || s.pow.cmdShutdown then s
  else
    let w := pulseWidth (s.meter.cfg.out o).const (powersWhole (s.meter.cfg.out o).mask x.powers)
    let s := s.onPulse o (fun y => { y with pend := y.pend - 1, conducting := true, width := w, began := s.now })
    let less := fun (t : Totals) => if o = 0 then { t with pulseA := (t.pulseA.1, t.pulseA.2 - 1) }
      else { t with pulseB := (t.pulseB.1, t.pulseB.2 - 1) }
    let m := s.meter
    let s := { s with meter := { m with
      snap := if m.snap.st = SnapState.filling then { m.snap with tot := less m.snap.tot } else m.snap
      saveTot := if m.saveFill.isSome && m.saving.isNone then less m.saveTot else m.saveTot } }
    s.emit (.pulse o w))

/-- In a shutdown the pulse outputs go to high impedance once no pulse is under way (19 R574; log entry 55). -/
def State.pulsesOff (s : State) : State :=
  if (s.pow.supplyFail || s.pow.cmdShutdown) && !(s.pulse 0).conducting && !(s.pulse 1).conducting then
    { s with pow := { s.pow with pulseHiZ := true } }
  else s

/-- The pulse under way has had its width, to within 0.05 % and 10 µs (R244; 20 R601). -/
def Pulse.over (x : Pulse) (now : Nat) : Bool := decide (x.began + x.width * us10C ≤ now + x.width * us10C / 2000 + us10C)

/-- PULSE_END: the width is over, and a gap of the same length begins (R244). -/
def execPulseEnd (dt : Dt) (o : Nat) (s : State) : Res :=
  let s := s.tick dt
  let x := s.pulse o
  .next (if x.conducting && x.over s.now then
      (s.onPulse o (fun y => { y with conducting := false, gapEnd := s.now + x.width * us10C })).pulsesOff
    else s)

/-! ## Accumulation, with the copies that snapshots and saves form (R239-R242, R247) -/

/-- Add contributions to accumulators. -/
def accAdd (acc : Tbl Nat) (adds : List (Nat × Nat)) : Tbl Nat := adds.foldl (fun t e => tmod 0 t e.1 (· + e.2)) acc

/-- The totals with an interval of a feeder taken in. -/
def Totals.take (t : Totals) (c : MeterCfg) (k : Nat) (sinceA sinceB : Nat) (f : Nat) (adds : List (Nat × Nat)) (p q : Int)
    (sv dur : Nat) (pulses : Bool) : Totals :=
  let one := fun (o since : Nat) (x : Nat × Nat) =>
    let pc := c.out o
    if pulses && decide (since ≤ k) && bit pc.mask f then (pulseAdd pc.const (energy (pulsePower pc.qty p q sv) dur) x).1 else x
  { t with acc := accAdd t.acc adds, pulseA := one 0 sinceA t.pulseA, pulseB := one 1 sinceB t.pulseB }

/-- The live totals of the meter. -/
def State.liveTotals (s : State) : Totals :=
  { acc := s.meter.acc, accounts := s.accord.accounts, phases := s.accord.phases
    pulseA := ((s.pulse 0).reg, (s.pulse 0).pend), pulseB := ((s.pulse 1).reg, (s.pulse 1).pend) }

/-- An interval of HCN k of a feeder is accumulated: in the live accumulators and outputs, and in each copy that holds the
state before a later HCN (R239, R242, R243, R247). -/
def State.accumulate (s : State) (f k : Nat) (adds : List (Nat × Nat)) (p q : Int) (sv dur : Nat) (pulses : Bool) : State :=
  let m := s.meter
  let a := (s.pulse 0).since
  let b := (s.pulse 1).since
  let take := fun (t : Totals) => t.take m.cfg k a b f adds p q sv dur pulses
  let s := { s with meter := { m with
    acc := accAdd m.acc adds
    snap := if m.snap.st = .filling ∧ k < m.snap.t then { m.snap with tot := take m.snap.tot } else m.snap
    saveTot := match m.saveFill with
      | some t => if k < t ∧ m.saving = none then take m.saveTot else m.saveTot
      | none => m.saveTot } }
  if pulses then (s.pulseTake 0 f k p q sv dur).pulseTake 1 f k p q sv dur else s

/-! ## Subscriptions (R238) -/

/-- Phase block p of a record. -/
def recPh (w : BitVec 640) (p : Nat) : Ph :=
  let b := 160 + 160 * p
  { p := sext 32 (fld w b 32), q := sext 32 (fld w (b + 32) 32), s := fld w (b + 64) 32, irms := fld w (b + 96) 32
    vrms := fld w (b + 128) 32 }

/-- Header fields of a record. -/
def recHcn (w : BitVec 640) : Nat := fld w 0 48
def recFlags (w : BitVec 640) : Nat := fld w 48 16
def recDur (w : BitVec 640) : Nat := fld w 64 32
def recFreq (w : BitVec 640) : Nat := fld w 96 32

/-- A half-cycle record (tables "Half-cycle record" and "Phase block"). -/
def recWord (hcn flags dur freq : Nat) (a b c : Ph) : BitVec 640 :=
  BitVec.ofNat 640 (pack [(480, 160, c.word), (320, 160, b.word), (160, 160, a.word), (96, 32, freq), (64, 32, dur),
    (48, 16, flags), (0, 48, hcn)])

/-- The aggregate of one phase over records, DUR-weighted (R238). -/
def aggPh (rs : List (BitVec 640)) (p : Nat) : Ph :=
  let d : Nat := (rs.map recDur).foldl (· + ·) 0
  if d = 0 then {} else
  let sum := fun (g : Ph → Int) => rs.foldl (fun t w => t + g (recPh w p) * recDur w) 0
  { p := roundDiv (sum Ph.p) d, q := roundDiv (sum Ph.q) d, s := (roundDiv (sum (fun x => x.s)) d).toNat
    irms := rootDiv (sum (fun x => x.irms * x.irms)).toNat d
    vrms := rootDiv (sum (fun x => x.vrms * x.vrms)).toNat d }

/-- The aggregated record of consecutive records, oldest first (R238). The spec does not say what DUR reads where the sum of up to 1 200 intervals exceeds
its 32 bits: the model cuts it to them (DESIGN CHOICE, log entry 41). -/
def aggregate (rs : List (BitVec 640)) : BitVec 640 :=
  recWord (recHcn (rs.headD 0)) (rs.foldl (fun t w => t ||| recFlags w) 0) ((rs.map recDur).foldl (· + ·) 0)
    (recFreq (rs.getLastD 0)) (aggPh rs 0) (aggPh rs 1) (aggPh rs 2)

/-- The metering queue with a session's waiting records: M takes them, oldest first, or they wait; at a full queue the oldest of them is
discarded and counted, and one event record is made per 256 discarded (R238; log entry 41). -/
def State.serveQueue (s : State) (id : Nat) (u : MeterSub) : State :=
  match Config.queueServes s.now with
  | 0 => u.wait.foldl (fun s e => s.notify id 0x0780 false .ok [(e.1, 1), (u.dropped, 4), (e.2.toNat, 80)])
      (s.onSession id (fun x => { x with sub := some { u with wait := [] } }))
  | 1 => s.onSession id (fun x => { x with sub := some u })
  | _ =>
    let s := s.onSession id (fun x => { x with sub := some { u with wait := u.wait.drop 1, dropped := up32 u.dropped } })
    let s := s.stuckFw .d (fills32 u.dropped)
    if (u.dropped + 1) % 256 = 0 then s.raiseGen .d 0x07 0 [(256, 2)] else s

/-- A record passes to one session's subscription; the N-th of consecutive ones makes an aggregated record of the queue (R238). -/
def State.subRecord (s : State) (f : Nat) (w : BitVec 640) (id : Nat) : State :=
  match (s.session id).bind Session.sub with
  | none => s
  | some u =>
    if !bit u.fdrMask f then s else
    let old := tget [] u.part f
    let l := if (old.head?.map recHcn).getD (recHcn w) + (if old.isEmpty then 0 else 1) = recHcn w then w :: old else [w]
    if l.length < u.n then s.onSession id (fun x => { x with sub := some { u with part := tset [] u.part f l } })
    else s.serveQueue id { u with part := tset [] u.part f [], wait := u.wait ++ [(f, aggregate l.reverse)] }

/-! ## Records (R227, R237) -/

/-- Whether samples of an input were interpolated in an interval, from the onset of a fault until its substitute's samples are valid
(R254, R256). -/
def State.interpIn (s : State) (x : Nat) (iv : Nat × Nat) : Bool :=
  (tget [] s.meter.interpAt x).any (fun e => decide (e.1 < iv.2 ∧ iv.1 ≤ e.2))

/-- A code of an input that is kept, by its number. -/
def Meter.codeAt (m : Meter) (x n : Nat) : Int :=
  match (tget [] m.hist x).find? (fun e => decide (e.1 ≤ n ∧ n < e.1 + e.2.length)) with
  | some e => e.2.getD (n - e.1) 0
  | none => 0

/-- The samples in one measured mains period of an input's voltage set (R254). -/
def State.periodSamples (s : State) (x : Nat) : Nat :=
  let b := if x < 24 then s.onB (x / 3) else decide (27 ≤ x)
  let t := if b then s.tb.setB.period s.tb.measured else s.tb.measured
  (roundDiv (2 * t : Nat) 50000).toNat

/-- The codes of an input in an interval that begins with sample `n0`, those missing at a substitution replaced by the input's own of one
measured mains period earlier (R254). -/
def State.codesOf (s : State) (x n0 : Nat) (l : List Int) : List Int :=
  let spans := tget [] s.meter.interpAt x
  l.zipIdx.map (fun e =>
    let t := s.meter.sampleAt + 50000 * (n0 + e.2)
    if spans.any (fun p => decide (p.1 ≤ t ∧ t < p.2)) then s.meter.codeAt x (n0 + e.2 - s.periodSamples x) else e.1)

/-- Codes of an interval after the delay of PHASE (R232): none for 0. -/
def State.delayCodes (s : State) (x : Nat) (d : Int) (l : List Int) : List Int :=
  if d = 0 then l
  else
    let before := (tget [] s.meter.hist x).reverse.flatMap Prod.snd
    (rangeFrom 0 l.length).map (fun j => Config.delayed d (before ++ l) (before.length + j))

/-- Keep the codes of an input for an interval. -/
def State.keepCodes (s : State) (x n0 : Nat) (l : List Int) : State :=
  { s with meter := { s.meter with
      hist := tmod [] s.meter.hist x (fun h => ((n0, l) :: h.filter (fun e => e.1 != n0)).take 4) } }

/-- Whether an input had no converter in some part of an interval (R255). -/
def State.failedIn (s : State) (x : Nat) (iv : Nat × Nat) : Bool :=
  (tget [] s.meter.failSpans x).any (fun e => decide (e.1 < iv.2) && (match e.2 with | some b => decide (iv.1 < b) | none => true))

/-- The samples of a phase in an interval, corrected but for the gains: weights from their instants, PHASE applied, the voltage retarded (R224, R228,
R232). -/
def State.phSamples (s : State) (f k p : Nat) (iv : Nat × Nat) (vs cs : List Int) : List PhSample :=
  let c := s.meter.cfgFor k
  let t := (s.meter.tempFor k).1
  let vi := s.voltIn f p
  let n0 := s.meter.firstSample iv
  let v := s.delayCodes vi (phaseAt (c.input vi).points t) vs
  let i := s.delayCodes (3 * f + p) (phaseAt (c.input (3 * f + p)).points t) cs
  let before := (tget [] s.meter.hist vi).reverse.flatMap Prod.snd
  (rangeFrom 0 (s.meter.sampleCount iv)).map (fun j =>
    ⟨sampleWeight iv (s.meter.sampleAt + 50000 * (n0 + j)), v.getD j 0, Config.retarded (before ++ v) (before.length + j), i.getD j 0⟩)

/-- One phase of a record: its quantities, whether it is at no load, and whether it was interpolated (R228, R235, R255). -/
def State.phaseOf (s : State) (f k p : Nat) (iv : Nat × Nat) (vs cs : List Int) : Ph × Bool × Bool :=
  let c := s.meter.cfgFor k
  let ci := 3 * f + p
  let vi := s.voltIn f p
  let t := (s.meter.tempFor k).1
  let failed := s.failedIn ci iv || s.failedIn vi iv
  let q := if failed || decide (iv.1 = iv.2) then {}
           else quantities (s.phSamples f k p iv vs cs) (inFs (c.input vi).header) (inFs (c.input ci).header)
             (gainAt (c.input vi).points t) (gainAt (c.input ci).points t)
  (q, decide (q.irms < inNlt (c.input ci).header ∨ q.vrms < inNlt (c.input vi).header), s.interpIn ci iv || s.interpIn vi iv)

/-- A code at either limit of the range (R219). -/
def atLimit (c : Int) : Bool := decide (c ≤ -8388608 ∨ 8388607 ≤ c)

/-- FLAGS of a record (table "FLAGS of the half-cycle record"). -/
def State.recFlagsOf (s : State) (f k : Nat) (iv : Nat × Nat) (clip part : Bool) (interp noload : Nat) : Nat :=
  let c := s.meter.cfgFor k
  let ins := [3 * f, 3 * f + 1, 3 * f + 2, s.voltIn f 0, s.voltIn f 1, s.voltIn f 2]
  let t := s.meter.tempFor k
  let fl := s.stampFlags k
  let b := s.onB f
  pack [(15, 1, b2n (ins.any (fun x => s.failedIn x iv))),
    (14, 1, b2n (t.2 || ins.any (fun x => outsideSpan (c.input x).points t.1))), (13, 1, b2n clip), (12, 1, b2n part),
    (11, 1, b2n (b && decide (0 < k) && (s.stampFlags (k - 1)).testBit 6)), (10, 1, b2n (b && fl.testBit 6)),
    (9, 1, b2n (b && !fl.testBit 5)), (8, 1, b2n (fl.testBit 0)), (3, 3, interp), (0, 3, noload)]

/-- A save slot of MRAM. -/
def State.slotOf (s : State) (n : Nat) : SaveSlot := if n = 0 then s.nv.slot0 else s.nv.slot1

/-- Change a save slot. -/
def State.onSlot (s : State) (n : Nat) (g : SaveSlot → SaveSlot) : State :=
  s.onNv (fun v => if n = 0 then { v with slot0 := g v.slot0 } else { v with slot1 := g v.slot1 })

/-- AGE and HOURS go to MRAM with a save (18 R558). -/
def State.ageSave (s : State) : State := s.onNv (fun v => { v with age := s.meter.age, hours := s.meter.hours })

/-- The slot with the newest save whose feeder part is valid (R248, R250). -/
def State.newestSlot (s : State) : Option Nat :=
  let a := s.nv.slot0
  let b := s.nv.slot1
  if a.markF && (!b.markF || decide (b.seq ≤ a.seq)) then some 0 else if b.markF then some 1 else none

/-- Where the next save goes, and its SEQ (R248). -/
def State.saveTarget (s : State) : Nat × Nat :=
  match s.newestSlot with
  | some n => (1 - n, (s.slotOf n).seq + 1)
  | none => (0, 1)

/-- The mean active import of each phase over the newest 100 HCN before t (R247). -/
def Meter.means (m : Meter) (t : Nat) : List Nat :=
  (rangeFrom 0 24).map (fun x =>
    let l := ((tget [] m.imports x).filter (fun e => decide (e.1 < t))).take 100
    if l.isEmpty then 0 else (roundDiv ((l.map Prod.snd).foldl (· + ·) 0 : Nat) l.length).toNat)

/-- The final save's feeder part, written once every closed interval has been accumulated (R249). -/
def State.finalFeederPart (s : State) : State :=
  match s.meter.closed, s.meter.saving with
  | some _, some (n, t) =>
    if (rangeFrom 0 8).all (fun f => ((s.ivlNext f).bind (fun k => s.ivl f k)).isNone) && !(s.slotOf n).markF then
      let means := s.meter.means t
      let s := s.ageSave.onSlot n (fun x => { x with markF := true, means := means, tot := { s.liveTotals with accounts := [], phases := [] } })
      { s with meter := { s.meter with saveSeq := (s.slotOf n).seq, saveHcn := t } }
    else s
  | _, _ => s

/-- The header of the periodic save for t: both marks WRITING and the other header fields, the RTC time from the stamp of t (R247, R248). -/
def State.saveHeader (s : State) (t n seq : Nat) : State :=
  let w := tget 0 s.jnc.stamps (t % 1024)
  let s := s.onSlot n (fun _ =>
    { seq := seq, markF := false, markN := false, final := false, s := t, rtcSec := fld w 160 32, rtcSub := fld w 224 15, rtcValid := bit w 239 })
  { s with meter := { s.meter with saving := some (n, t) } }

/-- The state of a periodic save is complete: its writing begins (R247, R248 steps 1 and 2). -/
def State.saveStart (s : State) : State :=
  match s.meter.saveFill with
  | none => s
  | some t =>
    if s.meter.saving.isSome || s.meter.closed.isSome || !s.runs .d || !(rangeFrom 0 8).all (fun f => s.ivlsDone f t) then s
    else s.saveHeader t s.saveTarget.1 s.saveTarget.2

/-- A feeder's next record is completed, accumulated and kept (R223-R237). -/
def State.completeRecord (s : State) (f k : Nat) (iv : Nat × Nat) (phs : List (List Sample)) (clip : Bool) : State :=
  let dur := iv.2 - iv.1
  let part := match s.meter.closed, cutOf (if s.onB f then s.tb.setB.cuts else s.tb.cuts) (k + 1) with
    | some c, some b => decide (c < b)
    | some _, none => true
    | none, _ => false
  let n0 := s.meter.firstSample iv
  let volts := fun (p : Nat) => s.codesOf (s.voltIn f p) n0 ((phs.getD p []).map Sample.v)
  let currs := fun (p : Nat) => s.codesOf (3 * f + p) n0 ((phs.getD p []).map Sample.i)
  let clip := clip || [0, 1, 2].any (fun p => (volts p).any atLimit || (currs p).any atLimit)
  let ph := fun (p : Nat) => s.phaseOf f k p iv (volts p) (currs p)
  let a := ph 0
  let b := ph 1
  let c := ph 2
  let bits := fun (g : Ph × Bool × Bool → Bool) => b2n (g a) + 2 * b2n (g b) + 4 * b2n (g c)
  let fl := s.recFlagsOf f k iv clip part (bits (fun x => x.2.2)) (bits (fun x => x.2.1))
  let freq := if s.onB f then freqOf s.tb.setB.hist s.tb.setB.good else freqOf s.tb.hist s.tb.freqGood
  let w := recWord k fl dur freq a.1 b.1 c.1
  let live := fun (x : Ph × Bool × Bool) => if x.2.1 then ({} : Ph) else x.1
  let a' := live a
  let b' := live b
  let c' := live c
  let p := a'.p + b'.p + c'.p
  let q := a'.q + b'.q + c'.q
  let sv := a'.s + b'.s + c'.s
  let adds := contrib (32 * f) a'.p a'.q a'.s dur ++ contrib (32 * f + 8) b'.p b'.q b'.s dur
    ++ contrib (32 * f + 16) c'.p c'.q c'.s dur ++ contrib (32 * f + 24) p q sv dur
  let s := [0, 1, 2].foldl (fun s p => (s.keepCodes (s.voltIn f p) n0 (volts p)).keepCodes (3 * f + p) n0 (currs p)) s
  let s := s.accumulate f k adds p q sv dur s.meter.closed.isNone
  let imp := fun (t : Tbl (List (Nat × Nat))) (x : Nat) (y : Ph) =>
    tmod [] t x (fun l => ((k, if 0 ≤ y.p then y.p.natAbs else 0) :: l).take 101)
  let m := s.meter
  let s := { s with meter := { m with
    records := tmod [] m.records f (fun l => (w :: l).take 256)
    imports := imp (imp (imp m.imports (3 * f) a') (3 * f + 1) b') (3 * f + 2) c'
    next := tset 0 m.next f (k + 1), ended := tset none m.ended f (some iv.2) } }
  let s := (s.vxc.sessions.map Session.id).foldl (fun s i => s.subRecord f w i) s
  s.finalFeederPart.saveStart

/-- METER_RECORD_COMPLETE: the DSP completes the record of a feeder's oldest open interval once it has ended (R227). `clip` tells of a sample at a limit
of the range before the corrections. -/
def execMeterRecordComplete (dt : Dt) (f : Nat) (phases : List (List Sample)) (clip : Bool) (s : State) : Res :=
  let s := s.tick dt
  .next (if 7 < f || !s.runs .d then s else
  match s.ivlNext f with
  | none => s
  | some k => match s.ivl f k with
    | none => s
    | some iv => s.completeRecord f k iv phases clip)

/-! ## Snapshots (R242) -/

/-- The snapshot begins at the edge of its t: what is accumulated then is the state before t but for the intervals still to
complete, which join the copy as they do (R242). -/
def State.snapBegin (s : State) (t : Nat) : State :=
  { s with meter := { s.meter with snap := ⟨.filling, t, tget 0 s.jnc.stamps (t % 1024), s.liveTotals⟩ } }

/-- After a snapshot is ready, STATE reads PENDING while another one is bound. -/
def State.snapReady (s : State) : State :=
  let next := s.acts.find? (fun a => decide (a.what = ActWhat.meterSnap))
  match next with
  | none => { s with meter := { s.meter with snap := { s.meter.snap with st := .ready } } }
  | some a => { s with meter := { s.meter with snap := { s.meter.snap with st := .pending, t := a.t } } }

/-- METER_SNAPSHOT_COMPLETE: every feeder's interval of t - 1 is complete (R242). -/
def execMeterSnapshotComplete (dt : Dt) (s : State) : Res :=
  let s := s.tick dt
  .next (if s.meter.snap.st = .filling ∧ s.runs .d ∧ (rangeFrom 0 8).all (fun f => s.ivlsDone f s.meter.snap.t) then s.snapReady
    else s)

/-! ## Saves (R247-R249) -/

/-- A periodic save is due at an edge whose HCN is a multiple of N; its state begins to form (R247). -/
def State.saveEdge (s : State) : State :=
  let n := s.meter.cfg.saveInt * (if s.tb.p60 then 120 else 100)
  if s.meter.begun.isSome && s.runs .d && decide (0 < n) && s.tb.hcn % n == 0 && s.meter.closed.isNone && s.meter.saving.isNone then
    { s with meter := { s.meter with saveFill := some s.tb.hcn, saveTot := s.liveTotals } }
  else s

/-- PERIODIC_SAVE: the feeder part is written, once the header is, and MARK_F is set (R247, R248 step 3). -/
def execPeriodicSave (dt : Dt) (s : State) : Res :=
  let s := (s.tick dt).saveStart
  .next (match s.meter.saveFill, s.meter.saving with
  | some t, some (n, _) =>
    if s.meter.closed.isSome || !s.runs .d || (s.slotOf n).markF then s
    else
      let m := s.meter
      let s := s.ageSave.onSlot n (fun x => { x with
        markF := true, tot := { m.saveTot with accounts := [], phases := [] }, means := m.means t })
      { s with meter := { s.meter with saveSeq := (s.slotOf n).seq, saveHcn := t } }
  | _, _ => s)

/-! ## Registers and reads -/

/-- An accumulator entry (table "Accumulator entry"): LONG, SHORT, WRAP of R241. -/
def accEntry (snap : Bool) (v : Nat) : Nat :=
  let long := v / 4294967296
  pack [(112, 1, b2n snap), (96, 16, long / (10 * 4294967296)), (64, 32, long / 10), (0, 64, long)]

/-- PULSE_STAT and PULSE_FLAG. -/
def State.pulseStat (s : State) : Nat := pack [(16, 16, (s.pulse 1).pend), (0, 16, (s.pulse 0).pend)]
def State.pulseFlag (s : State) : Nat := pack [(1, 1, b2n (s.pulse 1).sat), (0, 1, b2n (s.pulse 0).sat)]

/-- STATE of MDSP_SNAP. -/
def SnapState.no : SnapState → Nat
  | .none => 0
  | .pending => 1
  | .filling => 2
  | .ready => 3

/-- MDSP_SNAP_LO and _HI as one word. -/
def Snap.reg (x : Snap) : Nat := pack [(48, 2, x.st.no), (0, 48, x.t)]

/-! ## The METER group -/

/-- The section of a write: inputs 0-29, 30 global, 31 both pulse outputs (R369). -/
def cfgSection : ActWhat → Option Nat
  | .meterInput i _ _ => some i
  | .meterGlobal .. => some 30
  | .meterPulse .. => some 31
  | _ => none

/-- A write that would exceed the limit of pending actions; one that replaces the pending write of its section does not (02 R87). -/
def State.cfgFull (s : State) (what : ActWhat) : Bool :=
  ({ s with acts := s.acts.filter (fun a => !decide (cfgSection a.what = cfgSection what)) } : State).actsFull

/-- What MRAM holds without a pending write that is replaced: of a write of one pulse output replaced by one of the other, the settings in force. -/
def State.withoutPulse (s : State) (gone : List Action) (c : MeterCfg) : MeterCfg :=
  gone.foldl (fun c a => match a.what with
    | .meterPulse o .. => if s.runs .d then { c with pulse := tset {} c.pulse o (s.meter.cfg.out o) } else c
    | _ => c) c

/-- A configuration write is stored in MRAM and bound; it replaces the pending write of its section, which completes with
DISCARDED (R234, R369). -/
def State.cfgWrite (s : State) (t : Nat) (w : Who) (cmd : Nat) (what : ActWhat) (store : MeterCfg → MeterCfg) : State :=
  let old := s.acts.filter (fun a => decide (cfgSection a.what = cfgSection what))
  let s := { s with acts := s.acts.filter (fun a => !decide (cfgSection a.what = cfgSection what)) }
  let s := old.foldl (fun s a => s.complete a.ses a.seq a.cmd .discarded []) s
  (s.onNv (fun v => v.setMeterCfg (store (s.withoutPulse old v.meterCfg)))).bind t w cmd what

/-- The configuration with a write applied. -/
def MeterCfg.write (c : MeterCfg) : ActWhat → MeterCfg
  | .meterInput i h p => { c with inputs := tput c.inputs i ⟨h, p⟩ }
  | .meterGlobal a b si ci => { c with vnomA := a, vnomB := b, saveInt := si, calInt := ci }
  | .meterPulse o q m k => { c with pulse := tset {} c.pulse o ⟨q, BitVec.ofNat 8 m, k⟩ }
  | _ => c

/-- A configuration comes into force at HCN t: the one it replaces stays for intervals before t, the time base takes the
nominal voltages, and an output whose settings change is cleared and recorded (R221, R234, R246). -/
def State.cfgInForce (s : State) (t : Nat) (c : MeterCfg) : State :=
  let m := s.meter
  let s := { s with
    meter := { m with cfg := c, cfgs := if (m.cfgs.head?.map Prod.fst) = some t then m.cfgs else ((t, m.cfg) :: m.cfgs).take 4 }
    tb := { s.tb with vnomA := c.vnomA, vnomB := c.vnomB } }
  [0, 1].foldl (fun s o =>
    if c.out o = m.cfg.out o then s
    else (s.onPulse o (fun x => { x with reg := 0, pend := 0, powers := [], since := t })).raiseGen .d 0x07
      (wPulse + 16 * o) []) s

/-- TEMP decreases from one point to the next. -/
def tempsFall : List (BitVec 64) → Bool
  | [] => false
  | [_] => false
  | a :: b :: r => decide (ptTemp b < ptTemp a) || tempsFall (b :: r)

/-- A configuration within the ranges of its fields (R234). -/
def MeterCfg.ok (c : MeterCfg) : Bool :=
  let vnom := fun (v : Nat) => decide (50000 ≤ v ∧ v ≤ 300000)
  vnom c.vnomA && vnom c.vnomB && decide (1 ≤ c.saveInt ∧ c.saveInt ≤ 60 ∧ 1 ≤ c.calInt ∧ c.calInt ≤ 720)
    && [0, 1].all (fun o => decide ((c.out o).qty ≤ 9))
    && (rangeFrom 0 30).all (fun x =>
      let h := (c.input x).header
      let lim := if x < 24 then (1000, 2000000) else (50000, 1000000)
      decide (lim.1 ≤ inFs h ∧ inFs h ≤ lim.2 ∧ 10 * inNlt h < inFs h) && !tempsFall (c.input x).points)

/-- METER INPUT_SET (R234). -/
def execMeterInputSet (r : Req) (tgt input : Nat) (header : BitVec 64) (points : List (BitVec 64)) (s : State) : Res :=
  hostCmd { cmd := 0x0701, need := .configure } r (fun w t =>
    let lim := if input < 24 then (1000, 2000000) else (50000, 1000000)
    let points := points.map (fun p => p &&& 0xFFFF0000FFFFFFFF#64)
    checked ([(points.length != 16, .length), (decide (29 < input ∨ inFs header < lim.1 ∨ lim.2 < inFs header
        ∨ inFs header ≤ 10 * inNlt header) || tempsFall points || t.badTgt tgt, .range)] ++ t.lateTgt tgt 4
        ++ [(t.cfgFull (.meterInput input header points), .busy)])
      (.deferred tgt (t.cfgWrite tgt w 0x0701 (.meterInput input header points)
        (fun c => c.write (.meterInput input header points))))) s

/-- METER GLOBAL_SET (R234). -/
def execMeterGlobalSet (r : Req) (tgt vnomA vnomB saveInt calInt : Nat) (s : State) : Res :=
  hostCmd { cmd := 0x0702, need := .configure } r (fun w t =>
    let bad := fun (v : Nat) => decide (v < 50000 ∨ 300000 < v)
    checked ([(bad vnomA || bad vnomB || decide (saveInt = 0 ∨ 60 < saveInt ∨ calInt = 0 ∨ 720 < calInt) || t.badTgt tgt, .range)]
        ++ t.lateTgt tgt 4 ++ [(t.cfgFull (.meterGlobal vnomA vnomB saveInt calInt), .busy)])
      (.deferred tgt (t.cfgWrite tgt w 0x0702 (.meterGlobal vnomA vnomB saveInt calInt)
        (fun c => c.write (.meterGlobal vnomA vnomB saveInt calInt))))) s

/-- METER PULSE_SET (R234, R246). -/
def execMeterPulseSet (r : Req) (tgt out qty : Nat) (fdrMask : BitVec 8) (const : Nat) (s : State) : Res :=
  hostCmd { cmd := 0x0703, need := .configure } r (fun w t =>
    checked ([(decide (1 < out ∨ 9 < qty) || t.badTgt tgt, .range)] ++ t.lateTgt tgt 4
        ++ [(t.cfgFull (.meterPulse out qty fdrMask.toNat (const % 4294967296)), .busy)])
      (.deferred tgt (t.cfgWrite tgt w 0x0703 (.meterPulse out qty fdrMask.toNat (const % 4294967296))
        (fun c => c.write (.meterPulse out qty fdrMask.toNat (const % 4294967296)))))) s

/-- A section as its write carries it, less TGT; 31 and 32 are the two pulse outputs of section 31 (log entry 43). -/
def MeterCfg.section (c : MeterCfg) (n : Nat) : Payload :=
  if n < 30 then [(n, 1), ((c.input n).header.toNat, 8)] ++ (c.input n).points.map (fun p => (p.toNat, 8))
  else if n = 30 then [(c.vnomA, 4), (c.vnomB, 4), (c.saveInt, 1), (c.calInt, 2)]
  else
    let o := n - 31
    [(o, 1), ((c.out o).qty, 1), ((c.out o).mask.toNat, 1), ((c.out o).const, 4)]

/-- The configuration that reads show: 0 until the restore step (00 R14, 19 R584). -/
def State.cfgShown (s : State) : MeterCfg :=
  if 6 ≤ s.pow.phase.rank then s.meter.cfg else { vnomA := 0, vnomB := 0, saveInt := 0, calInt := 0 }

/-- METER CFG_READ: a section in force, then the pending write. Section 31 holds both outputs (log entry 43). -/
def execMeterCfgRead (r : Req) (sect : Nat) (s : State) : Res :=
  hostCmd { cmd := 0x0704, need := .read } r (fun _ t =>
    let secs := if sect = 31 then [31, 32] else [sect]
    let c := t.cfgShown
    let pend := t.acts.filter (fun a => decide (cfgSection a.what = some sect))
    let part := fun (a : Action) => match a.what with | .meterPulse o .. => 31 + o | _ => sect
    checked [(decide (31 < sect), .range)]
      (.ok (secs.flatMap c.section ++ [(b2n (!pend.isEmpty), 1)]
        ++ pend.flatMap (fun a => (a.t, 6) :: (c.write a.what).section (part a))) t)) s

/-- METER RECORD_READ: consecutive records from an HCN; RANGE where one of them is not in the history (R237). -/
def execMeterRecordRead (r : Req) (feeder hcn count : Nat) (s : State) : Res :=
  hostCmd { cmd := 0x0705, need := .read } r (fun _ t =>
    let l := tget [] t.meter.records feeder
    let found := (rangeFrom hcn count).map (fun k => l.find? (fun w => recHcn w == k))
    let got := found.filterMap id
    checked [(decide (7 < feeder ∨ count = 0 ∨ 16 < count) || got.length != count, .range)]
      (.ok ((got.length, 1) :: got.map (fun w => (w.toNat, 80))) t)) s

/-- METER SUBSCRIBE: one subscription per session, replaced by a new one (R369). -/
def execMeterSubscribe (r : Req) (fdrMask : BitVec 8) (n : Nat) (s : State) : Res :=
  hostCmd { cmd := 0x0706, need := .read } r (fun w t =>
    checked [(decide (1200 < n), .range)]
      (.ok [] (t.onSession w.ses (fun x => { x with sub := if n = 0 then none else some { fdrMask := fdrMask, n := n } })))) s

/-- METER SNAPSHOT: bound to TGT, or to h + 4 (R242). -/
def execMeterSnapshot (r : Req) (tgt : Nat) (s : State) : Res :=
  hostCmd { cmd := 0x0707, need := .read } r (fun w t =>
    let k := if tgt = 0 then t.tb.hcn + 4 else tgt
    checked ([(t.started && decide (t.tb.hcn + 2147483648 < k), .range)] ++ t.lateTgt k 4 ++ [(t.actsFull, .busy)])
      (.deferred k (let u := t.bind k w 0x0707 .meterSnap
        { u with meter := { u.meter with snap := if u.meter.snap.st = .filling then u.meter.snap
          else { u.meter.snap with st := .pending, t := k } } }))) s

/-- METER SNAP_READ (R242, R369). -/
def execMeterSnapRead (r : Req) (first count : Nat) (s : State) : Res :=
  hostCmd { cmd := 0x0708, need := .read } r (fun _ t =>
    let x := t.meter.snap
    checked [(decide (256 ≤ first), .range), (decide (x.st = .pending ∨ x.st = .filling), .busy), (decide (x.st = SnapState.none), .notFound)]
      (paged 256 first count 16 [(x.t, 6), (x.stamp.toNat, 32), (x.tot.pulseA.2, 2), (x.tot.pulseB.2, 2)]
        (fun i => [(accEntry true (tget 0 x.tot.acc i), 16)]) t)) s

/-- METER ACC_READ (R241). -/
def execMeterAccRead (r : Req) (first count : Nat) (s : State) : Res :=
  hostCmd { cmd := 0x0709, need := .read } r (fun _ t =>
    paged 256 first count 16 [] (fun i => [(accEntry false (tget 0 t.meter.acc i), 16)]) t) s

/-- METER GAP_READ: the last 4 gaps (R251). -/
def execMeterGapRead (r : Req) (s : State) : Res :=
  hostCmd { cmd := 0x070A, need := .read } r (fun _ t =>
    .ok ((t.nv.gaps.length, 1) :: t.nv.gaps.flatMap (fun g => (g.pay.toNat, 32) :: g.split.map (fun v => (v, 8)))) t) s

/-- A write of 1 to SAT of an output; a saturation at the same moment wins (R260, 00 R13). -/
def State.satClear (s : State) (o : Nat) : State := s.onPulse o (fun x => { x with sat := x.sat && x.satAt == s.now })

/-- METER SAT_CLEAR: writes 1 to the chosen bits of PULSE_FLAG (R260, R369). -/
def execMeterSatClear (r : Req) (mask : BitVec 8) (s : State) : Res :=
  hostCmd { cmd := 0x070C, need := .operate } r (fun _ t =>
    let clear := fun (u : State) (o : Nat) => if bit mask o then u.satClear o else u
    .ok [] (clear (clear t 0) 1)) s

/-! ## Gaps (R250, R251) -/

/-- ENERGY_GAP payload (table). -/
def gapWord (scope kind est bound dur to_ from_ : Nat) : BitVec 256 :=
  BitVec.ofNat 256 (pack [(232, 8, scope), (224, 8, kind), (176, 48, est), (128, 48, bound), (96, 32, dur), (48, 48, to_),
    (0, 48, from_)])

/-- The product of full scales of a phase index, in mW: current FS × voltage FS ÷ 1 000 (R250). -/
def State.fsProduct (s : State) (x : Nat) : Nat :=
  inFs (s.meter.cfg.input x).header * inFs (s.meter.cfg.input (s.voltIn (x / 3) (x % 3))).header

/-- BOUND over phases for a duration in ms, rounded up (R250). -/
def State.gapBound (s : State) (xs : List Nat) (ms : Nat) : Nat :=
  ceilDiv (ms * (xs.map s.fsProduct).foldl (· + ·) 0) (1000 * 3600000)

/-- Record a gap and keep the last 4 (R250, R251). -/
def State.gapRecord (s : State) (g : Gap) : State :=
  (s.onNv (fun v => { v with gaps := (v.gaps ++ [g]).drop ((v.gaps.length + 1) - 4) })).raiseFw .d 0x0701 (leBytes 32 g.pay.toNat)

/-- The duration in 2.5 ns of a range of HCNs by its stamps; what has left the history counts at its mean PERIOD (R250, 02
R81). -/
def State.stampSpan (s : State) (a b : Nat) : Nat :=
  let n := b + 1 - a
  let m := min n 1024
  let held := ((rangeFrom (b + 1 - m) m).map (fun k => (k, tget 0 s.jnc.stamps (k % 1024))))
  let known := (held.filter (fun e => fld e.2 0 48 == e.1 && fld e.2 192 32 != 0)).map Prod.snd
  let sum := (known.map (fun w => fld w 192 32)).foldl (· + ·) 0
  if known.isEmpty then 0 else sum + (roundDiv ((n - known.length) * sum : Nat) known.length).toNat

/-- The first metered interval after a restore makes the ENERGY_GAP record (R250). -/
def State.gapClose (s : State) (g : GapOpen) : State :=
  let k := s.tb.hcn
  let dur : Option Nat :=
    if g.module then
      match g.rtc with
      | some (sec, sub) =>
        if s.bk.valid then
          let now : Int := s.lin * 32768 + s.bk.sub
          some (roundDiv (max 0 (now - (sec * 32768 + sub : Nat)) * 1000) 32768).toNat
        else none
      | none => none
    else some (roundDiv (s.stampSpan g.fromHcn (k - 1) : Nat) 400000).toNat
  let all := rangeFrom 0 24
  s.gapRecord (match dur with
  | some d =>
    let sum := g.means.foldl (· + ·) 0
    let per := fun (m : Nat) => (roundDiv (d * m : Nat) 3600000).toNat
    ⟨gapWord 0xFF g.kind (per sum) (s.gapBound all d) d (k - 1) g.fromHcn, all.map (fun x => per (g.means.getD x 0))⟩
  | none =>
    ⟨gapWord 0xFF g.kind 0xFFFFFFFFFFFF 0xFFFFFFFFFFFF 0xFFFFFFFF (k - 1) g.fromHcn,
      List.replicate 24 0xFFFFFFFFFFFFFFFF⟩)

/-- Metering at an HCN edge: it begins with the first interval after start-up or a D-region resume (R226, R250), a periodic
save falls due (R247), and the temperature is read (R233). -/
def State.meterEdge (s : State) : State :=
  if !s.runs .d || s.meter.closed.isSome then s else
  let s := s.measureTemp
  let s := match s.meter.begun with
    | some _ => s
    | none =>
      let s := { s with meter := { s.meter with begun := some s.tb.hcn } }
      match s.meter.gapOpen with
      | some g => { s.gapClose g with meter := { (s.gapClose g).meter with gapOpen := none } }
      | none => s
  s.saveEdge

end Sys2Proof.Machine
end

