-- ==== Sys2Proof/Machine/Conv.lean ====
section
/-!
DEFINITION. The converters of the metering front end (07 "Spare converters", R252-R258; 18 R553, R563, R565): roles,
substitution, the rotation of the spares, calibration, and METER CALIBRATE and STATUS (11 R369).
-/
namespace Sys2Proof.Machine

/-- Role and input of a converter at reset (R218, R253). -/
def convDef (c : Nat) : Conv := if c < 30 then ⟨.measure, c⟩ else ⟨.spare, if c = 30 then 0 else 15⟩

/-- A converter. -/
def State.conv (s : State) (c : Nat) : Conv := (tget none s.meter.conv c).getD (convDef c)

/-- Set a converter's role and input. -/
def State.setConv (s : State) (c : Nat) (r : Role) (x : Nat) : State :=
  { s with meter := { s.meter with
      dwellAt := if r = .spare then tset 0 s.meter.dwellAt c s.tb.hcn else s.meter.dwellAt
      conv := tset none s.meter.conv c (if convDef c = ⟨r, x⟩ then none else some ⟨r, x⟩) } }

/-- The converters of a role, ascending. -/
def State.convsIn (s : State) (r : Role) : List Nat := (rangeFrom 0 32).filter (fun c => decide ((s.conv c).role = r))

/-- The converter of a role on an input. -/
def State.convOn (s : State) (r : Role) (x : Nat) : Option Nat := (s.convsIn r).find? (fun c => decide ((s.conv c).input = x))

/-- ROLE of MAFE_CONV_m. -/
def Role.no : Role → Nat
  | .measure => 0
  | .spare => 1
  | .shadow => 2
  | .cal => 3
  | .excluded => 4

/-- MAFE_CONV_m (table). -/
def State.convReg (s : State) (c : Nat) : Nat := pack [(8, 3, (s.conv c).role.no), (0, 6, (s.conv c).input)]

/-- MAFE_STAT (table). A calibration that is due waits whenever both spares are not in SPARE. -/
def State.mafeStat (s : State) : Nat :=
  let m := s.meter
  pack [(24, 8, m.failCnt), (16, 8, m.driftCnt), (8, 8, m.calCnt), (2, 1, b2n (m.calDue.any (fun d => !d.retire))),
    (1, 1, b2n (m.infail != 0)), (0, 1, b2n (s.convsIn .spare).isEmpty)]

/-- Change the metering state. -/
def State.onMeter (s : State) (g : Meter → Meter) : State := { s with meter := g s.meter }

/-! ## Calibration (R257, R258) -/

/-- What of the calibrations due is next: those due at once in their order, then those due by CAL_INT in ascending input order (R257). -/
def calOrder (l : List CalWait) : List CalWait :=
  l.filter (fun d => !d.periodic) ++ sortBy (fun (d : CalWait) => [d.input]) (l.filter (fun d => d.periodic))

/-- The boundaries of an input: those of its feeder's intervals, or of its voltage set (R258). -/
def State.cutsOf (s : State) (x : Nat) : List (Nat × Nat) :=
  if (if x < 24 then s.onB (x / 3) else decide (27 ≤ x)) then s.tb.setB.cuts else s.tb.cuts

/-- The boundary of HCN k of an input has come. -/
def State.boundaryCame (s : State) (x k : Nat) : Bool := (s.cutsOf x).any (fun e => decide (k ≤ e.1 ∧ e.2 ≤ s.now))

/-- The boundary of HCN k of an input is now, or has become known at the edge that is now (R258). -/
def State.atBoundary (s : State) (x k : Nat) : Bool :=
  match cutOf (s.cutsOf x) k with
  | some c => decide (c = s.now ∨ (c < s.now ∧ s.tb.lastEdge = s.now))
  | none => false

/-- A calibration starts when both spares are in SPARE, and a retirement when one is: the next one due, with one of the free
spares, which the spec does not name (free, log entry 44), from the next boundary on. A METER CALIBRATE that waits for it is answered
(R257, R369; 18 R565). -/
def State.tryCal (s : State) : State :=
  if s.meter.calib.isSome then s else
  let free := s.convsIn .spare
  match (calOrder s.meter.calDue).find? (fun d => decide ((if d.retire then 1 else 2) ≤ free.length) && (s.convOn .measure d.input).isSome) with
  | none => s
  | some d =>
    let c := (s.convOn .measure d.input).getD 0
    let (i, s) := s.draw free.length
    let sp := free.getD i 30
    let dwell := (s.conv sp).input
    let s := s.onMeter (fun m => { m with
      calDue := m.calDue.erase d, calAt := if d.retire then m.calAt else tset 0 m.calAt d.input s.now
      calib := some { conv := c, input := d.input, spare := sp, b := s.tb.hcn + 1, dwell := dwell, retire := d.retire } })
    match d.who with
    | some (ses, seq, _) => s.answer ⟨ses, seq⟩ 0x070B .ok []
    | none => s

/-- A calibration falls due for an input, unless one waits already (R257). -/
def State.calAdd (s : State) (x : Nat) (retire : Bool) (periodic : Bool := false) : State :=
  if s.meter.calDue.any (fun d => d.input == x && d.who.isNone && d.retire == retire && d.periodic == periodic) then s
  else s.onMeter (fun m => { m with calDue := m.calDue ++ [{ input := x, retire := retire, periodic := periodic }] })

/-- The calibration is over and the spare resumes its rotation (R257). -/
def State.calEnd (s : State) : State := (s.onMeter (fun m => { m with calib := none })).tryCal

/-- A worn converter is retired if a spare is free, or makes an event record (18 R556, R565). -/
def State.convWorn (s : State) (c : Nat) : State :=
  if !s.worn 3 c then s
  else if (s.convsIn .spare).isEmpty || decide ((s.conv c).role ≠ .measure) then s.wornEvent .d 3 c
  else (s.calAdd (s.conv c).input true).tryCal

/-- A converter leaves service. -/
def State.convExclude (s : State) (c : Nat) : State := (s.setConv c .excluded 63).reserveNote 3 c 0

/-- CALIBRATION_STEP: at the boundary b, b + 8, b + 72 or b + 80 of the calibration table, and at no other time (R257, R258). `offset` and `gain` are the
trims computed, `within` the verdict of the final comparison. -/
def execCalibrationStep (dt : Dt) (within : Bool) (offset gain : Int) (s : State) : Res :=
  let s := s.tick dt
  .next (match s.meter.calib with
  | none => s
  | some c =>
    if !s.runs .d then s else
    let at_ := fun (n : Nat) => s.atBoundary c.input (c.b + n)
    let next := fun (s : State) => s.onMeter (fun m => { m with calib := some { c with step := c.step + 1 } })
    match c.step with
    | 0 => if at_ 0 then next (s.setConv c.spare .shadow c.input) else s
    | 1 =>
      if !at_ 8 then s
      else if c.retire then
        (((s.setConv c.spare .measure c.input).convExclude c.conv).reserveNote 3 c.spare 1).calEnd
      else next ((s.setConv c.spare .measure c.input).setConv c.conv .cal 63)
    | 2 => if at_ 72 then next (s.setConv c.conv .shadow c.input) else s
    | _ =>
      if !at_ 80 then s
      else if within then
        let old := tget (0, 0) s.nv.trims c.conv
        let s := s.onNv (fun v => { v with trims := tset (0, 0) v.trims c.conv (offset, gain) })
        let s := (s.setConv c.conv .measure c.input).setConv c.spare .spare c.dwell
        let (n, st) := bump 255 s.meter.calCnt
        let s := s.onMeter (fun m => { m with calCnt := n })
        let s := s.stuckIf st (wMafe + 0x84) 8
        (s.raiseUnit 1 0x21 c.conv 0x07 (wMafe + 4 * c.conv) [(unsext 32 old.1, 4), (unsext 32 old.2, 4), (unsext 32 offset, 4),
          (unsext 32 gain, 4)]).calEnd
      else
        let s := (s.convExclude c.conv).wearInc 3 c.conv
        let s := s.raiseUnit 1 0x21 c.conv 0x07 (wMafe + 4 * c.conv) [(c.input, 1)]
        (s.reserveNote 3 c.spare 1).calEnd)

/-- CALIBRATION_DUE: CAL_INT has passed since the last calibration on an input (R257). -/
def execCalibrationDue (dt : Dt) (input : Nat) (s : State) : Res :=
  let s := s.tick dt
  .next (if 29 < input || !s.runs .d || (s.convOn .measure input).isNone
      || decide (s.now < tget 0 s.meter.calAt input + s.meter.cfg.calInt * 3600 * secC) then s
    else (s.calAdd input false true).tryCal)

/-- METER CALIBRATE: answered OK when the calibration starts (R257, R369). -/
def execMeterCalibrate (r : Req) (input : Nat) (s : State) : Res :=
  hostCmd { cmd := 0x070B, need := .configure } r (fun w t =>
    checked [(decide (29 < input), .range)]
      (if t.meter.calib.isNone && t.meter.calDue.isEmpty && decide (2 ≤ (t.convsIn .spare).length)
          && (t.convOn .measure input).isSome then
        .ok [] (t.onMeter (fun m => { m with calDue := [{ input := input }] })).tryCal
      else .later (t.onMeter (fun m => { m with calDue := m.calDue ++ [{ input := input, who := some (w.ses, w.seq, t.now) }] })))) s

/-- CALIBRATE_START_TIMEOUT: each METER CALIBRATE that has waited 60 s is refused with STATE (R257). -/
def execCalibrateStartTimeout (dt : Dt) (s : State) : Res :=
  let s := s.tick dt
  let late := fun (d : CalWait) => match d.who with
    | some (_, _, t) => decide (t + 60 * secC ≤ s.now)
    | none => false
  let gone := s.meter.calDue.filter late
  let s' := s.onMeter (fun m => { m with calDue := m.calDue.filter (fun d => !late d) })
  .next (gone.foldl (fun s d => match d.who with
    | some (ses, seq, _) => s.answer ⟨ses, seq⟩ 0x070B .state [(0, 4)]
    | none => s) s')

/-! ## Failure and substitution (R254, R255; 18 R553) -/

/-- The calibration in progress is abandoned; whichever of its two converters still measures goes on, and the other is freed
(R255). Answers the other of the two. -/
def State.calAbandon (s : State) (failed : Nat) : Option Nat × State :=
  match s.meter.calib with
  | none => (none, s)
  | some c =>
    let s := s.onMeter (fun m => { m with calib := none })
    (some (if c.conv = failed ∨ (c.spare ≠ failed ∧ (s.conv c.conv).role = .measure) then c.spare else c.conv), s)

/-- The converter that takes a failed input, and whether it already digitises it: its shadow, the spare that dwells on it, the
lower-numbered spare (R254, 18 R553). -/
def State.substituteFor (s : State) (x : Nat) : Option (Nat × Bool) :=
  match s.convOn .shadow x with
  | some c => some (c, true)
  | none =>
    let sp := s.convsIn .spare
    match if sp.length = 2 then s.convOn .spare x else none with
    | some c => some (c, true)
    | none => sp.head?.map (fun c => (c, false))

/-- A converter takes an input. From the fault's onset, up to 100 µs before its declaration, until the samples are valid, 0.75 ms later for one
that did not digitise the input, samples are interpolated; an interval that combines two converters carries INTERP in any case (R254, R256;
log entry 44). A calibration that has not begun loses its spare. -/
def State.convTakes (s : State) (c x : Nat) (valid : Bool) : State :=
  let s := match s.meter.calib with
    | some b => if b.spare = c ∧ b.step = 0 then
        (s.onMeter (fun m => { m with calib := none })).calAdd b.input b.retire else s
    | none => s
  let s := (s.setConv c .measure x).reserveNote 3 c 1
  let (d, s) := s.draw 40001
  s.onMeter (fun m => { m with interpAt := tmod [] m.interpAt x (fun l => ((s.now - d, if valid then s.now else s.now + 300000) :: l).take 8) })

/-- An input is left without a converter (R255). -/
def State.inputFails (s : State) (x : Nat) : State :=
  s.onMeter (fun m => { m with
    infail := setBit m.infail x true, failFrom := tset 0 m.failFrom x s.tb.hcn
    failSpans := tmod [] m.failSpans x (fun l => ((s.now, none) :: l).take 8) })

/-- CONVERTER_FAILURE: the failed converter is excluded, a shadow or spare takes its input, a calibration in progress gives up
its converter, or the input fails, which passes to the region (R254, R255; 01 R33). -/
def execConverterFailure (dt : Dt) (conv : Nat) (s : State) : Res :=
  let s := s.tick dt
  let k := s.conv conv
  .next (if 31 < conv || k.role = .excluded || !s.runs .d then s else
    let (n, st) := bump 255 s.meter.failCnt
    let s := (s.onMeter (fun m => { m with failCnt := n })).stuckIf st (wMafe + 0x84) 24
    let s := (s.convExclude conv).wearInc 3 conv
    let alone := decide (k.role = .measure) && (s.substituteFor k.input).isNone && (s.calAbandon conv).1.isNone
    let s := s.raiseUnit (if alone then 2 else 1) 0x21 conv 0x07 (wMafe + 4 * conv) [(k.input, 1)]
    let s := match k.role with
      | .measure =>
        match s.substituteFor k.input with
        | some (c, valid) =>
          let s := s.convTakes c k.input valid
          match s.meter.calib with
          | some b => if b.conv = conv ∨ b.spare = conv then
              (let (o, s) := s.calAbandon conv
               match o with
               | some d => if d = c then s else s.setConv d .spare b.dwell
               | none => s)
            else s
          | none => s
        | none =>
          match s.calAbandon conv with
          | (some c, s) => s.convTakes c k.input (decide ((s.conv c).role = Role.shadow ∧ (s.conv c).input = k.input))
          | (none, s) => s.inputFails k.input
      | .shadow | .cal =>
        match s.meter.calib with
        | some b =>
          if b.conv = conv ∨ b.spare = conv then (s.calAbandon conv).2 else s
        | none => s
      | .spare =>
        match s.meter.calib with
        | some b => if b.spare = conv then (s.onMeter (fun m => { m with calib := none })).calAdd b.input b.retire else s
        | none => s
      | .excluded => s
    s.tryCal)

/-- A spare has dwelt on its input for 64 intervals (R253). -/
def State.dwelt (s : State) (c : Nat) : Bool :=
  s.boundaryCame (s.conv c).input (max (s.meter.begun.getD 0) (tget 0 s.meter.dwellAt c) + 64)

/-- The RMS value of an input in the record of an interval: IRMS of its phase, or VRMS on the lowest feeder of its set; none where no record
holds it. -/
def State.rmsRecorded (s : State) (x k : Nat) : Option Nat :=
  let f := if x < 24 then some (x / 3) else (rangeFrom 0 8).find? (fun f => s.onB f == decide (27 ≤ x))
  match f.bind (fun f => (tget [] s.meter.records f).find? (fun w => recHcn w == k)) with
  | some w => let p := recPh w (x % 3); some (if x < 24 then p.irms else p.vrms)
  | none => none

/-- The first interval of a spare's dwell. -/
def State.dwellFrom (s : State) (c : Nat) : Nat := max (s.meter.begun.getD 0) (tget 0 s.meter.dwellAt c)

/-- How many of the last 60 intervals of a dwell of 64 differ: the spare's RMS value and the measuring converter's lie more than 0.1 % apart, where
the value is at least 0.05 FS (R253). -/
def State.differing (s : State) (c : Nat) (spare : List Nat) : Nat :=
  let x := (s.conv c).input
  let fs := inFs (s.meter.cfg.input x).header
  ((rangeFrom 4 60).filter (fun j => match s.rmsRecorded x (s.dwellFrom c + j) with
    | some v => let w := spare.getD j v; decide (fs ≤ 20 * v ∧ v < 1000 * (if w ≤ v then v - w else w - v))
    | none => false)).length

/-- SPARE_DWELL_END: a spare's dwell of 64 intervals ends, with its RMS values of them, trims and corrections applied; more than 8 differing intervals
make the measuring converter suspect, and the spare moves to the next input (R253). -/
def execSpareDwellEnd (dt : Dt) (conv : Nat) (spare : List Nat) (s : State) : Res :=
  let s := s.tick dt
  let k := s.conv conv
  .next (if k.role ≠ .spare || !s.runs .d || s.meter.begun.isNone || !s.dwelt conv then s else
    let n := s.differing conv spare
    let s := s.setConv conv .spare ((k.input + 1) % 30)
    match if 8 < n then s.convOn .measure k.input else none with
    | none => s
    | some c =>
      let (n, st) := bump 255 s.meter.driftCnt
      let s := (s.onMeter (fun m => { m with driftCnt := n })).stuckIf st (wMafe + 0x84) 16
      let s := (s.wearInc 3 c).raiseUnit 1 0x21 c 0x07 (wMafe + 4 * c) [(k.input, 1)]
      ((s.calAdd k.input false).convWorn c).tryCal)

/-! ## Return (R255; 18 R562, R563) -/

/-- A returned converter goes into MEASURE on the lowest-numbered failed input, whose gap is recorded, or becomes a spare. The
spec names no input for the first dwell of a returned spare; it is the input shadowed in its return, 0 (log entry 44). -/
def State.convReturn (s : State) (c : Nat) : State :=
  let s := s.reserveNote 3 c 2
  match (rangeFrom 0 30).find? (fun x => bit s.meter.infail x) with
  | none => (s.setConv c .spare 0).tryCal
  | some x =>
    let a := tget 0 s.meter.failFrom x
    let s := s.setConv c .measure x
    let s := s.onMeter (fun m => { m with
      infail := setBit m.infail x false, failFrom := tset 0 m.failFrom x 0
      failSpans := tmod [] m.failSpans x (fun l => match l with
        | (f, none) :: r => (f, some s.now) :: r
        | l => l) })
    let ms := (roundDiv (s.stampSpan a s.tb.hcn : Nat) 400000).toNat
    let served := (rangeFrom 0 24).filter (fun i => i == x || s.voltIn (i / 3) (i % 3) == x)
    s.gapRecord ⟨gapWord x 2 0 (s.gapBound served ms) ms s.tb.hcn a, List.replicate 24 0⟩

/-! ## STATUS -/

/-- METER STATUS (11, table "METER commands"). -/
def execMeterStatus (r : Req) (s : State) : Res :=
  hostCmd { cmd := 0x070D, need := .read } r (fun _ t =>
    .ok ([(t.mafeStat, 4), (t.meter.infail.toNat, 4), (t.mafeTemp, 4)] ++ (rangeFrom 0 32).map (fun c => (t.convReg c, 4))
      ++ [(t.meter.saveSeq, 4), (t.meter.saveHcn, 6), (t.meter.snap.reg, 8), (t.pulseStat, 4), (t.pulseFlag, 4)]) t) s

end Sys2Proof.Machine
end

