-- ==== Sys2Proof/Machine/Sillage.lean ====
section
/-!
DEFINITION. The Sillage presence engine (05) and the GRAPH group (11, table "GRAPH commands"): tables, the pass, the change
queues, stop-change-restart.
-/
namespace Sys2Proof.Machine

/-! ## Tables (05 R161-R165) -/

/-- A level that is unknown, or none (05, node state and limit entry). -/
def unk : Nat := 0x3FFF

/-- A state word with SENT and OUT unknown, GOAL and PHI 0 (log entry 25). -/
def stateDef : BitVec 64 := BitVec.ofNat 64 (0x3FFF * 2 ^ 50 + 0x3FFF * 2 ^ 36)

/-- Change the Sillage tables. -/
def State.onTab (s : State) (g : SilTables → SilTables) : State := { s with sil := { s.sil with tab := g s.sil.tab } }

/-- Entries of the tables. -/
def SilTables.edge (t : SilTables) (e : Nat) : BitVec 32 := tget 0 t.edges e
def SilTables.node (t : SilTables) (a : Nat) : BitVec 128 := tget 0 t.nodes a
def SilTables.state (t : SilTables) (a : Nat) : BitVec 64 := tget t.stDef t.states a
def SilTables.limit (t : SilTables) (a : Nat) : BitVec 64 := tget t.limDef t.limits a
def SilTables.sensor (t : SilTables) (a : Nat) : BitVec 32 := tget 0 t.sensors a
def SilTables.field (t : SilTables) (k a : Nat) : Nat := (tget 0 t.hist (16384 * (k % 16) + a)).toNat

/-- Fields of an edge entry. -/
def edgeDelay (w : BitVec 32) : Nat := fld w 28 4
def edgeW (w : BitVec 32) : Nat := fld w 20 8
def edgeSrc (w : BitVec 32) : Nat := fld w 0 14

/-- Fields of a node entry. -/
def nodeOutDeg (w : BitVec 128) : Nat := fld w 114 7
def nodeInDeg (w : BitVec 128) : Nat := fld w 107 7
def nodeBase (w : BitVec 128) : Nat := fld w 90 17
def nodeDlSrc (w : BitVec 128) : Nat := fld w 76 14
def nodeKday (w : BitVec 128) : Nat := fld w 52 16
def nodeDecay (w : BitVec 128) : Nat := fld w 36 16
def nodeCurve (w : BitVec 128) : Nat := fld w 31 5
def nodeSlew (w : BitVec 128) : Nat := fld w 27 4
def nodeManaged (w : BitVec 128) : Bool := bit w 26

/-- Fields of a state word. -/
def stSent (w : BitVec 64) : Nat := fld w 50 14
def stOut (w : BitVec 64) : Nat := fld w 36 14
def stPhi (w : BitVec 64) : Nat := fld w 0 16

/-- Fields of a limit entry. -/
def limOvr (w : BitVec 64) : Nat := fld w 50 14
def limCeil (w : BitVec 64) : Nat := fld w 36 14
def limFloor (w : BitVec 64) : Nat := fld w 22 14

/-- Fields of a sensor word. -/
def snLux (w : BitVec 32) : Nat := fld w 16 16
def snValid (w : BitVec 32) : Bool := bit w 2
def snPres (w : BitVec 32) : Bool := bit w 0

/-- The incoming edges of a node: (index, word), in order (R164). -/
def SilTables.incoming (t : SilTables) (a : Nat) : List (Nat × BitVec 32) :=
  (rangeFrom (nodeBase (t.node a)) (nodeInDeg (t.node a))).map (fun e => (e, t.edge e))

/-- Every edge: (destination, index, word), in order of destination (R164). -/
def SilTables.allEdges (t : SilTables) : List (Nat × Nat × BitVec 32) :=
  t.nodes.flatMap (fun n => (t.incoming n.1).map (fun e => (n.1, e.1, e.2)))

/-- Addresses that can hold a field or a level: those with a node entry, a sensor word or a state word. Every other node has
DECAY 0, no incoming edge and no presence, so its field is 0. -/
def SilTables.active (t : SilTables) : List Nat :=
  let mark := fun (acc : Tbl Unit) (l : List Nat) => l.foldl (fun acc a => tput acc a ()) acc
  (mark (mark (mark [] (t.nodes.map Prod.fst)) (t.sensors.map Prod.fst)) (t.states.map Prod.fst)).map Prod.fst

/-- Joined at this address (04 R146). -/
def State.joinedAt (s : State) (a : Nat) : Bool := s.nv.regs.any (fun r => r.addr == some a)

/-- FALLBACK_LEVEL last sent to a node: parameter 1 as last acknowledged, 10 000 by default (04 R154). -/
def State.fallbackLevel (s : State) (a : Nat) : Nat := (tget none (s.ncfg a).params 1).getD 10000

/-! ## Change queues (05 R175-R180) -/

/-- The entry of a node index in a queue. -/
def qFind (q : List QEntry) (idx : Nat) : Option QEntry := q.find? (fun e => e.idx == idx)

/-- The queue without a node's entry. -/
def qDrop (q : List QEntry) (idx : Nat) : List QEntry := q.filter (fun e => e.idx != idx)

/-- A change for a node: it replaces LEVEL and keeps HCN and HEAD mark; a LEVEL equal to SENT removes the entry (R175). -/
def qPut (q : List QEntry) (idx level hcn sent : Nat) : List QEntry :=
  if sent ≠ unk ∧ level = sent then qDrop q idx
  else match qFind q idx with
    | some _ => q.map (fun e => if e.idx == idx then { e with level := level } else e)
    | none => q ++ [⟨idx, level, hcn, none⟩]

/-- Re-evaluate a node's entry against SENT (R175, R181, R182). -/
def qReval (q : List QEntry) (idx sent : Nat) : List QEntry :=
  match qFind q idx with
  | some e => if sent ≠ unk ∧ e.level = sent then qDrop q idx else q
  | none => q

/-- Change the queue of the feeder of an address. -/
def State.onQueue (s : State) (a : Nat) (g : List QEntry → List QEntry) : State :=
  s.onFeeder (a / 2048) (fun f => { f with queue := g f.queue })

/-- Empty every change queue (R187, R188). -/
def State.emptyQueues (s : State) : State :=
  (rangeFrom 0 8).foldl (fun s f => s.onFeeder f (fun x => { x with queue := [] })) s

/-- The magnitude of a change against SENT; SENT unknown counts as 10 000 (R176). -/
def qMag (level sent : Nat) : Nat := if sent = unk then 10000 else if level < sent then sent - level else level - sent

/-- The place of an entry in the order of R176, as a key that compares smallest first: class, then its own order. -/
def qKey (frame ageLimit sent : Nat) (e : QEntry) : List Nat :=
  match e.head with
  | some h => [0, h]
  | none =>
    if ageLimit ≤ frame - e.hcn then [1, e.hcn, e.idx]
    else if sent = unk ∨ sent < e.level then [2, 16383 - qMag e.level sent, e.hcn, e.idx]
    else [3, 16383 - qMag e.level sent, e.hcn, e.idx]

/-! ## SENT and OUT (05 R181-R183) -/

/-- Write SENT of a node, and OUT where a command or the fallback sets it: then a pass under way does not move it (R178, R181; log entry
26). -/
def State.setLevels (s : State) (a sent : Nat) (out : Option Nat) : State :=
  let w := s.sil.tab.state a
  let w := setFld w 50 14 sent
  let w := match out with | some o => setFld w 36 14 o | none => w
  let s := s.onTab (fun t => { t with states := tset t.stDef t.states a w })
  { s with sil := { s.sil with touched := if s.sil.pass.isSome && out.isSome then a :: s.sil.touched else s.sil.touched } }

/-- A group or scene command at its edge: SENT and OUT take the level, or SENT becomes unknown; the entry is re-evaluated
(R181). -/
def State.commandLevel (s : State) (a : Nat) (level : Option Nat) : State :=
  let s := match level with | some l => s.setLevels a l (some l) | none => s.setLevels a unk none
  s.onQueue a (fun q => qReval q (a % 2048) (level.getD unk))

/-- Apply one sensor change. -/
def State.applySensor (s : State) (m : SensorMsg) : State :=
  let s := s.onTab (fun t => { t with sensors := tset 0 t.sensors m.addr ((t.sensor m.addr &&& ~~~ m.clr) ||| m.bits) })
  if m.unknown then
    s.onTab (fun t => { t with states := tset t.stDef t.states m.addr (setFld (t.state m.addr) 50 14 unk) })
  else s

/-- A sensor change from the MAC: at once between passes, at the commit while a pass runs (R158). -/
def State.sensor (s : State) (m : SensorMsg) : State :=
  if s.sil.pass.isSome then { s with sil := { s.sil with held := s.sil.held ++ [m] } } else s.applySensor m

/-- The cases of 04 R154: SENT and OUT take FALLBACK_LEVEL, PRES and DL_VALID clear, the entry is re-evaluated (R182). -/
def State.nodeFallback (s : State) (a : Nat) : State :=
  let l := s.fallbackLevel a
  let s := (s.setLevels a l (some l)).sensor ⟨a, 0x5#32, 0, false⟩
  s.onQueue a (fun q => qReval q (a % 2048) l)

/-! ## The pass (05 R157-R174) -/

/-- The reach of one sub-step at a node: the larger of phi0 and what its incoming edges carry (R169). -/
def SilTables.subStep (t : SilTables) (k : Nat) (phi0 cur : Tbl Nat) (a : Nat) : Nat :=
  (t.incoming a).foldl (fun m e =>
    let src := if edgeDelay e.2 = 0 then tget 0 cur (edgeSrc e.2) else t.field (k + 16 - edgeDelay e.2) (edgeSrc e.2)
    max m (src * edgeW e.2 / 256)) (tget 0 phi0 a)

/-- The field after `n` more sub-steps. -/
def SilTables.subSteps (t : SilTables) (k : Nat) (phi0 : Tbl Nat) (addrs : List Nat) : Nat → Tbl Nat → Tbl Nat
  | 0, cur => cur
  | n + 1, cur =>
    t.subSteps k phi0 addrs n (addrs.foldl (fun m a => tset 0 m a (t.subStep k phi0 cur a)) [])

/-- The field of pass k (R169). -/
def SilTables.passField (t : SilTables) (k substeps : Nat) : Tbl Nat :=
  let addrs := t.active
  let phi0 := addrs.foldl (fun m a => tset 0 m a
    (max (if snPres (t.sensor a) then 65535 else 0) (stPhi (t.state a) * nodeDecay (t.node a) / 65536))) []
  t.subSteps k phi0 addrs substeps phi0

/-- A point of a curve: (PHI, LEVEL). -/
def SilTables.point (t : SilTables) (c p : Nat) : Nat × Nat :=
  let w := tget 0 t.curves (16 * c + p)
  (fld w 0 16, fld w 16 14)

/-- The highest point at or below a field value, looked for downwards (R171). -/
def SilTables.pointAt (t : SilTables) (c phi : Nat) : Nat → Option Nat
  | 0 => none
  | p + 1 => if (t.point c p).1 ≤ phi then some p else t.pointAt c phi p

/-- The curve function (R171); its division truncates toward zero. -/
def SilTables.demand (t : SilTables) (c phi : Nat) : Int :=
  match t.pointAt c phi 16 with
  | none => (t.point c 0).2
  | some a =>
    let p := t.point c a
    if a = 15 then p.2
    else
      let q := t.point c (a + 1)
      (p.2 : Int) + Int.tdiv (((phi : Int) - p.1) * ((q.2 : Int) - p.2)) ((q.1 : Int) - p.1)

/-- UP, DOWN and DEADBAND of a slew profile. -/
def SilTables.slew (t : SilTables) (i : Nat) : Nat × Nat × Nat :=
  let w := tget 0 t.slews i
  (fld w 10 14, fld w 24 14, fld w 0 10)

/-- GOAL and OUT of a managed node in a pass (R172). -/
def SilTables.level (t : SilTables) (a phi : Nat) : Nat × Nat :=
  let n := t.node a
  let d := t.sensor (nodeDlSrc n)
  let red : Int := if snValid d then (min (nodeKday n * snLux d / 256) 10000 : Nat) else 0
  let lim := t.limit a
  let g := max 0 (t.demand (nodeCurve n) phi - red)
  let g := min (limCeil lim : Int) (max (limFloor lim : Int) g)
  let goal := if limOvr lim = unk then g.toNat else limOvr lim
  let out := stOut (t.state a)
  let (up, down, _) := t.slew (nodeSlew n)
  (goal,
    if out = unk then goal
    else if up ≠ 0 ∧ out + up < goal then out + up
    else if down ≠ 0 ∧ goal + down < out then out - down
    else goal)

/-- A node's change after a pass; a new entry records the HCN of its pass as the one it entered the queue at (log entry 34): an entry when R173 asks for one, else none is left (R173, R174). -/
def State.passChange (s : State) (k a goal out : Nat) : State :=
  let sent := stSent (s.sil.tab.state a)
  let (_, _, db) := s.sil.tab.slew (nodeSlew (s.sil.tab.node a))
  let idx := a % 2048
  if !s.joinedAt a then s.onQueue a (fun q => qDrop q idx)
  else if sent = unk || decide (db ≤ qMag out sent) || (out != sent && out == goal) then
    s.onQueue a (fun q => qPut q idx out k sent)
  else s.onQueue a (fun q => qDrop q idx)

/-- Start of pass k after the edge of HCN k: 9 920 or 7 835 µs (R157, table "Pass timing"). -/
def passStartC (p60 : Bool) : Nat := if p60 then 3134000 else 3968000

/-- The HCN whose pass starts now: one pass for each since RUN was entered (R157). Above about 50.4 Hz it is the HCN before the current
one. -/
def State.passNow (s : State) : Option Nat :=
  (s.tb.cuts.find? (fun e => decide (e.2 + passStartC s.tb.p60 = s.now) && decide (s.sil.firstPass ≤ e.1) && s.sil.started != some e.1)).map
    Prod.fst

/-- SILLAGE_PASS: pass k starts in RUN and reads its tables (R157); at another time only time passes. A shutdown lets no pass run (19
R574). -/
def execSillagePass (dt : Dt) (s : State) : Res :=
  let t := s.tick dt
  .next (if t.sil.st != .run || t.sil.pass.isSome || !t.runs .c || t.tb.st == .hold || t.pow.supplyFail || t.pow.cmdShutdown
      || !t.sil.stopBy.isEmpty then t
    else match t.passNow with
    | none => t
    | some k =>
      let tab := t.sil.tab
      let phi := tab.passField k t.sil.substeps
      let outs := tab.active.filterMap (fun a =>
        if nodeManaged (tab.node a) then some (a, (tab.level a (tget 0 phi a)).1, (tab.level a (tget 0 phi a)).2) else none)
      { t with sil := { t.sil with
          pass := some k, started := some k, newPhi := tab.active.map (fun a => (a, tget 0 phi a)), newOut := outs, touched := [], busStops := 0 } })

/-- Write the field of a pass into the node states and its history slot (R165). -/
def SilTables.writeField (t : SilTables) (k : Nat) (phi : List (Nat × Nat)) : SilTables :=
  let h := t.hist.filter (fun e => decide (e.1 / 16384 ≠ k % 16))
  { t with
    states := phi.foldl (fun m e => tmod t.stDef m e.1 (fun w => setFld w 0 16 e.2)) t.states
    hist := phi.foldl (fun m e => tset 0 m (16384 * (k % 16) + e.1) (BitVec.ofNat 16 e.2)) h }

/-- An abandoned pass: the field of HCN k - 1 goes into its history slot, nothing else changes (R186). -/
def SilTables.carryField (t : SilTables) (k : Nat) : SilTables :=
  let h := t.hist.filter (fun e => decide (e.1 / 16384 ≠ k % 16))
  { t with hist := t.states.foldl (fun m e => tset 0 m (16384 * (k % 16) + e.1) (BitVec.ofNat 16 (stPhi e.2))) h }

/-- A change to the engine. -/
def State.onSil (s : State) (g : Sillage → Sillage) : State := { s with sil := g s.sil }

/-- The engine enters STOPPED with its queues empty, and every STOP that waits is answered (R188). -/
def State.silStopped (s : State) : State :=
  let ws := s.sil.stopBy
  let s := (s.onSil (fun g => { g with st := .stopped, stopBy := [] })).emptyQueues
  ws.foldl (fun s w => s.answer ⟨w.1, w.2⟩ 0x0501 .ok []) s

/-- What a pass commits (R159). A node whose OUT a command set meanwhile takes the pass's GOAL alone (log entry 26). -/
def State.commitPass (s : State) (k : Nat) : State :=
  let g := s.sil
  let s := s.onTab (fun t => t.writeField k g.newPhi)
  let s := g.newOut.foldl (fun s e =>
    if g.touched.contains e.1 then
      s.onTab (fun t => { t with states := tmod t.stDef t.states e.1 (fun w => setFld w 22 14 e.2.1) })
    else
      let s := s.onTab (fun t => { t with
        states := tmod t.stDef t.states e.1 (fun w => setFld (setFld w 22 14 e.2.1) 36 14 e.2.2) })
      s.passChange k e.1 e.2.1 e.2.2) s
  s.onSil (fun g => { g with last := k, abandonRun := 0 })

/-- What an abandoned pass does: its record, its count, and FAULTED after three in a row (R186, R187). -/
def State.abandonPass (s : State) (k : Nat) : State :=
  let b := bump 255 s.sil.abandonCnt
  let run := s.sil.abandonRun + 1
  let s := s.onTab (fun t => t.carryField k)
  let s := (s.onSil (fun g => { g with abandonCnt := b.1, abandonRun := run })).stuckIf b.2 (wSillage + 0xC) 24
  let s := s.raiseHw 1 0x11 0xFFF 0x0500 (genPay 0 [(k, 6)])
  if run < 3 then s
  else
    let c := bump 255 s.sil.faultCnt
    let s := (s.onSil (fun g => { g with st := .faulted, faultCnt := c.1, faultAt := k, abandonRun := 0 })).emptyQueues
    (s.stuckIf c.2 (wSillage + 0xC) 8).raiseHw 1 0x11 0xFFF 0x0500 (genPay 0 [])

/-- The engine restarts from its current tables at the edge of t: PHI and the history are zeroed (R192). -/
def State.silStart (s : State) (t : Nat) : State :=
  (s.onTab (fun b =>
    let d := setFld b.stDef 0 16 0
    { b with
      hist := []
      stDef := d
      states := b.states.filterMap (fun e => let w := setFld e.2 0 16 0; if w = d then none else some (e.1, w)) })).onSil
    (fun g => { g with st := .run, rst := t, firstPass := t })

/-- SILLAGE_AUTO_RESTART: 16 HCN after entry to FAULTED, once; not again within 256 HCN of the last such restart (R187). -/
def execSillageAutoRestart (dt : Dt) (s : State) : Res :=
  let t := s.tick dt
  let again := match t.sil.autoAt with | some a => decide (t.sil.faultAt ≤ a + 256) | none => false
  .next (if t.sil.st == .faulted && decide (t.sil.faultAt + 16 ≤ t.tb.hcn) && !again then
      (t.silStart t.tb.hcn).onSil (fun g => { g with autoRestarted := true, autoAt := some t.tb.hcn })
    else t)

/-! ## GRAPH commands -/

/-- STATE for a table write outside STOPPED (R190). -/
def State.notStopped (s : State) : Bool := s.sil.st != .stopped

/-- GRAPH STOP (R188): at once, or once the running pass has committed. A pending restart is cancelled. -/
def execGraphStop (r : Req) (s : State) : Res :=
  hostCmd { cmd := 0x0501, need := .configure } r (fun w t =>
    checked [(t.sil.st == .stopped, .state)]
      (let gone := t.acts.filter (fun a => decide (a.what = ActWhat.graphRestart))
       let t := { t with acts := t.acts.filter (fun a => !decide (a.what = ActWhat.graphRestart)) }
       let t := gone.foldl (fun t a => t.complete a.ses a.seq a.cmd .discarded []) t
       if t.sil.pass.isSome then .later (t.onSil (fun g => { g with stopBy := g.stopBy ++ [(w.ses, w.seq)] }))
       else .ok [] t.silStopped)) s

/-- GRAPH EDGE_WRITE. -/
def execGraphEdgeWrite (r : Req) (first : Nat) (entries : List (BitVec 32)) (s : State) : Res :=
  hostCmd { cmd := 0x0502, need := .configure } r (fun _ t =>
    checked [(t.notStopped, .state),
        (!(decide (1 ≤ entries.length ∧ entries.length ≤ 348 ∧ first + entries.length ≤ 131072)), .range)]
      (.ok [] (t.onTab (fun b => { b with edges := tsetAll 0 b.edges first entries })))) s

/-- GRAPH NODE_WRITE. -/
def execGraphNodeWrite (r : Req) (first : Nat) (entries : List (BitVec 128)) (s : State) : Res :=
  hostCmd { cmd := 0x0503, need := .configure } r (fun _ t =>
    checked [(t.notStopped, .state),
        (!(decide (1 ≤ entries.length ∧ entries.length ≤ 87 ∧ first + entries.length ≤ 16384)), .range)]
      (.ok [] (t.onTab (fun b => { b with nodes := tsetAll 0 b.nodes first entries })))) s

/-- GRAPH CURVE_WRITE: 16 points. -/
def execGraphCurveWrite (r : Req) (curve : Nat) (points : List (BitVec 32)) (s : State) : Res :=
  hostCmd { cmd := 0x0504, need := .configure } r (fun _ t =>
    checked [(t.notStopped, .state), (decide (31 < curve), .range)]
      (.ok [] (t.onTab (fun b => { b with curves := tsetAll 0 b.curves (16 * curve) (points.take 16) })))) s

/-- GRAPH SLEW_WRITE. -/
def execGraphSlewWrite (r : Req) (slew : Nat) (profile : BitVec 64) (s : State) : Res :=
  hostCmd { cmd := 0x0505, need := .configure } r (fun _ t =>
    checked [(t.notStopped, .state), (decide (15 < slew), .range)]
      (.ok [] (t.onTab (fun b => { b with slews := tset 0 b.slews slew profile })))) s

/-- GRAPH CFG_WRITE: the values are validated at RESTART as written (R366); SIL_CFG shows the low 4 bits of SUBSTEPS (05 R191; DESIGN CHOICE for a value above
15, which no rule gives the field, log entry 62). -/
def execGraphCfgWrite (r : Req) (substeps ageLimit : Nat) (s : State) : Res :=
  hostCmd { cmd := 0x0506, need := .configure } r (fun _ t =>
    checked [(t.notStopped, .state)]
      (.ok [] (t.onSil (fun g => { g with substeps := substeps % 256, ageLimit := ageLimit % 256 })))) s

/-- Addresses the degree checks look at: those with a node entry and those some edge names as SRC. -/
def SilTables.checked (t : SilTables) : List Nat :=
  ((t.allEdges.foldl (fun (m : Tbl Unit) e => tput m (edgeSrc e.2.2) ())
    (t.nodes.map (fun n => (n.1, ()))))).map Prod.fst

/-- The first node whose incoming range leaves the table or overlaps a lower node's (R191, check 2). -/
def rangeClash : List (Nat × Nat) → List (Nat × BitVec 128) → Option Nat
  | _, [] => none
  | seen, (a, w) :: rest =>
    let lo := nodeBase w
    let hi := lo + nodeInDeg w
    if nodeInDeg w = 0 then rangeClash seen rest
    else if 131072 < hi || seen.any (fun p => decide (p.1 < hi ∧ lo < p.2)) then some a
    else rangeClash ((lo, hi) :: seen) rest

/-- The pass time in CCLK cycles (R160). -/
def SilTables.passCycles (t : SilTables) (substeps : Nat) : Nat :=
  substeps * (ceilDiv ((t.nodes.map (fun n => nodeInDeg n.2)).foldl (· + ·) 0) 4 + 256) + 4096 + 512

/-- The limit on P in µs (05, SIL_PASS LIMIT): 617 when the selection is 60 Hz, else 412. -/
def passLimitUs (sel : Nat) : Nat := if sel = 1 then 617 else 412

/-- Check a curve profile (R191, check 6). -/
def SilTables.curveBad (t : SilTables) (c : Nat) : Bool :=
  (rangeFrom 0 16).any (fun p => decide (10000 < (t.point c p).2))
    || (rangeFrom 0 15).any (fun p => decide ((t.point c (p + 1)).1 < (t.point c p).1))

/-- The first failing check of R191 as DETAIL: its number in [31:28] and what it names in [27:0] (R367). -/
def State.graphFault (s : State) : Option Nat :=
  let t := s.sil.tab
  let first := fun n (o : Option Nat) => o.map (fun a => n * 2 ^ 28 + a)
  [first 1 ((t.nodes.find? (fun n => decide (64 < nodeInDeg n.2 ∨ 64 < nodeOutDeg n.2))).map Prod.fst),
   first 2 (rangeClash [] t.nodes),
   first 3 (t.checked.find? (fun a => (t.allEdges.filter (fun e => edgeSrc e.2.2 == a)).length != nodeOutDeg (t.node a))),
   first 4 (((t.allEdges.filter (fun e => edgeSrc e.2.2 == e.1)).map (fun e => e.2.1)).min?),
   none,
   first 6 ((rangeFrom 0 32).find? (fun c => t.curveBad c)),
   first 7 ((rangeFrom 0 16).find? (fun i =>
     decide (10000 < (t.slew i).1 ∨ 10000 < (t.slew i).2.1 ∨ 1000 < (t.slew i).2.2))),
   first 8 (if 1 ≤ s.sil.substeps ∧ s.sil.substeps ≤ 8 ∧ 8 ≤ s.sil.ageLimit then none else some 0),
   first 9 (if t.passCycles s.sil.substeps ≤ passLimitUs s.tb.sel * 400 then none else some 0)].findSome? id

/-- GRAPH RESTART: validation, MRAM copy, RESTART_PENDING, bound to t as a configuration action (R191, R192, R367). -/
def execGraphRestart (r : Req) (tgt : Nat) (s : State) : Res :=
  hostCmd { cmd := 0x0507, need := .configure } r (fun w t =>
    checked [(t.notStopped, .state), (t.badTgt tgt, .range)]
      (match t.graphFault with
       | some d => .no .range d
       | none =>
         checked (t.lateTgt tgt 4 ++ [(t.actsFull, .busy)])
          (let b := t.sil.tab
           let t := t.onNv (fun v => v.setGraph ⟨b.edges, b.nodes, b.curves, b.slews, t.sil.substeps, t.sil.ageLimit⟩)
           .deferred tgt ((t.onSil (fun g => { g with st := .restartPending, rst := tgt, autoRestarted := false })).bind
             tgt w 0x0507 .graphRestart)))) s

/-- GRAPH READ: TABLE 0 edges, 1 nodes, 2 states, 3 limits, 4 curve points, 5 slew profiles, 6 sensor words (R367). -/
def execGraphRead (r : Req) (first count table : Nat) (s : State) : Res :=
  hostCmd { cmd := 0x0508, need := .read } r (fun _ t =>
    let b := t.sil.tab
    match table with
    | 0 => paged 131072 first count 4 [] (fun i => [((b.edge i).toNat, 4)]) t
    | 1 => paged 16384 first count 16 [] (fun i => [((b.node i).toNat, 16)]) t
    | 2 => paged 16384 first count 8 [] (fun i => [((b.state i).toNat, 8)]) t
    | 3 => paged 16384 first count 8 [] (fun i => [((b.limit i).toNat, 8)]) t
    | 4 => paged 512 first count 4 [] (fun i => [((tget 0 b.curves i).toNat, 4)]) t
    | 5 => paged 16 first count 8 [] (fun i => [((tget 0 b.slews i).toNat, 8)]) t
    | 6 => paged 16384 first count 4 [] (fun i => [((b.sensor i).toNat, 4)]) t
    | _ => .no .range 0) s

/-- GRAPH STATUS. -/
def execGraphStatus (r : Req) (s : State) : Res :=
  hostCmd { cmd := 0x0509, need := .read } r (fun _ t =>
    .ok ([(t.sil.stat, 4), (t.sil.cfg, 4), (t.passReg, 4), (t.sil.cnt, 4), (t.sil.last, 6), (t.sil.rst, 6)]
      ++ (rangeFrom 0 8).flatMap (fun f =>
        let x := t.feeder f
        [(x.queue.length, 2), (x.age, 1), (b2n x.sat, 1), (t.total (wSillage + 0x60 + 4 * f) 16, 4),
         (t.total (wSillage + 0x60 + 4 * f) 0, 4)])) t) s

end Sys2Proof.Machine
end

