-- ==== Sys2Proof/Machine/Probe.lean ====
section
/-!
DEFINITION. What Accord and Blotter share (08 R262, R263, R265, R275-R281, R285-R296): the level in force, the power model,
requests, planning of probe windows, results and learning.
-/
namespace Sys2Proof.Machine

/-! ## Level in force (R262, R263) -/

/-- PRES_LEVEL last sent to a node (04 R154). -/
def State.presLevel (s : State) (a : Nat) : Nat := (tget none (s.ncfg a).params 0).getD 10000

/-- s_c(i): +1 for an even parity of c and i (04 R153). -/
def walsh (c i : Nat) : Int := if popcount 4 (c &&& i) % 2 = 0 then 1 else -1

/-- The level of a probed node at step i (04 R153). -/
def probeLevel (base delta c i : Nat) : Nat := (clampI 0 10000 (base + walsh c i * delta)).toNat

/-- The probe of a node that runs at HCN k (04 R153). -/
def NodeDyn.probeAt (n : NodeDyn) (k : Nat) : Option Nat :=
  match n.probe with
  | some (start, c, delta, base) => if start ≤ k ∧ k < start + 16 then some (probeLevel base delta c (k - start)) else none
  | none => none

/-- Q and LVL of a node at HCN k: 0 KNOWN, 1 LOCAL, 2 UNKNOWN, 3 ABSENT (R262, R263). -/
def State.inForce (s : State) (a k : Nat) : Nat × Nat :=
  let n := s.node a
  if !s.joinedAt a then (3, 0)
  else
    let l := (n.probeAt k).getD n.force
    if n.localUntil.isSome then (1, max l (s.presLevel a))
    else if n.known && stSent (s.sil.tab.state a) != unk then (0, l)
    else (2, l)

/-! ## The power model (R265) -/

/-- Fields of a model entry. -/
def mdP2 (w : BitVec 64) : Int := sext 16 (fld w 48 16)
def mdP1 (w : BitVec 64) : Int := sext 16 (fld w 32 16)
def mdP0 (w : BitVec 64) : Int := sext 16 (fld w 16 16)
def mdKt (w : BitVec 64) : Int := sext 8 (fld w 8 8)
def mdExp (w : BitVec 64) : Nat := fld w 4 4
def mdPhase (w : BitVec 64) : Nat := fld w 2 2
def mdState (w : BitVec 64) : Nat := fld w 0 2

/-- The denominator of a modelled power: L is over 10 000 and KT over 16 384. -/
def modelDen : Nat := 100000000 * 16384

/-- The modelled power of an entry at a temperature and a level, in mW over `modelDen` (R265). -/
def modelNum (w : BitVec 64) (temp level : Nat) : Int :=
  let f : Int := if temp = 0 then 16384 else 16384 + mdKt w * ((temp : Int) - 89)
  (mdP0 w * 100000000 + mdP1 w * 10000 * level + mdP2 w * (level * level : Nat)) * (2 ^ mdExp w : Nat) * f

/-- The model entry of a node in force. -/
def State.model (s : State) (a : Nat) : BitVec 64 := tget 0 s.accord.models a

/-- The modelled power of a node at a level. -/
def State.power (s : State) (a level : Nat) : Int := modelNum (s.model a) (s.node a).temp level

/-! ## Blotter's registers and node status -/

/-- Fields of BC_CFG and BR_CFG (table). -/
def Blotter.auto (b : Blotter) : Bool := bit b.bcCfg 31
def Blotter.sweepInt (b : Blotter) : Nat := fld b.bcCfg 21 10
def Blotter.delta (b : Blotter) : Nat := fld b.bcCfg 11 10
def Blotter.deltaMin (b : Blotter) : Nat := fld b.bcCfg 4 7
def Blotter.rate (b : Blotter) : Nat := fld b.bcCfg 0 4
def Blotter.nmK (b : Blotter) : Nat := fld b.brCfg 16 5
def Blotter.devPct (b : Blotter) : Nat := fld b.brCfg 0 6

/-- Blotter's state change. -/
def State.onBlot (s : State) (g : Blotter → Blotter) : State := { s with blot := g s.blot }

/-- Noise floor of a phase, and whether it is valid (R284). -/
def State.nf (s : State) (x : Nat) : Nat := (tget {} s.blot.noise x).nf
def State.nfValid (s : State) (x : Nat) : Bool := decide (64 ≤ (tget {} s.blot.noise x).samples.length)

/-- The status word of a node. -/
def State.bstat (s : State) (a : Nat) : BitVec 32 := tget 0 s.blot.status a

/-- Change the status word; it goes to MRAM with the model table (R266). -/
def State.onBstat (s : State) (a : Nat) (g : BitVec 32 → BitVec 32) : State :=
  (s.onBlot (fun b => { b with status := tmod 0 b.status a g })).onNv (fun v => { v with modelsDirty := true })

/-- FAILED of a node (R289). -/
def State.failed (s : State) (a : Nat) : Bool := bit (s.bstat a) 27

/-! ## Requests (R277) -/

/-- 24 h as half-cycles of the profile (R277). -/
def State.dayHcn (s : State) : Nat := if s.tb.p60 then 10368000 else 8640000

/-- Queue a request: one per node; a new one merges with it, but not with one that was cancelled while its probe runs on (R277, 11 R371). Answers its
identifier. -/
def State.request (s : State) (a ses deadline delta prio : Nat) : Nat × State :=
  match s.blot.reqs.find? (fun q => q.addr == a && !q.quiet) with
  | some q =>
    (q.id, s.onBlot (fun b => { b with reqs := b.reqs.map (fun x => if x.id == q.id then
      { x with
        deadline := min x.deadline deadline
        delta := if ses ≠ 0 ∧ delta ≠ 0 then delta else x.delta
        prio := min x.prio prio
        ses := if ses ≠ 0 then ses else x.ses } else x) }))
  | none =>
    (s.blot.nextReq, s.onBlot (fun b => { b with
      reqs := b.reqs ++ [{ id := b.nextReq, addr := a, ses := ses, deadline := deadline, delta := delta, prio := prio }]
      nextReq := if b.nextReq = 4294967295 then 1 else b.nextReq + 1 }))

/-- Change one request. -/
def State.onReq (s : State) (id : Nat) (g : PReq → PReq) : State :=
  s.onBlot (fun b => { b with reqs := b.reqs.map (fun q => if q.id == id then g q else q) })

/-- Remove one request. -/
def State.dropReq (s : State) (id : Nat) : State := s.onBlot (fun b => { b with reqs := b.reqs.filter (fun q => q.id != id) })

/-- The model's own field of the window a request was last commanded for (R296). -/
def PReq.ran (q : PReq) (start : Nat) : PReq := { q with lastStart := start }

/-- Defer a request with a cause; it is retried no sooner than 256 HCN later (R280). A cancelled one goes (11 R371). -/
def State.deferReq (s : State) (id cause : Nat) : State :=
  if s.blot.reqs.any (fun q => q.id == id && q.quiet) then s.dropReq id
  else s.onReq id (fun q => { q with cause := cause, retryAt := s.tb.hcn + 256, start := none, code := 0 })

/-! ## Results (R286-R289, R296) -/

/-- Everything a result record holds. -/
structure ResultRec where
  req : Nat
  addr : Nat
  code : Nat := 0
  phase : Nat := 0
  outcome : Nat
  cause : Nat := 0
  attempt : Nat := 1
  ack : Nat := 15
  start : Nat := 0
  base : Nat := 0
  delta : Nat := 0
  e : Int := 0
  r : Int := 0
  nf : Nat := 0
  deriving DecidableEq, Repr

/-- The record's 256 bits (table "Result record"). -/
def ResultRec.word (x : ResultRec) : BitVec 256 :=
  BitVec.ofNat 256 (pack [(224, 32, x.nf), (192, 32, unsext 32 x.r), (160, 32, unsext 32 x.e), (146, 14, x.delta),
    (132, 14, x.base), (84, 48, x.start), (80, 4, x.ack), (76, 4, x.attempt), (72, 4, x.cause), (68, 4, x.outcome),
    (66, 2, x.phase), (62, 4, x.code), (48, 14, x.addr), (0, 32, x.req)])

/-- Write a result to the history, which holds the newest 4 096, and to the junction's results area, and notify the subscribers unless
its request was cancelled (R296, 11 R371). -/
def State.result (s : State) (x : ResultRec) (quiet : Bool) : State :=
  let s := s.onBlot (fun b => { b with results := (x.word :: b.results).take 4096 })
  let s : State := { s with jnc := { s.jnc with
    results := tset 0 s.jnc.results s.jnc.resNext x.word, resNext := (s.jnc.resNext + 1) % 512 } }
  let s := s.onBstat x.addr (fun w => setFld w 28 4 x.outcome)
  if quiet then s
  else s.notifyClass 3 0x0980 (if x.outcome ≤ 3 then .ok else .notMeasured) [(x.word.toNat, 32)]

/-- Learnt coefficients in range: while P1 or P2 leaves 16 bits, EXP rises and P0, P1 and P2 are halved; none when EXP would
pass 15 (R293). -/
def normModel : Nat → Int → Int → Int → Nat → Option (Int × Int × Int × Nat)
  | 0, _, _, _, _ => none
  | n + 1, p0, p1, p2, e =>
    if -32768 ≤ p1 ∧ p1 ≤ 32767 ∧ -32768 ≤ p2 ∧ p2 ≤ 32767 then some (p0, p1, p2, e)
    else if 15 ≤ e then none
    else normModel n (roundDiv p0 2) (roundDiv p1 2) (roundDiv p2 2) (e + 1)

/-- A free value as a signed number. -/
def State.drawInt (s : State) : Int × State :=
  let v := Config.freeNat s.fresh
  ((if v % 2 = 0 then (v / 2 : Nat) else -((v / 2 : Nat) : Int)), { s with fresh := s.fresh + 1 })

/-- Write a model entry that applies from the interval of HCN t; it goes to MRAM within 60 s (R266). -/
def State.setModelFrom (s : State) (t a : Nat) (w : BitVec 64) : State :=
  ({ s with accord := { s.accord with
      models := tset 0 s.accord.models a w
      modelWas := (t, a, s.model a) :: s.accord.modelWas.filter (fun e => decide (s.tb.hcn ≤ e.1 + 4)) } }).onNv
    (fun v => { v with modelsDirty := true })

/-- The model entry that applies to the interval of HCN k: what later writes replaced (R266, R293). -/
def State.modelFor (s : State) (a k : Nat) : BitVec 64 :=
  ((s.accord.modelWas.filter (fun e => e.2.1 == a)).takeWhile (fun e => decide (k < e.1))).foldl (fun _ e => e.2.2) (s.model a)

/-- Write a model entry from the next interval on (R293). -/
def State.setModel (s : State) (a : Nat) (w : BitVec 64) : State :=
  s.setModelFrom (s.tb.hcn + 1) a w

/-- The denominator of an observation's coefficients: levels over 10 000, halved, and KT over 16 384. -/
def phiDen : Int := 2 * 100000000 * 16384

/-- phi of an observation as numerators over `phiDen` (R292). -/
def phiNum (w : BitVec 64) (temp hi lo : Nat) : Int × Int :=
  let f : Int := (2 ^ mdExp w : Nat) * (if temp = 0 then 16384 else 16384 + mdKt w * ((temp : Int) - 89))
  (f * ((hi : Int) - lo) * 10000, f * ((hi * hi : Nat) - (lo * lo : Nat) : Int))

/-- The information matrix that a fit starts from: a free one, positive definite (R292; log entry 37). -/
def State.freeInfo (s : State) : (Int × Int × Int) × State :=
  let n := Config.freeNat s.fresh
  let (b, s) := ({ s with fresh := s.fresh + 1 } : State).drawInt
  let a : Int := n + 1
  ((a, b, b * b / a + 1 + (Config.freeNat s.fresh : Nat)), { s with fresh := s.fresh + 1 })

/-- A step of recursive least squares with the forgetting factor 0.98: the matrix after it, and the numerators and the denominator by
which P1 and P2 move (R292). -/
def rlsStep (info : Int × Int × Int) (scale : Nat) (u : Int × Int) (y p1 p2 : Int) : (Int × Int × Int) × (Int × Int) × Int :=
  let k : Int := (50 ^ (scale + 1) : Nat)
  let a := 49 * info.1 + k * u.1 * u.1
  let b := 49 * info.2.1 + k * u.1 * u.2
  let c := 49 * info.2.2 + k * u.2 * u.2
  let err := y * phiDen - (u.1 * p1 + u.2 * p2)
  ((a, b, c), (k * (c * u.1 - b * u.2) * err, k * (a * u.2 - b * u.1) * err), a * c - b * b)

/-- One observation of the fit (R292, R293), the first of a LEARNING that begins anew counting as OBS 1 (R296): y is R, phi that of the two levels taken, and the fit goes on from the entry's own
coefficients. The matrix it starts from is not stated and is a free value (log entry 37). -/
def State.learn (s : State) (a hi lo : Nat) (y : Int) (restart : Bool) : State :=
  let w := s.model a
  let f := tget {} s.blot.fits a
  if mdState w = 3 || f.stopped then s else
  let anew := restart || mdState w == 0
  let mids := (hi + lo) / 2 :: (if anew then [] else f.mids)
  let (info, s) := match f.info with | some m => (m, s) | none => s.freeInfo
  let x := rlsStep info f.scale (phiNum w (s.node a).temp hi lo) y (mdP1 w) (mdP2 w)
  let p1 := roundDiv (mdP1 w * x.2.2 + x.2.1.1) x.2.2
  let p2 := roundDiv (mdP2 w * x.2.2 + x.2.1.2) x.2.2
  match normModel 40 (mdP0 w) p1 p2 (mdExp w) with
  | none => (s.onBlot (fun b => { b with fits := tset {} b.fits a { f with stopped := true } })).raiseGen .d 0x09 (0x01200000 + 8 * a) []
  | some (q0, q1, q2, e) =>
    let span := mids.foldl max 0 - mids.foldl min 10000
    let st := if mdState w = 2 && !restart then 2 else if 4 ≤ mids.length ∧ 2000 ≤ span then 2 else 1
    let w' := setFld (setFld (setFld (setFld (setFld w 48 16 (unsext 16 q2)) 32 16 (unsext 16 q1)) 16 16 (unsext 16 q0)) 4 4 e) 0 2 st
    let s := s.setModel a w'
    let obs := if anew then 0 else fld (s.bstat a) 16 4
    let n := bump 15 obs
    let s := (s.onBstat a (fun b => setFld b 16 4 n.1))
    let s := if n.2 then s.stuckTable 0x24 (0x01260800 + 4 * a) 16 else s
    let g : Int := (4 ^ (e - mdExp w) : Nat)
    let f' : Fit := { mids := if st = 2 then [] else mids, info := some (g * x.1.1, g * x.1.2.1, g * x.1.2.2), scale := f.scale + 1 }
    s.onBlot (fun b => { b with fits := tset {} b.fits a f' })

/-- Set or clear FAILED and SUSPECT. -/
def State.setFailed (s : State) (a : Nat) (b : Bool) : State :=
  (s.onBstat a (fun w => setBit w 27 b)).onBlot (fun x => { x with
    failedAt := tset 0 x.failedAt a (if b then (if s.failed a then tget 0 x.failedAt a else s.tb.hcn) else 0) })
def State.setSuspect (s : State) (a : Nat) (b : Bool) : State := s.onBstat a (fun w => setBit w 26 b)

/-- Remove a probe of a window. -/
def State.dropProbe (s : State) (req : Nat) : State :=
  s.onBlot (fun b => { b with probes := b.probes.filter (fun p => p.req != req) })

/-- The final result of a commanded probe, and what follows it: a confirmation, a re-queued request, deferred where a cause of
the table stands (R280), learning (R286-R289, R292). SUSPECT clears with every result that ends the wait for confirmation (log
entry 59). -/
def State.finishProbe (s : State) (p : Probe) (outcome cause ack : Nat) (j : Judged) : State :=
  match s.blot.reqs.find? (fun q => q.id == p.req) with
  | none => s.dropProbe p.req
  | some q =>
    let hi := probeLevel p.base p.delta 15 0
    let lo := probeLevel p.base p.delta 1 1
    let x : ResultRec := { req := p.req, addr := p.addr, code := p.code, phase := j.phase, outcome := outcome,
                           cause := cause, attempt := p.attempt, ack := ack, start := p.start, base := p.base,
                           delta := p.delta, e := j.e, r := j.r, nf := j.nf }
    let s := (s.result x q.quiet).dropProbe p.req
    let s := if outcome ≤ 3 then s.onBstat p.addr (fun w => setFld w 0 16 0) else s
    let neg := decide (j.r < j.e)
    if outcome = 1 then
      (((s.setFailed p.addr false).setSuspect p.addr false).learn p.addr hi lo j.r false).dropReq q.id
    else if 4 ≤ outcome then
      if q.quiet then s.dropReq q.id
      else s.onReq q.id (fun q => { q.ran p.start with
        start := none, code := 0, cause := cause, retryAt := if cause = 0 then 0 else s.tb.hcn + 256 })
    else if p.attempt = 1 then
      let next := ((s.blot.reqs.find? (fun o => q.quiet && o.addr == p.addr && o.id != q.id)).map PReq.id).getD q.id
      let s := if next = q.id then s else s.dropReq q.id
      (s.setSuspect p.addr true).onReq next (fun q => { q.ran p.start with
        prio := 1, attempt := 2, start := none, code1 := p.code, neg := neg, out1 := outcome, cause := 0, retryAt := 0
        quiet := false })
    else if outcome = 2 && q.out1 == 2 then
      (((s.setFailed p.addr true).setSuspect p.addr false).raiseFw .d 0x0901 (leBytes 32 x.word.toNat)).dropReq q.id
    else if outcome = 3 && q.out1 == 3 && q.neg == neg then
      (((s.setSuspect p.addr false).raiseFw .d 0x0902 (leBytes 32 x.word.toNat)).learn p.addr hi lo j.r (mdState (s.model p.addr) == 2)).dropReq q.id
    else (s.setSuspect p.addr false).dropReq q.id

/-- The RESULT of a node's ACK decides a judged probe (R286): DONE, ABORTED, NOT_STARTED; another one counts as no ACK. -/
def State.ackJudged (s : State) (p : Probe) (j : Judged) (result : Nat) : State :=
  match result with
  | 0 => s.finishProbe p j.outcome 0 0 j
  | 5 => s.finishProbe p 5 8 5 j
  | 6 => s.finishProbe p 6 0 6 j
  | n => s.finishProbe p 7 0 n j

/-- The module's own bookkeeping ends a probe in its window: ABORTED with cause 9 at once (R287). -/
def State.cutProbe (s : State) (a k : Nat) : State :=
  match s.blot.probes.find? (fun p => p.addr == a && decide (p.start ≤ k ∧ k < p.start + 16)) with
  | some p => s.finishProbe p 5 9 15 ⟨0, 0, 0, 0, 0⟩
  | none => s

/-! ## Planning (R276, R278-R281) -/

/-- The order of assignment of codes (R276). -/
def codeOrder : List Nat := [3, 5, 7, 9, 11, 13, 15, 6, 10, 12, 14, 2, 4, 8, 1]

/-- The phase indices of a node: its own, or all three of its feeder while PHASE is unknown (R278). -/
def State.phasesOf (s : State) (a : Nat) : List Nat :=
  match mdPhase (s.model a) with
  | 0 => rangeFrom (3 * (a / 2048)) 3
  | p => [3 * (a / 2048) + p - 1]

/-- Codes in use on a phase in the window of a START: those of every probe planned for it, ended or not (R275, R284). -/
def State.codesUsed (s : State) (start x : Nat) : List Nat :=
  (s.blot.plan.filter (fun p => p.1 == start && p.2.2.2.contains x)).map (fun p => p.2.2.1)

/-- A code that no other node of a node's phases uses in a window. -/
def State.codeFree (s : State) (a start c : Nat) : Bool := (s.phasesOf a).all (fun x => !(s.codesUsed start x).contains c)

/-- The code a node gets in a window: the first free one in order, and not the one of attempt 1 (R276, R289); code 1 only when
the other 14 are in use (R276). -/
def State.freeCode (s : State) (a start avoid : Nat) : Option Nat :=
  codeOrder.find? (fun c => c != avoid && s.codeFree a start c && (c != 1 || codeOrder.all (fun d => d == 1 || !s.codeFree a start d)))

/-- A node can be probed (R278), its code apart; a node of a version the module does not speak gets no PROBE (04 R148). -/
def State.probeable (s : State) (a : Nat) : Bool :=
  let w := s.sil.tab.state a
  let x := s.feeder (a / 2048)
  s.joinedAt a && !(s.node a).incompatible && (s.node a).localUntil.isNone && !snPres (s.sil.tab.sensor a)
    && (qFind x.queue (a % 2048)).isNone && stSent w != unk && stOut w == stSent w && fld w 22 14 == stSent w
    && decide (16 ≤ x.sinceSat) && x.active

/-- Δ_eff of a request (R279). -/
def State.deltaEff (s : State) (q : PReq) : Nat :=
  let base := stSent (s.sil.tab.state q.addr)
  let d := if q.delta = 0 then s.blot.delta * 10 else q.delta
  10 * (min d (min base (10000 - base)) / 10)

/-- Why a request cannot be commanded now; 0 when it can (R278, R280). -/
def State.planCause (s : State) (q : PReq) (start : Nat) : Nat :=
  let base := stSent (s.sil.tab.state q.addr)
  let d := s.deltaEff q
  if !s.probeable q.addr then 6
  else if (s.freeCode q.addr start q.code1).isNone then 5
  else if d < s.blot.deltaMin * 10 then 2
  else if (s.phasesOf q.addr).any (fun x => !s.nfValid x) then 3
  else if (s.phasesOf q.addr).any (fun x => decide (s.power q.addr (base + d) - s.power q.addr (base - d)
      < 2 * (modelDen : Int) * (s.blot.nmK * s.nf x : Nat))) then 1
  else 0

/-- Command a probe: its link command, its action at START, its place in the window (R281). -/
def State.commandProbe (s : State) (q : PReq) (start c : Nat) : State :=
  let a := q.addr
  let d := s.deltaEff q
  let base := stSent (s.sil.tab.state a)
  let ord := s.order
  let s := s.bind start ⟨0, 0⟩ 0 (.probe a c d base q.id q.attempt)
  let s := s.onFeeder (a / 2048) (fun x => { x with
    cmds := x.cmds ++ [{ id := ord, order := ord, accHcn := s.tb.hcn, t := start, item := .probe (a % 2048) c (d / 10) start }] })
  let s := s.onReq q.id (fun q => { q with start := some start, code := c, cause := 0 })
  s.onBlot (fun b => { b with
    probes := b.probes ++ [⟨q.id, a, c, d, base, start, q.attempt, none, none⟩]
    plan := b.plan.filter (fun p => decide (s.tb.hcn ≤ p.1 + 64)) ++ [(start, a, c, s.phasesOf a)] })

/-- A node in LEARNING whose base lies at least 2 000 from its earlier observations (R292). -/
def State.preferred (s : State) (a : Nat) : Bool :=
  let base := stSent (s.sil.tab.state a)
  mdState (s.model a) == 1 && (tget {} s.blot.fits a).mids.all (fun m => decide (base + 2000 ≤ m ∨ m + 2000 ≤ base))

/-- Requests in the order of R277: by priority; host requests then by deadline, the AUTO sweep by the longest unjudged; then the nodes
that R292 prefers. -/
def State.reqKey (s : State) (q : PReq) : List Nat :=
  [q.prio, if q.prio = 2 then q.deadline else if q.prio = 5 then 65535 - fld (s.bstat q.addr) 0 16 else 0,
   if s.preferred q.addr then 0 else 1, q.deadline, q.id]

/-- One request at planning. -/
def State.planOne (s : State) (start : Nat) (id : Nat) : State :=
  match s.blot.reqs.find? (fun q => q.id == id) with
  | none => s
  | some q =>
    let f := q.addr / 2048
    let n := (s.blot.probes.filter (fun p => p.start == start && p.addr / 2048 == f)).length
    if s.blot.rate ≤ n || s.blot.probes.any (fun p => p.addr == q.addr) then s
    else match s.planCause q start with
      | 0 => match s.freeCode q.addr start q.code1 with
        | some c => s.commandProbe q start c
        | none => s
      | c => s.deferReq id c

/-- The START that a plan made at HCN h uses: a multiple of 16, at least h + 48 (R275, R281). -/
def planStart (h : Nat) : Nat := 16 * ceilDiv (h + 48) 16

/-- Planning at an HCN (R278, R281). -/
def State.planProbes (s : State) : State :=
  let h := s.tb.hcn
  let ready := s.blot.reqs.filter (fun q => q.start.isNone && q.retryAt == 0 && decide (h < q.deadline))
  (sortBy s.reqKey ready).foldl (fun s q => s.planOne (planStart h) q.id) s

/-- A PROBE without its first transmission by frame START - 8 is withdrawn and deferred with cause 5, once that frame's block has closed
(R281). -/
def State.withdrawProbes (s : State) : State :=
  let h := s.tb.hcn
  let still := fun (p : Probe) => let x := s.feeder (p.addr / 2048)
    (x.live && x.frame + 8 == p.start && !x.closed) || x.owed == some (p.start - 8)
  (s.blot.probes.filter (fun p => decide (h < p.start ∧ p.start ≤ h + 7) && !still p)).foldl (fun s p =>
    let f := p.addr / 2048
    let unsent := (s.feeder f).cmds.any (fun c => c.sent == 0 && (match c.item with
      | .probe i k _ st => i == p.addr % 2048 && k == p.code && st == p.start
      | _ => false))
    if unsent then
      let s := s.onFeeder f (fun x => { x with cmds := x.cmds.filter (fun c => match c.item with
        | .probe i k _ st => !(i == p.addr % 2048 && k == p.code && st == p.start)
        | _ => true) })
      let s := { s with acts := s.acts.filter (fun a => match a.what with | .probe _ _ _ _ rq _ => !(rq == p.req && a.t == p.start) | _ => true) }
      let s := s.onBlot (fun b => { b with plan := b.plan.filter (fun e => !(e.1 == p.start && e.2.1 == p.addr)) })
      (s.dropProbe p.req).deferReq p.req 5
    else s) s

/-- The probe action at START: the node is under probe, from the level in force (R153, R262). A locally raised node does not
start it (04 R153). -/
def State.probeStart (s : State) (a c delta start req : Nat) : State :=
  let n := s.node a
  let live := s.blot.probes.any (fun p => p.req == req && p.start == start)
  let s := s.onBlot (fun b => { b with probes := b.probes.map (fun p =>
    if p.req == req && p.start == start then { p with base := n.force } else p) })
  let s := s.onFeeder (a / 2048) (fun x => { x with cmds := x.cmds.filter (fun k => match k.item with
    | .probe i cc _ st => !(i == a % 2048 && cc == c && st == start)
    | _ => true) })
  if n.localUntil.isSome || !live then s else s.onNode a (fun n => { n with probe := some (start, c, delta, n.force) })

end Sys2Proof.Machine
end

