-- ==== Sys2Proof/Machine/Accord.lean ====
section
/-!
DEFINITION. Accord (08 R262-R274): level snapshots, attribution of each interval to the nodes, accounts and phase blocks,
residual alarms, restores, and the ACCORD group (11, table "ACCORD commands", R370).
-/
namespace Sys2Proof.Machine

/-- A snapshot entry of an address that is not joined (R262). -/
def absent : BitVec 16 := 0xC000

/-! ## Level snapshots (R262-R264) -/

/-- The C-region publishes the level snapshot of the newest HCN in its junction buffer and rings bit 0 of the D doorbell (R262). -/
def State.publishSnap (s : State) : State :=
  let k := s.tb.hcn
  let base := 16384 * (k % 2)
  let keep := s.jnc.snap.filter (fun e => !(decide (base ≤ e.1 ∧ e.1 < base + 16384)))
  let addrs := s.nv.regs.filterMap Reg.addr
  let t := addrs.foldl (fun t a =>
    let q := s.inForce a k
    tset absent t (base + a) (BitVec.ofNat 16 (q.1 * 16384 + q.2 % 16384))) keep
  ({ s with jnc := { s.jnc with snap := t, snapHcn := some k, snapDue := true } } : State).ringDb .d 1

/-- LEVEL_SNAPSHOT_COPY: the D-region takes the doorbell and copies the published snapshot into the ring (R264). -/
def execLevelSnapshotCopy (dt : Dt) (s : State) : Res :=
  let s := s.tick dt
  .next (match s.jnc.snapHcn with
  | none => s
  | some k =>
    if !s.jnc.snapDue || !s.runs .d then s else
    let base := 16384 * (k % 2)
    let slot := 16384 * (k % 4)
    let keep := s.accord.ring.filter (fun e => !(decide (slot ≤ e.1 ∧ e.1 < slot + 16384)))
    let new := s.jnc.snap.filter (fun e => decide (base ≤ e.1 ∧ e.1 < base + 16384))
    let s := s.clearDb .d 1
    { s with
      jnc := { s.jnc with snapDue := false }
      accord := { s.accord with
        ring := new.foldl (fun t e => tset absent t (slot + (e.1 - base)) e.2) keep
        ringHcn := (k :: s.accord.ringHcn.filter (fun j => j % 4 != k % 4)).take 4 } })

/-- The nodes of a feeder in a snapshot of the ring: address, Q and LVL (R262, R264). -/
def State.snapNodes (s : State) (k f : Nat) : List (Nat × Nat × Nat) :=
  let base := 16384 * (k % 4) + 2048 * f
  (s.accord.ring.filter (fun e => decide (base ≤ e.1 ∧ e.1 < base + 2048))).map (fun e =>
    (2048 * f + (e.1 - base), fld e.2 14 2, fld e.2 0 14))

/-- The snapshot that serves interval k and whether it is held over: its own, or the newest there is, with KNOWN entries as
UNKNOWN (R264). -/
def State.snapFor (s : State) (k f : Nat) : List (Nat × Nat × Nat) × Bool :=
  if s.accord.ringHcn.contains k then (s.snapNodes k f, false)
  else match s.accord.ringHcn with
    | [] => ([], true)
    | j :: _ => ((s.snapNodes j f).map (fun n => (n.1, if n.2.1 = 0 then 2 else n.2.1, n.2.2)), true)

/-! ## Attribution (R267-R269) -/

/-- What the attribution of one phase and interval changes. Energies in units of 2^-32 mWh; a share names the node, its energy
and how much of it fell under a level that was LOCAL or UNKNOWN. -/
structure Attrib where
  shares : List (Nat × Int × Int) := []
  attr : Int := 0
  res : Int := 0
  unmet : Int := 0
  g : Option Nat := none
  deriving DecidableEq, Repr

/-- The modelled energy of nodes over one interval: (address, numerator, its part under an uncertain level); the numerators are
over `2 × modelDen × 1.44 × 10^12`. -/
abbrev Modelled := List (Nat × Int × Int)

/-- The denominator of a modelled energy. -/
def modelledDen : Int := 2 * modelDen * 1440000000000

/-- The shares of a phase (R267): e is its signed energy. -/
def attribShares (measured : Bool) (e : Int) (tol : Nat) (ms : Modelled) : Attrib :=
  let sum : Int := ms.foldl (fun t m => t + m.2.1) 0
  if !measured then { unmet := roundDiv sum modelledDen }
  else if e ≤ 0 then { res := e, unmet := roundDiv sum modelledDen }
  else if sum = 0 then { res := e }
  else
    let gn : Int := if sum < 0 ∨ e * modelledDen * 100 < (100 - tol : Int) * sum then 100 - tol
      else if (100 + tol : Int) * sum < e * modelledDen * 100 then 100 + tol else e * modelledDen
    let gd : Int := if gn = e * modelledDen then sum else 100
    let shares := ms.map (fun m => (m.1, roundDiv (gn * m.2.1) (gd * modelledDen), roundDiv (gn * m.2.2) (gd * modelledDen)))
    let attr := shares.foldl (fun t x => t + x.2.1) 0
    { shares := shares, attr := attr, res := e - attr, g := some (roundDiv (gn * 32768) gd).toNat }

/-- Add to a 96-bit field of a phase block; a negative amount takes away, modulo 2^96 (log entry 37). -/
def pbAdd (w : BitVec 512) (lo : Nat) (d : Int) : BitVec 512 := setFld w lo 96 (unsext 96 ((fld w lo 96 : Nat) + d))

/-- A phase block after an attribution (table "Phase block"). -/
def Attrib.block (a : Attrib) (w : BitVec 512) : BitVec 512 :=
  let w := pbAdd w 0 a.attr
  let w := if 0 ≤ a.res then pbAdd w 96 a.res else pbAdd w 192 (-a.res)
  let w := pbAdd w 288 a.unmet
  match a.g with
  | some g => setFld w 496 16 g
  | none => w

/-- UNC of an account with whole mWh added: it sticks at its limit and does not fall below 0 (table "Node account"). -/
def uncAdd (w : BitVec 128) (unc : Int) : Nat :=
  if fld w 96 32 = 0xFFFFFFFF then 0xFFFFFFFF else (clampI 0 0xFFFFFFFF ((fld w 96 32 : Nat) + unc)).toNat

/-- A node account with energy and whole mWh of UNC added; ENERGY and FRAC count modulo 2^96 (table "Node account"). -/
def acctAdd (w : BitVec 128) (d : Int) (unc : Int) : BitVec 128 :=
  let e := unsext 96 (((fld w 0 64) * 4294967296 + fld w 64 32 : Nat) + d)
  BitVec.ofNat 128 (pack [(96, 32, uncAdd w unc), (64, 32, e), (0, 64, e / 4294967296)])

/-- Accounts and phase blocks with an attribution taken in; `unc` gives each node's whole mWh of UNC. -/
def Totals.attrib (t : Totals) (x : Nat) (a : Attrib) (unc : List (Nat × Int)) : Totals :=
  { t with
    accounts := a.shares.foldl (fun l n =>
      tmod 0 l n.1 (fun w => acctAdd w n.2.1 (((unc.find? (fun u => u.1 == n.1)).map Prod.snd).getD 0))) t.accounts
    phases := tmod 0 t.phases x a.block }

/-- An attribution of an interval of HCN k: in the live accounts and in each copy that holds the state before a later HCN
(R267, R271, R272). -/
def State.applyAttrib (s : State) (x k : Nat) (a : Attrib) : State :=
  let c := s.accord
  let frac := fun (n : Nat × Int × Int) => ((tget 0 c.uncFrac n.1 : Nat) : Int) + n.2.2
  let un := a.shares.filter (fun n => n.2.2 != 0)
  let unc := un.map (fun n => (n.1, frac n / 4294967296))
  let full := unc.filter (fun n => let w := tget 0 c.accounts n.1
    fld w 96 32 != 0xFFFFFFFF && uncAdd w n.2 == 0xFFFFFFFF)
  let live := ({ accounts := c.accounts, phases := c.phases : Totals }).attrib x a unc
  let s : State := { s with
    accord := { c with
      accounts := live.accounts
      phases := live.phases
      uncFrac := un.foldl (fun t n => tset 0 t n.1 ((frac n) % 4294967296).toNat) c.uncFrac
      snap := if c.snap.st = SnapState.filling ∧ k < c.snap.t then { c.snap with tot := c.snap.tot.attrib x a unc } else c.snap }
    meter := { s.meter with
      saveTot := match s.meter.saveFill with
        | some t => if k < t then s.meter.saveTot.attrib x a unc else s.meter.saveTot
        | none => s.meter.saveTot } }
  full.foldl (fun s n => s.stuckTable 0x23 (0x0122000C + 16 * n.1) 0) s

/-- The modelled energies of the nodes of a phase over an interval (R265, R267, R268): a failed node at p0 alone (R290), each half of a
MERGED interval by its own snapshot. -/
def State.modelled (s : State) (f p k dur : Nat) (merged : Bool) : Modelled :=
  let now := (s.snapFor k f).1
  let prev := if merged then (s.snapFor (k - 1) f).1 else now
  let here := fun (l : List (Nat × Nat × Nat)) => l.filter (fun n => n.2.1 != 3 && mdPhase (s.modelFor n.1 k) == p + 1)
  let now := here now
  let prev := here prev
  let addrs := now.map Prod.fst ++ (prev.map Prod.fst).filter (fun a => !now.any (fun n => n.1 == a))
  addrs.map (fun a =>
    let w := s.modelFor a k
    let dead := s.failed a && decide (tget 0 s.blot.failedAt a < k)
    let half := fun (l : List (Nat × Nat × Nat)) => match l.find? (fun n => n.1 == a) with
      | some n =>
        let e := modelNum w (s.node a).temp (if dead then 0 else n.2.2) * dur * 4294967296
        (e, if n.2.1 = 0 then 0 else e)
      | none => (0, 0)
    let x := half prev
    let y := half now
    (a, x.1 + y.1, x.2 + y.2))

/-- A phase is not measured in an interval (R268): NOLOAD, REMAP, or CHFAIL with the phase reading 0. -/
def unmeasured (w : BitVec 640) (p : Nat) : Bool :=
  let fl := recFlags w
  fl.testBit p || fl.testBit 10 || (fl.testBit 15 && decide (recPh w p = ({} : Ph)))

/-- The signed energy of a phase in a record. -/
def recEnergy (w : BitVec 640) (p : Nat) : Int :=
  let x := (recPh w p).p
  let e : Nat := energy x.natAbs (recDur w)
  if x < 0 then -(e : Int) else e

/-! ## Residual alarm (R273) -/

/-- The RESIDUAL notification and its record. -/
def State.residualNote (s : State) (x : Nat) (on : Bool) (mean : Int) : State :=
  let s := { s with
    accord := { s.accord with alarm := setBit s.accord.alarm x on }
    vxc := { s.vxc with alarms := setBit s.vxc.alarms x on } }
  (s.raiseGen .d 0x08 (wAccord + 4) [(x, 1), (b2n on, 1), (unsext 32 mean, 4)]).notifyClass 4 0x0880 .ok
    [(x, 1), (b2n on, 1), (unsext 32 mean, 4)]

/-- A measured interval's residual enters the mean of its phase, and the alarm is judged once the mean covers 1 024 (R273). -/
def State.residual (s : State) (x : Nat) (res : Int) (dur : Nat) : State :=
  if dur = 0 then s else
  let l := (roundDiv (res * 1440000000000 * 1000) ((dur * 4294967296 : Nat)) :: tget [] s.accord.means x).take 1024
  let s := { s with accord := { s.accord with means := tset [] s.accord.means x l } }
  if l.length < 1024 then s else
  let sum := l.foldl (· + ·) 0
  let thr := s.accord.resThr * 100 * 1000 * 1024
  let mean := roundDiv sum 1024000
  if !bit s.accord.alarm x && decide (thr < sum.natAbs) then
    let s := s.residualNote x true mean
    if !s.blot.auto then s else
    (s.nv.regs.filterMap Reg.addr).foldl (fun s a =>
      if a / 2048 = x / 3 ∧ mdPhase (s.model a) = x % 3 + 1 then (s.request a 0 (s.tb.hcn + s.dayHcn) 0 4).2 else s) s
  else if bit s.accord.alarm x && decide (sum.natAbs * 5 < thr * 4) then s.residualNote x false mean
  else s

/-! ## The correlator's sample (R282, R283) -/

/-- Nodes probed in the window that contains HCN k. -/
def State.probedIn (s : State) (k a : Nat) : Bool := s.blot.plan.any (fun p => p.2.1 == a && p.1 == k - k % 16)

/-- P' of a phase for an interval, and whether it flags its window. -/
def State.corrSample (s : State) (f p k : Nat) (w : BitVec 640) : State :=
  let x := 3 * f + p
  let ns := (s.snapFor k f).1.filter (fun n => n.2.1 != 3 && mdPhase (s.modelFor n.1 k) == p + 1 && !s.probedIn k n.1)
  let sum : Int := ns.foldl (fun t n => t + modelNum (s.modelFor n.1 k) (s.node n.1).temp n.2.2) 0
  let fl := recFlags w
  let flag := fl.testBit p || fl.testBit (3 + p) || fl.testBit 8 || fl.testBit 10 || fl.testBit 11 || fl.testBit 12 || fl.testBit 13
    || (fl.testBit 15 && decide (recPh w p = ({} : Ph))) || (s.feeder f).idle.contains k
  s.onBlot (fun b => { b with corr := tmod [] b.corr x (fun l =>
    (⟨k, (recPh w p).p * modelDen - sum, flag⟩ :: l).take 48) })

/-- One phase of ACCORD_ATTRIBUTION. -/
def State.attribPhase (s : State) (f k : Nat) (w : BitVec 640) (p : Nat) : State :=
  let x := 3 * f + p
  let dur := recDur w
  let un := unmeasured w p
  let a := attribShares (!un) (recEnergy w p) s.accord.attTol (s.modelled f p k dur ((recFlags w).testBit 11))
  let s := (s.applyAttrib x k a).corrSample f p k w
  if un then
    let (n, st) := bump 0xFFFF s.accord.unmeas
    ({ s with accord := { s.accord with unmeas := n } }.addTotal (wAccord + 8) 0 1).stuckIf st (wAccord + 8) 0
  else s.residual x a.res dur

/-- The oldest record of a feeder that Accord has not attributed. -/
def State.attribNext (s : State) (f : Nat) : Option (BitVec 640) :=
  ((tget [] s.meter.records f).filter (fun w => decide (tget 0 s.accord.attr f ≤ recHcn w))).getLast?

/-- The accounts of every feeder stand after every interval before HCN t. -/
def State.attribDone (s : State) (t : Nat) : Bool :=
  s.meter.begun.isNone || (rangeFrom 0 8).all (fun f => decide (t ≤ max (s.meter.begun.getD 0) (tget 0 s.accord.attr f)))

/-- After a snapshot of the accounts is ready, STATE reads PENDING while another one is bound (R272). -/
def State.accSnapReady (s : State) : State :=
  match s.acts.find? (fun a => decide (a.what = ActWhat.accordSnap)) with
  | none => { s with accord := { s.accord with snap := { s.accord.snap with st := .ready } } }
  | some a => { s with accord := { s.accord with snap := { s.accord.snap with st := .pending, t := a.t } } }

/-- ACCORD_ATTRIBUTION: the oldest complete record of a feeder is attributed on its three phases (R264, R267, R282); the
accounts' snapshot is ready once its last interval is (R272). -/
def execAccordAttribution (dt : Dt) (f : Nat) (s : State) : Res :=
  let s := s.tick dt
  .next (if 7 < f || !s.runs .d then s else
  match s.attribNext f with
  | none => s
  | some w =>
    let k := recHcn w
    let held := (s.snapFor k f).2
    let s := [0, 1, 2].foldl (fun (s : State) p => s.attribPhase f k w p) s
    let s : State := if held then
        let (n, st) := bump 0xFFFF s.accord.held
        ({ s with accord := { s.accord with held := n } }.addTotal (wAccord + 8) 16 1).stuckIf st (wAccord + 8) 16
      else s
    let s : State := { s with accord := { s.accord with attr := tset 0 s.accord.attr f (k + 1) } }
    if s.accord.snap.st = SnapState.filling ∧ s.attribDone s.accord.snap.t then s.accSnapReady else s)

/-- The accounts' snapshot begins at the edge of its t (R272). -/
def State.accSnapBegin (s : State) (t : Nat) : State :=
  { s with accord := { s.accord with snap := ⟨.filling, t, tget 0 s.jnc.stamps (t % 1024), s.liveTotals⟩ } }

/-! ## The node part of a save (R248, R271) -/

/-- PERIODIC_SAVE_DONE: the node part is written after the feeder part and MARK_N set, once every interval before s has been attributed (R248,
R271). -/
def execPeriodicSaveDone (dt : Dt) (s : State) : Res :=
  let s := s.tick dt
  .next (match s.meter.saving with
  | none => s
  | some (n, t) =>
    if s.meter.closed.isSome || !s.runs .d || !(s.slotOf n).markF || !s.attribDone t then s else
    let tot := s.meter.saveTot
    let s := s.onSlot n (fun x => { x with markN := true, tot := { x.tot with accounts := tot.accounts, phases := tot.phases } })
    { s with meter := { s.meter with saving := none, saveFill := none, saveTot := {} } })

/-- The final save begins: the intervals close now, those of a lost set B by the newest edge too, a periodic save is abandoned, and its slot and SEQ or the
next ones take the final save (R225, R249). Nothing is saved where nothing has been metered. -/
def State.finalSaveBegin (s : State) : State :=
  if s.meter.begun.isNone || !s.runs .d then s else
  let s : State := if s.tb.setB.mapped then s else { s with tb := { s.tb with setB := { s.tb.setB with
    cuts := if (cutOf s.tb.setB.cuts s.tb.hcn).isSome then s.tb.setB.cuts else (s.tb.hcn, s.tb.lastEdge) :: s.tb.setB.cuts } } }
  let (n, seq) := match s.meter.saving with
    | some (n, _) => (n, (s.slotOf n).seq)
    | none => s.saveTarget
  let t := s.tb.hcn + 1
  let s := s.onSlot n (fun _ => { seq := seq, markF := false, markN := false, final := true, s := t, rtcSec := s.lin, rtcSub := s.bk.sub,
                                  rtcValid := s.bk.valid })
  ({ s with meter := { s.meter with closed := some s.now, saving := some (n, t), saveFill := none, saveTot := {} } }).finalFeederPart

/-- The final save's node part is written once the closed intervals have been attributed (R249). -/
def State.finalNodePart (s : State) : State :=
  match s.meter.closed, s.meter.saving with
  | some _, some (n, _) =>
    if (s.slotOf n).markF && (rangeFrom 0 8).all (fun f => (s.attribNext f).isNone) then
      s.onSlot n (fun x => { x with markN := true, tot := { x.tot with accounts := s.accord.accounts, phases := s.accord.phases } })
    else s
  | _, _ => s

/-! ## Restore (R250, R266, R274) -/

/-- GAP of a phase grows by the net import between two feeder parts (R274). -/
def gapGrow (new old : Tbl Nat) (phases : Tbl (BitVec 512)) (x : Nat) : Tbl (BitVec 512) :=
  let b := 32 * (x / 3) + 8 * (x % 3)
  let net := fun (t : Tbl Nat) => ((tget 0 t b : Nat) : Int) - (tget 0 t (b + 1) : Nat)
  tmod 0 phases x (fun w => pbAdd w 384 (net new - net old))

/-- The totals come back from the newest slot with a valid feeder part; the ENERGY_GAP record waits for the first metered
interval (R246, R250, R274). `module` tells a start-up from a D-region resume. -/
def State.restoreTotals (s : State) (module : Bool) : State :=
  match s.newestSlot with
  | none => s
  | some n =>
    let x := s.slotOf n
    let y := s.slotOf (1 - n)
    let acc := if x.markN then (x.tot.accounts, x.tot.phases)
      else if y.markN then (y.tot.accounts, (rangeFrom 0 24).foldl (gapGrow x.tot.acc y.tot.acc) y.tot.phases)
      else ([], [])
    let s := { s with
      meter := { s.meter with
        acc := x.tot.acc
        pulse := tset {} (tset {} [] 0 { reg := x.tot.pulseA.1, pend := x.tot.pulseA.2 }) 1
          { reg := x.tot.pulseB.1, pend := x.tot.pulseB.2 }
        saveSeq := x.seq
        saveHcn := x.s
        gapOpen := some ⟨if x.final then x.s - 1 else x.s, if x.final && module then 0 else 1, module,
          if x.rtcValid then some (x.rtcSec, x.rtcSub) else none, x.means⟩ }
      accord := { s.accord with accounts := acc.1, phases := acc.2 } }
    if x.markN || y.markN then s else s.raiseGen .d 0x08 0x01220000 []

/-- The D-region's configuration and tables come into force from MRAM (R234, R266, 00 R14). -/
def State.loadD (s : State) : State :=
  let c := s.nv.meterCfg
  { s with
    meter := { s.meter with cfg := c, cfgs := [], sampleAt := s.now, hist := [], age := s.nv.age, hours := s.nv.hours, ageAt := s.now }
    accord := { s.accord with default := s.nv.accDefault, models := s.nv.models, resThr := s.nv.acCfg.1, attTol := s.nv.acCfg.2 }
    blot := { s.blot with brCfg := s.nv.brCfg, status := s.nv.bstatus } }

/-! ## The ACCORD group -/

/-- Model entries of a write, applied to a table. -/
def modelsWith (t : Tbl (BitVec 64)) (first : Nat) (es : List (BitVec 64)) : Tbl (BitVec 64) := tsetAll 0 t first es

/-- The model table as MRAM holds it: what is in force, or what MRAM held where the D-region does not run, with the writes that are
bound (R266; log entry 40). -/
def State.storeModels (s : State) : State :=
  let base : ModelSet := if s.runs .d then ⟨s.accord.models, s.blot.status⟩ else s.nv.modelSet
  let t := s.acts.foldl (fun t a => match a.what with | .accordModel f es => modelsWith t f es | _ => t) base.models
  s.onNv (fun v => { v.setModelSet { base with models := t } with modelsDirty := v.modelsDirty && !s.runs .d })

/-- MODEL_TABLE_STORE: the changed table goes to MRAM (R266). -/
def execModelTableStore (dt : Dt) (s : State) : Res :=
  let s := s.tick dt
  .next (if s.nv.modelsDirty && s.runs .d then s.storeModels else s)

/-- A bound model write comes into force: the fit of its node restarts from it (R266, R370). -/
def State.modelInForce (s : State) (t first : Nat) (es : List (BitVec 64)) : State :=
  (es.zip (rangeFrom first es.length)).foldl (fun s e =>
    (s.setModelFrom t e.2 e.1).onBlot (fun b => { b with fits := tset {} b.fits e.2 {} })) s

/-- ACCORD MODEL_SET. -/
def execAccordModelSet (r : Req) (tgt first : Nat) (entries : List (BitVec 64)) (s : State) : Res :=
  hostCmd { cmd := 0x0801, need := .configure } r (fun w t =>
    checked ([(decide (entries.length = 0 ∨ 173 < entries.length ∨ 16384 < first + entries.length) || t.badTgt tgt, .range)]
        ++ t.lateTgt tgt 4 ++ [(t.actsFull, .busy)])
      (.deferred tgt (t.bind tgt w 0x0801 (.accordModel first entries)).storeModels)) s

/-- ACCORD DEFAULT_SET (R266). -/
def execAccordDefaultSet (r : Req) (entry : BitVec 64) (s : State) : Res :=
  hostCmd { cmd := 0x0802, need := .configure } r (fun _ t =>
    .ok [] ({ t with accord := { t.accord with default := entry } }.onNv (fun v => { v with accDefault := entry }))) s

/-- ACCORD MODEL_READ. -/
def execAccordModelRead (r : Req) (first count : Nat) (s : State) : Res :=
  hostCmd { cmd := 0x0803, need := .read } r (fun _ t =>
    paged 16384 first count 8 [] (fun a => [((t.model a).toNat, 8)]) t) s

/-- ACCORD ACCOUNT_READ. -/
def execAccordAccountRead (r : Req) (first count : Nat) (s : State) : Res :=
  hostCmd { cmd := 0x0804, need := .read } r (fun _ t =>
    paged 16384 first count 16 [] (fun a => [((tget 0 t.accord.accounts a).toNat, 16)]) t) s

/-- ACCORD PHASE_READ. -/
def execAccordPhaseRead (r : Req) (first count : Nat) (s : State) : Res :=
  hostCmd { cmd := 0x0805, need := .read } r (fun _ t =>
    paged 24 first count 64 [] (fun x => [((tget 0 t.accord.phases x).toNat, 64)]) t) s

/-- ACCORD SNAPSHOT: bound to TGT, or to h + 4 (R272). -/
def execAccordSnapshot (r : Req) (tgt : Nat) (s : State) : Res :=
  hostCmd { cmd := 0x0806, need := .read } r (fun w t =>
    let k := if tgt = 0 then t.tb.hcn + 4 else tgt
    checked ([(t.started && decide (t.tb.hcn + 2147483648 < k), .range)] ++ t.lateTgt k 4 ++ [(t.actsFull, .busy)])
      (.deferred k (let u := t.bind k w 0x0806 .accordSnap
        { u with accord := { u.accord with snap := if u.accord.snap.st = SnapState.filling then u.accord.snap
          else { u.accord.snap with st := .pending, t := k } } }))) s

/-- ACCORD SNAP_READ (R272, R370). -/
def execAccordSnapRead (r : Req) (first count sect : Nat) (s : State) : Res :=
  hostCmd { cmd := 0x0807, need := .read } r (fun _ t =>
    let x := t.accord.snap
    checked [(decide (1 < sect ∨ (if sect = 0 then 16384 else 24) ≤ first), .range),
        (decide (x.st = SnapState.pending ∨ x.st = SnapState.filling), .busy), (decide (x.st = SnapState.none), .notFound)]
      (if sect = 0 then paged 16384 first count 16 [(x.t, 6)] (fun a => [((tget 0 x.tot.accounts a).toNat, 16)]) t
       else paged 24 first count 64 [(x.t, 6)] (fun i => [((tget 0 x.tot.phases i).toNat, 64)]) t)) s

/-- ACCORD CFG_SET. -/
def execAccordCfgSet (r : Req) (resThr attTol : Nat) (s : State) : Res :=
  hostCmd { cmd := 0x0808, need := .configure } r (fun _ t =>
    checked [(decide (65535 < resThr ∨ attTol = 0 ∨ 50 < attTol), .range)]
      (.ok [] ({ t with accord := { t.accord with resThr := resThr, attTol := attTol } }.onNv
        (fun v => { v with acCfg := (resThr, attTol) })))) s

/-- ACCORD STATUS; HELD and UNMEAS are the module's totals (11 R355). -/
def execAccordStatus (r : Req) (s : State) : Res :=
  hostCmd { cmd := 0x0809, need := .read } r (fun _ t =>
    .ok [(t.accord.alarm.toNat, 4), (t.accord.default.toNat, 8), (t.total (wAccord + 8) 16, 4), (t.total (wAccord + 8) 0, 4)] t) s

end Sys2Proof.Machine
end

