-- ==== Sys2Proof/Machine/Curve.lean ====
section
/-!
DEFINITION. The curve P-256 (FIPS 186; SEC 1) for 10 R337, R339, 14 R432, R448 and 15 R466: public points, ECDH and ECDSA. A public point is held as the
number x + 2^256 y, a signature as its 64 bytes, r then s, each big-endian, first byte least significant (log entry 2).
-/
namespace Sys2Proof.Machine

/-- The field's prime, the curve's constant b, and the base point. -/
def p256p : Nat := 0xFFFFFFFF00000001000000000000000000000000FFFFFFFFFFFFFFFFFFFFFFFF
def p256b : Nat := 0x5AC635D8AA3A93E7B3EBBD55769886BC651D06B0CC53B0F63BCE3C3E27D2604B
def p256x : Nat := 0x6B17D1F2E12C4247F8BCE6E563A440F277037D812DEB33A0F4A13945D898C296
def p256y : Nat := 0x4FE342E2FE1A7F9B8EE7EB4A7C0F9E162BCE33576B315ECECBB6406837BF51F5

/-- a^e modulo m, for e below 2^n. -/
def powMod (m a : Nat) : Nat → Nat → Nat
  | 0, _ => 1
  | n + 1, e =>
    let h := powMod m a n (e / 2)
    let q := h * h % m
    if e % 2 = 1 then q * a % m else q

/-- The inverse modulo a prime, and a difference modulo m. -/
def invMod (m a : Nat) : Nat := powMod m a 256 (m - 2)
def subMod (m a b : Nat) : Nat := (a + (m - b % m)) % m

/-- A point in Jacobian coordinates; the point at infinity has z = 0. -/
structure Point where
  x : Nat
  y : Nat
  z : Nat
  deriving DecidableEq, Repr

/-- Twice a point. -/
def Point.twice (a : Point) : Point :=
  let d := a.z * a.z % p256p
  let g := a.y * a.y % p256p
  let b := a.x * g % p256p
  let l := 3 * (subMod p256p a.x d * (a.x + d) % p256p) % p256p
  let x := subMod p256p (l * l) (8 * b)
  ⟨x, subMod p256p (l * subMod p256p (4 * b) x) (8 * g * g), subMod p256p ((a.y + a.z) * (a.y + a.z)) (g + d)⟩

/-- The sum of two points. -/
def Point.plus (a b : Point) : Point :=
  if a.z = 0 then b else if b.z = 0 then a else
  let z1 := a.z * a.z % p256p
  let z2 := b.z * b.z % p256p
  let u := a.x * z2 % p256p
  let t := a.y * b.z * z2 % p256p
  let h := subMod p256p (b.x * z1 % p256p) u
  let r := subMod p256p (b.y * a.z * z1 % p256p) t
  if h = 0 then (if r = 0 then a.twice else ⟨1, 1, 0⟩) else
  let h2 := h * h % p256p
  let h3 := h * h2 % p256p
  let v := u * h2 % p256p
  let x := subMod p256p (r * r) (h3 + 2 * v)
  ⟨x, subMod p256p (r * subMod p256p v x) (t * h3), a.z * b.z * h % p256p⟩

/-- A multiple of a point, by a factor below 2^n. -/
def Point.times (a : Point) : Nat → Nat → Point
  | 0, _ => ⟨1, 1, 0⟩
  | n + 1, k =>
    let h := (Point.times a n (k / 2)).twice
    if k % 2 = 1 then h.plus a else h

/-- The affine coordinates of a point, x + 2^256 y. -/
def Point.affine (a : Point) : Nat :=
  let i := invMod p256p a.z
  let q := i * i % p256p
  a.x * q % p256p + 2 ^ 256 * (a.y * (i * q % p256p) % p256p)

/-- The base point, and the point of a public key. -/
def basePoint : Point := ⟨p256x, p256y, 1⟩
def pointOf (pub : Nat) : Point := ⟨pub % 2 ^ 256, pub / 2 ^ 256 % 2 ^ 256, 1⟩

/-- A public key is a point of the curve. -/
def onCurve (pub : Nat) : Bool :=
  let x := pub % 2 ^ 256
  let y := pub / 2 ^ 256
  decide (x < p256p ∧ y < p256p ∧ y * y % p256p = (x * x * x + subMod p256p p256b (3 * x)) % p256p)

/-- The public point of a private key (14 R432). -/
def pubPoint (d : Nat) : Nat := (basePoint.times 256 d).affine

/-- The ECDH shared secret of a private key and a public point: the x-coordinate of their product (10 R337). -/
def ecdh (d pub : Nat) : Nat := ((pointOf pub).times 256 d).affine % 2 ^ 256

/-- A signature as its 64 bytes, and its r and s. -/
def sigOf (r s : Nat) : Nat := ofBytes (beBytes 32 r ++ beBytes 32 s)
def sigR (sig : Nat) : Nat := ofBe ((leBytes 64 sig).take 32)
def sigS (sig : Nat) : Nat := ofBe ((leBytes 64 sig).drop 32)

/-- The ECDSA signature of a hash with a private key; `k` is the number that each signature draws. -/
def ecdsaSign (d hash k : Nat) : Nat :=
  let r := (basePoint.times 256 k).affine % 2 ^ 256 % p256n
  sigOf r (invMod p256n k * (hash + r * d) % p256n)

/-- An ECDSA signature checks under a public key. -/
def ecdsaOk (pub hash sig : Nat) : Bool :=
  let r := sigR sig
  let w := invMod p256n (sigS sig)
  let a := (basePoint.times 256 (hash * w % p256n)).plus ((pointOf pub).times 256 (r * w % p256n))
  onCurve pub && decide (0 < r ∧ r < p256n ∧ 0 < sigS sig ∧ sigS sig < p256n ∧ a.z ≠ 0 ∧ a.affine % 2 ^ 256 % p256n = r)

end Sys2Proof.Machine
end

