-- ==== Sys2Proof/Machine/Sys.lean ====
section
/-!
DEFINITION. The SYS group (11, table "SYS commands"; 10 R337-R342, R347; 14 R449-R455): identity, status, sessions,
subscriptions, network settings and life cycle.
-/
namespace Sys2Proof.Machine

/-- ORDER: VXS-4816-E or VXS-4816-EC in ASCII, zero-padded (R359). -/
def State.order16 (s : State) : Nat :=
  ofBytes ([0x56, 0x58, 0x53, 0x2D, 0x34, 0x38, 0x31, 0x36, 0x2D, 0x45] ++ (if s.nv.coated then [0x43] else []))

/-- The IDENTIFY payload (R359): each image's version is read from the bank it runs from. -/
def State.identity (s : State) : Payload :=
  let u := s.nv.upd
  let v := fun b t => s.cfgAt 2 ((u.bank b).compVer t)
  [(s.order16, 16), (s.nv.serial, 16), (v u.bankM 3, 4), (v u.bankC 1, 4), (v u.bankD 2, 4), (v u.bankM 3, 4),
   (v u.bankDsp 4, 4), (2, 1), (1, 1), (s.cfgAt 2 (b2n u.active), 1), (s.cfgAt 2 s.nv.lcs, 1)]

/-- SYS IDENTIFY. A module that stays in the boot ROM still answers it over USB (15 R485). -/
def execSysIdentify (r : Req) (s : State) : Res :=
  if s.pow.phase = .bootStuck then
    let t := s.tick r.dt
    .next (if r.usb && noTag r && r.ses == 0 && (malformed r).isNone then
        t.say true (if r.lenOk then openResp r 0x0101 .ok t.identity else openResp r 0x0101 .length [(0, 4)])
      else t)
  else hostCmd { cmd := 0x0101, need := .read, openRead := true } r (fun _ t => .ok t.identity t) s

/-- The STATUS payload (11, SYS STATUS); UPTIME counts from reset release (log entry 17). -/
def State.statusPay (s : State) : Payload :=
  [(s.tb.hcn, 6), (s.tb.stat, 4), (s.regionStat, 4), (s.jnc.voters.c.stat, 4), (s.jnc.voters.d.stat, 4),
   (s.jnc.voters.m.stat, 4), (s.sil.stat, 4), (s.cfgAt 2 s.nv.lcs, 1), (s.cfgAt 4 (b2n s.bk.valid), 1),
   (s.mafeTemp % 65536, 2), (s.now / secC % 4294967296, 4)]

/-- SYS STATUS. -/
def execSysStatus (r : Req) (s : State) : Res :=
  hostCmd { cmd := 0x0102, need := .read, openRead := true } r (fun _ t => .ok t.statusPay t) s

/-- An identifier no session uses, from a free value; never 0 (R340). -/
def State.newId (s : State) (v : Nat) : Nat :=
  ((rangeFrom 0 5).map (fun k => 1 + (v + k) % 4294967295)).find? (fun i => (s.session i).isNone) |>.getD 1

/-- Why a session-open request is refused with AUTH (R339, R449, R455). With an operator key, its signature, the deny list
and, while RTC_VALID is 1, the dates; without one, only a self-signed certificate over USB passes. -/
def State.authFails (s : State) (usb : Bool) (serial : Nat) (cert : HostCert) (certSig notBefore notAfter : Nat) : Bool :=
  if s.nv.lcs == 3 then true
  else if (s.slot 2).st ≠ 1 then !(usb && ecdsaOk cert.pub cert.tbs certSig)
  else !(ecdsaOk (s.slot 2).key cert.tbs certSig) || s.nv.deny.contains serial
    || (s.bk.valid && !(decide (notBefore ≤ s.bk.secs) && decide (s.bk.secs ≤ notAfter)))

/-- The privileges a session gets: those that request and certificate both name, bits 15:9 never; KEYS alone under a
self-signed certificate (R339, R449). -/
def State.grant (s : State) (priv certPriv : BitVec 16) : BitVec 16 :=
  if (s.slot 2).st ≠ 1 then 0x0008#16 else priv &&& certPriv &&& 0x01FF#16

/-- The two directional keys of a session, as 32 bytes: HKDF-SHA-256 of the ECDH secret, salted with NH and NM, with the info string VXC and
SESSION; the first 16 bytes are the host-to-module key (R338). -/
def sessionKeys (secret nh nm id : Nat) : List Nat :=
  hkdf (leBytes 16 nh ++ leBytes 16 nm) (beBytes 32 secret) ([0x56, 0x58, 0x43] ++ leBytes 4 id)

/-- The transport key KX of a session: the AES-CMAC under its host-to-module key of VXC-KX and SESSION (14 R434). -/
def Session.kx (x : Session) : Nat :=
  ofBytes (cmac (leBytes 16 x.keyIn) ([0x56, 0x58, 0x43, 0x2D, 0x4B, 0x58] ++ leBytes 4 x.id))

/-- CERT_DATES: 1 where the validity period was ignored, while RTC_VALID is 0 or under a self-signed certificate (R339, R359, R449). -/
def State.certDates (s : State) : Nat := b2n (!s.bk.valid || decide ((s.slot 2).st ≠ 1))

/-- The transcript of a session: the SHA-256 hash of the request's payload and the response's payload up to the signature (R337). -/
def transcript (r : Req) (pay : Payload) : List Nat := sha256 (r.payload ++ ((r.seq, 4) :: pay).flatMap (fun v => leBytes v.2 v.1))

/-- An uncompressed point as its 65 bytes, held as a number (R359; SEC 1). -/
def pointBytes (p : Nat) : Nat := ofBytes (4 :: beBytes 32 p ++ beBytes 32 (p / 2 ^ 256))

/-- The point of 65 uncompressed bytes. -/
def pointFrom (b : Nat) : Nat := ofBe ((leBytes 65 b).drop 33) * 2 ^ 256 + ofBe (((leBytes 65 b).drop 1).take 32)

/-- Open a half-open session and answer the session-open request, signed with the module identity key (R337). The module's ephemeral private key,
its nonce, SESSION and the number that the signature draws are free values (log entries 2 and 3). -/
def State.halfOpen (s : State) (r : Req) (priv : BitVec 16) (serial nh epk hostPub : Nat) : State :=
  let (v, s) := s.draw 4294967295
  let (d, s) := s.draw (p256n - 1)
  let (nm, s) := s.draw (2 ^ 128)
  let (k, s) := s.draw (p256n - 1)
  let epkM := pointBytes (pubPoint (d + 1))
  let z := ecdh (d + 1) (pointFrom epk)
  let id := s.newId v
  let pay : Payload := [(id, 4), (epkM, 65), (nm, 16), (priv.toNat, 2), (s.certDates, 1)]
  let hash := ofBe (transcript r pay)
  let sig := ecdsaSign (s.slot 1).key hash (k + 1)
  let keys := sessionKeys z nh nm id
  let x : Session := { id := id, usb := r.usb, ip := r.ip, port := r.port, priv := priv, halfOpen := true, serial := serial, hostPub := hostPub, transcript := hash,
                       openedAt := s.now, lastGood := s.now
                       keyIn := ofBytes (keys.take 16), keyOut := ofBytes (keys.drop 16) }
  let s := { s with vxc := { s.vxc with sessions := s.vxc.sessions ++ [x] } }
  s.say r.usb (openResp r 0x0103 .ok (pay ++ [(sig, 64)]))

/-- SYS SESSION_OPEN: the one request taken over both transports with SESSION 0 and no TAG (R335, R337, R348). -/
def execSysSessionOpen (r : Req) (priv certPriv : BitVec 16) (nh epk serial : Nat) (cert : HostCert) (certSig : Nat)
    (notBefore notAfter : Nat) (s : State) : Res :=
  let t := s.tick r.dt
  let no := fun (t : State) st pay => t.say r.usb (openResp r 0x0103 st pay)
  .next (if t.deaf r then t
    else
    let a := t.arrived r
    let t := a.2
    if !a.1 then t
    else match malformed r with
    | some k => t.discarded (fun d => d.upForm k)
    | none =>
    if r.ses ≠ 0 then t.discarded (fun d => { d with session := up32 d.session })
    else if !noTag r then t.discarded (fun d => { d with tag := up32 d.tag })
    else if t.pow.phase.rank < 4 then (let (p, t') := t.refusalPay .busy 0; no t' .busy p)
    else if t.authFails r.usb serial cert certSig notBefore notAfter then
      no (t.raiseGen .m 0x01 0 []) .auth [(0, 4)]
    else if !r.lenOk then no t .length [(0, 4)]
    else if 4 ≤ t.vxc.sessions.length then (let (p, t') := t.refusalPay .busy 0; no t' .busy p)
    else t.halfOpen r (t.grant priv certPriv) serial nh epk cert.pub)

/-- A half-open session ends 5 s after its opening (R337). -/
def Session.unconfirmed (x : Session) (now : Nat) : Bool := x.halfOpen && decide (x.openedAt + 5 * secC ≤ now)

/-- Drop one session without a record. -/
def State.dropSession (s : State) (id : Nat) : State := { s with vxc := { s.vxc with sessions := s.vxc.sessions.filter (fun y => y.id != id) } }

/-- SYS SESSION_CONFIRM: the session opens when signature and TAG both check, and the opening is recorded (R337, R340). -/
def execSysSessionConfirm (r : Req) (sig : Nat) (s : State) : Res :=
  let t := s.tick r.dt
  let t := if (t.session r.ses).any (fun x => x.unconfirmed t.now) then t.dropSession r.ses else t
  .next (match t.gate r true with
    | .drop t' => t'
    | .unauth t' => t'.say true (openResp r 0x0104 .auth [(0, 4)])
    | .again t' x a => t'.sendOn x.id (fun y n => y.respOut y.port n true a)
    | .accept t' x =>
      (if x.halfOpen && !ecdsaOk x.hostPub x.transcript sig then t'.respond x.id ⟨r.seq, 0x0104, .auth, [(0, 4)]⟩
      else if !r.lenOk then t'.respond x.id ⟨r.seq, 0x0104, .length, [(0, 4)]⟩
      else if 8 ≤ x.outst.length then (let (p, u) := t'.refusalPay .busy 0; u.respond x.id ⟨r.seq, 0x0104, .busy, p⟩)
      else
        let t' := if x.halfOpen then (t'.onSession x.id (fun y => { y with halfOpen := false, hostPub := 0, transcript := 0 })).raiseGen .m 0x01 0 [] else t'
        t'.respond x.id ⟨r.seq, 0x0104, .ok, []⟩).seqLimit r)

/-- SYS SESSION_CLOSE: the session ends after its answer (R340). -/
def execSysSessionClose (r : Req) (s : State) : Res :=
  hostCmd { cmd := 0x0105, need := .anyone } r (fun w t => .okThen [] t (fun t' => t'.endSession w.ses .close)) s

/-- SYS SUBSCRIBE: ten classes exist; other bits are not kept (R346, R358; log entry 18). -/
def execSysSubscribe (r : Req) (classes : BitVec 16) (sevMin : Nat) (s : State) : Res :=
  hostCmd { cmd := 0x0106, need := .read } r (fun w t =>
    checked [(decide (7 < sevMin), .range)]
      (.ok [((classes &&& 0x03FF#16).toNat, 2)]
        (t.onSession w.ses (fun x => { x with classes := classes &&& 0x03FF#16, sevMin := sevMin })))) s

/-- Bytes of a payload. -/
def payLen (p : Payload) : Nat := (p.map Prod.snd).foldl (· + ·) 0

/-- As many items as COUNT asks and 1 400 bytes hold. -/
def takeFit : Nat → Nat → List Payload → List Payload
  | 0, _, _ => []
  | _, _, [] => []
  | n + 1, room, p :: ps => if payLen p ≤ room then p :: takeFit n (room - payLen p) ps else []

/-- One item of NOTIFY_READ (11, SYS NOTIFY_READ; log entry 15). -/
def Note.item (n : Note) : Payload := [(n.nseq, 4), (n.cmd, 2), (payLen n.pay, 2)] ++ n.pay

/-- SYS NOTIFY_READ: the notifications of the ring from NSEQ on, oldest first (R347). -/
def execSysNotifyRead (r : Req) (first count : Nat) (s : State) : Res :=
  hostCmd { cmd := 0x0107, need := .read } r (fun w t =>
    match t.session w.ses with
    | none => .no .state 0
    | some x =>
      let items := takeFit count (1400 - 18) (((x.ring.filter (fun n => decide (first ≤ n.nseq))).reverse).map Note.item)
      checked [(decide (x.nseq + 1 ≤ first), .range)]
        (.ok ([(x.nseq + 1, 4), (first, 4), (items.length, 2), (x.lost, 4)] ++ items.flatten) t)) s

/-- SYS SESSIONS: the sessions that are open (R340). -/
def execSysSessions (r : Req) (s : State) : Res :=
  hostCmd { cmd := 0x0108, need := .read } r (fun _ t =>
    let l := t.vxc.sessions.filter (fun x => !x.halfOpen)
    .ok ((l.length, 1) :: l.flatMap (fun x =>
      [(x.id, 4), (b2n x.usb, 1), (x.priv.toNat, 2), (x.serial, 20), ((t.now - x.openedAt) / secC, 4)])) t) s

/-- SYS NET_SET: pending until the next start of the M-region (R360). -/
def execSysNetSet (r : Req) (ipv4 mask gw vlan : Nat) (s : State) : Res :=
  hostCmd { cmd := 0x0109, need := .configure } r (fun _ t =>
    checked [(decide (4094 < vlan), .range)]
      (.ok [] (t.onNv (fun n => { n with net := ⟨ipv4, mask, gw, vlan⟩ })))) s

/-- The fields of NET_SET. -/
def NetCfg.pay (c : NetCfg) : Payload := [(c.ipv4, 4), (c.mask, 4), (c.gw, 4), (c.vlan, 2)]

/-- SYS NET_READ. -/
def execSysNetRead (r : Req) (s : State) : Res :=
  hostCmd { cmd := 0x010A, need := .read } r (fun _ t =>
    .ok (t.vxc.netInForce.pay ++ t.nv.net.pay ++ [(t.nv.mac0, 6), (t.nv.mac1, 6)]) t) s

/-- The transitions that R451's table permits, given the OTP entries left (R452). -/
def lifecycleOk (old new left : Nat) : Bool :=
  (match old, new with
   | 0, 1 => true | 0, 3 => true | 1, 2 => true | 1, 3 => true | 2, 1 => true | 2, 3 => true | _, _ => false)
  && (decide (1 < left) || (left == 1 && new == 3))

/-- Destroy every LIFECYCLE and TREE key; the root survives (R453). -/
def Nv.destroyKeys (n : Nv) : Nv := 
  { n with keyAreas := n.keyAreas.only (tset {} [] 0 (tget {} n.slots 0)), rollSets := n.rollSets.only [], seals := 0 }

/-- The irrevocable part of a life-cycle change, up to the wipe (R453, table "Life-cycle change"; R455 for SCRAPPED). -/
def State.lifecycle (s : State) (new : Nat) : State :=
  let s := s.endAll .restart
  { s with
    nv := { s.nv.destroyKeys with lcs := new, wipeFrom := s.nv.lcs, otpLeft := s.nv.otpLeft - 1, wipeDue := true, rootOff := new == 3 || s.nv.rootOff }
    keys := { s.keys with twins := [], retiring := [], plain := tset 0 [] 0 (tget 0 s.keys.plain 0) } }

/-- SYS LIFECYCLE: the response goes out before the change (R360). The record of the change is made when the wipe is done
(LIFECYCLE_WIPE_DONE). -/
def execSysLifecycle (r : Req) (new serialChk : Nat) (s : State) : Res :=
  hostCmd { cmd := 0x010B, need := .lifecycle } r (fun _ t =>
    checked [(!lifecycleOk t.nv.lcs new t.nv.otpLeft, .state), (serialChk != t.nv.serial % 4294967296, .range)]
      (.okThen [] t (fun t' => t'.lifecycle new))) s

/-- A request whose CMD is not listed, or is a notification code (R349); BAD_CMD comes before AUTH (R352). -/
def execUnlistedCmdRequest (r : Req) (cmd : Nat) (s : State) : Res :=
  hostCmd { cmd := cmd, need := .anyone, openRead := true } { r with lenOk := true } (fun _ _ => .no .badCmd 0) s

/-- A half-open session whose confirmation does not come within 5 s is dropped (R337). -/
def execSessionConfirmTimeout (dt : Dt) (ses : Nat) (s : State) : Res :=
  let t := s.tick dt
  .next (match t.session ses with
    | some x => if x.unconfirmed t.now then t.dropSession ses else t
    | none => t)

/-- 300 s without a good TAG end an open session (R340). -/
def execSessionIdleTimeout (dt : Dt) (ses : Nat) (s : State) : Res :=
  let t := s.tick dt
  .next (match t.session ses with
    | some x => if x.halfOpen || decide (t.now < x.lastGood + 300 * secC) then t else t.endSession ses .idle
    | none => t)

/-- A USB bus reset or detach ends the USB sessions (R340). -/
def execUsbBusReset (dt : Dt) (s : State) : Res :=
  let t := s.tick dt
  let ids := (t.vxc.sessions.filter Session.usb).map Session.id
  .next (ids.foldl (fun u i => u.endSession i .usb) t)

/-- The rate limit of a session gains a notification each 1/64 s while it is short of its burst of 16: the oldest one that waits goes out, or
the session may send one more at once (R347; log entry 19). -/
def execNotificationRelease (dt : Dt) (ses : Nat) (s : State) : Res :=
  let t := s.tick dt
  .next (match t.session ses with
    | none => t
    | some x =>
      if x.tokens = 16 ∨ t.now < x.tokenAt + secC / 64 then t else
      match x.waiting with
      | [] => t.onSession ses (fun y => { y with tokens := y.tokens + 1, tokenAt := y.tokenAt + secC / 64 })
      | k :: rest =>
        let t := t.onSession ses (fun y => { y with waiting := rest, tokenAt := y.tokenAt + secC / 64 })
        match x.ring.find? (fun n => n.nseq == k) with
        | some n => t.sendOn ses (fun y m => y.noteOut m n)
        | none => t)

end Sys2Proof.Machine
end

