-- ==== Sys2Proof/Machine/Key.lean ====
section
/-!
DEFINITION. The KEY group and the key store (11, table "KEY commands"; 14): slots and their twins, invalidation and
orphans, feeder-key rollover, operator key, deny list, tamper inputs and their responses.
-/
namespace Sys2Proof.Machine

/-! ## Slots -/

/-- A slot's fixed role as ATTR[19:0]: TYPE, CLASS, PARENT, USAGE (14, table "Slot roles"); none for a general slot. -/
def roleAttr (n : Nat) : Option Nat :=
  let w := fun t c p u => t * 65536 + c * 16384 + p * 256 + u
  if n = 0 then some (w 2 0 0 0x08)
  else if n = 1 then some (w 3 1 0 0x10)
  else if n = 2 then some (w 4 1 0 0x20)
  else if n = 3 then some (w 2 2 0 0x0B)
  else if n = 4 then some (w 2 2 3 0x0B)
  else if 8 ≤ n ∧ n ≤ 15 then some (w 1 2 4 0x08)
  else none

/-- The attribute word of an active key: STATE ACTIVE, GEN, KCV and the RW fields with the reserved bits 0 (14 R431). -/
def activeAttr (rw gen kcv : Nat) : BitVec 64 :=
  BitVec.ofNat 64 (pack [(62, 2, 1), (44, 16, gen), (20, 24, kcv), (8, 12, rw / 256), (0, 6, rw)])

/-- The bytes of an AES key of a type: 16 for AES-128, 32 for AES-256. -/
def aesKey (type key : Nat) : List Nat := leBytes (if type = 1 then 16 else 32) key

/-- The public point of a P-256 key, uncompressed: 04h, X and Y, big-endian (14 R432). -/
def pubBytes (pub : Nat) : List Nat := 4 :: beBytes 32 pub ++ beBytes 32 (pub / 2 ^ 256)

/-- The public point that goes with a key of a type: X + 2^256 Y. -/
def pubOf (type key : Nat) : Nat := if type = 3 then pubPoint key else if type = 4 then key else 0

/-- The key check value of a key of a type, 24 bits: of an AES key the first 3 bytes of the encryption of 16 zero bytes, of a P-256 key the
first 3 bytes of the hash of its public point (14 R432). -/
def kcvOf (type key : Nat) : Nat :=
  ofBytes ((if type ≤ 2 then aes (aesKey type key) (zeros 16) else sha256 (pubBytes (pubOf type key))).take 3)

/-- The storage key of a slot: derived from the key of its parent with the label KST and the context of the slot number and ATTR[15:0] (14
R433). Its length, which the spec does not state, is free: 16 or 32 bytes (log entry 2). -/
def storageKey (parentType parentKey n : Nat) (attr : BitVec 64) : List Nat :=
  kdf (16 + 16 * (Config.kdfWidth 2 % 2)) (aesKey parentType parentKey) [0x4B, 0x53, 0x54] (n :: leBytes 2 (fld attr 0 16))

/-- The bytes of a key that are wrapped: an AES key, or a scalar, big-endian (14 R433, R434). -/
def keyBytes (type key : Nat) : List Nat := if type ≤ 2 then aesKey type key else beBytes 32 key

/-- What MRAM holds of a key: the root is in OTP; a public key stands with its AES-CMAC, any other key wrapped (14 R433). -/
def State.storedOf (s : State) (n : Nat) (attr : BitVec 64) (key : Nat) : List Nat :=
  let p := s.slot (fld attr 8 6)
  let kst := storageKey p.type p.key n attr
  if n = 0 || fld attr 62 2 = 0 then []
  else if fld attr 16 4 = 4 then cmac kst (pubBytes key) else rfcWrap kst (keyBytes (fld attr 16 4) key)

/-- Write a slot: its cell in MRAM, and its key in key-store memory. -/
def State.setSlot (s : State) (n : Nat) (k : Slot) : State :=
  { s.onNv (fun v => v.setSlots (tset {} v.slots n { attr := k.attr, stored := s.storedOf n k.attr k.key, pubX := k.pubX, pubY := k.pubY })) with
    keys := { s.keys with plain := tset 0 s.keys.plain n k.key } }

/-- The key of a slot as its stored form gives it back: unwrapped under the storage key of its parent, whose own key is recovered first, from the
root down (14 R433). -/
def State.recovered (s : State) : Nat → Nat → Nat
  | 0, _ => 0
  | fuel + 1, n =>
    if n = 0 then s.nv.root.getD 0 else
    let c := tget {} s.nv.slots n
    let type := fld c.attr 16 4
    let p := fld c.attr 8 6
    if type = 4 then c.pubX + c.pubY * 2 ^ 256 else
    match rfcUnwrap (storageKey (fld (tget {} s.nv.slots p).attr 16 4) (s.recovered fuel p) n c.attr) c.stored with
    | some l => if type ≤ 2 then ofBytes l else ofBe l
    | none => 0

/-- Start-up brings every ACTIVE key into key-store memory (14 R433). -/
def State.loadKeys (s : State) : State :=
  { s with keys := { s.keys with
    plain := (rangeFrom 0 64).foldl (fun t n => if (s.slot n).st = 1 then tset 0 t n (s.recovered 8 n) else t) [] } }

/-- The ACTIVE slots directly under a slot are wrapped anew under its key's storage keys (14 R436). -/
def State.rewrapped (s : State) (a : Nat) : State :=
  (rangeFrom 1 63).foldl (fun s n => if n != a && (s.slot n).st = 1 && (s.slot n).parent = a then s.setSlot n (s.slot n) else s) s

/-- Slots that hold something, root included. -/
def State.inUse (s : State) (n : Nat) : Bool := (s.slot n).st != 0

/-- Whether slot `a` is an ancestor of slot `n`, following PARENT through slots in use. -/
def State.isAncestor (s : State) : Nat → Nat → Nat → Bool
  | 0, _, _ => false
  | fuel + 1, a, n =>
    if n = 0 || !s.inUse n then false
    else (s.slot n).parent == a || s.isAncestor fuel a (s.slot n).parent

/-- The descendants of a slot, at every depth (14 R438). -/
def State.descendants (s : State) (a : Nat) : List Nat :=
  (rangeFrom 1 63).filter (fun n => n != a && s.isAncestor 64 a n)

/-- The level of a slot in its hierarchy, the root being level 1; 64 where the chain does not reach the root. -/
def State.level (s : State) : Nat → Nat → Nat
  | 0, _ => 64
  | fuel + 1, n => if n = 0 then 1 else 1 + s.level fuel (s.slot n).parent

/-- Whether a key of slot `n` under `parent` would make a sixth level, its descendants counted (14 R431). -/
def State.tooDeep (s : State) (n parent : Nat) : Bool :=
  parent == n || s.isAncestor 64 n parent
    || decide (5 < s.level 8 parent + 1)
    || (s.descendants n).any (fun d => decide (5 < s.level 8 d - s.level 8 n + s.level 8 parent + 1))

/-- USAGE contradicts TYPE (14 R432). -/
def usageBad (type usage : Nat) : Bool :=
  if type ≤ 2 then usage &&& 0x30 != 0 else usage &&& 0x0F != 0

/-- Refusals that every KEY write shares: sealed keys, and a module that is scrapped or has no root (14 R429, R455,
R461). `exists'` says that the objects the request names exist (11 R352). -/
def State.keyWriteChecks (s : State) (exist : Bool) : List (Bool × Status) :=
  [(s.sealed, .tamper), (!exist, .range), (s.nv.lcs == 3 || !s.keys.rootOk, .state)]

/-- RANGE for the attributes of a LOAD or GENERATE (14 R430, R431, R435). -/
def State.attrBad (s : State) (n : Nat) (attr : BitVec 64) : Bool :=
  let rw := fld attr 0 6 + 256 * fld attr 8 12
  let type := fld attr 16 4
  let cls := fld attr 14 2
  let parent := fld attr 8 6
  match roleAttr n with
  | some w => n ≤ 2 || rw != w || ((s.slot parent).st == 0 && parent != 0)
  | none =>
    !(type == 1 || type == 2 || type == 3) || !(cls == 1 || cls == 2)
      || (cls == 1 && parent != 0)
      || (cls == 2 && ((s.slot parent).st == 0 || (s.slot parent).cls != 2))
      || s.tooDeep n parent

/-- The parent's key has no DERIVE, which the storage key of a slot under it needs (14 R432, R433). -/
def State.parentUsageBad (s : State) (attr : BitVec 64) : Bool := !(decide ((s.slot (fld attr 8 6)).usage / 8 % 2 = 1))

/-- The PARENT of a LOAD or GENERATE is ORPHANED (14 R435). -/
def State.parentOrphaned (s : State) (attr : BitVec 64) : Bool := (s.slot (fld attr 8 6)).st == 2

/-- Hold a pending twin of a slot (14 R435, R437). -/
def State.setTwin (s : State) (n : Nat) (attr : BitVec 64) (key : Nat) : State × Nat :=
  let kcv := kcvOf (fld attr 16 4) key
  ({ s with keys := { s.keys with twins := tset none s.keys.twins n (some ⟨attr, key, kcv, s.now⟩) } }, kcv)

/-- Drop the pending twin of a slot. -/
def State.dropTwin (s : State) (n : Nat) : State := { s with keys := { s.keys with twins := tset none s.keys.twins n none } }

/-- Make a key the active key of its slot, with its public point where the type has one (14 R436, R463). -/
def State.activate (s : State) (n : Nat) (rw gen key : Nat) : State :=
  let type := rw / 65536 % 16
  let pub := pubOf type key
  s.setSlot n { attr := activeAttr rw gen (kcvOf type key), key := key, pubX := pub % 2 ^ 256, pubY := pub / 2 ^ 256 % 2 ^ 256 }

/-- KF(f, g): derived from slot 4 with the label WTF and the context f, g (14 R435). -/
def State.feederKey (s : State) (f g : Nat) : Nat :=
  ofBytes (kdf 16 (leBytes 32 (s.slot 4).key) [0x57, 0x54, 0x46] (f % 256 :: leBytes 2 g))

/-- The segment key that GENERATE derives from the site key: label VXS, context SERIAL (14 R435). -/
def State.segmentKey (s : State) : Nat :=
  ofBytes (kdf 32 (leBytes 32 (s.slot 3).key) [0x56, 0x58, 0x53] (leBytes 16 s.nv.serial))

/-- KF(f, g + 1) of a pending rollover: the twin's, derived again from the record where the twin is gone (14 R444, R446). -/
def State.nextKey (s : State) (f g : Nat) : Nat :=
  match tget none s.keys.twins (f + 8) with | some w => w.key | none => s.feederKey f g

/-- What WKEY unwraps to under a session's KX: none where the integrity check fails, the padding of an AES-128 block is not zero, or a scalar is
outside 1 to n - 1 (14 R434). -/
def unwrapKey (kx type wkey wkeyA : Nat) : Option Nat :=
  match rfcUnwrap (leBytes 16 kx) (leBytes 8 wkeyA ++ leBytes 32 wkey) with
  | none => none
  | some l =>
    if type = 1 then (if l.drop 16 = zeros 16 then some (ofBytes (l.take 16)) else none)
    else if type = 2 then some (ofBytes l)
    else if 1 ≤ ofBe l ∧ ofBe l < p256n then some (ofBe l) else none

/-- The transport key of the session that a request came in. -/
def State.kxOf (s : State) (ses : Nat) : Nat := match s.session ses with | some x => x.kx | none => 0

/-- KEY SLOT_READ. -/
def execKeySlotRead (r : Req) (s : State) : Res :=
  hostCmd { cmd := 0x0B01, need := .read } r (fun _ t =>
    .ok ((rangeFrom 0 64).map (fun n => (t.attrShown n, 8))) t) s

/-- KEY LOAD: a pending twin from WKEY, which arrives as its first 8 bytes and the 32 that follow; a failed unwrap is RANGE with DETAIL 1 (14
R434, R435). -/
def execKeyLoad (r : Req) (slot : Nat) (attr : BitVec 64) (wkey wkeyA : Nat) (s : State) : Res :=
  hostCmd { cmd := 0x0B02, need := .keys } r (fun w t =>
    checked (t.keyWriteChecks (decide (slot < 64)) ++
        [(decide (8 ≤ slot ∧ slot ≤ 15) || t.attrBad slot attr, .range)])
      (match unwrapKey (t.kxOf w.ses) (fld attr 16 4) wkey wkeyA with
       | none => .no .range 1
       | some key =>
         checked [(usageBad (fld attr 16 4) (fld attr 0 6), .usage), (t.parentOrphaned attr, .orphaned), (t.parentUsageBad attr, .usage)]
          (let (t', kcv) := t.setTwin slot attr key
           .ok [(kcv, 3)] t'))) s

/-- A key of a type from the entropy source, a free value: 128 or 256 bits, or a scalar of 1 to n - 1 (14 R434, R435). -/
def State.drawKey (s : State) (type : Nat) : Nat × State :=
  if type = 3 then (let (k, s) := s.draw (p256n - 1); (k + 1, s)) else s.draw (if type = 1 then 2 ^ 128 else 2 ^ 256)

/-- KEY GENERATE: slot 4 from slot 3 with the label VXS and SERIAL, a feeder slot from slot 4 at g = 1, any other slot from
entropy, which is a free value (14 R435). -/
def execKeyGenerate (r : Req) (slot : Nat) (attr : BitVec 64) (s : State) : Res :=
  hostCmd { cmd := 0x0B03, need := .keys } r (fun _ t =>
    checked (t.keyWriteChecks (decide (slot < 64)) ++
        [(decide (8 ≤ slot ∧ slot ≤ 15) && (t.slot slot).st == 1, .state), (t.attrBad slot attr, .range),
         (usageBad (fld attr 16 4) (fld attr 0 6), .usage), (t.parentOrphaned attr, .orphaned), (t.parentUsageBad attr, .usage)])
      (let (e, t1) := t.drawKey (fld attr 16 4)
       let (key, t2) :=
         if slot = 4 then (t.segmentKey, t)
         else if 8 ≤ slot ∧ slot ≤ 15 then (t.feederKey (slot - 8) 1, t)
         else (e, t1)
       let (t', kcv) := t2.setTwin slot attr key
       .ok [(kcv, 3)] t')) s

/-- A slot has ACTIVE slots directly under it. -/
def State.hasChildren (s : State) (a : Nat) : Bool :=
  (rangeFrom 1 63).any (fun n => n != a && (s.slot n).st == 1 && (s.slot n).parent == a)

/-- KEY COMMIT: the twin becomes the active key; descendants keep STATE and material, rewrapped under the new key (14 R436). A feeder slot that is
ACTIVE is refused, since its twin is a rollover's; one that is not commits at g = 1 (R442). What stands at the commit decides again on the depth,
the parent and the DERIVE that the storage keys need, since the hierarchy may have changed since the LOAD (R431, R432, R439; log entry 21). -/
def execKeyCommit (r : Req) (slot kcv : Nat) (s : State) : Res :=
  hostCmd { cmd := 0x0B04, need := .keys } r (fun _ t =>
    checked (t.keyWriteChecks (decide (slot < 64)))
      (match tget none t.keys.twins slot with
       | none => .no .state 0
       | some w =>
         let cls := fld w.attr 14 2
         checked [(decide (8 ≤ slot ∧ slot ≤ 15) && (t.slot slot).st == 1, .state),
             (cls == 2 && (t.tooDeep slot (fld w.attr 8 6) || (t.slot (fld w.attr 8 6)).st == 0), .range), (kcv != w.kcv, .kcvFail),
             (t.parentOrphaned w.attr, .orphaned), (t.parentUsageBad w.attr || (t.hasChildren slot && fld w.attr 3 1 == 0), .usage)]
          (.ok [] (((t.activate slot (fld w.attr 0 6 + 256 * fld w.attr 8 12) 1 w.key).rewrapped slot).dropTwin slot)))) s

/-- A rollover is pending or its retiring key still stands on a feeder at or below a slot (14 R438). -/
def State.rolloverBelow (s : State) (slot : Nat) : Bool :=
  (rangeFrom 0 8).any (fun f =>
    ((tget none s.nv.rolls f).isSome || (tget none s.keys.retiring f).isSome)
      && (slot == f + 8 || s.isAncestor 64 slot (f + 8)))

/-- Set STATE of slots to ORPHANED: their keys leave key-store memory, and what MRAM stores of them cannot be unwrapped without the parent (14
R433, R438, R439). -/
def State.orphan (s : State) (l : List Nat) : State :=
  l.foldl (fun s n => { s.onNv (fun v => v.setSlots (tset {} v.slots n
    (let c := tget {} v.slots n; { c with attr := setFld c.attr 62 2 2 }))) with keys := { s.keys with plain := tset 0 s.keys.plain n 0 } }) s

/-- Registered install keys can no longer be unwrapped (14 R440). -/
def State.spoilRegs (s : State) : State := s.onNv (fun v => { v with regs := v.regs.map (fun x => { x with usable := false }) })

/-- KEY INVALIDATE: the slot becomes EMPTY and every descendant ORPHANED (14 R438-R440). -/
def execKeyInvalidate (r : Req) (slot : Nat) (s : State) : Res :=
  hostCmd { cmd := 0x0B05, need := .keys } r (fun _ t =>
    checked (t.keyWriteChecks (decide (slot < 64)) ++
        [((t.slot slot).st == 0, .state), (decide (2 ≤ slot) && t.rolloverBelow slot, .state), (decide (slot < 2), .range)])
      (let ds := t.descendants slot
       let t := ((t.orphan ds).setSlot slot {}).dropTwin slot
       let t := if slot = 4 then t.spoilRegs else t
       .ok [((ds.map (fun n => 2 ^ n)).foldl (· + ·) 0, 8)] t)) s

/-! ## Rollover (14 R444-R447) -/

/-- Joined addresses on a feeder. -/
def State.joinedOn (s : State) (f : Nat) : List Nat :=
  s.nv.regs.filterMap (fun x => match x.addr with | some a => if a / 2048 = f then some a else none | none => none)

/-- Joined nodes of a feeder without an acknowledgement of the pending generation (04 R144). -/
def State.unacked (s : State) (f : Nat) : Nat := ((s.joinedOn f).filter (fun a => !(s.node a).keyAcked)).length

/-- KEY ROLLOVER: the twin holds KF(f, g+1), the record goes to MRAM, and distribution starts (14 R444). -/
def execKeyRollover (r : Req) (feeder tgt : Nat) (s : State) : Res :=
  hostCmd { cmd := 0x0B06, need := .keys } r (fun w t =>
    let k := t.slot (feeder + 8)
    checked (t.keyWriteChecks (decide (feeder < 8)) ++
        [(k.st != 1, .state), ((tget none t.nv.rolls feeder).isSome, .state),
         (k.gen == 0xFFFF, .range), (t.badTgt tgt, .range)] ++ t.lateTgt tgt 65536 ++
        [(t.parentOrphaned k.attr, .orphaned)])
      (let g := k.gen + 1
       let (t, _) := t.setTwin (feeder + 8) k.attr (t.feederKey feeder g)
       let t := t.onNv (fun v => { v.setRolls (tset none v.rolls feeder (some ⟨tgt, g, w.ses, w.seq⟩)) with
                                           lastRoll := tset 0 v.lastRoll feeder tgt })
       let t := (t.joinedOn feeder).foldl (fun t a => t.onNode a (fun n => { n with keyAcked := false, keySent := 0 })) t
       .deferred tgt (t.onFeeder feeder (fun x => { x with kfStart := t.tb.hcn, kfDue := false, keyQ := (t.joinedOn feeder).map (fun a => a % 2048) })))) s

/-- KEY ROLL_READ (14 R447). -/
def execKeyRollRead (r : Req) (feeder : Nat) (s : State) : Res :=
  hostCmd { cmd := 0x0B07, need := .read } r (fun _ t =>
    let p := tget none t.nv.rolls feeder
    checked [(decide (7 < feeder), .range)]
      (.ok [((t.slot (feeder + 8)).gen % 256, 1), (b2n p.isSome, 1), (tget 0 t.nv.lastRoll feeder, 6),
            (if p.isSome then t.unacked feeder else 0, 2)] t)) s

/-- The commit of a rollover: KF(g+1) becomes active, KF(g) retires until the edge of t + 2, one event carries the count of
nodes without an acknowledgement, and the FINAL is OK (14 R445). A sealed feeder slot waits (R446). -/
def State.rolloverCommit (s : State) (f : Nat) : State :=
  match tget none s.nv.rolls f with
  | none => s
  | some p =>
    if s.sealed || (s.slot (f + 8)).st != 1 then s else
    let n := s.unacked f
    let old := s.slot (f + 8)
    let s := (s.activate (f + 8) ((roleAttr (f + 8)).getD 0) p.gen (s.nextKey f p.gen)).dropTwin (f + 8)
    let s := s.onNv (fun v => v.setRolls (tset none v.rolls f none))
    let s := { s with keys := { s.keys with retiring := tset none s.keys.retiring f (some (p.t, old)) } }
    ((s.onFeeder f (fun x => { x with oldGenEvent := false })).raiseGen .m 0x0B 0 [(n, 2)]).complete p.ses p.seq 0x0B06 .ok []

/-- Rollovers whose target has passed commit (14 R446). -/
def State.rolloversPassed (s : State) : State :=
  (rangeFrom 0 8).foldl (fun s f =>
    match tget none s.nv.rolls f with
    | some p => if s.started && decide (p.t ≤ s.tb.hcn) then s.rolloverCommit f else s
    | none => s) s

/-! ## Operator key and deny list -/

/-- KEY OPERATOR_SET: slot 2 takes the public key whose signature, r and s, checks under the operator key that stands, or with none under itself; every session ends after the response (14 R448, R376). -/
def execKeyOperatorSet (r : Req) (pub sigFst sigSnd : Nat) (s : State) : Res :=
  hostCmd { cmd := 0x0B08, need := .keys } r (fun _ t =>
    checked (t.keyWriteChecks true ++
        [(!(ecdsaOk (if (t.slot 2).st == 1 then (t.slot 2).key else pub) (ofBe (sha256 (pubBytes pub ++ leBytes 16 t.nv.serial))) (sigOf sigFst sigSnd)), .signature)])
      (.okThen [] (t.activate 2 ((roleAttr 2).getD 0) 1 pub) (fun t' => t'.endAll .operator))) s

/-- KEY DENY_SET: the whole list; sessions whose certificate is on it end after the response (14 R450). -/
def execKeyDenySet (r : Req) (serials : List Nat) (s : State) : Res :=
  hostCmd { cmd := 0x0B09, need := .keys } r (fun _ t =>
    checked (t.keyWriteChecks true ++ [(decide (32 < serials.length), .range)])
      (.okThen [] (t.onNv (fun v => v.setDeny serials)) (fun t' =>
        ((t'.vxc.sessions.filter (fun x => serials.contains x.serial)).map Session.id).foldl
          (fun u i => u.endSession i .deny) t'))) s

/-- KEY DENY_READ. -/
def execKeyDenyRead (r : Req) (s : State) : Res :=
  hostCmd { cmd := 0x0B0A, need := .read } r (fun _ t =>
    .ok ((t.nv.deny.length, 1) :: t.nv.deny.map (fun x => (x, 20))) t) s

/-! ## Tamper (14 R456-R462, 13 R426) -/

/-- The 12 bytes of a tamper log entry (13, table "TLOG_n"); INPUT 2 stands for an unknown input (14 R460). -/
def tlogItem (main : Bool) (input : Nat) (valid : Bool) (sub lin : Nat) : Nat :=
  pack [(56, 1, b2n main), (48, 8, input), (47, 1, b2n valid), (32, 15, sub), (0, 32, lin)]

/-- A log entry's item. -/
def TlogEntry.item (e : TlogEntry) : Nat := tlogItem e.main (b2n e.inputB) e.valid e.sub e.lin

/-- The TAMPER record of an assertion: log item and response (16, table "Event codes"). -/
def State.tamperRecord (s : State) (item resp : Nat) : State :=
  s.raiseHw 1 0x35 0xFFF 0x0B01 (leBytes 12 item ++ [resp])

/-- Erase every TREE key and pending twin, the registered install keys and every rollover record (14, response TREE). A
rollover ends by FINAL with TAMPER (R457). -/
def State.eraseTree (s : State) : State :=
  let s := (rangeFrom 0 8).foldl (fun s f =>
    match tget none s.nv.rolls f with
    | some p => s.complete p.ses p.seq 0x0B06 .tamper []
    | none => s) s
  let s := (rangeFrom 1 63).foldl (fun s n => if (s.slot n).cls == 2 then s.setSlot n {} else s) s
  ({ s with keys := { s.keys with twins := [], retiring := [] } }.onNv (fun v => v.setRolls [])).spoilRegs

/-- The response to an assertion while the module runs (14 R457, table "Tamper responses"). -/
def State.tamperRespond (s : State) (inputB : Bool) : State :=
  let resp := if inputB then s.nv.respB else s.nv.respA
  let item := tlogItem s.rtc.lockout (b2n inputB) s.bk.valid s.bk.sub s.lin
  let s := (s.tamperRecord item resp).notifyClass 7 0x0B80 .ok
    [(b2n inputB, 1), (resp, 1), (s.tb.hcn, 6), (s.lin, 4)]
  let s := if 2 ≤ resp then s.eraseTree else s
  if 1 ≤ resp then s.endAll .restart else s

/-- One more assertion counted by the key store (KS_STAT TAMPER_CNT). -/
def State.tamperCount (s : State) : State :=
  let b := bump 255 s.keys.tamperCnt
  { s with keys := { s.keys with tamperCnt := b.1 } }.stuckIf b.2 wKeyst 24

/-- A tamper input asserts: logged while LOCKOUT is set or the M-region does not run, held for the key store before it is
ready, answered at once otherwise (13 R426, R427; 14 R456-R460). An input that is in its tamper state already makes no
second assertion. -/
def execTamperAssert (dt : Dt) (inputB : Bool) (s : State) : Res :=
  let t := s.tick dt
  .next (if (if inputB then t.bk.inB else t.bk.inA) then t
    else
      let t := { t with bk := if inputB then { t.bk with inB := true } else { t.bk with inA := true } }
      if t.rtc.lockout || !t.runs .m then
        if t.bk.log.length < 8 then
          { t with bk := { t.bk with log := t.bk.log ++ [⟨t.rtc.lockout, inputB, t.bk.valid, t.bk.sub, t.lin⟩] } }
        else { t with bk := { t.bk with ovf := stick 255 (t.bk.ovf + 1) } }
      else if t.pow.phase.rank < 4 then { t.tamperCount with keys := { t.tamperCount.keys with
          early := t.keys.early ++ [(b2n inputB, tlogItem t.rtc.lockout (b2n inputB) t.bk.valid t.bk.sub t.lin)] } }
      else t.tamperCount.tamperRespond inputB)

/-- A tamper input has held its normal state for 32 RTC cycles and is re-armed (14 R456). -/
def execTamperRearm (dt : Dt) (inputB : Bool) (s : State) : Res :=
  let t := s.tick dt
  .next { t with bk := if inputB then { t.bk with inB := false } else { t.bk with inA := false } }

/-- Treat one assertion at the start of the M-region: an event record, and a seal under response 2 (14 R460). -/
def State.treatTamper (s : State) (input item : Nat) : State :=
  let resp := if input = 0 then s.nv.respA else if input = 1 then s.nv.respB else max s.nv.respA s.nv.respB
  let s := s.tamperRecord item resp
  if resp = 2 then s.onNv (fun v => { v with seals := setBit v.seals input true }) else s

/-- The hand-over of the tamper log and of early assertions to the key store (13 R428, 14 R460): every entry is treated, an
overflow counts as one assertion of unknown input, and the log is emptied by exactly what was read. -/
def State.handOver (s : State) : State :=
  let s := s.bk.log.foldl (fun s e => s.tamperCount.treatTamper (b2n e.inputB) e.item) s
  let s := if 0 < s.bk.ovf then s.tamperCount.treatTamper 2 (tlogItem false 2 false 0 0) else s
  let s := s.keys.early.foldl (fun s e => s.treatTamper e.1 e.2) s
  { s with bk := { s.bk with log := [], ovf := 0 }, keys := { s.keys with early := [] } }

/-- KEY TAMPER_SET. -/
def execKeyTamperSet (r : Req) (respA respB : Nat) (s : State) : Res :=
  hostCmd { cmd := 0x0B0B, need := .keys } r (fun _ t =>
    checked (t.keyWriteChecks true ++ [(decide (2 < respA) || decide (2 < respB), .range)])
      (.ok [] (t.onNv (fun v => { v with respA := respA, respB := respB })))) s

/-- KEY TAMPER_READ. -/
def execKeyTamperRead (r : Req) (s : State) : Res :=
  hostCmd { cmd := 0x0B0C, need := .read } r (fun _ t =>
    .ok ([(b2n t.bk.inA + 2 * b2n t.bk.inB + 4 * b2n t.sealed, 1), (t.nv.respA, 1), (t.nv.respB, 1), (t.bk.log.length, 1)]
      ++ t.bk.log.map (fun e => (e.item, 12))) t) s

/-- KEY TAMPER_ACK: one seal bit clears; with all clear the keys are released and rollovers that passed commit (14 R446,
R461). -/
def execKeyTamperAck (r : Req) (input : Nat) (s : State) : Res :=
  hostCmd { cmd := 0x0B0D, need := .keys } r (fun _ t =>
    checked [(decide (2 < input), .range), (t.nv.lcs == 3 || !t.keys.rootOk, .state),
        (!(bit t.nv.seals input), .state), ((input == 0 && t.bk.inA) || (input == 1 && t.bk.inB), .state)]
      (let t := t.onNv (fun v => { v with seals := setBit v.seals input false })
       .ok [] (if t.sealed then t else t.rolloversPassed))) s

/-- An uncommitted twin is discarded 600 s after its creation (14 R437); a rollover's twin stands with its record (log entry
21). -/
def execTwinExpiry (dt : Dt) (slot : Nat) (s : State) : Res :=
  let t := s.tick dt
  .next (match tget none t.keys.twins slot with
    | some w =>
      if decide (t.now < w.at_ + 600 * secC) || (decide (8 ≤ slot) && (tget none t.nv.rolls (slot - 8)).isSome && decide (slot ≤ 15))
      then t else t.dropTwin slot
    | none => t)

end Sys2Proof.Machine
end

