-- ==== Sys2Proof/Machine/Bus.lean ====
section
/-!
DEFINITION. Bus errors and access to block windows (01 R43, R48-R51).
-/
namespace Sys2Proof.Machine

/-- The block of a master as a SOURCE (log entry 23). -/
def masterSource : Master → Nat
  | .triple .c => srcHw 2 0x10 0xFFF
  | .triple .d => srcHw 2 0x20 0xFFF
  | .triple .m => srcHw 2 0x30 0xFFF
  | .dma .c => srcHw 1 0x16 0xFFF
  | .dma .d => srcHw 1 0x26 0xFFF
  | .dma .m => srcHw 1 0x3C 0xFFF
  | .engine b => srcHw 1 (b % 256) 0xFFF
  | .mem => srcHw 2 0x30 0xFFF

/-- What a hardware engine's block does: it stops the operation and reruns it (R50; table "Levels, arbitration and error handling"). The
Sillage engine's pass stops here and its rerun is settled at its commit (05 R185, R186); every other engine's operation lies within one
command, so that it and its rerun leave the state that the command leaves (log entry 23). -/
def State.engineStops (s : State) : Master → State
  | .engine 0x11 => if s.sil.pass.isSome then s.onSil (fun g => { g with busStops := g.busStops + 1 }) else s
  | .engine _ | .triple _ | .dma _ | .mem => s

/-- An access ends in a bus error: its master learns of it, and it is recorded with address and master (R50). -/
def State.busErr (s : State) (m : Master) (addr : Nat) (write : Bool) : State :=
  ((s.engineStops m).emit (.busError addr)).raiseHw 3 0x02 0xFFF 0x0005 (leBytes 4 addr ++ leBytes 4 (masterSource m) ++ [b2n write])

/-- The region of an address: by SRAM range, or by block window; none for chip level, junction, MRAM and flash (01, tables
"Internal address map" and "Block windows"). -/
def regionOfAddr (addr : Nat) : Option Region :=
  if addr < 0x01000000 then some .c
  else if addr < 0x02000000 then some .d
  else if addr < 0x03000000 then some .m
  else if addr < 0x40000000 then none
  else match blockRegion (addr / 65536 % 256) with
    | 0 => some .c
    | 1 => some .d
    | 2 => some .m
    | _ => none

/-- The region that an address lies in answers: it is not in a restart (R43). -/
def State.reachable (s : State) (addr : Nat) : Bool :=
  match regionOfAddr addr with
  | some r => s.runs r
  | none => true

/-- An access to a block window: it takes effect, or ends in a bus error. -/
def State.access (s : State) (m : Master) (addr : Nat) (write : Bool) (k : State → State) : State :=
  if s.reachable addr then k s else s.busErr m addr write

end Sys2Proof.Machine
end

