-- ==== Sys2Proof/Machine/Log.lean ====
section
/-!
DEFINITION. The event recorder (16): records as they stand in MRAM, the scan, the writing of one record, drops and suppressions with
their summaries, reading and clearing (11 R378).
-/
namespace Sys2Proof.Machine

/-! ## Records (R495-R497) -/

/-- Bytes 0-57 of a record as a number (16, table "Event record, 64 bytes"). -/
def evBody (seq : Nat) (perm : Bool) (e : EvEntry) : Nat :=
  pack [(208, 256, ofBytes e.pay), (176, 32, e.src), (160, 16, e.code), (152, 3, sevOf e.code), (147, 1, b2n e.summary),
    (146, 1, b2n perm), (145, 1, b2n e.virt), (144, 1, b2n e.rtcValid), (112, 32, e.rtcSec), (64, 48, e.hcn), (0, 32, seq)]

/-- The CRC of a record: over bytes 0-57, the low 464 bits. -/
def evCrc (body : Nat) : Nat := crc32 (lsbBits 464 body)

/-- A record with MARK VALID. -/
def evWord (seq : Nat) (perm : Bool) (e : EvEntry) : BitVec 512 :=
  let b := evBody seq perm e
  BitVec.ofNat 512 (b + 0xA5 * 2 ^ 464 + evCrc b * 2 ^ 480)

/-- Fields of a stored record. -/
def evSeq (w : BitVec 512) : Nat := fld w 0 32
def evCode (w : BitVec 512) : Nat := fld w 160 16
def evSev (w : BitVec 512) : Nat := fld w 152 3

/-- MARK reads VALID. -/
def evMarked (w : BitVec 512) : Bool := fld w 464 8 == 0xA5

/-- A valid record: MARK VALID, and CRC checks (R500). -/
def evOk (w : BitVec 512) : Bool := evMarked w && fld w 480 32 == evCrc (fld w 0 464)

/-- Serial-number order modulo 2^32: `a` is newer than `b` (R496). -/
def serNewer (a b : Nat) : Bool := a != b && decide ((a + 4294967296 - b) % 4294967296 < 2147483648)

/-- Slots of the areas. -/
def permSlots : Nat := 8192
def circSlots : Nat := 57344

/-! ## Registers (R511) -/

/-- EVTIN_STAT. -/
def State.evtinStat (s : State) : Nat :=
  pack [(24, 8, s.ev.crcBad), (20, 4, s.ev.qX.length), (14, 6, s.ev.qM.length), (8, 6, s.ev.qD.length),
    (2, 6, s.ev.qC.length), (1, 1, s.cfgAt 4 (b2n (evOk (tget 0 s.nv.permArea 8191)))), (0, 1, b2n s.ev.paused)]

/-- EVTIN_DROP: drops awaiting their summary, each sticking at FFh (R504). -/
def Intake.dropReg (e : Intake) : Nat :=
  pack [(24, 8, stick 255 e.dropX.count), (16, 8, stick 255 e.dropM.count), (8, 8, stick 255 e.dropD.count),
    (0, 8, stick 255 e.dropC.count)]

/-! ## Changes of the recorder -/

/-- Change the intake. -/
def State.onEv (s : State) (g : Intake → Intake) : State := { s with ev := g s.ev }

/-- The EVENT notification of a record, to each session whose SEV_MIN it reaches (R500; 11 R358). -/
def State.eventNote (s : State) (w : BitVec 512) : State :=
  ((s.vxc.sessions.filter (fun (x : Session) => bit x.classes 0 && decide (x.sevMin ≤ evSev w))).map Session.id).foldl
    (fun s i => s.notify i 0x0D80 false .ok [(w.toNat, 64)]) s

/-- The LIFECYCLE record of a change into FIELD starts the permanent area (R499). -/
def startsPerm (x : EvEntry) : Bool := x.code == 0x0008 && x.pay.drop 1 == [1]

/-- One record is written, with the next SEQ, into the area that takes it; `circ` forces the circular one (R499, R500, R510). -/
def State.writeRec (s : State) (x : EvEntry) (circ : Bool) : State :=
  let started := s.nv.permStarted || (startsPerm x && !circ)
  let perm := started && !circ && decide (s.ev.permNext < permSlots)
  let q := s.ev.nextSeq
  let w := evWord q perm x
  let s : State := if perm
    then { s with
      nv := { s.nv with permArea := tset 0 s.nv.permArea s.ev.permNext w }
      ev := { s.ev with permNext := s.ev.permNext + 1 } }
    else { s with
      nv := { s.nv with circArea := tset 0 s.nv.circArea s.ev.circNext w }
      ev := { s.ev with circNext := (s.ev.circNext + 1) % circSlots } }
  let s : State := { s with
    nv := { s.nv with permStarted := started, evWrap := if q = 0xFFFFFFFF then (s.nv.evWrap + 1) % 65536 else s.nv.evWrap }
    ev := { s.ev with nextSeq := (q + 1) % 4294967296 } }
  s.eventNote w

/-! ## Summaries (R504, R506) -/

/-- The payload of a tally: COUNT, HCN_FIRST, HCN_LAST. -/
def Tally.pay (t : Tally) : List Nat := leBytes 4 t.count ++ leBytes 6 t.first ++ leBytes 6 t.last

/-- A DROPPED record takes the first free entry of a queue after drops (R504). -/
def State.dropNote (s : State) (k : Queue) : State :=
  let d := s.ev.drop k
  if d.count = 0 ∨ k.cap ≤ (s.ev.q k).length then s
  else
    let x := s.entry 0x0002 srcEvtin ([k.no, 0, 0, 0] ++ d.pay) true
    s.onEv (fun e => (e.setQ k (e.q k ++ [x])).setDrop k {})

/-- A SUPPRESSED record of a code enters the chip queue, or waits for its first free entry (R506). -/
def State.suppNote (s : State) (code : Nat) : State :=
  let b := tget {} s.ev.buckets code
  if b.supp.count = 0 then s
  else if Queue.chip.cap ≤ s.ev.qX.length then
    s.onEv (fun e => { e with waitSum := if e.waitSum.contains code then e.waitSum else e.waitSum ++ [code] })
  else
    let x := s.entry 0x0001 srcEvtin (leBytes 2 code ++ [0, 0] ++ b.supp.pay) true
    s.onEv (fun e => { e with
      qX := e.qX ++ [x]
      buckets := tset {} e.buckets code { b with supp := {} }
      waitSum := e.waitSum.filter (fun c => c != code) })

/-- A region's queue is emptied by that region's restart; what it held counts as dropped, and the summary follows (R503, R504). -/
def State.queueEmptied (s : State) (k : Queue) : State :=
  ((s.onEv (fun e => (e.q k).foldl (fun e x => { e.setDrop k ((e.drop k).add x.hcn) with
    dropTotal := stick 0xFFFFFFFF (e.dropTotal + 1) }) (e.setQ k []))).dropNote k).totalsTold s.ev

/-! ## Writing (R500, R503) -/

/-- The queue whose head is next in the order of intake: chip, C, D, then M within one moment (R495). -/
def Intake.nextQ (e : Intake) : Option Queue :=
  [Queue.chip, .c, .d, .m].foldl (fun b k =>
    match (e.q k).head?, b with
    | none, _ => b
    | some _, none => some k
    | some x, some j => match (e.q j).head? with
      | some y => if x.time < y.time then some k else b
      | none => some k) none

/-- Writing runs: the scan is done, no pause stands, and the M-region runs. -/
def State.evWriting (s : State) : Bool := !s.ev.paused && s.runs .m

/-- EVENT_RECORD_WRITE: the entry next in order leaves its queue and is written as a record; the free entry goes to a summary that
waits (R500, R503, R504, R506). -/
def execEventRecordWrite (dt : Dt) (s : State) : Res :=
  let t := s.tick dt
  .next (if !t.evWriting then t else
    match t.ev.nextQ with
    | none => t
    | some k =>
      match t.ev.q k with
      | [] => t
      | x :: r =>
        let u := (t.onEv (fun e => e.setQ k r)).writeRec x false
        let dropped := decide ((u.ev.drop k).count ≠ 0)
        let u := u.dropNote k
        match k, dropped, u.ev.waitSum with
        | .chip, false, c :: _ => u.suppNote c
        | _, _, _ => u)

/-- EVTIN_PORT_PUSH: a region's voter triple pushes an entry through its port (R502). -/
def execEvtinPortPush (dt : Dt) (region : Region) (code src : Nat) (pay : List Nat) (s : State) : Res :=
  let t := s.tick dt
  .next (if t.runs region then t.raise (queueOf region) (code % 65536) (src % 4294967296) pay else t)

/-- EVENT_LINE_ENTRY: a hardware block's event line delivers an entry to the queue of its region, or to the chip queue (R502). -/
def execEventLineEntry (dt : Dt) (block code cell : Nat) (pay : List Nat) (s : State) : Res :=
  let t := s.tick dt
  let up := match blockRegion block with
    | 0 => t.runs .c
    | 1 => t.runs .d
    | 2 => t.runs .m
    | _ => decide (1 ≤ t.pow.phase.rank)
  .next (if up then t.raiseHw (if cell ≠ 0xFFF then 0 else if block < 0x10 then 3 else 1) block cell (code % 65536) pay else t)

/-- The time in which a code's bucket gains one token: REFILL × 0.1 s (R505). -/
def State.refillC (s : State) (code : Nat) : Nat := tget 10 s.nv.refill code * (secC / 10)

/-- A bucket with one token more. -/
def Bucket.gain (b : Bucket) (period : Nat) : Bucket :=
  { b with tokens := b.tokens + 1, since := if 7 ≤ b.tokens then 0 else b.since + period }

/-- TOKEN_REFILL: a code's bucket gains a token once its time is over, and a SUPPRESSED summary follows suppressions (R505, R506). -/
def execTokenRefill (dt : Dt) (code : Nat) (s : State) : Res :=
  let t := s.tick dt
  let b := tget {} t.ev.buckets code
  .next (if codeRated code && decide (b.tokens < 8) && decide (1 ≤ t.pow.phase.rank) && decide (b.since + t.refillC code ≤ t.now)
    then (t.onEv (fun e => { e with buckets := tset {} e.buckets code (b.gain (t.refillC code)) })).suppNote code
    else t)

/-! ## Scan (R501) -/

/-- The newest of the valid records among slots, with its slot. -/
def newest (l : Tbl (BitVec 512)) : Option (Nat × Nat) :=
  l.foldl (fun b (e : Nat × BitVec 512) =>
    if !evOk e.2 then b else match b with
    | none => some (e.1, evSeq e.2)
    | some x => if serNewer (evSeq e.2) x.2 then some (e.1, evSeq e.2) else b) none

/-- Valid records of the circular area, oldest first, from the newest CLEAR on (R501). -/
def State.circRecs (s : State) : List (BitVec 512) :=
  let n := s.ev.circNext
  let l := ((s.nv.circArea.filter (fun e => decide (n ≤ e.1)) ++ s.nv.circArea.filter (fun e => decide (e.1 < n))).map Prod.snd).filter evOk
  l.foldl (fun acc w => if evCode w == 0x0003 then [w] else acc ++ [w]) []

/-- Valid records of the permanent area, oldest first. -/
def State.permRecs (s : State) : List (BitVec 512) := (s.nv.permArea.map Prod.snd).filter evOk

/-- The recorder's scan at a start of the M-region: the next SEQ and slots, the count of bad CRCs, which the first record after the
scan reports; then writing may begin (R501). -/
def State.evScan (s : State) : State :=
  let bad := ((s.nv.permArea ++ s.nv.circArea).filter (fun e => evMarked e.2 && !evOk e.2)).length
  let p := newest s.nv.permArea
  let c := newest s.nv.circArea
  let top := match p, c with
    | some a, some b => some (if serNewer a.2 b.2 then a.2 else b.2)
    | some a, none => some a.2
    | none, some b => some b.2
    | none, none => none
  let s := s.onEv (fun e => { e with
    permNext := (p.map (fun a => a.1 + 1)).getD 0
    circNext := (c.map (fun a => (a.1 + 1) % circSlots)).getD 0
    nextSeq := (top.map (fun q => (q + 1) % 4294967296)).getD 0
    crcBad := stick 255 bad
    clearing := false
    paused := (s.pow.supplyFail || s.pow.cmdShutdown) && !s.pow.failRecDone })
  if bad = 0 then s else s.writeRec (s.entry 0x0D00 srcEvtin (genPay wEvtin [(stick 255 bad, 1)]) false) false

/-! ## Reading and clearing (R508-R510, 11 R378) -/

/-- Records of an area. -/
def State.areaRecs (s : State) (area : Nat) : List (BitVec 512) := if area = 0 then s.permRecs else s.circRecs

/-- Examine records in order: at most `budget` of them, until `count` match; the matches, and the SEQ of the last one examined. -/
def examine (budget count : Nat) (hit : BitVec 512 → Bool) (last : Option Nat) : List (BitVec 512) → List (BitVec 512) × Option Nat
  | [] => ([], last)
  | w :: r =>
    match budget, count with
    | b + 1, c + 1 =>
      if hit w then
        let x := examine b c hit (some (evSeq w)) r
        (w :: x.1, x.2)
      else examine b (c + 1) hit (some (evSeq w)) r
    | _, _ => ([], last)

/-- LOG READ (R508, 11 R378). -/
def execLogRead (r : Req) (area start count sevMin code : Nat) (s : State) : Res :=
  hostCmd { cmd := 0x0D01, need := .read } r (fun _ t =>
    checked [(decide (1 < area ∨ count = 0 ∨ 21 < count ∨ 7 < sevMin), .range)]
      (let l := (t.areaRecs area).filter (fun w => !serNewer start (evSeq w))
       let x := examine 4096 count (fun w => decide (sevMin ≤ evSev w) && (code == 0 || evCode w == code)) none l
       .ok ([(x.1.length, 1), ((x.2.map (fun q => (q + 1) % 4294967296)).getD start, 4)] ++ x.1.map (fun w => (w.toNat, 64))) t)) s

/-- LOG CLEAR: the CLEAR record is written into the next circular slot, the clear is complete, and the old slots are marked EMPTY after
that (R510). -/
def execLogClear (r : Req) (s : State) : Res :=
  hostCmd { cmd := 0x0D02, need := .clear } r (fun w t =>
    checked [(t.ev.clearing, .busy)]
      (let q := t.ev.nextSeq
       let serial := ((t.session w.ses).map Session.serial).getD 0
       let t := t.writeRec (t.entry 0x0003 (srcFw .m) (leBytes 20 serial ++ leBytes 4 ((q + 4294967295) % 4294967296)) false) true
       .ok [(q, 4)] (t.onEv (fun e => { e with clearing := true, paused := true, suppTotal := 0, dropTotal := 0 })))) s

/-- LOG_CLEAR_ERASE_DONE: every old circular slot reads EMPTY, and writing resumes (R510). -/
def execLogClearEraseDone (dt : Dt) (s : State) : Res :=
  let t := s.tick dt
  .next (if !(t.ev.clearing && t.runs .m) then t else
    let keep := t.circRecs.map evSeq
    (t.onNv (fun v => { v with circArea := v.circArea.filter (fun e => evOk e.2 && keep.contains (evSeq e.2)) })).onEv
      (fun e => { e with clearing := false, paused := (t.pow.supplyFail || t.pow.cmdShutdown) && !t.pow.failRecDone }))

/-- FIRST and LAST of an area (R509). -/
def State.areaBounds (s : State) (area : Nat) : Nat × Nat :=
  let l := (s.areaRecs area).map evSeq
  if area = 0 && !s.nv.permStarted then (0, 0xFFFFFFFF)
  else (l.head?.getD s.ev.nextSeq, l.getLast?.getD ((s.ev.nextSeq + 4294967295) % 4294967296))

/-- LOG STATUS (R506, R509). -/
def execLogStatus (r : Req) (s : State) : Res :=
  hostCmd { cmd := 0x0D03, need := .read } r (fun _ t =>
    let p := t.areaBounds 0
    let c := t.areaBounds 1
    .ok [(p.1, 4), (p.2, 4), (c.1, 4), (c.2, 4), (t.ev.suppTotal, 4), (t.ev.dropTotal, 4)] t) s

/-- LOG RATE_SET (R505). -/
def execLogRateSet (r : Req) (code refill : Nat) (s : State) : Res :=
  hostCmd { cmd := 0x0D04, need := .configure } r (fun _ t =>
    checked [(decide (!codeRated code ∨ refill = 0 ∨ 6000 < refill), .range)]
      (.ok [] (t.onNv (fun v => { v with refill := tset 10 v.refill code refill })))) s

end Sys2Proof.Machine
end

