-- ==== Sys2Proof/Machine/Mem.lean ====
section
/-!
DEFINITION. Addressed memory (01 R37, R48, R49; 17 R512-R523): the bytes of SRAM, MRAM and flash, the tables that stand at
addresses of their own, the outcome of a word's read, poison, corrections, tracking and spare words, and the scrubs.
-/
namespace Sys2Proof.Machine

/-! ## Bytes -/

/-- What an unlisted byte reads as: 0 in SRAM, which every reset wipes (17 R522); no value in MRAM and flash (log entry 50). -/
def memDefault (a : Nat) : Option (BitVec 8) := if a < 0x10000000 then some 0 else none

/-- One byte read. Where nothing has written MRAM or flash and no table stands, the byte is free, one value per address. -/
def Mem.get (m : Mem) (a : Nat) : Nat :=
  match m.bytes.find? (fun c => c.1 == a) with
  | some c => c.2.toNat
  | none => (memDefault a).elim (Config.undescribed a % 256) BitVec.toNat

/-- One byte written: writing what an unlisted address reads as removes the entry. -/
def Mem.set (m : Mem) (a : Nat) (v : BitVec 8) : Mem :=
  { m with bytes := if memDefault a = some v then tdel m.bytes a else tput m.bytes a v }

/-- The canonical form: addresses strictly rising, and no entry equal to what its address reads as when unlisted. -/
def Mem.wf (m : Mem) : Bool := tsorted 0 m.bytes && m.bytes.all (fun c => decide (memDefault c.1 ≠ some c.2))

/-- Bytes put at consecutive addresses. -/
def Mem.put (m : Mem) : Nat → List Nat → Mem
  | _, [] => m
  | a, b :: r => (m.set a (BitVec.ofNat 8 b)).put (a + 1) r

/-- SRAM of a region, as (first, end) (01, table "Internal address map"). -/
def sramOf : Region → Nat × Nat
  | .c => (0x00000000, 0x00600000)
  | .d => (0x01000000, 0x01400000)
  | .m => (0x02000000, 0x02600000)

/-- A range of memory wiped: every byte 0, no word poisoned (17 R522). -/
def Mem.wipe (m : Mem) (lo hi : Nat) : Mem :=
  { bytes := m.bytes.filter (fun c => !(decide (lo ≤ c.1 ∧ c.1 < hi)))
    poisoned := m.poisoned.filter (fun a => !(decide (lo ≤ a ∧ a < hi))) }

/-! ## Tables at addresses (05 R163, 08 R261, 01 R37, 16) -/

/-- A table in memory: base, entry size in bytes, number of entries, and the entry's value as a number. -/
structure TabView where
  base : Nat
  size : Nat
  count : Nat
  get : State → Nat → Nat
  set : State → Nat → Nat → State

/-- The entry of a stretch of plain memory, as a number, and its write: positions of a table that no record fills. -/
def State.rawAt (s : State) (a n : Nat) : Nat := ofBytes ((rangeFrom a n).map s.mem.get)
def State.setRaw (s : State) (a n v : Nat) : State := { s with mem := s.mem.put a (leBytes n v) }

/-- The queue of an entry of the event intake area (01, table "Junction SRAM layout"). -/
def intakeQueue (i : Nat) : Queue := if i < 32 then .c else if i < 64 then .d else .m

/-- An intake entry from its 64 bytes. -/
def EvEntry.ofWord (w : BitVec 512) (time : Nat) : EvEntry :=
  { code := fld w 160 16, src := fld w 176 32, pay := leBytes 32 (fld w 208 256), hcn := fld w 64 48, virt := bit w 145
    rtcSec := fld w 112 32, rtcValid := bit w 144, summary := bit w 147, time := time }

/-- A word of a table without its reserved fields, given as (lowest bit, length): their write is ignored and they read 0 (00 R11). -/
def clrRsvd (w v : Nat) (l : List (Nat × Nat)) : BitVec w := l.foldl (fun x f => setFld x f.1 f.2 0) (BitVec.ofNat w v)

/-- Reserved bits of a phase block, a result record, a stamp and an event record (08, 02, 16). -/
def phaseRsvd : List (Nat × Nat) := [(480, 16)]
def resultRsvd : List (Nat × Nat) := [(32, 16)]
def stampRsvd : List (Nat × Nat) := [(58, 6)]
def eventRsvd : List (Nat × Nat) := [(472, 8), (176, 8), (155, 5), (148, 4), (32, 32)]

/-- The tables of the Sillage range, of the Accord and Blotter range, of the junction SRAM and of the recorder. The spec gives the change queues and the
working field no layout in the engine working area (05 R163), so what a read there shows is the model's choice: plain bytes (DESIGN CHOICE, log
entry 50). -/
def tabViews : List TabView :=
  [⟨0x00400000, 4, 131072, fun s i => (s.sil.tab.edge i).toNat,
     fun s i v => s.onTab (fun t => { t with edges := tset 0 t.edges i (BitVec.ofNat 32 v) })⟩,
   ⟨0x00480000, 16, 16384, fun s i => (s.sil.tab.node i).toNat,
     fun s i v => s.onTab (fun t => { t with nodes := tset 0 t.nodes i (BitVec.ofNat 128 v) })⟩,
   ⟨0x004C0000, 8, 16384, fun s i => (s.sil.tab.state i).toNat,
     fun s i v => s.onTab (fun t => { t with states := tset t.stDef t.states i (BitVec.ofNat 64 v) })⟩,
   ⟨0x004E0000, 8, 16384, fun s i => (s.sil.tab.limit i).toNat,
     fun s i v => s.onTab (fun t => { t with limits := tset t.limDef t.limits i (BitVec.ofNat 64 v) })⟩,
   ⟨0x00500000, 2, 262144, fun s i => (tget 0 s.sil.tab.hist i).toNat,
     fun s i v => s.onTab (fun t => { t with hist := tset 0 t.hist i (BitVec.ofNat 16 v) })⟩,
   ⟨0x00580000, 4, 16384, fun s i => (s.sil.tab.sensor i).toNat,
     fun s i v => s.onTab (fun t => { t with sensors := tset 0 t.sensors i (BitVec.ofNat 32 v) })⟩,
   ⟨0x00590000, 4, 512, fun s i => (tget 0 s.sil.tab.curves i).toNat,
     fun s i v => s.onTab (fun t => { t with curves := tset 0 t.curves i (BitVec.ofNat 32 v) })⟩,
   ⟨0x00590800, 8, 16, fun s i => (tget 0 s.sil.tab.slews i).toNat,
     fun s i v => s.onTab (fun t => { t with slews := tset 0 t.slews i (BitVec.ofNat 64 v) })⟩,
   ⟨0x01200000, 8, 16384, fun s i => (s.model i).toNat,
     fun s i v => { s with accord := { s.accord with models := tset 0 s.accord.models i (BitVec.ofNat 64 v) } }⟩,
   ⟨0x01220000, 16, 16384, fun s i => (tget 0 s.accord.accounts i).toNat,
     fun s i v => { s with accord := { s.accord with accounts := tset 0 s.accord.accounts i (BitVec.ofNat 128 v) } }⟩,
   ⟨0x01260000, 64, 24, fun s i => (tget 0 s.accord.phases i).toNat,
     fun s i v => { s with accord := { s.accord with phases := tset 0 s.accord.phases i (clrRsvd 512 v phaseRsvd) } }⟩,
   ⟨0x01260800, 4, 16384, fun s i => (s.bstat i).toNat,
     fun s i v => s.onBlot (fun b => { b with status := tset 0 b.status i (BitVec.ofNat 32 v &&& 0xFC0FFFFF#32) })⟩,
   ⟨0x01280000, 2, 65536, fun s i => (tget absent s.accord.ring i).toNat,
     fun s i v => { s with accord := { s.accord with ring := tset absent s.accord.ring i (BitVec.ofNat 16 v) } }⟩,
   ⟨0x012A0000, 32, 4096, fun s i => match s.blot.results[i]? with | some w => w.toNat | none => s.rawAt (0x012A0000 + 32 * i) 32,
     fun s i v => if i < s.blot.results.length then s.onBlot (fun b => { b with results := b.results.set i (clrRsvd 256 v resultRsvd) })
       else s.setRaw (0x012A0000 + 32 * i) 32 (clrRsvd 256 v resultRsvd).toNat⟩,
   ⟨0x0302C000, 64, 96, fun s i => match (s.ev.q (intakeQueue i))[i % 32]? with | some e => evBody 0 false e | none => s.rawAt (0x0302C000 + 64 * i) 64,
     fun s i v => match (s.ev.q (intakeQueue i))[i % 32]? with
       | some e => s.onEv (fun t => t.setQ (intakeQueue i) ((t.q (intakeQueue i)).set (i % 32) (EvEntry.ofWord (BitVec.ofNat 512 v) e.time)))
       | none => s.setRaw (0x0302C000 + 64 * i) 64 (clrRsvd 512 v eventRsvd).toNat⟩,
   ⟨0x0301C000, 32, 512, fun s i => (tget 0 s.jnc.results i).toNat,
     fun s i v => { s with jnc := { s.jnc with results := tset 0 s.jnc.results i (clrRsvd 256 v resultRsvd) } }⟩,
   ⟨0x0300C000, 2, 32768, fun s i => (tget absent s.jnc.snap i).toNat,
     fun s i v => { s with jnc := { s.jnc with snap := tset absent s.jnc.snap i (BitVec.ofNat 16 v) } }⟩,
   ⟨0x03030000, 32, 1024, fun s i => (tget 0 s.jnc.stamps i).toNat,
     fun s i v => { s with jnc := { s.jnc with stamps := tset 0 s.jnc.stamps i (clrRsvd 256 v stampRsvd) } }⟩,
   ⟨0x10400000, 64, 8192, fun s i => (tget 0 s.nv.permArea i).toNat,
     fun s i v => s.onNv (fun n => { n with permArea := tset 0 n.permArea i (clrRsvd 512 v eventRsvd) })⟩,
   ⟨0x10480000, 64, 57344, fun s i => (tget 0 s.nv.circArea i).toNat,
     fun s i v => s.onNv (fun n => { n with circArea := tset 0 n.circArea i (clrRsvd 512 v eventRsvd) })⟩]

/-- The table that an address lies in. -/
def viewAt (a : Nat) : Option TabView := tabViews.find? (fun v => decide (v.base ≤ a ∧ a < v.base + v.size * v.count))

/-- One byte of memory. -/
def State.byteAt (s : State) (a : Nat) : Nat :=
  match viewAt a with
  | some v => v.get s ((a - v.base) / v.size) / 256 ^ ((a - v.base) % v.size) % 256
  | none => s.mem.get a

/-- One byte of memory written. -/
def State.setByte (s : State) (a b : Nat) : State :=
  match viewAt a with
  | some v =>
    let i := (a - v.base) / v.size
    let old := v.get s i
    let u := 256 ^ ((a - v.base) % v.size)
    v.set s i (old - (old / u % 256) * u + (b % 256) * u)
  | none => { s with mem := s.mem.set a (BitVec.ofNat 8 b) }

/-- Consecutive bytes. -/
def State.bytesAt (s : State) (a n : Nat) : List Nat := (rangeFrom a n).map s.byteAt

/-- Consecutive bytes written, in ascending order. -/
def State.setBytes (s : State) : Nat → List Nat → State
  | _, [] => s
  | a, b :: r => (s.setByte a b).setBytes (a + 1) r

/-! ## The address map (01 R48, R49) -/

/-- SRAM, junction SRAM, MRAM window: read and write. -/
def isRam (a : Nat) : Bool :=
  decide (a < 0x00600000 ∨ (0x01000000 ≤ a ∧ a < 0x01400000) ∨ (0x02000000 ≤ a ∧ a < 0x02600000)
    ∨ (0x03000000 ≤ a ∧ a < 0x03040000) ∨ (0x10000000 ≤ a ∧ a < 0x10800000))

/-- The flash windows: read only. -/
def isFlash (a : Nat) : Bool := decide (0x20000000 ≤ a ∧ a < 0x28000000)

/-- The blocks of the table "Block windows", by bits [23:16] of their base. -/
def blockList : List Nat :=
  [0x00, 0x01, 0x02, 0x03, 0x10, 0x11, 0x12, 0x13, 0x14, 0x15, 0x16, 0x20, 0x21, 0x22, 0x23, 0x24, 0x25, 0x26,
   0x30, 0x31, 0x32, 0x33, 0x34, 0x35, 0x36, 0x37, 0x38, 0x39, 0x3A, 0x3B, 0x3C]

/-- An address in a listed block window. -/
def isReg (a : Nat) : Bool := decide (0x40000000 ≤ a) && blockList.any (fun b => a / 65536 == 0x4000 + b)

/-! ## Macros (17 R516-R522) -/

/-- The macro of an SRAM address: C 0-47, D 48-79, M 80-127, junction 128-129. -/
def macroOf (a : Nat) : Option Nat :=
  if a < 0x00600000 then some (a / 131072)
  else if 0x01000000 ≤ a ∧ a < 0x01400000 then some (48 + (a - 0x01000000) / 131072)
  else if 0x02000000 ≤ a ∧ a < 0x02600000 then some (80 + (a - 0x02000000) / 131072)
  else if 0x03000000 ≤ a ∧ a < 0x03040000 then some (128 + (a - 0x03000000) / 131072)
  else none

/-- The first address of a macro. -/
def macroBase (m : Nat) : Nat :=
  if m < 48 then m * 131072
  else if m < 80 then 0x01000000 + (m - 48) * 131072
  else if m < 128 then 0x02000000 + (m - 80) * 131072
  else 0x03000000 + (m - 128) * 131072

/-- The block that holds a macro's registers, and its index there (R545). -/
def macroBlock (m : Nat) : Nat × Nat :=
  if m < 48 then (0x10, m) else if m < 80 then (0x20, m - 48) else if m < 128 then (0x30, m - 80) else (0x01, m - 128)

/-- The address of MEM_CNT of a macro. -/
def macroReg (m : Nat) : Nat := 0x40000000 + (macroBlock m).1 * 65536 + 0x1000 + 0x10 * (macroBlock m).2

/-- A macro's registers and tracking. -/
def State.mac (s : State) (m : Nat) : Macro := tget {} s.jnc.macros m

/-- Change a macro. -/
def State.onMac (s : State) (m : Nat) (g : Macro → Macro) : State :=
  { s with jnc := { s.jnc with macros := tmod {} s.jnc.macros m g } }

/-- Spare words that a macro has used (R520). -/
def State.remapUsed (s : State) (m : Nat) : Nat := (tget [] s.nv.remap m).length

/-- Words of a macro, and its spare words. -/
def macroWords : Nat := 8192
def macroSpares : Nat := 16

/-- A remap: the next free spare takes the word's place, with its RESERVE notification and the events at 12 and at 16 used (R520,
18 R559). -/
def State.remapWord (s : State) (m w : Nat) : State :=
  let n := s.remapUsed m + 1
  let s := (s.onNv (fun v => { v with remap := tset [] v.remap m (tget [] v.remap m ++ [w]) })).reserveNote 5 m 1
  let s := if n = 12 then s.raiseFw .m 0x0F00 (genPay (macroReg m) [(n, 1)]) else s
  if n = macroSpares then s.raiseHw 1 (macroBlock m).1 0xFFF 0x0E00 (genPay (macroReg m) []) else s

/-- The tracking table with one more correction of a word, and its count (R519). -/
def trackAdd (t : List (Nat × Nat)) (w : Nat) : List (Nat × Nat) × Nat :=
  match t.find? (fun e => e.1 == w) with
  | some e => (t.map (fun x => if x.1 == w then (w, e.2 + 1) else x), e.2 + 1)
  | none =>
    if t.length < 8 then (t ++ [(w, 1)], 1)
    else
      let low := (t.map Prod.snd).foldl min (2 ^ 32)
      match t.find? (fun e => e.2 == low) with
      | some e => (t.filter (fun x => x.1 != e.1) ++ [(w, 1)], 1)
      | none => (t, 1)

/-- One correction at a word: it is written back and counted; the third one in a pass moves the word to a spare (R515, R519, R520). -/
def State.corrected (s : State) (a : Nat) : State :=
  match macroOf a with
  | none => s
  | some m =>
    let w := (a - macroBase m) / 16
    let b := bump 0xFFFF (s.mac m).corr
    let k := trackAdd (s.mac m).track w
    let s := (s.onMac m (fun x => { x with corr := b.1, track := k.1 })).stuckIf b.2 (macroReg m) 8
    if k.2 = 3 ∧ s.remapUsed m < macroSpares
    then (s.onMac m (fun x => { x with track := x.track.filter (fun e => e.1 != w) })).remapWord m w
    else s

/-- A word of an address. -/
def wordOf (a : Nat) : Nat := a - a % 16

/-- The word is poisoned (R516). -/
def State.isPoisoned (s : State) (a : Nat) : Bool := s.mem.poisoned.contains (wordOf a)

/-- A word found uncorrectable: poisoned, and at its first detection counted, shown in MEM_UADDR and recorded (R516). -/
def State.poison (s : State) (a : Nat) : State :=
  let w := wordOf a
  if s.isPoisoned a then s
  else
    let s : State := { s with mem := { s.mem with poisoned := w :: s.mem.poisoned } }
    match macroOf a with
    | none => s.raiseHw 1 0x36 0xFFF 0x0E00 (genPay w [])
    | some m =>
      let b := bump 255 (s.mac m).uncorr
      ((s.onMac m (fun x => { x with uncorr := b.1, uaddr := some w })).raiseHw 0 (macroBlock m).1 (macroBlock m).2 0x0E00
        (genPay (macroReg m + 4) [(w + 1, 4)])).stuckIf b.2 (macroReg m) 24

/-- A poisoned word is written whole (R514, R516). -/
def State.unpoison (s : State) (a : Nat) : State :=
  { s with mem := { s.mem with poisoned := s.mem.poisoned.filter (fun x => x != wordOf a) } }

/-- The erroneous symbols of a codeword: those of the 21 whose errors do not cancel (R512). -/
def damaged (d : Damage) : Nat :=
  ((rangeFrom 0 21).filter (fun i => (d.filter (fun e => e.1 == i)).foldl (fun x e => x ^^^ (e.2 % 256)) 0 != 0)).length

/-- Free bytes. -/
def State.drawBytes (s : State) : Nat → List Nat × State
  | 0 => ([], s)
  | n + 1 =>
    let (b, s) := s.draw 256
    let (l, s) := s.drawBytes n
    (b :: l, s)

/-- A word whose damage the code takes for another: its content is free from then on (R512; log entry 50). -/
def State.miscorrect (s : State) (a : Nat) : State :=
  let (l, s) := s.drawBytes 16
  s.setBytes (wordOf a) l

/-- A word is read and decoded: whether it gives data, and what the find does. One or two erroneous symbols are corrected, three are detected;
what the code makes of four or more is free: detected, corrected to a wrong word, or taken for a right one (R512, R513, R515, R516). -/
def State.visit (s : State) (a : Nat) (found : Damage) : Bool × State :=
  if s.isPoisoned a then (false, s)
  else match damaged found with
    | 0 => (true, s)
    | 1 | 2 => (true, s.corrected a)
    | 3 => (false, s.poison a)
    | _ =>
      let (v, s) := s.draw 3
      if v = 0 then (false, s.poison a)
      else
        let s := s.miscorrect a
        (true, if v = 1 then s.corrected a else s)

/-! ## Registers of a macro (R545) -/

/-- MEM_CNT_m, MEM_UADDR_m and MEM_SCRUB_m. -/
def State.memCnt (s : State) (m : Nat) : Nat :=
  let n := s.remapUsed m
  pack [(24, 8, (s.mac m).uncorr), (8, 16, (s.mac m).corr), (7, 1, b2n (decide (macroSpares ≤ n))), (0, 5, n)]
def State.memUaddr (s : State) (m : Nat) : Nat := ((s.mac m).uaddr.map (fun a => a + 1)).getD 0
def State.memScrub (s : State) (m : Nat) : Nat := pack [(16, 16, (s.mac m).passCnt), (0, 13, (s.mac m).ptr)]

/-! ## Scrubs (R518, 18 R561) -/

/-- The time between two visits of a scrubber, 5.273 437 5 s (R518). -/
def scrubC : Nat := 2109375000

/-- SCRUB_VISIT: a macro's scrubber visits its next word when its time has come; the tracking table empties when it wraps to word 0 (R518,
R519). -/
def execScrubVisit (dt : Dt) (mac : Nat) (found : Damage) (s : State) : Res :=
  let t := s.tick dt
  .next (if 130 ≤ mac ∨ t.pow.phase.rank = 0 ∨ t.now < (t.mac mac).visitAt + scrubC then t else
    let p := (t.mac mac).ptr
    let t := (t.visit (macroBase mac + 16 * p) found).2.onMac mac (fun x => { x with visitAt := x.visitAt + scrubC })
    if p + 1 < macroWords then t.onMac mac (fun x => { x with ptr := p + 1 })
    else
      let b := bump 0xFFFF (t.mac mac).passCnt
      (t.onMac mac (fun x => { x with ptr := 0, passCnt := b.1, track := [] })).stuckIf b.2 (macroReg mac + 8) 16)

/-- MRAM sectors and their spares (18, table "Reserves"). -/
def mramSectors : Nat := 2048
def mramSpares : Nat := 32

/-- Words of 16 bytes in a sector and in the MRAM window. -/
def sectorWords : Nat := 256
def mramWords : Nat := mramSectors * sectorWords

/-- A sector moves to the next spare, while one is left; what its words needed before is forgotten (18 R561). -/
def State.moveSector (s : State) (k : Nat) : State :=
  if s.nv.mramUsed < mramSpares then
    (({ s with nvmc := { s.nvmc with corr := s.nvmc.corr.filter (fun w => w / sectorWords != k) } } : State).onNv (fun v => { v with
      mramUsed := v.mramUsed + 1 })).reserveNote 7 0 1
  else s

/-- MRAM_SCRUB_PASS: a pass of 24 h is over, with the words of the window that it found to need correction and found uncorrectable. The latter are
poisoned, and a sector with one of them, or with a word that needed correction in the pass before too, moves to the next spare (R516, 18
R561). -/
def execMramScrubPass (dt : Dt) (corrected uncorrectable : List Nat) (s : State) : Res :=
  let t := s.tick dt
  .next (if !t.runs .m || decide (t.now < t.nvmc.passAt + 86400 * secC) then t else
    let again := corrected.filter (fun w => t.nvmc.corr.contains w)
    let t := uncorrectable.foldl (fun t w => t.poison (0x10000000 + 16 * w)) t
    let t : State := { t with nvmc := { corr := corrected, passAt := t.now } }
    (((again ++ uncorrectable).filter (fun w => decide (w < mramWords))).map (fun w => w / sectorWords)).dedup.foldl State.moveSector t)

/-- NVMC_SPARE (18 R568). -/
def State.nvmcSpare (s : State) : Nat :=
  let v := s.nv
  s.cfgAt 2 (pack [(26, 6, v.mramUsed), (21, 5, v.bUsed), (16, 5, v.aUsed), (2, 1, b2n (decide (mramSpares ≤ v.mramUsed))),
    (1, 1, b2n (decide (16 ≤ v.bUsed))), (0, 1, b2n (decide (16 ≤ v.aUsed)))])

end Sys2Proof.Machine
end

