-- ==== Sys2Proof/Machine/Signal.lean ====
section
/-!
DEFINITION. The Wetur signal (03 R94-R98): convolutional code, interleaver and differential modulation, from the bits of a
beacon or a block to the carrier phases of its slots. Bits stand in transmission order; phases are in units of 45 degrees.
-/
namespace Sys2Proof.Machine

/-- The parity of the bits of a register that a generator taps. -/
def tapParity (g reg : Nat) : Bool := (popcount 7 (g &&& reg)) % 2 == 1

/-- Outputs A and B for one more bit; the register holds the newest bit in bit 6 (R96; log entry 28). -/
def convStep (reg : Nat) (b : Bool) : Nat × Bool × Bool :=
  let r := reg / 2 + (if b then 64 else 0)
  (r, tapParity 0x5B r, tapParity 0x79 r)

/-- The register after the last six bits of a block: the tail-biting start (R96). -/
def convInit (bits : List Bool) : Nat := (bits.drop (bits.length - 6)).foldl (fun r b => (convStep r b).1) 0

/-- A and B for each bit in turn. -/
def convRun : Nat → List Bool → List (Bool × Bool)
  | _, [] => []
  | r, b :: bs => let (r', x, y) := convStep r b; (x, y) :: convRun r' bs

/-- Rate 1/2: A then B for each bit (R96). -/
def rateHalf (l : List (Bool × Bool)) : List Bool := l.flatMap (fun p => [p.1, p.2])

/-- Rate 2/3: A1, B1 and A2 for each pair (R96). -/
def rateTwoThirds : List (Bool × Bool) → List Bool
  | p :: q :: r => p.1 :: p.2 :: q.1 :: rateTwoThirds r
  | [p] => [p.1, p.2]
  | [] => []

/-- The coded bits sent of a beacon: 71 (R96). -/
def codeBeacon (bits : List Bool) : List Bool := (rateHalf (convRun (convInit bits) bits)).take 71

/-- The coded bits sent of a downlink block: 432 or 360 (R96). -/
def codeBlock (bits : List Bool) : List Bool := rateTwoThirds (convRun (convInit bits) bits)

/-- Coded bit c goes to position (13 c) mod M (R97). -/
def interleave (l : List Bool) : List Bool :=
  let m := l.length
  let placed := (l.zipIdx.map (fun e => ((13 * e.2) % m, e.1))).foldl (fun (t : Tbl Bool) e => tput t e.1 e.2) []
  placed.map Prod.snd

/-- φ(n) for carrier 23 + i (R94). -/
def phiOf (i : Nat) : Nat := (i * i) % 8

/-- Δ of a DBPSK bit and of a DQPSK pair, in units of 45 degrees (R98). -/
def dbpsk (b : Bool) : Nat := if b then 4 else 0
def dqpsk (b c : Bool) : Nat := match b, c with | false, false => 0 | false, true => 2 | true, true => 4 | true, false => 6

/-- Pairs of consecutive positions as Δ. -/
def dqpskAll : List Bool → List Nat
  | b :: c :: r => dqpsk b c :: dqpskAll r
  | _ => []

/-- A frequency-differential slot: carrier 23 has θ = 0, each next one adds its Δ (R98). -/
def freqDiff : Nat → List Nat → List Nat
  | t, [] => [t]
  | t, d :: ds => t :: freqDiff ((t + d) % 8) ds

/-- A time-differential slot from the preceding slot's θ (R98). -/
def timeDiff (prev deltas : List Nat) : List Nat := List.zipWith (fun t d => (t + d) % 8) prev deltas

/-- Transmitted phases of a slot: θ(n) + φ(n) (R94). -/
def sentPhases (theta : List Nat) : List Nat := theta.zipIdx.map (fun e => (e.1 + phiOf e.2) % 8)

/-- θ of the two beacon slots (R96-R98). -/
def beaconTheta (bits : List Bool) : List Nat × List Nat :=
  let p := interleave (codeBeacon bits)
  let t0 := freqDiff 0 ((p.take 35).map dbpsk)
  (t0, timeDiff t0 ((p.drop 35).map dbpsk))

/-- θ of consecutive time-differential slots of 72 positions each. -/
def slotTheta : Nat → List Nat → List Nat → List (List Nat)
  | 0, _, _ => []
  | n + 1, prev, ds => let t := timeDiff prev (ds.take 36); t :: slotTheta n t (ds.drop 36)

/-- θ of the downlink slots, of which slot 2 takes beacon slot 1 as its preceding slot (R98). -/
def blockTheta (ref : List Nat) (bits : List Bool) : List (List Nat) :=
  let p := interleave (codeBlock bits)
  slotTheta (p.length / 72) ref (dqpskAll p)

/-! ## Fields and authenticated encryption (04 R117, R138) -/

/-- Fields from the least significant end: each (width, value). -/
def fieldBits (l : List (Nat × Nat)) : List Bool := l.flatMap (fun e => lsbBits e.1 e.2)

/-- Groups of 8 bits, at most `fuel` of them. -/
def groups8 : Nat → List Bool → List (List Bool)
  | 0, _ => []
  | n + 1, l => if l.isEmpty then [] else l.take 8 :: groups8 n (l.drop 8)

/-- Zero bits up to whole bytes (R138). -/
def padBytes (l : List Bool) : List Bool := l ++ List.replicate ((8 - l.length % 8) % 8) false

/-- The nonce of a link frame as a number of 13 bytes, least significant first (04, table "Nonce"). -/
def linkNonce (hcn uplink minislot f idx gen kind : Nat) : Nat :=
  ofBytes (leBytes 6 hcn ++ [uplink * 128 + minislot * 16 + f] ++ leBytes 2 idx ++ [gen % 256, kind, 0, 0])

/-- Bits as whole bytes, the first bit least significant, and back (04 R117). -/
def toBytes (l : List Bool) : List Nat := (groups8 (l.length / 8 + 1) l).map ofBits
def toBits (l : List Nat) : List Bool := l.flatMap (lsbBits 8)

/-- Ciphertext of bits under AES-128-CCM, and `t` bits of its 4-byte tag; the plaintext and the associated data are padded with zero bits to
whole bytes (R138; log entry 2). -/
def ccmText (key nonce : Nat) (aad plain : List Bool) : List Bool :=
  (toBits (ccm (leBytes 16 key) (leBytes 13 nonce) (toBytes aad) (toBytes plain)).1).take plain.length
def ccmTag (key nonce : Nat) (aad plain : List Bool) (t : Nat) : List Bool :=
  (toBits (ccm (leBytes 16 key) (leBytes 13 nonce) (toBytes aad) (toBytes plain)).2).take t

/-- A 128-bit key derived from a feeder key: KD with label "WTD", KN with label "WTN" and the EUI (04, table "Link keys"). -/
def keyKd (kf : Nat) : Nat := ofBytes (kdf 16 (leBytes 16 kf) [0x57, 0x54, 0x44] [])
def keyKn (kf eui : Nat) : Nat := ofBytes (kdf 16 (leBytes 16 kf) [0x57, 0x54, 0x4E] (leBytes 8 eui))

/-- WKEY and KTAG of a key wrapped under another, with the item's other fields as associated data (R138). -/
def wrapKey (under nonce : Nat) (other : List Bool) (key : Nat) : List Bool :=
  let p := lsbBits 128 key
  ccmText under nonce other p ++ ccmTag under nonce other p 32

end Sys2Proof.Machine
end

