-- ==== Sys2Proof/Machine/Link.lean ====
section
/-!
DEFINITION. The transmit side of the Wetur link (03 R99-R114, 04 R117-R131, R135, R142-R147): beacons, blocks and what fills
them, level records and link commands taking effect, joins, the stage bank and its spare.
-/
namespace Sys2Proof.Machine

/-! ## Activity, round robin and turns -/

/-- Bits of a downlink block (R122). -/
def State.blockLen (s : State) : Nat := if s.tb.p60 then 240 else 288

/-- Scheduled minislots of a frame, S of R135. -/
def State.schedS (s : State) : Nat := if s.tb.p60 then 1 else 2

/-- A rollover whose t has passed still waits for its commit (14 R446). -/
def State.rollOverdue (s : State) (f : Nat) : Bool :=
  match tget none s.nv.rolls f with
  | some p => decide (p.t ≤ s.tb.hcn)
  | none => false

/-- The link of a feeder is active in the half-cycle of the newest edge (03 R102, R113; 14 R441, R446; 15 R480; 19 R574). -/
def State.linkActive (s : State) (f : Nat) : Bool :=
  s.started && s.runs .c && (s.tb.st == .locked || s.tb.st == .slew) && !(bit s.tb.flags 0)
    && (!(bit s.tb.vset f) || (bit s.tb.flags 5 && !(bit s.tb.flags 6)))
    && !(bit s.wtx.muted f) && !(bit s.pow.fdrOff f) && (s.slot (f + 8)).st == 1 && !s.sealedSlot (f + 8) && !s.rollOverdue f
    && !s.pow.supplyFail && !s.pow.cmdShutdown && decide (s.dspFrames = 0)

/-- Indices joined or being joined on a feeder. -/
def State.usedIdx (s : State) (f : Nat) : List Nat :=
  (s.joinedOn f).map (fun a => a % 2048) ++ (s.feeder f).joins.map Join.idx

/-- RR as the module chooses it: the smallest multiple of 64 above the highest index (R135). -/
def State.wantRR (s : State) (f : Nat) : Nat :=
  64 * ((s.usedIdx f).foldl (fun m i => max m (i / 64 + 1)) 1)

/-- RR of frame j: a set-B feeder's frame k - 1 runs on past edge k under the RR of k - 1 (R85, R135). -/
def State.rrOf (s : State) (f j : Nat) : Nat := if j < s.tb.hcn then (s.feeder f).rrWas else (s.feeder f).rrNow

/-- The key slot of a feeder in frame j: before the t of a rollover, the retiring one (R85, R143). -/
def State.frameSlot (s : State) (f j : Nat) : Slot :=
  match tget none s.keys.retiring f with
  | some (t, w) => if j < t then w else s.slot (f + 8)
  | none => s.slot (f + 8)

/-- Turns of an index in the frames after `p` up to `q` (R135). -/
def State.turns (s : State) (f idx p q : Nat) : Nat :=
  let n := s.schedS
  let per := (s.feeder f).rrNow / n
  let c := idx / n
  if per ≤ c then 0 else (q + per - c) / per - (p + per - c) / per

/-- The node whose turn a scheduled minislot of a frame is (R135). -/
def State.owner (s : State) (f k m : Nat) : Nat := (k * s.schedS + m - 1) % s.rrOf f k

/-- The EUI joined at an address. -/
def State.euiAt (s : State) (a : Nat) : Nat := ((s.nv.regs.find? (fun r => r.addr == some a)).map Reg.eui).getD 0

/-- A NODE notification (11 R358). -/
def State.nodeNote (s : State) (a eui kind dat : Nat) : State :=
  s.notifyClass 2 0x0480 .ok [(a, 2), (eui, 8), (kind, 1), (dat, 4)]

/-! ## Items as bits -/

/-- Length of an item in bits (R123, table "Downlink items"). -/
def Item.size : Item → Nat
  | .groupLevel .. => 50 | .sceneRecall .. => 42 | .sceneAll .. => 34 | .probe .. => 49
  | .groupSet .. => 28 | .sceneSet .. => 35 | .nodeCfg .. => 35 | .leave .. => 15
  | .keyFeeder .. => 188 | .nodeKey .. => 180 | .imgBlock .. => 214 | .imgActivate .. => 40

/-- The fields after OP that an item carries in clear, least significant first. -/
def Item.fields : Item → List (Nat × Nat)
  | .groupLevel c g l t => [(4, c), (8, g), (14, l), (20, t)]
  | .sceneRecall c g n t => [(4, c), (8, g), (6, n), (20, t)]
  | .sceneAll c n t => [(4, c), (6, n), (20, t)]
  | .probe i c d t => [(11, i), (4, c), (10, d), (20, t)]
  | .groupSet i sl g v => [(11, i), (4, sl), (8, g), (1, v)]
  | .sceneSet i n l => [(11, i), (6, n), (14, l)]
  | .nodeCfg i p v => [(11, i), (4, p), (16, v)]
  | .leave i => [(11, i)]
  | .keyFeeder g t => [(4, g), (20, t)]
  | .nodeKey i k g => [(11, i), (1, k), (4, g)]
  | .imgBlock m b => [(4, m), (14, b)]
  | .imgActivate c m g t => [(4, c), (4, m), (8, g), (20, t)]

/-- OP of an item. -/
def Item.op : Item → Nat
  | .groupLevel .. => 1 | .sceneRecall .. => 2 | .sceneAll .. => 3 | .probe .. => 4
  | .groupSet .. => 5 | .sceneSet .. => 6 | .nodeCfg .. => 7 | .leave .. => 8
  | .keyFeeder .. => 9 | .nodeKey .. => 10 | .imgBlock .. => 11 | .imgActivate .. => 12

/-- The HCN from which on an item may no longer be sent: its t, or two frames before its START; 0 for none (R128). -/
def Item.lastHcn : Item → Nat
  | .groupLevel _ _ _ t => t | .sceneRecall _ _ _ t => t | .sceneAll _ _ t => t | .probe _ _ _ t => t - 1
  | .keyFeeder _ t => t | .imgActivate _ _ _ t => t
  | _ => 0

/-- An item may still be sent in frame j. -/
def Item.live (i : Item) (j : Nat) : Bool := i.lastHcn == 0 || decide (j < i.lastHcn)

/-- The component of a node image of the active set (15, table "Component types"). -/
def State.imgComp (s : State) (img : Nat) : Option Comp :=
  ((s.nv.upd.bank s.nv.upd.active).dir).find? (fun c => c.type == 16 + img)

/-- An item's bits in frame j of feeder f: keys are wrapped, image data comes from the active bank (R124, R138). The
spec names no nonce bytes 7 and 8 for wrapped keys: the model puts IDX for NODE_KEY and 0 for KEY_FEEDER (DESIGN CHOICE, log entry 2). -/
def State.itemBits (s : State) (f j : Nat) (i : Item) : List Bool :=
  let k := s.frameSlot f j
  let other := fieldBits i.fields
  let body := match i with
    | .keyFeeder g _ =>
      wrapKey (keyKd k.key) (linkNonce j 0 0 f 0 k.gen 3) other (keyKd (s.nextKey f g))
    | .nodeKey idx _ g =>
      let eui := s.euiAt (2048 * f + idx)
      wrapKey (keyKn k.key eui) (linkNonce j 0 0 f idx k.gen 4) other (keyKn (s.nextKey f g) eui)
    | .imgBlock m b =>
      let u := s.nv.upd
      (rangeFrom (24 * b) 24).flatMap (fun n => lsbBits 8 (match s.imgComp m, compOfs (u.bank u.active).dir (16 + m) with
        | some c, some o => if n < c.length then s.mem.get (bankBase u.active + o + n) else 0
        | _, _ => 0))
    | _ => []
  lsbBits 4 i.op ++ other ++ body

/-- The bits of a JOIN_KEY item: KTAG and WKEY under the install key (R125, R138). -/
def State.joinBits (s : State) (f j : Nat) (q : JoinKey) : List Bool :=
  let k := s.frameSlot f j
  let ik := ((s.nv.regs.find? (fun r => r.eui == q.eui)).map Reg.ik).getD 0
  let low := fieldBits [(32, q.eui), (11, q.idx), (1, q.ksel), (4, k.gen), (16, q.jhcn)]
  low ++ wrapKey ik (linkNonce (q.jhcn % 65536) 0 0 f q.idx 0 2) low (if q.ksel = 1 then keyKn k.key q.eui else keyKd k.key)

/-- A block's bits in transmission order (R122, R125, R138). -/
def State.blockBits (s : State) (f : Nat) (b : Block) : List Bool :=
  let len := s.blockLen
  let kd := keyKd (s.frameSlot f b.hcn).key
  let fill := fun (n : Nat) (l : List Bool) => (l ++ List.replicate n false).take n
  let bt := lsbBits 4 b.bt
  match b.join with
  | some q =>
    let rest := fill (len - 9) (bt ++ s.joinBits f b.hcn q)
    lsbBits 9 (crc32 rest) ++ rest
  | none =>
    let recs := b.levels.flatMap (fun r => fieldBits [(11, r.idx), (14, r.level)])
    let items := b.items.flatMap (s.itemBits f b.hcn)
    let nonce := linkNonce b.hcn 0 0 f 0 b.kgen 0
    if b.bt = 12 then
      let pre := fieldBits [(48, b.hcn), (11, b.rrNow), (11, b.rrNext), (4, b.kgen)]
      let clear := bt ++ pre
      let hmic := ccmTag kd nonce clear [] 32
      let body := padBytes (fill (len - 119) (lsbBits 4 b.levels.length ++ recs ++ items))
      let aad := clear ++ hmic
      ccmTag kd nonce aad body 9 ++ aad ++ (ccmText kd nonce aad body).take (len - 119)
    else
      let body := padBytes (fill (len - 13) (recs ++ items))
      ccmTag kd nonce bt body 9 ++ bt ++ (ccmText kd nonce bt body).take (len - 13)

/-- A beacon's bits (R118, R120). -/
def State.beaconBits (s : State) (f : Nat) : BitVec 36 :=
  let x := s.feeder f
  let low := pack [(0, 20, x.frame), (20, 5, x.cack), (25, 1, (s.frameSlot f x.frame).gen), (26, 1, b2n x.resync),
    (27, 1, b2n (if x.frame = s.tb.hcn then bit s.tb.flags 1 else (s.stampFlags x.frame).testBit 1))]
  BitVec.ofNat 36 (crc8 f (lsbBits 28 low) * 2 ^ 28 + low)

/-! ## Joins (R146) -/

/-- Change one registration. -/
def State.onReg (s : State) (eui : Nat) (g : Reg → Reg) : State :=
  s.onNv (fun v => { v with regs := v.regs.map (fun r => if r.eui == eui then g r else r) })

/-- Free an address: its node is no longer joined, and what the module knew of it goes (R147, 05 R166, R167). -/
def State.freeAddr (s : State) (a : Nat) : State :=
  let s := (s.sensor ⟨a, 0x5#32, 0, false⟩).onQueue a (fun q => qDrop q (a % 2048))
  let s := (s.onNode a (fun _ => {})).onFeeder (a / 2048) (fun x => { x with keyQ := x.keyQ.filter (· != a % 2048) })
  s.onNv (fun v => { v with
    regs := v.regs.map (fun r => if r.addr == some a then { r with addr := none } else r)
    bg := tmod [] v.bg (a / 2048) (fun l => l.filter (fun b => match b.item with
      | .groupSet i _ _ _ => i != a % 2048 | .sceneSet i _ _ => i != a % 2048 | .nodeCfg i _ _ => i != a % 2048
      | .leave i => i != a % 2048 | _ => true)) })

/-- Queue a background item on a feeder (R127, 11 R364). -/
def State.addBg (s : State) (f : Nat) (i : Item) (joinCfg : Bool) : State :=
  { s with
    order := s.order + 1
    nv := { s.nv with bg := tmod [] s.nv.bg f (fun l => l ++ [{ id := s.order, item := i, joinCfg := joinCfg }]) } }

/-- After a join the module sends the node its configuration (R146). -/
def State.sendCfg (s : State) (a : Nat) : State :=
  let c := s.ncfg a
  let f := a / 2048
  let i := a % 2048
  let items := c.groups.map (fun g => Item.groupSet i g.1 (g.2 - 1) 1)
    ++ c.scenes.map (fun n => Item.sceneSet i n.1 n.2)
    ++ c.params.filterMap (fun p => p.2.map (fun v => Item.nodeCfg i p.1 v))
  items.foldl (fun s it => s.addBg f it true) s

/-- A join ends: the EUI is joined at its index, and its configuration and a pending rollover follow (R146). The default model goes into the table, and
straight to MRAM while the D-region is down, and a fit begins anew (08 R266, R292). A node
whose index changes clears its groups and scenes. -/
def State.completeJoin (s : State) (f : Nat) (q : JoinKey) : State :=
  let a := 2048 * f + q.idx
  match s.nv.regs.find? (fun r => r.eui == q.eui) with
  | none => s
  | some r =>
    let again := r.addr == some a
    let s := match r.addr with
      | some old =>
        if again then s
        else
          let c := s.ncfg old
          let s := (s.freeAddr old).onNcfg old (fun _ => {})
          let s := s.onNcfg a (fun _ => { c with groups := [], scenes := [] })
          (s.raiseGen .c 0x04 0 [(old, 2), (a, 2)]).nodeNote old q.eui 1 0
      | none => s
    let fresh := !(s.joinedAt a)
    let s := s.onReg q.eui (fun r => { r with addr := some a })
    let s := if again then s else s.onNode a (fun _ => { force := 10000 })
    let s := if fresh then
        let d := if s.runs .d then s.accord.default else s.nv.accDefault
        let w := setFld (setFld d 0 2 0) 2 2 0
        let s := s.onBlot (fun b => { b with fits := tset {} b.fits a {} })
        if s.runs .d then s.setModel a w
        else s.onNv (fun v => v.setModelSet { v.modelSet with models := tset 0 v.modelSet.models a w })
      else s
    let s := if again then s else s.nodeNote a q.eui 0 0
    let s := s.sendCfg a
    if (tget none s.nv.rolls f).isSome then
      (s.onNode a (fun n => { n with keyAcked := false, keySent := 0 })).onFeeder f (fun x => { x with keyQ := x.keyQ.filter (· != q.idx) ++ [q.idx] })
    else s

/-! ## Level records and damaged frames -/

/-- A commanded level takes effect for a node at the edge of HCN k (R123, R150, R152, R153). -/
def State.takeLevel (s : State) (a l k : Nat) : State :=
  (s.onNode a (fun n => { n with
    force := l
    known := true
    localUntil := match n.localUntil with | some u => if u ≤ k then none else some u | none => none
    probe := none })).cutProbe a k

/-- The records placed in the previous frame take effect (R123). -/
def State.recordsEffect (s : State) (k : Nat) : State :=
  (s.nodes.filterMap (fun e => e.2.next.map (fun l => (e.1, l)))).foldl (fun s e =>
    (s.onNode e.1 (fun n => { n with next := none })).takeLevel e.1 e.2 k) s

/-- Transmissions of a link command on the feeder of a member; 3 or more means the members hold its level (R128, R130). -/
def State.sentOn (s : State) (f id : Nat) : Nat := (((s.feeder f).cmds.find? (fun c => c.id == id)).map LinkCmd.sent).getD 0

/-- Forget a link command once it has taken effect. -/
def State.dropCmd (s : State) (id : Nat) : State :=
  (rangeFrom 0 8).foldl (fun s f => s.onFeeder f (fun x => { x with cmds := x.cmds.filter (fun c => c.id != id) })) s

/-- A level that takes effect for a node at the edge of HCN k ends its probe (R153; 08 R287). -/
def State.endProbe (s : State) (a k : Nat) : State := (s.onNode a (fun n => { n with probe := none })).cutProbe a k

/-- A group or scene command at its edge, for one member (R130, R131, 05 R181). A record placed for the same edge prevails, and OUT stays the
engine's (log entry 34). -/
def State.memberLevel (s : State) (a l k id : Nat) : State :=
  if !s.joinedAt a then s
  else
    let s := s.onNode a (fun n => { n with cmdAt := (k, id) })
    if (s.node a).next.isSome then s
    else if 3 ≤ s.sentOn (a / 2048) id then (s.commandLevel a (some l)).takeLevel a l k
    else (s.commandLevel a none).endProbe a k

/-- A GROUP_LEVEL at its edge. -/
def State.groupEffect (s : State) (id : Nat) (members : List Nat) (l k : Nat) : State :=
  (members.foldl (fun s a => s.memberLevel a l k id) s).dropCmd id

/-- A scene command at its edge: a member that stores 3FFFh keeps its level (R124); it is a member all the same (05 R177). -/
def State.sceneEffect (s : State) (id : Nat) (members : List Nat) (scene k : Nat) : State :=
  (members.foldl (fun s a =>
    let l := tget unk (s.ncfg a).scenes scene
    if l = unk then (if s.joinedAt a then s.onNode a (fun n => { n with cmdAt := (k, id) }) else s) else s.memberLevel a l k id) s).dropCmd id

/-- A damaged frame's block: its records return to the head of the queue in the order of their first placement, also after a STOP (05 R176,
R188: the model queues and sends them, log entry 34), its items go again in the next frame, a JOIN_KEY stays pending, and RR_NEXT counts as not carried (03 R110). A
record that has taken effect by then counts as not received. -/
def State.spoil (s : State) (f : Nat) : State :=
  match (s.feeder f).block with
  | none => s
  | some b =>
    let s := b.levels.foldl (fun s r =>
      let a := 2048 * f + r.idx
      let s := s.onNode a (fun n => if n.next.isSome then { n with next := none }
        else if s.tb.hcn ≤ b.hcn then n else { n with force := r.force, known := r.known })
      let s := s.setLevels a r.before none
      s.onFeeder f (fun x =>
        if (qFind x.queue r.idx).isSome || (r.before ≠ unk && r.before == r.level) then x
        else { x with queue := x.queue ++ [⟨r.idx, r.level, r.entered, some r.rank⟩] })) s
    s.onFeeder f (fun x => { x with
      block := none
      resend := x.resend ++ b.items
      resendFull := x.resendFull || b.bt == 12
      rrNext := if b.bt = 12 then b.rrPrev else x.rrNext
      joins := match b.join with
        | some q => x.joins.map (fun w => if w.eui == q.eui then
            (if q.ksel = 1 then { w with ksel1 := true } else { w with ksel0 := true }) else w)
        | none => x.joins })

/-- The burst of a feeder's frame is over (03 R99, R100). -/
def State.burstOver (s : State) (f : Nat) : Bool :=
  decide ((s.feeder f).refTime + (if s.tb.p60 then 2006000 else 2284000) ≤ s.now)

/-- The echo of the frame under way passed, or passes so far: the check acted and declared nothing (03 R107, R112). -/
def State.echoPassed (s : State) (f : Nat) : Bool :=
  let x := s.feeder f
  let r := tget {} s.rx f
  x.live && !x.damaged && r.learn == 17 && !r.rxFail

/-- A frame is over: its echo passed or did not, and a JOIN_KEY of KSEL 0 that went out undamaged ends its join. -/
def State.settleFrame (s : State) (f : Nat) : State :=
  let x := s.feeder f
  let pass := s.echoPassed f
  let s := s.onFeeder f (fun x => { x with
    block := none, damaged := false, extPass := if pass then stick 256 (x.extPass + 1) else x.extPass })
  match x.block with
  | some b => match b.join with
    | some q => if q.ksel = 0 then
        (s.completeJoin f q).onFeeder f (fun x => { x with joins := x.joins.filter (fun w => w.eui != q.eui) })
      else s
    | none => s
  | none => s

/-! ## Filling a block (R126-R129) -/

/-- The override that stands in the limit array for a node: the latest pending one that is written already, else the one in force. -/
def State.ovrOf (s : State) (a : Nat) : Option Override :=
  let l := s.acts.filter (fun x => decide (x.t ≤ s.tb.hcn + 2) && (match x.what with | .overrideSet ms _ _ => ms.contains a | _ => false))
  match (sortBy (fun (x : Action) => [x.t, x.order]) l).getLast? with
  | some x => (match x.what with | .overrideSet _ lv e => lv.map (fun v => ⟨v, e, x.order⟩) | _ => none)
  | none => tget none s.nv.overrides a

/-- An entry is held at the close of frame j: a command bound to j + 1 is pending, or has taken effect at that edge when the close comes
after it (05 R177; 02 R76). -/
def State.entryHeld (s : State) (f j : Nat) (e : QEntry) : Bool :=
  let a := 2048 * f + e.idx
  let ovr := s.ovrOf a
  let later := fun (ord : Nat) => limOvr (s.sil.tab.limit a) != unk &&
    (match ovr with | some o => decide (ord < o.order) | none => false)
  let cmd := (s.acts ++ s.sched.cmds).any (fun x => x.t == j + 1 && (match x.what with
    | .groupLevel _ ms _ => ms.contains a && !later x.order
    | .sceneRecall _ ms _ => ms.contains a && !later x.order
    | _ => false))
    || ((s.node a).cmdAt.1 == j + 1 && !later (s.node a).cmdAt.2)
  let sent := stSent (s.sil.tab.state a)
  let falling := sent != unk && decide (e.level ≤ sent)
  cmd || (falling && s.blot.probes.any (fun p => p.addr == a && decide (p.start ≤ j + 1 ∧ j + 1 ≤ p.start + 15)))

/-- Link commands enter transmission in order of acceptance, at most 8 at a time, and take their CSEQ (R129; log entry 30). -/
def enterCmds (j : Nat) : List LinkCmd → Nat → Nat → List LinkCmd × Nat
  | [], _, cseq => ([], cseq)
  | c :: cs, n, cseq =>
    let isProbe := match c.item with | .probe .. => true | _ => false
    if c.cseq.isNone && !isProbe && decide (n < 8) && decide (j < c.t) && decide (c.t ≤ j + 65536) && decide (c.accHcn < j) then
      let r := enterCmds j cs (n + 1) ((cseq + 1) % 16)
      ({ c with cseq := some cseq } :: r.1, r.2)
    else
      let r := enterCmds j cs n cseq
      (c :: r.1, r.2)

/-- A command with its CSEQ in its item. -/
def LinkCmd.sending (c : LinkCmd) : Item :=
  match c.item, c.cseq with
  | .groupLevel _ g l t, some q => .groupLevel q g l t
  | .sceneRecall _ g n t, some q => .sceneRecall q g n t
  | .sceneAll _ n t, some q => .sceneAll q n t
  | .imgActivate _ m g t, some q => .imgActivate q m g t
  | i, _ => i

/-- A command that has a transmission to make in frame j (R128). -/
def LinkCmd.ready (c : LinkCmd) (j : Nat) : Bool :=
  (c.cseq.isSome || (match c.item with | .probe .. => true | _ => false)) && decide (c.sent < 3) && c.item.live j
    && decide (c.accHcn < j) && decide (c.t ≤ j + 65536)

/-- At most `n` link commands, strictly oldest first (R127, step 2). -/
def takeCmds (j : Nat) : List LinkCmd → Nat → Nat → List LinkCmd × List Item × Nat
  | [], _, free => ([], [], free)
  | c :: cs, n, free =>
    if !c.ready j then
      let r := takeCmds j cs n free
      (c :: r.1, r.2)
    else if n = 0 || free < c.item.size then (c :: cs, [], free)
    else
      let r := takeCmds j cs (n - 1) (free - c.item.size)
      ({ c with sent := c.sent + 1 } :: r.1, c.sending :: r.2.1, r.2.2)

/-- Where a background item comes from. -/
inductive BgRef where
  | keyFeeder
  | nodeKey (idx : Nat)
  | item (id : Nat)
  | img (n : Nat)
  deriving DecidableEq, Repr

/-- The Wetur versions that the running C image speaks: interface 5 of its directory entry; 1 and 2 where the bank gives none
(R148; 15, table "Interfaces"). -/
def State.protoRange (s : State) : Nat × Nat :=
  match ((s.nv.upd.bank s.nv.upd.bankC).dir).find? (fun c => c.type == 1) with
  | some c => (c.ifr[5]?).getD (1, 2)
  | none => (1, 2)

/-- The module speaks a version (R148). -/
def State.pverOk (s : State) (pv : Nat) : Bool := decide (s.protoRange.1 ≤ pv) && decide (pv ≤ s.protoRange.2)

/-- A node is served in full: the module speaks the version it reported, or it has reported none yet (R148; log entry 38). -/
def State.served (s : State) (a : Nat) : Bool :=
  let n := s.node a
  if n.pver = 0 then !n.incompatible else s.pverOk n.pver

/-- Whether the module may send an item to a node of its version: parameter 8 is not in version 1, and a node of a version the
module does not speak receives only level records and broadcast items (R148; log entry 38). -/
def State.versionOk (s : State) (f : Nat) (i : Item) : Bool :=
  let ok := fun idx => s.served (2048 * f + idx)
  match i with
  | .nodeCfg idx p _ => ok idx && !((s.node (2048 * f + idx)).pver == 1 && p == 8)
  | .groupSet idx .. => ok idx
  | .sceneSet idx .. => ok idx
  | .leave idx => ok idx
  | .nodeKey idx .. => ok idx
  | _ => true

/-- The pending background items of a feeder for frame j in the order of R127, step 5; a KEY_FEEDER whose EXEC that frame would resolve to another HCN
waits (R123). -/
def State.bgPending (s : State) (f j : Nat) : List (BgRef × Item) :=
  let x := s.feeder f
  let keys := match tget none s.nv.rolls f with
    | some p => (if x.kfDue && decide (j < p.t ∧ p.t ≤ j + 1048576) then [(BgRef.keyFeeder, Item.keyFeeder p.gen p.t)] else [])
        ++ x.keyQ.map (fun i => (BgRef.nodeKey i, Item.nodeKey i 1 p.gen))
    | none => []
  let items := (tget [] s.nv.bg f).filterMap (fun b => if b.due then some (BgRef.item b.id, b.item) else none)
  let imgs := x.dist.filterMap (fun d => if d.waiting || d.nblk ≤ d.next then none else some (BgRef.img d.img, Item.imgBlock d.img d.next))
  (keys ++ items ++ imgs).filter (fun e => s.versionOk f e.2)

/-- Items that fit, in order; one that does not fit is passed over (R127, step 5). -/
def fitBg : List (BgRef × Item) → Nat → List (BgRef × Item)
  | [], _ => []
  | e :: es, free => if e.2.size ≤ free then e :: fitBg es (free - e.2.size) else fitBg es free

/-- Items to send again that fit, and those that wait (R127, step 1). -/
def fitResend : List Item → Nat → List Item × List Item × Nat
  | [], free => ([], [], free)
  | i :: is, free =>
    if i.size ≤ free then let r := fitResend is (free - i.size); (i :: r.1, r.2.1, r.2.2)
    else let r := fitResend is free; (r.1, i :: r.2.1, r.2.2)

/-- An UPD notification (15 R494). -/
def State.updNote (s : State) (comp done total : Nat) : State :=
  let st := match s.nv.upd.stage with
    | .idle => 0 | .receiving => 1 | .verifying => 2 | .ready => 3 | .reconstructing => 4 | .armed => 5 | .switching => 6
    | .trial => 7 | .confirming => 8
  s.notifyClass 6 0x0C80 .ok [(st, 1), (comp, 1), (done, 4), (total, 4)]

/-- Joined nodes of a feeder whose last IMG_STATUS for an image reads a STATE. -/
def State.imgCount (s : State) (f img st : Nat) : Nat :=
  ((s.joinedOn f).filter (fun a => (tget {} (s.node a).img img).st == st)).length

/-- A background item has been placed in frame j. -/
def State.placedBg (s : State) (f j : Nat) (r : BgRef) : State :=
  match r with
  | .keyFeeder => s.onFeeder f (fun x => { x with kfDue := false })
  | .nodeKey idx =>
    (s.onFeeder f (fun x => { x with keyQ := x.keyQ.filter (· != idx) })).onNode (2048 * f + idx)
      (fun n => { n with keySent := n.keySent + 1, keySentAt := j })
  | .item id => s.onNv (fun v => { v with bg := tmod [] v.bg f (fun l => l.map (fun b =>
      if b.id == id then { b with sent := b.sent + 1, due := false, sentAt := j } else b)) })
  | .img n =>
    let last := (s.feeder f).dist.any (fun d => d.img == n && d.next + 1 == d.nblk)
    let s := s.onFeeder f (fun x => { x with dist := x.dist.map (fun d =>
      if d.img == n then { d with next := d.next + 1, waiting := d.next + 1 == d.nblk, endedAt := j } else d) })
    if last then s.updNote (16 + n) (s.imgCount f n 2) (s.joinedOn f).length else s

/-- Place level records of frame j: they leave the queue, SENT becomes their level, and they take effect at the edge of j + 1, at once where a
set-B feeder closes its block after that edge (R123; 02 R76). A rising record for a probed node ends its probe (05 R177, R178; 08
R287). -/
def State.placeLevels (s : State) (f j : Nat) (l : List QEntry) : State × List LevelRec :=
  l.foldl (fun p e =>
    let a := 2048 * f + e.idx
    let before := stSent (p.1.sil.tab.state a)
    let n := p.1.node a
    let rank := e.head.getD (p.1.feeder f).headCnt
    let s := (p.1.setLevels a e.level none).onFeeder f (fun x => { x with queue := qDrop x.queue e.idx, headCnt := x.headCnt + 1 })
    let s := if s.tb.hcn ≤ j then s.onNode a (fun n => { n with next := some e.level }) else s.takeLevel a e.level (j + 1)
    let s := s.cutProbe a (j + 1)
    (s, p.2 ++ [⟨e.idx, e.level, e.hcn, before, rank, n.force, n.known⟩])) (s, [])

/-- Saturation of a queue after the placement for frame j (05 R179). -/
def State.noteSat (s : State) (f j : Nat) : State :=
  let x := s.feeder f
  let sat := x.queue.any (fun e => !s.entryHeld f j e)
  let addr := wSillage + 0x60 + 4 * f
  if sat then
    let b := bump 65535 x.satFrames
    let s := s.onFeeder f (fun x => { x with sat := true, satRun := x.satRun + 1, satFrames := b.1, sinceSat := 0 })
    let s := (s.stuckIf b.2 addr 16).addTotal addr 16 1
    if x.satRun + 1 = 256 then (s.onFeeder f (fun x => { x with satTold := true })).raiseGen .c 0x05 0 [] else s
  else
    let s := s.onFeeder f (fun x => { x with sat := false, satRun := 0, satTold := false })
    if x.satTold then s.raiseGen .c 0x05 0 [] else s

/-- Note what the queue held at the close, and how many aged entries were placed (05, SIL_Q_n, SIL_QCNT_n). -/
def State.noteAges (s : State) (f j : Nat) (q placed : List QEntry) : State :=
  let n := (placed.filter (fun e => decide (s.sil.ageLimit ≤ j - e.hcn))).length
  let b := bumpBy 65535 (s.feeder f).aged n
  let addr := wSillage + 0x60 + 4 * f
  let s := s.onFeeder f (fun x => { x with age := stick 255 (q.foldl (fun m e => max m (j - e.hcn)) 0), aged := b.1 })
  (s.stuckIf b.2 addr 0).addTotal addr 0 n

/-- The type of the block of frame j: 12 full-HCN, 13 open, 0 normal (R126). -/
def Feeder.blockType (x : Feeder) (j : Nat) : Nat :=
  if j % 256 = 0 ∨ x.resync = true ∨ x.resendFull = true then 12
  else if x.joins.any (fun w => w.ksel1 || w.ksel0) && (j % 64 == 2 || (j % 4 == 2 && x.queue.isEmpty)) then 13
  else 0

/-- An open block: the next JOIN_KEY of the oldest join, KSEL 1 before KSEL 0 (R125, R146). -/
def State.closeOpen (s : State) (f j : Nat) : State × Block :=
  match (s.feeder f).joins.find? (fun w => w.ksel1 || w.ksel0) with
  | none => (s, { hcn := j, bt := 13 })
  | some w =>
    let k := if w.ksel1 then 1 else 0
    (s.onFeeder f (fun x => { x with joins := x.joins.map (fun v => if v.eui == w.eui then
        (if k = 1 then { v with ksel1 := false } else { v with ksel0 := false }) else v) }),
     { hcn := j, bt := 13, join := some ⟨w.eui, w.idx, k, w.jhcn⟩ })

/-- An encrypted body, filled in the order of R127; `full` for a full-HCN block. -/
def State.closeBody (s : State) (f j : Nat) (full : Bool) : State × Block :=
  let x := s.feeder f
  let room := s.blockLen - (if full then 123 else 13)
  let most := if full then (if s.tb.p60 then 4 else 6) else (if s.tb.p60 then 9 else 11)
  let r1 := fitResend (x.resend.filter (fun i => i.live j)) room
  let busy := (x.cmds.filter (fun c => c.cseq.isSome && decide (c.sent < 3) && decide (j < c.t))).length
  let en := enterCmds j x.cmds busy x.cseq
  let r2 := takeCmds j en.1 2 r1.2.2
  let s := s.onFeeder f (fun x => { x with resend := r1.2.1, resendFull := false, cmds := r2.1, cseq := en.2 })
  let bg0 := if j % 4 = 0 then fitBg ((s.bgPending f j).take 1) r2.2.2 else []
  let free := r2.2.2 - (bg0.map (fun e => e.2.size)).foldl (· + ·) 0
  let s := bg0.foldl (fun s e => s.placedBg f j e.1) s
  let order := sortBy (fun e => qKey j s.sil.ageLimit (stSent (s.sil.tab.state (2048 * f + e.idx))) e) x.queue
  let chosen := (order.filter (fun e => !s.entryHeld f j e)).take (min most (free / 25))
  let s := s.noteAges f j x.queue chosen
  let (s, recs) := s.placeLevels f j chosen
  let bg1 := fitBg (s.bgPending f j) (free - 25 * recs.length)
  let s := bg1.foldl (fun s e => s.placedBg f j e.1) s
  let items := r1.1 ++ r2.2.1 ++ bg0.map Prod.snd ++ bg1.map Prod.snd
  let want := s.wantRR f
  let gen := (s.frameSlot f j).gen
  let b : Block := { hcn := j, bt := if full then 12 else recs.length, kgen := gen, levels := recs, items := items }
  if full then
    let due := decide (j < s.tb.hcn) && s.tb.hcn % 256 == 0
    (s.onFeeder f (fun y => { y with rrNext := want, rrNow := if due then want else y.rrNow }),
      { b with rrNow := s.rrOf f j, rrNext := want, rrPrev := x.rrNext })
  else (s, b)

/-- Close the content of a feeder's block for its frame (R126, R127); a feeder that was muted in this frame sends nothing (03 R113). -/
def State.closeBlock (s : State) (f : Nat) : State :=
  let x := s.feeder f
  let j := x.frame
  let t := x.blockType j
  let (s, b) := if t = 13 then (let s := s.noteAges f j x.queue []; s.closeOpen f j) else s.closeBody f j (t == 12)
  let s := s.noteSat f j
  let s := if bit s.wtx.muted f then s
    else (blockTheta x.ref (s.blockBits f b)).zipIdx.foldl (fun s e => s.emit (.slot f (e.2 + 2) (sentPhases e.1))) s
  let s := s.onFeeder f (fun x => { x with block := some b })
  if x.damaged then s.spoil f else s

/-- BLOCK_CLOSE: 1 000 µs after the reference instant of an active frame (R126); at another time only time passes. -/
def execBlockClose (dt : Dt) (f : Nat) (s : State) : Res :=
  let t := s.tick dt
  let x := t.feeder f
  .next (if f < 8 && x.live && x.block.isNone && !x.closed && decide (t.now = x.refTime + msC) then
      (t.onFeeder f (fun x => { x with closed := true })).closeBlock f
    else t)

/-! ## The stage bank (03 R106-R115) -/

/-- Change the stage bank. -/
def State.onWtx (s : State) (g : StageBank → StageBank) : State := { s with wtx := g s.wtx }

/-- A receive path. -/
def State.rxp (s : State) (f : Nat) : RxPath := tget {} s.rx f
def State.onRx (s : State) (f : Nat) (g : RxPath → RxPath) : State := { s with rx := tmod {} s.rx f g }

/-- The stage that drives a feeder. -/
def StageBank.of (w : StageBank) (f : Nat) : Option Nat := tget (some f) w.assign f

/-- Connect a stage to a feeder. -/
def State.connect (s : State) (f : Nat) (m : Option Nat) : State :=
  s.onWtx (fun w => { w with assign := tset (some f) w.assign f m })

/-- A stage that re-enters goes to the lowest-numbered muted feeder at its next frame boundary, else it is the spare (18 R563, 03
R111, R113). -/
def State.stageSpare (s : State) (m : Nat) : State :=
  match (rangeFrom 0 8).find? (fun f => bit s.wtx.muted f && !(s.wtx.setNext.any (fun e => e.1 == f))) with
  | some f => s.onWtx (fun w => { w with setNext := w.setNext ++ [(f, m)] })
  | none => s.onWtx (fun w => { w with spare := some m, spareValid := true })

/-- Exclude a stage: STAGE_FAULT and its notification (03 R111, 18 R564). The bank handled the error if it had a spare for the feeder (01
R33). -/
def State.stageFault (s : State) (m f : Nat) : State :=
  let s := s.onWtx (fun w => { w with excluded := setBit w.excluded m true })
  let alone := bit s.wtx.muted f || (s.wtx.of f == some m && !s.wtx.spareValid)
  (s.raiseHw (if alone then 2 else 1) 0x14 m 0x0301 [m, f]).reserveNote 1 m 0

/-- A stage is no longer the spare for a feeder that waits for it: the STAGE_SETs and retirements that name it fall (03 R113, R114; DESIGN
CHOICE, log entry 61: the spec is silent on an accepted STAGE_SET whose stage an echo failure takes first). -/
def State.dropSets (s : State) (m : Nat) : State :=
  s.onWtx (fun w =>
    let gone := w.setNext.filter (fun e => e.2 == m)
    { w with setNext := w.setNext.filter (fun e => e.2 != m), retiring := gone.foldl (fun v e => setBit v e.1 false) w.retiring })

/-- Mute a feeder that has an echo failure and no spare (03 R113). -/
def State.muteFeeder (s : State) (f : Nat) : State :=
  let s := (s.connect f none).onWtx (fun w => { w with muted := setBit w.muted f true })
  s.onFeeder f (fun x => { x with subPassed := false, heldFail := false, suspAt := s.tb.hcn })

/-- The 40 µs echo window of a feeder's burst that ends now, and its burst's start (03 R107). -/
def State.echoWindow (s : State) (f t : Nat) : Nat × Nat :=
  let a := (s.feeder f).refTime + 60000
  (a, (t - a) / 16000)

/-- The feeder of a higher number that took the spare for a failure declared in the same window (03 R113). -/
def State.sameWindow (s : State) (f : Nat) : Option Nat :=
  match s.wtx.lastSub with
  | some (g, t) => if f < g ∧ s.echoWindow g t = s.echoWindow f s.now then some g else none
  | none => none

/-- What an echo failure on a feeder brings: the spare, or muting; the stage it drove waits for its load check. Of failures declared in one window the
lowest-numbered feeder has the spare (03 R109, R113). -/
def State.substitute (s : State) (f : Nat) (suspectFaulty : Bool) : State :=
  let old := s.wtx.of f
  let s := if suspectFaulty then s
    else match old with
      | some m => s.onWtx (fun w => { w with suspects := w.suspects ++ [(m, f)] })
      | none => s
  let give := fun (s : State) (m : Nat) =>
    let s := (s.connect f (some m)).onWtx (fun w => { w with spare := none, spareValid := false, lastSub := some (f, s.now) })
    (s.onFeeder f (fun x => { x with sinceSub := 0, subPassed := false, heldFail := false, suspAt := s.tb.hcn })).reserveNote 1 m 1
  match s.wtx.spare, s.wtx.spareValid with
  | some m, true => give (s.dropSets m) m
  | _, _ =>
    match (s.sameWindow f).bind (fun g => (s.wtx.of g).map (fun m => (g, m))) with
    | some (g, m) => give (s.muteFeeder g) m
    | none => s.muteFeeder f

/-- Retire the stage that drives a feeder for the spare, at the feeder's next frame boundary (18 R565). -/
def State.retireStage (s : State) (f m : Nat) : State :=
  s.onWtx (fun w => { w with setNext := w.setNext ++ [(f, m)], retiring := setBit w.retiring f true })

/-- The threshold policy for the stage that drives a feeder (18 R556). -/
def State.stageWorn (s : State) (f : Nat) : State :=
  match s.wtx.of f with
  | none => s
  | some m =>
    if !s.worn 1 m then s
    else match s.wtx.spare, s.wtx.spareValid with
      | some k, true => s.retireStage f k
      | _, _ => if s.wearOf 1 m = s.threshOf 1 then s.wornEvent .c 1 m else s

/-- A STAGE_SET or a retirement at the feeder's frame boundary, or a stage that comes to a muted feeder (03 R113, R114; 11 R362;
18 R563, R565). -/
def State.applySet (s : State) (f : Nat) : State :=
  match s.wtx.setNext.find? (fun e => e.1 == f) with
  | none => s
  | some (_, m) =>
    let s := s.onWtx (fun w => { w with setNext := w.setNext.filter (fun e => e.1 != f) })
    if bit s.wtx.muted f then
      let s := (s.connect f (some m)).onWtx (fun w => { w with muted := setBit w.muted f false })
      (s.onRx f (fun r => { r with learn := 0 })).reserveNote 1 m 1
    else if s.wtx.spare = some m ∧ s.wtx.spareValid = true then
      let old := s.wtx.of f
      let gone := bit s.wtx.retiring f
      let s := (s.connect f (some m)).onWtx (fun w => { w with
        spare := if gone then none else old
        spareValid := !gone
        retiring := setBit w.retiring f false
        excluded := match old, gone with | some o, true => setBit w.excluded o true | _, _ => w.excluded })
      let s := match old, gone with | some o, true => s.reserveNote 1 o 0 | _, _ => s
      s.reserveNote 1 m 1
    else s.onWtx (fun w => { w with retiring := setBit w.retiring f false })

/-- The verdict on a feeder whose echo failed again within 8 frames of a substitution (03 R112); a stage that stays in service and has
reached THRESH falls under 18 R556. -/
def State.verdict (s : State) (f : Nat) (stageOk rxOk : Bool) : State :=
  let s := s.onFeeder f (fun x => { x with heldFail := false, extPass := 0 })
  let s := if rxOk then s
    else
      let s := ((s.onRx f (fun r => { r with rxFail := true })).wearInc 2 f).reserveNote 2 f 0
      let s := s.raiseHw 1 0x15 f 0x0300 (genPay (wWrx + 0x10 * f) [])
      if s.worn 2 f && s.wearOf 2 f == s.threshOf 2 then s.wornEvent .c 2 f else s
  if !stageOk then
    match s.wtx.of f with
    | some m => (s.stageFault m f).substitute f true
    | none => s
  else
    let s := if rxOk then
        (s.onWtx (fun w => { w with extFault := setBit w.extFault f true })).raiseHw 1 0x14 0xFFF 0x0300 (genPay (wWtx + 4) [])
      else s
    s.stageWorn f

/-- The module transmits on a feeder, or the declaration of its last window is due: from the third window on, to 4 µs after the burst (03
R107). -/
def State.inBurst (s : State) (f : Nat) : Bool :=
  let a := (s.feeder f).refTime
  decide (a + 108000 ≤ s.now ∧ s.now ≤ a + (if s.tb.p60 then 2006000 else 2284000) + 1600)

/-- ECHO_FAILURE: declared in the burst of an active frame once the gain is learnt and while the path is in service (03 R107, R109,
R112). -/
def execEchoFailure (dt : Dt) (f : Nat) (s : State) : Res :=
  let t := s.tick dt
  let x := t.feeder f
  let r := t.rxp f
  .next (if !(decide (f < 8) && x.live && t.inBurst f && r.learn == 17 && !r.rxFail && !(bit t.wtx.muted f)) then t
    else
      let b := bump 255 r.echoFail
      let t := (t.onRx f (fun r => { r with echoFail := b.1 })).stuckIf b.2 (wWrx + 0x10 * f) 24
      let t := match t.wtx.of f with | some m => t.wearInc 1 m | none => t
      let t := (t.onFeeder f (fun x => { x with damaged := true, extPass := 0 })).spoil f
      if bit t.wtx.extFault f then t.stageWorn f
      else if x.sinceSub ≤ 8 && (x.subPassed || t.wtx.suspects.any (fun e => e.2 == f)) then
        t.onFeeder f (fun x => { x with heldFail := true })
      else t.substitute f false)

/-- The suspects that the test load can take in this half-cycle: those of an earlier frame, one in a frame (03 R111, R113). -/
def State.checkable (s : State) : List (Nat × Nat) :=
  if s.wtx.checked = some s.tb.hcn then [] else s.wtx.suspects.filter (fun e => decide ((s.feeder e.2).suspAt < s.tb.hcn))

/-- A suspect's turn on the test load: in ascending feeder order (03 R113). -/
def State.loadTurn (s : State) (stage : Nat) : Bool :=
  match s.checkable.find? (fun e => e.1 == stage) with
  | some e => s.checkable.all (fun o => decide (e.2 ≤ o.2))
  | none => false

/-- STAGE_LOAD_CHECK: the result for a suspect, and for the tests of a verdict, which wait for the suspect's (03 R111-R113). -/
def execStageLoadCheck (dt : Dt) (stage : Nat) (pass currentPass rxPass : Bool) (s : State) : Res :=
  let t := s.tick dt
  .next (match t.wtx.suspects.find? (fun e => e.1 == stage) with
    | some (_, f) =>
      let held := (t.feeder f).heldFail
      let u := t.onWtx (fun w => { w with suspects := w.suspects.filter (fun e => e.1 != stage), checked := some t.tb.hcn })
      if !t.loadTurn stage then t
      else let t := u
      if pass then
        let t := (t.raiseHw 1 0x14 stage 0x0302 [stage, f]).stageSpare stage
        let t := t.onFeeder f (fun x => { x with subPassed := true })
        if held then t.verdict f currentPass rxPass else t
      else
        let t := t.stageFault stage f
        if held then t.substitute f false else t
    | none =>
      match (rangeFrom 0 8).find? (fun f => t.wtx.of f == some stage && (t.feeder f).heldFail && (t.feeder f).subPassed) with
      | some f => t.verdict f currentPass rxPass
      | none => t)

/-- SPARE_STAGE_CHECK: the idle spare fails; it is excluded and counted (03 R108, 18 R555). -/
def execSpareStageCheck (dt : Dt) (s : State) : Res :=
  let t := s.tick dt
  .next (match t.wtx.spare with
    | some m =>
      let t := (t.dropSets m).onWtx (fun w => { w with spare := none, spareValid := false, excluded := setBit w.excluded m true })
      ((t.wearInc 1 m).raiseHw 1 0x14 m 0x0300 (genPay (wWtx + 4) [])).reserveNote 1 m 0
    | none => t)

/-- EXT_FAULT_CLEAR: 256 consecutive frames in which the echo passed (03 R112). -/
def execExtFaultClear (dt : Dt) (f : Nat) (s : State) : Res :=
  let t := s.tick dt
  .next (if decide (f < 8) && bit t.wtx.extFault f && decide (256 ≤ (t.feeder f).extPass + b2n (t.echoPassed f && t.burstOver f)) then
      t.onWtx (fun w => { w with extFault := setBit w.extFault f false })
    else t)

/-! ## Frames -/

/-- The reference instant of a feeder's frame of HCN k: the edge, or the set-B crossing assigned to k, where it is expected while it has not
come (02 R76; 03 R99). -/
def State.refInstant (s : State) (f k : Nat) : Option Nat :=
  let e := cutOf s.tb.cuts k
  if s.onB f then
    match cutOf s.tb.setB.cuts k with
    | some c => some c
    | none => if k = s.tb.hcn then e.map (fun e => ((e : Int) + s.tb.setB.bofs).toNat) else none
  else e

/-- The HCN whose frame begins on a feeder now, 150 µs after its reference instant: one still owed, or the current one (02 R71, R76; 03
R99). -/
def State.frameNow (s : State) (f : Nat) : Option Nat :=
  let x := s.feeder f
  let cur := if x.active && !(x.live && x.frame == s.tb.hcn) then [s.tb.hcn] else []
  (x.owed.toList ++ cur).find? (fun k => decide ((s.refInstant f k).map (· + 60000) = some s.now))

/-- FRAME_BURST_START: a frame begins on an active feeder with its beacon (03 R99, R100; 04 R118, R119); at another time only time
passes. -/
def execFrameBurstStart (dt : Dt) (f : Nat) (s : State) : Res :=
  let t := s.tick dt
  .next (match (if decide (f < 8) && t.linkActive f then t.frameNow f else none) with
    | none => t
    | some k =>
      let t := (t.settleFrame f).applySet f
      let t := t.onFeeder f (fun x => { x with
        live := true, closed := false, frame := k, refTime := t.now - 60000, owed := none, resync := decide (0 < x.first8), first8 := x.first8 - 1
        sinceSub := stick 9 (x.sinceSub + 1), sinceSat := stick 16 (x.sinceSat + 1) })
      let t := t.onRx f (fun r => { r with learn := stick 17 (r.learn + 1) })
      let bits := t.beaconBits f
      let th := beaconTheta (lsbBits 36 bits.toNat)
      let t := t.emit (.beacon f bits ((t.wtx.of f).getD 15) (tget 0 t.wtx.atten f))
      let t := (t.emit (.slot f 0 (sentPhases th.1))).emit (.slot f 1 (sentPhases th.2))
      t.onFeeder f (fun x => { x with ref := th.2, cack := 31 }))

/-- A feeder at an HCN edge: a stage for a muted feeder comes first (03 R113), then its activity, a stage for a feeder without a frame (03 R114), RR at multiples of 256, the distribution of a pending rollover, and what an inactive
half-cycle does; KEY_FEEDER is not sent before frame t - 2^20, from which its EXEC names t alone (R123, R126, R135, R142, R154; 08 R263). -/
def State.feederEdge (s : State) (f : Nat) : State :=
  let k := s.tb.hcn
  let s := if bit s.wtx.muted f then s.applySet f else s
  let on := s.linkActive f
  let s := if on then s else s.applySet f
  let s := s.onFeeder f (fun x => { x with rrWas := x.rrNow, rrNow := if k % 256 = 0 then x.rrNext else x.rrNow })
  let kf := match tget none s.nv.rolls f with
    | some p => let n := k - max (s.feeder f).kfStart (p.t - 1048577); decide (k < p.t ∧ 1 ≤ n ∧ (n ≤ 16 ∨ n % 256 = 0))
    | none => false
  let late := s.onB f && on && (s.feeder f).active && !((s.feeder f).live && (s.feeder f).frame == k - 1)
  let s := s.onFeeder f (fun x => { x with active := on, owed := if late then some (k - 1) else none, kfDue := x.kfDue || kf })
  if on then s.onFeeder f (fun x => { x with inactive := 0 })
  else
    let s := s.settleFrame f
    let s := s.onFeeder f (fun x => { x with live := false, first8 := 8, cack := 31, inactive := stick 50 (x.inactive + 1) })
    (s.joinedOn f).foldl (fun s a => if (s.node a).known then s.onNode a (fun n => { n with known := false }) else s) s

/-- R154 for one node: the module takes its level to be FALLBACK_LEVEL (05 R182, 08 R263, R287). -/
def State.fallbackNode (s : State) (a : Nat) : State :=
  let l := s.fallbackLevel a
  let s := (s.nodeFallback a).onNode a (fun n => { n with force := l, localUntil := none, next := none })
  let s := s.cutProbe a s.tb.hcn
  s.onNode a (fun n => { n with probe := none })

/-- LINK_INACTIVE_50: 50 consecutive inactive frames (R154). -/
def execLinkInactive50 (dt : Dt) (f : Nat) (s : State) : Res :=
  let t := s.tick dt
  .next (if decide (f < 8) && t.started && t.runs .c && decide (50 ≤ (t.feeder f).inactive) then
      (t.joinedOn f).foldl (fun t a => t.fallbackNode a) t
    else t)

end Sys2Proof.Machine
end

