-- ==== Sys2Proof/Machine/Blotter.lean ====
section
/-!
DEFINITION. Blotter's correlator and judgement (08 R282-R292), its timers (R280, R286), and the BLOTTER group (11, table
"BLOTTER commands", R371).
-/
namespace Sys2Proof.Machine

/-! ## Correlation (R276, R282-R284) -/

/-- R of a code over the 16 values of P' of a window, oldest first (R282). -/
def correlate (ps : List Int) (c : Nat) : Int :=
  roundDiv ((ps.zip (rangeFrom 0 16)).foldl (fun t e => t + walsh c e.2 * e.1) 0) (16 * modelDen)

/-- The parity bias of a phase before START: half the difference of the means of P' over even and odd HCNs of the 32 before it;
0 where one of them has no value (R276). -/
def parityBias (l : List Corr) (start : Nat) : Int :=
  let pre := l.filter (fun e => decide (start ≤ e.hcn + 32 ∧ e.hcn < start))
  let ev := pre.filter (fun e => e.hcn % 2 == 0)
  let od := pre.filter (fun e => e.hcn % 2 == 1)
  let sum := fun (m : List Corr) => m.foldl (fun t e => t + e.p) 0
  if ev.isEmpty || od.isEmpty then 0
  else roundDiv (sum ev * od.length - sum od * ev.length) (2 * ev.length * od.length * modelDen)

/-- The last window of a phase. -/
def State.win (s : State) (x : Nat) : Window := tget {} s.blot.win x

/-- R of a code in the last window. -/
def Window.of (w : Window) (c : Nat) : Int := w.r.getD (c - 1) 0

/-- The noise floor with new samples, the newest 256 counting (R284). -/
def Noise.add (n : Noise) (new : List Int) : Noise :=
  if new.isEmpty then n else
  let l := (new ++ n.samples).take 256
  { nf := rootDiv (l.foldl (fun t v => t + v * v) 0).toNat l.length, samples := l }

/-! ## Judgement (R285, R286, R291) -/

/-- A commanded probe that is not judged: it is deferred with a cause, unless its request was cancelled (R280). -/
def State.deferProbe (s : State) (p : Probe) (cause : Nat) : State :=
  ((s.dropProbe p.req).onReq p.req (fun q => q.ran p.start)).deferReq p.req cause

/-- Outcomes that await the node's ACK (R286). -/
def State.judgedAs (s : State) (p : Probe) (j : Judged) : State :=
  if j.outcome = 1 then s.finishProbe p 1 0 (p.ackRes.getD 15) j
  else match p.ackRes with
    | some res => s.ackJudged p j res
    | none => s.onBlot (fun b => { b with probes := b.probes.map (fun q => if q.req == p.req then { q with judged := some j } else q) })

/-- A probe judged on phase x (R285). -/
def State.judge (s : State) (p : Probe) (x : Nat) : State :=
  let e := roundDiv (s.power p.addr (probeLevel p.base p.delta 15 0) - s.power p.addr (probeLevel p.base p.delta 1 1)) (2 * modelDen)
  let nf := s.nf x
  let r := (s.win x).of p.code
  if e < (s.blot.nmK * nf : Nat) then s.deferProbe p 1
  else
    let outcome := if (r - e).natAbs * 100 ≤ max (s.blot.devPct * e.toNat) (200 * nf) then 1
      else if r.natAbs ≤ 2 * nf then 2 else 3
    s.judgedAs p ⟨outcome, r, e, x % 3 + 1, nf⟩

/-- A probe of a node whose PHASE is unknown, once the three phases of its feeder are correlated (R291). -/
def State.judgeUnknown (s : State) (p : Probe) : State :=
  let xs := rangeFrom (3 * (p.addr / 2048)) 3
  if xs.any (fun x => (s.win x).start != p.start || (s.win x).r.isEmpty) then s
  else if xs.any (fun x => (s.win x).flag) then s.deferProbe p 4
  else
    let loud := xs.filter (fun x => decide (2 * s.nf x < ((s.win x).of p.code).natAbs))
    match loud with
    | [] => s.judgedAs p ⟨2, 0, 0, 0, 0⟩
    | [x] => (s.setModel p.addr (setFld (s.model p.addr) 2 2 (x % 3 + 1))).judge p x
    | _ => s.deferProbe p 7

/-- A probe that ran in the window just correlated on phase x. -/
def State.judgeProbe (s : State) (x : Nat) (p : Probe) : State :=
  if mdPhase (s.model p.addr) = 0 then s.judgeUnknown p
  else if (s.win x).flag then s.deferProbe p 4
  else s.judge p x

/-- WINDOW_CORRELATE: the newest complete window of a phase is correlated, its unused codes give noise samples, and its probes
are judged (R282-R286). -/
def execWindowCorrelate (dt : Dt) (x : Nat) (s : State) : Res :=
  let s := s.tick dt
  let l := tget [] s.blot.corr x
  .next (if 23 < x || !s.runs .d then s else
  match l.find? (fun e => e.hcn % 16 == 15) with
  | none => s
  | some e =>
    let start := e.hcn - 15
    if !(s.win x).r.isEmpty && decide (start ≤ (s.win x).start) then s else
    let got := (rangeFrom start 16).filterMap (fun k => l.find? (fun e => e.hcn == k))
    let flag := decide (got.length ≠ 16) || got.any Corr.flag
    let r := (rangeFrom 1 15).map (fun c =>
      correlate (got.map Corr.p) c - (if c = 1 then parityBias l start else 0))
    let used := s.codesUsed start x
    let noise := if flag then [] else ((rangeFrom 1 15).filter (fun c => !used.contains c)).map (fun c => r.getD (c - 1) 0)
    let s := s.onBlot (fun b => { b with
      win := tset {} b.win x ⟨start, flag, r⟩
      noise := tmod {} b.noise x (fun n => n.add noise) })
    if !s.runs .c then s else
    (s.blot.probes.filter (fun p => p.start == start && p.judged.isNone && (s.phasesOf p.addr).contains x)).foldl
      (fun s p => s.judgeProbe x p) s)

/-! ## Timers (R277, R280, R286) -/

/-- PROBE_ACK_TIMEOUT: four scheduled turns after START + 16 without the ACK end a judged probe with LINK_FAIL (R286). -/
def execProbeAckTimeout (dt : Dt) (addr : Nat) (s : State) : Res :=
  let s := s.tick dt
  let f := addr / 2048
  .next (match s.blot.probes.find? (fun p => p.addr == addr && p.judged.isSome) with
  | none => s
  | some p =>
    match p.judged with
    | some j => if 4 ≤ s.turns f (addr % 2048) (p.start + 16) (s.feeder f).frame then s.finishProbe p 7 0 15 j else s
    | none => s)

/-- REQUEST_RETRY: a deferred request may be planned again, 256 HCN after it was deferred (R280). -/
def execRequestRetry (dt : Dt) (req : Nat) (s : State) : Res :=
  let s := s.tick dt
  .next (if s.runs .c then s.onReq req (fun q => if q.retryAt ≤ s.tb.hcn then { q with retryAt := 0 } else q) else s)

/-- REQUEST_DEADLINE: a request that has not been commanded by its deadline ends NOT_MEASURED with its last cause (R277,
R280). -/
def execRequestDeadline (dt : Dt) (req : Nat) (s : State) : Res :=
  let s := s.tick dt
  .next (match s.blot.reqs.find? (fun q => q.id == req && q.start.isNone && decide (q.deadline ≤ s.tb.hcn)) with
  | none => s
  | some q =>
    if !s.runs .c then s else
    (s.result { req := q.id, addr := q.addr, outcome := 4, cause := q.cause, attempt := q.attempt, start := q.lastStart } q.quiet).dropReq q.id)

/-- AUTO_SWEEP_DUE: with AUTO set, a joined node whose SWEEP_AGE has reached SWEEP_INT is requested, once every SWEEP_INT hours
(R277). -/
def execAutoSweepDue (dt : Dt) (addr : Nat) (s : State) : Res :=
  let s := s.tick dt
  let rested := match tget none s.blot.sweptAt addr with
    | some t => decide (t + s.blot.sweepInt * 3600 * secC ≤ s.now)
    | none => true
  .next (if s.runs .c && s.blot.auto && s.joinedAt addr && decide (s.blot.sweepInt ≤ fld (s.bstat addr) 0 16) && rested then
      ((s.request addr 0 (s.tb.hcn + s.dayHcn) 0 5).2).onBlot (fun b => { b with sweptAt := tset none b.sweptAt addr (some s.now) })
    else s)

/-! ## The BLOTTER group -/

/-- BLOTTER REQUEST (R277, R371). -/
def execBlotterRequest (r : Req) (addr delta deadline : Nat) (s : State) : Res :=
  hostCmd { cmd := 0x0901, need := .operate } r (fun w t =>
    let h := t.tb.hcn
    checked [(decide (16383 < addr ∨ (delta ≠ 0 ∧ (delta < 10 ∨ 10000 < delta ∨ delta % 10 ≠ 0))), .range), (!t.joinedAt addr, .notFound),
        t.needH, (deadline != 0 && decide (deadline < h + 64), .late)]
      (let (q, u) := t.request addr w.ses (if deadline = 0 then h + t.dayHcn else deadline) delta 2
       .ok [(q, 4)] u)) s

/-- BLOTTER CANCEL: a request not yet commanded is removed; a commanded one runs on, unnotified (R371). -/
def execBlotterCancel (r : Req) (req : Nat) (s : State) : Res :=
  hostCmd { cmd := 0x0902, need := .operate } r (fun _ t =>
    match t.blot.reqs.find? (fun q => q.id == req) with
    | none => .no .notFound 0
    | some q => .ok [] (if q.start.isSome then t.onReq req (fun q => { q with quiet := true }) else t.dropReq req)) s

/-- BLOTTER RESULT_READ: by REQ, by ADDR, or the newest (R296). -/
def execBlotterResultRead (r : Req) (mode key count : Nat) (s : State) : Res :=
  hostCmd { cmd := 0x0903, need := .read } r (fun _ t =>
    let l := (t.blot.results.filter (fun w => match mode with
      | 0 => fld w 0 32 == key
      | 1 => fld w 48 14 == key
      | _ => true)).take count
    checked [(decide (2 < mode ∨ count = 0 ∨ 40 < count), .range), (l.isEmpty, .notFound)]
      (.ok ((l.length, 1) :: l.map (fun w => (w.toNat, 32))) t)) s

/-- BLOTTER NODE_READ. -/
def execBlotterNodeRead (r : Req) (first count : Nat) (s : State) : Res :=
  hostCmd { cmd := 0x0904, need := .read } r (fun _ t =>
    paged 16384 first count 4 [] (fun a => [((t.bstat a).toNat, 4)]) t) s

/-- BLOTTER CLEAR: FAILED and SUSPECT of a node, or of all (R290, R371). -/
def execBlotterClear (r : Req) (addr : Nat) (s : State) : Res :=
  hostCmd { cmd := 0x0905, need := .operate } r (fun _ t =>
    let one := fun (u : State) (a : Nat) => (u.setFailed a false).setSuspect a false
    checked [(decide (16383 < addr ∧ addr ≠ 65535), .range)]
      (.ok [] (if addr = 65535 then (t.blot.status.map Prod.fst).foldl one t else one t addr))) s

/-- BLOTTER CFG_SET. -/
def execBlotterCfgSet (r : Req) (bc br : BitVec 32) (s : State) : Res :=
  hostCmd { cmd := 0x0906, need := .configure } r (fun _ t =>
    let b : Blotter := { bcCfg := bc, brCfg := br }
    let br' : BitVec 32 := BitVec.ofNat 32 (pack [(16, 5, b.nmK), (0, 6, b.devPct)])
    checked [(decide (b.sweepInt = 0 ∨ 720 < b.sweepInt ∨ b.delta = 0 ∨ 1000 < b.delta ∨ b.rate = 0 ∨ b.nmK < 5 ∨ 16 < b.nmK
        ∨ b.devPct < 5 ∨ 50 < b.devPct), .range)]
      (.ok [] ((t.onBlot (fun x => { x with bcCfg := bc, brCfg := br' })).onNv (fun v => { v with bcCfg := bc, brCfg := br' })))) s

/-- BC_STAT. -/
def State.bcStat (s : State) : Nat :=
  pack [(16, 15, stick 32767 s.blot.reqs.length), (0, 15, (s.blot.reqs.filter (fun q => q.retryAt != 0)).length)]

/-- BR_NF_x. -/
def State.brNf (s : State) (x : Nat) : Nat := pack [(31, 1, b2n (s.nfValid x)), (0, 24, s.nf x)]

/-- BLOTTER STATUS. -/
def execBlotterStatus (r : Req) (s : State) : Res :=
  hostCmd { cmd := 0x0907, need := .read } r (fun _ t =>
    .ok ((t.bcStat, 4) :: (rangeFrom 0 24).map (fun x => (t.brNf x, 4))) t) s

end Sys2Proof.Machine
end

