-- ==== Sys2Proof/Machine/Dma.lean ====
section
/-!
DEFINITION. DMA control (17 R530-R534, R539-R544): descriptors, START, ABORT, a descriptor's end with its status, and the chain.
Channels are 0-15 and contexts 16-19 of their region's block.
-/
namespace Sys2Proof.Machine

/-- The DMA window of a region. -/
def wDma : Region → Nat
  | .c => 0x40160000
  | .d => 0x40260000
  | .m => 0x403C0000

/-- A channel or context. -/
def State.chan (s : State) (r : Region) (n : Nat) : Channel := tget {} (s.jnc.dma.get r).ch n

/-- Change a channel or context. -/
def State.onChan (s : State) (r : Region) (n : Nat) (g : Channel → Channel) : State :=
  let b := s.jnc.dma.get r
  { s with jnc := { s.jnc with dma := s.jnc.dma.set r { b with ch := tmod {} b.ch n g } } }

/-! ## Descriptors (R531-R534) -/

/-- Fields that both descriptors have. -/
def Channel.next (c : Channel) : Nat := fld c.raw 224 32
def Channel.own (c : Channel) : Bool := bit c.raw 63

/-- Fields of a cell channel descriptor. -/
def Channel.list (c : Channel) : Nat := fld c.raw 192 32
def Channel.npair (c : Channel) : Nat := fld c.raw 168 12
def Channel.dir (c : Channel) : Nat := fld c.raw 161 2

/-- Fields of a region engine descriptor. -/
def Channel.src (c : Channel) : Nat := fld c.raw 160 32
def Channel.dst (c : Channel) : Nat := fld c.raw 192 32
def Channel.elem (c : Channel) : Nat := fld c.raw 128 16
def Channel.widthCode (c : Channel) : Nat := fld c.raw 150 3
def Channel.width (c : Channel) : Nat := 2 ^ c.widthCode
def Channel.n0 (c : Channel) : Nat := fld c.raw 320 16
def Channel.n1 (c : Channel) : Nat := fld c.raw 336 16
def Channel.n2 (c : Channel) : Nat := fld c.raw 352 16

/-- IRQ: bit 160 of a cell channel descriptor, bit 149 of a region engine descriptor. -/
def Channel.irq (c : Channel) (n : Nat) : Bool := bit c.raw (if n < 16 then 160 else 149)

/-- The pair of an index: ADDR and LEN (R532). -/
def State.pairAt (s : State) (c : Channel) (i : Nat) : Nat × Nat :=
  (ofBytes (s.bytesAt (c.list + 8 * i) 4), ofBytes (s.bytesAt (c.list + 8 * i + 4) 4))

/-- Words that can be read: RAM or flash that answers and that is not poisoned (01 R43, R48, R49; 17 R513). -/
def State.wordsOk (s : State) (a n : Nat) : Bool :=
  (rangeFrom 0 n).all (fun i => (isRam (a + 16 * i) || isFlash (a + 16 * i)) && s.reachable (a + 16 * i) && !s.isPoisoned (a + 16 * i))

/-- A pair is outside R532. -/
def pairBad (p : Nat × Nat) : Bool := decide (p.1 % 16 ≠ 0 ∨ p.2 % 16 ≠ 0 ∨ p.2 < 16)

/-- Bytes of a descriptor; a pair that cannot be read has none (R534; log entry 54). -/
def State.descTotal (s : State) (c : Channel) (n : Nat) : Nat :=
  if n < 16 then (((rangeFrom 0 c.npair).filter (fun i => s.wordsOk (c.list + 8 * i) 1)).map (fun i => (s.pairAt c i).2)).foldl (· + ·) 0
  else c.n0 * c.n1 * c.n2 * c.elem

/-- A field of the descriptor is outside its range, or its bytes exceed the limit (R534). -/
def Channel.bad (c : Channel) (n total : Nat) : Bool :=
  if n < 16 then decide (c.next % 16 ≠ 0 ∨ c.list % 16 ≠ 0 ∨ c.npair = 0 ∨ (c.dir ≠ 1 ∧ c.dir ≠ 2) ∨ 0xFFFFFFF0 < total)
  else decide (c.next % 16 ≠ 0 ∨ 4 < c.widthCode ∨ c.elem = 0 ∨ 4096 < c.elem ∨ c.elem % c.width ≠ 0 ∨ c.n0 = 0 ∨ c.n1 = 0 ∨ c.n2 = 0
    ∨ 0xFFFFFFFF < total)

/-- An element's source and destination by its number, in the order of R533. -/
def Channel.element (c : Channel) (e : Nat) : Nat × Nat :=
  let k0 := e % c.n0
  let k1 := e / c.n0 % c.n1
  let k2 := e / (c.n0 * c.n1)
  let at_ := fun (base s0 s1 s2 : Nat) =>
    (((base : Nat) + k2 * sext 32 s2 + k1 * sext 32 s1 + k0 * sext 32 s0) % (2 ^ 32 : Int)).toNat
  (at_ c.src (fld c.raw 256 32) (fld c.raw 384 32) (fld c.raw 448 32),
   at_ c.dst (fld c.raw 288 32) (fld c.raw 416 32) (fld c.raw 480 32))

/-- A channel stops: its status is to be written. -/
def Channel.stop (c : Channel) (code : Nat) : Channel := { c with st := .stopping, code := code }

/-! ## Proceeding within a descriptor -/

/-- After a burst, or at a fetch: an abort, the end, a bad pair or element, or the next burst when the request is raised (R534, R536,
R540, R542). -/
def State.chanGo (s : State) (r : Region) (n : Nat) : State :=
  let c := s.chan r n
  if c.abortReq && !(c.moved == c.total && c.next == 0) then s.onChan r n (fun c => c.stop 1)
  else if c.moved = c.total then s.onChan r n (fun c => c.stop 0)
  else if n < 16 then
    let done := decide ((s.pairAt c c.pair).2 ≤ c.off)
    let c : Channel := if done then { c with pair := c.pair + 1, off := 0 } else c
    if !s.wordsOk (c.list + 8 * c.pair) 1 then (s.onChan r n (fun _ => c.stop 2)).busErr (.dma r) (c.list + 8 * c.pair) false
    else if pairBad (s.pairAt c c.pair) then s.onChan r n (fun _ => c.stop 4)
    else s.onChan r n (fun _ => { c with st := if c.request then .active else .wait })
  else
    let e := c.element (c.moved / c.elem)
    if e.1 % c.width ≠ 0 ∨ e.2 % c.width ≠ 0 then s.onChan r n (fun c => c.stop 4)
    else s.onChan r n (fun c => { c with st := .active })

/-- The words of a descriptor can be read. -/
def State.descOk (s : State) (a len : Nat) : Bool := s.wordsOk a (len / 16)

/-- The descriptor that CH_DESC names is fetched: OWN = 0 stops the channel in IDLE, a bad one ends with DESC_ERROR (R531, R534). -/
def State.fetchDesc (s : State) (r : Region) (n : Nat) : State :=
  let a := (s.chan r n).desc
  let len := if n < 16 then 32 else 64
  if !s.descOk a len then (s.onChan r n (fun c => { c with st := .idle })).busErr (.dma r) a false
  else
    let raw := BitVec.ofNat 512 (ofBytes (s.bytesAt a len))
    let old := s.chan r n
    let c : Channel := { desc := a, lastCode := old.lastCode, done := old.done, request := old.request, raw := raw }
    if !c.own then s.onChan r n (fun c => { c with st := .idle })
    else
      let c : Channel := { c with total := s.descTotal c n }
      if c.bad n c.total then s.onChan r n (fun _ => c.stop 4)
      else if n < 16 && !(s.wordsOk c.list ((c.npair + 1) / 2)) then (s.onChan r n (fun _ => c.stop 2)).busErr (.dma r) c.list false
      else (s.onChan r n (fun _ => c)).chanGo r n

/-- START: no effect unless the channel is IDLE (R531). -/
def State.dmaStart (s : State) (r : Region) (n : Nat) : State :=
  if (s.chan r n).st = .idle then s.fetchDesc r n else s

/-- ABORT (R540, R542). -/
def State.dmaAbort (s : State) (r : Region) (n : Nat) : State :=
  match (s.chan r n).st with
  | .idle => s
  | .wait => s.onChan r n (fun c => ({ c with abortReq := true }).stop 1)
  | .active => s.onChan r n (fun c => { c with abortReq := true })
  | .stopping => s.onChan r n (fun c => { c with abortReq := true, code := if c.code = 0 ∧ c.next ≠ 0 then 1 else c.code })

/-! ## The end of a descriptor (R539, R543, R544) -/

/-- STATUS_HI (R531 table). -/
def Channel.statusHi (c : Channel) (n : Nat) : Nat :=
  pack [(24, 4, c.code), (23, 1, b2n c.abortReq), (0, 12, if n < 16 then c.pair else 0)]

/-- The two status writes, the interrupt, and the next descriptor of the chain. -/
def State.descEnd (s : State) (r : Region) (n : Nat) : State :=
  let c := s.chan r n
  if !(s.descOk c.desc 16 && isRam c.desc) then (s.onChan r n (fun c => { c with st := .idle, lastCode := c.code })).busErr (.dma r) c.desc true
  else
    let s := s.setBytes c.desc (leBytes 4 (c.total - c.moved))
    let s := s.setBytes (c.desc + 8) (leBytes 4 c.lostLen ++ leBytes 4 c.lostAddr)
    let s := s.setBytes (c.desc + 4) (leBytes 4 (c.statusHi n))
    let b := bump 0xFFFF c.done
    let s := (s.onChan r n (fun c => { c with st := .idle, lastCode := c.code, done := b.1 })).stuckIf b.2
      (wDma r + 8 + (if n < 16 then 0x10 * n else 0x100 + 0x10 * (n - 16))) 0
    let k := s.jnc.dma.get r
    let s : State := if c.code ≠ 0 ∨ c.irq n = true
      then { s with jnc := { s.jnc with dma := s.jnc.dma.set r { k with irq := setBit k.irq n true } } } else s
    if c.code = 0 ∧ c.next ≠ 0 then (s.onChan r n (fun c => { c with desc := c.next })).fetchDesc r n else s

/-- A channel of a region that runs; the others take no command. -/
def State.chanRuns (s : State) (r : Region) (n : Nat) : Bool := s.runs r && decide (n < 20)

/-- DMA_START: a write of START (R531). -/
def execDmaStart (dt : Dt) (region : Region) (ch : Nat) (s : State) : Res :=
  let t := s.tick dt
  .next (if t.chanRuns region ch then t.dmaStart region ch else t)

/-- DMA_ABORT: a write of ABORT (R540). -/
def execDmaAbort (dt : Dt) (region : Region) (ch : Nat) (s : State) : Res :=
  let t := s.tick dt
  .next (if t.chanRuns region ch then t.dmaAbort region ch else t)

/-- DMA_REQUEST: the peripheral raises its request, and a waiting channel begins a burst (R536). -/
def execDmaRequest (dt : Dt) (region : Region) (ch : Nat) (s : State) : Res :=
  let t := s.tick dt
  .next (if t.chanRuns region ch && decide (ch < 16) then
      t.onChan region ch (fun c => { c with request := true, st := if c.st = .wait then .active else c.st })
    else t)

/-- DMA_DESC_END (R539, R543, R544). -/
def execDmaDescEnd (dt : Dt) (region : Region) (ch : Nat) (s : State) : Res :=
  let t := s.tick dt
  .next (if t.chanRuns region ch && (t.chan region ch).st == .stopping then t.descEnd region ch else t)

/-- CH_STAT (R545). -/
def Channel.stat (c : Channel) : Nat :=
  pack [(28, 4, c.lastCode), (26, 2, match c.st with | .idle => 0 | .wait => 1 | .active => 2 | .stopping => 3), (0, 16, c.done)]

end Sys2Proof.Machine
end

