-- ==== Sys2Proof/Machine/Node.lean ====
section
/-!
DEFINITION. The LINK and NODE groups (11, tables "LINK commands" and "NODE commands"; R362-R365), and registrations.
-/
namespace Sys2Proof.Machine

/-! ## LINK -/

/-- A mean over the last 256 frames, in whole units (03 R106): the plain mean of the values as they are reported, one for each minislot or burst, each
with the same weight. DESIGN CHOICE (log entry 61): the spec does not say whether decibels or powers are averaged, nor the weight within a
frame. -/
def meanOf (h : Nat) (l : List (Nat × Nat)) : Nat :=
  let v := (l.filter (fun e => decide (h < e.1 + 256))).map Prod.snd
  if v.isEmpty then 0 else (roundDiv (v.foldl (· + ·) 0 : Nat) v.length).toNat

/-- WTX_ASSIGN and WTX_STAT (03 R115). -/
def StageBank.assignReg (w : StageBank) : Nat := pack ((rangeFrom 0 8).map (fun f => (4 * f, 4, (w.of f).getD 15)))
def StageBank.stat (w : StageBank) : Nat :=
  pack [(28, 4, w.spare.getD 15), (27, 1, b2n w.spareValid), (16, 9, w.excluded.toNat), (8, 8, w.extFault.toNat), (0, 8, w.muted.toNat)]

/-- WRX_Q_n and WRX_CNT_n (03 R115). -/
def State.wrxQ (s : State) (f : Nat) : Nat :=
  let r := s.rxp f
  pack [(24, 8, r.echoFail), (16, 8, stick 255 (meanOf s.tb.hcn r.snrs)), (8, 8, stick 255 (meanOf s.tb.hcn r.noises)),
    (1, 1, b2n r.rxFail), (0, 1, b2n (decide (1 ≤ r.learn ∧ r.learn ≤ 16)))]
def RxPath.cnt (r : RxPath) : Nat := pack [(16, 16, r.decoded), (0, 16, r.decodeFail)]

/-- Joined nodes of a feeder in quarantine. -/
def State.quarantinedOn (s : State) (f : Nat) : Nat := ((s.joinedOn f).filter (fun a => (s.node a).quarantined)).length

/-- LINK STATUS. -/
def execLinkStatus (r : Req) (s : State) : Res :=
  hostCmd { cmd := 0x0301, need := .read } r (fun _ t =>
    .ok ([(t.wtx.assignReg, 4), (t.wtx.stat, 4)] ++ (rangeFrom 0 8).flatMap (fun f =>
      let x := t.rxp f
      let addr := wWrx + 4 + 0x10 * f
      [(t.wrxQ f, 4), (t.total addr 16, 4), (t.total addr 0, 4), (x.badType, 4), (x.badMic, 4), (x.badSlot, 4),
       (t.quarantinedOn f, 2), ((t.joinedOn f).length, 2)])) t) s

/-- LINK ATTEN_SET: stored, and in force from the feeder's next frame (R362). -/
def execLinkAttenSet (r : Req) (feeder atten : Nat) (s : State) : Res :=
  hostCmd { cmd := 0x0302, need := .configure } r (fun _ t =>
    checked [(decide (7 < feeder ∨ 63 < atten), .range)]
      (.ok [] ((t.onNv (fun v => { v with atten := tset 0 v.atten feeder atten })).onWtx
        (fun w => { w with atten := tset 0 w.atten feeder atten })))) s

/-- LINK STAGE_SET: the valid spare goes to the feeder at its next frame boundary (R362, 03 R114). A second one for the feeder stands in place of the
first (log entry 61). -/
def execLinkStageSet (r : Req) (feeder stage : Nat) (s : State) : Res :=
  hostCmd { cmd := 0x0303, need := .configure } r (fun _ t =>
    checked [(decide (7 < feeder ∨ 8 < stage), .range),
        (!(t.wtx.spare == some stage && t.wtx.spareValid), .state)]
      (.ok [] (t.onWtx (fun w => { w with setNext := w.setNext.filter (fun e => e.1 != feeder) ++ [(feeder, stage)] })))) s

/-! ## Registrations -/

/-- The install key that WIK unwraps to under a session's KX (14 R434). -/
def unwrapIk (kx wik wikA : Nat) : Option Nat := (rfcUnwrap (leBytes 16 kx) (leBytes 8 wikA ++ leBytes 16 wik)).map ofBytes

/-- NODE REGISTER: binds an EUI to its install key and, optionally, an address. A registration that has become unusable is
replaced (R363, 14 R434, R440; log entry 39). -/
def execNodeRegister (r : Req) (eui wik wikA addr : Nat) (s : State) : Res :=
  hostCmd { cmd := 0x0401, need := .configure } r (fun w t =>
    let key := unwrapIk (t.kxOf w.ses) wik wikA
    let ik := key.getD 0
    let fixed := if addr = 0xFFFF then none else some addr
    let old := t.nv.regs.find? (fun x => x.eui == eui)
    let stale := match old with | some x => !x.usable | none => false
    let clash := (match old with | some x => x.usable && (x.ik != ik || x.fixed != fixed) | none => false)
      || (match fixed with
          | some a => t.nv.regs.any (fun x => x.eui != eui && (x.fixed == some a || x.addr == some a))
              || (t.feeder (a / 2048)).joins.any (fun j => j.eui != eui && j.idx == a % 2048)
          | none => false)
    let usable := (t.slot 4).st == 1
    checked [(match fixed with | some a => decide (16383 < a) | none => false, .range)]
      (if key.isNone then .no .range 1
       else checked [(clash, .conflict), (old.isNone && decide (16384 ≤ t.nv.regs.length), .full)]
        (.ok [] (match old with
          | some _ => if stale then t.onReg eui (fun x => { x with ik := ik, fixed := fixed, usable := usable }) else t
          | none => t.onNv (fun v => { v with regs := v.regs ++ [{ eui := eui, ik := ik, fixed := fixed, usable := usable }] }))))) s

/-- Remove a registration, with a join of it that is pending. -/
def State.unregister (s : State) (eui : Nat) : State :=
  let s := (rangeFrom 0 8).foldl (fun s f => s.onFeeder f (fun x => { x with joins := x.joins.filter (fun j => j.eui != eui) })) s
  s.onNv (fun v => { v with regs := v.regs.filter (fun x => x.eui != eui) })

/-- A node has left: its index is free, its EUI is deregistered, and subscribers learn of it (04 R147, R363). The module's record of its acknowledged
parameters goes with the registration, so a join afterwards counts as a first one (R154, R156; DESIGN CHOICE, log entry 39). Its address is not merged
again at once: 06 R208 names a GROUP_SET acknowledgement alone (DESIGN CHOICE, log entry 62; the same for a join at another index). -/
def State.nodeLeft (s : State) (a : Nat) : State :=
  let eui := s.euiAt a
  (((s.freeAddr a).onNcfg a (fun _ => {})).unregister eui).nodeNote a eui 1 0

/-- NODE DEREGISTER: a joined node is sent LEAVE first (R363). -/
def execNodeDeregister (r : Req) (eui : Nat) (s : State) : Res :=
  hostCmd { cmd := 0x0402, need := .configure } r (fun _ t =>
    match t.nv.regs.find? (fun x => x.eui == eui) with
    | none => .no .notFound 0
    | some x =>
      match x.addr with
      | none => .ok [] (t.unregister eui)
      | some a =>
        let leave := Item.leave (a % 2048)
        if (tget [] t.nv.bg (a / 2048)).any (fun b => decide (b.item = leave)) then .ok [] t
        else .ok [] (t.addBg (a / 2048) leave false)) s

/-! ## Reads -/

/-- The EUI bound to an address: joined at it, or fixed at it. -/
def State.boundEui (s : State) (a : Nat) : Option Reg :=
  match s.nv.regs.find? (fun x => x.addr == some a) with
  | some x => some x
  | none => s.nv.regs.find? (fun x => x.fixed == some a && x.addr.isNone)

/-- A node entry of NODE READ (11, table "Node entry of NODE READ"). -/
def State.nodeEntry (s : State) (a : Nat) : Payload :=
  let reg := s.boundEui a
  let n := s.node a
  let w := s.sil.tab.state a
  let joined := s.joinedAt a
  let nstate := pack [(0, 1, b2n reg.isSome), (1, 1, b2n joined), (2, 1, b2n n.quarantined), (3, 1, b2n n.incompatible),
    (4, 1, b2n (s.failed a)), (5, 1, b2n (joined && (tget none s.nv.rolls (a / 2048)).isSome && !n.keyAcked))]
  [(a, 2), ((reg.map Reg.eui).getD 0, 8), (nstate, 1), (n.pver, 1), (n.fwver, 2), (n.nflags.toNat, 2), (n.level, 2),
   (stSent w, 2), (stOut w, 2), (snLux (s.sil.tab.sensor a), 2), (n.temp, 1), (0, 1), (n.lastRx, 6)]

/-- NODE READ. -/
def execNodeRead (r : Req) (first count : Nat) (s : State) : Res :=
  hostCmd { cmd := 0x0403, need := .read } r (fun _ t => paged 16384 first count 32 [] t.nodeEntry t) s

/-- Defaults of node parameters 0 to 8 (04, table "Node parameters"); parameter 7 is reserved and reads 0. -/
def paramDef : Nat → Nat
  | 0 => 10000 | 1 => 10000 | 2 => 200 | 3 => 60 | 4 => 200 | 5 => 0 | 6 => 10 | 8 => 1 | _ => 0

/-- NODE GROUPS_READ: what the node last acknowledged (R364). -/
def execNodeGroupsRead (r : Req) (addr : Nat) (s : State) : Res :=
  hostCmd { cmd := 0x0404, need := .read } r (fun _ t =>
    let c := t.ncfg addr
    checked [(decide (16383 < addr), .range), (!t.joinedAt addr, .notFound)]
      (.ok ((rangeFrom 0 16).map (fun g => (match tget 0 c.groups g with | 0 => 0 | n + 1 => 0x8000 + n, 2))
        ++ (rangeFrom 0 64).map (fun n => (tget unk c.scenes n, 2))
        ++ (rangeFrom 0 9).map (fun p => ((tget none c.params p).getD (paramDef p), 2))) t)) s

/-! ## Background writes (R364) -/

/-- The checks that the three background writes share, and the queued item. -/
def State.bgWrite (s : State) (addr : Nat) (bad : Bool) (i : Item) : Ans :=
  checked [(decide (16383 < addr) || bad, .range), (!s.joinedAt addr, .notFound),
      (decide (4096 ≤ (tget [] s.nv.bg (addr / 2048)).length), .full)]
    (.ok [] (s.addBg (addr / 2048) i false))

/-- NODE GROUP_SET. -/
def execNodeGroupSet (r : Req) (addr gslot group valid : Nat) (s : State) : Res :=
  hostCmd { cmd := 0x0405, need := .configure } r (fun _ t =>
    t.bgWrite addr (decide (15 < gslot ∨ 255 < group ∨ 1 < valid)) (.groupSet (addr % 2048) gslot group valid)) s

/-- NODE SCENE_SET. -/
def execNodeSceneSet (r : Req) (addr scene level : Nat) (s : State) : Res :=
  hostCmd { cmd := 0x0406, need := .configure } r (fun _ t =>
    t.bgWrite addr (decide (63 < scene ∨ (10000 < level ∧ level ≠ unk))) (.sceneSet (addr % 2048) scene level)) s

/-- NODE PARAM_SET: the item's PARAM has 4 bits, and PRES_LEVEL and FALLBACK_LEVEL are levels (00 R17); a node judges the rest (04 R156). -/
def execNodeParamSet (r : Req) (addr param value : Nat) (s : State) : Res :=
  hostCmd { cmd := 0x0407, need := .configure } r (fun _ t =>
    t.bgWrite addr (decide (15 < param ∨ 65535 < value ∨ (param < 2 ∧ 10000 < value))) (.nodeCfg (addr % 2048) param value)) s

/-! ## Link commands (R365) -/

/-- Every joined address, in order of feeder. -/
def State.allJoined (s : State) : List Nat := (rangeFrom 0 8).flatMap s.joinedOn

/-- Members of a group in the module's membership record (R365, 06 R207). -/
def State.members (s : State) (group : Nat) : List Nat :=
  s.allJoined.filter (fun a => (s.ncfg a).groups.any (fun g => g.2 == group + 1))

/-- Feeders that addresses lie on. -/
def feedersOf (l : List Nat) : List Nat := (rangeFrom 0 8).filter (fun f => l.any (fun a => a / 2048 == f))

/-- Commands with a CSEQ held on a feeder (04 R129). -/
def Feeder.held (x : Feeder) (h : Nat) : Nat :=
  (x.cmds.filter (fun c => (match c.item with | .probe .. => false | _ => true) && decide (c.sent < 3) && decide (h < c.t))).length

/-- No place for one more link command on some feeder it goes to (04 R129). -/
def State.linkFull (s : State) (fs : List Nat) : Bool := fs.any (fun f => decide (64 ≤ (s.feeder f).held s.tb.hcn))

/-- Hold a link command on feeders, and bind its action (04 R128, R129). -/
def State.linkCmd (s : State) (fs : List Nat) (t : Nat) (w : Who) (cmd : Nat) (item : Item) (what : Nat → ActWhat) : State :=
  let id := s.order
  let s := fs.foldl (fun s f => s.onFeeder f (fun x => { x with
    cmds := x.cmds ++ [{ id := id, order := id, accHcn := s.tb.hcn, t := t, item := item }] })) s
  s.bind t w cmd (what id)

/-- NODE LEVEL. -/
def execNodeLevel (r : Req) (group level tgt : Nat) (s : State) : Res :=
  hostCmd { cmd := 0x0408, need := .operate } r (fun w t =>
    let ms := t.members group
    checked ([(decide (255 < group ∨ 10000 < level) || t.badTgt tgt, .range)] ++ t.lateTgt tgt 8
        ++ [(t.actsFull || t.linkFull (feedersOf ms), .busy)])
      (.deferred tgt (t.linkCmd (feedersOf ms) tgt w 0x0408 (.groupLevel 0 group level tgt) (fun id => .groupLevel id ms level)))) s

/-- NODE SCENE. -/
def execNodeScene (r : Req) (scope group scene tgt : Nat) (s : State) : Res :=
  hostCmd { cmd := 0x0409, need := .operate } r (fun w t =>
    let ms := if scope = 1 then t.allJoined else t.members group
    checked ([(decide (1 < scope ∨ 255 < group ∨ 63 < scene) || t.badTgt tgt, .range)] ++ t.lateTgt tgt 8
        ++ [(t.actsFull || t.linkFull (feedersOf ms), .busy)])
      (.deferred tgt (t.linkCmd (feedersOf ms) tgt w 0x0409
        (if scope = 1 then .sceneAll 0 scene tgt else .sceneRecall 0 group scene tgt) (fun id => .sceneRecall id ms scene)))) s

/-- NODE OVERRIDE: OVR of a node, or of a group's members at acceptance, from TGT until END (R365, 05 R168). -/
def execNodeOverride (r : Req) (scope id level tgt endHcn : Nat) (s : State) : Res :=
  hostCmd { cmd := 0x040A, need := .operate } r (fun w t =>
    let ms := if scope = 0 then [id] else t.members id
    checked ([(decide (1 < scope ∨ (scope = 0 ∧ 16383 < id) ∨ (scope = 1 ∧ 255 < id) ∨ (10000 < level ∧ level ≠ unk)
          ∨ (endHcn ≠ 0 ∧ endHcn ≤ tgt)) || t.badTgt tgt, .range)] ++ t.lateTgt tgt 4 ++ [(t.actsFull, .busy)])
      (.deferred tgt (t.bind tgt w 0x040A (.overrideSet ms (if level = unk then none else some level) endHcn)))) s

/-! ## Overrides in force (05 R168, R365) -/

/-- Write OVR of a node. -/
def State.setOvr (s : State) (a v : Nat) : State :=
  s.onTab (fun t => { t with limits := tmod t.limDef t.limits a (fun w => setFld w 50 14 v) })

/-- An override action two half-cycles before its target: the limit array takes OVR (05 R168). -/
def State.overrideWrite (s : State) (ms : List Nat) (level : Option Nat) : State :=
  ms.foldl (fun s a => s.setOvr a (level.getD unk)) s

/-- An override is in force from its target on: MRAM holds it with its end (05 R168). One that is discarded before leaves nothing there
(02 R90). -/
def State.overrideKeep (s : State) (ms : List Nat) (level : Option Nat) (endHcn order : Nat) : State :=
  ms.foldl (fun s a => s.onNv (fun v => { v with
    overrides := tset none v.overrides a (level.map (fun l => ⟨l, endHcn, order⟩)) })) s

/-- The overrides whose END has come leave MRAM (05 R168). -/
def State.overridesOver (s : State) : State :=
  s.onNv (fun v => { v with overrides := v.overrides.filter (fun e =>
    match e.2 with | some o => o.endHcn == 0 || decide (s.tb.hcn < o.endHcn) | none => false) })

/-- OVR of a node: none from two half-cycles before END on (05 R168). -/
def State.ovrNow (s : State) (a : Nat) : Nat :=
  match s.ovrOf a with
  | some o => if o.endHcn ≠ 0 ∧ o.endHcn ≤ s.tb.hcn + 2 then unk else o.level
  | none => unk

/-- Overrides whose END comes two half-cycles on leave the limit array (05 R168). -/
def State.overridesEnd (s : State) : State :=
  let pend := s.acts.flatMap (fun x => match x.what with | .overrideSet ms _ _ => ms | _ => [])
  ((s.nv.overrides.map Prod.fst ++ pend).filter (fun a => (s.ovrOf a).isSome && s.ovrNow a == unk)).foldl (fun s a => s.setOvr a unk) s

end Sys2Proof.Machine
end

