-- ==== Sys2Proof/Machine/Calendar.lean ====
section
/-!
DEFINITION. The calendar of the RTC (13 R410, R411): the Gregorian calendar from 2000 to 2199, and civil time. Years count
from 2000; days and seconds count from 2000-01-01 00:00:00.
-/
namespace Sys2Proof.Machine

/-- A leap year: divisible by 4, and not 2100 (13 R410). -/
def leap (y : Nat) : Bool := y % 4 == 0 && y != 100

/-- Days before the first of January of a year. -/
def daysBeforeYear (y : Nat) : Nat := y * 365 + (y + 3) / 4 - (if 100 < y then 1 else 0)

/-- The length of a month; 0 for a number that is no month. -/
def monthDays (y m : Nat) : Nat :=
  match m with
  | 1 => 31 | 2 => if leap y then 29 else 28 | 3 => 31 | 4 => 30 | 5 => 31 | 6 => 30
  | 7 => 31 | 8 => 31 | 9 => 30 | 10 => 31 | 11 => 30 | 12 => 31 | _ => 0

/-- Days of a year before the first of a month. -/
def daysBeforeMonth (y : Nat) : Nat → Nat
  | 0 => 0
  | m + 1 => daysBeforeMonth y m + monthDays y m

/-- The day number of a date. -/
def dayNo (y m d : Nat) : Nat := daysBeforeYear y + daysBeforeMonth y m + (d - 1)

/-- The year of a day number, looked for upwards from `y`. -/
def yearFrom (day : Nat) : Nat → Nat → Nat
  | 0, y => y
  | n + 1, y => if daysBeforeYear (y + 1) ≤ day then yearFrom day n (y + 1) else y

/-- The year of a day number. -/
def yearOf (day : Nat) : Nat := yearFrom day 4 (day / 366)

/-- The month of a day of a year, looked for upwards from `m`. -/
def monthFrom (y doy : Nat) : Nat → Nat → Nat
  | 0, m => m
  | n + 1, m => if daysBeforeMonth y (m + 1) ≤ doy then monthFrom y doy n (m + 1) else m

/-- Year, month and day of a day number. -/
def civil (day : Nat) : Nat × Nat × Nat :=
  let y := yearOf day
  let doy := day - daysBeforeYear y
  let m := monthFrom y doy 11 1
  (y, m, doy - daysBeforeMonth y m + 1)

/-- Weekday of a day number, 0 Monday to 6 Sunday; 2000-01-01 is a Saturday (13, RTC_DAY reset value 101b). -/
def weekday (day : Nat) : Nat := (day + 5) % 7

/-- Seconds of a date and time. -/
def secsOf (y m d h mi s : Nat) : Nat := dayNo y m d * 86400 + h * 3600 + mi * 60 + s

/-- Day number and second of the day now. -/
def State.today (s : State) : Nat := s.bk.secs / 86400
def State.secOfDay (s : State) : Nat := s.bk.secs % 86400

end Sys2Proof.Machine
end

