-- ==== Sys2Proof/Machine/Sun.lean ====
section
/-!
DEFINITION. The sun's position for sunrise and sunset (06 R204): the low-precision formulas of the Astronomical Almanac, taken from outside
the spec (PRESUMED, log entry 5), in whole numbers. Angles and their functions are in units of 10^-12, radians and 1; degrees in units of
10^-7.
-/
namespace Sys2Proof.Machine

/-- 1 in the unit of angles and of their functions, and pi. -/
def unitA : Int := 1000000000000
def piA : Int := 3141592653590

/-- A product of two values in that unit. -/
def mulA (a b : Int) : Int := a * b / unitA

/-- Degrees in units of 10^-7 as radians. -/
def radA (d : Int) : Int := d * 174532925199433 / 100000000000

/-- The terms of a sine or a cosine after term `t`, whose number is `n`. -/
def seriesA (x2 : Int) : Nat → Int → Int → Int
  | 0, _, _ => 0
  | k + 1, t, n =>
    let u := -(mulA t x2 / ((n + 1) * (n + 2)))
    u + seriesA x2 k u (n + 2)

/-- An angle between -pi and pi. -/
def wrapA (x : Int) : Int := (x + piA) % (2 * piA) - piA

/-- Sine and cosine. -/
def sinA (x : Int) : Int := let y := wrapA x; y + seriesA (mulA y y) 14 y 1
def cosA (x : Int) : Int := let y := wrapA x; unitA + seriesA (mulA y y) 14 unitA 0

/-- The largest value from `lo` on, below `hi`, that satisfies a test which holds up to some value; `n` halvings. -/
def bisectA (p : Int → Bool) : Nat → Int → Int → Int
  | 0, lo, _ => lo
  | n + 1, lo, hi => let m := (lo + hi) / 2; if p m then bisectA p n m hi else bisectA p n lo m

/-- The square root, and the angle of a cosine. -/
def sqrtA (x : Int) : Int := bisectA (fun r => decide (r * r ≤ x * unitA)) 42 0 (unitA + 1)
def acosA (c : Int) : Int := bisectA (fun h => decide (c ≤ cosA h)) 43 0 (piA + 1)

/-- An angle as seconds of time: 86 400 s for a turn. -/
def timeA (x : Int) : Int := x * 43200 / piA

/-- The sine of the sun's declination, and the equation of time in seconds, `t` seconds after noon UTC of 2000-01-01. -/
def sunAt (t : Int) : Int × Int :=
  let l := radA (2804600000 + 9856474 * t / 86400)
  let g := radA (3575280000 + 9856003 * t / 86400)
  let c := mulA 33423055176 (sinA g) + mulA 349065850 (sinA (2 * g))
  let lam := l + c
  let eps := radA (234390000 - 4 * t / 86400)
  let y := (unitA - cosA eps) * unitA / (unitA + cosA eps)
  let y2 := mulA y y
  let e := mulA y (sinA (2 * lam)) - mulA (y2 / 2) (sinA (4 * lam)) + mulA (mulA y y2 / 3) (sinA (6 * lam)) - c
  (mulA (sinA eps) (sinA lam), timeA e)

/-- The hour angle at which the sun stands at a zenith distance of 90.833 degrees, in seconds, for a latitude in units of 10^-7 degrees;
none where it does not (R204). -/
def hourAngle (lat sinDec : Int) : Option Int :=
  let den := mulA (cosA (radA lat)) (sqrtA (unitA - mulA sinDec sinDec))
  let num := -(sinA (radA 8330000)) - mulA (sinA (radA lat)) sinDec
  if den ≤ 0 ∨ num < -den ∨ den < num then none else some (timeA (acosA (num * unitA / den)))

/-- Sunrise (false) or sunset (true) in UTC, as seconds after midnight of a day number, for LAT and LON in units of 10^-5 degrees (06, table
"Site time parameters"): from local noon on, with the sun's position brought up to the event itself `n` times. -/
def sunIter (day : Nat) (lat lon : Int) (set' : Bool) : Nat → Int → Option Int
  | 0, t => some t
  | n + 1, t =>
    let x := sunAt ((day : Int) * 86400 - 43200 + t)
    match hourAngle (100 * lat) x.1 with
    | none => none
    | some h => sunIter day lat lon set' n (43200 - lon * 24 / 10000 - x.2 + (if set' then h else -h))

/-- The event of a civil date by the model's formulas. -/
def sunRef (day : Nat) (lat lon : Int) (set' : Bool) : Option Int := sunIter day lat lon set' 3 (43200 - lon * 24 / 10000)

/-- The event as the module computes it: it occurs where the sun reaches that zenith distance; its time is within 2 minutes of the true one up to 65 degrees
of latitude, and free beyond, where the rule bounds no error (R204; log entry 5). -/
def sunEvent (day : Nat) (lat lon : Int) (set' : Bool) : Option Int :=
  let v := Config.sunEvent day lat lon set'
  (sunRef day lat lon set').map (fun r => if lat.natAbs ≤ 6500000 then clampI (r - 120) (r + 120) (v.getD r) else v.getD r)

end Sys2Proof.Machine
end

