-- ==== Sys2Proof/Machine/Sched.lean ====
section
/-!
DEFINITION. Schedules, sun events and scenes (06) and the SCHED group (11, table "SCHED commands", R368): entries, day types,
limits in force, conversion to HCN, summer time.
-/
namespace Sys2Proof.Machine

/-! ## Entries (R198, R199) -/

/-- Fields of a schedule header. -/
def hdPrio (w : BitVec 32) : Nat := fld w 28 4
def hdCal (w : BitVec 32) : Nat := fld w 26 2
def hdCalEn (w : BitVec 32) : Bool := bit w 25
def hdEnable (w : BitVec 32) : Bool := bit w 24
def hdNent (w : BitVec 32) : Nat := fld w 0 6

/-- Fields of a schedule entry. -/
def enCeil (w : BitVec 64) : Nat := fld w 50 14
def enFloor (w : BitVec 64) : Nat := fld w 36 14
def enScene (w : BitVec 64) : Nat := fld w 30 6
def enScope (w : BitVec 64) : Bool := bit w 29
def enLimits (w : BitVec 64) : Bool := bit w 27
def enIsScene (w : BitVec 64) : Bool := bit w 28
def enDays (w : BitVec 64) : Nat := fld w 19 8
def enBase (w : BitVec 64) : Nat := fld w 17 2
def enTime (w : BitVec 64) : Nat := fld w 0 17

/-- An entry that R199 refuses. -/
def entryBad (w : BitVec 64) : Bool :=
  decide (10000 < enCeil w ∨ 10000 < enFloor w ∨ enBase w = 3 ∨ (enBase w = 0 ∧ 86399 < enTime w)
    ∨ ((enBase w = 1 ∨ enBase w = 2) ∧ (sext 17 (enTime w) < -43200 ∨ 43200 < sext 17 (enTime w))))

/-- A schedule. -/
def State.schedule (s : State) (g : Nat) : SchedRec := tget {} s.nv.scheds g

/-! ## Dates (R202, R203) -/

/-- Fields of a date. -/
def dtYear (w : BitVec 32) : Nat := fld w 16 8
def dtMonth (w : BitVec 32) : Nat := fld w 8 8
def dtDay (w : BitVec 32) : Nat := fld w 0 8

/-- A date that does not exist; an every-year date may be 29 February (R202). -/
def dateBad (w : BitVec 32) : Bool :=
  let y := dtYear w
  let leapest := if y = 255 then 0 else y
  decide ((199 < y ∧ y ≠ 255) ∨ dtDay w = 0 ∨ monthDays leapest (dtMonth w) < dtDay w)

/-- The date word of a day number. -/
def dateOf (day : Nat) : Nat := let (y, m, d) := civil day; y * 65536 + m * 256 + d

/-- A date of a calendar matches a day. -/
def dateMatch (w : BitVec 32) (day : Nat) : Bool :=
  let (y, m, d) := civil day
  (dtYear w == 255 || dtYear w == y) && dtMonth w == m && dtDay w == d

/-- An entry applies on a day: holidays by DAYS[7], other dates by their weekday (R203). -/
def State.applies (s : State) (h : BitVec 32) (w : BitVec 64) (day : Nat) : Bool :=
  let hol := hdCalEn h && (tget [] s.nv.hols (hdCal h)).any (fun d => dateMatch d day)
  (enDays w).testBit (if hol then 7 else weekday day)

/-! ## Summer time (R200, R201) -/

/-- The day number of a rule in a year: the n-th weekday of the month, or the last for 5. -/
def ruleDay (r : DstRule) (y : Nat) : Nat :=
  let first := dayNo y r.month 1
  let d := first + (r.weekday + 7 - weekday first) % 7
  if r.week < 5 then d + 7 * (r.week - 1)
  else d + 7 * ((monthDays y r.month - 1 - (d - first)) / 7)

/-- Local time at which the rule's change falls in a year, in seconds: in standard time for the start, in summer time for the
end. -/
def ruleSecs (r : DstRule) (y : Nat) : Nat := ruleDay r y * 86400 + r.minutes * 60

/-- Summer time by the rule at a local standard second, and the number of the rule's changes before it (R200). -/
def State.dstByRule (s : State) (std : Nat) : Bool :=
  let y := yearOf (std / 86400)
  let a := ruleSecs s.nv.site.dstStart y
  let e := ruleSecs s.nv.site.dstEnd y - 3600
  if a < e then decide (a ≤ std ∧ std < e) else decide (a ≤ std ∨ std < e)
def State.dstPhase (s : State) (std : Nat) : Nat :=
  let y := yearOf (std / 86400)
  2 * y + b2n (decide (ruleSecs s.nv.site.dstStart y ≤ std)) + b2n (decide (ruleSecs s.nv.site.dstEnd y ≤ std + 3600))

/-- Seconds of local standard time now. -/
def State.stdNow (s : State) : Nat := s.bk.secs - (if s.nv.dstActive then 3600 else 0)

/-- DST_ACTIVE at a local standard second (R200, R201, R211): what it is now up to the rule's next change, and by the rule after a change, for the module
steps the clock only where the step brings DST_ACTIVE to the rule. Of the day before now it is what it is now but across the module's own last
step. -/
def State.dstAt (s : State) (std : Nat) : Bool :=
  if !s.nv.site.dstEn || s.dstPhase std == s.dstPhase s.stdNow then s.nv.dstActive
  else if std < s.stdNow ∧ s.stdNow < std + 86400 then
    match s.nv.dstStep with
    | some w => if std < w ∧ w ≤ s.stdNow then !s.nv.dstActive else s.nv.dstActive
    | none => s.nv.dstActive
  else s.dstByRule std

/-- Summer time by the rule, or by DST_ACTIVE without one, on a day at a UTC second of it (12 R406). -/
def State.dstRule (s : State) (day : Nat) (utc : Int) : Bool :=
  if !s.nv.site.dstEn then s.nv.dstActive else s.dstByRule ((day * 86400 : Nat) + utc + s.nv.site.stdOfs * 60).toNat

/-- Civil seconds as seconds of local standard time: an instant of the skipped hour is the end of the step, an instant of the
repeated hour its first occurrence (R211-R213). -/
def State.stdSecs (s : State) (c : Nat) : Nat :=
  if s.dstAt (c - 3600) then c - 3600
  else if !s.dstAt c then c
  else ruleSecs s.nv.site.dstStart (yearOf (c / 86400))

/-- The civil time that limits in force go by: throughout the repeated hour, the end of its first occurrence (R213). -/
def State.civilNow (s : State) : Nat :=
  match s.nv.dstStep with
  | some w => if !s.nv.dstActive && decide (w ≤ s.bk.secs ∧ s.bk.secs < w + 3600) then w + 3599 else s.bk.secs
  | none => s.bk.secs

/-- Sunrise or sunset of a civil date in local civil seconds after midnight; none where it does not occur (R204). UTC is local time less STD_OFS, and less
the hour while DST_ACTIVE = 1 (R201). -/
def State.sun (s : State) (day : Nat) (set' : Bool) : Option Int :=
  match sunEvent day s.nv.site.lat s.nv.site.lon set' with
  | none => none
  | some u => some (u + s.nv.site.stdOfs * 60 + (if s.dstAt ((day * 86400 : Nat) + u + s.nv.site.stdOfs * 60).toNat then 3600 else 0))

/-- The second of the day an entry resolves to; none where its sun event does not occur (R205). -/
def State.entrySec (s : State) (w : BitVec 64) (day : Nat) : Option Nat :=
  if enBase w = 0 then some (enTime w)
  else match s.sun day (enBase w == 2) with
    | none => none
    | some v => some (clampI 0 86399 (v + sext 17 (enTime w))).toNat

/-! ## Limits in force and merging (R206-R208) -/

/-- The LIMITS entry of a schedule in force on a day up to a second: the latest resolved time, the higher index at a tie. -/
def State.limitOn (s : State) (r : SchedRec) (day upTo : Nat) : Option (BitVec 64) :=
  (r.entries.foldl (fun (best : Option (Nat × BitVec 64)) w =>
    if enLimits w && s.applies r.header w day then
      match s.entrySec w day with
      | none => best
      | some x => if upTo < x then best
        else match best with
          | some b => if b.1 ≤ x then some (x, w) else best
          | none => some (x, w)
    else best) none).map Prod.snd

/-- Look back over at most `n` preceding dates. -/
def State.limitBack (s : State) (r : SchedRec) : Nat → Nat → Option (BitVec 64)
  | 0, _ => none
  | n + 1, day => if day = 0 then none else
    match s.limitOn r (day - 1) 86399 with
    | some w => some w
    | none => s.limitBack r n (day - 1)

/-- The LIMITS entry of a schedule in force at a civil time (R206). -/
def State.limitOf (s : State) (g c : Nat) : Option (BitVec 64) :=
  let r := s.schedule g
  if !hdEnable r.header then none
  else match s.limitOn r (c / 86400) (c % 86400) with
    | some w => some w
    | none => s.limitBack r 7 (c / 86400)

/-- The candidates of a node: (PRIO, group, entry) of each of its groups with limits in force (R207). -/
def State.candidates (s : State) (a c : Nat) : List (Nat × Nat × BitVec 64) :=
  ((s.ncfg a).groups.map (fun e => e.2 - 1)).filterMap (fun g =>
    (s.limitOf g c).map (fun w => (hdPrio (s.schedule g).header, g, w)))

/-- The candidates of the highest PRIO. -/
def topCands (l : List (Nat × Nat × BitVec 64)) : List (Nat × Nat × BitVec 64) :=
  let p := l.foldl (fun m e => max m e.1) 0
  l.filter (fun e => e.1 == p)

/-- FLOOR and CEIL of a node (R207); NT_FLOOR and NT_CEIL while civil time is invalid (R216). -/
def State.merged (s : State) (a : Nat) : Option Nat → Nat × Nat
  | none => (s.nv.site.ntFloor, s.nv.site.ntCeil)
  | some c =>
    match topCands (s.candidates a c) with
    | [] => (s.nv.site.defFloor, s.nv.site.defCeil)
    | l => (l.foldl (fun m e => max m (enFloor e.2.2)) 0, l.foldl (fun m e => max m (enCeil e.2.2)) 0)

/-- A limit entry: OVR, CEIL, FLOOR (05, table "Limit entry"). -/
def limWord (ovr ceil floor : Nat) : BitVec 64 := BitVec.ofNat 64 (pack [(50, 14, ovr), (36, 14, ceil), (22, 14, floor)])

/-- The civil time a write of limits goes by: a write bound before an entry came due does not take that entry back (R206, R212). So a clock set back by
at most 2 s across an entry's instant keeps that entry's limits (DESIGN CHOICE, log entry 62). -/
def State.limitsAt (s : State) (c : Nat) : Nat := if c < s.sched.upTo ∧ s.sched.upTo ≤ c + 2 then s.sched.upTo else c

/-- Write the limits of a civil time into the limit array; overrides stay (R208, R215, R216). -/
def State.writeLimits (s : State) (c0 : Option Nat) : State :=
  let c := c0.map s.limitsAt
  let s : State := { s with sched := { s.sched with upTo := c.getD 0 } }
  let old := s.sil.tab
  let base := match c with
    | none => limWord unk s.nv.site.ntCeil s.nv.site.ntFloor
    | some _ => limWord unk s.nv.site.defCeil s.nv.site.defFloor
  let addrs := old.limits.map Prod.fst ++ s.nv.nodes.map Prod.fst
  let lim := addrs.foldl (fun m a =>
    let (fl, ce) := s.merged a c
    tset base m a (limWord (limOvr (old.limit a)) ce fl)) []
  s.onTab (fun t => { t with limDef := base, limits := lim })

/-- The civil time that schedules go by now; none while it is invalid (R216). -/
def State.civilIf (s : State) : Option Nat := if s.bk.valid then some s.civilNow else none

/-- Bind the limits of now to h + 4 (R208, R212, R216). -/
def State.bindLimits (s : State) : State :=
  { s with sched := { s.sched with limitActs := s.sched.limitActs ++ [⟨s.tb.hcn + 4, s.civilIf⟩] } }

/-! ## Conversion (R210-R213) -/

/-- Fields of a stamp (02, table "HCN stamp entry"). -/
def stPeriod (w : BitVec 256) : Nat := fld w 192 32
def stRtcSec (w : BitVec 256) : Nat := fld w 160 32
def stRtcSub (w : BitVec 256) : Nat := fld w 224 15

/-- Sum and number of the PERIOD values of the stamp history; the period now where there is none. -/
def State.meanPeriod (s : State) : Nat × Nat :=
  let l := (s.jnc.stamps.map (fun e => stPeriod e.2)).filter (fun p => p != 0)
  if l.isEmpty then (if s.tb.period = 0 then us10C * 1000 else s.tb.period, 1) else (l.foldl (· + ·) 0, l.length)

/-- The HCN of a civil instant: the first edge at or after it, from the newest stamp over the mean PERIOD (R211). -/
def State.hcnOf (s : State) (c : Nat) : Nat :=
  let w := tget 0 s.jnc.stamps (s.tb.hcn % 1024)
  let late := (s.bk.secs * 32768 + s.bk.sub) - (s.bk.secs - (s.bk.secs + 4294967296 - stRtcSec w) % 4294967296) * 32768 - stRtcSub w
  let now := s.stdNow * 32768 + s.bk.sub - late
  let ahead := s.stdSecs c * 32768 - now
  let (sum, n) := s.meanPeriod
  s.tb.hcn + ceilDiv (ahead * secC * n) (32768 * sum)

/-- Change the schedule state. -/
def State.onSched (s : State) (g : Sched → Sched) : State := { s with sched := g s.sched }

/-- A scene entry was accepted for a day: group, index and day identify it, also where another entry is written at the index that day (R209;
DESIGN CHOICE, log entry 58). -/
def State.sceneRan (s : State) (g i day : Nat) : Bool := s.nv.sceneRuns.any (fun e => e.group == g && e.entry == i && e.day == day)

/-- A scene entry becomes a link command, accepted now; one that would take a feeder above its 64 held commands is not accepted, and fails to
run (R209, 04 R129; log entry 58). The state, and whether it failed. -/
def State.runScene (s : State) (g i day t : Nat) (w : BitVec 64) : State × Nat :=
  let scene := enScene w
  let all := enScope w
  let ms := if all then s.allJoined else s.members g
  let fs := if all then rangeFrom 0 8 else feedersOf ms
  if s.linkFull fs then (s, 1) else
  let id := s.order
  let item : Item := if all then .sceneAll 0 scene t else .sceneRecall 0 g scene t
  let s := fs.foldl (fun s f => s.onFeeder f (fun x => { x with
    cmds := x.cmds ++ [{ id := id, order := id, accHcn := s.tb.hcn, t := t, item := item }] })) s
  ({ s with
    order := s.order + 1
    nv := { s.nv with sceneRuns := s.nv.sceneRuns ++ [⟨g, i, day, id⟩] }
    sched := { s.sched with cmds := s.sched.cmds ++ [⟨t, 3, id, 0, 0, 0, .sceneRecall id ms scene⟩] } }, 0)

/-- The final conversion of one entry (R211): a limit target stays listed, a scene is accepted. The state, and whether
the entry failed to run. -/
def State.finalOne (s : State) (g i day sec : Nat) : State × Nat :=
  let w := ((s.schedule g).entries[i]?).getD 0
  let h := s.tb.hcn
  let t := s.hcnOf (day * 86400 + sec)
  let s := if enLimits w then s.onSched (fun x => { x with targets := x.targets ++ [⟨g, i, day, sec, max t (h + 4), true⟩] }) else s
  if enIsScene w && !s.sceneRan g i day then s.runScene g i day (max t (h + 8)) w else (s, 0)

/-- A civil second lies in the hour that the forward step skips. -/
def State.skipped (s : State) (c : Nat) : Bool := !s.dstAt (c - 3600) && s.dstAt c

/-- Whether an instant has passed. One in the skipped hour counts as the end of the step, and still runs at the edge that carries the
step (R212). -/
def State.passed (s : State) (day sec : Nat) : Bool :=
  let c := day * 86400 + sec
  decide (s.stdSecs c * 32768 < s.stdNow * 32768 + s.bk.sub)
    && !(s.skipped c && bit s.tb.flags 8 && decide (s.stdNow ≤ s.stdSecs c + 1))

/-- Convert one entry for one day: the state, and whether it failed to run (R211, R217). A target that is final stands for its instant alone. A LIMITS
entry whose instant has passed counts as none that failed, for its limits are in force or another's are; the spec says only "passed over" (DESIGN
CHOICE, log entry 62). -/
def State.convertOne (s : State) (g i day : Nat) (r : SchedRec) (w : BitVec 64) : State × Nat :=
  if !(hdEnable r.header && (enLimits w || enIsScene w) && s.applies r.header w day) then (s, 0)
  else match s.entrySec w day with
    | none =>
      (if s.nv.sunTold.contains day then s
       else (s.onNv (fun v => { v with sunTold := day :: v.sunTold })).raiseGen .c 0x06 0 [(dateOf day, 4)], 1)
    | some sec =>
      if s.passed day sec then (s, if enIsScene w && !s.sceneRan g i day then 1 else 0)
      else if s.sched.targets.any (fun x => x.group == g && x.entry == i && x.day == day && x.sec == sec && x.final) then (s, 0)
      else
        let t := s.hcnOf (day * 86400 + sec)
        if t ≤ s.tb.hcn + 256 then s.finalOne g i day sec
        else (s.onSched (fun x => { x with targets := x.targets ++ [⟨g, i, day, sec, t, false⟩] }), 0)

/-- Convert every schedule for one day. -/
def State.convertDay (s : State) (day : Nat) : State × Nat :=
  s.nv.scheds.foldl (fun p e =>
    e.2.entries.zipIdx.foldl (fun p w =>
      let r := p.1.convertOne e.1 w.2 day e.2 w.1
      (r.1, p.2 + r.2)) p) (s, 0)

/-- One record, and a notification, for a conversion in which entries failed to run (R217). -/
def State.convFailed (s : State) (day n : Nat) : State :=
  if n = 0 then s
  else (s.raiseGen .c 0x06 0 [(n, 2)]).notifyClass 8 0x0680 .ok [(dateOf day, 4), (n, 2)]

/-- Convert at a trigger: the next date at midnight, else the rest of this date and the next (R210). A conversion of two dates makes one record, whose
notification names today, and an entry that fails on both counts twice: the spec gives no DATE for it (R217; DESIGN CHOICE, log entry 62). -/
def State.convert (s : State) (midnight : Bool) : State :=
  let day := s.today
  if midnight then
    let (s, n) := s.convertDay (day + 1)
    s.convFailed (day + 1) n
  else
    let (s, n) := s.convertDay day
    let (s, m) := s.convertDay (day + 1)
    s.convFailed day (n + m)

/-- A trigger other than midnight (R212): the limits of now to h + 4, targets not yet final go, and conversion. Nothing is converted while
civil time is invalid (R216); before the first edge the limits go straight into the array (R215). -/
def State.trigger (s : State) : State :=
  if !s.runs .c then s
  else if !s.started then s.writeLimits s.civilIf
  else if !s.bk.valid then s.bindLimits
  else
    let s := s.bindLimits.onSched (fun x => { x with targets := x.targets.filter SchedTarget.final })
    s.convert false

/-- Civil time becomes invalid: every target goes, final limit targets too, and NT limits are bound to h + 4 (R216, R217). -/
def State.timeInvalid (s : State) : State :=
  let n := s.sched.targets.length
  let s := s.bindLimits.onSched (fun x => { x with targets := [] })
  (s.raiseGen .c 0x06 0 []).convFailed s.today n

/-- The schedules at an HCN edge: validity, a step, midnight (R210, R216). -/
def State.schedEdge (s : State) : State :=
  s.onSched (fun x => { x with wasValid := s.bk.valid, lastDay := if s.bk.valid then some s.today else x.lastDay })

/-- What the schedules do at an edge, by what has changed since the last one: validity, a step, the RESUMED edge, midnight (R210, R212,
R216). -/
def State.schedTriggers (s : State) : State :=
  let was := s.sched.wasValid
  let last := s.sched.lastDay
  let t := s.schedEdge
  if !s.bk.valid then (if was then t.timeInvalid else t)
  else if !was then (t.raiseGen .c 0x06 0 []).trigger
  else if bit s.tb.flags 8 || bit s.tb.flags 4 then t.trigger
  else if last != some s.today then t.convert true
  else t

/-- Limits that come due: those bound to an HCN two half-cycles on are written now (05 R168). -/
def State.limitsDue (s : State) : State :=
  let k := s.tb.hcn + 2
  let due := s.sched.limitActs.filter (fun a => decide (a.t ≤ k))
  let ts := s.sched.targets.filter (fun x => x.final && decide (x.hcn ≤ k))
  let s := due.foldl (fun s a => s.writeLimits a.civil) s
  let c := ts.foldl (fun m x => max m (x.day * 86400 + x.sec)) 0
  let s := if ts.isEmpty || !s.bk.valid then s else s.writeLimits (some c)
  s.onSched (fun x => { x with
    limitActs := x.limitActs.filter (fun a => !decide (a.t ≤ k))
    targets := x.targets.filter (fun y => !(y.final && decide (y.hcn ≤ k))) })

/-- At start-up and at a C-region resumption the limits in force go straight into the array; conversion follows at a resumption in a run,
and at start-up with the RESUMED edge (R194, R210, R215). -/
def State.schedResume (s : State) : State :=
  let s := s.onSched (fun x => { x with targets := [], limitActs := [], cmds := [] })
  let s := s.onTab (fun t => { t with limDef := limWord unk 0 0, limits := [] })
  let s := s.writeLimits s.civilIf
  let s := if s.started && s.sched.wasValid != s.bk.valid then s.raiseGen .c 0x06 0 [] else s
  let s := s.schedEdge
  if s.bk.valid && s.started then s.convert false else s

/-- FINAL_CONVERSION: targets 256 HCN or less ahead are converted again, finally (R211). -/
def execFinalConversion (dt : Dt) (s : State) : Res :=
  let t := s.tick dt
  .next (if !t.started || !t.runs .c || !t.bk.valid then t
    else
      let near := t.sched.targets.filter (fun x => !x.final && decide (x.hcn ≤ t.tb.hcn + 256))
      let t := t.onSched (fun x => { x with targets := x.targets.filter (fun y => y.final || !decide (y.hcn ≤ t.tb.hcn + 256)) })
      let r := near.foldl (fun (p : State × Nat) x => let q := p.1.finalOne x.group x.entry x.day x.sec; (q.1, p.2 + q.2)) (t, 0)
      r.1.convFailed t.today r.2)

/-! ## SCHED commands -/

/-- SCHED WRITE (R197-R199). -/
def execSchedWrite (r : Req) (group : Nat) (header : BitVec 32) (entries : List (BitVec 64)) (s : State) : Res :=
  hostCmd { cmd := 0x0601, need := .configure } r (fun _ t =>
    let others := ((t.nv.scheds.filter (fun e => e.1 != group)).map (fun e => e.2.entries.length)).foldl (· + ·) 0
    checked [(decide (255 < group ∨ 32 < hdNent header ∨ hdNent header ≠ entries.length ∨ 2048 < others + entries.length)
        || entries.any entryBad, .range)]
      (.ok [] (t.onNv (fun v => v.setScheds (tset {} v.scheds group ⟨header &&& 0xFF00003F#32, entries⟩))).trigger)) s

/-- SCHED READ. -/
def execSchedRead (r : Req) (group : Nat) (s : State) : Res :=
  hostCmd { cmd := 0x0602, need := .read } r (fun _ t =>
    let x := if 6 ≤ t.pow.phase.rank then t.schedule group else {}
    .ok ((x.header.toNat, 4) :: x.entries.map (fun w => (w.toNat, 8))) t) s

/-- SCHED HOL_WRITE: the whole calendar (R202, R368). -/
def execSchedHolWrite (r : Req) (cal : Nat) (dates : List (BitVec 32)) (s : State) : Res :=
  hostCmd { cmd := 0x0603, need := .configure } r (fun _ t =>
    checked [(decide (3 < cal ∨ 64 < dates.length) || dates.any dateBad, .range)]
      (.ok [] (t.onNv (fun v => v.setHols (tset [] v.hols cal (dates.map (fun d => d &&& 0x00FFFFFF#32))))).trigger)) s

/-- SCHED HOL_READ: dates have no Reset column, so the stored ones are read at any time (00 R14). -/
def execSchedHolRead (r : Req) (cal : Nat) (s : State) : Res :=
  hostCmd { cmd := 0x0604, need := .read } r (fun _ t =>
    let l := tget [] t.nv.hols cal
    checked [(decide (3 < cal), .range)] (.ok ((l.length, 1) :: l.map (fun w => (w.toNat, 4))) t)) s

/-- A summer-time rule out of the ranges of the table. -/
def ruleBad (r : DstRule) : Bool :=
  decide (r.month = 0 ∨ 12 < r.month ∨ r.week = 0 ∨ 5 < r.week ∨ 6 < r.weekday ∨ 1439 < r.minutes)

/-- Site parameters out of the ranges of the table. -/
def siteBad (x : Site) : Bool :=
  decide (x.lat < -9000000 ∨ 9000000 < x.lat ∨ x.lon < -18000000 ∨ 18000000 < x.lon ∨ x.stdOfs < -720 ∨ 840 < x.stdOfs
    ∨ 10000 < x.defFloor ∨ 10000 < x.defCeil ∨ 10000 < x.ntFloor ∨ 10000 < x.ntCeil) || ruleBad x.dstStart || ruleBad x.dstEnd

/-- SCHED SITE_WRITE (R201). -/
def execSchedSiteWrite (r : Req) (site : Site) (s : State) : Res :=
  hostCmd { cmd := 0x0605, need := .configure } r (fun _ t =>
    checked [(siteBad site, .range)] (.ok [] (t.onNv (fun v => v.setSite site)).trigger)) s

/-- The fields of a rule (R368). -/
def rulePay (r : DstRule) : Payload := [(r.month, 1), (r.week, 1), (r.weekday, 1), (r.minutes, 2)]

/-- SCHED SITE_READ. -/
def execSchedSiteRead (r : Req) (s : State) : Res :=
  hostCmd { cmd := 0x0606, need := .read } r (fun _ t =>
    let x := t.nv.site
    .ok ([(unsext 32 x.lat, 4), (unsext 32 x.lon, 4), (unsext 16 x.stdOfs, 2), (b2n x.dstEn, 1)] ++ rulePay x.dstStart ++ rulePay x.dstEnd
      ++ [(x.defFloor, 2), (x.defCeil, 2), (x.ntFloor, 2), (x.ntCeil, 2), (b2n t.nv.dstActive, 1)]) t) s

/-- A sun event as SUN_READ returns it. -/
def sunField : Option Int → Nat
  | none => 0xFFFFFFFF
  | some v => (clampI 0 86399 v).toNat

/-- SCHED SUN_READ. -/
def execSchedSunRead (r : Req) (date : BitVec 32) (s : State) : Res :=
  hostCmd { cmd := 0x0607, need := .read } r (fun _ t =>
    let day := dayNo (dtYear date) (dtMonth date) (dtDay date)
    checked [(dtYear date == 255 || dateBad date, .range)]
      (.ok [(sunField (t.sun day false), 4), (sunField (t.sun day true), 4)] t)) s

/-- SCHED LIMITS_READ: the limit array, and the groups whose schedules gave it (R368). -/
def execSchedLimitsRead (r : Req) (addr : Nat) (s : State) : Res :=
  hostCmd { cmd := 0x0608, need := .read } r (fun _ t =>
    let w := t.sil.tab.limit addr
    let top := match t.civilIf with | some c => topCands (t.candidates addr c) | none => []
    let prio := top.foldl (fun m e => max m e.1) 0
    let src := (rangeFrom 0 256).foldl (fun m g => if top.any (fun e => e.2.1 == g) then m + 2 ^ g else m) 0
    checked [(decide (16383 < addr), .range)]
      (.ok [(limFloor w, 2), (limCeil w, 2), (limOvr w, 2), (prio, 1), (src, 32)] t)) s

end Sys2Proof.Machine
end

