-- ==== Sys2Proof/Machine/Rtc.lean ====
section
/-!
DEFINITION. The real-time clock (13 R410-R428): its registers, coherent reading, validated sets, one-hour steps, the backup
domain and its tamper log; and the TIME group but for PTP (11 R361).
-/
namespace Sys2Proof.Machine

/-! ## Registers and reading (R413-R415) -/

/-- A freeze in progress, which ends 1 s after it began (R414). -/
def State.frozen (s : State) : Option (Nat × Nat) :=
  match s.rtc.shadow with
  | some (sub, secs, since) => if s.now < since + secC then some (sub, secs) else none
  | none => none

/-- A register of the time block for a prescaler count and a calendar time; RTC_YEAR without COHERENT (R413). -/
def rtcField (off sub secs : Nat) : Nat :=
  let day := secs / 86400
  let t := secs % 86400
  let (y, m, d) := civil day
  match off with
  | 0x00 => sub
  | 0x04 => secs % 4294967296
  | 0x08 => t % 60
  | 0x0C => t / 60 % 60
  | 0x10 => t / 3600
  | 0x14 => pack [(8, 3, weekday day), (0, 5, d)]
  | 0x18 => pack [(8, 4, m), (0, 8, y)]
  | _ => 0

/-- RTC_STAT. -/
def State.rtcStat (s : State) : Nat :=
  let r := s.rtc
  pack [(24, 8, r.rejCnt), (16, 4, r.rejCause), (9, 1, s.cfgAt 4 (b2n r.batLow)), (8, 1, b2n r.lockout),
    (7, 1, b2n s.bk.crossing.isSome), (6, 1, b2n r.wrYear.isSome), (5, 1, b2n r.wrMonth.isSome), (4, 1, b2n r.wrDay.isSome),
    (3, 1, b2n r.wrHour.isSome), (2, 1, b2n r.wrMin.isSome), (1, 1, b2n s.bk.step.isSome), (0, 1, b2n s.bk.valid)]

/-- TLOG_STAT. -/
def Backup.tlogStat (b : Backup) : Nat := pack [(8, 8, b.ovf), (0, 4, b.log.length)]

/-- An access to the RTCIF window; it ends in a bus error once the interface is isolated (R422). -/
def State.rtcAccess (s : State) (m : Master) (off : Nat) (write : Bool) (k : State → State) : State :=
  if s.rtc.isolated || s.bk.onVbat then s.busErr m (wRtcif + off) write else s.access m (wRtcif + off) write k

/-- The read of RTC_YEAR: it completes an intact freeze, or returns the current values with COHERENT = 0 (R414). -/
def State.rtcYear (s : State) : State :=
  match s.frozen with
  | some (sub, secs) =>
    ({ s with rtc := { s.rtc with shadow := none } }).emit (.readData (wRtcif + 0x18) (2 ^ 31 + rtcField 0x18 sub secs))
  | none => ({ s with rtc := { s.rtc with shadow := none } }).emit (.readData (wRtcif + 0x18) (rtcField 0x18 s.bk.sub s.bk.secs))

/-- A read of another register of the time block: it freezes an unfrozen block (R414). -/
def State.rtcBlock (s : State) (off : Nat) : State :=
  match s.frozen with
  | some (sub, secs) => s.emit (.readData (wRtcif + off) (rtcField off sub secs))
  | none =>
    ({ s with rtc := { s.rtc with shadow := some (s.bk.sub, s.bk.secs, s.now) } }).emit
      (.readData (wRtcif + off) (rtcField off s.bk.sub s.bk.secs))

/-- RTC_BLOCK_READ. -/
def execRtcBlockRead (dt : Dt) (m : Master) (offset : Nat) (s : State) : Res :=
  let t := s.tick dt
  .next (if offset < 0x18 ∧ offset % 4 = 0 then t.rtcAccess m offset false (fun t => t.rtcBlock offset)
    else if offset = 0x18 then t.rtcAccess m offset false State.rtcYear
    else t)

/-- RTC_YEAR_READ. -/
def execRtcYearRead (dt : Dt) (m : Master) (s : State) : Res :=
  .next ((s.tick dt).rtcAccess m 0x18 false State.rtcYear)

/-- RTC_FREEZE_TIMEOUT: 1 s after it began, a freeze ends (R414). -/
def execRtcFreezeTimeout (dt : Dt) (s : State) : Res :=
  let t := s.tick dt
  .next (if t.frozen.isNone then { t with rtc := { t.rtc with shadow := none } } else t)

/-! ## Sets (R416, R417) -/

/-- The write buffer emptied: WR_MASK 0. -/
def RtcIf.clearBuf (r : RtcIf) : RtcIf :=
  { r with wrMin := none, wrHour := none, wrDay := none, wrMonth := none, wrYear := none }

/-- A write to a buffered register (R416). -/
def RtcIf.load (r : RtcIf) (off : Nat) (w : BitVec 32) : RtcIf :=
  match off with
  | 0x0C => { r with wrMin := some (fld w 0 6) }
  | 0x10 => { r with wrHour := some (fld w 0 6) }
  | 0x14 => { r with wrDay := some (fld w 0 5) }
  | 0x18 => { r with wrMonth := some (fld w 8 4), wrYear := some (fld w 0 8) }
  | _ => r

/-- A rejection of a set or a step: its cause, and REJ_CNT, which sticks (R416, R418). -/
def State.rtcReject (s : State) (cause : Nat) : State :=
  let b := bump 255 s.rtc.rejCnt
  ({ s with rtc := { s.rtc with rejCnt := b.1, rejCause := cause } }).stuckIf b.2 (wRtcif + 0x24) 24

/-- The verdict on a set that a write of seconds completes: 0, or the first cause in the order of R416. -/
def State.setCause (s : State) (sec : Nat) : Nat :=
  let r := s.rtc
  if r.lockout then 7
  else if s.bk.crossing.isSome then 6
  else match r.wrMin, r.wrHour, r.wrDay, r.wrMonth, r.wrYear with
    | some mi, some h, some d, some mo, some y =>
      if 59 < sec ∨ 59 < mi ∨ 23 < h ∨ d = 0 ∨ 31 < d ∨ mo = 0 ∨ 12 < mo ∨ 199 < y then 2
      else if monthDays y mo < d then 3
      else 0
    | _, _, _, _, _ => 1

/-- A write of RTC_SECS: the set is rejected, or begins to cross into the backup domain (R416, R417; log entry 24). -/
def State.rtcSet (s : State) (sec : Nat) : State :=
  let r := s.rtc
  let c := s.setCause sec
  let s := { s with rtc := r.clearBuf }
  if c ≠ 0 then s.rtcReject c
  else { s with bk := { s.bk with
      crossing := some (secsOf (r.wrYear.getD 0) (r.wrMonth.getD 1) (r.wrDay.getD 1) (r.wrHour.getD 0) (r.wrMin.getD 0) sec) } }

/-- RTC_FIELD_WRITE. -/
def execRtcFieldWrite (dt : Dt) (m : Master) (offset : Nat) (value : BitVec 32) (s : State) : Res :=
  .next ((s.tick dt).rtcAccess m offset true (fun t => { t with rtc := t.rtc.load offset value }))

/-- RTC_SECS_WRITE. -/
def execRtcSecsWrite (dt : Dt) (m : Master) (value : BitVec 32) (s : State) : Res :=
  .next ((s.tick dt).rtcAccess m 0x08 true (fun t => t.rtcSet (fld value 0 6)))

/-- RTC_SET_APPLY: the set arrives; all fields take their values together, the prescaler is 0, RTC_VALID sets, a freeze ends and a
pending step is cancelled (R417). -/
def execRtcSetApply (dt : Dt) (s : State) : Res :=
  let t := s.tick dt
  .next (match t.bk.crossing with
    | none => t
    | some c =>
      { t with
        bk := { t.bk with sub := 0, secs := c, valid := true, step := none, crossing := none }
        rtc := { t.rtc with shadow := none }
        tb := { t.tb with rtcStep := true }
        sched := { t.sched with ownStep := none } })

/-! ## One-hour step (R418, R419) -/

/-- The verdict on a step request: 0, or the first cause in the order of R418. -/
def State.stepCause (s : State) (fwd both : Bool) : Nat :=
  if s.rtc.lockout then 7
  else if s.bk.step.isSome || s.bk.crossing.isSome then 6
  else if both then 5
  else if (if fwd then calSecs ≤ s.bk.secs + 3601 else s.bk.secs + 1 < 3600) then 4
  else 0

/-- A step request (R418). -/
def State.rtcStep (s : State) (fwd both : Bool) : State :=
  match s.stepCause fwd both with
  | 0 => { s with bk := { s.bk with step := some fwd } }
  | c => s.rtcReject c

/-- STEP_FWD: a write of RTC_CTRL with bit 0, and with bit 1 too when `both`. -/
def execStepFwd (dt : Dt) (m : Master) (both : Bool) (s : State) : Res :=
  .next ((s.tick dt).rtcAccess m 0x20 true (fun t => t.rtcStep true both))

/-- STEP_BACK. -/
def execStepBack (dt : Dt) (m : Master) (both : Bool) (s : State) : Res :=
  .next ((s.tick dt).rtcAccess m 0x20 true (fun t => t.rtcStep false both))

/-- DST_STEP_ISSUE: with DST_EN = 1 the module issues the step that takes effect at the next second boundary (06 R200). None is issued while RTC_VALID = 0
(DESIGN CHOICE, log entry 58: the spec is silent on a clock whose time is invalid). -/
def execDstStepIssue (dt : Dt) (s : State) : Res :=
  let t := s.tick dt
  let site := t.nv.site
  let y := yearOf ((t.bk.secs + 1) / 86400)
  let fwd := !t.nv.dstActive && t.bk.secs + 1 == ruleSecs site.dstStart y
  let back := t.nv.dstActive && t.bk.secs + 1 == ruleSecs site.dstEnd y
  .next (if t.runs .m && site.dstEn && t.bk.valid && (fwd || back) then
      (let ok := t.stepCause fwd false == 0
       let t := t.rtcStep fwd false
       if ok then { t with sched := { t.sched with ownStep := some fwd } } else t)
    else t)

/-- RTC_STEP_APPLY: at the second boundary the RTC adds or subtracts 3 600 s (R418, R419); the module's own step sets or clears
DST_ACTIVE (06 R200). -/
def execRtcStepApply (dt : Dt) (s : State) : Res :=
  let t := s.tick dt
  .next (match t.bk.step with
    | some fwd =>
      if t.bk.sub ≠ 32767 then t
      else
        let secs := if fwd then t.bk.secs + 1 + 3600 else t.bk.secs + 1 - 3600
        { t with
          bk := { t.bk with sub := 0, secs := secs, step := none }
          tb := { t.tb with rtcStep := true }
          nv := match t.sched.ownStep with
            | some b => { t.nv with dstActive := b, dstStep := some (if b then t.bk.secs + 1 else secs) }
            | none => t.nv
          sched := { t.sched with ownStep := none } }
    | none => t)

/-- RTC_CALENDAR_WRAP: the end of 2199 (R410); a step due at that boundary is RTC_STEP_APPLY's. -/
def execRtcCalendarWrap (dt : Dt) (s : State) : Res :=
  let t := s.tick dt
  .next (if t.bk.secs + 1 = calSecs ∧ t.bk.sub = 32767 ∧ t.bk.step = none then { t with bk := { t.bk with sub := 0, secs := 0, valid := false } }
    else t)

/-! ## Backup domain (R420-R428) -/

/-- BACKUP_SWITCH_VBAT: the rail is below 2.7 V (R420). -/
def execBackupSwitchVbat (dt : Dt) (s : State) : Res :=
  let t := s.tick dt
  .next { t with bk := { t.bk with onVbat := true } }

/-- BACKUP_SWITCH_RAIL: the rail exceeds 2.85 V (R420). -/
def execBackupSwitchRail (dt : Dt) (s : State) : Res :=
  let t := s.tick dt
  .next { t with bk := { t.bk with onVbat := false, held := false } }

/-- RTC_VALID_LOSS: the domain's supply stood below 1.4 V (R423). The calendar, the log and a step that waits go, and the count stands
until the rail feeds the domain again (R424; log entry 10). -/
def execRtcValidLoss (dt : Dt) (s : State) : Res :=
  let t := s.tick dt
  .next { t with
    bk := { t.bk with sub := 0, secs := 0, valid := false, log := [], ovf := 0, step := none, crossing := none, held := t.bk.onVbat }
    sched := { t.sched with ownStep := none } }

/-- TLOG_ACK: the N oldest entries go; N above NLOG removes them all (R427). -/
def execTlogAck (dt : Dt) (m : Master) (n : Nat) (s : State) : Res :=
  .next ((s.tick dt).rtcAccess m 0x44 true (fun t => { t with bk := { t.bk with log := t.bk.log.drop (n % 16) } }))

/-! ## TIME commands (11 R361) -/

/-- TIME TB_STATUS. -/
def execTimeTbStatus (r : Req) (s : State) : Res :=
  hostCmd { cmd := 0x0201, need := .read, openRead := true } r (fun _ t =>
    .ok [(t.tb.hcn, 6), (t.tb.stat, 4), (t.tb.period, 4), (t.tb.bofsShown, 2), (t.tbCfgInForce, 4), (t.tbCfg, 4)] t) s

/-- The stamp of an HCN in the history; none outside it (02 R81, R84). -/
def State.stampOf (s : State) (k : Nat) : Option (BitVec 256) :=
  let w := tget 0 s.jnc.stamps (k % 1024)
  if s.started && decide (k ≤ s.tb.hcn) && fld w 0 48 == k && w != 0 then some w else none

/-- TIME STAMP_READ: consecutive coherent entries from HCN; RANGE if any lies outside the history (R361, 02 R84). -/
def execTimeStampRead (r : Req) (hcn count : Nat) (s : State) : Res :=
  hostCmd { cmd := 0x0202, need := .read } r (fun _ t =>
    let l := (rangeFrom hcn count).filterMap t.stampOf
    checked [(decide (count = 0 ∨ 42 < count ∨ l.length ≠ count), .range)]
      (.ok ((count, 1) :: l.map (fun w => (w.toNat, 32))) t)) s

/-- TIME TB_SET: from the next start-up (R361, 02 R59, R76, R80). -/
def execTimeTbSet (r : Req) (profileSel : Nat) (fdrVset : BitVec 8) (s : State) : Res :=
  hostCmd { cmd := 0x0203, need := .configure } r (fun _ t =>
    checked [(decide (2 < profileSel), .range)]
      (.ok [] (t.onNv (fun v => { v with profileSel := profileSel, fdrVset := fdrVset })))) s

/-- TIME RTC_READ. -/
def execTimeRtcRead (r : Req) (s : State) : Res :=
  hostCmd { cmd := 0x0204, need := .read } r (fun _ t =>
    let (y, m, d) := civil t.today
    let x := t.secOfDay
    .ok [(2000 + y, 2), (m, 1), (d, 1), (x / 3600, 1), (x / 60 % 60, 1), (x % 60, 1), (t.bk.sub, 2),
      (b2n t.bk.valid + 2 * b2n t.nv.dstActive, 1)] t) s

/-- TIME RTC_SET: one validated set; every rejection is RANGE (R361, 13 R416; log entry 24). -/
def execTimeRtcSet (r : Req) (year month day hour min sec dst : Nat) (s : State) : Res :=
  hostCmd { cmd := 0x0205, need := .configure } r (fun _ t =>
    checked [(decide (year < 2000 ∨ 2199 < year ∨ 1 < dst ∨ (dst = 1 ∧ t.nv.site.dstEn = false)), .range)]
      (let t := { t with rtc := { t.rtc with
          wrMin := some min, wrHour := some hour, wrDay := some day, wrMonth := some month, wrYear := some (year - 2000) } }
       let c := t.setCause sec
       let t := t.rtcSet sec
       if c ≠ 0 then .ended .range [(0, 4)] t
       else .ok [] (t.onNv (fun v => { v with dstActive := dst == 1, dstStep := none })))) s

/-- TIME RTC_STEP: STATE while the module steps the clock itself (R361); a step out of the calendar is RANGE, one that finds
another pending is STATE (log entry 24). -/
def execTimeRtcStep (r : Req) (dir : Nat) (s : State) : Res :=
  hostCmd { cmd := 0x0206, need := .configure } r (fun _ t =>
    checked [(t.nv.site.dstEn, .state), (decide (1 < dir), .range)]
      (match t.stepCause (dir == 0) false with
       | 0 => .ok [] (t.rtcStep (dir == 0) false)
       | c => .ended (if c = 4 then .range else .state) [(0, 4)] (t.rtcStep (dir == 0) false))) s

end Sys2Proof.Machine
end

