-- ==== Sys2Proof/Machine/Net.lean ====
section
/-!
DEFINITION. Ethernet, PRP and network time (12 R381-R409): ports and the IP layer, duplicate discard, the four PTP sources with
their exchanges, the local clock, civil time from PTP; TIME PTP_SET and PTP_READ (11 R361).
-/
namespace Sys2Proof.Machine

/-! ## Ports, PRP and the IP layer (R381-R391) -/

/-- Send a frame on one port alone (R407 step 1). -/
def State.sendOne (s : State) (p : Nat) (k : Frame) : State := (s.emit (s.frameOut p k)).prpNext

/-- A frame passed up: the IP layer handles it, or discards and counts it (R384, R389). -/
def State.passUp (s : State) (p : Nat) (fr : EthFrame) : State :=
  let s := s.emit (.ethUp p fr)
  if fr.handled || s.vxc.netInForce.ipv4 == 0 then s else s.rxDropped p

/-- A frame as it arrived at a port. -/
def arrivalOf (fr : EthFrame) (p : Nat) : Arrival := ⟨p, fr.src, fr.len, fr.vid, fr.trailer⟩

/-- A frame other than a PTP frame goes through duplicate discard, and what is passed up is handled (R389). -/
def State.prpRx (s : State) (a : Arrival) (up : State → State) : State :=
  let x := s.prpTake a
  if x.1 then up x.2 else x.2

/-- A message that needs a function the module has not is ignored and counted (R392). -/
def State.ptpIgnore (s : State) : State := (s.onNet (fun n => { n with ptpIgnored := up32 n.ptpIgnored })).stuckFw .m (fills32 s.net.ptpIgnored)

/-- A frame other than a PTP message with a row of its own: a PTP frame bypasses PRP and needs a function the module has not, every other one
passes duplicate discard (R389-R392). -/
def State.ethIn (t : State) (port : Nat) (fr : EthFrame) : State :=
  if fr.ptp then t.ptpIgnore else t.prpRx (arrivalOf fr port) (fun t => t.passUp port fr)

/-- An ARP request for IPV4 is answered to its sender (R384). -/
def State.arpIn (t : State) (a : Arrival) (ip : Nat) : State :=
  t.prpRx a (fun t => if t.vxc.netInForce.ipv4 != 0 && ip == t.vxc.netInForce.ipv4 then t.sendFrame (.arpReply a.src) else t)

/-- Up to 10 ICMP echo requests per second are answered (R384; log entry 47). -/
def State.icmpIn (t : State) (a : Arrival) : State :=
  t.prpRx a (fun t =>
    let sec := t.now / secC
    let n := if t.net.icmp.1 = sec then t.net.icmp.2 else 0
    if t.vxc.netInForce.ipv4 != 0 && decide (n < 10) then
      (t.onNet (fun x => { x with icmp := (sec, n + 1) })).sendFrame (.echoReply a.src) else t)

/-! ## The local clock (R398, R399) -/

/-- The clock's time in units of 2^-32 ns moved by a signed number of nanoseconds. -/
def Net.adjust (n : Net) (adj : Int) : Net :=
  let all : Int := (n.sec * 1000000000 + n.ns : Nat) + adj
  { n with sec := (Int.fdiv all 1000000000 % 281474976710656).toNat, ns := (all % 1000000000).toNat }

/-- The clock's time in ns. -/
def Net.clock (n : Net) : Int := (n.sec * 1000000000 + n.ns : Nat)

/-- A time-stamp of a message that passes the MDI pins now: the clock, off by at most 12 ns; and the steps the clock has made (R395,
R397). -/
def State.stamp (s : State) (err : Int) : Int × Nat := (s.net.clock + max (-12) (min 12 err), s.net.epoch)

/-- A step of the clock: STEPS, PTP_STEP in the next stamp, one record; every offset moves with the clock (R404). -/
def State.ptpStep (s : State) (adj : Int) : State :=
  let b := bump 255 s.net.stepCnt
  let full := fills32 s.net.steps
  let s := s.onNet (fun n => { n.adjust adj with
    stepCnt := b.1, steps := up32 n.steps, epoch := n.epoch + 1
    srcs := n.srcs.map (fun (e : Nat × PtpSrc) => (e.1, { e.2 with offset := e.2.offset + adj })) })
  let s : State := { s with tb := { s.tb with ptpStep := true } }
  ((s.raiseGen .m 0x02 0 []).stuckIf b.2 (wPtp + 0x20) 24).stuckFw .m full

/-- The range of INCR (R399). -/
def incrLo : Nat := 0x07FFBE76C9
def incrHi : Nat := 0x0800418937

/-- INCR takes a value, clamped; the last 64 s of it are kept, and the nominal value it had since the clock began (R399, R405). -/
def State.setIncr (s : State) (v : Nat) : State :=
  let v := if v < incrLo then incrLo else if incrHi < v then incrHi else v
  let recent := s.net.incrs.filter (fun e => decide (s.now < e.1 + 64 * secC))
  let older := if s.net.incrs.isEmpty then [(s.net.startAt, s.net.incr)]
    else (s.net.incrs.filter (fun e => decide (e.1 + 64 * secC ≤ s.now))).take 1
  s.onNet (fun n => { n with incr := v, incrs := (s.now, v) :: recent ++ older })

/-- The mean INCR of the last 64 s (R405). -/
def State.meanIncr (s : State) : Nat :=
  let from_ := s.now - 64 * secC
  let step := fun (acc : Nat × Nat × Nat) (e : Nat × Nat) =>
    let a := max e.1 from_
    (acc.1 + (acc.2.2 - a) * e.2, acc.2.1 + (acc.2.2 - a), a)
  let r := s.net.incrs.foldl step (0, 0, s.now)
  if r.2.1 = 0 then s.net.incr else (roundDiv (r.1 : Nat) (r.2.1 : Nat)).toNat

/-- PTP_ADJ_WRITE: a 64-bit write of PTP_ADJ steps the clock at the next tick (R399). -/
def execPtpAdjWrite (dt : Dt) (m : Master) (adj : Int) (s : State) : Res :=
  .next ((s.tick dt).access m (wPtp + 0x18) true (fun t => t.ptpStep (sext 64 (unsext 64 adj))))

/-- PTP_INCR_WRITE (R399). -/
def execPtpIncrWrite (dt : Dt) (m : Master) (incr : Nat) (s : State) : Res :=
  .next ((s.tick dt).access m (wPtp + 0x10) true (fun t => t.setIncr (incr % 2 ^ 40)))

/-- PTP_TIME_NS_READ: NS is read, SEC and FRAC are latched from the same tick (R409). -/
def execPtpTimeNsRead (dt : Dt) (m : Master) (s : State) : Res :=
  .next ((s.tick dt).access m wPtp false (fun t =>
    (t.onNet (fun n => { n with latch := (n.sec, n.frac) })).emit (.readData wPtp t.net.ns)))

/-! ## Sources (R400-R405) -/

/-- A source. -/
def State.ptpSource (s : State) (n : Nat) : PtpSrc := tget {} s.net.srcs n

/-- Change a source. -/
def State.onSource (s : State) (n : Nat) (g : PtpSrc → PtpSrc) : State :=
  s.onNet (fun t => { t with srcs := tmod {} t.srcs n g })

/-- The source of a domain on a port, numbered as in R401; none for a domain that is not tracked. -/
def State.sourceOf (s : State) (port domain : Nat) : Option Nat :=
  if domain = s.nv.ptp.domP then some port
  else if domain = s.nv.ptp.domS ∧ domain ≠ 255 then some (2 + port)
  else none

/-- The delay mechanism of a source is peer-to-peer (R392). -/
def State.p2p (s : State) (n : Nat) : Bool := (if n < 2 then s.nv.ptp.delayP else s.nv.ptp.delayS) == 1

/-- Source `a` ranks above `b` within a domain: the better grandmaster, else the lower port (R401). -/
def State.ranksAbove (s : State) (a b : Nat) : Bool :=
  match (s.ptpSource a).master, (s.ptpSource b).master with
  | some (ia, ra), some (ib, rb) => if ia = ib ∨ ra = rb then decide (a < b) else decide (ra < rb)
  | some _, none => true
  | _, _ => false

/-- The sources in the order in which they are tried (R401). -/
def State.sourceOrder (s : State) : List Nat :=
  (if s.ranksAbove 1 0 then [1, 0] else [0, 1]) ++ (if s.ranksAbove 3 2 then [3, 2] else [2, 3])

/-- The mean path delay of a source, once measured (R400). -/
def State.meanPath (s : State) (n : Nat) : Option Int :=
  if s.p2p n then (tget {} s.net.peer (n % 2)).delay
  else
    let l := (s.ptpSource n).paths
    if l.isEmpty then none else some (roundDiv (l.foldl (· + ·) 0) (l.length : Nat))

/-- The clock runs on a source from now on: PTP_SRC, and SLEWING until the offset is within 1 µs (R403, R405). -/
def State.useSource (s : State) (n : Nat) : State :=
  let o := (s.ptpSource n).offset
  (s.onNet (fun t => { t with src := some n, ptpSrc := if n < 2 then 1 else 2, slewing := decide (1000 < o.natAbs) })).onSource n
    (fun x => { x with over1ms := 0 })

/-- Take a source, and whether it was taken: from no source or from free-run by R404, from another source only within 10 ms; else one
DOMAIN_DISAGREE record (R403, R404). -/
def State.takeSource (s : State) (n : Nat) : State × Bool :=
  let o := (s.ptpSource n).offset
  if s.net.ptpSrc = 0 then ((s.ptpStep (-o)).useSource n, true)
  else if s.net.ptpSrc = 3 then ((if 1000000 < o.natAbs then s.ptpStep (-o) else s).useSource n, true)
  else if o.natAbs ≤ 10000000 then (s.useSource n, true)
  else ((s.onSource n (fun x => { x with refused := true })).raiseFw .m 0x0203 (n :: leBytes 8 (unsext 64 o)), false)

/-- Take the first source of a list that the clock takes. -/
def State.takeFirst (s : State) : List Nat → State × Bool
  | [] => (s, false)
  | n :: r =>
    match s.takeSource n with
    | (t, true) => (t, true)
    | (t, false) => t.takeFirst r

/-- Free-run at the mean INCR of the last 64 s (R405). -/
def State.freeRun (s : State) : State :=
  (s.setIncr s.meanIncr).onNet (fun n => { n with src := none, ptpSrc := 3, slewing := false })

/-- The source in use is lost: the first eligible qualified source, or free-run (R403, R405). -/
def State.reselect (s : State) : State :=
  let ok := s.sourceOrder.filter (fun n => (s.ptpSource n).qual && (decide (n < 2) || s.nv.ptp.fallback == 1))
  match s.takeFirst ok with
  | (t, true) => t
  | (t, false) => t.freeRun

/-- Sources are lost, each with one record; if the clock was on one of them it moves on (R402, R403). -/
def State.loseSources (s : State) (l : List Nat) : State :=
  let lost := l.filter (fun n => (s.ptpSource n).master.isSome || (s.ptpSource n).qual)
  let t := lost.foldl (fun s n => (s.onSource n (fun _ => {})).raiseGen .m 0x02 0 []) s
  if lost.any (fun n => s.net.src == some n) then t.reselect else t

/-- A source qualifies after 16 consecutive exchanges and 4 delay measurements, with one record (R402). -/
def State.qualify (s : State) (n : Nat) : State :=
  let x := s.ptpSource n
  if !x.qual && decide (16 ≤ x.exch) && decide (4 ≤ x.delays) && x.master.isSome then
    (s.onSource n (fun y => { y with qual := true, since := s.now, refused := false })).raiseGen .m 0x02 0 []
  else s

/-- The range of a source's rate about the nominal INCR, and the servo's correction: 25 and 100 parts per million (R399, R400). -/
def ppm25 : Nat := 858993
def ppm100 : Nat := 3435973

/-- The servo after an exchange of the source in use: a step of the whole offset at the fourth exchange beyond 1 ms, which a slew from another source
within 10 ms does not count (R403, R404); else the rate of the source and a correction of at most 100 ppm, of which the spec states no
more (R400; log entry 47). -/
def State.servo (s : State) (n : Nat) : State :=
  let o := (s.ptpSource n).offset
  let c := if 1000000 < o.natAbs ∧ (s.net.slewing = false ∨ 10000000 < o.natAbs) then (s.ptpSource n).over1ms + 1 else 0
  if 4 ≤ c then (s.ptpStep (-o)).onSource n (fun x => { x with over1ms := 0 })
  else
    let s := s.onSource n (fun x => { x with over1ms := c })
    let (rate, s) := s.draw (2 * ppm25 + 1)
    let (corr, s) := s.draw (2 * ppm100 + 1)
    (s.setIncr (0x0800000000 + rate + corr - ppm25 - ppm100)).onNet (fun t => { t with slewing := t.slewing && decide (1000 < o.natAbs) })

/-- A Sync exchange completes with t2 - t1 less its corrections (R397, R400). -/
def State.exchange (s : State) (n : Nat) (v : Int) : State :=
  let s := s.onSource n (fun x => { x with sync := none, exch := x.exch + 1, exchAt := s.now, t2mt1 := some (v, s.net.epoch) })
  let s := match s.meanPath n with
    | none => s
    | some d =>
      (let s := s.onSource n (fun x => { x with offset := v - d })
       if s.net.src = some n then s.servo n else s)
  s.qualify n

/-- The exchange that waits is dropped (R397). -/
def State.dropSync (s : State) (n : Nat) : State :=
  if (s.ptpSource n).sync.isSome then s.onSource n (fun x => { x with sync := none, exch := 0 }) else s

/-- What a PTP message on a port does to its source; a message of a domain that is not tracked does nothing. -/
def State.onPtp (s : State) (port domain : Nat) (k : Nat → State → State) : State :=
  if !s.portOk port then s
  else match s.sourceOf port domain with
    | none => s
    | some n => k n s

/-- The CCLK cycles of a logMessageInterval (R392). -/
def logCycles (log : Int) : Nat := secC * 2 ^ (log + 7).toNat / 128

/-- A Sync of a sync interval has come: the one that still waits is dropped, one that never came breaks the row of exchanges, and the intervals
without an exchange count from the first one (R397, R402). -/
def State.syncSeen (s : State) (n seq : Nat) (log : Int) : State :=
  (s.dropSync n).onSource n (fun x => { x with
    syncInt := logCycles log, exchAt := if x.syncInt = 0 then s.now else x.exchAt, lastSeq := some seq
    exch := if x.lastSeq = some ((seq + 65535) % 65536) then x.exch else 0 })

/-- A Sync: a one-step exchange completes; a two-step one waits for its Follow_Up for one sync interval from its arrival; one that waited for the
firmware over a step of the clock is dropped (R392, R397). -/
def State.syncIn (s : State) (at_ port domain seq : Nat) (twoStep : Bool) (t1 : Int) (stamp : Int × Nat) (corr logInterval : Int) : State :=
  s.onPtp port domain (fun n t =>
    if (t.ptpSource n).master.isNone then t
    else if logInterval < -7 ∨ 1 < logInterval then t.ptpIgnore
    else
      let t := t.syncSeen n seq logInterval
      if stamp.2 ≠ t.net.epoch then t.onSource n (fun x => { x with exch := 0 })
      else if twoStep then t.onSource n (fun x => { x with
        sync := some (seq, stamp.1, corr, at_ + logCycles logInterval, t.net.epoch) })
      else t.exchange n (stamp.1 - t1 - corr))

/-- A Follow_Up: t1 of a two-step Sync; the exchange is dropped when it arrives late or spans a step (R397). -/
def State.followUpIn (s : State) (at_ port domain seq : Nat) (t1 corr : Int) : State :=
  s.onPtp port domain (fun n t =>
    match (t.ptpSource n).sync with
    | none => t
    | some (q, t2, c, upTo, ep) =>
      if q ≠ seq then t
      else if upTo < at_ ∨ ep ≠ t.net.epoch then t.dropSync n
      else t.exchange n (t2 - t1 - c - corr))

/-- An Announce: the best master of the source, with its transport (R392, R393, R401); over UDP none is taken while IPV4 is 0 (R384). -/
def State.announceIn (s : State) (at_ port domain master rank : Nat) (time : AnnTime) (udp : Bool) (logInterval : Int) : State :=
  s.onPtp port domain (fun n t =>
    if udp && t.vxc.netInForce.ipv4 == 0 then t else
    let better := match (t.ptpSource n).master with | none => true | some (i, r) => i == master || decide (rank < r)
    if better then t.onSource n (fun x => { x with
        master := some (master, rank), udp := udp, annAt := at_, annInt := logCycles logInterval, time := time })
    else t)

/-- A Delay_Resp: a request-response measurement that arrives within 1 s, not across a step, and the interval of Delay_Req (R393, R397, R400). -/
def State.delayRespIn (s : State) (at_ port domain seq : Nat) (t4 corr logInterval : Int) : State :=
  s.onPtp port domain (fun n t =>
    match (t.ptpSource n).req, (t.ptpSource n).t2mt1 with
    | some (q, t3, sent, ep), some (v, ev) =>
      if q ≠ seq then t
      else
        let t := t.onSource n (fun x => { x with req := none, reqInt := logCycles logInterval })
        if sent + secC < at_ ∨ ep ≠ t.net.epoch ∨ ev ≠ t.net.epoch ∨ t.p2p n then t
        else (t.onSource n (fun x => { x with
            paths := (roundDiv (v + (t4 - t3 - corr)) 2 :: x.paths).take 8, delays := x.delays + 1 })).qualify n
    | _, _ => t)

/-- The multicast addresses that PTP messages go to: of peer delay and of the others, over UDP and over IEEE 802.3 (R392). -/
def ptpDst (peer udp : Bool) : Nat :=
  match udp, peer with
  | true, true => 0xE000006B
  | true, false => 0xE0000181
  | false, true => 0x0180C200000E
  | false, false => 0x011B19000000

/-- A PTP message on a port: link-local peer-delay frames have the port's own MAC and no tag, every other one MAC0 and PCP 6 (R383, R385, R391, R392);
over UDP its checksum is 0 (R396). -/
def State.ptpOut (s : State) (p kind seq : Nat) (udp : Bool) (stamp : Int) (receipt : Option Nat) : Out :=
  let peer := decide (kind ≠ 4)
  let link := peer && !udp
  .ptp p kind seq (if udp then some 0 else none) (if link && p == 1 then s.nv.mac1 else s.nv.mac0) (ptpDst peer udp)
    (if link then none else s.tag 6) stamp receipt

/-- A Pdelay_Req: answered by a one-step Pdelay_Resp whose correction has the turnaround added, by the clock from the time-stamp of the request to that
of the response, which departs `out` ns after the request is served (R393, R395, R396). -/
def State.pdelayReqIn (t : State) (port : Nat) (udp : Bool) (seq : Nat) (stamp corr out : Int) : State :=
  if !t.portOk port || (udp && t.vxc.netInForce.ipv4 == 0) then t
  else t.emit (t.ptpOut port 6 seq udp (corr + (t.net.clock + out - stamp)) (some 0))

/-- A Pdelay_Resp: the port's link delay (R397, R400). -/
def State.pdelayRespIn (t : State) (at_ port seq : Nat) (stamp : Int × Nat) (corr : Int) : State :=
  if !t.portOk port then t
  else
      let l := tget {} t.net.peer port
      match l.req with
      | some (q, t3, sent, ep) =>
        if q ≠ seq then t
        else if sent + secC < at_ ∨ ep ≠ stamp.2 then
          t.onNet (fun n => { n with peer := tset {} n.peer port { l with req := none } })
        else
          let t := t.onNet (fun n => { n with peer := tset {} n.peer port { l with delay := some (roundDiv (stamp.1 - t3 - corr) 2), req := none } })
          ([port, 2 + port].filter t.p2p).foldl (fun t n => (t.onSource n (fun x => { x with delays := x.delays + 1 })).qualify n) t
      | none => t

/-! ## Receive queues (R386) -/

/-- A frame for the PTP queue. -/
def RxFrame.isPtp : RxFrame → Bool
  | .eth fr => fr.ptp
  | .arp .. | .icmp _ => false
  | .sync .. | .followUp .. | .announce .. | .delayResp .. | .pdelayReq .. | .pdelayResp .. => true

/-- A link-local peer-delay frame, which may come untagged (R385). -/
def RxFrame.peerDelay : RxFrame → Bool
  | .eth fr => fr.peerDelay
  | .pdelayReq udp .. => !udp
  | .pdelayResp .. => true
  | .arp .. | .icmp _ | .sync .. | .followUp .. | .announce .. | .delayResp .. => false

/-- The firmware serves a frame that arrived at a time. -/
def State.rxHandle (s : State) (p at_ : Nat) : RxFrame → State
  | .eth fr => s.ethIn p fr
  | .arp a ip => s.arpIn a ip
  | .icmp a => s.icmpIn a
  | .sync d q ts t1 w c li => s.syncIn at_ p d q ts t1 w c li
  | .followUp d q t1 c => s.followUpIn at_ p d q t1 c
  | .announce d m k tm u li => s.announceIn at_ p d m k tm u li
  | .delayResp d q t4 c li => s.delayRespIn at_ p d q t4 c li
  | .pdelayReq u q w c o => s.pdelayReqIn p u q w c o
  | .pdelayResp q w c => s.pdelayRespIn at_ p q w c

/-- The firmware takes up a frame of a port at a time, and is free for the next after a time that the spec does not state. -/
def State.rxStart (s : State) (p at_ : Nat) : State := s.onEport p (fun e => { e with rxFree := rxDone p at_ })

/-- Both queues are empty and the firmware is free. -/
def State.rxIdle (s : State) (p : Nat) : Bool :=
  let e := s.eport p
  e.ptpQ.isEmpty && e.restQ.isEmpty && decide (e.rxFree ≤ s.now)

/-- Serve the frames that wait at a port, the PTP queue first, each as the firmware becomes free for it; at most `fuel` of them. -/
def State.rxServe : Nat → State → Nat → State
  | 0, s, _ => s
  | fuel + 1, s, p =>
    let e := s.eport p
    if s.now < e.rxFree then s
    else match e.ptpQ, e.restQ with
      | fr :: q, _ => State.rxServe fuel (((s.onEport p (fun e => { e with ptpQ := q })).rxStart p e.rxFree).rxHandle p fr.1 fr.2) p
      | [], fr :: q => State.rxServe fuel (((s.onEport p (fun e => { e with restQ := q })).rxStart p e.rxFree).rxHandle p fr.1 fr.2) p
      | [], [] => s

/-- A frame arrives: it is served at once where none waits and the firmware is free, else it joins its queue, and at a full queue of 64 it
is discarded and counted in RX_DROP (R386). -/
def State.receive (s : State) (a : Arrival) (fr : RxFrame) : State :=
  let p := a.port
  if !s.accepts a fr.peerDelay then s
  else
    let s := s.rxServe 128 p
    let e := s.eport p
    if s.rxIdle p then (s.rxStart p s.now).rxHandle p s.now fr
    else if (if fr.isPtp then e.ptpQ else e.restQ).length < 64 then
      s.onEport p (fun e => if fr.isPtp then { e with ptpQ := e.ptpQ ++ [(s.now, fr)] } else { e with restQ := e.restQ ++ [(s.now, fr)] })
    else s.rxDropped p

/-- ETH_FRAME_RX (R385-R391). -/
def execEthFrameRx (dt : Dt) (port : Nat) (fr : EthFrame) (s : State) : Res := .next ((s.tick dt).receive (arrivalOf fr port) (.eth fr))

/-- ARP_REQUEST (R384). -/
def execArpRequest (dt : Dt) (port : Arrival) (ip : Nat) (s : State) : Res := .next ((s.tick dt).receive port (.arp port ip))

/-- ICMP_ECHO_REQUEST (R384). -/
def execIcmpEchoRequest (dt : Dt) (port : Arrival) (s : State) : Res := .next ((s.tick dt).receive port (.icmp port))

/-- 2 000 ms since the last supervision frame (R387). -/
def State.supDue (s : State) : Bool := match s.net.supAt with | none => true | some a => decide (a + 2 * secC ≤ s.now)

/-- PRP_SUPERVISION_TX, each 2 000 ms (R387); frames that wait are served as well. -/
def execPrpSupervisionTx (dt : Dt) (s : State) : Res :=
  let t := s.tick dt
  .next (if t.netRuns && t.supDue then
      ((State.rxServe 128 (State.rxServe 128 t 0) 1).onNet (fun n => { n with supAt := some t.now })).sendFrame .supervision else t)

/-- PTP_SYNC_RX: t2 is the clock as the message arrives (R392, R395, R397). -/
def execPtpSyncRx (dt : Dt) (port : Arrival) (domain seq : Nat) (twoStep : Bool) (t1 err corr logInterval : Int) (s : State) : Res :=
  let t := s.tick dt
  .next (t.receive port (.sync domain seq twoStep t1 (t.stamp err) corr logInterval))

/-- PTP_FOLLOW_UP_RX (R397). -/
def execPtpFollowUpRx (dt : Dt) (port : Arrival) (domain seq : Nat) (t1 corr : Int) (s : State) : Res :=
  .next ((s.tick dt).receive port (.followUp domain seq t1 corr))

/-- PTP_ANNOUNCE_RX (R392, R401). -/
def execPtpAnnounceRx (dt : Dt) (port : Arrival) (domain master rank : Nat) (time : AnnTime) (udp : Bool) (logInterval : Int) (s : State) : Res :=
  .next ((s.tick dt).receive port (.announce domain master rank time udp logInterval))

/-- PTP_DELAY_RESP_RX (R397, R400). -/
def execPtpDelayRespRx (dt : Dt) (port : Arrival) (domain seq : Nat) (t4 corr logInterval : Int) (s : State) : Res :=
  .next ((s.tick dt).receive port (.delayResp domain seq t4 corr logInterval))

/-- PTP_PDELAY_REQ_RX: `turnaround` is the time from the request's service to the response's departure, with the errors of both time-stamps (R393,
R395, R396). -/
def execPtpPdelayReqRx (dt : Dt) (port : Arrival) (udp : Bool) (seq : Nat) (corr turnaround : Int) (s : State) : Res :=
  let t := s.tick dt
  .next (t.receive port (.pdelayReq udp seq t.net.clock corr turnaround))

/-- PTP_PDELAY_RESP_RX: its receive time-stamp is the clock as it arrives (R395, R397, R400). -/
def execPtpPdelayRespRx (dt : Dt) (port : Arrival) (seq : Nat) (err corr : Int) (s : State) : Res :=
  let t := s.tick dt
  .next (t.receive port (.pdelayResp seq (t.stamp err) corr))

/-- A port's next Pdelay_Req is due: one second after the last (R393). -/
def LinkDelay.due (l : LinkDelay) (now : Nat) : Bool := match l.reqAt with | none => true | some a => decide (a + secC ≤ now)

/-- A source's next Delay_Req is due: an interval after the last one, with a spread of at most 30 % (R393). -/
def PtpSrc.due (x : PtpSrc) (now : Nat) (spread : Int) : Bool :=
  match x.reqAt with
  | none => true
  | some a => decide (a + x.reqInt * (100 + max (-30) (min 30 spread)).toNat / 100 ≤ now)

/-- The port's Pdelay_Req goes out with its transmit time (R393, R396). -/
def State.pdelayReqOut (t : State) (p : Nat) (err : Int) : State :=
  let l := tget {} t.net.peer p
  let w := t.stamp err
  if !l.due t.now then t
  else (t.emit (t.ptpOut p 5 l.reqSeq false w.1 none)).onNet (fun x => { x with
    peer := tset {} x.peer p { l with
      req := some (l.reqSeq, w.1, t.now, w.2), reqAt := some t.now, reqSeq := (l.reqSeq + 1) % 65536 } })

/-- A source's Delay_Req goes out with its transmit time, on the transport of its master (R393, R396). -/
def State.delayReqOut (t : State) (p n : Nat) (spread err : Int) : State :=
  let x := t.ptpSource n
  let w := t.stamp err
  if x.master.isNone || !x.due t.now spread then t
  else (t.emit (t.ptpOut p 4 x.reqSeq x.udp w.1 none)).onSource n (fun x => { x with
    req := some (x.reqSeq, w.1, t.now, w.2), reqAt := some t.now, reqSeq := (x.reqSeq + 1) % 65536 })

/-- PTP_DELAY_REQ_TX: a Delay_Req of an end-to-end source that has a master, or the port's Pdelay_Req (R393, R396). -/
def execPtpDelayReqTx (dt : Dt) (port domain : Nat) (spread err : Int) (s : State) : Res :=
  .next ((s.tick dt).onPtp port domain (fun n t => if t.p2p n then t.pdelayReqOut port err else t.delayReqOut port n spread err))

/-- The announce receipt timeout of a source has expired, or 8 sync intervals have passed without a completed exchange (R392, R402). -/
def State.sourceSilent (s : State) (n : Nat) : Bool :=
  let x := s.ptpSource n
  x.master.isSome && (decide (x.annAt + 3 * x.annInt ≤ s.now) || decide (0 < x.syncInt ∧ x.exchAt + 8 * x.syncInt ≤ s.now))

/-- PTP_SOURCE_LOST (R402, R403). -/
def execPtpSourceLost (dt : Dt) (src : Nat) (s : State) : Res :=
  let t := s.tick dt
  .next (if t.netRuns && decide (src < 4) && t.sourceSilent src then t.loseSources [src] else t)

/-- A source that the clock may move to: qualified for 60 s without a break, and a primary while the source in use is secondary or
none, or the other port of its domain and above it (R403). -/
def State.mayReturn (s : State) (n : Nat) : Bool :=
  let x := s.ptpSource n
  x.qual && (!x.refused || s.net.src.isNone) && decide (x.since + 60 * secC ≤ s.now) &&
    (match s.net.src with
     | none => decide (n < 2)
     | some u => (decide (n < 2) && decide (2 ≤ u)) || (decide (n / 2 = u / 2 ∧ n ≠ u) && s.ranksAbove n u))

/-- PTP_SOURCE_RETURN (R403). -/
def execPtpSourceReturn (dt : Dt) (src : Nat) (s : State) : Res :=
  let t := s.tick dt
  .next (if t.netRuns && t.mayReturn src then
      (t.takeFirst (src :: t.sourceOrder.filter (fun n => n != src && t.mayReturn n))).1
    else t)

/-- Where a source stands once the domains are DOM_P and DOM_S; none when its domain is no longer tracked (R394). -/
def PtpCfg.moved (old new : PtpCfg) (n : Nat) : Option Nat :=
  let d := if n < 2 then old.domP else old.domS
  if d = 255 then none
  else if d = new.domP then some (n % 2)
  else if d = new.domS then some (2 + n % 2)
  else none

/-- TIME PTP_SET: at once; knowledge of domains no longer tracked goes, and with the source in use the clock free-runs (R394). -/
def execTimePtpSet (r : Req) (domP domS delayP delayS fallback : Nat) (s : State) : Res :=
  hostCmd { cmd := 0x0207, need := .configure } r (fun _ t =>
    checked [(decide (239 < domP ∨ (239 < domS ∧ domS ≠ 255) ∨ domP = domS ∨ 1 < delayP ∨ 1 < delayS ∨ 1 < fallback), .range)]
      (let old := t.nv.ptp
       let new : PtpCfg := ⟨domP, domS, delayP, delayS, fallback⟩
       let was := t.net
       let put := fun (l : Tbl PtpSrc) n => match old.moved new n with
         | some m => tset {} l m (tget {} was.srcs n)
         | none => l
       let t : State := (t.onNv (fun v => { v with ptp := new })).onNet (fun x => { x with srcs := [0, 1, 2, 3].foldl put [] })
       .ok [] (match was.src with
        | none => t
        | some u =>
          match old.moved new u with
          | some m => t.onNet (fun x => { x with src := some m, ptpSrc := if m < 2 then 1 else 2 })
          | none => t.freeRun))) s

/-- The offset of the best source of a domain, in ns; no stated value while none has a master (R402; log entry 47). -/
def State.domainOffset (s : State) (a b : Nat) : Nat × State :=
  match (if s.ranksAbove b a then [b, a] else [a, b]).find? (fun n => (s.ptpSource n).master.isSome) with
  | some n => (unsext 64 (s.ptpSource n).offset, s)
  | none => s.draw (2 ^ 64)

/-- TIME PTP_READ. -/
def execTimePtpRead (r : Req) (s : State) : Res :=
  hostCmd { cmd := 0x0208, need := .read } r (fun _ t =>
    let c := t.nv.ptp
    let (op, t) := t.domainOffset 0 1
    let (os, t) := t.domainOffset 2 3
    .ok [(c.domP, 1), (c.domS, 1), (c.delayP, 1), (c.delayS, 1), (c.fallback, 1), (t.net.ptpSrc, 1), (op, 8), (os, 8),
      (t.net.incr, 8), (t.net.steps, 4)] t) s

/-! ## Civil time from PTP (R406) -/

/-- Local civil time from PTP at the clock's present second: DST_ACTIVE, and seconds since 2000-01-01; none outside the
calendar. -/
def State.civilFromPtp (s : State) (utcOffset : Int) (sec : Nat) : Option (Bool × Nat) :=
  let utc : Int := (sec : Int) - utcOffset - 946684800
  let std := utc + s.nv.site.stdOfs * 60
  if std < 0 ∨ calSecs ≤ std + 3600 then none
  else
    let dst := s.dstRule (std.toNat / 86400) (std % 86400 - s.nv.site.stdOfs * 60)
    some (dst, (std + (if dst then 3600 else 0)).toNat)

/-- A full validated set of the RTC to a civil time (R406, 13 R416). -/
def State.setCivil (s : State) (dst : Bool) (secs : Nat) : State :=
  let (y, mo, d) := civil (secs / 86400)
  let x := secs % 86400
  let s : State := { s with rtc := { s.rtc with
    wrMin := some (x / 60 % 60), wrHour := some (x / 3600), wrDay := some d, wrMonth := some mo, wrYear := some y } }
  let c := s.setCause (x % 60)
  let s := s.rtcSet (x % 60)
  if c = 0 then s.onNv (fun v => { v with dstActive := dst, dstStep := none }) else s

/-- Whether the RTC is more than 500 ms from a civil time with its nanoseconds. -/
def Backup.offBy500 (b : Backup) (secs ns : Nat) : Bool :=
  let a : Int := (b.secs * 32768 + b.sub : Nat) * 1000000000
  let c : Int := (secs * 1000000000 + ns : Nat) * 32768
  decide (500000000 * 32768 < (a - c).natAbs)

/-- RTC_HOURLY_CHECK: with a source that has PTP_TIMESCALE and a valid UTC offset, and SLEWING clear, the RTC is set from PTP when it
is not valid or, at the hourly check, differs by more than 500 ms; the write waits for a second boundary of the derived time, to
within 1 ms (R406). -/
def execRtcHourlyCheck (dt : Dt) (s : State) : Res :=
  let t := s.tick dt
  .next (match t.net.src with
    | none => t
    | some n =>
      let x := t.ptpSource n
      if !t.netRuns || !x.time.ptpScale || !x.time.utcValid || t.net.slewing || t.rtc.isolated then t
      else
        let hourly := match t.net.lastCheck with | none => true | some a => decide (a + 3600 * secC ≤ t.now)
        let t : State := if hourly then t.onNet (fun m => { m with lastCheck := some t.now }) else t
        match t.civilFromPtp x.time.utcOffset t.net.sec with
        | none => t
        | some (_, secs) =>
          if !(t.net.setDue || !t.bk.valid || (hourly && t.bk.offBy500 secs t.net.ns)) then t
          else if t.net.ns < 1000000 ∨ 999000000 < t.net.ns then
            match t.civilFromPtp x.time.utcOffset (if t.net.ns < 1000000 then t.net.sec else t.net.sec + 1) with
            | some (dst, at_) => (t.setCivil dst at_).onNet (fun m => { m with setDue := false })
            | none => t
          else t.onNet (fun m => { m with setDue := true }))

/-! ## Links (R407) -/

/-- ETH_LINK_DOWN: one record, LINK_CNT, and the port's sources are lost (R407). While the M-region does not run, the MAC is in reset and the port is
down without more (R408). -/
def execEthLinkDown (dt : Dt) (port : Nat) (s : State) : Res :=
  let t := s.tick dt
  .next (if !decide (port < 2) || !t.linkUp port then t
    else
      let t := t.onEport port (fun e => { e with link := false, speed := 0 })
      if !t.netRuns then t
      else
        let t := t.raiseHw 1 (0x31 + port) 0xFFF 0x0100 (genPay 0 [])
        let t := t.portCount port 255 (wEth port) 8 EthPort.linkCnt (fun e v => { e with linkCnt := v })
        t.loseSources [port, 2 + port])

/-- ETH_LINK_UP: 100BASE-TX or 1000BASE-T; a gratuitous ARP and a supervision frame go out on the port (R381, R407). -/
def execEthLinkUp (dt : Dt) (port speed : Nat) (s : State) : Res :=
  let t := s.tick dt
  .next (if !t.netRuns || t.linkUp port || decide (2 ≤ port) || !(speed == 1 || speed == 2) then t
    else
      let t := t.onEport port (fun e => { e with link := true, speed := speed })
      (if t.vxc.netInForce.ipv4 = 0 then t else t.sendOne port .arpAll).sendOne port .supervision)

end Sys2Proof.Machine
end

