-- ==== Sys2Proof/Machine/Sign.lean ====
section
/-!
DEFINITION. The sign matrix (09 R298-R321, R331): the scan and its sync events, frame buffers and swaps, LED fault detection,
spare sinks, and the SIGN group's commands for the local matrix (11, table "SIGN commands", R372-R374).
-/
namespace Sys2Proof.Machine

/-! ## Configuration -/

/-- Fields of SCAN_CFG. -/
def SignCfg.syncSrc (c : SignCfg) : Nat := fld c.scan 30 2
def SignCfg.syncFalling (c : SignCfg) : Bool := bit c.scan 29
def SignCfg.shortOff (c : SignCfg) : Bool := bit c.scan 28
def SignCfg.probeEn (c : SignCfg) : Bool := bit c.scan 27
def SignCfg.syncDiv (c : SignCfg) : Nat := if fld c.scan 24 3 = 0 then 8 else fld c.scan 24 3
def SignCfg.nrows (c : SignCfg) : Nat := fld c.scan 20 4 + 1
def SignCfg.rowLow (c : SignCfg) : Bool := bit c.scan 19
def SignCfg.ncol (c : SignCfg) : Nat := fld c.scan 12 6
def SignCfg.shortThr (c : SignCfg) : Nat := fld c.scan 8 4
def SignCfg.blank (c : SignCfg) : Nat := fld c.scan 0 8
def SignCfg.trim (c : SignCfg) (col : Nat) : Nat := tget 32 c.trims col
def SignCfg.popAt (c : SignCfg) (r col : Nat) : Bool := bit (tget 0 c.pop r) col

/-- Change the sign's state. -/
def State.onSign (s : State) (g : Sign → Sign) : State := { s with sign := g s.sign }

/-- The configuration that a frame boundary brings into force: all of what is stored but NCOL, ROW_LAST and SYNC_SRC, which wait
for the next start of the M-region (R331). -/
def SignCfg.atBoundary (old new : SignCfg) : SignCfg :=
  { new with scan := setFld (setFld (setFld new.scan 30 2 old.syncSrc) 20 4 (old.nrows - 1)) 12 6 old.ncol }

/-! ## Cells and columns (R298, R299, R318-R321) -/

/-- The cell that drives a column. -/
def Sign.cellOf (g : Sign) (col : Nat) : Option Nat := (g.cells.find? (fun e => e.1 == col)).map Prod.snd

/-- The spares, ascending: cells that drive no column, are not excluded and await no test. -/
def Sign.spares (g : Sign) : List Nat :=
  (rangeFrom 0 50).filter (fun c => !(g.cells.any (fun e => e.2 == c)) && !bit g.excl c && !(g.tests.any (fun t => t.cell == c)))

/-- Connect a cell to a column in place of the one there. -/
def Sign.connect (g : Sign) (col : Nat) (cell : Option Nat) : Sign :=
  let rest := g.cells.filter (fun e => e.1 != col)
  match cell with
  | some c => { g with cells := rest ++ [(col, c)], dead := setBit g.dead col false }
  | none => { g with cells := rest, dead := setBit g.dead col true }

/-- Numerator of the full column current over 256 × 128, in mA, at most 60 mA (R299). -/
def SignCfg.icol (c : SignCfg) (col : Nat) : Nat := min (60 * 32768) (60 * (c.gcur + 1) * (c.trim col + 96))

/-- The front buffer's pixel. -/
def Sign.pixel (g : Sign) (r col : Nat) : Nat := tget 0 g.pix (1024 * b2n g.front + 64 * r + col)

/-- A position is driven: a populated one of a driven column with a cell. -/
def Sign.driven (g : Sign) (r col : Nat) : Bool :=
  decide (col < g.cfg.ncol) && g.cfg.popAt r col && (g.cellOf col).isSome

/-- A position's history as it stands: one not measured in the last 512 scan frames reads NOT_MEASURED (R314). -/
def Sign.led (g : Sign) (r col : Nat) : Led :=
  let x := tget {} g.leds (50 * r + col)
  if decide (x.lastFrame + 512 ≤ g.frameNo) then { x with st := 0 } else x

/-- The state a position reads: NOT_MEASURED where it is unpopulated or no cell drives its column (R314, R317, R319). -/
def Sign.ledState (g : Sign) (r col : Nat) : Nat := if g.driven r col then (g.led r col).st else 0

/-- A position carries its pixel current: it is driven and not switched off as a short, which it is until it is declared OK again
(R315). -/
def Sign.lit (g : Sign) (r col : Nat) : Bool := g.driven r col && !(g.cfg.shortOff && (g.led r col).shorted)

/-- The pixel current of a position, exactly, in units of 1/(32 768 × 255) mA (R299). -/
def Sign.current (g : Sign) (r col : Nat) : Nat := if g.lit r col then g.cfg.icol col * g.pixel r col else 0

/-- 2 mA in that unit (R312, R313). -/
def twoMa : Nat := 2 * 32768 * 255

/-- What a position carries during a probe (R313). -/
def Sign.probeCurrent (g : Sign) (r col : Nat) : Nat := if g.driven r col then twoMa else 0

/-- A column whose cell has failed in this slot (R319). -/
def Sign.lost (g : Sign) (col : Nat) : Bool := g.failed.any (fun e => e.1 == col)

/-- A position carries at least 2 mA outside a probe (R312). -/
def Sign.measurable (g : Sign) (r col : Nat) : Bool := !g.lost col && decide (twoMa ≤ g.current r col)

/-- The current frame is a probe frame: every 256th since the scan started (R313). -/
def Sign.probeFrame (g : Sign) : Bool := g.cfg.probeEn && decide (0 < g.frameNo) && g.frameNo % 256 == 0

/-- AUX cycles as thirds of a CCLK cycle. -/
def aux3 (n : Nat) : Nat := 25 * n

/-- AUX cycles from the start of a row slot to its drive: BLANK and 0.5 µs (R302). -/
def SignCfg.driveAt (c : SignCfg) : Nat := 6 * c.blank + 24

/-- The slot's drive lasts the 4 µs of a measurement window (R302, R312). -/
def Sign.windowFits (g : Sign) : Bool := decide (g.cfg.driveAt + 192 ≤ g.slotLen)

/-- The time `t3` in thirds of a CCLK cycle has come in this very cycle. -/
def State.atThird (s : State) (t3 : Nat) : Bool := decide (t3 ≤ 3 * s.now ∧ 3 * s.now < t3 + 3)

/-- The row whose slot is under way; none in the blank rest of a frame and in the sync guard (R302). -/
def State.rowNow (s : State) : Option Nat :=
  match s.sign.slot with
  | some (r, st, en) => if st ≤ 3 * s.now ∧ 3 * s.now < en then some r else none
  | none => none

/-- The setting of the cell of a column at this moment: 0 until the drive starts, then 2 mA during the probe of a probe frame, then its
pixel current; 0 after it has failed (R302, R313, R319). -/
def State.cellSetting (s : State) (col : Nat) : Nat :=
  let g := s.sign
  match g.slot, s.rowNow with
  | some (_, st, _), some r =>
    let on := st + aux3 g.cfg.driveAt
    if g.lost col || decide (3 * s.now < on) then 0
    else if g.probeFrame && decide (3 * s.now < on + aux3 192) then g.probeCurrent r col
    else g.current r col
  | _, _ => 0

/-- The levels of ROW_SEL0-15 with one select, or none, active; ROW_POL gives the active level (R301). -/
def SignCfg.selects (c : SignCfg) (r : Option Nat) : BitVec 16 :=
  let w : BitVec 16 := match r with | some r => setBit 0 r true | none => 0
  if c.rowLow then ~~~w else w

/-- The levels of ROW_SEL0-15 now: a row is selected from BLANK after its slot's start until 0.2 µs after its end; none where the outputs are
at high impedance (R302, R311). -/
def State.rowSelect (s : State) : Option (BitVec 16) :=
  let g := s.sign
  let t := 3 * s.now
  if s.pow.signHiZ then none
  else some (g.cfg.selects (match g.selPrev, g.slot with
    | some (p, off), some (r, st, en) =>
      if t < off then some p else if st + aux3 (6 * g.cfg.blank) ≤ t ∧ t < en + 240 then some r else none
    | some (p, off), none => if t < off then some p else none
    | none, some (r, st, en) => if st + aux3 (6 * g.cfg.blank) ≤ t ∧ t < en + 240 then some r else none
    | none, none => none))

/-- The row slot ends, now or at its own end, and its select 0.2 µs later (R302, R305). -/
def State.slotOver (s : State) : State :=
  s.onSign (fun g => match g.slot with
    | some (r, _, en) => { g with slot := none, selPrev := some (r, min en (3 * s.now) + 240) }
    | none => g)

/-- A SIGN notification (11 R358). -/
def State.signNote (s : State) (kind row col port daddr dstat : Nat) : State :=
  s.notifyClass 5 0x0A80 .ok [(kind, 1), (row, 1), (col, 1), (port, 1), (daddr, 1), (dstat, 2)]

/-- A column loses its cell: the lowest-numbered spare takes it, or it is dead, with one event record (R319); with no spare left the error
passes to the region (01 R33). -/
def State.colReplace (s : State) (col : Nat) : State :=
  match (s.sign.spares).head? with
  | some c => (s.onSign (fun g => g.connect col (some c))).reserveNote 4 c 1
  | none => (s.onSign (fun g => g.connect col none)).raiseUnit 2 0x38 ((s.sign.cellOf col).getD 0xFFF) 0x0A (wSink + 0x100 + 4 * col) [(col, 1)]

/-- CELL_FAILURE: cells that drive columns at a setting of 2 mA or more declare a failure; the spares come in at the next row slot (R318,
R319; 18 R555). -/
def execCellFailure (dt : Dt) (cells : List Nat) (s : State) : Res :=
  let s := s.tick dt
  .next (if !s.runs .m || !s.sign.run then s else
  cells.foldl (fun s c =>
    match s.sign.cells.find? (fun e => e.2 == c) with
    | none => s
    | some (col, _) =>
      if s.sign.failed.any (fun e => e.2 == c) || decide (s.cellSetting col < twoMa) then s else
      let (n, st) := bump 255 s.sign.failCnt
      let s := (s.onSign (fun g => { g with failCnt := n, failed := g.failed ++ [(col, c)] })).stuckIf st (wSink + 4) 24
      (s.wearInc 4 c).signNote 4 255 col 255 c 0) s)

/-- At the start of a row slot each failed cell leaves its column, the lowest-numbered column first, and awaits its test (R319,
R320). -/
def State.cellsReplaced (s : State) : State :=
  let l := (rangeFrom 0 50).filterMap (fun col => s.sign.failed.find? (fun e => e.1 == col))
  l.foldl (fun s e =>
    let s := s.onSign (fun g => { g with tests := g.tests ++ [⟨e.2, e.1, false⟩] })
    s.colReplace e.1) (s.onSign (fun g => { g with failed := [] }))

/-- A cell is excluded. -/
def State.cellExclude (s : State) (c : Nat) : State := (s.onSign (fun g => { g with excl := setBit g.excl c true })).reserveNote 4 c 0

/-- The sync guard: every frame of the period has ended (R304). -/
def State.inGuard (s : State) : Bool :=
  match s.sign.syncAt with
  | some a => decide (a + aux3 (s.sign.perPeriod * s.sign.frameLen) ≤ 3 * s.now)
  | none => false

/-- A spare's turn for its test: 256 sync periods after the last one (R320). -/
def Sign.spareDue (g : Sign) (cell : Nat) : Bool := g.spares.contains cell && decide (tget 0 g.testedAt cell + 256 ≤ g.periodNo)

/-- SINK_CELL_TEST: in the sync guard a replaced cell, the cell of a suspect column or an idle spare is tested (R320). A suspect column's cell that
fails is replaced as R319 says, at the next row slot, and is then a replaced cell with a test of its own (DESIGN CHOICE, log entry 63). -/
def execSinkCellTest (dt : Dt) (cell : Nat) (pass : Bool) (s : State) : Res :=
  let s := s.tick dt
  .next (if !s.runs .m || !s.sign.run || !s.inGuard || 49 < cell then s else
  match s.sign.tests.find? (fun t => t.cell == cell) with
  | some t =>
    let s := s.onSign (fun g => { g with tests := g.tests.filter (fun u => u.cell != cell), testedAt := tset 0 g.testedAt cell g.periodNo })
    if t.suspect then
      if pass then s.raiseHw 1 0x38 cell 0x0A05 [t.col]
      else if s.sign.cellOf t.col == some cell && !s.sign.lost t.col then s.onSign (fun g => { g with failed := g.failed ++ [(t.col, cell)] })
      else s
    else if pass then s.raiseHw 1 0x38 cell 0x0A04 [cell, t.col]
    else (s.cellExclude cell).raiseHw 1 0x38 cell 0x0A03 [cell, t.col]
  | none =>
    if !s.sign.spareDue cell then s
    else
      let s := s.onSign (fun g => { g with testedAt := tset 0 g.testedAt cell g.periodNo })
      if pass then s else (s.cellExclude cell).wearInc 4 cell)

/-! ## Scan timing (R303-R307) -/

/-- The exact nominal half-cycle in thirds of a CCLK cycle (02 R59). -/
def State.nominal3 (s : State) : Nat := if s.tb.p60 then 10000000 else 12000000

/-- Frame length in AUX cycles for a reference period in thirds of a CCLK cycle and N frames (R304). -/
def frameLength (t3 n : Nat) : Nat := (t3 - 48000) / (25 * n)

/-- The shortest row slot under SIGN_SYNC, in AUX cycles (R307). -/
def lMin (blank : Nat) : Nat := max 480 (6 * blank + 408)

/-- The largest N up to `n` whose row slot is long enough, for a period in thirds of a CCLK cycle (R307). -/
def framesFit (t nrows lmin : Nat) : Nat → Nat
  | 0 => 1
  | n + 1 => if lmin ≤ frameLength t (n + 1) / nrows then n + 1 else framesFit t nrows lmin n

/-- A scan frame starts: configuration and cell changes come into force (R321, R331; 18 R563, R565). -/
def State.frameStart (s : State) : State :=
  let g := s.sign
  let s := s.onSign (fun g => { g with
    cfg := g.cfg.atBoundary s.nv.signCfg
    probeOpen := []
    probePass := []
    rowTold := []
    frameNo := g.frameNo + 1
    cellNext := []
    retireNext := [] })
  let s := g.cellNext.foldl (fun (s : State) e =>
    if s.sign.spares.contains e.2 then (s.onSign (fun g => g.connect e.1 (some e.2))).reserveNote 4 e.2 1 else s) s
  g.retireNext.foldl (fun (s : State) c =>
    match s.sign.cells.find? (fun e => e.2 == c) with
    | some (col, _) => (s.cellExclude c).colReplace col
    | none => s.cellExclude c) s

/-- A sync event due at a time in thirds of a CCLK cycle (R304, R305): an unfinished frame is cut and counted, the frame length follows
from the reference period, and frame 0 starts. -/
def State.syncEvent (s : State) (at3 t3 n : Nat) : State :=
  let g := s.sign
  let early := g.syncAt.isSome && !s.inGuard
  let s : State := if early then
      let (c, st) := bump 255 g.cutCnt
      ((s.onSign (fun g => { g with cutCnt := c })).addTotal (wScan + 4) 24 1).stuckIf st (wScan + 4) 24
    else s
  let len := frameLength t3 n
  (s.slotOver.onSign (fun g => { g with
    frameLen := len, slotLen := len / g.cfg.nrows, perPeriod := n, frameOfPeriod := 0, row := 0, inFrame := true
    syncAt := some at3, periodNo := g.periodNo + 1, edgeDue := false })).frameStart

/-- When a period that the scan times itself ends, in thirds of a CCLK cycle: without an event yet, now; an event that comes late counts
from its own time (R303). -/
def State.selfDue (s : State) (t3 : Nat) : Option Nat :=
  match s.sign.syncAt with
  | none => some (3 * s.now)
  | some a => if 3 * s.now < a + t3 then none else some (if 3 * s.now < a + t3 + 3 then a + t3 else 3 * s.now)

/-- Within 62.5 ns of the HCN edge (R304; 01 R41). -/
def State.edgeHere (s : State) : Bool := s.sign.edgeDue && decide (s.now ≤ s.tb.lastEdge + 25)

/-- The frames of a period under SIGN_SYNC, with DIV_CUT where they are fewer than SYNC_DIV (R307); the event is a frame boundary, and what was
stored counts from it (R331). -/
def State.syncFrames (s : State) (at3 t3 : Nat) : State :=
  let g := s.sign
  let c := g.cfg.atBoundary s.nv.signCfg
  let n := framesFit t3 c.nrows (lMin c.blank) c.syncDiv
  (s.onSign (fun g => { g with divCut := decide (n < c.syncDiv) })).syncEvent at3 t3 n

/-- SCAN_SYNC_EVENT: an HCN edge, or a period of the free-running scan, or of a scan that has lost SIGN_SYNC (R303, R304, R306,
R307). -/
def execScanSyncEvent (dt : Dt) (s : State) : Res :=
  let s := s.tick dt
  let g := s.sign
  .next (if !s.runs .m || !g.run then s else
  match g.cfg.syncSrc with
  | 0 =>
    if s.edgeHere then (s.onSign (fun g => { g with freeRun := false })).syncEvent (3 * s.now) (3 * s.tb.period) 8
    else match s.selfDue s.nominal3 with
      | some a => if g.freeRun then s.syncEvent a s.nominal3 8 else s
      | none => s
  | 1 =>
    let t := if g.syncPeriod = 0 then 8000000 else g.syncPeriod
    match s.selfDue (3 * t) with
    | some a => if g.syncLost then s.syncFrames a (3 * t) else s
    | none => s
  | _ => match s.selfDue s.nominal3 with
    | some a => s.syncEvent a s.nominal3 8
    | none => s)

/-- SIGN_SYNC_EDGE: the edge that SYNC_EDGE makes active, which leaves the line at its level (R303). At least 1 ms after the previous one it is a
sync event; it ends SYNC_LOST (R307). The length of the sync period before it is counted from the last active edge, also where the scan has
timed events of its own since then (DESIGN CHOICE, log entry 63). -/
def execSignSyncEdge (dt : Dt) (s : State) : Res :=
  let s := (s.tick dt).onSign (fun g => { g with syncPin := !g.cfg.syncFalling })
  let g := s.sign
  .next (if !s.runs .m || !g.run || g.cfg.syncSrc != 1 || (match g.lastEdge with | some a => decide (s.now < a + msC) | none => false)
    then s
  else
    let t := match g.lastEdge with
      | some a => if s.now - a ≤ 20 * msC then s.now - a else g.syncPeriod
      | none => g.syncPeriod
    let use := if t = 0 then 8000000 else t
    let s : State := if g.syncLost then s.raiseUnit 1 0x39 0xFFF 0x0A (wScan + 4) [] else s
    (s.onSign (fun g => { g with syncLost := false, lastEdge := some s.now, syncPeriod := t })).syncFrames (3 * s.now) (3 * use))

/-- SIGN_SYNC_LOST: no active edge within 2 T, or within 40 ms after the scan starts (R307). -/
def execSignSyncLost (dt : Dt) (s : State) : Res :=
  let s := s.tick dt
  let g := s.sign
  let due := match g.lastEdge with
    | some a => decide (a + 2 * (if g.syncPeriod = 0 then 8000000 else g.syncPeriod) ≤ s.now)
    | none => decide (g.startAt + 40 * msC ≤ s.now)
  .next (if s.runs .m && g.run && g.cfg.syncSrc == 1 && !g.syncLost && due then
      (s.onSign (fun g => { g with syncLost := true })).raiseUnit 1 0x39 0xFFF 0x0A (wScan + 4) []
    else s)

/-! ## Buffers and swap (R308-R310) -/

/-- When the next row slot begins, in thirds of a CCLK cycle: slots of L follow from the start of their frame, and frames of F from the
sync event (R302, R304). -/
def Sign.slotDue (g : Sign) : Nat := (g.syncAt.getD 0) + aux3 (g.frameOfPeriod * g.frameLen + g.row * g.slotLen)

/-- A pending swap has its boundary: a scan frame starts in this cycle, and a bound one has reached its HCN (R309). -/
def State.swapDue (s : State) : Bool :=
  let g := s.sign
  g.run && g.swapPend && g.inFrame && g.row == 0 && s.atThird g.slotDue && (!g.swapAtHcn || (s.tb.running && decide (g.swapHcn ≤ s.tb.hcn)))

/-- The swap: FRONT toggles and the copy into the new back buffer begins (R310). -/
def Sign.swap (g : Sign) : Sign := { g with front := !g.front, swapPend := false, swapAtHcn := false, backReady := false }

/-- SWAP_BOUNDARY. -/
def execSwapBoundary (dt : Dt) (s : State) : Res :=
  let s := s.tick dt
  .next (if s.swapDue && s.runs .m then s.onSign Sign.swap else s)

/-- BACK_COPY_DONE: the new back buffer holds what is on display (R310). -/
def execBackCopyDone (dt : Dt) (s : State) : Res :=
  let s := s.tick dt
  .next (if !s.sign.run || s.sign.backReady || !s.runs .m then s else
    s.onSign (fun g =>
      let a := 1024 * b2n g.front
      let b := 1024 - a
      let front := g.pix.filter (fun e => decide (a ≤ e.1 ∧ e.1 < a + 1024))
      { g with
        backReady := true
        pix := front.foldl (fun t e => tset 0 t (b + (e.1 - a)) e.2) front }))

/-- Bytes of a buffer write; bytes of columns 50 and above are reserved (R308, 00 R11). -/
def pixWrite (t : Tbl Nat) (base off : Nat) (data : List Nat) : Tbl Nat :=
  (data.zip (rangeFrom off data.length)).foldl (fun t e => if e.2 % 64 < 50 then tset 0 t (base + e.2) (e.1 % 256) else t) t

/-! ## Row slots and measurement (R302, R312-R316) -/

/-- ROW_SLOT_START: at its time failed cells are replaced, and the next row of the frame is driven from the front buffer (R302, R313,
R319). A new frame of the period starts when the one before it has no row left. -/
def execRowSlotStart (dt : Dt) (s : State) : Res :=
  let s := s.tick dt
  .next (if !s.runs .m || !s.sign.run || !s.sign.inFrame || !s.atThird s.sign.slotDue then s else
    let s := s.slotOver
    let s : State := if s.sign.row = 0 ∧ 0 < s.sign.frameOfPeriod then s.frameStart else s
    let s : State := if s.swapDue then s.onSign Sign.swap else s
    let s := s.cellsReplaced
    let g := s.sign
    let r := g.row
    let due := g.slotDue
    let last := decide (g.cfg.nrows ≤ r + 1)
    let more := decide (g.frameOfPeriod + 1 < g.perPeriod)
    let s := s.onSign (fun g => { g with
      slot := some (r, due, due + aux3 g.slotLen)
      row := if last then 0 else r + 1
      frameOfPeriod := if last then g.frameOfPeriod + 1 else g.frameOfPeriod
      inFrame := !last || more })
    if s.pow.signHiZ then s else 
      s.emit (.row r (g.cfg.selects (some r)) (if g.probeFrame then (rangeFrom 0 50).map (fun c => g.probeCurrent r c) else [])
        ((rangeFrom 0 50).map (fun c => g.current r c))))

/-- What one measurement reads: 0 pass, 1 open, 2 short; the voltage in units of 0.05 V (R312). -/
def ledReads (thr volt : Nat) : Nat := if volt < 5 then 1 else if 30 + 10 * thr < volt then 2 else 0

/-- A position's history after a measurement (R314). -/
def Led.take (x : Led) (frame reads : Nat) : Led :=
  let o := if reads = 1 then min 3 (x.openRun + 1) else 0
  let h := if reads = 2 then min 3 (x.shortRun + 1) else 0
  let p := if reads = 0 then min 3 (x.passRun + 1) else 0
  { openRun := o, shortRun := h, passRun := p, lastFrame := frame
    shorted := if h = 3 then true else if p = 3 then false else x.shorted
    st := if o = 3 then 2 else if h = 3 then 3 else if p = 3 then 1 else x.st }

/-- One measurement of a position: its state changes, each declared one being recorded and notified (R314). A position that has expired to
NOT_MEASURED and is declared OK has returned from neither OPEN nor SHORT, and makes nothing (DESIGN CHOICE, log entry 63). -/
def State.ledMeasured (s : State) (r : Nat) (probe : Bool) (x : LedRead) : State :=
  let g := s.sign
  if !(g.windowFits && if probe then g.driven r x.col && !g.lost x.col else g.measurable r x.col) then s else
  let reads := ledReads g.cfg.shortThr x.volt
  let old := g.led r x.col
  let new := old.take g.frameNo reads
  let k := 50 * r + x.col
  let s := s.onSign (fun g => { g with
    leds := tset {} g.leds k new
    probeOpen := if probe && reads == 1 then g.probeOpen ++ [k] else g.probeOpen
    probePass := if probe && reads == 0 then g.probePass ++ [k] else g.probePass })
  if new.st = old.st ∨ (new.st = 1 ∧ old.st = 0) then s else
  let kind := if new.st = 2 then 0 else if new.st = 3 then 1 else 2
  (s.raiseHw 1 0x39 0xFFF 0x0A01 [r, x.col, kind]).signNote kind r x.col 255 255 0

/-- Every populated position of a row has read open in this probe frame (R316). -/
def Sign.openRow (g : Sign) (r : Nat) : Bool :=
  let l := (rangeFrom 0 g.cfg.ncol).filter (fun c => g.driven r c)
  !l.isEmpty && l.all (fun c => g.probeOpen.contains (50 * r + c))

/-- Every populated position of a column has read open in this probe frame (R318). -/
def Sign.openCol (g : Sign) (c : Nat) : Bool :=
  let l := (rangeFrom 0 g.cfg.nrows).filter (fun r => g.driven r c)
  !l.isEmpty && l.all (fun r => g.probeOpen.contains (50 * r + c))

/-- The verdicts of a probe frame as its readings come: a row that reads open while another one passes makes its ROW_OPEN, once, and the
cell of a column that reads open awaits its test in the next sync guard (R316, R318, R320). -/
def State.probeVerdicts (s : State) : State :=
  let g := s.sign
  let rows := rangeFrom 0 g.cfg.nrows
  let bad := rows.filter (fun r => !g.rowTold.contains r && g.openRow r && g.probePass.any (fun k => k / 50 != r))
  let suspects := (rangeFrom 0 g.cfg.ncol).filterMap (fun c =>
    if g.openCol c then (g.cellOf c).map (fun x => (⟨x, c, true⟩ : CellTest)) else none)
  let s := s.onSign (fun g => { g with
    rowTold := g.rowTold ++ bad
    tests := g.tests ++ suspects.filter (fun t => !(g.tests.any (fun u => u.cell == t.cell))) })
  bad.foldl (fun s r => (s.raiseHw 1 0x39 0xFFF 0x0A02 [r]).signNote 3 r 255 255 255 0) s

/-- When a measurement of the slot under way is taken: at its end, or at the end of the 4 µs of its probe (R302, R312, R313). -/
def Sign.measureAt (g : Sign) (probe : Bool) (st en : Nat) : Nat := if probe then st + aux3 (g.cfg.driveAt + 192) else en

/-- LED_MEASURE: the measurement of a row slot, or of its probe in a probe frame (R312, R313, R316, R318). -/
def execLedMeasure (dt : Dt) (probe : Bool) (reads : List LedRead) (s : State) : Res :=
  let s := s.tick dt
  .next (if !s.runs .m || !s.sign.run || (probe && !s.sign.probeFrame) then s else
    match s.sign.slot with
    | none => s
    | some (r, st, en) =>
      if !s.atThird (s.sign.measureAt probe st en) then s
      else
        let s := reads.foldl (fun s x => s.ledMeasured r probe x) s
        if probe then s.probeVerdicts else s)

/-! ## The scan's start and the HCN edge -/

/-- What a stopped sink array keeps: the assignment of its cells, its exclusions and the cells that await a test, which only R319, R320, a
command or TEST RETURN change (R321; 18 R562; log entry 48). -/
def Sign.kept (g : Sign) : Sign := { excl := g.excl, cells := g.cells, dead := g.dead, failed := g.failed, tests := g.tests }

/-- The assignment at the scan's start: columns 0 to NCOL - 1 are driven; one without a cell takes its own where that is free, else the
lowest-numbered spare (R298). -/
def Sign.assigned (g : Sign) (ncol : Nat) : Sign :=
  let g := (rangeFrom ncol (50 - ncol)).foldl (fun g c => { g with dead := setBit g.dead c false })
    { g with cells := g.cells.filter (fun e => decide (e.1 < ncol)), failed := g.failed.filter (fun e => decide (e.1 < ncol)) }
  (rangeFrom 0 ncol).foldl (fun g c =>
    if (g.cellOf c).isSome || bit g.dead c then g
    else g.connect c (if g.spares.contains c then some c else g.spares.head?)) g

/-- The M-region's start: both buffers hold the default frame, the driven columns have their cells, and the scan starts (R298, R306, R311,
R321, R331). -/
def State.signStart (s : State) : State :=
  let c := s.nv.signCfg
  let frame := s.nv.defaultFrame.getD []
  s.onSign (fun old => { old.kept.assigned c.ncol with
    cfg := c
    backReady := true
    run := true
    freeRun := c.syncSrc == 0
    pix := frame.foldl (fun t e => tset 0 t (1024 + e.1) e.2) frame
    staged := frame
    startAt := s.now })

/-- The scan at an HCN edge: under HCN it is a sync event (R303). -/
def State.signEdge (s : State) : State := s.onSign (fun g => { g with edgeDue := g.run && g.cfg.syncSrc == 0 })

/-! ## Registers -/

/-- SINK_STAT (table). -/
def Sign.sinkStat (g : Sign) : Nat :=
  let l := g.spares
  pack [(24, 8, g.failCnt), (12, 6, l.getD 1 63), (6, 6, l.getD 0 63), (0, 2, min 2 l.length)]

/-- SINK_COL_c (table). -/
def State.sinkCol (s : State) (c : Nat) : Nat :=
  pack [(14, 1, b2n (bit s.sign.dead c)), (8, 6, (s.sign.cellOf c).getD 63), (0, 6, s.cfgAt 4 (s.nv.signCfg.trim c))]

/-- SCAN_STAT (table). -/
def Sign.scanStat (g : Sign) : Nat :=
  pack [(24, 8, g.cutCnt), (7, 1, b2n g.divCut), (6, 1, b2n g.syncLost), (5, 1, b2n g.freeRun), (4, 1, b2n g.backReady),
    (3, 1, b2n g.swapPend), (1, 1, b2n g.run), (0, 1, b2n g.front)]

/-- SCAN_SWAP_LO and _HI as one word. -/
def Sign.swapReg (g : Sign) : Nat := pack [(48, 1, b2n (g.swapPend && g.swapAtHcn)), (0, 48, g.swapHcn)]

/-- The bits of a row where a position's state satisfies a test. -/
def Sign.ledBits (g : Sign) (r : Nat) (p : Nat → Bool) : Nat :=
  (rangeFrom 0 50).foldl (fun t c => if p (g.ledState r c) then t + 2 ^ c else t) 0

/-- The fault block of a row: OPEN, SHORT, MEAS, POP (table "Fault block word pair"). -/
def State.faultBlock (s : State) (r : Nat) : List Nat :=
  [s.sign.ledBits r (· == 2), s.sign.ledBits r (· == 3), s.sign.ledBits r (· != 0), s.cfgAt 4 (tget 0 s.nv.signCfg.pop r).toNat]

/-! ## The SIGN group, local part -/

/-- Change the stored sign configuration; the scan takes it at the next frame boundary (R331, R374). -/
def State.onSignCfg (s : State) (f : SignCfg → SignCfg) : State := s.onNv (fun v => { v with signCfg := f v.signCfg })

/-- SIGN CFG_SET. -/
def execSignCfgSet (r : Req) (cfg : BitVec 32) (gcur : Nat) (s : State) : Res :=
  hostCmd { cmd := 0x0A03, need := .configure } r (fun _ t =>
    let c : SignCfg := { scan := setFld cfg 18 1 0 }
    checked [(decide (c.syncSrc = 3 ∨ c.ncol = 0 ∨ 50 < c.ncol ∨ c.blank < 4 ∨ 64 < c.blank ∨ 255 < gcur), .range)]
      (.ok [] (t.onSignCfg (fun d => { d with scan := c.scan, gcur := gcur })))) s

/-- SIGN TRIM_SET. -/
def execSignTrimSet (r : Req) (first : Nat) (trims : List Nat) (s : State) : Res :=
  hostCmd { cmd := 0x0A04, need := .configure } r (fun _ t =>
    checked [(decide (50 < first + trims.length) || trims.any (fun v => decide (63 < v)), .range)]
      (.ok [] (t.onSignCfg (fun c => { c with trims := tsetAll 32 c.trims first trims })))) s

/-- SIGN POP_SET (R317). -/
def execSignPopSet (r : Req) (row : Nat) (pop : BitVec 64) (s : State) : Res :=
  hostCmd { cmd := 0x0A05, need := .configure } r (fun _ t =>
    checked [(decide (15 < row), .range)]
      (.ok [] (t.onSignCfg (fun c => { c with pop := tset 0 c.pop row (BitVec.ofNat 50 pop.toNat) })))) s

/-- SIGN DEFAULT_SET: bytes are staged, and COMMIT stores the staged frame in MRAM (R374). -/
def execSignDefaultSet (r : Req) (offset : Nat) (commit : Bool) (data : List Nat) (s : State) : Res :=
  hostCmd { cmd := 0x0A06, need := .configure } r (fun _ t =>
    checked [(decide (1024 < offset + data.length), .range)]
      (let u := t.onSign (fun g => { g with staged := pixWrite g.staged 0 offset data })
       .ok [] (if commit then u.onNv (fun v => v.setDefaultFrame u.sign.staged) else u))) s

/-- SIGN FAULT_READ: a row's fault block, or all (R314). -/
def execSignFaultRead (r : Req) (row : Nat) (s : State) : Res :=
  hostCmd { cmd := 0x0A08, need := .read } r (fun _ t =>
    let rows := if row = 255 then rangeFrom 0 16 else [row]
    checked [(decide (15 < row ∧ row ≠ 255), .range)]
      (.ok (rows.flatMap (fun q => (t.faultBlock q).map (fun v => (v, 8)))) t)) s

/-- SIGN CELL_SET: a spare takes a column at the next frame boundary (R321, R374). -/
def execSignCellSet (r : Req) (col cell : Nat) (s : State) : Res :=
  hostCmd { cmd := 0x0A0A, need := .configure } r (fun _ t =>
    checked [(decide (t.sign.cfg.ncol ≤ col ∨ 49 < cell), .range), (!t.sign.spares.contains cell, .state)]
      (.ok [] (t.onSign (fun g => { g with cellNext := g.cellNext.filter (fun e => e.1 != col) ++ [(col, cell)] })))) s

/-- SIGN COLS_READ (R331). -/
def execSignColsRead (r : Req) (s : State) : Res :=
  hostCmd { cmd := 0x0A0B, need := .read } r (fun _ t => .ok ((rangeFrom 0 50).map (fun c => (t.sinkCol c, 4))) t) s

end Sys2Proof.Machine
end

