-- ==== Sys2Proof/Machine/Sbus.lean ====
section
/-!
DEFINITION. The sign bus (09 R322-R330): frames, the transactions of each port and their retries, FAULT; and the SIGN group's
commands that reach remote drivers (11 R372, R373).
-/
namespace Sys2Proof.Machine

/-- A port. -/
def State.port (s : State) (p : Nat) : SbusPort := tget {} s.sbus p

/-- Change a port. -/
def State.onPort (s : State) (p : Nat) (g : SbusPort → SbusPort) : State := { s with sbus := tmod {} s.sbus p g }

/-- The bytes of a request frame (R323, R324). -/
def sbusFrame (addr cmd seq : Nat) (pay : List Nat) : List Nat :=
  let b := [addr % 64, cmd % 256, seq % 256, pay.length] ++ pay
  b ++ leBytes 2 (crc16 b)

/-- The characters of a frame on the line: a start bit 0, the 8 data bits with bit 0 first, a stop bit 1 (R322). -/
def sbusLine (frame : List Nat) : List Bool := frame.flatMap (fun b => false :: (rangeFrom 0 8).map (fun i => b / 2 ^ i % 2 == 1) ++ [true])

/-- SBUSp_DE at a time (R322). -/
def SbusPort.deAt (x : SbusPort) (t : Nat) : Bool := decide (x.de.1 ≤ t ∧ t < x.de.2)

/-- A transmission starts on a port, at 10 µs a character: it has had no mismatch yet; the one before it ends a run of echo failures if
it had none (R322, R329). DE is raised at least 1 µs before it, within the idle time that R323 wants, and falls 1 to 2 µs after it, at times that are
free within these bounds. -/
def State.transmit (s : State) (p : Nat) (addr cmd : Nat) (pay : List Nat) : State :=
  let q := (s.port p).seq
  let (a, s) := s.draw 4401
  let (b, s) := s.draw 401
  let en := s.now + (6 + pay.length) * us10C
  let frame := sbusFrame addr cmd q pay
  (s.onPort p (fun x => { x with
    seq := (q + 1) % 256, echoRun := if x.txOk then 0 else x.echoRun, txOk := true
    lineEnd := en, de := (s.now - 400 - a, en + 400 + b) })).emit (.sbus p frame (sbusLine frame))

/-- The payload of SYNC (table "Sign-bus commands"). -/
def State.syncPay (s : State) : List Nat :=
  leBytes 4 s.tb.hcn ++ [pack [(0, 1, fld s.tb.flags 0 1), (1, 1, fld s.tb.flags 1 1)]]

/-- SYNC is due on a port: once per HCN, and in FAULT once per 256 (R326, R329). -/
def State.syncDue (s : State) (p : Nat) : Bool :=
  let x := s.port p
  match x.syncHcn with
  | none => true
  | some h => if x.fault then decide (h + 256 ≤ s.tb.hcn) else h != s.tb.hcn

/-- 20 µs ± 0.5 µs after an HCN edge, outside HOLD (R326). -/
def State.syncTime (s : State) : Bool :=
  s.tb.running && s.tb.st != .hold && decide (s.tb.lastEdge + 7800 ≤ s.now ∧ s.now ≤ s.tb.lastEdge + 8200)

/-- SBUS_SYNC_SEND: 20 µs after an edge SYNC goes out on the ports (R326, R329). -/
def execSbusSyncSend (dt : Dt) (s : State) : Res :=
  let s := s.tick dt
  .next (if !s.runs .m || !s.syncTime || s.pow.signHiZ then s else
    (rangeFrom 0 4).foldl (fun s p =>
      if s.syncDue p then
        (s.transmit p 0 1 s.syncPay).onPort p (fun x => { x with syncHcn := some s.tb.hcn, syncPass := x.fault })
      else s) s)

/-! ## Transactions (R327, R328) -/

/-- The longest response of a command in characters: header, STATUS, its payload, CRC. -/
def longestResp (cmd : Nat) (pay : List Nat) : Nat :=
  match cmd with
  | 2 | 3 | 6 | 8 | 9 => 7
  | 4 => 13
  | 5 => 7 + pay.getD 2 200
  | 7 => 17
  | _ => 246

/-- A transaction's worst case, in CCLK cycles: 10 µs a character and 100 µs of turnaround (R327). -/
def SbusTx.worst (x : SbusTx) : Nat := (6 + x.pay.length + longestResp x.cmd x.pay) * us10C + 10 * us10C

/-- The next present address of the round robin from `a` on that has not been polled yet. -/
def nextPresent (pres : BitVec 64) (polled : List Nat) (a : Nat) : Option Nat :=
  ((rangeFrom 1 63).filter (fun x => decide (a ≤ x)) ++ (rangeFrom 1 63).filter (fun x => decide (x < a))).find?
    (fun x => bit pres x && !polled.contains x)

/-- A STATUS poll or an IDENT of the module's own. -/
def pollTx (a : Nat) : SbusTx := { daddr := a, cmd := 4, pay := [] }
def identTx (a : Nat) : SbusTx := { daddr := a, cmd := 7, pay := [] }

/-- An absent address whose last IDENT is 256 half-cycles past, when this half-cycle has had no IDENT (R327). -/
def State.identDue (s : State) (p : Nat) : Option Nat :=
  let x := s.port p
  if x.identHcn = some s.tb.hcn then none
  else (rangeFrom 1 63).find? (fun a => !bit x.pres a && (match tget none x.identAt a with
    | some h => decide (h + 256 ≤ s.tb.hcn)
    | none => true))

/-- The transaction that a port starts next, and the port with it taken (R327, R329): a retry first, then the order of R327. A
half-cycle polls each present driver at most once, so that it reaches the absent ones (log entry 45). -/
def State.nextTx (s : State) (p : Nat) : Option (SbusTx × SbusPort) :=
  let x := s.port p
  let h := s.tb.hcn
  let polled := if x.pollHcn = some h then x.polled else []
  let poll := fun (_ : Unit) => (nextPresent x.pres polled x.pollNext).map (fun a =>
    (pollTx a, { x with pollNext := a % 63 + 1, pollHcn := some h, polled := a :: polled }))
  let ident := fun (a : Nat) => (identTx a, { x with identHcn := some h, identAt := tset none x.identAt a (some h) })
  if x.fault then
    (if x.syncHcn = some h ∧ x.identHcn ≠ some h then
      some (ident ((s.identDue p).getD (((rangeFrom 1 63).find? (fun a => !bit x.pres a)).getD 1))) else none)
  else match x.retry with
    | some t => some (t, { x with retry := none })
    | none =>
      match if (match x.pollHcn with | some j => decide (j + 16 < h) | none => true) then poll () else none with
      | some r => some r
      | none =>
        match x.queue with
        | t :: rest => some (t, { x with queue := rest })
        | [] =>
          match poll () with
          | some r => some r
          | none => (s.identDue p).map ident

/-- A port can start a frame: it awaits no response, and its line has been idle for 12 bit times (R323). -/
def SbusPort.idleAt (x : SbusPort) (now : Nat) : Bool := x.cur.isNone && decide (x.lineEnd + 4800 ≤ now)

/-- SBUS_TRANSACTION: an idle port that has sent SYNC in this half-cycle starts its next transaction, if its worst case ends 100
µs before the next predicted edge (R327). -/
def execSbusTransaction (dt : Dt) (port : Nat) (s : State) : Res :=
  let s := s.tick dt
  .next (if 3 < port || !s.runs .m || s.pow.signHiZ || !(s.port port).idleAt s.now || (s.port port).syncHcn != some s.tb.hcn then s
  else match s.nextTx port with
  | none => s
  | some (t, x) =>
    if s.tb.lastEdge + s.tb.period < s.now + t.worst + 10 * us10C then s else
    let q := x.seq
    (s.onPort port (fun _ => { x with cur := some ({ t with attempt := t.attempt + 1 }, q) })).transmit port t.daddr t.cmd t.pay)

/-- The VXC status of a driver's STATUS; a value the table does not list is free (R372). -/
def driverStatus (v free : Nat) : Status :=
  let l : List Status := [.ok, .badCmd, .length, .range, .busy, .late]
  l.getD (if v < 6 then v else free % 6) .ok

/-- NLATE and the drivers it counts (R373). -/
def lateList (l : List (Nat × Nat)) : Payload := (l.length, 1) :: l.flatMap (fun d => [(d.1, 1), (d.2, 1)])

/-- All drivers of an immediate SWAP have answered or failed: its request is answered (R373). -/
def State.remDone (s : State) (id : Nat) : State :=
  match s.remSwaps.find? (fun r => r.id == id) with
  | none => s
  | some r =>
    if r.t.isSome || !r.wait.isEmpty then s else
    let s := { s with remSwaps := s.remSwaps.filter (fun x => x.id != id) }
    s.answer ⟨r.ses, r.seq⟩ 0x0A02 (if r.late.isEmpty then .ok else .timeout)
      (if r.late.isEmpty then [] else lateList r.late)

/-- A driver's SWAP ended: it answered, or its attempts are over (R330, R373). -/
def State.remAnswer (s : State) (id p a : Nat) (ok answered : Bool) : State :=
  ({ s with remSwaps := s.remSwaps.map (fun (r : RemSwap) =>
      if r.id != id then r
      else if r.t.isSome then (if ok then { r with wait := r.wait.filter (fun d => d != (p, a)) } else r)
      else { r with wait := r.wait.filter (fun d => d != (p, a)), late := if answered then r.late else r.late ++ [(p, a)] }) }).remDone id

/-- An address becomes present or absent: one event record and one notification (R328). -/
def State.presence (s : State) (p a : Nat) (on : Bool) : State :=
  if bit (s.port p).pres a == on then s
  else
    let s := s.onPort p (fun x => { x with pres := setBit x.pres a on })
    (s.raiseUnit 1 0x3A p 0x0A (wSbus + 16 * p) [(p, 1), (a, 1), (b2n on, 1)]).signNote 6 255 255 p a 0

/-- A port leaves FAULT (R329). -/
def State.portHeals (s : State) (p : Nat) : State :=
  ((s.onPort p (fun x => { x with fault := false, echoRun := 0, syncPass := false })).raiseUnit 1 0x3A p 0x0A (wSbus + 16 * p) [(p, 1)]).signNote
    5 255 255 p 255 0

/-- A failed attempt counts (R328, R329). -/
def State.attemptCounted (s : State) (p : Nat) : State :=
  let (n, st) := bump 255 (s.port p).timeouts
  ((s.onPort p (fun x => { x with timeouts := n, cur := none })).addTotal (wSbus + 16 * p) 16 1).stuckIf st (wSbus + 16 * p) 16

/-- A transaction of the host has failed: its request ends with TIMEOUT, or its driver is late (R328, R330, R373). -/
def State.txLost (s : State) (p : Nat) (t : SbusTx) : State :=
  match t.host, t.swapOf with
  | some (ses, seq, cmd), _ => s.answer ⟨ses, seq⟩ cmd .timeout [(0, 4)]
  | none, some id => s.remAnswer id p t.daddr false false
  | none, none => s

/-- An attempt fails (R328): it is counted, and retried up to twice, or the transaction fails. -/
def State.attemptFails (s : State) (p : Nat) (t : SbusTx) : State :=
  let s := s.attemptCounted p
  if t.attempt < 3 ∧ (s.port p).fault = false then s.onPort p (fun x => { x with retry := some t })
  else
    let runs := tget 0 (s.port p).failRun t.daddr + 1
    let s := s.onPort p (fun x => { x with failRun := tset 0 x.failRun t.daddr (min 3 runs) })
    (if 3 ≤ runs then s.presence p t.daddr false else s).txLost p t

/-- A port enters FAULT, where it sends nothing of the host's: the transactions that wait there are lost (R329; DESIGN CHOICE, log entry 45). -/
def State.portFails (s : State) (p : Nat) : State :=
  let x := s.port p
  let s := ((s.onPort p (fun x => { x with fault := true, retry := none, queue := [], syncPass := false })).raiseUnit 1 0x3A p 0x0A (wSbus + 16 * p)
    [(p, 1)]).signNote 5 255 255 p 255 0
  (x.retry.toList ++ x.queue).foldl (fun s t => s.txLost p t) s

/-- A transaction succeeds (R325, R328, R372, R373): DSTAT of a poll is recorded when it changes to a value with a bit set, an
IDENT makes its address present, and whoever waits is answered. -/
def State.txDone (s : State) (p : Nat) (t : SbusTx) (fr : SbusFrame) : State :=
  let s := s.onPort p (fun x => { x with cur := none, failRun := tset 0 x.failRun t.daddr 0 })
  let s := if t.cmd = 7 ∧ t.daddr ≠ 0 then s.presence p t.daddr true else s
  let s := if t.cmd = 4 ∧ fr.status = 0 then
      let d := ofBytes (fr.pay.take 2)
      let old := tget 0 (s.port p).dstat t.daddr
      let s := s.onPort p (fun x => { x with dstat := tset 0 x.dstat t.daddr d })
      if d ≠ old ∧ d ≠ 0 then (s.raiseUnit 1 0x3A p 0x0A (wSbus + 16 * p) [(p, 1), (t.daddr, 1), (d, 2)]).signNote 6 255 255 p t.daddr d else s
    else s
  match t.host, t.swapOf with
  | some (ses, seq, cmd), _ =>
    let (v, s) := s.draw 6
    let st := driverStatus fr.status v
    if st = .ok then s.answer ⟨ses, seq⟩ cmd st (if cmd = 0x0A09 then fr.pay.map (fun b => (b, 1)) else [])
    else
      let (q, s) := s.refusalPay st 0
      s.answer ⟨ses, seq⟩ cmd st q
  | none, some id => s.remAnswer id p t.daddr (fr.status == 0) true
  | none, none => s

/-- In FAULT: the IDENT now on the line has passed its echo check, and so had the SYNC before it (R329). -/
def SbusPort.identPasses (x : SbusPort) (t : SbusTx) : Bool := x.fault && x.syncPass && t.cmd == 7

/-- A response of `n` characters may end now: its first start bit comes at most 150 µs after the request, and at most 2 bit times part two
characters (R323, R328). -/
def SbusPort.mayEnd (x : SbusPort) (now n : Nat) : Bool :=
  decide (x.lineEnd + n * us10C ≤ now ∧ now ≤ x.lineEnd + 15 * us10C + n * (us10C + 800))

/-- SBUS_RESPONSE: a response is checked against its request (R323, R328). -/
def execSbusResponse (dt : Dt) (port : Nat) (fr : SbusFrame) (s : State) : Res :=
  let s := s.tick dt
  .next (if 3 < port || !s.runs .m then s else
  match (s.port port).cur with
  | none => s
  | some (t, q) =>
    if !(s.port port).mayEnd s.now (7 + fr.pay.length) then s else
    let s := s.onPort port (fun x => { x with lineEnd := s.now })
    let s : State := if (s.port port).identPasses t then s.portHeals port else s
    if !fr.crcOk then
      let (n, st) := bump 255 (s.port port).crcErr
      let s := (s.onPort port (fun x => { x with crcErr := n })).addTotal (wSbus + 16 * port) 8 1
      (s.stuckIf st (wSbus + 16 * port) 8).attemptFails port t
    else if fr.cmd ≠ t.cmd ∨ fr.seq ≠ q then s.attemptFails port t
    else s.txDone port t fr)

/-- SBUS_RESPONSE_TIMEOUT: no start bit within 150 µs (R328). An IDENT in FAULT has then passed its echo check (R329). -/
def execSbusResponseTimeout (dt : Dt) (port : Nat) (s : State) : Res :=
  let s := s.tick dt
  .next (if 3 < port || !s.runs .m then s else
  match (s.port port).cur with
  | none => s
  | some (t, _) =>
    if s.now < (s.port port).lineEnd + 15 * us10C then s else
    let s : State := if (s.port port).identPasses t then s.portHeals port else s
    s.attemptFails port t)

/-- SBUS_ECHO_MISMATCH: the frame being sent is aborted, DE drops, and a failed attempt counts, of SYNC as well; the sixteenth in a row puts the
port in FAULT (R329). -/
def execSbusEchoMismatch (dt : Dt) (port : Nat) (s : State) : Res :=
  let s := s.tick dt
  .next (if 3 < port || !s.runs .m || !(s.port port).txOk || decide ((s.port port).lineEnd ≤ s.now) then s else
    let (n, st) := bump 255 (s.port port).echoFail
    let s := s.onPort port (fun x => { x with echoFail := n, txOk := false, echoRun := x.echoRun + 1, syncPass := false, lineEnd := s.now, de := (x.de.1, s.now) })
    let s := (s.addTotal (wSbus + 16 * port) 24 1).stuckIf st (wSbus + 16 * port) 24
    let s : State := match (s.port port).cur with
      | some (t, _) => s.attemptFails port t
      | none => s.attemptCounted port
    if 16 ≤ (s.port port).echoRun ∧ (s.port port).fault = false then s.portFails port else s)

/-! ## The SIGN group, remote part -/

/-- SBUS_STAT_p (table). -/
def SbusPort.stat (x : SbusPort) : Nat :=
  pack [(24, 8, x.echoFail), (16, 8, x.timeouts), (8, 8, x.crcErr), (7, 1, b2n x.fault),
    (0, 6, ((rangeFrom 1 63).filter (fun a => bit x.pres a)).length)]

/-- Queue a transaction of the host on a port. -/
def State.sbusQueue (s : State) (p : Nat) (t : SbusTx) : State := s.onPort p (fun x => { x with queue := x.queue ++ [t] })

/-- SIGN WRITE: into the local back buffer, or through sign-bus WRITE (R308, R309, R372). -/
def execSignWrite (r : Req) (dest daddr offset : Nat) (data : List Nat) (s : State) : Res :=
  hostCmd { cmd := 0x0A01, need := .operate } r (fun w t =>
    let g := t.sign
    if dest = 0 then
      checked [(decide (1024 < offset + data.length), .range), (g.swapPend || !g.backReady, .busy)]
        (.ok [] (t.onSign (fun g => { g with pix := pixWrite g.pix (1024 - 1024 * b2n g.front) offset data })))
    else
      checked [(decide (4 < dest ∨ daddr = 0 ∨ 63 < daddr), .range), ((t.port (dest - 1)).fault, .state),
          (decide (data.length = 0 ∨ 236 < data.length), .range)]
        (.later (t.sbusQueue (dest - 1)
          { daddr := daddr, cmd := 2, pay := leBytes 2 offset ++ data, host := some (w.ses, w.seq, 0x0A01) }))) s

/-- SIGN BUS: a raw transaction; SYNC is the module's alone (R374). -/
def execSignBus (r : Req) (port daddr scmd : Nat) (pay : List Nat) (s : State) : Res :=
  hostCmd { cmd := 0x0A09, need := .operate } r (fun w t =>
    checked [(decide (3 < port ∨ 63 < daddr), .range), (scmd == 1 || (t.port port).fault, .state),
        (decide (240 < pay.length ∨ 255 < scmd), .range)]
      (.later (t.sbusQueue port { daddr := daddr, cmd := scmd, pay := pay, host := some (w.ses, w.seq, 0x0A09) }))) s

/-- A sign-bus SWAP for each driver named whose port is not in FAULT (R329). -/
def State.swapRemote (s : State) (mode target : Nat) (rem : List (Nat × Nat)) (id : Option Nat) : State :=
  (rem.filter (fun d => !(s.port d.1).fault)).foldl (fun s d => s.sbusQueue d.1 { daddr := d.2, cmd := 3, pay := mode :: leBytes 4 target, swapOf := id }) s

/-- The pending local swap is cancelled; a bound one that has not reached its HCN completes with DISCARDED (R309, R373). Its
remote drivers keep theirs. -/
def State.swapCancel (s : State) : State :=
  let mine := fun (a : Action) => match a.what with | .signSwap true _ => true | _ => false
  let gone := s.acts.filter mine
  let s := { s with
    acts := s.acts.filter (fun a => !mine a)
    remSwaps := s.remSwaps.filter (fun r => !(gone.any (fun a => a.ses == r.ses && a.seq == r.seq))) }
  let s := s.onSign (fun g => { g with swapPend := false, swapAtHcn := false })
  gone.foldl (fun s a => s.complete a.ses a.seq a.cmd .discarded []) s

/-- SIGN SWAP (R309, R330, R373). -/
def execSignSwap (r : Req) (mode tgt : Nat) (loc : Bool) (rem : List (Nat × Nat)) (s : State) : Res :=
  hostCmd { cmd := 0x0A02, need := .operate } r (fun w t =>
    let bad := decide (2 < mode) || rem.any (fun d => decide (3 < d.1 ∨ d.2 = 0 ∨ 63 < d.2))
    let busy := loc && t.sign.swapPend
    match mode with
    | 1 =>
      checked ([(bad || t.badTgt tgt, .range)] ++ t.lateTgt tgt (if rem.isEmpty then 4 else 64) ++ [(busy || t.actsFull, .busy)])
        (let id := t.order
         let u : State := t.bind tgt w 0x0A02 (.signSwap loc rem)
         let u : State := if loc then u.onSign (fun g => { g with swapPend := true, swapAtHcn := true, swapHcn := tgt }) else u
         let u : State := if rem.isEmpty then u else { u with remSwaps := u.remSwaps ++ [(⟨id, some tgt, rem, [], w.ses, w.seq⟩ : RemSwap)] }
         .deferred tgt (u.swapRemote 1 tgt rem (some id)))
    | 0 =>
      checked [(bad, .range), t.needH, (busy, .busy)]
        (let u := if loc then t.onSign (fun g => { g with swapPend := true, swapAtHcn := false }) else t
         let lost := rem.filter (fun d => (t.port d.1).fault)
         if rem.isEmpty then .ok [] u
         else if lost.length = rem.length then .ended .timeout (lateList rem) u
         else
           let u : State := { u with
             remSwaps := u.remSwaps ++ [(⟨u.order, none, rem.filter (fun d => !(t.port d.1).fault), lost, w.ses, w.seq⟩ : RemSwap)]
             order := u.order + 1 }
           .later (u.swapRemote 0 0 rem (some (u.order - 1))))
    | _ =>
      checked [(bad, .range), t.needH]
        (.ok [] ((if loc then t.swapCancel else t).swapRemote 2 0 rem none))) s

/-- At the edge of t - 4, drivers that have not answered OK are the late ones of a bound SWAP (R330). -/
def State.swapLate (s : State) : State :=
  { s with remSwaps := s.remSwaps.map (fun r => if r.t = some (s.tb.hcn + 4) then { r with late := r.wait } else r) }

/-- A bound SWAP at the edge of t: its completion lists the late drivers; the local swap waits for its frame boundary (R309,
R330, R373). -/
def State.swapAction (s : State) (ses seq : Nat) : State :=
  let late := ((s.remSwaps.find? (fun r => r.ses == ses && r.seq == seq)).map RemSwap.late).getD []
  let s := { s with remSwaps := s.remSwaps.filter (fun r => !(r.ses == ses && r.seq == seq)) }
  s.complete ses seq 0x0A02 .ok (lateList late)

/-- SIGN STATUS. -/
def execSignStatus (r : Req) (s : State) : Res :=
  hostCmd { cmd := 0x0A07, need := .read } r (fun _ t =>
    let g := t.sign
    .ok ([(t.cfgAt 4 t.nv.signCfg.gcur, 4), (g.sinkStat, 4), (g.excl.toNat, 8), (t.cfgAt 4 t.nv.signCfg.scan.toNat, 4), (g.scanStat, 4),
        (g.frameLen, 4), (g.slotLen, 4), (g.swapReg, 8)]
      ++ (rangeFrom 0 4).flatMap (fun p => [((t.port p).stat, 4), ((t.port p).pres.toNat, 8)])) t) s

end Sys2Proof.Machine
end

