-- ==== Sys2Proof/Machine/Reset.lean ====
section
/-!
DEFINITION. Resets: of the whole module (19 R578-R580), of one region (01 R43-R45 and the rules of each chapter on restarts), and what
each region takes back from MRAM and from the other regions when it runs again (05 R193, R194; 06 R215; 07 R250; 08 R274, R294,
R295; 14 R446).
-/
namespace Sys2Proof.Machine

/-! ## Module reset (19 R578-R580) -/

/-- Pending actions that a region holds, and those a reset before start-up's end has still to record (02 R90). -/
def State.actsHeld (s : State) (r : Region) : Nat :=
  s.pow.lostActs.get r + (s.acts.filter (fun a => decide (a.what.home = r))).length + (if r = .c then s.sched.cmds.length else 0)

/-- A reset of the module with its CAUSE: the regions, the junction, the fabric and every block are reset and all SRAM is wiped; the
backup domain, MRAM, OTP, flash, the remap tables and the wear records stay (R579). What the supply measures stays measured. -/
def State.moduleReset (s : State) (cause : Nat) : State :=
  { ({} : State) with
    pending := s.pending
    out := s.out
    fresh := s.fresh
    now := s.now
    order := s.order
    bk := s.bk
    nv := s.nv.forgetScenes s.sched.cmds
    sched := { ownStep := if s.bk.step.isSome then s.sched.ownStep else none }
    mem := s.mem.wipe 0 0x10000000
    net := { startAt := s.now }
    pow := { cause := cause, vin := s.pow.vin, bankCap := s.pow.bankCap, holdupOk := s.pow.holdupOk
             lostActs := ⟨s.actsHeld .c, s.actsHeld .d, s.actsHeld .m⟩ } }

/-! ## Cores (01 R27-R32) -/

/-- The members and the spare that a region resumes with (R27). -/
def Voter.form (v : Voter) : Voter :=
  let l := v.good
  { v with
    members := BitVec.ofNat 4 ((l.take 3).foldl (fun m n => m + 2 ^ n) 0)
    spare := l[3]?
    mode := if l.length < 3 then .duplex else .triple
    retire := none }

/-! ## A region's reset (01 R43-R45) -/

/-- The C-region's blocks, SRAM and pending actions: the engine's state is kept by the M-region (05 R194), targets go (06 R215), the
link starts anew, its stages and paths keeping their assignment and exclusions (03 R114; 18 R562). -/
def State.resetC (s : State) : State :=
  let s := s.discardActs .c
  let go := (s.sil.st == .run || s.sil.st == .faulted || s.sil.runNext) && s.sil.stopBy.isEmpty
  let s : State := { s with
    sil := { runNext := go, stopBy := s.sil.stopBy }
    sched := { s.sched with targets := [], limitActs := [] }
    wtx := { s.wtx with atten := [], lastSub := none, checked := none }
    rx := s.rx.map (fun e => (e.1, { rxFail := e.2.rxFail, badType := e.2.badType, badMic := e.2.badMic, badSlot := e.2.badSlot }))
    dspFrames := 0
    blot := { s.blot with bcCfg := 0, sweptAt := [] } }
  let s := (rangeFrom 0 8).foldl (fun s f => s.onFeeder f (fun x =>
    { inactive := x.inactive, rrNow := x.rrNow, rrWas := x.rrWas, rrNext := x.rrNext, dist := x.dist, idle := x.idle, oldGenEvent := x.oldGenEvent, suspAt := x.suspAt })) s
  (s.nodes.map Prod.fst).foldl (fun s a => s.onNode a (fun n => { n with
    known := false, next := none, probe := none, localUntil := none, quarNext := false, quarantined := false, quarFrom := 0
    contention := [], lastDl := s.tb.hcn, lastTurn := s.tb.hcn })) s

/-- A commanded probe's window has begun, and no final result of it exists. -/
def Probe.begun (p : Probe) (h : Nat) : Bool := decide (p.start ≤ h)

/-- The windows that have begun are lost with their results; their requests queue again, but for cancelled ones (08 R295, 11 R371). -/
def State.loseWindows (s : State) : State :=
  let lost := s.blot.probes.filter (fun p => p.begun s.tb.hcn)
  let s := lost.foldl (fun s p =>
    if s.blot.reqs.any (fun q => q.id == p.req && q.quiet) then s.dropReq p.req
    else s.onReq p.req (fun q => { q.ran p.start with start := none, code := 0, retryAt := 0 })) s
  s.onBlot (fun b => { b with
    probes := b.probes.filter (fun p => !p.begun s.tb.hcn)
    plan := b.plan.filter (fun p => !decide (p.1 ≤ s.tb.hcn)) })

/-- What a converter keeps over a D-region restart: its exclusion and its assignment (18 R562); one that shadows or is calibrated is a spare again,
where its rotation begins (DEDUCED, log entry 48). -/
def Conv.keep (e : Nat × Option Conv) : Option (Nat × Option Conv) :=
  match e.2 with
  | some x =>
    let x : Conv := if x.role = .shadow ∨ x.role = .cal then ⟨.spare, if e.1 = 31 then 15 else 0⟩ else x
    if x = convDef e.1 then none else some (e.1, some x)
  | none => none

/-- The D-region's blocks, SRAM and pending actions. Windows in progress and results not final are lost and their requests queue again
(08 R295); a calibration that a host waits for stays due. -/
def State.resetD (s : State) : State :=
  let s := (s.discardActs .d).loseWindows
  { s with
    vxc := { s.vxc with sessions := s.vxc.sessions.map (fun x => { x with sub := x.sub.map (fun u => { u with part := [], wait := [] }) }) }
    meter := { calDue := s.meter.calDue.filter (fun w => w.who.isSome), conv := s.meter.conv.filterMap Conv.keep, infail := s.meter.infail
               failFrom := s.meter.failFrom, failSpans := s.meter.failSpans }
    accord := {}
    pow := { s.pow with pulseHiZ := true }
    blot := { s.blot with
      brCfg := 0, noise := [], corr := [], win := [], failedAt := [], status := [], results := [], fits := [] } }

/-- The M-region's blocks and SRAM; it keeps the residual alarms, taking them back from AC_STAT (08 R273; log entry 37): every session ends, twins are lost, the scan stops with its outputs at high impedance, both MACs,
the node table and the local clock are reset (01 R45, 12 R408, 14 R437, 19 R581). A port's link is the PHY's. -/
def State.resetM (s : State) : State :=
  let s := (s.endAll .restart).discardActs .m
  { s with
    vxc := { netInForce := s.vxc.netInForce, alarms := s.vxc.alarms }
    meter := { s.meter with calDue := s.meter.calDue.map (fun w => { w with who := none }) }
    keys := { s.keys with twins := [], early := [], tamperCnt := 0 }
    net := { ports := (rangeFrom 0 2).foldl (fun t p =>
        let e := s.eport p
        tset {} t p { link := e.link, speed := e.speed }) [], epoch := s.net.epoch + 1 }
    rtc := { lockout := s.rtc.lockout, isolated := s.rtc.isolated, batLow := s.rtc.batLow, rejCnt := s.rtc.rejCnt, rejCause := s.rtc.rejCause }
    sign := s.sign.kept
    sbus := []
    remSwaps := []
    ev := { s.ev with paused := true }
    nvmc := { passAt := s.now }
    pow := { s.pow with drive := 0, signHiZ := true } }

/-- Mailboxes and queues of the junction SRAM whose source or destination is a region, as (first, end) (01, table "Junction SRAM layout");
the event intake is emptied beside them (log entry 23). -/
def junctionOf : Region → List (Nat × Nat)
  | .c => [(0x03000000, 0x03006000), (0x03008000, 0x0300A000), (0x0301C000, 0x03028000)]
  | .d => [(0x03000000, 0x03002000), (0x03004000, 0x03008000), (0x0300A000, 0x0300C000), (0x0301C000, 0x03020000), (0x03028000, 0x0302C000)]
  | .m => [(0x03002000, 0x03004000), (0x03006000, 0x0300C000), (0x03020000, 0x0302C000)]

/-- A region restart begins, with the CAUSE of its record; one already in progress covers it (01 R43, 18 R551). -/
def State.regionReset (s : State) (r : Region) (cause : Nat) : State :=
  if !s.runs r then s else
  let b := bump 15 (s.jnc.regions.get r).restarts
  let v := s.jnc.voters.get r
  let (lo, hi) := sramOf r
  let q := queueOf r
  let s : State := { s with
    mem := (junctionOf r).foldl (fun m e => m.wipe e.1 e.2) (s.mem.wipe lo hi)
    jnc := { s.jnc with
      regions := s.jnc.regions.set r ⟨.load, b.1, s.now⟩
      results := if r = .m then s.jnc.results else []
      resNext := if r = .m then s.jnc.resNext else 0
      voters := s.jnc.voters.set r { v with mode := .restart, disagree := 0, retire := none }
      dma := s.jnc.dma.set r {} } }
  let s := ((s.queueEmptied q).stuckIf b.2 (wJnc + 0x60) (4 * regionNo r)).raise .chip 0x0007 (srcHw 3 0x00 0xFFF) [regionNo r, cause]
  match r with
  | .c => s.resetC
  | .d => s.resetD
  | .m => s.resetM

/-! ## What the C-region takes back -/

/-- Tables and configuration of the engine from MRAM; without a valid copy it stays stopped with every node unmanaged (05 R193). -/
def State.loadGraph (s : State) : State :=
  match s.nv.graph with
  | none => s.onSil (fun g => { g with substeps := 4, ageLimit := 64 })
  | some g => { s with sil := { s.sil with
      tab := { s.sil.tab with edges := g.edges, nodes := g.nodes, curves := g.curves, slews := g.slews }
      substeps := g.substeps, ageLimit := g.ageLimit } }

/-- Overrides in force come back from MRAM (05 R193). -/
def State.loadOverrides (s : State) : State :=
  s.nv.overrides.foldl (fun s e => match e.2 with | some o => s.setOvr e.1 o.level | none => s) s

/-- SENT and OUT at start-up: the FALLBACK_LEVEL last sent of managed nodes, and of every joined node, whose level in force it is (04 R154;
05 R182, R193; 08 R263). -/
def State.loadFallback (s : State) : State :=
  let s := (s.sil.tab.nodes.filter (fun n => nodeManaged n.2)).foldl (fun s n =>
    let l := s.fallbackLevel n.1
    s.setLevels n.1 l (some l)) s
  (s.nv.regs.filterMap Reg.addr).foldl (fun s a =>
    let l := s.fallbackLevel a
    (s.setLevels a l (some l)).onNode a (fun n => { n with force := l })) s

/-- SENT and OUT from the D-region's copy of the last snapshot it consumed: KNOWN entries only (05 R194). -/
def State.loadSent (s : State) : State :=
  match s.accord.ringHcn with
  | [] => s
  | k :: _ => ((rangeFrom 0 8).flatMap (fun f => s.snapNodes k f)).foldl (fun s n =>
      if n.2.1 = 0 then s.setLevels n.1 n.2.2 (some n.2.2) else s) s

/-- Background items not yet acknowledged go again, with their count afresh (04 R610). -/
def State.loadBg (s : State) : State :=
  s.onNv (fun v => { v with bg := v.bg.map (fun (e : Nat × List BgItem) =>
    (e.1, e.2.map (fun (b : BgItem) => { b with sent := 0, due := true }))) })

/-- The twin of every feeder slot whose rollover is pending, derived again from the rollover record where it was lost (14 R446). -/
def State.rollTwins (s : State) : State :=
  (rangeFrom 0 8).foldl (fun s f =>
    match tget none s.nv.rolls f with
    | none => s
    | some p =>
      if (tget none s.keys.twins (f + 8)).isNone then (s.setTwin (f + 8) (s.slot (f + 8)).attr (s.feederKey f p.gen)).1 else s) s

/-- The distribution of a rollover that is still ahead starts anew (14 R446). -/
def State.loadRolls (s : State) : State :=
  let s := if s.runs .m then s.rollTwins else s
  (rangeFrom 0 8).foldl (fun s f =>
    match tget none s.nv.rolls f with
    | none => s
    | some _ =>
      s.onFeeder f (fun x => { x with
        kfStart := s.tb.hcn, kfDue := false
        keyQ := ((s.joinedOn f).filter (fun a => !(s.node a).keyAcked)).map (fun a => a % 2048) })) s

/-- RR as the module chooses it at start-up, before the first HCN; a C-region restart leaves RR as it is, because it changes at multiples of
256 only (04 R135). -/
def State.loadRR (s : State) : State :=
  if s.started then s else (rangeFrom 0 8).foldl (fun s f =>
    let r := s.wantRR f
    s.onFeeder f (fun x => { x with rrNow := r, rrWas := r, rrNext := r })) s

/-- What the C-region loads in every case: tables, limits, overrides, attenuations, Blotter's configuration, background items and
rollovers (05 R193, 06 R215). -/
def State.loadC (s : State) : State :=
  let s := s.loadGraph.onTab (fun t => { t with stDef := stateDef })
  let s : State := { s with
    sil := { s.sil with passLimit := passLimitUs s.tb.sel }
    wtx := { s.wtx with atten := s.nv.atten }
    blot := { s.blot with bcCfg := s.nv.bcCfg } }
  (s.schedResume.loadOverrides.loadBg.loadRolls).loadRR

/-- Requests and windows after a C-region restart: windows that the restart overlapped end ABORTED with cause 10, every request is
lost, with one record of their number, and the sessions that issued them are told (08 R294; log entry 48). -/
def State.blotLost (s : State) : State :=
  let s := (s.blot.probes.filter (fun p => p.begun s.tb.hcn && p.judged.isNone)).foldl
    (fun s p => s.finishProbe p 5 10 15 ⟨0, 0, 0, 0, 0⟩) s
  let gone := s.blot.reqs
  let s := s.onBlot (fun b => { b with reqs := [], probes := [] })
  if gone.isEmpty then s
  else (gone.filter (fun q => q.ses != 0 && !q.quiet)).foldl (fun s q =>
      let x : ResultRec := { req := q.id, addr := q.addr, outcome := 0, cause := 10, attempt := q.attempt }
      s.notify q.ses 0x0980 false .discarded [(x.word.toNat, 32)])
    (s.raiseGen .c 0x09 0 [(gone.length, 2)])

/-! ## What the D-region takes back -/

/-- The residual alarms that stood when the D-region restarted clear, as the M-region kept them (08 R273). -/
def State.alarmsClear (s : State) : State :=
  (rangeFrom 0 24).foldl (fun s x => if bit s.vxc.alarms x then s.residualNote x false 0 else s) s

end Sys2Proof.Machine
end

