-- ==== Sys2Proof/Machine/Upd.lean ====
section
/-!
DEFINITION. Decant (15 R464-R494): packages, download, activation, switching, trial, revert, and node images; the UPD group (11 R377).
-/
namespace Sys2Proof.Machine

/-! ## Records -/

/-- Change Decant's records. -/
def State.onUpd (s : State) (g : Decant → Decant) : State := s.onNv (fun v => { v with upd := g v.upd })

/-- The number of a stage (table "UPD stages"). -/
def Stage.no : Stage → Nat
  | .idle => 0 | .receiving => 1 | .verifying => 2 | .ready => 3 | .reconstructing => 4 | .armed => 5 | .switching => 6
  | .trial => 7 | .confirming => 8

/-- Blocks held. -/
def Decant.held (u : Decant) : Nat := u.bitmap.length

/-- A stage change and its notification: DONE and TOTAL are the blocks held and NBLK (R494; log entry 49). -/
def State.toStage (s : State) (g : Stage) : State :=
  let s := s.onUpd (fun u => { u with stage := g })
  s.updNote 0 s.nv.upd.held s.nv.upd.nblk

/-- The transfer record goes. -/
def Decant.drop (u : Decant) : Decant := { u with hdr := none, nblk := 0, bitmap := [], eraseDue := false }

/-- The activation record goes. -/
def Decant.dropAct (u : Decant) : Decant := { u with t := 0, ord := 0, order := [], pos := 0, by_ := none, failedOnce := false, runBy := none }

/-- The inactive bank's set replaced. -/
def Decant.setInactive (u : Decant) (w : FwSet) : Decant := if u.active then { u with setA := w } else { u with setB := w }

/-- NVMC_BOOT (table). -/
def State.nvmcBoot (s : State) : Nat :=
  let u := s.nv.upd
  s.cfgAt 2 (pack [(24, 8, u.secVer), (19, 1, b2n u.bankDsp), (18, 1, b2n u.bankM), (17, 1, b2n u.bankD), (16, 1, b2n u.bankC),
    (12, 2, u.trialBoots), (6, 6, u.trialMin), (5, 1, b2n u.active), (0, 4, u.stage.no)])

/-! ## Banks and packages (R464, R466-R468) -/

/-- The bank hash of a directory: SHA-256 of its CHASH values in order (R467). -/
def setHash (dir : List Comp) : Nat := ofBytes (sha256 (dir.flatMap (fun c => leBytes 32 c.chash)))

/-- Bytes of a component of the base set, where it has them all (R468, COPY). -/
def State.baseBytes (s : State) (bank : Bool) (type ofs len : Nat) : Option (List Nat) :=
  let dir := (s.nv.upd.bank bank).dir
  match dir.find? (fun c => c.type == type), compOfs dir type with
  | some c, some o => if ofs + len ≤ c.length then some (s.bytesAt (bankBase bank + o + ofs) len) else none
  | _, _ => none

/-- The delta record at the front of a payload: the bytes that it appends, and what follows it; none where the front is no whole record
(table "Delta records"). -/
def deltaRecord (base : Nat → Nat → Nat → Option (List Nat)) : List Nat → Option (List Nat × List Nat)
  | 1 :: src :: l => if l.length < 8 then none else (base src (ofBytes (l.take 4)) (ofBytes ((l.drop 4).take 4))).map (fun b => (b, l.drop 8))
  | 2 :: l => if l.length < 4 + ofBytes (l.take 4) then none else some ((l.drop 4).take (ofBytes (l.take 4)), l.drop (4 + ofBytes (l.take 4)))
  | 3 :: l => if l.length < 5 then none else some (List.replicate (ofBytes (l.take 4)) (l.getD 4 0), l.drop 5)
  | _ => none

/-- A component of `len` bytes built from the records at the front of a payload, and what follows them; none where a record goes past its
end (R468; log entry 49). -/
def buildComp (base : Nat → Nat → Nat → Option (List Nat)) : Nat → Nat → List Nat → Option (List Nat × List Nat)
  | _, 0, p => some ([], p)
  | 0, _ + 1, _ => none
  | n + 1, len + 1, p =>
    match deltaRecord base p with
    | none => none
    | some (b, rest) =>
      if len + 1 < b.length then none else (buildComp base n (len + 1 - b.length) rest).map (fun r => (b ++ r.1, r.2))

/-- Every component of a directory in turn, each as it must be by its CHASH; none where one fails, or the stream does not end with the
last one (R468, R478). -/
def buildSet (base : Nat → Nat → Nat → Option (List Nat)) : List Comp → List Nat → Option (List (List Nat))
  | [], p => if p.isEmpty then some [] else none
  | c :: l, p =>
    match buildComp base p.length c.length p with
    | none => none
    | some (b, rest) => if ofBytes (sha256 b) ≠ c.chash then none else (buildSet base l rest).map (fun r => b :: r)

/-- The staged payload (R471). -/
def State.payload (s : State) (h : PkgHeader) : List Nat := s.bytesAt (bankBase (!s.nv.upd.active) + 0x3000000) h.pkgLen

/-- The staged payload is the one that the header names (R472, R477). -/
def State.payloadOk (s : State) : Bool :=
  match s.nv.upd.hdr with
  | some h => ofBytes (sha256 (s.payload h)) == h.payloadHash
  | none => false

/-- What reconstruction builds (R478). -/
def State.rebuilt (s : State) (h : PkgHeader) : Option (List (List Nat)) :=
  buildSet (s.baseBytes s.nv.upd.active) h.dir (s.payload h)

/-- The bytes of a header before its signature, which the manifest copies (R464, R466, tables "Package header" and "Component entry"). -/
def hdrBytes (h : PkgHeader) : List Nat :=
  [0x44, 0x43, 0x4E, 0x54] ++ leBytes 2 h.hdrLen ++ [h.ncomp, 0] ++ [0x56, 0x58, 0x53, 0x2D, 0x34, 0x38, 0x31, 0x36] ++ List.replicate 8 0 ++
  leBytes 4 h.version ++ [h.secVer, 0, 0, 0] ++ leBytes 32 h.baseHash ++ leBytes 32 h.targetHash ++ leBytes 4 h.pkgLen ++ leBytes 32 h.payloadHash ++
  h.dir.flatMap (fun c => [c.type, 0, 0, 0] ++ leBytes 4 c.cver ++ leBytes 4 c.length ++
    (rangeFrom 0 6).flatMap (fun i => [(c.ifr.getD i (0, 0)).1, (c.ifr.getD i (0, 0)).2]) ++ leBytes 32 c.chash)

/-- The bytes of the staging sectors, of 64 KiB each, that a payload needs (R470; 18 R560). -/
def stagingLen (h : PkgHeader) : Nat := 65536 * ceilDiv h.pkgLen 65536

/-- The component area of a bank and its manifest erased (R478). -/
def State.wipeBank (s : State) (b : Bool) : State := { s with mem := s.mem.wipe (bankBase b) (bankBase b + 0x3000000) }

/-- Components programmed into the component area, in directory order (R464). -/
def Mem.program (m : Mem) : Nat → List (List Nat) → Mem
  | _, [] => m
  | a, b :: l => (m.put a b).program (a + 4096 * ceilDiv b.length 4096) l

/-! ## Headers (R466, R467, R469) -/

/-- Interfaces that a component type uses (table "Component types"). -/
def usesIf (type : Nat) : List Nat :=
  match type with
  | 1 => [0, 1, 3, 5] | 2 => [0, 2, 4] | 3 => [1, 2] | 4 => [3] | 5 => [4]
  | n => if 16 ≤ n ∧ n < 32 then [5] else []

/-- The range of an interface. -/
def compRange (c : Comp) (i : Nat) : Nat × Nat := c.ifr.getD i (0, 0)

/-- A component entry is valid (R467). -/
def compOk (c : Comp) : Bool :=
  (decide (1 ≤ c.type ∧ c.type ≤ 5) || decide (16 ≤ c.type ∧ c.type < 32)) &&
  (rangeFrom 0 6).all (fun i =>
    let (lo, hi) := compRange c i
    if (usesIf c.type).contains i then decide (1 ≤ lo ∧ lo ≤ hi) else decide (lo = 0 ∧ hi = 0)) &&
  (c.type != 1 || decide ((compRange c 5).2 ≤ (compRange c 5).1 + 1)) &&
  (decide (c.type < 16) || (decide ((compRange c 5).1 = (compRange c 5).2) && decide (c.length ≤ 393216)))

/-- A directory is valid (R467). -/
def dirOk (d : List Comp) : Bool :=
  d.all compOk && (rangeFrom 1 5).all (fun t => d.any (fun c => c.type == t)) &&
  decide ((d.map Comp.type).dedup.length = d.length) &&
  decide ((d.map (fun c => 4096 * ceilDiv c.length 4096)).foldl (· + ·) 0 ≤ 0x3000000 - 4096)

/-- RANGE of a header: MAGIC, HDR_LEN, NCOMP, the directory, or a value outside the range its field has (R466, R467, R469). -/
def hdrBad (h : PkgHeader) : Bool :=
  !h.magicOk || decide (h.hdrLen ≠ 196 + 56 * h.ncomp ∨ h.ncomp < 5 ∨ 12 < h.ncomp ∨ h.dir.length ≠ h.ncomp ∨ h.pkgLen = 0
    ∨ 16777216 < h.pkgLen ∨ 128 < h.secVer) || !dirOk h.dir

/-- UPD HEADER: the checks in order; the same header resumes its transfer, another one opens a transfer and the staging sectors are
erased (R469, R470). -/
def execUpdHeader (r : Req) (hdr : PkgHeader) (sig : Nat) (s : State) : Res :=
  hostCmd { cmd := 0x0C01, need := .update } r (fun _ t =>
    let u := t.nv.upd
    let act := u.bank u.active
    let other := match u.hdr with | some h => h.targetHash != hdr.targetHash | none => false
    let ans := fun (t : State) => Ans.ok [(t.nv.upd.nblk, 4), (t.nv.upd.held, 4)] t
    checked [(decide (4 ≤ u.stage.no) || other, .state), (hdrBad hdr, .range), (!(ecdsaOk (Config.releaseKey ()) (ofBe (sha256 (r.payload.take (hdr.hdrLen - 64)))) sig), .signature), (!hdr.productOk, .product),
        (hdr.baseHash != act.bankHash, .base), (decide (hdr.version ≤ act.version ∨ hdr.secVer < u.secVer), .version)]
      (if u.hdr = some hdr then ans t
       else ans ((t.onUpd (fun u => { u with
         hdr := some hdr, hdrSig := sig, nblk := ceilDiv hdr.pkgLen 1024, bitmap := [], eraseDue := true })).toStage .receiving))) s

/-! ## Download (R471-R473) -/

/-- Erase counts of a bank. -/
def Nv.erases (v : Nv) (b : Bool) : Erases := if b then v.eraseB else v.eraseA

/-- Change the erase counts of a bank. -/
def State.onErases (s : State) (b : Bool) (g : Erases → Erases) : State :=
  s.onNv (fun v => if b then { v with eraseB := g v.eraseB } else { v with eraseA := g v.eraseA })

/-- Spare sectors that a bank has left (18 R560). -/
def Nv.sparesLeft (v : Nv) (b : Bool) : Nat := 16 - (if b then v.bUsed else v.aUsed)

/-- `n` sectors of a bank go to its spares, each with a RESERVE notification (18 R560). -/
def State.replaceSectors (s : State) (b : Bool) (n : Nat) : State :=
  (List.replicate n ()).foldl (fun s _ =>
    (s.onNv (fun v => if b then { v with bUsed := v.bUsed + 1 } else { v with aUsed := v.aUsed + 1 })).reserveNote 6 (b2n b) 1) s

/-- Sectors, of `n` erased, whose erase or following program fails its verify, as many as there are: a free number (18 R560; log entry 49). -/
def State.verifyFails (s : State) (b : Bool) (n : Nat) : State :=
  let (k, s) := s.draw (n + 1)
  s.replaceSectors b (min k (s.nv.sparesLeft b))

/-- One more erase of a bank's manifest and component area, 768 sectors: at 90 000 they go to the bank's spares, as far as those reach, and
the others stay (18 R560; log entry 49). -/
def State.eraseComp (s : State) (b : Bool) : State :=
  let s := s.onErases b (fun e => { e with comp := stick 0xFFFFFFFF (e.comp + 1) })
  (if (s.nv.erases b).comp ≠ 90000 then s else s.replaceSectors b (s.nv.sparesLeft b)).verifyFails b 768

/-- One more erase of the first `n` sectors of a bank's staging area: those that reach 90 000 go to the bank's spares, as far as those reach,
and are erased there (18 R560; log entry 49). -/
def State.eraseStaging (s : State) (b : Bool) (n : Nat) : State :=
  let s := s.onErases b (fun e => { e with staging := (rangeFrom 0 n).foldl (fun t i => tmod 0 t i up32) e.staging })
  let worn := ((rangeFrom 0 n).filter (fun i => tget 0 (s.nv.erases b).staging i == 90000)).take (s.nv.sparesLeft b)
  ((s.onErases b (fun e => { e with staging := worn.foldl (fun t i => tset 0 t i 1) e.staging })).replaceSectors b worn.length).verifyFails b n

/-- ERASE_MAX of a bank (18 R568). -/
def Nv.eraseMax (v : Nv) (b : Bool) : Nat := ((v.erases b).staging.map Prod.snd).foldl max (v.erases b).comp

/-- UPD BLOCK: programmed, read back, its bit set; the last bit starts the check of the whole payload (R471, R472). -/
def execUpdBlock (r : Req) (offset : Nat) (data : List Nat) (s : State) : Res :=
  hostCmd { cmd := 0x0C02, need := .update } r (fun _ t =>
    let u := t.nv.upd
    let len := (u.hdr.map PkgHeader.pkgLen).getD 0
    let b := offset / 1024
    checked [(!(u.stage == .receiving || u.stage == .ready), .state),
        (decide (offset % 1024 ≠ 0 ∨ len ≤ offset ∨ data.length ≠ min 1024 (len - offset)), .range), (u.eraseDue, .busy)]
      (if u.bitmap.contains b then .ok [(u.held, 4)] t
       else
         let t : State := { t with mem := t.mem.put (bankBase (!u.active) + 0x3000000 + offset) data }
         let t := t.onUpd (fun u => { u with bitmap := b :: u.bitmap })
         let n := t.nv.upd.held
         let t := if n % 1024 = 0 ∧ n < u.nblk then t.updNote 0 n u.nblk else t
         .ok [(n, 4)] (if n = u.nblk then t.toStage .verifying else t))) s

/-- STAGING_ERASE_DONE: the staging sectors that the payload needs are erased, and blocks are accepted (R470, R471). -/
def execStagingEraseDone (dt : Dt) (s : State) : Res :=
  let t := s.tick dt
  .next (if !(t.nv.upd.eraseDue && t.runs .m) then t
    else
      let b := !t.nv.upd.active
      let lo := bankBase b + 0x3000000
      let t : State := { t with mem := t.mem.wipe lo (lo + ((t.nv.upd.hdr.map stagingLen).getD 0)) }
      (t.onUpd (fun u => { u with eraseDue := false })).eraseStaging b ((t.nv.upd.hdr.map (fun h => stagingLen h / 65536)).getD 0))

/-- PAYLOAD_VERIFY_DONE: READY where the payload's hash is right; `ok` is false where the staging area could not be read (R472). -/
def execPayloadVerifyDone (dt : Dt) (ok : Bool) (s : State) : Res :=
  let t := s.tick dt
  .next (if !(t.nv.upd.stage == .verifying && t.runs .m) then t
    else if ok && t.payloadOk then t.toStage .ready
    else ((t.onUpd (fun u => { u with bitmap := [] })).toStage .receiving).raiseGen .m 0x0C 0 [])

/-- UPD BITMAP (R377; log entry 49). -/
def execUpdBitmap (r : Req) (first count : Nat) (s : State) : Res :=
  hostCmd { cmd := 0x0C03, need := .read } r (fun _ t =>
    let u := t.nv.upd
    let byte := fun i => ofBits ((rangeFrom (first + 8 * i) 8).map (fun b => u.bitmap.contains b))
    checked [(decide (count = 0 ∨ count % 8 ≠ 0 ∨ 11200 < count ∨ 8 * ceilDiv u.nblk 8 < first + count), .range)]
      (.ok ((rangeFrom 0 (count / 8)).map (fun i => (byte i, 1))) t)) s

/-- UPD ABORT (R473). -/
def execUpdAbort (r : Req) (s : State) : Res :=
  hostCmd { cmd := 0x0C06, need := .update } r (fun _ t =>
    let g := t.nv.upd.stage
    checked [(!(g == .receiving || g == .verifying || g == .ready), .state)] (.ok [] ((t.onUpd Decant.drop).toStage .idle))) s

/-- UPD STATUS (R494). -/
def execUpdStatus (r : Req) (s : State) : Res :=
  hostCmd { cmd := 0x0C07, need := .read } r (fun _ t =>
    let u := t.nv.upd
    .ok [(u.stage.no, 1), (b2n u.bankM, 1), (u.trialBoots, 1), (u.trialMin, 2), (u.secVer, 1), ((u.bank u.active).version, 4),
      ((u.hdr.map PkgHeader.version).getD 0, 4), (u.nblk, 4), (u.held, 4)] t) s

/-! ## Order of switching (R474-R476) -/

/-- The bank that a component runs from. -/
def Decant.bankOf (u : Decant) (type : Nat) : Bool :=
  match type with | 1 => u.bankC | 2 => u.bankD | 3 => u.bankM | 4 => u.bankDsp | _ => u.active

/-- A component of a set. -/
def FwSet.comp (w : FwSet) (type : Nat) : Option Comp := w.dir.find? (fun c => c.type == type)

/-- The components that run. -/
def Decant.running (u : Decant) : List Comp := (rangeFrom 1 5).filterMap (fun t => (u.bank (u.bankOf t)).comp t)

/-- Components agree on an interface: the ranges of each pair that uses it overlap (R474). -/
def agreeOn (l : List Comp) (i : Nat) : Bool :=
  let rs : List (Nat × Nat) := (l.filter (fun (c : Comp) => (usesIf c.type).contains i)).map (fun c => compRange c i)
  rs.all (fun (a : Nat × Nat) => rs.all (fun (b : Nat × Nat) => decide (a.1 ≤ b.2 ∧ b.1 ≤ a.2)))

/-- A set of running components is consistent (R474). -/
def consistent (l : List Comp) : Bool := (rangeFrom 0 6).all (agreeOn l)

/-- A component replaced by the one of its type. -/
def withComp (l : List Comp) (c : Comp) : List Comp := c :: l.filter (fun x => x.type != c.type)

/-- The switching order of R475: the types, or the components that remain with the set that runs when none can go next. -/
def switchOrder : Nat → List Comp → List Comp → List Nat ⊕ (List Comp × List Comp)
  | 0, run, left => if left.isEmpty then .inl [] else .inr (run, left)
  | n + 1, run, left =>
    if left.isEmpty then .inl []
    else match ([5, 4, 2, 1, 3].filterMap (fun t => left.find? (fun c => c.type == t))).find? (fun c => consistent (withComp run c)) with
      | none => .inr (run, left)
      | some c => match switchOrder n (withComp run c) (left.filter (fun x => x.type != c.type)) with
        | .inl l => .inl (c.type :: l)
        | .inr e => .inr e

/-- The components of types 01h-05h that an activation changes (R475). -/
def State.changed (s : State) (h : PkgHeader) : List Comp :=
  h.dir.filter (fun c => decide (c.type ≤ 5) && !((s.nv.upd.running.find? (fun x => x.type == c.type)).map Comp.chash == some c.chash))

/-- Joined nodes that interface 5 of the new C image excludes (R476). -/
def State.excludedBy (s : State) (h : PkgHeader) : Nat :=
  let (lo, hi) := ((h.dir.find? (fun c => c.type == 1)).map (fun c => compRange c 5)).getD (1, 2)
  (s.allJoined.filter (fun a =>
    let n := s.node a
    n.pver != 0 && !n.incompatible && !(decide (lo ≤ n.pver ∧ n.pver ≤ hi)))).length

/-- The lowest interface that no remaining candidate satisfies; a free value where each is satisfied by some candidate (R476; log
entry 49). -/
def State.failedIf (s : State) (run left : List Comp) : Nat × State :=
  match (rangeFrom 0 6).find? (fun i => left.all (fun c => !agreeOn (withComp run c) i)) with
  | some i => (i, s)
  | none => s.draw 6

/-- UPD ACTIVATE (`hashOk` is false where the staging area cannot be read): only in READY, 14 760 half-cycles ahead; the payload's hash, the order, and the joined nodes (R475-R478). The inactive
bank's manifest is erased as reconstruction begins. -/
def execUpdActivate (r : Req) (tgt : Nat) (hashOk : Bool) (s : State) : Res :=
  hostCmd { cmd := 0x0C04, need := .update } r (fun w t =>
    match t.nv.upd.hdr with
    | none => .no .state 0
    | some h =>
      checked ([(!(t.nv.upd.stage == .ready), .state), (t.badTgt tgt, .range)] ++ t.lateTgt tgt 14760 ++ [(!(hashOk && t.payloadOk), .hash)])
        (match switchOrder 5 t.nv.upd.running (t.changed h) with
         | .inr (run, left) => .ended .interface [(2 ^ 28 + (t.failedIf run left).1, 4)] (t.failedIf run left).2
         | .inl order =>
           let n := t.excludedBy h
           if n ≠ 0 then .no .interface (2 * 2 ^ 28 + n)
           else
             let t := t.onUpd (fun u => { u.setInactive {} with
               t := tgt, ord := t.order, order := order, pos := 0, by_ := some (w.ses, w.seq), failedOnce := false })
             let t : State := { t with order := t.order + 1 }
             .deferred tgt (((t.toStage .reconstructing).wipeBank (!t.nv.upd.active)).eraseComp (!t.nv.upd.active)))) s

/-- Bytes that a reconstruction builds. -/
def hdrBuilt (h : PkgHeader) : Nat := (h.dir.map Comp.length).foldl (· + ·) 0

/-- The FINAL of an activation. -/
def State.updFinal (s : State) (st : Status) : State :=
  match s.nv.upd.by_ with
  | some (ses, seq) => (s.onUpd (fun u => { u with by_ := none })).complete ses seq 0x0C04 st []
  | none => s

/-- RECONSTRUCTION_DONE: the set that the delta records build stands in the inactive bank, its manifest last, and the stage is ARMED, with a
notification for each 4 MiB built; a component that fails its check causes one more reconstruction, and then the end of the transfer (R468,
R478, R494). `ok` is false where a sector could not be programmed or read. -/
def execReconstructionDone (dt : Dt) (ok : Bool) (s : State) : Res :=
  let t := s.tick dt
  let u := t.nv.upd
  .next (match u.hdr with
  | none => t
  | some h =>
    if !(u.stage == .reconstructing && t.runs .m) then t
    else match (if ok then t.rebuilt h else none) with
    | some bs =>
      let t : State := { t with mem := (t.mem.program (bankBase (!u.active) + 0x1000) bs).put (bankBase (!u.active)) (hdrBytes h ++ leBytes 64 u.hdrSig) }
      let t := (rangeFrom 1 (hdrBuilt h / 4194304)).foldl (fun t i => t.updNote 0 (4096 * i) (ceilDiv (hdrBuilt h) 1024)) t
      (t.onUpd (fun u => u.setInactive ⟨h.version, h.secVer, setHash h.dir, h.dir, true⟩)).toStage .armed
    | none =>
      if !u.failedOnce then ((t.onUpd (fun u => { u with failedOnce := true })).wipeBank (!u.active)).eraseComp (!u.active)
      else (((t.updFinal .hash).onUpd (fun u => u.drop.dropAct)).toStage .idle).raiseGen .m 0x0C 0 [])

/-! ## Revert (R484) -/

/-- A save written at once, with both its parts: the state as accumulated and attributed now (R484; 07 R247, R248). -/
def State.saveNow (s : State) : State :=
  if s.meter.begun.isNone || !s.runs .d then s else
  let (n, seq) := s.saveTarget
  let t := s.tb.hcn
  s.ageSave.onSlot n (fun _ => {
    seq := seq, markF := true, markN := true, s := t, rtcSec := s.lin, rtcSub := s.bk.sub, rtcValid := s.bk.valid
    tot := { s.liveTotals with accounts := s.accord.accounts, phases := s.accord.phases }, means := s.meter.means t })

/-- A revert: a save, the cause on record, every component back to the active bank, the metering configuration kept by the switching,
and a restart of the module (R484). The UPD_REVERT record follows at the next start of the recorder. -/
def State.revert (s : State) (cause : Nat) : State :=
  let s := s.saveNow
  let s := s.onNv (fun v =>
    let u := v.upd.drop.dropAct
    { (match v.upd.keptMeter with | some c => v.setMeterCfg c | none => v) with
      upd := { u with
        stage := .idle, revertCause := some cause, keptMeter := none, trialBoots := 0, trialMin := 0
        bankC := u.active, bankD := u.active, bankM := u.active, bankDsp := u.active } })
  s.moduleReset 7

/-- The UPD_REVERT record of the last revert: CAUSE, and the version of the set that was tried (R484; log entry 49). -/
def State.revertRecord (s : State) : State :=
  match s.nv.upd.revertCause with
  | none => s
  | some c =>
    let u := s.nv.upd
    (s.onUpd (fun u => { u with revertCause := none })).raiseFw .m 0x0C01 (c :: leBytes 4 (u.bank (!u.active)).version)

/-! ## Trial (R481-R483) -/

/-- The stage becomes TRIAL, with both its counts 0 (R481, R483). -/
def State.enterTrial (s : State) : State := (s.onUpd (fun u => { u with trialBoots := 0, trialMin := 0, runBy := none, minuteAt := s.now })).toStage .trial

/-- One more start-up or region restart in TRIAL; the one that would take TRIAL_BOOTS above 3 reverts (R483). -/
def State.trialBoot (s : State) (k : State → State) : State :=
  if !(s.nv.upd.stage == .trial) then k s
  else if 3 ≤ s.nv.upd.trialBoots then s.revert 1
  else k (s.onUpd (fun u => { u with trialBoots := u.trialBoots + 1 }))

/-- The component type of a region's image. -/
def typeOf : Region → Nat
  | .c => 1
  | .d => 2
  | .m => 3

/-- A region restarts, and Decant takes note: in TRIAL it is counted, and a region that was switched and restarts again before the last
step fails the switching (R482, R483). -/
def State.restartRegion (s : State) (r : Region) (cause : Nat) : State :=
  if !s.runs r then s
  else
    let u := s.nv.upd
    if u.stage == .switching && decide (u.pos < u.order.length) && (u.order.take u.pos).contains (typeOf r) then s.revert 2
    else s.trialBoot (fun s => s.regionReset r cause)

/-- TRIAL_MINUTE: a minute of trial is over; at 30 the module reverts (R483). A restart of the M-region begins its minute anew (log entry 49). -/
def execTrialMinute (dt : Dt) (s : State) : Res :=
  let t := s.tick dt
  .next (if !(t.nv.upd.stage == .trial && t.runs .m && decide (t.nv.upd.minuteAt + 60 * secC ≤ t.now)) then t
    else
      let t := t.onUpd (fun u => { u with trialMin := u.trialMin + 1, minuteAt := u.minuteAt + 60 * secC })
      if 30 ≤ t.nv.upd.trialMin then t.revert 0 else t)

/-- SWITCH_RUN_TIMEOUT: a switched region does not read RUN within 1 s of its step (R482). -/
def execSwitchRunTimeout (dt : Dt) (s : State) : Res :=
  let t := s.tick dt
  let u := t.nv.upd
  let dead := (u.order.take u.pos).any (fun x => [Region.c, .d, .m].any (fun r => typeOf r == x && !t.runs r))
  .next (match u.runBy with
    | some x => if u.stage == .switching && dead && decide (x ≤ t.now) then t.revert 2 else t
    | none => t)

/-! ## Switching (R479, R480) -/

/-- The metering configuration that a component holds; its format is not in the spec, so its values are free (log entry 49). -/
def cfgOfImage (chash : Nat) : MeterCfg :=
  let v := Config.meterImage chash
  { inputs := (rangeFrom 0 30).map (fun i =>
      (i, ⟨BitVec.ofNat 64 (v (32 * i)), (rangeFrom 1 16).map (fun p => BitVec.ofNat 64 (v (32 * i + p)) &&& 0xFFFF0000FFFFFFFF#64)⟩))
    vnomA := v 1000, vnomB := v 1001, saveInt := v 1002 % 256, calInt := v 1003 % 65536
    pulse := [(0, ⟨v 1010 % 256, BitVec.ofNat 8 (v 1011), v 1012 % 4294967296⟩), (1, ⟨v 1020 % 256, BitVec.ofNat 8 (v 1021), v 1022 % 4294967296⟩)] }

/-- Every component that no step switched moves to the new bank, and TRIAL begins at once when no region has still to run (R481). -/
def State.lastStep (s : State) : State :=
  let s := s.onUpd (fun u => { u with bankC := !u.active, bankD := !u.active, bankM := !u.active, bankDsp := !u.active })
  if s.runs .c && s.runs .d && s.runs .m then s.enterTrial else s

/-- One switching step (R480, table "Switching steps"). A metering configuration that a METER write would refuse takes no effect (07 R234). -/
def State.switchStep (s : State) (type : Nat) : State :=
  let u := s.nv.upd
  let nb := !u.active
  let s := s.onUpd (fun u => { u with pos := u.pos + 1, runBy := if type ≤ 3 then some (s.now + secC) else none })
  let s := s.updNote type (u.pos + 1) u.order.length
  match type with
  | 1 => (s.onUpd (fun u => { u with bankC := nb })).regionReset .c 2
  | 2 => (s.onUpd (fun u => { u with bankD := nb })).regionReset .d 2
  | 3 => (s.onUpd (fun u => { u with bankM := nb })).regionReset .m 2
  | 4 => { s.onUpd (fun u => { u with bankDsp := nb }) with dspFrames := 8 }
  | _ =>
    let c := cfgOfImage ((((u.bank nb).comp 5).map Comp.chash).getD 0)
    if !c.ok then s
    else
      let s := s.onNv (fun v => { v.setMeterCfg c with upd := { v.upd with keptMeter := some v.meterCfg } })
      s.cfgInForce s.tb.hcn c

/-- Decant at an HCN edge: at t an activation that is not ARMED is discarded; at t + 256 k step k runs, and the FINAL goes out after step 0
(R479, R480). -/
def State.updEdge (s : State) : State :=
  let h := s.tb.hcn
  let u := s.nv.upd
  if u.stage == .reconstructing && decide (u.t ≤ h) then
    ((s.updFinal .discarded).onUpd Decant.dropAct).toStage .ready
  else if u.stage == .armed && decide (u.t < h) then
    ((s.updFinal .discarded).onUpd Decant.dropAct).toStage .ready
  else
    let s := if u.stage == .armed && u.t == h then s.toStage .switching else s
    let u := s.nv.upd
    if !(u.stage == .switching && u.t + 256 * u.pos == h) || decide (u.order.length < u.pos) then s
    else
      let s := match u.order[u.pos]? with | some ty => s.switchStep ty | none => s
      let s := if u.pos = 0 then s.updFinal .ok else s
      let u := s.nv.upd
      if u.order.length ≤ u.pos then s.lastStep else s

/-! ## Confirmation and node images (R486-R490) -/

/-- Node images of the new set that differ from those of the old one (R487). -/
def newImages (old new : FwSet) : List Comp :=
  new.dir.filter (fun c => decide (16 ≤ c.type) && !((old.comp c.type).map Comp.chash == some c.chash))

/-- Distribution of images starts on every feeder that has a joined node; an image that the active bank no longer holds is distributed no
longer (R487). -/
def State.distribute (s : State) (w : FwSet) (l : List Comp) : State :=
  (rangeFrom 0 8).foldl (fun s f => s.onFeeder f (fun x => { x with
    dist := x.dist.filter (fun (e : ImgDist) => (w.comp (16 + e.img)).isSome && !l.any (fun c => c.type == 16 + e.img)) ++
      (if (s.joinedOn f).isEmpty then [] else l.map (fun c => { img := c.type - 16, nblk := ceilDiv c.length 24 })) })) s

/-- Confirmation: the security version advances, the new bank is the active one, the records go (R486). -/
def State.confirm (s : State) : State :=
  let u := s.nv.upd
  let new := u.bank (!u.active)
  let imgs := newImages (u.bank u.active) new
  let s := s.onUpd (fun u => { u.drop.dropAct with
    secVer := max u.secVer (min 128 new.secVer), active := !u.active, keptMeter := none, trialBoots := 0, trialMin := 0 })
  (s.distribute new imgs).toStage .idle

/-- UPD CONFIRM. -/
def execUpdConfirm (r : Req) (s : State) : Res :=
  hostCmd { cmd := 0x0C05, need := .update } r (fun _ t =>
    checked [(!(t.nv.upd.stage == .trial), .state)] (.ok [] (t.toStage .confirming).confirm)) s

/-- UPD NODE_ACTIVATE (R490). -/
def execUpdNodeActivate (r : Req) (img group tgt : Nat) (s : State) : Res :=
  hostCmd { cmd := 0x0C08, need := .update } r (fun w t =>
    let ms := t.members group
    match t.imgComp img with
    | none => checked [(t.nv.upd.stage == .switching || t.nv.upd.stage == .trial, .state)] (.no .range 0)
    | some c =>
      checked ([(!(decide (t.protoRange.1 ≤ c.pver ∧ c.pver ≤ t.protoRange.2)) || t.nv.upd.stage == .switching
            || t.nv.upd.stage == .trial, .state), (decide (15 < img ∨ 255 < group) || t.badTgt tgt, .range)] ++ t.lateTgt tgt 8
          ++ [(t.actsFull || t.linkFull (feedersOf ms), .busy)])
        (.deferred tgt (t.linkCmd (feedersOf ms) tgt w 0x0C08 (.imgActivate 0 img group tgt) (fun id => .imgActivate id img ms)))) s

/-- Members that had reported COMPLETE or SCHEDULED by frame t - 8, and the others (R490). -/
def State.imgReady (s : State) (img : Nat) (ms : List Nat) (t : Nat) : Nat × Nat :=
  let n := (ms.filter (fun a => match (tget {} (s.node a).img img).ready with | some k => decide (k + 8 ≤ t) | none => false)).length
  (n, ms.length - n)

/-- UPD NODE_STATUS: paged by address. -/
def execUpdNodeStatus (r : Req) (first count img : Nat) (s : State) : Res :=
  hostCmd { cmd := 0x0C09, need := .read } r (fun _ t =>
    checked [(decide (15 < img), .range)]
      (paged 16384 first count 3 [] (fun a =>
        let x := tget {} (t.node a).img img
        [(x.st, 1), (x.missing, 2)]) t)) s

/-- The end of a distribution, with the number of nodes in each state. -/
def State.endDist (s : State) (f img : Nat) (sts : List ImgState) : State :=
  (s.onFeeder f (fun x => { x with dist := x.dist.filter (fun (e : ImgDist) => e.img != img) })).raiseGen .m 0x0C 0
    ((rangeFrom 0 8).map (fun k => ((sts.filter (fun (x : ImgState) => x.st == k)).length, 2)))

/-- One distribution of a feeder after a round: the next round from the lowest FIRST of a node in RECEIVING, or its end (R488). -/
def State.roundEnd (s : State) (f : Nat) (d : ImgDist) : State :=
  let j := s.tb.hcn
  let nodes := s.joinedOn f
  let sts := nodes.map (fun a => tget {} (s.node a).img d.img)
  if !d.waiting || !(sts.all (fun x => decide (d.endedAt < x.frame)) || decide (d.endedAt + 20 * (s.feeder f).rrNow ≤ j)) then s
  else
    let recv := (sts.filter (fun x => x.st == 1)).map ImgState.first
    match recv with
    | [] => s.endDist f d.img sts
    | b :: bs =>
      if 8 ≤ d.round then s.endDist f d.img sts
      else s.onFeeder f (fun x => { x with dist := x.dist.map (fun (e : ImgDist) =>
        if e.img == d.img then { e with round := e.round + 1, next := bs.foldl min b, waiting := false } else e) })
/-- NODE_IMAGE_ROUND_END (R488). -/
def execNodeImageRoundEnd (dt : Dt) (f : Nat) (s : State) : Res :=
  let t := s.tick dt
  .next (if f < 8 ∧ t.runs .c = true then (t.feeder f).dist.foldl (fun t d => t.roundEnd f d) t else t)

/-! ## Interruptions (R492) -/

/-- What Decant finds at a start of the M-region: a reconstruction starts again, a confirmation is completed (R492). -/
def State.updResume (s : State) : State :=
  let s := s.onUpd (fun u => { u with minuteAt := s.now })
  let u := s.nv.upd
  if u.stage == .reconstructing || u.stage == .armed then
    ((s.onUpd (fun u => { u.setInactive {} with stage := .reconstructing, failedOnce := false })).wipeBank (!u.active)).eraseComp (!u.active)
  else if u.stage == .confirming then s.confirm
  else s

/-- A start of the module while SWITCHING: the new bank is booted whole, as a trial start with TRIAL_BOOTS = 1 (R492). -/
def Decant.bootNew (u : Decant) : Decant :=
  { u with
    stage := .trial, trialBoots := 1, trialMin := 0, runBy := none
    bankC := !u.active, bankD := !u.active, bankM := !u.active, bankDsp := !u.active }

end Sys2Proof.Machine
end

