-- ==== Sys2Proof/Machine/Power.lean ====
section
/-!
DEFINITION. Supply fail and shutdown, the reset sources, and the steps of start-up up to the lock step (19 R569-R586; 13 R422, R425;
14 R429, R453, R454, R460; 15 R485, R492; 16 R507).
-/
namespace Sys2Proof.Machine

/-- SOURCE of clock and reset control. -/
def srcClkrst : Nat := srcHw 3 0x00 0xFFF

/-- A shutdown runs: after a supply fail, or by command (R574, R578). -/
def State.shutting (s : State) : Bool := s.pow.supplyFail || s.pow.cmdShutdown

/-! ## Shutdown (R573-R578) -/

/-- The steps that follow detection (R574, table "Shutdown"): LOCKOUT with the buffered fields discarded, outputs shed and bursts cut,
the running pass stopped, the intervals closed and the final save begun, both ports down, writing paused. -/
def State.shed (s : State) : State :=
  let s : State := { s with
    rtc := { s.rtc with lockout := true, wrMin := none, wrHour := none, wrDay := none, wrMonth := none, wrYear := none }
    sign := { s.sign with run := false }
    sil := { s.sil with pass := none, newPhi := [], newOut := [], touched := [], held := [] }
    ev := { s.ev with paused := true }
    pow := { s.pow with drive := 0, signHiZ := true, shedAt := s.now } }
  let s := (rangeFrom 0 8).foldl (fun s f => s.onFeeder f (fun x => { x with active := false, live := false })) s
  let s : State := { s with net := { s.net with ports := (rangeFrom 0 2).foldl (fun t p =>
    tset {} t p { tget {} t p with link := false, speed := 0 }) s.net.ports }
                            sbus := (rangeFrom 0 4).foldl (fun t p =>
    let x := tget {} t p
    tset {} t p { x with de := (x.de.1, min x.de.2 s.now) }) s.sbus }
  ((s.loseSources [0, 1, 2, 3]).finalSaveBegin).pulsesOff

/-- SUPPLY_FAIL: VIN below 17.0 V for 20 µs (R573). It is detected in whatever state the module is but in reset; a VIN that had
returned in a shutdown and falls again takes its 100 ms back (R575). -/
def execSupplyFail (dt : Dt) (s : State) : Res :=
  let s := s.tick dt
  .next (if s.pow.phase = .reset then s
    else if s.pow.supplyFail then { s with pow := { s.pow with vinBack := false } }
    else
      let was := s.pow.cmdShutdown
      let s : State := { s with pow := { s.pow with supplyFail := true, cmdShutdown := false, vinBack := false, failAt := s.now } }
      if was then s else s.shed)

/-- The final save's slot once its node part is valid (R249). -/
def State.finalSlot (s : State) : Option Nat :=
  match s.meter.closed, s.meter.saving with
  | some _, some (n, _) => if (s.slotOf n).markN then some n else none
  | _, _ => none

/-- FINAL_SAVE_COMPLETE: the node part is complete and the SUPPLY_FAIL record is written first (16 R507). Where nothing was metered no
save is made, and the record says so (R576; log entry 55). A shutdown by command ends in its reset (R578). -/
def execFinalSaveComplete (dt : Dt) (s : State) : Res :=
  let s := s.tick dt
  let s := s.finalNodePart
  .next (if !s.shutting || s.pow.failRecDone || !s.runs .m || (s.meter.closed.isSome && s.finalSlot.isNone) then s
    else
      let done := s.finalSlot.isSome
      let seq := match s.finalSlot with | some n => (s.slotOf n).seq | none => s.meter.saveSeq
      let s := s.writeRec (s.entry 0x0009 srcClkrst (leBytes 4 seq ++ [b2n done]) false) false
      let s := (s.onEv (fun e => { e with paused := false }))
      let s : State := { s with pow := { s.pow with failRecDone := true, finalDone := done } }
      if s.pow.cmdShutdown then s.moduleReset 5 else s)

/-- The bank alone carries the module to here at the least: 60 ms from detection, of a charged bank of 1.2 mF or more (R572). -/
def Power.heldTo (p : Power) : Nat := if p.holdupOk && decide (120 ≤ p.bankCap) then p.failAt + 60 * msC else p.failAt

/-- RTCIF_ISOLATE: when the final save completes, or 20 ms after detection if that is earlier; the lock ends with the next start of the
M-region (13 R422). -/
def execRtcifIsolate (dt : Dt) (s : State) : Res :=
  let s := s.tick dt
  .next (if s.shutting && s.rtc.lockout && (s.finalSlot.isSome || s.pow.finalDone || decide (s.pow.shedAt + 20 * msC ≤ s.now)) then
    { s with rtc := { s.rtc with isolated := true } } else s)

/-- VIN_RETURN: the rails come from VIN again, and the 100 ms count starts; a VIN that returns once more has fallen below 17.5 V before,
and the count starts again (R575). -/
def execVinReturn (dt : Dt) (s : State) : Res :=
  let s := s.tick dt
  .next (if s.pow.supplyFail then { s with pow := { s.pow with vinBack := true, vinAt := s.now } } else s)

/-- SUPPLY_CYCLE_RESET: the SUPPLY_FAIL record is written and VIN has stood for 100 ms (R575). -/
def execSupplyCycleReset (dt : Dt) (s : State) : Res :=
  let s := s.tick dt
  .next (if s.pow.supplyFail && s.pow.vinBack && s.pow.failRecDone && decide (s.pow.vinAt + 100 * msC ≤ s.now) then
    s.moduleReset 3 else s)

/-- HOLDUP_END: the bank alone feeds the module and is exhausted, not before its hold-up (R572): the rails fall, and the module starts again under R577 with cause
POWER_ON (R574, R575). -/
def execHoldupEnd (dt : Dt) (s : State) : Res :=
  let s := s.tick dt
  .next (if s.pow.supplyFail && !s.pow.vinBack && decide (s.pow.heldTo ≤ s.now) then
      let s := s.moduleReset 1
      { s with pow := { s.pow with vin := 0, bankCap := 0, holdupOk := false } }
    else s)

/-- RST_N_LOW: a low level of 10 µs resets, one below 1 µs never does, and one between may (R599); from detection of supply fail it
has no effect, but to hold the reset that follows (R600). -/
def execRstNLow (dt : Dt) (lowNs : Nat) (s : State) : Res :=
  let s := s.tick dt
  .next (if s.pow.phase = .reset || s.pow.supplyFail || decide (lowNs < 1000) then s
    else if 10000 ≤ lowNs then s.moduleReset 2
    else
      let (b, s) := s.draw 2
      if b = 1 then s.moduleReset 2 else s)

/-- CHIP_FAULT: a chip-level fault that coding cannot mask resets the module (18 R550). -/
def execChipFault (dt : Dt) (s : State) : Res :=
  let s := s.tick dt
  .next (if s.pow.phase = .reset then s else s.moduleReset 4)

/-! ## Start-up (R577, R582-R585) -/

/-- RESET_RELEASE: VIN, the bank and the pins as they are measured (R572, R577, R581). In SWITCHING the new bank is booted whole, and in
TRIAL the start is counted (15 R483, R492). -/
def execResetRelease (dt : Dt) (vin bankCap : Nat) (holdupOk : Bool) (pins : BitVec 8) (s : State) : Res :=
  let s := s.tick dt
  .next (if s.pow.phase ≠ .reset || !holdupOk || decide (vin < 1750) then s
    else
      let s : State := { s with
        now := 0
        pow := { s.pow with
          phase := .bootRom, vin := vin % 4096, bankCap := if s.pow.cause = 1 then bankCap % 1024 else s.pow.bankCap
          holdupOk := true, pinLvl := pins
          fdrOff := BitVec.ofNat 8 ((rangeFrom 0 8).foldl (fun m n => if Config.relayOff (bit pins n) then m + 2 ^ n else m) 0) } }
      let s := if s.pow.cause = 1 && decide (s.pow.bankCap < 120) then
          s.raise .chip 0x0000 srcClkrst (genPay (wClkrst + 4) [(s.pow.bankCap, 2)]) else s
      if s.nv.upd.stage == .switching then s.onUpd Decant.bootNew else s.trialBoot id)

/-- The root as start-up leaves it: programmed at the first start, when that succeeds (14 R429); disabled in SCRAPPED (R455). -/
def State.rootStep (s : State) (programOk : Bool) : State :=
  let s := if s.nv.root.isNone && programOk then
      let (k, s) := s.draw (2 ^ 256)
      (s.onNv (fun v => { v with root := some k })).activate 0 ((roleAttr 0).getD 0) 1 k
    else s
  { s with keys := { s.keys with rootOk := s.nv.root.isSome && !s.nv.rootOff } }

/-- A bank may be booted: its manifest is valid, its checks pass, and its version is not below the OTP's (15 R464, R485). -/
def State.bankOk (s : State) (b ok : Bool) : Bool :=
  let w := s.nv.upd.bank b
  ok && w.valid && decide (s.nv.upd.secVer ≤ w.secVer)

/-- Every component runs from a bank. -/
def Decant.allOn (u : Decant) (b : Bool) : Decant := { u with bankC := b, bankD := b, bankM := b, bankDsp := b }

/-- The other bank is booted and becomes the active one, with one event record (15 R485; log entry 55). -/
def State.otherBank (s : State) : State :=
  (s.onUpd (fun u => { u.allOn (!u.active) with active := !u.active })).raiseGen .m 0x0C 0 []

/-- BOOT_ROM_DONE: OTP is read, and the bank is chosen (R582; 15 R485). The remap tables stand in MRAM. -/
def execBootRomDone (dt : Dt) (manifestOkA manifestOkB programOk : Bool) (s : State) : Res :=
  let s := s.tick dt
  .next (if s.pow.phase ≠ .bootRom then s
    else
      let s := s.rootStep programOk
      let ok := fun (b : Bool) => s.bankOk b (if b then manifestOkB else manifestOkA)
      let go := fun (s : State) (p : Phase) => { s with pow := { s.pow with phase := p } }
      let u := s.nv.upd
      if u.stage == .trial then
        if ok (!u.active) then go (s.onUpd (fun u => u.allOn (!u.active))) .loadM else s.revert 3
      else if ok u.active then go (s.onUpd (fun u => u.allOn u.active)) .loadM
      else if ok (!u.active) then go s.otherBank .loadM
      else go s .bootStuck)

/-- What every start of the M-region does when its image runs: the relays are driven (R581), the recorder scans (16 R501), the network
settings come into force (11 R360), and Decant takes up what was interrupted (15 R492). -/
def State.mRuns (s : State) : State :=
  let s : State := { s with
    pow := { s.pow with drive := if s.shutting then 0 else 0xFF }
    vxc := { s.vxc with netInForce := s.nv.net, alarms := s.accord.alarm } }
  s.evScan.updResume

/-- M_IMAGE_LOADED: M reads RUN (R582). The record of a revert follows the scan (15 R484). -/
def execMImageLoaded (dt : Dt) (s : State) : Res :=
  let s := s.tick dt
  .next (if s.pow.phase ≠ .loadM then s
    else ({ s with pow := { s.pow with phase := .mRuns } } : State).mRuns.revertRecord)

/-- The sign and its bus come out of high impedance and the scan starts (09 R311). -/
def State.signOn (s : State) : State :=
  if s.shutting then s else
    let s := s.signStart
    { s with pow := { s.pow with signHiZ := false } }

/-- KEY_STORE_READY: the keys come into key-store memory, tamper entries are treated, an empty identity slot takes a new key, the backup cell is measured, and the scan starts
(R582; 14 R428, R453, R460; 13 R425). -/
def execKeyStoreReady (dt : Dt) (s : State) : Res :=
  let s := s.tick dt
  .next (if s.pow.phase ≠ .mRuns then s
    else
      let s : State := { s with pow := { s.pow with phase := .keysReady } }
      let s := s.loadKeys.handOver
      let s := if (s.slot 1).st = 0 && s.keys.rootOk && s.nv.lcs != 3 then
          let (k, s) := s.drawKey 3
          s.activate 1 ((roleAttr 1).getD 0) 1 k
        else s
      let (b, s) := s.draw 2
      ({ s with rtc := { s.rtc with batLow := decide (b = 1) } } : State).signOn)

/-- CD_IMAGES_LOADED: C and D read RUN, and the module temperature is measured (R584), once a pending life-cycle wipe is complete (14 R454). An image that fails its check reverts a
trial, and else sends the boot ROM to the other bank (15 R485; log entry 55). -/
def execCdImagesLoaded (dt : Dt) (ok : Bool) (s : State) : Res :=
  let s := s.tick dt
  .next (if s.pow.phase ≠ .keysReady || s.nv.wipeDue then s
    else if ok then ({ s with pow := { s.pow with phase := .cdRun } } : State).measureTemp
    else if s.nv.upd.stage == .trial then s.revert 3
    else
      let s := s.otherBank
      { s with pow := { s.pow with phase := .bootRom, drive := 0, signHiZ := true }, sign := s.sign.kept })

/-- The resume value u (02 R73). Where LIN has wrapped since the save, the difference is negative and e is 0 (DESIGN CHOICE, log entry 56). -/
def State.resumeValue (s : State) : Nat × Nat :=
  match s.newestSlot with
  | none => (0, 0)
  | some n =>
    let x := s.slotOf n
    if x.rtcValid && s.bk.valid then
      let now : Int := s.lin * 32768 + s.bk.sub
      let e := now - (x.rtcSec * 32768 + x.rtcSub : Nat)
      (x.s, x.s + ceilDiv (e.toNat * 123) 32768 + 65536)
    else (x.s, x.s + 4294967296)

/-- The discards that the last reset made, one record for each region that held actions (02 R90). -/
def State.lostRecords (s : State) : State :=
  let l := s.pow.lostActs
  let s := [Region.c, .d, .m].foldl (fun s r => if l.get r = 0 then s else s.raiseGen r 0x02 0 [(l.get r, 2)]) s
  { s with pow := { s.pow with lostActs := ⟨0, 0, 0⟩ } }

/-- RESTORE_STEP: totals, configuration, limits and levels come back, RTC_VALID is read, and the lock step begins (R582; 02 R59, R60,
R73, R74; 05 R193; 07 R250; 13 R425). -/
def execRestoreStep (dt : Dt) (s : State) : Res :=
  let s := s.tick dt
  .next (if s.pow.phase ≠ .cdRun then s
    else
      let s := (((s.loadD.restoreTotals true).loadC).loadFallback).lostRecords
      let s := if s.bk.valid then s else s.raiseFw .m 0x0202 []
      let s := if s.rtc.batLow then s.raiseGen .m 0x02 (wRtcif + 0x24) [] else s
      let u := s.resumeValue
      let v := s.nv
      { s with
        sil := { s.sil with passLimit := passLimitUs v.profileSel }
        pow := { s.pow with phase := .lockStep, pulseHiZ := s.shutting }
        tb := { s.tb with
          sel := v.profileSel, vset := v.fdrVset, fixed := decide (v.profileSel ≠ 2)
          p60 := decide (v.profileSel = 1) || (decide (v.profileSel = 2) && v.lastP60)
          vnomA := v.meterCfg.vnomA, vnomB := v.meterCfg.vnomB, savedS := u.1, resume := u.2, lockAt := s.now } })

/-! ## Life-cycle wipe (14 R453) -/

/-- MRAM after the wipe: identity, OTP content, the recorder's areas, converter trims, the firmware sets and their banks, and the spare
maps stay; everything else returns to its default (R453). A transfer or activation before SWITCHING is deleted (15 R493). -/
def Nv.wiped (v : Nv) : Nv :=
  { ({} : Nv) with
    coated := v.coated, serial := v.serial, mac0 := v.mac0, mac1 := v.mac1
    trims := v.trims, keyAreas := v.keyAreas, root := v.root, rootOff := v.rootOff, lcs := v.lcs, otpLeft := v.otpLeft
    upd := if v.upd.stage.no < 6 then { v.upd.drop.dropAct with stage := .idle } else v.upd
    permArea := v.permArea, circArea := v.circArea, permStarted := v.permStarted, evWrap := v.evWrap
    mramUsed := v.mramUsed, aUsed := v.aUsed, bUsed := v.bUsed, eraseA := v.eraseA, eraseB := v.eraseB, remap := v.remap }

/-- The zero save slot that carries the newest saved HCN and its RTC time forward (R453). -/
def State.zeroSlot (s : State) : SaveSlot :=
  match s.newestSlot with
  | none => {}
  | some n =>
    let x := s.slotOf n
    { seq := x.seq + 1, markF := true, markN := true, s := x.s, rtcSec := x.rtcSec, rtcSub := x.rtcSub, rtcValid := x.rtcValid }

/-- LIFECYCLE_WIPE_DONE: the wipe and the zero save are complete, the LIFECYCLE record is written, and the module resets (R453). -/
def execLifecycleWipeDone (dt : Dt) (s : State) : Res :=
  let s := s.tick dt
  .next (if !(s.nv.wipeDue && s.runs .m) then s
    else
      let z := s.zeroSlot
      let from_ := s.nv.wipeFrom
      let s := s.onNv (fun v => { v.wiped with slot0 := z })
      let s : State := { s with mem := s.mem.wipe 0x10000000 0x10800000 }
      (s.writeRec (s.entry 0x0008 (srcFw .m) [from_, s.nv.lcs] false) false).moduleReset 6)

end Sys2Proof.Machine
end

