-- ==== Sys2Proof/Machine/Regs.lean ====
section
/-!
DEFINITION. Block registers at their addresses (00 R10-R14, 01 R49, and the Registers section of each chapter): what a read returns,
what it changes, and what a write does, whoever the master is (01 R51, R54).
-/
namespace Sys2Proof.Machine

/-- The lower and the upper word of a register pair. -/
def loW (v : Nat) : Nat := v % 4294967296
def hiW (v : Nat) : Nat := v / 4294967296

/-- The upper half of an HCN: the value latched by the last read of the lower half, once there has been one (01 R42). -/
def hiHalf (latch : Option Nat) (v : Nat) : Nat := latch.getD (v / 4294967296 % 65536)

/-! ## Values -/

/-- MEM_CNT, MEM_UADDR and MEM_SCRUB of the macros of a window, by offset (17 R545). -/
def State.memReg (s : State) (first count off : Nat) : Option Nat :=
  let i := (off - 0x1000) / 16
  if off < 0x1000 ∨ count ≤ i then none
  else match off % 16 with
    | 0 => some (s.memCnt (first + i))
    | 4 => some (s.memUaddr (first + i))
    | 8 => some (s.memScrub (first + i))
    | _ => none

/-- DMA registers (17 R545). -/
def State.dmaReg (s : State) (r : Region) (off : Nat) : Option Nat :=
  if off = 0x200 then some (s.jnc.dma.get r).irq.toNat
  else
    let n := off / 16
    if 20 ≤ n then none
    else match off % 16 with
      | 0 => some (s.chan r n).desc
      | 4 => some 0
      | 8 => some (s.chan r n).stat
      | _ => none

/-- JNC window (01, 02). -/
def State.jncReg (s : State) (off : Nat) : Option Nat :=
  match off with
  | 0x10 => some 0
  | 0x14 => some 0
  | 0x18 => some 0
  | 0x20 => some s.jnc.dbPend.c.toNat
  | 0x24 => some s.jnc.dbPend.d.toNat
  | 0x28 => some s.jnc.dbPend.m.toNat
  | 0x40 => some (loW s.tb.hcn)
  | 0x44 => some (hiHalf s.jnc.hcnHiLatch s.tb.hcn)
  | 0x48 => some s.tb.stat
  | 0x4C => some s.tb.period
  | 0x50 => some s.tb.bofsShown
  | 0x54 => some s.tbCfg
  | 0x60 => some s.regionStat
  | _ => s.memReg 128 2 off

/-- SILLAGE window (05 R195). -/
def State.silReg (s : State) (off : Nat) : Option Nat :=
  let q := fun (n : Nat) => s.feeder n
  match off with
  | 0x00 => some s.sil.stat
  | 0x04 => some s.sil.cfg
  | 0x08 => some s.passReg
  | 0x0C => some s.sil.cnt
  | 0x10 => some (loW s.sil.last)
  | 0x14 => some (hiHalf s.sil.lastHiLatch s.sil.last)
  | 0x18 => some (loW s.sil.rst)
  | 0x1C => some (hiW s.sil.rst)
  | _ =>
    if off % 4 ≠ 0 then none
    else if 0x40 ≤ off ∧ off < 0x60 then
      let x := q ((off - 0x40) / 4)
      some (pack [(16, 12, x.queue.length), (8, 8, x.age), (0, 1, b2n x.sat)])
    else if 0x60 ≤ off ∧ off < 0x80 then
      let x := q ((off - 0x60) / 4)
      some (pack [(16, 16, x.satFrames), (0, 16, x.aged)])
    else none

/-- WTX and WRX windows (03 R115). -/
def State.wtxReg (s : State) (off : Nat) : Option Nat :=
  match off with
  | 0 => some s.wtx.assignReg
  | 4 => some s.wtx.stat
  | _ => if 0x10 ≤ off ∧ off < 0x30 ∧ off % 4 = 0 then some (tget 0 s.wtx.atten ((off - 0x10) / 4)) else none
def State.wrxReg (s : State) (off : Nat) : Option Nat :=
  if 0x80 ≤ off then none
  else match off % 16 with
    | 0 => some (s.wrxQ (off / 16))
    | 4 => some (s.rxp (off / 16)).cnt
    | _ => none

/-- AGE and HOURS in units of 0.01 h (18 R558, R568). -/
def State.ageReg (s : State) : Nat := s.cfgAt 6 (s.meter.age / 2 ^ 32 / 36)
def State.hoursReg (s : State) : Nat := s.cfgAt 6 (s.meter.hours / 36)

/-- MAFE window (07 R259, 18 R568). -/
def State.mafeReg (s : State) (off : Nat) : Option Nat :=
  match off with
  | 0x80 => some s.mafeTemp
  | 0x84 => some s.mafeStat
  | 0x88 => some s.meter.infail.toNat
  | 0x8C => some s.ageReg
  | 0x90 => some s.hoursReg
  | _ => if off < 0x80 ∧ off % 4 = 0 then some (s.convReg (off / 4)) else none

/-- MDSP window (07 R259). -/
def State.mdspReg (s : State) (off : Nat) : Option Nat :=
  let c := s.cfgShown
  match off with
  | 0x00 => some (pack [(16, 10, c.calInt), (0, 6, c.saveInt)])
  | 0x04 => some c.vnomA
  | 0x08 => some c.vnomB
  | 0x10 => some s.meter.saveSeq
  | 0x14 => some (loW s.meter.saveHcn)
  | 0x18 => some (hiHalf s.meter.saveHiLatch s.meter.saveHcn)
  | 0x20 => some (loW s.meter.snap.reg)
  | 0x24 => some (hiW s.meter.snap.reg)
  | _ => none

/-- PULSE window (07 R259). -/
def State.pulseReg (s : State) (off : Nat) : Option Nat :=
  let src := fun (o : Nat) => pack [(8, 8, (s.meter.cfg.out o).mask.toNat), (0, 4, (s.meter.cfg.out o).qty)]
  match off with
  | 0x00 => some (src 0)
  | 0x04 => some (s.meter.cfg.out 0).const
  | 0x10 => some (src 1)
  | 0x14 => some (s.meter.cfg.out 1).const
  | 0x20 => some s.pulseStat
  | 0x24 => some s.pulseFlag
  | _ => none

/-- ACCORD, BLOTCMD and BLOTCOR windows (08 R297). -/
def State.accordReg (s : State) (off : Nat) : Option Nat :=
  match off with
  | 0 => some (pack [(16, 16, s.accord.resThr), (0, 6, s.accord.attTol)])
  | 4 => some s.accord.alarm.toNat
  | 8 => some (pack [(16, 16, s.accord.held), (0, 16, s.accord.unmeas)])
  | _ => none
def State.blotcmdReg (s : State) (off : Nat) : Option Nat :=
  match off with
  | 0 => some s.blot.bcCfg.toNat
  | 4 => some s.bcStat
  | _ => none
def State.blotcorReg (s : State) (off : Nat) : Option Nat :=
  if off = 0 then some s.blot.brCfg.toNat
  else if 0x100 ≤ off ∧ off < 0x160 ∧ off % 4 = 0 then some (s.brNf ((off - 0x100) / 4))
  else none

/-- ETH, PRP and PTP windows (12 R409). -/
def State.ethReg (s : State) (p off : Nat) : Option Nat :=
  let e := s.eport p
  if off = 0 then some (pack [(16, 16, e.rxDrop), (8, 8, e.linkCnt), (2, 1, b2n e.link), (0, 2, e.speed)]) else none
def State.prpReg (s : State) (off : Nat) : Option Nat :=
  let e := s.eport (off / 16)
  if 0x20 ≤ off then none
  else match off % 16 with
    | 0 => some e.dup
    | 4 => some (pack [(16, 16, e.wrongLan), (0, 16, e.evict)])
    | _ => none

/-- PTP_STAT. -/
def Net.stat (n : Net) : Nat :=
  pack [(24, 8, n.stepCnt), (8, 4, ofBits ((rangeFrom 0 4).map (fun i => (tget {} n.srcs i).qual))), (4, 2, n.src.getD 0),
    (2, 1, b2n n.slewing), (0, 2, n.ptpSrc)]

/-- PTP window. -/
def State.ptpReg (s : State) (off : Nat) : Option Nat :=
  match off with
  | 0x00 => some s.net.ns
  | 0x04 => some (loW s.net.latch.1)
  | 0x08 => some (hiW s.net.latch.1)
  | 0x0C => some s.net.latch.2
  | 0x10 => some (loW s.net.incr)
  | 0x14 => some (hiW s.net.incr)
  | 0x18 => some 0
  | 0x1C => some 0
  | 0x20 => some s.net.stat
  | _ => none

/-- A word of a slot's public point: X then Y, each big-endian (14 R463). -/
def pubWord (x y k : Nat) : Nat :=
  let v := x * 2 ^ 256 + y
  let b := fun (i : Nat) => v / 256 ^ (63 - (4 * k + i)) % 256
  ofBytes [b 0, b 1, b 2, b 3]

/-- KEYST window (14 R463). -/
def State.keyReg (s : State) (off : Nat) : Option Nat :=
  if off = 0 then some s.ksStat
  else if off = 4 then some s.ksTcfg
  else if off % 4 ≠ 0 then none
  else if 0x100 ≤ off ∧ off < 0x300 then
    let a := s.attrShown ((off - 0x100) / 8)
    some (if off % 8 = 0 then loW a else hiW a)
  else if 0x1000 ≤ off ∧ off < 0x2000 then
    let k := s.slot ((off - 0x1000) / 64)
    some (if k.type = 3 ∨ k.type = 4 then s.cfgAt 4 (pubWord k.pubX k.pubY (off % 64 / 4)) else 0)
  else none

/-- NVMC window (15, 18 R568). -/
def State.nvmcReg (s : State) (off : Nat) : Option Nat :=
  match off with
  | 0x00 => some s.nvmcBoot
  | 0x10 => some s.nvmcSpare
  | 0x14 => some (s.cfgAt 2 (s.nv.eraseMax false))
  | 0x18 => some (s.cfgAt 2 (s.nv.eraseMax true))
  | _ => none

/-- RTCIF window (13 R413, R414, R426). -/
def State.rtcReg (s : State) (off : Nat) : Option Nat :=
  if off % 4 ≠ 0 then none
  else if off < 0x18 then
    match s.frozen with
    | some (sub, secs) => some (rtcField off sub secs)
    | none => some (rtcField off s.bk.sub s.bk.secs)
  else if 0x50 ≤ off ∧ off < 0xD0 then
    let w := ((s.bk.log[(off - 0x50) / 16]?).map TlogEntry.item).getD 0
    if off % 16 = 12 then none else some (w / 2 ^ (8 * (off % 16)) % 4294967296)
  else match off with
    | 0x18 => match s.frozen with
      | some (sub, secs) => some (2 ^ 31 + rtcField 0x18 sub secs)
      | none => some (rtcField 0x18 s.bk.sub s.bk.secs)
    | 0x20 => some 0
    | 0x24 => some s.rtcStat
    | 0x40 => some s.bk.tlogStat
    | 0x44 => some 0
    | _ => none

/-- SINK window (09 R331). -/
def State.sinkReg (s : State) (off : Nat) : Option Nat :=
  match off with
  | 0x00 => some (s.cfgAt 4 s.nv.signCfg.gcur)
  | 0x04 => some s.sign.sinkStat
  | 0x08 => some (loW s.sign.excl.toNat)
  | 0x0C => some (hiW s.sign.excl.toNat)
  | _ => if 0x100 ≤ off ∧ off < 0x1C8 ∧ off % 4 = 0 then some (s.sinkCol ((off - 0x100) / 4)) else none

/-- SCAN window (09 R331, R308). -/
def State.scanReg (s : State) (off : Nat) : Option Nat :=
  let g := s.sign
  if off % 4 ≠ 0 then none
  else if 0x400 ≤ off ∧ off < 0x600 then
    let w := (s.faultBlock ((off - 0x400) / 32)).getD (off % 32 / 8) 0
    some (if off % 8 = 0 then loW w else hiW w)
  else if 0x1000 ≤ off ∧ off < 0x1800 then
    some (ofBytes ((rangeFrom (off - 0x1000) 4).map (fun i => if i % 64 < 50 then tget 0 g.pix i else 0)))
  else match off with
    | 0x00 => some (s.cfgAt 4 s.nv.signCfg.scan.toNat)
    | 0x04 => some g.scanStat
    | 0x08 => some g.frameLen
    | 0x0C => some g.slotLen
    | 0x10 => some (loW g.swapReg)
    | 0x14 => some ((g.swapReg / 2 ^ 48) * 2 ^ 16 + hiHalf g.swapHiLatch (g.swapReg % 2 ^ 48))
    | _ => none

/-- SBUS window (09 R331). -/
def State.sbusReg (s : State) (off : Nat) : Option Nat :=
  let x := s.port (off / 16)
  if 0x40 ≤ off then none
  else match off % 16 with
    | 0 => some x.stat
    | 4 => some (loW x.pres.toNat)
    | 8 => some (hiW x.pres.toNat)
    | _ => none

/-- The region fabric windows: VOTER_STAT and the macros (01, 17 R545). -/
def State.fabReg (s : State) (r : Region) (first count off : Nat) : Option Nat :=
  if off = 0 then some (s.jnc.voters.get r).stat else s.memReg first count off

/-- A register that a chapter describes. -/
def State.regOf (s : State) (a : Nat) : Option Nat :=
  let off := a % 65536
  match a / 65536 % 256 with
  | 0x00 => match off with
    | 0 => some s.rstCause
    | 4 => some s.pow.pwrStat
    | 8 => some s.pow.rly
    | _ => none
  | 0x01 => s.jncReg off
  | 0x03 => match off with
    | 0 => some s.evtinStat
    | 4 => some (s.cfgAt 4 s.ev.nextSeq)
    | 8 => some (s.cfgAt 4 s.nv.evWrap)
    | 12 => some s.ev.dropReg
    | _ => if 0x100 ≤ off ∧ off < 0x1C0 then some 0 else none
  | 0x10 => s.fabReg .c 0 48 off
  | 0x11 => s.silReg off
  | 0x12 => s.blotcmdReg off
  | 0x14 => s.wtxReg off
  | 0x15 => s.wrxReg off
  | 0x16 => s.dmaReg .c off
  | 0x20 => s.fabReg .d 48 32 off
  | 0x21 => s.mafeReg off
  | 0x22 => s.mdspReg off
  | 0x23 => s.accordReg off
  | 0x24 => s.blotcorReg off
  | 0x25 => s.pulseReg off
  | 0x26 => s.dmaReg .d off
  | 0x30 => s.fabReg .m 80 48 off
  | 0x31 => s.ethReg 0 off
  | 0x32 => s.ethReg 1 off
  | 0x33 => s.prpReg off
  | 0x34 => s.ptpReg off
  | 0x35 => s.keyReg off
  | 0x36 => s.nvmcReg off
  | 0x37 => s.rtcReg off
  | 0x38 => s.sinkReg off
  | 0x39 => s.scanReg off
  | 0x3A => s.sbusReg off
  | 0x3C => s.dmaReg .m off
  | _ => none

/-- The value of a 32-bit read; where no chapter describes a register, a free value (log entry 7). -/
def State.regGet (s : State) (a : Nat) : Nat := ((s.regOf a).getD (Config.undescribed a)) % 4294967296

/-! ## What a read changes -/

/-- The RC counters of a register set to values, the lowest field first; none for a register without RC fields (00 R13). -/
def State.rcSet (s : State) (a : Nat) (v : Nat → Nat) : Option State :=
  let off := a % 65536
  match a / 65536 % 256 with
  | 0x11 => if 0x60 ≤ off ∧ off < 0x80 ∧ off % 4 = 0
      then some (s.onFeeder ((off - 0x60) / 4) (fun x => { x with aged := v 0, satFrames := v 1 })) else none
  | 0x15 => if off < 0x80 ∧ off % 16 = 4
      then some (s.onRx (off / 16) (fun x => { x with decodeFail := v 0, decoded := v 1 })) else none
  | 0x23 => if off = 8 then some { s with accord := { s.accord with unmeas := v 0, held := v 1 } } else none
  | 0x31 => if off = 0 then some (s.onEport 0 (fun x => { x with rxDrop := v 0 })) else none
  | 0x32 => if off = 0 then some (s.onEport 1 (fun x => { x with rxDrop := v 0 })) else none
  | 0x33 =>
    if off = 0 ∨ off = 16 then some (s.onEport (off / 16) (fun x => { x with dup := v 0 }))
    else if off = 4 ∨ off = 20 then some (s.onEport (off / 16) (fun x => { x with evict := v 0, wrongLan := v 1 }))
    else none
  | 0x39 => if off = 4 then some (s.onSign (fun g => { g with cutCnt := v 0 })) else none
  | 0x3A => if off < 0x40 ∧ off % 16 = 0
      then some (s.onPort (off / 16) (fun x => { x with crcErr := v 0, timeouts := v 1, echoFail := v 2 })) else none
  | _ => none

/-- What a 32-bit read changes: RC counters clear, halves of HCNs latch, the PTP clock latches, the calendar freezes (00 R13; 01 R42;
12 R409; 13 R414). -/
def State.regAfter (s : State) (a : Nat) : State :=
  let off := a % 65536
  match s.rcSet a (fun _ => 0) with
  | some t => t
  | none =>
    match a / 65536 % 256 with
    | 0x01 => if off = 0x40 then { s with jnc := { s.jnc with hcnHiLatch := some (s.tb.hcn / 4294967296 % 65536) } } else s
    | 0x11 => if off = 0x10 then s.onSil (fun g => { g with lastHiLatch := some (g.last / 4294967296 % 65536) }) else s
    | 0x22 => if off = 0x14 then s.onMeter (fun m => { m with saveHiLatch := some (m.saveHcn / 4294967296 % 65536) }) else s
    | 0x34 => if off = 0 then s.onNet (fun n => { n with latch := (n.sec, n.frac) }) else s
    | 0x37 =>
      if off < 0x18 ∧ off % 4 = 0 ∧ s.frozen = none
        then { s with rtc := { s.rtc with shadow := some (s.bk.sub, s.bk.secs, s.now) } }
      else if off = 0x18 then { s with rtc := { s.rtc with shadow := none } }
      else s
    | 0x39 => if off = 0x10 then s.onSign (fun g => { g with swapHiLatch := some (g.swapHcn / 4294967296 % 65536) }) else s
    | _ => s

/-! ## What a write does -/

/-- DMA registers: CH_DESC in IDLE, START and ABORT, DMA_IRQ (17 R531, R540, R545). -/
def State.dmaWrite (s : State) (r : Region) (off : Nat) (v : BitVec 32) : State :=
  if off = 0x200 then
    let b := s.jnc.dma.get r
    { s with jnc := { s.jnc with dma := s.jnc.dma.set r { b with irq := b.irq &&& ~~~v } } }
  else
    let n := off / 16
    if 20 ≤ n then s
    else match off % 16 with
      | 0 => if (s.chan r n).st = .idle then s.onChan r n (fun c => { c with desc := v.toNat - v.toNat % 16 }) else s
      | 4 =>
        let s := if bit v 0 then s.dmaStart r n else s
        if bit v 1 then s.dmaAbort r n else s
      | _ => s

/-- The configured fields of the metering registers take effect at once (07, 01 R54). -/
def State.mdspWrite (s : State) (off : Nat) (v : BitVec 32) : State :=
  let put := fun (g : MeterCfg → MeterCfg) => s.onMeter (fun m => { m with cfg := g m.cfg })
  match off with
  | 0x00 => put (fun c => { c with calInt := fld v 16 10, saveInt := fld v 0 6 })
  | 0x04 => let s := put (fun c => { c with vnomA := v.toNat }); { s with tb := { s.tb with vnomA := v.toNat } }
  | 0x08 => let s := put (fun c => { c with vnomB := v.toNat }); { s with tb := { s.tb with vnomB := v.toNat } }
  | _ => s

/-- PULSE window. -/
def State.pulseWrite (s : State) (off : Nat) (v : BitVec 32) : State :=
  let put := fun (o : Nat) (g : PulseCfg → PulseCfg) =>
    s.onMeter (fun m => { m with cfg := { m.cfg with pulse := tset {} m.cfg.pulse o (g (m.cfg.out o)) } })
  match off with
  | 0x00 => put 0 (fun c => { c with mask := BitVec.ofNat 8 (fld v 8 8), qty := fld v 0 4 })
  | 0x04 => put 0 (fun c => { c with const := v.toNat })
  | 0x10 => put 1 (fun c => { c with mask := BitVec.ofNat 8 (fld v 8 8), qty := fld v 0 4 })
  | 0x14 => put 1 (fun c => { c with const := v.toNat })
  | 0x24 =>
    let s := if bit v 0 then s.satClear 0 else s
    if bit v 1 then s.satClear 1 else s
  | _ => s

/-- SCAN window: the configuration, populated positions, and the frame buffers. -/
def State.scanWrite (s : State) (off : Nat) (v : BitVec 32) : State :=
  if off % 4 ≠ 0 then s
  else if off = 0 then s.onSignCfg (fun c => { c with scan := setFld v 18 1 0 })
  else if 0x400 ≤ off ∧ off < 0x600 ∧ 24 ≤ off % 32 then
    s.onSignCfg (fun c =>
      let r := (off - 0x400) / 32
      let w := tget 0 c.pop r
      { c with pop := tset 0 c.pop r (if off % 8 = 0 then setFld w 0 32 v.toNat else setFld w 32 18 v.toNat) })
  else if 0x1000 ≤ off ∧ off < 0x1800 then
    s.onSign (fun g => { g with pix := pixWrite g.pix 0 (off - 0x1000) (leBytes 4 v.toNat) })
  else s

/-- RTCIF window: buffered fields, the set, steps, the log's removal (13 R416, R418, R426). -/
def State.rtcWrite (s : State) (off : Nat) (v : BitVec 32) : State :=
  match off with
  | 0x08 => s.rtcSet (fld v 0 6)
  | 0x20 => if bit v 0 then s.rtcStep true (bit v 1) else if bit v 1 then s.rtcStep false false else s
  | 0x44 => { s with bk := { s.bk with log := s.bk.log.drop (fld v 0 4) } }
  | _ => { s with rtc := s.rtc.load off v }

/-- A 32-bit write of a register, by its access code; a read-only field and a register that no chapter describes take no effect
(00 R12; 01 R54; log entry 7). -/
def State.regSet (s : State) (a : Nat) (v : BitVec 32) : State :=
  let off := a % 65536
  match a / 65536 % 256 with
  | 0x01 => match off with
    | 0x10 => s.ringDb .c v
    | 0x14 => s.ringDb .d v
    | 0x18 => s.ringDb .m v
    | 0x20 => s.clearDb .c v
    | 0x24 => s.clearDb .d v
    | 0x28 => s.clearDb .m v
    | 0x54 => s.onNv (fun n => { n with fdrVset := BitVec.ofNat 8 (fld v 8 8), profileSel := fld v 0 2 })
    | _ => s
  | 0x11 => if off = 4 then s.onSil (fun g => { g with ageLimit := fld v 16 8, substeps := fld v 0 4 }) else s
  | 0x12 => if off = 0 then s.onBlot (fun b => { b with bcCfg := v }) else s
  | 0x14 => if 0x10 ≤ off ∧ off < 0x30 ∧ off % 4 = 0
      then s.onWtx (fun w => { w with atten := tset 0 w.atten ((off - 0x10) / 4) (fld v 0 6) }) else s
  | 0x16 => s.dmaWrite .c off v
  | 0x22 => s.mdspWrite off v
  | 0x23 => if off = 0 then { s with accord := { s.accord with resThr := fld v 16 16, attTol := fld v 0 6 } } else s
  | 0x24 => if off = 0 then s.onBlot (fun b => { b with brCfg := BitVec.ofNat 32 (pack [(16, 5, fld v 16 5), (0, 6, fld v 0 6)]) }) else s
  | 0x25 => s.pulseWrite off v
  | 0x26 => s.dmaWrite .d off v
  | 0x34 => match off with
    | 0x10 => s.setIncr (hiW s.net.incr * 2 ^ 32 + v.toNat)
    | 0x14 => s.setIncr (fld v 0 8 * 2 ^ 32 + loW s.net.incr)
    | _ => s
  | 0x35 => if off = 4 then s.onNv (fun n => { n with respB := fld v 2 2, respA := fld v 0 2 }) else s
  | 0x37 => s.rtcWrite off v
  | 0x38 =>
    if off = 0 then s.onSignCfg (fun c => { c with gcur := fld v 0 8 })
    else if 0x100 ≤ off ∧ off < 0x1C8 ∧ off % 4 = 0
      then s.onSignCfg (fun c => { c with trims := tset 32 c.trims ((off - 0x100) / 4) (fld v 0 6) })
    else s
  | 0x39 => s.scanWrite off v
  | 0x3C => s.dmaWrite .m off v
  | _ => s

/-! ## Accesses (01 R48-R51, 17 R513-R516) -/

/-- Pairs that take a 64-bit read, and pairs that take a 64-bit write (01 R42; 05, 09; 12 R399). -/
def read64 (a : Nat) : Bool :=
  [wJnc + 0x40, wSillage + 0x10, wScan + 0x10].contains a
def write64 (a : Nat) : Bool := [wPtp + 0x10, wPtp + 0x18].contains a

/-- A window's interface answers: its region runs, and the RTC interface is not isolated (01 R43; 13 R422). -/
def State.answers (s : State) (a : Nat) : Bool :=
  s.reachable a && !(a / 65536 == 0x4037 && (s.rtc.isolated || s.bk.onVbat))

/-- A read of `width` bytes: the value, or none with the bus error that the master meets. -/
def State.readAcc (s : State) (m : Master) (a width : Nat) (found : Damage) : Option Nat × State :=
  let fail := fun (s : State) => ((none : Option Nat), s.busErr m a false)
  if a % width ≠ 0 ∨ s.answers a = false then fail s
  else if isRam a || isFlash a then
    let v := s.visit a found
    if v.1 then (some (ofBytes (v.2.bytesAt a width)), v.2) else fail v.2
  else if isReg a then
    if width = 4 then (some (s.regGet a), s.regAfter a)
    else if width = 8 && read64 a then (some (s.regGet a + match a / 65536 % 256 with
        | 0x01 => 2 ^ 32 * (s.tb.hcn / 2 ^ 32 % 65536)
        | 0x11 => 2 ^ 32 * (s.sil.last / 2 ^ 32 % 65536)
        | 0x39 => 2 ^ 32 * (s.sign.swapReg / 2 ^ 32)
        | _ => 2 ^ 32 * s.regGet (a + 4)), s)
    else fail s
  else fail s

/-- A 128-bit write into an intake port: the write at 30h pushes the entry (16 R502). -/
def State.portWrite (s : State) (a v : Nat) : Option State :=
  let off := a % 65536
  if a / 65536 ≠ 0x4003 ∨ off < 0x100 ∨ 0x1C0 ≤ off then none
  else
    let r := match (off - 0x100) / 64 with
      | 0 => Region.c
      | 1 => .d
      | _ => .m
    let w := setFld (s.ev.ports.get r) (8 * (off % 64)) 128 v
    let s := s.onEv (fun e => { e with ports := e.ports.set r w })
    some (if off % 64 = 0x30 then s.raise (queueOf r) (evCode w) (fld w 176 32) (leBytes 32 (fld w 208 256)) else s)

/-- A write of `width` bytes: true, or false with the bus error that the master meets. -/
def State.writeAcc (s : State) (m : Master) (a width v : Nat) (found : Damage) : Bool × State :=
  let fail := fun (s : State) => (false, s.busErr m a true)
  if a % width ≠ 0 ∨ s.answers a = false then fail s
  else if isRam a then
    if width = 16 then (true, (s.unpoison a).setBytes a (leBytes 16 v))
    else
      let x := s.visit a found
      if x.1 then (true, x.2.setBytes a (leBytes width v)) else fail x.2
  else if isReg a then
    if width = 4 then (true, s.regSet a (BitVec.ofNat 32 v))
    else if width = 8 && write64 a then (true, if a % 65536 = 0x10 then s.setIncr (v % 2 ^ 40) else s.ptpStep (sext 64 v))
    else match (if width = 16 then s.portWrite a v else none) with
      | some t => (true, t)
      | none => fail s
  else fail s

/-! ## Rows -/

/-- REGISTER_WRITE: a master writes a register (00 R12, 01 R51). -/
def execRegisterWrite (dt : Dt) (m : Master) (addr : Nat) (value : BitVec 32) (s : State) : Res :=
  .next ((s.tick dt).writeAcc m addr 4 value.toNat []).2

/-- RC_COUNTER_READ: the value goes to the master, the counters clear, and an increment that coincides is kept: bit i of `inc` is such
an increment of the i-th counter from the lowest bit (00 R13). A register without RC counters is left as it is. -/
def execRcCounterRead (dt : Dt) (m : Master) (addr inc : Nat) (s : State) : Res :=
  let t := s.tick dt
  .next (if !isReg addr || addr % 4 != 0 || !t.answers addr then t.busErr m addr false
    else match t.rcSet addr (fun i => b2n (inc.testBit i)) with
    | some u => u.emit (.readData addr (t.regGet addr))
    | none => t)

/-- JNC_HCN_LO_READ: the upper half is latched (01 R42). -/
def execJncHcnLoRead (dt : Dt) (_m : Master) (s : State) : Res :=
  let t := s.tick dt
  .next ((t.regAfter (wJnc + 0x40)).emit (.readData (wJnc + 0x40) (loW t.tb.hcn)))

/-- DB_SET_WRITE: the bits set once the writer's earlier writes have completed; a clearing write that coincides loses to the set (01
R38-R40). -/
def execDbSetWrite (dt : Dt) (_m : Master) (target : Region) (bits w1c : BitVec 32) (s : State) : Res :=
  .next (((s.tick dt).clearDb target w1c).ringDb target bits)

end Sys2Proof.Machine
end

