-- ==== Sys2Proof/Machine/TestCmd.lean ====
section
/-!
DEFINITION. The TEST group (11, table "TEST commands", R380): self-test, return to service, retirement, reserves, restart and wear
thresholds (18 R556, R557, R562-R566); and the module's age (18 R558). A procedure of the table "Return to service" is one step (log
entry 54).
-/
namespace Sys2Proof.Machine

/-! ## Units (R380) -/

/-- Units of a kind: 12 cores, 9 stages, 8 receive paths, 32 converters, 50 sink cells. -/
def unitCount (kind : Nat) : Nat :=
  match kind with
  | 0 => 12 | 1 => 9 | 2 => 8 | 3 => 32 | 4 => 50 | _ => 0

/-- The region of a core. -/
def coreRegion (index : Nat) : Region := if index < 4 then .c else if index < 8 then .d else .m

/-- Change a region's voter. -/
def State.onVoter (s : State) (r : Region) (g : Voter → Voter) : State :=
  { s with jnc := { s.jnc with voters := s.jnc.voters.set r (g (s.jnc.voters.get r)) } }

/-- A unit in service (R557). -/
def State.unitServes (s : State) (kind index : Nat) : Bool :=
  match kind with
  | 0 => bit (s.jnc.voters.get (coreRegion index)).members (index % 4)
  | 1 => (rangeFrom 0 8).any (fun f => s.wtx.of f == some index)
  | 2 => !(s.rxp index).rxFail
  | 3 => (s.conv index).role == .measure || (s.conv index).role == .shadow || (s.conv index).role == .cal
  | _ => s.sign.cells.any (fun e => e.2 == index)

/-- An excluded unit. -/
def State.unitExcluded (s : State) (kind index : Nat) : Bool :=
  match kind with
  | 0 => bit (s.jnc.voters.get (coreRegion index)).excluded (index % 4)
  | 1 => bit s.wtx.excluded index
  | 2 => (s.rxp index).rxFail
  | 3 => (s.conv index).role == .excluded
  | _ => bit s.sign.excl index

/-- A unit available as a spare. -/
def State.unitSpare (s : State) (kind index : Nat) : Bool :=
  match kind with
  | 0 => (s.jnc.voters.get (coreRegion index)).spare == some (index % 4)
  | 1 => s.wtx.spareValid && s.wtx.spare == some index
  | 2 => false
  | 3 => (s.conv index).role == .spare
  | _ => s.sign.spares.contains index

/-- RANGE of KIND and INDEX. -/
def unitBad (kind index : Nat) : Bool := decide (unitCount kind ≤ index)

/-- TEST SELFTEST of a spare or an excluded unit: RESULT 0 and DATA; a failure answers FAULT (R380, R566). -/
def execTestSelftest (r : Req) (kind index : Nat) (pass : Bool) (data : Nat) (s : State) : Res :=
  hostCmd { cmd := 0x0F01, need := .test } r (fun _ t =>
    checked [(unitBad kind index, .range), (!(t.unitSpare kind index || t.unitExcluded kind index), .state)]
      (if pass then .ok [(0, 1), (data, 8)] t else .ended .fault [(0, 4)] t)) s

/-- A unit that passed its return re-enters: a core as spare, the others at the point of need (R563, R564). -/
def State.reenter (s : State) (kind index : Nat) : State :=
  match kind with
  | 0 => (s.onVoter (coreRegion index) (fun v =>
      ({ v with excluded := setBit v.excluded (index % 4) false } : Voter).withSpare)).reserveNote 0 index 2
  | 1 => ((s.onWtx (fun w => { w with excluded := setBit w.excluded index false })).stageSpare index).reserveNote 1 index 2
  | 2 => (s.onRx index (fun r => { r with rxFail := false })).reserveNote 2 index 2
  | 3 => s.convReturn index
  | _ =>
    let s := (s.onSign (fun g => { g with excl := setBit g.excl index false })).reserveNote 4 index 2
    match (rangeFrom 0 50).find? (fun c => bit s.sign.dead c && !(s.sign.cellNext.any (fun e => e.1 == c))) with
    | some c => s.onSign (fun g => { g with cellNext := g.cellNext ++ [(c, index)] })
    | none => s

/-- TEST RETURN of an excluded unit; one whose score has reached THRESH, or that fails, stays excluded (R556, R562-R564). -/
def execTestReturn (r : Req) (kind index : Nat) (pass : Bool) (s : State) : Res :=
  hostCmd { cmd := 0x0F02, need := .test } r (fun _ t =>
    checked [(unitBad kind index, .range), (!t.unitExcluded kind index || (kind == 2 && !t.wtx.spareValid), .state),
        (t.worn kind index, .fault)]
      (if pass then .ok [] (t.reenter kind index) else .ended .fault [(0, 4)] (t.wearInc kind index))) s

/-- The feeder that a stage drives. -/
def State.feederOf (s : State) (m : Nat) : Option Nat := (rangeFrom 0 8).find? (fun f => s.wtx.of f == some m)

/-- A spare stands ready for a retirement of this unit (R380, R554). -/
def State.retireReady (s : State) (kind index : Nat) : Bool :=
  match kind with
  | 0 =>
    let v := s.jnc.voters.get (coreRegion index)
    v.spare.isSome && v.mode == .triple && v.retire.isNone
  | 1 => s.wtx.spareValid && s.wtx.spare.isSome && !(s.wtx.setNext.any (fun e => some e.2 == s.wtx.spare))
  | 2 => false
  | 3 => decide ((s.conv index).role = .measure) && decide ((s.meter.calDue.filter (fun d => d.retire)).length < (s.convsIn .spare).length)
  | _ => decide (s.sign.cellNext.length + s.sign.retireNext.length < s.sign.spares.length)

/-- A retirement begins; the switch of the unit's kind follows (R565). -/
def State.retireUnit (s : State) (kind index : Nat) : State :=
  match kind with
  | 0 => s.onVoter (coreRegion index) (fun v => { v with retire := some (index % 4) })
  | 1 => match s.feederOf index, s.wtx.spare with
    | some f, some m => s.retireStage f m
    | _, _ => s
  | 2 => s
  | 3 => (s.calAdd (s.conv index).input true).tryCal
  | _ => s.onSign (fun g => { g with retireNext := g.retireNext ++ [index] })

/-- TEST RETIRE: an in-service unit, with a spare free (R380, R565). -/
def execTestRetire (r : Req) (kind index : Nat) (s : State) : Res :=
  hostCmd { cmd := 0x0F03, need := .test } r (fun _ t =>
    checked [(unitBad kind index, .range), (!t.unitServes kind index || !t.retireReady kind index, .state)]
      (.ok [] (t.retireUnit kind index))) s

/-- The counts of a kind: IN_SERVICE, SPARE, EXCLUDED and the highest score (R557). -/
def State.reserves (s : State) (kind : Nat) : Payload :=
  let l := rangeFrom 0 (unitCount kind)
  [((l.filter (s.unitServes kind)).length, 1), ((l.filter (s.unitSpare kind)).length, 1), ((l.filter (s.unitExcluded kind)).length, 1),
    ((l.map (s.wearOf kind)).foldl max 0, 4)]

/-- TEST RESERVES: kinds 0-4, then REMAP_USED of the macros of C, D and M (R557). -/
def execTestReserves (r : Req) (s : State) : Res :=
  hostCmd { cmd := 0x0F04, need := .read, openRead := true } r (fun _ t =>
    .ok ((rangeFrom 0 5).flatMap t.reserves ++ (rangeFrom 0 128).map (fun m => (t.remapUsed m, 2))) t) s

/-- The region that TEST RESTART names. -/
def regionFor (n : Nat) : Region := if n = 0 then .c else if n = 1 then .d else .m

/-- TEST RESTART: the response goes out first (R380); the module is shut down with a final save (19 R578). -/
def execTestRestart (r : Req) (target : Nat) (s : State) : Res :=
  hostCmd { cmd := 0x0F05, need := .test } r (fun _ t =>
    checked [(decide (3 < target), .range), (decide (target < 3) && !t.runs (regionFor target), .state)]
      (.okThen [] t (fun t =>
        if target < 3 then t.restartRegion (regionFor target) 1
        else ({ t with pow := { t.pow with cmdShutdown := true } } : State).shed.endAll .restart))) s

/-- TEST WEAR_SET (R556). -/
def execTestWearSet (r : Req) (kind thresh : Nat) (s : State) : Res :=
  hostCmd { cmd := 0x0F06, need := .configure } r (fun _ t =>
    checked [(decide (4 < kind), .range)]
      (.ok [] (t.onNv (fun v => { v with thresh := tset (threshDef kind) v.thresh kind thresh })))) s

/-! ## Age (R558) -/

/-- 8 760 h in units of 2^-32 s. -/
def ageMark : Nat := 8760 * 3600 * 2 ^ 32

/-- The greatest number whose 80th power is at most `v`, by its bits from `n` - 1 down, on top of `m`. -/
def root80 (v : Nat) : Nat → Nat → Nat
  | 0, m => m
  | n + 1, m => root80 v n (if (m + 2 ^ n) ^ 80 ≤ v then m + 2 ^ n else m)

/-- 60 × 2^((T − 60) ÷ 10) seconds in units of 2^-32 s, for T in 0.125 °C, rounded down (R558; log entry 6). -/
def ageStep (t : Int) : Nat :=
  let q := Int.fdiv (t - 480) 80
  let v := 60 * 2 ^ 32 * root80 (2 ^ (60 * 80 + (Int.fmod (t - 480) 80).toNat)) 61 0
  if 0 ≤ q then v * 2 ^ q.toNat / 2 ^ 60 else v / 2 ^ (60 + (-q).toNat)

/-- SWEEP_AGE of joined nodes counts an hour (08, table "BSTATUS entry"). -/
def State.sweepHour (s : State) : State :=
  s.allJoined.foldl (fun s a =>
    let n := bump 65535 (fld (s.bstat a) 0 16)
    let s := s.onBstat a (fun w => setFld w 0 16 n.1)
    if n.2 then s.stuckTable 0x24 (0x01260800 + 4 * a) 0 else s) s

/-- AGE_MINUTE: a minute is over; AGE grows by the temperature's rate and HOURS by a minute, with an event at each multiple of 8 760 h of AGE (R558). -/
def execAgeMinute (dt : Dt) (s : State) : Res :=
  let s := s.tick dt
  .next (if s.pow.phase.rank < 6 || !s.runs .d || decide (s.now < s.meter.ageAt + 60 * secC) then s
    else
      let old := s.meter.age
      let new := old + ageStep s.meter.temp + b2n (Config.ageRound s.meter.temp)
      let s := s.onMeter (fun m => { m with age := new, hours := m.hours + 60, ageAt := m.ageAt + 60 * secC })
      let s := if old / ageMark ≠ new / ageMark then s.raiseGen .m 0x0F (wMafe + 0x8C) [(s.ageReg, 4), (s.hoursReg, 4)] else s
      if s.meter.hours % 3600 = 0 then s.sweepHour else s)

end Sys2Proof.Machine
end

