-- ==== Sys2Proof/Machine/Region.lean ====
section
/-!
DEFINITION. Cores and regions: a disagreement in a voter, the rejoin of a spare, a region's restart and its resumption (01 R27-R32,
R43-R45; 18 R551, R555, R564, R565).
-/
namespace Sys2Proof.Machine

/-! ## Voters (R27-R32) -/

/-- A core leaves its triple: it is stopped and excluded, and the others vote on in duplex (R29). -/
def Voter.exclude (v : Voter) (pos : Nat) : Voter :=
  { v with mode := .duplex, excluded := setBit v.excluded pos true, members := setBit v.members pos false }

/-- SOURCE of a region's voter: the region fabric's window, the core's position. -/
def srcVoter (r : Region) (pos : Nat) : Nat := srcHw 2 (match r with | .c => 0x10 | .d => 0x20 | .m => 0x30) pos

/-- VOTER_DISAGREE: the dissenting core is excluded; where masking is defeated the region restarts (R29, R31; 18 R555). -/
def execVoterDisagree (dt : Dt) (region : Region) (pos : Nat) (allDiffer : Bool) (s : State) : Res :=
  let s := s.tick dt
  let v := s.jnc.voters.get region
  .next (if !s.runs region || (v.mode == .triple && !allDiffer && !bit v.members pos) then s
    else
      let b := bump 255 v.disagree
      let s := (s.onVoter region (fun v => { v with disagree := b.1 })).stuckIf b.2
        (match region with | .c => 0x40100000 | .d => 0x40200000 | .m => 0x40300000) 16
      if v.mode != .triple || allDiffer then s.restartRegion region 0
      else
        let s := s.onVoter region (fun v => v.exclude pos)
        let s := s.wearInc 0 (4 * regionNo region + pos)
        (s.raise (queueOf region) 0x0006 (srcVoter region pos) [pos, 1]).reserveNote 0 (4 * regionNo region + pos) 0)

/-- A region's voter at an HCN edge: a core to be retired leaves, and the spare enters a triple that lacks a core (R30; 18 R565). -/
def State.voterEdge (s : State) (r : Region) : State :=
  let v := s.jnc.voters.get r
  if !s.runs r then s
  else
    let s := match v.retire, v.spare with
      | some pos, some _ =>
        if v.mode = VoterMode.triple then
          (s.onVoter r (fun v => { v.exclude pos with retire := none })).reserveNote 0 (4 * regionNo r + pos) 0
        else s.onVoter r (fun v => { v with retire := none })
      | _, _ => s
    let v := s.jnc.voters.get r
    match v.mode, v.spare with
    | .duplex, some n => (s.onVoter r (fun v => { v with mode := .rejoin })).reserveNote 0 (4 * regionNo r + n) 1
    | _, _ => s

/-! ## Regions (R43-R45) -/

/-- REGION_RESTART: chip control restarts a region whose masking is defeated (R31, R43). -/
def execRegionRestart (dt : Dt) (region : Region) (s : State) : Res :=
  let s := s.tick dt
  .next (s.restartRegion region 0)

/-- A switching that an M-region restart interrupted between its steps: the new bank is booted whole, and the regions whose component
changes restart (15 R492; log entry 49). -/
def State.switchInterrupted (s : State) : State :=
  let u := s.nv.upd
  if !(u.stage == .switching) || (0 < u.pos && u.order[u.pos - 1]? == some 3) then s
  else
    let left := u.order.drop u.pos
    let s := s.onUpd Decant.bootNew
    let s := if left.contains 1 then s.regionReset .c 2 else s
    if left.contains 2 then s.regionReset .d 2 else s

/-- TRIAL begins once every step has run and every region reads RUN (15 R481). -/
def State.switchOver (s : State) : State :=
  let u := s.nv.upd
  if u.stage == .switching && decide (u.order.length ≤ u.pos) && s.runs .c && s.runs .d && s.runs .m then s.enterTrial else s

/-- What each region takes back as it reads RUN (05 R194, R215; 07 R250; 08 R273, R274, R294; 09 R311; 11 R360; 13 R422, R428; 14 R446; 16 R501). -/
def State.resumeRegion (s : State) (r : Region) : State :=
  match r with
  | .c =>
    let s := (s.loadC.loadSent).blotLost
    if s.sil.stopBy.isEmpty then s else s.silStopped
  | .d =>
    let s := ((s.loadD.restoreTotals false).alarmsClear).loseWindows
    let c := s.nv.meterCfg
    { s with pow := { s.pow with pulseHiZ := s.shutting }, tb := { s.tb with vnomA := c.vnomA, vnomB := c.vnomB } }
  | .m =>
    let s : State := { s with rtc := { s.rtc with lockout := false, isolated := false } }
    let s : State := { s with net := { s.net with startAt := s.now } }
    (((s.mRuns.handOver).rollTwins).signOn).switchInterrupted

/-- REGION_RESUME: the region's triple and spare are formed and it reads RUN, no earlier than its wipe takes (R27, R43; 17 R522). -/
def execRegionResume (dt : Dt) (region : Region) (s : State) : Res :=
  let s := s.tick dt
  .next (if (s.jnc.regions.get region).st = .run ∨ s.now < (s.jnc.regions.get region).at_ + wipeC region then s
    else
      let s : State := { s with jnc := { s.jnc with regions := s.jnc.regions.set region { s.jnc.regions.get region with st := .run } } }
      let s := s.onVoter region Voter.form
      ((s.resumeRegion region).switchOver))

end Sys2Proof.Machine
end

