-- ==== Sys2Proof/Machine/TimeBase.lean ====
section
/-!
DEFINITION. The half-cycle time base (02): crossings of sets A and B, qualification, tracking, re-lock, virtual half-cycles, the edge of an
HCN with its stamp, and everything that happens at an edge (02 R85-R89 and the rules of each chapter on edges). Log entries 55-57.
-/
namespace Sys2Proof.Machine

/-! ## Frequencies and voltages (R59-R65) -/

/-- A mean of `n` half-cycles of `sum` CCLK cycles lies between two frequencies in mHz. -/
def inRange (lo hi n sum : Nat) : Bool :=
  decide (0 < sum ∧ lo * sum ≤ 200000000000 * n ∧ 200000000000 * n ≤ hi * sum)

/-- The valid frequencies of a profile, and its re-entry range (table "Mains profiles"). -/
def validIn (p60 : Bool) (n sum : Nat) : Bool := if p60 then inRange 57000 61500 n sum else inRange 47000 51000 n sum
def reentryIn (p60 : Bool) (n sum : Nat) : Bool := if p60 then inRange 57100 61400 n sum else inRange 47100 50900 n sum

/-- At least 40 % of a nominal voltage (R63, R65, R78). -/
def rmsOk (rms vnom : Nat) : Bool := decide (2 * vnom ≤ 5 * rms)

/-- The latest time after a crossing at which the next one is not missing (R65); before the profile is fixed the slowest valid half-cycle
counts (R60). -/
def TimeBase.crossLimit (t : TimeBase) : Nat := (if t.fixed then t.measured else max t.measured 4255319) * 5 / 4

/-- The earliest time after a crossing at which the detector accepts the next one of its run (R65). -/
def TimeBase.crossEarly (t : TimeBase) : Nat := (if t.fixed then t.measured else min t.measured 3252033) * 3 / 4

/-- One of the virtual states. -/
def TbState.isVirtual : TbState → Bool
  | .virtual => true
  | .outOfProfile => true
  | .qualify => true
  | _ => false

/-- Change the time base. -/
def State.onTb (s : State) (g : TimeBase → TimeBase) : State := { s with tb := g s.tb }

/-- A change of state, with its notification (11 R358, class TIME). -/
def State.tbTo (s : State) (st : TbState) : State :=
  let old := s.tb.st
  if old = st then s
  else (s.onTb (fun t => { t with st := st })).notifyClass 1 0x0280 .ok
    [(old.no, 1), (st.no, 1), (s.tb.hcn, 6), (s.tb.flags.toNat, 2)]

/-- SOURCE of HCN distribution in the junction. -/
def State.raiseTb (s : State) (code : Nat) (pay : List Nat) : State := s.raiseHw 3 0x01 0xFFF code pay

/-- The virtual period after LOCKED or SLEW: the mean of the last 16 half-cycles whose mean frequency was valid, clamped to the valid
range of the profile (R68); the nominal half-cycle where none is held, which the spec leaves open (DESIGN CHOICE, log entry 56). -/
def TimeBase.virtualFrom (t : TimeBase) : Nat :=
  let n := min 16 t.goodHist.length
  let m := if n = 0 then nominal48 t.p60 else 48 * sumOf 16 t.goodHist / n
  let lo := ceilDiv (48 * 200000000000) (if t.p60 then 61500 else 51000)
  let hi := 48 * 200000000000 / (if t.p60 then 57000 else 47000)
  max lo (min hi m)

/-- A virtual state is entered from LOCKED or SLEW; the last edge came at `e` (R61, R66, R68). -/
def State.goVirtual (s : State) (st : TbState) (e : Nat) : State :=
  let s := s.onTb (fun t => { t with
    virtPeriod := t.virtualFrom, virtAt := 48 * e, outCnt := 0, phaseCnt := 0, missCnt := 0, qCount := 0, qFromOop := false
    relockNext := false, slewNext := false, refAt := none })
  s.tbTo st

/-! ## Crossings of set A (R55-R70) -/

/-- What a crossing says of the half-cycle that it ends: whether the run of crossings is unbroken, and whether the half-cycle is real, of
the right voltage (R63, R65). -/
def TimeBase.unbroken (t : TimeBase) (now : Nat) (rising : Bool) : Bool :=
  match t.lastCross with
  | some c => decide (t.crossEarly ≤ now - c ∧ now - c ≤ t.crossLimit) && (t.lastRising != rising)
  | none => false

/-- The histories with a crossing at `now` (R61, R68; 07 R231); a half-cycle that is not real breaks the count of R61 (log entry 56). -/
def TimeBase.cross (t : TimeBase) (now : Nat) (rising ok : Bool) : TimeBase :=
  let whole := t.unbroken now rising && ok
  let p := now - t.lastCross.getD now
  let h := if whole then (p :: t.hist).take 16 else t.hist
  { t with
    lastCross := some now
    lastRising := rising
    lastOk := ok
    outCnt := if whole then t.outCnt else 0
    hist := h
    goodHist := if whole && validIn t.p60 (min 8 h.length) (sumOf 8 h) then (p :: t.goodHist).take 16 else t.goodHist
    chain := if whole then min 16 (t.chain + 1) else 0
    freqMiss := if ok then 0 else t.freqMiss
    freqGood := if whole then min 8 (t.freqGood + 1) else t.freqGood }

/-- The frequency condition of R63 at a half-cycle's end: the mean over the last 8 half-cycles of the unbroken run. -/
def TimeBase.qualFreq (t : TimeBase) : Bool :=
  let n := min 8 t.chain
  let sum := sumOf n t.hist
  if t.fixed then reentryIn t.p60 n sum else validIn false n sum || validIn true n sum

/-- A crossing set A is missing for the frequency of 07 R231. -/
def TimeBase.freqMissed (t : TimeBase) : TimeBase :=
  { t with freqMiss := t.freqMiss + 1, freqGood := if 1 ≤ t.freqMiss ∨ t.freqGood < 8 then 0 else t.freqGood }

/-- QUALIFY is complete: under AUTO the mean over the qualification fixes the profile; the half-cycles that qualified under a profile that was
not the provisional one are those of its valid range (R60, R63, R68). -/
def State.qualified (s : State) : State :=
  let s := s.onTb (fun t => { t with
    p60 := if t.fixed then t.p60 else validIn true 16 (sumOf 16 t.hist)
    goodHist := if t.fixed || validIn true 16 (sumOf 16 t.hist) == t.p60 then t.goodHist else t.hist
    fixed := true, qCount := 0, relockNext := true })
  s.onNv (fun v => { v with lastP60 := s.tb.p60 })

/-- The measured frequency has been out of the valid range for 4 consecutive half-cycles (R61). -/
def State.outOfProfile (s : State) : State :=
  let t := s.tb
  let out := decide (8 ≤ t.hist.length) && !validIn t.p60 8 (sumOf 8 t.hist)
  let n := if out then t.outCnt + 1 else 0
  let s := s.onTb (fun t => { t with outCnt := n })
  if n < 4 then s
  else if t.st.isVirtual then (s.onTb (fun t => { t with outCnt := 0, qCount := 0, qFromOop := false, relockNext := false })).tbTo .outOfProfile
  else s.goVirtual .outOfProfile t.lastEdge

/-- A crossing in HOLD or in a virtual state: the count of R63. -/
def State.qualCross (s : State) (whole missed : Bool) : State :=
  let t := s.tb
  let good := whole && t.qualFreq
  match t.st with
  | .hold =>
    let s := s.onTb (fun t => { t with qCount := if good then t.qCount + 1 else 0 })
    if 16 ≤ s.tb.qCount then s.qualified else s
  | .virtual => (s.onTb (fun t => { t with qCount := 0, chain := 0, qFromOop := false })).tbTo .qualify
  | .outOfProfile =>
    if good then (s.onTb (fun t => { t with qCount := 1, qFromOop := true })).tbTo .qualify else s
  | .qualify =>
    if t.relockNext then (if whole then s.outOfProfile else s)
    else if good then
      let s := s.onTb (fun t => { t with qCount := t.qCount + 1, outCnt := 0 })
      if 16 ≤ s.tb.qCount then s.qualified else s
    else if t.qFromOop then (s.onTb (fun t => { t with qCount := 0 })).tbTo .outOfProfile
    else
      let s := s.onTb (fun t => { t with qCount := 0, chain := if missed then 0 else t.chain })
      if whole && t.fixed then s.outOfProfile else s
  | _ => s

/-- The phase error of a crossing in LOCKED: its distance from the nearest edge, issued or predicted (R67). -/
def TimeBase.phaseErr (t : TimeBase) (now : Nat) : Nat :=
  let d := now - t.lastEdge
  let p := t.measured
  min d (if p ≤ d then d - p else p - d)

/-- The distance of a crossing in SLEW from the nearest crossing that the re-lock predicts (R66). -/
def TimeBase.slewErr (t : TimeBase) (now : Nat) : Nat :=
  let p := max 1 t.measured
  let d := (if t.target ≤ now then now - t.target else t.target - now) % p
  min d (p - d)

/-- The detector accepts a crossing: within 25 % of the period around the predicted time in LOCKED and SLEW, and not before that window in a
run of crossings elsewhere; the first crossing after a break is not predicted (R65, R66). -/
def TimeBase.accepts (t : TimeBase) (now : Nat) : Bool :=
  match t.st with
  | .locked => decide (4 * t.phaseErr now ≤ t.measured)
  | .slew => decide (4 * t.slewErr now ≤ t.measured)
  | _ => match t.lastCross with
    | some c => decide (t.crossEarly ≤ now - c)
    | none => true

/-- The crossing of an edge of HCN k at `now`, where it came before the edge: of the polarity of k and within the window (R58, R65). -/
def TimeBase.came (t : TimeBase) (k now : Nat) : Option Nat :=
  match t.lastCross with
  | some c => if 4 * (now - c) ≤ t.measured ∧ t.lastRising = decide (k % 2 = 0) then some c else none
  | none => none

/-- The half-cycle that ends at an edge has its crossing: one that came before the edge in LOCKED says so itself, `found` tells of one that
comes after it within the window; where the run of crossings has stopped, but for one bridged half-cycle, there is none (R65, R66). -/
def TimeBase.crossed (t : TimeBase) (k now : Nat) (found : Bool) (rms : Nat) : Bool :=
  let runs := match t.lastCross with | some c => decide (now - c ≤ t.crossLimit + t.missCnt * t.measured) | none => true
  match (if t.st = .slew then none else t.came k now) with
  | some _ => t.lastOk
  | none => found && rmsOk rms t.vnomA && runs

/-- A crossing in SLEW: the crossing that the newest edge converges on, if this one is it or belongs to one of the two edges before it
(R66, R69); and the offset of the reference edge, once its crossing has come (R69). -/
def TimeBase.slewCross (t : TimeBase) (now : Nat) (rising : Bool) : TimeBase :=
  let p := t.measured
  let near := fun (m : Nat) =>
    let c := now + m * p
    decide ((if c ≤ t.target then t.target - c else c - t.target) ≤ p / 4) && decide (m ≤ t.hcn)
      && (decide ((t.hcn - m) % 2 = 0) == rising)
  match [0, 1, 2].find? near with
  | none => t
  | some m =>
    let t := { t with target := now + m * p }
    match t.refAt with
    | some (k, e) => if k + m = t.hcn then { t with offset0 := now - e, refAt := none } else t
    | none => t

/-! ## Set B (R76-R79; 07 R225, R231) -/

/-- 150 µs and 200 µs. -/
def bLow : Int := -60000
def bHigh : Int := 80000

/-- A cut put into a list of interval boundaries, newest first, in place of one for its HCN. -/
def putCut (l : List (Nat × Nat)) (k t : Nat) : List (Nat × Nat) := ((k, t) :: l.filter (fun e => e.1 != k)).take 12

/-- The crossing expected nearest to `at_`, counted in periods from the last one detected. -/
def SetB.expect (b : SetB) (at_ : Int) (t : Nat) : Int :=
  match b.lastCross with
  | none => at_
  | some c =>
    let p : Int := b.period t
    (c : Int) + max 1 ((at_ - c + p / 2) / p) * p

/-- BOFS in CCLK cycles within one period of set B. -/
def SetB.fresh (b : SetB) (o : Int) (t : Nat) : Int := o % (max 1 (b.period t) : Nat)

/-- A boundary at a crossing assigned to HCN j. At a remap at m the crossing that the old mapping assigns to m ends the interval of m - 1 and
begins that of m + 1, and one that the new mapping takes to m may end that of m - 2 (07 R225). -/
def SetB.putAt (b : SetB) (half j c : Nat) : SetB :=
  let waited := match b.oldCut with | some x => decide ((if c ≤ x then x - c else c - x) < half) | none => false
  match b.remap with
  | none => { b with cuts := putCut b.cuts j c }
  | some m =>
    if waited then { b with oldCut := none, cuts := putCut (putCut b.cuts m c) (m + 1) c }
    else if j = m then (if (cutOf b.cuts (m - 1)).isNone then { b with cuts := putCut b.cuts (m - 1) c } else b)
    else if j = m + 1 then b
    else { b with cuts := putCut b.cuts j c }

/-- Presence at HCN j, whose crossing was due by now, and the boundary of a single missing one (R78; 07 R231; log entry 57). -/
def SetB.judge (b : SetB) (edgeAt : Nat → Nat) (half j : Nat) : SetB :=
  let hit := b.got.find? (fun g => g.1 == j)
  let missing := if hit.isSome then 0 else b.missing + 1
  let b := { b with
    judged := j
    absent := match hit with | some (_, true) => 0 | _ => b.absent + 1
    missing := missing
    good := if hit.isNone && (decide (2 ≤ missing) || decide (b.good < 8)) then 0 else b.good }
  if hit.isSome || decide (2 ≤ b.absent) then b else b.putAt half j ((edgeAt j : Int) + b.bofs).toNat

/-- Set B at the edge of HCN k at time e, with half-cycles of T: presence at the HCNs whose crossings were due, the loss of the mapping, and
the BOFS expected; `true` when the mapping changes (R77, R78; 07 R225). While set B is lost the boundary of k - 1 stands only now, for its crossing
could come until this edge. -/
def SetB.edge (b : SetB) (k e t : Nat) (prev : Option Nat) (edgeAt : Nat → Nat) : SetB × Bool :=
  let half := t / 2
  if !b.mapped then
    ({ b with
      cuts := match prev with | some p => if (cutOf b.cuts (k - 1)).isNone then putCut b.cuts (k - 1) p else b.cuts | none => b.cuts
      present := false, early := none, missing := b.missing + 1
      good := if 1 ≤ b.missing then 0 else b.good }, false)
  else
    let last := if b.bofs + bHigh ≤ (t : Int) then k - 1 else k - 2
    let b := (rangeFrom (b.judged + 1) (last - b.judged)).foldl (fun b j => b.judge edgeAt half j) b
    if 2 ≤ b.absent then
      ({ b with
        present := false, mapped := false, absent := 0, early := none, got := [], bofs := 0, oldCut := none
        cuts := [k - 2, k - 1].foldl (fun l i => if (cutOf l i).isSome then l else putCut l i e) b.cuts }, false)
    else
      let b := match b.oldCut with | some x => if x + half < e then b.putAt half k x else b | none => b
      let c : Int := match b.early with
        | some (c, _) => c
        | none => b.expect ((e : Int) + b.bofs) t
      let o := c - e
      if o < bLow ∨ (t : Int) + bHigh ≤ o then
        let came := b.early.isSome
        ({ b with
          bofs := b.fresh o t, early := none, remap := some k, judged := k - 1
          oldCut := if came then none else some c.toNat
          cuts := if came then putCut (putCut b.cuts k c.toNat) (k + 1) c.toNat else b.cuts }, true)
      else match b.early with
        | some (c, ok) => ({ b with bofs := o, early := none, got := ((k, ok) :: b.got).take 4 }.putAt half k c, false)
        | none => ({ b with bofs := o }, false)

/-- B_PRESENT and BOFS of the current HCN as the crossing settles them, in the flags and in the stamp (R78, R80; log entry 57). -/
def State.restampB (s : State) : State :=
  let k := s.tb.hcn
  let s := s.onTb (fun t => { t with flags := setBit t.flags 5 t.setB.present })
  let g := fun (w : BitVec 256) => setFld (setFld w 53 1 (b2n s.tb.setB.present)) 112 16 s.tb.bofsShown
  { s with jnc := { s.jnc with stamps := tmod 0 s.jnc.stamps (k % 1024) g } }

/-- The links of set-B feeders at a fresh mapping (R78). -/
def State.feedersB (s : State) : State :=
  ((rangeFrom 0 8).filter (fun f => s.onB f && s.linkActive f)).foldl (fun s f =>
    s.onFeeder f (fun x => { x with active := true, inactive := 0, idle := x.idle.filter (fun k => k != s.tb.hcn) })) s

/-- SET_B_CROSSING: the crossing is assigned to the HCN whose expected BOFS is nearest, or makes a fresh mapping (R77, R78). One that comes
after the next edge counts for the HCN before it, though that was judged absent; the BOFS that it shows is held to the range at the edge that
follows (log entry 57). -/
def execSetBCrossing (dt : Dt) (_rising : Bool) (rms : Nat) (s : State) : Res :=
  let s := s.tick dt
  let t := s.tb
  let b := t.setB
  let c := s.now
  let ok := rmsOk rms t.vnomB
  let p := t.measured
  let d := c - b.lastCross.getD 0
  let whole := b.lastCross.isSome && decide (d ≤ p * 5 / 4)
  let b := { b with
    lastCross := some c
    hist := if whole then (d :: b.hist).take 16 else b.hist
    good := if whole && b.mapped then min 8 (b.good + 1) else b.good }
  let k := t.hcn
  let e := t.lastEdge
  .next (if s.pow.phase = .reset then s
    else
      let s := s.onTb (fun t => { t with setB := b })
      if !t.running then s
      else if !b.mapped then
        if ok && decide (c < e + p) then
          let s : State := s.onTb (fun t => { t with setB := { b with
            mapped := true, present := true, absent := 0, missing := 0, bofs := c - (e : Int), got := [(k, true)], early := none
            judged := k - 1, cuts := putCut b.cuts k c } })
          s.restampB.feedersB
        else s
      else
        let dist := fun (x : Int) => ((c : Int) - (x + b.bofs)).natAbs
        let prev := (cutOf t.cuts (k - 1)).getD (e - p)
        let d0 := dist e
        let dn := dist (e + p : Nat)
        let dp := dist prev
        let take := fun (j : Nat) (o : Int) => { b with bofs := o, got := ((j, ok) :: b.got).take 4 }.putAt (p / 2) j c
        if dn < d0 ∧ dn ≤ dp then s.onTb (fun t => { t with setB := { b with early := some (c, ok) } })
        else if d0 ≤ dp then (s.onTb (fun t => { t with setB := take k (c - (e : Int)) })).restampB
        else
          let u := take (k - 1) (c - (prev : Int))
          s.onTb (fun t => { t with setB := if decide (k - 1 ≤ b.judged) && ok then { u with absent := 0, missing := 0 } else u }))

/-! ## Actions at an edge (R85-R90) -/

/-- What an action due does (R85, R88); its completion goes out (10 R345). -/
def State.runAct (s : State) (a : Action) : State :=
  let done := fun (s : State) => s.complete a.ses a.seq a.cmd .ok []
  match a.what with
  | .graphRestart => done (s.silStart a.t)
  | .meterInput .. => done (s.cfgInForce a.t (s.meter.cfg.write a.what))
  | .meterGlobal .. => done (s.cfgInForce a.t (s.meter.cfg.write a.what))
  | .meterPulse .. => done (s.cfgInForce a.t (s.meter.cfg.write a.what))
  | .accordModel first es => done (s.modelInForce a.t first es)
  | .groupLevel id ms l => done (s.groupEffect id ms l a.t)
  | .sceneRecall id ms scene => done (s.sceneEffect id ms scene a.t)
  | .imgActivate id img ms =>
    let n := s.imgReady img ms a.t
    (s.dropCmd id).complete a.ses a.seq a.cmd .ok [(n.1, 2), (n.2, 2)]
  | .overrideSet ms l e => done (s.overrideKeep ms l e a.order)
  | .probe addr code delta _ req _ => s.probeStart addr code delta a.t req
  | .meterSnap => done (s.snapBegin a.t)
  | .accordSnap => done (s.accSnapBegin a.t)
  | .signSwap .. => s.swapAction a.ses a.seq

/-- Snapshots that are discarded are no longer pending: STATE is that of the next one bound, or NONE (11 R369, R370). -/
def State.snapsDropped (s : State) (gone : List Action) : State :=
  let next := fun (what : ActWhat) (x : SnapState) (t : Nat) => match s.acts.find? (fun a => decide (a.what = what)) with
    | some a => (SnapState.pending, a.t)
    | none => if x = SnapState.pending then (SnapState.none, 0) else (x, t)
  let s := if gone.any (fun a => decide (a.what = ActWhat.meterSnap)) && decide (s.meter.snap.st ≠ .filling) then
      let n := next .meterSnap s.meter.snap.st s.meter.snap.t
      { s with meter := { s.meter with snap := { s.meter.snap with st := n.1, t := n.2 } } }
    else s
  if gone.any (fun a => decide (a.what = ActWhat.accordSnap)) && decide (s.accord.snap.st ≠ SnapState.filling) then
    let n := next .accordSnap s.accord.snap.st s.accord.snap.t
    { s with accord := { s.accord with snap := { s.accord.snap with st := n.1, t := n.2 } } }
  else s

/-- An action that its region cannot run is discarded (R90). -/
def State.dropAct (s : State) (a : Action) : State :=
  ((s.raiseGen a.what.home 0x02 0 [(1, 2)]).complete a.ses a.seq a.cmd .discarded []).snapsDropped [a]

/-- An action that cannot run at the edge it is due at: its region does not run, or after supply fail it would change a level or start a
probe (R90; 19 R574). -/
def State.cannotRun (s : State) (a : Action) : Bool := !s.runs a.what.home || (s.shutting && (a.cls == 3 || a.cls == 4))

/-- Take the due actions of a kind out, in order of acceptance, the scene commands of schedules included (R88; 06 R209). -/
def State.takeActs (s : State) (p : Action → Bool) : List Action × State :=
  let due := fun (a : Action) => p a && a.t == s.tb.hcn
  (sortBy (fun (a : Action) => [a.order]) ((s.acts ++ s.sched.cmds).filter due),
   { s with acts := s.acts.filter (fun a => !due a), sched := { s.sched with cmds := s.sched.cmds.filter (fun a => !due a) } })

/-- Actions due that cannot run are discarded: one record with their number for each region that holds some, and the sessions are told
(R90). -/
def State.dropDue (s : State) : State :=
  let r := s.takeActs s.cannotRun
  [Region.c, .d, .m].foldl (fun s w =>
    let gone := r.1.filter (fun a => decide (a.what.home = w))
    if gone.isEmpty then s
    else (gone.filter (fun a => a.ses != 0)).foldl (fun s a => s.complete a.ses a.seq a.cmd .discarded [])
      ((s.raiseGen w 0x02 0 [(gone.length, 2)]).snapsDropped gone)) r.2

/-- The due actions of a class in order of acceptance (R88); one whose region an earlier action of this edge has stopped is discarded. -/
def State.runActs (s : State) (p : Action → Bool) : State :=
  let r := s.takeActs p
  r.1.foldl (fun s a => if s.cannotRun a then s.dropAct a else s.runAct a) r.2
def State.runClass (s : State) (cls : Nat) : State := s.runActs (fun a => a.cls == cls)

/-- Overrides whose target comes two half-cycles on: the limit array takes OVR, by target and acceptance (05 R168; 02 R88). -/
def State.overridesDue (s : State) : State :=
  (sortBy (fun (a : Action) => [a.t, a.order]) (s.acts.filter (fun a => decide (a.t ≤ s.tb.hcn + 2)))).foldl (fun s a => match a.what with
    | .overrideSet ms l _ => s.overrideWrite ms l
    | _ => s) s

/-- The limit array takes what is bound to an HCN two half-cycles on and loses the overrides that end, whose entries leave MRAM once their
END has come (05 R168). -/
def State.limitWork (s : State) : State := (((s.overridesDue).overridesEnd).overridesOver).limitsDue

/-- The limit array is written only between passes: while a pass runs, at its commit (05 R168). -/
def State.limitEdge (s : State) : State :=
  if s.sil.pass.isSome then s.onSil (fun g => { g with limitWait := true }) else s.limitWork

/-- The commit deadline of pass k is over: the set-A block close of frame k + 1 (R126, R159). -/
def State.passLate (s : State) (k : Nat) : Bool :=
  match cutOf s.tb.cuts (k + 1) with
  | some e => decide (e + msC < s.now)
  | none => false

/-- PASS_COMMIT: on a mismatch, or a bus error that stopped it, the pass reruns where that fits; it is abandoned when the rerun fails too or
does not fit, and where nothing is committed by the deadline (05 R159, R185, R186; 01 R50). Reports held meanwhile are handed over, the limit array takes what waited, and a STOP that waited takes effect (05 R158, R168, R188). -/
def execPassCommit (dt : Dt) (mismatch mismatch2 rerunFits : Bool) (timeUs : Nat) (s : State) : Res :=
  let t := s.tick dt
  .next (match t.sil.pass with
    | none => t
    | some k =>
      let failed := mismatch || decide (0 < t.sil.busStops)
      let again := mismatch2 || decide ((if mismatch then 0 else 1) < t.sil.busStops)
      let rerun := failed && rerunFits
      let b := bump 255 t.sil.rerunCnt
      let t := if rerun then (t.onSil (fun g => { g with rerunCnt := b.1 })).stuckIf b.2 (wSillage + 0xC) 16 else t
      let t := if (failed && (!rerunFits || again)) || t.passLate k then t.abandonPass k else t.commitPass k
      let held := t.sil.held
      let t := t.onSil (fun g => { g with
        pass := none, newPhi := [], newOut := [], touched := [], held := [], busStops := 0, passTime := timeUs % 65536 })
      let t := held.foldl (fun t m => t.applySensor m) t
      let t := if t.sil.limitWait then (t.onSil (fun g => { g with limitWait := false })).limitWork else t
      if t.sil.stopBy.isEmpty then t else t.silStopped)

/-! ## The edge (R62, R72, R81, R82) -/

/-- A stamp entry (table "HCN stamp entry"). -/
def State.newStamp (s : State) (len : Nat) : BitVec 256 :=
  let t := s.tb
  BitVec.ofNat 256 (pack [(240, 16, t.hcn), (239, 1, b2n s.bk.valid), (224, 15, s.bk.sub), (192, 32, len), (160, 32, s.lin),
    (158, 2, s.net.ptpSrc), (128, 30, s.net.ns), (112, 16, t.bofsShown), (64, 48, s.net.sec), (48, 10, t.flags.toNat), (0, 48, t.hcn)])

/-- The time base takes the new HCN: flags, period, boundaries, set B and the stamp (R62, R72, R77, R81). `fl` holds HCN_VIRTUAL, SLEW,
BRIDGED, OUT_OF_PROFILE and RESUMED. The spec gives no PERIOD for the entry of a run's first edge, before which no half-cycle has ended: the
model puts the measured or nominal period (DESIGN CHOICE, log entry 56). -/
def State.newHcn (s : State) (k fl : Nat) : State :=
  let t := s.tb
  let e := s.now
  let p := t.measured
  let len := if t.running then e - t.lastEdge else p
  let x := t.setB.edge k e p (if t.running then some t.lastEdge else none) (fun j => (cutOf t.cuts j).getD e)
  let flags := pack [(9, 1, b2n t.p60), (8, 1, b2n t.rtcStep), (7, 1, b2n t.ptpStep), (6, 1, b2n x.2), (5, 1, b2n x.1.present), (0, 5, fl)]
  let s := s.onTb (fun t => { t with
    hcn := k, running := true, flags := BitVec.ofNat 10 flags, lastEdge := e, setB := x.1
    period := if t.st.isVirtual then t.virtPeriod / 48 else p
    lockEdges := if t.st = .locked then min 17 (t.lockEdges + 1) else 0
    cuts := putCut t.cuts k e, rtcStep := false, ptpStep := false })
  let s : State := { s with jnc := { s.jnc with stamps := tset 0 s.jnc.stamps (k % 1024) (s.newStamp len) } }
  if x.2 then s.raiseTb 0x0200 (genPay (wJnc + 0x50) []) else s

/-- Feeder keys that retired two half-cycles ago are destroyed (14 R445). -/
def State.retiredKeys (s : State) : State :=
  (rangeFrom 0 8).foldl (fun s f => match tget none s.keys.retiring f with
    | some (t, _) => if t + 2 ≤ s.tb.hcn then { s with keys := { s.keys with retiring := tset none s.keys.retiring f none } } else s
    | none => s) s

/-- Every feeder at an edge, with the frames in which its link was inactive (08 R283). -/
def State.feedersEdge (s : State) : State :=
  (rangeFrom 0 8).foldl (fun s f =>
    let s := s.feederEdge f
    if (s.feeder f).active then s
    else s.onFeeder f (fun x => { x with idle := (s.tb.hcn :: x.idle).take 8 })) s

/-- What the C-region does at an edge once the actions have run: schedules, limits, overrides, probes and the level snapshot (05 R168,
R194; 06 R210-R216; 08 R262, R278, R281). -/
def State.edgeC (s : State) : State :=
  if !s.runs .c then s
  else
    let s : State := if s.sil.runNext then s.onSil (fun g => { g with st := .run, runNext := false, firstPass := s.tb.hcn }) else s
    if s.shutting then s.publishSnap
    else (((s.schedTriggers.limitEdge).withdrawProbes).planProbes).publishSnap

/-- What the M-region does at an edge (09 R303, R330). -/
def State.edgeM (s : State) : State := if s.runs .m then s.signEdge.swapLate else s

/-- The edge of an HCN: the time base takes it, and what is due runs by class (R81, R85, R88). A Decant activation is a configuration
action in its order of acceptance (15 R477). -/
def State.edge (s : State) (k fl : Nat) : State :=
  let s := ((s.newHcn k fl).retiredKeys)
  let s : State := { s with dspFrames := s.dspFrames - 1 }
  let s := ((s.voterEdge .c).voterEdge .d).voterEdge .m
  let s := s.rolloversPassed
  let ord := s.nv.upd.ord
  let s := (s.dropDue.runClass 1).runActs (fun a => a.cls == 2 && decide (a.order < ord))
  let s := if s.runs .m && !s.shutting then s.updEdge else s
  if s.pow.phase = .reset then s
  else
    let s := ((s.runClass 2).runClass 3).recordsEffect k
    let s := (s.runClass 4).runClass 5
    ((s.feedersEdge.edgeC).meterEdge).edgeM

/-- The first edge of a run: start-up completes, Sillage enters RUN, and one record holds s and the HCN (R74, R75; 05 R193; 14 R446;
19 R585). -/
def State.firstEdge (s : State) (k : Nat) (st : TbState) : State :=
  let s : State := { s with pow := { s.pow with phase := .complete } }
  let s := s.onTb (fun t => { t with relockNext := false, qCount := 0, virtAt := 48 * s.now, virtPeriod := nominal48 t.p60 })
  let s := (s.tbTo st).raiseTb 0x0200 (genPay (wJnc + 0x40) [(s.tb.savedS, 6), (k, 6)])
  let s := s.onNv (fun v => { v with lastP60 := s.tb.p60 })
  let lim := passLimitUs s.tb.sel
  let s := s.onSil (fun g => { g with st := if s.nv.graph.isSome then .run else g.st, passLimit := lim, firstPass := k })
  let s := if s.runs .c then s.writeLimits s.civilIf else s
  s.loadRR.edge k (16 + (if st.isVirtual then 1 else 0))

/-! ## The commands -/

/-- ZERO_CROSSING: measurement, tracking, qualification, and the first edge of a run (R55-R63, R67, R69, R74). The detector takes only a
crossing in its window (R65). -/
def execZeroCrossing (dt : Dt) (rising : Bool) (rms : Nat) (s : State) : Res :=
  let s := s.tick dt
  let t := s.tb
  let ok := rmsOk rms t.vnomA
  let missed := match t.lastCross with | some c => decide (t.crossLimit < s.now - c) | none => false
  let whole := t.unbroken s.now rising && ok
  .next (if s.pow.phase.rank < 6 || !t.accepts s.now then s
    else if t.st = .hold then
      if t.relockNext then
        let s := s.onTb (fun t => t.cross s.now rising ok)
        let u := t.resume
        s.firstEdge (if decide (u % 2 = 0) = rising then u else u + 1) .locked
      else (s.onTb (fun t => t.cross s.now rising ok)).qualCross whole missed
    else
      let s := if missed && t.st == .qualify && !t.relockNext then
          (s.onTb (fun t => { t with qCount := 0 })).tbTo (if t.qFromOop then .outOfProfile else .virtual) else s
      let s := s.onTb (fun t => t.cross s.now rising ok)
      if s.tb.st.isVirtual then s.qualCross whole missed
      else
        let s := if s.tb.st = .slew then s.onTb (fun t => t.slewCross s.now rising)
          else
            let n := if ok && decide (msC < t.phaseErr s.now) then t.phaseCnt + 1 else 0
            s.onTb (fun t => { t with phaseCnt := if 4 ≤ n then 0 else n, slewNext := t.slewNext || decide (4 ≤ n) })
        if whole then s.outOfProfile else s)

/-- The mains frequency has changed at 1 Hz/s or less over the last 16 half-cycles (R64). -/
def TimeBase.steady (t : TimeBase) : Bool :=
  let a := sumOf 8 t.hist
  let b := sumOf 8 (t.hist.drop 8)
  decide (16 ≤ t.hist.length) && decide (640000000000000000 * (if a ≤ b then b - a else a - b) ≤ a * a * b)

/-- The offset of a reference edge of HCN k at time e, as the crossings so far predict it (R69; log entry 56). -/
def TimeBase.offset (t : TimeBase) (k e : Nat) : Nat :=
  let p := max 1 t.measured
  let c := t.lastCross.getD e
  let n := ceilDiv (e - c) p
  let rising := t.lastRising == decide (n % 2 = 0)
  let n := if rising = decide (k % 2 = 0) then n else n + 1
  c + n * p - e

/-- 20 µs. -/
def lockC : Nat := 8000

/-- A re-lock is complete: LOCKED, the count and its record (R70, R72). -/
def State.relocked (s : State) (off slewed : Nat) : State :=
  let b := bump 255 s.tb.relockCnt
  let s := s.onTb (fun t => { t with relockCnt := b.1, phaseCnt := 0, slewNext := false, relockNext := false, refAt := none })
  ((s.stuckIf b.2 (wJnc + 0x48) 24).tbTo .locked).raiseTb 0x0201 (leBytes 4 off ++ leBytes 2 slewed)

/-- The crossing of an edge of HCN k that is predicted at `p`: the one that came before `now`, or else the one of its polarity that the
newest crossing predicts nearest to `p` (R58, R64). -/
def TimeBase.crossFor (t : TimeBase) (k p now : Nat) : Option Nat :=
  match t.came k now, t.lastCross with
  | some c, _ => some c
  | none, some c =>
    let m := max 1 t.measured
    let n := (p - c + m / 2) / m
    if (t.lastRising == decide (n % 2 = 0)) = decide (k % 2 = 0) then some (c + n * m) else none
  | none, none => none

/-- An edge in LOCKED is due: the PLL moves the predicted phase by at most 20 µs in a half-cycle, and from the 16th edge after entry on an
edge lies within 20 µs of its crossing, come or predicted, while the frequency is steady; a crossing further off is followed by the whole
20 µs (R64, R66). -/
def TimeBase.dueLocked (t : TimeBase) (k now : Nat) : Bool :=
  let p := t.lastEdge + t.measured
  decide (p ≤ now + lockC ∧ now ≤ p + lockC) &&
    (match (if decide (16 ≤ t.lockEdges) && t.steady then t.crossFor k p now else none) with
     | some c =>
       if c + 2 * lockC < p then decide (now + lockC = p)
       else if p + 2 * lockC < c then decide (now = p + lockC)
       else decide (c ≤ now + lockC ∧ now ≤ c + lockC)
     | none => true)

/-- An edge in SLEW is due: its interval is lengthened, unless its crossing has come to it, by at most 4 % of T and never past its crossing, and what it leaves
of the offset can go within 50 slewed intervals (R70; log entry 56). -/
def TimeBase.dueSlew (t : TimeBase) (now : Nat) : Bool :=
  let p := t.measured
  let lo := t.lastEdge + p
  let rest := t.target + p - now
  decide ((lo < now ∨ (lo = now ∧ t.target + p ≤ lo)) ∧ 25 * (now - lo) ≤ p ∧ now ≤ max lo (t.target + p)) &&
    (decide (25 * rest ≤ (49 - t.slewed) * p) || decide (p < 25 * (now + 1 - lo)))

/-- An edge in a virtual state is due: the virtual period ends in this cycle (R68). -/
def TimeBase.dueVirtual (t : TimeBase) (now : Nat) : Bool :=
  let v := t.virtAt + t.virtPeriod
  decide (v < 48 * now + 48 ∧ 48 * now ≤ v)

/-- The reference edge of a re-lock, with the BRIDGED flag of its half-cycle (R66, R67, R69, R70). -/
def State.refEdge (s : State) (bridged : Nat) : State :=
  let k := s.tb.hcn + 1
  let off := s.tb.offset k s.now
  if off < lockC ∨ 2 * s.tb.measured < off + lockC then (s.relocked off 0).edge k bridged
  else
    let s := s.onTb (fun t => { t with
      relockNext := false, slewNext := false, target := s.now + off, offset0 := off, slewed := 0, refAt := some (k, s.now) })
    (s.tbTo .slew).edge k (2 + bridged)

/-- An edge of the time base is due now (R64, R68, R70). -/
def TimeBase.edgeDue (t : TimeBase) (now : Nat) : Bool :=
  match t.st with
  | .locked => t.dueLocked (t.hcn + 1) now
  | .slew => t.dueSlew now
  | .qualify => t.relockNext && t.dueVirtual now
  | _ => false

/-- HCN_EDGE: a real, bridged or slewed edge, or the one at which a second missing half-cycle makes the time base VIRTUAL (R64-R72). -/
def execHcnEdge (dt : Dt) (found : Bool) (rms : Nat) (s : State) : Res :=
  let s := s.tick dt
  let t := s.tb
  let k := t.hcn + 1
  let here := t.crossed k s.now found rms
  .next (if !t.edgeDue s.now then s
    else if t.st = .qualify then s.refEdge 0
    else
      let s := if here then s else s.onTb (fun t => { t.freqMissed with phaseCnt := 0 })
      if !here && decide (1 ≤ t.missCnt) then
        ((s.goVirtual .virtual s.now).raiseTb 0x0200 (genPay (wJnc + 0x48) [])).edge k 1
      else
        let s := s.onTb (fun t => { t with missCnt := if here then 0 else 1 })
        let bridged := if here then 0 else 4
        if t.st = .locked then
          if t.slewNext then s.refEdge bridged else s.edge k bridged
        else
          let p := t.measured
          let longer := decide (t.lastEdge + p < s.now)
          let n := if longer then t.slewed + 1 else t.slewed
          let s := s.onTb (fun t => { t with target := t.target + p, slewed := n })
          if s.tb.target < s.now + lockC then (s.relocked s.tb.offset0 n).edge k bridged else s.edge k (2 + bridged))

/-- VIRTUAL_EDGE: the virtual period expires; it is the reference edge once QUALIFY is complete (R62, R66, R68, R69). -/
def execVirtualEdge (dt : Dt) (s : State) : Res :=
  let s := s.tick dt
  let t := s.tb
  .next (if !(t.running && t.st.isVirtual) || !t.dueVirtual s.now then s
    else
      let s := s.onTb (fun t => { t with virtAt := t.virtAt + t.virtPeriod })
      if t.st = .qualify ∧ t.relockNext = true then s.refEdge 0
      else
        let late := match t.lastCross with | some c => decide (t.crossLimit < s.now - c) | none => true
        let s := if late then s.onTb (fun t => { t.freqMissed with chain := 0 })
          else if !t.lastOk then s.onTb (fun t => t.freqMissed) else s
        let s := if late && t.st == .qualify then
            (s.onTb (fun t => { t with qCount := 0 })).tbTo (if t.qFromOop then .outOfProfile else .virtual) else s
        s.edge (t.hcn + 1) (1 + (if s.tb.st = .outOfProfile then 8 else 0)))

/-- LOCK_STEP_TIMEOUT: 1 000 ms of the lock step without a qualification; the counter starts at an even u in VIRTUAL (R74). The
spec is silent on mains that are lost between a completed qualification and the next crossing: the timeout is then over, and the module stays in
HOLD until a crossing comes (DESIGN CHOICE, log entry 56). -/
def execLockStepTimeout (dt : Dt) (s : State) : Res :=
  let s := s.tick dt
  let t := s.tb
  .next (if s.pow.phase ≠ .lockStep || t.relockNext || decide (s.now < t.lockAt + secC) then s
    else (s.onTb (fun t => { t with qCount := 0, chain := 0 })).firstEdge (t.resume + t.resume % 2) .virtual)

end Sys2Proof.Machine
end

