-- ==== Sys2Proof/Machine/Transfer.lean ====
section
/-!
DEFINITION. Transfers: bursts and accesses of the DMA blocks (17 R533-R538, R541), and the MEM commands (11 R379).
-/
namespace Sys2Proof.Machine

/-! ## Beats -/

/-- The damage of the word of an address, by words. -/
def foundAt (l : List (Nat × Damage)) (a : Nat) : Damage :=
  ((l.find? (fun e => e.1 == wordOf a)).map Prod.snd).getD []

/-- Beats of a burst read until one ends in a bus error: the bytes delivered, whether all came, and the state (17 R513, R541). -/
def State.readBeats (s : State) (m : Master) (a width : Nat) (found : List (Nat × Damage)) : Nat → List Nat × Bool × State
  | 0 => ([], true, s)
  | n + 1 =>
    match s.readAcc m a width (foundAt found a) with
    | (none, t) => ([], false, t)
    | (some v, t) =>
      let x := t.readBeats m (a + width) width found n
      (leBytes width v ++ x.1, x.2.1, x.2.2)

/-- Beats written until one ends in a bus error: how many, whether all, and the state. -/
def State.writeBeats (s : State) (m : Master) (a width : Nat) (data : List Nat) (found : List (Nat × Damage)) : Nat → Nat × Bool × State
  | 0 => (0, true, s)
  | n + 1 =>
    match s.writeAcc m a width (ofBytes (data.take width)) (foundAt found a) with
    | (false, t) => (0, false, t)
    | (true, t) =>
      let x := t.writeBeats m (a + width) width (data.drop width) found n
      (x.1 + 1, x.2.1, x.2.2)

/-! ## Cell channels (R535-R538) -/

/-- The next burst of a channel: its address and its bytes. -/
def State.burst (s : State) (c : Channel) : Nat × Nat :=
  let p := s.pairAt c c.pair
  (p.1 + c.off, min 256 (p.2 - c.off))

/-- Bytes moved by a channel. -/
def State.chanMoved (s : State) (r : Region) (n k : Nat) : State :=
  s.onChan r n (fun c => { c with off := c.off + k, moved := c.moved + k })

/-- One burst of a channel: memory to the peripheral, which takes the first `gives` bytes while the rest go to a sink, or the peripheral's data to
memory; true when every beat completed (R535-R538). -/
def State.cellBurst (s : State) (r : Region) (n : Nat) (data : List Nat) (found : List (Nat × Damage)) (gives : Nat := 256) : Bool × State :=
  let c := s.chan r n
  let (a, len) := s.burst c
  if c.dir = 1 then
    let x := s.readBeats (.dma r) a 16 found (len / 16)
    let t := (x.2.2.chanMoved r n x.1.length).emit (.readData a (ofBytes (x.1.take gives)))
    (x.2.1, t)
  else
    let x := s.writeBeats (.dma r) a 16 data found (len / 16)
    (x.2.1, x.2.2.chanMoved r n (16 * x.1))

/-! ## Region engine contexts (R533) -/

/-- A context takes its burst in turn: by round-robin among those that are active (R530). -/
def State.ctxTurn (s : State) (r : Region) (n : Nat) : Bool :=
  decide (n < 16) || ((rangeFrom 1 4).map (fun i => 16 + ((s.jnc.dma.get r).turn + i) % 4)).find? (fun k => (s.chan r k).st == .active) == some n

/-- A context has taken its burst. -/
def State.tookTurn (s : State) (r : Region) (n : Nat) : State :=
  { s with jnc := { s.jnc with dma := s.jnc.dma.set r { s.jnc.dma.get r with turn := n - 16 } } }

/-- One burst, or one single access, of a context: read and then written; true when it completed. -/
def State.ctxMove (s : State) (r : Region) (n : Nat) (found : List (Nat × Damage)) : Bool × State :=
  let c := s.chan r n
  let w := c.width
  let e := c.element (c.moved / c.elem)
  let o := c.moved % c.elem
  let k := if w = 16 then min 16 ((c.elem - o) / 16) else 1
  let src := (e.1 + o) % 4294967296
  let dst := (e.2 + o) % 4294967296
  let x := s.readBeats (.dma r) src w found k
  let y := x.2.2.writeBeats (.dma r) dst w x.1 found (x.1.length / w)
  (x.2.1 && y.2.1, (y.2.2.chanMoved r n (w * y.1)).tookTurn r n)

/-- DMA_BURST_DONE: a burst or access completes, or ends in a bus error, which ends the descriptor; the channel proceeds, or waits for
the next request (R536, R537, R541). -/
def execDmaBurstDone (dt : Dt) (region : Region) (ch : Nat) (data : List Nat) (found : List (Nat × Damage)) (request : Bool) (s : State) : Res :=
  let t := s.tick dt
  .next (if !(t.chanRuns region ch && (t.chan region ch).st == .active && t.ctxTurn region ch) then t else
    let x := if ch < 16 then t.cellBurst region ch data found else t.ctxMove region ch found
    let t := x.2.onChan region ch (fun c => { c with request := request && decide (ch < 16) })
    if x.1 then t.chanGo region ch else t.onChan region ch (fun c => c.stop 2))

/-- DMA_PERIPH_RESET: the burst in progress runs to its last beat, with a sink or with zeros after the beats delivered, and the
channel stops with PERIPH_LOST; between bursts it stops at once (R538). The beats delivered hold what the peripheral gave. -/
def execDmaPeriphReset (dt : Dt) (region : Region) (ch beats : Nat) (s : State) : Res :=
  let t := s.tick dt
  .next (if !(t.chanRuns region ch && decide (ch < 16)) then t else
    match (t.chan region ch).st with
    | .wait => t.onChan region ch (fun c => { c.stop 3 with request := false })
    | .active =>
      let (a, len) := t.burst (t.chan region ch)
      let (l, t) := t.drawBytes (min (16 * beats) len)
      let x := t.cellBurst region ch (l ++ List.replicate (len - l.length) 0) [] (16 * beats)
      x.2.onChan region ch (fun c => { c.stop (if x.1 then 3 else 2) with
        request := false, lostAddr := if x.1 then a else 0, lostLen := if x.1 then len else 0 })
    | _ => t.onChan region ch (fun c => { c with request := false }))

/-! ## MEM commands (11 R379) -/

/-- The refusals of a MEM command's form. -/
def memBad (addr width len : Nat) : Bool :=
  decide (!([1, 2, 4, 8, 16].contains width) ∨ len = 0 ∨ 1024 < len ∨ addr % width ≠ 0 ∨ len % width ≠ 0)

/-- Who makes the accesses: the M voter triple up to 16 bytes, else an M-region DMA channel. -/
def memMaster (len : Nat) : Master := if len ≤ 16 then .triple .m else .dma .m

/-- The channel stops here because its peripheral is lost; only longer accesses use one. -/
def memLost (len a : Nat) (lostAt : Option Nat) : Bool := decide (16 < len) && (lostAt == some a)

/-- Reads in ascending order, to the first that fails: the failure with its address, the bytes, the state. -/
def State.memReads (s : State) (len width : Nat) (found : List (Nat × Damage)) (lostAt : Option Nat) (a : Nat) :
    Nat → Option (Status × Nat) × List Nat × State
  | 0 => (none, [], s)
  | n + 1 =>
    if memLost len a lostAt then (some (.periphLost, a), [], s)
    else match s.readAcc (memMaster len) a width (foundAt found a) with
      | (none, t) => (some (.busError, a), [], t)
      | (some v, t) =>
        let x := t.memReads len width found lostAt (a + width) n
        (x.1, leBytes width v ++ x.2.1, x.2.2)

/-- Writes in ascending order, to the first that fails. -/
def State.memWrites (s : State) (len width : Nat) (data : List Nat) (found : List (Nat × Damage)) (lostAt : Option Nat) (a : Nat) :
    Nat → Option (Status × Nat) × State
  | 0 => (none, s)
  | n + 1 =>
    if memLost len a lostAt then (some (.periphLost, a), s)
    else match s.writeAcc (memMaster len) a width (ofBytes (data.take width)) (foundAt found a) with
      | (false, t) => (some (.busError, a), t)
      | (true, t) => t.memWrites len width (data.drop width) found lostAt (a + width) n

/-- MEM READ. -/
def execMemRead (r : Req) (addr width len : Nat) (found : List (Nat × Damage)) (lostAt : Option Nat) (s : State) : Res :=
  hostCmd { cmd := 0x0E01, need := .read } r (fun _ t =>
    checked [(memBad addr width len, .range)]
      (let x := t.memReads len width found lostAt addr (len / width)
       match x.1 with
       | none => .ok [(ofBytes x.2.1, len)] x.2.2
       | some e => .ended e.1 [(e.2, 4)] x.2.2)) s

/-- MEM WRITE: no range of addresses is refused; the access takes effect at once (01 R54). -/
def execMemWrite (r : Req) (addr width : Nat) (data : List Nat) (found : List (Nat × Damage)) (lostAt : Option Nat) (s : State) : Res :=
  hostCmd { cmd := 0x0E02, need := .mem } r (fun _ t =>
    checked [(memBad addr width data.length, .range)]
      (let x := t.memWrites data.length width data found lostAt addr (data.length / width)
       match x.1 with
       | none => .ok [] x.2
       | some e => .ended e.1 [(e.2, 4)] x.2)) s

end Sys2Proof.Machine
end

