-- ==== Sys2Proof/Machine/Uplink.lean ====
section
/-!
DEFINITION. The receive side of the Wetur link (03 R106; 04 R132-R137, R143-R154; 05 R166, R167, R183; 15 R489): bursts, reports,
acknowledgements, join requests, quarantine and resends.
-/
namespace Sys2Proof.Machine

/-! ## Receive paths (03 R106) -/

/-- Keep the values of the last 256 frames. -/
def keep256 (h v : Nat) (l : List (Nat × Nat)) : List (Nat × Nat) := (h, v) :: l.filter (fun e => decide (h < e.1 + 256))

/-- A minislot exists in a frame of this profile: 0 for contention, then S scheduled ones (04 R135). -/
def State.slotExists (s : State) (m : Nat) : Bool := decide (m ≤ s.schedS)

/-- A feeder takes uplink in its frame under way: it is active and its receive path is in service (03 R106, R112). -/
def State.hears (s : State) (f : Nat) : Bool :=
  decide (f < 8) && s.runs .c && (s.feeder f).live && !(s.rxp f).rxFail && !s.pow.supplyFail && !s.pow.cmdShutdown

/-- A report may use a minislot: 0 for PRES_RISE and JOIN_REQ, the node's own scheduled one for every listed type but JOIN_REQ
(04, table "Report types and payloads"). -/
def State.slotOk (s : State) (f slot idx type : Nat) : Bool :=
  if slot = 0 then type == 1 || type == 0x1F
  else type != 0x1F && s.slotExists slot && s.owner f (s.feeder f).frame slot == idx

/-- Whether a report's MIC counts: under the key in force, or under the retiring key in the frames of t and t + 1; in a set-B frame that began before t the
retiring key is the one in force (04 R143; 02 R85). -/
def State.micOk (s : State) (f : Nat) (micCurrent micRetiring : Bool) : Bool :=
  let k := (s.feeder f).frame
  match tget none s.keys.retiring f with
  | some (t, _) => if k < t then micRetiring else micCurrent || (micRetiring && decide (k ≤ t + 1))
  | none => micCurrent

/-- UPLINK_BURST_DECODED: DECODED counts, and a report is discarded and counted by the first kind that applies (03 R106; 04 R132,
R143); a path decodes one burst in a minislot. What an accepted report says comes as a row of its own. -/
def execUplinkBurstDecoded (dt : Dt) (f slot type idx : Nat) (micCurrent micRetiring : Bool) (snr : Nat) (s : State) : Res :=
  let t := s.tick dt
  .next (if !t.hears f || !t.slotExists slot || (t.rxp f).got == some ((t.feeder f).frame, slot) then t
    else
      let k := (t.feeder f).frame
      let addr := wWrx + 4 + 0x10 * f
      let b := bump 65535 (t.rxp f).decoded
      let t := ((t.onRx f (fun r => { r with decoded := b.1, got := some (k, slot), snrs := keep256 k snr r.snrs })).stuckIf b.2 addr 16).addTotal addr 16 1
      let a := 2048 * f + idx
      if !((1 ≤ type && type ≤ 6) || type == 0x1F) then (t.onRx f (fun r => { r with badType := up32 r.badType })).stuckFw .c (fills32 (t.rxp f).badType)
      else if type ≠ 0x1F ∧ !(t.joinedAt a && t.micOk f micCurrent micRetiring) then
        let t := (t.onRx f (fun r => { r with badMic := up32 r.badMic })).stuckFw .c (fills32 (t.rxp f).badMic)
        if micRetiring && !micCurrent && !(t.feeder f).oldGenEvent then
          (t.onFeeder f (fun x => { x with oldGenEvent := true })).raiseHw 1 0x13 0xFFF 0x0400 (genPay 0 [(f, 1)])
        else t
      else if !t.slotOk f slot idx type then (t.onRx f (fun r => { r with badSlot := up32 r.badSlot })).stuckFw .c (fills32 (t.rxp f).badSlot)
      else if type = 0x1F then t
      else t.onNode a (fun n => { n with lastRx := k }))

/-- A receive path that works: of a feeder whose region runs, in service, with its module powered (03 R102, R106). -/
def State.pathUp (s : State) (f : Nat) : Bool :=
  decide (f < 8) && s.runs .c && !(s.rxp f).rxFail && !s.pow.supplyFail && !s.pow.cmdShutdown

/-- A noise measurement of a path (03 R106). -/
def State.noiseOf (s : State) (f k noise : Nat) : State := s.onRx f (fun r => { r with noises := keep256 k noise r.noises })

/-- UPLINK_MINISLOT_END: a burst that was detected and not decoded counts, and where none was decoded the path measures the noise, as it
does on a feeder whose link is inactive (03 R102, R106). -/
def execUplinkMinislotEnd (dt : Dt) (f slot : Nat) (detected : Bool) (noise : Nat) (s : State) : Res :=
  let t := s.tick dt
  let k := (t.feeder f).frame
  .next (if !t.pathUp f || !t.slotExists slot then t
    else if !(t.feeder f).live then t.noiseOf f t.tb.hcn noise
    else if (t.rxp f).got == some (k, slot) then t
    else
      let t := t.noiseOf f k noise
      if detected then
        let addr := wWrx + 4 + 0x10 * f
        let b := bump 65535 (t.rxp f).decodeFail
        ((t.onRx f (fun r => { r with decodeFail := b.1 })).stuckIf b.2 addr 0).addTotal addr 0 1
      else t)

/-! ## Reports -/

/-- The address of a report. -/
def repAddr (rep : Rep) : Nat := 2048 * rep.f + rep.idx

/-- A report is taken: its node is joined and it uses a minislot of its type (04 R132). -/
def State.takes (s : State) (rep : Rep) (type : Nat) : Bool :=
  s.hears rep.f && decide (rep.idx < 2048) && s.joinedAt (repAddr rep) && s.slotOk rep.f rep.slot rep.idx type

/-- What every report brings: LAST_RX, LEVEL, and SENT unknown where LEVEL differs by more than 100 from the level in force while
the node is neither raised nor under probe (05 R183). -/
def State.heardNode (s : State) (rep : Rep) : State :=
  let a := repAddr rep
  let k := (s.feeder rep.f).frame
  let n := s.node a
  let s := s.onNode a (fun n => { n with lastRx := k, level := rep.level.getD n.level })
  match rep.level with
  | none => s
  | some l =>
    let lvl := (s.inForce a k).2
    if n.localUntil.isNone && (n.probeAt k).isNone && decide (lvl + 100 < l ∨ l + 100 < lvl) then s.sensor ⟨a, 0, 0, true⟩ else s

/-- Contention and quarantine (04 R137): whether a minislot-0 report of a node is taken in. -/
def State.contend (s : State) (a k : Nat) : State × Bool :=
  let n := s.node a
  if n.quarantined then (s, false)
  else if n.quarNext then
    let s := s.onNode a (fun n => { n with quarantined := true, quarNext := false, quarFrom := k, contention := [] })
    ((s.raiseHw 1 0x13 0xFFF 0x0400 (genPay 0 [(a, 2)])).nodeNote a (s.euiAt a) 4 0, false)
  else
    let l := k :: n.contention.filter (fun c => decide (k < c + 1024))
    (s.onNode a (fun n => { n with contention := l, quarNext := decide (32 < l.length) }), true)

/-- PRES_RISE; a local raise ends the node's probe, of which the node's ACK tells (04 R134, R137, R152, R153; 05 R166, R183). -/
def execPresRise (rep : Rep) (_sense _strength : Nat) (loc : Bool) (s : State) : Res :=
  let t := s.tick rep.dt
  .next (if !t.takes rep 1 then t
    else
      let a := repAddr rep
      let k := (t.feeder rep.f).frame
      let (t, ok) := if rep.slot = 0 then t.contend a k else (t, true)
      if !ok then t
      else
        let t := if rep.slot = 0 then t.onFeeder rep.f (fun x => { x with cack := rep.idx % 31 }) else t
        let t := t.heardNode rep
        let t := t.sensor ⟨a, 0x3#32, if loc then 0x3#32 else 0x1#32, loc⟩
        if loc then t.onNode a (fun n => { n with localUntil := some (k + 2), probe := none }) else t)

/-- PRES_FALL clears PRES (05 R166). -/
def execPresFall (rep : Rep) (_last : Nat) (s : State) : Res :=
  let t := s.tick rep.dt
  .next (if !t.takes rep 2 then t else (t.heardNode rep).sensor ⟨repAddr rep, 0x1#32, 0, false⟩)

/-- DAYLIGHT writes LUX, DL_VALID, PRES and TEMP (05 R166, R167). -/
def execDaylight (rep : Rep) (lux : Nat) (pres fb : Bool) (temp : Nat) (s : State) : Res :=
  let t := s.tick rep.dt
  .next (if !t.takes rep 3 then t
    else
      let a := repAddr rep
      let k := (t.feeder rep.f).frame
      let t := (t.heardNode rep).onNode a (fun n => { n with temp := temp % 256, lastDl := k })
      t.sensor ⟨a, 0xFFFF0005#32, BitVec.ofNat 32 (pack [(16, 16, lux), (2, 1, b2n (!fb)), (0, 1, b2n pres)]), false⟩)

/-- STATUS: flags and versions; fallback after NFLAGS[4] or [5]; INCOMPATIBLE for a version the module does not speak; a lamp or
driver fault queues a probe (04 R148, R154; 08 R277). -/
def execStatusReport (rep : Rep) (nflags : BitVec 16) (pver fwver : Nat) (s : State) : Res :=
  let t := s.tick rep.dt
  .next (if !t.takes rep 4 then t
    else
      let a := repAddr rep
      let was := (t.node a).incompatible
      let bad := !t.pverOk pver
      let t := (t.heardNode rep).onNode a (fun n => { n with
        nflags := nflags, pver := pver % 16, fwver := fwver % 16384, incompatible := bad })
      let t := if bad && !was then
          (t.raiseHw 1 0x13 0xFFF 0x0400 (genPay 0 [(a, 2)])).nodeNote a (t.euiAt a) 3 0
        else t
      let t := if bit nflags 4 || bit nflags 5 then t.fallbackNode a else t
      if bit nflags 0 || bit nflags 1 then (t.request a 0 (t.tb.hcn + t.dayHcn) 0 3).2 else t)

/-! ## Acknowledgements (04 R144, R147; 06 R207; 08 R286; 11 R364) -/

/-- A background item that an ACK names. -/
def ackNames (op idx ref : Nat) : Item → Bool
  | .groupSet i g _ _ => op == 5 && i == idx && g == ref
  | .sceneSet i n _ => op == 6 && i == idx && n == ref
  | .nodeCfg i p _ => op == 7 && i == idx && p == ref
  | .leave i => op == 8 && i == idx
  | _ => false

/-- What an acknowledged item leaves in the module's record of the node (06 R207, 04 R154). -/
def NodeCfg.acked (c : NodeCfg) : Item → NodeCfg
  | .groupSet _ g grp v => { c with groups := tset 0 c.groups g (if v = 0 then 0 else grp + 1) }
  | .sceneSet _ n l => { c with scenes := tset unk c.scenes n l }
  | .nodeCfg _ p v => { c with params := tset none c.params p (some v) }
  | _ => c

/-- The earliest item that an ACK names, sent and not yet resolved. -/
def State.ackItem (s : State) (f op idx ref : Nat) : Option BgItem :=
  (tget [] s.nv.bg f).find? (fun b => decide (0 < b.sent) && ackNames op idx ref b.item)

/-- An ACK of a background item: it is resolved; with DONE the record changes, and membership re-merges the node's limits (06
R208). A LEAVE ends the registration. -/
def State.ackBg (s : State) (f op idx ref result : Nat) : State :=
  match s.ackItem f op idx ref with
  | none => s
  | some b =>
    let a := 2048 * f + idx
    let s := s.onNv (fun v => { v with bg := tmod [] v.bg f (fun l => l.filter (fun x => x.id != b.id)) })
    match b.item with
    | .leave _ => s.nodeLeft a
    | i =>
      if result ≠ 0 then s
      else
        let s := s.onNcfg a (fun c => c.acked i)
        match i with
        | .groupSet .. => if s.started then s.bindLimits else s
        | _ => s

/-- An ACK for a probe (08 R286). -/
def State.ackProbe (s : State) (a ref result : Nat) : State :=
  match s.blot.probes.find? (fun p => p.addr == a && p.start % 1048576 == ref) with
  | none => s
  | some p =>
    match p.judged with
    | none => s.onBlot (fun b => { b with probes := b.probes.map (fun q => if q.req == p.req then { q with ackRes := some result } else q) })
    | some j => s.ackJudged p j result

/-- ACK. -/
def execAck (rep : Rep) (op result ref : Nat) (s : State) : Res :=
  let t := s.tick rep.dt
  .next (if !t.takes rep 5 then t
    else
      let a := repAddr rep
      let t := t.heardNode rep
      let t := t.nodeNote a (t.euiAt a) 2 (pack [(0, 4, op), (4, 4, result), (8, 20, ref)])
      match op with
      | 4 => t.ackProbe a (ref % 1048576) result
      | 9 =>
        (match tget none t.nv.rolls rep.f with
         | some p => if result = 0 ∧ p.gen % 16 = ref then
             (t.onNode a (fun n => { n with keyAcked := true })).onFeeder rep.f (fun x => { x with keyQ := x.keyQ.filter (· != rep.idx) })
           else t
         | none => t)
      | _ => t.ackBg rep.f op rep.idx ref result)

/-- IMG_STATUS: the node's image transfer state (15 R489). -/
def execImgStatus (rep : Rep) (img state missing first : Nat) (s : State) : Res :=
  let t := s.tick rep.dt
  .next (if !t.takes rep 6 then t
    else
      let k := (t.feeder rep.f).frame
      (t.heardNode rep).onNode (repAddr rep) (fun n =>
        let was := tget {} n.img (img % 16)
        let ready := if state = 2 ∨ state = 7 then some (was.ready.getD k) else none
        { n with img := tput n.img (img % 16) ⟨state, missing, first, k, ready⟩ }))

/-! ## Joins (04 R146) -/

/-- The lowest free index on a feeder (R146). -/
def State.freeIdx (s : State) (f : Nat) : Option Nat :=
  (rangeFrom 0 2048).find? (fun i =>
    let a := 2048 * f + i
    !(s.joinedAt a) && !(s.nv.regs.any (fun r => r.fixed == some a)) && !((s.feeder f).joins.any (fun j => j.idx == i)))

/-- The index a registration gets on a feeder: its fixed address, its current one, or the lowest free; none where its fixed address
lies on another feeder or no index is free. -/
def State.joinIdx (s : State) (f : Nat) (r : Reg) : Option Nat :=
  match r.fixed with
  | some a => if a / 2048 = f then some (a % 2048) else none
  | none => match r.addr with
    | some a => if a / 2048 = f then some (a % 2048) else s.freeIdx f
    | none => s.freeIdx f

/-- A join request that is counted and discarded; every 256th makes a record (R146). -/
def State.refuseJoin (s : State) : State :=
  let n := s.joinRefused + 1
  let s := { s with joinRefused := n }
  if n % 256 = 0 then s.raiseHw 1 0x13 0xFFF 0x0400 (genPay 0 []) else s

/-- JOIN_REQ: the 59 EUI bits received are matched against usable registrations whose install key checks the MIC; an index is
assigned and two JOIN_KEYs wait for open blocks (R146). That of a joined node is one of its contention reports (R137). -/
def execJoinReq (dt : Dt) (f euiHigh euiLow : Nat) (micOkFor : List Nat) (s : State) : Res :=
  let t := s.tick dt
  .next (if !t.hears f then t
    else
      let want := euiHigh * 2048 + euiLow
      let cands := t.nv.regs.filter (fun r => r.usable && r.eui % 2 ^ 59 == want)
      match cands.find? (fun r => micOkFor.contains r.eui) with
      | none => if cands.isEmpty then t.refuseJoin else (t.onRx f (fun r => { r with badMic := up32 r.badMic })).stuckFw .c (fills32 (t.rxp f).badMic)
      | some r =>
        let (t, heard) := match r.addr with | some a => t.contend a (t.feeder f).frame | none => (t, true)
        let x := t.feeder f
        if !heard then t
        else if (match r.fixed with | some a => decide (a / 2048 ≠ f) | none => false) then t.refuseJoin
        else if x.joins.any (fun j => j.eui == r.eui) || 64 ≤ x.joins.length then t
        else match t.joinIdx f r with
          | none => t
          | some i => t.onFeeder f (fun x => { x with joins := x.joins ++ [{ eui := r.eui, idx := i, jhcn := x.frame % 65536 }] }))

/-! ## Timeouts and resends -/

/-- QUARANTINE_END: 4 096 frames after it began (R137). -/
def execQuarantineEnd (dt : Dt) (addr : Nat) (s : State) : Res :=
  let t := s.tick dt
  let n := t.node addr
  .next (if n.quarantined && decide (n.quarFrom + 4096 ≤ t.tb.hcn) then
      (t.onNode addr (fun n => { n with quarantined := false, contention := [] })).nodeNote addr (t.euiAt addr) 5 0
    else t)

/-- PRES_TIMEOUT: four of the node's scheduled turns without a decoded report (05 R166). -/
def execPresTimeout (dt : Dt) (addr : Nat) (s : State) : Res :=
  let t := s.tick dt
  let f := addr / 2048
  .next (if t.joinedAt addr && decide (4 ≤ t.turns f (addr % 2048) (t.node addr).lastRx (t.feeder f).frame) then
      t.sensor ⟨addr, 0x1#32, 0, false⟩
    else t)

/-- DAYLIGHT_TIMEOUT: four of the node's scheduled turns without a DAYLIGHT report (05 R167). -/
def execDaylightTimeout (dt : Dt) (addr : Nat) (s : State) : Res :=
  let t := s.tick dt
  let f := addr / 2048
  .next (if t.joinedAt addr && decide (4 ≤ t.turns f (addr % 2048) (t.node addr).lastDl (t.feeder f).frame) then
      t.sensor ⟨addr, 0x4#32, 0, false⟩
    else t)

/-- NODE_KEY_RESEND: no acknowledgement by the end of the node's second turn; up to 8 times again (R144). -/
def execNodeKeyResend (dt : Dt) (addr : Nat) (s : State) : Res :=
  let t := s.tick dt
  let f := addr / 2048
  let n := t.node addr
  .next (if t.joinedAt addr && (tget none t.nv.rolls f).isSome && !n.keyAcked && decide (1 ≤ n.keySent ∧ n.keySent ≤ 8)
        && !((t.feeder f).keyQ.contains (addr % 2048))
        && decide (2 ≤ t.turns f (addr % 2048) n.keySentAt (t.feeder f).frame) then
      t.onFeeder f (fun x => { x with keyQ := x.keyQ ++ [addr % 2048] })
    else t)

/-- The index a background item is for. -/
def Item.node : Item → Nat
  | .groupSet i .. => i | .sceneSet i .. => i | .nodeCfg i .. => i | .leave i => i | .nodeKey i .. => i | .probe i .. => i
  | _ => 0

/-- BACKGROUND_RESEND: an item not acknowledged by the end of the node's second turn goes again, up to 8 transmissions; then it is
dropped with one record, and a LEAVE ends the registration (R147, R610). -/
def execBackgroundResend (dt : Dt) (f id : Nat) (s : State) : Res :=
  let t := s.tick dt
  .next (match (tget [] t.nv.bg f).find? (fun b => b.id == id) with
    | none => t
    | some b =>
      let i := b.item.node
      if b.due || decide (t.turns f i b.sentAt (t.feeder f).frame < 2) then t
      else if b.sent < 8 then
        t.onNv (fun v => { v with bg := tmod [] v.bg f (fun l => l.map (fun x => if x.id == id then { x with due := true } else x)) })
      else
        let t := t.onNv (fun v => { v with bg := tmod [] v.bg f (fun l => l.filter (fun x => x.id != id)) })
        match b.item with
        | .leave _ => t.nodeLeft (2048 * f + i)
        | it => t.raiseHw 1 0x13 0xFFF 0x0400 (genPay 0 [(2048 * f + i, 2), (it.op, 1)]))

end Sys2Proof.Machine
end

