-- ==== Sys2Proof/Machine/Dispatch.lean ====
section
/-!
DEFINITION. The dispatch of every command to its meaning, one arm per row of spec/opcode_table.json.
-/
namespace Sys2Proof.Machine

/-- The effect of a command on everything but the queue. -/
def exec (i : Instr) (s : State) : Host.Outcome State Fault Refusal :=
  match i with
  | .sysIdentify r => Sys2Proof.Machine.execSysIdentify r s
  | .sysStatus r => Sys2Proof.Machine.execSysStatus r s
  | .sysSessionOpen r priv certPriv nh epk serial cert certSig notBefore notAfter => Sys2Proof.Machine.execSysSessionOpen r priv certPriv nh epk serial cert certSig notBefore notAfter s
  | .sysSessionConfirm r sig => Sys2Proof.Machine.execSysSessionConfirm r sig s
  | .sysSessionClose r => Sys2Proof.Machine.execSysSessionClose r s
  | .sysSubscribe r classes sevMin => Sys2Proof.Machine.execSysSubscribe r classes sevMin s
  | .sysNotifyRead r first count => Sys2Proof.Machine.execSysNotifyRead r first count s
  | .sysSessions r => Sys2Proof.Machine.execSysSessions r s
  | .sysNetSet r ipv4 mask gw vlan => Sys2Proof.Machine.execSysNetSet r ipv4 mask gw vlan s
  | .sysNetRead r => Sys2Proof.Machine.execSysNetRead r s
  | .sysLifecycle r new serialChk => Sys2Proof.Machine.execSysLifecycle r new serialChk s
  | .timeTbStatus r => Sys2Proof.Machine.execTimeTbStatus r s
  | .timeStampRead r hcn count => Sys2Proof.Machine.execTimeStampRead r hcn count s
  | .timeTbSet r profileSel fdrVset => Sys2Proof.Machine.execTimeTbSet r profileSel fdrVset s
  | .timeRtcRead r => Sys2Proof.Machine.execTimeRtcRead r s
  | .timeRtcSet r year month day hour min sec dst => Sys2Proof.Machine.execTimeRtcSet r year month day hour min sec dst s
  | .timeRtcStep r dir => Sys2Proof.Machine.execTimeRtcStep r dir s
  | .timePtpSet r domP domS delayP delayS fallback => Sys2Proof.Machine.execTimePtpSet r domP domS delayP delayS fallback s
  | .timePtpRead r => Sys2Proof.Machine.execTimePtpRead r s
  | .linkStatus r => Sys2Proof.Machine.execLinkStatus r s
  | .linkAttenSet r feeder atten => Sys2Proof.Machine.execLinkAttenSet r feeder atten s
  | .linkStageSet r feeder stage => Sys2Proof.Machine.execLinkStageSet r feeder stage s
  | .nodeRegister r eui wik wikA addr => Sys2Proof.Machine.execNodeRegister r eui wik wikA addr s
  | .nodeDeregister r eui => Sys2Proof.Machine.execNodeDeregister r eui s
  | .nodeRead r first count => Sys2Proof.Machine.execNodeRead r first count s
  | .nodeGroupsRead r addr => Sys2Proof.Machine.execNodeGroupsRead r addr s
  | .nodeGroupSet r addr gslot group valid => Sys2Proof.Machine.execNodeGroupSet r addr gslot group valid s
  | .nodeSceneSet r addr scene level => Sys2Proof.Machine.execNodeSceneSet r addr scene level s
  | .nodeParamSet r addr param value => Sys2Proof.Machine.execNodeParamSet r addr param value s
  | .nodeLevel r group level tgt => Sys2Proof.Machine.execNodeLevel r group level tgt s
  | .nodeScene r scope group scene tgt => Sys2Proof.Machine.execNodeScene r scope group scene tgt s
  | .nodeOverride r scope id level tgt endHcn => Sys2Proof.Machine.execNodeOverride r scope id level tgt endHcn s
  | .graphStop r => Sys2Proof.Machine.execGraphStop r s
  | .graphEdgeWrite r first entries => Sys2Proof.Machine.execGraphEdgeWrite r first entries s
  | .graphNodeWrite r first entries => Sys2Proof.Machine.execGraphNodeWrite r first entries s
  | .graphCurveWrite r curve points => Sys2Proof.Machine.execGraphCurveWrite r curve points s
  | .graphSlewWrite r slew profile => Sys2Proof.Machine.execGraphSlewWrite r slew profile s
  | .graphCfgWrite r substeps ageLimit => Sys2Proof.Machine.execGraphCfgWrite r substeps ageLimit s
  | .graphRestart r tgt => Sys2Proof.Machine.execGraphRestart r tgt s
  | .graphRead r first count table => Sys2Proof.Machine.execGraphRead r first count table s
  | .graphStatus r => Sys2Proof.Machine.execGraphStatus r s
  | .schedWrite r group header entries => Sys2Proof.Machine.execSchedWrite r group header entries s
  | .schedRead r group => Sys2Proof.Machine.execSchedRead r group s
  | .schedHolWrite r cal dates => Sys2Proof.Machine.execSchedHolWrite r cal dates s
  | .schedHolRead r cal => Sys2Proof.Machine.execSchedHolRead r cal s
  | .schedSiteWrite r site => Sys2Proof.Machine.execSchedSiteWrite r site s
  | .schedSiteRead r => Sys2Proof.Machine.execSchedSiteRead r s
  | .schedSunRead r date => Sys2Proof.Machine.execSchedSunRead r date s
  | .schedLimitsRead r addr => Sys2Proof.Machine.execSchedLimitsRead r addr s
  | .meterInputSet r tgt input header points => Sys2Proof.Machine.execMeterInputSet r tgt input header points s
  | .meterGlobalSet r tgt vnomA vnomB saveInt calInt => Sys2Proof.Machine.execMeterGlobalSet r tgt vnomA vnomB saveInt calInt s
  | .meterPulseSet r tgt out qty fdrMask const => Sys2Proof.Machine.execMeterPulseSet r tgt out qty fdrMask const s
  | .meterCfgRead r sect => Sys2Proof.Machine.execMeterCfgRead r sect s
  | .meterRecordRead r feeder hcn count => Sys2Proof.Machine.execMeterRecordRead r feeder hcn count s
  | .meterSubscribe r fdrMask n => Sys2Proof.Machine.execMeterSubscribe r fdrMask n s
  | .meterSnapshot r tgt => Sys2Proof.Machine.execMeterSnapshot r tgt s
  | .meterSnapRead r first count => Sys2Proof.Machine.execMeterSnapRead r first count s
  | .meterAccRead r first count => Sys2Proof.Machine.execMeterAccRead r first count s
  | .meterGapRead r => Sys2Proof.Machine.execMeterGapRead r s
  | .meterCalibrate r input => Sys2Proof.Machine.execMeterCalibrate r input s
  | .meterSatClear r mask => Sys2Proof.Machine.execMeterSatClear r mask s
  | .meterStatus r => Sys2Proof.Machine.execMeterStatus r s
  | .accordModelSet r tgt first entries => Sys2Proof.Machine.execAccordModelSet r tgt first entries s
  | .accordDefaultSet r entry => Sys2Proof.Machine.execAccordDefaultSet r entry s
  | .accordModelRead r first count => Sys2Proof.Machine.execAccordModelRead r first count s
  | .accordAccountRead r first count => Sys2Proof.Machine.execAccordAccountRead r first count s
  | .accordPhaseRead r first count => Sys2Proof.Machine.execAccordPhaseRead r first count s
  | .accordSnapshot r tgt => Sys2Proof.Machine.execAccordSnapshot r tgt s
  | .accordSnapRead r first count sect => Sys2Proof.Machine.execAccordSnapRead r first count sect s
  | .accordCfgSet r resThr attTol => Sys2Proof.Machine.execAccordCfgSet r resThr attTol s
  | .accordStatus r => Sys2Proof.Machine.execAccordStatus r s
  | .blotterRequest r addr delta deadline => Sys2Proof.Machine.execBlotterRequest r addr delta deadline s
  | .blotterCancel r req => Sys2Proof.Machine.execBlotterCancel r req s
  | .blotterResultRead r mode key count => Sys2Proof.Machine.execBlotterResultRead r mode key count s
  | .blotterNodeRead r first count => Sys2Proof.Machine.execBlotterNodeRead r first count s
  | .blotterClear r addr => Sys2Proof.Machine.execBlotterClear r addr s
  | .blotterCfgSet r bc br => Sys2Proof.Machine.execBlotterCfgSet r bc br s
  | .blotterStatus r => Sys2Proof.Machine.execBlotterStatus r s
  | .signWrite r dest daddr offset data => Sys2Proof.Machine.execSignWrite r dest daddr offset data s
  | .signSwap r mode tgt loc rem => Sys2Proof.Machine.execSignSwap r mode tgt loc rem s
  | .signCfgSet r cfg gcur => Sys2Proof.Machine.execSignCfgSet r cfg gcur s
  | .signTrimSet r first trims => Sys2Proof.Machine.execSignTrimSet r first trims s
  | .signPopSet r row pop => Sys2Proof.Machine.execSignPopSet r row pop s
  | .signDefaultSet r offset commit data => Sys2Proof.Machine.execSignDefaultSet r offset commit data s
  | .signStatus r => Sys2Proof.Machine.execSignStatus r s
  | .signFaultRead r row => Sys2Proof.Machine.execSignFaultRead r row s
  | .signBus r port daddr scmd pay => Sys2Proof.Machine.execSignBus r port daddr scmd pay s
  | .signCellSet r col cell => Sys2Proof.Machine.execSignCellSet r col cell s
  | .signColsRead r => Sys2Proof.Machine.execSignColsRead r s
  | .keySlotRead r => Sys2Proof.Machine.execKeySlotRead r s
  | .keyLoad r slot attr wkey wkeyA => Sys2Proof.Machine.execKeyLoad r slot attr wkey wkeyA s
  | .keyGenerate r slot attr => Sys2Proof.Machine.execKeyGenerate r slot attr s
  | .keyCommit r slot kcv => Sys2Proof.Machine.execKeyCommit r slot kcv s
  | .keyInvalidate r slot => Sys2Proof.Machine.execKeyInvalidate r slot s
  | .keyRollover r feeder tgt => Sys2Proof.Machine.execKeyRollover r feeder tgt s
  | .keyRollRead r feeder => Sys2Proof.Machine.execKeyRollRead r feeder s
  | .keyOperatorSet r pub sigFst sigSnd => Sys2Proof.Machine.execKeyOperatorSet r pub sigFst sigSnd s
  | .keyDenySet r serials => Sys2Proof.Machine.execKeyDenySet r serials s
  | .keyDenyRead r => Sys2Proof.Machine.execKeyDenyRead r s
  | .keyTamperSet r respA respB => Sys2Proof.Machine.execKeyTamperSet r respA respB s
  | .keyTamperRead r => Sys2Proof.Machine.execKeyTamperRead r s
  | .keyTamperAck r input => Sys2Proof.Machine.execKeyTamperAck r input s
  | .updHeader r hdr sig => Sys2Proof.Machine.execUpdHeader r hdr sig s
  | .updBlock r offset data => Sys2Proof.Machine.execUpdBlock r offset data s
  | .updBitmap r first count => Sys2Proof.Machine.execUpdBitmap r first count s
  | .updActivate r tgt hashOk => Sys2Proof.Machine.execUpdActivate r tgt hashOk s
  | .updConfirm r => Sys2Proof.Machine.execUpdConfirm r s
  | .updAbort r => Sys2Proof.Machine.execUpdAbort r s
  | .updStatus r => Sys2Proof.Machine.execUpdStatus r s
  | .updNodeActivate r img group tgt => Sys2Proof.Machine.execUpdNodeActivate r img group tgt s
  | .updNodeStatus r first count img => Sys2Proof.Machine.execUpdNodeStatus r first count img s
  | .logRead r area start count sevMin code => Sys2Proof.Machine.execLogRead r area start count sevMin code s
  | .logClear r => Sys2Proof.Machine.execLogClear r s
  | .logStatus r => Sys2Proof.Machine.execLogStatus r s
  | .logRateSet r code refill => Sys2Proof.Machine.execLogRateSet r code refill s
  | .memRead r addr width len found lostAt => Sys2Proof.Machine.execMemRead r addr width len found lostAt s
  | .memWrite r addr width data found lostAt => Sys2Proof.Machine.execMemWrite r addr width data found lostAt s
  | .testSelftest r kind index pass data => Sys2Proof.Machine.execTestSelftest r kind index pass data s
  | .testReturn r kind index pass => Sys2Proof.Machine.execTestReturn r kind index pass s
  | .testRetire r kind index => Sys2Proof.Machine.execTestRetire r kind index s
  | .testReserves r => Sys2Proof.Machine.execTestReserves r s
  | .testRestart r target => Sys2Proof.Machine.execTestRestart r target s
  | .testWearSet r kind thresh => Sys2Proof.Machine.execTestWearSet r kind thresh s
  | .registerWrite dt m addr value => Sys2Proof.Machine.execRegisterWrite dt m addr value s
  | .rcCounterRead dt m addr inc => Sys2Proof.Machine.execRcCounterRead dt m addr inc s
  | .jncHcnLoRead dt m => Sys2Proof.Machine.execJncHcnLoRead dt m s
  | .dbSetWrite dt m target bits w1c => Sys2Proof.Machine.execDbSetWrite dt m target bits w1c s
  | .evtinPortPush dt region code src pay => Sys2Proof.Machine.execEvtinPortPush dt region code src pay s
  | .eventLineEntry dt block code cell pay => Sys2Proof.Machine.execEventLineEntry dt block code cell pay s
  | .eventRecordWrite dt => Sys2Proof.Machine.execEventRecordWrite dt s
  | .tokenRefill dt code => Sys2Proof.Machine.execTokenRefill dt code s
  | .logClearEraseDone dt => Sys2Proof.Machine.execLogClearEraseDone dt s
  | .voterDisagree dt region pos allDiffer => Sys2Proof.Machine.execVoterDisagree dt region pos allDiffer s
  | .regionRestart dt region => Sys2Proof.Machine.execRegionRestart dt region s
  | .regionResume dt region => Sys2Proof.Machine.execRegionResume dt region s
  | .chipFault dt => Sys2Proof.Machine.execChipFault dt s
  | .zeroCrossing dt rising rms => Sys2Proof.Machine.execZeroCrossing dt rising rms s
  | .setBCrossing dt rising rms => Sys2Proof.Machine.execSetBCrossing dt rising rms s
  | .hcnEdge dt found rms => Sys2Proof.Machine.execHcnEdge dt found rms s
  | .virtualEdge dt => Sys2Proof.Machine.execVirtualEdge dt s
  | .lockStepTimeout dt => Sys2Proof.Machine.execLockStepTimeout dt s
  | .blockClose dt f => Sys2Proof.Machine.execBlockClose dt f s
  | .frameBurstStart dt f => Sys2Proof.Machine.execFrameBurstStart dt f s
  | .uplinkBurstDecoded dt f slot type idx micCurrent micRetiring snr => Sys2Proof.Machine.execUplinkBurstDecoded dt f slot type idx micCurrent micRetiring snr s
  | .presRise rep sense strength loc => Sys2Proof.Machine.execPresRise rep sense strength loc s
  | .presFall rep last => Sys2Proof.Machine.execPresFall rep last s
  | .daylight rep lux pres fb temp => Sys2Proof.Machine.execDaylight rep lux pres fb temp s
  | .statusReport rep nflags pver fwver => Sys2Proof.Machine.execStatusReport rep nflags pver fwver s
  | .ack rep op result ref => Sys2Proof.Machine.execAck rep op result ref s
  | .imgStatus rep img state missing first => Sys2Proof.Machine.execImgStatus rep img state missing first s
  | .joinReq dt f euiHigh euiLow micOkFor => Sys2Proof.Machine.execJoinReq dt f euiHigh euiLow micOkFor s
  | .quarantineEnd dt addr => Sys2Proof.Machine.execQuarantineEnd dt addr s
  | .presTimeout dt addr => Sys2Proof.Machine.execPresTimeout dt addr s
  | .daylightTimeout dt addr => Sys2Proof.Machine.execDaylightTimeout dt addr s
  | .linkInactive50 dt f => Sys2Proof.Machine.execLinkInactive50 dt f s
  | .nodeKeyResend dt addr => Sys2Proof.Machine.execNodeKeyResend dt addr s
  | .backgroundResend dt f id => Sys2Proof.Machine.execBackgroundResend dt f id s
  | .echoFailure dt f => Sys2Proof.Machine.execEchoFailure dt f s
  | .stageLoadCheck dt stage pass currentPass rxPass => Sys2Proof.Machine.execStageLoadCheck dt stage pass currentPass rxPass s
  | .spareStageCheck dt => Sys2Proof.Machine.execSpareStageCheck dt s
  | .extFaultClear dt f => Sys2Proof.Machine.execExtFaultClear dt f s
  | .sillagePass dt => Sys2Proof.Machine.execSillagePass dt s
  | .passCommit dt mismatch mismatch2 rerunFits timeUs => Sys2Proof.Machine.execPassCommit dt mismatch mismatch2 rerunFits timeUs s
  | .sillageAutoRestart dt => Sys2Proof.Machine.execSillageAutoRestart dt s
  | .finalConversion dt => Sys2Proof.Machine.execFinalConversion dt s
  | .dstStepIssue dt => Sys2Proof.Machine.execDstStepIssue dt s
  | .meterRecordComplete dt f phases clip => Sys2Proof.Machine.execMeterRecordComplete dt f phases clip s
  | .pulseStart dt out => Sys2Proof.Machine.execPulseStart dt out s
  | .pulseEnd dt out => Sys2Proof.Machine.execPulseEnd dt out s
  | .meterSnapshotComplete dt => Sys2Proof.Machine.execMeterSnapshotComplete dt s
  | .periodicSave dt => Sys2Proof.Machine.execPeriodicSave dt s
  | .converterFailure dt conv => Sys2Proof.Machine.execConverterFailure dt conv s
  | .spareDwellEnd dt conv spare => Sys2Proof.Machine.execSpareDwellEnd dt conv spare s
  | .calibrationDue dt input => Sys2Proof.Machine.execCalibrationDue dt input s
  | .calibrationStep dt within offset gain => Sys2Proof.Machine.execCalibrationStep dt within offset gain s
  | .levelSnapshotCopy dt => Sys2Proof.Machine.execLevelSnapshotCopy dt s
  | .accordAttribution dt f => Sys2Proof.Machine.execAccordAttribution dt f s
  | .windowCorrelate dt x => Sys2Proof.Machine.execWindowCorrelate dt x s
  | .probeAckTimeout dt addr => Sys2Proof.Machine.execProbeAckTimeout dt addr s
  | .requestRetry dt req => Sys2Proof.Machine.execRequestRetry dt req s
  | .requestDeadline dt req => Sys2Proof.Machine.execRequestDeadline dt req s
  | .autoSweepDue dt addr => Sys2Proof.Machine.execAutoSweepDue dt addr s
  | .modelTableStore dt => Sys2Proof.Machine.execModelTableStore dt s
  | .scanSyncEvent dt => Sys2Proof.Machine.execScanSyncEvent dt s
  | .signSyncEdge dt => Sys2Proof.Machine.execSignSyncEdge dt s
  | .signSyncLost dt => Sys2Proof.Machine.execSignSyncLost dt s
  | .rowSlotStart dt => Sys2Proof.Machine.execRowSlotStart dt s
  | .ledMeasure dt probe reads => Sys2Proof.Machine.execLedMeasure dt probe reads s
  | .swapBoundary dt => Sys2Proof.Machine.execSwapBoundary dt s
  | .backCopyDone dt => Sys2Proof.Machine.execBackCopyDone dt s
  | .cellFailure dt cells => Sys2Proof.Machine.execCellFailure dt cells s
  | .sinkCellTest dt cell pass => Sys2Proof.Machine.execSinkCellTest dt cell pass s
  | .sbusSyncSend dt => Sys2Proof.Machine.execSbusSyncSend dt s
  | .sbusTransaction dt port => Sys2Proof.Machine.execSbusTransaction dt port s
  | .sbusResponse dt port fr => Sys2Proof.Machine.execSbusResponse dt port fr s
  | .sbusResponseTimeout dt port => Sys2Proof.Machine.execSbusResponseTimeout dt port s
  | .sbusEchoMismatch dt port => Sys2Proof.Machine.execSbusEchoMismatch dt port s
  | .sessionConfirmTimeout dt ses => Sys2Proof.Machine.execSessionConfirmTimeout dt ses s
  | .sessionIdleTimeout dt ses => Sys2Proof.Machine.execSessionIdleTimeout dt ses s
  | .usbBusReset dt => Sys2Proof.Machine.execUsbBusReset dt s
  | .notificationRelease dt ses => Sys2Proof.Machine.execNotificationRelease dt ses s
  | .ethFrameRx dt port fr => Sys2Proof.Machine.execEthFrameRx dt port fr s
  | .arpRequest dt port ip => Sys2Proof.Machine.execArpRequest dt port ip s
  | .icmpEchoRequest dt port => Sys2Proof.Machine.execIcmpEchoRequest dt port s
  | .prpSupervisionTx dt => Sys2Proof.Machine.execPrpSupervisionTx dt s
  | .ptpSyncRx dt port domain seq twoStep t1 err corr logInterval => Sys2Proof.Machine.execPtpSyncRx dt port domain seq twoStep t1 err corr logInterval s
  | .ptpFollowUpRx dt port domain seq t1 corr => Sys2Proof.Machine.execPtpFollowUpRx dt port domain seq t1 corr s
  | .ptpAnnounceRx dt port domain master rank time udp logInterval => Sys2Proof.Machine.execPtpAnnounceRx dt port domain master rank time udp logInterval s
  | .ptpDelayRespRx dt port domain seq t4 corr logInterval => Sys2Proof.Machine.execPtpDelayRespRx dt port domain seq t4 corr logInterval s
  | .ptpPdelayReqRx dt port udp seq corr turnaround => Sys2Proof.Machine.execPtpPdelayReqRx dt port udp seq corr turnaround s
  | .ptpPdelayRespRx dt port seq err corr => Sys2Proof.Machine.execPtpPdelayRespRx dt port seq err corr s
  | .ptpDelayReqTx dt port domain spread err => Sys2Proof.Machine.execPtpDelayReqTx dt port domain spread err s
  | .ptpSourceLost dt src => Sys2Proof.Machine.execPtpSourceLost dt src s
  | .ptpSourceReturn dt src => Sys2Proof.Machine.execPtpSourceReturn dt src s
  | .ptpAdjWrite dt m adj => Sys2Proof.Machine.execPtpAdjWrite dt m adj s
  | .ptpIncrWrite dt m incr => Sys2Proof.Machine.execPtpIncrWrite dt m incr s
  | .ptpTimeNsRead dt m => Sys2Proof.Machine.execPtpTimeNsRead dt m s
  | .rtcHourlyCheck dt => Sys2Proof.Machine.execRtcHourlyCheck dt s
  | .ethLinkDown dt port => Sys2Proof.Machine.execEthLinkDown dt port s
  | .ethLinkUp dt port speed => Sys2Proof.Machine.execEthLinkUp dt port speed s
  | .rtcBlockRead dt m offset => Sys2Proof.Machine.execRtcBlockRead dt m offset s
  | .rtcYearRead dt m => Sys2Proof.Machine.execRtcYearRead dt m s
  | .rtcFreezeTimeout dt => Sys2Proof.Machine.execRtcFreezeTimeout dt s
  | .rtcFieldWrite dt m offset value => Sys2Proof.Machine.execRtcFieldWrite dt m offset value s
  | .rtcSecsWrite dt m value => Sys2Proof.Machine.execRtcSecsWrite dt m value s
  | .rtcSetApply dt => Sys2Proof.Machine.execRtcSetApply dt s
  | .stepFwd dt m both => Sys2Proof.Machine.execStepFwd dt m both s
  | .stepBack dt m both => Sys2Proof.Machine.execStepBack dt m both s
  | .rtcStepApply dt => Sys2Proof.Machine.execRtcStepApply dt s
  | .rtcCalendarWrap dt => Sys2Proof.Machine.execRtcCalendarWrap dt s
  | .backupSwitchVbat dt => Sys2Proof.Machine.execBackupSwitchVbat dt s
  | .backupSwitchRail dt => Sys2Proof.Machine.execBackupSwitchRail dt s
  | .rtcValidLoss dt => Sys2Proof.Machine.execRtcValidLoss dt s
  | .tamperAssert dt inputB => Sys2Proof.Machine.execTamperAssert dt inputB s
  | .tlogAck dt m n => Sys2Proof.Machine.execTlogAck dt m n s
  | .twinExpiry dt slot => Sys2Proof.Machine.execTwinExpiry dt slot s
  | .stagingEraseDone dt => Sys2Proof.Machine.execStagingEraseDone dt s
  | .payloadVerifyDone dt ok => Sys2Proof.Machine.execPayloadVerifyDone dt ok s
  | .reconstructionDone dt ok => Sys2Proof.Machine.execReconstructionDone dt ok s
  | .switchRunTimeout dt => Sys2Proof.Machine.execSwitchRunTimeout dt s
  | .trialMinute dt => Sys2Proof.Machine.execTrialMinute dt s
  | .nodeImageRoundEnd dt f => Sys2Proof.Machine.execNodeImageRoundEnd dt f s
  | .scrubVisit dt mac found => Sys2Proof.Machine.execScrubVisit dt mac found s
  | .mramScrubPass dt corrected uncorrectable => Sys2Proof.Machine.execMramScrubPass dt corrected uncorrectable s
  | .dmaStart dt region ch => Sys2Proof.Machine.execDmaStart dt region ch s
  | .dmaAbort dt region ch => Sys2Proof.Machine.execDmaAbort dt region ch s
  | .dmaRequest dt region ch => Sys2Proof.Machine.execDmaRequest dt region ch s
  | .dmaBurstDone dt region ch data found request => Sys2Proof.Machine.execDmaBurstDone dt region ch data found request s
  | .dmaPeriphReset dt region ch beats => Sys2Proof.Machine.execDmaPeriphReset dt region ch beats s
  | .dmaDescEnd dt region ch => Sys2Proof.Machine.execDmaDescEnd dt region ch s
  | .ageMinute dt => Sys2Proof.Machine.execAgeMinute dt s
  | .supplyFail dt => Sys2Proof.Machine.execSupplyFail dt s
  | .finalSaveComplete dt => Sys2Proof.Machine.execFinalSaveComplete dt s
  | .rtcifIsolate dt => Sys2Proof.Machine.execRtcifIsolate dt s
  | .supplyCycleReset dt => Sys2Proof.Machine.execSupplyCycleReset dt s
  | .rstNLow dt lowNs => Sys2Proof.Machine.execRstNLow dt lowNs s
  | .resetRelease dt vin bankCap holdupOk pins => Sys2Proof.Machine.execResetRelease dt vin bankCap holdupOk pins s
  | .bootRomDone dt manifestOkA manifestOkB programOk => Sys2Proof.Machine.execBootRomDone dt manifestOkA manifestOkB programOk s
  | .mImageLoaded dt => Sys2Proof.Machine.execMImageLoaded dt s
  | .keyStoreReady dt => Sys2Proof.Machine.execKeyStoreReady dt s
  | .cdImagesLoaded dt ok => Sys2Proof.Machine.execCdImagesLoaded dt ok s
  | .restoreStep dt => Sys2Proof.Machine.execRestoreStep dt s
  | .lifecycleWipeDone dt => Sys2Proof.Machine.execLifecycleWipeDone dt s
  | .unlistedCmdRequest r cmd => Sys2Proof.Machine.execUnlistedCmdRequest r cmd s
  | .uplinkMinislotEnd dt f slot detected noise => Sys2Proof.Machine.execUplinkMinislotEnd dt f slot detected noise s
  | .tamperRearm dt inputB => Sys2Proof.Machine.execTamperRearm dt inputB s
  | .vinReturn dt => Sys2Proof.Machine.execVinReturn dt s
  | .holdupEnd dt => Sys2Proof.Machine.execHoldupEnd dt s
  | .calibrateStartTimeout dt => Sys2Proof.Machine.execCalibrateStartTimeout dt s
  | .periodicSaveDone dt => Sys2Proof.Machine.execPeriodicSaveDone dt s

end Sys2Proof.Machine
end

