-- ==== Sys2Proof/Laws/Table.lean ====
section
/-!
SUPPORT. Sparse tables: a read after a write of the same key gives the value written, other keys keep theirs, and every write keeps the
canonical form.
-/
namespace Sys2Proof.Machine

theorem tsorted_mono {α : Type} {t : Tbl α} {lo hi : Nat} (h : tsorted hi t = true) (hl : lo ≤ hi) : tsorted lo t = true := by
  cases t with
  | nil => rfl
  | cons e r => simp only [tsorted, Bool.and_eq_true, decide_eq_true_eq] at h ⊢; exact ⟨by omega, h.2⟩

theorem tsorted_tput {α : Type} {t : Tbl α} {lo i : Nat} {x : α} (h : tsorted lo t = true) (hl : lo ≤ i) :
    tsorted lo (tput t i x) = true := by
  induction t generalizing lo with
  | nil => simp [tput, tsorted, hl]
  | cons e r ih =>
    obtain ⟨k, v⟩ := e
    simp only [tsorted, Bool.and_eq_true, decide_eq_true_eq] at h
    unfold tput
    split
    · subst_vars; simp [tsorted, h]
    · split
      · simp [tsorted, hl, h]; omega
      · simp only [tsorted, Bool.and_eq_true, decide_eq_true_eq]; exact ⟨h.1, ih h.2 (by omega)⟩

theorem tsorted_tdel {α : Type} {t : Tbl α} {lo i : Nat} (h : tsorted lo t = true) : tsorted lo (tdel t i) = true := by
  induction t generalizing lo with
  | nil => rfl
  | cons e r ih =>
    obtain ⟨k, v⟩ := e
    have h' := h
    simp only [tsorted, Bool.and_eq_true, decide_eq_true_eq] at h
    unfold tdel
    split
    · exact tsorted_mono h.2 (by omega)
    · split
      · exact h'
      · simp only [tsorted, Bool.and_eq_true, decide_eq_true_eq]; exact ⟨h.1, ih h.2⟩

theorem tsorted_filter {α : Type} {t : Tbl α} {lo : Nat} (p : Nat × α → Bool) (h : tsorted lo t = true) :
    tsorted lo (t.filter p) = true := by
  induction t generalizing lo with
  | nil => rfl
  | cons e r ih =>
    obtain ⟨k, v⟩ := e
    simp only [tsorted, Bool.and_eq_true, decide_eq_true_eq] at h
    rw [List.filter_cons]
    split
    · simp only [tsorted, Bool.and_eq_true, decide_eq_true_eq]; exact ⟨h.1, ih h.2⟩
    · exact tsorted_mono (ih h.2) (by omega)

theorem mem_tput {α : Type} {t : Tbl α} {i : Nat} {x : α} {e : Nat × α} (h : e ∈ tput t i x) : e = (i, x) ∨ e ∈ t := by
  induction t with
  | nil => simp_all [tput]
  | cons a r ih =>
    obtain ⟨k, v⟩ := a
    unfold tput at h
    split at h
    · simp_all; tauto
    · split at h
      · simp_all
      · simp only [List.mem_cons] at h ⊢
        rcases h with h | h
        · exact .inr (.inl h)
        · rcases ih h with h | h <;> tauto

theorem mem_tdel {α : Type} {t : Tbl α} {i : Nat} {e : Nat × α} (h : e ∈ tdel t i) : e ∈ t := by
  induction t with
  | nil => simp [tdel] at h
  | cons a r ih =>
    obtain ⟨k, v⟩ := a
    unfold tdel at h
    split at h
    · exact List.mem_cons_of_mem _ h
    · split at h
      · exact h
      · simp only [List.mem_cons] at h ⊢; tauto

/-- Keys above a bound are not listed below it. -/
theorem tget_below {α : Type} {d : α} {t : Tbl α} {lo i : Nat} (h : tsorted lo t = true) (hi : i < lo) : tget d t i = d := by
  cases t with
  | nil => rfl
  | cons e r =>
    simp only [tsorted, Bool.and_eq_true, decide_eq_true_eq] at h
    unfold tget
    rw [if_neg (by omega), if_pos (by omega)]

@[simp] theorem tget_tput_same {α : Type} (d : α) (t : Tbl α) (i : Nat) (x : α) : tget d (tput t i x) i = x := by
  induction t with
  | nil => simp [tput, tget]
  | cons e r ih =>
    obtain ⟨k, v⟩ := e
    unfold tput
    split
    · simp [tget]
    · split
      · simp [tget]
      · unfold tget; rw [if_neg (by assumption), if_neg (by assumption), ih]

theorem tget_tput_ne {α : Type} (d : α) (t : Tbl α) {i j : Nat} (x : α) (h : j ≠ i) : tget d (tput t i x) j = tget d t j := by
  induction t with
  | nil => simp [tput, tget, h]
  | cons e r ih =>
    obtain ⟨k, v⟩ := e
    unfold tput
    split
    · subst_vars; simp [tget, h]
    · split
      · simp only [tget, if_neg h]; split_ifs <;> first | rfl | omega
      · simp only [tget, ih]

theorem tget_tdel_same {α : Type} {d : α} {t : Tbl α} {lo : Nat} (i : Nat) (h : tsorted lo t = true) : tget d (tdel t i) i = d := by
  induction t generalizing lo with
  | nil => rfl
  | cons e r ih =>
    obtain ⟨k, v⟩ := e
    simp only [tsorted, Bool.and_eq_true, decide_eq_true_eq] at h
    unfold tdel
    split
    · exact tget_below h.2 (by omega)
    · split
      · simp [tget, *]
      · simp [tget, *]; exact ih h.2

theorem tget_tdel_ne {α : Type} {d : α} {t : Tbl α} {lo i j : Nat} (h : tsorted lo t = true) (hj : j ≠ i) :
    tget d (tdel t i) j = tget d t j := by
  induction t generalizing lo with
  | nil => rfl
  | cons e r ih =>
    obtain ⟨k, v⟩ := e
    simp only [tsorted, Bool.and_eq_true, decide_eq_true_eq] at h
    unfold tdel
    split
    · subst_vars
      simp only [tget, if_neg hj]
      split
      · exact tget_below h.2 (by omega)
      · rfl
    · split
      · rfl
      · simp only [tget]; rw [ih h.2]

/-- A read after a write of the same key gives the value written. -/
theorem tget_tset_same {α : Type} [DecidableEq α] {d : α} {t : Tbl α} (i : Nat) (x : α) (h : twf d t = true) :
    tget d (tset d t i x) i = x := by
  simp only [twf, Bool.and_eq_true] at h
  unfold tset
  split
  · subst_vars; exact tget_tdel_same i h.1
  · simp

/-- A write leaves every other key alone. -/
theorem tget_tset_ne {α : Type} [DecidableEq α] {d : α} {t : Tbl α} {i j : Nat} (x : α) (h : twf d t = true) (hj : j ≠ i) :
    tget d (tset d t i x) j = tget d t j := by
  simp only [twf, Bool.and_eq_true] at h
  unfold tset
  split
  · exact tget_tdel_ne h.1 hj
  · exact tget_tput_ne d t x hj

/-- A write keeps the canonical form. -/
theorem twf_tset {α : Type} [DecidableEq α] {d : α} {t : Tbl α} (i : Nat) (x : α) (h : twf d t = true) : twf d (tset d t i x) = true := by
  simp only [twf, Bool.and_eq_true, List.all_eq_true, decide_eq_true_eq] at h ⊢
  unfold tset
  split
  · exact ⟨tsorted_tdel h.1, fun e he => h.2 e (mem_tdel he)⟩
  · refine ⟨tsorted_tput h.1 (by omega), fun e he => ?_⟩
    rcases mem_tput he with rfl | he
    · assumption
    · exact h.2 e he

theorem twf_tmod {α : Type} [DecidableEq α] {d : α} {t : Tbl α} (i : Nat) (f : α → α) (h : twf d t = true) : twf d (tmod d t i f) = true :=
  twf_tset i _ h

theorem tget_tmod_same {α : Type} [DecidableEq α] {d : α} {t : Tbl α} (i : Nat) (f : α → α) (h : twf d t = true) :
    tget d (tmod d t i f) i = f (tget d t i) := tget_tset_same i _ h

theorem tget_tmod_ne {α : Type} [DecidableEq α] {d : α} {t : Tbl α} {i j : Nat} (f : α → α) (h : twf d t = true) (hj : j ≠ i) :
    tget d (tmod d t i f) j = tget d t j := tget_tset_ne _ h hj

theorem twf_tsetAll {α : Type} [DecidableEq α] {d : α} (xs : List α) {t : Tbl α} (i : Nat) (h : twf d t = true) :
    twf d (tsetAll d t i xs) = true := by
  induction xs generalizing t i with
  | nil => exact h
  | cons x xs ih => exact ih (i + 1) (twf_tset i x h)

end Sys2Proof.Machine
end

