-- ==== Sys2Proof/Laws/State.lean ====
section
/-!
SUPPORT. What each update of State does to each field, true by rfl, so that no proof unfolds a record update; and the reads of one entry after
an update of one entry.
-/
namespace Sys2Proof.Machine

/-! ## tick -/

@[simp] theorem State.tick_pending (s : State) (d : Dt) : (s.tick d).pending = s.pending := rfl
@[simp] theorem State.tick_out (s : State) (d : Dt) : (s.tick d).out = [] := rfl
@[simp] theorem State.tick_fresh (s : State) (d : Dt) : (s.tick d).fresh = s.fresh := rfl
@[simp] theorem State.tick_now (s : State) (d : Dt) : (s.tick d).now = s.now + d.cclk := rfl
@[simp] theorem State.tick_order (s : State) (d : Dt) : (s.tick d).order = s.order := rfl
@[simp] theorem State.tick_pow (s : State) (d : Dt) : (s.tick d).pow = s.pow := rfl
@[simp] theorem State.tick_jnc (s : State) (d : Dt) : (s.tick d).jnc = s.jnc.settled s.tb.lastEdge (s.now + d.cclk) := rfl
@[simp] theorem State.tick_tb (s : State) (d : Dt) : (s.tick d).tb = s.tb := rfl
@[simp] theorem State.tick_acts (s : State) (d : Dt) : (s.tick d).acts = s.acts := rfl
@[simp] theorem State.tick_dspFrames (s : State) (d : Dt) : (s.tick d).dspFrames = s.dspFrames := rfl
@[simp] theorem State.tick_joinRefused (s : State) (d : Dt) : (s.tick d).joinRefused = s.joinRefused := rfl
@[simp] theorem State.tick_wtx (s : State) (d : Dt) : (s.tick d).wtx = s.wtx := rfl
@[simp] theorem State.tick_rx (s : State) (d : Dt) : (s.tick d).rx = s.rx := rfl
@[simp] theorem State.tick_fdr (s : State) (d : Dt) : (s.tick d).fdr = s.fdr := rfl
@[simp] theorem State.tick_nodes (s : State) (d : Dt) : (s.tick d).nodes = s.nodes := rfl
@[simp] theorem State.tick_sil (s : State) (d : Dt) : (s.tick d).sil = s.sil := rfl
@[simp] theorem State.tick_sched (s : State) (d : Dt) : (s.tick d).sched = s.sched := rfl
@[simp] theorem State.tick_meter (s : State) (d : Dt) : (s.tick d).meter = s.meter := rfl
@[simp] theorem State.tick_accord (s : State) (d : Dt) : (s.tick d).accord = s.accord := rfl
@[simp] theorem State.tick_blot (s : State) (d : Dt) : (s.tick d).blot = s.blot := rfl
@[simp] theorem State.tick_sign (s : State) (d : Dt) : (s.tick d).sign = s.sign := rfl
@[simp] theorem State.tick_sbus (s : State) (d : Dt) : (s.tick d).sbus = s.sbus := rfl
@[simp] theorem State.tick_remSwaps (s : State) (d : Dt) : (s.tick d).remSwaps = s.remSwaps := rfl
@[simp] theorem State.tick_net (s : State) (d : Dt) : (s.tick d).net = if s.jnc.regions.m.st = .run then s.net.tick d.eth else s.net := rfl
@[simp] theorem State.tick_rtc (s : State) (d : Dt) : (s.tick d).rtc = s.rtc := rfl
@[simp] theorem State.tick_bk (s : State) (d : Dt) : (s.tick d).bk = s.bk.tick d.rtc := rfl
@[simp] theorem State.tick_keys (s : State) (d : Dt) : (s.tick d).keys = s.keys := rfl
@[simp] theorem State.tick_ev (s : State) (d : Dt) : (s.tick d).ev = s.ev := rfl
@[simp] theorem State.tick_vxc (s : State) (d : Dt) : (s.tick d).vxc = s.vxc := rfl
@[simp] theorem State.tick_nvmc (s : State) (d : Dt) : (s.tick d).nvmc = s.nvmc := rfl
@[simp] theorem State.tick_nv (s : State) (d : Dt) : (s.tick d).nv = s.nv := rfl
@[simp] theorem State.tick_mem (s : State) (d : Dt) : (s.tick d).mem = s.mem := rfl

/-! ## emit -/

@[simp] theorem State.emit_pending (s : State) (o : Out) : (s.emit o).pending = s.pending := rfl
@[simp] theorem State.emit_out (s : State) (o : Out) : (s.emit o).out = s.out ++ [o] := rfl
@[simp] theorem State.emit_fresh (s : State) (o : Out) : (s.emit o).fresh = s.fresh := rfl
@[simp] theorem State.emit_now (s : State) (o : Out) : (s.emit o).now = s.now := rfl
@[simp] theorem State.emit_order (s : State) (o : Out) : (s.emit o).order = s.order := rfl
@[simp] theorem State.emit_pow (s : State) (o : Out) : (s.emit o).pow = s.pow := rfl
@[simp] theorem State.emit_jnc (s : State) (o : Out) : (s.emit o).jnc = s.jnc := rfl
@[simp] theorem State.emit_tb (s : State) (o : Out) : (s.emit o).tb = s.tb := rfl
@[simp] theorem State.emit_acts (s : State) (o : Out) : (s.emit o).acts = s.acts := rfl
@[simp] theorem State.emit_dspFrames (s : State) (o : Out) : (s.emit o).dspFrames = s.dspFrames := rfl
@[simp] theorem State.emit_joinRefused (s : State) (o : Out) : (s.emit o).joinRefused = s.joinRefused := rfl
@[simp] theorem State.emit_wtx (s : State) (o : Out) : (s.emit o).wtx = s.wtx := rfl
@[simp] theorem State.emit_rx (s : State) (o : Out) : (s.emit o).rx = s.rx := rfl
@[simp] theorem State.emit_fdr (s : State) (o : Out) : (s.emit o).fdr = s.fdr := rfl
@[simp] theorem State.emit_nodes (s : State) (o : Out) : (s.emit o).nodes = s.nodes := rfl
@[simp] theorem State.emit_sil (s : State) (o : Out) : (s.emit o).sil = s.sil := rfl
@[simp] theorem State.emit_sched (s : State) (o : Out) : (s.emit o).sched = s.sched := rfl
@[simp] theorem State.emit_meter (s : State) (o : Out) : (s.emit o).meter = s.meter := rfl
@[simp] theorem State.emit_accord (s : State) (o : Out) : (s.emit o).accord = s.accord := rfl
@[simp] theorem State.emit_blot (s : State) (o : Out) : (s.emit o).blot = s.blot := rfl
@[simp] theorem State.emit_sign (s : State) (o : Out) : (s.emit o).sign = s.sign := rfl
@[simp] theorem State.emit_sbus (s : State) (o : Out) : (s.emit o).sbus = s.sbus := rfl
@[simp] theorem State.emit_remSwaps (s : State) (o : Out) : (s.emit o).remSwaps = s.remSwaps := rfl
@[simp] theorem State.emit_net (s : State) (o : Out) : (s.emit o).net = s.net := rfl
@[simp] theorem State.emit_rtc (s : State) (o : Out) : (s.emit o).rtc = s.rtc := rfl
@[simp] theorem State.emit_bk (s : State) (o : Out) : (s.emit o).bk = s.bk := rfl
@[simp] theorem State.emit_keys (s : State) (o : Out) : (s.emit o).keys = s.keys := rfl
@[simp] theorem State.emit_ev (s : State) (o : Out) : (s.emit o).ev = s.ev := rfl
@[simp] theorem State.emit_vxc (s : State) (o : Out) : (s.emit o).vxc = s.vxc := rfl
@[simp] theorem State.emit_nvmc (s : State) (o : Out) : (s.emit o).nvmc = s.nvmc := rfl
@[simp] theorem State.emit_nv (s : State) (o : Out) : (s.emit o).nv = s.nv := rfl
@[simp] theorem State.emit_mem (s : State) (o : Out) : (s.emit o).mem = s.mem := rfl

/-! ## onNv -/

@[simp] theorem State.onNv_pending (s : State) (g : Nv → Nv) : (s.onNv g).pending = s.pending := rfl
@[simp] theorem State.onNv_out (s : State) (g : Nv → Nv) : (s.onNv g).out = s.out := rfl
@[simp] theorem State.onNv_fresh (s : State) (g : Nv → Nv) : (s.onNv g).fresh = s.fresh := rfl
@[simp] theorem State.onNv_now (s : State) (g : Nv → Nv) : (s.onNv g).now = s.now := rfl
@[simp] theorem State.onNv_order (s : State) (g : Nv → Nv) : (s.onNv g).order = s.order := rfl
@[simp] theorem State.onNv_pow (s : State) (g : Nv → Nv) : (s.onNv g).pow = s.pow := rfl
@[simp] theorem State.onNv_jnc (s : State) (g : Nv → Nv) : (s.onNv g).jnc = s.jnc := rfl
@[simp] theorem State.onNv_tb (s : State) (g : Nv → Nv) : (s.onNv g).tb = s.tb := rfl
@[simp] theorem State.onNv_acts (s : State) (g : Nv → Nv) : (s.onNv g).acts = s.acts := rfl
@[simp] theorem State.onNv_dspFrames (s : State) (g : Nv → Nv) : (s.onNv g).dspFrames = s.dspFrames := rfl
@[simp] theorem State.onNv_joinRefused (s : State) (g : Nv → Nv) : (s.onNv g).joinRefused = s.joinRefused := rfl
@[simp] theorem State.onNv_wtx (s : State) (g : Nv → Nv) : (s.onNv g).wtx = s.wtx := rfl
@[simp] theorem State.onNv_rx (s : State) (g : Nv → Nv) : (s.onNv g).rx = s.rx := rfl
@[simp] theorem State.onNv_fdr (s : State) (g : Nv → Nv) : (s.onNv g).fdr = s.fdr := rfl
@[simp] theorem State.onNv_nodes (s : State) (g : Nv → Nv) : (s.onNv g).nodes = s.nodes := rfl
@[simp] theorem State.onNv_sil (s : State) (g : Nv → Nv) : (s.onNv g).sil = s.sil := rfl
@[simp] theorem State.onNv_sched (s : State) (g : Nv → Nv) : (s.onNv g).sched = s.sched := rfl
@[simp] theorem State.onNv_meter (s : State) (g : Nv → Nv) : (s.onNv g).meter = s.meter := rfl
@[simp] theorem State.onNv_accord (s : State) (g : Nv → Nv) : (s.onNv g).accord = s.accord := rfl
@[simp] theorem State.onNv_blot (s : State) (g : Nv → Nv) : (s.onNv g).blot = s.blot := rfl
@[simp] theorem State.onNv_sign (s : State) (g : Nv → Nv) : (s.onNv g).sign = s.sign := rfl
@[simp] theorem State.onNv_sbus (s : State) (g : Nv → Nv) : (s.onNv g).sbus = s.sbus := rfl
@[simp] theorem State.onNv_remSwaps (s : State) (g : Nv → Nv) : (s.onNv g).remSwaps = s.remSwaps := rfl
@[simp] theorem State.onNv_net (s : State) (g : Nv → Nv) : (s.onNv g).net = s.net := rfl
@[simp] theorem State.onNv_rtc (s : State) (g : Nv → Nv) : (s.onNv g).rtc = s.rtc := rfl
@[simp] theorem State.onNv_bk (s : State) (g : Nv → Nv) : (s.onNv g).bk = s.bk := rfl
@[simp] theorem State.onNv_keys (s : State) (g : Nv → Nv) : (s.onNv g).keys = s.keys := rfl
@[simp] theorem State.onNv_ev (s : State) (g : Nv → Nv) : (s.onNv g).ev = s.ev := rfl
@[simp] theorem State.onNv_vxc (s : State) (g : Nv → Nv) : (s.onNv g).vxc = s.vxc := rfl
@[simp] theorem State.onNv_nvmc (s : State) (g : Nv → Nv) : (s.onNv g).nvmc = s.nvmc := rfl
@[simp] theorem State.onNv_nv (s : State) (g : Nv → Nv) : (s.onNv g).nv = g s.nv := rfl
@[simp] theorem State.onNv_mem (s : State) (g : Nv → Nv) : (s.onNv g).mem = s.mem := rfl

/-! ## onFeeder -/

@[simp] theorem State.onFeeder_pending (s : State) (f : Nat) (g : Feeder → Feeder) : (s.onFeeder f g).pending = s.pending := rfl
@[simp] theorem State.onFeeder_out (s : State) (f : Nat) (g : Feeder → Feeder) : (s.onFeeder f g).out = s.out := rfl
@[simp] theorem State.onFeeder_fresh (s : State) (f : Nat) (g : Feeder → Feeder) : (s.onFeeder f g).fresh = s.fresh := rfl
@[simp] theorem State.onFeeder_now (s : State) (f : Nat) (g : Feeder → Feeder) : (s.onFeeder f g).now = s.now := rfl
@[simp] theorem State.onFeeder_order (s : State) (f : Nat) (g : Feeder → Feeder) : (s.onFeeder f g).order = s.order := rfl
@[simp] theorem State.onFeeder_pow (s : State) (f : Nat) (g : Feeder → Feeder) : (s.onFeeder f g).pow = s.pow := rfl
@[simp] theorem State.onFeeder_jnc (s : State) (f : Nat) (g : Feeder → Feeder) : (s.onFeeder f g).jnc = s.jnc := rfl
@[simp] theorem State.onFeeder_tb (s : State) (f : Nat) (g : Feeder → Feeder) : (s.onFeeder f g).tb = s.tb := rfl
@[simp] theorem State.onFeeder_acts (s : State) (f : Nat) (g : Feeder → Feeder) : (s.onFeeder f g).acts = s.acts := rfl
@[simp] theorem State.onFeeder_dspFrames (s : State) (f : Nat) (g : Feeder → Feeder) : (s.onFeeder f g).dspFrames = s.dspFrames := rfl
@[simp] theorem State.onFeeder_joinRefused (s : State) (f : Nat) (g : Feeder → Feeder) : (s.onFeeder f g).joinRefused = s.joinRefused := rfl
@[simp] theorem State.onFeeder_wtx (s : State) (f : Nat) (g : Feeder → Feeder) : (s.onFeeder f g).wtx = s.wtx := rfl
@[simp] theorem State.onFeeder_rx (s : State) (f : Nat) (g : Feeder → Feeder) : (s.onFeeder f g).rx = s.rx := rfl
@[simp] theorem State.onFeeder_fdr (s : State) (f : Nat) (g : Feeder → Feeder) : (s.onFeeder f g).fdr = tmod {} s.fdr f g := rfl
@[simp] theorem State.onFeeder_nodes (s : State) (f : Nat) (g : Feeder → Feeder) : (s.onFeeder f g).nodes = s.nodes := rfl
@[simp] theorem State.onFeeder_sil (s : State) (f : Nat) (g : Feeder → Feeder) : (s.onFeeder f g).sil = s.sil := rfl
@[simp] theorem State.onFeeder_sched (s : State) (f : Nat) (g : Feeder → Feeder) : (s.onFeeder f g).sched = s.sched := rfl
@[simp] theorem State.onFeeder_meter (s : State) (f : Nat) (g : Feeder → Feeder) : (s.onFeeder f g).meter = s.meter := rfl
@[simp] theorem State.onFeeder_accord (s : State) (f : Nat) (g : Feeder → Feeder) : (s.onFeeder f g).accord = s.accord := rfl
@[simp] theorem State.onFeeder_blot (s : State) (f : Nat) (g : Feeder → Feeder) : (s.onFeeder f g).blot = s.blot := rfl
@[simp] theorem State.onFeeder_sign (s : State) (f : Nat) (g : Feeder → Feeder) : (s.onFeeder f g).sign = s.sign := rfl
@[simp] theorem State.onFeeder_sbus (s : State) (f : Nat) (g : Feeder → Feeder) : (s.onFeeder f g).sbus = s.sbus := rfl
@[simp] theorem State.onFeeder_remSwaps (s : State) (f : Nat) (g : Feeder → Feeder) : (s.onFeeder f g).remSwaps = s.remSwaps := rfl
@[simp] theorem State.onFeeder_net (s : State) (f : Nat) (g : Feeder → Feeder) : (s.onFeeder f g).net = s.net := rfl
@[simp] theorem State.onFeeder_rtc (s : State) (f : Nat) (g : Feeder → Feeder) : (s.onFeeder f g).rtc = s.rtc := rfl
@[simp] theorem State.onFeeder_bk (s : State) (f : Nat) (g : Feeder → Feeder) : (s.onFeeder f g).bk = s.bk := rfl
@[simp] theorem State.onFeeder_keys (s : State) (f : Nat) (g : Feeder → Feeder) : (s.onFeeder f g).keys = s.keys := rfl
@[simp] theorem State.onFeeder_ev (s : State) (f : Nat) (g : Feeder → Feeder) : (s.onFeeder f g).ev = s.ev := rfl
@[simp] theorem State.onFeeder_vxc (s : State) (f : Nat) (g : Feeder → Feeder) : (s.onFeeder f g).vxc = s.vxc := rfl
@[simp] theorem State.onFeeder_nvmc (s : State) (f : Nat) (g : Feeder → Feeder) : (s.onFeeder f g).nvmc = s.nvmc := rfl
@[simp] theorem State.onFeeder_nv (s : State) (f : Nat) (g : Feeder → Feeder) : (s.onFeeder f g).nv = s.nv := rfl
@[simp] theorem State.onFeeder_mem (s : State) (f : Nat) (g : Feeder → Feeder) : (s.onFeeder f g).mem = s.mem := rfl

/-! ## onNode -/

@[simp] theorem State.onNode_pending (s : State) (a : Nat) (g : NodeDyn → NodeDyn) : (s.onNode a g).pending = s.pending := rfl
@[simp] theorem State.onNode_out (s : State) (a : Nat) (g : NodeDyn → NodeDyn) : (s.onNode a g).out = s.out := rfl
@[simp] theorem State.onNode_fresh (s : State) (a : Nat) (g : NodeDyn → NodeDyn) : (s.onNode a g).fresh = s.fresh := rfl
@[simp] theorem State.onNode_now (s : State) (a : Nat) (g : NodeDyn → NodeDyn) : (s.onNode a g).now = s.now := rfl
@[simp] theorem State.onNode_order (s : State) (a : Nat) (g : NodeDyn → NodeDyn) : (s.onNode a g).order = s.order := rfl
@[simp] theorem State.onNode_pow (s : State) (a : Nat) (g : NodeDyn → NodeDyn) : (s.onNode a g).pow = s.pow := rfl
@[simp] theorem State.onNode_jnc (s : State) (a : Nat) (g : NodeDyn → NodeDyn) : (s.onNode a g).jnc = s.jnc := rfl
@[simp] theorem State.onNode_tb (s : State) (a : Nat) (g : NodeDyn → NodeDyn) : (s.onNode a g).tb = s.tb := rfl
@[simp] theorem State.onNode_acts (s : State) (a : Nat) (g : NodeDyn → NodeDyn) : (s.onNode a g).acts = s.acts := rfl
@[simp] theorem State.onNode_dspFrames (s : State) (a : Nat) (g : NodeDyn → NodeDyn) : (s.onNode a g).dspFrames = s.dspFrames := rfl
@[simp] theorem State.onNode_joinRefused (s : State) (a : Nat) (g : NodeDyn → NodeDyn) : (s.onNode a g).joinRefused = s.joinRefused := rfl
@[simp] theorem State.onNode_wtx (s : State) (a : Nat) (g : NodeDyn → NodeDyn) : (s.onNode a g).wtx = s.wtx := rfl
@[simp] theorem State.onNode_rx (s : State) (a : Nat) (g : NodeDyn → NodeDyn) : (s.onNode a g).rx = s.rx := rfl
@[simp] theorem State.onNode_fdr (s : State) (a : Nat) (g : NodeDyn → NodeDyn) : (s.onNode a g).fdr = s.fdr := rfl
@[simp] theorem State.onNode_nodes (s : State) (a : Nat) (g : NodeDyn → NodeDyn) : (s.onNode a g).nodes = tmod {} s.nodes a g := rfl
@[simp] theorem State.onNode_sil (s : State) (a : Nat) (g : NodeDyn → NodeDyn) : (s.onNode a g).sil = s.sil := rfl
@[simp] theorem State.onNode_sched (s : State) (a : Nat) (g : NodeDyn → NodeDyn) : (s.onNode a g).sched = s.sched := rfl
@[simp] theorem State.onNode_meter (s : State) (a : Nat) (g : NodeDyn → NodeDyn) : (s.onNode a g).meter = s.meter := rfl
@[simp] theorem State.onNode_accord (s : State) (a : Nat) (g : NodeDyn → NodeDyn) : (s.onNode a g).accord = s.accord := rfl
@[simp] theorem State.onNode_blot (s : State) (a : Nat) (g : NodeDyn → NodeDyn) : (s.onNode a g).blot = s.blot := rfl
@[simp] theorem State.onNode_sign (s : State) (a : Nat) (g : NodeDyn → NodeDyn) : (s.onNode a g).sign = s.sign := rfl
@[simp] theorem State.onNode_sbus (s : State) (a : Nat) (g : NodeDyn → NodeDyn) : (s.onNode a g).sbus = s.sbus := rfl
@[simp] theorem State.onNode_remSwaps (s : State) (a : Nat) (g : NodeDyn → NodeDyn) : (s.onNode a g).remSwaps = s.remSwaps := rfl
@[simp] theorem State.onNode_net (s : State) (a : Nat) (g : NodeDyn → NodeDyn) : (s.onNode a g).net = s.net := rfl
@[simp] theorem State.onNode_rtc (s : State) (a : Nat) (g : NodeDyn → NodeDyn) : (s.onNode a g).rtc = s.rtc := rfl
@[simp] theorem State.onNode_bk (s : State) (a : Nat) (g : NodeDyn → NodeDyn) : (s.onNode a g).bk = s.bk := rfl
@[simp] theorem State.onNode_keys (s : State) (a : Nat) (g : NodeDyn → NodeDyn) : (s.onNode a g).keys = s.keys := rfl
@[simp] theorem State.onNode_ev (s : State) (a : Nat) (g : NodeDyn → NodeDyn) : (s.onNode a g).ev = s.ev := rfl
@[simp] theorem State.onNode_vxc (s : State) (a : Nat) (g : NodeDyn → NodeDyn) : (s.onNode a g).vxc = s.vxc := rfl
@[simp] theorem State.onNode_nvmc (s : State) (a : Nat) (g : NodeDyn → NodeDyn) : (s.onNode a g).nvmc = s.nvmc := rfl
@[simp] theorem State.onNode_nv (s : State) (a : Nat) (g : NodeDyn → NodeDyn) : (s.onNode a g).nv = s.nv := rfl
@[simp] theorem State.onNode_mem (s : State) (a : Nat) (g : NodeDyn → NodeDyn) : (s.onNode a g).mem = s.mem := rfl

/-! ## onNcfg -/

@[simp] theorem State.onNcfg_pending (s : State) (a : Nat) (g : NodeCfg → NodeCfg) : (s.onNcfg a g).pending = s.pending := rfl
@[simp] theorem State.onNcfg_out (s : State) (a : Nat) (g : NodeCfg → NodeCfg) : (s.onNcfg a g).out = s.out := rfl
@[simp] theorem State.onNcfg_fresh (s : State) (a : Nat) (g : NodeCfg → NodeCfg) : (s.onNcfg a g).fresh = s.fresh := rfl
@[simp] theorem State.onNcfg_now (s : State) (a : Nat) (g : NodeCfg → NodeCfg) : (s.onNcfg a g).now = s.now := rfl
@[simp] theorem State.onNcfg_order (s : State) (a : Nat) (g : NodeCfg → NodeCfg) : (s.onNcfg a g).order = s.order := rfl
@[simp] theorem State.onNcfg_pow (s : State) (a : Nat) (g : NodeCfg → NodeCfg) : (s.onNcfg a g).pow = s.pow := rfl
@[simp] theorem State.onNcfg_jnc (s : State) (a : Nat) (g : NodeCfg → NodeCfg) : (s.onNcfg a g).jnc = s.jnc := rfl
@[simp] theorem State.onNcfg_tb (s : State) (a : Nat) (g : NodeCfg → NodeCfg) : (s.onNcfg a g).tb = s.tb := rfl
@[simp] theorem State.onNcfg_acts (s : State) (a : Nat) (g : NodeCfg → NodeCfg) : (s.onNcfg a g).acts = s.acts := rfl
@[simp] theorem State.onNcfg_dspFrames (s : State) (a : Nat) (g : NodeCfg → NodeCfg) : (s.onNcfg a g).dspFrames = s.dspFrames := rfl
@[simp] theorem State.onNcfg_joinRefused (s : State) (a : Nat) (g : NodeCfg → NodeCfg) : (s.onNcfg a g).joinRefused = s.joinRefused := rfl
@[simp] theorem State.onNcfg_wtx (s : State) (a : Nat) (g : NodeCfg → NodeCfg) : (s.onNcfg a g).wtx = s.wtx := rfl
@[simp] theorem State.onNcfg_rx (s : State) (a : Nat) (g : NodeCfg → NodeCfg) : (s.onNcfg a g).rx = s.rx := rfl
@[simp] theorem State.onNcfg_fdr (s : State) (a : Nat) (g : NodeCfg → NodeCfg) : (s.onNcfg a g).fdr = s.fdr := rfl
@[simp] theorem State.onNcfg_nodes (s : State) (a : Nat) (g : NodeCfg → NodeCfg) : (s.onNcfg a g).nodes = s.nodes := rfl
@[simp] theorem State.onNcfg_sil (s : State) (a : Nat) (g : NodeCfg → NodeCfg) : (s.onNcfg a g).sil = s.sil := rfl
@[simp] theorem State.onNcfg_sched (s : State) (a : Nat) (g : NodeCfg → NodeCfg) : (s.onNcfg a g).sched = s.sched := rfl
@[simp] theorem State.onNcfg_meter (s : State) (a : Nat) (g : NodeCfg → NodeCfg) : (s.onNcfg a g).meter = s.meter := rfl
@[simp] theorem State.onNcfg_accord (s : State) (a : Nat) (g : NodeCfg → NodeCfg) : (s.onNcfg a g).accord = s.accord := rfl
@[simp] theorem State.onNcfg_blot (s : State) (a : Nat) (g : NodeCfg → NodeCfg) : (s.onNcfg a g).blot = s.blot := rfl
@[simp] theorem State.onNcfg_sign (s : State) (a : Nat) (g : NodeCfg → NodeCfg) : (s.onNcfg a g).sign = s.sign := rfl
@[simp] theorem State.onNcfg_sbus (s : State) (a : Nat) (g : NodeCfg → NodeCfg) : (s.onNcfg a g).sbus = s.sbus := rfl
@[simp] theorem State.onNcfg_remSwaps (s : State) (a : Nat) (g : NodeCfg → NodeCfg) : (s.onNcfg a g).remSwaps = s.remSwaps := rfl
@[simp] theorem State.onNcfg_net (s : State) (a : Nat) (g : NodeCfg → NodeCfg) : (s.onNcfg a g).net = s.net := rfl
@[simp] theorem State.onNcfg_rtc (s : State) (a : Nat) (g : NodeCfg → NodeCfg) : (s.onNcfg a g).rtc = s.rtc := rfl
@[simp] theorem State.onNcfg_bk (s : State) (a : Nat) (g : NodeCfg → NodeCfg) : (s.onNcfg a g).bk = s.bk := rfl
@[simp] theorem State.onNcfg_keys (s : State) (a : Nat) (g : NodeCfg → NodeCfg) : (s.onNcfg a g).keys = s.keys := rfl
@[simp] theorem State.onNcfg_ev (s : State) (a : Nat) (g : NodeCfg → NodeCfg) : (s.onNcfg a g).ev = s.ev := rfl
@[simp] theorem State.onNcfg_vxc (s : State) (a : Nat) (g : NodeCfg → NodeCfg) : (s.onNcfg a g).vxc = s.vxc := rfl
@[simp] theorem State.onNcfg_nvmc (s : State) (a : Nat) (g : NodeCfg → NodeCfg) : (s.onNcfg a g).nvmc = s.nvmc := rfl
@[simp] theorem State.onNcfg_nv (s : State) (a : Nat) (g : NodeCfg → NodeCfg) : (s.onNcfg a g).nv = { s.nv with nodes := tmod {} s.nv.nodes a g } := rfl
@[simp] theorem State.onNcfg_mem (s : State) (a : Nat) (g : NodeCfg → NodeCfg) : (s.onNcfg a g).mem = s.mem := rfl

/-! ## onSession -/

@[simp] theorem State.onSession_pending (s : State) (i : Nat) (g : Session → Session) : (s.onSession i g).pending = s.pending := rfl
@[simp] theorem State.onSession_out (s : State) (i : Nat) (g : Session → Session) : (s.onSession i g).out = s.out := rfl
@[simp] theorem State.onSession_fresh (s : State) (i : Nat) (g : Session → Session) : (s.onSession i g).fresh = s.fresh := rfl
@[simp] theorem State.onSession_now (s : State) (i : Nat) (g : Session → Session) : (s.onSession i g).now = s.now := rfl
@[simp] theorem State.onSession_order (s : State) (i : Nat) (g : Session → Session) : (s.onSession i g).order = s.order := rfl
@[simp] theorem State.onSession_pow (s : State) (i : Nat) (g : Session → Session) : (s.onSession i g).pow = s.pow := rfl
@[simp] theorem State.onSession_jnc (s : State) (i : Nat) (g : Session → Session) : (s.onSession i g).jnc = s.jnc := rfl
@[simp] theorem State.onSession_tb (s : State) (i : Nat) (g : Session → Session) : (s.onSession i g).tb = s.tb := rfl
@[simp] theorem State.onSession_acts (s : State) (i : Nat) (g : Session → Session) : (s.onSession i g).acts = s.acts := rfl
@[simp] theorem State.onSession_dspFrames (s : State) (i : Nat) (g : Session → Session) : (s.onSession i g).dspFrames = s.dspFrames := rfl
@[simp] theorem State.onSession_joinRefused (s : State) (i : Nat) (g : Session → Session) : (s.onSession i g).joinRefused = s.joinRefused := rfl
@[simp] theorem State.onSession_wtx (s : State) (i : Nat) (g : Session → Session) : (s.onSession i g).wtx = s.wtx := rfl
@[simp] theorem State.onSession_rx (s : State) (i : Nat) (g : Session → Session) : (s.onSession i g).rx = s.rx := rfl
@[simp] theorem State.onSession_fdr (s : State) (i : Nat) (g : Session → Session) : (s.onSession i g).fdr = s.fdr := rfl
@[simp] theorem State.onSession_nodes (s : State) (i : Nat) (g : Session → Session) : (s.onSession i g).nodes = s.nodes := rfl
@[simp] theorem State.onSession_sil (s : State) (i : Nat) (g : Session → Session) : (s.onSession i g).sil = s.sil := rfl
@[simp] theorem State.onSession_sched (s : State) (i : Nat) (g : Session → Session) : (s.onSession i g).sched = s.sched := rfl
@[simp] theorem State.onSession_meter (s : State) (i : Nat) (g : Session → Session) : (s.onSession i g).meter = s.meter := rfl
@[simp] theorem State.onSession_accord (s : State) (i : Nat) (g : Session → Session) : (s.onSession i g).accord = s.accord := rfl
@[simp] theorem State.onSession_blot (s : State) (i : Nat) (g : Session → Session) : (s.onSession i g).blot = s.blot := rfl
@[simp] theorem State.onSession_sign (s : State) (i : Nat) (g : Session → Session) : (s.onSession i g).sign = s.sign := rfl
@[simp] theorem State.onSession_sbus (s : State) (i : Nat) (g : Session → Session) : (s.onSession i g).sbus = s.sbus := rfl
@[simp] theorem State.onSession_remSwaps (s : State) (i : Nat) (g : Session → Session) : (s.onSession i g).remSwaps = s.remSwaps := rfl
@[simp] theorem State.onSession_net (s : State) (i : Nat) (g : Session → Session) : (s.onSession i g).net = s.net := rfl
@[simp] theorem State.onSession_rtc (s : State) (i : Nat) (g : Session → Session) : (s.onSession i g).rtc = s.rtc := rfl
@[simp] theorem State.onSession_bk (s : State) (i : Nat) (g : Session → Session) : (s.onSession i g).bk = s.bk := rfl
@[simp] theorem State.onSession_keys (s : State) (i : Nat) (g : Session → Session) : (s.onSession i g).keys = s.keys := rfl
@[simp] theorem State.onSession_ev (s : State) (i : Nat) (g : Session → Session) : (s.onSession i g).ev = s.ev := rfl
@[simp] theorem State.onSession_vxc (s : State) (i : Nat) (g : Session → Session) : (s.onSession i g).vxc = { s.vxc with sessions := s.vxc.sessions.map (fun x => if x.id == i then g x else x) } := rfl
@[simp] theorem State.onSession_nvmc (s : State) (i : Nat) (g : Session → Session) : (s.onSession i g).nvmc = s.nvmc := rfl
@[simp] theorem State.onSession_nv (s : State) (i : Nat) (g : Session → Session) : (s.onSession i g).nv = s.nv := rfl
@[simp] theorem State.onSession_mem (s : State) (i : Nat) (g : Session → Session) : (s.onSession i g).mem = s.mem := rfl

/-! ## discard -/

@[simp] theorem State.discard_pending (s : State) (g : DiscardCnt → DiscardCnt) : (s.discard g).pending = s.pending := rfl
@[simp] theorem State.discard_out (s : State) (g : DiscardCnt → DiscardCnt) : (s.discard g).out = s.out := rfl
@[simp] theorem State.discard_fresh (s : State) (g : DiscardCnt → DiscardCnt) : (s.discard g).fresh = s.fresh := rfl
@[simp] theorem State.discard_now (s : State) (g : DiscardCnt → DiscardCnt) : (s.discard g).now = s.now := rfl
@[simp] theorem State.discard_order (s : State) (g : DiscardCnt → DiscardCnt) : (s.discard g).order = s.order := rfl
@[simp] theorem State.discard_pow (s : State) (g : DiscardCnt → DiscardCnt) : (s.discard g).pow = s.pow := rfl
@[simp] theorem State.discard_jnc (s : State) (g : DiscardCnt → DiscardCnt) : (s.discard g).jnc = s.jnc := rfl
@[simp] theorem State.discard_tb (s : State) (g : DiscardCnt → DiscardCnt) : (s.discard g).tb = s.tb := rfl
@[simp] theorem State.discard_acts (s : State) (g : DiscardCnt → DiscardCnt) : (s.discard g).acts = s.acts := rfl
@[simp] theorem State.discard_dspFrames (s : State) (g : DiscardCnt → DiscardCnt) : (s.discard g).dspFrames = s.dspFrames := rfl
@[simp] theorem State.discard_joinRefused (s : State) (g : DiscardCnt → DiscardCnt) : (s.discard g).joinRefused = s.joinRefused := rfl
@[simp] theorem State.discard_wtx (s : State) (g : DiscardCnt → DiscardCnt) : (s.discard g).wtx = s.wtx := rfl
@[simp] theorem State.discard_rx (s : State) (g : DiscardCnt → DiscardCnt) : (s.discard g).rx = s.rx := rfl
@[simp] theorem State.discard_fdr (s : State) (g : DiscardCnt → DiscardCnt) : (s.discard g).fdr = s.fdr := rfl
@[simp] theorem State.discard_nodes (s : State) (g : DiscardCnt → DiscardCnt) : (s.discard g).nodes = s.nodes := rfl
@[simp] theorem State.discard_sil (s : State) (g : DiscardCnt → DiscardCnt) : (s.discard g).sil = s.sil := rfl
@[simp] theorem State.discard_sched (s : State) (g : DiscardCnt → DiscardCnt) : (s.discard g).sched = s.sched := rfl
@[simp] theorem State.discard_meter (s : State) (g : DiscardCnt → DiscardCnt) : (s.discard g).meter = s.meter := rfl
@[simp] theorem State.discard_accord (s : State) (g : DiscardCnt → DiscardCnt) : (s.discard g).accord = s.accord := rfl
@[simp] theorem State.discard_blot (s : State) (g : DiscardCnt → DiscardCnt) : (s.discard g).blot = s.blot := rfl
@[simp] theorem State.discard_sign (s : State) (g : DiscardCnt → DiscardCnt) : (s.discard g).sign = s.sign := rfl
@[simp] theorem State.discard_sbus (s : State) (g : DiscardCnt → DiscardCnt) : (s.discard g).sbus = s.sbus := rfl
@[simp] theorem State.discard_remSwaps (s : State) (g : DiscardCnt → DiscardCnt) : (s.discard g).remSwaps = s.remSwaps := rfl
@[simp] theorem State.discard_net (s : State) (g : DiscardCnt → DiscardCnt) : (s.discard g).net = s.net := rfl
@[simp] theorem State.discard_rtc (s : State) (g : DiscardCnt → DiscardCnt) : (s.discard g).rtc = s.rtc := rfl
@[simp] theorem State.discard_bk (s : State) (g : DiscardCnt → DiscardCnt) : (s.discard g).bk = s.bk := rfl
@[simp] theorem State.discard_keys (s : State) (g : DiscardCnt → DiscardCnt) : (s.discard g).keys = s.keys := rfl
@[simp] theorem State.discard_ev (s : State) (g : DiscardCnt → DiscardCnt) : (s.discard g).ev = s.ev := rfl
@[simp] theorem State.discard_vxc (s : State) (g : DiscardCnt → DiscardCnt) : (s.discard g).vxc = { s.vxc with discards := g s.vxc.discards } := rfl
@[simp] theorem State.discard_nvmc (s : State) (g : DiscardCnt → DiscardCnt) : (s.discard g).nvmc = s.nvmc := rfl
@[simp] theorem State.discard_nv (s : State) (g : DiscardCnt → DiscardCnt) : (s.discard g).nv = s.nv := rfl
@[simp] theorem State.discard_mem (s : State) (g : DiscardCnt → DiscardCnt) : (s.discard g).mem = s.mem := rfl

/-! ## bind -/

@[simp] theorem State.bind_pending (s : State) (t : Nat) (w : Who) (cmd : Nat) (what : ActWhat) : (s.bind t w cmd what).pending = s.pending := rfl
@[simp] theorem State.bind_out (s : State) (t : Nat) (w : Who) (cmd : Nat) (what : ActWhat) : (s.bind t w cmd what).out = s.out := rfl
@[simp] theorem State.bind_fresh (s : State) (t : Nat) (w : Who) (cmd : Nat) (what : ActWhat) : (s.bind t w cmd what).fresh = s.fresh := rfl
@[simp] theorem State.bind_now (s : State) (t : Nat) (w : Who) (cmd : Nat) (what : ActWhat) : (s.bind t w cmd what).now = s.now := rfl
@[simp] theorem State.bind_order (s : State) (t : Nat) (w : Who) (cmd : Nat) (what : ActWhat) : (s.bind t w cmd what).order = s.order + 1 := rfl
@[simp] theorem State.bind_pow (s : State) (t : Nat) (w : Who) (cmd : Nat) (what : ActWhat) : (s.bind t w cmd what).pow = s.pow := rfl
@[simp] theorem State.bind_jnc (s : State) (t : Nat) (w : Who) (cmd : Nat) (what : ActWhat) : (s.bind t w cmd what).jnc = s.jnc := rfl
@[simp] theorem State.bind_tb (s : State) (t : Nat) (w : Who) (cmd : Nat) (what : ActWhat) : (s.bind t w cmd what).tb = s.tb := rfl
@[simp] theorem State.bind_acts (s : State) (t : Nat) (w : Who) (cmd : Nat) (what : ActWhat) : (s.bind t w cmd what).acts = s.acts ++ [⟨t, what.cls, s.order, w.ses, w.seq, cmd, what⟩] := rfl
@[simp] theorem State.bind_dspFrames (s : State) (t : Nat) (w : Who) (cmd : Nat) (what : ActWhat) : (s.bind t w cmd what).dspFrames = s.dspFrames := rfl
@[simp] theorem State.bind_joinRefused (s : State) (t : Nat) (w : Who) (cmd : Nat) (what : ActWhat) : (s.bind t w cmd what).joinRefused = s.joinRefused := rfl
@[simp] theorem State.bind_wtx (s : State) (t : Nat) (w : Who) (cmd : Nat) (what : ActWhat) : (s.bind t w cmd what).wtx = s.wtx := rfl
@[simp] theorem State.bind_rx (s : State) (t : Nat) (w : Who) (cmd : Nat) (what : ActWhat) : (s.bind t w cmd what).rx = s.rx := rfl
@[simp] theorem State.bind_fdr (s : State) (t : Nat) (w : Who) (cmd : Nat) (what : ActWhat) : (s.bind t w cmd what).fdr = s.fdr := rfl
@[simp] theorem State.bind_nodes (s : State) (t : Nat) (w : Who) (cmd : Nat) (what : ActWhat) : (s.bind t w cmd what).nodes = s.nodes := rfl
@[simp] theorem State.bind_sil (s : State) (t : Nat) (w : Who) (cmd : Nat) (what : ActWhat) : (s.bind t w cmd what).sil = s.sil := rfl
@[simp] theorem State.bind_sched (s : State) (t : Nat) (w : Who) (cmd : Nat) (what : ActWhat) : (s.bind t w cmd what).sched = s.sched := rfl
@[simp] theorem State.bind_meter (s : State) (t : Nat) (w : Who) (cmd : Nat) (what : ActWhat) : (s.bind t w cmd what).meter = s.meter := rfl
@[simp] theorem State.bind_accord (s : State) (t : Nat) (w : Who) (cmd : Nat) (what : ActWhat) : (s.bind t w cmd what).accord = s.accord := rfl
@[simp] theorem State.bind_blot (s : State) (t : Nat) (w : Who) (cmd : Nat) (what : ActWhat) : (s.bind t w cmd what).blot = s.blot := rfl
@[simp] theorem State.bind_sign (s : State) (t : Nat) (w : Who) (cmd : Nat) (what : ActWhat) : (s.bind t w cmd what).sign = s.sign := rfl
@[simp] theorem State.bind_sbus (s : State) (t : Nat) (w : Who) (cmd : Nat) (what : ActWhat) : (s.bind t w cmd what).sbus = s.sbus := rfl
@[simp] theorem State.bind_remSwaps (s : State) (t : Nat) (w : Who) (cmd : Nat) (what : ActWhat) : (s.bind t w cmd what).remSwaps = s.remSwaps := rfl
@[simp] theorem State.bind_net (s : State) (t : Nat) (w : Who) (cmd : Nat) (what : ActWhat) : (s.bind t w cmd what).net = s.net := rfl
@[simp] theorem State.bind_rtc (s : State) (t : Nat) (w : Who) (cmd : Nat) (what : ActWhat) : (s.bind t w cmd what).rtc = s.rtc := rfl
@[simp] theorem State.bind_bk (s : State) (t : Nat) (w : Who) (cmd : Nat) (what : ActWhat) : (s.bind t w cmd what).bk = s.bk := rfl
@[simp] theorem State.bind_keys (s : State) (t : Nat) (w : Who) (cmd : Nat) (what : ActWhat) : (s.bind t w cmd what).keys = s.keys := rfl
@[simp] theorem State.bind_ev (s : State) (t : Nat) (w : Who) (cmd : Nat) (what : ActWhat) : (s.bind t w cmd what).ev = s.ev := rfl
@[simp] theorem State.bind_vxc (s : State) (t : Nat) (w : Who) (cmd : Nat) (what : ActWhat) : (s.bind t w cmd what).vxc = s.vxc := rfl
@[simp] theorem State.bind_nvmc (s : State) (t : Nat) (w : Who) (cmd : Nat) (what : ActWhat) : (s.bind t w cmd what).nvmc = s.nvmc := rfl
@[simp] theorem State.bind_nv (s : State) (t : Nat) (w : Who) (cmd : Nat) (what : ActWhat) : (s.bind t w cmd what).nv = s.nv := rfl
@[simp] theorem State.bind_mem (s : State) (t : Nat) (w : Who) (cmd : Nat) (what : ActWhat) : (s.bind t w cmd what).mem = s.mem := rfl

/-! ## onTb -/

@[simp] theorem State.onTb_pending (s : State) (g : TimeBase → TimeBase) : (s.onTb g).pending = s.pending := rfl
@[simp] theorem State.onTb_out (s : State) (g : TimeBase → TimeBase) : (s.onTb g).out = s.out := rfl
@[simp] theorem State.onTb_fresh (s : State) (g : TimeBase → TimeBase) : (s.onTb g).fresh = s.fresh := rfl
@[simp] theorem State.onTb_now (s : State) (g : TimeBase → TimeBase) : (s.onTb g).now = s.now := rfl
@[simp] theorem State.onTb_order (s : State) (g : TimeBase → TimeBase) : (s.onTb g).order = s.order := rfl
@[simp] theorem State.onTb_pow (s : State) (g : TimeBase → TimeBase) : (s.onTb g).pow = s.pow := rfl
@[simp] theorem State.onTb_jnc (s : State) (g : TimeBase → TimeBase) : (s.onTb g).jnc = s.jnc := rfl
@[simp] theorem State.onTb_tb (s : State) (g : TimeBase → TimeBase) : (s.onTb g).tb = g s.tb := rfl
@[simp] theorem State.onTb_acts (s : State) (g : TimeBase → TimeBase) : (s.onTb g).acts = s.acts := rfl
@[simp] theorem State.onTb_dspFrames (s : State) (g : TimeBase → TimeBase) : (s.onTb g).dspFrames = s.dspFrames := rfl
@[simp] theorem State.onTb_joinRefused (s : State) (g : TimeBase → TimeBase) : (s.onTb g).joinRefused = s.joinRefused := rfl
@[simp] theorem State.onTb_wtx (s : State) (g : TimeBase → TimeBase) : (s.onTb g).wtx = s.wtx := rfl
@[simp] theorem State.onTb_rx (s : State) (g : TimeBase → TimeBase) : (s.onTb g).rx = s.rx := rfl
@[simp] theorem State.onTb_fdr (s : State) (g : TimeBase → TimeBase) : (s.onTb g).fdr = s.fdr := rfl
@[simp] theorem State.onTb_nodes (s : State) (g : TimeBase → TimeBase) : (s.onTb g).nodes = s.nodes := rfl
@[simp] theorem State.onTb_sil (s : State) (g : TimeBase → TimeBase) : (s.onTb g).sil = s.sil := rfl
@[simp] theorem State.onTb_sched (s : State) (g : TimeBase → TimeBase) : (s.onTb g).sched = s.sched := rfl
@[simp] theorem State.onTb_meter (s : State) (g : TimeBase → TimeBase) : (s.onTb g).meter = s.meter := rfl
@[simp] theorem State.onTb_accord (s : State) (g : TimeBase → TimeBase) : (s.onTb g).accord = s.accord := rfl
@[simp] theorem State.onTb_blot (s : State) (g : TimeBase → TimeBase) : (s.onTb g).blot = s.blot := rfl
@[simp] theorem State.onTb_sign (s : State) (g : TimeBase → TimeBase) : (s.onTb g).sign = s.sign := rfl
@[simp] theorem State.onTb_sbus (s : State) (g : TimeBase → TimeBase) : (s.onTb g).sbus = s.sbus := rfl
@[simp] theorem State.onTb_remSwaps (s : State) (g : TimeBase → TimeBase) : (s.onTb g).remSwaps = s.remSwaps := rfl
@[simp] theorem State.onTb_net (s : State) (g : TimeBase → TimeBase) : (s.onTb g).net = s.net := rfl
@[simp] theorem State.onTb_rtc (s : State) (g : TimeBase → TimeBase) : (s.onTb g).rtc = s.rtc := rfl
@[simp] theorem State.onTb_bk (s : State) (g : TimeBase → TimeBase) : (s.onTb g).bk = s.bk := rfl
@[simp] theorem State.onTb_keys (s : State) (g : TimeBase → TimeBase) : (s.onTb g).keys = s.keys := rfl
@[simp] theorem State.onTb_ev (s : State) (g : TimeBase → TimeBase) : (s.onTb g).ev = s.ev := rfl
@[simp] theorem State.onTb_vxc (s : State) (g : TimeBase → TimeBase) : (s.onTb g).vxc = s.vxc := rfl
@[simp] theorem State.onTb_nvmc (s : State) (g : TimeBase → TimeBase) : (s.onTb g).nvmc = s.nvmc := rfl
@[simp] theorem State.onTb_nv (s : State) (g : TimeBase → TimeBase) : (s.onTb g).nv = s.nv := rfl
@[simp] theorem State.onTb_mem (s : State) (g : TimeBase → TimeBase) : (s.onTb g).mem = s.mem := rfl

/-! ## onWtx -/

@[simp] theorem State.onWtx_pending (s : State) (g : StageBank → StageBank) : (s.onWtx g).pending = s.pending := rfl
@[simp] theorem State.onWtx_out (s : State) (g : StageBank → StageBank) : (s.onWtx g).out = s.out := rfl
@[simp] theorem State.onWtx_fresh (s : State) (g : StageBank → StageBank) : (s.onWtx g).fresh = s.fresh := rfl
@[simp] theorem State.onWtx_now (s : State) (g : StageBank → StageBank) : (s.onWtx g).now = s.now := rfl
@[simp] theorem State.onWtx_order (s : State) (g : StageBank → StageBank) : (s.onWtx g).order = s.order := rfl
@[simp] theorem State.onWtx_pow (s : State) (g : StageBank → StageBank) : (s.onWtx g).pow = s.pow := rfl
@[simp] theorem State.onWtx_jnc (s : State) (g : StageBank → StageBank) : (s.onWtx g).jnc = s.jnc := rfl
@[simp] theorem State.onWtx_tb (s : State) (g : StageBank → StageBank) : (s.onWtx g).tb = s.tb := rfl
@[simp] theorem State.onWtx_acts (s : State) (g : StageBank → StageBank) : (s.onWtx g).acts = s.acts := rfl
@[simp] theorem State.onWtx_dspFrames (s : State) (g : StageBank → StageBank) : (s.onWtx g).dspFrames = s.dspFrames := rfl
@[simp] theorem State.onWtx_joinRefused (s : State) (g : StageBank → StageBank) : (s.onWtx g).joinRefused = s.joinRefused := rfl
@[simp] theorem State.onWtx_wtx (s : State) (g : StageBank → StageBank) : (s.onWtx g).wtx = g s.wtx := rfl
@[simp] theorem State.onWtx_rx (s : State) (g : StageBank → StageBank) : (s.onWtx g).rx = s.rx := rfl
@[simp] theorem State.onWtx_fdr (s : State) (g : StageBank → StageBank) : (s.onWtx g).fdr = s.fdr := rfl
@[simp] theorem State.onWtx_nodes (s : State) (g : StageBank → StageBank) : (s.onWtx g).nodes = s.nodes := rfl
@[simp] theorem State.onWtx_sil (s : State) (g : StageBank → StageBank) : (s.onWtx g).sil = s.sil := rfl
@[simp] theorem State.onWtx_sched (s : State) (g : StageBank → StageBank) : (s.onWtx g).sched = s.sched := rfl
@[simp] theorem State.onWtx_meter (s : State) (g : StageBank → StageBank) : (s.onWtx g).meter = s.meter := rfl
@[simp] theorem State.onWtx_accord (s : State) (g : StageBank → StageBank) : (s.onWtx g).accord = s.accord := rfl
@[simp] theorem State.onWtx_blot (s : State) (g : StageBank → StageBank) : (s.onWtx g).blot = s.blot := rfl
@[simp] theorem State.onWtx_sign (s : State) (g : StageBank → StageBank) : (s.onWtx g).sign = s.sign := rfl
@[simp] theorem State.onWtx_sbus (s : State) (g : StageBank → StageBank) : (s.onWtx g).sbus = s.sbus := rfl
@[simp] theorem State.onWtx_remSwaps (s : State) (g : StageBank → StageBank) : (s.onWtx g).remSwaps = s.remSwaps := rfl
@[simp] theorem State.onWtx_net (s : State) (g : StageBank → StageBank) : (s.onWtx g).net = s.net := rfl
@[simp] theorem State.onWtx_rtc (s : State) (g : StageBank → StageBank) : (s.onWtx g).rtc = s.rtc := rfl
@[simp] theorem State.onWtx_bk (s : State) (g : StageBank → StageBank) : (s.onWtx g).bk = s.bk := rfl
@[simp] theorem State.onWtx_keys (s : State) (g : StageBank → StageBank) : (s.onWtx g).keys = s.keys := rfl
@[simp] theorem State.onWtx_ev (s : State) (g : StageBank → StageBank) : (s.onWtx g).ev = s.ev := rfl
@[simp] theorem State.onWtx_vxc (s : State) (g : StageBank → StageBank) : (s.onWtx g).vxc = s.vxc := rfl
@[simp] theorem State.onWtx_nvmc (s : State) (g : StageBank → StageBank) : (s.onWtx g).nvmc = s.nvmc := rfl
@[simp] theorem State.onWtx_nv (s : State) (g : StageBank → StageBank) : (s.onWtx g).nv = s.nv := rfl
@[simp] theorem State.onWtx_mem (s : State) (g : StageBank → StageBank) : (s.onWtx g).mem = s.mem := rfl

/-! ## onRx -/

@[simp] theorem State.onRx_pending (s : State) (f : Nat) (g : RxPath → RxPath) : (s.onRx f g).pending = s.pending := rfl
@[simp] theorem State.onRx_out (s : State) (f : Nat) (g : RxPath → RxPath) : (s.onRx f g).out = s.out := rfl
@[simp] theorem State.onRx_fresh (s : State) (f : Nat) (g : RxPath → RxPath) : (s.onRx f g).fresh = s.fresh := rfl
@[simp] theorem State.onRx_now (s : State) (f : Nat) (g : RxPath → RxPath) : (s.onRx f g).now = s.now := rfl
@[simp] theorem State.onRx_order (s : State) (f : Nat) (g : RxPath → RxPath) : (s.onRx f g).order = s.order := rfl
@[simp] theorem State.onRx_pow (s : State) (f : Nat) (g : RxPath → RxPath) : (s.onRx f g).pow = s.pow := rfl
@[simp] theorem State.onRx_jnc (s : State) (f : Nat) (g : RxPath → RxPath) : (s.onRx f g).jnc = s.jnc := rfl
@[simp] theorem State.onRx_tb (s : State) (f : Nat) (g : RxPath → RxPath) : (s.onRx f g).tb = s.tb := rfl
@[simp] theorem State.onRx_acts (s : State) (f : Nat) (g : RxPath → RxPath) : (s.onRx f g).acts = s.acts := rfl
@[simp] theorem State.onRx_dspFrames (s : State) (f : Nat) (g : RxPath → RxPath) : (s.onRx f g).dspFrames = s.dspFrames := rfl
@[simp] theorem State.onRx_joinRefused (s : State) (f : Nat) (g : RxPath → RxPath) : (s.onRx f g).joinRefused = s.joinRefused := rfl
@[simp] theorem State.onRx_wtx (s : State) (f : Nat) (g : RxPath → RxPath) : (s.onRx f g).wtx = s.wtx := rfl
@[simp] theorem State.onRx_rx (s : State) (f : Nat) (g : RxPath → RxPath) : (s.onRx f g).rx = tmod {} s.rx f g := rfl
@[simp] theorem State.onRx_fdr (s : State) (f : Nat) (g : RxPath → RxPath) : (s.onRx f g).fdr = s.fdr := rfl
@[simp] theorem State.onRx_nodes (s : State) (f : Nat) (g : RxPath → RxPath) : (s.onRx f g).nodes = s.nodes := rfl
@[simp] theorem State.onRx_sil (s : State) (f : Nat) (g : RxPath → RxPath) : (s.onRx f g).sil = s.sil := rfl
@[simp] theorem State.onRx_sched (s : State) (f : Nat) (g : RxPath → RxPath) : (s.onRx f g).sched = s.sched := rfl
@[simp] theorem State.onRx_meter (s : State) (f : Nat) (g : RxPath → RxPath) : (s.onRx f g).meter = s.meter := rfl
@[simp] theorem State.onRx_accord (s : State) (f : Nat) (g : RxPath → RxPath) : (s.onRx f g).accord = s.accord := rfl
@[simp] theorem State.onRx_blot (s : State) (f : Nat) (g : RxPath → RxPath) : (s.onRx f g).blot = s.blot := rfl
@[simp] theorem State.onRx_sign (s : State) (f : Nat) (g : RxPath → RxPath) : (s.onRx f g).sign = s.sign := rfl
@[simp] theorem State.onRx_sbus (s : State) (f : Nat) (g : RxPath → RxPath) : (s.onRx f g).sbus = s.sbus := rfl
@[simp] theorem State.onRx_remSwaps (s : State) (f : Nat) (g : RxPath → RxPath) : (s.onRx f g).remSwaps = s.remSwaps := rfl
@[simp] theorem State.onRx_net (s : State) (f : Nat) (g : RxPath → RxPath) : (s.onRx f g).net = s.net := rfl
@[simp] theorem State.onRx_rtc (s : State) (f : Nat) (g : RxPath → RxPath) : (s.onRx f g).rtc = s.rtc := rfl
@[simp] theorem State.onRx_bk (s : State) (f : Nat) (g : RxPath → RxPath) : (s.onRx f g).bk = s.bk := rfl
@[simp] theorem State.onRx_keys (s : State) (f : Nat) (g : RxPath → RxPath) : (s.onRx f g).keys = s.keys := rfl
@[simp] theorem State.onRx_ev (s : State) (f : Nat) (g : RxPath → RxPath) : (s.onRx f g).ev = s.ev := rfl
@[simp] theorem State.onRx_vxc (s : State) (f : Nat) (g : RxPath → RxPath) : (s.onRx f g).vxc = s.vxc := rfl
@[simp] theorem State.onRx_nvmc (s : State) (f : Nat) (g : RxPath → RxPath) : (s.onRx f g).nvmc = s.nvmc := rfl
@[simp] theorem State.onRx_nv (s : State) (f : Nat) (g : RxPath → RxPath) : (s.onRx f g).nv = s.nv := rfl
@[simp] theorem State.onRx_mem (s : State) (f : Nat) (g : RxPath → RxPath) : (s.onRx f g).mem = s.mem := rfl

/-! ## onTab -/

@[simp] theorem State.onTab_pending (s : State) (g : SilTables → SilTables) : (s.onTab g).pending = s.pending := rfl
@[simp] theorem State.onTab_out (s : State) (g : SilTables → SilTables) : (s.onTab g).out = s.out := rfl
@[simp] theorem State.onTab_fresh (s : State) (g : SilTables → SilTables) : (s.onTab g).fresh = s.fresh := rfl
@[simp] theorem State.onTab_now (s : State) (g : SilTables → SilTables) : (s.onTab g).now = s.now := rfl
@[simp] theorem State.onTab_order (s : State) (g : SilTables → SilTables) : (s.onTab g).order = s.order := rfl
@[simp] theorem State.onTab_pow (s : State) (g : SilTables → SilTables) : (s.onTab g).pow = s.pow := rfl
@[simp] theorem State.onTab_jnc (s : State) (g : SilTables → SilTables) : (s.onTab g).jnc = s.jnc := rfl
@[simp] theorem State.onTab_tb (s : State) (g : SilTables → SilTables) : (s.onTab g).tb = s.tb := rfl
@[simp] theorem State.onTab_acts (s : State) (g : SilTables → SilTables) : (s.onTab g).acts = s.acts := rfl
@[simp] theorem State.onTab_dspFrames (s : State) (g : SilTables → SilTables) : (s.onTab g).dspFrames = s.dspFrames := rfl
@[simp] theorem State.onTab_joinRefused (s : State) (g : SilTables → SilTables) : (s.onTab g).joinRefused = s.joinRefused := rfl
@[simp] theorem State.onTab_wtx (s : State) (g : SilTables → SilTables) : (s.onTab g).wtx = s.wtx := rfl
@[simp] theorem State.onTab_rx (s : State) (g : SilTables → SilTables) : (s.onTab g).rx = s.rx := rfl
@[simp] theorem State.onTab_fdr (s : State) (g : SilTables → SilTables) : (s.onTab g).fdr = s.fdr := rfl
@[simp] theorem State.onTab_nodes (s : State) (g : SilTables → SilTables) : (s.onTab g).nodes = s.nodes := rfl
@[simp] theorem State.onTab_sil (s : State) (g : SilTables → SilTables) : (s.onTab g).sil = { s.sil with tab := g s.sil.tab } := rfl
@[simp] theorem State.onTab_sched (s : State) (g : SilTables → SilTables) : (s.onTab g).sched = s.sched := rfl
@[simp] theorem State.onTab_meter (s : State) (g : SilTables → SilTables) : (s.onTab g).meter = s.meter := rfl
@[simp] theorem State.onTab_accord (s : State) (g : SilTables → SilTables) : (s.onTab g).accord = s.accord := rfl
@[simp] theorem State.onTab_blot (s : State) (g : SilTables → SilTables) : (s.onTab g).blot = s.blot := rfl
@[simp] theorem State.onTab_sign (s : State) (g : SilTables → SilTables) : (s.onTab g).sign = s.sign := rfl
@[simp] theorem State.onTab_sbus (s : State) (g : SilTables → SilTables) : (s.onTab g).sbus = s.sbus := rfl
@[simp] theorem State.onTab_remSwaps (s : State) (g : SilTables → SilTables) : (s.onTab g).remSwaps = s.remSwaps := rfl
@[simp] theorem State.onTab_net (s : State) (g : SilTables → SilTables) : (s.onTab g).net = s.net := rfl
@[simp] theorem State.onTab_rtc (s : State) (g : SilTables → SilTables) : (s.onTab g).rtc = s.rtc := rfl
@[simp] theorem State.onTab_bk (s : State) (g : SilTables → SilTables) : (s.onTab g).bk = s.bk := rfl
@[simp] theorem State.onTab_keys (s : State) (g : SilTables → SilTables) : (s.onTab g).keys = s.keys := rfl
@[simp] theorem State.onTab_ev (s : State) (g : SilTables → SilTables) : (s.onTab g).ev = s.ev := rfl
@[simp] theorem State.onTab_vxc (s : State) (g : SilTables → SilTables) : (s.onTab g).vxc = s.vxc := rfl
@[simp] theorem State.onTab_nvmc (s : State) (g : SilTables → SilTables) : (s.onTab g).nvmc = s.nvmc := rfl
@[simp] theorem State.onTab_nv (s : State) (g : SilTables → SilTables) : (s.onTab g).nv = s.nv := rfl
@[simp] theorem State.onTab_mem (s : State) (g : SilTables → SilTables) : (s.onTab g).mem = s.mem := rfl

/-! ## onSil -/

@[simp] theorem State.onSil_pending (s : State) (g : Sillage → Sillage) : (s.onSil g).pending = s.pending := rfl
@[simp] theorem State.onSil_out (s : State) (g : Sillage → Sillage) : (s.onSil g).out = s.out := rfl
@[simp] theorem State.onSil_fresh (s : State) (g : Sillage → Sillage) : (s.onSil g).fresh = s.fresh := rfl
@[simp] theorem State.onSil_now (s : State) (g : Sillage → Sillage) : (s.onSil g).now = s.now := rfl
@[simp] theorem State.onSil_order (s : State) (g : Sillage → Sillage) : (s.onSil g).order = s.order := rfl
@[simp] theorem State.onSil_pow (s : State) (g : Sillage → Sillage) : (s.onSil g).pow = s.pow := rfl
@[simp] theorem State.onSil_jnc (s : State) (g : Sillage → Sillage) : (s.onSil g).jnc = s.jnc := rfl
@[simp] theorem State.onSil_tb (s : State) (g : Sillage → Sillage) : (s.onSil g).tb = s.tb := rfl
@[simp] theorem State.onSil_acts (s : State) (g : Sillage → Sillage) : (s.onSil g).acts = s.acts := rfl
@[simp] theorem State.onSil_dspFrames (s : State) (g : Sillage → Sillage) : (s.onSil g).dspFrames = s.dspFrames := rfl
@[simp] theorem State.onSil_joinRefused (s : State) (g : Sillage → Sillage) : (s.onSil g).joinRefused = s.joinRefused := rfl
@[simp] theorem State.onSil_wtx (s : State) (g : Sillage → Sillage) : (s.onSil g).wtx = s.wtx := rfl
@[simp] theorem State.onSil_rx (s : State) (g : Sillage → Sillage) : (s.onSil g).rx = s.rx := rfl
@[simp] theorem State.onSil_fdr (s : State) (g : Sillage → Sillage) : (s.onSil g).fdr = s.fdr := rfl
@[simp] theorem State.onSil_nodes (s : State) (g : Sillage → Sillage) : (s.onSil g).nodes = s.nodes := rfl
@[simp] theorem State.onSil_sil (s : State) (g : Sillage → Sillage) : (s.onSil g).sil = g s.sil := rfl
@[simp] theorem State.onSil_sched (s : State) (g : Sillage → Sillage) : (s.onSil g).sched = s.sched := rfl
@[simp] theorem State.onSil_meter (s : State) (g : Sillage → Sillage) : (s.onSil g).meter = s.meter := rfl
@[simp] theorem State.onSil_accord (s : State) (g : Sillage → Sillage) : (s.onSil g).accord = s.accord := rfl
@[simp] theorem State.onSil_blot (s : State) (g : Sillage → Sillage) : (s.onSil g).blot = s.blot := rfl
@[simp] theorem State.onSil_sign (s : State) (g : Sillage → Sillage) : (s.onSil g).sign = s.sign := rfl
@[simp] theorem State.onSil_sbus (s : State) (g : Sillage → Sillage) : (s.onSil g).sbus = s.sbus := rfl
@[simp] theorem State.onSil_remSwaps (s : State) (g : Sillage → Sillage) : (s.onSil g).remSwaps = s.remSwaps := rfl
@[simp] theorem State.onSil_net (s : State) (g : Sillage → Sillage) : (s.onSil g).net = s.net := rfl
@[simp] theorem State.onSil_rtc (s : State) (g : Sillage → Sillage) : (s.onSil g).rtc = s.rtc := rfl
@[simp] theorem State.onSil_bk (s : State) (g : Sillage → Sillage) : (s.onSil g).bk = s.bk := rfl
@[simp] theorem State.onSil_keys (s : State) (g : Sillage → Sillage) : (s.onSil g).keys = s.keys := rfl
@[simp] theorem State.onSil_ev (s : State) (g : Sillage → Sillage) : (s.onSil g).ev = s.ev := rfl
@[simp] theorem State.onSil_vxc (s : State) (g : Sillage → Sillage) : (s.onSil g).vxc = s.vxc := rfl
@[simp] theorem State.onSil_nvmc (s : State) (g : Sillage → Sillage) : (s.onSil g).nvmc = s.nvmc := rfl
@[simp] theorem State.onSil_nv (s : State) (g : Sillage → Sillage) : (s.onSil g).nv = s.nv := rfl
@[simp] theorem State.onSil_mem (s : State) (g : Sillage → Sillage) : (s.onSil g).mem = s.mem := rfl

/-! ## onSched -/

@[simp] theorem State.onSched_pending (s : State) (g : Sched → Sched) : (s.onSched g).pending = s.pending := rfl
@[simp] theorem State.onSched_out (s : State) (g : Sched → Sched) : (s.onSched g).out = s.out := rfl
@[simp] theorem State.onSched_fresh (s : State) (g : Sched → Sched) : (s.onSched g).fresh = s.fresh := rfl
@[simp] theorem State.onSched_now (s : State) (g : Sched → Sched) : (s.onSched g).now = s.now := rfl
@[simp] theorem State.onSched_order (s : State) (g : Sched → Sched) : (s.onSched g).order = s.order := rfl
@[simp] theorem State.onSched_pow (s : State) (g : Sched → Sched) : (s.onSched g).pow = s.pow := rfl
@[simp] theorem State.onSched_jnc (s : State) (g : Sched → Sched) : (s.onSched g).jnc = s.jnc := rfl
@[simp] theorem State.onSched_tb (s : State) (g : Sched → Sched) : (s.onSched g).tb = s.tb := rfl
@[simp] theorem State.onSched_acts (s : State) (g : Sched → Sched) : (s.onSched g).acts = s.acts := rfl
@[simp] theorem State.onSched_dspFrames (s : State) (g : Sched → Sched) : (s.onSched g).dspFrames = s.dspFrames := rfl
@[simp] theorem State.onSched_joinRefused (s : State) (g : Sched → Sched) : (s.onSched g).joinRefused = s.joinRefused := rfl
@[simp] theorem State.onSched_wtx (s : State) (g : Sched → Sched) : (s.onSched g).wtx = s.wtx := rfl
@[simp] theorem State.onSched_rx (s : State) (g : Sched → Sched) : (s.onSched g).rx = s.rx := rfl
@[simp] theorem State.onSched_fdr (s : State) (g : Sched → Sched) : (s.onSched g).fdr = s.fdr := rfl
@[simp] theorem State.onSched_nodes (s : State) (g : Sched → Sched) : (s.onSched g).nodes = s.nodes := rfl
@[simp] theorem State.onSched_sil (s : State) (g : Sched → Sched) : (s.onSched g).sil = s.sil := rfl
@[simp] theorem State.onSched_sched (s : State) (g : Sched → Sched) : (s.onSched g).sched = g s.sched := rfl
@[simp] theorem State.onSched_meter (s : State) (g : Sched → Sched) : (s.onSched g).meter = s.meter := rfl
@[simp] theorem State.onSched_accord (s : State) (g : Sched → Sched) : (s.onSched g).accord = s.accord := rfl
@[simp] theorem State.onSched_blot (s : State) (g : Sched → Sched) : (s.onSched g).blot = s.blot := rfl
@[simp] theorem State.onSched_sign (s : State) (g : Sched → Sched) : (s.onSched g).sign = s.sign := rfl
@[simp] theorem State.onSched_sbus (s : State) (g : Sched → Sched) : (s.onSched g).sbus = s.sbus := rfl
@[simp] theorem State.onSched_remSwaps (s : State) (g : Sched → Sched) : (s.onSched g).remSwaps = s.remSwaps := rfl
@[simp] theorem State.onSched_net (s : State) (g : Sched → Sched) : (s.onSched g).net = s.net := rfl
@[simp] theorem State.onSched_rtc (s : State) (g : Sched → Sched) : (s.onSched g).rtc = s.rtc := rfl
@[simp] theorem State.onSched_bk (s : State) (g : Sched → Sched) : (s.onSched g).bk = s.bk := rfl
@[simp] theorem State.onSched_keys (s : State) (g : Sched → Sched) : (s.onSched g).keys = s.keys := rfl
@[simp] theorem State.onSched_ev (s : State) (g : Sched → Sched) : (s.onSched g).ev = s.ev := rfl
@[simp] theorem State.onSched_vxc (s : State) (g : Sched → Sched) : (s.onSched g).vxc = s.vxc := rfl
@[simp] theorem State.onSched_nvmc (s : State) (g : Sched → Sched) : (s.onSched g).nvmc = s.nvmc := rfl
@[simp] theorem State.onSched_nv (s : State) (g : Sched → Sched) : (s.onSched g).nv = s.nv := rfl
@[simp] theorem State.onSched_mem (s : State) (g : Sched → Sched) : (s.onSched g).mem = s.mem := rfl

/-! ## onMeter -/

@[simp] theorem State.onMeter_pending (s : State) (g : Meter → Meter) : (s.onMeter g).pending = s.pending := rfl
@[simp] theorem State.onMeter_out (s : State) (g : Meter → Meter) : (s.onMeter g).out = s.out := rfl
@[simp] theorem State.onMeter_fresh (s : State) (g : Meter → Meter) : (s.onMeter g).fresh = s.fresh := rfl
@[simp] theorem State.onMeter_now (s : State) (g : Meter → Meter) : (s.onMeter g).now = s.now := rfl
@[simp] theorem State.onMeter_order (s : State) (g : Meter → Meter) : (s.onMeter g).order = s.order := rfl
@[simp] theorem State.onMeter_pow (s : State) (g : Meter → Meter) : (s.onMeter g).pow = s.pow := rfl
@[simp] theorem State.onMeter_jnc (s : State) (g : Meter → Meter) : (s.onMeter g).jnc = s.jnc := rfl
@[simp] theorem State.onMeter_tb (s : State) (g : Meter → Meter) : (s.onMeter g).tb = s.tb := rfl
@[simp] theorem State.onMeter_acts (s : State) (g : Meter → Meter) : (s.onMeter g).acts = s.acts := rfl
@[simp] theorem State.onMeter_dspFrames (s : State) (g : Meter → Meter) : (s.onMeter g).dspFrames = s.dspFrames := rfl
@[simp] theorem State.onMeter_joinRefused (s : State) (g : Meter → Meter) : (s.onMeter g).joinRefused = s.joinRefused := rfl
@[simp] theorem State.onMeter_wtx (s : State) (g : Meter → Meter) : (s.onMeter g).wtx = s.wtx := rfl
@[simp] theorem State.onMeter_rx (s : State) (g : Meter → Meter) : (s.onMeter g).rx = s.rx := rfl
@[simp] theorem State.onMeter_fdr (s : State) (g : Meter → Meter) : (s.onMeter g).fdr = s.fdr := rfl
@[simp] theorem State.onMeter_nodes (s : State) (g : Meter → Meter) : (s.onMeter g).nodes = s.nodes := rfl
@[simp] theorem State.onMeter_sil (s : State) (g : Meter → Meter) : (s.onMeter g).sil = s.sil := rfl
@[simp] theorem State.onMeter_sched (s : State) (g : Meter → Meter) : (s.onMeter g).sched = s.sched := rfl
@[simp] theorem State.onMeter_meter (s : State) (g : Meter → Meter) : (s.onMeter g).meter = g s.meter := rfl
@[simp] theorem State.onMeter_accord (s : State) (g : Meter → Meter) : (s.onMeter g).accord = s.accord := rfl
@[simp] theorem State.onMeter_blot (s : State) (g : Meter → Meter) : (s.onMeter g).blot = s.blot := rfl
@[simp] theorem State.onMeter_sign (s : State) (g : Meter → Meter) : (s.onMeter g).sign = s.sign := rfl
@[simp] theorem State.onMeter_sbus (s : State) (g : Meter → Meter) : (s.onMeter g).sbus = s.sbus := rfl
@[simp] theorem State.onMeter_remSwaps (s : State) (g : Meter → Meter) : (s.onMeter g).remSwaps = s.remSwaps := rfl
@[simp] theorem State.onMeter_net (s : State) (g : Meter → Meter) : (s.onMeter g).net = s.net := rfl
@[simp] theorem State.onMeter_rtc (s : State) (g : Meter → Meter) : (s.onMeter g).rtc = s.rtc := rfl
@[simp] theorem State.onMeter_bk (s : State) (g : Meter → Meter) : (s.onMeter g).bk = s.bk := rfl
@[simp] theorem State.onMeter_keys (s : State) (g : Meter → Meter) : (s.onMeter g).keys = s.keys := rfl
@[simp] theorem State.onMeter_ev (s : State) (g : Meter → Meter) : (s.onMeter g).ev = s.ev := rfl
@[simp] theorem State.onMeter_vxc (s : State) (g : Meter → Meter) : (s.onMeter g).vxc = s.vxc := rfl
@[simp] theorem State.onMeter_nvmc (s : State) (g : Meter → Meter) : (s.onMeter g).nvmc = s.nvmc := rfl
@[simp] theorem State.onMeter_nv (s : State) (g : Meter → Meter) : (s.onMeter g).nv = s.nv := rfl
@[simp] theorem State.onMeter_mem (s : State) (g : Meter → Meter) : (s.onMeter g).mem = s.mem := rfl

/-! ## onBlot -/

@[simp] theorem State.onBlot_pending (s : State) (g : Blotter → Blotter) : (s.onBlot g).pending = s.pending := rfl
@[simp] theorem State.onBlot_out (s : State) (g : Blotter → Blotter) : (s.onBlot g).out = s.out := rfl
@[simp] theorem State.onBlot_fresh (s : State) (g : Blotter → Blotter) : (s.onBlot g).fresh = s.fresh := rfl
@[simp] theorem State.onBlot_now (s : State) (g : Blotter → Blotter) : (s.onBlot g).now = s.now := rfl
@[simp] theorem State.onBlot_order (s : State) (g : Blotter → Blotter) : (s.onBlot g).order = s.order := rfl
@[simp] theorem State.onBlot_pow (s : State) (g : Blotter → Blotter) : (s.onBlot g).pow = s.pow := rfl
@[simp] theorem State.onBlot_jnc (s : State) (g : Blotter → Blotter) : (s.onBlot g).jnc = s.jnc := rfl
@[simp] theorem State.onBlot_tb (s : State) (g : Blotter → Blotter) : (s.onBlot g).tb = s.tb := rfl
@[simp] theorem State.onBlot_acts (s : State) (g : Blotter → Blotter) : (s.onBlot g).acts = s.acts := rfl
@[simp] theorem State.onBlot_dspFrames (s : State) (g : Blotter → Blotter) : (s.onBlot g).dspFrames = s.dspFrames := rfl
@[simp] theorem State.onBlot_joinRefused (s : State) (g : Blotter → Blotter) : (s.onBlot g).joinRefused = s.joinRefused := rfl
@[simp] theorem State.onBlot_wtx (s : State) (g : Blotter → Blotter) : (s.onBlot g).wtx = s.wtx := rfl
@[simp] theorem State.onBlot_rx (s : State) (g : Blotter → Blotter) : (s.onBlot g).rx = s.rx := rfl
@[simp] theorem State.onBlot_fdr (s : State) (g : Blotter → Blotter) : (s.onBlot g).fdr = s.fdr := rfl
@[simp] theorem State.onBlot_nodes (s : State) (g : Blotter → Blotter) : (s.onBlot g).nodes = s.nodes := rfl
@[simp] theorem State.onBlot_sil (s : State) (g : Blotter → Blotter) : (s.onBlot g).sil = s.sil := rfl
@[simp] theorem State.onBlot_sched (s : State) (g : Blotter → Blotter) : (s.onBlot g).sched = s.sched := rfl
@[simp] theorem State.onBlot_meter (s : State) (g : Blotter → Blotter) : (s.onBlot g).meter = s.meter := rfl
@[simp] theorem State.onBlot_accord (s : State) (g : Blotter → Blotter) : (s.onBlot g).accord = s.accord := rfl
@[simp] theorem State.onBlot_blot (s : State) (g : Blotter → Blotter) : (s.onBlot g).blot = g s.blot := rfl
@[simp] theorem State.onBlot_sign (s : State) (g : Blotter → Blotter) : (s.onBlot g).sign = s.sign := rfl
@[simp] theorem State.onBlot_sbus (s : State) (g : Blotter → Blotter) : (s.onBlot g).sbus = s.sbus := rfl
@[simp] theorem State.onBlot_remSwaps (s : State) (g : Blotter → Blotter) : (s.onBlot g).remSwaps = s.remSwaps := rfl
@[simp] theorem State.onBlot_net (s : State) (g : Blotter → Blotter) : (s.onBlot g).net = s.net := rfl
@[simp] theorem State.onBlot_rtc (s : State) (g : Blotter → Blotter) : (s.onBlot g).rtc = s.rtc := rfl
@[simp] theorem State.onBlot_bk (s : State) (g : Blotter → Blotter) : (s.onBlot g).bk = s.bk := rfl
@[simp] theorem State.onBlot_keys (s : State) (g : Blotter → Blotter) : (s.onBlot g).keys = s.keys := rfl
@[simp] theorem State.onBlot_ev (s : State) (g : Blotter → Blotter) : (s.onBlot g).ev = s.ev := rfl
@[simp] theorem State.onBlot_vxc (s : State) (g : Blotter → Blotter) : (s.onBlot g).vxc = s.vxc := rfl
@[simp] theorem State.onBlot_nvmc (s : State) (g : Blotter → Blotter) : (s.onBlot g).nvmc = s.nvmc := rfl
@[simp] theorem State.onBlot_nv (s : State) (g : Blotter → Blotter) : (s.onBlot g).nv = s.nv := rfl
@[simp] theorem State.onBlot_mem (s : State) (g : Blotter → Blotter) : (s.onBlot g).mem = s.mem := rfl

/-! ## onSign -/

@[simp] theorem State.onSign_pending (s : State) (g : Sign → Sign) : (s.onSign g).pending = s.pending := rfl
@[simp] theorem State.onSign_out (s : State) (g : Sign → Sign) : (s.onSign g).out = s.out := rfl
@[simp] theorem State.onSign_fresh (s : State) (g : Sign → Sign) : (s.onSign g).fresh = s.fresh := rfl
@[simp] theorem State.onSign_now (s : State) (g : Sign → Sign) : (s.onSign g).now = s.now := rfl
@[simp] theorem State.onSign_order (s : State) (g : Sign → Sign) : (s.onSign g).order = s.order := rfl
@[simp] theorem State.onSign_pow (s : State) (g : Sign → Sign) : (s.onSign g).pow = s.pow := rfl
@[simp] theorem State.onSign_jnc (s : State) (g : Sign → Sign) : (s.onSign g).jnc = s.jnc := rfl
@[simp] theorem State.onSign_tb (s : State) (g : Sign → Sign) : (s.onSign g).tb = s.tb := rfl
@[simp] theorem State.onSign_acts (s : State) (g : Sign → Sign) : (s.onSign g).acts = s.acts := rfl
@[simp] theorem State.onSign_dspFrames (s : State) (g : Sign → Sign) : (s.onSign g).dspFrames = s.dspFrames := rfl
@[simp] theorem State.onSign_joinRefused (s : State) (g : Sign → Sign) : (s.onSign g).joinRefused = s.joinRefused := rfl
@[simp] theorem State.onSign_wtx (s : State) (g : Sign → Sign) : (s.onSign g).wtx = s.wtx := rfl
@[simp] theorem State.onSign_rx (s : State) (g : Sign → Sign) : (s.onSign g).rx = s.rx := rfl
@[simp] theorem State.onSign_fdr (s : State) (g : Sign → Sign) : (s.onSign g).fdr = s.fdr := rfl
@[simp] theorem State.onSign_nodes (s : State) (g : Sign → Sign) : (s.onSign g).nodes = s.nodes := rfl
@[simp] theorem State.onSign_sil (s : State) (g : Sign → Sign) : (s.onSign g).sil = s.sil := rfl
@[simp] theorem State.onSign_sched (s : State) (g : Sign → Sign) : (s.onSign g).sched = s.sched := rfl
@[simp] theorem State.onSign_meter (s : State) (g : Sign → Sign) : (s.onSign g).meter = s.meter := rfl
@[simp] theorem State.onSign_accord (s : State) (g : Sign → Sign) : (s.onSign g).accord = s.accord := rfl
@[simp] theorem State.onSign_blot (s : State) (g : Sign → Sign) : (s.onSign g).blot = s.blot := rfl
@[simp] theorem State.onSign_sign (s : State) (g : Sign → Sign) : (s.onSign g).sign = g s.sign := rfl
@[simp] theorem State.onSign_sbus (s : State) (g : Sign → Sign) : (s.onSign g).sbus = s.sbus := rfl
@[simp] theorem State.onSign_remSwaps (s : State) (g : Sign → Sign) : (s.onSign g).remSwaps = s.remSwaps := rfl
@[simp] theorem State.onSign_net (s : State) (g : Sign → Sign) : (s.onSign g).net = s.net := rfl
@[simp] theorem State.onSign_rtc (s : State) (g : Sign → Sign) : (s.onSign g).rtc = s.rtc := rfl
@[simp] theorem State.onSign_bk (s : State) (g : Sign → Sign) : (s.onSign g).bk = s.bk := rfl
@[simp] theorem State.onSign_keys (s : State) (g : Sign → Sign) : (s.onSign g).keys = s.keys := rfl
@[simp] theorem State.onSign_ev (s : State) (g : Sign → Sign) : (s.onSign g).ev = s.ev := rfl
@[simp] theorem State.onSign_vxc (s : State) (g : Sign → Sign) : (s.onSign g).vxc = s.vxc := rfl
@[simp] theorem State.onSign_nvmc (s : State) (g : Sign → Sign) : (s.onSign g).nvmc = s.nvmc := rfl
@[simp] theorem State.onSign_nv (s : State) (g : Sign → Sign) : (s.onSign g).nv = s.nv := rfl
@[simp] theorem State.onSign_mem (s : State) (g : Sign → Sign) : (s.onSign g).mem = s.mem := rfl

/-! ## onPort -/

@[simp] theorem State.onPort_pending (s : State) (p : Nat) (g : SbusPort → SbusPort) : (s.onPort p g).pending = s.pending := rfl
@[simp] theorem State.onPort_out (s : State) (p : Nat) (g : SbusPort → SbusPort) : (s.onPort p g).out = s.out := rfl
@[simp] theorem State.onPort_fresh (s : State) (p : Nat) (g : SbusPort → SbusPort) : (s.onPort p g).fresh = s.fresh := rfl
@[simp] theorem State.onPort_now (s : State) (p : Nat) (g : SbusPort → SbusPort) : (s.onPort p g).now = s.now := rfl
@[simp] theorem State.onPort_order (s : State) (p : Nat) (g : SbusPort → SbusPort) : (s.onPort p g).order = s.order := rfl
@[simp] theorem State.onPort_pow (s : State) (p : Nat) (g : SbusPort → SbusPort) : (s.onPort p g).pow = s.pow := rfl
@[simp] theorem State.onPort_jnc (s : State) (p : Nat) (g : SbusPort → SbusPort) : (s.onPort p g).jnc = s.jnc := rfl
@[simp] theorem State.onPort_tb (s : State) (p : Nat) (g : SbusPort → SbusPort) : (s.onPort p g).tb = s.tb := rfl
@[simp] theorem State.onPort_acts (s : State) (p : Nat) (g : SbusPort → SbusPort) : (s.onPort p g).acts = s.acts := rfl
@[simp] theorem State.onPort_dspFrames (s : State) (p : Nat) (g : SbusPort → SbusPort) : (s.onPort p g).dspFrames = s.dspFrames := rfl
@[simp] theorem State.onPort_joinRefused (s : State) (p : Nat) (g : SbusPort → SbusPort) : (s.onPort p g).joinRefused = s.joinRefused := rfl
@[simp] theorem State.onPort_wtx (s : State) (p : Nat) (g : SbusPort → SbusPort) : (s.onPort p g).wtx = s.wtx := rfl
@[simp] theorem State.onPort_rx (s : State) (p : Nat) (g : SbusPort → SbusPort) : (s.onPort p g).rx = s.rx := rfl
@[simp] theorem State.onPort_fdr (s : State) (p : Nat) (g : SbusPort → SbusPort) : (s.onPort p g).fdr = s.fdr := rfl
@[simp] theorem State.onPort_nodes (s : State) (p : Nat) (g : SbusPort → SbusPort) : (s.onPort p g).nodes = s.nodes := rfl
@[simp] theorem State.onPort_sil (s : State) (p : Nat) (g : SbusPort → SbusPort) : (s.onPort p g).sil = s.sil := rfl
@[simp] theorem State.onPort_sched (s : State) (p : Nat) (g : SbusPort → SbusPort) : (s.onPort p g).sched = s.sched := rfl
@[simp] theorem State.onPort_meter (s : State) (p : Nat) (g : SbusPort → SbusPort) : (s.onPort p g).meter = s.meter := rfl
@[simp] theorem State.onPort_accord (s : State) (p : Nat) (g : SbusPort → SbusPort) : (s.onPort p g).accord = s.accord := rfl
@[simp] theorem State.onPort_blot (s : State) (p : Nat) (g : SbusPort → SbusPort) : (s.onPort p g).blot = s.blot := rfl
@[simp] theorem State.onPort_sign (s : State) (p : Nat) (g : SbusPort → SbusPort) : (s.onPort p g).sign = s.sign := rfl
@[simp] theorem State.onPort_sbus (s : State) (p : Nat) (g : SbusPort → SbusPort) : (s.onPort p g).sbus = tmod {} s.sbus p g := rfl
@[simp] theorem State.onPort_remSwaps (s : State) (p : Nat) (g : SbusPort → SbusPort) : (s.onPort p g).remSwaps = s.remSwaps := rfl
@[simp] theorem State.onPort_net (s : State) (p : Nat) (g : SbusPort → SbusPort) : (s.onPort p g).net = s.net := rfl
@[simp] theorem State.onPort_rtc (s : State) (p : Nat) (g : SbusPort → SbusPort) : (s.onPort p g).rtc = s.rtc := rfl
@[simp] theorem State.onPort_bk (s : State) (p : Nat) (g : SbusPort → SbusPort) : (s.onPort p g).bk = s.bk := rfl
@[simp] theorem State.onPort_keys (s : State) (p : Nat) (g : SbusPort → SbusPort) : (s.onPort p g).keys = s.keys := rfl
@[simp] theorem State.onPort_ev (s : State) (p : Nat) (g : SbusPort → SbusPort) : (s.onPort p g).ev = s.ev := rfl
@[simp] theorem State.onPort_vxc (s : State) (p : Nat) (g : SbusPort → SbusPort) : (s.onPort p g).vxc = s.vxc := rfl
@[simp] theorem State.onPort_nvmc (s : State) (p : Nat) (g : SbusPort → SbusPort) : (s.onPort p g).nvmc = s.nvmc := rfl
@[simp] theorem State.onPort_nv (s : State) (p : Nat) (g : SbusPort → SbusPort) : (s.onPort p g).nv = s.nv := rfl
@[simp] theorem State.onPort_mem (s : State) (p : Nat) (g : SbusPort → SbusPort) : (s.onPort p g).mem = s.mem := rfl

/-! ## onNet -/

@[simp] theorem State.onNet_pending (s : State) (g : Net → Net) : (s.onNet g).pending = s.pending := rfl
@[simp] theorem State.onNet_out (s : State) (g : Net → Net) : (s.onNet g).out = s.out := rfl
@[simp] theorem State.onNet_fresh (s : State) (g : Net → Net) : (s.onNet g).fresh = s.fresh := rfl
@[simp] theorem State.onNet_now (s : State) (g : Net → Net) : (s.onNet g).now = s.now := rfl
@[simp] theorem State.onNet_order (s : State) (g : Net → Net) : (s.onNet g).order = s.order := rfl
@[simp] theorem State.onNet_pow (s : State) (g : Net → Net) : (s.onNet g).pow = s.pow := rfl
@[simp] theorem State.onNet_jnc (s : State) (g : Net → Net) : (s.onNet g).jnc = s.jnc := rfl
@[simp] theorem State.onNet_tb (s : State) (g : Net → Net) : (s.onNet g).tb = s.tb := rfl
@[simp] theorem State.onNet_acts (s : State) (g : Net → Net) : (s.onNet g).acts = s.acts := rfl
@[simp] theorem State.onNet_dspFrames (s : State) (g : Net → Net) : (s.onNet g).dspFrames = s.dspFrames := rfl
@[simp] theorem State.onNet_joinRefused (s : State) (g : Net → Net) : (s.onNet g).joinRefused = s.joinRefused := rfl
@[simp] theorem State.onNet_wtx (s : State) (g : Net → Net) : (s.onNet g).wtx = s.wtx := rfl
@[simp] theorem State.onNet_rx (s : State) (g : Net → Net) : (s.onNet g).rx = s.rx := rfl
@[simp] theorem State.onNet_fdr (s : State) (g : Net → Net) : (s.onNet g).fdr = s.fdr := rfl
@[simp] theorem State.onNet_nodes (s : State) (g : Net → Net) : (s.onNet g).nodes = s.nodes := rfl
@[simp] theorem State.onNet_sil (s : State) (g : Net → Net) : (s.onNet g).sil = s.sil := rfl
@[simp] theorem State.onNet_sched (s : State) (g : Net → Net) : (s.onNet g).sched = s.sched := rfl
@[simp] theorem State.onNet_meter (s : State) (g : Net → Net) : (s.onNet g).meter = s.meter := rfl
@[simp] theorem State.onNet_accord (s : State) (g : Net → Net) : (s.onNet g).accord = s.accord := rfl
@[simp] theorem State.onNet_blot (s : State) (g : Net → Net) : (s.onNet g).blot = s.blot := rfl
@[simp] theorem State.onNet_sign (s : State) (g : Net → Net) : (s.onNet g).sign = s.sign := rfl
@[simp] theorem State.onNet_sbus (s : State) (g : Net → Net) : (s.onNet g).sbus = s.sbus := rfl
@[simp] theorem State.onNet_remSwaps (s : State) (g : Net → Net) : (s.onNet g).remSwaps = s.remSwaps := rfl
@[simp] theorem State.onNet_net (s : State) (g : Net → Net) : (s.onNet g).net = g s.net := rfl
@[simp] theorem State.onNet_rtc (s : State) (g : Net → Net) : (s.onNet g).rtc = s.rtc := rfl
@[simp] theorem State.onNet_bk (s : State) (g : Net → Net) : (s.onNet g).bk = s.bk := rfl
@[simp] theorem State.onNet_keys (s : State) (g : Net → Net) : (s.onNet g).keys = s.keys := rfl
@[simp] theorem State.onNet_ev (s : State) (g : Net → Net) : (s.onNet g).ev = s.ev := rfl
@[simp] theorem State.onNet_vxc (s : State) (g : Net → Net) : (s.onNet g).vxc = s.vxc := rfl
@[simp] theorem State.onNet_nvmc (s : State) (g : Net → Net) : (s.onNet g).nvmc = s.nvmc := rfl
@[simp] theorem State.onNet_nv (s : State) (g : Net → Net) : (s.onNet g).nv = s.nv := rfl
@[simp] theorem State.onNet_mem (s : State) (g : Net → Net) : (s.onNet g).mem = s.mem := rfl

/-! ## onEv -/

@[simp] theorem State.onEv_pending (s : State) (g : Intake → Intake) : (s.onEv g).pending = s.pending := rfl
@[simp] theorem State.onEv_out (s : State) (g : Intake → Intake) : (s.onEv g).out = s.out := rfl
@[simp] theorem State.onEv_fresh (s : State) (g : Intake → Intake) : (s.onEv g).fresh = s.fresh := rfl
@[simp] theorem State.onEv_now (s : State) (g : Intake → Intake) : (s.onEv g).now = s.now := rfl
@[simp] theorem State.onEv_order (s : State) (g : Intake → Intake) : (s.onEv g).order = s.order := rfl
@[simp] theorem State.onEv_pow (s : State) (g : Intake → Intake) : (s.onEv g).pow = s.pow := rfl
@[simp] theorem State.onEv_jnc (s : State) (g : Intake → Intake) : (s.onEv g).jnc = s.jnc := rfl
@[simp] theorem State.onEv_tb (s : State) (g : Intake → Intake) : (s.onEv g).tb = s.tb := rfl
@[simp] theorem State.onEv_acts (s : State) (g : Intake → Intake) : (s.onEv g).acts = s.acts := rfl
@[simp] theorem State.onEv_dspFrames (s : State) (g : Intake → Intake) : (s.onEv g).dspFrames = s.dspFrames := rfl
@[simp] theorem State.onEv_joinRefused (s : State) (g : Intake → Intake) : (s.onEv g).joinRefused = s.joinRefused := rfl
@[simp] theorem State.onEv_wtx (s : State) (g : Intake → Intake) : (s.onEv g).wtx = s.wtx := rfl
@[simp] theorem State.onEv_rx (s : State) (g : Intake → Intake) : (s.onEv g).rx = s.rx := rfl
@[simp] theorem State.onEv_fdr (s : State) (g : Intake → Intake) : (s.onEv g).fdr = s.fdr := rfl
@[simp] theorem State.onEv_nodes (s : State) (g : Intake → Intake) : (s.onEv g).nodes = s.nodes := rfl
@[simp] theorem State.onEv_sil (s : State) (g : Intake → Intake) : (s.onEv g).sil = s.sil := rfl
@[simp] theorem State.onEv_sched (s : State) (g : Intake → Intake) : (s.onEv g).sched = s.sched := rfl
@[simp] theorem State.onEv_meter (s : State) (g : Intake → Intake) : (s.onEv g).meter = s.meter := rfl
@[simp] theorem State.onEv_accord (s : State) (g : Intake → Intake) : (s.onEv g).accord = s.accord := rfl
@[simp] theorem State.onEv_blot (s : State) (g : Intake → Intake) : (s.onEv g).blot = s.blot := rfl
@[simp] theorem State.onEv_sign (s : State) (g : Intake → Intake) : (s.onEv g).sign = s.sign := rfl
@[simp] theorem State.onEv_sbus (s : State) (g : Intake → Intake) : (s.onEv g).sbus = s.sbus := rfl
@[simp] theorem State.onEv_remSwaps (s : State) (g : Intake → Intake) : (s.onEv g).remSwaps = s.remSwaps := rfl
@[simp] theorem State.onEv_net (s : State) (g : Intake → Intake) : (s.onEv g).net = s.net := rfl
@[simp] theorem State.onEv_rtc (s : State) (g : Intake → Intake) : (s.onEv g).rtc = s.rtc := rfl
@[simp] theorem State.onEv_bk (s : State) (g : Intake → Intake) : (s.onEv g).bk = s.bk := rfl
@[simp] theorem State.onEv_keys (s : State) (g : Intake → Intake) : (s.onEv g).keys = s.keys := rfl
@[simp] theorem State.onEv_ev (s : State) (g : Intake → Intake) : (s.onEv g).ev = g s.ev := rfl
@[simp] theorem State.onEv_vxc (s : State) (g : Intake → Intake) : (s.onEv g).vxc = s.vxc := rfl
@[simp] theorem State.onEv_nvmc (s : State) (g : Intake → Intake) : (s.onEv g).nvmc = s.nvmc := rfl
@[simp] theorem State.onEv_nv (s : State) (g : Intake → Intake) : (s.onEv g).nv = s.nv := rfl
@[simp] theorem State.onEv_mem (s : State) (g : Intake → Intake) : (s.onEv g).mem = s.mem := rfl

/-! ## onUpd -/

@[simp] theorem State.onUpd_pending (s : State) (g : Decant → Decant) : (s.onUpd g).pending = s.pending := rfl
@[simp] theorem State.onUpd_out (s : State) (g : Decant → Decant) : (s.onUpd g).out = s.out := rfl
@[simp] theorem State.onUpd_fresh (s : State) (g : Decant → Decant) : (s.onUpd g).fresh = s.fresh := rfl
@[simp] theorem State.onUpd_now (s : State) (g : Decant → Decant) : (s.onUpd g).now = s.now := rfl
@[simp] theorem State.onUpd_order (s : State) (g : Decant → Decant) : (s.onUpd g).order = s.order := rfl
@[simp] theorem State.onUpd_pow (s : State) (g : Decant → Decant) : (s.onUpd g).pow = s.pow := rfl
@[simp] theorem State.onUpd_jnc (s : State) (g : Decant → Decant) : (s.onUpd g).jnc = s.jnc := rfl
@[simp] theorem State.onUpd_tb (s : State) (g : Decant → Decant) : (s.onUpd g).tb = s.tb := rfl
@[simp] theorem State.onUpd_acts (s : State) (g : Decant → Decant) : (s.onUpd g).acts = s.acts := rfl
@[simp] theorem State.onUpd_dspFrames (s : State) (g : Decant → Decant) : (s.onUpd g).dspFrames = s.dspFrames := rfl
@[simp] theorem State.onUpd_joinRefused (s : State) (g : Decant → Decant) : (s.onUpd g).joinRefused = s.joinRefused := rfl
@[simp] theorem State.onUpd_wtx (s : State) (g : Decant → Decant) : (s.onUpd g).wtx = s.wtx := rfl
@[simp] theorem State.onUpd_rx (s : State) (g : Decant → Decant) : (s.onUpd g).rx = s.rx := rfl
@[simp] theorem State.onUpd_fdr (s : State) (g : Decant → Decant) : (s.onUpd g).fdr = s.fdr := rfl
@[simp] theorem State.onUpd_nodes (s : State) (g : Decant → Decant) : (s.onUpd g).nodes = s.nodes := rfl
@[simp] theorem State.onUpd_sil (s : State) (g : Decant → Decant) : (s.onUpd g).sil = s.sil := rfl
@[simp] theorem State.onUpd_sched (s : State) (g : Decant → Decant) : (s.onUpd g).sched = s.sched := rfl
@[simp] theorem State.onUpd_meter (s : State) (g : Decant → Decant) : (s.onUpd g).meter = s.meter := rfl
@[simp] theorem State.onUpd_accord (s : State) (g : Decant → Decant) : (s.onUpd g).accord = s.accord := rfl
@[simp] theorem State.onUpd_blot (s : State) (g : Decant → Decant) : (s.onUpd g).blot = s.blot := rfl
@[simp] theorem State.onUpd_sign (s : State) (g : Decant → Decant) : (s.onUpd g).sign = s.sign := rfl
@[simp] theorem State.onUpd_sbus (s : State) (g : Decant → Decant) : (s.onUpd g).sbus = s.sbus := rfl
@[simp] theorem State.onUpd_remSwaps (s : State) (g : Decant → Decant) : (s.onUpd g).remSwaps = s.remSwaps := rfl
@[simp] theorem State.onUpd_net (s : State) (g : Decant → Decant) : (s.onUpd g).net = s.net := rfl
@[simp] theorem State.onUpd_rtc (s : State) (g : Decant → Decant) : (s.onUpd g).rtc = s.rtc := rfl
@[simp] theorem State.onUpd_bk (s : State) (g : Decant → Decant) : (s.onUpd g).bk = s.bk := rfl
@[simp] theorem State.onUpd_keys (s : State) (g : Decant → Decant) : (s.onUpd g).keys = s.keys := rfl
@[simp] theorem State.onUpd_ev (s : State) (g : Decant → Decant) : (s.onUpd g).ev = s.ev := rfl
@[simp] theorem State.onUpd_vxc (s : State) (g : Decant → Decant) : (s.onUpd g).vxc = s.vxc := rfl
@[simp] theorem State.onUpd_nvmc (s : State) (g : Decant → Decant) : (s.onUpd g).nvmc = s.nvmc := rfl
@[simp] theorem State.onUpd_nv (s : State) (g : Decant → Decant) : (s.onUpd g).nv = { s.nv with upd := g s.nv.upd } := rfl
@[simp] theorem State.onUpd_mem (s : State) (g : Decant → Decant) : (s.onUpd g).mem = s.mem := rfl

/-! ## Entries after an update -/

theorem State.onFeeder_same (s : State) (f : Nat) (g : Feeder → Feeder) (h : twf {} s.fdr = true) :
    (s.onFeeder f g).feeder f = g (s.feeder f) := tget_tmod_same f g h

theorem State.onFeeder_ne (s : State) {f k : Nat} (g : Feeder → Feeder) (h : twf {} s.fdr = true) (hk : k ≠ f) :
    (s.onFeeder f g).feeder k = s.feeder k := tget_tmod_ne g h hk

theorem State.onNode_same (s : State) (a : Nat) (g : NodeDyn → NodeDyn) (h : twf {} s.nodes = true) :
    (s.onNode a g).node a = g (s.node a) := tget_tmod_same a g h

theorem State.onNode_ne (s : State) {a k : Nat} (g : NodeDyn → NodeDyn) (h : twf {} s.nodes = true) (hk : k ≠ a) :
    (s.onNode a g).node k = s.node k := tget_tmod_ne g h hk

theorem State.onNcfg_same (s : State) (a : Nat) (g : NodeCfg → NodeCfg) (h : twf {} s.nv.nodes = true) :
    (s.onNcfg a g).ncfg a = g (s.ncfg a) := tget_tmod_same a g h

theorem State.onNcfg_ne (s : State) {a k : Nat} (g : NodeCfg → NodeCfg) (h : twf {} s.nv.nodes = true) (hk : k ≠ a) :
    (s.onNcfg a g).ncfg k = s.ncfg k := tget_tmod_ne g h hk

theorem State.onRx_same (s : State) (f : Nat) (g : RxPath → RxPath) (h : twf {} s.rx = true) : (s.onRx f g).rxp f = g (s.rxp f) :=
  tget_tmod_same f g h

theorem State.onPort_same (s : State) (p : Nat) (g : SbusPort → SbusPort) (h : twf {} s.sbus = true) : (s.onPort p g).port p = g (s.port p) :=
  tget_tmod_same p g h

theorem find_onSession {l : List Session} {i j : Nat} (g : Session → Session) (hg : ∀ y, (g y).id = y.id) :
    (l.map (fun x => if x.id == i then g x else x)).find? (fun x => x.id == j) =
      (l.find? (fun x => x.id == j)).map (fun x => if x.id == i then g x else x) := by
  rw [List.find?_map]
  congr 1
  congr 1
  funext x
  by_cases h : x.id = i <;> simp [h, hg]

/-- A session after a change of it that keeps its identifier. -/
theorem State.onSession_same (s : State) {x : Session} {i : Nat} (g : Session → Session) (hg : ∀ y, (g y).id = y.id)
    (h : s.session i = some x) : (s.onSession i g).session i = some (g x) := by
  have hx : x.id == i := List.find?_some (p := fun y : Session => y.id == i) h
  simp only [State.session, State.onSession, find_onSession g hg]
  rw [show s.vxc.sessions.find? (fun y => y.id == i) = some x from h]
  have hi : x.id = i := by simpa using hx
  simp [hi]

/-- Another session after a change of one. -/
theorem State.onSession_ne (s : State) {i j : Nat} (g : Session → Session) (hg : ∀ y, (g y).id = y.id) (hj : j ≠ i) :
    (s.onSession i g).session j = s.session j := by
  simp only [State.session, State.onSession, find_onSession g hg]
  cases h : s.vxc.sessions.find? (fun y => y.id == j) with
  | none => rfl
  | some x =>
    have hx : x.id = j := by simpa using List.find?_some h
    simp [hx, hj]

end Sys2Proof.Machine
end

