-- ==== Sys2Proof/WellFormed.lean ====
section
/-!
DEFINITION. Well-formed commands: every operand within the width of the field that carries it (11_command_reference,
tables of commands), every index within the units the chip has. What the module itself refuses (RANGE and the rest) is no
matter of form and is judged by exec; exec is total and does not read these checks.
-/
namespace Sys2Proof

/-- Every value fits its number of bytes: (bytes, value). -/
def fits (l : List (Nat × Nat)) : Bool := l.all (fun e => decide (e.2 < 256 ^ e.1))

/-- Every value lies below its bound: (bound, value). -/
def below (l : List (Nat × Nat)) : Bool := l.all (fun e => decide (e.2 < e.1))

/-- A list of bytes of at most `n`. -/
def bytesOk (n : Nat) (l : List Nat) : Bool := decide (l.length ≤ n) && l.all (fun b => decide (b < 256))

/-- The damage of a codeword names symbols below 21 and errors of a byte (17 R512). -/
def damageOk (d : Damage) : Bool := d.all (fun e => decide (e.1 < 21 ∧ e.2 < 256))

/-- A count of items of a list that its field gives as a range. -/
def lenIn {α : Type} (lo hi : Nat) (l : List α) : Bool := decide (lo ≤ l.length ∧ l.length ≤ hi)

/-- What a frame carries fits its fields, and its port exists (12 R381, R385, R387). -/
def Arrival.wf (a : Arrival) : Bool :=
  below [(2, a.port), (4096, a.vid.getD 0), (16, (a.trailer.getD (0, 0)).1)] && fits [(6, a.src), (2, a.len), (2, (a.trailer.getD (0, 0)).2)]

/-- The fields of a request fit the message's fields, and its frame those of a frame (10, table "VXC message"). -/
def Req.wf (r : Req) : Bool :=
  fits [(2, r.cmd), (2, r.len), (4, r.ses), (4, r.seq), (2, r.status), (16, r.tag), (4, r.ip), (2, r.port), (2, r.dport)]
    && bytesOk 65535 r.payload && r.via.wf

/-- A signed value fits `n` bytes. -/
def signedFits (n : Nat) (v : Int) : Bool := decide (-(256 ^ n : Nat) ≤ 2 * v ∧ 2 * v < (256 ^ n : Nat))

/-- The site parameters fit the fields of SITE_WRITE (11, table "SCHED commands"). -/
def Site.wf (s : Site) : Bool :=
  signedFits 4 s.lat && signedFits 4 s.lon && signedFits 2 s.stdOfs
    && fits [(1, s.dstStart.month), (1, s.dstStart.week), (1, s.dstStart.weekday), (2, s.dstStart.minutes),
      (1, s.dstEnd.month), (1, s.dstEnd.week), (1, s.dstEnd.weekday), (2, s.dstEnd.minutes),
      (2, s.defFloor), (2, s.defCeil), (2, s.ntFloor), (2, s.ntCeil)]

/-- A package header fits its fields (15, table "Package header"). -/
def PkgHeader.wf (h : PkgHeader) : Bool :=
  fits [(2, h.hdrLen), (1, h.ncomp), (4, h.version), (1, h.secVer), (32, h.baseHash), (32, h.targetHash), (4, h.pkgLen),
    (32, h.payloadHash)]
  && h.dir.all (fun c => fits [(1, c.type), (4, c.cver), (4, c.length), (32, c.chash), (1, c.pver)]
    && decide (c.ifr.length = 6) && c.ifr.all (fun e => fits [(1, e.1), (1, e.2)]))

/-- Feeder, minislot and node index of an uplink report (04, table "Uplink report, 96 bits"). -/
def Rep.wf (p : Rep) : Bool := below [(8, p.f), (8, p.slot), (2048, p.idx), (16384, p.level.getD 0)]

/-- A sample of a phase: 24 bits of voltage and of current (07 R222). -/
def Sample.wf (x : Sample) : Bool := signedFits 3 x.v && signedFits 3 x.i

/-- A sign-bus response: bytes, LEN at most 240 with STATUS (09 R323). -/
def SbusFrame.wf (f : SbusFrame) : Bool := fits [(1, f.addr), (1, f.cmd), (1, f.seq), (1, f.status)] && bytesOk 239 f.pay

/-- A received frame (12 R385, R389). -/
def EthFrame.wf (f : EthFrame) : Bool :=
  fits [(6, f.src), (2, f.len)] && below [(4096, f.vid.getD 0)] && below [(16, (f.trailer.getD (0, 0)).1), (65536, (f.trailer.getD (0, 0)).2)]

/-- A command is well formed. -/
def Instr.wf : Instr → Bool
  | .sysIdentify r | .sysStatus r | .sysSessionClose r | .sysSessions r | .sysNetRead r => r.wf
  | .sysSessionOpen r _ _ nh epk serial cert certSig _ _ => r.wf && fits [(16, nh), (65, epk), (20, serial), (32, cert.tbs), (64, cert.pub), (64, certSig)]
  | .sysSessionConfirm r sig => r.wf && fits [(64, sig)]
  | .sysSubscribe r _ sev => r.wf && fits [(1, sev)]
  | .sysNotifyRead r first count => r.wf && fits [(4, first), (2, count)]
  | .sysNetSet r ip mask gw vlan => r.wf && fits [(4, ip), (4, mask), (4, gw), (2, vlan)]
  | .sysLifecycle r new chk => r.wf && fits [(1, new), (4, chk)]
  | .timeTbStatus r | .timeRtcRead r | .timePtpRead r => r.wf
  | .timeStampRead r hcn count => r.wf && fits [(6, hcn), (1, count)]
  | .timeTbSet r sel _ => r.wf && fits [(1, sel)]
  | .timeRtcSet r y mo d h mi s dst => r.wf && fits [(2, y), (1, mo), (1, d), (1, h), (1, mi), (1, s), (1, dst)]
  | .timeRtcStep r dir => r.wf && fits [(1, dir)]
  | .timePtpSet r a b c d e => r.wf && fits [(1, a), (1, b), (1, c), (1, d), (1, e)]
  | .linkStatus r => r.wf
  | .linkAttenSet r f v | .linkStageSet r f v => r.wf && fits [(1, f), (1, v)]
  | .nodeRegister r eui wik wikA addr => r.wf && fits [(8, eui), (16, wik), (8, wikA), (2, addr)]
  | .nodeDeregister r eui => r.wf && fits [(8, eui)]
  | .nodeRead r a b => r.wf && fits [(4, a), (2, b)]
  | .nodeGroupsRead r a => r.wf && fits [(2, a)]
  | .nodeGroupSet r a g k v => r.wf && fits [(2, a), (1, g), (1, k), (1, v)]
  | .nodeSceneSet r a k v | .nodeParamSet r a k v => r.wf && fits [(2, a), (1, k), (2, v)]
  | .nodeLevel r g l t => r.wf && fits [(1, g), (2, l), (6, t)]
  | .nodeScene r sc g k t => r.wf && fits [(1, sc), (1, g), (1, k), (6, t)]
  | .nodeOverride r sc k l t e => r.wf && fits [(1, sc), (2, k), (2, l), (6, t), (6, e)]
  | .graphStop r | .graphStatus r => r.wf
  | .graphEdgeWrite r first l => r.wf && fits [(4, first)] && lenIn 1 348 l
  | .graphNodeWrite r first l => r.wf && fits [(2, first)] && lenIn 1 87 l
  | .graphCurveWrite r c l => r.wf && fits [(1, c)] && lenIn 16 16 l
  | .graphSlewWrite r k _ => r.wf && fits [(1, k)]
  | .graphCfgWrite r a b => r.wf && fits [(1, a), (1, b)]
  | .graphRestart r t => r.wf && fits [(6, t)]
  | .graphRead r a b c => r.wf && fits [(4, a), (2, b), (1, c)]
  | .schedWrite r g _ l => r.wf && fits [(1, g)] && lenIn 0 255 l
  | .schedRead r g | .schedHolRead r g => r.wf && fits [(1, g)]
  | .schedHolWrite r c l => r.wf && fits [(1, c)] && lenIn 0 255 l
  | .schedSiteWrite r s => r.wf && s.wf
  | .schedSiteRead r | .schedSunRead r _ => r.wf
  | .schedLimitsRead r a => r.wf && fits [(2, a)]
  | .meterInputSet r t i _ l => r.wf && fits [(6, t), (1, i)] && lenIn 16 16 l
  | .meterGlobalSet r t a b c d => r.wf && fits [(6, t), (4, a), (4, b), (1, c), (2, d)]
  | .meterPulseSet r t o q _ c => r.wf && fits [(6, t), (1, o), (1, q), (4, c)]
  | .meterCfgRead r k => r.wf && fits [(1, k)]
  | .meterRecordRead r f h c => r.wf && fits [(1, f), (6, h), (1, c)]
  | .meterSubscribe r _ n => r.wf && fits [(2, n)]
  | .meterSnapshot r t | .accordSnapshot r t => r.wf && fits [(6, t)]
  | .meterSnapRead r a b | .meterAccRead r a b => r.wf && fits [(4, a), (2, b)]
  | .meterGapRead r | .meterSatClear r _ | .meterStatus r => r.wf
  | .meterCalibrate r i => r.wf && fits [(1, i)]
  | .accordModelSet r t first l => r.wf && fits [(6, t), (2, first)] && lenIn 1 173 l
  | .accordDefaultSet r _ | .accordStatus r => r.wf
  | .accordModelRead r a b | .accordAccountRead r a b | .accordPhaseRead r a b => r.wf && fits [(4, a), (2, b)]
  | .accordSnapRead r a b c => r.wf && fits [(4, a), (2, b), (1, c)]
  | .accordCfgSet r a b => r.wf && fits [(2, a), (1, b)]
  | .blotterRequest r a d t => r.wf && fits [(2, a), (2, d), (6, t)]
  | .blotterCancel r k => r.wf && fits [(4, k)]
  | .blotterResultRead r m k c => r.wf && fits [(1, m), (4, k), (1, c)]
  | .blotterNodeRead r a b => r.wf && fits [(4, a), (2, b)]
  | .blotterClear r a => r.wf && fits [(2, a)]
  | .blotterCfgSet r _ _ | .blotterStatus r => r.wf
  | .signWrite r d a o l => r.wf && fits [(1, d), (1, a), (2, o)] && bytesOk 1396 l
  | .signSwap r m t _ l => r.wf && fits [(1, m), (6, t)] && decide (l.length < 256) && l.all (fun e => fits [(1, e.1), (1, e.2)])
  | .signCfgSet r _ g => r.wf && fits [(1, g)]
  | .signTrimSet r first l => r.wf && fits [(1, first)] && bytesOk 255 l
  | .signPopSet r row _ => r.wf && fits [(1, row)]
  | .signDefaultSet r o _ l => r.wf && fits [(2, o)] && bytesOk 1397 l
  | .signStatus r | .signColsRead r => r.wf
  | .signFaultRead r row => r.wf && fits [(1, row)]
  | .signBus r p a c l => r.wf && fits [(1, p), (1, a), (1, c)] && bytesOk 1397 l
  | .signCellSet r a b => r.wf && fits [(1, a), (1, b)]
  | .keySlotRead r | .keyDenyRead r | .keyTamperRead r => r.wf
  | .keyOperatorSet r pub sigFst sigSnd => r.wf && fits [(64, pub), (32, sigFst), (32, sigSnd)]
  | .keyLoad r k _ wkey wkeyA => r.wf && fits [(1, k), (32, wkey), (8, wkeyA)]
  | .keyGenerate r k _ | .keyInvalidate r k => r.wf && fits [(1, k)]
  | .keyCommit r k v => r.wf && fits [(1, k), (3, v)]
  | .keyRollover r f t => r.wf && fits [(1, f), (6, t)]
  | .keyRollRead r f => r.wf && fits [(1, f)]
  | .keyDenySet r l => r.wf && decide (l.length < 256) && l.all (fun x => fits [(20, x)])
  | .keyTamperSet r a b => r.wf && fits [(1, a), (1, b)]
  | .keyTamperAck r i => r.wf && fits [(1, i)]
  | .updHeader r h sig => r.wf && h.wf && fits [(64, sig)]
  | .updBlock r o l => r.wf && fits [(4, o)] && bytesOk 1024 l
  | .updBitmap r a b => r.wf && fits [(4, a), (2, b)]
  | .updActivate r t _ => r.wf && fits [(6, t)]
  | .updConfirm r | .updAbort r | .updStatus r => r.wf
  | .updNodeActivate r i g t => r.wf && fits [(1, i), (1, g), (6, t)]
  | .updNodeStatus r a b i => r.wf && fits [(4, a), (2, b), (1, i)]
  | .logRead r a s c v k => r.wf && fits [(1, a), (4, s), (1, c), (1, v), (2, k)]
  | .logClear r | .logStatus r => r.wf
  | .logRateSet r c v => r.wf && fits [(2, c), (2, v)]
  | .memRead r a w n f _ => r.wf && fits [(4, a), (1, w), (2, n)] && f.all (fun e => fits [(4, e.1)] && damageOk e.2)
  | .memWrite r a w l f _ => r.wf && fits [(4, a), (1, w)] && bytesOk 1024 l && f.all (fun e => fits [(4, e.1)] && damageOk e.2)
  | .testSelftest r k i _ d => r.wf && fits [(1, k), (1, i), (8, d)]
  | .testReturn r k i _ | .testRetire r k i => r.wf && fits [(1, k), (1, i)]
  | .testReserves r => r.wf
  | .testRestart r t => r.wf && fits [(1, t)]
  | .testWearSet r k t => r.wf && fits [(1, k), (4, t)]
  | .registerWrite _ _ a _ => fits [(4, a)] && decide (a % 4 = 0)
  | .rcCounterRead _ _ a _ => fits [(4, a)] && decide (a % 4 = 0)
  | .jncHcnLoRead .. | .dbSetWrite .. => true
  | .evtinPortPush _ _ c s l => fits [(2, c), (4, s)] && bytesOk 32 l
  | .eventLineEntry _ b c k l => fits [(1, b), (2, c)] && below [(4096, k)] && bytesOk 32 l
  | .eventRecordWrite _ | .logClearEraseDone _ => true
  | .tokenRefill _ c => fits [(2, c)]
  | .voterDisagree _ _ p _ => below [(4, p)]
  | .regionRestart .. | .regionResume .. | .chipFault _ => true
  | .zeroCrossing .. | .setBCrossing .. | .hcnEdge .. | .virtualEdge _ | .lockStepTimeout _ => true
  | .blockClose _ f | .frameBurstStart _ f | .linkInactive50 _ f | .echoFailure _ f | .extFaultClear _ f => below [(8, f)]
  | .uplinkBurstDecoded _ f s t i _ _ v => below [(8, f), (8, s), (16, t), (2048, i)] && fits [(1, v)]
  | .presRise p a b _ => p.wf && fits [(1, a), (1, b)]
  | .presFall p l => p.wf && fits [(2, l)]
  | .daylight p x _ _ t => p.wf && fits [(2, x), (1, t)]
  | .statusReport p _ v w => p.wf && fits [(1, v), (2, w)]
  | .ack p o v k => p.wf && fits [(1, o), (1, v), (2, k)]
  | .imgStatus p i s m f => p.wf && fits [(1, i), (1, s), (2, m), (2, f)]
  | .joinReq _ f a b l => below [(8, f)] && fits [(4, a), (4, b)] && l.all (fun x => fits [(8, x)])
  | .quarantineEnd _ a | .presTimeout _ a | .daylightTimeout _ a | .nodeKeyResend _ a | .probeAckTimeout _ a | .autoSweepDue _ a =>
    below [(16384, a)]
  | .backgroundResend _ f _ => below [(8, f)]
  | .stageLoadCheck _ k _ _ _ => below [(9, k)]
  | .spareStageCheck _ | .sillagePass _ | .passCommit .. | .sillageAutoRestart _ | .finalConversion _ | .dstStepIssue _ => true
  | .meterRecordComplete _ f l _ => below [(8, f)] && lenIn 3 3 l && l.all (fun p => p.all Sample.wf)
  | .pulseStart _ o | .pulseEnd _ o => below [(2, o)]
  | .meterSnapshotComplete _ | .periodicSave _ | .periodicSaveDone _ => true
  | .converterFailure _ c => below [(32, c)]
  | .spareDwellEnd _ c l => below [(32, c)] && lenIn 0 64 l && fits (l.map (fun v => (4, v)))
  | .calibrationDue _ i => below [(30, i)]
  | .calibrationStep _ _ o g => signedFits 2 o && signedFits 2 g
  | .calibrateStartTimeout _ | .levelSnapshotCopy _ | .modelTableStore _ => true
  | .accordAttribution _ f => below [(8, f)]
  | .windowCorrelate _ x => below [(24, x)]
  | .requestRetry _ k | .requestDeadline _ k => fits [(4, k)]
  | .scanSyncEvent _ | .signSyncEdge _ | .signSyncLost _ | .rowSlotStart _ | .swapBoundary _ | .backCopyDone _ | .sbusSyncSend _ => true
  | .ledMeasure _ _ l => l.all (fun e => below [(50, e.col)])
  | .cellFailure _ l => l.all (fun c => below [(50, c)])
  | .sinkCellTest _ c _ => below [(50, c)]
  | .sbusTransaction _ p | .sbusResponseTimeout _ p | .sbusEchoMismatch _ p => below [(4, p)]
  | .sbusResponse _ p f => below [(4, p)] && f.wf
  | .sessionConfirmTimeout _ k | .sessionIdleTimeout _ k | .notificationRelease _ k => fits [(4, k)]
  | .usbBusReset _ => true
  | .ethFrameRx _ p f => below [(2, p)] && f.wf
  | .arpRequest _ p ip => p.wf && fits [(4, ip)]
  | .icmpEchoRequest _ p => p.wf
  | .ethLinkDown _ p => below [(2, p)]
  | .ethLinkUp _ p v => below [(2, p), (4, v)]
  | .prpSupervisionTx _ | .rtcHourlyCheck _ => true
  | .ptpSyncRx _ p d q _ _ e _ _ => p.wf && fits [(1, d), (2, q)] && decide (e.natAbs ≤ 12)
  | .ptpFollowUpRx _ p d q _ _ | .ptpDelayRespRx _ p d q _ _ _ => p.wf && fits [(1, d), (2, q)]
  | .ptpDelayReqTx _ p d k e => below [(2, p)] && fits [(1, d)] && decide (k.natAbs ≤ 30 ∧ e.natAbs ≤ 12)
  | .ptpAnnounceRx _ p d m _ _ _ _ => p.wf && fits [(1, d), (8, m)]
  | .ptpPdelayReqRx _ p _ q _ _ => p.wf && fits [(2, q)]
  | .ptpPdelayRespRx _ p q e _ => p.wf && fits [(2, q)] && decide (e.natAbs ≤ 12)
  | .ptpSourceLost _ k | .ptpSourceReturn _ k => below [(4, k)]
  | .ptpAdjWrite _ _ v => signedFits 8 v
  | .ptpIncrWrite _ _ v => fits [(5, v)]
  | .ptpTimeNsRead .. | .rtcYearRead .. | .rtcFreezeTimeout _ | .rtcSecsWrite .. | .rtcSetApply _ | .stepFwd .. | .stepBack ..
  | .rtcStepApply _ | .rtcCalendarWrap _ | .backupSwitchVbat _ | .backupSwitchRail _ | .rtcValidLoss _ | .tamperAssert ..
  | .tamperRearm .. => true
  | .rtcBlockRead _ _ o | .rtcFieldWrite _ _ o _ => below [(65536, o)]
  | .tlogAck _ _ n => below [(16, n)]
  | .twinExpiry _ k => below [(64, k)]
  | .stagingEraseDone _ | .payloadVerifyDone .. | .reconstructionDone .. | .switchRunTimeout _ | .trialMinute _ => true
  | .nodeImageRoundEnd _ f => below [(8, f)]
  | .scrubVisit _ m d => below [(130, m)] && damageOk d
  | .mramScrubPass _ a b => a.all (fun k => below [(524288, k)]) && b.all (fun k => below [(524288, k)])
  | .dmaStart _ _ c | .dmaAbort _ _ c | .dmaRequest _ _ c | .dmaPeriphReset _ _ c _ | .dmaDescEnd _ _ c => below [(20, c)]
  | .dmaBurstDone _ _ c l f _ => below [(20, c)] && bytesOk 256 l && f.all (fun e => fits [(4, e.1)] && damageOk e.2)
  | .ageMinute _ | .supplyFail _ | .finalSaveComplete _ | .rtcifIsolate _ | .supplyCycleReset _ | .rstNLow .. | .bootRomDone ..
  | .mImageLoaded _ | .keyStoreReady _ | .cdImagesLoaded .. | .restoreStep _ | .lifecycleWipeDone _ | .vinReturn _ | .holdupEnd _ => true
  | .resetRelease _ v b _ _ => below [(4096, v), (1024, b)]
  | .unlistedCmdRequest r c => r.wf && fits [(2, c)]
  | .uplinkMinislotEnd _ f s _ n => below [(8, f), (8, s)] && fits [(1, n)]

end Sys2Proof
end

