-- ==== Sys2Proof/Safety.lean ====
section
/-!
DEFINITION. The vocabulary of the statements: when a host request reaches its command's own rules and what its answer
makes of the state, and the invariants that every command keeps.
-/
namespace Sys2Proof.Machine

/-! ## Requests of an open session (10 R335-R344) -/

/-- The message is VXC's and is whole: the M-region hears it, it comes up from its port (any USB transfer; over UDP a datagram that is
accepted, finds room and is no duplicate), and no rule of its form is broken (10 R332-R335; 12 R384-R389). -/
abbrev Heard (s : State) (r : Req) : Prop :=
  (s.tick r.dt).deaf r = false ∧ ((s.tick r.dt).arrived r).1 = true ∧ malformed r = none

/-- It names session `x`, over the session's transport and from its source, with a TAG that checks and a SEQ that is new (10 R335, R336, R341,
R342). -/
abbrev InSession (s : State) (r : Req) (x : Session) : Prop :=
  r.ses ≠ 0 ∧ s.session r.ses = some x ∧ x.usb = r.usb ∧ (r.usb = true ∨ r.ip = x.ip) ∧ x.tagOk r = true ∧ noTag r = false
    ∧ x.seqVerdict r.seq = .fresh

/-- The request passes every rule that stands before its command's own: it is heard in an open session `x` that holds the privilege and has fewer than
eight requests outstanding, and LEN fits (10 R335, R339-R343; 11 R352). -/
abbrev Served (s : State) (r : Req) (x : Session) (need : Priv) : Prop :=
  Heard s r ∧ InSession s r x ∧ x.halfOpen = false ∧ x.outst.length < 8 ∧ need.ok x.priv = true ∧ r.lenOk = true

/-- The state in which a heard message is looked at: time has passed, and its frame has come up from its port (12 R386, R389). -/
def State.heardAt (s : State) (r : Req) : State := ((s.tick r.dt).arrived r).2

/-- The state in which the command's own rules look at the request: the session has been heard from and its request SEQ is taken (10 R340,
R342). -/
def State.taken (s : State) (r : Req) (x : Session) : State :=
  let t := s.heardAt r
  (t.onSession x.id (fun y => y.heard r t.now)).onSession x.id (fun y => y.accept r.seq)

/-- The state once the answer has gone out (10 R342, R344), and the session's end if its SEQ is used up (R340). -/
def State.answered (t : State) (r : Req) (x : Session) (cmd : Nat) (st : Status) (pay : Payload) : State :=
  (t.respond x.id ⟨r.seq, cmd, st, pay⟩).seqLimit r

/-- Who a served request is answered to. -/
def Session.who (x : Session) (r : Req) : Who := ⟨x.id, r.seq⟩

/-- The state after a request has been held for a later answer (10 R343). -/
def State.held (t : State) (r : Req) (x : Session) (cmd : Nat) : State :=
  (t.onSession x.id (fun y => { y with outst := y.outst ++ [(r.seq, cmd, r.port)] })).seqLimit r

/-- The host rows as the tables of 11_command_reference list them: the request, CMD, privilege, and whether the command belongs to
the unauthenticated subset. The two messages that open a session (10 R337) and the rows that are events have none. -/
def hostRow : Instr → Option (Req × CmdSpec)
  | .sysIdentify r => some (r, ⟨0x0101, .read, true⟩)
  | .sysStatus r => some (r, ⟨0x0102, .read, true⟩)
  | .sysSessionClose r => some (r, ⟨0x0105, .anyone, false⟩)
  | .sysSubscribe r _ _ => some (r, ⟨0x0106, .read, false⟩)
  | .sysNotifyRead r _ _ => some (r, ⟨0x0107, .read, false⟩)
  | .sysSessions r => some (r, ⟨0x0108, .read, false⟩)
  | .sysNetSet r _ _ _ _ => some (r, ⟨0x0109, .configure, false⟩)
  | .sysNetRead r => some (r, ⟨0x010A, .read, false⟩)
  | .sysLifecycle r _ _ => some (r, ⟨0x010B, .lifecycle, false⟩)
  | .timeTbStatus r => some (r, ⟨0x0201, .read, true⟩)
  | .timeStampRead r _ _ => some (r, ⟨0x0202, .read, false⟩)
  | .timeTbSet r _ _ => some (r, ⟨0x0203, .configure, false⟩)
  | .timeRtcRead r => some (r, ⟨0x0204, .read, false⟩)
  | .timeRtcSet r _ _ _ _ _ _ _ => some (r, ⟨0x0205, .configure, false⟩)
  | .timeRtcStep r _ => some (r, ⟨0x0206, .configure, false⟩)
  | .timePtpSet r _ _ _ _ _ => some (r, ⟨0x0207, .configure, false⟩)
  | .timePtpRead r => some (r, ⟨0x0208, .read, false⟩)
  | .linkStatus r => some (r, ⟨0x0301, .read, false⟩)
  | .linkAttenSet r _ _ => some (r, ⟨0x0302, .configure, false⟩)
  | .linkStageSet r _ _ => some (r, ⟨0x0303, .configure, false⟩)
  | .nodeRegister r _ _ _ _ => some (r, ⟨0x0401, .configure, false⟩)
  | .nodeDeregister r _ => some (r, ⟨0x0402, .configure, false⟩)
  | .nodeRead r _ _ => some (r, ⟨0x0403, .read, false⟩)
  | .nodeGroupsRead r _ => some (r, ⟨0x0404, .read, false⟩)
  | .nodeGroupSet r _ _ _ _ => some (r, ⟨0x0405, .configure, false⟩)
  | .nodeSceneSet r _ _ _ => some (r, ⟨0x0406, .configure, false⟩)
  | .nodeParamSet r _ _ _ => some (r, ⟨0x0407, .configure, false⟩)
  | .nodeLevel r _ _ _ => some (r, ⟨0x0408, .operate, false⟩)
  | .nodeScene r _ _ _ _ => some (r, ⟨0x0409, .operate, false⟩)
  | .nodeOverride r _ _ _ _ _ => some (r, ⟨0x040A, .operate, false⟩)
  | .graphStop r => some (r, ⟨0x0501, .configure, false⟩)
  | .graphEdgeWrite r _ _ => some (r, ⟨0x0502, .configure, false⟩)
  | .graphNodeWrite r _ _ => some (r, ⟨0x0503, .configure, false⟩)
  | .graphCurveWrite r _ _ => some (r, ⟨0x0504, .configure, false⟩)
  | .graphSlewWrite r _ _ => some (r, ⟨0x0505, .configure, false⟩)
  | .graphCfgWrite r _ _ => some (r, ⟨0x0506, .configure, false⟩)
  | .graphRestart r _ => some (r, ⟨0x0507, .configure, false⟩)
  | .graphRead r _ _ _ => some (r, ⟨0x0508, .read, false⟩)
  | .graphStatus r => some (r, ⟨0x0509, .read, false⟩)
  | .schedWrite r _ _ _ => some (r, ⟨0x0601, .configure, false⟩)
  | .schedRead r _ => some (r, ⟨0x0602, .read, false⟩)
  | .schedHolWrite r _ _ => some (r, ⟨0x0603, .configure, false⟩)
  | .schedHolRead r _ => some (r, ⟨0x0604, .read, false⟩)
  | .schedSiteWrite r _ => some (r, ⟨0x0605, .configure, false⟩)
  | .schedSiteRead r => some (r, ⟨0x0606, .read, false⟩)
  | .schedSunRead r _ => some (r, ⟨0x0607, .read, false⟩)
  | .schedLimitsRead r _ => some (r, ⟨0x0608, .read, false⟩)
  | .meterInputSet r _ _ _ _ => some (r, ⟨0x0701, .configure, false⟩)
  | .meterGlobalSet r _ _ _ _ _ => some (r, ⟨0x0702, .configure, false⟩)
  | .meterPulseSet r _ _ _ _ _ => some (r, ⟨0x0703, .configure, false⟩)
  | .meterCfgRead r _ => some (r, ⟨0x0704, .read, false⟩)
  | .meterRecordRead r _ _ _ => some (r, ⟨0x0705, .read, false⟩)
  | .meterSubscribe r _ _ => some (r, ⟨0x0706, .read, false⟩)
  | .meterSnapshot r _ => some (r, ⟨0x0707, .read, false⟩)
  | .meterSnapRead r _ _ => some (r, ⟨0x0708, .read, false⟩)
  | .meterAccRead r _ _ => some (r, ⟨0x0709, .read, false⟩)
  | .meterGapRead r => some (r, ⟨0x070A, .read, false⟩)
  | .meterCalibrate r _ => some (r, ⟨0x070B, .configure, false⟩)
  | .meterSatClear r _ => some (r, ⟨0x070C, .operate, false⟩)
  | .meterStatus r => some (r, ⟨0x070D, .read, false⟩)
  | .accordModelSet r _ _ _ => some (r, ⟨0x0801, .configure, false⟩)
  | .accordDefaultSet r _ => some (r, ⟨0x0802, .configure, false⟩)
  | .accordModelRead r _ _ => some (r, ⟨0x0803, .read, false⟩)
  | .accordAccountRead r _ _ => some (r, ⟨0x0804, .read, false⟩)
  | .accordPhaseRead r _ _ => some (r, ⟨0x0805, .read, false⟩)
  | .accordSnapshot r _ => some (r, ⟨0x0806, .read, false⟩)
  | .accordSnapRead r _ _ _ => some (r, ⟨0x0807, .read, false⟩)
  | .accordCfgSet r _ _ => some (r, ⟨0x0808, .configure, false⟩)
  | .accordStatus r => some (r, ⟨0x0809, .read, false⟩)
  | .blotterRequest r _ _ _ => some (r, ⟨0x0901, .operate, false⟩)
  | .blotterCancel r _ => some (r, ⟨0x0902, .operate, false⟩)
  | .blotterResultRead r _ _ _ => some (r, ⟨0x0903, .read, false⟩)
  | .blotterNodeRead r _ _ => some (r, ⟨0x0904, .read, false⟩)
  | .blotterClear r _ => some (r, ⟨0x0905, .operate, false⟩)
  | .blotterCfgSet r _ _ => some (r, ⟨0x0906, .configure, false⟩)
  | .blotterStatus r => some (r, ⟨0x0907, .read, false⟩)
  | .signWrite r _ _ _ _ => some (r, ⟨0x0A01, .operate, false⟩)
  | .signSwap r _ _ _ _ => some (r, ⟨0x0A02, .operate, false⟩)
  | .signCfgSet r _ _ => some (r, ⟨0x0A03, .configure, false⟩)
  | .signTrimSet r _ _ => some (r, ⟨0x0A04, .configure, false⟩)
  | .signPopSet r _ _ => some (r, ⟨0x0A05, .configure, false⟩)
  | .signDefaultSet r _ _ _ => some (r, ⟨0x0A06, .configure, false⟩)
  | .signStatus r => some (r, ⟨0x0A07, .read, false⟩)
  | .signFaultRead r _ => some (r, ⟨0x0A08, .read, false⟩)
  | .signBus r _ _ _ _ => some (r, ⟨0x0A09, .operate, false⟩)
  | .signCellSet r _ _ => some (r, ⟨0x0A0A, .configure, false⟩)
  | .signColsRead r => some (r, ⟨0x0A0B, .read, false⟩)
  | .keySlotRead r => some (r, ⟨0x0B01, .read, false⟩)
  | .keyLoad r _ _ _ _ => some (r, ⟨0x0B02, .keys, false⟩)
  | .keyGenerate r _ _ => some (r, ⟨0x0B03, .keys, false⟩)
  | .keyCommit r _ _ => some (r, ⟨0x0B04, .keys, false⟩)
  | .keyInvalidate r _ => some (r, ⟨0x0B05, .keys, false⟩)
  | .keyRollover r _ _ => some (r, ⟨0x0B06, .keys, false⟩)
  | .keyRollRead r _ => some (r, ⟨0x0B07, .read, false⟩)
  | .keyOperatorSet r _ _ _ => some (r, ⟨0x0B08, .keys, false⟩)
  | .keyDenySet r _ => some (r, ⟨0x0B09, .keys, false⟩)
  | .keyDenyRead r => some (r, ⟨0x0B0A, .read, false⟩)
  | .keyTamperSet r _ _ => some (r, ⟨0x0B0B, .keys, false⟩)
  | .keyTamperRead r => some (r, ⟨0x0B0C, .read, false⟩)
  | .keyTamperAck r _ => some (r, ⟨0x0B0D, .keys, false⟩)
  | .updHeader r _ _ => some (r, ⟨0x0C01, .update, false⟩)
  | .updBlock r _ _ => some (r, ⟨0x0C02, .update, false⟩)
  | .updBitmap r _ _ => some (r, ⟨0x0C03, .read, false⟩)
  | .updActivate r _ _ => some (r, ⟨0x0C04, .update, false⟩)
  | .updConfirm r => some (r, ⟨0x0C05, .update, false⟩)
  | .updAbort r => some (r, ⟨0x0C06, .update, false⟩)
  | .updStatus r => some (r, ⟨0x0C07, .read, false⟩)
  | .updNodeActivate r _ _ _ => some (r, ⟨0x0C08, .update, false⟩)
  | .updNodeStatus r _ _ _ => some (r, ⟨0x0C09, .read, false⟩)
  | .logRead r _ _ _ _ _ => some (r, ⟨0x0D01, .read, false⟩)
  | .logClear r => some (r, ⟨0x0D02, .clear, false⟩)
  | .logStatus r => some (r, ⟨0x0D03, .read, false⟩)
  | .logRateSet r _ _ => some (r, ⟨0x0D04, .configure, false⟩)
  | .memRead r _ _ _ _ _ => some (r, ⟨0x0E01, .read, false⟩)
  | .memWrite r _ _ _ _ _ => some (r, ⟨0x0E02, .mem, false⟩)
  | .testSelftest r _ _ _ _ => some (r, ⟨0x0F01, .test, false⟩)
  | .testReturn r _ _ _ => some (r, ⟨0x0F02, .test, false⟩)
  | .testRetire r _ _ => some (r, ⟨0x0F03, .test, false⟩)
  | .testReserves r => some (r, ⟨0x0F04, .read, true⟩)
  | .testRestart r _ => some (r, ⟨0x0F05, .test, false⟩)
  | .testWearSet r _ _ => some (r, ⟨0x0F06, .configure, false⟩)
  | _ => none

/-! ## Invariants -/

/-- The queues of EVTIN hold no more than their depth (16, "Intake"). -/
def Intake.bounded (e : Intake) : Bool :=
  decide (e.qC.length ≤ 32) && decide (e.qD.length ≤ 32) && decide (e.qM.length ≤ 32) && decide (e.qX.length ≤ 8)

/-- The calendar of the backup domain stands within 2000-2199 and the prescaler below 32 768; so does a set on its way into the domain,
and so will the calendar after a step that waits (13 R410, R411, R416, R418). -/
def Backup.inRange (b : Backup) : Bool :=
  decide (b.sub < 32768) && decide (b.secs < calSecs) && decide (b.crossing.getD 0 < calSecs)
    && (match b.step with
        | none => true
        | some true => decide (b.secs + 3601 < calSecs)
        | some false => decide (3600 ≤ b.secs + 1))

/-- A session that meets one more request SEQ: it is taken if it is new (10 R342). -/
def Session.meet (x : Session) (q : Nat) : Session := if x.seqVerdict q = .fresh then x.accept q else x

end Sys2Proof.Machine
end

