-- ==== Sys2Proof/Laws/Ops.lean ====
section
/-!
SUPPORT. What the shared operations can do, once for all commands: an event entering intake touches the recorder alone; a message of a session
touches the output, the sessions, the PRP sequence number and, when the session ends, the recorder.
-/
namespace Sys2Proof.Machine

/-- `u` differs from `s` at most in what was said to the host and recorded: output, sessions, PRP sequence number and intake. -/
def Said (s u : State) : Prop :=
  { u with out := s.out, vxc := s.vxc, net := { u.net with prpSeq := s.net.prpSeq }, ev := s.ev } = s

theorem Said.refl (s : State) : Said s s := rfl

theorem Said.trans {s t u : State} (h : Said s t) (k : Said t u) : Said s u := by
  unfold Said at *
  rw [← h, ← k]

theorem Said.eq {s u : State} (h : Said s u) :
    { u with out := s.out, vxc := s.vxc, net := { u.net with prpSeq := s.net.prpSeq }, ev := s.ev } = s := h

theorem Said.ite {p : Prop} [Decidable p] {s a b : State} (h : Said s a) (k : Said s b) : Said s (if p then a else b) := by
  split
  · exact h
  · exact k

theorem Said.of_eq {s t u : State} (h : Said s t) (e : u = t) : Said s u := e ▸ h

theorem Said.pending {s u : State} (h : Said s u) : u.pending = s.pending := by have e := congrArg State.pending h.eq; exact e
theorem Said.fresh {s u : State} (h : Said s u) : u.fresh = s.fresh := by have e := congrArg State.fresh h.eq; exact e
theorem Said.now {s u : State} (h : Said s u) : u.now = s.now := by have e := congrArg State.now h.eq; exact e
theorem Said.order {s u : State} (h : Said s u) : u.order = s.order := by have e := congrArg State.order h.eq; exact e
theorem Said.pow {s u : State} (h : Said s u) : u.pow = s.pow := by have e := congrArg State.pow h.eq; exact e
theorem Said.jnc {s u : State} (h : Said s u) : u.jnc = s.jnc := by have e := congrArg State.jnc h.eq; exact e
theorem Said.tb {s u : State} (h : Said s u) : u.tb = s.tb := by have e := congrArg State.tb h.eq; exact e
theorem Said.acts {s u : State} (h : Said s u) : u.acts = s.acts := by have e := congrArg State.acts h.eq; exact e
theorem Said.dspFrames {s u : State} (h : Said s u) : u.dspFrames = s.dspFrames := by have e := congrArg State.dspFrames h.eq; exact e
theorem Said.joinRefused {s u : State} (h : Said s u) : u.joinRefused = s.joinRefused := by have e := congrArg State.joinRefused h.eq; exact e
theorem Said.wtx {s u : State} (h : Said s u) : u.wtx = s.wtx := by have e := congrArg State.wtx h.eq; exact e
theorem Said.rx {s u : State} (h : Said s u) : u.rx = s.rx := by have e := congrArg State.rx h.eq; exact e
theorem Said.fdr {s u : State} (h : Said s u) : u.fdr = s.fdr := by have e := congrArg State.fdr h.eq; exact e
theorem Said.nodes {s u : State} (h : Said s u) : u.nodes = s.nodes := by have e := congrArg State.nodes h.eq; exact e
theorem Said.sil {s u : State} (h : Said s u) : u.sil = s.sil := by have e := congrArg State.sil h.eq; exact e
theorem Said.sched {s u : State} (h : Said s u) : u.sched = s.sched := by have e := congrArg State.sched h.eq; exact e
theorem Said.meter {s u : State} (h : Said s u) : u.meter = s.meter := by have e := congrArg State.meter h.eq; exact e
theorem Said.accord {s u : State} (h : Said s u) : u.accord = s.accord := by have e := congrArg State.accord h.eq; exact e
theorem Said.blot {s u : State} (h : Said s u) : u.blot = s.blot := by have e := congrArg State.blot h.eq; exact e
theorem Said.sign {s u : State} (h : Said s u) : u.sign = s.sign := by have e := congrArg State.sign h.eq; exact e
theorem Said.sbus {s u : State} (h : Said s u) : u.sbus = s.sbus := by have e := congrArg State.sbus h.eq; exact e
theorem Said.remSwaps {s u : State} (h : Said s u) : u.remSwaps = s.remSwaps := by have e := congrArg State.remSwaps h.eq; exact e
theorem Said.rtc {s u : State} (h : Said s u) : u.rtc = s.rtc := by have e := congrArg State.rtc h.eq; exact e
theorem Said.bk {s u : State} (h : Said s u) : u.bk = s.bk := by have e := congrArg State.bk h.eq; exact e
theorem Said.keys {s u : State} (h : Said s u) : u.keys = s.keys := by have e := congrArg State.keys h.eq; exact e
theorem Said.nv {s u : State} (h : Said s u) : u.nv = s.nv := by have e := congrArg State.nv h.eq; exact e
theorem Said.mem {s u : State} (h : Said s u) : u.mem = s.mem := by have e := congrArg State.mem h.eq; exact e
theorem Said.nvmc {s u : State} (h : Said s u) : u.nvmc = s.nvmc := by have e := congrArg State.nvmc h.eq; exact e

/-! ## Events (16) -/

theorem raiseOne_said (s : State) (k : Queue) (code src : Nat) (pay : List Nat) : Said s (s.raiseOne k code src pay) := by
  unfold State.raiseOne Said; simp only; split <;> rfl
theorem totalsTold_said (s : State) (e : Intake) : Said s (s.totalsTold e) := by
  unfold State.totalsTold; exact Said.ite (raiseOne_said ..) (.refl s)
theorem raise_said (s : State) (k : Queue) (code src : Nat) (pay : List Nat) : Said s (s.raise k code src pay) :=
  (raiseOne_said ..).trans (totalsTold_said ..)

theorem raiseHw_said (s : State) (l b c code : Nat) (pay : List Nat) : Said s (s.raiseHw l b c code pay) := raise_said ..
theorem raiseFw_said (s : State) (r : Region) (code : Nat) (pay : List Nat) : Said s (s.raiseFw r code pay) := raise_said ..
theorem raiseGen_said (s : State) (r : Region) (gg addr : Nat) (vals : Payload) : Said s (s.raiseGen r gg addr vals) := raise_said ..
theorem raiseUnit_said (s : State) (l b c gg addr : Nat) (vals : Payload) : Said s (s.raiseUnit l b c gg addr vals) := raise_said ..
theorem stuckFw_said (s : State) (r : Region) (b : Bool) : Said s (s.stuckFw r b) := by
  unfold State.stuckFw; exact Said.ite (raise_said ..) (.refl s)
theorem stuckIf_said (s : State) (b : Bool) (a l : Nat) : Said s (s.stuckIf b a l) := by
  unfold State.stuckIf; split
  · exact raise_said ..
  · exact .refl s

/-- A push keeps the queues within their depth (16, "Intake"). -/
theorem push_bounded {e : Intake} (k : Queue) (x : EvEntry) (h : e.bounded = true) : (e.push k x).bounded = true := by
  simp only [Intake.bounded, Bool.and_eq_true, decide_eq_true_eq] at h ⊢
  obtain ⟨⟨⟨hc, hd⟩, hm⟩, hx⟩ := h
  unfold Intake.push
  by_cases hq : (e.q k).length < k.cap
  · rw [if_pos hq]
    cases k <;> simp only [Intake.setQ, Intake.q, Queue.cap, List.length_append, List.length_singleton] at hq ⊢ <;> omega
  · rw [if_neg hq]
    cases k <;> simp only [Intake.setDrop] <;> omega

theorem raiseOne_bounded {s : State} (k : Queue) (code src : Nat) (pay : List Nat) (h : s.ev.bounded = true) :
    (s.raiseOne k code src pay).ev.bounded = true := by
  unfold State.raiseOne
  simp only
  split
  · exact h
  · refine push_bounded k _ ?_
    split <;> exact h

theorem raise_bounded {s : State} (k : Queue) (code src : Nat) (pay : List Nat) (h : s.ev.bounded = true) :
    (s.raise k code src pay).ev.bounded = true := by
  unfold State.raise State.totalsTold
  split
  · exact raiseOne_bounded _ _ _ _ (raiseOne_bounded _ _ _ _ h)
  · exact raiseOne_bounded _ _ _ _ h

theorem raiseOne_vxc (s : State) (k : Queue) (code src : Nat) (pay : List Nat) : (s.raiseOne k code src pay).vxc = s.vxc := by
  unfold State.raiseOne; simp only; split <;> rfl
theorem raiseOne_out (s : State) (k : Queue) (code src : Nat) (pay : List Nat) : (s.raiseOne k code src pay).out = s.out := by
  unfold State.raiseOne; simp only; split <;> rfl

/-- An event leaves the sessions and the output alone. -/
theorem raise_vxc (s : State) (k : Queue) (code src : Nat) (pay : List Nat) : (s.raise k code src pay).vxc = s.vxc := by
  unfold State.raise State.totalsTold; split <;> simp only [raiseOne_vxc]
theorem raise_out (s : State) (k : Queue) (code src : Nat) (pay : List Nat) : (s.raise k code src pay).out = s.out := by
  unfold State.raise State.totalsTold; split <;> simp only [raiseOne_out]

/-! ## What comes up from a port (12 R385-R390) -/

/-- `u` differs from `s` at most in the network and in what was recorded. -/
def Came (s u : State) : Prop := { u with net := s.net, ev := s.ev } = s

theorem Came.refl (s : State) : Came s s := rfl

theorem Came.trans {s t u : State} (h : Came s t) (k : Came t u) : Came s u := by
  unfold Came at *
  rw [← h, ← k]

theorem Came.vxc {s u : State} (h : Came s u) : u.vxc = s.vxc := by have e := congrArg State.vxc h; exact e

theorem raiseOne_came (s : State) (k : Queue) (code src : Nat) (pay : List Nat) : Came s (s.raiseOne k code src pay) := by
  unfold State.raiseOne; simp only; split <;> rfl
theorem raise_came (s : State) (k : Queue) (code src : Nat) (pay : List Nat) : Came s (s.raise k code src pay) := by
  unfold State.raise State.totalsTold; split
  · exact (raiseOne_came ..).trans (raiseOne_came ..)
  · exact raiseOne_came ..
theorem stuckIf_came (s : State) (b : Bool) (a l : Nat) : Came s (s.stuckIf b a l) := by
  unfold State.stuckIf; split
  · exact raise_came ..
  · exact .refl s
theorem portCount_came (s : State) (p max addr lsb : Nat) (rd : EthPort → Nat) (wr : EthPort → Nat → EthPort) :
    Came s (s.portCount p max addr lsb rd wr) := by
  unfold State.portCount
  exact Came.trans (t := s.onEport p _) rfl (stuckIf_came ..)

theorem prpTouch_came (s : State) (p src : Nat) : Came s (s.prpTouch p src) := by
  unfold State.prpTouch
  simp only
  split
  · rfl
  · split
    · rfl
    · split
      · refine Came.trans (t := _) ?_ (raise_came ..)
        exact Came.trans (t := s.onNet _) rfl (portCount_came ..)
      · exact Came.trans (t := s.onNet _) rfl (portCount_came ..)

theorem prpTake_came (s : State) (a : Arrival) : Came s (s.prpTake a).2 := by
  have h : ∀ (t : State) (q : Nat), Came s t → Came s (if t.prpDup a.src q then
      (false, t.portCount a.port 0xFFFFFFFF (wPrp + 16 * a.port) 0 EthPort.dup (fun e v => { e with dup := v }))
      else (true, t.prpNote a.src q)).2 := by
    intro t q k
    split
    · exact k.trans (portCount_came ..)
    · exact k.trans rfl
  unfold State.prpTake
  simp only
  split
  · exact prpTouch_came ..
  · refine h _ _ ?_
    split
    · exact (prpTouch_came ..).trans (portCount_came ..)
    · exact prpTouch_came ..

/-- A message on its way up from its port touches the network and the recorder alone. -/
theorem arrived_came (s : State) (r : Req) : Came s (s.arrived r).2 := by
  unfold State.arrived
  split
  · exact .refl s
  · split
    · exact .refl s
    · split
      · exact portCount_came ..
      · simp only
        split
        · exact prpTake_came ..
        · split
          · exact (prpTake_came ..).trans (portCount_came ..)
          · exact prpTake_came ..

theorem heardAt_came (s : State) (r : Req) : Came (s.tick r.dt) (s.heardAt r) := arrived_came ..

/-! ## Sessions and messages (10) -/

theorem onSession_said (s : State) (i : Nat) (g : Session → Session) : Said s (s.onSession i g) := rfl
theorem discard_said (s : State) (g : DiscardCnt → DiscardCnt) : Said s (s.discard g) := rfl
theorem discarded_said (s : State) (g : DiscardCnt → DiscardCnt) : Said s (s.discarded g) := (discard_said ..).trans (stuckFw_said ..)
theorem emit_said (s : State) (o : Out) : Said s (s.emit o) := rfl
theorem sendFrame_said (s : State) (k : Frame) : Said s (s.sendFrame k) := by unfold State.sendFrame; simp only; split <;> rfl
theorem say_said (s : State) (u : Bool) (o : Out) : Said s (s.say u o) := by
  unfold State.say; split
  · exact (emit_said ..).trans (emit_said ..)
  · exact (sendFrame_said ..).trans (emit_said ..)

theorem endSession_said (s : State) (i : Nat) (why : EndCause) : Said s (s.endSession i why) := by
  unfold State.endSession
  split
  · exact .refl s
  · simp only; split
    · rfl
    · refine Said.trans (t := _) ?_ (raiseGen_said ..)
      rfl

theorem endAll_said (s : State) (why : EndCause) : Said s (s.endAll why) := by
  unfold State.endAll
  generalize s.vxc.sessions.map Session.id = l
  induction l generalizing s with
  | nil => exact .refl s
  | cons a r ih => exact (endSession_said s a why).trans (ih _)

theorem sendOn_said (s : State) (i : Nat) (o : Session → Nat → Out) : Said s (s.sendOn i o) := by
  unfold State.sendOn
  split
  · exact .refl s
  · simp only
    have h : ∀ x : Session, Said s ((s.onSession i (fun y => { y with modSeq := x.modSeq + 1 })).say x.usb (o x (x.modSeq + 1))) :=
      fun x => (onSession_said ..).trans (say_said ..)
    split
    · exact (h _).trans (endSession_said ..)
    · exact h _

theorem respond_said (s : State) (i : Nat) (r : Resp) : Said s (s.respond i r) := by
  unfold State.respond
  simp only
  exact Said.trans (t := s.onSession i _) (onSession_said ..) (sendOn_said ..)
theorem answer_said (s : State) (w : Who) (cmd : Nat) (st : Status) (pay : Payload) : Said s (s.answer w cmd st pay) := respond_said ..
theorem seqLimit_said (s : State) (r : Req) : Said s (s.seqLimit r) := by
  unfold State.seqLimit; split
  · exact endSession_said ..
  · exact .refl s

theorem tagFail_said (s : State) (x : Session) : Said s (s.tagFail x) := by
  unfold State.tagFail; simp only; split
  · exact (onSession_said ..).trans (endSession_said ..)
  · exact onSession_said ..

theorem notify_said (s : State) (i cmd : Nat) (final : Bool) (st : Status) (pay : Payload) : Said s (s.notify i cmd final st pay) := by
  unfold State.notify
  split
  · exact .refl s
  · split
    · exact .refl s
    · have h : ∀ (g : Session → Session) (b : Bool), Said s ((s.onSession i g).stuckFw .m b) := fun _ _ =>
        (onSession_said ..).trans (stuckFw_said ..)
      simp only; split
      · exact (h _ _).trans (sendOn_said ..)
      · split
        · exact ((h _ _).trans (onSession_said ..)).trans (sendOn_said ..)
        · exact (h _ _).trans (onSession_said ..)

theorem notifyClass_said (s : State) (cls cmd : Nat) (st : Status) (pay : Payload) : Said s (s.notifyClass cls cmd st pay) := by
  unfold State.notifyClass
  generalize List.map Session.id _ = l
  induction l generalizing s with
  | nil => exact .refl s
  | cons a r ih => exact (notify_said s a cmd false st pay).trans (ih _)

theorem complete_said (s : State) (ses seq cmd : Nat) (st : Status) (pay : Payload) : Said s (s.complete ses seq cmd st pay) := notify_said ..

/-- What an answered request leaves alone (10 R342, R344). -/
theorem answered_said (t : State) (r : Req) (x : Session) (cmd : Nat) (st : Status) (pay : Payload) :
    Said t ((t.respond x.id ⟨r.seq, cmd, st, pay⟩).seqLimit r) := (respond_said ..).trans (seqLimit_said ..)

theorem foldl_complete_said {s u : State} (l : List Action) (h : Said s u) :
    Said s (l.foldl (fun s a => s.complete a.ses a.seq a.cmd .discarded []) u) := by
  induction l generalizing u with
  | nil => exact h
  | cons a q ih => exact ih (h.trans (complete_said ..))

/-- Discarding a region's actions touches the actions, the scene commands of schedules with the runs recorded of them, and what the host is
told (02 R90). -/
theorem discardActs_said (s : State) (r : Region) :
    Said { s with
      acts := s.acts.filter (fun a => !decide (a.what.home = r))
      nv := if r = .c then s.nv.forgetScenes s.sched.cmds else s.nv
      sched := if r = .c then { s.sched with cmds := [] } else s.sched } (s.discardActs r) := by
  unfold State.discardActs
  exact Said.ite (.refl _) (foldl_complete_said _ (raiseGen_said ..))

end Sys2Proof.Machine
end

