-- ==== Sys2Proof/Laws/Served.lean ====
section
/-!
SUPPORT. What hostCmd does with a request that reaches its command's own rules, once for all commands.
-/
namespace Sys2Proof.Machine

/-- An answer of a command's own rules turned into the state after it. -/
theorem hostCmd_served {c : CmdSpec} {r : Req} {body : Who → State → Ans} {s : State} {x : Session}
    (h : Served s r x c.need) :
    hostCmd c r body s = .next (((s.taken r x).settle (fun (s : State) st pay => s.respond x.id ⟨r.seq, c.cmd, st, pay⟩)
      (fun (s : State) => s.onSession x.id (fun y => { y with outst := y.outst ++ [(r.seq, c.cmd, r.port)] }))
      (body (x.who r) (s.taken r x))).seqLimit r) := by
  obtain ⟨⟨hd, ha, hf⟩, ⟨hs, hx, hu, hi, ht, hn, hq⟩, hh, ho, hp, hl⟩ := h
  have hx' : (s.heardAt r).session r.ses = some x := by
    unfold State.session; rw [(heardAt_came s r).vxc]; exact hx
  have hg : (s.tick r.dt).gate r false = .accept (s.taken r x) x := by
    unfold State.heardAt at hx'
    simp only [State.gate, hd, ha, hf, hs, hx', hh, hu, ht, hn, hq, State.taken, State.heardAt]
    rcases hi with hi | hi <;> simp [hi]
  have hb : ∀ a : Ans, a.ninth (decide (8 ≤ x.outst.length)) = a := by
    intro a; rw [show decide (8 ≤ x.outst.length) = false by simpa using ho]; unfold Ans.ninth; split <;> rfl
  unfold hostCmd
  simp only [hg, hp, hl, hb]
  simp [Session.who]

/-- Every host row but the two that open a session is one hostCmd with the CMD and privilege of its table. -/
theorem hostRow_exec {c : Instr} {k : CmdSpec} {r : Req} {s : State} (h : hostRow c = some (r, k)) (hp : s.pow.phase ≠ .bootStuck) :
    ∃ body, exec c s = hostCmd k r body s := by
  cases c <;> simp only [hostRow, Option.some.injEq, Prod.mk.injEq, reduceCtorEq] at h <;> obtain ⟨rfl, rfl⟩ := h
  case sysIdentify r => exact ⟨_, by simp only [exec, execSysIdentify]; rw [if_neg hp]⟩
  all_goals (simp only [exec]; apply Exists.intro; rfl)

/-- A request that the M-region hears finds the module past its boot ROM. -/
theorem heard_not_bootStuck {s : State} {r : Req} (h : (s.tick r.dt).deaf r = false) : s.pow.phase ≠ .bootStuck := by
  intro hp
  simp [State.deaf, State.runs, hp, Phase.rank] at h

/-- OK. -/
theorem hostCmd_ok {c : CmdSpec} {r : Req} {body : Who → State → Ans} {s : State} {x : Session} {pay : Payload} {t : State}
    (h : Served s r x c.need) (hb : body (x.who r) (s.taken r x) = .ok pay t) :
    hostCmd c r body s = .next (t.answered r x c.cmd .ok pay) := by
  rw [hostCmd_served h, hb]; rfl

/-- OK, with what follows the response. -/
theorem hostCmd_okThen {c : CmdSpec} {r : Req} {body : Who → State → Ans} {s : State} {x : Session} {pay : Payload} {t : State}
    {fin : State → State} (h : Served s r x c.need) (hb : body (x.who r) (s.taken r x) = .okThen pay t fin) :
    hostCmd c r body s = .next ((fin (t.respond x.id ⟨r.seq, c.cmd, .ok, pay⟩)).seqLimit r) := by
  rw [hostCmd_served h, hb]; rfl

/-- DEFERRED. -/
theorem hostCmd_deferred {c : CmdSpec} {r : Req} {body : Who → State → Ans} {s : State} {x : Session} {tgt : Nat} {t : State}
    (h : Served s r x c.need) (hb : body (x.who r) (s.taken r x) = .deferred tgt t) :
    hostCmd c r body s = .next (t.answered r x c.cmd .deferred [(tgt, 6)]) := by
  rw [hostCmd_served h, hb]; rfl

/-- Held for a later answer. -/
theorem hostCmd_later {c : CmdSpec} {r : Req} {body : Who → State → Ans} {s : State} {x : Session} {t : State}
    (h : Served s r x c.need) (hb : body (x.who r) (s.taken r x) = .later t) :
    hostCmd c r body s = .next (t.held r x c.cmd) := by
  rw [hostCmd_served h, hb]; rfl

/-- Refused with a code other than BUSY: nothing of the command takes effect (11 R351, R352). -/
theorem hostCmd_refused {c : CmdSpec} {r : Req} {body : Who → State → Ans} {s : State} {x : Session} {st : Status} {d : Nat}
    (h : Served s r x c.need) (hb : body (x.who r) (s.taken r x) = .no st d) (hst : st ≠ .busy) :
    hostCmd c r body s = .next ((s.taken r x).answered r x c.cmd st [(d, 4)]) := by
  rw [hostCmd_served h, hb]
  simp [State.settle, State.refusalPay, hst, State.answered]

/-- No check of a list applies: the command's own result stands. -/
theorem checked_pass {cs : List (Bool × Status)} {k : Ans} (h : ∀ c ∈ cs, c.1 = false) : checked cs k = k := by
  have : cs.find? (fun c => c.1) = none := List.find?_eq_none.2 (by intro c hc; simp [h c hc])
  simp [checked, this]

end Sys2Proof.Machine
end

