-- ==== Sys2Proof/Certificates/Slice0/Obligations.lean ====
section
/-!
DEFINITION. The statements for the provers. Where a served request is meant, `Served s r x need` says that it passes the gate of 10
(R335-R343), `s.taken r x` is the state its command's rules see, and `t.answered r x cmd st pay` the state once the answer is out.
-/
open Sys2Proof Sys2Proof.Machine

/-! ## The queue (98, log entry 1) -/

/-- A step takes the command at the front of the queue and runs it on the state with the rest of the queue (98, log entry 1). An empty queue
idles, and a table word puts no command in the queue, since the table gives no bits: the model's choice (log entry 1). -/
def Obligations.StepsRunTheQueueInOrder : Prop :=
  (∀ (c : Instr) (s : State), step (s.front c) = exec c s) ∧
  (∀ (s : State) (nbits w : Nat), (s.pending = [] → step s = .next s) ∧ s.withFetchWord nbits w = s ∧ decodeTableWord nbits w = none)

/-- Every command answers a next state and leaves the waiting commands as they are: no command faults and none is refused (log entry 1; 01
R50 makes a bus error an answer to its master). -/
def Obligations.EveryCommandAnswersAndLeavesTheQueue : Prop :=
  ∀ (c : Instr) (s : State), ∃ t, exec c s = .next t ∧ t.pending = s.pending

/-! ## Invariants -/

/-- Memory keeps its canonical form over every step (log entry 50): no address listed twice, none that reads as it would unlisted. -/
def Obligations.MemoryStaysCanonical : Prop :=
  ∀ s t : State, s.mem.wf = true → step s = .next t → t.mem.wf = true

/-- Every step keeps EVTIN's queues within their depth: 32 entries for a region, 8 for the chip (16, "Intake"). -/
def Obligations.IntakeQueuesStayWithinTheirDepth : Prop :=
  ∀ s t : State, s.ev.bounded = true → step s = .next t → t.ev.bounded = true

/-- The RTC counts within 2000-01-01 to 2199-12-31, with the prescaler below 32 768, and so does a set on its way into the backup domain (13
R410, R411, R416). -/
def Obligations.CalendarStaysInRange : Prop :=
  ∀ s t : State, s.bk.inRange = true → step s = .next t → t.bk.inRange = true

/-- The state after reset meets the invariants, and the registers read what the Reset columns of their tables give (00 R14): VOTER_STAT in
triple with the spare core, REGION_STAT and doorbells 0, the time base in HOLD with HCN 0, every feeder on its own stage with stage 8 spare,
converters 30 and 31 spare, the sink cells 48 and 49 spare, PTP_INCR of 8 ns a tick, intake paused, and the calendar at Saturday 2000-01-01.
-/
def Obligations.ResetMeetsTheInvariants : Prop :=
  (State.reset.mem.wf = true ∧ State.reset.ev.bounded = true ∧ State.reset.bk.inRange = true ∧ State.reset.pending = []) ∧
  (∀ w ∈ [(0x40100000, 0x7B0), (0x40200000, 0x7B0), (0x40300000, 0x7B0), (0x40010020, 0), (0x40010024, 0), (0x40010028, 0), (0x40010060, 0),
      (0x40010040, 0), (0x40010044, 0), (0x40010048, 0), (0x4001004C, 0), (0x40010050, 0), (0x40110000, 0), (0x4011000C, 0),
      (0x40140000, 0x76543210), (0x40140004, 0x88000000), (0x40210078, 0x100), (0x4021007C, 0x10F), (0x40210084, 0), (0x40210088, 0), (0x40250024, 0),
      (0x40340010, 0), (0x40340014, 8), (0x40340020, 0), (0x40380004, 0x31C02), (0x40380008, 0), (0x40390004, 0), (0x40030000, 1), (0x4003000C, 0),
      (0x40370000, 0), (0x40370014, 0x501), (0x40370018, 0x100), (0x40370040, 0)],
    State.reset.regOf w.1 = some w.2) ∧
  (∀ m, m < 30 → State.reset.regOf (0x40210000 + 4 * m) = some m) ∧
  (∀ c, c < 48 → State.reset.regOf (0x40380100 + 4 * c) = some (c * 256))

/-! ## Transport (10) -/

/-- What stands before every command: a request that the M-region does not hear does nothing but let time pass, a datagram that its port
does not pass up does nothing more (12 R384-R389), and one that fails a rule of R335, R341 or R342 is discarded without an answer, counted
by its kind, and changes nothing else (a TAG failure counts towards the session's 32, R340). -/
def Obligations.UnansweredTrafficIsDropped : Prop :=
  ∀ (c : Instr) (k : CmdSpec) (r : Req) (s : State), hostRow c = some (r, k) →
    let t := s.heardAt r
    ((s.tick r.dt).deaf r = true → s.pow.phase ≠ .bootStuck → exec c s = .next (s.tick r.dt)) ∧
    ((s.tick r.dt).deaf r = false → ((s.tick r.dt).arrived r).1 = false → exec c s = .next t) ∧
    (∀ n, (s.tick r.dt).deaf r = false → ((s.tick r.dt).arrived r).1 = true → malformed r = some n →
      exec c s = .next (t.discarded (fun d => d.upForm n))) ∧
    (Heard s r → r.ses = 0 → (r.usb = false ∨ noTag r = false) →
      exec c s = .next (t.discarded (fun d => { d with session := up32 d.session }))) ∧
    (Heard s r → r.ses ≠ 0 → s.session r.ses = none →
      exec c s = .next (t.discarded (fun d => { d with session := up32 d.session }))) ∧
    (∀ x, Heard s r → r.ses ≠ 0 → s.session r.ses = some x →
      (x.halfOpen = true → exec c s = .next (t.discarded (fun d => { d with session := up32 d.session }))) ∧
      (x.halfOpen = false → (x.usb ≠ r.usb ∨ (r.usb = false ∧ r.ip ≠ x.ip)) →
        exec c s = .next (t.discarded (fun d => { d with source := up32 d.source }))) ∧
      (x.halfOpen = false → x.usb = r.usb → (r.usb = true ∨ r.ip = x.ip) → (x.tagOk r = false ∨ noTag r = true) →
        exec c s = .next ((t.discarded (fun d => { d with tag := up32 d.tag })).tagFail x)) ∧
      (x.halfOpen = false → x.usb = r.usb → (r.usb = true ∨ r.ip = x.ip) → x.tagOk r = true → noTag r = false →
        x.seqVerdict r.seq = .stale →
        exec c s = .next ((t.onSession x.id (fun y => y.heard r t.now)).discarded (fun d => { d with sequence := up32 d.sequence }))))

/-- A request whose SEQ was accepted and is among the last 16 answered is not executed again: the stored response goes out with DUP = 1, a
new module SEQ and a new TAG (R342), to the source port of the request (R341). -/
def Obligations.StoredResponseGoesOutAgain : Prop :=
  ∀ (c : Instr) (k : CmdSpec) (r : Req) (s : State) (x : Session) (a : Resp), hostRow c = some (r, k) →
    Heard s r → r.ses ≠ 0 → s.session r.ses = some x → x.halfOpen = false →
    x.usb = r.usb → (r.usb = true ∨ r.ip = x.ip) → x.tagOk r = true → noTag r = false → x.seqVerdict r.seq = .again a →
    exec c s = .next (((s.heardAt r).onSession x.id (fun y => y.heard r (s.heardAt r).now)).sendOn x.id
      (fun y n => y.respOut y.port n true a))

/-- No request SEQ is executed twice in a session: once it has been taken it is never new again, whatever the session meets after it (R342).
-/
def Obligations.TakenSequenceNumberIsNeverNewAgain : Prop :=
  ∀ (x : Session) (q : Nat) (l : List Nat), x.seqVerdict q = .fresh →
    (l.foldl Session.meet (x.accept q)).seqVerdict q ≠ .fresh

/-- The order of the checks around a command's own rules (11 R352; 10 R339, R343): DENIED without the privilege the command's table gives,
then LENGTH, then the refusals of the command's own rules, and last BUSY at the ninth outstanding request. Nothing of the command takes
effect. -/
def Obligations.DeniedThenLengthThenBusy : Prop :=
  ∀ (c : Instr) (k : CmdSpec) (r : Req) (s : State) (x : Session), hostRow c = some (r, k) → Heard s r → InSession s r x → x.halfOpen = false →
    (k.need.ok x.priv = false → exec c s = .next ((s.taken r x).answered r x k.cmd .denied [(0, 4)])) ∧
    (k.need.ok x.priv = true → r.lenOk = false → exec c s = .next ((s.taken r x).answered r x k.cmd .length [(0, 4)])) ∧
    (k.need.ok x.priv = true → r.lenOk = true → 8 ≤ x.outst.length →
      ∃ t : State, { t with fresh := s.fresh } = s.taken r x ∧
        ((∃ ms, exec c s = .next (t.answered r x k.cmd .busy [(ms, 2)])) ∨
         (∃ st d, st ≠ .ok ∧ st ≠ .deferred ∧ st ≠ .busy ∧ exec c s = .next (t.answered r x k.cmd st [(d, 4)]))))

/-- Without a session, on USB (R348): a command outside the unauthenticated subset is refused with AUTH, one inside it with LENGTH where LEN
does not fit, and it is answered OK otherwise; the answer carries neither TAG nor module SEQ, and nothing else changes. -/
def Obligations.UnauthenticatedSubset : Prop :=
  ∀ (c : Instr) (k : CmdSpec) (r : Req) (s : State), hostRow c = some (r, k) → Heard s r → r.ses = 0 → r.usb = true → noTag r = true →
    let t := s.tick r.dt
    let answer := fun (st : Status) (pay : Payload) => t.say true (.resp none none 0 0 false ⟨r.seq, k.cmd, st, pay⟩)
    (k.openRead = false → exec c s = .next (answer .auth [(0, 4)])) ∧
    (k.openRead = true → r.lenOk = false → exec c s = .next (answer .length [(0, 4)])) ∧
    (k.openRead = true → r.lenOk = true → ∃ pay, exec c s = .next (answer .ok pay))

/-- An answer is one response that carries the request's SEQ and CMD and the next module SEQ (R342, R344), goes to the address of the
session and the port of the request (R341), and carries the AES-CMAC of its bytes under the module-to-host key (R336): over USB as one
transfer on endpoint 82h, over UDP as one datagram on each port that is up (R332, R333; 12 R388). It is kept for a retransmission while the
session lives, and beside the session, the PRP sequence number and the record of a session's end nothing changes. -/
def Obligations.AnswerIsOneResponse : Prop :=
  ∀ (t : State) (r : Req) (x y : Session) (cmd : Nat) (st : Status) (pay : Payload), t.session x.id = some y →
    let u := t.answered r x cmd st pay
    let o : Out := .resp (if y.usb then none else some (y.ip, y.portOf r.seq))
      (some (ofBytes (cmac (leBytes 16 y.keyOut) (vxcBytes cmd (y.modSeq + 1) y.id 1 st ((r.seq, 4) :: pay))))) y.id (y.modSeq + 1) false
      ⟨r.seq, cmd, st, pay⟩
    u.out = t.out ++ (if y.usb then [.usb 0x82 (usbPackets o.vxcLen)] else ([0, 1].filter t.linkUp).map (fun p => t.frameOut p .datagram)) ++ [o] ∧
    (∀ z, u.session x.id = some z → z.modSeq = y.modSeq + 1 ∧ z.answered = (⟨r.seq, cmd, st, pay⟩ :: y.answered).take 16) ∧
    { u with out := t.out, vxc := t.vxc, net := { u.net with prpSeq := t.net.prpSeq }, ev := t.ev } = t

/-! ## SYS and sessions (10 R337-R347, 11 R359, R360) -/

/-- SESSION_OPEN (R337, R339, R340): over either transport, with SESSION 0 and no TAG, a certificate that passes and fewer than four
sessions, the module holds one more session, half open, with the privileges that request and certificate both name (KEYS alone under a self-
signed certificate), and answers OK with the new identifier, the public point of its ephemeral key, its nonce, the privileges, CERT_DATES,
and the signature of the transcript with the identity key; the session's two keys are HKDF-SHA-256 of the ECDH secret, salted with both
nonces, with VXC and the identifier as info (R338). The ephemeral key, the nonce, the identifier and the number in the signature are free
values (log entries 2 and 3). Concludes that exec answers a next state with the command's own effect, for: sysSessionOpen. -/
def Obligations.SessionOpenHoldsAHalfOpenSession : Prop :=
  ∀ (s : State) (r : Req) (priv certPriv : BitVec 16) (nh epk serial : Nat) (cert : HostCert) (certSig notBefore notAfter : Nat),
    let t := s.heardAt r
    Heard s r → r.ses = 0 → noTag r = true → 4 ≤ s.pow.phase.rank →
    t.authFails r.usb serial cert certSig notBefore notAfter = false → r.lenOk = true → s.vxc.sessions.length < 4 →
    ∃ f id d nm k : Nat,
      let pay : Payload := [(id, 4), (pointBytes (pubPoint d), 65), (nm, 16), ((t.grant priv certPriv).toNat, 2), (t.certDates, 1)]
      let hash := ofBe (transcript r pay)
      let keys := sessionKeys (ecdh d (pointFrom epk)) nh nm id
      let x : Session := { id := id, usb := r.usb, ip := r.ip, port := r.port, priv := t.grant priv certPriv, halfOpen := true, serial := serial,
                           hostPub := cert.pub, transcript := hash, openedAt := t.now, lastGood := t.now
                           keyIn := ofBytes (keys.take 16), keyOut := ofBytes (keys.drop 16) }
      exec (.sysSessionOpen r priv certPriv nh epk serial cert certSig notBefore notAfter) s = .next (State.say
        { t with fresh := f, vxc := { t.vxc with sessions := s.vxc.sessions ++ [x] } } r.usb
        (openResp r 0x0103 .ok (pay ++ [(ecdsaSign (s.slot 1).key hash k, 64)]))) ∧
      s.session id = none ∧ id ≠ 0 ∧ 1 ≤ d ∧ d < p256n ∧ 1 ≤ k ∧ k < p256n ∧ nm < 2 ^ 128

/-- SESSION_CONFIRM within 5 s opens the half-open session when its signature checks under the host's key, and the opening is recorded
(R337, R340); SESSION_CLOSE ends the session after its answer (R340); a half-open session that is not confirmed within 5 s is dropped, and
300 s without a good TAG end an open one; a USB bus reset ends the sessions on USB. The end of an open session removes it and records the
cause (R340); the end of a half-open one removes it. Notifications of a session below its burst of 16, each 1/64 s (R347): the oldest that
waits goes out with the next module SEQ; with none waiting the session may send one more at once. Concludes that exec answers a next state
with the command's own effect, for: sysSessionClose, sysSessionConfirm, sessionConfirmTimeout, sessionIdleTimeout, usbBusReset,
notificationRelease. -/
def Obligations.SessionsOpenLiveAndEnd : Prop :=
  (∀ (s : State) (r : Req) (x : Session) (dt : Dt),
    (Served s r x .anyone →
      exec (.sysSessionClose r) s = .next ((((s.taken r x).respond x.id ⟨r.seq, 0x0105, .ok, []⟩).endSession x.id .close).seqLimit r)) ∧
    (∀ sig, Heard s r → InSession s r x → x.halfOpen = true → x.outst.length < 8 → s.now + r.dt.cclk < x.openedAt + 5 * secC →
      ecdsaOk x.hostPub x.transcript sig = true → r.lenOk = true →
      exec (.sysSessionConfirm r sig) s = .next (((((s.taken r x).onSession x.id (fun y =>
        { y with halfOpen := false, hostPub := 0, transcript := 0 })).raiseGen .m 0x01 0 []).respond x.id ⟨r.seq, 0x0104, .ok, []⟩).seqLimit r)) ∧
    (s.session x.id = some x → x.halfOpen = true → x.openedAt + 5 * secC ≤ s.now + dt.cclk → exec (.sessionConfirmTimeout dt x.id) s =
      .next { s.tick dt with vxc := { s.vxc with sessions := s.vxc.sessions.filter (fun y => y.id != x.id) } }) ∧
    (s.session x.id = some x → x.halfOpen = false → x.lastGood + 300 * secC ≤ s.now + dt.cclk →
      exec (.sessionIdleTimeout dt x.id) s = .next ((s.tick dt).endSession x.id .idle)) ∧
    (exec (.usbBusReset dt) s = .next (((s.vxc.sessions.filter Session.usb).map Session.id).foldl (fun u i => u.endSession i .usb) (s.tick dt)))) ∧
  (∀ (s : State) (id : Nat) (why : EndCause) (x : Session), s.session id = some x →
    (s.endSession id why).session id = none ∧
    (x.halfOpen = false → s.endSession id why =
      State.raiseGen { s with vxc := { s.vxc with sessions := s.vxc.sessions.filter (fun y => y.id != id) } } .m 0x01 0 [(why.no, 1)]) ∧
    (x.halfOpen = true → s.endSession id why = { s with vxc := { s.vxc with sessions := s.vxc.sessions.filter (fun y => y.id != id) } })) ∧
  (∀ (s : State) (dt : Dt) (x : Session), s.session x.id = some x → x.tokens < 16 → x.tokenAt + secC / 64 ≤ s.now + dt.cclk →
    (x.waiting = [] → exec (.notificationRelease dt x.id) s =
      .next ((s.tick dt).onSession x.id (fun y => { y with tokens := y.tokens + 1, tokenAt := y.tokenAt + secC / 64 }))) ∧
    (∀ k rest n, x.waiting = k :: rest → x.ring.find? (fun m => m.nseq == k) = some n →
      exec (.notificationRelease dt x.id) s =
        .next (((s.tick dt).onSession x.id (fun y => { y with waiting := rest, tokenAt := y.tokenAt + secC / 64 })).sendOn x.id (fun y m => y.noteOut m n))))

/-- The SYS reads answer OK and change nothing but the session (R359, R360): identity, status, the ring of notifications from NSEQ on, the
open sessions, and the network settings in force and pending. SUBSCRIBE sets the session's classes and SEV_MIN (R346, R358); NET_SET is
stored and stays pending (R360); a CMD that is not listed is answered BAD_CMD (R349). Concludes that exec answers a next state with the
command's own effect, for: sysIdentify, sysStatus, sysNotifyRead, sysSessions, sysNetRead, sysSubscribe, sysNetSet, unlistedCmdRequest. -/
def Obligations.SysCommandsTakeEffect : Prop :=
  (∀ (s : State) (r : Req) (x : Session), Served s r x .read →
    let t := s.taken r x
    exec (.sysIdentify r) s = .next (t.answered r x 0x0101 .ok t.identity) ∧
    exec (.sysStatus r) s = .next (t.answered r x 0x0102 .ok t.statusPay) ∧
    (∀ first count, first ≤ x.nseq → ∃ items : List Payload,
      items = takeFit count 1382 (((x.ring.filter (fun n => decide (first ≤ n.nseq))).reverse).map Note.item) ∧
      exec (.sysNotifyRead r first count) s = .next (t.answered r x 0x0107 .ok
        ([(x.nseq + 1, 4), (first, 4), (items.length, 2), (x.lost, 4)] ++ items.flatten))) ∧
    exec (.sysSessions r) s = .next (t.answered r x 0x0108 .ok
      (((t.vxc.sessions.filter (fun y => !y.halfOpen)).length, 1) :: (t.vxc.sessions.filter (fun y => !y.halfOpen)).flatMap (fun y =>
        [(y.id, 4), (b2n y.usb, 1), (y.priv.toNat, 2), (y.serial, 20), ((t.now - y.openedAt) / secC, 4)]))) ∧
    exec (.sysNetRead r) s = .next (t.answered r x 0x010A .ok
      (s.vxc.netInForce.pay ++ s.nv.net.pay ++ [(s.nv.mac0, 6), (s.nv.mac1, 6)]))) ∧
  (∀ (s : State) (r : Req) (x : Session),
    let t := s.taken r x
    (∀ classes sev, Served s r x .read → sev ≤ 7 → exec (.sysSubscribe r classes sev) s =
      .next ((t.onSession x.id (fun y => { y with classes := classes &&& 0x03FF#16, sevMin := sev })).answered r x 0x0106 .ok
        [((classes &&& 0x03FF#16).toNat, 2)])) ∧
    (∀ ip mask gw vlan, Served s r x .configure → vlan ≤ 4094 → exec (.sysNetSet r ip mask gw vlan) s =
      .next ((t.onNv (fun n => { n with net := ⟨ip, mask, gw, vlan⟩ })).answered r x 0x0109 .ok [])) ∧
    (∀ cmd, Served s { r with lenOk := true } x .anyone → exec (.unlistedCmdRequest r cmd) s =
      .next (t.answered r x cmd .badCmd [(0, 4)])))

/-- A permitted life-cycle change (14 R451-R453): the answer goes out, every session ends, every LIFECYCLE and TREE key is destroyed, the
new state is written with one OTP entry fewer, and the wipe is due. Any other transition is refused with STATE. Concludes that exec answers
a next state with the command's own effect, for: sysLifecycle. -/
def Obligations.LifeCycleChangeDestroysKeys : Prop :=
  ∀ (s : State) (r : Req) (x : Session) (new : Nat), Served s r x .lifecycle →
    let t := s.taken r x
    (lifecycleOk s.nv.lcs new s.nv.otpLeft = true → ∃ u : State,
      exec (.sysLifecycle r new (s.nv.serial % 4294967296)) s = .next (u.seqLimit r) ∧
      u = (t.respond x.id ⟨r.seq, 0x010B, .ok, []⟩).lifecycle new ∧
      u.vxc.sessions = [] ∧ u.nv.lcs = new ∧ u.nv.otpLeft = s.nv.otpLeft - 1 ∧ u.nv.wipeDue = true ∧ u.keys.twins = [] ∧
      (∀ n, n ≠ 0 → u.slot n = {}) ∧ u.slot 0 = s.slot 0) ∧
    (∀ chk, lifecycleOk s.nv.lcs new s.nv.otpLeft = false → exec (.sysLifecycle r new chk) s =
      .next (t.answered r x 0x010B .state [(0, 4)]))

/-! ## TIME and the RTC (11 R361; 12 R394, R402; 13) -/

/-- The TIME commands: time-base state, stamps that the history holds, the selection for the next start, coherent civil time, and PTP
settings at once, with which a source in use stays in use where its domain is still tracked and the clock free-runs where it is not (11
R361; 02 R59, R76, R84; 12 R394). Concludes that exec answers a next state with the command's own effect, for: timeTbStatus, timeStampRead,
timeTbSet, timeRtcRead, timePtpSet, timePtpRead. -/
def Obligations.TimeCommandsTakeEffect : Prop :=
  ∀ (s : State) (r : Req) (x : Session),
    let t := s.taken r x
    (Served s r x .read → exec (.timeTbStatus r) s = .next (t.answered r x 0x0201 .ok
      [(t.tb.hcn, 6), (t.tb.stat, 4), (t.tb.period, 4), (t.tb.bofsShown, 2), (t.tbCfgInForce, 4), (t.tbCfg, 4)])) ∧
    (∀ hcn count, Served s r x .read → 1 ≤ count → count ≤ 42 → (∀ k, hcn ≤ k → k < hcn + count → (t.stampOf k).isSome) →
      exec (.timeStampRead r hcn count) s = .next (t.answered r x 0x0202 .ok
        ((count, 1) :: ((rangeFrom hcn count).filterMap t.stampOf).map (fun w => (w.toNat, 32))))) ∧
    (∀ sel vset, Served s r x .configure → sel ≤ 2 → exec (.timeTbSet r sel vset) s =
      .next ((t.onNv (fun v => { v with profileSel := sel, fdrVset := vset })).answered r x 0x0203 .ok [])) ∧
    (Served s r x .read → exec (.timeRtcRead r) s = .next (t.answered r x 0x0204 .ok
      [(2000 + (civil t.today).1, 2), ((civil t.today).2.1, 1), ((civil t.today).2.2, 1), (t.secOfDay / 3600, 1), (t.secOfDay / 60 % 60, 1), (t.secOfDay % 60, 1),
        (t.bk.sub, 2), (b2n t.bk.valid + 2 * b2n s.nv.dstActive, 1)])) ∧
    (∀ p q a b f, Served s r x .configure → p ≤ 239 → (q ≤ 239 ∨ q = 255) → p ≠ q → a ≤ 1 → b ≤ 1 → f ≤ 1 →
      ∃ u : State, exec (.timePtpSet r p q a b f) s = .next (u.answered r x 0x0207 .ok []) ∧ u.nv = { s.nv with ptp := ⟨p, q, a, b, f⟩ } ∧
        (t.net.src = none → { u with nv := t.nv, net := { u.net with srcs := t.net.srcs } } = t) ∧
        (∀ k m, t.net.src = some k → s.nv.ptp.moved ⟨p, q, a, b, f⟩ k = some m → u.net.src = some m ∧
          { u with nv := t.nv, net := { u.net with srcs := t.net.srcs, src := t.net.src, ptpSrc := t.net.ptpSrc } } = t) ∧
        (∀ k, t.net.src = some k → s.nv.ptp.moved ⟨p, q, a, b, f⟩ k = none → u.net.src = none ∧ u.net.ptpSrc = 3)) ∧
    (Served s r x .read → ∃ (u : State) (op os : Nat), exec (.timePtpRead r) s = .next (u.answered r x 0x0208 .ok
        [(s.nv.ptp.domP, 1), (s.nv.ptp.domS, 1), (s.nv.ptp.delayP, 1), (s.nv.ptp.delayS, 1), (s.nv.ptp.fallback, 1), (t.net.ptpSrc, 1),
          (op, 8), (os, 8), (t.net.incr, 8), (t.net.steps, 4)]) ∧ { u with fresh := t.fresh } = t)

/-- RTC_SET puts a whole validated set on its way into the backup domain; RTC_STEP requests a step of one hour (11 R361; 13 R416, R418).
Concludes that exec answers a next state with the command's own effect, for: timeRtcSet, timeRtcStep. -/
def Obligations.HostSetsAndStepsTheClock : Prop :=
  ∀ (s : State) (r : Req) (x : Session), Served s r x .configure →
    let t := s.taken r x
    (∀ y mo d h mi sec dst, 2000 ≤ y → y ≤ 2199 → 1 ≤ mo → mo ≤ 12 → 1 ≤ d → d ≤ monthDays (y - 2000) mo → h ≤ 23 → mi ≤ 59 → sec ≤ 59 →
      (dst = 0 ∨ (dst = 1 ∧ s.nv.site.dstEn = true)) → s.rtc.lockout = false → s.bk.crossing = none →
      ∃ u : State, exec (.timeRtcSet r y mo d h mi sec dst) s = .next (u.answered r x 0x0205 .ok []) ∧
        u.bk = { t.bk with crossing := some (secsOf (y - 2000) mo d h mi sec) } ∧ u.nv = { s.nv with dstActive := dst == 1, dstStep := none } ∧
        u.rtc = t.rtc.clearBuf ∧ { u with bk := t.bk, nv := t.nv, rtc := t.rtc } = t) ∧
    (∀ dir, dir ≤ 1 → s.nv.site.dstEn = false → t.stepCause (dir == 0) false = 0 →
      exec (.timeRtcStep r dir) s = .next (State.answered { t with bk := { t.bk with step := some (dir == 0) } } r x 0x0206 .ok []))

/-- A read of the time block while it is not frozen freezes it, later reads return the shadows, a read of RTC_YEAR ends the freeze with
COHERENT = 1, and one in an unfrozen block returns the current values with COHERENT = 0; a freeze also ends after 1 s, and when a set
applies (R414). Concludes that exec answers a next state with the command's own effect, for: rtcBlockRead, rtcYearRead, rtcFreezeTimeout,
rtcSetApply. -/
def Obligations.TimeBlockReadsAreCoherent : Prop :=
  ∀ (s : State) (dt : Dt) (m : Master),
    let t := s.tick dt
    s.rtc.isolated = false → s.bk.onVbat = false → s.runs .m = true →
    (∀ off, off < 0x18 → off % 4 = 0 →
      (t.frozen = none → exec (.rtcBlockRead dt m off) s = .next (State.emit { t with rtc := { t.rtc with shadow := some (t.bk.sub, t.bk.secs, t.now) } }
        (.readData (wRtcif + off) (rtcField off t.bk.sub t.bk.secs)))) ∧
      (∀ sub secs, t.frozen = some (sub, secs) → exec (.rtcBlockRead dt m off) s = .next (t.emit (.readData (wRtcif + off) (rtcField off sub secs))))) ∧
    (t.frozen = none → exec (.rtcYearRead dt m) s = .next (State.emit { t with rtc := { t.rtc with shadow := none } }
      (.readData (wRtcif + 0x18) (rtcField 0x18 t.bk.sub t.bk.secs)))) ∧
    (∀ sub secs, t.frozen = some (sub, secs) → exec (.rtcYearRead dt m) s = .next (State.emit { t with rtc := { t.rtc with shadow := none } }
      (.readData (wRtcif + 0x18) (2 ^ 31 + rtcField 0x18 sub secs)))) ∧
    (∀ sub secs since, s.rtc.shadow = some (sub, secs, since) → since + secC ≤ s.now + dt.cclk →
      exec (.rtcFreezeTimeout dt) s = .next { t with rtc := { t.rtc with shadow := none } }) ∧
    (∀ c, s.bk.crossing = some c → ∃ u : State, exec (.rtcSetApply dt) s = .next u ∧ u.frozen = none)

/-- A write to RTC_MIN, HOUR, DAY or YEAR loads the write buffer and not the calendar; a write of RTC_SECS completes the set, which is
rejected with the first cause in the order LOCKED, BUSY, INCOMPLETE, FIELD_RANGE, NO_SUCH_DATE, or begins to cross; either way the buffer is
empty after it (R416). At the RTC cycle at which a set arrives, all fields take the written values together, the prescaler is reset to 0 and
RTC_VALID is set; the set ends any freeze and cancels a pending step, and the next stamp carries RTC_STEP (R417). Concludes that exec
answers a next state with the command's own effect, for: rtcFieldWrite, rtcSecsWrite, rtcSetApply. -/
def Obligations.SetsAreValidatedAndApplied : Prop :=
  (∀ (s : State) (dt : Dt) (m : Master),
    let t := s.tick dt
    s.rtc.isolated = false → s.bk.onVbat = false → s.runs .m = true →
    (∀ off w, exec (.rtcFieldWrite dt m off w) s = .next { t with rtc := t.rtc.load off w }) ∧
    (∀ w : BitVec 32, t.setCause (fld w 0 6) = 0 → ∃ mi h d mo y, s.rtc.wrMin = some mi ∧ s.rtc.wrHour = some h ∧ s.rtc.wrDay = some d ∧
      s.rtc.wrMonth = some mo ∧ s.rtc.wrYear = some y ∧ d ≤ monthDays y mo ∧
      exec (.rtcSecsWrite dt m w) s = .next { t with
        rtc := t.rtc.clearBuf, bk := { t.bk with crossing := some (secsOf y mo d h mi (fld w 0 6)) } }) ∧
    (∀ w : BitVec 32, t.setCause (fld w 0 6) ≠ 0 →
      exec (.rtcSecsWrite dt m w) s = .next (State.rtcReject { t with rtc := t.rtc.clearBuf } (t.setCause (fld w 0 6)))) ∧
    (∀ sec, s.rtc.lockout = true → t.setCause sec = 7) ∧
    (∀ sec, s.rtc.lockout = false → s.bk.crossing.isSome = true → t.setCause sec = 6)) ∧
  (∀ (s : State) (dt : Dt) (c : Nat), s.bk.crossing = some c →
    ∃ t : State, exec (.rtcSetApply dt) s = .next t ∧ t.bk = { (s.tick dt).bk with sub := 0, secs := c, valid := true, step := none, crossing := none } ∧
      t.rtc.shadow = none ∧ t.tb.rtcStep = true ∧ t.sched.ownStep = none ∧
      { t with bk := (s.tick dt).bk, rtc := { t.rtc with shadow := s.rtc.shadow }, tb := { t.tb with rtcStep := s.tb.rtcStep },
               sched := { t.sched with ownStep := s.sched.ownStep } } = s.tick dt)

/-- A step request is rejected with the first cause in the order LOCKED, BUSY, STEP_BOTH, STEP_RANGE; an accepted one waits for the next
second boundary, where the RTC adds or subtracts 3 600 s with the prescaler and RTC_VALID unchanged (R418, R419). The rule of DST_EN = 1 (06
R200): the module steps the clock itself at the second boundary where summer time starts or ends. A loss of retention resets calendar and
prescaler, empties the tamper log with OVF = 0, and holds the count until the rail feeds the domain again (R424); TLOG_ACK removes the N
oldest entries (R427); the domain switches between its supplies and nothing else changes (R420). Concludes that exec answers a next state
with the command's own effect, for: stepFwd, stepBack, rtcStepApply, dstStepIssue, rtcValidLoss, backupSwitchVbat, backupSwitchRail,
tlogAck. -/
def Obligations.ClockStepsAndBackupDomainEvents : Prop :=
  (∀ (s : State) (dt : Dt) (m : Master),
    let t := s.tick dt
    (s.rtc.isolated = false → s.bk.onVbat = false → s.runs .m = true →
      (t.stepCause true false = 0 → exec (.stepFwd dt m false) s = .next { t with bk := { t.bk with step := some true } }) ∧
      (t.stepCause false false = 0 → exec (.stepBack dt m false) s = .next { t with bk := { t.bk with step := some false } }) ∧
      (∀ b, t.stepCause true b ≠ 0 → exec (.stepFwd dt m b) s = .next (t.rtcReject (t.stepCause true b))) ∧
      (∀ b, t.stepCause false b ≠ 0 → exec (.stepBack dt m b) s = .next (t.rtcReject (t.stepCause false b)))) ∧
    (s.rtc.lockout = true → ∀ f b, t.stepCause f b = 7) ∧
    (s.rtc.lockout = false → s.bk.step.isSome = true ∨ s.bk.crossing.isSome = true → ∀ f b, t.stepCause f b = 6) ∧
    (s.rtc.lockout = false → s.bk.step = none → s.bk.crossing = none → ∀ f, t.stepCause f true = 5) ∧
    (∀ fwd, s.bk.step = some fwd → t.bk.sub = 32767 → ∃ u : State, exec (.rtcStepApply dt) s = .next u ∧
      u.bk = { t.bk with sub := 0, secs := if fwd then t.bk.secs + 3601 else t.bk.secs + 1 - 3600, step := none } ∧ u.tb.rtcStep = true ∧
      u.sched.ownStep = none ∧ u.nv.dstActive = s.sched.ownStep.getD s.nv.dstActive)) ∧
  (∀ (s : State) (dt : Dt) (fwd : Bool),
    let t := s.tick dt
    s.runs .m = true → s.nv.site.dstEn = true → t.bk.valid = true → s.nv.dstActive = !fwd →
    t.bk.secs + 1 = ruleSecs (if fwd then s.nv.site.dstStart else s.nv.site.dstEnd) (yearOf ((t.bk.secs + 1) / 86400)) →
    t.stepCause fwd false = 0 →
    exec (.dstStepIssue dt) s = .next { t with bk := { t.bk with step := some fwd }, sched := { t.sched with ownStep := some fwd } }) ∧
  (∀ (s : State) (dt : Dt) (m : Master),
    let t := s.tick dt
    exec (.rtcValidLoss dt) s = .next { t with
      bk := { t.bk with sub := 0, secs := 0, valid := false, log := [], ovf := 0, step := none, crossing := none, held := s.bk.onVbat }
      sched := { t.sched with ownStep := none } } ∧
    (s.bk.held = true → t.bk = s.bk) ∧
    exec (.backupSwitchVbat dt) s = .next { t with bk := { t.bk with onVbat := true } } ∧
    exec (.backupSwitchRail dt) s = .next { t with bk := { t.bk with onVbat := false, held := false } } ∧
    (∀ n, n < 16 → s.rtc.isolated = false → s.bk.onVbat = false → s.runs .m = true →
      exec (.tlogAck dt m n) s = .next { t with bk := { t.bk with log := t.bk.log.drop n } }))

/-- The calendar of R410: from any second of 2000-2199 but the last, one more second leaves the date, or moves it to the next day of the
month, the first of the next month, or the first of January of the next year; a year divisible by 4 but 2100 has 29 days in February; and
the end of 2199-12-31 23:59:59 moves the calendar to 2000-01-01 00:00:00 and clears RTC_VALID. Concludes that exec answers a next state with
the command's own effect, for: rtcCalendarWrap. -/
def Obligations.SecondsRefineTheCalendar : Prop :=
  (∀ secs y mo d : Nat, secs + 1 < calSecs → civil (secs / 86400) = (y, mo, d) →
    y ≤ 199 ∧ 1 ≤ mo ∧ mo ≤ 12 ∧ 1 ≤ d ∧ d ≤ monthDays y mo ∧ dayNo y mo d = secs / 86400 ∧
    civil ((secs + 1) / 86400) =
      if secs % 86400 < 86399 then (y, mo, d)
      else if d < monthDays y mo then (y, mo, d + 1)
      else if mo < 12 then (y, mo + 1, 1)
      else (y + 1, 1, 1)) ∧
  civil 0 = (0, 1, 1) ∧ (∀ y, y ≤ 199 → monthDays y 2 = if y % 4 = 0 ∧ y ≠ 100 then 29 else 28) ∧
  (∀ y, [1, 3, 4, 5, 6, 7, 8, 9, 10, 11, 12].map (monthDays y) = [31, 31, 30, 31, 30, 31, 31, 30, 31, 30, 31]) ∧
  civil (6311433599 / 86400) = (199, 12, 31) ∧
  (∀ (s : State) (dt : Dt), let t := s.tick dt
    t.bk.secs = 6311433599 → t.bk.sub = 32767 → s.bk.step = none →
      exec (.rtcCalendarWrap dt) s = .next { t with bk := { t.bk with sub := 0, secs := 0, valid := false } })

/-! ## LINK and NODE (11 R362-R365) -/

/-- LINK STATUS reads the registers of the spare stage and, of each feeder, its receive path, its counts and its nodes; ATTEN_SET is stored
and in force from the feeder's next frame; STAGE_SET holds the valid spare for the feeder's next frame boundary, in place of one that waits
for it (log entry 61), and is refused with STATE for any other stage; values outside their range are refused with RANGE (R362, 03 R114,
R115). Concludes that exec answers a next state with the command's own effect, for: linkStatus, linkAttenSet, linkStageSet. -/
def Obligations.LinkCommandsTakeEffect : Prop :=
  ∀ (s : State) (r : Req) (x : Session),
    let t := s.taken r x
    (Served s r x .read → exec (.linkStatus r) s = .next (t.answered r x 0x0301 .ok ([(t.wtx.assignReg, 4), (t.wtx.stat, 4)] ++
      (rangeFrom 0 8).flatMap (fun f => [(t.wrxQ f, 4), (t.total (wWrx + 4 + 0x10 * f) 16, 4), (t.total (wWrx + 4 + 0x10 * f) 0, 4),
        ((t.rxp f).badType, 4), ((t.rxp f).badMic, 4), ((t.rxp f).badSlot, 4), (t.quarantinedOn f, 2), ((t.joinedOn f).length, 2)])))) ∧
    (∀ f a, Served s r x .configure →
      (f ≤ 7 → a ≤ 63 → exec (.linkAttenSet r f a) s =
        .next (State.answered { t with nv := { t.nv with atten := tset 0 t.nv.atten f a }, wtx := { t.wtx with atten := tset 0 t.wtx.atten f a } }
          r x 0x0302 .ok [])) ∧
      (7 < f ∨ 63 < a → exec (.linkAttenSet r f a) s = .next (t.answered r x 0x0302 .range [(0, 4)]))) ∧
    (∀ f k, Served s r x .configure →
      (7 < f ∨ 8 < k → exec (.linkStageSet r f k) s = .next (t.answered r x 0x0303 .range [(0, 4)])) ∧
      (f ≤ 7 → k ≤ 8 → s.wtx.spare = some k → s.wtx.spareValid = true → exec (.linkStageSet r f k) s =
        .next (State.answered { t with wtx := { t.wtx with setNext := t.wtx.setNext.filter (fun e => e.1 != f) ++ [(f, k)] } } r x 0x0303 .ok [])) ∧
      (f ≤ 7 → k ≤ 8 → s.wtx.spare ≠ some k ∨ s.wtx.spareValid = false →
        exec (.linkStageSet r f k) s = .next (t.answered r x 0x0303 .state [(0, 4)])))

/-- REGISTER binds an EUI to the install key that its wrapped key unwraps to under the session's KX, and to an address or to none: a new
registration is added, one that has become unusable is replaced, and one with the same key and address stands; a key that does not unwrap
and an address above 3FFFh are refused with RANGE, a usable registration with another key or address and an address taken by another EUI
with CONFLICT, and a new one beyond 16 384 with FULL. DEREGISTER removes a registration that has not joined, sends LEAVE to a joined node
once, and answers NOT_FOUND without a registration (R363; 14 R434, R440). NODE READ pages the node entries; GROUPS_READ gives the group
slots, the scenes and the parameters that a joined node last acknowledged; and GROUP_SET, SCENE_SET and PARAM_SET queue one background item
for a joined node while its feeder holds fewer than 4 096, and are refused with FULL beyond; an address or a value outside its range is
refused with RANGE, and a node that has not joined with NOT_FOUND (R354, R364). Concludes that exec answers a next state with the command's
own effect, for: nodeRegister, nodeDeregister, nodeRead, nodeGroupsRead, nodeGroupSet, nodeSceneSet, nodeParamSet. -/
def Obligations.NodeCommandsTakeEffect : Prop :=
  (∀ (s : State) (r : Req) (x : Session), Served s r x .configure →
    let t := s.taken r x
    (∀ eui wik wikA addr ik, unwrapIk (t.kxOf x.id) wik wikA = some ik → addr ≤ 16383 ∨ addr = 0xFFFF →
      let fixed := if addr = 0xFFFF then none else some addr
      let free := ∀ a, fixed = some a →
        (∀ g ∈ s.nv.regs, g.eui ≠ eui → g.fixed ≠ some a ∧ g.addr ≠ some a) ∧ (∀ j ∈ (s.feeder (a / 2048)).joins, j.eui = eui ∨ j.idx ≠ a % 2048)
      let old := s.nv.regs.find? (fun g => g.eui == eui)
      (free → old = none → s.nv.regs.length < 16384 →
        exec (.nodeRegister r eui wik wikA addr) s = .next (State.answered { t with nv := { t.nv with
          regs := s.nv.regs ++ [{ eui := eui, ik := ik, fixed := fixed, usable := (s.slot 4).st == 1 }] } } r x 0x0401 .ok [])) ∧
      (free → old = none → 16384 ≤ s.nv.regs.length →
        exec (.nodeRegister r eui wik wikA addr) s = .next (t.answered r x 0x0401 .full [(0, 4)])) ∧
      (∀ g, free → old = some g → g.usable = false →
        exec (.nodeRegister r eui wik wikA addr) s =
          .next ((t.onReg eui (fun g => { g with ik := ik, fixed := fixed, usable := (s.slot 4).st == 1 })).answered r x 0x0401 .ok [])) ∧
      (∀ g, free → old = some g → g.usable = true → g.ik = ik → g.fixed = fixed →
        exec (.nodeRegister r eui wik wikA addr) s = .next (t.answered r x 0x0401 .ok [])) ∧
      (∀ g, old = some g → g.usable = true → g.ik ≠ ik ∨ g.fixed ≠ fixed →
        exec (.nodeRegister r eui wik wikA addr) s = .next (t.answered r x 0x0401 .conflict [(0, 4)])) ∧
      (¬ free → exec (.nodeRegister r eui wik wikA addr) s = .next (t.answered r x 0x0401 .conflict [(0, 4)]))) ∧
    (∀ eui wik wikA addr, addr ≤ 16383 ∨ addr = 0xFFFF → unwrapIk (t.kxOf x.id) wik wikA = none →
      exec (.nodeRegister r eui wik wikA addr) s = .next (t.answered r x 0x0401 .range [(1, 4)])) ∧
    (∀ eui wik wikA addr, 16383 < addr → addr ≠ 0xFFFF →
      exec (.nodeRegister r eui wik wikA addr) s = .next (t.answered r x 0x0401 .range [(0, 4)])) ∧
    (∀ eui, s.nv.regs.find? (fun g => g.eui == eui) = none →
      exec (.nodeDeregister r eui) s = .next (t.answered r x 0x0402 .notFound [(0, 4)])) ∧
    (∀ eui g, s.nv.regs.find? (fun g => g.eui == eui) = some g → g.addr = none →
      exec (.nodeDeregister r eui) s = .next ((t.unregister eui).answered r x 0x0402 .ok [])) ∧
    (∀ eui g a, s.nv.regs.find? (fun g => g.eui == eui) = some g → g.addr = some a →
      ((tget [] s.nv.bg (a / 2048)).any (fun b => decide (b.item = .leave (a % 2048))) = false →
        exec (.nodeDeregister r eui) s = .next ((t.addBg (a / 2048) (.leave (a % 2048)) false).answered r x 0x0402 .ok [])) ∧
      ((tget [] s.nv.bg (a / 2048)).any (fun b => decide (b.item = .leave (a % 2048))) = true →
        exec (.nodeDeregister r eui) s = .next (t.answered r x 0x0402 .ok [])))) ∧
  (∀ (s : State) (r : Req) (x : Session),
    let t := s.taken r x
    let full := fun a => 4096 ≤ (tget [] s.nv.bg (a / 2048)).length
    (∀ first count, Served s r x .read →
      (first < 16384 → exec (.nodeRead r first count) s = .next (t.answered r x 0x0403 .ok
        (pagePay 16384 first (pageCount 16384 first count 32 0) [] t.nodeEntry))) ∧
      (16384 ≤ first → exec (.nodeRead r first count) s = .next (t.answered r x 0x0403 .range [(0, 4)]))) ∧
    (∀ a, Served s r x .read →
      (a ≤ 16383 → s.joinedAt a = true → exec (.nodeGroupsRead r a) s = .next (t.answered r x 0x0404 .ok
        ((rangeFrom 0 16).map (fun g => (match tget 0 (s.ncfg a).groups g with | 0 => 0 | n + 1 => 0x8000 + n, 2))
          ++ (rangeFrom 0 64).map (fun n => (tget unk (s.ncfg a).scenes n, 2))
          ++ (rangeFrom 0 9).map (fun p => ((tget none (s.ncfg a).params p).getD (paramDef p), 2))))) ∧
      (a ≤ 16383 → s.joinedAt a = false → exec (.nodeGroupsRead r a) s = .next (t.answered r x 0x0404 .notFound [(0, 4)])) ∧
      (16383 < a → exec (.nodeGroupsRead r a) s = .next (t.answered r x 0x0404 .range [(0, 4)]))) ∧
    (∀ a g k v, Served s r x .configure →
      (a ≤ 16383 → g ≤ 15 → k ≤ 255 → v ≤ 1 → s.joinedAt a = true → ¬ full a →
        exec (.nodeGroupSet r a g k v) s = .next ((t.addBg (a / 2048) (.groupSet (a % 2048) g k v) false).answered r x 0x0405 .ok [])) ∧
      (a ≤ 16383 → g ≤ 15 → k ≤ 255 → v ≤ 1 → s.joinedAt a = true → full a →
        exec (.nodeGroupSet r a g k v) s = .next (t.answered r x 0x0405 .full [(0, 4)])) ∧
      (a ≤ 16383 → g ≤ 15 → k ≤ 255 → v ≤ 1 → s.joinedAt a = false →
        exec (.nodeGroupSet r a g k v) s = .next (t.answered r x 0x0405 .notFound [(0, 4)])) ∧
      (16383 < a ∨ 15 < g ∨ 255 < k ∨ 1 < v → exec (.nodeGroupSet r a g k v) s = .next (t.answered r x 0x0405 .range [(0, 4)]))) ∧
    (∀ a k l, Served s r x .configure →
      (a ≤ 16383 → k ≤ 63 → (l ≤ 10000 ∨ l = unk) → s.joinedAt a = true → ¬ full a →
        exec (.nodeSceneSet r a k l) s = .next ((t.addBg (a / 2048) (.sceneSet (a % 2048) k l) false).answered r x 0x0406 .ok [])) ∧
      (a ≤ 16383 → k ≤ 63 → (l ≤ 10000 ∨ l = unk) → s.joinedAt a = true → full a →
        exec (.nodeSceneSet r a k l) s = .next (t.answered r x 0x0406 .full [(0, 4)])) ∧
      (a ≤ 16383 → k ≤ 63 → (l ≤ 10000 ∨ l = unk) → s.joinedAt a = false →
        exec (.nodeSceneSet r a k l) s = .next (t.answered r x 0x0406 .notFound [(0, 4)])) ∧
      (16383 < a ∨ 63 < k ∨ (10000 < l ∧ l ≠ unk) → exec (.nodeSceneSet r a k l) s = .next (t.answered r x 0x0406 .range [(0, 4)]))) ∧
    (∀ a k v, Served s r x .configure →
      (a ≤ 16383 → k ≤ 15 → v ≤ 65535 → (k < 2 → v ≤ 10000) → s.joinedAt a = true → ¬ full a →
        exec (.nodeParamSet r a k v) s = .next ((t.addBg (a / 2048) (.nodeCfg (a % 2048) k v) false).answered r x 0x0407 .ok [])) ∧
      (a ≤ 16383 → k ≤ 15 → v ≤ 65535 → (k < 2 → v ≤ 10000) → s.joinedAt a = true → full a →
        exec (.nodeParamSet r a k v) s = .next (t.answered r x 0x0407 .full [(0, 4)])) ∧
      (a ≤ 16383 → k ≤ 15 → v ≤ 65535 → (k < 2 → v ≤ 10000) → s.joinedAt a = false →
        exec (.nodeParamSet r a k v) s = .next (t.answered r x 0x0407 .notFound [(0, 4)])) ∧
      (16383 < a ∨ 15 < k ∨ 65535 < v ∨ (k < 2 ∧ 10000 < v) → exec (.nodeParamSet r a k v) s = .next (t.answered r x 0x0407 .range [(0, 4)]))))

/-- LEVEL and SCENE with TGT ≥ h + 8, of a group or of all joined nodes, and OVERRIDE with TGT ≥ h + 4 and END 0 or after TGT, of a node or
of a group's members and with a level or its withdrawal, are accepted for TGT: a link command on every feeder with a member, and one action
bound to TGT that carries the members of that moment; below the lead each is LATE (R365, 02 R86-R88, 05 R168). Concludes that exec answers a
next state with the command's own effect, for: nodeLevel, nodeScene, nodeOverride. -/
def Obligations.LevelActionsAreBoundToTheirTarget : Prop :=
  ∀ (s : State) (r : Req) (x : Session) (tgt : Nat), Served s r x .operate → s.pow.phase = .complete → tgt ≠ 0 → tgt ≤ s.tb.hcn + 2147483648 →
    let t := s.taken r x
    (∀ g l, g ≤ 255 → l ≤ 10000 →
      (s.tb.hcn + 8 ≤ tgt → t.actsFull = false → t.linkFull (feedersOf (t.members g)) = false →
        exec (.nodeLevel r g l tgt) s = .next ((t.linkCmd (feedersOf (t.members g)) tgt (x.who r) 0x0408 (.groupLevel 0 g l tgt)
          (fun id => .groupLevel id (t.members g) l)).answered r x 0x0408 .deferred [(tgt, 6)])) ∧
      (tgt < s.tb.hcn + 8 → exec (.nodeLevel r g l tgt) s = .next (t.answered r x 0x0408 .late [(0, 4)]))) ∧
    (∀ scope g k, scope ≤ 1 → g ≤ 255 → k ≤ 63 →
      let ms := if scope = 1 then t.allJoined else t.members g
      (s.tb.hcn + 8 ≤ tgt → t.actsFull = false → t.linkFull (feedersOf ms) = false →
        exec (.nodeScene r scope g k tgt) s = .next ((t.linkCmd (feedersOf ms) tgt (x.who r) 0x0409
          (if scope = 1 then .sceneAll 0 k tgt else .sceneRecall 0 g k tgt) (fun id => .sceneRecall id ms k)).answered r x 0x0409 .deferred [(tgt, 6)])) ∧
      (tgt < s.tb.hcn + 8 → exec (.nodeScene r scope g k tgt) s = .next (t.answered r x 0x0409 .late [(0, 4)]))) ∧
    (∀ scope id l e, (scope = 0 ∧ id ≤ 16383) ∨ (scope = 1 ∧ id ≤ 255) → (l ≤ 10000 ∨ l = unk) → (e = 0 ∨ tgt < e) →
      (s.tb.hcn + 4 ≤ tgt → t.actsFull = false →
        exec (.nodeOverride r scope id l tgt e) s = .next ((t.bind tgt (x.who r) 0x040A (.overrideSet (if scope = 0 then [id] else t.members id)
          (if l = unk then none else some l) e)).answered r x 0x040A .deferred [(tgt, 6)])) ∧
      (tgt < s.tb.hcn + 4 → exec (.nodeOverride r scope id l tgt e) s = .next (t.answered r x 0x040A .late [(0, 4)])))

/-! ## GRAPH and the Sillage engine (11 R366, R367; 05) -/

/-- The table writes and CFG_WRITE change their table in STOPPED and are refused with STATE outside it; entries outside the table are
refused with RANGE (05 R190, 11 R366; a value above one byte of CFG_WRITE cannot stand in its field). Concludes that exec answers a next
state with the command's own effect, for: graphEdgeWrite, graphNodeWrite, graphCurveWrite, graphSlewWrite, graphCfgWrite. -/
def Obligations.GraphWritesOnlyInStopped : Prop :=
  ∀ (s : State) (r : Req) (x : Session), Served s r x .configure →
    let t := s.taken r x
    (s.sil.st = .stopped →
      (∀ first l, 1 ≤ l.length → l.length ≤ 348 → first + l.length ≤ 131072 → exec (.graphEdgeWrite r first l) s =
        .next ((t.onTab (fun b => { b with edges := tsetAll 0 b.edges first l })).answered r x 0x0502 .ok [])) ∧
      (∀ first l, 1 ≤ l.length → l.length ≤ 87 → first + l.length ≤ 16384 → exec (.graphNodeWrite r first l) s =
        .next ((t.onTab (fun b => { b with nodes := tsetAll 0 b.nodes first l })).answered r x 0x0503 .ok [])) ∧
      (∀ first l, l.length = 0 ∨ 348 < l.length ∨ 131072 < first + l.length → exec (.graphEdgeWrite r first l) s =
        .next (t.answered r x 0x0502 .range [(0, 4)])) ∧
      (∀ first l, l.length = 0 ∨ 87 < l.length ∨ 16384 < first + l.length → exec (.graphNodeWrite r first l) s =
        .next (t.answered r x 0x0503 .range [(0, 4)])) ∧
      (∀ c l, c ≤ 31 → l.length = 16 → exec (.graphCurveWrite r c l) s =
        .next ((t.onTab (fun b => { b with curves := tsetAll 0 b.curves (16 * c) l })).answered r x 0x0504 .ok [])) ∧
      (∀ c l, 31 < c → exec (.graphCurveWrite r c l) s = .next (t.answered r x 0x0504 .range [(0, 4)])) ∧
      (∀ k p, k ≤ 15 → exec (.graphSlewWrite r k p) s =
        .next ((t.onTab (fun b => { b with slews := tset 0 b.slews k p })).answered r x 0x0505 .ok [])) ∧
      (∀ k p, 15 < k → exec (.graphSlewWrite r k p) s = .next (t.answered r x 0x0505 .range [(0, 4)])) ∧
      (∀ a b, a < 256 → b < 256 → exec (.graphCfgWrite r a b) s =
        .next ((t.onSil (fun g => { g with substeps := a, ageLimit := b })).answered r x 0x0506 .ok []))) ∧
    (s.sil.st ≠ .stopped →
      (∀ first l, exec (.graphEdgeWrite r first l) s = .next (t.answered r x 0x0502 .state [(0, 4)])) ∧
      (∀ first l, exec (.graphNodeWrite r first l) s = .next (t.answered r x 0x0503 .state [(0, 4)])) ∧
      (∀ c l, exec (.graphCurveWrite r c l) s = .next (t.answered r x 0x0504 .state [(0, 4)])) ∧
      (∀ k p, exec (.graphSlewWrite r k p) s = .next (t.answered r x 0x0505 .state [(0, 4)])) ∧
      (∀ a b, exec (.graphCfgWrite r a b) s = .next (t.answered r x 0x0506 .state [(0, 4)])) ∧
      (∀ g, exec (.graphRestart r g) s = .next (t.answered r x 0x0507 .state [(0, 4)])))

/-- RESTART in STOPPED with tables that pass every check of R191 and a target that meets its lead: the configuration is in MRAM, the engine
is RESTART_PENDING for TGT, and the restart is bound to TGT; a failed check is RANGE with its DETAIL and changes nothing. STOP discards a
restart that is pending, whose command completes with DISCARDED; it enters STOPPED at once, with its queues empty, where no pass runs, and
waits for the commit of one that does; in STOPPED it is refused with STATE (R188, R191, R192). GRAPH READ pages the table asked for, and is
refused with RANGE for FIRST beyond the table and for another table; STATUS gives the engine's registers and, of each feeder, its queue and
counts; neither changes anything (R354, R367). Concludes that exec answers a next state with the command's own effect, for: graphRestart,
graphStop, graphRead, graphStatus. -/
def Obligations.GraphCommandsTakeEffect : Prop :=
  (∀ (s : State) (r : Req) (x : Session), Served s r x .configure →
    let t := s.taken r x
    (∀ tgt, s.sil.st = .stopped → s.pow.phase = .complete → tgt ≠ 0 → tgt ≤ s.tb.hcn + 2147483648 →
      (t.graphFault = none → s.tb.hcn + 4 ≤ tgt → t.actsFull = false → ∃ u : State,
        exec (.graphRestart r tgt) s = .next (u.answered r x 0x0507 .deferred [(tgt, 6)]) ∧
        u.nv = s.nv.setGraph ⟨s.sil.tab.edges, s.sil.tab.nodes, s.sil.tab.curves, s.sil.tab.slews, s.sil.substeps, s.sil.ageLimit⟩ ∧
        u.sil = { s.sil with st := .restartPending, rst := tgt, autoRestarted := false } ∧
        u.acts = s.acts ++ [⟨tgt, 2, s.order, x.id, r.seq, 0x0507, .graphRestart⟩] ∧ u.order = s.order + 1 ∧
        { u with nv := t.nv, sil := t.sil, acts := t.acts, order := t.order } = t) ∧
      (∀ d, t.graphFault = some d → exec (.graphRestart r tgt) s = .next (t.answered r x 0x0507 .range [(d, 4)]))) ∧
    (s.sil.st = .stopped → exec (.graphStop r) s = .next (t.answered r x 0x0501 .state [(0, 4)])) ∧
    (s.sil.st ≠ .stopped →
      let u := (t.acts.filter (fun a => decide (a.what = ActWhat.graphRestart))).foldl (fun (u : State) a => u.complete a.ses a.seq a.cmd .discarded [])
        { t with acts := t.acts.filter (fun a => !decide (a.what = ActWhat.graphRestart)) }
      (s.sil.pass = none → exec (.graphStop r) s = .next (u.silStopped.answered r x 0x0501 .ok [])) ∧
      (s.sil.pass.isSome = true → exec (.graphStop r) s = .next ((u.onSil (fun g => { g with stopBy := g.stopBy ++ [(x.id, r.seq)] })).held r x 0x0501))) ∧
    (∀ v : State, v.silStopped.sil.st = .stopped ∧ v.silStopped.sil.stopBy = [])) ∧
  (∀ (s : State) (r : Req) (x : Session), Served s r x .read →
    let t := s.taken r x
    let b := t.sil.tab
    let pages := fun (k total size : Nat) (item : Nat → Payload) => ∀ first count,
      (first < total → exec (.graphRead r first count k) s = .next (t.answered r x 0x0508 .ok
        (pagePay total first (pageCount total first count size 0) [] item))) ∧
      (total ≤ first → exec (.graphRead r first count k) s = .next (t.answered r x 0x0508 .range [(0, 4)]))
    pages 0 131072 4 (fun i => [((b.edge i).toNat, 4)]) ∧ pages 1 16384 16 (fun i => [((b.node i).toNat, 16)]) ∧
    pages 2 16384 8 (fun i => [((b.state i).toNat, 8)]) ∧ pages 3 16384 8 (fun i => [((b.limit i).toNat, 8)]) ∧
    pages 4 512 4 (fun i => [((tget 0 b.curves i).toNat, 4)]) ∧ pages 5 16 8 (fun i => [((tget 0 b.slews i).toNat, 8)]) ∧
    pages 6 16384 4 (fun i => [((b.sensor i).toNat, 4)]) ∧
    (∀ first count k, 6 < k → exec (.graphRead r first count k) s = .next (t.answered r x 0x0508 .range [(0, 4)])) ∧
    exec (.graphStatus r) s = .next (t.answered r x 0x0509 .ok
      ([(t.sil.stat, 4), (t.sil.cfg, 4), (t.passReg, 4), (t.sil.cnt, 4), (t.sil.last, 6), (t.sil.rst, 6)] ++
        (rangeFrom 0 8).flatMap (fun f => [((t.feeder f).queue.length, 2), ((t.feeder f).age, 1), (b2n (t.feeder f).sat, 1),
          (t.total (wSillage + 0x60 + 4 * f) 16, 4), (t.total (wSillage + 0x60 + 4 * f) 0, 4)]))))

/-- A pass starts in RUN at its time after the edge of its HCN, once per HCN, on the tables as they stand, and at no other time. Without a
mismatch and a bus error it commits its results, with LAST = its HCN; a mismatch, or a bus error that stopped it, reruns it where that fits,
and it is abandoned where the rerun does not fit or fails too, and where the commit deadline has passed: only the field of the HCN before is
then carried on. After it the reports held meanwhile are applied, the limit array takes what waited for it, and a STOP that waits takes
effect (R157-R159, R168, R185, R186, R188). FAULTED restarts by itself 16 HCN after it was entered, with PHI and the history zeroed, and not
again within 256 HCN of such a restart (R187, R192). Concludes that exec answers a next state with the command's own effect, for:
sillagePass, passCommit, sillageAutoRestart. -/
def Obligations.PassesCommitFaultAndRestart : Prop :=
  (∀ (s : State) (dt : Dt),
    let t := s.tick dt
    (s.sil.st = .run → s.sil.pass = none → s.sil.stopBy = [] → t.runs .c = true → s.tb.st ≠ .hold → s.pow.supplyFail = false → s.pow.cmdShutdown = false →
      (∀ k, t.passNow = some k → (∃ e, (k, e) ∈ s.tb.cuts ∧ e + passStartC s.tb.p60 = t.now) ∧
        ∃ u : State, exec (.sillagePass dt) s = .next u ∧ u.sil.pass = some k ∧ u.sil.tab = s.sil.tab ∧
          { u with sil := { u.sil with pass := s.sil.pass, started := s.sil.started, newPhi := s.sil.newPhi, newOut := s.sil.newOut, touched := s.sil.touched, busStops := s.sil.busStops } } = t) ∧
      (t.passNow = none → exec (.sillagePass dt) s = .next t)) ∧
    (∀ k us (m m2 fits : Bool), s.sil.pass = some k →
      let failed := m = true ∨ 0 < s.sil.busStops
      let again := m2 = true ∨ (if m then 0 else 1) < s.sil.busStops
      let b := bump 255 s.sil.rerunCnt
      let reran := (t.onSil (fun g => { g with rerunCnt := b.1 })).stuckIf b.2 (wSillage + 0xC) 16
      let done := fun (u : State) =>
        let v := u.onSil (fun g => { g with pass := none, newPhi := [], newOut := [], touched := [], held := [], busStops := 0, passTime := us % 65536 })
        let v := s.sil.held.foldl (fun v w => v.applySensor w) v
        let v := if s.sil.limitWait then (v.onSil (fun g => { g with limitWait := false })).limitWork else v
        if s.sil.stopBy = [] then v else v.silStopped
      (¬ failed → t.passLate k = false → exec (.passCommit dt m m2 fits us) s = .next (done (t.commitPass k))) ∧
      (¬ failed → t.passLate k = true → exec (.passCommit dt m m2 fits us) s = .next (done (t.abandonPass k))) ∧
      (failed → fits = false → exec (.passCommit dt m m2 fits us) s = .next (done (t.abandonPass k))) ∧
      (failed → fits = true → again ∨ t.passLate k = true → exec (.passCommit dt m m2 fits us) s = .next (done (reran.abandonPass k))) ∧
      (failed → fits = true → ¬ again → t.passLate k = false → exec (.passCommit dt m m2 fits us) s = .next (done (reran.commitPass k)))) ∧
    (∀ k, (t.commitPass k).sil.last = k ∧ (t.commitPass k).sil.abandonRun = 0) ∧
    (∀ k, s.sil.abandonRun < 2 → (t.abandonPass k).sil.tab = s.sil.tab.carryField k ∧ (t.abandonPass k).sil.st = s.sil.st)) ∧
  (∀ (s : State) (dt : Dt),
    let t := s.tick dt
    s.sil.st = .faulted → s.sil.faultAt + 16 ≤ s.tb.hcn →
    ((∀ a, s.sil.autoAt = some a → a + 256 < s.sil.faultAt) → exec (.sillageAutoRestart dt) s =
      .next ((t.silStart s.tb.hcn).onSil (fun g => { g with autoRestarted := true, autoAt := some s.tb.hcn }))) ∧
    (∀ a, s.sil.autoAt = some a → s.sil.faultAt ≤ a + 256 → exec (.sillageAutoRestart dt) s = .next t) ∧
    (t.silStart s.tb.hcn).sil.st = .run ∧ (t.silStart s.tb.hcn).sil.rst = s.tb.hcn ∧ (t.silStart s.tb.hcn).sil.tab.hist = [] ∧
    (∀ a, fld ((t.silStart s.tb.hcn).sil.tab.state a) 0 16 = 0))

/-! ## SCHED (11 R368; 06) -/

/-- A schedule, a holiday calendar and the site parameters are stored whole when every field is in its range, and each write triggers the
conversion of what lies ahead; a write out of range is RANGE and changes nothing; reserved bits are not kept (06 R197-R202, R210; 00 R11).
The SCHED reads: a schedule, which reads as empty until the configuration is loaded (00 R14; 19 R584), a calendar, the site parameters with
DST_ACTIVE, sunrise and sunset of a date, and the limits in force on a node with the priority and groups they come from; they change
nothing, and are refused with RANGE for a calendar, a date or an address that there is not (R368). Targets 256 HCN or less ahead are
converted a last time and leave the list of provisional targets; the others stay; an entry that fails to run is told in one record (06 R211,
R217). Concludes that exec answers a next state with the command's own effect, for: schedWrite, schedHolWrite, schedSiteWrite, schedRead,
schedHolRead, schedSiteRead, schedSunRead, schedLimitsRead, finalConversion. -/
def Obligations.SchedCommandsTakeEffect : Prop :=
  (∀ (s : State) (r : Req) (x : Session), Served s r x .configure →
    let t := s.taken r x
    (∀ g h l, g ≤ 255 → hdNent h = l.length → l.length ≤ 32 → (∀ w ∈ l, entryBad w = false) →
      ((s.nv.scheds.filter (fun e => e.1 != g)).map (fun e => e.2.entries.length)).foldl (· + ·) 0 + l.length ≤ 2048 →
      exec (.schedWrite r g h l) s = .next ((State.trigger (t.onNv (fun v => v.setScheds (tset {} v.scheds g ⟨h &&& 0xFF00003F#32, l⟩)))).answered r x 0x0601 .ok [])) ∧
    (∀ c l, c ≤ 3 → l.length ≤ 64 → (∀ w ∈ l, dateBad w = false) →
      exec (.schedHolWrite r c l) s = .next ((State.trigger (t.onNv (fun v => v.setHols (tset [] v.hols c (l.map (fun d => d &&& 0x00FFFFFF#32)))))).answered r x 0x0603 .ok [])) ∧
    (∀ p, siteBad p = false →
      exec (.schedSiteWrite r p) s = .next ((State.trigger (t.onNv (fun v => v.setSite p))).answered r x 0x0605 .ok [])) ∧
    (∀ g h l, 255 < g ∨ hdNent h ≠ l.length ∨ 32 < l.length ∨ (∃ w ∈ l, entryBad w = true) ∨
      2048 < ((s.nv.scheds.filter (fun e => e.1 != g)).map (fun e => e.2.entries.length)).foldl (· + ·) 0 + l.length →
      exec (.schedWrite r g h l) s = .next (t.answered r x 0x0601 .range [(0, 4)])) ∧
    (∀ c l, 3 < c ∨ 64 < l.length ∨ (∃ w ∈ l, dateBad w = true) → exec (.schedHolWrite r c l) s = .next (t.answered r x 0x0603 .range [(0, 4)])) ∧
    (∀ p, siteBad p = true → exec (.schedSiteWrite r p) s = .next (t.answered r x 0x0605 .range [(0, 4)]))) ∧
  (∀ (s : State) (r : Req) (x : Session), Served s r x .read →
    let t := s.taken r x
    (∀ g, 6 ≤ s.pow.phase.rank → exec (.schedRead r g) s = .next (t.answered r x 0x0602 .ok
      (((t.schedule g).header.toNat, 4) :: (t.schedule g).entries.map (fun w => (w.toNat, 8))))) ∧
    (∀ g, s.pow.phase.rank < 6 → exec (.schedRead r g) s = .next (t.answered r x 0x0602 .ok [(0, 4)])) ∧
    (∀ c, c ≤ 3 → exec (.schedHolRead r c) s = .next (t.answered r x 0x0604 .ok
      (((tget [] s.nv.hols c).length, 1) :: (tget [] s.nv.hols c).map (fun w => (w.toNat, 4))))) ∧
    (∀ c, 3 < c → exec (.schedHolRead r c) s = .next (t.answered r x 0x0604 .range [(0, 4)])) ∧
    (let p := s.nv.site
     exec (.schedSiteRead r) s = .next (t.answered r x 0x0606 .ok ([(unsext 32 p.lat, 4), (unsext 32 p.lon, 4), (unsext 16 p.stdOfs, 2), (b2n p.dstEn, 1)] ++
      rulePay p.dstStart ++ rulePay p.dstEnd ++ [(p.defFloor, 2), (p.defCeil, 2), (p.ntFloor, 2), (p.ntCeil, 2), (b2n s.nv.dstActive, 1)]))) ∧
    (∀ d, dtYear d ≠ 255 → dateBad d = false → exec (.schedSunRead r d) s = .next (t.answered r x 0x0607 .ok
      [(sunField (t.sun (dayNo (dtYear d) (dtMonth d) (dtDay d)) false), 4), (sunField (t.sun (dayNo (dtYear d) (dtMonth d) (dtDay d)) true), 4)])) ∧
    (∀ d, dtYear d = 255 ∨ dateBad d = true → exec (.schedSunRead r d) s = .next (t.answered r x 0x0607 .range [(0, 4)])) ∧
    (∀ a, a ≤ 16383 →
      let top := match t.civilIf with | some c => topCands (t.candidates a c) | none => []
      let prio := top.foldl (fun m e => max m e.1) 0
      let src := (rangeFrom 0 256).foldl (fun m g => if top.any (fun e => e.2.1 == g) then m + 2 ^ g else m) 0
      exec (.schedLimitsRead r a) s = .next (t.answered r x 0x0608 .ok
        [(limFloor (s.sil.tab.limit a), 2), (limCeil (s.sil.tab.limit a), 2), (limOvr (s.sil.tab.limit a), 2), (prio, 1), (src, 32)])) ∧
    (∀ a, 16383 < a → exec (.schedLimitsRead r a) s = .next (t.answered r x 0x0608 .range [(0, 4)]))) ∧
  (∀ (s : State) (dt : Dt), s.pow.phase = .complete → s.runs .c = true → (s.tick dt).bk.valid = true →
    let t := s.tick dt
    (let p := (s.sched.targets.filter (fun g => !g.final && decide (g.hcn ≤ s.tb.hcn + 256))).foldl
       (fun (p : State × Nat) g => let q := p.1.finalOne g.group g.entry g.day g.sec; (q.1, p.2 + q.2))
       ({ t with sched := { t.sched with targets := s.sched.targets.filter (fun g => g.final || !decide (g.hcn ≤ s.tb.hcn + 256)) } }, 0)
     exec (.finalConversion dt) s = .next (p.1.convFailed t.today p.2)) ∧
    (∀ far, s.sched.targets = far → (∀ g ∈ far, g.final = true ∨ s.tb.hcn + 256 < g.hcn) → exec (.finalConversion dt) s = .next t) ∧
    (∀ g far, s.sched.targets = g :: far → g.final = false → g.hcn ≤ s.tb.hcn + 256 → (∀ h ∈ far, h.final = true ∨ s.tb.hcn + 256 < h.hcn) →
      exec (.finalConversion dt) s =
        let p := State.finalOne { t with sched := { t.sched with targets := far } } g.group g.entry g.day g.sec
        .next (p.1.convFailed t.today p.2)))

/-! ## METER (11 R369; 07) -/

/-- INPUT_SET, GLOBAL_SET and PULSE_SET with fields in range and TGT at least 4 half-cycles ahead: the configuration is in MRAM at once and
its action is bound to TGT; in force it comes at TGT. A write of the same section that is pending is replaced and completes with DISCARDED
(`cfgWrite`); where none is pending, MRAM takes the write and the action is bound beside the others. A lead of less than 4 half-cycles is
LATE (07 R234, 02 R86, 11 R369). SNAPSHOT binds the copy to TGT or to h + 4, and STATE reads PENDING unless one is being filled (07 R242);
SUBSCRIBE replaces the session's subscription, 0 cancels it; SAT_CLEAR clears the chosen flags of PULSE_FLAG, but for one that sets at the
same moment (R260, R369; 00 R13). The METER reads: a section in force with its pending write, records of a feeder that its history holds
(RANGE where one of those asked for is not held), a snapshot that is ready (NOT_FOUND where there is none), the live accumulators, and the
last gaps; they change nothing. A configuration reads 0 until it is loaded (07 R237, R241, R242, R251, R369; 00 R14). Concludes that exec
answers a next state with the command's own effect, for: meterInputSet, meterGlobalSet, meterPulseSet, meterSnapshot, meterSubscribe,
meterSatClear, meterCfgRead, meterRecordRead, meterSnapRead, meterAccRead, meterGapRead. -/
def Obligations.MeterCommandsTakeEffect : Prop :=
  (∀ (s : State) (r : Req) (x : Session) (tgt : Nat), Served s r x .configure → s.pow.phase = .complete → tgt ≠ 0 → tgt ≤ s.tb.hcn + 2147483648 →
    let t := s.taken r x
    let takes := fun (i : Instr) (cmd : Nat) (w : ActWhat) =>
      (s.tb.hcn + 4 ≤ tgt → t.cfgFull w = false →
        exec i s = .next ((t.cfgWrite tgt (x.who r) cmd w (fun c => c.write w)).answered r x cmd .deferred [(tgt, 6)])) ∧
      (tgt < s.tb.hcn + 4 → exec i s = .next (t.answered r x cmd .late [(0, 4)]))
    (∀ i h l, i ≤ 29 → l.length = 16 → (if i < 24 then 1000 else 50000) ≤ inFs h → inFs h ≤ (if i < 24 then 2000000 else 1000000) → 10 * inNlt h < inFs h →
      let l' := l.map (fun p => p &&& 0xFFFF0000FFFFFFFF#64)
      tempsFall l' = false → takes (.meterInputSet r tgt i h l) 0x0701 (.meterInput i h l')) ∧
    (∀ a b n c, 50000 ≤ a → a ≤ 300000 → 50000 ≤ b → b ≤ 300000 → 1 ≤ n → n ≤ 60 → 1 ≤ c → c ≤ 720 →
      takes (.meterGlobalSet r tgt a b n c) 0x0702 (.meterGlobal a b n c)) ∧
    (∀ o q m c, o ≤ 1 → q ≤ 9 → c < 4294967296 → takes (.meterPulseSet r tgt o q m c) 0x0703 (.meterPulse o q m.toNat c)) ∧
    (∀ cmd w, (∀ a ∈ s.acts, cfgSection a.what ≠ cfgSection w) →
      t.cfgWrite tgt (x.who r) cmd w (fun c => c.write w) = (t.onNv (fun v => v.setMeterCfg (v.meterCfg.write w))).bind tgt (x.who r) cmd w)) ∧
  (∀ (s : State) (r : Req) (x : Session),
    let t := s.taken r x
    (∀ tgt, Served s r x .read → s.pow.phase = .complete → (tgt = 0 ∨ s.tb.hcn + 4 ≤ tgt) → tgt ≤ s.tb.hcn + 2147483648 → t.actsFull = false →
      let k := if tgt = 0 then s.tb.hcn + 4 else tgt
      exec (.meterSnapshot r tgt) s = .next (State.answered { t.bind k (x.who r) 0x0707 .meterSnap with
        meter := { t.meter with snap := if s.meter.snap.st = .filling then t.meter.snap else { t.meter.snap with st := .pending, t := k } } } r x 0x0707 .deferred [(k, 6)])) ∧
    (∀ mask n, Served s r x .read → 1 ≤ n → n ≤ 1200 → exec (.meterSubscribe r mask n) s =
      .next ((t.onSession x.id (fun y => { y with sub := some { fdrMask := mask, n := n } })).answered r x 0x0706 .ok [])) ∧
    (∀ mask n, Served s r x .read → 1200 < n → exec (.meterSubscribe r mask n) s = .next (t.answered r x 0x0706 .range [(0, 4)])) ∧
    (∀ mask, Served s r x .read → exec (.meterSubscribe r mask 0) s =
      .next ((t.onSession x.id (fun y => { y with sub := none })).answered r x 0x0706 .ok [])) ∧
    (∀ mask, Served s r x .operate →
      let clear := fun (u : State) (o : Nat) => if bit mask o then u.onPulse o (fun y => { y with sat := y.sat && y.satAt == u.now }) else u
      exec (.meterSatClear r mask) s = .next ((clear (clear t 0) 1).answered r x 0x070C .ok []))) ∧
  (∀ (s : State) (r : Req) (x : Session), Served s r x .read →
    let t := s.taken r x
    (∀ n, n ≤ 31 →
      let pend := s.acts.filter (fun a => decide (cfgSection a.what = some n))
      let part := fun (a : Action) => match a.what with | .meterPulse o .. => 31 + o | _ => n
      exec (.meterCfgRead r n) s = .next (t.answered r x 0x0704 .ok ((if n = 31 then [31, 32] else [n]).flatMap t.cfgShown.section ++
        [(b2n (!pend.isEmpty), 1)] ++ pend.flatMap (fun a => (a.t, 6) :: (t.cfgShown.write a.what).section (part a))))) ∧
    (6 ≤ s.pow.phase.rank → t.cfgShown = s.meter.cfg) ∧
    (∀ n, 31 < n → exec (.meterCfgRead r n) s = .next (t.answered r x 0x0704 .range [(0, 4)])) ∧
    (∀ f h (ws : List (BitVec 640)), f ≤ 7 → 1 ≤ ws.length → ws.length ≤ 16 →
      (∀ j, j < ws.length → (tget [] s.meter.records f).find? (fun v => recHcn v == h + j) = ws[j]?) →
      exec (.meterRecordRead r f h ws.length) s = .next (t.answered r x 0x0705 .ok ((ws.length, 1) :: ws.map (fun w => (w.toNat, 80))))) ∧
    (∀ f h n, 7 < f ∨ n = 0 ∨ 16 < n ∨ (∃ j, j < n ∧ (tget [] s.meter.records f).find? (fun v => recHcn v == h + j) = none) →
      exec (.meterRecordRead r f h n) s = .next (t.answered r x 0x0705 .range [(0, 4)])) ∧
    (let p := s.meter.snap
     ∀ first n, first < 256 → p.st = .ready → exec (.meterSnapRead r first n) s = .next (t.answered r x 0x0708 .ok
      (pagePay 256 first (pageCount 256 first n 16 42) [(p.t, 6), (p.stamp.toNat, 32), (p.tot.pulseA.2, 2), (p.tot.pulseB.2, 2)]
        (fun i => [(accEntry true (tget 0 p.tot.acc i), 16)])))) ∧
    (∀ first n, first < 256 → s.meter.snap.st = SnapState.none → exec (.meterSnapRead r first n) s = .next (t.answered r x 0x0708 .notFound [(0, 4)])) ∧
    (∀ first n, first < 256 → exec (.meterAccRead r first n) s = .next (t.answered r x 0x0709 .ok
      (pagePay 256 first (pageCount 256 first n 16 0) [] (fun i => [(accEntry false (tget 0 t.meter.acc i), 16)])))) ∧
    (∀ first n, 256 ≤ first → exec (.meterSnapRead r first n) s = .next (t.answered r x 0x0708 .range [(0, 4)]) ∧
      exec (.meterAccRead r first n) s = .next (t.answered r x 0x0709 .range [(0, 4)])) ∧
    exec (.meterGapRead r) s = .next (t.answered r x 0x070A .ok
      ((s.nv.gaps.length, 1) :: s.nv.gaps.flatMap (fun g => (g.pay.toNat, 32) :: g.split.map (fun v => (v, 8))))))

/-! ## Metering events (07 R223-R249) and converters (07 R252-R258, 18 R553) -/

/-- The record of a feeder's oldest interval that has ended is made, accumulated and kept as the newest of its history, with the HCN and the
duration of the interval (R223, R227, R237, R239). Concludes that exec answers a next state with the command's own effect, for:
meterRecordComplete. -/
def Obligations.MeterRecordIsTheNewestOfItsFeeder : Prop :=
  ∀ (s : State) (dt : Dt) (f k a b : Nat) (ph : List (List Sample)) (clip : Bool), f ≤ 7 → s.runs .d = true →
    s.ivlNext f = some k → s.ivl f k = some (a, b) → k < 2 ^ 48 → a ≤ b → b < a + 2 ^ 32 →
    ∃ (u : State) (w : BitVec 640), exec (.meterRecordComplete dt f ph clip) s = .next u ∧
      tget [] u.meter.records f = (w :: tget [] s.meter.records f).take 256 ∧ recHcn w = k ∧ recDur w = b - a ∧
      tget 0 u.meter.next f = k + 1 ∧ tget none u.meter.ended f = some b ∧ u.tb = s.tb ∧ u.sil = s.sil ∧ u.fdr = s.fdr ∧ u.nodes = s.nodes ∧ u.sign = s.sign

/-- A count of PEND becomes a pulse once the pulse before it and its gap are over: PEND falls by one, the output conducts for the width
fixed at its start, and when the width is over a gap of the same length begins (R243-R245). A snapshot is ready once every feeder's interval
before its t is complete, and waits again where another one is bound (R242); a periodic save writes its header and its feeder part, with
MARK_F, into the slot that does not hold the newest save, with the next SEQ, or the part alone where the header stands already, and then its
node part, with MARK_N (R247, R248). Concludes that exec answers a next state with the command's own effect, for: pulseStart, pulseEnd,
meterSnapshotComplete, periodicSave, periodicSaveDone. -/
def Obligations.PulsesSnapshotsAndSaves : Prop :=
  (∀ (s : State) (dt : Dt) (o : Nat),
    let t := s.tick dt
    (o ≤ 1 → 0 < (s.pulse o).pend → (s.pulse o).conducting = false → (s.pulse o).gapEnd ≤ t.now → s.pow.pulseHiZ = false → s.runs .d = true →
      s.meter.closed = none → s.pow.supplyFail = false → s.pow.cmdShutdown = false →
      let w := pulseWidth (s.meter.cfg.out o).const (powersWhole (s.meter.cfg.out o).mask (s.pulse o).powers)
      ∃ u : State, exec (.pulseStart dt o) s = .next u ∧ u.out = [.pulse o w] ∧
        u.pulse o = { s.pulse o with pend := (s.pulse o).pend - 1, conducting := true, width := w, began := t.now } ∧ u.meter.acc = s.meter.acc ∧ u.nv = s.nv) ∧
    ((s.pulse o).conducting = true → (s.pulse o).over t.now = true → exec (.pulseEnd dt o) s =
      .next (State.pulsesOff (t.onPulse o (fun y => { y with conducting := false, gapEnd := t.now + (s.pulse o).width * us10C }))))) ∧
  (∀ (s : State) (dt : Dt),
    let t := s.tick dt
    (s.meter.snap.st = .filling → s.runs .d = true → (∀ f, f < 8 → s.ivlsDone f s.meter.snap.t = true) → (∀ a ∈ s.acts, a.what ≠ .meterSnap) →
      exec (.meterSnapshotComplete dt) s = .next { t with meter := { t.meter with snap := { t.meter.snap with st := .ready } } }) ∧
    (∀ a, s.meter.snap.st = .filling → s.runs .d = true → (∀ f, f < 8 → s.ivlsDone f s.meter.snap.t = true) →
      s.acts.find? (fun a => decide (a.what = ActWhat.meterSnap)) = some a →
      exec (.meterSnapshotComplete dt) s = .next { t with meter := { t.meter with snap := { t.meter.snap with st := .pending, t := a.t } } }) ∧
    (∀ k, s.meter.saveFill = some k → s.meter.saving = none → s.meter.closed = none → s.runs .d = true → (∀ f, f < 8 → s.ivlsDone f k = true) →
      ∃ u : State, exec (.periodicSave dt) s = .next u ∧ (u.slotOf s.saveTarget.1).markF = true ∧ (u.slotOf s.saveTarget.1).markN = false ∧
        (u.slotOf s.saveTarget.1).seq = s.saveTarget.2 ∧ (u.slotOf s.saveTarget.1).s = k ∧ (u.slotOf s.saveTarget.1).tot.acc = s.meter.saveTot.acc ∧
        u.slotOf (1 - s.saveTarget.1) = s.slotOf (1 - s.saveTarget.1) ∧ u.meter.saving = some (s.saveTarget.1, k) ∧ u.meter.acc = s.meter.acc) ∧
    (∀ n k h, s.meter.saveFill = some k → s.meter.saving = some (n, h) → s.meter.closed = none → s.runs .d = true → (s.slotOf n).markF = false →
      ∃ u : State, exec (.periodicSave dt) s = .next u ∧ u.meter.acc = s.meter.acc ∧ u.meter.saving = some (n, h) ∧ u.meter.saveHcn = k ∧
        u.slotOf n = { s.slotOf n with markF := true, tot := { s.meter.saveTot with accounts := [], phases := [] }, means := s.meter.means k }) ∧
    (∀ n k, s.meter.saving = some (n, k) → s.runs .d = true → (n = 0 ∨ n = 1) → s.meter.closed = none → (s.slotOf n).markF = true → s.attribDone k = true →
      ∃ u : State, exec (.periodicSaveDone dt) s = .next u ∧ (u.slotOf n).markN = true ∧ u.meter.saving = none))

/-- A converter that fails is excluded, counted, and recorded at the level that handles it; its shadow or a spare takes the input it
measured, a calibration it takes part in is given up, whose other converter takes the input where there is no spare or becomes one, and with
none left the input fails, which the region records (R254, R255, 01 R33, 18 R553). The spares rotate over the inputs, a dwell of 64
intervals each; more than 8 of the 60 intervals compared that differ make the measuring converter suspect: it is counted and recorded, and
its calibration is due. A calibration falls due for an input every CAL_INT hours, runs over the boundaries b, b + 8, b + 72 and b + 80 of
its input's voltage set (a retirement ends at b + 8), and writes the new trims when the final comparison agrees, or excludes the converter
(R253, R257, R258). METER CALIBRATE is answered when the calibration starts: at once where nothing calibrates, nothing waits and both spares
are free, else held; one that has waited 60 s is refused with STATE (R257, R369). METER STATUS reads the converters, the save, the snapshot
and the pulse outputs. Concludes that exec answers a next state with the command's own effect, for: converterFailure, spareDwellEnd,
calibrationDue, calibrationStep, meterCalibrate, calibrateStartTimeout, meterStatus. -/
def Obligations.ConvertersRotateCalibrateAndFail : Prop :=
  (∀ (s : State) (dt : Dt) (c : Nat), c ≤ 31 → s.runs .d = true →
    let t := s.tick dt
    let x := (s.conv c).input
    let b := bump 255 s.meter.failCnt
    let e0 := (((t.onMeter (fun m => { m with failCnt := b.1 })).stuckIf b.2 (wMafe + 0x84) 24).convExclude c).wearInc 3 c
    let e := e0.raiseUnit (if (s.conv c).role = .measure ∧ e0.substituteFor x = none ∧ s.meter.calib = none then 2 else 1) 0x21 c 0x07
      (wMafe + 4 * c) [(x, 1)]
    ((s.conv c).role = .measure → ∀ d v, e.substituteFor x = some (d, v) →
      let u := e.convTakes d x v
      ((∀ k, u.meter.calib = some k → k.conv ≠ c ∧ k.spare ≠ c) → exec (.converterFailure dt c) s = .next u.tryCal) ∧
      (∀ k, u.meter.calib = some k → (k.conv = c ∨ k.spare = c) → ∃ o, (u.calAbandon c).1 = some o ∧ exec (.converterFailure dt c) s =
        .next (if o = d then (u.calAbandon c).2 else (u.calAbandon c).2.setConv o .spare k.dwell).tryCal)) ∧
    ((s.conv c).role = .measure → e.substituteFor x = none → s.meter.calib = none → exec (.converterFailure dt c) s = .next ((e.inputFails x).tryCal)) ∧
    ((s.conv c).role = .measure → e.substituteFor x = none → s.meter.calib.isSome = true → ∃ o, (e.calAbandon c).1 = some o ∧
      exec (.converterFailure dt c) s = .next ((((e.calAbandon c).2).convTakes o x
        (decide ((e.conv o).role = Role.shadow ∧ (e.conv o).input = x))).tryCal)) ∧
    ((s.conv c).role = .shadow ∨ (s.conv c).role = .cal →
      ((∀ k, s.meter.calib = some k → k.conv ≠ c ∧ k.spare ≠ c) → exec (.converterFailure dt c) s = .next e.tryCal) ∧
      (∀ k, s.meter.calib = some k → (k.conv = c ∨ k.spare = c) → exec (.converterFailure dt c) s = .next ((e.calAbandon c).2.tryCal))) ∧
    ((s.conv c).role = .spare →
      ((∀ k, s.meter.calib = some k → k.spare ≠ c) → exec (.converterFailure dt c) s = .next e.tryCal) ∧
      (∀ k, s.meter.calib = some k → k.spare = c → exec (.converterFailure dt c) s =
        .next (((e.onMeter (fun m => { m with calib := none })).calAdd k.input k.retire).tryCal))) ∧
    ((s.conv c).role = .excluded → exec (.converterFailure dt c) s = .next t)) ∧
  (∀ (s : State) (dt : Dt), s.runs .d = true →
    let t := s.tick dt
    (∀ c l, (s.conv c).role = .spare → s.meter.begun.isSome = true → t.dwelt c = true →
      let x := (s.conv c).input
      let u := t.setConv c .spare ((x + 1) % 30)
      let b := bump 255 s.meter.driftCnt
      (t.differing c l ≤ 8 ∨ u.convOn .measure x = none → exec (.spareDwellEnd dt c l) s = .next u) ∧
      (∀ d, 8 < t.differing c l → u.convOn .measure x = some d → exec (.spareDwellEnd dt c l) s =
        .next ((((((u.onMeter (fun m => { m with driftCnt := b.1 })).stuckIf b.2 (wMafe + 0x84) 16).wearInc 3 d).raiseUnit 1 0x21 d 0x07
          (wMafe + 4 * d) [(x, 1)]).calAdd x false).convWorn d).tryCal)) ∧
    (∀ c l, t.dwelt c = false → exec (.spareDwellEnd dt c l) s = .next t) ∧
    (∀ i, i ≤ 29 → (s.convOn .measure i).isSome = true → tget 0 s.meter.calAt i + s.meter.cfg.calInt * 3600 * secC ≤ t.now →
      exec (.calibrationDue dt i) s = .next ((t.calAdd i false true).tryCal)) ∧
    (∀ k o g w, s.meter.calib = some k →
      let came := fun (n : Nat) => t.atBoundary k.input (k.b + n) = true
      let goes := fun (u : State) (n : Nat) => u.onMeter (fun m => { m with calib := some { k with step := n } })
      (k.step = 0 → came 0 → exec (.calibrationStep dt w o g) s = .next (goes (t.setConv k.spare .shadow k.input) 1)) ∧
      (k.step = 1 → came 8 → k.retire = false →
        exec (.calibrationStep dt w o g) s = .next (goes ((t.setConv k.spare .measure k.input).setConv k.conv .cal 63) 2)) ∧
      (k.step = 1 → came 8 → k.retire = true →
        exec (.calibrationStep dt w o g) s = .next ((((t.setConv k.spare .measure k.input).convExclude k.conv).reserveNote 3 k.spare 1).calEnd)) ∧
      (k.step = 2 → came 72 → exec (.calibrationStep dt w o g) s = .next (goes (t.setConv k.conv .shadow k.input) 3)) ∧
      (k.step = 3 → came 80 →
        let old := tget (0, 0) s.nv.trims k.conv
        let b := bump 255 s.meter.calCnt
        let v := ((t.onNv (fun v => { v with trims := tset (0, 0) v.trims k.conv (o, g) })).setConv k.conv .measure k.input).setConv k.spare .spare k.dwell
        exec (.calibrationStep dt true o g) s = .next (((((v.onMeter (fun m => { m with calCnt := b.1 })).stuckIf b.2 (wMafe + 0x84) 8).raiseUnit 1
          0x21 k.conv 0x07 (wMafe + 4 * k.conv) [(unsext 32 old.1, 4), (unsext 32 old.2, 4), (unsext 32 o, 4), (unsext 32 g, 4)])).calEnd)) ∧
      (k.step = 3 → came 80 → exec (.calibrationStep dt false o g) s =
        .next ((((((t.convExclude k.conv).wearInc 3 k.conv).raiseUnit 1 0x21 k.conv 0x07 (wMafe + 4 * k.conv) [(k.input, 1)]).reserveNote 3 k.spare 1)).calEnd)) ∧
      ((∀ n ∈ [0, 8, 72, 80], ¬ came n) → exec (.calibrationStep dt w o g) s = .next t))) ∧
  (∀ (s : State) (r : Req) (x : Session) (dt : Dt),
    let t := s.taken r x
    let ready := fun (i : Nat) => s.meter.calib = none ∧ s.meter.calDue = [] ∧ 2 ≤ (s.convsIn .spare).length ∧ (s.convOn .measure i).isSome = true
    (∀ i, Served s r x .configure → i ≤ 29 → ready i →
      exec (.meterCalibrate r i) s = .next ((State.tryCal (t.onMeter (fun m => { m with calDue := [{ input := i }] }))).answered r x 0x070B .ok [])) ∧
    (∀ i, Served s r x .configure → i ≤ 29 → ¬ ready i →
      exec (.meterCalibrate r i) s = .next ((t.onMeter (fun m => { m with calDue := m.calDue ++ [{ input := i, who := some (x.id, r.seq, t.now) }] })).held r x 0x070B)) ∧
    (∀ i, Served s r x .configure → 29 < i → exec (.meterCalibrate r i) s = .next (t.answered r x 0x070B .range [(0, 4)])) ∧
    (let late := fun (d : CalWait) => match d.who with
       | some (_, _, since) => decide (since + 60 * secC ≤ s.now + dt.cclk)
       | none => false
     exec (.calibrateStartTimeout dt) s = .next ((s.meter.calDue.filter late).foldl (fun (u : State) (d : CalWait) => match d.who with
         | some (ses, seq, _) => u.answer ⟨ses, seq⟩ 0x070B .state [(0, 4)]
         | none => u)
       { s.tick dt with meter := { s.meter with calDue := s.meter.calDue.filter (fun d => !late d) } })) ∧
    (Served s r x .read → exec (.meterStatus r) s = .next (t.answered r x 0x070D .ok
      ([(t.mafeStat, 4), (t.meter.infail.toNat, 4), (t.mafeTemp, 4)] ++ (rangeFrom 0 32).map (fun c => (t.convReg c, 4)) ++
        [(t.meter.saveSeq, 4), (t.meter.saveHcn, 6), (t.meter.snap.reg, 8), (t.pulseStat, 4), (t.pulseFlag, 4)]))))

/-! ## ACCORD (11 R370; 08 R262-R274) -/

/-- The ACCORD commands: MODEL_SET and SNAPSHOT bind to an HCN at least 4 ahead, DEFAULT_SET and CFG_SET take effect at once and go to MRAM,
and the reads page through the models, the accounts, the phase blocks and a snapshot that is ready, and answer NOT_FOUND where there is
none. Entries beyond the table are RANGE, and a lead of less than 4 is LATE. Concludes that exec answers a next state with the command's own
effect, for: accordModelSet, accordDefaultSet, accordCfgSet, accordSnapshot, accordModelRead, accordAccountRead, accordPhaseRead,
accordSnapRead, accordStatus. -/
def Obligations.AccordCommandsTakeEffect : Prop :=
  ∀ (s : State) (r : Req) (x : Session),
    let t := s.taken r x
    let ahead := fun (k : Nat) => s.tb.hcn + 4 ≤ k ∧ k ≤ s.tb.hcn + 2147483648
    (∀ k first es, Served s r x .configure → s.pow.phase = .complete → k ≠ 0 → ahead k → es ≠ [] → es.length ≤ 173 → first + es.length ≤ 16384 →
      t.actsFull = false → exec (.accordModelSet r k first es) s =
        .next ((t.bind k (x.who r) 0x0801 (.accordModel first es)).storeModels.answered r x 0x0801 .deferred [(k, 6)])) ∧
    (∀ k first es, Served s r x .configure → es = [] ∨ 173 < es.length ∨ 16384 < first + es.length →
      exec (.accordModelSet r k first es) s = .next (t.answered r x 0x0801 .range [(0, 4)])) ∧
    (∀ k first es, Served s r x .configure → s.pow.phase = .complete → k ≠ 0 → k < s.tb.hcn + 4 → es ≠ [] → es.length ≤ 173 → first + es.length ≤ 16384 →
      exec (.accordModelSet r k first es) s = .next (t.answered r x 0x0801 .late [(0, 4)])) ∧
    (∀ w, Served s r x .configure → exec (.accordDefaultSet r w) s = .next (State.answered { t with
      accord := { t.accord with default := w }, nv := { t.nv with accDefault := w } } r x 0x0802 .ok [])) ∧
    (∀ thr tol, Served s r x .configure → thr ≤ 65535 → 1 ≤ tol → tol ≤ 50 → exec (.accordCfgSet r thr tol) s = .next (State.answered { t with
      accord := { t.accord with resThr := thr, attTol := tol }, nv := { t.nv with acCfg := (thr, tol) } } r x 0x0808 .ok [])) ∧
    (∀ thr tol, Served s r x .configure → 65535 < thr ∨ tol = 0 ∨ 50 < tol → exec (.accordCfgSet r thr tol) s =
      .next (t.answered r x 0x0808 .range [(0, 4)])) ∧
    (∀ k, Served s r x .read → s.pow.phase = .complete → (k = 0 ∨ ahead k) → t.actsFull = false →
      let b := if k = 0 then s.tb.hcn + 4 else k
      exec (.accordSnapshot r k) s = .next (State.answered { t.bind b (x.who r) 0x0806 .accordSnap with
        accord := { t.accord with snap := if s.accord.snap.st = .filling then t.accord.snap else { t.accord.snap with st := .pending, t := b } } } r x 0x0806 .deferred [(b, 6)])) ∧
    (Served s r x .read →
      (∀ first n, first < 16384 → exec (.accordModelRead r first n) s = .next (t.answered r x 0x0803 .ok
        (pagePay 16384 first (pageCount 16384 first n 8 0) [] (fun a => [((t.model a).toNat, 8)])))) ∧
      (∀ first n, first < 16384 → exec (.accordAccountRead r first n) s = .next (t.answered r x 0x0804 .ok
        (pagePay 16384 first (pageCount 16384 first n 16 0) [] (fun a => [((tget 0 s.accord.accounts a).toNat, 16)])))) ∧
      (∀ first n, first < 24 → exec (.accordPhaseRead r first n) s = .next (t.answered r x 0x0805 .ok
        (pagePay 24 first (pageCount 24 first n 64 0) [] (fun p => [((tget 0 s.accord.phases p).toNat, 64)])))) ∧
      (∀ first n, first < 16384 → s.accord.snap.st = .ready → exec (.accordSnapRead r first n 0) s = .next (t.answered r x 0x0807 .ok
        (pagePay 16384 first (pageCount 16384 first n 16 6) [(s.accord.snap.t, 6)] (fun a => [((tget 0 s.accord.snap.tot.accounts a).toNat, 16)])))) ∧
      (∀ first n, first < 24 → s.accord.snap.st = .ready → exec (.accordSnapRead r first n 1) s = .next (t.answered r x 0x0807 .ok
        (pagePay 24 first (pageCount 24 first n 64 6) [(s.accord.snap.t, 6)] (fun p => [((tget 0 s.accord.snap.tot.phases p).toNat, 64)])))) ∧
      (∀ first n k, k ≤ 1 → first < (if k = 0 then 16384 else 24) → s.accord.snap.st = SnapState.none →
        exec (.accordSnapRead r first n k) s = .next (t.answered r x 0x0807 .notFound [(0, 4)])) ∧
      (∀ first n k, 1 < k ∨ (if k = 0 then 16384 else 24) ≤ first → exec (.accordSnapRead r first n k) s = .next (t.answered r x 0x0807 .range [(0, 4)])) ∧
      exec (.accordStatus r) s = .next (t.answered r x 0x0809 .ok [(s.accord.alarm.toNat, 4), (s.accord.default.toNat, 8),
        (t.total (wAccord + 8) 16, 4), (t.total (wAccord + 8) 0, 4)]))

/-- The oldest record of a feeder that Accord has not attributed is attributed on its three phases (R264, R267): each phase block changes by
the attribution of that phase's energy to its nodes, whose attributed and residual parts make up the energy that was measured; neither the
meter's accumulators nor any stored configuration changes. A level snapshot is copied once into its slot of the ring (R264), and changed
models reach MRAM (R266). Concludes that exec answers a next state with the command's own effect, for: accordAttribution, levelSnapshotCopy,
modelTableStore. -/
def Obligations.AttributionSplitsMeasuredEnergy : Prop :=
  (∀ (e : Int) (tol : Nat) (ms : Modelled), (attribShares true e tol ms).attr + (attribShares true e tol ms).res = e) ∧
  (∀ (s : State) (dt : Dt) (f : Nat) (w : BitVec 640), f ≤ 7 → s.runs .d = true → s.attribNext f = some w → twf 0 s.accord.phases = true →
    ∃ u : State, exec (.accordAttribution dt f) s = .next u ∧ u.accord.attr = tset 0 s.accord.attr f (recHcn w + 1) ∧
      u.nv = s.nv ∧ u.sil = s.sil ∧ u.nodes = s.nodes ∧ u.meter.acc = s.meter.acc ∧ u.accord.models = s.accord.models ∧
      (∀ p, p ≤ 2 → tget 0 u.accord.phases (3 * f + p) =
        (attribShares (!unmeasured w p) (recEnergy w p) s.accord.attTol (s.modelled f p (recHcn w) (recDur w) ((recFlags w).testBit 11))).block
          (tget 0 s.accord.phases (3 * f + p))) ∧
      (∀ y, y / 3 ≠ f → tget 0 u.accord.phases y = tget 0 s.accord.phases y)) ∧
  (∀ (s : State) (dt : Dt) (k : Nat), s.runs .d = true → s.jnc.snapHcn = some k → s.jnc.snapDue = true → twf absent s.jnc.snap = true →
    twf absent s.accord.ring = true → ∃ u : State, exec (.levelSnapshotCopy dt) s = .next u ∧ u.jnc.snapDue = false ∧
      u.accord.ringHcn.head? = some k ∧ u.nv = s.nv ∧ u.accord.accounts = s.accord.accounts ∧
      (∀ a, a < 16384 → tget absent u.accord.ring (16384 * (k % 4) + a) = tget absent s.jnc.snap (16384 * (k % 2) + a)) ∧
      (∀ y, y / 16384 ≠ k % 4 → tget absent u.accord.ring y = tget absent s.accord.ring y)) ∧
  (∀ (s : State) (dt : Dt), s.runs .d = true → s.nv.modelsDirty = true →
    exec (.modelTableStore dt) s = .next (s.tick dt).storeModels ∧ (s.tick dt).storeModels.nv.modelsDirty = false ∧
    (s.acts = [] → (s.tick dt).storeModels.nv.modelSet = ⟨s.accord.models, s.blot.status⟩))

/-! ## BLOTTER (11 R371; 08 R275-R296) -/

/-- The BLOTTER commands: REQUEST of a joined node queues a request or merges with the one there is, CANCEL removes one that is not
commanded and silences one that is, CLEAR clears FAILED and SUSPECT of a node or of all, CFG_SET takes effect and is stored, and the reads
answer from the results, by request, by node or the newest, and from the status words; values outside their range are RANGE (R277, R290,
R296). A request that waits is planned again 256 half-cycles after it was deferred, ends NOT_MEASURED at its deadline, and a node whose
sweep age has reached SWEEP_INT is requested, once every SWEEP_INT hours (08 R277, R280); a judged probe without its ACK ends LINK_FAIL
after four turns (R286). Concludes that exec answers a next state with the command's own effect, for: blotterRequest, blotterCancel,
blotterClear, blotterCfgSet, blotterNodeRead, blotterResultRead, blotterStatus, requestRetry, requestDeadline, autoSweepDue,
probeAckTimeout. -/
def Obligations.BlotterCommandsAndTimers : Prop :=
  (∀ (s : State) (r : Req) (x : Session),
    let t := s.taken r x
    (∀ a d dl, Served s r x .operate → a ≤ 16383 → (d = 0 ∨ (10 ≤ d ∧ d ≤ 10000 ∧ d % 10 = 0)) → t.joinedAt a = true → s.pow.phase = .complete →
      (dl = 0 ∨ s.tb.hcn + 64 ≤ dl) →
      let q := t.request a x.id (if dl = 0 then s.tb.hcn + t.dayHcn else dl) d 2
      exec (.blotterRequest r a d dl) s = .next (q.2.answered r x 0x0901 .ok [(q.1, 4)]) ∧ q.2.blot.reqs.any (fun y => y.addr == a && y.id == q.1) = true) ∧
    (∀ n q, Served s r x .operate → s.blot.reqs.find? (fun y => y.id == n) = some q → q.start = none →
      exec (.blotterCancel r n) s = .next (State.answered { t with blot := { t.blot with reqs := s.blot.reqs.filter (fun y => y.id != n) } } r x 0x0902 .ok [])) ∧
    (∀ n q k, Served s r x .operate → s.blot.reqs.find? (fun y => y.id == n) = some q → q.start = some k →
      exec (.blotterCancel r n) s = .next (State.answered { t with blot := { t.blot with
        reqs := s.blot.reqs.map (fun y => if y.id == n then { y with quiet := true } else y) } } r x 0x0902 .ok [])) ∧
    (∀ n, Served s r x .operate → (∀ y ∈ s.blot.reqs, y.id ≠ n) → exec (.blotterCancel r n) s = .next (t.answered r x 0x0902 .notFound [(0, 4)])) ∧
    (∀ a, Served s r x .operate → a ≤ 16383 → exec (.blotterClear r a) s = .next (((t.setFailed a false).setSuspect a false).answered r x 0x0905 .ok [])) ∧
    (Served s r x .operate → exec (.blotterClear r 65535) s = .next (((t.blot.status.map Prod.fst).foldl (fun (u : State) a =>
      (u.setFailed a false).setSuspect a false) t).answered r x 0x0905 .ok [])) ∧
    (∀ a, Served s r x .operate → 16383 < a → a ≠ 65535 → exec (.blotterClear r a) s = .next (t.answered r x 0x0905 .range [(0, 4)])) ∧
    (∀ a d dl, Served s r x .operate → 16383 < a ∨ (d ≠ 0 ∧ (d < 10 ∨ 10000 < d ∨ d % 10 ≠ 0)) →
      exec (.blotterRequest r a d dl) s = .next (t.answered r x 0x0901 .range [(0, 4)])) ∧
    (∀ bc br : BitVec 32, Served s r x .configure →
      let b : Blotter := { bcCfg := bc, brCfg := br }
      let v := BitVec.ofNat 32 (pack [(16, 5, fld br 16 5), (0, 6, fld br 0 6)])
      let good := 1 ≤ b.sweepInt ∧ b.sweepInt ≤ 720 ∧ 1 ≤ b.delta ∧ b.delta ≤ 1000 ∧ 1 ≤ b.rate ∧ 5 ≤ b.nmK ∧ b.nmK ≤ 16 ∧ 5 ≤ b.devPct ∧ b.devPct ≤ 50
      (good → exec (.blotterCfgSet r bc br) s = .next (State.answered { t with
        blot := { t.blot with bcCfg := bc, brCfg := v }, nv := { t.nv with bcCfg := bc, brCfg := v } } r x 0x0906 .ok [])) ∧
      (¬ good → exec (.blotterCfgSet r bc br) s = .next (t.answered r x 0x0906 .range [(0, 4)]))) ∧
    (Served s r x .read →
      (∀ a n, a < 16384 → exec (.blotterNodeRead r a n) s = .next (t.answered r x 0x0904 .ok
        (pagePay 16384 a (pageCount 16384 a n 4 0) [] (fun y => [((tget 0 s.blot.status y).toNat, 4)])))) ∧
      (∀ mode key n, mode ≤ 2 → 1 ≤ n → n ≤ 40 →
        let l := (s.blot.results.filter (fun w => if mode = 0 then fld w 0 32 == key else if mode = 1 then fld w 48 14 == key else true)).take n
        (l ≠ [] → exec (.blotterResultRead r mode key n) s = .next (t.answered r x 0x0903 .ok ((l.length, 1) :: l.map (fun y => (y.toNat, 32))))) ∧
        (l = [] → exec (.blotterResultRead r mode key n) s = .next (t.answered r x 0x0903 .notFound [(0, 4)]))) ∧
      (∀ mode key n, 2 < mode ∨ n = 0 ∨ 40 < n → exec (.blotterResultRead r mode key n) s = .next (t.answered r x 0x0903 .range [(0, 4)])) ∧
      exec (.blotterStatus r) s = .next (t.answered r x 0x0907 .ok ((t.bcStat, 4) :: (rangeFrom 0 24).map (fun y => (t.brNf y, 4)))))) ∧
  (∀ (s : State) (dt : Dt), s.runs .c = true →
    let t := s.tick dt
    (∀ n, exec (.requestRetry dt n) s = .next { t with blot := { t.blot with reqs := s.blot.reqs.map (fun q =>
      if q.id == n then (if q.retryAt ≤ s.tb.hcn then { q with retryAt := 0 } else q) else q) } }) ∧
    (∀ n q, s.blot.reqs.find? (fun y => y.id == n && y.start.isNone && decide (y.deadline ≤ s.tb.hcn)) = some q →
      ∃ u : State, exec (.requestDeadline dt n) s = .next u ∧ u.blot.reqs = s.blot.reqs.filter (fun y => y.id != q.id) ∧
        u.blot.results = (({ req := q.id, addr := q.addr, outcome := 4, cause := q.cause, attempt := q.attempt, start := q.lastStart } : ResultRec).word :: s.blot.results).take 4096) ∧
    (∀ a, s.blot.auto = true → t.joinedAt a = true → s.blot.sweepInt ≤ fld (s.bstat a) 0 16 →
      (∀ v, tget none s.blot.sweptAt a = some v → v + s.blot.sweepInt * 3600 * secC ≤ t.now) →
      ∃ u : State, exec (.autoSweepDue dt a) s = .next u ∧ u.blot.reqs.any (fun q => q.addr == a) = true ∧ tget none u.blot.sweptAt a = some t.now ∧ u.nv = s.nv ∧ u.blot.results = s.blot.results) ∧
    (∀ a p j, s.blot.probes.find? (fun y => y.addr == a && y.judged.isSome) = some p → p.judged = some j →
      4 ≤ t.turns (a / 2048) (a % 2048) (p.start + 16) (t.feeder (a / 2048)).frame →
      exec (.probeAckTimeout dt a) s = .next (t.finishProbe p 7 0 15 j)))

/-- When 16 values of P' of a phase end a window, R of all 15 codes is taken from them, an unflagged window gives noise samples, and the
window is kept with its START (08 R282-R284); the window here has no probe. Concludes that exec answers a next state with the command's own
effect, for: windowCorrelate. -/
def Obligations.WindowsAreCorrelatedOnce : Prop :=
  ∀ (s : State) (dt : Dt) (ph : Nat) (l : List Corr) (h : Nat), ph ≤ 23 → s.runs .d = true → tget [] s.blot.corr ph = l →
    l.length = 16 → (∀ i e, l[i]? = some e → e.hcn + i = h ∧ e.flag = false) → h % 16 = 15 →
    (s.win ph).start < h - 15 ∨ (s.win ph).r = [] → (∀ p ∈ s.blot.probes, p.start ≠ h - 15) → (∀ p ∈ s.blot.plan, p.1 ≠ h - 15) →
    ∃ u : State, exec (.windowCorrelate dt ph) s = .next u ∧ (u.win ph).start = h - 15 ∧ (u.win ph).flag = false ∧
      (∀ c, 2 ≤ c → c ≤ 15 → (u.win ph).of c = roundDiv ((l.reverse.zip (rangeFrom 0 16)).foldl (fun t e => t + walsh c e.2 * e.1.p) 0) (16 * modelDen)) ∧
      (tget {} u.blot.noise ph).samples = (((rangeFrom 1 15).map (u.win ph).of) ++ (tget {} s.blot.noise ph).samples).take 256 ∧
      u.blot.reqs = s.blot.reqs ∧ u.blot.status = s.blot.status ∧ u.nv = s.nv ∧ u.accord = s.accord ∧
      (twf {} s.blot.win = true → ∀ y, y ≠ ph → u.win y = s.win y)

/-! ## SIGN (11 R372-R374; 09) -/

/-- The SIGN commands on the local matrix and on remote drivers: WRITE fills the back buffer while no swap is pending, SWAP arms, binds or
cancels the swap of the local matrix and of the drivers it names, the configuration writes are stored and the reads show it; a command for a
driver is queued on its port and answered later, and refused with STATE where the port is in FAULT; values outside their range are RANGE
(R308, R309, R329-R331, R372-R374, R609). Concludes that exec answers a next state with the command's own effect, for: signWrite, signBus,
signSwap, signCfgSet, signTrimSet, signPopSet, signDefaultSet, signCellSet, signFaultRead, signColsRead, signStatus. -/
def Obligations.SignCommandsTakeEffect : Prop :=
  ∀ (s : State) (r : Req) (x : Session),
    let t := s.taken r x
    let cfg := fun (cmd : Nat) (g : SignCfg → SignCfg) => State.answered { t with nv := { t.nv with signCfg := g s.nv.signCfg } } r x cmd .ok []
    let named := fun (rem : List (Nat × Nat)) => ∀ d ∈ rem, d.1 ≤ 3 ∧ 1 ≤ d.2 ∧ d.2 ≤ 63
    (Served s r x .operate →
      (∀ d off data, s.sign.swapPend = false → s.sign.backReady = true → off + data.length ≤ 1024 → exec (.signWrite r 0 d off data) s =
        .next (State.answered { t with sign := { t.sign with pix := pixWrite s.sign.pix (1024 - 1024 * b2n s.sign.front) off data } } r x 0x0A01 .ok [])) ∧
      (∀ d off data, 1024 < off + data.length → exec (.signWrite r 0 d off data) s = .next (t.answered r x 0x0A01 .range [(0, 4)])) ∧
      (∀ p d off data, p ≤ 3 → 1 ≤ d → d ≤ 63 → (s.port p).fault = false → data ≠ [] → data.length ≤ 236 →
        exec (.signWrite r (p + 1) d off data) s = .next ((t.onPort p (fun y => { y with queue := y.queue ++
          [{ daddr := d, cmd := 2, pay := leBytes 2 off ++ data, host := some (x.id, r.seq, 0x0A01) }] })).held r x 0x0A01)) ∧
      (∀ p d off data, p ≤ 3 → 1 ≤ d → d ≤ 63 → (s.port p).fault = true →
        exec (.signWrite r (p + 1) d off data) s = .next (t.answered r x 0x0A01 .state [(0, 4)])) ∧
      (∀ p d c pay, p ≤ 3 → d ≤ 63 → (s.port p).fault = false → c ≠ 1 → c ≤ 255 → pay.length ≤ 240 →
        exec (.signBus r p d c pay) s = .next ((t.onPort p (fun y => { y with queue := y.queue ++
          [{ daddr := d, cmd := c, pay := pay, host := some (x.id, r.seq, 0x0A09) }] })).held r x 0x0A09)) ∧
      (∀ p d c pay, p ≤ 3 → d ≤ 63 → (c = 1 ∨ (s.port p).fault = true) → exec (.signBus r p d c pay) s = .next (t.answered r x 0x0A09 .state [(0, 4)])) ∧
      (∀ p d c pay, 3 < p ∨ 63 < d → exec (.signBus r p d c pay) s = .next (t.answered r x 0x0A09 .range [(0, 4)])) ∧
      (∀ (loc : Bool) rem k, named rem → (loc = true → s.sign.swapPend = false) → s.pow.phase = .complete →
        let u := if loc then t.onSign (fun g => { g with swapPend := true, swapAtHcn := false }) else t
        let lost := rem.filter (fun d => (t.port d.1).fault)
        (rem = [] → exec (.signSwap r 0 k loc rem) s = .next (u.answered r x 0x0A02 .ok [])) ∧
        (rem ≠ [] → lost.length = rem.length → exec (.signSwap r 0 k loc rem) s = .next (u.answered r x 0x0A02 .timeout (lateList rem))) ∧
        (rem ≠ [] → lost.length ≠ rem.length → exec (.signSwap r 0 k loc rem) s = .next ((({ u with
          remSwaps := u.remSwaps ++ [(⟨u.order, none, rem.filter (fun d => !(t.port d.1).fault), lost, x.id, r.seq⟩ : RemSwap)]
          order := u.order + 1 } : State).swapRemote 0 0 rem (some u.order)).held r x 0x0A02))) ∧
      (∀ (loc : Bool) rem k, named rem → s.pow.phase = .complete → k ≠ 0 → k ≤ s.tb.hcn + 2147483648 →
        (s.tb.hcn + (if rem = [] then 4 else 64) ≤ k → (loc = true → s.sign.swapPend = false) → t.actsFull = false →
          let u := t.bind k (x.who r) 0x0A02 (.signSwap loc rem)
          let u := if loc then u.onSign (fun g => { g with swapPend := true, swapAtHcn := true, swapHcn := k }) else u
          let u : State := if rem = [] then u else { u with remSwaps := u.remSwaps ++ [(⟨s.order, some k, rem, [], x.id, r.seq⟩ : RemSwap)] }
          exec (.signSwap r 1 k loc rem) s = .next ((u.swapRemote 1 k rem (some s.order)).answered r x 0x0A02 .deferred [(k, 6)])) ∧
        (k < s.tb.hcn + (if rem = [] then 4 else 64) → exec (.signSwap r 1 k loc rem) s = .next (t.answered r x 0x0A02 .late [(0, 4)]))) ∧
      (∀ (loc : Bool) rem k, named rem → s.pow.phase = .complete → exec (.signSwap r 2 k loc rem) s =
        .next (((if loc then t.swapCancel else t).swapRemote 2 0 rem none).answered r x 0x0A02 .ok [])) ∧
      (t.swapCancel.sign.swapPend = false ∧ t.swapCancel.sign.swapAtHcn = false) ∧
      (∀ (loc : Bool) rem k m, 2 < m ∨ ¬ named rem → exec (.signSwap r m k loc rem) s = .next (t.answered r x 0x0A02 .range [(0, 4)]))) ∧
    (Served s r x .configure →
      (∀ (w : BitVec 32) g, let c : SignCfg := { scan := setFld w 18 1 0 }
        let good := c.syncSrc ≠ 3 ∧ 1 ≤ c.ncol ∧ c.ncol ≤ 50 ∧ 4 ≤ c.blank ∧ c.blank ≤ 64 ∧ g ≤ 255
        (good → exec (.signCfgSet r w g) s = .next (cfg 0x0A03 (fun d => { d with scan := setFld w 18 1 0, gcur := g }))) ∧
        (¬ good → exec (.signCfgSet r w g) s = .next (t.answered r x 0x0A03 .range [(0, 4)]))) ∧
      (∀ first l,
        (first + l.length ≤ 50 → (∀ v ∈ l, v ≤ 63) → exec (.signTrimSet r first l) s = .next (cfg 0x0A04 (fun d => { d with trims := tsetAll 32 d.trims first l }))) ∧
        (50 < first + l.length ∨ (∃ v ∈ l, 63 < v) → exec (.signTrimSet r first l) s = .next (t.answered r x 0x0A04 .range [(0, 4)]))) ∧
      (∀ row w, row ≤ 15 → exec (.signPopSet r row w) s = .next (cfg 0x0A05 (fun d => { d with pop := tset 0 d.pop row (BitVec.ofNat 50 w.toNat) }))) ∧
      (∀ row w, 15 < row → exec (.signPopSet r row w) s = .next (t.answered r x 0x0A05 .range [(0, 4)])) ∧
      (∀ off commit data, off + data.length ≤ 1024 →
        let u : State := { t with sign := { t.sign with staged := pixWrite s.sign.staged 0 off data } }
        exec (.signDefaultSet r off commit data) s = .next (State.answered
          (if commit then u.onNv (fun v => v.setDefaultFrame u.sign.staged) else u) r x 0x0A06 .ok [])) ∧
      (∀ off commit data, 1024 < off + data.length → exec (.signDefaultSet r off commit data) s = .next (t.answered r x 0x0A06 .range [(0, 4)])) ∧
      (∀ col c, col < s.sign.cfg.ncol → c ≤ 49 →
        (s.sign.spares.contains c = true → exec (.signCellSet r col c) s =
          .next (State.answered { t with sign := { t.sign with cellNext := s.sign.cellNext.filter (fun e => e.1 != col) ++ [(col, c)] } } r x 0x0A0A .ok [])) ∧
        (s.sign.spares.contains c = false → exec (.signCellSet r col c) s = .next (t.answered r x 0x0A0A .state [(0, 4)]))) ∧
      (∀ col c, s.sign.cfg.ncol ≤ col ∨ 49 < c → exec (.signCellSet r col c) s = .next (t.answered r x 0x0A0A .range [(0, 4)]))) ∧
    (Served s r x .read →
      (∀ row, row ≤ 15 → exec (.signFaultRead r row) s = .next (t.answered r x 0x0A08 .ok ((t.faultBlock row).map (fun v => (v, 8))))) ∧
      exec (.signFaultRead r 255) s = .next (t.answered r x 0x0A08 .ok ((rangeFrom 0 16).flatMap (fun q => (t.faultBlock q).map (fun v => (v, 8))))) ∧
      (∀ row, 15 < row → row ≠ 255 → exec (.signFaultRead r row) s = .next (t.answered r x 0x0A08 .range [(0, 4)])) ∧
      exec (.signColsRead r) s = .next (t.answered r x 0x0A0B .ok ((rangeFrom 0 50).map (fun c => (t.sinkCol c, 4)))) ∧
      exec (.signStatus r) s = .next (t.answered r x 0x0A07 .ok
        ([(t.cfgAt 4 s.nv.signCfg.gcur, 4), (s.sign.sinkStat, 4), (s.sign.excl.toNat, 8), (t.cfgAt 4 s.nv.signCfg.scan.toNat, 4), (s.sign.scanStat, 4),
          (s.sign.frameLen, 4), (s.sign.slotLen, 4), (s.sign.swapReg, 8)] ++
          (rangeFrom 0 4).flatMap (fun p => [((s.port p).stat, 4), ((s.port p).pres.toNat, 8)]))))

/-- The scan: a sync event sets the frame and slot lengths from the reference period and starts frame 0, at an HCN edge, at an active edge
of SIGN_SYNC, and at the ends of the periods that the scan times itself (R303-R307); a row slot drives at its time the next row of the front
buffer (R302); a swap toggles the buffers at its boundary and the new back buffer becomes a copy of what is displayed (R309, R310); and a
lost SIGN_SYNC is recorded (R307). Sink cells and LEDs: the measurement of a row slot, or of its probe, enters the history of its position
where the drive lasts the measurement (R312-R314), a cell that fails at 2 mA or more waits for the next row slot with one count and one
notification (R318, R319), and a test in the sync guard excludes a replaced or spare cell that fails it; the cell of a suspect column that
fails waits for its replacement (R320). Concludes that exec answers a next state with the command's own effect, for: scanSyncEvent,
signSyncEdge, signSyncLost, swapBoundary, backCopyDone, rowSlotStart, ledMeasure, cellFailure, sinkCellTest. -/
def Obligations.MatrixIsScannedAndMeasured : Prop :=
  (∀ (s : State) (dt : Dt), s.runs .m = true → s.sign.run = true →
    let t := s.tick dt
    (s.sign.cfg.syncSrc = 0 → s.sign.edgeDue = true → t.now ≤ s.tb.lastEdge + 25 → ∃ u : State, exec (.scanSyncEvent dt) s = .next u ∧
      u.sign.frameLen = (3 * s.tb.period - 48000) / 200 ∧ u.sign.slotLen = u.sign.frameLen / s.sign.cfg.nrows ∧ u.sign.row = 0 ∧ u.sign.inFrame = true ∧
      u.sign.edgeDue = false ∧ u.sign.syncAt = some (3 * t.now) ∧ u.sign.freeRun = false ∧ u.sign.frameNo = s.sign.frameNo + 1 ∧ u.sign.cfg = s.sign.cfg.atBoundary s.nv.signCfg ∧
      u.sign.pix = s.sign.pix) ∧
    (∀ a, (s.sign.cfg.syncSrc = 2 ∨ (s.sign.cfg.syncSrc = 0 ∧ t.edgeHere = false ∧ s.sign.freeRun = true)) → t.selfDue t.nominal3 = some a →
      exec (.scanSyncEvent dt) s = .next (t.syncEvent a t.nominal3 8)) ∧
    (∀ a, let p := 3 * (if s.sign.syncPeriod = 0 then 8000000 else s.sign.syncPeriod)
      s.sign.cfg.syncSrc = 1 → s.sign.syncLost = true → t.selfDue p = some a → exec (.scanSyncEvent dt) s = .next (t.syncFrames a p)) ∧
    (s.sign.cfg.syncSrc = 1 → (∀ a, s.sign.lastEdge = some a → a + msC ≤ t.now) → ∃ u : State, exec (.signSyncEdge dt) s = .next u ∧
      u.sign.lastEdge = some t.now ∧ u.sign.syncLost = false ∧ u.sign.row = 0 ∧ u.sign.inFrame = true ∧ u.sign.pix = s.sign.pix ∧
      u.sign.syncPin = !s.sign.cfg.syncFalling) ∧
    (s.sign.cfg.syncSrc = 1 → s.sign.syncLost = false →
      (match s.sign.lastEdge with
        | some a => a + 2 * (if s.sign.syncPeriod = 0 then 8000000 else s.sign.syncPeriod)
        | none => s.sign.startAt + 40 * msC) ≤ t.now →
      exec (.signSyncLost dt) s = .next (State.raiseUnit { t with sign := { t.sign with syncLost := true } } 1 0x39 0xFFF 0x0A (wScan + 4) [])) ∧
    (t.swapDue = true → exec (.swapBoundary dt) s = .next { t with
      sign := { t.sign with front := !s.sign.front, swapPend := false, swapAtHcn := false, backReady := false } }) ∧
    (s.sign.backReady = false → twf 0 s.sign.pix = true → ∃ u : State, exec (.backCopyDone dt) s = .next u ∧ u.sign.backReady = true ∧
      u.sign.front = s.sign.front ∧ ∀ i, i < 1024 →
        tget 0 u.sign.pix (1024 * b2n s.sign.front + i) = tget 0 s.sign.pix (1024 * b2n s.sign.front + i) ∧
        tget 0 u.sign.pix (1024 - 1024 * b2n s.sign.front + i) = tget 0 s.sign.pix (1024 * b2n s.sign.front + i)) ∧
    (s.sign.inFrame = true → t.atThird s.sign.slotDue = true →
      let a := if s.sign.row = 0 ∧ 0 < s.sign.frameOfPeriod then t.slotOver.frameStart else t.slotOver
      let v := (if a.swapDue then a.onSign Sign.swap else a).cellsReplaced
      ∃ u : State, exec (.rowSlotStart dt) s = .next u ∧
      u.out = v.out ++ (if s.pow.signHiZ then [] else [.row s.sign.row (v.sign.cfg.selects (some s.sign.row))
        (if v.sign.probeFrame then (rangeFrom 0 50).map (fun c => v.sign.probeCurrent s.sign.row c) else [])
        ((rangeFrom 0 50).map (fun c => v.sign.current s.sign.row c))]) ∧
      u.sign.slot = some (s.sign.row, v.sign.slotDue, v.sign.slotDue + aux3 v.sign.slotLen) ∧
      u.sign.row = (if s.sign.cfg.nrows ≤ s.sign.row + 1 then 0 else s.sign.row + 1) ∧ u.sign.pix = s.sign.pix ∧ u.sign.front = v.sign.front)) ∧
  (∀ (s : State) (dt : Dt), s.runs .m = true → s.sign.run = true →
    let t := s.tick dt
    (∀ y k st en, s.sign.slot = some (k, st, en) → t.atThird (s.sign.measureAt false st en) = true → s.sign.windowFits = true →
      s.sign.measurable k y.col = true → twf {} s.sign.leds = true →
      ∃ u : State, exec (.ledMeasure dt false [y]) s = .next u ∧
      tget {} u.sign.leds (50 * k + y.col) = (s.sign.led k y.col).take s.sign.frameNo (ledReads s.sign.cfg.shortThr y.volt)) ∧
    (∀ y k st en, s.sign.slot = some (k, st, en) → t.atThird (s.sign.measureAt true st en) = true → s.sign.windowFits = true → s.sign.probeFrame = true →
      s.sign.driven k y.col = true → s.sign.lost y.col = false → twf {} s.sign.leds = true →
      ∃ u : State, exec (.ledMeasure dt true [y]) s = .next u ∧
      tget {} u.sign.leds (50 * k + y.col) = (s.sign.led k y.col).take s.sign.frameNo (ledReads s.sign.cfg.shortThr y.volt)) ∧
    (∀ c col d, s.sign.cells.find? (fun e => e.2 == c) = some (col, d) → s.sign.failed.any (fun e => e.2 == c) = false → twoMa ≤ t.cellSetting col →
      let b := bump 255 s.sign.failCnt
      exec (.cellFailure dt [c]) s = .next (((State.stuckIf { t with sign := { t.sign with
        failCnt := b.1, failed := s.sign.failed ++ [(col, c)] } } b.2 (wSink + 4) 24).wearInc 4 c).signNote 4 255 col 255 c 0)) ∧
    (∀ c, c ≤ 49 → t.inGuard = true → s.sign.tests.find? (fun e => e.cell == c) = none → s.sign.spareDue c = true →
      let v : State := { t with sign := { t.sign with testedAt := tset 0 s.sign.testedAt c s.sign.periodNo } }
      exec (.sinkCellTest dt c true) s = .next v ∧ exec (.sinkCellTest dt c false) s = .next ((v.cellExclude c).wearInc 4 c)) ∧
    (∀ c k, c ≤ 49 → t.inGuard = true → s.sign.tests.find? (fun e => e.cell == c) = some k →
      let v : State := { t with sign := { t.sign with tests := s.sign.tests.filter (fun e => e.cell != c), testedAt := tset 0 s.sign.testedAt c s.sign.periodNo } }
      (k.suspect = true → exec (.sinkCellTest dt c true) s = .next (v.raiseHw 1 0x38 c 0x0A05 [k.col])) ∧
      (k.suspect = false → exec (.sinkCellTest dt c true) s = .next (v.raiseHw 1 0x38 c 0x0A04 [c, k.col])) ∧
      (k.suspect = false → exec (.sinkCellTest dt c false) s = .next ((v.cellExclude c).raiseHw 1 0x38 c 0x0A03 [c, k.col])) ∧
      (k.suspect = true → s.sign.cellOf k.col = some c → s.sign.lost k.col = false →
        exec (.sinkCellTest dt c false) s = .next { v with sign := { v.sign with failed := s.sign.failed ++ [(k.col, c)] } }) ∧
      (k.suspect = true → s.sign.cellOf k.col ≠ some c ∨ s.sign.lost k.col = true → exec (.sinkCellTest dt c false) s = .next v)))

/-- The sign bus: SYNC goes out on every port it is due on (R326), an idle port starts its next transaction when it fits before the edge
(R327), a good response completes it, a bad or late one is counted and retried (R328), an IDENT that passes its echo check heals a port in
FAULT, and echo mismatches put the port in FAULT (R329). Concludes that exec answers a next state with the command's own effect, for:
sbusSyncSend, sbusTransaction, sbusResponse, sbusResponseTimeout, sbusEchoMismatch. -/
def Obligations.SignBusTransactionsComplete : Prop :=
  ∀ (s : State) (dt : Dt), s.runs .m = true →
    let t := s.tick dt
    (t.syncTime = true → s.pow.signHiZ = false → twf {} s.sbus = true →
      ∃ u : State, exec (.sbusSyncSend dt) s = .next u ∧ u.out = ((rangeFrom 0 4).filter s.syncDue).map (fun p =>
          let fr := sbusFrame 0 1 (s.port p).seq s.syncPay
          Out.sbus p fr (sbusLine fr)) ∧
        ∀ p, p < 4 → (s.syncDue p = true → (u.port p).syncHcn = some s.tb.hcn ∧ (u.port p).syncPass = (s.port p).fault ∧
            (u.port p).seq = ((s.port p).seq + 1) % 256 ∧ (u.port p).cur = (s.port p).cur) ∧
          (s.syncDue p = false → u.port p = s.port p)) ∧
    (∀ p k y, p ≤ 3 → s.pow.signHiZ = false → (s.port p).idleAt t.now = true → (s.port p).syncHcn = some s.tb.hcn → s.nextTx p = some (k, y) →
      t.now + k.worst + 10 * us10C ≤ s.tb.lastEdge + s.tb.period →
      exec (.sbusTransaction dt p) s =
        .next ((t.onPort p (fun _ => { y with cur := some ({ k with attempt := k.attempt + 1 }, y.seq) })).transmit p k.daddr k.cmd k.pay)) ∧
    (∀ p k q, p ≤ 3 → (s.port p).cur = some (k, q) →
      (∀ fr : SbusFrame, (s.port p).mayEnd t.now (7 + fr.pay.length) = true →
       let v0 := t.onPort p (fun y => { y with lineEnd := t.now })
       let v := if (v0.port p).identPasses k then v0.portHeals p else v0
       (fr.crcOk = true → fr.cmd = k.cmd → fr.seq = q → exec (.sbusResponse dt p fr) s = .next (v.txDone p k fr)) ∧
       (fr.crcOk = true → (fr.cmd ≠ k.cmd ∨ fr.seq ≠ q) → exec (.sbusResponse dt p fr) s = .next (v.attemptFails p k)) ∧
       (fr.crcOk = false → let b := bump 255 (v.port p).crcErr
        exec (.sbusResponse dt p fr) s = .next ((State.stuckIf ((v.onPort p (fun y => { y with crcErr := b.1 })).addTotal (wSbus + 16 * p) 8 1) b.2
          (wSbus + 16 * p) 8).attemptFails p k))) ∧
      ((s.port p).lineEnd + 60000 ≤ t.now → exec (.sbusResponseTimeout dt p) s =
        .next ((if (s.port p).identPasses k then t.portHeals p else t).attemptFails p k))) ∧
    (∀ p, p ≤ 3 → (s.port p).txOk = true → t.now < (s.port p).lineEnd → twf {} s.sbus = true → ∃ u : State, exec (.sbusEchoMismatch dt p) s = .next u ∧
      (u.port p).echoFail = (bump 255 (s.port p).echoFail).1 ∧ (u.port p).txOk = false ∧ (u.port p).echoRun = (s.port p).echoRun + 1 ∧
      (u.port p).cur = none ∧ (u.port p).lineEnd = t.now ∧ (u.port p).fault = ((s.port p).fault || decide (15 ≤ (s.port p).echoRun)))

/-! ## KEY and the key store (11 R376; 14) -/

/-- The KEY writes of a module with its root and not scrapped: LOAD holds a pending twin of the key that WKEY unwraps to under the session's
KX, and GENERATE one that is derived (slot 4 from the site key, a feeder slot from the segment key at g = 1) or comes from the entropy
source within the range of its TYPE; COMMIT with the twin's KCV makes it the active key and wraps the keys under it anew; the operator key
is replaced under the signature of the one that stands, the deny list and the tamper responses are replaced, and an acknowledged seal
clears. While a seal stands the writes are refused with TAMPER (14 R431-R437, R448, R450, R461). Concludes that exec answers a next state
with the command's own effect, for: keyLoad, keyGenerate, keyCommit, keyOperatorSet, keyDenySet, keyTamperSet, keyTamperAck. -/
def Obligations.KeyWritesTakeEffect : Prop :=
  ∀ (s : State) (r : Req) (x : Session), Served s r x .keys → s.nv.lcs ≠ 3 → s.keys.rootOk = true →
    let t := s.taken r x
    let twin := fun (n : Nat) (a : BitVec 64) (k : Nat) (u : State) => ({ u with keys := { u.keys with
      twins := tset none s.keys.twins n (some ⟨a, k, kcvOf (fld a 16 4) k, t.now⟩) } } : State)
    let fits := fun (n : Nat) (a : BitVec 64) => n < 64 ∧ t.attrBad n a = false ∧ usageBad (fld a 16 4) (fld a 0 6) = false ∧
      t.parentOrphaned a = false ∧ t.parentUsageBad a = false
    (t.sealed = false →
      (∀ n a wkey wkeyA k, fits n a → ¬ (8 ≤ n ∧ n ≤ 15) → unwrapKey (t.kxOf x.id) (fld a 16 4) wkey wkeyA = some k →
        exec (.keyLoad r n a wkey wkeyA) s = .next ((twin n a k t).answered r x 0x0B02 .ok [(kcvOf (fld a 16 4) k, 3)])) ∧
      (∀ n a wkey wkeyA, n < 64 → ¬ (8 ≤ n ∧ n ≤ 15) → t.attrBad n a = false → unwrapKey (t.kxOf x.id) (fld a 16 4) wkey wkeyA = none →
        exec (.keyLoad r n a wkey wkeyA) s = .next (t.answered r x 0x0B02 .range [(1, 4)])) ∧
      (∀ n a wkey wkeyA, 64 ≤ n ∨ (8 ≤ n ∧ n ≤ 15) ∨ t.attrBad n a = true →
        exec (.keyLoad r n a wkey wkeyA) s = .next (t.answered r x 0x0B02 .range [(0, 4)])) ∧
      (∀ n a, fits n a →
        (n = 4 → let k := t.segmentKey
          exec (.keyGenerate r n a) s = .next ((twin n a k t).answered r x 0x0B03 .ok [(kcvOf (fld a 16 4) k, 3)])) ∧
        (8 ≤ n → n ≤ 15 → (t.slot n).st ≠ 1 → let k := t.feederKey (n - 8) 1
          exec (.keyGenerate r n a) s = .next ((twin n a k t).answered r x 0x0B03 .ok [(kcvOf (fld a 16 4) k, 3)])) ∧
        (n ≠ 4 → ¬ (8 ≤ n ∧ n ≤ 15) → ∃ k : Nat,
          (fld a 16 4 = 1 → k < 2 ^ 128) ∧ (fld a 16 4 = 2 → k < 2 ^ 256) ∧ (fld a 16 4 = 3 → 1 ≤ k ∧ k < p256n) ∧
          exec (.keyGenerate r n a) s =
            .next ((twin n a k { t with fresh := s.fresh + 1 }).answered r x 0x0B03 .ok [(kcvOf (fld a 16 4) k, 3)]))) ∧
      (∀ n w, n < 64 → tget none s.keys.twins n = some w → ((8 ≤ n ∧ n ≤ 15) → (t.slot n).st ≠ 1) →
        (fld w.attr 14 2 = 2 → t.tooDeep n (fld w.attr 8 6) = false ∧ (t.slot (fld w.attr 8 6)).st ≠ 0) →
        (t.parentOrphaned w.attr = false → t.parentUsageBad w.attr = false → (t.hasChildren n = true → fld w.attr 3 1 ≠ 0) →
          exec (.keyCommit r n w.kcv) s =
            .next ((((t.activate n (fld w.attr 0 6 + 256 * fld w.attr 8 12) 1 w.key).rewrapped n).dropTwin n).answered r x 0x0B04 .ok [])) ∧
        (∀ k, k ≠ w.kcv → exec (.keyCommit r n k) s = .next (t.answered r x 0x0B04 .kcvFail [(0, 4)])) ∧
        (t.parentOrphaned w.attr = true → exec (.keyCommit r n w.kcv) s = .next (t.answered r x 0x0B04 .orphaned [(0, 4)]))) ∧
      (∀ n k, n < 64 → tget none s.keys.twins n = none → exec (.keyCommit r n k) s = .next (t.answered r x 0x0B04 .state [(0, 4)])) ∧
      (∀ pub a b, let good := ecdsaOk (if (s.slot 2).st = 1 then (s.slot 2).key else pub) (ofBe (sha256 (pubBytes pub ++ leBytes 16 s.nv.serial))) (sigOf a b)
        (good = true → exec (.keyOperatorSet r pub a b) s =
          .next (State.seqLimit (((t.activate 2 ((roleAttr 2).getD 0) 1 pub).respond x.id ⟨r.seq, 0x0B08, .ok, []⟩).endAll .operator) r)) ∧
        (good = false → exec (.keyOperatorSet r pub a b) s = .next (t.answered r x 0x0B08 .signature [(0, 4)]))) ∧
      (∀ l, l.length ≤ 32 → ∃ u : State, exec (.keyDenySet r l) s = .next u ∧ u.nv.deny = l ∧ (∀ y ∈ u.vxc.sessions, y.serial ∉ l)) ∧
      (∀ l, 32 < l.length → exec (.keyDenySet r l) s = .next (t.answered r x 0x0B09 .range [(0, 4)])) ∧
      (∀ a b, a ≤ 2 → b ≤ 2 → exec (.keyTamperSet r a b) s = .next (State.answered { t with nv := { t.nv with respA := a, respB := b } } r x 0x0B0B .ok [])) ∧
      (∀ a b, 2 < a ∨ 2 < b → exec (.keyTamperSet r a b) s = .next (t.answered r x 0x0B0B .range [(0, 4)]))) ∧
    (t.sealed = true → ∀ n a k l, exec (.keyLoad r n a k l) s = .next (t.answered r x 0x0B02 .tamper [(0, 4)]) ∧
      exec (.keyGenerate r n a) s = .next (t.answered r x 0x0B03 .tamper [(0, 4)]) ∧ exec (.keyCommit r n k) s = .next (t.answered r x 0x0B04 .tamper [(0, 4)]) ∧
      exec (.keyInvalidate r n) s = .next (t.answered r x 0x0B05 .tamper [(0, 4)]) ∧ exec (.keyRollover r n k) s = .next (t.answered r x 0x0B06 .tamper [(0, 4)]) ∧
      exec (.keyOperatorSet r n k l) s = .next (t.answered r x 0x0B08 .tamper [(0, 4)]) ∧ (∀ d, exec (.keyDenySet r d) s = .next (t.answered r x 0x0B09 .tamper [(0, 4)])) ∧
      exec (.keyTamperSet r n k) s = .next (t.answered r x 0x0B0B .tamper [(0, 4)])) ∧
    (∀ n, n ≤ 2 → bit s.nv.seals n = true → (n = 0 → s.bk.inA = false) → (n = 1 → s.bk.inB = false) →
      let u : State := { t with nv := { t.nv with seals := setBit s.nv.seals n false } }
      exec (.keyTamperAck r n) s = .next (State.answered (if u.sealed then u else u.rolloversPassed) r x 0x0B0D .ok [])) ∧
    (∀ n, n ≤ 2 → bit s.nv.seals n = false ∨ (n = 0 ∧ s.bk.inA = true) ∨ (n = 1 ∧ s.bk.inB = true) →
      exec (.keyTamperAck r n) s = .next (t.answered r x 0x0B0D .state [(0, 4)])) ∧
    (∀ n, 2 < n → exec (.keyTamperAck r n) s = .next (t.answered r x 0x0B0D .range [(0, 4)]))

/-- INVALIDATE empties a slot and orphans its descendants, whose key material is gone, and is refused for the root and the identity key, for
an empty slot and at or above a feeder with a rollover (14 R429, R438); ROLLOVER of an active feeder key at least 65 536 half-cycles ahead
records its target and generation and holds KF(g + 1) as the twin, with the active key unchanged (14 R444). Concludes that exec answers a
next state with the command's own effect, for: keyInvalidate, keyRollover. -/
def Obligations.KeysAreInvalidatedAndRolledOver : Prop :=
  ∀ (s : State) (r : Req) (x : Session), Served s r x .keys → s.nv.lcs ≠ 3 → s.keys.rootOk = true → (s.taken r x).sealed = false →
    let t := s.taken r x
    (∀ n, 2 ≤ n → n < 64 → (s.slot n).st ≠ 0 → t.rolloverBelow n = false → twf {} s.nv.slots = true → twf 0 s.keys.plain = true →
      ∃ u : State, exec (.keyInvalidate r n) s = .next u ∧
      u.slot n = {} ∧ (∀ d ∈ s.descendants n, (u.slot d).st = 2 ∧ (u.slot d).key = 0) ∧
      (∀ d, d ≠ n → d ∉ s.descendants n → u.slot d = s.slot d)) ∧
    (∀ n, n < 64 → (s.slot n).st = 0 ∨ (2 ≤ n ∧ t.rolloverBelow n = true) → exec (.keyInvalidate r n) s = .next (t.answered r x 0x0B05 .state [(0, 4)])) ∧
    (∀ n, (n < 2 ∧ (s.slot n).st ≠ 0) ∨ 64 ≤ n → exec (.keyInvalidate r n) s = .next (t.answered r x 0x0B05 .range [(0, 4)])) ∧
    (∀ f k, f < 8 → (s.slot (f + 8)).st ≠ 1 ∨ (tget none s.nv.rolls f).isSome = true → exec (.keyRollover r f k) s = .next (t.answered r x 0x0B06 .state [(0, 4)])) ∧
    (∀ f k, f < 8 → (s.slot (f + 8)).st = 1 → tget none s.nv.rolls f = none → (s.slot (f + 8)).gen ≠ 0xFFFF → k ≠ 0 → s.pow.phase = .complete →
      s.tb.hcn + 65536 ≤ k → k ≤ s.tb.hcn + 2147483648 → t.parentOrphaned (s.slot (f + 8)).attr = false →
      ∃ u : State, exec (.keyRollover r f k) s = .next u ∧ tget none u.nv.rolls f = some ⟨k, (s.slot (f + 8)).gen + 1, x.id, r.seq⟩ ∧
        (∃ w, tget none u.keys.twins (f + 8) = some w ∧ w.key = s.feederKey f ((s.slot (f + 8)).gen + 1)) ∧ u.nv.slots = s.nv.slots)

/-- Tamper: an assertion is logged while LOCKOUT is set or the M-region does not run, at most 8 with the rest counted in OVF, and is
answered once the key store is ready; an input re-arms, and a twin that is not committed is discarded after 600 s (13 R427; 14 R437, R456,
R457). The KEY reads. Concludes that exec answers a next state with the command's own effect, for: tamperAssert, tamperRearm, twinExpiry,
keySlotRead, keyRollRead, keyDenyRead, keyTamperRead. -/
def Obligations.TamperAndKeyReads : Prop :=
  ∀ (s : State) (dt : Dt),
    let t := s.tick dt
    (∀ b, (if b then s.bk.inB else s.bk.inA) = false →
      let u : State := { t with bk := if b then { t.bk with inB := true } else { t.bk with inA := true } }
      (s.rtc.lockout = true ∨ s.runs .m = false →
        (s.bk.log.length < 8 → exec (.tamperAssert dt b) s = .next { u with bk := { u.bk with
          log := s.bk.log ++ [⟨s.rtc.lockout, b, t.bk.valid, t.bk.sub, t.lin⟩] } }) ∧
        (8 ≤ s.bk.log.length → exec (.tamperAssert dt b) s = .next { u with bk := { u.bk with ovf := stick 255 (s.bk.ovf + 1) } })) ∧
      (s.rtc.lockout = false → s.runs .m = true → 4 ≤ s.pow.phase.rank → exec (.tamperAssert dt b) s = .next (u.tamperCount.tamperRespond b))) ∧
    (∀ b, exec (.tamperRearm dt b) s = .next { t with bk := if b then { t.bk with inB := false } else { t.bk with inA := false } }) ∧
    (∀ n w, tget none s.keys.twins n = some w → w.at_ + 600 * secC ≤ t.now → ¬ (8 ≤ n ∧ n ≤ 15) →
      exec (.twinExpiry dt n) s = .next { t with keys := { t.keys with twins := tset none s.keys.twins n none } }) ∧
    (∀ (r : Req) (x : Session), Served s r x .read →
      let t := s.taken r x
      exec (.keySlotRead r) s = .next (t.answered r x 0x0B01 .ok ((rangeFrom 0 64).map (fun n => (t.attrShown n, 8)))) ∧
      (∀ f, f ≤ 7 → exec (.keyRollRead r f) s = .next (t.answered r x 0x0B07 .ok [((s.slot (f + 8)).gen % 256, 1), (b2n (tget none s.nv.rolls f).isSome, 1),
        (tget 0 s.nv.lastRoll f, 6), (if (tget none s.nv.rolls f).isSome then s.unacked f else 0, 2)])) ∧
      exec (.keyDenyRead r) s = .next (t.answered r x 0x0B0A .ok ((s.nv.deny.length, 1) :: s.nv.deny.map (fun y => (y, 20)))) ∧
      exec (.keyTamperRead r) s = .next (t.answered r x 0x0B0C .ok
        ([(b2n s.bk.inA + 2 * b2n s.bk.inB + 4 * b2n s.sealed, 1), (s.nv.respA, 1), (s.nv.respB, 1), (s.bk.log.length, 1)]
          ++ s.bk.log.map (fun e => (e.item, 12)))))

/-- The tamper log of eight entries: with 8 held, a further assertion is not logged and OVF counts it; an assertion that coincides with a
TLOG_ACK is logged after the removal of the N oldest; N at or above NLOG removes all the entries (R427). Concludes that exec answers a next
state with the command's own effect, for: tamperAssert, tlogAck. -/
def Obligations.TamperLogHoldsEightEntries : Prop :=
  ∀ (s : State) (dt later : Dt) (m : Master) (b : Bool) (n : Nat), (if b then s.bk.inB else s.bk.inA) = false → s.rtc.lockout = true →
    (8 ≤ s.bk.log.length → ∃ u : State, exec (.tamperAssert dt b) s = .next u ∧ u.bk.log = s.bk.log ∧ u.bk.ovf = stick 255 (s.bk.ovf + 1)) ∧
    (s.rtc.isolated = false → s.bk.onVbat = false → s.runs .m = true → n < 16 → ∃ t : State, exec (.tlogAck dt m n) s = .next t ∧
      t.bk.log = s.bk.log.drop n ∧ (s.bk.log.length ≤ n → t.bk.log = []) ∧
      ((s.bk.log.drop n).length < 8 → ∃ (u : State) (e : TlogEntry), exec (.tamperAssert later b) t = .next u ∧
        u.bk.log = s.bk.log.drop n ++ [e] ∧ e.inputB = b ∧ e.main = true ∧ u.bk.ovf = s.bk.ovf))

/-! ## UPD and Decant (11 R377; 15) -/

/-- The UPD commands: a header goes through its checks in their order, resumes its own transfer or opens one; a block is programmed and its
bit set, and one that is held is not written again; a package is activated where its stage, target, payload, order and nodes allow it,
confirmed in TRIAL, and aborted before activation; node images are activated for a group; and the reads answer (R469-R473, R475-R478, R486,
R490, R494). Decant's own events: the staging sectors are erased once before blocks are accepted (R470), the payload's hash decides between
READY and a new download (R472), a reconstruction programs what the delta records build and ends ARMED, is repeated once, or gives the
transfer up (R468, R478), a trial reverts after 30 minutes (R483), and a switched region that does not run within 1 s reverts it (R482).
Concludes that exec answers a next state with the command's own effect, for: updHeader, updBlock, updActivate, updConfirm, updAbort,
updNodeActivate, updBitmap, updStatus, updNodeStatus, stagingEraseDone, payloadVerifyDone, reconstructionDone, trialMinute,
switchRunTimeout, nodeImageRoundEnd. -/
def Obligations.UpdateRunsThroughItsStages : Prop :=
  (∀ (s : State) (r : Req) (x : Session),
    let t := s.taken r x
    let u := s.nv.upd
    let no := fun (cmd : Nat) (st : Status) => t.answered r x cmd st [(0, 4)]
    (Served s r x .update →
      (∀ h sig,
        let sigOk := ecdsaOk (Config.releaseKey ()) (ofBe (sha256 (r.payload.take (h.hdrLen - 64)))) sig
        let open_ := fun (v : Decant) => { v with hdr := some h, hdrSig := sig, nblk := ceilDiv h.pkgLen 1024, bitmap := [], eraseDue := true }
        exec (.updHeader r h sig) s = .next (
          if 4 ≤ u.stage.no ∨ (∃ o ∈ u.hdr, o.targetHash ≠ h.targetHash) then no 0x0C01 .state
          else if hdrBad h = true then no 0x0C01 .range
          else if sigOk = false then no 0x0C01 .signature
          else if h.productOk = false then no 0x0C01 .product
          else if h.baseHash ≠ (u.bank u.active).bankHash then no 0x0C01 .base
          else if h.version ≤ (u.bank u.active).version ∨ h.secVer < u.secVer then no 0x0C01 .version
          else if u.hdr = some h then t.answered r x 0x0C01 .ok [(u.nblk, 4), (u.held, 4)]
          else ((t.onUpd open_).toStage .receiving).answered r x 0x0C01 .ok [(ceilDiv h.pkgLen 1024, 4), (0, 4)])) ∧
      (∀ off data,
        let len := (u.hdr.map PkgHeader.pkgLen).getD 0
        let inForm := off % 1024 = 0 ∧ off < len ∧ data.length = min 1024 (len - off)
        let n := u.held + 1
        let v : State := { t with mem := s.mem.put (bankBase (!u.active) + 0x3000000 + off) data }
        let v := v.onUpd (fun w => { w with bitmap := off / 1024 :: w.bitmap })
        (u.stage ≠ .receiving → u.stage ≠ .ready → exec (.updBlock r off data) s = .next (no 0x0C02 .state)) ∧
        (u.stage = .receiving ∨ u.stage = .ready →
          (¬ inForm → exec (.updBlock r off data) s = .next (no 0x0C02 .range)) ∧
          (inForm → u.eraseDue = true → ∃ ms, exec (.updBlock r off data) s = .next (State.answered { t with fresh := t.fresh + 1 } r x 0x0C02 .busy [(ms, 2)])) ∧
          (inForm → u.eraseDue = false → off / 1024 ∈ u.bitmap → exec (.updBlock r off data) s = .next (t.answered r x 0x0C02 .ok [(u.held, 4)])) ∧
          (inForm → u.eraseDue = false → off / 1024 ∉ u.bitmap →
            (n ≠ u.nblk → n % 1024 ≠ 0 ∨ u.nblk < n → exec (.updBlock r off data) s = .next (v.answered r x 0x0C02 .ok [(n, 4)])) ∧
            (n < u.nblk → n % 1024 = 0 → exec (.updBlock r off data) s = .next ((v.updNote 0 n u.nblk).answered r x 0x0C02 .ok [(n, 4)])) ∧
            (n = u.nblk → exec (.updBlock r off data) s = .next ((v.toStage .verifying).answered r x 0x0C02 .ok [(n, 4)]))))) ∧
      (∀ k ok, u.stage ≠ .ready ∨ u.hdr = none → exec (.updActivate r k ok) s = .next (no 0x0C04 .state)) ∧
      (∀ h k ok, u.stage = .ready → u.hdr = some h →
        (k = 0 ∨ (s.pow.phase = .complete ∧ s.tb.hcn + 2147483648 < k) → exec (.updActivate r k ok) s = .next (no 0x0C04 .range)) ∧
        (s.pow.phase = .complete → k ≠ 0 → k ≤ s.tb.hcn + 2147483648 →
          (k < s.tb.hcn + 14760 → exec (.updActivate r k ok) s = .next (no 0x0C04 .late)) ∧
          (s.tb.hcn + 14760 ≤ k →
            ((ok && t.payloadOk) = false → exec (.updActivate r k ok) s = .next (no 0x0C04 .hash)) ∧
            (ok = true → t.payloadOk = true →
              (∀ run left, switchOrder 5 u.running (t.changed h) = .inr (run, left) → ∃ i, i < 6 ∧
                ((∃ i', i' < 6 ∧ ∀ c ∈ left, agreeOn (withComp run c) i' = false) →
                  (∀ c ∈ left, agreeOn (withComp run c) i = false) ∧ (∀ i', i' < i → ∃ c ∈ left, agreeOn (withComp run c) i' = true)) ∧
                ∃ v : State, { v with fresh := t.fresh } = t ∧ exec (.updActivate r k ok) s = .next (v.answered r x 0x0C04 .interface [(2 ^ 28 + i, 4)])) ∧
              (∀ l, switchOrder 5 u.running (t.changed h) = .inl l →
                (t.excludedBy h ≠ 0 → exec (.updActivate r k ok) s = .next (t.answered r x 0x0C04 .interface [(2 * 2 ^ 28 + t.excludedBy h, 4)])) ∧
                (t.excludedBy h = 0 →
                  let v := t.onUpd (fun w => { w.setInactive {} with t := k, ord := s.order, order := l, pos := 0, by_ := some (x.id, r.seq), failedOnce := false })
                  let v : State := { v with order := s.order + 1 }
                  exec (.updActivate r k ok) s = .next ((((v.toStage .reconstructing).wipeBank (!u.active)).eraseComp (!u.active)).answered r x 0x0C04 .deferred [(k, 6)]))))))) ∧
      (u.stage = .trial → exec (.updConfirm r) s = .next (((t.toStage .confirming).confirm).answered r x 0x0C05 .ok [])) ∧
      (u.stage ≠ .trial → exec (.updConfirm r) s = .next (no 0x0C05 .state)) ∧
      (u.stage = .receiving ∨ u.stage = .verifying ∨ u.stage = .ready →
        exec (.updAbort r) s = .next (((t.onUpd Decant.drop).toStage .idle).answered r x 0x0C06 .ok [])) ∧
      (¬ (u.stage = .receiving ∨ u.stage = .verifying ∨ u.stage = .ready) → exec (.updAbort r) s = .next (no 0x0C06 .state)) ∧
      (∀ img g k, (u.stage = .switching ∨ u.stage = .trial) ∨ (∃ c ∈ t.imgComp img, c.pver < t.protoRange.1 ∨ t.protoRange.2 < c.pver) →
        exec (.updNodeActivate r img g k) s = .next (no 0x0C08 .state)) ∧
      (∀ img g k, u.stage ≠ .switching → u.stage ≠ .trial → t.imgComp img = none → exec (.updNodeActivate r img g k) s = .next (no 0x0C08 .range)) ∧
      (∀ img g k c, t.imgComp img = some c → t.protoRange.1 ≤ c.pver → c.pver ≤ t.protoRange.2 → u.stage ≠ .switching → u.stage ≠ .trial →
        (15 < img ∨ 255 < g ∨ k = 0 → exec (.updNodeActivate r img g k) s = .next (no 0x0C08 .range)) ∧
        (img ≤ 15 → g ≤ 255 → k ≠ 0 → s.pow.phase = .complete → k ≤ s.tb.hcn + 2147483648 →
          (k < s.tb.hcn + 8 → exec (.updNodeActivate r img g k) s = .next (no 0x0C08 .late)) ∧
          (s.tb.hcn + 8 ≤ k → t.actsFull = true ∨ t.linkFull (feedersOf (t.members g)) = true →
            ∃ ms, exec (.updNodeActivate r img g k) s = .next (State.answered { t with fresh := t.fresh + 1 } r x 0x0C08 .busy [(ms, 2)])) ∧
          (s.tb.hcn + 8 ≤ k → t.actsFull = false → t.linkFull (feedersOf (t.members g)) = false →
            exec (.updNodeActivate r img g k) s = .next ((t.linkCmd (feedersOf (t.members g)) k (x.who r) 0x0C08 (.imgActivate 0 img g k)
              (fun id => .imgActivate id img (t.members g))).answered r x 0x0C08 .deferred [(k, 6)]))))) ∧
    (Served s r x .read →
      (∀ first n, n ≠ 0 → n % 8 = 0 → n ≤ 11200 → first + n ≤ 8 * ceilDiv u.nblk 8 →
        exec (.updBitmap r first n) s = .next (t.answered r x 0x0C03 .ok ((rangeFrom 0 (n / 8)).map (fun i =>
          (ofBits ((rangeFrom (first + 8 * i) 8).map (fun b => u.bitmap.contains b)), 1))))) ∧
      (∀ first n, n = 0 ∨ n % 8 ≠ 0 ∨ 11200 < n ∨ 8 * ceilDiv u.nblk 8 < first + n → exec (.updBitmap r first n) s = .next (no 0x0C03 .range)) ∧
      exec (.updStatus r) s = .next (t.answered r x 0x0C07 .ok [(u.stage.no, 1), (b2n u.bankM, 1), (u.trialBoots, 1), (u.trialMin, 2), (u.secVer, 1),
        ((u.bank u.active).version, 4), ((u.hdr.map PkgHeader.version).getD 0, 4), (u.nblk, 4), (u.held, 4)]) ∧
      (∀ a n img, a < 16384 → img ≤ 15 → exec (.updNodeStatus r a n img) s = .next (t.answered r x 0x0C09 .ok
        (pagePay 16384 a (pageCount 16384 a n 3 0) [] (fun b => [((tget {} (t.node b).img img).st, 1), ((tget {} (t.node b).img img).missing, 2)])))) ∧
      (∀ a n img, 16384 ≤ a ∨ 15 < img → exec (.updNodeStatus r a n img) s = .next (no 0x0C09 .range)))) ∧
  (∀ (s : State) (dt : Dt),
    let t := s.tick dt
    (s.runs .m = true →
      (s.nv.upd.eraseDue = true →
        let lo := bankBase (!s.nv.upd.active) + 0x3000000
        let u : State := { t with mem := s.mem.wipe lo (lo + ((s.nv.upd.hdr.map stagingLen).getD 0)) }
        exec (.stagingEraseDone dt) s = .next ((u.onUpd (fun v => { v with eraseDue := false })).eraseStaging (!s.nv.upd.active) ((s.nv.upd.hdr.map (fun h => stagingLen h / 65536)).getD 0))) ∧
      (s.nv.upd.stage = .verifying → (t.payloadOk = true → exec (.payloadVerifyDone dt true) s = .next (t.toStage .ready)) ∧
        ∀ ok, (ok && t.payloadOk) = false → exec (.payloadVerifyDone dt ok) s = .next (((t.onUpd (fun v => { v with bitmap := [] })).toStage .receiving).raiseGen .m 0x0C 0 [])) ∧
      (∀ h, s.nv.upd.stage = .reconstructing → s.nv.upd.hdr = some h →
        let b := !s.nv.upd.active
        (∀ bs, t.rebuilt h = some bs →
          let u : State := { t with mem := (s.mem.program (bankBase b + 0x1000) bs).put (bankBase b) (hdrBytes h ++ leBytes 64 s.nv.upd.hdrSig) }
          let u := (rangeFrom 1 (hdrBuilt h / 4194304)).foldl (fun v i => v.updNote 0 (4096 * i) (ceilDiv (hdrBuilt h) 1024)) u
          exec (.reconstructionDone dt true) s =
            .next ((u.onUpd (fun v => v.setInactive ⟨h.version, h.secVer, setHash h.dir, h.dir, true⟩)).toStage .armed)) ∧
        ∀ ok, (ok = false ∨ t.rebuilt h = none) →
        (s.nv.upd.failedOnce = false → exec (.reconstructionDone dt ok) s =
          .next (((t.onUpd (fun v => { v with failedOnce := true })).wipeBank b).eraseComp b)) ∧
        (s.nv.upd.failedOnce = true → exec (.reconstructionDone dt ok) s =
          .next ((((t.updFinal .hash).onUpd (fun v => v.drop.dropAct)).toStage .idle).raiseGen .m 0x0C 0 []))) ∧
      (s.nv.upd.stage = .trial → s.nv.upd.minuteAt + 60 * secC ≤ t.now →
        let u := t.onUpd (fun v => { v with trialMin := s.nv.upd.trialMin + 1, minuteAt := s.nv.upd.minuteAt + 60 * secC })
        (s.nv.upd.trialMin < 29 → exec (.trialMinute dt) s = .next u) ∧ (29 ≤ s.nv.upd.trialMin → exec (.trialMinute dt) s = .next (u.revert 0)))) ∧
    (∀ k g, s.nv.upd.stage = .switching → s.nv.upd.runBy = some k → k ≤ t.now → g ∈ [Region.c, .d, .m] → typeOf g ∈ s.nv.upd.order.take s.nv.upd.pos →
      s.runs g = false → exec (.switchRunTimeout dt) s = .next (t.revert 2)) ∧
    (∀ f, f < 8 → s.runs .c = true → exec (.nodeImageRoundEnd dt f) s = .next ((s.feeder f).dist.foldl (fun u d => u.roundEnd f d) t)))

/-! ## LOG and the event recorder (11 R378; 16) -/

/-- The LOG commands: READ returns the records from FROM on that match, among the first 4 096 it examines, and the SEQ after the last of
these; CLEAR writes its record and starts the erasure with the counts at 0, and is BUSY while one runs; RATE_SET changes one code's refill;
STATUS reads; values outside their range are refused with RANGE (R505-R510). Concludes that exec answers a next state with the command's own
effect, for: logRead, logClear, logRateSet, logStatus. -/
def Obligations.LogCommandsTakeEffect : Prop :=
  ∀ (s : State) (r : Req) (x : Session),
    let t := s.taken r x
    (∀ area start n sev code, Served s r x .read →
      (area ≤ 1 → 1 ≤ n → n ≤ 21 → sev ≤ 7 →
        let l := (t.areaRecs area).filter (fun w => !serNewer start (evSeq w))
        let y := examine 4096 n (fun w => decide (sev ≤ evSev w) && (code == 0 || evCode w == code)) none l
        exec (.logRead r area start n sev code) s = .next (t.answered r x 0x0D01 .ok
          ([(y.1.length, 1), ((y.2.map (fun q => (q + 1) % 4294967296)).getD start, 4)] ++ y.1.map (fun w => (w.toNat, 64)))) ∧
        y.1.length ≤ n ∧ (∀ w ∈ y.1, w ∈ t.areaRecs area ∧ sev ≤ evSev w ∧ (code = 0 ∨ evCode w = code) ∧ serNewer start (evSeq w) = false)) ∧
      (1 < area ∨ n = 0 ∨ 21 < n ∨ 7 < sev → exec (.logRead r area start n sev code) s = .next (t.answered r x 0x0D01 .range [(0, 4)]))) ∧
    (Served s r x .clear →
      (s.ev.clearing = false → ∃ u : State, exec (.logClear r) s = .next (u.answered r x 0x0D02 .ok [(t.ev.nextSeq, 4)]) ∧
        u.ev.clearing = true ∧ u.ev.paused = true ∧ u.ev.suppTotal = 0 ∧ u.ev.dropTotal = 0 ∧ u.ev.nextSeq = (t.ev.nextSeq + 1) % 4294967296 ∧
        u.nv.permArea = s.nv.permArea ∧ (twf 0 s.nv.circArea = true → tget 0 u.nv.circArea t.ev.circNext = evWord t.ev.nextSeq false
          (t.entry 0x0003 (srcFw .m) (leBytes 20 x.serial ++ leBytes 4 ((t.ev.nextSeq + 4294967295) % 4294967296)) false))) ∧
      (s.ev.clearing = true → ∃ ms, exec (.logClear r) s = .next (State.answered { t with fresh := t.fresh + 1 } r x 0x0D02 .busy [(ms, 2)]))) ∧
    (∀ code n, Served s r x .configure →
      (codeRated code = true → 1 ≤ n → n ≤ 6000 → exec (.logRateSet r code n) s =
        .next (State.answered { t with nv := { t.nv with refill := tset 10 s.nv.refill code n } } r x 0x0D04 .ok [])) ∧
      (codeRated code = false ∨ n = 0 ∨ 6000 < n → exec (.logRateSet r code n) s = .next (t.answered r x 0x0D04 .range [(0, 4)]))) ∧
    (Served s r x .read → exec (.logStatus r) s = .next (t.answered r x 0x0D03 .ok [((t.areaBounds 0).1, 4), ((t.areaBounds 0).2, 4),
      ((t.areaBounds 1).1, 4), ((t.areaBounds 1).2, 4), (t.ev.suppTotal, 4), (t.ev.dropTotal, 4)]))

/-- An event that enters intake joins its queue, is counted as a drop when the queue is full, or is suppressed when its code has no token;
the oldest entry of intake becomes the next record with the next SEQ, a bucket regains a token, and a clear ends with its old slots EMPTY
(R500, R502-R506, R510). Concludes that exec answers a next state with the command's own effect, for: evtinPortPush, eventLineEntry,
eventRecordWrite, tokenRefill, logClearEraseDone. -/
def Obligations.EventsAreQueuedWrittenAndCleared : Prop :=
  ∀ (s : State) (dt : Dt),
    let t := s.tick dt
    (∀ g code src pay, s.runs g = true → code < 65536 → src < 4294967296 →
      let k := queueOf g
      (codeRated code = false → (s.ev.q k).length < k.cap →
        exec (.evtinPortPush dt g code src pay) s = .next { t with ev := s.ev.setQ k (s.ev.q k ++ [t.entry code src pay false]) }) ∧
      (codeRated code = false → k.cap ≤ (s.ev.q k).length → s.ev.dropTotal + 1 ≠ 0xFFFFFFFF → exec (.evtinPortPush dt g code src pay) s =
        .next { t with ev := { s.ev.setDrop k ((s.ev.drop k).add s.tb.hcn) with dropTotal := stick 0xFFFFFFFF (s.ev.dropTotal + 1) } }) ∧
      (codeRated code = true → (tget {} s.ev.buckets code).tokens = 0 → ∃ u : State, exec (.evtinPortPush dt g code src pay) s = .next u ∧
        u.ev.suppTotal = stick 0xFFFFFFFF (s.ev.suppTotal + 1) ∧ (∀ j, u.ev.q j = s.ev.q j))) ∧
    (∀ block code cell pay, blockRegion block = 3 → 1 ≤ s.pow.phase.rank → code < 65536 → exec (.eventLineEntry dt block code cell pay) s =
      .next (t.raiseHw (if cell ≠ 0xFFF then 0 else if block < 0x10 then 3 else 1) block cell code pay)) ∧
    (∀ k e l, s.ev.paused = false → s.runs .m = true → s.ev.nextQ = some k → s.ev.q k = e :: l → ∃ u : State, exec (.eventRecordWrite dt) s = .next u ∧
      u.ev.nextSeq = (s.ev.nextSeq + 1) % 4294967296 ∧ l <+: u.ev.q k ∧
      (s.nv.permStarted = false → startsPerm e = false → u.nv.permArea = s.nv.permArea ∧
        tget 0 u.nv.circArea s.ev.circNext = evWord s.ev.nextSeq false e ∧ u.ev.circNext = (s.ev.circNext + 1) % 57344) ∧
      (s.nv.permStarted = true → s.ev.permNext < 8192 → u.nv.circArea = s.nv.circArea ∧
        tget 0 u.nv.permArea s.ev.permNext = evWord s.ev.nextSeq true e ∧ u.ev.permNext = s.ev.permNext + 1)) ∧
    (∀ code, codeRated code = true → (tget {} s.ev.buckets code).tokens < 8 → 1 ≤ s.pow.phase.rank →
      (tget {} s.ev.buckets code).since + tget 10 s.nv.refill code * (secC / 10) ≤ t.now →
      let b := (tget {} s.ev.buckets code).gain (s.refillC code)
      exec (.tokenRefill dt code) s = .next ((t.onEv (fun v => { v with buckets := tset {} v.buckets code b })).suppNote code)) ∧
    (s.ev.clearing = true → s.runs .m = true → ∃ u : State, exec (.logClearEraseDone dt) s = .next u ∧ u.ev.clearing = false ∧
      u.nv.permArea = s.nv.permArea ∧ (∀ e ∈ u.nv.circArea, e ∈ s.nv.circArea ∧ evOk e.2 = true))

/-! ## MEM (11 R379), registers (00 R12, R13; 01), memory (17) -/

/-- MEM READ and MEM WRITE: a read of memory that answers returns the bytes of the range in ascending order and changes nothing (01 R48,
R54; 17 R513), a 16-byte write to plain memory puts its bytes there and nowhere else; a form outside the table is refused with RANGE, and an
access that fails at once ends with BUS_ERROR and its address (11 R379). Concludes that exec answers a next state with the command's own
effect, for: memRead, memWrite. -/
def Obligations.MemReadsWhatMemWrote : Prop :=
  ∀ (s : State) (r : Req) (x : Session),
    let t := s.taken r x
    (∀ a w n, Served s r x .read → w ∈ [1, 2, 4, 8, 16] → n ≠ 0 → n ≤ 1024 → a % w = 0 → n % w = 0 →
      (∀ i, i < n → (isRam (a + i) = true ∨ isFlash (a + i) = true) ∧ t.answers (a + i) = true ∧ t.isPoisoned (a + i) = false) →
      exec (.memRead r a w n [] none) s = .next (t.answered r x 0x0E01 .ok [(ofBytes (t.bytesAt a n), n)])) ∧
    (∀ a data, Served s r x .mem → data.length = 16 → (∀ b ∈ data, b < 256) → a % 16 = 0 → isRam a = true → t.answers a = true →
      (∀ i, i < 16 → viewAt (a + i) = none) → s.mem.wf = true →
      ∃ u : State, exec (.memWrite r a 16 data [] none) s = .next (u.answered r x 0x0E02 .ok []) ∧ u.isPoisoned a = false ∧
        (∀ i b, data[i]? = some b → u.mem.get (a + i) = b) ∧ (∀ y, y < a ∨ a + 16 ≤ y → u.mem.get y = s.mem.get y) ∧
        { u with mem := t.mem } = t) ∧
    (∀ a w n l p, Served s r x .read → w ∉ [1, 2, 4, 8, 16] ∨ n = 0 ∨ 1024 < n ∨ a % w ≠ 0 ∨ n % w ≠ 0 →
      exec (.memRead r a w n l p) s = .next (t.answered r x 0x0E01 .range [(0, 4)])) ∧
    (∀ a w data l p, Served s r x .mem → w ∉ [1, 2, 4, 8, 16] ∨ data = [] ∨ 1024 < data.length ∨ a % w ≠ 0 ∨ data.length % w ≠ 0 →
      exec (.memWrite r a w data l p) s = .next (t.answered r x 0x0E02 .range [(0, 4)])) ∧
    (∀ a w n, Served s r x .read → memBad a w n = false → t.answers a = false ∨ ((isRam a = true ∨ isFlash a = true) ∧ t.isPoisoned a = true) → ∃ u : State,
      exec (.memRead r a w n [] none) s = .next (u.answered r x 0x0E01 .busError [(a, 4)]) ∧ u.mem = t.mem) ∧
    (∀ a w data, Served s r x .mem → memBad a w data.length = false → t.answers a = false → ∃ u : State,
      exec (.memWrite r a w data [] none) s = .next (u.answered r x 0x0E02 .busError [(a, 4)]) ∧ u.mem = t.mem)

/-- Block registers: a write takes effect by its register, RC counters return their value and clear but for an increment that coincides, an
HCN's lower half latches the upper one, and a doorbell sets its bits after the clears that coincide and interrupts its region (00 R12, R13;
01 R38-R42). DMA: START fetches the descriptor of an idle channel, a request lets a waiting channel begin, a completed burst lets the
channel proceed and a failed one ends the descriptor, ABORT and a lost peripheral stop a waiting channel, and the end of a descriptor writes
its status (17 R531, R536-R544). The scrubs visit the next word of a macro and move bad MRAM sectors (R518; 18 R561). Concludes that exec
answers a next state with the command's own effect, for: registerWrite, rcCounterRead, jncHcnLoRead, dbSetWrite, dmaStart, dmaAbort,
dmaRequest, dmaPeriphReset, dmaBurstDone, dmaDescEnd, scrubVisit, mramScrubPass. -/
def Obligations.RegistersAndDmaAct : Prop :=
  (∀ (s : State) (dt : Dt) (m : Master),
    let t := s.tick dt
    (∀ (a : Nat) (v : BitVec 32), a % 4 = 0 → isReg a = true → t.answers a = true → exec (.registerWrite dt m a v) s = .next (t.regSet a v)) ∧
    (∀ f, f < 8 → s.runs .c = true → twf {} s.fdr = true → ∃ u : State, exec (.rcCounterRead dt m (0x40110060 + 4 * f) 0) s = .next u ∧
      u.out = [.readData (0x40110060 + 4 * f) (t.regGet (0x40110060 + 4 * f))] ∧ (u.feeder f).satFrames = 0 ∧ (u.feeder f).aged = 0 ∧ u.nv = s.nv ∧ u.sil = s.sil) ∧
    (∀ f, f < 8 → s.runs .c = true → ∃ u : State, exec (.rcCounterRead dt m (0x40150004 + 16 * f) 1) s = .next u ∧
      u.out = [.readData (0x40150004 + 16 * f) (t.regGet (0x40150004 + 16 * f))] ∧ (u.rxp f).decodeFail = 1 ∧ (u.rxp f).decoded = 0) ∧
    exec (.jncHcnLoRead dt m) s = .next (State.emit { t with jnc := { t.jnc with hcnHiLatch := some (s.tb.hcn / 4294967296 % 65536) } }
      (.readData 0x40010040 (s.tb.hcn % 4294967296))) ∧
    (∀ (g : Region) (b w : BitVec 32),
      let p := (s.jnc.dbPend.get g &&& ~~~w) ||| b
      let u : State := { t with jnc := { t.jnc with dbPend := s.jnc.dbPend.set g p } }
      (p ≠ 0 → exec (.dbSetWrite dt m g b w) s = .next (u.emit (.irq g))) ∧ (p = 0 → exec (.dbSetWrite dt m g b w) s = .next u))) ∧
  (∀ (s : State) (dt : Dt),
    let t := s.tick dt
    (∀ g n, s.runs g = true → n < 20 →
      ((s.chan g n).st = .idle → exec (.dmaStart dt g n) s = .next (t.fetchDesc g n)) ∧
      ((s.chan g n).st ≠ .idle → exec (.dmaStart dt g n) s = .next t) ∧
      ((s.chan g n).st = .wait → exec (.dmaAbort dt g n) s = .next (t.onChan g n (fun c => { c with abortReq := true, st := .stopping, code := 1 }))) ∧
      ((s.chan g n).st = .active → exec (.dmaAbort dt g n) s = .next (t.onChan g n (fun c => { c with abortReq := true }))) ∧
      (n < 16 → (s.chan g n).st = .wait → ∃ u : State, exec (.dmaRequest dt g n) s = .next u ∧ (u.chan g n).st = .active ∧ (u.chan g n).request = true ∧
        u.mem = s.mem ∧ u.nv = s.nv) ∧
      (n < 16 → (s.chan g n).st = .wait → exec (.dmaPeriphReset dt g n 0) s = .next (t.onChan g n (fun c => { c with st := .stopping, code := 3, request := false }))) ∧
      (∀ data req, (s.chan g n).st = .active → t.ctxTurn g n = true →
        let y := if n < 16 then t.cellBurst g n data [] else t.ctxMove g n []
        let u := y.2.onChan g n (fun c => { c with request := req && decide (n < 16) })
        (y.1 = true → exec (.dmaBurstDone dt g n data [] req) s = .next (u.chanGo g n)) ∧
        (y.1 = false → exec (.dmaBurstDone dt g n data [] req) s = .next (u.onChan g n (fun c => { c with st := .stopping, code := 2 })))) ∧
      ((s.chan g n).st = .stopping → exec (.dmaDescEnd dt g n) s = .next (t.descEnd g n))) ∧
    (∀ k, k < 130 → s.pow.phase ≠ .reset → s.pow.phase ≠ .bootStuck → (s.mac k).ptr + 1 < 8192 → t.isPoisoned (macroBase k + 16 * (s.mac k).ptr) = false →
      twf {} s.jnc.macros = true → (s.mac k).visitAt + scrubC ≤ t.now → ∃ u : State, exec (.scrubVisit dt k []) s = .next u ∧
      u.mac k = { s.mac k with ptr := (s.mac k).ptr + 1, visitAt := (s.mac k).visitAt + scrubC } ∧ { u with jnc := t.jnc } = t) ∧
    (s.runs .m = true → s.nvmc.passAt + 86400 * secC ≤ t.now →
      (∀ l, (∀ w ∈ l, w ∉ s.nvmc.corr) → exec (.mramScrubPass dt l []) s = .next { t with nvmc := { corr := l, passAt := t.now } }) ∧
      (∀ w, w < 524288 → exec (.mramScrubPass dt [] [w]) s =
        .next (({ t.poison (0x10000000 + 16 * w) with nvmc := { corr := [], passAt := t.now } } : State).moveSector (w / 256))) ∧
      (∀ w, w < 524288 → w ∈ s.nvmc.corr → exec (.mramScrubPass dt [w] []) s =
        .next (({ t with nvmc := { corr := [w], passAt := t.now } } : State).moveSector (w / 256)))))

/-- A doorbell set that coincides with the W1C write that clears the same bits: the set wins, and the bits read 1 in DB_PEND (R40).
Concludes that exec answers a next state with the command's own effect, for: dbSetWrite. -/
def Obligations.DoorbellSetWinsOverACoincidingClear : Prop :=
  ∀ (s : State) (dt : Dt) (m : Master) (g : Region) (bits w1c : BitVec 32), ∃ u : State,
    exec (.dbSetWrite dt m g bits w1c) s = .next u ∧
    (∀ n, n < 32 → bit bits n = true → bit (u.jnc.dbPend.get g) n = true) ∧
    (∀ n, n < 32 → bit bits n = false → bit (u.jnc.dbPend.get g) n = (bit (s.jnc.dbPend.get g) n && !bit w1c n)) ∧
    u.regOf (match g with | .c => 0x40010020 | .d => 0x40010024 | .m => 0x40010028) = some (u.jnc.dbPend.get g).toNat

/-! ## TEST (11 R380; 18), cores and regions (01; 18), supply and start-up (19) -/

/-- The TEST commands: a self-test of a spare or an excluded unit reports, an excluded unit returns when it passes and stays out when it
fails or is worn out, a unit in service retires when a spare stands ready, thresholds are stored, the reserves are read, and a restart
follows its response; what does not exist is RANGE, and a unit in another state STATE (11 R380; 18 R556, R557, R563-R566). Concludes that
exec answers a next state with the command's own effect, for: testSelftest, testReturn, testRetire, testWearSet, testReserves, testRestart.
-/
def Obligations.TestCommandsTakeEffect : Prop :=
  ∀ (s : State) (r : Req) (x : Session),
    let t := s.taken r x
    (∀ k n, Served s r x .test → n < unitCount k →
      (∀ d, t.unitSpare k n = true ∨ t.unitExcluded k n = true → exec (.testSelftest r k n true d) s = .next (t.answered r x 0x0F01 .ok [(0, 1), (d, 8)]) ∧
        exec (.testSelftest r k n false d) s = .next (t.answered r x 0x0F01 .fault [(0, 4)])) ∧
      (∀ d b, t.unitSpare k n = false → t.unitExcluded k n = false → exec (.testSelftest r k n b d) s = .next (t.answered r x 0x0F01 .state [(0, 4)])) ∧
      (t.unitExcluded k n = true → (k = 2 → s.wtx.spareValid = true) → t.worn k n = false →
        exec (.testReturn r k n true) s = .next ((t.reenter k n).answered r x 0x0F02 .ok []) ∧
        exec (.testReturn r k n false) s = .next ((t.wearInc k n).answered r x 0x0F02 .fault [(0, 4)])) ∧
      (t.unitExcluded k n = true → (k = 2 → s.wtx.spareValid = true) → t.worn k n = true →
        ∀ b, exec (.testReturn r k n b) s = .next (t.answered r x 0x0F02 .fault [(0, 4)])) ∧
      (t.unitExcluded k n = false ∨ (k = 2 ∧ s.wtx.spareValid = false) → ∀ b, exec (.testReturn r k n b) s = .next (t.answered r x 0x0F02 .state [(0, 4)])) ∧
      (t.unitServes k n = true → t.retireReady k n = true → exec (.testRetire r k n) s = .next ((t.retireUnit k n).answered r x 0x0F03 .ok [])) ∧
      (t.unitServes k n = false ∨ t.retireReady k n = false → exec (.testRetire r k n) s = .next (t.answered r x 0x0F03 .state [(0, 4)]))) ∧
    (∀ k n b d, Served s r x .test → unitCount k ≤ n → exec (.testSelftest r k n b d) s = .next (t.answered r x 0x0F01 .range [(0, 4)]) ∧
      exec (.testReturn r k n b) s = .next (t.answered r x 0x0F02 .range [(0, 4)]) ∧ exec (.testRetire r k n) s = .next (t.answered r x 0x0F03 .range [(0, 4)])) ∧
    (∀ k th, Served s r x .configure →
      (k ≤ 4 → exec (.testWearSet r k th) s =
        .next (State.answered { t with nv := { t.nv with thresh := tset (threshDef k) s.nv.thresh k th } } r x 0x0F06 .ok [])) ∧
      (4 < k → exec (.testWearSet r k th) s = .next (t.answered r x 0x0F06 .range [(0, 4)]))) ∧
    (Served s r x .read → exec (.testReserves r) s = .next (t.answered r x 0x0F04 .ok
      ((rangeFrom 0 5).flatMap t.reserves ++ (rangeFrom 0 128).map (fun m => (t.remapUsed m, 2))))) ∧
    (Served s r x .test →
      (∀ n, n < 3 → t.runs (regionFor n) = true →
        exec (.testRestart r n) s = .next (State.seqLimit ((t.respond x.id ⟨r.seq, 0x0F05, .ok, []⟩).restartRegion (regionFor n) 1) r)) ∧
      (∀ n, n < 3 → t.runs (regionFor n) = false → exec (.testRestart r n) s = .next (t.answered r x 0x0F05 .state [(0, 4)])) ∧
      (∀ n, 3 < n → exec (.testRestart r n) s = .next (t.answered r x 0x0F05 .range [(0, 4)])) ∧
      (let u := t.respond x.id ⟨r.seq, 0x0F05, .ok, []⟩
       exec (.testRestart r 3) s =
         .next (State.seqLimit (({ u with pow := { u.pow with cmdShutdown := true } } : State).shed.endAll .restart) r)))

/-- A dissenting member is excluded and the others vote on in duplex (01 R29); where masking is defeated the region restarts: its SRAM and
the junction's mailboxes and queues that it serves read 0, its restart is counted and the other regions go on (01 R31, R43, R44). A region
resumes with three of its good cores, and a chip-level fault resets the module (18 R550). AGE grows each minute (18 R558). Concludes that
exec answers a next state with the command's own effect, for: voterDisagree, regionRestart, regionResume, chipFault, ageMinute. -/
def Obligations.CoresAndRegionsFailSafely : Prop :=
  ∀ (s : State) (dt : Dt) (g : Region),
    let t := s.tick dt
    let v := t.jnc.voters.get g
    (∀ p, s.runs g = true → v.mode = .triple → bit v.members p = true → ∃ u : State, exec (.voterDisagree dt g p false) s = .next u ∧
      u.jnc.voters.get g = { v.exclude p with disagree := (bump 255 v.disagree).1 } ∧ (v.exclude p).mode = .duplex ∧
      (v.exclude p).excluded = setBit v.excluded p true ∧ (v.exclude p).members = setBit v.members p false ∧ (∀ h, h ≠ g → u.jnc.voters.get h = t.jnc.voters.get h) ∧ u.mem = s.mem ∧ u.sil = s.sil ∧ u.meter = s.meter) ∧
    (s.runs g = true → s.nv.upd.stage ≠ .trial → s.nv.upd.stage ≠ .switching → ∃ u : State, exec (.regionRestart dt g) s = .next u ∧
      u.jnc.regions.get g = ⟨.load, (bump 15 (s.jnc.regions.get g).restarts).1, t.now⟩ ∧
      (∀ h, h ≠ g → u.jnc.regions.get h = s.jnc.regions.get h) ∧
      (∀ a, (sramOf g).1 ≤ a → a < (sramOf g).2 → u.mem.get a = 0 ∧ u.isPoisoned a = false) ∧
      (∀ e ∈ junctionOf g, ∀ a, e.1 ≤ a → a < e.2 → u.mem.get a = 0) ∧
      (∀ a, (a < (sramOf g).1 ∨ (sramOf g).2 ≤ a) → (∀ e ∈ junctionOf g, a < e.1 ∨ e.2 ≤ a) → u.mem.get a = s.mem.get a) ∧ u.bk = t.bk) ∧
    (s.runs g = true → s.nv.upd.stage ≠ .trial → s.nv.upd.stage ≠ .switching → ∀ p b, v.mode ≠ .triple ∨ b = true → ∃ u : State,
      exec (.voterDisagree dt g p b) s = .next u ∧ (u.jnc.regions.get g).st = .load) ∧
    ((s.jnc.regions.get g).st ≠ .run → (s.jnc.regions.get g).at_ + wipeC g ≤ t.now → s.nv.upd.stage ≠ .switching → ∃ u : State, exec (.regionResume dt g) s = .next u ∧
      u.jnc.regions.get g = { s.jnc.regions.get g with st := .run } ∧ u.jnc.voters.get g = v.form) ∧
    (s.pow.phase ≠ .reset → exec (.chipFault dt) s = .next (t.moduleReset 4)) ∧
    (6 ≤ s.pow.phase.rank → s.runs .d = true → s.meter.ageAt + 60 * secC ≤ t.now → ∃ u : State, exec (.ageMinute dt) s = .next u ∧ u.meter.age = s.meter.age + ageStep s.meter.temp + b2n (Config.ageRound s.meter.temp) ∧
      u.meter.hours = s.meter.hours + 60 ∧ u.meter.acc = s.meter.acc)

/-- Supply fail starts one shutdown (19 R573, R574), the interfaces are isolated, the record of the final save ends it (R576; 16 R507), and
a reset follows a return of VIN, an exhausted bank, or the end of a shutdown by command; from detection RST_N has no effect, and else a low
level of 10 µs resets and one below 1 µs does not (R575, R578, R599, R600). Start-up runs in the order of 19 R577 and R582: release with VIN
and the bank up, the boot ROM with a bank whose manifest checks, the M image, the key store, the C and D images, and the restore step, which
begins the lock step with what MRAM holds. A life-cycle wipe ends in a reset (14 R453). Concludes that exec answers a next state with the
command's own effect, for: supplyFail, rtcifIsolate, vinReturn, supplyCycleReset, holdupEnd, rstNLow, finalSaveComplete, resetRelease,
bootRomDone, mImageLoaded, keyStoreReady, cdImagesLoaded, restoreStep, lifecycleWipeDone. -/
def Obligations.ShutdownAndStartUp : Prop :=
  (∀ (s : State) (dt : Dt),
    let t := s.tick dt
    (s.pow.phase ≠ .reset → s.pow.supplyFail = false →
      let u : State := { t with pow := { t.pow with supplyFail := true, cmdShutdown := false, vinBack := false, failAt := t.now } }
      exec (.supplyFail dt) s = .next (if s.pow.cmdShutdown then u else u.shed)) ∧
    (s.pow.phase ≠ .reset → s.pow.supplyFail = true → exec (.supplyFail dt) s = .next { t with pow := { t.pow with vinBack := false } }) ∧
    (s.shutting = true → s.rtc.lockout = true →
      (s.finalSlot.isSome = true ∨ s.pow.finalDone = true ∨ s.pow.shedAt + 20 * msC ≤ t.now →
        exec (.rtcifIsolate dt) s = .next { t with rtc := { t.rtc with isolated := true } }) ∧
      (s.finalSlot = none → s.pow.finalDone = false → t.now < s.pow.shedAt + 20 * msC → exec (.rtcifIsolate dt) s = .next t)) ∧
    (s.pow.supplyFail = true →
      exec (.vinReturn dt) s = .next { t with pow := { t.pow with vinBack := true, vinAt := t.now } } ∧
      (s.pow.vinBack = true → s.pow.failRecDone = true → s.pow.vinAt + 100 * msC ≤ t.now → exec (.supplyCycleReset dt) s = .next (t.moduleReset 3)) ∧
      (s.pow.vinBack = false → s.pow.heldTo ≤ t.now → ∃ u : State, exec (.holdupEnd dt) s = .next u ∧ u.pow.phase = .reset ∧ u.pow.vin = 0 ∧ u.bk = t.bk ∧
        u.nv = s.nv.forgetScenes s.sched.cmds) ∧
      ∀ n, exec (.rstNLow dt n) s = .next t) ∧
    (s.pow.supplyFail = false → (∀ n, n < 1000 → exec (.rstNLow dt n) s = .next t) ∧
      (∀ n, 10000 ≤ n → s.pow.phase ≠ .reset → exec (.rstNLow dt n) s = .next (t.moduleReset 2)) ∧
      (∀ n, 1000 ≤ n → n < 10000 → s.pow.phase ≠ .reset → let u : State := { t with fresh := t.fresh + 1 }
        exec (.rstNLow dt n) s = .next u ∨ exec (.rstNLow dt n) s = .next (u.moduleReset 2))) ∧
    (s.shutting = true → s.pow.failRecDone = false → s.runs .m = true →
      (s.meter.closed ≠ none → t.finalNodePart.finalSlot = none → exec (.finalSaveComplete dt) s = .next t.finalNodePart) ∧
      (s.meter.closed = none ∨ t.finalNodePart.finalSlot.isSome = true → ∃ u : State, exec (.finalSaveComplete dt) s = .next u ∧
        (s.pow.cmdShutdown = false → u.pow.failRecDone = true ∧ u.pow.finalDone = t.finalNodePart.finalSlot.isSome ∧ u.ev.paused = false ∧
          u.ev.nextSeq = (s.ev.nextSeq + 1) % 4294967296) ∧
        (s.pow.cmdShutdown = true → u.pow.phase = .reset ∧ u.pow.cause = 5)))) ∧
  (∀ (s : State) (dt : Dt),
    let t := s.tick dt
    (∀ v c h (p : BitVec 8), s.pow.phase = .reset → v < 1750 ∨ h = false → exec (.resetRelease dt v c h p) s = .next t) ∧
    (∀ v c (p : BitVec 8), s.pow.phase = .reset → 1750 ≤ v → s.nv.upd.stage ≠ .trial → s.nv.upd.stage ≠ .switching → ∃ u : State, exec (.resetRelease dt v c true p) s = .next u ∧
      u.pow.phase = .bootRom ∧ u.pow.vin = v % 4096 ∧ u.pow.pinLvl = p ∧ u.nv = s.nv ∧ u.bk = t.bk) ∧
    (∀ a b p, s.pow.phase = .bootRom → s.nv.upd.stage = .trial →
      let n := !s.nv.upd.active
      let ok := (if n then b else a) = true ∧ (s.nv.upd.bank n).valid = true ∧ s.nv.upd.secVer ≤ (s.nv.upd.bank n).secVer
      (ok → ∃ u : State, exec (.bootRomDone dt a b p) s = .next u ∧ u.pow.phase = .loadM ∧ u.nv.upd.active = s.nv.upd.active ∧ u.nv.upd.bankM = n) ∧
      (¬ ok → exec (.bootRomDone dt a b p) s = .next ((t.rootStep p).revert 3))) ∧
    (∀ a b p, s.pow.phase = .bootRom → s.nv.upd.stage ≠ .trial →
      let ok := fun (n : Bool) => (if n then b else a) = true ∧ (s.nv.upd.bank n).valid = true ∧ s.nv.upd.secVer ≤ (s.nv.upd.bank n).secVer
      let n := s.nv.upd.active
      (ok n → ∃ u : State, exec (.bootRomDone dt a b p) s = .next u ∧ u.pow.phase = .loadM ∧ u.nv.upd.active = n ∧ u.nv.upd.bankM = n) ∧
      (¬ ok n → ok (!n) → ∃ u : State, exec (.bootRomDone dt a b p) s = .next u ∧ u.pow.phase = .loadM ∧ u.nv.upd.active = (!n) ∧ u.nv.upd.bankM = (!n)) ∧
      (¬ ok n → ¬ ok (!n) → ∃ u : State, exec (.bootRomDone dt a b p) s = .next u ∧ u.pow.phase = .bootStuck)) ∧
    (s.pow.phase = .loadM → ∃ u : State, exec (.mImageLoaded dt) s = .next u ∧ u.pow.phase = .mRuns ∧ u.vxc.netInForce = s.nv.net) ∧
    (s.pow.phase = .mRuns → t.shutting = false → ∃ u : State, exec (.keyStoreReady dt) s = .next u ∧ u.pow.phase = .keysReady ∧ u.bk.log = [] ∧
      u.bk.ovf = 0 ∧ u.sign.run = true ∧ u.pow.signHiZ = false) ∧
    (s.pow.phase = .keysReady → s.nv.wipeDue = false → exec (.cdImagesLoaded dt true) s = .next ({ t with pow := { t.pow with phase := .cdRun } } : State).measureTemp) ∧
    (s.pow.phase = .keysReady → s.nv.wipeDue = false →
      (s.nv.upd.stage = .trial → exec (.cdImagesLoaded dt false) s = .next (t.revert 3)) ∧
      (s.nv.upd.stage ≠ .trial → ∃ u : State, exec (.cdImagesLoaded dt false) s = .next u ∧ u.pow.phase = .bootRom ∧ u.nv.upd.active = (!s.nv.upd.active) ∧
        u.pow.drive = 0 ∧ u.pow.signHiZ = true)) ∧
    (s.pow.phase = .cdRun → ∃ u : State, exec (.restoreStep dt) s = .next u ∧ u.pow.phase = .lockStep ∧ u.tb.sel = s.nv.profileSel ∧ u.tb.lockAt = t.now ∧
      u.pow.pulseHiZ = t.shutting ∧ u.meter.cfg = s.nv.meterCfg ∧ u.accord.models = s.nv.models) ∧
    (s.nv.wipeDue = true → s.runs .m = true → ∃ u : State, exec (.lifecycleWipeDone dt) s = .next u ∧ u.pow.phase = .reset ∧ u.pow.cause = 6 ∧
      u.nv.wipeDue = false ∧ u.nv.regs = [] ∧ u.nv.lcs = s.nv.lcs ∧ u.nv.serial = s.nv.serial ∧ u.nv.slots = s.nv.slots))

/-! ## The half-cycle time base (02) -/

/-- Every edge issues the next HCN, takes its time, and writes its stamp, whose first 48 bits are the HCN (R55, R72, R81); a module without
an update under way does not leave the run at an edge. -/
def Obligations.EveryEdgeStampsItsHalfCycle : Prop :=
  ∀ (s : State) (k fl : Nat), s.nv.upd.stage = .idle → s.pow.phase = .complete → k < 2 ^ 48 → k ≠ 0 → fl < 32 →
    let u := s.edge k fl
    u.tb.hcn = k ∧ u.tb.lastEdge = s.now ∧ u.tb.running = true ∧ u.tb.st = s.tb.st ∧ fld u.tb.flags 0 5 = fl ∧ u.pow.phase = .complete ∧
      fld (tget 0 u.jnc.stamps (k % 1024)) 0 48 = k ∧ (∀ j, j % 1024 ≠ k % 1024 → tget 0 u.jnc.stamps (j % 1024) = tget 0 s.jnc.stamps (j % 1024)) ∧
      u.pending = s.pending ∧ u.bk = s.bk

/-- The time base's commands: a crossing in the detector's window is measured and qualified without moving the count, an edge that is due is
real, bridged, slewed or the one that loses the mains, a virtual period ends in an edge, and the lock step ends at the first edge of the run
at the resume value of the parity of its crossing (R63-R69, R74). Concludes that exec answers a next state with the command's own effect,
for: zeroCrossing, hcnEdge, virtualEdge, lockStepTimeout, setBCrossing. -/
def Obligations.CrossingsAndEdgesDriveTheCount : Prop :=
  ∀ (s : State) (dt : Dt),
    let t := s.tick dt
    (∀ up rms, s.tb.accepts t.now = false → exec (.zeroCrossing dt up rms) s = .next t) ∧
    (∀ up rms, 6 ≤ s.pow.phase.rank → s.tb.st ≠ .hold → s.tb.accepts t.now = true → ∃ u : State, exec (.zeroCrossing dt up rms) s = .next u ∧ u.tb.lastCross = some t.now ∧
      u.tb.lastRising = up ∧ u.tb.hcn = s.tb.hcn ∧ u.tb.lastEdge = s.tb.lastEdge ∧ u.jnc.stamps = s.jnc.stamps) ∧
    (∀ up rms, s.tb.st = .locked → 6 ≤ s.pow.phase.rank → s.tb.phaseCnt = 3 → s.tb.hist.length < 7 →
      s.tb.accepts t.now = true → msC < s.tb.phaseErr t.now → ∃ u : State, exec (.zeroCrossing dt up rms) s = .next u ∧ u.tb.st = .locked ∧
        (rmsOk rms s.tb.vnomA = true → u.tb.slewNext = true) ∧ (rmsOk rms s.tb.vnomA = false → u.tb.phaseCnt = 0 ∧ u.tb.slewNext = s.tb.slewNext)) ∧
    (∀ up rms, s.tb.st = .hold → 6 ≤ s.pow.phase.rank → s.tb.relockNext = true → s.tb.accepts t.now = true → exec (.zeroCrossing dt up rms) s =
      .next (State.firstEdge (t.onTb (fun v => v.cross t.now up (rmsOk rms v.vnomA)))
        (if decide (s.tb.resume % 2 = 0) = up then s.tb.resume else s.tb.resume + 1) .locked)) ∧
    (∀ found rms, s.tb.edgeDue t.now = false → exec (.hcnEdge dt found rms) s = .next t) ∧
    (s.tb.st = .locked → s.tb.slewNext = false → s.tb.dueLocked (s.tb.hcn + 1) t.now = true → ∀ found rms,
      let here := s.tb.crossed (s.tb.hcn + 1) t.now found rms
      (here = true → exec (.hcnEdge dt found rms) s = .next ((t.onTb (fun v => { v with missCnt := 0 })).edge (s.tb.hcn + 1) 0)) ∧
      (here = false → s.tb.missCnt = 0 → exec (.hcnEdge dt found rms) s =
        .next ((t.onTb (fun v => { v.freqMissed with phaseCnt := 0, missCnt := 1 })).edge (s.tb.hcn + 1) 4)) ∧
      (here = false → 1 ≤ s.tb.missCnt → exec (.hcnEdge dt found rms) s =
        .next ((State.raiseTb (State.goVirtual (t.onTb (fun v => { v.freqMissed with phaseCnt := 0 })) .virtual t.now) 0x0200 (genPay (wJnc + 0x48) [])).edge (s.tb.hcn + 1) 1))) ∧
    (s.tb.st = .locked → s.tb.slewNext = true → s.tb.dueLocked (s.tb.hcn + 1) t.now = true → ∀ found rms, s.tb.crossed (s.tb.hcn + 1) t.now found rms = true →
      exec (.hcnEdge dt found rms) s = .next (State.refEdge (t.onTb (fun v => { v with missCnt := 0 })) 0)) ∧
    (s.tb.st = .slew → s.tb.dueSlew t.now = true → ∀ found rms, s.tb.crossed (s.tb.hcn + 1) t.now found rms = true →
      let n := if s.tb.lastEdge + s.tb.measured < t.now then s.tb.slewed + 1 else s.tb.slewed
      let g := s.tb.target + s.tb.measured
      let u := t.onTb (fun v => { v with missCnt := 0, target := g, slewed := n })
      (t.now + lockC ≤ g → exec (.hcnEdge dt found rms) s = .next (u.edge (s.tb.hcn + 1) 2)) ∧
      (g < t.now + lockC → exec (.hcnEdge dt found rms) s = .next ((u.relocked s.tb.offset0 n).edge (s.tb.hcn + 1) 0))) ∧
    (∀ found rms, s.tb.st = .qualify → s.tb.relockNext = true → s.tb.dueVirtual t.now = true → exec (.hcnEdge dt found rms) s = .next (t.refEdge 0)) ∧
    (s.tb.running = true → s.tb.st = .virtual ∨ s.tb.st = .outOfProfile → s.tb.dueVirtual t.now = true →
      let u := t.onTb (fun v => { v with virtAt := v.virtAt + v.virtPeriod })
      let fl := if s.tb.st = .outOfProfile then 9 else 1
      (∀ c, s.tb.lastCross = some c → t.now - c ≤ s.tb.crossLimit →
        (s.tb.lastOk = true → exec (.virtualEdge dt) s = .next (u.edge (s.tb.hcn + 1) fl)) ∧
        (s.tb.lastOk = false → exec (.virtualEdge dt) s = .next ((u.onTb TimeBase.freqMissed).edge (s.tb.hcn + 1) fl))) ∧
      ((∀ c, s.tb.lastCross = some c → s.tb.crossLimit < t.now - c) → exec (.virtualEdge dt) s =
        .next ((u.onTb (fun v => { v.freqMissed with chain := 0 })).edge (s.tb.hcn + 1) fl))) ∧
    (s.pow.phase = .lockStep → s.tb.relockNext = false → s.tb.lockAt + secC ≤ t.now → exec (.lockStepTimeout dt) s =
      .next ((t.onTb (fun v => { v with qCount := 0, chain := 0 })).firstEdge (s.tb.resume + s.tb.resume % 2) .virtual)) ∧
    (∀ up rms, s.pow.phase ≠ .reset → s.tb.running = true → s.tb.setB.mapped = false → rmsOk rms s.tb.vnomB = true →
      t.now < s.tb.lastEdge + s.tb.measured → ∃ u : State, exec (.setBCrossing dt up rms) s = .next u ∧ u.tb.setB.mapped = true ∧
        u.tb.setB.present = true ∧ u.tb.setB.bofs = (t.now : Int) - s.tb.lastEdge ∧ u.tb.hcn = s.tb.hcn ∧ bit u.tb.flags 5 = true) ∧
    (∀ up rms, s.pow.phase ≠ .reset → s.tb.running = true → s.tb.setB.mapped = true →
      let dist := fun (y : Int) => ((t.now : Int) - (y + s.tb.setB.bofs)).natAbs
      let next := dist (s.tb.lastEdge + s.tb.measured : Nat)
      let last := dist ((cutOf s.tb.cuts (s.tb.hcn - 1)).getD (s.tb.lastEdge - s.tb.measured))
      dist s.tb.lastEdge ≤ next → dist s.tb.lastEdge ≤ last → ∃ u : State, exec (.setBCrossing dt up rms) s = .next u ∧
        u.tb.setB.bofs = (t.now : Int) - s.tb.lastEdge ∧ u.tb.setB.present = s.tb.setB.present ∧ u.tb.hcn = s.tb.hcn ∧ u.tb.lastEdge = s.tb.lastEdge)

/-! ## The downlink: frames, blocks, stages (03; 04 R118-R127, R154) -/

/-- A frame begins on an active feeder 150 µs after its reference instant, the edge or the set-B crossing of its HCN, with its beacon and
both beacon slots, and takes that HCN as its number (02 R71, R76; 03 R99; 04 R118); its block is closed 1 000 µs after that instant, once,
for that frame, with no more level records than fit (04 R126, R127). Concludes that exec answers a next state with the command's own effect,
for: frameBurstStart, blockClose. -/
def Obligations.FramesCarryOneBlock : Prop :=
  ∀ (s : State) (dt : Dt) (f : Nat), f < 8 →
    let t := s.tick dt
    ((t.linkActive f = false ∨ t.frameNow f = none) → exec (.frameBurstStart dt f) s = .next t) ∧
    (∀ k, t.linkActive f = true → t.frameNow f = some k → (∃ i, t.refInstant f k = some i ∧ i + 60000 = t.now) ∧
      ∃ (u : State) (l : List Out) (w : BitVec 36) (d g : Nat) (a b : List Nat), exec (.frameBurstStart dt f) s = .next u ∧
        u.out = l ++ [.beacon f w d g, .slot f 0 a, .slot f 1 b] ∧ (u.feeder f).live = true ∧ (u.feeder f).closed = false ∧ (u.feeder f).frame = k ∧
        (u.feeder f).cack = 31 ∧ u.tb = s.tb) ∧
    ((t.feeder f).live = true → (t.feeder f).block = none → (t.feeder f).closed = false → (t.feeder f).damaged = false →
      t.now = (t.feeder f).refTime + msC →
      ∃ (u : State) (b : Block), exec (.blockClose dt f) s = .next u ∧ (u.feeder f).block = some b ∧ (u.feeder f).closed = true ∧ b.hcn = (t.feeder f).frame ∧
        b.bt = (if (t.feeder f).blockType b.hcn = 0 then b.levels.length else (t.feeder f).blockType b.hcn) ∧
        b.levels.length ≤ (if s.tb.p60 then 9 else 11) ∧ u.tb = s.tb)

/-- The stage bank: an echo failure is counted against the path and the stage and the spare takes the feeder, which is muted where there is
none, a suspect that passes its load check in its turn is in reserve again and one that fails is excluded, an idle spare that fails is
excluded, and an external fault clears after 256 frames (03 R107-R113). Fifty inactive frames take a feeder's nodes to FALLBACK_LEVEL (04
R154). Concludes that exec answers a next state with the command's own effect, for: echoFailure, stageLoadCheck, spareStageCheck,
extFaultClear, linkInactive50. -/
def Obligations.StagesAreSubstitutedAndChecked : Prop :=
  ∀ (s : State) (dt : Dt),
    let t := s.tick dt
    (∀ f, (t.feeder f).live = false ∨ t.inBurst f = false ∨ (t.rxp f).learn ≠ 17 ∨ (t.rxp f).rxFail = true ∨ bit s.wtx.muted f = true →
      exec (.echoFailure dt f) s = .next t) ∧
    (∀ f m, f < 8 → (t.feeder f).live = true → t.inBurst f = true → (t.rxp f).learn = 17 → (t.rxp f).rxFail = false → bit s.wtx.muted f = false →
      bit s.wtx.extFault f = false → 9 ≤ (t.feeder f).sinceSub → (t.feeder f).block = none → s.wtx.of f = some m → s.wtx.spareValid = false → t.sameWindow f = none →
      ∃ u : State, exec (.echoFailure dt f) s = .next u ∧ u.wtx.of f = none ∧ bit u.wtx.muted f = true ∧ u.wtx.suspects = s.wtx.suspects ++ [(m, f)] ∧
        (u.rxp f).echoFail = (bump 255 (t.rxp f).echoFail).1 ∧ u.wearOf 1 m = up32 (s.wearOf 1 m) ∧ (u.feeder f).damaged = true) ∧
    (∀ f m k, f < 8 → (t.feeder f).live = true → t.inBurst f = true → (t.rxp f).learn = 17 → (t.rxp f).rxFail = false → bit s.wtx.muted f = false → bit s.wtx.extFault f = false →
      9 ≤ (t.feeder f).sinceSub → (t.feeder f).block = none → s.wtx.of f = some m → s.wtx.spare = some k → s.wtx.spareValid = true → tsorted 0 s.wtx.assign = true →
      ∃ u : State, exec (.echoFailure dt f) s = .next u ∧ u.wtx.of f = some k ∧ u.wtx.spare = none ∧ u.wtx.suspects = s.wtx.suspects ++ [(m, f)] ∧
        (u.rxp f).echoFail = (bump 255 (t.rxp f).echoFail).1 ∧ u.wearOf 1 m = up32 (s.wearOf 1 m) ∧ (u.feeder f).damaged = true) ∧
    (∀ m f p a b, s.wtx.suspects.find? (fun e => e.1 == m) = some (m, f) → t.loadTurn m = false → exec (.stageLoadCheck dt m p a b) s = .next t) ∧
    (∀ m f a b, s.wtx.suspects.find? (fun e => e.1 == m) = some (m, f) → (t.feeder f).heldFail = false → t.loadTurn m = true →
      let v : State := { t with wtx := { t.wtx with suspects := s.wtx.suspects.filter (fun e => e.1 != m), checked := some s.tb.hcn } }
      exec (.stageLoadCheck dt m true a b) s =
        .next (((v.raiseHw 1 0x14 m 0x0302 [m, f]).stageSpare m).onFeeder f (fun y => { y with subPassed := true })) ∧
      exec (.stageLoadCheck dt m false a b) s = .next (v.stageFault m f)) ∧
    (∀ m f a b, s.wtx.suspects.find? (fun e => e.1 == m) = some (m, f) → (t.feeder f).heldFail = true → t.loadTurn m = true →
      let v : State := { t with wtx := { t.wtx with suspects := s.wtx.suspects.filter (fun e => e.1 != m), checked := some s.tb.hcn } }
      exec (.stageLoadCheck dt m true a b) s =
        .next ((((v.raiseHw 1 0x14 m 0x0302 [m, f]).stageSpare m).onFeeder f (fun y => { y with subPassed := true })).verdict f a b) ∧
      exec (.stageLoadCheck dt m false a b) s = .next ((v.stageFault m f).substitute f false)) ∧
    (∀ m, s.wtx.spare = some m →
      let u := (t.dropSets m).onWtx (fun w => { w with spare := none, spareValid := false, excluded := setBit w.excluded m true })
      exec (.spareStageCheck dt) s = .next (((u.wearInc 1 m).raiseHw 1 0x14 m 0x0300 (genPay (wWtx + 4) [])).reserveNote 1 m 0)) ∧
    (s.wtx.spare = none → exec (.spareStageCheck dt) s = .next t) ∧
    (∀ f, f < 8 → bit s.wtx.extFault f = true → 256 ≤ (t.feeder f).extPass + b2n (t.echoPassed f && t.burstOver f) → exec (.extFaultClear dt f) s =
      .next { t with wtx := { t.wtx with extFault := setBit s.wtx.extFault f false } }) ∧
    (∀ f, f < 8 → s.pow.phase = .complete → s.runs .c = true → 50 ≤ (t.feeder f).inactive →
      exec (.linkInactive50 dt f) s = .next ((t.joinedOn f).foldl (fun u a => u.fallbackNode a) t))

/-! ## The uplink (03 R106; 04 R132-R154; 05 R166, R167) -/

/-- What an accepted report does: a presence report in minislot 0 is acknowledged in the next beacon and sets PRES, a fall clears it,
DAYLIGHT writes LUX and TEMP, STATUS keeps the node's flags and versions, an ACK resolves what it names, IMG_STATUS keeps the image's state,
and a join request gets an index and two JOIN_KEYs, with that of a joined node counted and quarantined as a contention report (04 R134,
R137, R144-R148; 05 R166; 15 R489). The receive paths count what they decode, one burst in a minislot, and what they only detect, and
measure the noise where they decode nothing, also on an inactive feeder (03 R102, R106), and the timers of a node act: quarantine ends, four
turns without a report clear PRES or DL_VALID, and what a node has not acknowledged by its second turn goes again, up to eight times (04
R137, R144, R147; 05 R166, R167). Concludes that exec answers a next state with the command's own effect, for: presRise, presFall, daylight,
statusReport, ack, imgStatus, joinReq, uplinkBurstDecoded, uplinkMinislotEnd, quarantineEnd, presTimeout, daylightTimeout, nodeKeyResend,
backgroundResend. -/
def Obligations.UplinkReportsAndTimers : Prop :=
  (∀ (s : State) (rep : Rep),
    let t := s.tick rep.dt
    let a := repAddr rep
    let k := (t.feeder rep.f).frame
    (∀ x y, t.takes rep 1 = true → rep.slot ≠ 0 → exec (.presRise rep x y false) s = .next ((t.heardNode rep).sensor ⟨a, 0x3#32, 0x1#32, false⟩)) ∧
    (∀ x y, t.takes rep 1 = true → rep.slot = 0 → (t.node a).quarantined = false → (t.node a).quarNext = false →
      ∃ u : State, exec (.presRise rep x y true) s = .next u ∧ (u.feeder rep.f).cack = rep.idx % 31 ∧ (u.node a).localUntil = some (k + 2)) ∧
    (∀ x, t.takes rep 2 = true → exec (.presFall rep x) s = .next ((t.heardNode rep).sensor ⟨a, 0x1#32, 0, false⟩)) ∧
    (∀ lux pres fb temp, t.takes rep 3 = true → twf {} s.nodes = true → ∃ u : State, exec (.daylight rep lux pres fb temp) s = .next u ∧ (u.node a).temp = temp % 256 ∧
      (u.node a).lastDl = k ∧ (u.node a).lastRx = k) ∧
    (∀ (w : BitVec 16) pv fw, t.takes rep 4 = true → t.pverOk pv = true → pv ≠ 0 → bit w 0 = false → bit w 1 = false → bit w 4 = false → bit w 5 = false →
      exec (.statusReport rep w pv fw) s = .next ((t.heardNode rep).onNode a (fun n =>
        { n with nflags := w, pver := pv % 16, fwver := fw % 16384, incompatible := false }))) ∧
    (∀ ref res, t.takes rep 5 = true → let u := t.heardNode rep
      let u := u.nodeNote a (u.euiAt a) 2 (pack [(0, 4, 4), (4, 4, res), (8, 20, ref)])
      exec (.ack rep 4 res ref) s = .next (u.ackProbe a (ref % 1048576) res)) ∧
    (∀ p ref, t.takes rep 5 = true → tget none s.nv.rolls rep.f = some p → p.gen % 16 = ref → twf {} s.nodes = true →
      ∃ u : State, exec (.ack rep 9 0 ref) s = .next u ∧ (u.node a).keyAcked = true ∧ rep.idx ∉ (u.feeder rep.f).keyQ ∧ (u.node a).lastRx = k) ∧
    (∀ op ref res, t.takes rep 5 = true → op ≠ 4 → op ≠ 9 → let u := t.heardNode rep
      let u := u.nodeNote a (u.euiAt a) 2 (pack [(0, 4, op), (4, 4, res), (8, 20, ref)])
      exec (.ack rep op res ref) s = .next (u.ackBg rep.f op rep.idx ref res)) ∧
    (∀ img st miss first, t.takes rep 6 = true → img ≤ 15 → twf {} s.nodes = true → ∃ u : State, exec (.imgStatus rep img st miss first) s = .next u ∧
      (tget {} (u.node a).img img).st = st ∧ (tget {} (u.node a).img img).missing = miss ∧ (tget {} (u.node a).img img).first = first ∧ (u.node a).lastRx = k) ∧
    (∀ f hi lo l, t.hears f = true →
      let cands := s.nv.regs.filter (fun g => g.usable && g.eui % 2 ^ 59 == hi * 2048 + lo)
      (cands = [] → exec (.joinReq rep.dt f hi lo l) s = .next t.refuseJoin) ∧
      (cands ≠ [] → (∀ g ∈ cands, g.eui ∉ l) → ∃ u : State, exec (.joinReq rep.dt f hi lo l) s = .next u ∧ (u.rxp f).badMic = up32 (t.rxp f).badMic ∧
        u.nodes = s.nodes ∧ u.fdr = s.fdr) ∧
      (∀ r i, cands.find? (fun g => l.contains g.eui) = some r → (∀ n, r.fixed = some n → n / 2048 = f) → (∀ w ∈ (t.feeder f).joins, w.eui ≠ r.eui) →
        (t.feeder f).joins.length < 64 → t.joinIdx f r = some i →
        let take := fun (u : State) => u.onFeeder f (fun y => { y with joins := y.joins ++ [{ eui := r.eui, idx := i, jhcn := (t.feeder f).frame % 65536 }] })
        (r.addr = none → exec (.joinReq rep.dt f hi lo l) s = .next (take t)) ∧
        (∀ n, r.addr = some n → let q := t.contend n (t.feeder f).frame
          (q.2 = true → exec (.joinReq rep.dt f hi lo l) s = .next (take q.1)) ∧
          (q.2 = false → exec (.joinReq rep.dt f hi lo l) s = .next q.1))))) ∧
  (∀ (s : State) (dt : Dt),
    let t := s.tick dt
    (∀ f m y i c r snr, t.hears f = true → t.slotExists m = true → (t.rxp f).got ≠ some ((t.feeder f).frame, m) → ∃ u : State, exec (.uplinkBurstDecoded dt f m y i c r snr) s = .next u ∧
      (u.rxp f).decoded = (bump 65535 (t.rxp f).decoded).1 ∧ u.total (wWrx + 4 + 0x10 * f) 16 = stick 0xFFFFFFFF (s.total (wWrx + 4 + 0x10 * f) 16 + 1) ∧
      (¬ (1 ≤ y ∧ y ≤ 6) → y ≠ 0x1F → (u.rxp f).badType = up32 (t.rxp f).badType) ∧ (u.rxp f).got = some ((t.feeder f).frame, m)) ∧
    (∀ f m, t.hears f = true → t.slotExists m = true → (t.rxp f).got = some ((t.feeder f).frame, m) →
      (∀ y i c r snr, exec (.uplinkBurstDecoded dt f m y i c r snr) s = .next t) ∧ ∀ b n, exec (.uplinkMinislotEnd dt f m b n) s = .next t) ∧
    (∀ f m b n, t.pathUp f = true → t.slotExists m = true → (t.feeder f).live = false →
      exec (.uplinkMinislotEnd dt f m b n) s = .next (t.noiseOf f s.tb.hcn n)) ∧
    (∀ f m n, t.hears f = true → t.slotExists m = true → (t.rxp f).got ≠ some ((t.feeder f).frame, m) →
      (∃ u : State, exec (.uplinkMinislotEnd dt f m true n) s = .next u ∧ (u.rxp f).decodeFail = (bump 65535 (t.rxp f).decodeFail).1 ∧
        ((t.feeder f).frame, n) ∈ (u.rxp f).noises) ∧
      (∃ u : State, exec (.uplinkMinislotEnd dt f m false n) s = .next u ∧ (u.rxp f).decodeFail = (t.rxp f).decodeFail ∧ ((t.feeder f).frame, n) ∈ (u.rxp f).noises)) ∧
    (∀ a, (t.node a).quarantined = true → (t.node a).quarFrom + 4096 ≤ s.tb.hcn → exec (.quarantineEnd dt a) s =
      .next (let u := t.onNode a (fun n => { n with quarantined := false, contention := [] })
             u.nodeNote a (u.euiAt a) 5 0)) ∧
    (∀ a, t.joinedAt a = true → 4 ≤ t.turns (a / 2048) (a % 2048) (t.node a).lastRx (t.feeder (a / 2048)).frame →
      exec (.presTimeout dt a) s = .next (t.sensor ⟨a, 0x1#32, 0, false⟩)) ∧
    (∀ a, t.joinedAt a = true → 4 ≤ t.turns (a / 2048) (a % 2048) (t.node a).lastDl (t.feeder (a / 2048)).frame →
      exec (.daylightTimeout dt a) s = .next (t.sensor ⟨a, 0x4#32, 0, false⟩)) ∧
    (∀ a, t.joinedAt a = true → (tget none s.nv.rolls (a / 2048)).isSome = true → (t.node a).keyAcked = false → 1 ≤ (t.node a).keySent → (t.node a).keySent ≤ 8 →
      a % 2048 ∉ (t.feeder (a / 2048)).keyQ → 2 ≤ t.turns (a / 2048) (a % 2048) (t.node a).keySentAt (t.feeder (a / 2048)).frame →
      exec (.nodeKeyResend dt a) s = .next (t.onFeeder (a / 2048) (fun y => { y with keyQ := y.keyQ ++ [a % 2048] }))) ∧
    (∀ f n b, (tget [] s.nv.bg f).find? (fun y => y.id == n) = some b → b.due = false → 2 ≤ t.turns f b.item.node b.sentAt (t.feeder f).frame →
      let bg := fun (g : List BgItem → List BgItem) => ({ t with nv := { t.nv with bg := tmod [] s.nv.bg f g } } : State)
      (b.sent < 8 → exec (.backgroundResend dt f n) s = .next (bg (fun l => l.map (fun y => if y.id == n then { y with due := true } else y)))) ∧
      (∀ i, 8 ≤ b.sent → b.item = .leave i →
        exec (.backgroundResend dt f n) s = .next ((bg (fun l => l.filter (fun y => y.id != n))).nodeLeft (2048 * f + i)))))

/-! ## Ethernet, PRP and network time (12) -/

/-- Frames: each port holds two queues of 64 frames, PTP and the rest; a frame is served at once while the firmware is free, waits with its
time while it is not, and is dropped and counted at a full queue (R386). One that the module accepts is passed up once and its duplicate on
the other port is dropped and counted (R385, R389), ARP and echo requests are answered to their sender on the ports that are up with one
SequenceNr, from MAC0 (R383, R384, R388), supervision frames go out (R387), and a port's loss and return are counted and announced (R407).
Concludes that exec answers a next state with the command's own effect, for: ethFrameRx, arpRequest, icmpEchoRequest, prpSupervisionTx,
ethLinkDown, ethLinkUp. -/
def Obligations.FramesAreTakenOnceAndAnswered : Prop :=
  ∀ (s : State) (dt : Dt) (a : Arrival),
    let p := a.port
    let t0 := s.tick dt
    let t := t0.rxStart p t0.now
    let y := t.prpTake a
    (∀ fr, t0.accepts a fr.peerDelay = false → t0.receive a fr = t0) ∧
    (∀ fr, t0.accepts a fr.peerDelay = true → t0.rxIdle p = true → t0.receive a fr = t.rxHandle p t0.now fr) ∧
    (∀ fr, t0.accepts a fr.peerDelay = true → t0.now < (t0.eport p).rxFree →
      let q := if fr.isPtp then (t0.eport p).ptpQ else (t0.eport p).restQ
      (q.length < 64 → ∃ u : State, t0.receive a fr = u ∧ (if fr.isPtp then (u.eport p).ptpQ else (u.eport p).restQ) = q ++ [(t0.now, fr)] ∧
        { u with net := { u.net with ports := t0.net.ports } } = t0) ∧
      (64 ≤ q.length → t0.receive a fr = t0.portCount p 0xFFFF (wEth p) 16 EthPort.rxDrop (fun e v => { e with rxDrop := v }))) ∧
    (∀ fr n, exec (.ethFrameRx dt n fr) s = .next (t0.receive ⟨n, fr.src, fr.len, fr.vid, fr.trailer⟩ (.eth fr))) ∧
    (∀ ip, exec (.arpRequest dt a ip) s = .next (t0.receive a (.arp a ip))) ∧ exec (.icmpEchoRequest dt a) s = .next (t0.receive a (.icmp a)) ∧
    (∀ (fr : EthFrame) lan q, a = ⟨p, fr.src, fr.len, fr.vid, fr.trailer⟩ → t0.accepts a fr.peerDelay = true → t0.rxIdle p = true → fr.ptp = false →
      fr.trailer = some (lan, q) → lan = 0xA + p → (∃ n ∈ s.net.nodes, n.src = fr.src) → (∀ n ∈ s.net.nodes, n.src = fr.src → t.now < n.used + 60 * secC) →
      (t.prpDup fr.src q = false → fr.handled = true →
        ∃ u : State, exec (.ethFrameRx dt p fr) s = .next u ∧ u.out = [.ethUp p fr] ∧ ((q, t.now) ∈ u.prpSeqs fr.src) ∧ u.nv = s.nv) ∧
      (t.prpDup fr.src q = true →
        ∃ u : State, exec (.ethFrameRx dt p fr) s = .next u ∧ u.out = [] ∧ (u.eport p).dup = (bump 0xFFFFFFFF (t.eport p).dup).1)) ∧
    (t0.accepts a false = true → t0.rxIdle p = true → s.vxc.netInForce.ipv4 ≠ 0 →
      (y.1 = true →
        exec (.arpRequest dt a s.vxc.netInForce.ipv4) s = .next (y.2.sendFrame (.arpReply a.src)) ∧
        (∀ ip, ip ≠ s.vxc.netInForce.ipv4 → exec (.arpRequest dt a ip) s = .next y.2) ∧
        (let n := if s.net.icmp.1 = t.now / secC then s.net.icmp.2 else 0
         (n < 10 → exec (.icmpEchoRequest dt a) s = .next ((y.2.onNet (fun x => { x with icmp := (t.now / secC, n + 1) })).sendFrame (.echoReply a.src))) ∧
         (10 ≤ n → exec (.icmpEchoRequest dt a) s = .next y.2))) ∧
      (y.1 = false → exec (.icmpEchoRequest dt a) s = .next y.2 ∧ ∀ ip, exec (.arpRequest dt a ip) s = .next y.2)) ∧
    (t0.netRuns = true → t0.supDue = true → exec (.prpSupervisionTx dt) s =
      .next (((State.rxServe 128 (State.rxServe 128 t0 0) 1).onNet (fun n => { n with supAt := some t0.now })).sendFrame .supervision)) ∧
    (t0.netRuns = false ∨ t0.supDue = false → exec (.prpSupervisionTx dt) s = .next t0) ∧
    (∀ k : Frame, let o := fun (n : Nat) => Out.eth n k.form.1 s.nv.mac0 k.form.2 (0xA + n, t.net.prpSeq) (t.tag 4)
      (t.linkUp 0 = true → t.linkUp 1 = true → (t.sendFrame k).out = [o 0, o 1] ∧ (t.sendFrame k).net.prpSeq = (t.net.prpSeq + 1) % 65536) ∧
      (∀ n, n < 2 → t.linkUp n = true → t.linkUp (1 - n) = false → (t.sendFrame k).out = [o n] ∧ (t.sendFrame k).net.prpSeq = (t.net.prpSeq + 1) % 65536)) ∧
    (t0.portOk p = true → twf {} s.net.ports = true → ∃ u : State, exec (.ethLinkDown dt p) s = .next u ∧ u.linkUp p = false ∧
      (u.eport p).linkCnt = (bump 255 (t.eport p).linkCnt).1 ∧ u.nv = s.nv ∧ u.net.prpSeq = t.net.prpSeq) ∧
    (∀ n v, t0.netRuns = true → t0.linkUp n = false → n < 2 → (v = 1 ∨ v = 2) →
      let u := t0.onEport n (fun e => { e with link := true, speed := v })
      u.linkUp n = true ∧ (u.eport n).speed = v ∧
      (s.vxc.netInForce.ipv4 ≠ 0 → exec (.ethLinkUp dt n v) s = .next ((u.sendOne n .arpAll).sendOne n .supervision)) ∧
      (s.vxc.netInForce.ipv4 = 0 → exec (.ethLinkUp dt n v) s = .next (u.sendOne n .supervision)))

/-- PTP: a one-step exchange of a source with a master completes with t2 - t1 less its corrections, where t2 is the clock as the Sync
arrives, within 12 ns, a two-step one waits one sync interval for its Follow_Up, an Announce of a better master is taken, delay requests
carry the clock and go out at their interval, responses that come within 1 s measure the path, and a Pdelay_Req is answered with its
turnaround (R392-R402). The local clock: PTP_ADJ steps it by a signed number of nanoseconds, INCR is clamped, reading NS latches SEC and
FRAC (R399, R409); a source that is lost or that may return is exchanged for the one the order of R401 gives, or the clock runs free
(R402-R405); the hourly check sets the RTC from PTP at a second boundary (R406). Concludes that exec answers a next state with the command's
own effect, for: ptpSyncRx, ptpFollowUpRx, ptpAnnounceRx, ptpDelayRespRx, ptpDelayReqTx, ptpPdelayRespRx, ptpPdelayReqRx, ptpAdjWrite,
ptpIncrWrite, ptpTimeNsRead, ptpSourceLost, ptpSourceReturn, rtcHourlyCheck. -/
def Obligations.NetworkTimeIsKept : Prop :=
  (∀ (s : State) (dt : Dt) (a : Arrival) (d n : Nat),
    let p := a.port
    let t0 := s.tick dt
    let t := t0.rxStart p t0.now
    t0.rxIdle p = true → t0.sourceOf p d = some n →
    let x := t0.ptpSource n
    ∀ e : Int, e.natAbs ≤ 12 →
    let t2 : Int := (t.net.sec * 1000000000 + t.net.ns : Nat) + e
    (t0.accepts a false = true →
      (∀ q t1 c li, x.master.isSome = true → -7 ≤ li → li ≤ 1 →
        exec (.ptpSyncRx dt a d q false t1 e c li) s = .next ((t.syncSeen n q li).exchange n (t2 - t1 - c)) ∧
        exec (.ptpSyncRx dt a d q true t1 e c li) s = .next ((t.syncSeen n q li).onSource n (fun y =>
          { y with sync := some (q, t2, c, t.now + secC * 2 ^ (li + 7).toNat / 128, t.net.epoch) }))) ∧
      (∀ q t1 c c' li, x.master.isSome = true → li < -7 ∨ 1 < li → exec (.ptpSyncRx dt a d q c' t1 e c li) s = .next t.ptpIgnore) ∧
      (∀ q t1 c c' li, x.master = none → exec (.ptpSyncRx dt a d q c' t1 e c li) s = .next t) ∧
      (∀ q t1 t2 c c' lim ep, x.sync = some (q, t2, c, lim, ep) →
        (t.now ≤ lim → ep = t.net.epoch → exec (.ptpFollowUpRx dt a d q t1 c') s = .next (t.exchange n (t2 - t1 - c - c'))) ∧
        (lim < t.now ∨ ep ≠ t.net.epoch → exec (.ptpFollowUpRx dt a d q t1 c') s = .next (t.dropSync n)) ∧
        (∀ r, r ≠ q → exec (.ptpFollowUpRx dt a d r t1 c') s = .next t)) ∧
      (∀ m k tm udp li, (udp = true → s.vxc.netInForce.ipv4 ≠ 0) → x.master = none ∨ (∃ i r, x.master = some (i, r) ∧ (i = m ∨ k < r)) →
        exec (.ptpAnnounceRx dt a d m k tm udp li) s =
        .next (t.onSource n (fun y => { y with master := some (m, k), udp := udp, annAt := t.now, annInt := logCycles li, time := tm }))) ∧
      (∀ m k tm udp li i r, x.master = some (i, r) → i ≠ m → r ≤ k → exec (.ptpAnnounceRx dt a d m k tm udp li) s = .next t) ∧
      (∀ q t3 at_ ep v ev t4 c li, x.req = some (q, t3, at_, ep) → x.t2mt1 = some (v, ev) →
        let u := t.onSource n (fun y => { y with req := none, reqInt := logCycles li })
        (t.now ≤ at_ + secC → ep = t.net.epoch → ev = t.net.epoch → t.p2p n = false → exec (.ptpDelayRespRx dt a d q t4 c li) s =
          .next ((u.onSource n (fun y => { y with paths := (roundDiv (v + (t4 - t3 - c)) 2 :: y.paths).take 8, delays := y.delays + 1 })).qualify n)) ∧
        (at_ + secC < t.now ∨ ep ≠ t.net.epoch ∨ ev ≠ t.net.epoch ∨ t.p2p n = true → exec (.ptpDelayRespRx dt a d q t4 c li) s = .next u))) ∧
    (t0.portOk p = true →
      (∀ k, t0.p2p n = false →
        (x.master.isSome = true → x.due t0.now k = true → exec (.ptpDelayReqTx dt p d k e) s =
          .next ((t0.emit (t0.ptpOut p 4 x.reqSeq x.udp t2 none)).onSource n (fun y => { y with
            req := some (y.reqSeq, t2, t0.now, t0.net.epoch), reqAt := some t0.now, reqSeq := (y.reqSeq + 1) % 65536 }))) ∧
        (x.master = none ∨ x.due t0.now k = false → exec (.ptpDelayReqTx dt p d k e) s = .next t0)) ∧
      (∀ k, t0.p2p n = true → let l := tget {} s.net.peer p
        (l.due t0.now = true → exec (.ptpDelayReqTx dt p d k e) s = .next ((t0.emit (t0.ptpOut p 5 l.reqSeq false t2 none)).onNet (fun y => { y with
          peer := tset {} y.peer p { l with req := some (l.reqSeq, t2, t0.now, t0.net.epoch), reqAt := some t0.now, reqSeq := (l.reqSeq + 1) % 65536 } }))) ∧
        (l.due t0.now = false → exec (.ptpDelayReqTx dt p d k e) s = .next t0))) ∧
    (t0.accepts a true = true →
      (∀ q t3 at_ c, (tget {} t.net.peer p).req = some (q, t3, at_, t.net.epoch) → t.now ≤ at_ + secC → ∃ u : State,
        exec (.ptpPdelayRespRx dt a q e c) s = .next u ∧ (tget {} u.net.peer p).delay = some (roundDiv (t2 - t3 - c) 2) ∧ (tget {} u.net.peer p).req = none) ∧
      (∀ q c r, exec (.ptpPdelayReqRx dt a false q c r) s = .next (t.emit (t.ptpOut p 6 q false (c + r) (some 0))))) ∧
    (t0.accepts a false = true → s.vxc.netInForce.ipv4 ≠ 0 →
      ∀ q c r, exec (.ptpPdelayReqRx dt a true q c r) s = .next (t.emit (t.ptpOut p 6 q true (c + r) (some 0))))) ∧
  (∀ (s : State) (dt : Dt) (m : Master), s.runs .m = true →
    let t := s.tick dt
    (∀ a : Int, -(2 ^ 63) ≤ a → a < 2 ^ 63 → exec (.ptpAdjWrite dt m a) s = .next (t.ptpStep a)) ∧
    (∀ a : Int, (((t.ptpStep a).net.sec * 1000000000 + (t.ptpStep a).net.ns : Nat) : Int) % (2 ^ 48 * 1000000000) =
      ((t.net.sec * 1000000000 + t.net.ns : Nat) + a) % (2 ^ 48 * 1000000000) ∧ (t.ptpStep a).net.ns < 1000000000 ∧ (t.ptpStep a).tb.ptpStep = true ∧
      (t.ptpStep a).net.steps = up32 t.net.steps) ∧
    (∀ v, v < 2 ^ 40 → exec (.ptpIncrWrite dt m v) s = .next (t.setIncr v) ∧ incrLo ≤ (t.setIncr v).net.incr ∧ (t.setIncr v).net.incr ≤ incrHi ∧
      (incrLo ≤ v → v ≤ incrHi → (t.setIncr v).net.incr = v)) ∧
    exec (.ptpTimeNsRead dt m) s = .next (State.emit { t with net := { t.net with latch := (t.net.sec, t.net.frac) } } (.readData 0x40340000 t.net.ns)) ∧
    (t.netRuns = true → ∀ n, n < 4 → t.sourceSilent n = true →
      let u := (t.onSource n (fun _ => {})).raiseGen .m 0x02 0 []
      (t.net.src = some n → exec (.ptpSourceLost dt n) s = .next u.reselect) ∧ (t.net.src ≠ some n → exec (.ptpSourceLost dt n) s = .next u)) ∧
    (∀ n, t.sourceSilent n = false → exec (.ptpSourceLost dt n) s = .next t) ∧
    (t.netRuns = true → ∀ n, t.mayReturn n = true →
      exec (.ptpSourceReturn dt n) s = .next (t.takeFirst (n :: t.sourceOrder.filter (fun j => j != n && t.mayReturn j))).1) ∧
    (∀ n, t.mayReturn n = false → exec (.ptpSourceReturn dt n) s = .next t) ∧
    (∀ n dst at_, t.netRuns = true → t.net.src = some n → (t.ptpSource n).time.ptpScale = true → (t.ptpSource n).time.utcValid = true → t.net.slewing = false →
      s.rtc.isolated = false → t.bk.valid = false → t.net.ns < 1000000 → t.civilFromPtp (t.ptpSource n).time.utcOffset t.net.sec = some (dst, at_) →
      s.rtc.lockout = false → t.bk.crossing = none → ∃ u : State, exec (.rtcHourlyCheck dt) s = .next u ∧ u.bk.crossing = some at_ ∧ u.nv.dstActive = dst) ∧
    (t.net.src = none → exec (.rtcHourlyCheck dt) s = .next t))
end

