-- ==== Sys2Proof/Laws/Copies.lean ====
section
/-!
SUPPORT. What is kept in two alternating copies: what was written last is what is read, and the copy written before it stays.
-/
namespace Sys2Proof.Machine

/-- What is written is read (05 R191, 06 R198, 07 R234, 08 R266, 09 R311). -/
@[simp] theorem Copies.newest_put {α : Type} (c : Copies α) (x : α) : (c.put x).newest = some x := by
  obtain ⟨a, b⟩ := c
  cases a with
  | none => cases b <;> simp [Copies.put, Copies.newest, Copies.top]
  | some p =>
    cases b with
    | none => simp [Copies.put, Copies.newest, Copies.top]
    | some q =>
      simp only [Copies.put]
      split <;> simp only [Copies.newest, Copies.top]
      · rw [if_neg (by omega)]; rfl
      · rw [if_pos (by omega)]; rfl

/-- A write leaves the newer copy in place as the older one: a write that power interrupts loses nothing. -/
theorem Copies.put_keeps {α : Type} (c : Copies α) (x : α) : c.top = none ∨ (c.put x).first = c.top ∨ (c.put x).second = c.top := by
  obtain ⟨a, b⟩ := c
  cases a with
  | none => cases b <;> simp [Copies.put, Copies.top]
  | some p =>
    cases b with
    | none => simp [Copies.put, Copies.top]
    | some q => simp only [Copies.put, Copies.top]; split <;> simp

@[simp] theorem Copies.newest_only {α : Type} (c : Copies α) (x : α) : (c.only x).newest = some x := by
  unfold Copies.only; simp only; split <;> rfl
@[simp] theorem Copies.newest_empty {α : Type} : ({} : Copies α).newest = none := rfl

@[simp] theorem Nv.setGraph_graph (v : Nv) (g : GraphCopy) : (v.setGraph g).graph = some g := Copies.newest_put ..
@[simp] theorem Nv.setScheds_scheds (v : Nv) (x : Tbl SchedRec) : (v.setScheds x).scheds = x := by simp [Nv.setScheds, Nv.scheds, Nv.schedSet]
@[simp] theorem Nv.setScheds_hols (v : Nv) (x : Tbl SchedRec) : (v.setScheds x).hols = v.hols := by simp [Nv.setScheds, Nv.hols, Nv.schedSet]
@[simp] theorem Nv.setScheds_site (v : Nv) (x : Tbl SchedRec) : (v.setScheds x).site = v.site := by simp [Nv.setScheds, Nv.site, Nv.schedSet]
@[simp] theorem Nv.setHols_scheds (v : Nv) (x : Tbl (List (BitVec 32))) : (v.setHols x).scheds = v.scheds := by simp [Nv.setHols, Nv.scheds, Nv.schedSet]
@[simp] theorem Nv.setHols_hols (v : Nv) (x : Tbl (List (BitVec 32))) : (v.setHols x).hols = x := by simp [Nv.setHols, Nv.hols, Nv.schedSet]
@[simp] theorem Nv.setHols_site (v : Nv) (x : Tbl (List (BitVec 32))) : (v.setHols x).site = v.site := by simp [Nv.setHols, Nv.site, Nv.schedSet]
@[simp] theorem Nv.setSite_scheds (v : Nv) (x : Site) : (v.setSite x).scheds = v.scheds := by simp [Nv.setSite, Nv.scheds, Nv.schedSet]
@[simp] theorem Nv.setSite_hols (v : Nv) (x : Site) : (v.setSite x).hols = v.hols := by simp [Nv.setSite, Nv.hols, Nv.schedSet]
@[simp] theorem Nv.setSite_site (v : Nv) (x : Site) : (v.setSite x).site = x := by simp [Nv.setSite, Nv.site, Nv.schedSet]
@[simp] theorem Nv.setMeterCfg_meterCfg (v : Nv) (c : MeterCfg) : (v.setMeterCfg c).meterCfg = c := by simp [Nv.setMeterCfg, Nv.meterCfg]
@[simp] theorem Nv.setModelSet_modelSet (v : Nv) (x : ModelSet) : (v.setModelSet x).modelSet = x := by simp [Nv.setModelSet, Nv.modelSet]
@[simp] theorem Nv.setDefaultFrame_defaultFrame (v : Nv) (x : Tbl Nat) : (v.setDefaultFrame x).defaultFrame = some x := Copies.newest_put ..
@[simp] theorem Nv.setSlots_slots (v : Nv) (x : Tbl KeyCell) : (v.setSlots x).slots = x := by simp [Nv.setSlots, Nv.slots]
@[simp] theorem Nv.setRolls_rolls (v : Nv) (x : Tbl (Option Roll)) : (v.setRolls x).rolls = x := by simp [Nv.setRolls, Nv.rolls]

end Sys2Proof.Machine
end

