-- ==== Sys2Proof/Laws/Mem.lean ====
section
/-!
SUPPORT. Memory: every operation keeps the canonical form (log entry 50), a byte reads as the byte last written, and a write leaves every other
byte alone.
-/
namespace Sys2Proof.Machine

theorem Mem.set_wf {m : Mem} (a : Nat) (v : BitVec 8) (h : m.wf = true) : (m.set a v).wf = true := by
  simp only [Mem.wf, Bool.and_eq_true, List.all_eq_true, decide_eq_true_eq] at h ⊢
  unfold Mem.set
  by_cases hd : memDefault a = some v
  · simp only [if_pos hd]
    exact ⟨tsorted_tdel h.1, fun e he => h.2 e (mem_tdel he)⟩
  · simp only [if_neg hd]
    refine ⟨tsorted_tput h.1 (by omega), fun e he => ?_⟩
    rcases mem_tput he with rfl | he
    · exact hd
    · exact h.2 e he

theorem Mem.put_wf {m : Mem} (a : Nat) (l : List Nat) (h : m.wf = true) : (m.put a l).wf = true := by
  induction l generalizing m a with
  | nil => exact h
  | cons b r ih => exact ih (a + 1) (Mem.set_wf a _ h)

theorem Mem.wipe_wf {m : Mem} (lo hi : Nat) (h : m.wf = true) : (m.wipe lo hi).wf = true := by
  simp only [Mem.wf, Mem.wipe, Bool.and_eq_true, List.all_eq_true, decide_eq_true_eq] at h ⊢
  exact ⟨tsorted_filter _ h.1, fun e he => h.2 e (List.mem_of_mem_filter he)⟩

theorem reset_mem_wf : State.reset.mem.wf = true := by decide

/-- The find of a sorted list is the table's read. -/
theorem find_sorted {α : Type} {t : Tbl α} {lo i : Nat} (h : tsorted lo t = true) :
    (t.find? (fun c => c.1 == i)).map Prod.snd = tget none (t.map (fun c => (c.1, some c.2))) i := by
  induction t generalizing lo with
  | nil => rfl
  | cons e r ih =>
    obtain ⟨k, v⟩ := e
    simp only [tsorted, Bool.and_eq_true, decide_eq_true_eq] at h
    simp only [List.find?_cons, List.map_cons, tget]
    by_cases hk : i = k
    · simp [hk]
    · have hb : (k == i) = false := by simp; omega
      simp only [hb, if_neg hk]
      split
      · rename_i hlt
        have : r.find? (fun c => c.1 == i) = none := by
          have g := ih h.2
          have hs : tsorted (k + 1) (r.map (fun c => (c.1, some c.2))) = true := by
            have := h.2
            clear ih h g
            revert this
            generalize k + 1 = n
            induction r generalizing n with
            | nil => simp [tsorted]
            | cons x q ihq =>
              simp only [List.map_cons, tsorted, Bool.and_eq_true, decide_eq_true_eq]
              exact fun hx => ⟨hx.1, ihq _ hx.2⟩
          rw [tget_below hs (by omega)] at g
          simpa using g
        simp [this]
      · exact ih h.2

theorem map_tput {α : Type} (t : Tbl α) (i : Nat) (x : α) :
    (tput t i x).map (fun c => (c.1, some c.2)) = tput (t.map (fun c => (c.1, some c.2))) i (some x) := by
  induction t with
  | nil => rfl
  | cons e r ih =>
    obtain ⟨k, v⟩ := e
    simp only [tput, List.map_cons]
    split
    · rfl
    · split
      · rfl
      · simp [ih]

theorem map_tdel {α : Type} (t : Tbl α) (i : Nat) :
    (tdel t i).map (fun c => (c.1, some c.2)) = tdel (t.map (fun c => (c.1, some c.2))) i := by
  induction t with
  | nil => rfl
  | cons e r ih =>
    obtain ⟨k, v⟩ := e
    simp only [tdel, List.map_cons]
    split
    · rfl
    · split
      · rfl
      · simp [ih]

theorem tsorted_map {α β : Type} {t : Tbl α} {lo : Nat} (f : α → β) (h : tsorted lo t = true) :
    tsorted lo (t.map (fun c => (c.1, f c.2))) = true := by
  induction t generalizing lo with
  | nil => rfl
  | cons e r ih =>
    simp only [List.map_cons, tsorted, Bool.and_eq_true, decide_eq_true_eq] at h ⊢
    exact ⟨h.1, ih h.2⟩

/-- A byte's value by its optional entry. -/
theorem Mem.get_eq {m : Mem} (a : Nat) (h : tsorted 0 m.bytes = true) :
    m.get a = match tget none (m.bytes.map (fun c => (c.1, some c.2))) a with
      | some v => v.toNat
      | none => (memDefault a).elim (Config.undescribed a % 256) BitVec.toNat := by
  rw [← find_sorted h]
  unfold Mem.get
  cases m.bytes.find? (fun c => c.1 == a) <;> rfl

/-- A read after a write of the same address gives the byte written. -/
theorem Mem.get_set_same {m : Mem} (a : Nat) (v : BitVec 8) (h : m.wf = true) : (m.set a v).get a = v.toNat := by
  have hw := Mem.set_wf a v h
  simp only [Mem.wf, Bool.and_eq_true] at h hw
  rw [Mem.get_eq a hw.1]
  unfold Mem.set
  by_cases hd : memDefault a = some v
  · simp only [if_pos hd, map_tdel]
    rw [tget_tdel_same a (tsorted_map some h.1)]
    simp [hd]
  · simp only [if_neg hd, map_tput, tget_tput_same]

/-- A write leaves every other byte alone. -/
theorem Mem.get_set_ne {m : Mem} {a b : Nat} (v : BitVec 8) (h : m.wf = true) (hb : b ≠ a) : (m.set a v).get b = m.get b := by
  have hw := Mem.set_wf a v h
  simp only [Mem.wf, Bool.and_eq_true] at h hw
  rw [Mem.get_eq b hw.1, Mem.get_eq b h.1]
  unfold Mem.set
  by_cases hd : memDefault a = some v
  · simp only [if_pos hd, map_tdel]
    rw [tget_tdel_ne (tsorted_map some h.1) hb]
  · simp only [if_neg hd, map_tput]
    rw [tget_tput_ne _ _ _ hb]

/-! ## The state's memory -/

theorem Said.mem_wf {s u : State} (h : Said s u) (hw : s.mem.wf = true) : u.mem.wf = true := h.mem ▸ hw

/-- Plain memory written at a table's empty position keeps the canonical form. -/
theorem setRaw_wf {s : State} (a n v : Nat) (h : s.mem.wf = true) : (s.setRaw a n v).mem.wf = true := Mem.put_wf _ _ h

/-- A table entry written at an address keeps memory's canonical form; positions that no record fills are plain memory. -/
theorem viewSet_wf {v : TabView} (h : v ∈ tabViews) {s : State} (i n : Nat) (hw : s.mem.wf = true) : (v.set s i n).mem.wf = true := by
  simp only [tabViews, List.mem_cons, List.not_mem_nil, or_false] at h
  rcases h with e | e | e | e | e | e | e | e | e | e | e | e | e | e | e | e | e | e | e | e <;> rw [e] <;>
    simp only [State.onTab_mem, State.onNv_mem, State.onBlot_mem] <;>
    first
    | exact hw
    | (split <;> first | exact setRaw_wf _ _ _ hw | (simp only [State.onBlot_mem, State.onEv_mem]; exact hw))

theorem setByte_wf {s : State} (a b : Nat) (h : s.mem.wf = true) : (s.setByte a b).mem.wf = true := by
  unfold State.setByte
  cases hv : viewAt a with
  | none => exact Mem.set_wf a _ h
  | some v => exact viewSet_wf (List.mem_of_find?_eq_some hv) _ _ h

theorem setBytes_wf {s : State} (a : Nat) (l : List Nat) (h : s.mem.wf = true) : (s.setBytes a l).mem.wf = true := by
  induction l generalizing s a with
  | nil => exact h
  | cons b r ih => exact ih (a + 1) (setByte_wf a b h)

end Sys2Proof.Machine
end

