-- ==== Sys2Proof/Laws/PerInstr.lean ====
section
/-!
SUPPORT. Facts about every command as syntax, one lemma per constructor. Family HostRows: a well-formed host row carries a request whose
header fields fit (10, table "VXC request header"), and its CMD stands in one of the fifteen groups of 11, each with its table.
-/
namespace Sys2Proof.Laws.HostRows
open Sys2Proof Sys2Proof.Machine

/-- A well-formed command that is a host row has a well-formed request and a CMD of the groups 01h to 0Fh. -/
def Statement (c : Instr) : Prop :=
  ∀ r k, hostRow c = some (r, k) → c.wf = true → r.wf = true ∧ 0x0100 ≤ k.cmd ∧ k.cmd < 0x1000

theorem left {a b : Bool} (h : (a && b) = true) : a = true := ((Bool.and_eq_true a b).mp h).1

theorem sysIdentify (r : Req) : Statement (.sysIdentify r) := by
  intro q k h hw; cases h; exact ⟨hw, by decide, by decide⟩
theorem sysStatus (r : Req) : Statement (.sysStatus r) := by
  intro q k h hw; cases h; exact ⟨hw, by decide, by decide⟩
theorem sysSessionOpen (r : Req) (priv certPriv : BitVec 16) (nh epk serial : Nat) (cert : HostCert) (certSig : Nat) (notBefore notAfter : Nat) : Statement (.sysSessionOpen r priv certPriv nh epk serial cert certSig notBefore notAfter) := by
  intro q k h hw; cases h
theorem sysSessionConfirm (r : Req) (sig : Nat) : Statement (.sysSessionConfirm r sig) := by
  intro q k h hw; cases h
theorem sysSessionClose (r : Req) : Statement (.sysSessionClose r) := by
  intro q k h hw; cases h; exact ⟨hw, by decide, by decide⟩
theorem sysSubscribe (r : Req) (classes : BitVec 16) (sevMin : Nat) : Statement (.sysSubscribe r classes sevMin) := by
  intro q k h hw; cases h; exact ⟨left hw, by decide, by decide⟩
theorem sysNotifyRead (r : Req) (first count : Nat) : Statement (.sysNotifyRead r first count) := by
  intro q k h hw; cases h; exact ⟨left hw, by decide, by decide⟩
theorem sysSessions (r : Req) : Statement (.sysSessions r) := by
  intro q k h hw; cases h; exact ⟨hw, by decide, by decide⟩
theorem sysNetSet (r : Req) (ipv4 mask gw vlan : Nat) : Statement (.sysNetSet r ipv4 mask gw vlan) := by
  intro q k h hw; cases h; exact ⟨left hw, by decide, by decide⟩
theorem sysNetRead (r : Req) : Statement (.sysNetRead r) := by
  intro q k h hw; cases h; exact ⟨hw, by decide, by decide⟩
theorem sysLifecycle (r : Req) (new serialChk : Nat) : Statement (.sysLifecycle r new serialChk) := by
  intro q k h hw; cases h; exact ⟨left hw, by decide, by decide⟩
theorem timeTbStatus (r : Req) : Statement (.timeTbStatus r) := by
  intro q k h hw; cases h; exact ⟨hw, by decide, by decide⟩
theorem timeStampRead (r : Req) (hcn count : Nat) : Statement (.timeStampRead r hcn count) := by
  intro q k h hw; cases h; exact ⟨left hw, by decide, by decide⟩
theorem timeTbSet (r : Req) (profileSel : Nat) (fdrVset : BitVec 8) : Statement (.timeTbSet r profileSel fdrVset) := by
  intro q k h hw; cases h; exact ⟨left hw, by decide, by decide⟩
theorem timeRtcRead (r : Req) : Statement (.timeRtcRead r) := by
  intro q k h hw; cases h; exact ⟨hw, by decide, by decide⟩
theorem timeRtcSet (r : Req) (year month day hour min sec dst : Nat) : Statement (.timeRtcSet r year month day hour min sec dst) := by
  intro q k h hw; cases h; exact ⟨left hw, by decide, by decide⟩
theorem timeRtcStep (r : Req) (dir : Nat) : Statement (.timeRtcStep r dir) := by
  intro q k h hw; cases h; exact ⟨left hw, by decide, by decide⟩
theorem timePtpSet (r : Req) (domP domS delayP delayS fallback : Nat) : Statement (.timePtpSet r domP domS delayP delayS fallback) := by
  intro q k h hw; cases h; exact ⟨left hw, by decide, by decide⟩
theorem timePtpRead (r : Req) : Statement (.timePtpRead r) := by
  intro q k h hw; cases h; exact ⟨hw, by decide, by decide⟩
theorem linkStatus (r : Req) : Statement (.linkStatus r) := by
  intro q k h hw; cases h; exact ⟨hw, by decide, by decide⟩
theorem linkAttenSet (r : Req) (feeder atten : Nat) : Statement (.linkAttenSet r feeder atten) := by
  intro q k h hw; cases h; exact ⟨left hw, by decide, by decide⟩
theorem linkStageSet (r : Req) (feeder stage : Nat) : Statement (.linkStageSet r feeder stage) := by
  intro q k h hw; cases h; exact ⟨left hw, by decide, by decide⟩
theorem nodeRegister (r : Req) (eui wik wikA addr : Nat) : Statement (.nodeRegister r eui wik wikA addr) := by
  intro q k h hw; cases h; exact ⟨left hw, by decide, by decide⟩
theorem nodeDeregister (r : Req) (eui : Nat) : Statement (.nodeDeregister r eui) := by
  intro q k h hw; cases h; exact ⟨left hw, by decide, by decide⟩
theorem nodeRead (r : Req) (first count : Nat) : Statement (.nodeRead r first count) := by
  intro q k h hw; cases h; exact ⟨left hw, by decide, by decide⟩
theorem nodeGroupsRead (r : Req) (addr : Nat) : Statement (.nodeGroupsRead r addr) := by
  intro q k h hw; cases h; exact ⟨left hw, by decide, by decide⟩
theorem nodeGroupSet (r : Req) (addr gslot group valid : Nat) : Statement (.nodeGroupSet r addr gslot group valid) := by
  intro q k h hw; cases h; exact ⟨left hw, by decide, by decide⟩
theorem nodeSceneSet (r : Req) (addr scene level : Nat) : Statement (.nodeSceneSet r addr scene level) := by
  intro q k h hw; cases h; exact ⟨left hw, by decide, by decide⟩
theorem nodeParamSet (r : Req) (addr param value : Nat) : Statement (.nodeParamSet r addr param value) := by
  intro q k h hw; cases h; exact ⟨left hw, by decide, by decide⟩
theorem nodeLevel (r : Req) (group level tgt : Nat) : Statement (.nodeLevel r group level tgt) := by
  intro q k h hw; cases h; exact ⟨left hw, by decide, by decide⟩
theorem nodeScene (r : Req) (scope group scene tgt : Nat) : Statement (.nodeScene r scope group scene tgt) := by
  intro q k h hw; cases h; exact ⟨left hw, by decide, by decide⟩
theorem nodeOverride (r : Req) (scope id level tgt endHcn : Nat) : Statement (.nodeOverride r scope id level tgt endHcn) := by
  intro q k h hw; cases h; exact ⟨left hw, by decide, by decide⟩
theorem graphStop (r : Req) : Statement (.graphStop r) := by
  intro q k h hw; cases h; exact ⟨hw, by decide, by decide⟩
theorem graphEdgeWrite (r : Req) (first : Nat) (entries : List (BitVec 32)) : Statement (.graphEdgeWrite r first entries) := by
  intro q k h hw; cases h; exact ⟨left (left hw), by decide, by decide⟩
theorem graphNodeWrite (r : Req) (first : Nat) (entries : List (BitVec 128)) : Statement (.graphNodeWrite r first entries) := by
  intro q k h hw; cases h; exact ⟨left (left hw), by decide, by decide⟩
theorem graphCurveWrite (r : Req) (curve : Nat) (points : List (BitVec 32)) : Statement (.graphCurveWrite r curve points) := by
  intro q k h hw; cases h; exact ⟨left (left hw), by decide, by decide⟩
theorem graphSlewWrite (r : Req) (slew : Nat) (profile : BitVec 64) : Statement (.graphSlewWrite r slew profile) := by
  intro q k h hw; cases h; exact ⟨left hw, by decide, by decide⟩
theorem graphCfgWrite (r : Req) (substeps ageLimit : Nat) : Statement (.graphCfgWrite r substeps ageLimit) := by
  intro q k h hw; cases h; exact ⟨left hw, by decide, by decide⟩
theorem graphRestart (r : Req) (tgt : Nat) : Statement (.graphRestart r tgt) := by
  intro q k h hw; cases h; exact ⟨left hw, by decide, by decide⟩
theorem graphRead (r : Req) (first count table : Nat) : Statement (.graphRead r first count table) := by
  intro q k h hw; cases h; exact ⟨left hw, by decide, by decide⟩
theorem graphStatus (r : Req) : Statement (.graphStatus r) := by
  intro q k h hw; cases h; exact ⟨hw, by decide, by decide⟩
theorem schedWrite (r : Req) (group : Nat) (header : BitVec 32) (entries : List (BitVec 64)) : Statement (.schedWrite r group header entries) := by
  intro q k h hw; cases h; exact ⟨left (left hw), by decide, by decide⟩
theorem schedRead (r : Req) (group : Nat) : Statement (.schedRead r group) := by
  intro q k h hw; cases h; exact ⟨left hw, by decide, by decide⟩
theorem schedHolWrite (r : Req) (cal : Nat) (dates : List (BitVec 32)) : Statement (.schedHolWrite r cal dates) := by
  intro q k h hw; cases h; exact ⟨left (left hw), by decide, by decide⟩
theorem schedHolRead (r : Req) (cal : Nat) : Statement (.schedHolRead r cal) := by
  intro q k h hw; cases h; exact ⟨left hw, by decide, by decide⟩
theorem schedSiteWrite (r : Req) (site : Site) : Statement (.schedSiteWrite r site) := by
  intro q k h hw; cases h; exact ⟨left hw, by decide, by decide⟩
theorem schedSiteRead (r : Req) : Statement (.schedSiteRead r) := by
  intro q k h hw; cases h; exact ⟨hw, by decide, by decide⟩
theorem schedSunRead (r : Req) (date : BitVec 32) : Statement (.schedSunRead r date) := by
  intro q k h hw; cases h; exact ⟨hw, by decide, by decide⟩
theorem schedLimitsRead (r : Req) (addr : Nat) : Statement (.schedLimitsRead r addr) := by
  intro q k h hw; cases h; exact ⟨left hw, by decide, by decide⟩
theorem meterInputSet (r : Req) (tgt input : Nat) (header : BitVec 64) (points : List (BitVec 64)) : Statement (.meterInputSet r tgt input header points) := by
  intro q k h hw; cases h; exact ⟨left (left hw), by decide, by decide⟩
theorem meterGlobalSet (r : Req) (tgt vnomA vnomB saveInt calInt : Nat) : Statement (.meterGlobalSet r tgt vnomA vnomB saveInt calInt) := by
  intro q k h hw; cases h; exact ⟨left hw, by decide, by decide⟩
theorem meterPulseSet (r : Req) (tgt out qty : Nat) (fdrMask : BitVec 8) (const : Nat) : Statement (.meterPulseSet r tgt out qty fdrMask const) := by
  intro q k h hw; cases h; exact ⟨left hw, by decide, by decide⟩
theorem meterCfgRead (r : Req) (sect : Nat) : Statement (.meterCfgRead r sect) := by
  intro q k h hw; cases h; exact ⟨left hw, by decide, by decide⟩
theorem meterRecordRead (r : Req) (feeder hcn count : Nat) : Statement (.meterRecordRead r feeder hcn count) := by
  intro q k h hw; cases h; exact ⟨left hw, by decide, by decide⟩
theorem meterSubscribe (r : Req) (fdrMask : BitVec 8) (n : Nat) : Statement (.meterSubscribe r fdrMask n) := by
  intro q k h hw; cases h; exact ⟨left hw, by decide, by decide⟩
theorem meterSnapshot (r : Req) (tgt : Nat) : Statement (.meterSnapshot r tgt) := by
  intro q k h hw; cases h; exact ⟨left hw, by decide, by decide⟩
theorem meterSnapRead (r : Req) (first count : Nat) : Statement (.meterSnapRead r first count) := by
  intro q k h hw; cases h; exact ⟨left hw, by decide, by decide⟩
theorem meterAccRead (r : Req) (first count : Nat) : Statement (.meterAccRead r first count) := by
  intro q k h hw; cases h; exact ⟨left hw, by decide, by decide⟩
theorem meterGapRead (r : Req) : Statement (.meterGapRead r) := by
  intro q k h hw; cases h; exact ⟨hw, by decide, by decide⟩
theorem meterCalibrate (r : Req) (input : Nat) : Statement (.meterCalibrate r input) := by
  intro q k h hw; cases h; exact ⟨left hw, by decide, by decide⟩
theorem meterSatClear (r : Req) (mask : BitVec 8) : Statement (.meterSatClear r mask) := by
  intro q k h hw; cases h; exact ⟨hw, by decide, by decide⟩
theorem meterStatus (r : Req) : Statement (.meterStatus r) := by
  intro q k h hw; cases h; exact ⟨hw, by decide, by decide⟩
theorem accordModelSet (r : Req) (tgt first : Nat) (entries : List (BitVec 64)) : Statement (.accordModelSet r tgt first entries) := by
  intro q k h hw; cases h; exact ⟨left (left hw), by decide, by decide⟩
theorem accordDefaultSet (r : Req) (entry : BitVec 64) : Statement (.accordDefaultSet r entry) := by
  intro q k h hw; cases h; exact ⟨hw, by decide, by decide⟩
theorem accordModelRead (r : Req) (first count : Nat) : Statement (.accordModelRead r first count) := by
  intro q k h hw; cases h; exact ⟨left hw, by decide, by decide⟩
theorem accordAccountRead (r : Req) (first count : Nat) : Statement (.accordAccountRead r first count) := by
  intro q k h hw; cases h; exact ⟨left hw, by decide, by decide⟩
theorem accordPhaseRead (r : Req) (first count : Nat) : Statement (.accordPhaseRead r first count) := by
  intro q k h hw; cases h; exact ⟨left hw, by decide, by decide⟩
theorem accordSnapshot (r : Req) (tgt : Nat) : Statement (.accordSnapshot r tgt) := by
  intro q k h hw; cases h; exact ⟨left hw, by decide, by decide⟩
theorem accordSnapRead (r : Req) (first count sect : Nat) : Statement (.accordSnapRead r first count sect) := by
  intro q k h hw; cases h; exact ⟨left hw, by decide, by decide⟩
theorem accordCfgSet (r : Req) (resThr attTol : Nat) : Statement (.accordCfgSet r resThr attTol) := by
  intro q k h hw; cases h; exact ⟨left hw, by decide, by decide⟩
theorem accordStatus (r : Req) : Statement (.accordStatus r) := by
  intro q k h hw; cases h; exact ⟨hw, by decide, by decide⟩
theorem blotterRequest (r : Req) (addr delta deadline : Nat) : Statement (.blotterRequest r addr delta deadline) := by
  intro q k h hw; cases h; exact ⟨left hw, by decide, by decide⟩
theorem blotterCancel (r : Req) (req : Nat) : Statement (.blotterCancel r req) := by
  intro q k h hw; cases h; exact ⟨left hw, by decide, by decide⟩
theorem blotterResultRead (r : Req) (mode key count : Nat) : Statement (.blotterResultRead r mode key count) := by
  intro q k h hw; cases h; exact ⟨left hw, by decide, by decide⟩
theorem blotterNodeRead (r : Req) (first count : Nat) : Statement (.blotterNodeRead r first count) := by
  intro q k h hw; cases h; exact ⟨left hw, by decide, by decide⟩
theorem blotterClear (r : Req) (addr : Nat) : Statement (.blotterClear r addr) := by
  intro q k h hw; cases h; exact ⟨left hw, by decide, by decide⟩
theorem blotterCfgSet (r : Req) (bc br : BitVec 32) : Statement (.blotterCfgSet r bc br) := by
  intro q k h hw; cases h; exact ⟨hw, by decide, by decide⟩
theorem blotterStatus (r : Req) : Statement (.blotterStatus r) := by
  intro q k h hw; cases h; exact ⟨hw, by decide, by decide⟩
theorem signWrite (r : Req) (dest daddr offset : Nat) (data : List Nat) : Statement (.signWrite r dest daddr offset data) := by
  intro q k h hw; cases h; exact ⟨left (left hw), by decide, by decide⟩
theorem signSwap (r : Req) (mode tgt : Nat) (loc : Bool) (rem : List (Nat × Nat)) : Statement (.signSwap r mode tgt loc rem) := by
  intro q k h hw; cases h; exact ⟨left (left (left hw)), by decide, by decide⟩
theorem signCfgSet (r : Req) (cfg : BitVec 32) (gcur : Nat) : Statement (.signCfgSet r cfg gcur) := by
  intro q k h hw; cases h; exact ⟨left hw, by decide, by decide⟩
theorem signTrimSet (r : Req) (first : Nat) (trims : List Nat) : Statement (.signTrimSet r first trims) := by
  intro q k h hw; cases h; exact ⟨left (left hw), by decide, by decide⟩
theorem signPopSet (r : Req) (row : Nat) (pop : BitVec 64) : Statement (.signPopSet r row pop) := by
  intro q k h hw; cases h; exact ⟨left hw, by decide, by decide⟩
theorem signDefaultSet (r : Req) (offset : Nat) (commit : Bool) (data : List Nat) : Statement (.signDefaultSet r offset commit data) := by
  intro q k h hw; cases h; exact ⟨left (left hw), by decide, by decide⟩
theorem signStatus (r : Req) : Statement (.signStatus r) := by
  intro q k h hw; cases h; exact ⟨hw, by decide, by decide⟩
theorem signFaultRead (r : Req) (row : Nat) : Statement (.signFaultRead r row) := by
  intro q k h hw; cases h; exact ⟨left hw, by decide, by decide⟩
theorem signBus (r : Req) (port daddr scmd : Nat) (pay : List Nat) : Statement (.signBus r port daddr scmd pay) := by
  intro q k h hw; cases h; exact ⟨left (left hw), by decide, by decide⟩
theorem signCellSet (r : Req) (col cell : Nat) : Statement (.signCellSet r col cell) := by
  intro q k h hw; cases h; exact ⟨left hw, by decide, by decide⟩
theorem signColsRead (r : Req) : Statement (.signColsRead r) := by
  intro q k h hw; cases h; exact ⟨hw, by decide, by decide⟩
theorem keySlotRead (r : Req) : Statement (.keySlotRead r) := by
  intro q k h hw; cases h; exact ⟨hw, by decide, by decide⟩
theorem keyLoad (r : Req) (slot : Nat) (attr : BitVec 64) (wkey wkeyA : Nat) : Statement (.keyLoad r slot attr wkey wkeyA) := by
  intro q k h hw; cases h; exact ⟨left hw, by decide, by decide⟩
theorem keyGenerate (r : Req) (slot : Nat) (attr : BitVec 64) : Statement (.keyGenerate r slot attr) := by
  intro q k h hw; cases h; exact ⟨left hw, by decide, by decide⟩
theorem keyCommit (r : Req) (slot kcv : Nat) : Statement (.keyCommit r slot kcv) := by
  intro q k h hw; cases h; exact ⟨left hw, by decide, by decide⟩
theorem keyInvalidate (r : Req) (slot : Nat) : Statement (.keyInvalidate r slot) := by
  intro q k h hw; cases h; exact ⟨left hw, by decide, by decide⟩
theorem keyRollover (r : Req) (feeder tgt : Nat) : Statement (.keyRollover r feeder tgt) := by
  intro q k h hw; cases h; exact ⟨left hw, by decide, by decide⟩
theorem keyRollRead (r : Req) (feeder : Nat) : Statement (.keyRollRead r feeder) := by
  intro q k h hw; cases h; exact ⟨left hw, by decide, by decide⟩
theorem keyOperatorSet (r : Req) (pub sigFst sigSnd : Nat) : Statement (.keyOperatorSet r pub sigFst sigSnd) := by
  intro q k h hw; cases h; exact ⟨left hw, by decide, by decide⟩
theorem keyDenySet (r : Req) (serials : List Nat) : Statement (.keyDenySet r serials) := by
  intro q k h hw; cases h; exact ⟨left (left hw), by decide, by decide⟩
theorem keyDenyRead (r : Req) : Statement (.keyDenyRead r) := by
  intro q k h hw; cases h; exact ⟨hw, by decide, by decide⟩
theorem keyTamperSet (r : Req) (respA respB : Nat) : Statement (.keyTamperSet r respA respB) := by
  intro q k h hw; cases h; exact ⟨left hw, by decide, by decide⟩
theorem keyTamperRead (r : Req) : Statement (.keyTamperRead r) := by
  intro q k h hw; cases h; exact ⟨hw, by decide, by decide⟩
theorem keyTamperAck (r : Req) (input : Nat) : Statement (.keyTamperAck r input) := by
  intro q k h hw; cases h; exact ⟨left hw, by decide, by decide⟩
theorem updHeader (r : Req) (hdr : PkgHeader) (sig : Nat) : Statement (.updHeader r hdr sig) := by
  intro q k h hw; cases h; exact ⟨left (left hw), by decide, by decide⟩
theorem updBlock (r : Req) (offset : Nat) (data : List Nat) : Statement (.updBlock r offset data) := by
  intro q k h hw; cases h; exact ⟨left (left hw), by decide, by decide⟩
theorem updBitmap (r : Req) (first count : Nat) : Statement (.updBitmap r first count) := by
  intro q k h hw; cases h; exact ⟨left hw, by decide, by decide⟩
theorem updActivate (r : Req) (tgt : Nat) (hashOk : Bool) : Statement (.updActivate r tgt hashOk) := by
  intro q k h hw; cases h; exact ⟨left hw, by decide, by decide⟩
theorem updConfirm (r : Req) : Statement (.updConfirm r) := by
  intro q k h hw; cases h; exact ⟨hw, by decide, by decide⟩
theorem updAbort (r : Req) : Statement (.updAbort r) := by
  intro q k h hw; cases h; exact ⟨hw, by decide, by decide⟩
theorem updStatus (r : Req) : Statement (.updStatus r) := by
  intro q k h hw; cases h; exact ⟨hw, by decide, by decide⟩
theorem updNodeActivate (r : Req) (img group tgt : Nat) : Statement (.updNodeActivate r img group tgt) := by
  intro q k h hw; cases h; exact ⟨left hw, by decide, by decide⟩
theorem updNodeStatus (r : Req) (first count img : Nat) : Statement (.updNodeStatus r first count img) := by
  intro q k h hw; cases h; exact ⟨left hw, by decide, by decide⟩
theorem logRead (r : Req) (area start count sevMin code : Nat) : Statement (.logRead r area start count sevMin code) := by
  intro q k h hw; cases h; exact ⟨left hw, by decide, by decide⟩
theorem logClear (r : Req) : Statement (.logClear r) := by
  intro q k h hw; cases h; exact ⟨hw, by decide, by decide⟩
theorem logStatus (r : Req) : Statement (.logStatus r) := by
  intro q k h hw; cases h; exact ⟨hw, by decide, by decide⟩
theorem logRateSet (r : Req) (code refill : Nat) : Statement (.logRateSet r code refill) := by
  intro q k h hw; cases h; exact ⟨left hw, by decide, by decide⟩
theorem memRead (r : Req) (addr width len : Nat) (found : List (Nat × Damage)) (lostAt : Option Nat) : Statement (.memRead r addr width len found lostAt) := by
  intro q k h hw; cases h; exact ⟨left (left hw), by decide, by decide⟩
theorem memWrite (r : Req) (addr width : Nat) (data : List Nat) (found : List (Nat × Damage)) (lostAt : Option Nat) : Statement (.memWrite r addr width data found lostAt) := by
  intro q k h hw; cases h; exact ⟨left (left (left hw)), by decide, by decide⟩
theorem testSelftest (r : Req) (kind index : Nat) (pass : Bool) (data : Nat) : Statement (.testSelftest r kind index pass data) := by
  intro q k h hw; cases h; exact ⟨left hw, by decide, by decide⟩
theorem testReturn (r : Req) (kind index : Nat) (pass : Bool) : Statement (.testReturn r kind index pass) := by
  intro q k h hw; cases h; exact ⟨left hw, by decide, by decide⟩
theorem testRetire (r : Req) (kind index : Nat) : Statement (.testRetire r kind index) := by
  intro q k h hw; cases h; exact ⟨left hw, by decide, by decide⟩
theorem testReserves (r : Req) : Statement (.testReserves r) := by
  intro q k h hw; cases h; exact ⟨hw, by decide, by decide⟩
theorem testRestart (r : Req) (target : Nat) : Statement (.testRestart r target) := by
  intro q k h hw; cases h; exact ⟨left hw, by decide, by decide⟩
theorem testWearSet (r : Req) (kind thresh : Nat) : Statement (.testWearSet r kind thresh) := by
  intro q k h hw; cases h; exact ⟨left hw, by decide, by decide⟩
theorem registerWrite (dt : Dt) (m : Master) (addr : Nat) (value : BitVec 32) : Statement (.registerWrite dt m addr value) := by
  intro q k h hw; cases h
theorem rcCounterRead (dt : Dt) (m : Master) (addr inc : Nat) : Statement (.rcCounterRead dt m addr inc) := by
  intro q k h hw; cases h
theorem jncHcnLoRead (dt : Dt) (m : Master) : Statement (.jncHcnLoRead dt m) := by
  intro q k h hw; cases h
theorem dbSetWrite (dt : Dt) (m : Master) (target : Region) (bits w1c : BitVec 32) : Statement (.dbSetWrite dt m target bits w1c) := by
  intro q k h hw; cases h
theorem evtinPortPush (dt : Dt) (region : Region) (code src : Nat) (pay : List Nat) : Statement (.evtinPortPush dt region code src pay) := by
  intro q k h hw; cases h
theorem eventLineEntry (dt : Dt) (block code cell : Nat) (pay : List Nat) : Statement (.eventLineEntry dt block code cell pay) := by
  intro q k h hw; cases h
theorem eventRecordWrite (dt : Dt) : Statement (.eventRecordWrite dt) := by
  intro q k h hw; cases h
theorem tokenRefill (dt : Dt) (code : Nat) : Statement (.tokenRefill dt code) := by
  intro q k h hw; cases h
theorem logClearEraseDone (dt : Dt) : Statement (.logClearEraseDone dt) := by
  intro q k h hw; cases h
theorem voterDisagree (dt : Dt) (region : Region) (pos : Nat) (allDiffer : Bool) : Statement (.voterDisagree dt region pos allDiffer) := by
  intro q k h hw; cases h
theorem regionRestart (dt : Dt) (region : Region) : Statement (.regionRestart dt region) := by
  intro q k h hw; cases h
theorem regionResume (dt : Dt) (region : Region) : Statement (.regionResume dt region) := by
  intro q k h hw; cases h
theorem chipFault (dt : Dt) : Statement (.chipFault dt) := by
  intro q k h hw; cases h
theorem zeroCrossing (dt : Dt) (rising : Bool) (rms : Nat) : Statement (.zeroCrossing dt rising rms) := by
  intro q k h hw; cases h
theorem setBCrossing (dt : Dt) (rising : Bool) (rms : Nat) : Statement (.setBCrossing dt rising rms) := by
  intro q k h hw; cases h
theorem hcnEdge (dt : Dt) (found : Bool) (rms : Nat) : Statement (.hcnEdge dt found rms) := by
  intro q k h hw; cases h
theorem virtualEdge (dt : Dt) : Statement (.virtualEdge dt) := by
  intro q k h hw; cases h
theorem lockStepTimeout (dt : Dt) : Statement (.lockStepTimeout dt) := by
  intro q k h hw; cases h
theorem blockClose (dt : Dt) (f : Nat) : Statement (.blockClose dt f) := by
  intro q k h hw; cases h
theorem frameBurstStart (dt : Dt) (f : Nat) : Statement (.frameBurstStart dt f) := by
  intro q k h hw; cases h
theorem uplinkBurstDecoded (dt : Dt) (f slot type idx : Nat) (micCurrent micRetiring : Bool) (snr : Nat) : Statement (.uplinkBurstDecoded dt f slot type idx micCurrent micRetiring snr) := by
  intro q k h hw; cases h
theorem presRise (rep : Rep) (sense strength : Nat) (loc : Bool) : Statement (.presRise rep sense strength loc) := by
  intro q k h hw; cases h
theorem presFall (rep : Rep) (last : Nat) : Statement (.presFall rep last) := by
  intro q k h hw; cases h
theorem daylight (rep : Rep) (lux : Nat) (pres fb : Bool) (temp : Nat) : Statement (.daylight rep lux pres fb temp) := by
  intro q k h hw; cases h
theorem statusReport (rep : Rep) (nflags : BitVec 16) (pver fwver : Nat) : Statement (.statusReport rep nflags pver fwver) := by
  intro q k h hw; cases h
theorem ack (rep : Rep) (op result ref : Nat) : Statement (.ack rep op result ref) := by
  intro q k h hw; cases h
theorem imgStatus (rep : Rep) (img state missing first : Nat) : Statement (.imgStatus rep img state missing first) := by
  intro q k h hw; cases h
theorem joinReq (dt : Dt) (f euiHigh euiLow : Nat) (micOkFor : List Nat) : Statement (.joinReq dt f euiHigh euiLow micOkFor) := by
  intro q k h hw; cases h
theorem quarantineEnd (dt : Dt) (addr : Nat) : Statement (.quarantineEnd dt addr) := by
  intro q k h hw; cases h
theorem presTimeout (dt : Dt) (addr : Nat) : Statement (.presTimeout dt addr) := by
  intro q k h hw; cases h
theorem daylightTimeout (dt : Dt) (addr : Nat) : Statement (.daylightTimeout dt addr) := by
  intro q k h hw; cases h
theorem linkInactive50 (dt : Dt) (f : Nat) : Statement (.linkInactive50 dt f) := by
  intro q k h hw; cases h
theorem nodeKeyResend (dt : Dt) (addr : Nat) : Statement (.nodeKeyResend dt addr) := by
  intro q k h hw; cases h
theorem backgroundResend (dt : Dt) (f id : Nat) : Statement (.backgroundResend dt f id) := by
  intro q k h hw; cases h
theorem echoFailure (dt : Dt) (f : Nat) : Statement (.echoFailure dt f) := by
  intro q k h hw; cases h
theorem stageLoadCheck (dt : Dt) (stage : Nat) (pass currentPass rxPass : Bool) : Statement (.stageLoadCheck dt stage pass currentPass rxPass) := by
  intro q k h hw; cases h
theorem spareStageCheck (dt : Dt) : Statement (.spareStageCheck dt) := by
  intro q k h hw; cases h
theorem extFaultClear (dt : Dt) (f : Nat) : Statement (.extFaultClear dt f) := by
  intro q k h hw; cases h
theorem sillagePass (dt : Dt) : Statement (.sillagePass dt) := by
  intro q k h hw; cases h
theorem passCommit (dt : Dt) (mismatch mismatch2 rerunFits : Bool) (timeUs : Nat) : Statement (.passCommit dt mismatch mismatch2 rerunFits timeUs) := by
  intro q k h hw; cases h
theorem sillageAutoRestart (dt : Dt) : Statement (.sillageAutoRestart dt) := by
  intro q k h hw; cases h
theorem finalConversion (dt : Dt) : Statement (.finalConversion dt) := by
  intro q k h hw; cases h
theorem dstStepIssue (dt : Dt) : Statement (.dstStepIssue dt) := by
  intro q k h hw; cases h
theorem meterRecordComplete (dt : Dt) (f : Nat) (phases : List (List Sample)) (clip : Bool) : Statement (.meterRecordComplete dt f phases clip) := by
  intro q k h hw; cases h
theorem pulseStart (dt : Dt) (out : Nat) : Statement (.pulseStart dt out) := by
  intro q k h hw; cases h
theorem pulseEnd (dt : Dt) (out : Nat) : Statement (.pulseEnd dt out) := by
  intro q k h hw; cases h
theorem meterSnapshotComplete (dt : Dt) : Statement (.meterSnapshotComplete dt) := by
  intro q k h hw; cases h
theorem periodicSave (dt : Dt) : Statement (.periodicSave dt) := by
  intro q k h hw; cases h
theorem converterFailure (dt : Dt) (conv : Nat) : Statement (.converterFailure dt conv) := by
  intro q k h hw; cases h
theorem spareDwellEnd (dt : Dt) (conv : Nat) (spare : List Nat) : Statement (.spareDwellEnd dt conv spare) := by
  intro q k h hw; cases h
theorem calibrationDue (dt : Dt) (input : Nat) : Statement (.calibrationDue dt input) := by
  intro q k h hw; cases h
theorem calibrationStep (dt : Dt) (within : Bool) (offset gain : Int) : Statement (.calibrationStep dt within offset gain) := by
  intro q k h hw; cases h
theorem levelSnapshotCopy (dt : Dt) : Statement (.levelSnapshotCopy dt) := by
  intro q k h hw; cases h
theorem accordAttribution (dt : Dt) (f : Nat) : Statement (.accordAttribution dt f) := by
  intro q k h hw; cases h
theorem windowCorrelate (dt : Dt) (x : Nat) : Statement (.windowCorrelate dt x) := by
  intro q k h hw; cases h
theorem probeAckTimeout (dt : Dt) (addr : Nat) : Statement (.probeAckTimeout dt addr) := by
  intro q k h hw; cases h
theorem requestRetry (dt : Dt) (req : Nat) : Statement (.requestRetry dt req) := by
  intro q k h hw; cases h
theorem requestDeadline (dt : Dt) (req : Nat) : Statement (.requestDeadline dt req) := by
  intro q k h hw; cases h
theorem autoSweepDue (dt : Dt) (addr : Nat) : Statement (.autoSweepDue dt addr) := by
  intro q k h hw; cases h
theorem modelTableStore (dt : Dt) : Statement (.modelTableStore dt) := by
  intro q k h hw; cases h
theorem scanSyncEvent (dt : Dt) : Statement (.scanSyncEvent dt) := by
  intro q k h hw; cases h
theorem signSyncEdge (dt : Dt) : Statement (.signSyncEdge dt) := by
  intro q k h hw; cases h
theorem signSyncLost (dt : Dt) : Statement (.signSyncLost dt) := by
  intro q k h hw; cases h
theorem rowSlotStart (dt : Dt) : Statement (.rowSlotStart dt) := by
  intro q k h hw; cases h
theorem ledMeasure (dt : Dt) (probe : Bool) (reads : List LedRead) : Statement (.ledMeasure dt probe reads) := by
  intro q k h hw; cases h
theorem swapBoundary (dt : Dt) : Statement (.swapBoundary dt) := by
  intro q k h hw; cases h
theorem backCopyDone (dt : Dt) : Statement (.backCopyDone dt) := by
  intro q k h hw; cases h
theorem cellFailure (dt : Dt) (cells : List Nat) : Statement (.cellFailure dt cells) := by
  intro q k h hw; cases h
theorem sinkCellTest (dt : Dt) (cell : Nat) (pass : Bool) : Statement (.sinkCellTest dt cell pass) := by
  intro q k h hw; cases h
theorem sbusSyncSend (dt : Dt) : Statement (.sbusSyncSend dt) := by
  intro q k h hw; cases h
theorem sbusTransaction (dt : Dt) (port : Nat) : Statement (.sbusTransaction dt port) := by
  intro q k h hw; cases h
theorem sbusResponse (dt : Dt) (port : Nat) (fr : SbusFrame) : Statement (.sbusResponse dt port fr) := by
  intro q k h hw; cases h
theorem sbusResponseTimeout (dt : Dt) (port : Nat) : Statement (.sbusResponseTimeout dt port) := by
  intro q k h hw; cases h
theorem sbusEchoMismatch (dt : Dt) (port : Nat) : Statement (.sbusEchoMismatch dt port) := by
  intro q k h hw; cases h
theorem sessionConfirmTimeout (dt : Dt) (ses : Nat) : Statement (.sessionConfirmTimeout dt ses) := by
  intro q k h hw; cases h
theorem sessionIdleTimeout (dt : Dt) (ses : Nat) : Statement (.sessionIdleTimeout dt ses) := by
  intro q k h hw; cases h
theorem usbBusReset (dt : Dt) : Statement (.usbBusReset dt) := by
  intro q k h hw; cases h
theorem notificationRelease (dt : Dt) (ses : Nat) : Statement (.notificationRelease dt ses) := by
  intro q k h hw; cases h
theorem ethFrameRx (dt : Dt) (port : Nat) (fr : EthFrame) : Statement (.ethFrameRx dt port fr) := by
  intro q k h hw; cases h
theorem arpRequest (dt : Dt) (port : Arrival) (ip : Nat) : Statement (.arpRequest dt port ip) := by
  intro q k h hw; cases h
theorem icmpEchoRequest (dt : Dt) (port : Arrival) : Statement (.icmpEchoRequest dt port) := by
  intro q k h hw; cases h
theorem prpSupervisionTx (dt : Dt) : Statement (.prpSupervisionTx dt) := by
  intro q k h hw; cases h
theorem ptpSyncRx (dt : Dt) (port : Arrival) (domain seq : Nat) (twoStep : Bool) (t1 err corr : Int) (logInterval : Int) : Statement (.ptpSyncRx dt port domain seq twoStep t1 err corr logInterval) := by
  intro q k h hw; cases h
theorem ptpFollowUpRx (dt : Dt) (port : Arrival) (domain seq : Nat) (t1 corr : Int) : Statement (.ptpFollowUpRx dt port domain seq t1 corr) := by
  intro q k h hw; cases h
theorem ptpAnnounceRx (dt : Dt) (port : Arrival) (domain master rank : Nat) (time : AnnTime) (udp : Bool) (logInterval : Int) : Statement (.ptpAnnounceRx dt port domain master rank time udp logInterval) := by
  intro q k h hw; cases h
theorem ptpDelayRespRx (dt : Dt) (port : Arrival) (domain seq : Nat) (t4 corr : Int) (logInterval : Int) : Statement (.ptpDelayRespRx dt port domain seq t4 corr logInterval) := by
  intro q k h hw; cases h
theorem ptpPdelayReqRx (dt : Dt) (port : Arrival) (udp : Bool) (seq : Nat) (corr turnaround : Int) : Statement (.ptpPdelayReqRx dt port udp seq corr turnaround) := by
  intro q k h hw; cases h
theorem ptpPdelayRespRx (dt : Dt) (port : Arrival) (seq : Nat) (err corr : Int) : Statement (.ptpPdelayRespRx dt port seq err corr) := by
  intro q k h hw; cases h
theorem ptpDelayReqTx (dt : Dt) (port domain : Nat) (spread err : Int) : Statement (.ptpDelayReqTx dt port domain spread err) := by
  intro q k h hw; cases h
theorem ptpSourceLost (dt : Dt) (src : Nat) : Statement (.ptpSourceLost dt src) := by
  intro q k h hw; cases h
theorem ptpSourceReturn (dt : Dt) (src : Nat) : Statement (.ptpSourceReturn dt src) := by
  intro q k h hw; cases h
theorem ptpAdjWrite (dt : Dt) (m : Master) (adj : Int) : Statement (.ptpAdjWrite dt m adj) := by
  intro q k h hw; cases h
theorem ptpIncrWrite (dt : Dt) (m : Master) (incr : Nat) : Statement (.ptpIncrWrite dt m incr) := by
  intro q k h hw; cases h
theorem ptpTimeNsRead (dt : Dt) (m : Master) : Statement (.ptpTimeNsRead dt m) := by
  intro q k h hw; cases h
theorem rtcHourlyCheck (dt : Dt) : Statement (.rtcHourlyCheck dt) := by
  intro q k h hw; cases h
theorem ethLinkDown (dt : Dt) (port : Nat) : Statement (.ethLinkDown dt port) := by
  intro q k h hw; cases h
theorem ethLinkUp (dt : Dt) (port speed : Nat) : Statement (.ethLinkUp dt port speed) := by
  intro q k h hw; cases h
theorem rtcBlockRead (dt : Dt) (m : Master) (offset : Nat) : Statement (.rtcBlockRead dt m offset) := by
  intro q k h hw; cases h
theorem rtcYearRead (dt : Dt) (m : Master) : Statement (.rtcYearRead dt m) := by
  intro q k h hw; cases h
theorem rtcFreezeTimeout (dt : Dt) : Statement (.rtcFreezeTimeout dt) := by
  intro q k h hw; cases h
theorem rtcFieldWrite (dt : Dt) (m : Master) (offset : Nat) (value : BitVec 32) : Statement (.rtcFieldWrite dt m offset value) := by
  intro q k h hw; cases h
theorem rtcSecsWrite (dt : Dt) (m : Master) (value : BitVec 32) : Statement (.rtcSecsWrite dt m value) := by
  intro q k h hw; cases h
theorem rtcSetApply (dt : Dt) : Statement (.rtcSetApply dt) := by
  intro q k h hw; cases h
theorem stepFwd (dt : Dt) (m : Master) (both : Bool) : Statement (.stepFwd dt m both) := by
  intro q k h hw; cases h
theorem stepBack (dt : Dt) (m : Master) (both : Bool) : Statement (.stepBack dt m both) := by
  intro q k h hw; cases h
theorem rtcStepApply (dt : Dt) : Statement (.rtcStepApply dt) := by
  intro q k h hw; cases h
theorem rtcCalendarWrap (dt : Dt) : Statement (.rtcCalendarWrap dt) := by
  intro q k h hw; cases h
theorem backupSwitchVbat (dt : Dt) : Statement (.backupSwitchVbat dt) := by
  intro q k h hw; cases h
theorem backupSwitchRail (dt : Dt) : Statement (.backupSwitchRail dt) := by
  intro q k h hw; cases h
theorem rtcValidLoss (dt : Dt) : Statement (.rtcValidLoss dt) := by
  intro q k h hw; cases h
theorem tamperAssert (dt : Dt) (inputB : Bool) : Statement (.tamperAssert dt inputB) := by
  intro q k h hw; cases h
theorem tlogAck (dt : Dt) (m : Master) (n : Nat) : Statement (.tlogAck dt m n) := by
  intro q k h hw; cases h
theorem twinExpiry (dt : Dt) (slot : Nat) : Statement (.twinExpiry dt slot) := by
  intro q k h hw; cases h
theorem stagingEraseDone (dt : Dt) : Statement (.stagingEraseDone dt) := by
  intro q k h hw; cases h
theorem payloadVerifyDone (dt : Dt) (ok : Bool) : Statement (.payloadVerifyDone dt ok) := by
  intro q k h hw; cases h
theorem reconstructionDone (dt : Dt) (ok : Bool) : Statement (.reconstructionDone dt ok) := by
  intro q k h hw; cases h
theorem switchRunTimeout (dt : Dt) : Statement (.switchRunTimeout dt) := by
  intro q k h hw; cases h
theorem trialMinute (dt : Dt) : Statement (.trialMinute dt) := by
  intro q k h hw; cases h
theorem nodeImageRoundEnd (dt : Dt) (f : Nat) : Statement (.nodeImageRoundEnd dt f) := by
  intro q k h hw; cases h
theorem scrubVisit (dt : Dt) (mac : Nat) (found : Damage) : Statement (.scrubVisit dt mac found) := by
  intro q k h hw; cases h
theorem mramScrubPass (dt : Dt) (corrected uncorrectable : List Nat) : Statement (.mramScrubPass dt corrected uncorrectable) := by
  intro q k h hw; cases h
theorem dmaStart (dt : Dt) (region : Region) (ch : Nat) : Statement (.dmaStart dt region ch) := by
  intro q k h hw; cases h
theorem dmaAbort (dt : Dt) (region : Region) (ch : Nat) : Statement (.dmaAbort dt region ch) := by
  intro q k h hw; cases h
theorem dmaRequest (dt : Dt) (region : Region) (ch : Nat) : Statement (.dmaRequest dt region ch) := by
  intro q k h hw; cases h
theorem dmaBurstDone (dt : Dt) (region : Region) (ch : Nat) (data : List Nat) (found : List (Nat × Damage)) (request : Bool) : Statement (.dmaBurstDone dt region ch data found request) := by
  intro q k h hw; cases h
theorem dmaPeriphReset (dt : Dt) (region : Region) (ch : Nat) (beats : Nat) : Statement (.dmaPeriphReset dt region ch beats) := by
  intro q k h hw; cases h
theorem dmaDescEnd (dt : Dt) (region : Region) (ch : Nat) : Statement (.dmaDescEnd dt region ch) := by
  intro q k h hw; cases h
theorem ageMinute (dt : Dt) : Statement (.ageMinute dt) := by
  intro q k h hw; cases h
theorem supplyFail (dt : Dt) : Statement (.supplyFail dt) := by
  intro q k h hw; cases h
theorem finalSaveComplete (dt : Dt) : Statement (.finalSaveComplete dt) := by
  intro q k h hw; cases h
theorem rtcifIsolate (dt : Dt) : Statement (.rtcifIsolate dt) := by
  intro q k h hw; cases h
theorem supplyCycleReset (dt : Dt) : Statement (.supplyCycleReset dt) := by
  intro q k h hw; cases h
theorem rstNLow (dt : Dt) (lowNs : Nat) : Statement (.rstNLow dt lowNs) := by
  intro q k h hw; cases h
theorem resetRelease (dt : Dt) (vin bankCap : Nat) (holdupOk : Bool) (pins : BitVec 8) : Statement (.resetRelease dt vin bankCap holdupOk pins) := by
  intro q k h hw; cases h
theorem bootRomDone (dt : Dt) (manifestOkA manifestOkB : Bool) (programOk : Bool) : Statement (.bootRomDone dt manifestOkA manifestOkB programOk) := by
  intro q k h hw; cases h
theorem mImageLoaded (dt : Dt) : Statement (.mImageLoaded dt) := by
  intro q k h hw; cases h
theorem keyStoreReady (dt : Dt) : Statement (.keyStoreReady dt) := by
  intro q k h hw; cases h
theorem cdImagesLoaded (dt : Dt) (ok : Bool) : Statement (.cdImagesLoaded dt ok) := by
  intro q k h hw; cases h
theorem restoreStep (dt : Dt) : Statement (.restoreStep dt) := by
  intro q k h hw; cases h
theorem lifecycleWipeDone (dt : Dt) : Statement (.lifecycleWipeDone dt) := by
  intro q k h hw; cases h
theorem unlistedCmdRequest (r : Req) (cmd : Nat) : Statement (.unlistedCmdRequest r cmd) := by
  intro q k h hw; cases h
theorem uplinkMinislotEnd (dt : Dt) (f slot : Nat) (detected : Bool) (noise : Nat) : Statement (.uplinkMinislotEnd dt f slot detected noise) := by
  intro q k h hw; cases h
theorem tamperRearm (dt : Dt) (inputB : Bool) : Statement (.tamperRearm dt inputB) := by
  intro q k h hw; cases h
theorem vinReturn (dt : Dt) : Statement (.vinReturn dt) := by
  intro q k h hw; cases h
theorem holdupEnd (dt : Dt) : Statement (.holdupEnd dt) := by
  intro q k h hw; cases h
theorem calibrateStartTimeout (dt : Dt) : Statement (.calibrateStartTimeout dt) := by
  intro q k h hw; cases h
theorem periodicSaveDone (dt : Dt) : Statement (.periodicSaveDone dt) := by
  intro q k h hw; cases h

end Sys2Proof.Laws.HostRows
end

