-- ==== Sys2Proof/Laws/Queues.lean ====
section
/-!
SUPPORT. What the receive queues of a port and the metering queue of the junction can do.
-/
namespace Sys2Proof.Machine

/-- Nothing waits: serving changes nothing (12 R386). -/
theorem rxServe_idle {s : State} {p : Nat} (n : Nat) (h : s.rxIdle p = true) : s.rxServe n p = s := by
  cases n with
  | zero => rfl
  | succ n =>
    simp only [State.rxIdle, Bool.and_eq_true, List.isEmpty_iff] at h
    simp only [State.rxServe, h.1.1, h.1.2, ite_self]

/-- The firmware is busy: serving changes nothing (12 R386). -/
theorem rxServe_busy {s : State} {p : Nat} (n : Nat) (h : s.now < (s.eport p).rxFree) : s.rxServe n p = s := by
  cases n with
  | zero => rfl
  | succ n => simp only [State.rxServe, h, if_true]

/-- A frame that the port does not take changes nothing. -/
theorem receive_refused {s : State} {a : Arrival} {fr : RxFrame} (h : s.accepts a fr.peerDelay = false) : s.receive a fr = s := by
  simp [State.receive, h]

/-- A frame that finds nothing waiting is served at once (12 R386). -/
theorem receive_idle {s : State} {a : Arrival} {fr : RxFrame} (ha : s.accepts a fr.peerDelay = true) (h : s.rxIdle a.port = true) :
    s.receive a fr = (s.rxStart a.port s.now).rxHandle a.port s.now fr := by
  simp only [State.receive, ha, Bool.not_true, Bool.false_eq_true, if_false, rxServe_idle _ h, h, if_true]

/-- While the firmware is busy a frame joins its queue, or is discarded and counted at a full one (12 R386). -/
theorem receive_busy {s : State} {a : Arrival} {fr : RxFrame} (ha : s.accepts a fr.peerDelay = true) (h : s.now < (s.eport a.port).rxFree) :
    s.receive a fr = if (if fr.isPtp then (s.eport a.port).ptpQ else (s.eport a.port).restQ).length < 64 then
        s.onEport a.port (fun e => if fr.isPtp then { e with ptpQ := e.ptpQ ++ [(s.now, fr)] } else { e with restQ := e.restQ ++ [(s.now, fr)] })
      else s.rxDropped a.port := by
  have hi : s.rxIdle a.port = false := by simp [State.rxIdle, h]
  simp only [State.receive, ha, Bool.not_true, Bool.false_eq_true, if_false, rxServe_busy _ h, hi]

/-- The metering queue touches the sessions and what they are sent, and nothing that measures (07 R238). -/
theorem serveQueue_said (s : State) (i : Nat) (u : MeterSub) : Said s (s.serveQueue i u) := by
  unfold State.serveQueue
  split
  · have fold : ∀ (l : List (Nat × BitVec 640)) (t : State), Said s t →
        Said s (l.foldl (fun s e => s.notify i 0x0780 false .ok [(e.1, 1), (u.dropped, 4), (e.2.toNat, 80)]) t) := by
      intro l
      induction l with
      | nil => exact fun _ h => h
      | cons e l ih => exact fun _ h => ih _ (h.trans (notify_said ..))
    exact fold _ _ (onSession_said ..)
  · exact onSession_said ..
  · split
    · exact ((onSession_said ..).trans (stuckFw_said ..)).trans (raiseGen_said ..)
    · exact (onSession_said ..).trans (stuckFw_said ..)

end Sys2Proof.Machine
end

