-- ==== Sys2Proof/Laws/Sillage.lean ====
section
/-!
SUPPORT. What the end of a pass can change.
-/
namespace Sys2Proof.Machine

/-- Tables of the engine and queues of the feeders, and nothing else. -/
def TabsOnly (s u : State) : Prop := ∃ tab fdr, u = { s with sil := { s.sil with tab := tab }, fdr := fdr }

theorem TabsOnly.refl (s : State) : TabsOnly s s := ⟨s.sil.tab, s.fdr, rfl⟩
theorem TabsOnly.trans {s t u : State} (h : TabsOnly s t) (k : TabsOnly t u) : TabsOnly s u := by
  obtain ⟨a, b, rfl⟩ := h
  obtain ⟨c, d, rfl⟩ := k
  exact ⟨c, d, rfl⟩
theorem onTab_tabsOnly (s : State) (g : SilTables → SilTables) : TabsOnly s (s.onTab g) := ⟨g s.sil.tab, s.fdr, rfl⟩
theorem onQueue_tabsOnly (s : State) (a : Nat) (g : List QEntry → List QEntry) : TabsOnly s (s.onQueue a g) :=
  ⟨s.sil.tab, tmod {} s.fdr (a / 2048) (fun f => { f with queue := g f.queue }), rfl⟩

theorem passChange_tabsOnly (s : State) (k a goal out : Nat) : TabsOnly s (s.passChange k a goal out) := by
  unfold State.passChange
  dsimp only
  split
  · exact onQueue_tabsOnly ..
  · split <;> exact onQueue_tabsOnly ..

theorem foldl_tabsOnly {α : Type} (l : List α) (g : State → α → State) (h : ∀ t e, TabsOnly t (g t e)) {s t : State} (k : TabsOnly s t) :
    TabsOnly s (l.foldl g t) := by
  induction l generalizing t with
  | nil => exact k
  | cons e l ih => exact ih (k.trans (h t e))

/-- A commit changes the tables and the queues, and the engine's LAST and run of abandoned passes (05 R159, R185). -/
theorem commitPass_changes (s : State) (k : Nat) : ∃ tab fdr,
    s.commitPass k = { s with sil := { s.sil with tab := tab, last := k, abandonRun := 0 }, fdr := fdr } := by
  have h : TabsOnly s _ := foldl_tabsOnly s.sil.newOut (fun t e =>
      if s.sil.touched.contains e.1 then
        t.onTab (fun b => { b with states := tmod b.stDef b.states e.1 (fun w => setFld w 22 14 e.2.1) })
      else (t.onTab (fun b => { b with
        states := tmod b.stDef b.states e.1 (fun w => setFld (setFld w 22 14 e.2.1) 36 14 e.2.2) })).passChange k e.1 e.2.1 e.2.2)
    (fun t e => by
      split
      · exact onTab_tabsOnly ..
      · exact (onTab_tabsOnly ..).trans (passChange_tabsOnly ..))
    (onTab_tabsOnly s (fun t => t.writeField k s.sil.newPhi))
  obtain ⟨tab, fdr, e⟩ := h
  exact ⟨tab, fdr, congrArg (fun u => u.onSil (fun g => { g with last := k, abandonRun := 0 })) e⟩

/-- An abandoned pass that is not the third in a row carries the field on and is counted (05 R185, R186). -/
theorem abandonPass_said {s : State} (k : Nat) (h : s.sil.abandonRun < 2) :
    Said { s with sil := { s.sil with
      tab := s.sil.tab.carryField k, abandonCnt := (bump 255 s.sil.abandonCnt).1, abandonRun := s.sil.abandonRun + 1 } } (s.abandonPass k) := by
  simp only [State.abandonPass, show s.sil.abandonRun + 1 < 3 by omega, if_true]
  exact (stuckIf_said ..).trans (raiseHw_said ..)

end Sys2Proof.Machine
end

