-- ==== Sys2Proof/Tests/Slice0.lean ====
section
/-!
SUPPORT. Tests of single steps, ill-formed commands that WellFormed refuses, and for every statement with hypotheses a state and operands
that meet them (witness_<its name>). Expected values come from the worked examples and tables of spec/.
-/
namespace Sys2Proof.Tests
open Sys2Proof Sys2Proof.Machine

set_option Elab.async false

/-! ## States to build tests from -/

/-- A session on USB with every privilege. -/
def ses : Session :=
  { id := 1, usb := true, ip := 0, port := 0, priv := 0x1FF, halfOpen := false, serial := 7, openedAt := 0, lastGood := 0 }

/-- A request with the TAG it takes under a session's host-to-module key (10 R336). -/
def signed (x : Session) (r : Req) : Req := { r with tag := ofBytes (cmac (leBytes 16 x.keyIn) (reqBytes r)) }
/-- Its first request. -/
def req : Req := signed ses { ses := 1, seq := 1, usb := true }

/-- A module that has started, locked at HCN 1000, with one session. -/
def live : State :=
  { State.reset with
    pow := { State.reset.pow with phase := .complete, signHiZ := false, pulseHiZ := false }
    tb := { State.reset.tb with st := .locked, running := true, hcn := 1000, period := 4000000, vnomA := 230000, vnomB := 230000 }
    vxc := { State.reset.vxc with sessions := [ses] }
    keys := { State.reset.keys with rootOk := true }
    now := 1000000000 }

/-- The module without a session. -/
def shut : State := { live with vxc := {} }

theorem served_live : ∀ n ∈ [Priv.read, .operate, .configure, .keys, .update, .clear, .mem, .test, .lifecycle, .anyone],
    Served live req ses n := by decide +kernel

/-! ## Well-formed commands: one ill-formed term for each check -/

theorem wf_smoke : (Instr.sysNotifyRead req 0 65535).wf = true ∧ (Instr.mramScrubPass {} [524287] []).wf = true := by decide +kernel
theorem illformed_req : (Instr.sysStatus { req with ses := 2 ^ 32 }).wf = false ∧ (Instr.sysStatus { req with seq := 2 ^ 32 }).wf = false ∧
    (Instr.sysStatus { req with ip := 2 ^ 32 }).wf = false ∧
    (Instr.sysStatus { req with payload := [256] }).wf = false ∧ (Instr.sysStatus { req with via := { port := 2 } }).wf = false ∧ (Instr.sysStatus { req with port := 65536 }).wf = false := by decide +kernel
theorem illformed_fits : (Instr.sysNotifyRead req (2 ^ 32) 0).wf = false ∧ (Instr.sysNotifyRead req 0 65536).wf = false := by decide +kernel
theorem illformed_below : (Instr.twinExpiry {} 64).wf = false ∧ (Instr.voterDisagree {} .c 4 false).wf = false := by decide +kernel
theorem illformed_bytes : (Instr.updBlock req 0 [256]).wf = false ∧ (Instr.updBlock req 0 (List.replicate 1025 0)).wf = false := by decide +kernel
theorem illformed_len : (Instr.graphCurveWrite req 0 []).wf = false ∧ (Instr.graphEdgeWrite req 0 []).wf = false := by decide +kernel
theorem illformed_signed : (Instr.ptpAdjWrite {} .mem (2 ^ 63)).wf = false ∧ (Instr.calibrationStep {} true (-32769) 0).wf = false := by decide +kernel
theorem illformed_site : (Instr.schedSiteWrite req { stdOfs := 32768 }).wf = false ∧ (Instr.schedSiteWrite req { defFloor := 65536 }).wf = false := by
  decide +kernel
def hdr0 : PkgHeader := ⟨true, 0, 0, true, 1, 0, 0, 0, 2048, 0, []⟩
theorem illformed_header : (Instr.updHeader req { hdr0 with secVer := 256 } 0).wf = false ∧
    (Instr.updHeader req { hdr0 with dir := [⟨1, 0, 0, [], 0, 0⟩] } 0).wf = false ∧ (Instr.updHeader req hdr0 (2 ^ 512)).wf = false := by decide +kernel
theorem illformed_rep : (Instr.presRise { f := 8, slot := 0, idx := 0 } 0 0 false).wf = false ∧
    (Instr.presRise { f := 0, slot := 0, idx := 2048 } 0 0 false).wf = false := by decide +kernel
theorem illformed_sample : (Instr.meterRecordComplete {} 0 [[⟨2 ^ 23, 0⟩], [], []] false).wf = false := by decide +kernel
theorem illformed_sbus : (Instr.sbusResponse {} 0 ⟨true, 0, 0, 0, 0, List.replicate 240 0⟩).wf = false ∧
    (Instr.sbusResponse {} 0 ⟨true, 256, 0, 0, 0, []⟩).wf = false := by decide +kernel
def eth0 : EthFrame := { src := 5, len := 100, vid := none, ptp := false, peerDelay := false, trailer := some (10, 3), handled := true }
theorem illformed_eth : (Instr.ethFrameRx {} 0 { eth0 with src := 2 ^ 48 }).wf = false ∧ (Instr.ethFrameRx {} 0 { eth0 with vid := some 4096 }).wf = false ∧
    (Instr.ethFrameRx {} 0 { eth0 with trailer := some (16, 0) }).wf = false ∧ (Instr.ethFrameRx {} 2 eth0).wf = false := by decide +kernel

/-! ## Witnesses: states and operands that meet every hypothesis of a statement -/

/-- The step of a state with a command in front answers a next state that satisfies `p`. -/
def after (c : Instr) (s : State) (p : State → Bool) : Bool :=
  match step (s.front c) with
  | .next t => p t
  | _ => false

theorem witness_StepsRunTheQueueInOrder : State.reset.pending = [] := by decide
def memLive : State := { live with mem := { bytes := [(0x100, 5)], poisoned := [] } }
theorem witness_MemoryStaysCanonical : memLive.mem.wf = true ∧ after (.backupSwitchVbat {}) memLive (fun t => t.mem.wf) = true := by decide +kernel
theorem witness_IntakeQueuesStayWithinTheirDepth :
    live.ev.bounded = true ∧ after (.usbBusReset {}) live (fun t => t.ev.bounded && decide (t.ev.qM.length = 1)) = true := by decide +kernel
def bkLive : State := { live with bk := { live.bk with valid := true, sub := 32767, secs := 1000000, step := some true } }
theorem witness_CalendarStaysInRange : bkLive.bk.inRange = true ∧ after (.rtcStepApply {}) bkLive (fun t => t.bk.inRange) = true := by decide +kernel

/-- A session whose highest request SEQ is 100. -/
def ses100 : Session := { ses with hi := 100, seen := 0xFFFFFFFFFFFFFFFF, answered := [⟨99, 0x0101, .ok, []⟩] }
def live100 : State := { live with vxc := { live.vxc with sessions := [ses100] } }
def half : Session := { ses with halfOpen := true }
def liveHalf : State := { live with vxc := { live.vxc with sessions := [half] } }
/-- A request over UDP to port 0, tagged for VLAN 5 as the settings in force ask. -/
def reqUdp : Req := { ses := 1, seq := 1, ip := 9, size := 32, via := { vid := some 5 } }
def udp : State := { live with
  vxc := { live.vxc with netInForce := { ipv4 := 7, vlan := 5 }, sessions := [{ ses with usb := false, ip := 9 }] }
  net := { live.net with ports := [(0, { link := true })] } }
theorem witness_UnansweredTrafficIsDropped :
    (hostRow (.sysStatus req)).isSome = true ∧ ((State.reset.tick {}).deaf req = true ∧ State.reset.pow.phase ≠ .bootStuck) ∧
    ((udp.tick {}).deaf reqUdp = false ∧ ((udp.tick {}).arrived { reqUdp with frag := true }).1 = false ∧ ((udp.tick {}).arrived reqUdp).1 = true) ∧
    (malformed { req with size := 31 } = some 0 ∧ malformed { req with size := 1433, len := 1401 } = some 1 ∧ malformed { req with flags := 2 } = some 2 ∧
      malformed { req with flags := 1 } = some 3 ∧ malformed { req with size := 1432, len := 1400 } = none) ∧
    (Heard live { req with ses := 0 } ∧ noTag { req with ses := 0 } = false) ∧ Heard udp { reqUdp with ses := 0 } ∧
    (Heard live req ∧ live.session 2 = none) ∧ (liveHalf.session 1 = some half ∧ half.halfOpen = true) ∧
    (Heard live req ∧ live.session 1 = some ses ∧ ses.usb = req.usb ∧ ses.tagOk { req with payload := [0] } = false ∧ ses.tagOk req = true) ∧
    (∃ x, udp.session 1 = some x ∧ x.usb = false ∧ x.ip ≠ 8) ∧
    (live100.session 1 = some ses100 ∧ ses100.seqVerdict 100 = .stale ∧ ses100.seqVerdict 36 = .stale) := by
  refine ⟨?_, ?_, ?_, ?_, ?_, ?_, ?_, ?_, ?_, ⟨_, rfl, ?_⟩, ?_⟩ <;> decide +kernel
theorem witness_StoredResponseGoesOutAgain : live100.session 1 = some ses100 ∧ Heard live100 (signed ses100 { req with seq := 99 }) ∧
    ses100.tagOk (signed ses100 { req with seq := 99 }) = true ∧ noTag (signed ses100 { req with seq := 99 }) = false ∧
    ses100.seqVerdict 99 = .again ⟨99, 0x0101, .ok, []⟩ := by decide +kernel
theorem witness_TakenSequenceNumberIsNeverNewAgain : ses.seqVerdict 1 = .fresh ∧
    { ses100 with seen := 1#64 }.seqVerdict 37 = .fresh ∧ { ses100 with seen := 1#64 }.seqVerdict 36 ≠ .fresh := by decide +kernel
def busy : Session := { ses with outst := List.replicate 8 (0, 0, 0) }
def liveBusy : State := { live with vxc := { live.vxc with sessions := [busy] } }
def poor : Session := { ses with priv := 1 }
def livePoor : State := { live with vxc := { live.vxc with sessions := [poor] } }
theorem witness_DeniedThenLengthThenBusy : (Heard liveBusy req ∧ InSession liveBusy req busy ∧ 8 ≤ busy.outst.length) ∧
    (Heard livePoor req ∧ InSession livePoor req poor ∧ Priv.configure.ok poor.priv = false ∧ Priv.read.ok poor.priv = true) ∧
    (Heard live { req with lenOk := false } ∧ InSession live { req with lenOk := false } ses ∧ Priv.configure.ok ses.priv = true) := by
  decide +kernel
def reqOpen : Req := { usb := true, flags := 0x10, size := 16 }
theorem witness_UnauthenticatedSubset : Heard live reqOpen ∧ noTag reqOpen = true ∧ reqOpen.ses = 0 ∧
    ((hostRow (.sysIdentify reqOpen)).map (fun e => e.2.openRead) = some true) ∧ ((hostRow (.sysNetRead reqOpen)).map (fun e => e.2.openRead) = some false) := by
  decide +kernel
theorem witness_AnswerIsOneResponse : live.session ses.id = some ses := by decide +kernel
def cert1 : HostCert := ⟨7, pubPoint 1⟩
/-- A module whose operator key has the private part 1. -/
def owned : State := { shut with
  nv := shut.nv.setSlots [(2, { attr := 0x4000000000000000 })]
  keys := { shut.keys with plain := [(2, pubPoint 1)] } }
theorem witness_SessionOpenHoldsAHalfOpenSession : Heard shut reqOpen ∧ noTag reqOpen = true ∧ 4 ≤ shut.pow.phase.rank ∧ shut.vxc.sessions.length < 4 ∧
    (shut.heardAt reqOpen).authFails true 7 cert1 (ecdsaSign 1 7 1) 0 0 = false := by decide +kernel
theorem witness_SessionOpenHoldsAHalfOpenSession_certified : (owned.heardAt reqOpen).authFails false 7 cert1 (ecdsaSign 1 7 1) 0 0 = false := by decide +kernel
def noted : Session := { ses with tokens := 0, waiting := [3], ring := [⟨3, 0x0B80, false, .ok, []⟩], nseq := 3 }
theorem witness_SessionsOpenLiveAndEnd : liveHalf.session 1 = some half ∧ half.seqVerdict 1 = .fresh ∧ live.session 1 = some ses ∧
    ses.lastGood + 300 * secC ≤ live.now + 119000000000 ∧ half.openedAt + 5 * secC ≤ live.now + 119000000000 ∧
    (let y : Session := { ses with tokens := 15 }
     y.waiting = [] ∧ y.tokens < 16 ∧ ({ live with vxc := { live.vxc with sessions := [y] } } : State).session 1 = some y ∧
      y.tokenAt + secC / 64 ≤ live.now) ∧ noted.tokens < 16 ∧
    (({ live with vxc := { live.vxc with sessions := [noted] } } : State).session 1 = some noted) ∧
    noted.ring.find? (fun m => m.nseq == 3) = some ⟨3, 0x0B80, false, .ok, []⟩ := by decide +kernel
/-- A half-open session that waits for the signature of hash 7 under the private key 1. -/
def half1 : Session := { half with hostPub := pubPoint 1, transcript := 7 }
def liveHalf1 : State := { live with vxc := { live.vxc with sessions := [half1] } }
theorem witness_SessionsOpenLiveAndEnd_confirm : Heard liveHalf1 req ∧ InSession liveHalf1 req half1 ∧ half1.halfOpen = true ∧ half1.outst.length < 8 ∧
    liveHalf1.now + 0 < half1.openedAt + 5 * secC ∧ ecdsaOk half1.hostPub half1.transcript (ecdsaSign 1 7 1) = true ∧ Served live req ses .anyone := by
  decide +kernel
theorem witness_SysCommandsTakeEffect : Served live req ses .read ∧ (0 ≤ ses.nseq ∧ 3 ≤ noted.nseq) ∧ Served live req ses .configure ∧
    Served live { req with lenOk := true } ses .anyone := by decide +kernel
theorem witness_LifeCycleChangeDestroysKeys : Served live req ses .lifecycle ∧ lifecycleOk 0 1 63 = true ∧ lifecycleOk 0 3 1 = true ∧
    lifecycleOk 0 2 63 = false ∧ lifecycleOk 0 1 1 = false := by decide +kernel
theorem witness_TimeCommandsTakeEffect : (∀ n ∈ [Priv.read, .configure], Served live req ses n) ∧
    (let t := State.taken { live with jnc := { live.jnc with stamps := [(1000 % 1024, 1000#256)] } } req ses
     ∀ k, 1000 ≤ k → k < 1001 → (t.stampOf k).isSome = true) ∧ (State.taken live req ses).net.src = none ∧
    live.nv.ptp.moved live.nv.ptp 0 = some 0 ∧ live.nv.ptp.moved ⟨200, 201, 0, 0, 0⟩ 0 = none := by decide +kernel
theorem witness_HostSetsAndStepsTheClock : Served live req ses .configure ∧ 29 ≤ monthDays 0 2 ∧ 31 ≤ monthDays 199 12 ∧
    live.rtc.lockout = false ∧ live.bk.crossing = none ∧ live.nv.site.dstEn = false ∧ (State.taken live req ses).stepCause true false = 0 := by decide +kernel
theorem witness_TimeBlockReadsAreCoherent : live.rtc.isolated = false ∧ live.bk.onVbat = false ∧ live.runs .m = true ∧
    (live.tick {}).frozen = none ∧ ({ live with rtc := { live.rtc with shadow := some (5, 6, live.now) } } : State).frozen = some (5, 6) ∧
    live.now + secC ≤ live.now + 400000000 ∧ ({ live with bk := { live.bk with crossing := some 0 } } : State).bk.crossing = some 0 := by decide +kernel
def bufd : State := { live with rtc := { live.rtc with wrMin := some 59, wrHour := some 23, wrDay := some 29, wrMonth := some 2, wrYear := some 0 } }
theorem witness_SetsAreValidatedAndApplied : (bufd.tick {}).setCause (fld 59#32 0 6) = 0 ∧ (bufd.tick {}).setCause (fld 60#32 0 6) = 2 ∧
    (live.tick {}).setCause 0 = 1 ∧ ({ live with rtc := { live.rtc with lockout := true } } : State).rtc.lockout = true ∧
    ({ live with bk := { live.bk with crossing := some 5 } } : State).bk.crossing.isSome = true := by decide +kernel
def summer : State := { live with
  nv := live.nv.setSite { dstEn := true }
  bk := { live.bk with valid := true, sub := 32767, secs := ruleSecs ⟨3, 5, 6, 120⟩ 20 - 1 } }
theorem witness_ClockStepsAndBackupDomainEvents : (live.tick {}).stepCause true false = 0 ∧ (live.tick {}).stepCause false false = 4 ∧
    (live.tick {}).stepCause true true = 5 ∧ ({ live with bk := { live.bk with step := some true } } : State).bk.step.isSome = true ∧
    (bkLive.bk.step = some true ∧ (bkLive.tick {}).bk.sub = 32767) ∧
    (summer.runs .m = true ∧ summer.runs .c = true ∧ summer.nv.site.dstEn = true ∧ (summer.tick {}).bk.valid = true ∧ summer.nv.dstActive = false ∧
      (summer.tick {}).bk.secs + 1 = ruleSecs summer.nv.site.dstStart (yearOf (((summer.tick {}).bk.secs + 1) / 86400)) ∧
      (summer.tick {}).stepCause true false = 0) := by decide +kernel
theorem witness_SecondsRefineTheCalendar : civil (6311433598 / 86400) = (199, 12, 31) ∧ 6311433598 + 1 < calSecs ∧
    (let s : State := { live with bk := { live.bk with sub := 32767, secs := 6311433599 } }
     (s.tick {}).bk.secs = 6311433599 ∧ (s.tick {}).bk.sub = 32767 ∧ s.bk.step = none) := by decide +kernel

theorem witness_LinkCommandsTakeEffect : Served live req ses .read ∧ Served live req ses .configure ∧ (7 ≤ 7 ∧ 63 ≤ 63) ∧
    (live.wtx.spare = some 8 ∧ live.wtx.spareValid = true ∧ live.wtx.setNext = []) ∧ live.wtx.spare ≠ some 7 := by decide +kernel
def regd : State := { live with nv := { live.nv with regs := [⟨0xE1, 0xA1, none, none, true⟩, ⟨0xE2, 0xA2, none, some 2049, true⟩] } }
/-- A key wrapped under KX as LOAD and REGISTER carry it (14 R434): the bytes after the first 8, and those. -/
def wkeyOf (kx : Nat) (plain : List Nat) : Nat × Nat :=
  let w := rfcWrap (leBytes 16 kx) plain
  (ofBytes (w.drop 8), ofBytes (w.take 8))
theorem witness_NodeCommandsTakeEffect_register : unwrapIk ((State.taken regd req ses).kxOf 1) (wkeyOf ses.kx (leBytes 16 0xA1)).1 (wkeyOf ses.kx (leBytes 16 0xA1)).2 = some 0xA1 ∧
    unwrapIk ((State.taken regd req ses).kxOf 1) 0 0 = none ∧
    (let s : State := { regd with nv := { regd.nv with regs := regd.nv.regs ++ [⟨0xE4, 0xA1, some 4096, none, false⟩] } }
     (∀ g ∈ s.nv.regs, g.eui ≠ 0xE4 → g.fixed ≠ some 4096 ∧ g.addr ≠ some 4096) ∧ (∀ j ∈ (s.feeder (4096 / 2048)).joins, j.eui = 0xE4 ∨ j.idx ≠ 4096 % 2048) ∧
      s.nv.regs.find? (fun g => g.eui == 0xE4) = some ⟨0xE4, 0xA1, some 4096, none, false⟩ ∧ ¬ (∀ g ∈ s.nv.regs, g.eui ≠ 0xE1 → g.fixed ≠ some 4096)) ∧
    regd.nv.regs.find? (fun g => g.eui == 0xE1) = some ⟨0xE1, 0xA1, none, none, true⟩ ∧ regd.joinedAt 2050 = false ∧
    (let l : List BgItem := [⟨1, .leave 1, 0, false, 0, false⟩]; l.any (fun b => decide (b.item = .leave (2049 % 2048))) = true) := by decide +kernel
theorem witness_NodeCommandsTakeEffect : Served regd req ses .configure ∧ Served regd req ses .read ∧
    regd.nv.regs.find? (fun g => g.eui == 0xE3) = none ∧ regd.nv.regs.length < 16384 ∧
    regd.nv.regs.find? (fun g => g.eui == 0xE1) = some ⟨0xE1, 0xA1, none, none, true⟩ ∧
    regd.nv.regs.find? (fun g => g.eui == 0xE2) = some ⟨0xE2, 0xA2, none, some 2049, true⟩ ∧
    (tget [] regd.nv.bg (2049 / 2048)).any (fun b => decide (b.item = .leave (2049 % 2048))) = false ∧
    regd.joinedAt 2049 = true ∧ (tget [] regd.nv.bg (2049 / 2048)).length < 4096 := by decide +kernel
theorem witness_LevelActionsAreBoundToTheirTarget : Served live req ses .operate ∧ live.pow.phase = .complete ∧ 1008 ≤ live.tb.hcn + 2147483648 ∧
    live.tb.hcn + 8 ≤ 1008 ∧ 1007 < live.tb.hcn + 8 ∧ (State.taken live req ses).actsFull = false ∧
    (let t := State.taken regd req ses; t.linkFull (feedersOf (t.members 255)) = false) := by decide +kernel
def running : State := { live with sil := { live.sil with st := .run } }
theorem witness_GraphWritesOnlyInStopped : Served live req ses .configure ∧ live.sil.st = .stopped ∧ 131071 + 1 ≤ 131072 ∧ 16383 + 1 ≤ 16384 ∧
    Served running req ses .configure ∧ running.sil.st ≠ .stopped := by decide +kernel
/-- One unmanaged node with in-degree 0, and SUBSTEPS and AGE_LIMIT at their defaults. -/
def graphed : State := { live with sil := { live.sil with substeps := 4, ageLimit := 64 } }
def passing : State := { running with sil := { running.sil with pass := some 1000 } }
theorem witness_GraphCommandsTakeEffect : Served graphed req ses .configure ∧ (State.taken graphed req ses).graphFault = none ∧
    graphed.tb.hcn + 4 ≤ 1004 ∧ (State.taken graphed req ses).actsFull = false ∧ ((State.taken live req ses).graphFault).isSome = true ∧
    Served running req ses .configure ∧ running.sil.pass = none ∧ (∀ a ∈ running.acts, a.what ≠ .graphRestart) ∧ passing.sil.pass.isSome = true ∧
    Served live req ses .read := by decide +kernel
def faulted : State := { live with sil := { live.sil with st := .faulted, faultAt := 984 } }
theorem witness_PassesCommitFaultAndRestart_deadline : (passing.tick {}).passLate 1000 = false ∧
    (let s : State := { passing with tb := { passing.tb with cuts := [(1001, 999000000)] } }; (s.tick {}).passLate 1000 = true) ∧
    passing.sil.stopBy = [] ∧ (let g : Sillage := { passing.sil with busStops := 1 }; 0 < g.busStops) := by decide +kernel
theorem witness_PassesCommitFaultAndRestart : (running.sil.st = .run ∧ running.sil.pass = none ∧ running.sil.stopBy = [] ∧ (running.tick {}).runs .c = true ∧
      running.tb.st ≠ .hold ∧ running.pow.supplyFail = false ∧ running.pow.cmdShutdown = false) ∧
    (let s : State := { running with tb := { running.tb with cuts := [(1000, 996032000)] } }; (s.tick {}).passNow = some 1000) ∧ (running.tick {}).passNow = none ∧
    (passing.sil.pass = some 1000 ∧ passing.sil.held = []) ∧ passing.sil.abandonRun < 2 ∧
    (faulted.sil.st = .faulted ∧ faulted.sil.faultAt + 16 ≤ faulted.tb.hcn ∧ faulted.sil.autoAt = none) ∧
    (let s : State := { faulted with sil := { faulted.sil with autoAt := some 728 } }; s.sil.faultAt ≤ 728 + 256) := by decide +kernel
def aimed : State := { live with
  bk := { live.bk with valid := true }
  sched := { live.sched with targets := [⟨3, 0, 0, 0, 1256, false⟩, ⟨3, 1, 0, 0, 1257, false⟩] } }
theorem witness_SchedCommandsTakeEffect : Served live req ses .configure ∧ Served live req ses .read ∧ hdNent 1#32 = 1 ∧ entryBad 0#64 = false ∧
    entryBad 0x60000#64 = true ∧ siteBad {} = false ∧ siteBad { stdOfs := 30000 } = true ∧
    (dateBad 0x00000101#32 = false ∧ dtYear 0x00000101#32 ≠ 255) ∧
    (aimed.runs .c = true ∧ (aimed.tick {}).bk.valid = true ∧ (1256 ≤ aimed.tb.hcn + 256) ∧ aimed.tb.hcn + 256 < 1257) := by decide +kernel
def meterRec : BitVec 640 := 999#640
def metered : State := { live with meter := { live.meter with records := [(7, [meterRec])], snap := { live.meter.snap with st := .ready } } }
theorem witness_MeterCommandsTakeEffect : (∀ n ∈ [Priv.configure, .read, .operate], Served live req ses n) ∧
    live.acts = [] ∧ live.tb.hcn + 4 ≤ 1004 ∧ (1000 ≤ inFs 0x000003E800000000#64 ∧ inFs 0x000003E800000000#64 ≤ 2000000 ∧
      10 * inNlt 0x000003E800000000#64 < inFs 0x000003E800000000#64) ∧ tempsFall (List.replicate 16 0#64) = false ∧ live.meter.snap.st ≠ .filling ∧
    Served metered req ses .read ∧ (tget [] metered.meter.records 7).find? (fun v => recHcn v == 999) = some meterRec ∧
    (tget [] metered.meter.records 7).find? (fun v => recHcn v == 998) = none ∧ metered.meter.snap.st = .ready ∧ live.meter.snap.st = SnapState.none ∧
    (∀ a ∈ live.acts, cfgSection a.what ≠ some 30) ∧
    tempsFall ((List.replicate 16 1#64).map (fun p => p &&& 0xFFFF0000FFFFFFFF#64)) = false := by decide +kernel
/-- Feeder 0 has one interval that has ended. -/
def ended : State := { live with
  tb := { live.tb with cuts := [(1000, 1000000000), (999, 996000000)] }
  meter := { live.meter with begun := some 999, next := [(0, 999)] } }
theorem witness_MeterRecordIsTheNewestOfItsFeeder : ended.runs .d = true ∧ ended.ivlNext 0 = some 999 ∧ (ended.ivl 0 999).isSome = true ∧ 999 < 2 ^ 48 ∧
    996000000 ≤ 1000000000 ∧ 1000000000 < 996000000 + 2 ^ 32 := by decide +kernel
/-- Feeders' intervals up to 999 are done, for the save and the snapshot. -/
def filled : State := { live with
  tb := { live.tb with cuts := [(1000, 1000000000)] }
  meter := { live.meter with begun := some 1000, next := (rangeFrom 0 8).map (fun f => (f, 1000)), snap := { st := .filling, t := 1000 }, pulse := [(1, { pend := 1 })], saveFill := some 1000 } }
theorem witness_PulsesSnapshotsAndSaves : (0 < (filled.pulse 1).pend ∧ (filled.pulse 1).conducting = false ∧ (filled.pulse 1).gapEnd ≤ (filled.tick {}).now ∧
      filled.pow.pulseHiZ = false ∧ filled.runs .d = true ∧ filled.meter.closed = none ∧ filled.pow.supplyFail = false ∧ filled.pow.cmdShutdown = false) ∧
    (({ filled with meter := { filled.meter with pulse := [(0, { conducting := true, width := 100 })] } } : State).pulse 0).conducting = true ∧
    ({ conducting := true, width := 100, began := 600000 } : Pulse).over (filled.tick {}).now = true ∧ ({ conducting := true, width := 100, began := 600000 } : Pulse).over 700000 = false ∧
    (filled.meter.snap.st = .filling ∧ (∀ f, f < 8 → filled.ivlsDone f filled.meter.snap.t = true) ∧ (∀ a ∈ filled.acts, a.what ≠ .meterSnap)) ∧
    (filled.meter.saveFill = some 1000 ∧ filled.meter.saving = none ∧ (∀ f, f < 8 → filled.ivlsDone f 1000 = true)) ∧
    (({ filled with accord := { filled.accord with attr := (rangeFrom 0 8).map (fun f => (f, 1000)) } } : State).attribDone 1000 = true) := by decide +kernel
theorem witness_PulsesSnapshotsAndSaves_again : (let s : State := { filled with acts := [⟨1010, 2, 0, 1, 1, 0x0707, .meterSnap⟩] }
     s.acts.find? (fun a => decide (a.what = ActWhat.meterSnap)) = some ⟨1010, 2, 0, 1, 1, 0x0707, .meterSnap⟩) ∧
    (State.taken live req ses).cfgFull (.meterGlobal 230000 230000 15 24) = false := by decide +kernel
theorem witness_PulsesSnapshotsAndSaves_part : (let s : State := { filled with meter := { filled.meter with saving := some (1, 1000) } }
     s.meter.saveFill = some 1000 ∧ s.meter.saving = some (1, 1000) ∧ s.meter.closed = none ∧ s.runs .d = true ∧ (s.slotOf 1).markF = false) := by decide +kernel
/-- The four steps of a calibration at their boundaries, in half-cycles after the first one. -/
def calSteps : List (Nat × Nat) := [(0, 0), (1, 8), (2, 72), (3, 80)]
def calib (n : Nat) : State := { live with
  tb := { live.tb with cuts := calSteps.map (fun e => (920 + e.2, 1000000000)) }
  meter := { live.meter with calib := some ⟨3, 3, 30, 920, n, 0, false⟩ } }
/-- A spare whose dwell on its input has ended, in whose records the input measures 1 A where the spare measures none. -/
def dwelled : State := { live with
  tb := { live.tb with cuts := [(1000, 1000000000)] }
  meter := { live.meter with begun := some 900, dwellAt := [(31, 936)], records := (rangeFrom 0 8).map (fun f => (f, (rangeFrom 940 9).map (fun k => recWord k 0 4000000 0 ⟨0, 0, 0, 1000000, 1000000⟩ ⟨0, 0, 0, 1000000, 1000000⟩ ⟨0, 0, 0, 1000000, 1000000⟩))) } }
def noSpare : State := { live with meter := { live.meter with conv := [(30, some ⟨.excluded, 63⟩), (31, some ⟨.excluded, 63⟩)] } }
theorem witness_ConvertersRotateCalibrateAndFail : (live.runs .d = true ∧ live.meter.calib = none ∧ (live.conv 29).role = .measure ∧
      ((live.tick {}).convExclude 29).substituteFor 29 ≠ none) ∧ ((noSpare.tick {}).convExclude 29).substituteFor 29 = none ∧
    (live.conv 31).role = .spare ∧ (noSpare.conv 31).role = .excluded ∧ (live.convOn .measure 29).isSome = true ∧
    (∀ e ∈ calSteps, ((calib e.1).meter.calib.map (fun k => (k.step, k.b, k.retire))) = some (e.1, 920, false) ∧
      ((calib e.1).tick {}).atBoundary 3 (920 + e.2) = true) ∧ (∀ e ∈ calSteps, ((calib 0).tick { cclk := 1 }).atBoundary 3 (920 + e.2) = false) ∧
    ((dwelled.conv 31).role = .spare ∧ dwelled.meter.begun.isSome = true ∧ (dwelled.tick {}).dwelt 31 = true ∧
      (dwelled.tick {}).differing 31 (List.replicate 64 0) = 9 ∧ (dwelled.tick {}).differing 31 [] = 0 ∧
      (((dwelled.tick {}).setConv 31 .spare (((dwelled.conv 31).input + 1) % 30)).convOn .measure (dwelled.conv 31).input).isSome = true) ∧
    (let s : State := { dwelled with meter := { dwelled.meter with begun := some 937 } }; (s.tick {}).dwelt 31 = false) ∧
    (let s : State := { live with now := 10 ^ 15 }; tget 0 s.meter.calAt 29 + s.meter.cfg.calInt * 3600 * secC ≤ (s.tick {}).now) ∧
    (live.meter.calDue = [] ∧ 2 ≤ (live.convsIn .spare).length) ∧ (calib 0).meter.calib.isSome = true ∧ Served (calib 0) req ses .configure := by decide +kernel
/-- Converters that fail while one of them is calibrated: the calibrated one, its spare, and another where no spare is left. -/
theorem witness_ConvertersRotateCalibrateAndFail_calibrating :
    ((live.conv 3).role = .measure ∧ ((calib 0).tick {}).substituteFor 3 ≠ none ∧ ((calib 0).meter.calib.map (fun k => (k.conv, k.spare))) = some (3, 30)) ∧
    ((calib 0).conv 30).role = .spare ∧
    (let s : State := { calib 2 with meter := { (calib 2).meter with conv := [(3, some ⟨.cal, 63⟩), (30, some ⟨.measure, 3⟩), (31, some ⟨.excluded, 63⟩)] } }
     (s.conv 3).role = .cal ∧ (s.conv 5).role = .measure ∧ ((s.tick {}).convExclude 5).substituteFor 5 = none ∧ s.meter.calib.isSome = true) ∧
    ((let s : State := { calib 1 with meter := { (calib 1).meter with calib := some ⟨3, 3, 30, 920, 1, 0, true⟩ } }
      (s.meter.calib.map (fun k => k.retire)) = some true)) := by decide +kernel
def snapped : State := { live with accord := { live.accord with snap := { st := .ready, t := 900 } } }
theorem witness_AccordCommandsTakeEffect : (∀ n ∈ [Priv.configure, .read], Served live req ses n) ∧ live.tb.hcn + 4 ≤ 1004 ∧ (State.taken live req ses).actsFull = false ∧
    live.accord.snap.st ≠ .filling ∧ [(0 : BitVec 64)] ≠ [] ∧ 16383 + 1 ≤ 16384 ∧ Served snapped req ses .read ∧ snapped.accord.snap.st = .ready := by decide +kernel
def unattr : State := { live with
  meter := { live.meter with begun := some 999, records := [(7, [meterRec])] }
  accord := { live.accord with attr := [(7, 999)] }
  jnc := { live.jnc with snapHcn := some 1000, snapDue := true }
  nv := { live.nv with modelsDirty := true } }
theorem witness_AttributionSplitsMeasuredEnergy : unattr.runs .d = true ∧ unattr.attribNext 7 = some meterRec ∧ twf 0 unattr.accord.phases = true ∧
    (unattr.jnc.snapHcn = some 1000 ∧ unattr.jnc.snapDue = true ∧ twf absent unattr.jnc.snap = true ∧ twf absent unattr.accord.ring = true) ∧
    unattr.nv.modelsDirty = true := by decide +kernel
def asked : State := { regd with blot := { regd.blot with
  reqs := [{ id := 5, addr := 2049, ses := 1, deadline := 1000, delta := 0, prio := 2 }, { id := 6, addr := 2050, ses := 1, deadline := 2000, delta := 0, prio := 2, start := some 1024 }]
  bcCfg := 0x03028144, brCfg := 0x0005000F, status := [(2049, 0x44#32)], results := [9#256]
  probes := [{ req := 6, addr := 2049, code := 2, delta := 100, base := 0, start := 900, attempt := 1, judged := some ⟨0, 0, 0, 0, 0⟩ }] } }
theorem witness_BlotterCommandsAndTimers : (∀ n ∈ [Priv.operate, .configure, .read], Served asked req ses n) ∧ (10 ≤ 10000 ∧ 10000 % 10 = 0) ∧
    (State.taken asked req ses).joinedAt 2049 = true ∧ asked.tb.hcn + 64 ≤ 1064 ∧
    ((asked.blot.reqs.find? (fun y => y.id == 5)).map (fun q => q.start)) = some none ∧
    ((asked.blot.reqs.find? (fun y => y.id == 6)).map (fun q => q.start)) = some (some 1024) ∧ (∀ y ∈ asked.blot.reqs, y.id ≠ 7) ∧
    (let b : Blotter := { bcCfg := 0x03028144, brCfg := 0x0005000F }
     1 ≤ b.sweepInt ∧ b.sweepInt ≤ 720 ∧ 1 ≤ b.delta ∧ b.delta ≤ 1000 ∧ 1 ≤ b.rate ∧ 5 ≤ b.nmK ∧ b.nmK ≤ 16 ∧ 5 ≤ b.devPct ∧ b.devPct ≤ 50) ∧
    asked.blot.results = 9#256 :: [] ∧ asked.runs .c = true ∧
    (asked.blot.reqs.find? (fun y => y.id == 5 && y.start.isNone && decide (y.deadline ≤ asked.tb.hcn))).isSome = true := by decide +kernel
def swept : State := { asked with blot := { asked.blot with bcCfg := 0x83028145, status := [(2049, 720#32)] } }
theorem witness_BlotterCommandsAndTimers_timers : swept.blot.auto = true ∧ (swept.tick {}).joinedAt 2049 = true ∧ swept.blot.sweepInt ≤ fld (swept.bstat 2049) 0 16 ∧ tget none swept.blot.sweptAt 2049 = none ∧
    ((asked.blot.probes.find? (fun y => y.addr == 2049 && y.judged.isSome)).map (fun p => p.start)) = some 900 := by decide +kernel
def window : List Corr := (rangeFrom 0 16).map (fun i => ⟨1007 - i, 0, false⟩)
def correl : State := { live with blot := { live.blot with corr := [(23, window)] } }
theorem witness_WindowsAreCorrelatedOnce : correl.runs .d = true ∧ tget [] correl.blot.corr 23 = window ∧ window.length = 16 ∧
    (∀ i, i < 16 → (window[i]?).map (fun e => (e.hcn + i, e.flag)) = some (1007, false)) ∧ 1007 % 16 = 15 ∧ (correl.win 23).r = [] ∧
    (∀ p ∈ correl.blot.probes, p.start ≠ 1007 - 15) ∧ (∀ p ∈ correl.blot.plan, p.1 ≠ 1007 - 15) := by decide +kernel
def ready : State := { live with sign := { live.sign with backReady := true, run := true } }
theorem witness_SignCommandsTakeEffect : (∀ n ∈ [Priv.configure, .operate, .read], Served ready req ses n) ∧ ready.sign.swapPend = false ∧
    ready.sign.backReady = true ∧ 1023 + 1 ≤ 1024 ∧ (ready.port 3).fault = false ∧ ready.tb.hcn + 4 ≤ 1004 ∧ ready.acts = [] ∧
    (let c : SignCfg := { scan := setFld 0x18030308#32 18 1 0 }; c.syncSrc ≠ 3 ∧ 1 ≤ c.ncol ∧ c.ncol ≤ 50 ∧ 4 ≤ c.blank ∧ c.blank ≤ 64) ∧ 49 + 1 ≤ 50 ∧
    ready.sign.spares.contains 49 = true ∧
    (let s : State := { ready with sign := { ready.sign with cfg := {} } }; 0 < s.sign.cfg.ncol) := by decide +kernel
def scan0 : State := { ready with
  sign := { ready.sign with cfg := { scan := 0x18F30308#32 }, edgeDue := true, inFrame := true, row := 15, swapPend := true, syncAt := some 3000000000 },
  tb := { ready.tb with lastEdge := 1000000000 } }
def scan1 : State := { ready with sign := { ready.sign with cfg := { scan := setFld 0x18F30308#32 30 2 1 } } }
theorem witness_MatrixIsScannedAndMeasured : scan0.runs .m = true ∧ scan0.sign.run = true ∧ scan0.sign.cfg.syncSrc = 0 ∧ scan0.sign.edgeDue = true ∧
    (({ scan0 with sign := { scan0.sign with row := 0 } } : State).tick {}).swapDue = true ∧ live.sign.backReady = false ∧ twf 0 live.sign.pix = true ∧
    (scan0.sign.inFrame = true ∧ scan0.sign.row ≠ 0 ∧ scan0.sign.failed = [] ∧ scan0.pow.signHiZ = false ∧
      (scan0.tick {}).atThird scan0.sign.slotDue = true) ∧ (scan0.tick {}).now ≤ scan0.tb.lastEdge + 25 ∧ scan1.sign.cfg.syncSrc = 1 ∧
    (scan1.sign.syncLost = false ∧ scan1.sign.lastEdge = none ∧ scan1.sign.startAt + 40 * msC ≤ scan1.now) ∧
    (scan0.sign.cells.find? (fun e => e.2 == 47) = some (47, 47) ∧ scan0.sign.failed.any (fun e => e.2 == 47) = false) := by decide +kernel
def lit : State := { ready with sign := { ready.sign with
  cfg := { scan := 0x18F30308#32, gcur := 255, pop := [(3, 0x3FFFFFFFFFFFF#50)] }, pix := [(192, 255)], row := 4, inFrame := true, slot := some (3, 2999000000, 3000000000) } }
def testing (b : Bool) : State := { ready with sign := { ready.sign with syncAt := some 0, periodNo := 256, tests := [⟨49, 0, b⟩] } }
theorem witness_MatrixIsScannedAndMeasured_self : (let s : State := { scan0 with sign := { scan0.sign with edgeDue := false, freeRun := true } }
     (s.tick {}).edgeHere = false ∧ s.sign.freeRun = true ∧ (s.tick {}).selfDue ((s.tick {}).nominal3) = none) ∧
    (let s : State := { scan0 with sign := { scan0.sign with edgeDue := false, freeRun := true, syncAt := none } }; ((s.tick {}).selfDue ((s.tick {}).nominal3)).isSome = true) ∧
    (let s : State := { scan1 with sign := { scan1.sign with syncLost := true, syncAt := none } }; s.sign.cfg.syncSrc = 1 ∧ ((s.tick {}).selfDue (3 * 8000000)).isSome = true) ∧
    (let g : Sign := { lit.sign with frameNo := 256, cfg := { lit.sign.cfg with scan := 0x58F30308#32 ||| 0x2000000#32 } }
     g.windowFits = decide (g.cfg.driveAt + 192 ≤ g.slotLen)) := by decide +kernel
theorem witness_MatrixIsScannedAndMeasured_leds : (testing true).sign.tests.find? (fun e => e.cell == 49) = some ⟨49, 0, true⟩ ∧
    (testing false).sign.tests.find? (fun e => e.cell == 49) = some ⟨49, 0, false⟩ ∧ ((testing true).tick {}).inGuard = true ∧
    (testing true).sign.tests.find? (fun e => e.cell == 48) = none ∧ (testing true).sign.spareDue 48 = true ∧
    lit.sign.slot = some (3, 2999000000, 3000000000) ∧ (lit.tick {}).atThird (lit.sign.measureAt false 2999000000 3000000000) = true ∧
    lit.sign.measurable 3 0 = true ∧ (let s : State := { lit with now := 999999999 }
      s.sign.cells.find? (fun e => e.2 == 0) = some (0, 0) ∧ s.sign.failed.any (fun e => e.2 == 0) = false ∧ twoMa ≤ (s.tick {}).cellSetting 0) := by decide +kernel
def tx0 : SbusTx := { daddr := 1, cmd := 2, pay := [0, 0, 5], attempt := 1 }
def bused : State := { ready with sbus := [(0, { seq := 9, queue := [tx0], syncHcn := some 1000, pollHcn := some 1000 }), (3, { cur := some (tx0, 9), syncHcn := some 1000 })] }
theorem witness_SignBusTransactionsComplete : (live.runs .m = true ∧ (let s : State := { live with now := 8000, tb := { live.tb with lastEdge := 0 } }; (s.tick {}).syncTime = true ∧ s.runs .m = true ∧ (∀ p, p < 4 → s.syncDue p = true)) ∧ live.pow.signHiZ = false ∧ twf {} live.sbus = true ∧
      (∀ p, p < 4 → live.syncDue p = true)) ∧
    (let s : State := { bused with tb := { bused.tb with lastEdge := 1000000000 } }
     s.pow.signHiZ = false ∧ (s.port 0).idleAt (s.tick {}).now = true ∧ (s.port 0).syncHcn = some s.tb.hcn ∧ ((s.nextTx 0).map (fun r => r.1)) = some tx0 ∧
      (s.tick {}).now + tx0.worst + 10 * us10C ≤ s.tb.lastEdge + s.tb.period) ∧
    ((bused.port 3).cur = some (tx0, 9) ∧ (bused.port 3).fault = false ∧ twf {} bused.sbus = true ∧ (let s : State := { bused with now := 90000 }; (s.port 3).mayEnd (s.tick {}).now (7 + 0) = true ∧ (s.port 3).lineEnd + 60000 ≤ (s.tick {}).now)) ∧
    (let s : State := { ready with now := 0, sbus := [(3, { txOk := true, lineEnd := 44000 })] }; (s.port 3).txOk = true ∧ twf {} s.sbus = true ∧ (s.tick {}).now < (s.port 3).lineEnd ∧ (s.port 3).cur = none) := by decide +kernel
def slot34 : Tbl KeyCell := [(0, { attr := 0x4000000000020008 }), (3, { attr := 0x400000000002800B }), (4, { attr := 0x400000000002830B })]
def keyed : State := { live with
  nv := live.nv.setSlots slot34
  keys := { live.keys with twins := [(16, some ⟨0x14008, 77, 5, 0⟩)] } }
/-- A twin of a TREE key under the site key. -/
def treed : State := { keyed with keys := { keyed.keys with twins := [(16, some ⟨0x18301, 77, 5, 0⟩)] } }
theorem witness_KeyWritesTakeEffect_tree : treed.tooDeep 16 3 = false ∧ (treed.slot 3).st ≠ 0 ∧ treed.hasChildren 16 = false ∧
    treed.parentUsageBad 0x18301 = false := by decide +kernel
def sealedS : State := { keyed with nv := { keyed.nv with seals := 1 } }
/-- An operator key, the number of 64 bytes and its two halves as KEY OPERATOR_SET carries them, and its signature under the private key 1. -/
def opSig : Nat := ecdsaSign 1 (ofBe (sha256 (pubBytes (pubPoint 1) ++ leBytes 16 State.reset.nv.serial))) 1
theorem witness_KeyWritesTakeEffect_operator : (keyed.slot 2).st ≠ 1 ∧ sigOf (sigR opSig) (sigS opSig) = opSig ∧
    ecdsaOk (pubPoint 1) (ofBe (sha256 (pubBytes (pubPoint 1) ++ leBytes 16 keyed.nv.serial))) opSig = true := by decide +kernel
theorem witness_KeyWritesTakeEffect_wrapped :
    unwrapKey ((State.taken keyed req ses).kxOf 1) 1 (wkeyOf ses.kx (leBytes 32 0xABC)).1 (wkeyOf ses.kx (leBytes 32 0xABC)).2 = some 0xABC ∧
    unwrapKey ((State.taken keyed req ses).kxOf 1) 1 (wkeyOf ses.kx (leBytes 32 (2 ^ 128))).1 (wkeyOf ses.kx (leBytes 32 (2 ^ 128))).2 = none := by decide +kernel
theorem witness_KeyWritesTakeEffect : Served keyed req ses .keys ∧ keyed.nv.lcs ≠ 3 ∧ keyed.keys.rootOk = true ∧ (State.taken keyed req ses).sealed = false ∧
    (let t := State.taken keyed req ses
     (t.attrBad 63 0x14008 = false ∧ usageBad (fld 0x14008#64 16 4) (fld 0x14008#64 0 6) = false ∧ t.parentOrphaned 0x14008 = false) ∧
     (t.attrBad 4 0x2830B = false ∧ usageBad (fld 0x2830B#64 16 4) (fld 0x2830B#64 0 6) = false ∧ t.parentOrphaned 0x2830B = false) ∧
     (t.attrBad 15 0x18408 = false ∧ usageBad (fld 0x18408#64 16 4) (fld 0x18408#64 0 6) = false ∧ (t.slot 15).st ≠ 1)) ∧
    tget none keyed.keys.twins 16 = some ⟨0x14008, 77, 5, 0⟩ ∧ Served sealedS req ses .keys ∧ (State.taken sealedS req ses).sealed = true ∧
    bit sealedS.nv.seals 0 = true ∧ sealedS.bk.inA = false := by decide +kernel
theorem witness_KeyWritesTakeEffect_derive : (State.taken keyed req ses).parentUsageBad 0x14008 = false ∧
    (State.taken keyed req ses).parentUsageBad 0x2830B = false ∧ (State.taken keyed req ses).attrBad 0 0 = true := by decide +kernel
def fed : State := { keyed with nv := keyed.nv.setSlots (slot34 ++ [(15, { attr := 0x4000000000018408 })]) }
theorem witness_KeysAreInvalidatedAndRolledOver : Served fed req ses .keys ∧ (State.taken fed req ses).sealed = false ∧ (fed.slot 3).st ≠ 0 ∧
    (State.taken fed req ses).rolloverBelow 3 = false ∧ twf {} fed.nv.slots = true ∧ fed.descendants 3 ≠ [] ∧ (fed.slot (7 + 8)).st = 1 ∧
    twf 0 fed.keys.plain = true ∧ (fed.slot 20).st = 0 ∧ (fed.slot 0).st ≠ 0 ∧ (fed.slot (6 + 8)).st ≠ 1 ∧ tget none fed.nv.rolls 7 = none ∧ (fed.slot 15).gen ≠ 0xFFFF ∧ fed.tb.hcn + 65536 ≤ 66536 ∧
    (State.taken fed req ses).parentOrphaned (fed.slot 15).attr = false := by decide +kernel
def locked8 : State := { live with
  rtc := { live.rtc with lockout := true }
  bk := { live.bk with log := List.replicate 8 ⟨true, false, true, 0, 0⟩ } }
theorem witness_TamperAndKeyReads : live.bk.inA = false ∧ live.bk.inB = false ∧ (locked8.rtc.lockout = true ∧ 8 ≤ locked8.bk.log.length) ∧
    (State.reset.runs .m = false ∧ State.reset.bk.log.length < 8) ∧ (live.rtc.lockout = false ∧ live.runs .m = true ∧ 4 ≤ live.pow.phase.rank) ∧
    (tget none keyed.keys.twins 16).isSome = true ∧ 0 + 600 * secC ≤ (keyed.tick { cclk := 239000000000 }).now ∧ Served live req ses .read := by decide +kernel
theorem witness_TamperLogHoldsEightEntries : locked8.bk.inB = false ∧ locked8.rtc.lockout = true ∧ 8 ≤ locked8.bk.log.length ∧ locked8.rtc.isolated = false ∧
    locked8.bk.onVbat = false ∧ locked8.runs .m = true ∧ (locked8.bk.log.drop 1).length < 8 ∧ locked8.bk.log.length ≤ 8 := by decide +kernel
def comps : List Comp := (rangeFrom 1 5).map (fun t => ⟨t, 0, 1, List.replicate 6 (0, 0), t, 0⟩)
def hdr1 : PkgHeader := ⟨true, 196 + 56 * 5, 5, true, 1, 0, 0, 9, 2000, 0, factoryDir⟩
def stage (g : Stage) (f : Decant → Decant) : State := { live with nv := { live.nv with upd := f { live.nv.upd with stage := g, hdr := some hdr1, nblk := 2 } } }
theorem witness_UpdateRunsThroughItsStages : (∀ n ∈ [Priv.update, .read], Served live req ses n) ∧
    (live.nv.upd.stage = .idle ∧ live.nv.upd.hdr = none ∧ hdrBad hdr1 = false ∧ hdr1.productOk = true ∧
      hdr1.baseHash = (live.nv.upd.bank live.nv.upd.active).bankHash ∧ (live.nv.upd.bank live.nv.upd.active).version < hdr1.version ∧
      live.nv.upd.secVer ≤ hdr1.secVer) ∧
    (stage .trial id).nv.upd.stage = .trial := by decide +kernel
def recv : State := stage .receiving (fun u => { u with bitmap := [0] })
theorem witness_UpdateRunsThroughItsStages_block : Served recv req ses .update ∧ recv.nv.upd.eraseDue = false ∧ 1024 % 1024 = 0 ∧ 1024 < hdr1.pkgLen ∧
    min 1024 (hdr1.pkgLen - 1024) = 976 ∧ 1024 / 1024 ∉ recv.nv.upd.bitmap ∧ recv.nv.upd.bitmap.length + 1 = recv.nv.upd.nblk ∧
    0 + 1 < recv.nv.upd.nblk := by decide +kernel
/-- A payload of one DATA record, which builds a D image of the byte ABh; the other components are empty. -/
def hdr2 : PkgHeader := { hdr1 with
  pkgLen := 6
  payloadHash := 35305689004210225323962933930410100214345013767306298497853140651675165465227,
  dir := factoryDir.map (fun c => { c with
    length := if c.type = 2 then 1 else 0
    chash := if c.type = 2 then 22262759030601657556628424597563473405897024798199005879357606828516753571080 else 38772261170797515502142737251560910253885555854579348417967781179871348437219 }) }
def armable (g : Stage) : State := { stage g (fun u => { u with hdr := some hdr2, nblk := 1 }) with
  mem := live.mem.put (bankBase true + 0x3000000) [2, 1, 0, 0, 0, 0xAB] }
theorem witness_UpdateRunsThroughItsStages_activate : Served (armable .ready) req ses .update ∧ (armable .ready).tb.hcn + 14760 ≤ 15760 ∧
    (State.taken (armable .ready) req ses).payloadOk = true ∧
    switchOrder 5 (armable .ready).nv.upd.running ((State.taken (armable .ready) req ses).changed hdr2) = .inl [5, 4, 2, 1, 3] ∧
    (State.taken (armable .ready) req ses).excludedBy hdr2 = 0 := by decide +kernel
theorem witness_UpdateRunsThroughItsStages_rebuilt : ((armable .verifying).tick {}).payloadOk = true ∧
    ((armable .reconstructing).tick {}).rebuilt hdr2 = some [[], [0xAB], [], [], []] ∧ hdrBuilt hdr2 < 4194304 ∧
    ((armable .reconstructing).tick {}).rebuilt { hdr2 with pkgLen := 5 } = none := by decide +kernel
def imaged : State := { live with nv := { live.nv with upd := { live.nv.upd with setA := { live.nv.upd.setA with
  dir := factoryDir ++ [⟨0x10, 0, 1, List.replicate 6 (0, 0), 6, 1⟩] } } } }
theorem witness_UpdateRunsThroughItsStages_images : ((State.taken imaged req ses).imgComp 0).isSome = true ∧
    (State.taken imaged req ses).protoRange.1 ≤ 1 ∧ 1 ≤ (State.taken imaged req ses).protoRange.2 := by decide +kernel
theorem witness_UpdateRunsThroughItsStages_events : (stage .idle (fun u => { u with eraseDue := true })).nv.upd.eraseDue = true ∧
    hdrBuilt hdr1 < 4194304 ∧ (stage .reconstructing id).nv.upd.failedOnce = false ∧
    (stage .trial (fun u => { u with trialMin := 29 })).nv.upd.trialMin = 29 ∧ 0 + 60 * secC ≤ ((stage .trial id).tick { cclk := 24000000000 }).now ∧
    (let s : State := { stage .switching (fun u => { u with order := [1, 3], pos := 1, runBy := some 5 }) with
       jnc := { live.jnc with regions := { live.jnc.regions with c := { st := .load } } } }
     5 ≤ (s.tick {}).now ∧ typeOf .c ∈ s.nv.upd.order.take s.nv.upd.pos ∧ s.runs .c = false) ∧
    (let s : State := { live with fdr := [(7, { dist := [⟨0, 1, 0, 1, true, 0⟩] })] }; ((s.tick {}).feeder 7).dist = [⟨0, 1, 0, 1, true, 0⟩]) := by decide +kernel
theorem witness_LogCommandsTakeEffect : (∀ n ∈ [Priv.configure, .read, .clear], Served live req ses n) ∧ live.ev.clearing = false ∧ codeRated 0x0700 = true := by
  decide +kernel
def evt0 : EvEntry := live.entry 0x0005 0 [] false
def writing : State := { live with ev := { live.ev with paused := false, qM := [evt0], clearing := true, buckets := [(0x0700, { tokens := 0 })] } }
theorem witness_EventsAreQueuedWrittenAndCleared : live.runs .m = true ∧ codeRated 0x0001 = false ∧ (live.ev.q .m).length < Queue.cap .m ∧
    (let s : State := { live with ev := { live.ev with qM := List.replicate 32 evt0 } }; Queue.cap .m ≤ (s.ev.q .m).length) ∧
    (tget {} writing.ev.buckets 0x0700).tokens = 0 ∧ (blockRegion 0x01 = 3 ∧ 1 ≤ live.pow.phase.rank) ∧
    (writing.ev.paused = false ∧ writing.ev.nextQ = some .m ∧ writing.ev.q .m = evt0 :: [] ∧ writing.nv.permStarted = false ∧ startsPerm evt0 = false) ∧
    (tget {} writing.ev.buckets 0x0700).tokens < 8 ∧ writing.ev.dropTotal + 1 ≠ 0xFFFFFFFF ∧
    (tget {} writing.ev.buckets 0x0700).since + tget 10 writing.nv.refill 0x0700 * (secC / 10) ≤ (writing.tick { cclk := 400000000 }).now ∧ writing.ev.clearing = true ∧ writing.ev.permNext < 8192 := by decide +kernel
theorem witness_MemReadsWhatMemWrote : (∀ n ∈ [Priv.mem, .read], Served live req ses n) ∧ 1024 % 16 = 0 ∧
    (∀ i, i < 16 → isRam (0x5FFFF0 + i) = true ∧ (State.taken live req ses).answers (0x5FFFF0 + i) = true ∧
      (State.taken live req ses).isPoisoned (0x5FFFF0 + i) = false) ∧
    (List.replicate 16 255).length = 16 ∧ (∀ b ∈ List.replicate 16 255, b < 256) ∧ 0x0 % 16 = 0 ∧ isRam 0x0 = true ∧
    (State.taken live req ses).answers 0x0 = true ∧ (∀ i, i < 16 → (viewAt (0x0 + i)).isNone = true) ∧ live.mem.wf = true := by decide +kernel
def chans (st : DmaState) : State := { live with jnc := { live.jnc with dma := { live.jnc.dma with c := { ch := [(15, { st := st }), (19, { st := st })] } } } }
theorem witness_RegistersAndDmaAct : isReg 0x403CFFFC = true ∧ 0x403CFFFC % 4 = 0 ∧ (live.tick {}).answers 0x403CFFFC = true ∧ live.runs .c = true ∧
    twf {} live.fdr = true ∧ (live.chan .c 19).st = .idle ∧ ((chans .wait).chan .c 15).st = .wait ∧ ((chans .active).chan .c 19).st = .active ∧
    ((chans .stopping).chan .c 19).st = .stopping ∧ (chans .wait).runs .c = true ∧ ((chans .active).tick {}).ctxTurn .c 19 = true ∧
    (live.mac 129).visitAt + scrubC ≤ (live.tick { cclk := 2109375000 }).now ∧
    ((live.mac 129).ptr + 1 < 8192 ∧ (live.tick {}).isPoisoned (macroBase 129 + 16 * (live.mac 129).ptr) = false) ∧ live.nv.mramUsed < 32 ∧
    (let s : State := { live with nvmc := { corr := [524287] } }
     s.runs .m = true ∧ s.nvmc.passAt + 86400 * secC ≤ (s.tick { cclk := 34560000000000 }).now ∧ 524287 ∈ s.nvmc.corr) ∧
    ((0 : BitVec 32) &&& ~~~0) ||| 1 ≠ 0 ∧ ((1 : BitVec 32) &&& ~~~1) ||| 0 = 0 := by decide +kernel
def excl : State := { live with
  jnc := { live.jnc with voters := { live.jnc.voters with m := { excluded := 1, members := 0xE, spare := none } } }
  nv := { live.nv with thresh := [(4, 5)], wear := [(4 * 64 + 49, 5)] }
  sign := { live.sign with excl := 0x2000000000000 } }
theorem witness_TestCommandsTakeEffect : (∀ n ∈ [Priv.test, .configure, .read], Served live req ses n) ∧ 49 < unitCount 4 ∧ 11 < unitCount 0 ∧
    (State.taken live req ses).unitServes 1 8 = false ∧ ((State.taken excl req ses).unitExcluded 0 8 = true ∧ (State.taken excl req ses).worn 0 8 = false) ∧
    (State.taken excl req ses).unitExcluded 4 49 = true ∧ ((State.taken live req ses).unitServes 0 0 = true ∧ (State.taken live req ses).retireReady 0 0 = true) ∧
    (∀ n, n < 3 → (State.taken live req ses).runs (regionFor n) = true) := by decide +kernel
theorem witness_TestCommandsTakeEffect_worn : (State.taken excl req ses).worn 4 49 = true := by decide +kernel
def duplex : State := { live with jnc := { live.jnc with voters := { live.jnc.voters with c := { mode := .duplex, members := 6, excluded := 1 } } } }
def downC : State := { live with jnc := { live.jnc with regions := { live.jnc.regions with c := { st := .load } } } }
theorem witness_CoresAndRegionsFailSafely : (live.runs .c = true ∧ ((live.tick {}).jnc.voters.get .c).mode = .triple ∧
      bit ((live.tick {}).jnc.voters.get .c).members 2 = true) ∧ live.nv.upd.stage = .idle ∧
    (duplex.runs .c = true ∧ ((duplex.tick {}).jnc.voters.get .c).mode ≠ .triple) ∧ (downC.jnc.regions.get .c).st ≠ .run ∧
    (downC.jnc.regions.get .c).at_ + wipeC .c ≤ (downC.tick { cclk := 120000000 }).now ∧ live.pow.phase ≠ .reset ∧
    (6 ≤ live.pow.phase.rank ∧ live.runs .d = true ∧ live.meter.ageAt + 60 * secC ≤ (live.tick { cclk := 24000000000 }).now) := by decide +kernel
def failing : State := { live with now := live.now + 40000000, pow := { live.pow with supplyFail := true } }
def phased (p : Phase) : State := { live with pow := { live.pow with phase := p }, nv := { live.nv with root := some 1 } }
theorem witness_ShutdownAndStartUp : (live.pow.phase ≠ .reset ∧ live.pow.supplyFail = false) ∧ (failing.pow.phase ≠ .reset ∧ failing.pow.supplyFail = true) ∧
    (let s : State := { failing with pow := { failing.pow with vinBack := true, failRecDone := true } }; s.pow.vinBack = true ∧ s.pow.failRecDone = true ∧ s.pow.vinAt + 100 * msC ≤ s.now) ∧
    (failing.pow.vinBack = false ∧ failing.pow.heldTo ≤ failing.now ∧ failing.pow.shedAt + 20 * msC ≤ failing.now) ∧
    (failing.pow.vinBack = false ∧ failing.pow.cmdShutdown = false ∧ failing.pow.failRecDone = false ∧ failing.runs .m = true ∧ failing.meter.closed = none) ∧
    (let s : State := { live with pow := { live.pow with cmdShutdown := true } }; s.pow.supplyFail = false ∧ s.pow.cmdShutdown = true ∧ s.runs .m = true) ∧
    (State.reset.pow.phase = .reset ∧ State.reset.nv.upd.stage = .idle) := by decide +kernel
theorem witness_ShutdownAndStartUp_start : ((phased .bootRom).nv.upd.stage = .idle ∧ (phased .bootRom).nv.root.isSome = true ∧
      ((phased .bootRom).nv.upd.bank false).valid = true ∧ (phased .bootRom).nv.upd.secVer ≤ ((phased .bootRom).nv.upd.bank false).secVer) ∧
    (let u : Decant := { setA := { valid := false }, setB := { valid := true } }; (u.bank u.active).valid = false ∧ (u.bank (!u.active)).valid = true) ∧
    (let u : Decant := { setA := { valid := false } }; (u.bank u.active).valid = false ∧ (u.bank (!u.active)).valid = false) ∧
    (phased .loadM).pow.phase = .loadM ∧ ((phased .mRuns).tick {}).shutting = false ∧ (phased .keysReady).nv.wipeDue = false ∧
    (phased .cdRun).pow.phase = .cdRun ∧
    (let s : State := { live with nv := { live.nv with wipeDue := true } }; s.nv.wipeDue = true ∧ s.runs .m = true) := by decide +kernel
theorem witness_EveryEdgeStampsItsHalfCycle : live.nv.upd.stage = .idle ∧ live.pow.phase = .complete ∧ 1001 < 2 ^ 48 ∧ 31 < 32 ∧ 2025 % 1024 = 1001 := by
  decide +kernel
def tbS (g : TimeBase → TimeBase) : State := { live with tb := g live.tb }
theorem witness_CrossingsAndEdgesDriveTheCount : (6 ≤ live.pow.phase.rank ∧ live.tb.st ≠ .hold) ∧ live.tb.accepts (live.tick {}).now = false ∧
    (let s := tbS (fun v => { v with lastEdge := 996000000 })
     s.tb.accepts (s.tick {}).now = true ∧ s.tb.dueLocked (s.tb.hcn + 1) (s.tick {}).now = true ∧
      s.tb.crossed (s.tb.hcn + 1) (s.tick {}).now true 230000 = true ∧ s.tb.crossed (s.tb.hcn + 1) (s.tick {}).now false 0 = false) ∧
    live.tb.edgeDue (live.tick {}).now = false ∧
    (let s := tbS (fun v => { v with phaseCnt := 3, lastEdge := 999500000 }); s.tb.phaseCnt = 3 ∧ s.tb.hist.length < 7 ∧ rmsOk 0 s.tb.vnomA = false ∧
      s.tb.accepts (s.tick {}).now = true ∧ msC < s.tb.phaseErr (s.tick {}).now) ∧
    (let s := tbS (fun v => { v with st := .hold, relockNext := true }); s.tb.st = .hold ∧ s.tb.relockNext = true ∧ s.tb.accepts (s.tick {}).now = true) ∧
    (live.tb.slewNext = false ∧ rmsOk 230000 live.tb.vnomA = true ∧ live.tb.missCnt = 0) ∧
    (let s := tbS (fun v => { v with st := .qualify, relockNext := true, virtAt := 47000000000, virtPeriod := 1000000000 }); s.tb.st = .qualify ∧ s.tb.relockNext = true ∧ s.tb.dueVirtual (s.tick {}).now = true) ∧
    (let s := tbS (fun v => { v with st := .virtual, virtAt := 47000000000, virtPeriod := 1000000000, lastCross := some 999000000 })
     s.tb.running = true ∧ s.tb.dueVirtual (s.tick {}).now = true ∧ (s.tick {}).now - 999000000 ≤ s.tb.crossLimit) := by decide +kernel
def slewS : State := tbS (fun v => { v with st := .slew, lastEdge := 995880000, target := 997000000, slewed := 3 })
theorem witness_CrossingsAndEdgesDriveTheCount_slew : (slewS.tb.dueSlew (slewS.tick {}).now = true ∧ slewS.tb.crossed (slewS.tb.hcn + 1) (slewS.tick {}).now true 230000 = true ∧
      (slewS.tick {}).now + lockC ≤ slewS.tb.target + slewS.tb.measured) ∧
    (let s := tbS (fun v => { v with st := .slew, lastEdge := 995880000, target := 996000001 })
     s.tb.dueSlew (s.tick {}).now = true ∧ s.tb.crossed (s.tb.hcn + 1) (s.tick {}).now true 230000 = true ∧ s.tb.target + s.tb.measured < (s.tick {}).now + lockC) ∧
    (let s := tbS (fun v => { v with lastEdge := 996000000, slewNext := true, missCnt := 1 })
     s.tb.slewNext = true ∧ 1 ≤ s.tb.missCnt ∧ s.tb.dueLocked (s.tb.hcn + 1) (s.tick {}).now = true ∧ s.tb.crossed (s.tb.hcn + 1) (s.tick {}).now true 230000 = true ∧
      s.tb.crossed (s.tb.hcn + 1) (s.tick {}).now false 0 = false) ∧
    (∀ b, let s := tbS (fun v => { v with st := .outOfProfile, virtAt := 47000000000, virtPeriod := 1000000000, lastCross := some 999000000, lastOk := b })
     s.tb.dueVirtual (s.tick {}).now = true ∧ (s.tick {}).now - 999000000 ≤ s.tb.crossLimit ∧ s.tb.lastOk = b) ∧
    (let s := tbS (fun v => { v with st := .virtual, virtAt := 47000000000, virtPeriod := 1000000000, lastCross := some 5 })
     s.tb.dueVirtual (s.tick {}).now = true ∧ s.tb.crossLimit < (s.tick {}).now - 5) ∧
    (let s := tbS (fun v => { v with lastEdge := 999000000, setB := { v.setB with mapped := true, present := true, bofs := 1000000 } })
     let dist := fun (y : Int) => (((s.tick {}).now : Int) - (y + s.tb.setB.bofs)).natAbs
     dist s.tb.lastEdge ≤ dist (s.tb.lastEdge + s.tb.measured : Nat) ∧ dist s.tb.lastEdge ≤ dist ((cutOf s.tb.cuts (s.tb.hcn - 1)).getD (s.tb.lastEdge - s.tb.measured))) := by
  decide +kernel
theorem witness_CrossingsAndEdgesDriveTheCount_start : (let s : State := phased .lockStep
     s.tb.relockNext = false ∧ s.tb.lockAt + secC ≤ (s.tick {}).now) ∧
    (let s := tbS (fun v => { v with lastEdge := 999000000, period := 4000000, hist := [4000000] })
     s.tb.running = true ∧ s.tb.setB.mapped = false ∧ rmsOk 230000 s.tb.vnomB = true ∧ (s.tick {}).now < s.tb.lastEdge + s.tb.measured) := by decide +kernel
def framed : State := { fed with
  fdr := [(7, { active := true, live := true, frame := 1000, rrNow := 64, refTime := 999600000 })]
  nv := { fed.nv with regs := [⟨0xE2, 0xA2, none, some 14336, true⟩, ⟨0xE1, 0xA1, none, none, true⟩] } }
theorem witness_FramesCarryOneBlock : (let s : State := { framed with tb := { framed.tb with hcn := 1001, cuts := [(1001, 999940000)] } }
     (s.tick {}).linkActive 7 = true ∧ (s.tick {}).frameNow 7 = some 1001) ∧ (framed.tick {}).frameNow 7 = none ∧ (live.tick {}).linkActive 7 = false ∧
    (framed.tick {}).now = ((framed.tick {}).feeder 7).refTime + msC ∧
    (((framed.tick {}).feeder 7).live = true ∧ ((framed.tick {}).feeder 7).block = none ∧ ((framed.tick {}).feeder 7).closed = false ∧
      ((framed.tick {}).feeder 7).damaged = false) := by decide +kernel
def learnt : State := { framed with rx := [(7, { learn := 17 })], wtx := { framed.wtx with suspects := [(3, 2)] } }
theorem witness_StagesAreSubstitutedAndChecked : (((learnt.tick {}).feeder 7).live = true ∧ (learnt.tick {}).inBurst 7 = true ∧ ((learnt.tick {}).rxp 7).learn = 17 ∧
      ((learnt.tick {}).rxp 7).rxFail = false ∧ bit learnt.wtx.muted 7 = false ∧ bit learnt.wtx.extFault 7 = false ∧ 9 ≤ ((learnt.tick {}).feeder 7).sinceSub ∧
      ((learnt.tick {}).feeder 7).block = none ∧ learnt.wtx.of 7 = some 7 ∧ learnt.wtx.spare = some 8 ∧ learnt.wtx.spareValid = true ∧
      tsorted 0 learnt.wtx.assign = true) ∧
    (learnt.wtx.suspects.find? (fun e => e.1 == 3) = some (3, 2) ∧ (learnt.tick {}).loadTurn 3 = true ∧
      (let s : State := { learnt with wtx := { learnt.wtx with checked := some 1000 } }; (s.tick {}).loadTurn 3 = false) ∧ ((learnt.tick {}).feeder 2).heldFail = false) ∧
    (let s : State := { live with wtx := { live.wtx with extFault := 0x80 }, fdr := [(7, { extPass := 256 })] }
     bit s.wtx.extFault 7 = true ∧ 256 ≤ ((s.tick {}).feeder 7).extPass) ∧ (live.pow.phase = .complete ∧ live.runs .c = true ∧ 50 ≤ ((live.tick {}).feeder 0).inactive) := by
  decide +kernel
theorem witness_StagesAreSubstitutedAndChecked_held : (let s : State := { learnt with wtx := { learnt.wtx with spare := none, spareValid := false } }
     s.wtx.spareValid = false ∧ (s.tick {}).sameWindow 7 = none ∧ s.wtx.of 7 = some 7) ∧
    (let s : State := { learnt with fdr := learnt.fdr ++ [(9, {})], wtx := { learnt.wtx with suspects := [(7, 7)] } }
     let u := s.onFeeder 7 (fun y => { y with heldFail := true })
     u.wtx.suspects.find? (fun e => e.1 == 7) = some (7, 7) ∧ ((u.tick {}).feeder 7).heldFail = true ∧ (u.tick {}).loadTurn 7 = true) ∧
    (let s : State := { framed with now := framed.now + 2000000, wtx := { live.wtx with extFault := 0x80 }, rx := [(7, { learn := 17 })],
                                    fdr := [(7, { active := true, live := true, frame := 1000, refTime := 999600000, extPass := 255 })] }
     bit s.wtx.extFault 7 = true ∧ 256 ≤ ((s.tick {}).feeder 7).extPass + b2n ((s.tick {}).echoPassed 7 && (s.tick {}).burstOver 7)) ∧
    (live.wtx.spare.isSome = true ∧ (({ live with wtx := { live.wtx with spare := none } } : State).wtx.spare = none)) := by decide +kernel
def repS (m : Nat) : Rep := { f := 7, slot := m, idx := 0 }
theorem witness_UplinkReportsAndTimers : (framed.tick {}).takes (repS 0) 1 = true ∧ ((framed.tick {}).node 14336).quarantined = false ∧
    ((framed.tick {}).node 14336).quarNext = false ∧ twf {} framed.nodes = true ∧ (framed.tick {}).hears 7 = true ∧ (framed.tick {}).slotExists 1 = true ∧
    ((framed.tick {}).rxp 7).got ≠ some (1000, 1) ∧ (live.tick {}).pathUp 7 = true ∧ (live.tick {}).slotExists 1 = true ∧ ((live.tick {}).feeder 7).live = false ∧
    (let s : State := { framed with fdr := [(7, { active := true, live := true, frame := 1024, rrNow := 64 })] }
     (∀ y ∈ [1, 2, 3, 4, 5, 6], (s.tick {}).takes (repS 1) y = true) ∧ (s.tick {}).pverOk 1 = true) := by decide +kernel
theorem witness_UplinkReportsAndTimers_join : (let s : State := { framed with nv := { framed.nv with regs := [⟨0xE1, 0xA1, none, none, true⟩] } }
     (s.tick {}).hears 7 = true ∧ ((s.tick {}).feeder 7).joins = [] ∧ ((s.tick {}).joinIdx 7 ⟨0xE1, 0xA1, none, none, true⟩).isSome = true) := by decide +kernel
def quiet : State := { framed with
  tb := { framed.tb with hcn := 9000 }
  nodes := [(14336, { quarantined := true, quarFrom := 4904, keySent := 8, keySentAt := 0 })]
  fdr := [(7, { active := true, live := true, frame := 9000, rrNow := 64 })]
  nv := { framed.nv.setRolls [(7, some ⟨20000, 1, 1, 1⟩)] with
    bg := [(7, [⟨5, .leave 0, 8, false, 0, false⟩, ⟨6, .sceneSet 0 1 2, 7, false, 0, false⟩])] } }
theorem witness_UplinkReportsAndTimers_timers : (((quiet.tick {}).node 14336).quarantined = true ∧ ((quiet.tick {}).node 14336).quarFrom + 4096 ≤ quiet.tb.hcn) ∧
    ((quiet.tick {}).joinedAt 14336 = true ∧ 4 ≤ (quiet.tick {}).turns 7 0 ((quiet.tick {}).node 14336).lastRx 9000) ∧
    ((tget none quiet.nv.rolls 7).isSome = true ∧ ((quiet.tick {}).node 14336).keyAcked = false ∧ 1 ≤ ((quiet.tick {}).node 14336).keySent ∧
      ((quiet.tick {}).node 14336).keySent ≤ 8 ∧ 0 ∉ ((quiet.tick {}).feeder 7).keyQ ∧ 2 ≤ (quiet.tick {}).turns 7 0 0 9000) ∧
    (tget [] quiet.nv.bg 7).find? (fun y => y.id == 5) = some ⟨5, .leave 0, 8, false, 0, false⟩ ∧
    (tget [] quiet.nv.bg 7).find? (fun y => y.id == 6) = some ⟨6, .sceneSet 0 1 2, 7, false, 0, false⟩ := by decide +kernel
def lan : State := { live with
  vxc := { live.vxc with netInForce := { ipv4 := 7 } }
  net := { live.net with ports := [(0, { link := true }), (1, { link := true })], nodes := [⟨5, 1000000000, [(4, 1000000000)]⟩] } }
def a0 : Arrival := { port := 0, src := 5, len := 100, trailer := some (10, 3) }
def ptp0 : RxFrame := .eth { eth0 with ptp := true }
def queued (n : Nat) : State := { lan with net := { lan.net with ports :=
  [(0, { link := true, rxFree := 2000000000, ptpQ := List.replicate n (0, .icmp a0), restQ := List.replicate n (0, .icmp a0) })] } }
theorem witness_FramesAreTakenOnceAndAnswered_queues : (∀ n ∈ [0, 63, 64], ∀ fr ∈ [ptp0, RxFrame.icmp a0],
      ((queued n).tick {}).accepts a0 fr.peerDelay = true ∧ ((queued n).tick {}).now < (((queued n).tick {}).eport 0).rxFree ∧
      (if fr.isPtp then (((queued n).tick {}).eport 0).ptpQ else (((queued n).tick {}).eport 0).restQ).length = n) ∧ ptp0.isPtp = true ∧
    (lan.tick {}).accepts { a0 with len := 1528 } false = true ∧ (lan.tick {}).accepts { a0 with len := 1529 } false = false := by decide +kernel
theorem witness_FramesAreTakenOnceAndAnswered : (lan.tick {}).accepts a0 false = true ∧ (lan.tick {}).rxIdle 0 = true ∧ eth0.ptp = false ∧
    a0 = ⟨0, eth0.src, eth0.len, eth0.vid, eth0.trailer⟩ ∧ eth0.trailer = some (10, 3) ∧ 10 = 0xA + 0 ∧ (∃ n ∈ lan.net.nodes, n.src = eth0.src) ∧
    (∀ n ∈ lan.net.nodes, n.src = eth0.src → (lan.tick {}).now < n.used + 60 * secC) ∧ eth0.handled = true ∧
    (lan.tick {}).prpDup 5 3 = false ∧ (lan.tick {}).prpDup 5 4 = true ∧ lan.vxc.netInForce.ipv4 ≠ 0 ∧ ((lan.tick {}).prpTake a0).1 = true ∧
    ((lan.tick {}).prpTake { a0 with trailer := some (10, 4) }).1 = false ∧ lan.net.icmp.1 ≠ (lan.tick {}).now / secC ∧
    (let s : State := { lan with net := { lan.net with icmp := (2, 10) } }; s.net.icmp = ((s.tick {}).now / secC, 10)) ∧ (lan.tick {}).netRuns = true ∧ (lan.tick {}).supDue = true ∧
    (lan.tick {}).linkUp 0 = true ∧ (lan.tick {}).linkUp 1 = true ∧ (lan.tick {}).portOk 0 = true ∧ twf {} lan.net.ports = true ∧ (live.tick {}).netRuns = true ∧
    (live.tick {}).linkUp 1 = false ∧ ((queued 0).tick {}).linkUp 0 = true ∧ ((queued 0).tick {}).linkUp 1 = false ∧
    (let s : State := { lan with net := { lan.net with supAt := some 900000000 } }; (s.tick {}).supDue = false) := by decide +kernel
def mastered (x : PtpSrc) : State := { lan with net := { lan.net with srcs := [(0, x)], src := some 0, ns := 5, sec := 946684800 } }
def src0 : PtpSrc := { master := some (3, 9), qual := true, time := ⟨true, true, 0⟩, sync := some (1, 5, 0, 2000000000, 0), lastSeq := some 1, annInt := 10,
                       req := some (2, 7, 900000000, 0), t2mt1 := some (4, 0) }
theorem witness_NetworkTimeIsKept : (let s := mastered src0
     let t0 := s.tick {}
     let t := t0.rxStart 0 t0.now
     t0.rxIdle 0 = true ∧ t0.portOk 0 = true ∧ t0.sourceOf 0 0 = some 0 ∧ t0.accepts a0 false = true ∧ (t0.ptpSource 0).master.isSome = true ∧
      (t0.ptpSource 0).sync = some (1, 5, 0, 2000000000, t.net.epoch) ∧ t.now ≤ 2000000000 ∧ (t0.ptpSource 0).req = some (2, 7, 900000000, t.net.epoch) ∧
      (t0.ptpSource 0).t2mt1 = some (4, t.net.epoch) ∧ t.now ≤ 900000000 + secC ∧ t.p2p 0 = false ∧ (t0.ptpSource 0).due t0.now 30 = true ∧ t0.accepts a0 true = true) ∧
    ((mastered {}).tick {}).ptpSource 0 = {} ∧ 8 < 9 ∧ 3 ≠ 4 ∧
    (let t := (mastered { src0 with sync := some (1, 5, 0, 5, 0), req := some (2, 7, 5, 1) }).tick {}; (5 : Nat) < t.now ∧ 1 ≠ t.net.epoch) ∧
    (let t := (mastered { src0 with reqAt := some 1000000000, reqInt := 10 }).tick {}; (t.ptpSource 0).due t.now 0 = false) ∧
    (let s : State := { lan with nv := { lan.nv with ptp := { lan.nv.ptp with delayP := 1 } } }; (s.tick {}).p2p 0 = true ∧ (tget {} s.net.peer 0).due (s.tick {}).now = true ∧
      (s.tick {}).sourceOf 0 0 = some 0) ∧
    (let s : State := { lan with net := { lan.net with peer := [(0, { req := some (2, 7, 900000000, 0) })] } }
     (tget {} (s.tick {}).net.peer 0).req = some (2, 7, 900000000, (s.tick {}).net.epoch)) := by decide +kernel
theorem witness_NetworkTimeIsKept_clock : (live.runs .m = true ∧ (-(2 ^ 63) : Int) ≤ -(2 ^ 63) ∧ incrLo ≤ incrHi) ∧
    (let t := (mastered { src0 with annInt := 0 }).tick {}; t.netRuns = true ∧ t.sourceSilent 0 = true ∧ t.net.src = some 0 ∧ t.sourceSilent 1 = false) ∧
    (let t := (mastered src0).tick {}
     t.netRuns = true ∧ t.net.src = some 0 ∧ (t.ptpSource 0).time.ptpScale = true ∧ (t.ptpSource 0).time.utcValid = true ∧ t.net.slewing = false ∧ (mastered src0).rtc.isolated = false ∧
      t.bk.valid = false ∧ t.net.ns < 1000000 ∧ t.civilFromPtp (t.ptpSource 0).time.utcOffset t.net.sec = some (false, 0) ∧ (mastered src0).rtc.lockout = false ∧
      t.bk.crossing = none) ∧
    (let s : State := { lan with net := { lan.net with srcs := [(1, src0)] } }; (s.tick { cclk := 23000000000 }).mayReturn 1 = true ∧ (s.tick { cclk := 23000000000 }).netRuns = true ∧
      (s.tick {}).mayReturn 1 = false) := by decide +kernel
def isolatedS : State := { live with rtc := { live.rtc with isolated := true } }
theorem witness_MemReadsWhatMemWrote_busError : memBad 0x40370000 4 4 = false ∧ (State.taken isolatedS req ses).answers 0x40370000 = false := by decide +kernel
theorem witness_TestCommandsTakeEffect_spare : (State.taken live req ses).unitSpare 0 3 = true ∧ (State.taken live req ses).unitSpare 2 0 = false ∧
    (State.taken live req ses).unitExcluded 2 0 = false ∧ (State.taken live req ses).unitServes 0 3 = false := by decide +kernel
def shutS : State := { failing with rtc := { failing.rtc with lockout := true } }
theorem witness_ShutdownAndStartUp_shut : (shutS.shutting = true ∧ shutS.rtc.lockout = true ∧ shutS.pow.shedAt + 20 * msC ≤ (shutS.tick {}).now) ∧
    (let s : State := { shutS with pow := { shutS.pow with shedAt := shutS.now } }
     s.shutting = true ∧ s.finalSlot = none ∧ s.pow.finalDone = false ∧ (s.tick {}).now < s.pow.shedAt + 20 * msC) ∧
    (shutS.pow.failRecDone = false ∧ shutS.runs .m = true ∧ shutS.meter.closed = none) ∧
    (let s : State := { shutS with meter := { shutS.meter with closed := some 5, saving := some (0, 9) } }
     s.meter.closed ≠ none ∧ (s.tick {}).finalNodePart.finalSlot = none) ∧
    (let s : State := { shutS with meter := { shutS.meter with closed := some 5, saving := some (0, 9) }, nv := { shutS.nv with slot0 := { markF := true } } }
     (s.tick {}).finalNodePart.finalSlot.isSome = true) ∧
    (let s : State := phased .bootRom; let u : State := { s with nv := { s.nv with upd := { s.nv.upd with stage := .trial } } }
     u.pow.phase = .bootRom ∧ u.nv.upd.stage = .trial ∧ !u.nv.upd.active = true) ∧
    (live.runs .c = true ∧ live.nv.upd.stage ≠ .trial ∧ live.nv.upd.stage ≠ .switching) := by decide +kernel
theorem witness_UpdateRunsThroughItsStages_more : (let s : State := stage .receiving (fun u => { u with bitmap := rangeFrom 0 1023, nblk := 1025 })
     s.nv.upd.held + 1 ≠ s.nv.upd.nblk ∧ (s.nv.upd.held + 1) % 1024 = 0 ∧ s.nv.upd.held + 1 < s.nv.upd.nblk) ∧
    (State.taken live req ses).imgComp 0 = none ∧ live.nv.upd.stage ≠ .switching ∧
    (State.taken imaged req ses).actsFull = false ∧ (State.taken imaged req ses).linkFull (feedersOf ((State.taken imaged req ses).members 1)) = false ∧
    (stage .confirming id).nv.upd.stage ≠ .trial ∧ (armable .armed).nv.upd.stage.no ≥ 4 := by decide +kernel
def hdr3 : PkgHeader := { hdr2 with dir := hdr2.dir.map (fun c => if c.type = 1 then { c with ifr := [(9, 9), (9, 9), (0, 0), (9, 9), (0, 0), (9, 9)] } else c) }
theorem witness_UpdateRunsThroughItsStages_order :
    (match switchOrder 5 (armable .ready).nv.upd.running ((State.taken (armable .ready) req ses).changed hdr3) with | .inr _ => true | .inl _ => false) = true := by decide +kernel

/-! ## Worked examples and tables of the spec -/

/-- 02, table "Re-lock sequence": the edge of 1 300 001 is predicted and BRIDGED, that of 1 300 002 is virtual. -/
theorem test_two_missing_half_cycles : after (.hcnEdge {} false 0) (tbS (fun v => { v with hcn := 1300000, lastEdge := 996000000 }))
      (fun t => decide (t.tb.hcn = 1300001 ∧ t.tb.st = .locked ∧ bit t.tb.flags 2 = true)) = true ∧
    after (.hcnEdge {} false 0) (tbS (fun v => { v with hcn := 1300001, missCnt := 1, lastEdge := 996000000 })) (fun t => decide (t.tb.hcn = 1300002 ∧ t.tb.st = .virtual)) = true := by
  decide +kernel
/-- 03 R111: a stage whose echo check fails hands its feeder to the spare stage. -/
theorem test_spare_stage_takes_the_feeder : after (.echoFailure {} 7) learnt (fun t => decide (t.wtx.of 7 = some 8 ∧ t.wtx.spare = none)) = true := by
  decide +kernel
/-- 04, "a rising on a 50 Hz feeder": CACK = 417 mod 31 = 14; GROUP_LEVEL takes 50 bits, and 13 + 50 + 9 × 25 = 288. -/
theorem test_rising_is_acknowledged : after (.presRise { f := 7, slot := 0, idx := 417 } 0 0 true)
      { framed with nv := { framed.nv with regs := [⟨0xE2, 0xA2, none, some 14753, true⟩] } } (fun t => (t.feeder 7).cack == 14) = true := by decide +kernel
theorem test_block_budget : (Item.groupLevel 0 1 2 3).size = 50 ∧ live.blockLen = 288 ∧ 13 + (Item.groupLevel 0 1 2 3).size + 9 * 25 = live.blockLen := by
  decide +kernel
/-- 05, "a car-park ramp": nodes 4.0100-4.0104 with forward edges of W = 240, and curve profile 3. -/
def ramp : SilTables :=
  { edges := (rangeFrom 0 4).map (fun i => (i, BitVec.ofNat 32 (pack [(20, 8, 240), (0, 14, 8292 + i)])))
    nodes := (8292, BitVec.ofNat 128 (pack [(36, 16, 65500), (31, 5, 3)])) ::
      (rangeFrom 0 4).map (fun i => (8293 + i, BitVec.ofNat 128 (pack [(107, 7, 1), (90, 17, i), (36, 16, 65500), (31, 5, 3)])))
    sensors := [(8292, 1)]
    curves := (48, BitVec.ofNat 32 (1500 * 65536)) :: (49, BitVec.ofNat 32 (1500 * 65536 + 8000)) :: (50, BitVec.ofNat 32 (8000 * 65536 + 40000)) ::
      (rangeFrom 51 13).map (fun i => (i, BitVec.ofNat 32 (10000 * 65536 + 60000))) }
theorem test_ramp_field : ramp.passField 3100170 4 = [(8292, 65535), (8293, 61439), (8294, 57599), (8295, 53999), (8296, 50624)] := by decide +kernel
theorem test_ramp_demand : [65535, 61439, 57599, 53999, 50624, 47433, 53788].map (ramp.demand 3) = [10000, 10000, 9759, 9399, 9062, 8743, 9378] := by decide +kernel
/-- 06 R200: summer time starts on the last Sunday of March at 02:00, in 2026 on the 29th; a week number of 1 names the first one. -/
theorem test_rule_day : ruleSecs ⟨3, 5, 6, 120⟩ 26 = secsOf 26 3 29 2 0 0 ∧ ruleSecs ⟨3, 1, 6, 120⟩ 26 = secsOf 26 3 1 2 0 0 := by decide +kernel
/-- 07 R244: at 108 000 000 mW a pulse of 1 000 mWh lasts 16.66 ms, and one of 10 mWh the least, 1 ms. -/
theorem test_pulse_width : pulseWidth 1000 [108000000] = 1666 ∧ pulseWidth 10 [108000000] = 100 := by decide +kernel
/-- 07, table "ENERGY_GAP of the example": BOUND; and the resume values of 07 and 19. -/
theorem test_gap_bound : live.gapBound (rangeFrom 0 24) 41600 = 11093334 := by decide +kernel
def saved (s sec sub nowSec nowSub : Nat) : State := { State.reset with
  nv := { State.reset.nv with slot1 := { seq := 90001, markF := true, markN := true, final := true, s := s, rtcSec := sec, rtcSub := sub, rtcValid := true } }
  bk := { State.reset.bk with valid := true, secs := nowSec, sub := nowSub } }
theorem test_resume_value : (saved 7200051 100 0 100 22938).resumeValue.2 = 7265674 ∧ (saved 6400101 100 0 141 13107).resumeValue.2 = 6470730 := by decide +kernel
/-- 08, "a sweep on a car-park phase": code 3 runs + - - +, and the expected amplitude of 6.0301 is 4 736 mW. -/
theorem test_probe_code : (rangeFrom 0 8).map (walsh 3) = [1, -1, -1, 1, 1, -1, -1, 1] ∧ (rangeFrom 0 4).map (probeLevel 6000 800 3) = [6800, 5200, 5200, 6800] := by
  decide +kernel
def lamp : BitVec 64 := BitVec.ofNat 64 (pack [(48, 16, 1500), (32, 16, 13000), (16, 16, 125), (4, 4, 2)])
theorem test_probe_amplitude : roundDiv (modelNum lamp 0 6800 - modelNum lamp 0 5200) (2 * modelDen) = 4736 ∧
    roundDiv (modelNum lamp 0 2800 - modelNum lamp 0 1200) (2 * modelDen) = 4352 := by decide +kernel
/-- 09, the 16 × 48 sign at 50.00 Hz: F = 59 760, L = 3 735, 30 mA for PIX 255; the check value of the sign bus's CRC. -/
theorem test_scan_lengths : frameLength 12000000 8 = 59760 ∧ 59760 / 16 = 3735 ∧ lMin 48 ≤ 3735 := by decide +kernel
theorem test_led_current : ({ lit.sign with cfg := { lit.sign.cfg with gcur := 127 }, pix := [(192, 255)] } : Sign).current 3 0 = 30 * 32768 * 255 := by decide +kernel
theorem test_crc_check_value : crc16 [0x31, 0x32, 0x33, 0x34, 0x35, 0x36, 0x37, 0x38, 0x39] = 0x29B1 := by decide +kernel
/-- 10 R342, with H = 411: 412 is new, 348 within the window, 347 is stale. -/
theorem test_sequence_window : ({ ses with hi := 411, seen := 1 } : Session).seqVerdict 412 = .fresh ∧ ({ ses with hi := 411, seen := 1 } : Session).seqVerdict 348 = .fresh ∧
    ({ ses with hi := 411, seen := 1 } : Session).seqVerdict 347 = .stale := by decide +kernel
/-- 12 R399: INCR is limited to 8 ns ± 500 ppm. -/
theorem test_increment_limits : after (.ptpIncrWrite {} .mem 0x080000C954) live (fun t => t.net.incr == 0x080000C954) = true ∧
    after (.ptpIncrWrite {} .mem 0x0900000000) live (fun t => t.net.incr == 0x0800418937) = true := by decide +kernel
/-- 13 R419: a step back at 2100-03-01 00:15:20 leads to 2100-02-28 23:15:21. -/
theorem test_step_back_over_february : after (.rtcStepApply {}) { live with bk := { live.bk with secs := secsOf 100 3 1 0 15 20, sub := 32767, step := some false } }
    (fun t => t.bk.secs == secsOf 100 2 28 23 15 21) = true ∧ civil (dayNo 100 3 1 - 1) = (100, 2, 28) := by decide +kernel
/-- 14 R444: a rollover needs a lead of 65 536 half-cycles. -/
theorem test_rollover_lead : after (.keyRollover req 7 66536) fed (fun t => decide (tget none t.nv.rolls 7 = some ⟨66536, (fed.slot 15).gen + 1, 1, 1⟩)) = true ∧
    after (.keyRollover req 7 66535) fed (fun t => decide ((t.out.filterMap (fun o => match o with | .resp _ _ s n d r => some (s, n, d, r) | _ => none)) = [(1, 1, false, ⟨1, 0x0B06, .late, [(0, 4)]⟩)] ∧ t.nv.rolls = fed.nv.rolls)) = true := by decide +kernel
/-- 15, table "Interface ranges, running and new": D takes step 0, M step 1 and C step 2. -/
def comp (type : Nat) (l : List (Nat × Nat)) : Comp := ⟨type, 0, 1, l, 0, 0⟩
theorem test_switch_order : switchOrder 5
    [comp 1 [(3, 3), (5, 5), (0, 0), (2, 2), (0, 0), (1, 2)], comp 2 [(3, 3), (0, 0), (2, 2), (0, 0), (1, 1), (0, 0)], comp 3 [(0, 0), (5, 5), (2, 2), (0, 0), (0, 0), (0, 0)]]
    [comp 1 [(4, 4), (6, 6), (0, 0), (2, 2), (0, 0), (2, 3)], comp 2 [(3, 4), (0, 0), (2, 2), (0, 0), (1, 1), (0, 0)], comp 3 [(0, 0), (5, 6), (2, 2), (0, 0), (0, 0), (0, 0)]]
    = .inl [2, 3, 1] := by decide +kernel
/-- 16 R505: an event of a code without tokens is suppressed; one of a code with a token takes it. -/
theorem test_suppression : after (.evtinPortPush {} .m 0x0700 0 []) writing (fun t => t.ev.suppTotal == 1 && t.ev.qM.length == 1) = true ∧
    after (.evtinPortPush {} .m 0x0700 0 []) live (fun t => (tget {} t.ev.buckets 0x0700).tokens == 7 && t.ev.qM.length == 1) = true := by decide +kernel
/-- 17, "ETH1 is reset during a receive burst": the second burst into pair 1 loses its data after 6 beats. -/
def burst : State :=
  let m := (live.mem.put 0x02001000 (leBytes 4 0x02004000 ++ leBytes 4 1024 ++ leBytes 4 0x02008000 ++ leBytes 4 1024))
  let c : Channel := { desc := 0x02000100, st := .active, raw := BitVec.ofNat 512 (pack [(63, 1, 1), (192, 32, 0x02001000), (168, 12, 2), (161, 2, 2)]), pair := 1, off := 256, total := 2048, moved := 1280, request := true }
  { live with mem := m, jnc := { live.jnc with dma := { live.jnc.dma with m := { ch := [(5, c)] } } } }
theorem test_periph_lost : after (.dmaPeriphReset {} .m 5 6) burst (fun t => decide ((t.chan .m 5).st = .stopping ∧ (t.chan .m 5).code = 3 ∧
    (t.chan .m 5).lostLen = 256 ∧ (t.chan .m 5).lostAddr = 0x02008100 ∧ (t.chan .m 5).total - (t.chan .m 5).moved = 512)) = true := by decide +kernel
/-- 18, "a core dissents": MEMBERS = 0101b, EXCLUDED = 0010b, DISAGREE_CNT = 1, MODE = DUPLEX; the next edge reads REJOIN. -/
theorem test_core_dissents : after (.voterDisagree {} .c 1 false) live (fun t => decide (t.jnc.voters.c = { disagree := 1, excluded := 2, members := 5, mode := .duplex })) = true := by
  decide +kernel
/-- 14 R432, 15 R472: SHA-256 of "abc" (FIPS 180-4) and AES-128 (FIPS 197, C.1). -/
theorem test_sha256 : ofBytes (sha256 [0x61, 0x62, 0x63]) = 78287233127892744762064256752147977895291281102938609026632374073081434896570 := by decide +kernel
theorem test_aes128 : aes (List.range 16) ((List.range 16).map (fun i => 17 * i)) =
    [0x69, 0xC4, 0xE0, 0xD8, 0x6A, 0x7B, 0x04, 0x30, 0xD8, 0xCD, 0xB7, 0x80, 0x70, 0xB4, 0xC5, 0x5A] := by decide +kernel
/-- 18 R558: a minute at 60 °C adds 60 s, one at 70 °C 120 s and one at 50 °C 30 s. -/
theorem test_age_step : ageStep 480 = 60 * 2 ^ 32 ∧ ageStep 560 = 120 * 2 ^ 32 ∧ ageStep 400 = 30 * 2 ^ 32 := by decide +kernel
/-- 17 R512, R513: two erroneous symbols are corrected, three are detected, and errors of one symbol that cancel are none. -/
theorem test_damage : damaged [(0, 1), (20, 255)] = 2 ∧ damaged [(0, 1), (1, 1), (20, 1)] = 3 ∧ damaged [(7, 9), (7, 9)] = 0 ∧
    (live.visit 0x20 [(3, 7)]).1 = true ∧ ((live.visit 0x20 [(3, 7)]).2.mac 0).corr = 1 ∧ (live.visit 0x20 [(0, 1), (1, 1), (20, 1)]).1 = false := by decide +kernel
/-- 14 R432, R448: the public point of d = 2 on P-256 (SEC 1), and ECDSA of "sample" with SHA-256 (RFC 6979, A.2.5), which another hash fails. -/
theorem test_p256_points : pubPoint 1 = p256x + 2 ^ 256 * p256y ∧ onCurve (pubPoint 2) = true ∧ pubPoint 2 =
    0x7CF27B188D034F7E8A52380304B51AC3C08969E277F21B35A60B48FC47669978 + 2 ^ 256 * 0x07775510DB8ED040293D9AC69F7430DBBA7DADE63CE982299E04B79D227873D1 := by
  decide +kernel
def keySample : Nat := 0xC9AFA9D845BA75166B5C215767B1D6934E50C3DB36E89B127B8A622B120F6721
def hashSample : Nat := ofBe (sha256 [0x73, 0x61, 0x6D, 0x70, 0x6C, 0x65])
theorem test_ecdsa_sign : ecdsaSign keySample hashSample 0xA6E3C57DD01ABE90086538398355DD4C3B17AA873382B0F24D6129493D8AAD60 =
    sigOf 0xEFD48B2AACB6A8FD1140DD9CD45E81D69D2C877B56AAF991C34D0EA84EAF3716 0xF7CB1C942D657C41D436C7A1B6E29F65F3E900DBB9AFF4064DC4AB2F843ACDA8 := by decide +kernel
theorem test_ecdsa_verify : let q := 0x60FED4BA255A9D31C961EB74C6356D68C049B8923B61FA6CE669622E60F29FB6 + 2 ^ 256 * 0x7903FE1008B8BC99A41AE9E95628BC64F2F1B20C2D7E9F5177A3C294D4462299
    let g := sigOf 0xEFD48B2AACB6A8FD1140DD9CD45E81D69D2C877B56AAF991C34D0EA84EAF3716 0xF7CB1C942D657C41D436C7A1B6E29F65F3E900DBB9AFF4064DC4AB2F843ACDA8
    pubPoint keySample = q ∧ ecdsaOk q hashSample g = true ∧ ecdsaOk q (hashSample + 1) g = false := by decide +kernel
end Sys2Proof.Tests
end

