-- ==== Sys2Proof/Proofs/Doorbells.lean ====
section
/-!
PROOFS. Doorbells (01 R38-R40): what setting and clearing them leaves pending, where DB_PEND is read, and what a set that coincides with a
clear does.
-/
namespace Sys2Proof.Machine

/-! ## Bits of a word -/

theorem bit_eq_getLsbD {n : Nat} (w : BitVec n) (k : Nat) : bit w k = w.getLsbD k := rfl

theorem bit_or {n : Nat} (v w : BitVec n) (k : Nat) : bit (v ||| w) k = (bit v k || bit w k) := by
  simp only [bit_eq_getLsbD, BitVec.getLsbD_or]

theorem bit_andNot {n : Nat} (v w : BitVec n) {k : Nat} (h : k < n) : bit (v &&& ~~~w) k = (bit v k && !bit w k) := by
  simp only [bit_eq_getLsbD, BitVec.getLsbD_and, BitVec.getLsbD_not, h, decide_true, Bool.true_and]

/-! ## A region's value -/

@[simp] theorem PerRegion.get_set_same {α : Type} (p : PerRegion α) (r : Region) (x : α) : (p.set r x).get r = x := by
  cases r <;> rfl

/-! ## The doorbells pending -/

/-- A rejoin whose time is over changes the voters, not the doorbells. -/
@[simp] theorem Junction.settled_dbPend (j : Junction) (edge now : Nat) : (j.settled edge now).dbPend = j.dbPend := rfl

/-- Ringing reaches DB_PEND whether or not a bit is left to interrupt for (01 R38). -/
@[simp] theorem State.ringDb_dbPend (s : State) (r : Region) (bits : BitVec 32) :
    (s.ringDb r bits).jnc.dbPend = s.jnc.dbPend.set r (s.jnc.dbPend.get r ||| bits) := by
  unfold State.ringDb
  dsimp only
  split <;> rfl

@[simp] theorem State.clearDb_dbPend (s : State) (r : Region) (bits : BitVec 32) :
    (s.clearDb r bits).jnc.dbPend = s.jnc.dbPend.set r (s.jnc.dbPend.get r &&& ~~~bits) := rfl

/-- The clear comes first and the set after it, so the set wins (00 R13). -/
theorem State.ringDb_clearDb_get (s : State) (r : Region) (bits w1c : BitVec 32) :
    ((s.clearDb r w1c).ringDb r bits).jnc.dbPend.get r = (s.jnc.dbPend.get r &&& ~~~w1c) ||| bits := by
  simp only [State.ringDb_dbPend, State.clearDb_dbPend, PerRegion.get_set_same]

/-- DB_PEND_C, DB_PEND_D and DB_PEND_M read the doorbells pending for their regions (01 R38). -/
theorem State.regOf_dbPend (s : State) (r : Region) :
    s.regOf (match r with | .c => 0x40010020 | .d => 0x40010024 | .m => 0x40010028) = some (s.jnc.dbPend.get r).toNat := by
  cases r <;> rfl

/-! ## The command -/

theorem exec_dbSetWrite (dt : Dt) (m : Master) (r : Region) (bits w1c : BitVec 32) (s : State) :
    exec (.dbSetWrite dt m r bits w1c) s = .next (((s.tick dt).clearDb r w1c).ringDb r bits) := rfl

/-- Settles O50: the command clears before it rings, so a bit it rings reads 1 and any other keeps what the clear left of it. -/
theorem doorbellSetWinsOverACoincidingClear : Obligations.DoorbellSetWinsOverACoincidingClear := by
  unfold Obligations.DoorbellSetWinsOverACoincidingClear
  intro s dt m r bits w1c
  have pending := State.ringDb_clearDb_get (s.tick dt) r bits w1c
  rw [State.tick_jnc, Junction.settled_dbPend] at pending
  refine ⟨_, exec_dbSetWrite dt m r bits w1c s, fun n _ hset => ?_, fun n hn hunset => ?_, State.regOf_dbPend _ r⟩
  · rw [pending, bit_or, hset, Bool.or_true]
  · rw [pending, bit_or, hunset, Bool.or_false, bit_andNot _ _ hn]

end Sys2Proof.Machine
end

