-- ==== Sys2Proof/Proofs/RtcInterface.lean ====
section
/-!
PROOFS. The RTC interface and the tamper log (13 R414, R426, R427): what a freeze of the time block shows and when it ends, and what the log of
eight entries takes and gives up.
-/
namespace Sys2Proof.Machine

/-! ## Time passing -/

/-- Time moves the prescaler and the calendar, and nothing else of the backup domain (13 R411). -/
theorem Backup.tick_keeps (b : Backup) (n : Nat) : { b.tick n with sub := b.sub, secs := b.secs } = b := by
  unfold Backup.tick
  dsimp only
  split_ifs <;> rfl

@[simp] theorem Backup.tick_onVbat (b : Backup) (n : Nat) : (b.tick n).onVbat = b.onVbat := (congrArg Backup.onVbat (b.tick_keeps n) :)
@[simp] theorem Backup.tick_log (b : Backup) (n : Nat) : (b.tick n).log = b.log := (congrArg Backup.log (b.tick_keeps n) :)
@[simp] theorem Backup.tick_ovf (b : Backup) (n : Nat) : (b.tick n).ovf = b.ovf := (congrArg Backup.ovf (b.tick_keeps n) :)
@[simp] theorem Backup.tick_step (b : Backup) (n : Nat) : (b.tick n).step = b.step := (congrArg Backup.step (b.tick_keeps n) :)
@[simp] theorem Backup.tick_crossing (b : Backup) (n : Nat) : (b.tick n).crossing = b.crossing := (congrArg Backup.crossing (b.tick_keeps n) :)
@[simp] theorem Backup.tick_inA (b : Backup) (n : Nat) : (b.tick n).inA = b.inA := (congrArg Backup.inA (b.tick_keeps n) :)
@[simp] theorem Backup.tick_inB (b : Backup) (n : Nat) : (b.tick n).inB = b.inB := (congrArg Backup.inB (b.tick_keeps n) :)

@[simp] theorem State.tick_runs (s : State) (d : Dt) (r : Region) : (s.tick d).runs r = s.runs r := rfl

/-! ## Accesses to the window -/

/-- The RTCIF window lies in the M-region (01, table "Block windows"). -/
theorem regionOfAddr_rtcif {off : Nat} (h : off < 65536) : regionOfAddr (wRtcif + off) = some .m := by
  have block : (wRtcif + off) / 65536 % 256 = 0x37 := by unfold wRtcif; omega
  have above : 0x40000000 ≤ wRtcif + off := by unfold wRtcif; omega
  unfold regionOfAddr
  rw [if_neg (by omega), if_neg (by omega), if_neg (by omega), if_neg (by omega), block]
  rfl

/-- The interface answers while it is not isolated, the rail feeds the backup domain and the M-region runs (13 R421, R422; 01 R43). -/
theorem State.rtcAccess_tick_of_answers {s : State} (dt : Dt) (m : Master) {off : Nat} (write : Bool) (k : State → State)
    (hiso : s.rtc.isolated = false) (hvbat : s.bk.onVbat = false) (hrun : s.runs .m = true) (hoff : off < 65536) :
    (s.tick dt).rtcAccess m off write k = k (s.tick dt) := by
  simp only [State.rtcAccess, State.access, State.reachable, regionOfAddr_rtcif hoff, State.tick_rtc, State.tick_bk, Backup.tick_onVbat,
    State.tick_runs, hiso, hvbat, hrun, Bool.or_self, Bool.false_eq_true, if_false, if_true]

/-! ## The freeze of the time block -/

theorem State.frozen_of_no_shadow {s : State} (h : s.rtc.shadow = none) : s.frozen = none := by
  simp only [State.frozen, h]

theorem State.frozen_of_expired {s : State} {sub secs since : Nat} (h : s.rtc.shadow = some (sub, secs, since)) (hend : since + secC ≤ s.now) :
    s.frozen = none := by
  simp only [State.frozen, h, if_neg (Nat.not_lt.mpr hend)]

theorem State.rtcBlock_of_unfrozen {s : State} (h : s.frozen = none) (off : Nat) :
    s.rtcBlock off = State.emit { s with rtc := { s.rtc with shadow := some (s.bk.sub, s.bk.secs, s.now) } }
      (.readData (wRtcif + off) (rtcField off s.bk.sub s.bk.secs)) := by
  simp only [State.rtcBlock, h]

theorem State.rtcBlock_of_frozen {s : State} {sub secs : Nat} (h : s.frozen = some (sub, secs)) (off : Nat) :
    s.rtcBlock off = s.emit (.readData (wRtcif + off) (rtcField off sub secs)) := by
  simp only [State.rtcBlock, h]

theorem State.rtcYear_of_unfrozen {s : State} (h : s.frozen = none) :
    s.rtcYear = State.emit { s with rtc := { s.rtc with shadow := none } } (.readData (wRtcif + 0x18) (rtcField 0x18 s.bk.sub s.bk.secs)) := by
  simp only [State.rtcYear, h]

theorem State.rtcYear_of_frozen {s : State} {sub secs : Nat} (h : s.frozen = some (sub, secs)) :
    s.rtcYear = State.emit { s with rtc := { s.rtc with shadow := none } } (.readData (wRtcif + 0x18) (2 ^ 31 + rtcField 0x18 sub secs)) := by
  simp only [State.rtcYear, h]

theorem exec_rtcBlockRead {s : State} (dt : Dt) (m : Master) {off : Nat} (hiso : s.rtc.isolated = false) (hvbat : s.bk.onVbat = false)
    (hrun : s.runs .m = true) (hoff : off < 0x18) (halign : off % 4 = 0) :
    exec (.rtcBlockRead dt m off) s = .next ((s.tick dt).rtcBlock off) := by
  change execRtcBlockRead dt m off s = _
  simp only [execRtcBlockRead, hoff, halign, and_self, if_true,
    State.rtcAccess_tick_of_answers dt m _ _ hiso hvbat hrun (show off < 65536 by omega)]

theorem exec_rtcYearRead {s : State} (dt : Dt) (m : Master) (hiso : s.rtc.isolated = false) (hvbat : s.bk.onVbat = false)
    (hrun : s.runs .m = true) : exec (.rtcYearRead dt m) s = .next (s.tick dt).rtcYear :=
  congrArg Host.Outcome.next (State.rtcAccess_tick_of_answers dt m _ _ hiso hvbat hrun (by decide))

theorem exec_rtcFreezeTimeout_of_unfrozen {s : State} {dt : Dt} (h : (s.tick dt).frozen = none) :
    exec (.rtcFreezeTimeout dt) s = .next { s.tick dt with rtc := { s.rtc with shadow := none } } := by
  change execRtcFreezeTimeout dt s = _
  simp only [execRtcFreezeTimeout, h, Option.isNone_none, if_true, State.tick_rtc]

/-- A set that arrives ends the freeze (R417). -/
theorem exec_rtcSetApply_unfreezes {s : State} (dt : Dt) {c : Nat} (h : s.bk.crossing = some c) :
    ∃ u : State, exec (.rtcSetApply dt) s = .next u ∧ u.frozen = none := by
  change ∃ u : State, execRtcSetApply dt s = .next u ∧ u.frozen = none
  simp only [execRtcSetApply, State.tick_bk, Backup.tick_crossing, h]
  exact ⟨_, rfl, State.frozen_of_no_shadow rfl⟩

/-- Settles O19: each read shows what the freeze holds or else the counts, and a read of RTC_YEAR, the second's end and a set empty the shadows. -/
theorem timeBlockReadsAreCoherent : Obligations.TimeBlockReadsAreCoherent := by
  unfold Obligations.TimeBlockReadsAreCoherent
  intro s dt m t hiso hvbat hrun
  have block {off : Nat} := exec_rtcBlockRead dt m (off := off) hiso hvbat hrun
  have year := exec_rtcYearRead dt m hiso hvbat hrun
  refine ⟨fun off hoff halign => ⟨fun h => ?_, fun sub secs h => ?_⟩, fun h => ?_, fun sub secs h => ?_, fun sub secs since h hend => ?_,
    fun c h => exec_rtcSetApply_unfreezes dt h⟩
  · rw [block hoff halign, State.rtcBlock_of_unfrozen h]
  · rw [block hoff halign, State.rtcBlock_of_frozen h]
  · rw [year, State.rtcYear_of_unfrozen h]
  · rw [year, State.rtcYear_of_frozen h]
  · exact exec_rtcFreezeTimeout_of_unfrozen (State.frozen_of_expired (s := s.tick dt) h hend)

/-! ## The tamper log -/

/-- An input of the backup domain is in its tamper state (14 R456). -/
def Backup.input (k : Backup) (inputB : Bool) : Bool := if inputB then k.inB else k.inA

/-- The backup domain with an input taken as asserted. -/
def Backup.asserted (k : Backup) (inputB : Bool) : Backup := if inputB then { k with inB := true } else { k with inA := true }

@[simp] theorem Backup.tick_input (k : Backup) (n : Nat) (b : Bool) : (k.tick n).input b = k.input b := by
  simp only [Backup.input, Backup.tick_inA, Backup.tick_inB]
@[simp] theorem Backup.asserted_log (k : Backup) (b : Bool) : (k.asserted b).log = k.log := by cases b <;> rfl
@[simp] theorem Backup.asserted_ovf (k : Backup) (b : Bool) : (k.asserted b).ovf = k.ovf := by cases b <;> rfl

/-- The entry of an assertion now (13, table "TLOG_n"). -/
def State.tamperEntry (s : State) (inputB : Bool) : TlogEntry := ⟨s.rtc.lockout, inputB, s.bk.valid, s.bk.sub, s.lin⟩

/-- What the backup domain holds of an assertion that is left to it: an entry while it has room for one, and a count of it beyond (R427). -/
def State.logTamper (s : State) (inputB : Bool) : Backup :=
  let k := s.bk.asserted inputB
  if k.log.length < 8 then { k with log := k.log ++ [s.tamperEntry inputB] }
  else { k with ovf := stick 255 (k.ovf + 1) }

/-- Under LOCKOUT, an assertion of an input that was not in its tamper state is left to the backup domain (R426). -/
theorem exec_tamperAssert_of_lockout {s : State} (dt : Dt) {b : Bool} (hin : s.bk.input b = false) (hlock : s.rtc.lockout = true) :
    exec (.tamperAssert dt b) s = .next { s.tick dt with bk := (s.tick dt).logTamper b } := by
  have idle : (s.tick dt).bk.input b = false := by rw [State.tick_bk, Backup.tick_input, hin]
  change execTamperAssert dt b s = _
  unfold execTamperAssert
  dsimp only
  rw [if_neg (show ¬ (if b then (s.tick dt).bk.inB else (s.tick dt).bk.inA) = true from ne_true_of_eq_false idle),
    if_pos (by simp only [State.tick_rtc, hlock, Bool.true_or])]
  unfold State.logTamper Backup.asserted State.tamperEntry
  dsimp only
  split_ifs <;> rfl

/-- With room in the log, the assertion enters it as the newest entry. -/
theorem exec_tamperAssert_enters {s : State} (dt : Dt) {b : Bool} (hin : s.bk.input b = false) (hlock : s.rtc.lockout = true)
    (hroom : s.bk.log.length < 8) : ∃ (u : State) (e : TlogEntry), exec (.tamperAssert dt b) s = .next u ∧
      u.bk.log = s.bk.log ++ [e] ∧ e.inputB = b ∧ e.main = true ∧ u.bk.ovf = s.bk.ovf := by
  refine ⟨_, (s.tick dt).tamperEntry b, exec_tamperAssert_of_lockout dt hin hlock, ?_, rfl, hlock, ?_⟩ <;>
    simp only [State.logTamper, Backup.asserted_log, Backup.asserted_ovf, State.tick_bk, Backup.tick_log, Backup.tick_ovf, hroom, if_true]

/-- With eight entries held, the log stays and OVF counts the assertion. -/
theorem exec_tamperAssert_overflows {s : State} (dt : Dt) {b : Bool} (hin : s.bk.input b = false) (hlock : s.rtc.lockout = true)
    (hfull : 8 ≤ s.bk.log.length) : ∃ u : State, exec (.tamperAssert dt b) s = .next u ∧
      u.bk.log = s.bk.log ∧ u.bk.ovf = stick 255 (s.bk.ovf + 1) := by
  refine ⟨_, exec_tamperAssert_of_lockout dt hin hlock, ?_⟩
  simp only [State.logTamper, Backup.asserted_log, Backup.asserted_ovf, State.tick_bk, Backup.tick_log, Backup.tick_ovf, Nat.not_lt.mpr hfull,
    if_false, and_self]

theorem exec_tlogAck {s : State} (dt : Dt) (m : Master) {n : Nat} (hiso : s.rtc.isolated = false) (hvbat : s.bk.onVbat = false)
    (hrun : s.runs .m = true) (hn : n < 16) :
    exec (.tlogAck dt m n) s = .next { s.tick dt with bk := { (s.tick dt).bk with log := s.bk.log.drop n } } := by
  change execTlogAck dt m n s = _
  simp only [execTlogAck, State.rtcAccess_tick_of_answers dt m _ _ hiso hvbat hrun (show 0x44 < 65536 by decide), Nat.mod_eq_of_lt hn,
    State.tick_bk, Backup.tick_log]

/-- Settles O44: an assertion enters the log that the acknowledgement before it has left. -/
theorem tamperLogHoldsEightEntries : Obligations.TamperLogHoldsEightEntries := by
  unfold Obligations.TamperLogHoldsEightEntries
  intro s dt later m b n hin hlock
  refine ⟨exec_tamperAssert_overflows dt hin hlock, fun hiso hvbat hrun hn => ?_⟩
  refine ⟨_, exec_tlogAck dt m hiso hvbat hrun hn, rfl, List.drop_of_length_le, fun hroom => ?_⟩
  have idle : (s.bk.tick dt.rtc).input b = false := (s.bk.tick_input dt.rtc b).trans hin
  obtain ⟨u, e, hexec, hlog, hinput, hmain, hovf⟩ := exec_tamperAssert_enters later (b := b)
    (s := { s.tick dt with bk := { (s.tick dt).bk with log := s.bk.log.drop n } }) idle hlock hroom
  exact ⟨u, e, hexec, hlog, hinput, hmain, hovf.trans (s.bk.tick_ovf dt.rtc)⟩

end Sys2Proof.Machine
end

