-- ==== Sys2Proof/Proofs/Calendar.lean ====
section
/-!
PROOFS. The calendar (13 R410): the search upwards for year and month finds the date of a day, a date has one day number, and so the day after a
day has the date after its date.
-/
namespace Sys2Proof.Machine

/-! ## Days before a year and before a month -/

theorem daysBeforeYear_succ (y : Nat) : daysBeforeYear (y + 1) = daysBeforeYear y + (if leap y then 366 else 365) := by
  simp only [daysBeforeYear, leap, Bool.and_eq_true, beq_iff_eq, bne_iff_ne]
  split_ifs <;> omega

theorem daysBeforeYear_mono : Monotone daysBeforeYear :=
  monotone_nat_of_le_succ fun y => by rw [daysBeforeYear_succ]; exact Nat.le_add_right _ _

theorem daysBeforeMonth_mono (y : Nat) : Monotone (daysBeforeMonth y) :=
  monotone_nat_of_le_succ fun _ => Nat.le_add_right _ _

/-- The twelve months make up the year. -/
theorem daysBeforeMonth_thirteen (y : Nat) : daysBeforeYear y + daysBeforeMonth y 13 = daysBeforeYear (y + 1) := by
  rw [daysBeforeYear_succ]
  simp only [daysBeforeMonth, monthDays]
  split <;> rfl

/-- One place between consecutive values of a monotone count. -/
theorem index_unique {f : Nat → Nat} (hf : Monotone f) {a b x : Nat} (ha : f a ≤ x) (ha' : x < f (a + 1)) (hb : f b ≤ x) (hb' : x < f (b + 1)) :
    a = b :=
  have hab : a < b + 1 := hf.reflect_lt (ha.trans_lt hb')
  have hba : b < a + 1 := hf.reflect_lt (hb.trans_lt ha')
  by omega

/-- The calendar has 200 years. -/
theorem daysBeforeYear_twoHundred : daysBeforeYear 200 = 73049 := by simp only [daysBeforeYear]; norm_num

/-! ## The searches -/

theorem yearFrom_bounds {day : Nat} (n y : Nat) (hlo : daysBeforeYear y ≤ day) (hhi : day < daysBeforeYear (y + n + 1)) :
    daysBeforeYear (yearFrom day n y) ≤ day ∧ day < daysBeforeYear (yearFrom day n y + 1) := by
  induction n generalizing y with
  | zero => exact ⟨hlo, hhi⟩
  | succ n ih =>
    rw [yearFrom]
    split
    · next hnext => exact ih (y + 1) hnext (by rwa [show y + 1 + n + 1 = y + (n + 1) + 1 by omega])
    · next hnext => exact ⟨hlo, Nat.lt_of_not_le hnext⟩

theorem monthFrom_bounds {y doy : Nat} (n m : Nat) (hlo : daysBeforeMonth y m ≤ doy) (hhi : doy < daysBeforeMonth y (m + n + 1)) :
    m ≤ monthFrom y doy n m ∧ monthFrom y doy n m ≤ m + n ∧
      daysBeforeMonth y (monthFrom y doy n m) ≤ doy ∧ doy < daysBeforeMonth y (monthFrom y doy n m + 1) := by
  induction n generalizing m with
  | zero => exact ⟨Nat.le_refl m, Nat.le_refl m, hlo, hhi⟩
  | succ n ih =>
    rw [monthFrom]
    split
    · next hnext =>
      obtain ⟨hge, hle, hbounds⟩ := ih (m + 1) hnext (by rwa [show m + 1 + n + 1 = m + (n + 1) + 1 by omega])
      exact ⟨by omega, by omega, hbounds⟩
    · next hnext => exact ⟨Nat.le_refl m, Nat.le_add_right _ _, hlo, Nat.lt_of_not_le hnext⟩

/-- A year has at most 366 days, and over the calendar's 200 years the short ones let the year of a day fall at most four behind. -/
theorem yearOf_bounds {day : Nat} (h : day < daysBeforeYear 200) : daysBeforeYear (yearOf day) ≤ day ∧ day < daysBeforeYear (yearOf day + 1) := by
  rw [daysBeforeYear_twoHundred] at h
  refine yearFrom_bounds 4 (day / 366) ?_ ?_ <;> simp only [daysBeforeYear] <;> split_ifs <;> omega

/-! ## Dates -/

/-- A date of the calendar: the month is one of the twelve, and the day lies in it. -/
structure IsDate (y mo d : Nat) : Prop where
  month_pos : 1 ≤ mo
  month_le : mo ≤ 12
  day_pos : 1 ≤ d
  day_le : d ≤ monthDays y mo

/-- A date's day lies in its month, counted in days of its year. -/
theorem IsDate.dayOfYear_lt {y mo d : Nat} (h : IsDate y mo d) : daysBeforeMonth y mo + (d - 1) < daysBeforeMonth y (mo + 1) := by
  have hle := h.day_le
  have hpos := h.day_pos
  rw [daysBeforeMonth]
  omega

/-- A date's day lies in its year. -/
theorem IsDate.dayNo_lt {y mo d : Nat} (h : IsDate y mo d) : dayNo y mo d < daysBeforeYear (y + 1) := by
  have hmonth := h.dayOfYear_lt
  have hyear : daysBeforeMonth y (mo + 1) ≤ daysBeforeMonth y 13 := daysBeforeMonth_mono y (Nat.succ_le_succ h.month_le)
  rw [← daysBeforeMonth_thirteen, dayNo]
  omega

/-- `civil` gives a date, and it is the date of the day. -/
theorem civil_isDate {day y mo d : Nat} (hday : day < daysBeforeYear 200) (h : civil day = (y, mo, d)) : IsDate y mo d ∧ dayNo y mo d = day := by
  simp only [civil, Prod.mk.injEq] at h
  obtain ⟨hy, hmo, hd⟩ := h
  obtain ⟨hylo, hyhi⟩ := yearOf_bounds hday
  rw [hy] at hylo hyhi hmo hd
  have hdoy : day - daysBeforeYear y < daysBeforeMonth y 13 := by rw [← daysBeforeMonth_thirteen] at hyhi; omega
  obtain ⟨hge, hle, hmlo, hmhi⟩ := monthFrom_bounds 11 1 (Nat.zero_le _) hdoy
  rw [hmo] at hge hle hmlo hmhi hd
  rw [daysBeforeMonth] at hmhi
  refine ⟨⟨hge, hle, by omega, by omega⟩, ?_⟩
  rw [dayNo]
  omega

/-- A day number belongs to one date. -/
theorem dayNo_injective {y mo d y' mo' d' : Nat} (h : IsDate y mo d) (h' : IsDate y' mo' d') (heq : dayNo y mo d = dayNo y' mo' d') :
    (y, mo, d) = (y', mo', d') := by
  have year_le (y mo d : Nat) : daysBeforeYear y ≤ dayNo y mo d := by unfold dayNo; omega
  have hy : y = y' := index_unique daysBeforeYear_mono (year_le y mo d) h.dayNo_lt (by rw [heq]; exact year_le y' mo' d')
    (by rw [heq]; exact h'.dayNo_lt)
  subst hy
  have hdoy : daysBeforeMonth y mo + (d - 1) = daysBeforeMonth y mo' + (d' - 1) := by unfold dayNo at heq; omega
  have hmo : mo = mo' := index_unique (daysBeforeMonth_mono y) (Nat.le_add_right _ _) h.dayOfYear_lt
    (by rw [hdoy]; exact Nat.le_add_right _ _) (by rw [hdoy]; exact h'.dayOfYear_lt)
  subst hmo
  have hd := h.day_pos
  have hd' := h'.day_pos
  rw [show d = d' by omega]

/-- `civil` finds the date that a day number was made from. -/
theorem civil_dayNo {y mo d : Nat} (h : IsDate y mo d) (hday : dayNo y mo d < daysBeforeYear 200) : civil (dayNo y mo d) = (y, mo, d) := by
  rcases hfound : civil (dayNo y mo d) with ⟨y', mo', d'⟩
  obtain ⟨hdate, heq⟩ := civil_isDate hday hfound
  exact dayNo_injective hdate h heq

/-! ## The next day -/

/-- The date after a date (R410). -/
def nextDate (y mo d : Nat) : Nat × Nat × Nat :=
  if d < monthDays y mo then (y, mo, d + 1)
  else if mo < 12 then (y, mo + 1, 1)
  else (y + 1, 1, 1)

theorem monthDays_pos {y mo : Nat} (hpos : 1 ≤ mo) (hle : mo ≤ 12) : 1 ≤ monthDays y mo := by
  interval_cases mo <;> simp only [monthDays, Nat.one_le_ofNat]
  split <;> decide

/-- The date after a date is one, and its day is the next. -/
theorem nextDate_isDate {y mo d : Nat} (h : IsDate y mo d) :
    ∃ y' mo' d', nextDate y mo d = (y', mo', d') ∧ IsDate y' mo' d' ∧ dayNo y' mo' d' = dayNo y mo d + 1 := by
  obtain ⟨hmpos, hmle, hdpos, hdle⟩ := h
  unfold nextDate
  split_ifs with hinMonth hinYear
  · exact ⟨y, mo, d + 1, rfl, ⟨hmpos, hmle, by omega, hinMonth⟩, by simp only [dayNo]; omega⟩
  · refine ⟨y, mo + 1, 1, rfl, ⟨by omega, by omega, Nat.le_refl 1, monthDays_pos (by omega) (by omega)⟩, ?_⟩
    simp only [dayNo, daysBeforeMonth]
    omega
  · have hdec : mo = 12 := by omega
    subst hdec
    refine ⟨y + 1, 1, 1, rfl, ⟨Nat.le_refl 1, by decide, Nat.le_refl 1, monthDays_pos (Nat.le_refl 1) (by decide)⟩, ?_⟩
    have hyear := daysBeforeMonth_thirteen y
    rw [daysBeforeMonth] at hyear
    have hjan : daysBeforeMonth (y + 1) 1 = 0 := rfl
    simp only [dayNo, hjan]
    omega

theorem civil_succ {day y mo d : Nat} (hday : day + 1 < daysBeforeYear 200) (h : civil day = (y, mo, d)) : civil (day + 1) = nextDate y mo d := by
  obtain ⟨hdate, hno⟩ := civil_isDate (by omega) h
  obtain ⟨y', mo', d', hnext, hdate', hno'⟩ := nextDate_isDate hdate
  rw [hno] at hno'
  rw [hnext, ← hno', civil_dayNo hdate' (by omega)]

/-! ## Seconds -/

theorem calSecs_eq : calSecs = daysBeforeYear 200 * 86400 := by rw [daysBeforeYear_twoHundred]; rfl

/-- One more second leaves the date, or at the end of a day moves it to the next. -/
theorem civil_second_succ {secs y mo d : Nat} (hsecs : secs + 1 < calSecs) (h : civil (secs / 86400) = (y, mo, d)) :
    civil ((secs + 1) / 86400) = if secs % 86400 < 86399 then (y, mo, d) else nextDate y mo d := by
  rw [calSecs_eq] at hsecs
  split_ifs with hday
  · rw [show (secs + 1) / 86400 = secs / 86400 by omega, h]
  · rw [show (secs + 1) / 86400 = secs / 86400 + 1 by omega, civil_succ (by omega) h]

theorem civil_year_le {day y mo d : Nat} (hday : day < daysBeforeYear 200) (h : civil day = (y, mo, d)) : y ≤ 199 := by
  obtain ⟨-, hno⟩ := civil_isDate hday h
  have hlt : daysBeforeYear y < daysBeforeYear 200 := by unfold dayNo at hno; omega
  exact Nat.le_of_lt_succ (daysBeforeYear_mono.reflect_lt hlt)

/-! ## The ends of the calendar -/

theorem civil_firstDay : civil 0 = (0, 1, 1) :=
  civil_dayNo (y := 0) (mo := 1) (d := 1) ⟨by decide, by decide, by decide, by decide⟩ (by rw [daysBeforeYear_twoHundred]; decide)

theorem civil_lastDay : civil 73048 = (199, 12, 31) :=
  civil_dayNo (y := 199) (mo := 12) (d := 31) ⟨by decide, by decide, by decide, by decide⟩ (by rw [daysBeforeYear_twoHundred]; decide)

/-- At the last second's end, with no step due there, calendar and prescaler start again and RTC_VALID clears. -/
theorem exec_rtcCalendarWrap_of_last {s : State} {dt : Dt} (hsecs : (s.tick dt).bk.secs + 1 = calSecs) (hsub : (s.tick dt).bk.sub = 32767)
    (hstep : s.bk.step = none) :
    exec (.rtcCalendarWrap dt) s = .next { s.tick dt with bk := { (s.tick dt).bk with sub := 0, secs := 0, valid := false } } := by
  have waits : (s.tick dt).bk.step = none := by rw [State.tick_bk, Backup.tick_step, hstep]
  exact congrArg Host.Outcome.next (if_pos ⟨hsecs, hsub, waits⟩)

/-- Settles O22: the date of a second is found by the searches and moves as `nextDate` does, and the wrap is the command's own case. -/
theorem secondsRefineTheCalendar : Obligations.SecondsRefineTheCalendar := by
  unfold Obligations.SecondsRefineTheCalendar
  refine ⟨fun secs y mo d hsecs h => ?_, civil_firstDay, fun y _ => ?_, fun _ => rfl,
    civil_lastDay, fun s dt => ?_⟩
  · have hday : secs / 86400 < daysBeforeYear 200 := by rw [calSecs_eq] at hsecs; omega
    obtain ⟨hdate, hno⟩ := civil_isDate hday h
    exact ⟨civil_year_le hday h, hdate.month_pos, hdate.month_le, hdate.day_pos, hdate.day_le, hno, civil_second_succ hsecs h⟩
  · simp only [monthDays, leap, Bool.and_eq_true, beq_iff_eq, bne_iff_ne]
  · intro t hsecs hsub hstep
    exact exec_rtcCalendarWrap_of_last (by rw [hsecs]; rfl) hsub hstep

end Sys2Proof.Machine
end

