-- ==== Sys2Proof/Proofs/KeepsOps.lean ====
section
/-!
PROOFS. What every command keeps: the queue of commands as it is, memory's canonical form, the depth of intake's queues and the range of the
calendar. `Keeps s t` says it of two states; it is a preorder, and each operation of the model has one lemma under its own name: applied to a
state that keeps what `s₀` needs, it gives another. Here for the shared operations: time, intake, sessions, frames, the gate of host requests, events.
-/
namespace Sys2Proof.Machine

/-- What every operation keeps of a state `s`, said of the four fields it speaks of: the queue as it is, memory's canonical form, the depth of
intake's queues and the range of the calendar. -/
def Kept (s : State) (pending : List Instr) (mem : Mem) (ev : Intake) (bk : Backup) : Prop :=
  pending = s.pending ∧ (s.mem.wf = true → mem.wf = true) ∧ (s.ev.bounded = true → ev.bounded = true) ∧
    (s.bk.inRange = true → bk.inRange = true)

/-- `t` keeps of `s` what every operation keeps. -/
def Keeps (s t : State) : Prop := Kept s t.pending t.mem t.ev t.bk

namespace Keeps

theorem refl (s : State) : Keeps s s := ⟨rfl, id, id, id⟩

theorem trans {s t u : State} (h : Keeps s t) (k : Keeps t u) : Keeps s u := by
  obtain ⟨hp, hm, he, hb⟩ := h
  obtain ⟨kp, km, ke, kb⟩ := k
  exact ⟨kp.trans hp, km ∘ hm, ke ∘ he, kb ∘ hb⟩

/-- A state written out in its fields, with the four of another state. -/
theorem record {s t : State} {out fresh now order pow jnc tb acts dspFrames joinRefused wtx rx fdr nodes sil sched meter accord blot sign sbus
    remSwaps net rtc keys vxc nvmc nv} (h : Keeps s t) :
    Keeps s ⟨t.pending, out, fresh, now, order, pow, jnc, tb, acts, dspFrames, joinRefused, wtx, rx, fdr, nodes, sil, sched, meter, accord, blot,
      sign, sbus, remSwaps, net, rtc, t.bk, keys, t.ev, vxc, nvmc, nv, t.mem⟩ := h

theorem ite {s a b : State} {p : Prop} [Decidable p] (h : Keeps s a) (k : Keeps s b) : Keeps s (if p then a else b) := by
  split
  · exact h
  · exact k

theorem ite_prod {s : State} {α : Type} {a b : α × State} {p : Prop} [Decidable p] (h : Keeps s a.2) (k : Keeps s b.2) :
    Keeps s (if p then a else b).2 := by
  split
  · exact h
  · exact k

theorem ite_fst {s : State} {α : Type} {a b : State × α} {p : Prop} [Decidable p] (h : Keeps s a.1) (k : Keeps s b.1) :
    Keeps s (if p then a else b).1 := by
  split
  · exact h
  · exact k

theorem foldl {s t : State} {α : Type} {l : List α} {g : State → α → State} (hg : ∀ u x, Keeps u (g u x)) (h : Keeps s t) :
    Keeps s (l.foldl g t) := by
  induction l generalizing t with
  | nil => exact h
  | cons x l ih => exact ih (h.trans (hg t x))

theorem foldl_fst {s : State} {α β : Type} {l : List α} {g : State × β → α → State × β} {q : State × β}
    (hg : ∀ p x, Keeps p.1 (g p x).1) (h : Keeps s q.1) : Keeps s (l.foldl g q).1 := by
  induction l generalizing q with
  | nil => exact h
  | cons x l ih => exact ih (h.trans (hg q x))

theorem foldl_snd {s : State} {α β : Type} {l : List α} {g : β × State → α → β × State} {q : β × State}
    (hg : ∀ p x, Keeps p.2 (g p x).2) (h : Keeps s q.2) : Keeps s (l.foldl g q).2 := by
  induction l generalizing q with
  | nil => exact h
  | cons x l ih => exact ih (h.trans (hg q x))

/-- A state written out in its fields with memory changed: its canonical form decides. -/
theorem withMem {s t : State} {m : Mem} {out fresh now order pow jnc tb acts dspFrames joinRefused wtx rx fdr nodes sil sched meter accord blot
    sign sbus remSwaps net rtc keys vxc nvmc nv}
    (h : Keeps s t) (hm : t.mem.wf = true → m.wf = true) :
    Keeps s ⟨t.pending, out, fresh, now, order, pow, jnc, tb, acts, dspFrames, joinRefused, wtx, rx, fdr, nodes, sil, sched, meter, accord, blot,
      sign, sbus, remSwaps, net, rtc, t.bk, keys, t.ev, vxc, nvmc, nv, m⟩ :=
  ⟨h.1, hm ∘ h.2.1, h.2.2.1, h.2.2.2⟩

/-- A state written out in its fields with intake changed: the depth of its queues decides. -/
theorem withEv {s t : State} {e : Intake} {out fresh now order pow jnc tb acts dspFrames joinRefused wtx rx fdr nodes sil sched meter accord blot
    sign sbus remSwaps net rtc keys vxc nvmc nv}
    (h : Keeps s t) (he : t.ev.bounded = true → e.bounded = true) :
    Keeps s ⟨t.pending, out, fresh, now, order, pow, jnc, tb, acts, dspFrames, joinRefused, wtx, rx, fdr, nodes, sil, sched, meter, accord, blot,
      sign, sbus, remSwaps, net, rtc, t.bk, keys, e, vxc, nvmc, nv, t.mem⟩ :=
  ⟨h.1, h.2.1, he ∘ h.2.2.1, h.2.2.2⟩

/-- A state written out in its fields with the backup domain changed: the range of the calendar decides. -/
theorem withBk {s t : State} {b : Backup} {out fresh now order pow jnc tb acts dspFrames joinRefused wtx rx fdr nodes sil sched meter accord blot
    sign sbus remSwaps net rtc keys vxc nvmc nv}
    (h : Keeps s t) (hb : t.bk.inRange = true → b.inRange = true) :
    Keeps s ⟨t.pending, out, fresh, now, order, pow, jnc, tb, acts, dspFrames, joinRefused, wtx, rx, fdr, nodes, sil, sched, meter, accord, blot,
      sign, sbus, remSwaps, net, rtc, b, keys, t.ev, vxc, nvmc, nv, t.mem⟩ :=
  ⟨h.1, h.2.1, h.2.2.1, hb ∘ h.2.2.2⟩

/-- What was said to the host and recorded with the queues in their depth. -/
theorem of_said {s t u : State} (h : Said t u) (he : t.ev.bounded = true → u.ev.bounded = true) (k : Keeps s t) : Keeps s u :=
  k.trans ⟨h.pending, fun w => h.mem ▸ w, he, fun w => h.bk ▸ w⟩
theorem of_snd {s t : State} {α : Type} {a : α} {p : α × State} (e : p = (a, t)) (h : Keeps s p.2) : Keeps s t := by
  rwa [e] at h
theorem of_fst {s t : State} {α : Type} {a : α} {p : State × α} (e : p = (t, a)) (h : Keeps s p.1) : Keeps s t := by
  rwa [e] at h

end Keeps

/-- What a command's own rules leave of `s` is kept, whatever they answer. -/
def AnsKeeps (s : State) : Ans → Prop
  | .ok _ t => Keeps s t
  | .no .. => True
  | .ended _ _ t => Keeps s t
  | .deferred _ t => Keeps s t
  | .later t => Keeps s t
  | .okThen _ t fin => Keeps s t ∧ ∀ u, Keeps u (fin u)

namespace AnsKeeps

theorem ok {s t : State} {pay : Payload} (h : Keeps s t) : AnsKeeps s (.ok pay t) := h
theorem no {s : State} {st : Status} {detail : Nat} : AnsKeeps s (.no st detail) := trivial
theorem ended {s t : State} {st : Status} {pay : Payload} (h : Keeps s t) : AnsKeeps s (.ended st pay t) := h
theorem deferred {s t : State} {tgt : Nat} (h : Keeps s t) : AnsKeeps s (.deferred tgt t) := h
theorem later {s t : State} (h : Keeps s t) : AnsKeeps s (.later t) := h
theorem okThen {s t : State} {pay : Payload} {fin : State → State} (h : Keeps s t) (k : ∀ u, Keeps u (fin u)) : AnsKeeps s (.okThen pay t fin) :=
  ⟨h, k⟩

theorem ite {s : State} {a b : Ans} {p : Prop} [Decidable p] (h : AnsKeeps s a) (k : AnsKeeps s b) : AnsKeeps s (if p then a else b) := by
  split
  · exact h
  · exact k

theorem checked {s : State} {k : Ans} {cs : List (Bool × Status)} (h : AnsKeeps s k) : AnsKeeps s (Machine.checked cs k) := by
  unfold Machine.checked
  split
  · exact trivial
  · exact h

theorem paged {s t : State} {total first count size : Nat} {pre : Payload} {item : Nat → Payload} (h : Keeps s t) :
    AnsKeeps s (Machine.paged total first count size pre item t) := by
  unfold Machine.paged
  exact AnsKeeps.checked h

theorem ninth {s : State} {a : Ans} {full : Bool} (h : AnsKeeps s a) : AnsKeeps s (a.ninth full) := by
  unfold Ans.ninth
  split
  · exact h
  · exact h
  · exact ite trivial h

end AnsKeeps

/-- A command answers a next state, and keeps of `s` what every operation keeps. -/
def Answers (s : State) (r : Res) : Prop := ∃ t, r = .next t ∧ Keeps s t

namespace Answers

theorem next {s t : State} (h : Keeps s t) : Answers s (.next t) := ⟨t, rfl, h⟩

theorem ite {s : State} {a b : Res} {p : Prop} [Decidable p] (h : Answers s a) (k : Answers s b) : Answers s (if p then a else b) := by
  split
  · exact h
  · exact k

end Answers

namespace Keeps

theorem onFeeder {s₀ s : State} {f : Nat} {g : Feeder → Feeder} (h : Keeps s₀ s) : Keeps s₀ (s.onFeeder f g) := by
  unfold Machine.State.onFeeder
  exact h

theorem onNode {s₀ s : State} {a : Nat} {g : NodeDyn → NodeDyn} (h : Keeps s₀ s) : Keeps s₀ (s.onNode a g) := by
  unfold Machine.State.onNode
  exact h

theorem onNcfg {s₀ s : State} {a : Nat} {g : NodeCfg → NodeCfg} (h : Keeps s₀ s) : Keeps s₀ (s.onNcfg a g) := by
  unfold Machine.State.onNcfg
  dsimp only
  exact h

theorem onNv {s₀ s : State} {g : Nv → Nv} (h : Keeps s₀ s) : Keeps s₀ (s.onNv g) := by
  unfold Machine.State.onNv
  exact h

/-- Time leaves the calendar in its range: it stands still where the next second is a step's or the wrap's (13 R410, R418). -/
theorem tick_inRange {b : Backup} (n : Nat) (h : b.inRange = true) : (b.tick n).inRange = true := by
  obtain ⟨sub, secs, valid, onVbat, held, log, ovf, step, crossing, inA, inB⟩ := b
  unfold Backup.tick
  dsimp only
  split_ifs with hheld hsub hstep hsecs
  · exact h
  all_goals simp only [Backup.inRange, Bool.and_eq_true, decide_eq_true_eq] at h ⊢
  · exact ⟨⟨⟨hsub, h.1.1.2⟩, h.1.2⟩, h.2⟩
  · exact ⟨⟨⟨by omega, h.1.1.2⟩, h.1.2⟩, h.2⟩
  all_goals
    obtain rfl : step = none := by simpa using hstep
    obtain ⟨⟨⟨hs, hc⟩, hx⟩, -⟩ := h
  · exact ⟨⟨⟨Nat.mod_lt _ (by decide), hsecs⟩, hx⟩, rfl⟩
  · exact ⟨⟨⟨by omega, by decide⟩, hx⟩, rfl⟩
theorem tick {s₀ s : State} {d : Dt} (h : Keeps s₀ s) : Keeps s₀ (s.tick d) := h.withBk (tick_inRange _)

theorem emit {s₀ s : State} {o : Out} (h : Keeps s₀ s) : Keeps s₀ (s.emit o) := by
  unfold Machine.State.emit
  exact h

theorem draw {s₀ s : State} {m : Nat} (h : Keeps s₀ s) : Keeps s₀ (s.draw m).2 := by
  unfold Machine.State.draw
  exact h

theorem raiseOne {s₀ s : State} {k : Queue} {code src : Nat} {pay : List Nat} (h : Keeps s₀ s) : Keeps s₀ (s.raiseOne k code src pay) :=
  of_said (raiseOne_said ..) (raiseOne_bounded _ _ _ _) h

theorem totalsTold {s₀ s : State} {e : Intake} (h : Keeps s₀ s) : Keeps s₀ (s.totalsTold e) := by
  unfold Machine.State.totalsTold
  exact ite (raiseOne h) h

theorem raise {s₀ s : State} {k : Queue} {code src : Nat} {pay : List Nat} (h : Keeps s₀ s) : Keeps s₀ (s.raise k code src pay) := by
  unfold Machine.State.raise
  exact totalsTold (raiseOne h)

theorem raiseHw {s₀ s : State} {level block cell code : Nat} {pay : List Nat} (h : Keeps s₀ s) : Keeps s₀ (s.raiseHw level block cell code pay) := by
  unfold Machine.State.raiseHw
  exact raise h

theorem raiseFw {s₀ s : State} {r : Region} {code : Nat} {pay : List Nat} (h : Keeps s₀ s) : Keeps s₀ (s.raiseFw r code pay) := by
  unfold Machine.State.raiseFw
  exact raise h

theorem raiseGen {s₀ s : State} {r : Region} {gg addr : Nat} {vals : Payload} (h : Keeps s₀ s) : Keeps s₀ (s.raiseGen r gg addr vals) := by
  unfold Machine.State.raiseGen
  exact raiseFw h

theorem raiseUnit {s₀ s : State} {level block cell gg addr : Nat} {vals : Payload} (h : Keeps s₀ s) : Keeps s₀
    (s.raiseUnit level block cell gg addr vals) := by
  unfold Machine.State.raiseUnit
  exact raiseHw h

theorem stuck {s₀ s : State} {addr lsb : Nat} (h : Keeps s₀ s) : Keeps s₀ (s.stuck addr lsb) := by
  unfold Machine.State.stuck
  dsimp only
  exact raiseHw h

theorem stuckTable {s₀ s : State} {block addr lsb : Nat} (h : Keeps s₀ s) : Keeps s₀ (s.stuckTable block addr lsb) := by
  unfold Machine.State.stuckTable
  exact raiseHw h

theorem stuckFw {s₀ s : State} {r : Region} {b : Bool} (h : Keeps s₀ s) : Keeps s₀ (s.stuckFw r b) := by
  unfold Machine.State.stuckFw
  exact ite (raiseFw h) h

theorem stuckIf {s₀ s : State} {b : Bool} {addr lsb : Nat} (h : Keeps s₀ s) : Keeps s₀ (s.stuckIf b addr lsb) := by
  unfold Machine.State.stuckIf
  exact ite (stuck h) h

theorem onSession {s₀ s : State} {id : Nat} {g : Session → Session} (h : Keeps s₀ s) : Keeps s₀ (s.onSession id g) := by
  unfold Machine.State.onSession
  dsimp only
  exact h

theorem endSession {s₀ s : State} {id : Nat} {why : EndCause} (h : Keeps s₀ s) : Keeps s₀ (s.endSession id why) := by
  unfold Machine.State.endSession
  dsimp only
  split
  · exact h
  · exact ite h (raiseGen h)

theorem endAll {s₀ s : State} {why : EndCause} (h : Keeps s₀ s) : Keeps s₀ (s.endAll why) := by
  unfold Machine.State.endAll
  exact foldl (fun _ _ => endSession (refl _)) h

theorem onNet {s₀ s : State} {g : Net → Net} (h : Keeps s₀ s) : Keeps s₀ (s.onNet g) := by
  unfold Machine.State.onNet
  exact h

theorem onEport {s₀ s : State} {p : Nat} {g : EthPort → EthPort} (h : Keeps s₀ s) : Keeps s₀ (s.onEport p g) := by
  unfold Machine.State.onEport
  exact onNet h

theorem prpNext {s₀ s : State} (h : Keeps s₀ s) : Keeps s₀ (s.prpNext) := by
  unfold Machine.State.prpNext
  dsimp only
  exact h

theorem sendFrame {s₀ s : State} {k : Frame} (h : Keeps s₀ s) : Keeps s₀ (s.sendFrame k) := by
  unfold Machine.State.sendFrame
  dsimp only
  exact ite h (prpNext h)

theorem portCount {s₀ s : State} {p max addr lsb : Nat} {rd : EthPort → Nat} {wr : EthPort → Nat → EthPort} (h : Keeps s₀ s) : Keeps s₀
    (s.portCount p max addr lsb rd wr) := by
  unfold Machine.State.portCount
  dsimp only
  exact stuckIf (onEport h)

theorem rxDropped {s₀ s : State} {p : Nat} (h : Keeps s₀ s) : Keeps s₀ (s.rxDropped p) := by
  unfold Machine.State.rxDropped
  exact portCount h

theorem prpTouch {s₀ s : State} {p src : Nat} (h : Keeps s₀ s) : Keeps s₀ (s.prpTouch p src) := by
  unfold Machine.State.prpTouch
  dsimp only
  split
  · exact onNet h
  · exact ite (onNet h) (ite (raiseGen (portCount (onNet h))) (portCount (onNet h)))

theorem prpNote {s₀ s : State} {src seq : Nat} (h : Keeps s₀ s) : Keeps s₀ (s.prpNote src seq) := by
  unfold Machine.State.prpNote
  exact onNet h

theorem prpTake {s₀ s : State} {a : Arrival} (h : Keeps s₀ s) : Keeps s₀ (s.prpTake a).2 := by
  have hit (t : State) (n : Nat) (ht : Keeps s₀ t) : Keeps s₀ (if t.prpDup a.src n then
      (false, t.portCount a.port 0xFFFFFFFF (wPrp + 16 * a.port) 0 EthPort.dup (fun e v => { e with dup := v }))
      else (true, t.prpNote a.src n)).2 := ite_prod (portCount ht) (prpNote ht)
  unfold Machine.State.prpTake
  dsimp only
  split
  · exact prpTouch h
  · exact hit _ _ (ite (portCount (prpTouch h)) (prpTouch h))

theorem say {s₀ s : State} {usb : Bool} {o : Out} (h : Keeps s₀ s) : Keeps s₀ (s.say usb o) := by
  unfold Machine.State.say
  exact emit (ite (emit h) (sendFrame h))

theorem sendOn {s₀ s : State} {id : Nat} {o : Session → Nat → Out} (h : Keeps s₀ s) : Keeps s₀ (s.sendOn id o) := by
  unfold Machine.State.sendOn
  dsimp only
  split
  · exact h
  · exact ite (endSession (say (onSession h))) (say (onSession h))

theorem respond {s₀ s : State} {id : Nat} {r : Resp} (h : Keeps s₀ s) : Keeps s₀ (s.respond id r) := by
  unfold Machine.State.respond
  dsimp only
  exact sendOn (onSession h)

theorem notify {s₀ s : State} {id cmd : Nat} {final : Bool} {st : Status} {pay : Payload} (h : Keeps s₀ s) : Keeps s₀
    (s.notify id cmd final st pay) := by
  unfold Machine.State.notify
  dsimp only
  split
  · exact h
  · exact ite
        h
        (ite (sendOn (stuckFw (onSession h))) (ite (sendOn (onSession (stuckFw (onSession h)))) (onSession (stuckFw (onSession h)))))

theorem notifyClass {s₀ s : State} {cls cmd : Nat} {st : Status} {pay : Payload} (h : Keeps s₀ s) : Keeps s₀ (s.notifyClass cls cmd st pay) := by
  unfold Machine.State.notifyClass
  exact foldl (fun _ _ => notify (refl _)) h

theorem complete {s₀ s : State} {ses seq cmd : Nat} {st : Status} {pay : Payload} (h : Keeps s₀ s) : Keeps s₀ (s.complete ses seq cmd st pay) := by
  unfold Machine.State.complete
  exact notify h

theorem refusalPay {s₀ s : State} {st : Status} {detail : Nat} (h : Keeps s₀ s) : Keeps s₀ (s.refusalPay st detail).2 := by
  unfold Machine.State.refusalPay
  split
  · exact draw (m := if s.started then 65536 else 1501) h
  · exact h

/-- What a command's own rules left is answered by a reply, or held. -/
theorem settle {s₀ s : State} (h : Keeps s₀ s) {reply : State → Status → Payload → State} (hr : ∀ u st pay, Keeps u (reply u st pay))
    {hold : State → State} (hh : ∀ u, Keeps u (hold u)) {a : Ans} (ha : AnsKeeps s₀ a) : Keeps s₀ (s.settle reply hold a) := by
  cases a with
  | ok pay t => exact Keeps.trans ha (hr _ _ _)
  | no st d => exact (refusalPay h).trans (hr _ _ _)
  | ended st pay t => exact Keeps.trans ha (hr _ _ _)
  | deferred tgt t => exact Keeps.trans ha (hr _ _ _)
  | later t => exact Keeps.trans ha (hh _)
  | okThen pay t fin => exact (ha.1.trans (hr _ _ _)).trans (ha.2 _)

theorem discard {s₀ s : State} {g : DiscardCnt → DiscardCnt} (h : Keeps s₀ s) : Keeps s₀ (s.discard g) := by
  unfold Machine.State.discard
  dsimp only
  exact h

theorem discarded {s₀ s : State} {g : DiscardCnt → DiscardCnt} (h : Keeps s₀ s) : Keeps s₀ (s.discarded g) := by
  unfold Machine.State.discarded
  exact stuckFw (discard h)

theorem tagFail {s₀ s : State} {x : Session} (h : Keeps s₀ s) : Keeps s₀ (s.tagFail x) := by
  unfold Machine.State.tagFail
  dsimp only
  exact ite (endSession (onSession h)) (onSession h)

theorem arrived {s₀ s : State} {r : Req} (h : Keeps s₀ s) : Keeps s₀ (s.arrived r).2 := by
  unfold Machine.State.arrived
  dsimp only
  exact ite_prod h (ite_prod h (ite_prod (rxDropped h) (ite_prod (prpTake h) (ite_prod (rxDropped (prpTake h)) (prpTake h)))))

/-- The state that a request meets its command's rules in, or is done with. -/
def ofGate (s : State) : Gate → Prop
  | .drop t => Keeps s t
  | .unauth t => Keeps s t
  | .again t _ _ => Keeps s t
  | .accept t _ => Keeps s t

theorem ofGate_ite {s : State} {a b : Gate} {p : Prop} [Decidable p] (h : ofGate s a) (k : ofGate s b) : ofGate s (if p then a else b) := by
  split
  · exact h
  · exact k

theorem gate {s₀ s : State} {r : Req} {halfOpenOk : Bool} (h : Keeps s₀ s) : ofGate s₀ (s.gate r halfOpenOk) := by
  have ha := arrived (r := r) h
  have drop {g : DiscardCnt → DiscardCnt} : ofGate s₀ (.drop ((s.arrived r).2.discarded g)) := discarded ha
  unfold Machine.State.gate
  dsimp only
  refine ofGate_ite h (ofGate_ite ha ?_)
  split
  · exact drop
  · refine ofGate_ite (ofGate_ite ha drop) ?_
    split
    · exact drop
    · refine ofGate_ite drop (ofGate_ite drop (ofGate_ite (tagFail (discarded ha)) ?_))
      split
      · exact discarded (onSession ha)
      · exact onSession ha
      · exact onSession (onSession ha)

theorem seqLimit {s₀ s : State} {r : Req} (h : Keeps s₀ s) : Keeps s₀ (s.seqLimit r) := by
  unfold Machine.State.seqLimit
  exact ite (endSession h) h

theorem hostCmd {body : Who → State → Ans} (hb : ∀ w u, AnsKeeps u (body w u)) (c : CmdSpec) (r : Req) (s : State) :
    Answers s (Machine.hostCmd c r body s) := by
  have lift {t : State} {a : Ans} (ht : Keeps s t) (w : Who) (ha : a = body w t) : AnsKeeps s a := by
    subst ha
    have hk := hb w t
    cases hw : body w t with
    | okThen pay u fin => rw [hw] at hk; exact ⟨ht.trans hk.1, hk.2⟩
    | no => trivial
    | _ => rw [hw] at hk; exact Keeps.trans ht hk
  refine Answers.next ?_
  have hg := gate (r := r) (halfOpenOk := false) (tick (d := r.dt) (refl s))
  revert hg
  cases (s.tick r.dt).gate r false with
  | drop t => exact id
  | unauth t =>
    exact fun ht => ite (say ht) (ite (say ht) (settle ht (fun _ _ _ => say (refl _)) refl (lift ht _ rfl)))
  | again t x a => exact fun ht => sendOn ht
  | accept t x =>
    intro ht
    refine seqLimit (settle ht (fun _ _ _ => respond (refl _)) (fun _ => onSession (refl _)) ?_)
    exact AnsKeeps.ite trivial (AnsKeeps.ite trivial (AnsKeeps.ninth (lift ht _ rfl)))

theorem answer {s₀ s : State} {w : Who} {cmd : Nat} {st : Status} {pay : Payload} (h : Keeps s₀ s) : Keeps s₀ (s.answer w cmd st pay) := by
  unfold Machine.State.answer
  exact respond h

theorem bind {s₀ s : State} {t : Nat} {w : Who} {cmd : Nat} {what : ActWhat} (h : Keeps s₀ s) : Keeps s₀ (s.bind t w cmd what) := by
  unfold Machine.State.bind
  exact h

theorem discardActs {s₀ s : State} {r : Region} (h : Keeps s₀ s) : Keeps s₀ (s.discardActs r) := by
  unfold Machine.State.discardActs
  dsimp only
  exact ite h (foldl (fun _ _ => complete (refl _)) (raiseGen h))

theorem ringDb {s₀ s : State} {r : Region} {bits : BitVec 32} (h : Keeps s₀ s) : Keeps s₀ (s.ringDb r bits) := by
  unfold Machine.State.ringDb
  dsimp only
  exact ite h (emit h)

theorem clearDb {s₀ s : State} {r : Region} {bits : BitVec 32} (h : Keeps s₀ s) : Keeps s₀ (s.clearDb r bits) := by
  unfold Machine.State.clearDb
  dsimp only
  exact h

theorem reserveNote {s₀ s : State} {kind index action : Nat} (h : Keeps s₀ s) : Keeps s₀ (s.reserveNote kind index action) := by
  unfold Machine.State.reserveNote
  exact notifyClass h

theorem wearInc {s₀ s : State} {kind unit : Nat} (h : Keeps s₀ s) : Keeps s₀ (s.wearInc kind unit) := by
  unfold Machine.State.wearInc
  exact stuckFw (onNv h)

theorem wornEvent {s₀ s : State} {r : Region} {kind unit : Nat} (h : Keeps s₀ s) : Keeps s₀ (s.wornEvent r kind unit) := by
  unfold Machine.State.wornEvent
  exact raiseGen h

theorem addTotal {s₀ s : State} {addr lsb n : Nat} (h : Keeps s₀ s) : Keeps s₀ (s.addTotal addr lsb n) := by
  unfold Machine.State.addTotal
  dsimp only
  exact ite (raiseFw h) h

end Keeps
end Sys2Proof.Machine
end

