-- ==== Sys2Proof/Proofs/KeepsMetering.lean ====
section
/-!
PROOFS. What every command keeps (`Keeps`): one lemma for each operation of metering and its converters, the Sillage engine, Accord and Blotter.
-/
namespace Sys2Proof.Machine
namespace Keeps

theorem measureTemp {s₀ s : State} (h : Keeps s₀ s) : Keeps s₀ (s.measureTemp) := by
  unfold Machine.State.measureTemp
  dsimp only
  exact record (draw (draw h))

theorem onPulse {s₀ s : State} {o : Nat} {g : Pulse → Pulse} (h : Keeps s₀ s) : Keeps s₀ (s.onPulse o g) := by
  unfold Machine.State.onPulse
  dsimp only
  exact h

theorem pulseTake {s₀ s : State} {o f k : Nat} {p q : Int} {sv dur : Nat} (h : Keeps s₀ s) : Keeps s₀ (s.pulseTake o f k p q sv dur) := by
  unfold Machine.State.pulseTake
  dsimp only
  exact ite h (ite (raiseUnit (onPulse h)) (onPulse h))

theorem execPulseStart (dt : Dt) (o : Nat) (s : State) : Answers s (Machine.execPulseStart dt o s) := by
  unfold Machine.execPulseStart
  dsimp only
  exact Answers.next (ite (tick (refl _)) (emit (record (onPulse (tick (refl _))))))

theorem pulsesOff {s₀ s : State} (h : Keeps s₀ s) : Keeps s₀ (s.pulsesOff) := by
  unfold Machine.State.pulsesOff
  dsimp only
  exact ite h h

theorem execPulseEnd (dt : Dt) (o : Nat) (s : State) : Answers s (Machine.execPulseEnd dt o s) := by
  unfold Machine.execPulseEnd
  dsimp only
  exact Answers.next (ite (pulsesOff (onPulse (tick (refl _)))) (tick (refl _)))

theorem accumulate {s₀ s : State} {f k : Nat} {adds : List (Nat × Nat)} {p q : Int} {sv dur : Nat} {pulses : Bool} (h : Keeps s₀ s) : Keeps s₀
    (s.accumulate f k adds p q sv dur pulses) := by
  unfold Machine.State.accumulate
  dsimp only
  exact ite (pulseTake (pulseTake h)) h

theorem serveQueue {s₀ s : State} {id : Nat} {u : MeterSub} (h : Keeps s₀ s) : Keeps s₀ (s.serveQueue id u) := by
  unfold Machine.State.serveQueue
  dsimp only
  split
  · exact foldl (fun _ _ => notify (refl _)) (onSession h)
  · exact onSession h
  · exact ite (raiseGen (stuckFw (onSession h))) (stuckFw (onSession h))

theorem subRecord {s₀ s : State} {f : Nat} {w : BitVec 640} {id : Nat} (h : Keeps s₀ s) : Keeps s₀ (s.subRecord f w id) := by
  unfold Machine.State.subRecord
  dsimp only
  split
  · exact h
  · exact ite h (ite (onSession h) (serveQueue h))

theorem keepCodes {s₀ s : State} {x n0 : Nat} {l : List Int} (h : Keeps s₀ s) : Keeps s₀ (s.keepCodes x n0 l) := by
  unfold Machine.State.keepCodes
  dsimp only
  exact h

theorem onSlot {s₀ s : State} {n : Nat} {g : SaveSlot → SaveSlot} (h : Keeps s₀ s) : Keeps s₀ (s.onSlot n g) := by
  unfold Machine.State.onSlot
  exact onNv h

theorem ageSave {s₀ s : State} (h : Keeps s₀ s) : Keeps s₀ (s.ageSave) := by
  unfold Machine.State.ageSave
  exact onNv h

theorem finalFeederPart {s₀ s : State} (h : Keeps s₀ s) : Keeps s₀ (s.finalFeederPart) := by
  unfold Machine.State.finalFeederPart
  dsimp only
  split
  · exact ite (record (onSlot (ageSave h))) h
  · exact h

theorem saveHeader {s₀ s : State} {t n seq : Nat} (h : Keeps s₀ s) : Keeps s₀ (s.saveHeader t n seq) := by
  unfold Machine.State.saveHeader
  dsimp only
  exact record (onSlot h)

theorem saveStart {s₀ s : State} (h : Keeps s₀ s) : Keeps s₀ (s.saveStart) := by
  unfold Machine.State.saveStart
  split
  · exact h
  · exact ite h (saveHeader h)

theorem completeRecord {s₀ s : State} {f k : Nat} {iv : Nat × Nat} {phs : List (List Sample)} {clip : Bool} (h : Keeps s₀ s) : Keeps s₀
    (s.completeRecord f k iv phs clip) := by
  unfold Machine.State.completeRecord
  dsimp only
  exact saveStart
    (finalFeederPart (foldl (fun _ _ => subRecord (refl _)) (record (accumulate (foldl (fun _ _ => keepCodes (keepCodes (refl _))) h)))))

theorem execMeterRecordComplete (dt : Dt) (f : Nat) (phases : List (List Sample)) (clip : Bool) (s : State) : Answers s
    (Machine.execMeterRecordComplete dt f phases clip s) := by
  unfold Machine.execMeterRecordComplete
  dsimp only
  exact Answers.next
    (ite
      (tick (refl _))
      (by
        split
        · exact tick (refl _)
        · exact by
              split
              · exact tick (refl _)
              · exact completeRecord (tick (refl _))))

theorem snapBegin {s₀ s : State} {t : Nat} (h : Keeps s₀ s) : Keeps s₀ (s.snapBegin t) := by
  unfold Machine.State.snapBegin
  dsimp only
  exact h

theorem snapReady {s₀ s : State} (h : Keeps s₀ s) : Keeps s₀ (s.snapReady) := by
  unfold Machine.State.snapReady
  dsimp only
  split
  · exact h
  · exact h

theorem execMeterSnapshotComplete (dt : Dt) (s : State) : Answers s (Machine.execMeterSnapshotComplete dt s) := by
  unfold Machine.execMeterSnapshotComplete
  dsimp only
  exact Answers.next (ite (snapReady (tick (refl _))) (tick (refl _)))

theorem saveEdge {s₀ s : State} (h : Keeps s₀ s) : Keeps s₀ (s.saveEdge) := by
  unfold Machine.State.saveEdge
  dsimp only
  exact ite h h

theorem execPeriodicSave (dt : Dt) (s : State) : Answers s (Machine.execPeriodicSave dt s) := by
  unfold Machine.execPeriodicSave
  dsimp only
  exact Answers.next
    (by
      split
      · exact ite (saveStart (tick (refl _))) (record (onSlot (ageSave (saveStart (tick (refl _))))))
      · exact saveStart (tick (refl _)))

theorem cfgWrite {s₀ s : State} {t : Nat} {w : Who} {cmd : Nat} {what : ActWhat} {store : MeterCfg → MeterCfg} (h : Keeps s₀ s) : Keeps s₀
    (s.cfgWrite t w cmd what store) := by
  unfold Machine.State.cfgWrite
  dsimp only
  exact bind (onNv (foldl (fun _ _ => complete (refl _)) h))

theorem cfgInForce {s₀ s : State} {t : Nat} {c : MeterCfg} (h : Keeps s₀ s) : Keeps s₀ (s.cfgInForce t c) := by
  unfold Machine.State.cfgInForce
  dsimp only
  exact foldl (fun _ _ => ite (refl _) (raiseGen (onPulse (refl _)))) h

theorem execMeterInputSet (r : Req) (tgt input : Nat) (header : BitVec 64) (points : List (BitVec 64)) (s : State) : Answers s
    (Machine.execMeterInputSet r tgt input header points s) := by
  unfold Machine.execMeterInputSet
  dsimp only
  exact hostCmd (fun _ _ => AnsKeeps.checked (AnsKeeps.deferred (cfgWrite (refl _)))) _ _ _

theorem execMeterGlobalSet (r : Req) (tgt vnomA vnomB saveInt calInt : Nat) (s : State) : Answers s
    (Machine.execMeterGlobalSet r tgt vnomA vnomB saveInt calInt s) := by
  unfold Machine.execMeterGlobalSet
  dsimp only
  exact hostCmd (fun _ _ => AnsKeeps.checked (AnsKeeps.deferred (cfgWrite (refl _)))) _ _ _

theorem execMeterPulseSet (r : Req) (tgt out qty : Nat) (fdrMask : BitVec 8) (const : Nat) (s : State) : Answers s
    (Machine.execMeterPulseSet r tgt out qty fdrMask const s) := by
  unfold Machine.execMeterPulseSet
  exact hostCmd (fun _ _ => AnsKeeps.checked (AnsKeeps.deferred (cfgWrite (refl _)))) _ _ _

theorem execMeterCfgRead (r : Req) (sect : Nat) (s : State) : Answers s (Machine.execMeterCfgRead r sect s) := by
  unfold Machine.execMeterCfgRead
  dsimp only
  exact hostCmd (fun _ _ => AnsKeeps.checked (AnsKeeps.ok (refl _))) _ _ _

theorem execMeterRecordRead (r : Req) (feeder hcn count : Nat) (s : State) : Answers s (Machine.execMeterRecordRead r feeder hcn count s) := by
  unfold Machine.execMeterRecordRead
  dsimp only
  exact hostCmd (fun _ _ => AnsKeeps.checked (AnsKeeps.ok (refl _))) _ _ _

theorem execMeterSubscribe (r : Req) (fdrMask : BitVec 8) (n : Nat) (s : State) : Answers s (Machine.execMeterSubscribe r fdrMask n s) := by
  unfold Machine.execMeterSubscribe
  exact hostCmd (fun _ _ => AnsKeeps.checked (AnsKeeps.ok (onSession (refl _)))) _ _ _

theorem execMeterSnapshot (r : Req) (tgt : Nat) (s : State) : Answers s (Machine.execMeterSnapshot r tgt s) := by
  unfold Machine.execMeterSnapshot
  dsimp only
  exact hostCmd (fun _ _ => AnsKeeps.checked (AnsKeeps.deferred (record (bind (refl _))))) _ _ _

theorem execMeterSnapRead (r : Req) (first count : Nat) (s : State) : Answers s (Machine.execMeterSnapRead r first count s) := by
  unfold Machine.execMeterSnapRead
  dsimp only
  exact hostCmd (fun _ _ => AnsKeeps.checked (AnsKeeps.paged (refl _))) _ _ _

theorem execMeterAccRead (r : Req) (first count : Nat) (s : State) : Answers s (Machine.execMeterAccRead r first count s) := by
  unfold Machine.execMeterAccRead
  exact hostCmd (fun _ _ => AnsKeeps.paged (refl _)) _ _ _

theorem execMeterGapRead (r : Req) (s : State) : Answers s (Machine.execMeterGapRead r s) := by
  unfold Machine.execMeterGapRead
  exact hostCmd (fun _ _ => AnsKeeps.ok (refl _)) _ _ _

theorem satClear {s₀ s : State} {o : Nat} (h : Keeps s₀ s) : Keeps s₀ (s.satClear o) := by
  unfold Machine.State.satClear
  exact onPulse h

theorem execMeterSatClear (r : Req) (mask : BitVec 8) (s : State) : Answers s (Machine.execMeterSatClear r mask s) := by
  unfold Machine.execMeterSatClear
  dsimp only
  exact hostCmd (fun _ _ => AnsKeeps.ok (ite (satClear (ite (satClear (refl _)) (refl _))) (ite (satClear (refl _)) (refl _)))) _ _ _

theorem gapRecord {s₀ s : State} {g : Gap} (h : Keeps s₀ s) : Keeps s₀ (s.gapRecord g) := by
  unfold Machine.State.gapRecord
  exact raiseFw (onNv h)

theorem gapClose {s₀ s : State} {g : GapOpen} (h : Keeps s₀ s) : Keeps s₀ (s.gapClose g) := by
  unfold Machine.State.gapClose
  dsimp only
  exact gapRecord h

theorem meterEdge {s₀ s : State} (h : Keeps s₀ s) : Keeps s₀ (s.meterEdge) := by
  unfold Machine.State.meterEdge
  dsimp only
  exact ite
    h
    (saveEdge
      (by
        split
        · exact measureTemp h
        · exact by
              split
              · exact record (gapClose (record (measureTemp h)))
              · exact record (measureTemp h)))

theorem setConv {s₀ s : State} {c : Nat} {r : Role} {x : Nat} (h : Keeps s₀ s) : Keeps s₀ (s.setConv c r x) := by
  unfold Machine.State.setConv
  dsimp only
  exact h

theorem onMeter {s₀ s : State} {g : Meter → Meter} (h : Keeps s₀ s) : Keeps s₀ (s.onMeter g) := by
  unfold Machine.State.onMeter
  exact h

theorem tryCal {s₀ s : State} (h : Keeps s₀ s) : Keeps s₀ (s.tryCal) := by
  unfold Machine.State.tryCal
  dsimp only
  exact ite
    h
    (by
      split
      · exact h
      · exact by
            split
            · exact answer (onMeter (draw h))
            · exact onMeter (draw h))

theorem calAdd {s₀ s : State} {x : Nat} {retire periodic : Bool} (h : Keeps s₀ s) : Keeps s₀ (s.calAdd x retire periodic) := by
  unfold Machine.State.calAdd
  exact ite h (onMeter h)

theorem calEnd {s₀ s : State} (h : Keeps s₀ s) : Keeps s₀ (s.calEnd) := by
  unfold Machine.State.calEnd
  exact tryCal (onMeter h)

theorem convWorn {s₀ s : State} {c : Nat} (h : Keeps s₀ s) : Keeps s₀ (s.convWorn c) := by
  unfold Machine.State.convWorn
  exact ite h (ite (wornEvent h) (tryCal (calAdd h)))

theorem convExclude {s₀ s : State} {c : Nat} (h : Keeps s₀ s) : Keeps s₀ (s.convExclude c) := by
  unfold Machine.State.convExclude
  exact reserveNote (setConv h)

theorem execCalibrationStep (dt : Dt) (within : Bool) (offset gain : Int) (s : State) : Answers s
    (Machine.execCalibrationStep dt within offset gain s) := by
  unfold Machine.execCalibrationStep
  dsimp only
  exact Answers.next
    (by
      split
      · exact tick (refl _)
      · exact ite
            (tick (refl _))
            (by
              split
              · exact ite (onMeter (setConv (tick (refl _)))) (tick (refl _))
              · exact ite
                    (tick (refl _))
                    (ite (calEnd (reserveNote (convExclude (setConv (tick (refl _)))))) (onMeter (setConv (setConv (tick (refl _))))))
              · exact ite (onMeter (setConv (tick (refl _)))) (tick (refl _))
              · exact ite
                    (tick (refl _))
                    (ite
                      (calEnd (raiseUnit (stuckIf (onMeter (setConv (setConv (onNv (tick (refl _)))))))))
                      (calEnd (reserveNote (raiseUnit (wearInc (convExclude (tick (refl _))))))))))

theorem execCalibrationDue (dt : Dt) (input : Nat) (s : State) : Answers s (Machine.execCalibrationDue dt input s) := by
  unfold Machine.execCalibrationDue
  dsimp only
  exact Answers.next (ite (tick (refl _)) (tryCal (calAdd (tick (refl _)))))

theorem execMeterCalibrate (r : Req) (input : Nat) (s : State) : Answers s (Machine.execMeterCalibrate r input s) := by
  unfold Machine.execMeterCalibrate
  exact hostCmd
    (fun _ _ => AnsKeeps.checked (AnsKeeps.ite (AnsKeeps.ok (tryCal (onMeter (refl _)))) (AnsKeeps.later (onMeter (refl _)))))
    _
    _
    _

theorem execCalibrateStartTimeout (dt : Dt) (s : State) : Answers s (Machine.execCalibrateStartTimeout dt s) := by
  unfold Machine.execCalibrateStartTimeout
  dsimp only
  exact Answers.next
    (foldl
      (fun _ _ => by
        split
        · exact answer (refl _)
        · exact refl _) (onMeter (tick (refl _))))

theorem calAbandon {s₀ s : State} {failed : Nat} (h : Keeps s₀ s) : Keeps s₀ (s.calAbandon failed).2 := by
  unfold Machine.State.calAbandon
  split
  · exact h
  · exact onMeter h

theorem convTakes {s₀ s : State} {c x : Nat} {valid : Bool} (h : Keeps s₀ s) : Keeps s₀ (s.convTakes c x valid) := by
  unfold Machine.State.convTakes
  dsimp only
  exact onMeter
    (draw
      (reserveNote
        (setConv
          (by
            split
            · exact ite (calAdd (onMeter h)) h
            · exact h))))

theorem inputFails {s₀ s : State} {x : Nat} (h : Keeps s₀ s) : Keeps s₀ (s.inputFails x) := by
  unfold Machine.State.inputFails
  exact onMeter h

theorem execConverterFailure (dt : Dt) (conv : Nat) (s : State) : Answers s (Machine.execConverterFailure dt conv s) := by
  unfold Machine.execConverterFailure
  dsimp only
  refine Answers.next (ite (tick (refl _)) (tryCal ?_))
  generalize hu : State.raiseUnit _ _ _ _ _ _ _ = u
  have told : Keeps s u := hu ▸ raiseUnit (wearInc (convExclude (stuckIf (onMeter (tick (refl _))))))
  have spared (b : Calib) (d : Nat) (t : State) (o : Option Nat) (ht : Keeps s t) :
      Keeps s (match o with | some c => if c = d then t else t.setConv c .spare b.dwell | none => t) := by
    split
    · exact ite ht (setConv ht)
    · exact ht
  split
  · split
    · split
      · exact ite (spared _ _ _ _ (calAbandon (convTakes told))) (convTakes told)
      · exact convTakes told
    · split
      · next c t heq => exact convTakes (of_snd heq (calAbandon told))
      · next t heq => exact inputFails (of_snd heq (calAbandon told))
  · split
    · exact ite (calAbandon told) told
    · exact told
  · split
    · exact ite (calAbandon told) told
    · exact told
  · split
    · exact ite (calAdd (onMeter told)) told
    · exact told
  · exact told

theorem execSpareDwellEnd (dt : Dt) (conv : Nat) (spare : List Nat) (s : State) : Answers s (Machine.execSpareDwellEnd dt conv spare s) := by
  unfold Machine.execSpareDwellEnd
  dsimp only
  exact Answers.next
    (ite
      (tick (refl _))
      (by
        split
        · exact setConv (tick (refl _))
        · exact tryCal (convWorn (calAdd (raiseUnit (wearInc (stuckIf (onMeter (setConv (tick (refl _)))))))))))

theorem convReturn {s₀ s : State} {c : Nat} (h : Keeps s₀ s) : Keeps s₀ (s.convReturn c) := by
  unfold Machine.State.convReturn
  dsimp only
  split
  · exact tryCal (setConv (reserveNote h))
  · exact gapRecord (onMeter (setConv (reserveNote h)))

theorem execMeterStatus (r : Req) (s : State) : Answers s (Machine.execMeterStatus r s) := by
  unfold Machine.execMeterStatus
  exact hostCmd (fun _ _ => AnsKeeps.ok (refl _)) _ _ _

theorem onTab {s₀ s : State} {g : SilTables → SilTables} (h : Keeps s₀ s) : Keeps s₀ (s.onTab g) := by
  unfold Machine.State.onTab
  dsimp only
  exact h

theorem onQueue {s₀ s : State} {a : Nat} {g : List QEntry → List QEntry} (h : Keeps s₀ s) : Keeps s₀ (s.onQueue a g) := by
  unfold Machine.State.onQueue
  exact onFeeder h

theorem emptyQueues {s₀ s : State} (h : Keeps s₀ s) : Keeps s₀ (s.emptyQueues) := by
  unfold Machine.State.emptyQueues
  exact foldl (fun _ _ => onFeeder (refl _)) h

theorem setLevels {s₀ s : State} {a sent : Nat} {out : Option Nat} (h : Keeps s₀ s) : Keeps s₀ (s.setLevels a sent out) := by
  unfold Machine.State.setLevels
  dsimp only
  exact record (onTab h)

theorem commandLevel {s₀ s : State} {a : Nat} {level : Option Nat} (h : Keeps s₀ s) : Keeps s₀ (s.commandLevel a level) := by
  unfold Machine.State.commandLevel
  dsimp only
  exact onQueue
    (by
      split
      · exact setLevels h
      · exact setLevels h)

theorem applySensor {s₀ s : State} {m : SensorMsg} (h : Keeps s₀ s) : Keeps s₀ (s.applySensor m) := by
  unfold Machine.State.applySensor
  dsimp only
  exact ite (onTab (onTab h)) (onTab h)

theorem sensor {s₀ s : State} {m : SensorMsg} (h : Keeps s₀ s) : Keeps s₀ (s.sensor m) := by
  unfold Machine.State.sensor
  dsimp only
  exact ite h (applySensor h)

theorem nodeFallback {s₀ s : State} {a : Nat} (h : Keeps s₀ s) : Keeps s₀ (s.nodeFallback a) := by
  unfold Machine.State.nodeFallback
  dsimp only
  exact onQueue (sensor (setLevels h))

theorem passChange {s₀ s : State} {k a goal out : Nat} (h : Keeps s₀ s) : Keeps s₀ (s.passChange k a goal out) := by
  unfold Machine.State.passChange
  dsimp only
  exact ite (onQueue h) (ite (onQueue h) (onQueue h))

theorem execSillagePass (dt : Dt) (s : State) : Answers s (Machine.execSillagePass dt s) := by
  unfold Machine.execSillagePass
  dsimp only
  exact Answers.next
    (ite
      (tick (refl _))
      (by
        split
        · exact tick (refl _)
        · exact record (tick (refl _))))

theorem onSil {s₀ s : State} {g : Sillage → Sillage} (h : Keeps s₀ s) : Keeps s₀ (s.onSil g) := by
  unfold Machine.State.onSil
  exact h

theorem silStopped {s₀ s : State} (h : Keeps s₀ s) : Keeps s₀ (s.silStopped) := by
  unfold Machine.State.silStopped
  dsimp only
  exact foldl (fun _ _ => answer (refl _)) (emptyQueues (onSil h))

theorem commitPass {s₀ s : State} {k : Nat} (h : Keeps s₀ s) : Keeps s₀ (s.commitPass k) := by
  unfold Machine.State.commitPass
  dsimp only
  exact onSil (foldl (fun _ _ => ite (onTab (refl _)) (passChange (onTab (refl _)))) (onTab h))

theorem abandonPass {s₀ s : State} {k : Nat} (h : Keeps s₀ s) : Keeps s₀ (s.abandonPass k) := by
  unfold Machine.State.abandonPass
  dsimp only
  exact ite (raiseHw (stuckIf (onSil (onTab h)))) (raiseHw (stuckIf (emptyQueues (onSil (raiseHw (stuckIf (onSil (onTab h))))))))

theorem silStart {s₀ s : State} {t : Nat} (h : Keeps s₀ s) : Keeps s₀ (s.silStart t) := by
  unfold Machine.State.silStart
  dsimp only
  exact onSil (onTab h)

theorem execSillageAutoRestart (dt : Dt) (s : State) : Answers s (Machine.execSillageAutoRestart dt s) := by
  unfold Machine.execSillageAutoRestart
  dsimp only
  exact Answers.next (ite (onSil (silStart (tick (refl _)))) (tick (refl _)))

theorem execGraphStop (r : Req) (s : State) : Answers s (Machine.execGraphStop r s) := by
  have told (t : State) : Keeps t ((t.acts.filter (fun a => decide (a.what = ActWhat.graphRestart))).foldl
      (fun t a => t.complete a.ses a.seq a.cmd .discarded [])
      { t with acts := t.acts.filter (fun a => !decide (a.what = ActWhat.graphRestart)) }) :=
    foldl (fun _ _ => complete (refl _)) (refl t)
  unfold Machine.execGraphStop
  exact hostCmd (fun _ t => AnsKeeps.checked (AnsKeeps.ite (AnsKeeps.later (onSil (told t))) (AnsKeeps.ok (silStopped (told t))))) _ _ _

theorem execGraphEdgeWrite (r : Req) (first : Nat) (entries : List (BitVec 32)) (s : State) : Answers s
    (Machine.execGraphEdgeWrite r first entries s) := by
  unfold Machine.execGraphEdgeWrite
  exact hostCmd (fun _ _ => AnsKeeps.checked (AnsKeeps.ok (onTab (refl _)))) _ _ _

theorem execGraphNodeWrite (r : Req) (first : Nat) (entries : List (BitVec 128)) (s : State) : Answers s
    (Machine.execGraphNodeWrite r first entries s) := by
  unfold Machine.execGraphNodeWrite
  exact hostCmd (fun _ _ => AnsKeeps.checked (AnsKeeps.ok (onTab (refl _)))) _ _ _

theorem execGraphCurveWrite (r : Req) (curve : Nat) (points : List (BitVec 32)) (s : State) : Answers s
    (Machine.execGraphCurveWrite r curve points s) := by
  unfold Machine.execGraphCurveWrite
  exact hostCmd (fun _ _ => AnsKeeps.checked (AnsKeeps.ok (onTab (refl _)))) _ _ _

theorem execGraphSlewWrite (r : Req) (slew : Nat) (profile : BitVec 64) (s : State) : Answers s (Machine.execGraphSlewWrite r slew profile s) := by
  unfold Machine.execGraphSlewWrite
  exact hostCmd (fun _ _ => AnsKeeps.checked (AnsKeeps.ok (onTab (refl _)))) _ _ _

theorem execGraphCfgWrite (r : Req) (substeps ageLimit : Nat) (s : State) : Answers s (Machine.execGraphCfgWrite r substeps ageLimit s) := by
  unfold Machine.execGraphCfgWrite
  exact hostCmd (fun _ _ => AnsKeeps.checked (AnsKeeps.ok (onSil (refl _)))) _ _ _

theorem execGraphRestart (r : Req) (tgt : Nat) (s : State) : Answers s (Machine.execGraphRestart r tgt s) := by
  unfold Machine.execGraphRestart
  dsimp only
  exact hostCmd
    (fun _ _ => AnsKeeps.checked
      (by
        split
        · exact AnsKeeps.no
        · exact AnsKeeps.checked (AnsKeeps.deferred (bind (onSil (onNv (refl _)))))))
    _
    _
    _

theorem execGraphRead (r : Req) (first count table : Nat) (s : State) : Answers s (Machine.execGraphRead r first count table s) := by
  unfold Machine.execGraphRead
  dsimp only
  exact hostCmd
    (fun _ _ => by
      split
      · exact AnsKeeps.paged (refl _)
      · exact AnsKeeps.paged (refl _)
      · exact AnsKeeps.paged (refl _)
      · exact AnsKeeps.paged (refl _)
      · exact AnsKeeps.paged (refl _)
      · exact AnsKeeps.paged (refl _)
      · exact AnsKeeps.paged (refl _)
      · exact AnsKeeps.no) _ _ _

theorem execGraphStatus (r : Req) (s : State) : Answers s (Machine.execGraphStatus r s) := by
  unfold Machine.execGraphStatus
  dsimp only
  exact hostCmd (fun _ _ => AnsKeeps.ok (refl _)) _ _ _

theorem onBlot {s₀ s : State} {g : Blotter → Blotter} (h : Keeps s₀ s) : Keeps s₀ (s.onBlot g) := by
  unfold Machine.State.onBlot
  exact h

theorem onBstat {s₀ s : State} {a : Nat} {g : BitVec 32 → BitVec 32} (h : Keeps s₀ s) : Keeps s₀ (s.onBstat a g) := by
  unfold Machine.State.onBstat
  exact onNv (onBlot h)

theorem request {s₀ s : State} {a ses deadline delta prio : Nat} (h : Keeps s₀ s) : Keeps s₀ (s.request a ses deadline delta prio).2 := by
  unfold Machine.State.request
  split
  · exact onBlot h
  · exact onBlot h

theorem onReq {s₀ s : State} {id : Nat} {g : PReq → PReq} (h : Keeps s₀ s) : Keeps s₀ (s.onReq id g) := by
  unfold Machine.State.onReq
  exact onBlot h

theorem dropReq {s₀ s : State} {id : Nat} (h : Keeps s₀ s) : Keeps s₀ (s.dropReq id) := by
  unfold Machine.State.dropReq
  exact onBlot h

theorem deferReq {s₀ s : State} {id cause : Nat} (h : Keeps s₀ s) : Keeps s₀ (s.deferReq id cause) := by
  unfold Machine.State.deferReq
  exact ite (dropReq h) (onReq h)

theorem result {s₀ s : State} {x : ResultRec} {quiet : Bool} (h : Keeps s₀ s) : Keeps s₀ (s.result x quiet) := by
  unfold Machine.State.result
  dsimp only
  exact ite (onBstat (record (onBlot h))) (notifyClass (onBstat (record (onBlot h))))

theorem drawInt {s₀ s : State} (h : Keeps s₀ s) : Keeps s₀ (s.drawInt).2 := by
  unfold Machine.State.drawInt
  dsimp only
  exact h

theorem setModelFrom {s₀ s : State} {t a : Nat} {w : BitVec 64} (h : Keeps s₀ s) : Keeps s₀ (s.setModelFrom t a w) := by
  unfold Machine.State.setModelFrom
  dsimp only
  exact onNv h

theorem setModel {s₀ s : State} {a : Nat} {w : BitVec 64} (h : Keeps s₀ s) : Keeps s₀ (s.setModel a w) := by
  unfold Machine.State.setModel
  exact setModelFrom h

theorem freeInfo {s₀ s : State} (h : Keeps s₀ s) : Keeps s₀ (s.freeInfo).2 := by
  unfold Machine.State.freeInfo
  dsimp only
  exact record (drawInt h)

theorem learn {s₀ s : State} {a hi lo : Nat} {y : Int} {restart : Bool} (h : Keeps s₀ s) : Keeps s₀ (s.learn a hi lo y restart) := by
  unfold Machine.State.learn
  dsimp only
  refine ite h ?_
  split
  · refine raiseGen (onBlot ?_)
    split
    · exact h
    · exact freeInfo h
  · refine onBlot (ite (stuckTable (onBstat (setModel ?_))) (onBstat (setModel ?_))) <;>
      split
    · exact h
    · exact freeInfo h
    · exact h
    · exact freeInfo h

theorem setFailed {s₀ s : State} {a : Nat} {b : Bool} (h : Keeps s₀ s) : Keeps s₀ (s.setFailed a b) := by
  unfold Machine.State.setFailed
  exact onBlot (onBstat h)

theorem setSuspect {s₀ s : State} {a : Nat} {b : Bool} (h : Keeps s₀ s) : Keeps s₀ (s.setSuspect a b) := by
  unfold Machine.State.setSuspect
  exact onBstat h

theorem dropProbe {s₀ s : State} {req : Nat} (h : Keeps s₀ s) : Keeps s₀ (s.dropProbe req) := by
  unfold Machine.State.dropProbe
  exact onBlot h

theorem finishProbe {s₀ s : State} {p : Probe} {outcome cause ack : Nat} {j : Judged} (h : Keeps s₀ s) : Keeps s₀
    (s.finishProbe p outcome cause ack j) := by
  unfold Machine.State.finishProbe
  dsimp only
  split
  · exact dropProbe h
  · exact ite
        (dropReq (learn (setSuspect (setFailed (ite (onBstat (dropProbe (result h))) (dropProbe (result h)))))))
        (ite
          (ite
            (dropReq (ite (onBstat (dropProbe (result h))) (dropProbe (result h))))
            (onReq (ite (onBstat (dropProbe (result h))) (dropProbe (result h)))))
          (ite
            (onReq
              (setSuspect
                (ite
                  (ite (onBstat (dropProbe (result h))) (dropProbe (result h)))
                  (dropReq (ite (onBstat (dropProbe (result h))) (dropProbe (result h)))))))
            (ite
              (dropReq (raiseFw (setSuspect (setFailed (ite (onBstat (dropProbe (result h))) (dropProbe (result h)))))))
              (ite
                (dropReq (learn (raiseFw (setSuspect (ite (onBstat (dropProbe (result h))) (dropProbe (result h)))))))
                (dropReq (setSuspect (ite (onBstat (dropProbe (result h))) (dropProbe (result h)))))))))

theorem ackJudged {s₀ s : State} {p : Probe} {j : Judged} {result : Nat} (h : Keeps s₀ s) : Keeps s₀ (s.ackJudged p j result) := by
  unfold Machine.State.ackJudged
  split
  · exact finishProbe h
  · exact finishProbe h
  · exact finishProbe h
  · exact finishProbe h

theorem cutProbe {s₀ s : State} {a k : Nat} (h : Keeps s₀ s) : Keeps s₀ (s.cutProbe a k) := by
  unfold Machine.State.cutProbe
  split
  · exact finishProbe h
  · exact h

theorem commandProbe {s₀ s : State} {q : PReq} {start c : Nat} (h : Keeps s₀ s) : Keeps s₀ (s.commandProbe q start c) := by
  unfold Machine.State.commandProbe
  dsimp only
  exact onBlot (onReq (onFeeder (bind h)))

theorem planOne {s₀ s : State} {start id : Nat} (h : Keeps s₀ s) : Keeps s₀ (s.planOne start id) := by
  unfold Machine.State.planOne
  dsimp only
  split
  · exact h
  · exact ite
        h
        (by
          split
          · exact by
                split
                · exact commandProbe h
                · exact h
          · exact deferReq h)

theorem planProbes {s₀ s : State} (h : Keeps s₀ s) : Keeps s₀ (s.planProbes) := by
  unfold Machine.State.planProbes
  dsimp only
  exact foldl (fun _ _ => planOne (refl _)) h

theorem withdrawProbes {s₀ s : State} (h : Keeps s₀ s) : Keeps s₀ (s.withdrawProbes) := by
  unfold Machine.State.withdrawProbes
  dsimp only
  exact foldl (fun _ _ => ite (deferReq (dropProbe (onBlot (record (onFeeder (refl _)))))) (refl _)) h

theorem probeStart {s₀ s : State} {a c delta start req : Nat} (h : Keeps s₀ s) : Keeps s₀ (s.probeStart a c delta start req) := by
  unfold Machine.State.probeStart
  dsimp only
  exact ite (onFeeder (onBlot h)) (onNode (onFeeder (onBlot h)))

theorem publishSnap {s₀ s : State} (h : Keeps s₀ s) : Keeps s₀ (s.publishSnap) := by
  unfold Machine.State.publishSnap
  dsimp only
  exact ringDb h

theorem execLevelSnapshotCopy (dt : Dt) (s : State) : Answers s (Machine.execLevelSnapshotCopy dt s) := by
  unfold Machine.execLevelSnapshotCopy
  dsimp only
  exact Answers.next
    (by
      split
      · exact tick (refl _)
      · exact ite (tick (refl _)) (record (clearDb (tick (refl _)))))

theorem applyAttrib {s₀ s : State} {x k : Nat} {a : Attrib} (h : Keeps s₀ s) : Keeps s₀ (s.applyAttrib x k a) := by
  unfold Machine.State.applyAttrib
  dsimp only
  exact foldl (fun _ _ => stuckTable (refl _)) h

theorem residualNote {s₀ s : State} {x : Nat} {on : Bool} {mean : Int} (h : Keeps s₀ s) : Keeps s₀ (s.residualNote x on mean) := by
  unfold Machine.State.residualNote
  dsimp only
  exact notifyClass (raiseGen h)

theorem residual {s₀ s : State} {x : Nat} {res : Int} {dur : Nat} (h : Keeps s₀ s) : Keeps s₀ (s.residual x res dur) := by
  unfold Machine.State.residual
  dsimp only
  exact ite
    h
    (ite h (ite (ite (residualNote h) (foldl (fun _ _ => ite (request (refl _)) (refl _)) (residualNote h))) (ite (residualNote h) h)))

theorem corrSample {s₀ s : State} {f p k : Nat} {w : BitVec 640} (h : Keeps s₀ s) : Keeps s₀ (s.corrSample f p k w) := by
  unfold Machine.State.corrSample
  dsimp only
  exact onBlot h

theorem attribPhase {s₀ s : State} {f k : Nat} {w : BitVec 640} {p : Nat} (h : Keeps s₀ s) : Keeps s₀ (s.attribPhase f k w p) := by
  unfold Machine.State.attribPhase
  dsimp only
  exact ite (stuckIf (addTotal (record (corrSample (applyAttrib h))))) (residual (corrSample (applyAttrib h)))

theorem accSnapReady {s₀ s : State} (h : Keeps s₀ s) : Keeps s₀ (s.accSnapReady) := by
  unfold Machine.State.accSnapReady
  dsimp only
  split
  · exact h
  · exact h

theorem execAccordAttribution (dt : Dt) (f : Nat) (s : State) : Answers s (Machine.execAccordAttribution dt f s) := by
  unfold Machine.execAccordAttribution
  dsimp only
  exact Answers.next
    (ite
      (tick (refl _))
      (by
        split
        · exact tick (refl _)
        · exact ite
              (accSnapReady
                (record
                  (ite
                    (stuckIf (addTotal (record (foldl (fun _ _ => attribPhase (refl _)) (tick (refl _))))))
                    (foldl (fun _ _ => attribPhase (refl _)) (tick (refl _))))))
              (record
                (ite
                  (stuckIf (addTotal (record (foldl (fun _ _ => attribPhase (refl _)) (tick (refl _))))))
                  (foldl (fun _ _ => attribPhase (refl _)) (tick (refl _)))))))

theorem accSnapBegin {s₀ s : State} {t : Nat} (h : Keeps s₀ s) : Keeps s₀ (s.accSnapBegin t) := by
  unfold Machine.State.accSnapBegin
  dsimp only
  exact h

theorem execPeriodicSaveDone (dt : Dt) (s : State) : Answers s (Machine.execPeriodicSaveDone dt s) := by
  unfold Machine.execPeriodicSaveDone
  dsimp only
  exact Answers.next
    (by
      split
      · exact tick (refl _)
      · exact ite (tick (refl _)) (record (onSlot (tick (refl _)))))

theorem finalSaveBegin {s₀ s : State} (h : Keeps s₀ s) : Keeps s₀ (s.finalSaveBegin) := by
  unfold Machine.State.finalSaveBegin
  dsimp only
  exact ite h (finalFeederPart (record (onSlot (ite h h))))

theorem finalNodePart {s₀ s : State} (h : Keeps s₀ s) : Keeps s₀ (s.finalNodePart) := by
  unfold Machine.State.finalNodePart
  dsimp only
  split
  · exact ite (onSlot h) h
  · exact h

theorem restoreTotals {s₀ s : State} {module : Bool} (h : Keeps s₀ s) : Keeps s₀ (s.restoreTotals module) := by
  unfold Machine.State.restoreTotals
  dsimp only
  split
  · exact h
  · exact ite h (raiseGen h)

theorem loadD {s₀ s : State} (h : Keeps s₀ s) : Keeps s₀ (s.loadD) := by
  unfold Machine.State.loadD
  dsimp only
  exact h

theorem storeModels {s₀ s : State} (h : Keeps s₀ s) : Keeps s₀ (s.storeModels) := by
  unfold Machine.State.storeModels
  dsimp only
  exact onNv h

theorem execModelTableStore (dt : Dt) (s : State) : Answers s (Machine.execModelTableStore dt s) := by
  unfold Machine.execModelTableStore
  dsimp only
  exact Answers.next (ite (storeModels (tick (refl _))) (tick (refl _)))

theorem modelInForce {s₀ s : State} {t first : Nat} {es : List (BitVec 64)} (h : Keeps s₀ s) : Keeps s₀ (s.modelInForce t first es) := by
  unfold Machine.State.modelInForce
  exact foldl (fun _ _ => onBlot (setModelFrom (refl _))) h

theorem execAccordModelSet (r : Req) (tgt first : Nat) (entries : List (BitVec 64)) (s : State) : Answers s
    (Machine.execAccordModelSet r tgt first entries s) := by
  unfold Machine.execAccordModelSet
  exact hostCmd (fun _ _ => AnsKeeps.checked (AnsKeeps.deferred (storeModels (bind (refl _))))) _ _ _

theorem execAccordDefaultSet (r : Req) (entry : BitVec 64) (s : State) : Answers s (Machine.execAccordDefaultSet r entry s) := by
  unfold Machine.execAccordDefaultSet
  exact hostCmd (fun _ _ => AnsKeeps.ok (onNv (record (refl _)))) _ _ _

theorem execAccordModelRead (r : Req) (first count : Nat) (s : State) : Answers s (Machine.execAccordModelRead r first count s) := by
  unfold Machine.execAccordModelRead
  exact hostCmd (fun _ _ => AnsKeeps.paged (refl _)) _ _ _

theorem execAccordAccountRead (r : Req) (first count : Nat) (s : State) : Answers s (Machine.execAccordAccountRead r first count s) := by
  unfold Machine.execAccordAccountRead
  exact hostCmd (fun _ _ => AnsKeeps.paged (refl _)) _ _ _

theorem execAccordPhaseRead (r : Req) (first count : Nat) (s : State) : Answers s (Machine.execAccordPhaseRead r first count s) := by
  unfold Machine.execAccordPhaseRead
  exact hostCmd (fun _ _ => AnsKeeps.paged (refl _)) _ _ _

theorem execAccordSnapshot (r : Req) (tgt : Nat) (s : State) : Answers s (Machine.execAccordSnapshot r tgt s) := by
  unfold Machine.execAccordSnapshot
  dsimp only
  exact hostCmd (fun _ _ => AnsKeeps.checked (AnsKeeps.deferred (record (bind (refl _))))) _ _ _

theorem execAccordSnapRead (r : Req) (first count sect : Nat) (s : State) : Answers s (Machine.execAccordSnapRead r first count sect s) := by
  unfold Machine.execAccordSnapRead
  dsimp only
  exact hostCmd (fun _ _ => AnsKeeps.checked (AnsKeeps.ite (AnsKeeps.paged (refl _)) (AnsKeeps.paged (refl _)))) _ _ _

theorem execAccordCfgSet (r : Req) (resThr attTol : Nat) (s : State) : Answers s (Machine.execAccordCfgSet r resThr attTol s) := by
  unfold Machine.execAccordCfgSet
  exact hostCmd (fun _ _ => AnsKeeps.checked (AnsKeeps.ok (onNv (record (refl _))))) _ _ _

theorem execAccordStatus (r : Req) (s : State) : Answers s (Machine.execAccordStatus r s) := by
  unfold Machine.execAccordStatus
  exact hostCmd (fun _ _ => AnsKeeps.ok (refl _)) _ _ _

end Keeps
end Sys2Proof.Machine
end

