-- ==== Sys2Proof/Proofs/KeepsTransport.lean ====
section
/-!
PROOFS. What every command keeps (`Keeps`): one lemma for each operation of the SYS and KEY groups, bus accesses, the recorder and addressed memory.
-/
namespace Sys2Proof.Machine
namespace Keeps

theorem execSysIdentify (r : Req) (s : State) : Answers s (Machine.execSysIdentify r s) := by
  unfold Machine.execSysIdentify
  dsimp only
  exact Answers.ite (Answers.next (ite (say (tick (refl _))) (tick (refl _)))) (hostCmd (fun _ _ => AnsKeeps.ok (refl _)) _ _ _)

theorem execSysStatus (r : Req) (s : State) : Answers s (Machine.execSysStatus r s) := by
  unfold Machine.execSysStatus
  exact hostCmd (fun _ _ => AnsKeeps.ok (refl _)) _ _ _

theorem halfOpen {s₀ s : State} {r : Req} {priv : BitVec 16} {serial nh epk hostPub : Nat} (h : Keeps s₀ s) : Keeps s₀
    (s.halfOpen r priv serial nh epk hostPub) := by
  unfold Machine.State.halfOpen
  dsimp only
  exact say (record (draw (draw (draw (draw h)))))

theorem execSysSessionOpen (r : Req) (priv certPriv : BitVec 16) (nh epk serial : Nat) (cert : HostCert) (certSig notBefore notAfter : Nat)
    (s : State) : Answers s (Machine.execSysSessionOpen r priv certPriv nh epk serial cert certSig notBefore notAfter s) := by
  unfold Machine.execSysSessionOpen
  dsimp only
  exact Answers.next
    (ite
      (tick (refl _))
      (ite
        (arrived (tick (refl _)))
        (by
          split
          · exact discarded (arrived (tick (refl _)))
          · exact ite
                (discarded (arrived (tick (refl _))))
                (ite
                  (discarded (arrived (tick (refl _))))
                  (ite
                    (say (refusalPay (arrived (tick (refl _)))))
                    (ite
                      (say (raiseGen (arrived (tick (refl _)))))
                      (ite
                        (say (arrived (tick (refl _))))
                        (ite (say (refusalPay (arrived (tick (refl _))))) (halfOpen (arrived (tick (refl _))))))))))))

theorem dropSession {s₀ s : State} {id : Nat} (h : Keeps s₀ s) : Keeps s₀ (s.dropSession id) := by
  unfold Machine.State.dropSession
  dsimp only
  exact h

theorem execSysSessionConfirm (r : Req) (sig : Nat) (s : State) : Answers s (Machine.execSysSessionConfirm r sig s) := by
  unfold Machine.execSysSessionConfirm
  dsimp only
  refine Answers.next ?_
  have hg := gate (r := r) (halfOpenOk := true) (ite (p := ((s.tick r.dt).session r.ses).any (fun x => x.unconfirmed (s.tick r.dt).now) = true)
    (dropSession (id := r.ses) (tick (d := r.dt) (refl s))) (tick (d := r.dt) (refl s)))
  revert hg
  generalize State.gate _ r true = g
  cases g with
  | drop t => exact id
  | unauth t => exact say
  | again t x a => exact sendOn
  | accept t x =>
    intro ht
    refine seqLimit (ite (respond ht) (ite (respond ht) (ite ?_ ?_)))
    · exact respond (refusalPay ht)
    · exact respond (ite (raiseGen (onSession ht)) ht)

theorem execSysSessionClose (r : Req) (s : State) : Answers s (Machine.execSysSessionClose r s) := by
  unfold Machine.execSysSessionClose
  exact hostCmd (fun _ _ => AnsKeeps.okThen (refl _) (fun _ => endSession (refl _))) _ _ _

theorem execSysSubscribe (r : Req) (classes : BitVec 16) (sevMin : Nat) (s : State) : Answers s (Machine.execSysSubscribe r classes sevMin s) := by
  unfold Machine.execSysSubscribe
  exact hostCmd (fun _ _ => AnsKeeps.checked (AnsKeeps.ok (onSession (refl _)))) _ _ _

theorem execSysNotifyRead (r : Req) (first count : Nat) (s : State) : Answers s (Machine.execSysNotifyRead r first count s) := by
  unfold Machine.execSysNotifyRead
  dsimp only
  exact hostCmd
    (fun _ _ => by
      split
      · exact AnsKeeps.no
      · exact AnsKeeps.checked (AnsKeeps.ok (refl _))) _ _ _

theorem execSysSessions (r : Req) (s : State) : Answers s (Machine.execSysSessions r s) := by
  unfold Machine.execSysSessions
  dsimp only
  exact hostCmd (fun _ _ => AnsKeeps.ok (refl _)) _ _ _

theorem execSysNetSet (r : Req) (ipv4 mask gw vlan : Nat) (s : State) : Answers s (Machine.execSysNetSet r ipv4 mask gw vlan s) := by
  unfold Machine.execSysNetSet
  exact hostCmd (fun _ _ => AnsKeeps.checked (AnsKeeps.ok (onNv (refl _)))) _ _ _

theorem execSysNetRead (r : Req) (s : State) : Answers s (Machine.execSysNetRead r s) := by
  unfold Machine.execSysNetRead
  exact hostCmd (fun _ _ => AnsKeeps.ok (refl _)) _ _ _

theorem lifecycle {s₀ s : State} {new : Nat} (h : Keeps s₀ s) : Keeps s₀ (s.lifecycle new) := by
  unfold Machine.State.lifecycle
  dsimp only
  exact record (endAll h)

theorem execSysLifecycle (r : Req) (new serialChk : Nat) (s : State) : Answers s (Machine.execSysLifecycle r new serialChk s) := by
  unfold Machine.execSysLifecycle
  exact hostCmd (fun _ _ => AnsKeeps.checked (AnsKeeps.okThen (refl _) (fun _ => lifecycle (refl _)))) _ _ _

theorem execUnlistedCmdRequest (r : Req) (cmd : Nat) (s : State) : Answers s (Machine.execUnlistedCmdRequest r cmd s) := by
  unfold Machine.execUnlistedCmdRequest
  exact hostCmd (fun _ _ => AnsKeeps.no) _ _ _

theorem execSessionConfirmTimeout (dt : Dt) (ses : Nat) (s : State) : Answers s (Machine.execSessionConfirmTimeout dt ses s) := by
  unfold Machine.execSessionConfirmTimeout
  dsimp only
  exact Answers.next
    (by
      split
      · exact ite (dropSession (tick (refl _))) (tick (refl _))
      · exact tick (refl _))

theorem execSessionIdleTimeout (dt : Dt) (ses : Nat) (s : State) : Answers s (Machine.execSessionIdleTimeout dt ses s) := by
  unfold Machine.execSessionIdleTimeout
  dsimp only
  exact Answers.next
    (by
      split
      · exact ite (tick (refl _)) (endSession (tick (refl _)))
      · exact tick (refl _))

theorem execUsbBusReset (dt : Dt) (s : State) : Answers s (Machine.execUsbBusReset dt s) := by
  unfold Machine.execUsbBusReset
  dsimp only
  exact Answers.next (foldl (fun _ _ => endSession (refl _)) (tick (refl _)))

theorem execNotificationRelease (dt : Dt) (ses : Nat) (s : State) : Answers s (Machine.execNotificationRelease dt ses s) := by
  unfold Machine.execNotificationRelease
  dsimp only
  exact Answers.next
    (by
      split
      · exact tick (refl _)
      · exact ite
            (tick (refl _))
            (by
              split
              · exact onSession (tick (refl _))
              · exact by
                    split
                    · exact sendOn (onSession (tick (refl _)))
                    · exact onSession (tick (refl _))))

theorem setSlot {s₀ s : State} {n : Nat} {k : Slot} (h : Keeps s₀ s) : Keeps s₀ (s.setSlot n k) := by
  unfold Machine.State.setSlot
  dsimp only
  exact record (onNv h)

theorem loadKeys {s₀ s : State} (h : Keeps s₀ s) : Keeps s₀ (s.loadKeys) := by
  unfold Machine.State.loadKeys
  dsimp only
  exact h

theorem rewrapped {s₀ s : State} {a : Nat} (h : Keeps s₀ s) : Keeps s₀ (s.rewrapped a) := by
  unfold Machine.State.rewrapped
  exact foldl (fun _ _ => ite (setSlot (refl _)) (refl _)) h

theorem setTwin {s₀ s : State} {n : Nat} {attr : BitVec 64} {key : Nat} (h : Keeps s₀ s) : Keeps s₀ (s.setTwin n attr key).1 := by
  unfold Machine.State.setTwin
  dsimp only
  exact h

theorem dropTwin {s₀ s : State} {n : Nat} (h : Keeps s₀ s) : Keeps s₀ (s.dropTwin n) := by
  unfold Machine.State.dropTwin
  dsimp only
  exact h

theorem activate {s₀ s : State} {n rw gen key : Nat} (h : Keeps s₀ s) : Keeps s₀ (s.activate n rw gen key) := by
  unfold Machine.State.activate
  dsimp only
  exact setSlot h

theorem execKeySlotRead (r : Req) (s : State) : Answers s (Machine.execKeySlotRead r s) := by
  unfold Machine.execKeySlotRead
  exact hostCmd (fun _ _ => AnsKeeps.ok (refl _)) _ _ _

theorem execKeyLoad (r : Req) (slot : Nat) (attr : BitVec 64) (wkey wkeyA : Nat) (s : State) :
    Answers s (Machine.execKeyLoad r slot attr wkey wkeyA s) := by
  unfold Machine.execKeyLoad
  refine hostCmd (fun _ t => AnsKeeps.checked ?_) _ _ _
  split
  · exact AnsKeeps.no
  · exact AnsKeeps.checked (AnsKeeps.ok (setTwin (refl t)))

theorem drawKey {s₀ s : State} {type : Nat} (h : Keeps s₀ s) : Keeps s₀ (s.drawKey type).2 := by
  unfold Machine.State.drawKey
  exact ite_prod (draw (m := p256n - 1) h) (draw h)

theorem execKeyGenerate (r : Req) (slot : Nat) (attr : BitVec 64) (s : State) : Answers s (Machine.execKeyGenerate r slot attr s) := by
  unfold Machine.execKeyGenerate
  refine hostCmd (fun _ t => AnsKeeps.checked (AnsKeeps.ok (setTwin ?_))) _ _ _
  exact ite_prod (refl _) (ite_prod (refl _) (drawKey (refl _)))

theorem execKeyCommit (r : Req) (slot kcv : Nat) (s : State) : Answers s (Machine.execKeyCommit r slot kcv s) := by
  unfold Machine.execKeyCommit
  dsimp only
  exact hostCmd
    (fun _ _ => AnsKeeps.checked
      (by
        split
        · exact AnsKeeps.no
        · exact AnsKeeps.checked (AnsKeeps.ok (dropTwin (rewrapped (activate (refl _)))))))
    _
    _
    _

theorem orphan {s₀ s : State} {l : List Nat} (h : Keeps s₀ s) : Keeps s₀ (s.orphan l) := by
  unfold Machine.State.orphan
  dsimp only
  exact foldl (fun _ _ => record (onNv (refl _))) h

theorem spoilRegs {s₀ s : State} (h : Keeps s₀ s) : Keeps s₀ (s.spoilRegs) := by
  unfold Machine.State.spoilRegs
  exact onNv h

theorem execKeyInvalidate (r : Req) (slot : Nat) (s : State) : Answers s (Machine.execKeyInvalidate r slot s) := by
  unfold Machine.execKeyInvalidate
  dsimp only
  exact hostCmd
    (fun _ _ => AnsKeeps.checked
      (AnsKeeps.ok (ite (spoilRegs (dropTwin (setSlot (orphan (refl _))))) (dropTwin (setSlot (orphan (refl _)))))))
    _
    _
    _

theorem execKeyRollover (r : Req) (feeder tgt : Nat) (s : State) : Answers s (Machine.execKeyRollover r feeder tgt s) := by
  unfold Machine.execKeyRollover
  dsimp only
  exact hostCmd
    (fun _ _ => AnsKeeps.checked (AnsKeeps.deferred (onFeeder (foldl (fun _ _ => onNode (refl _)) (onNv (setTwin (refl _)))))))
    _
    _
    _

theorem execKeyRollRead (r : Req) (feeder : Nat) (s : State) : Answers s (Machine.execKeyRollRead r feeder s) := by
  unfold Machine.execKeyRollRead
  dsimp only
  exact hostCmd (fun _ _ => AnsKeeps.checked (AnsKeeps.ok (refl _))) _ _ _

theorem rolloverCommit {s₀ s : State} {f : Nat} (h : Keeps s₀ s) : Keeps s₀ (s.rolloverCommit f) := by
  unfold Machine.State.rolloverCommit
  dsimp only
  split
  · exact h
  · exact ite h (complete (raiseGen (onFeeder (record (onNv (dropTwin (activate h)))))))

theorem rolloversPassed {s₀ s : State} (h : Keeps s₀ s) : Keeps s₀ (s.rolloversPassed) := by
  unfold Machine.State.rolloversPassed
  exact foldl
    (fun _ _ => by
      split
      · exact ite (rolloverCommit (refl _)) (refl _)
      · exact refl _) h

theorem execKeyOperatorSet (r : Req) (pub sigFst sigSnd : Nat) (s : State) : Answers s (Machine.execKeyOperatorSet r pub sigFst sigSnd s) := by
  unfold Machine.execKeyOperatorSet
  exact hostCmd (fun _ _ => AnsKeeps.checked (AnsKeeps.okThen (activate (refl _)) (fun _ => endAll (refl _)))) _ _ _

theorem execKeyDenySet (r : Req) (serials : List Nat) (s : State) : Answers s (Machine.execKeyDenySet r serials s) := by
  unfold Machine.execKeyDenySet
  exact hostCmd
    (fun _ _ => AnsKeeps.checked (AnsKeeps.okThen (onNv (refl _)) (fun _ => foldl (fun _ _ => endSession (refl _)) (refl _))))
    _
    _
    _

theorem execKeyDenyRead (r : Req) (s : State) : Answers s (Machine.execKeyDenyRead r s) := by
  unfold Machine.execKeyDenyRead
  exact hostCmd (fun _ _ => AnsKeeps.ok (refl _)) _ _ _

theorem tamperRecord {s₀ s : State} {item resp : Nat} (h : Keeps s₀ s) : Keeps s₀ (s.tamperRecord item resp) := by
  unfold Machine.State.tamperRecord
  exact raiseHw h

theorem eraseTree {s₀ s : State} (h : Keeps s₀ s) : Keeps s₀ s.eraseTree := by
  have told (u : State) (f : Nat) : Keeps u (match tget none u.nv.rolls f with | some p => u.complete p.ses p.seq 0x0B06 .tamper [] | none => u) := by
    split
    · exact complete (refl _)
    · exact refl _
  unfold Machine.State.eraseTree
  exact spoilRegs (onNv (record (foldl (fun _ _ => ite (setSlot (refl _)) (refl _)) (foldl told h))))

theorem tamperRespond {s₀ s : State} {inputB : Bool} (h : Keeps s₀ s) : Keeps s₀ (s.tamperRespond inputB) := by
  unfold Machine.State.tamperRespond
  dsimp only
  exact ite
    (endAll (ite (eraseTree (notifyClass (tamperRecord h))) (notifyClass (tamperRecord h))))
    (ite (eraseTree (notifyClass (tamperRecord h))) (notifyClass (tamperRecord h)))

theorem tamperCount {s₀ s : State} (h : Keeps s₀ s) : Keeps s₀ (s.tamperCount) := by
  unfold Machine.State.tamperCount
  dsimp only
  exact stuckIf h

/-- What the tamper inputs and the log hold does not move the calendar. -/
theorem execTamperAssert (dt : Dt) (inputB : Bool) (s : State) : Answers s (Machine.execTamperAssert dt inputB s) := by
  have taken : Keeps s { s.tick dt with
      bk := if inputB then { (s.tick dt).bk with inB := true } else { (s.tick dt).bk with inA := true } } :=
    withBk (tick (refl _)) (by split <;> exact id)
  unfold Machine.execTamperAssert
  exact Answers.next (ite (tick (refl _)) (ite (ite (taken.withBk id) (taken.withBk id))
    (ite (record (tamperCount taken)) (tamperRespond (tamperCount taken)))))

theorem execTamperRearm (dt : Dt) (inputB : Bool) (s : State) : Answers s (Machine.execTamperRearm dt inputB s) := by
  unfold Machine.execTamperRearm
  exact Answers.next (withBk (tick (refl _)) (by split <;> exact id))

theorem treatTamper {s₀ s : State} {input item : Nat} (h : Keeps s₀ s) : Keeps s₀ (s.treatTamper input item) := by
  unfold Machine.State.treatTamper
  dsimp only
  exact ite (onNv (tamperRecord h)) (tamperRecord h)

theorem handOver {s₀ s : State} (h : Keeps s₀ s) : Keeps s₀ s.handOver := by
  unfold Machine.State.handOver
  exact withBk (foldl (fun _ _ => treatTamper (refl _)) (ite (treatTamper (tamperCount (foldl (fun _ _ => treatTamper (tamperCount (refl _))) h)))
    (foldl (fun _ _ => treatTamper (tamperCount (refl _))) h))) id

theorem execKeyTamperSet (r : Req) (respA respB : Nat) (s : State) : Answers s (Machine.execKeyTamperSet r respA respB s) := by
  unfold Machine.execKeyTamperSet
  exact hostCmd (fun _ _ => AnsKeeps.checked (AnsKeeps.ok (onNv (refl _)))) _ _ _

theorem execKeyTamperRead (r : Req) (s : State) : Answers s (Machine.execKeyTamperRead r s) := by
  unfold Machine.execKeyTamperRead
  exact hostCmd (fun _ _ => AnsKeeps.ok (refl _)) _ _ _

theorem execKeyTamperAck (r : Req) (input : Nat) (s : State) : Answers s (Machine.execKeyTamperAck r input s) := by
  unfold Machine.execKeyTamperAck
  dsimp only
  exact hostCmd (fun _ _ => AnsKeeps.checked (AnsKeeps.ok (ite (onNv (refl _)) (rolloversPassed (onNv (refl _)))))) _ _ _

theorem execTwinExpiry (dt : Dt) (slot : Nat) (s : State) : Answers s (Machine.execTwinExpiry dt slot s) := by
  unfold Machine.execTwinExpiry
  dsimp only
  exact Answers.next
    (by
      split
      · exact ite (tick (refl _)) (dropTwin (tick (refl _)))
      · exact tick (refl _))

theorem engineStops {s₀ s : State} {x1 : Master} (h : Keeps s₀ s) : Keeps s₀ (s.engineStops x1) := by
  unfold Machine.State.engineStops
  split
  · exact ite (onSil h) h
  · exact h
  · exact h
  · exact h
  · exact h

theorem busErr {s₀ s : State} {m : Master} {addr : Nat} {write : Bool} (h : Keeps s₀ s) : Keeps s₀ (s.busErr m addr write) := by
  unfold Machine.State.busErr
  exact raiseHw (emit (engineStops h))

theorem access {s₀ s : State} {m : Master} {addr : Nat} {write : Bool} {k : State → State} (h : Keeps s₀ s) (hk : ∀ u, Keeps u (k u)) :
    Keeps s₀ (s.access m addr write k) := by
  unfold Machine.State.access
  exact ite (h.trans (hk _)) (busErr h)

theorem onEv {s₀ s : State} {g : Intake → Intake} (h : Keeps s₀ s) (hg : s.ev.bounded = true → (g s.ev).bounded = true) :
    Keeps s₀ (s.onEv g) := withEv h hg

theorem sameQueues {e e' : Intake} (hc : e'.qC = e.qC) (hd : e'.qD = e.qD) (hm : e'.qM = e.qM) (hx : e'.qX = e.qX)
    (h : e.bounded = true) : e'.bounded = true := by
  unfold Intake.bounded at h ⊢
  rwa [hc, hd, hm, hx]

theorem setQ_bounded {e : Intake} {k : Queue} {l : List EvEntry} (h : e.bounded = true) (hl : l.length ≤ k.cap) :
    (e.setQ k l).bounded = true := by
  simp only [Intake.bounded, Bool.and_eq_true, decide_eq_true_eq] at h ⊢
  obtain ⟨⟨⟨hc, hd⟩, hm⟩, hx⟩ := h
  cases k
  · exact ⟨⟨⟨hl, hd⟩, hm⟩, hx⟩
  · exact ⟨⟨⟨hc, hl⟩, hm⟩, hx⟩
  · exact ⟨⟨⟨hc, hd⟩, hl⟩, hx⟩
  · exact ⟨⟨⟨hc, hd⟩, hm⟩, hl⟩

theorem setDrop_bounded {e : Intake} {k : Queue} {t : Tally} (h : e.bounded = true) : (e.setDrop k t).bounded = true := by
  cases k <;> exact h

theorem q_length_le {e : Intake} (k : Queue) (h : e.bounded = true) : (e.q k).length ≤ k.cap := by
  simp only [Intake.bounded, Bool.and_eq_true, decide_eq_true_eq] at h
  obtain ⟨⟨⟨hc, hd⟩, hm⟩, hx⟩ := h
  cases k
  · exact hc
  · exact hd
  · exact hm
  · exact hx

theorem eventNote {s₀ s : State} {w : BitVec 512} (h : Keeps s₀ s) : Keeps s₀ (s.eventNote w) := by
  unfold Machine.State.eventNote
  exact foldl (fun _ _ => notify (refl _)) h

theorem writeRec {s₀ s : State} {x : EvEntry} {circ : Bool} (h : Keeps s₀ s) : Keeps s₀ (s.writeRec x circ) := by
  unfold Machine.State.writeRec
  dsimp only
  refine eventNote (withEv ?_ id)
  exact ite (withEv h id) (withEv h id)

theorem dropNote {s₀ s : State} {k : Queue} (h : Keeps s₀ s) : Keeps s₀ (s.dropNote k) := by
  unfold Machine.State.dropNote
  dsimp only
  split_ifs with hk
  · exact h
  · exact onEv h fun he => setDrop_bounded (setQ_bounded he (by rw [List.length_append]; exact Nat.lt_of_not_le (not_or.mp hk).2))

theorem suppNote {s₀ s : State} {code : Nat} (h : Keeps s₀ s) : Keeps s₀ (s.suppNote code) := by
  unfold Machine.State.suppNote
  dsimp only
  split_ifs with hs hk
  · exact h
  · exact onEv h id
  · refine onEv h fun he => setQ_bounded (k := .chip) he ?_
    rw [List.length_append]
    exact Nat.lt_of_not_le hk

theorem queueEmptied {s₀ s : State} {k : Queue} (h : Keeps s₀ s) : Keeps s₀ (s.queueEmptied k) := by
  have counted (l : List EvEntry) (e : Intake) (he : e.bounded = true) : (l.foldl (fun e x => { e.setDrop k ((e.drop k).add x.hcn) with
      dropTotal := stick 0xFFFFFFFF (e.dropTotal + 1) }) e).bounded = true := by
    induction l generalizing e with
    | nil => exact he
    | cons x l ih => exact ih _ (setDrop_bounded (k := k) he)
  unfold Machine.State.queueEmptied
  exact totalsTold (dropNote (onEv h fun he => counted _ _ (setQ_bounded he (Nat.zero_le _))))

theorem execEventRecordWrite (dt : Dt) (s : State) : Answers s (Machine.execEventRecordWrite dt s) := by
  unfold Machine.execEventRecordWrite
  dsimp only
  refine Answers.next (ite (tick (refl _)) ?_)
  split
  · exact tick (refl _)
  · next k _ =>
    split
    · exact tick (refl _)
    · next x r hq =>
      have taken : Keeps s ((s.tick dt).onEv (fun e => e.setQ k r)) := onEv (tick (refl _)) fun he => setQ_bounded he (by
        have hle := q_length_le k he
        rw [hq, List.length_cons] at hle
        omega)
      split
      · exact suppNote (dropNote (writeRec taken))
      · exact dropNote (writeRec taken)

theorem execEvtinPortPush (dt : Dt) (region : Region) (code src : Nat) (pay : List Nat) (s : State) : Answers s
    (Machine.execEvtinPortPush dt region code src pay s) := by
  unfold Machine.execEvtinPortPush
  dsimp only
  exact Answers.next (ite (raise (tick (refl _))) (tick (refl _)))

theorem execEventLineEntry (dt : Dt) (block code cell : Nat) (pay : List Nat) (s : State) : Answers s
    (Machine.execEventLineEntry dt block code cell pay s) := by
  unfold Machine.execEventLineEntry
  dsimp only
  exact Answers.next (ite (raiseHw (tick (refl _))) (tick (refl _)))

theorem execTokenRefill (dt : Dt) (code : Nat) (s : State) : Answers s (Machine.execTokenRefill dt code s) := by
  unfold Machine.execTokenRefill
  exact Answers.next (ite (suppNote (onEv (tick (refl _)) id)) (tick (refl _)))

theorem evScan {s₀ s : State} (h : Keeps s₀ s) : Keeps s₀ s.evScan := by
  unfold Machine.State.evScan
  exact ite (onEv h id) (writeRec (onEv h id))

theorem execLogRead (r : Req) (area start count sevMin code : Nat) (s : State) : Answers s
    (Machine.execLogRead r area start count sevMin code s) := by
  unfold Machine.execLogRead
  dsimp only
  exact hostCmd (fun _ _ => AnsKeeps.checked (AnsKeeps.ok (refl _))) _ _ _

theorem execLogClear (r : Req) (s : State) : Answers s (Machine.execLogClear r s) := by
  unfold Machine.execLogClear
  exact hostCmd (fun _ _ => AnsKeeps.checked (AnsKeeps.ok (onEv (writeRec (refl _)) (sameQueues rfl rfl rfl rfl)))) _ _ _

theorem execLogClearEraseDone (dt : Dt) (s : State) : Answers s (Machine.execLogClearEraseDone dt s) := by
  unfold Machine.execLogClearEraseDone
  exact Answers.next (ite (tick (refl _)) (onEv (onNv (tick (refl _))) id))

theorem execLogStatus (r : Req) (s : State) : Answers s (Machine.execLogStatus r s) := by
  unfold Machine.execLogStatus
  dsimp only
  exact hostCmd (fun _ _ => AnsKeeps.ok (refl _)) _ _ _

theorem execLogRateSet (r : Req) (code refill : Nat) (s : State) : Answers s (Machine.execLogRateSet r code refill s) := by
  unfold Machine.execLogRateSet
  exact hostCmd (fun _ _ => AnsKeeps.checked (AnsKeeps.ok (onNv (refl _)))) _ _ _

theorem setRaw {s₀ s : State} {a n v : Nat} (h : Keeps s₀ s) : Keeps s₀ (s.setRaw a n v) := withMem h (Mem.put_wf _ _)

/-- A table entry written at an address is written in the table, in intake's queue in place of another, or in plain memory. -/
theorem viewSet {s₀ s : State} {v : TabView} {i n : Nat} (hv : v ∈ tabViews) (h : Keeps s₀ s) : Keeps s₀ (v.set s i n) := by
  simp only [tabViews, List.mem_cons, List.not_mem_nil, or_false] at hv
  rcases hv with e | e | e | e | e | e | e | e | e | e | e | e | e | e | e | e | e | e | e | e <;> rw [e]
  -- Tables of the engine, then those of Accord and Blotter.
  iterate 8 exact onTab h
  iterate 3 exact record h
  · exact onBlot h
  · exact record h
  -- Results and intake, whose empty positions are plain memory.
  · exact ite (onBlot h) (setRaw h)
  · dsimp only
    split
    · exact onEv h fun he => setQ_bounded he (by rw [List.length_set]; exact q_length_le _ he)
    · exact setRaw h
  -- The junction's tables, then the recorder's areas.
  iterate 3 exact record h
  iterate 2 exact onNv h

theorem setByte {s₀ s : State} {a b : Nat} (h : Keeps s₀ s) : Keeps s₀ (s.setByte a b) := by
  unfold Machine.State.setByte
  split
  · next v hv => exact viewSet (List.mem_of_find?_eq_some hv) h
  · exact withMem h (Mem.set_wf _ _)

theorem setBytes {s₀ s : State} {a : Nat} {l : List Nat} (h : Keeps s₀ s) : Keeps s₀ (s.setBytes a l) := by
  induction l generalizing s a with
  | nil => exact h
  | cons b l ih => exact ih (setByte h)

theorem onMac {s₀ s : State} {m : Nat} {g : Macro → Macro} (h : Keeps s₀ s) : Keeps s₀ (s.onMac m g) := by
  unfold Machine.State.onMac
  dsimp only
  exact h

theorem remapWord {s₀ s : State} {m w : Nat} (h : Keeps s₀ s) : Keeps s₀ (s.remapWord m w) := by
  unfold Machine.State.remapWord
  dsimp only
  exact ite
    (raiseHw (ite (raiseFw (reserveNote (onNv h))) (reserveNote (onNv h))))
    (ite (raiseFw (reserveNote (onNv h))) (reserveNote (onNv h)))

theorem corrected {s₀ s : State} {a : Nat} (h : Keeps s₀ s) : Keeps s₀ (s.corrected a) := by
  unfold Machine.State.corrected
  dsimp only
  split
  · exact h
  · exact ite (remapWord (onMac (stuckIf (onMac h)))) (stuckIf (onMac h))

theorem poison {s₀ s : State} {a : Nat} (h : Keeps s₀ s) : Keeps s₀ (s.poison a) := by
  unfold Machine.State.poison
  refine ite h ?_
  split
  · exact raiseHw (withMem h id)
  · exact stuckIf (raiseHw (onMac (withMem h id)))

theorem unpoison {s₀ s : State} {a : Nat} (h : Keeps s₀ s) : Keeps s₀ (s.unpoison a) := withMem h id

theorem drawBytes {s₀ s : State} {n : Nat} (h : Keeps s₀ s) : Keeps s₀ (s.drawBytes n).2 := by
  induction n generalizing s with
  | zero => exact h
  | succ n ih => exact ih (draw (m := 256) h)

theorem miscorrect {s₀ s : State} {a : Nat} (h : Keeps s₀ s) : Keeps s₀ (s.miscorrect a) := by
  unfold Machine.State.miscorrect
  dsimp only
  exact setBytes (drawBytes h)

theorem visit {s₀ s : State} {a : Nat} {found : Damage} (h : Keeps s₀ s) : Keeps s₀ (s.visit a found).2 := by
  unfold Machine.State.visit
  refine ite_prod h ?_
  split
  · exact h
  · exact corrected h
  · exact corrected h
  · exact poison h
  · exact ite_prod (poison (draw (m := 3) h)) (ite (corrected (miscorrect (draw (m := 3) h))) (miscorrect (draw (m := 3) h)))

theorem execScrubVisit (dt : Dt) (mac : Nat) (found : Damage) (s : State) : Answers s (Machine.execScrubVisit dt mac found s) := by
  unfold Machine.execScrubVisit
  dsimp only
  exact Answers.next (ite (tick (refl _)) (ite (onMac (onMac (visit (tick (refl _))))) (stuckIf (onMac (onMac (visit (tick (refl _))))))))

theorem moveSector {s₀ s : State} {k : Nat} (h : Keeps s₀ s) : Keeps s₀ (s.moveSector k) := by
  unfold Machine.State.moveSector
  dsimp only
  exact ite (reserveNote (onNv h)) h

theorem execMramScrubPass (dt : Dt) (corrected uncorrectable : List Nat) (s : State) : Answers s
    (Machine.execMramScrubPass dt corrected uncorrectable s) := by
  unfold Machine.execMramScrubPass
  dsimp only
  exact Answers.next
    (ite (tick (refl _)) (foldl (fun _ _ => moveSector (refl _)) (record (foldl (fun _ _ => poison (refl _)) (tick (refl _))))))

end Keeps
end Sys2Proof.Machine
end

