-- ==== Sys2Proof/Proofs/KeepsLink.lean ====
section
/-!
PROOFS. What every command keeps (`Keeps`): one lemma for each operation of the link, Blotter, DMA, nodes and schedules.
-/
namespace Sys2Proof.Machine
namespace Keeps

theorem nodeNote {s₀ s : State} {a eui kind dat : Nat} (h : Keeps s₀ s) : Keeps s₀ (s.nodeNote a eui kind dat) := by
  unfold Machine.State.nodeNote
  exact notifyClass h

theorem onReg {s₀ s : State} {eui : Nat} {g : Reg → Reg} (h : Keeps s₀ s) : Keeps s₀ (s.onReg eui g) := by
  unfold Machine.State.onReg
  exact onNv h

theorem freeAddr {s₀ s : State} {a : Nat} (h : Keeps s₀ s) : Keeps s₀ (s.freeAddr a) := by
  unfold Machine.State.freeAddr
  dsimp only
  exact onNv (onFeeder (onNode (onQueue (sensor h))))

theorem addBg {s₀ s : State} {f : Nat} {i : Item} {joinCfg : Bool} (h : Keeps s₀ s) : Keeps s₀ (s.addBg f i joinCfg) := by
  unfold Machine.State.addBg
  dsimp only
  exact h

theorem sendCfg {s₀ s : State} {a : Nat} (h : Keeps s₀ s) : Keeps s₀ (s.sendCfg a) := by
  unfold Machine.State.sendCfg
  dsimp only
  exact foldl (fun _ _ => addBg (refl _)) h

theorem completeJoin {s₀ s : State} {f : Nat} {q : JoinKey} (h : Keeps s₀ s) : Keeps s₀ (s.completeJoin f q) := by
  unfold Machine.State.completeJoin
  dsimp only
  split
  · exact h
  · exact ite
        (onFeeder
          (onNode
            (sendCfg
              (ite
                (ite
                  (ite
                    (setModel
                      (onBlot
                        (ite
                          (onReg
                            (by
                              split
                              · exact ite h (nodeNote (raiseGen (onNcfg (onNcfg (freeAddr h)))))
                              · exact h))
                          (onNode
                            (onReg
                              (by
                                split
                                · exact ite h (nodeNote (raiseGen (onNcfg (onNcfg (freeAddr h)))))
                                · exact h))))))
                    (onNv
                      (onBlot
                        (ite
                          (onReg
                            (by
                              split
                              · exact ite h (nodeNote (raiseGen (onNcfg (onNcfg (freeAddr h)))))
                              · exact h))
                          (onNode
                            (onReg
                              (by
                                split
                                · exact ite h (nodeNote (raiseGen (onNcfg (onNcfg (freeAddr h)))))
                                · exact h)))))))
                  (ite
                    (onReg
                      (by
                        split
                        · exact ite h (nodeNote (raiseGen (onNcfg (onNcfg (freeAddr h)))))
                        · exact h))
                    (onNode
                      (onReg
                        (by
                          split
                          · exact ite h (nodeNote (raiseGen (onNcfg (onNcfg (freeAddr h)))))
                          · exact h)))))
                (nodeNote
                  (ite
                    (ite
                      (setModel
                        (onBlot
                          (ite
                            (onReg
                              (by
                                split
                                · exact ite h (nodeNote (raiseGen (onNcfg (onNcfg (freeAddr h)))))
                                · exact h))
                            (onNode
                              (onReg
                                (by
                                  split
                                  · exact ite h (nodeNote (raiseGen (onNcfg (onNcfg (freeAddr h)))))
                                  · exact h))))))
                      (onNv
                        (onBlot
                          (ite
                            (onReg
                              (by
                                split
                                · exact ite h (nodeNote (raiseGen (onNcfg (onNcfg (freeAddr h)))))
                                · exact h))
                            (onNode
                              (onReg
                                (by
                                  split
                                  · exact ite h (nodeNote (raiseGen (onNcfg (onNcfg (freeAddr h)))))
                                  · exact h)))))))
                    (ite
                      (onReg
                        (by
                          split
                          · exact ite h (nodeNote (raiseGen (onNcfg (onNcfg (freeAddr h)))))
                          · exact h))
                      (onNode
                        (onReg
                          (by
                            split
                            · exact ite h (nodeNote (raiseGen (onNcfg (onNcfg (freeAddr h)))))
                            · exact h))))))))))
        (sendCfg
          (ite
            (ite
              (ite
                (setModel
                  (onBlot
                    (ite
                      (onReg
                        (by
                          split
                          · exact ite h (nodeNote (raiseGen (onNcfg (onNcfg (freeAddr h)))))
                          · exact h))
                      (onNode
                        (onReg
                          (by
                            split
                            · exact ite h (nodeNote (raiseGen (onNcfg (onNcfg (freeAddr h)))))
                            · exact h))))))
                (onNv
                  (onBlot
                    (ite
                      (onReg
                        (by
                          split
                          · exact ite h (nodeNote (raiseGen (onNcfg (onNcfg (freeAddr h)))))
                          · exact h))
                      (onNode
                        (onReg
                          (by
                            split
                            · exact ite h (nodeNote (raiseGen (onNcfg (onNcfg (freeAddr h)))))
                            · exact h)))))))
              (ite
                (onReg
                  (by
                    split
                    · exact ite h (nodeNote (raiseGen (onNcfg (onNcfg (freeAddr h)))))
                    · exact h))
                (onNode
                  (onReg
                    (by
                      split
                      · exact ite h (nodeNote (raiseGen (onNcfg (onNcfg (freeAddr h)))))
                      · exact h)))))
            (nodeNote
              (ite
                (ite
                  (setModel
                    (onBlot
                      (ite
                        (onReg
                          (by
                            split
                            · exact ite h (nodeNote (raiseGen (onNcfg (onNcfg (freeAddr h)))))
                            · exact h))
                        (onNode
                          (onReg
                            (by
                              split
                              · exact ite h (nodeNote (raiseGen (onNcfg (onNcfg (freeAddr h)))))
                              · exact h))))))
                  (onNv
                    (onBlot
                      (ite
                        (onReg
                          (by
                            split
                            · exact ite h (nodeNote (raiseGen (onNcfg (onNcfg (freeAddr h)))))
                            · exact h))
                        (onNode
                          (onReg
                            (by
                              split
                              · exact ite h (nodeNote (raiseGen (onNcfg (onNcfg (freeAddr h)))))
                              · exact h)))))))
                (ite
                  (onReg
                    (by
                      split
                      · exact ite h (nodeNote (raiseGen (onNcfg (onNcfg (freeAddr h)))))
                      · exact h))
                  (onNode
                    (onReg
                      (by
                        split
                        · exact ite h (nodeNote (raiseGen (onNcfg (onNcfg (freeAddr h)))))
                        · exact h))))))))

theorem takeLevel {s₀ s : State} {a l k : Nat} (h : Keeps s₀ s) : Keeps s₀ (s.takeLevel a l k) := by
  unfold Machine.State.takeLevel
  exact cutProbe (onNode h)

theorem recordsEffect {s₀ s : State} {k : Nat} (h : Keeps s₀ s) : Keeps s₀ (s.recordsEffect k) := by
  unfold Machine.State.recordsEffect
  exact foldl (fun _ _ => takeLevel (onNode (refl _))) h

theorem dropCmd {s₀ s : State} {id : Nat} (h : Keeps s₀ s) : Keeps s₀ (s.dropCmd id) := by
  unfold Machine.State.dropCmd
  exact foldl (fun _ _ => onFeeder (refl _)) h

theorem endProbe {s₀ s : State} {a k : Nat} (h : Keeps s₀ s) : Keeps s₀ (s.endProbe a k) := by
  unfold Machine.State.endProbe
  exact cutProbe (onNode h)

theorem memberLevel {s₀ s : State} {a l k id : Nat} (h : Keeps s₀ s) : Keeps s₀ (s.memberLevel a l k id) := by
  unfold Machine.State.memberLevel
  dsimp only
  exact ite h (ite (onNode h) (ite (takeLevel (commandLevel (onNode h))) (endProbe (commandLevel (onNode h)))))

theorem groupEffect {s₀ s : State} {id : Nat} {members : List Nat} {l k : Nat} (h : Keeps s₀ s) : Keeps s₀ (s.groupEffect id members l k) := by
  unfold Machine.State.groupEffect
  exact dropCmd (foldl (fun _ _ => memberLevel (refl _)) h)

theorem sceneEffect {s₀ s : State} {id : Nat} {members : List Nat} {scene k : Nat} (h : Keeps s₀ s) : Keeps s₀
    (s.sceneEffect id members scene k) := by
  unfold Machine.State.sceneEffect
  dsimp only
  exact dropCmd (foldl (fun _ _ => ite (ite (onNode (refl _)) (refl _)) (memberLevel (refl _))) h)

theorem spoil {s₀ s : State} {f : Nat} (h : Keeps s₀ s) : Keeps s₀ (s.spoil f) := by
  unfold Machine.State.spoil
  dsimp only
  split
  · exact h
  · exact onFeeder (foldl (fun _ _ => onFeeder (setLevels (onNode (refl _)))) h)

theorem settleFrame {s₀ s : State} {f : Nat} (h : Keeps s₀ s) : Keeps s₀ (s.settleFrame f) := by
  unfold Machine.State.settleFrame
  dsimp only
  split
  · exact by
        split
        · exact ite (onFeeder (completeJoin (onFeeder h))) (onFeeder h)
        · exact onFeeder h
  · exact onFeeder h

theorem updNote {s₀ s : State} {comp done total : Nat} (h : Keeps s₀ s) : Keeps s₀ (s.updNote comp done total) := by
  unfold Machine.State.updNote
  dsimp only
  exact notifyClass h

theorem placedBg {s₀ s : State} {f j : Nat} {r : BgRef} (h : Keeps s₀ s) : Keeps s₀ (s.placedBg f j r) := by
  unfold Machine.State.placedBg
  dsimp only
  split
  · exact onFeeder h
  · exact onNode (onFeeder h)
  · exact onNv h
  · exact ite (updNote (onFeeder h)) (onFeeder h)

theorem placeLevels {s₀ s : State} {f j : Nat} {l : List QEntry} (h : Keeps s₀ s) : Keeps s₀ (s.placeLevels f j l).1 := by
  unfold Machine.State.placeLevels
  exact foldl_fst (fun _ _ => cutProbe (ite (onNode (onFeeder (setLevels (refl _)))) (takeLevel (onFeeder (setLevels (refl _)))))) h

theorem noteSat {s₀ s : State} {f j : Nat} (h : Keeps s₀ s) : Keeps s₀ (s.noteSat f j) := by
  unfold Machine.State.noteSat
  dsimp only
  exact ite
    (ite (raiseGen (onFeeder (addTotal (stuckIf (onFeeder h))))) (addTotal (stuckIf (onFeeder h))))
    (ite (raiseGen (onFeeder h)) (onFeeder h))

theorem noteAges {s₀ s : State} {f j : Nat} {q placed : List QEntry} (h : Keeps s₀ s) : Keeps s₀ (s.noteAges f j q placed) := by
  unfold Machine.State.noteAges
  dsimp only
  exact addTotal (stuckIf (onFeeder h))

theorem closeOpen {s₀ s : State} {f j : Nat} (h : Keeps s₀ s) : Keeps s₀ (s.closeOpen f j).1 := by
  unfold Machine.State.closeOpen
  split
  · exact h
  · exact onFeeder h

theorem closeBody {s₀ s : State} {f j : Nat} {full : Bool} (h : Keeps s₀ s) : Keeps s₀ (s.closeBody f j full).1 := by
  unfold Machine.State.closeBody
  extract_lets x room most r1 busy en r2 s₁ bg0 free s₂ order chosen s₃
  have placed : Keeps s₀ (s₃.placeLevels f j chosen).1 := placeLevels (noteAges (foldl (fun _ _ => placedBg (refl _)) (onFeeder h)))
  exact ite_fst (onFeeder (foldl (fun _ _ => placedBg (refl _)) placed)) (foldl (fun _ _ => placedBg (refl _)) placed)

theorem closeBlock {s₀ s : State} {f : Nat} (h : Keeps s₀ s) : Keeps s₀ (s.closeBlock f) := by
  have closed : Keeps s₀ (if (s.feeder f).blockType (s.feeder f).frame = 13 then
      (s.noteAges f (s.feeder f).frame (s.feeder f).queue []).closeOpen f (s.feeder f).frame
      else s.closeBody f (s.feeder f).frame ((s.feeder f).blockType (s.feeder f).frame == 12)).1 :=
    ite_fst (closeOpen (noteAges h)) (closeBody h)
  unfold Machine.State.closeBlock
  extract_lets x j t
  split
  next u b heq =>
  have sent : Keeps s₀ (u.noteSat f j) := noteSat (of_fst heq closed)
  exact ite (spoil (onFeeder (ite sent (foldl (fun _ _ => emit (refl _)) sent)))) (onFeeder (ite sent (foldl (fun _ _ => emit (refl _)) sent)))

theorem execBlockClose (dt : Dt) (f : Nat) (s : State) : Answers s (Machine.execBlockClose dt f s) := by
  unfold Machine.execBlockClose
  dsimp only
  exact Answers.next (ite (closeBlock (onFeeder (tick (refl _)))) (tick (refl _)))

theorem onWtx {s₀ s : State} {g : StageBank → StageBank} (h : Keeps s₀ s) : Keeps s₀ (s.onWtx g) := by
  unfold Machine.State.onWtx
  exact h

theorem onRx {s₀ s : State} {f : Nat} {g : RxPath → RxPath} (h : Keeps s₀ s) : Keeps s₀ (s.onRx f g) := by
  unfold Machine.State.onRx
  exact h

theorem connect {s₀ s : State} {f : Nat} {m : Option Nat} (h : Keeps s₀ s) : Keeps s₀ (s.connect f m) := by
  unfold Machine.State.connect
  exact onWtx h

theorem stageSpare {s₀ s : State} {m : Nat} (h : Keeps s₀ s) : Keeps s₀ (s.stageSpare m) := by
  unfold Machine.State.stageSpare
  split
  · exact onWtx h
  · exact onWtx h

theorem stageFault {s₀ s : State} {m f : Nat} (h : Keeps s₀ s) : Keeps s₀ (s.stageFault m f) := by
  unfold Machine.State.stageFault
  dsimp only
  exact reserveNote (raiseHw (onWtx h))

theorem dropSets {s₀ s : State} {m : Nat} (h : Keeps s₀ s) : Keeps s₀ (s.dropSets m) := by
  unfold Machine.State.dropSets
  dsimp only
  exact onWtx h

theorem muteFeeder {s₀ s : State} {f : Nat} (h : Keeps s₀ s) : Keeps s₀ (s.muteFeeder f) := by
  unfold Machine.State.muteFeeder
  dsimp only
  exact onFeeder (onWtx (connect h))

theorem substitute {s₀ s : State} {f : Nat} {suspectFaulty : Bool} (h : Keeps s₀ s) : Keeps s₀ (s.substitute f suspectFaulty) := by
  unfold Machine.State.substitute
  dsimp only
  split
  · exact reserveNote
        (onFeeder
          (onWtx
            (connect
              (dropSets
                (ite
                  h
                  (by
                    split
                    · exact onWtx h
                    · exact h))))))
  · exact by
        split
        · exact reserveNote
              (onFeeder
                (onWtx
                  (connect
                    (muteFeeder
                      (ite
                        h
                        (by
                          split
                          · exact onWtx h
                          · exact h))))))
        · exact muteFeeder
              (ite
                h
                (by
                  split
                  · exact onWtx h
                  · exact h))

theorem retireStage {s₀ s : State} {f m : Nat} (h : Keeps s₀ s) : Keeps s₀ (s.retireStage f m) := by
  unfold Machine.State.retireStage
  exact onWtx h

theorem stageWorn {s₀ s : State} {f : Nat} (h : Keeps s₀ s) : Keeps s₀ (s.stageWorn f) := by
  unfold Machine.State.stageWorn
  split
  · exact h
  · exact ite
        h
        (by
          split
          · exact retireStage h
          · exact ite (wornEvent h) h)

theorem applySet {s₀ s : State} {f : Nat} (h : Keeps s₀ s) : Keeps s₀ (s.applySet f) := by
  unfold Machine.State.applySet
  dsimp only
  split
  · exact h
  · exact ite
        (reserveNote (onRx (onWtx (connect (onWtx h)))))
        (ite
          (reserveNote
            (by
              split
              · exact reserveNote (onWtx (connect (onWtx h)))
              · exact onWtx (connect (onWtx h))))
          (onWtx (onWtx h)))

theorem verdict {s₀ s : State} {f : Nat} {stageOk rxOk : Bool} (h : Keeps s₀ s) : Keeps s₀ (s.verdict f stageOk rxOk) := by
  unfold Machine.State.verdict
  dsimp only
  exact ite
    (by
      split
      · exact substitute
            (stageFault
              (ite
                (onFeeder h)
                (ite
                  (wornEvent (raiseHw (reserveNote (wearInc (onRx (onFeeder h))))))
                  (raiseHw (reserveNote (wearInc (onRx (onFeeder h))))))))
      · exact ite
            (onFeeder h)
            (ite (wornEvent (raiseHw (reserveNote (wearInc (onRx (onFeeder h)))))) (raiseHw (reserveNote (wearInc (onRx (onFeeder h)))))))
    (stageWorn
      (ite
        (raiseHw
          (onWtx
            (ite
              (onFeeder h)
              (ite
                (wornEvent (raiseHw (reserveNote (wearInc (onRx (onFeeder h))))))
                (raiseHw (reserveNote (wearInc (onRx (onFeeder h)))))))))
        (ite
          (onFeeder h)
          (ite (wornEvent (raiseHw (reserveNote (wearInc (onRx (onFeeder h)))))) (raiseHw (reserveNote (wearInc (onRx (onFeeder h)))))))))

theorem execEchoFailure (dt : Dt) (f : Nat) (s : State) : Answers s (Machine.execEchoFailure dt f s) := by
  unfold Machine.execEchoFailure
  dsimp only
  exact Answers.next
    (ite
      (tick (refl _))
      (ite
        (stageWorn
          (spoil
            (onFeeder
              (by
                split
                · exact wearInc (stuckIf (onRx (tick (refl _))))
                · exact stuckIf (onRx (tick (refl _)))))))
        (ite
          (onFeeder
            (spoil
              (onFeeder
                (by
                  split
                  · exact wearInc (stuckIf (onRx (tick (refl _))))
                  · exact stuckIf (onRx (tick (refl _)))))))
          (substitute
            (spoil
              (onFeeder
                (by
                  split
                  · exact wearInc (stuckIf (onRx (tick (refl _))))
                  · exact stuckIf (onRx (tick (refl _))))))))))

theorem execStageLoadCheck (dt : Dt) (stage : Nat) (pass currentPass rxPass : Bool) (s : State) : Answers s
    (Machine.execStageLoadCheck dt stage pass currentPass rxPass s) := by
  unfold Machine.execStageLoadCheck
  dsimp only
  exact Answers.next
    (by
      split
      · exact ite
            (tick (refl _))
            (ite
              (ite
                (verdict (onFeeder (stageSpare (raiseHw (onWtx (tick (refl _)))))))
                (onFeeder (stageSpare (raiseHw (onWtx (tick (refl _)))))))
              (ite (substitute (stageFault (onWtx (tick (refl _))))) (stageFault (onWtx (tick (refl _))))))
      · exact by
            split
            · exact verdict (tick (refl _))
            · exact tick (refl _))

theorem execSpareStageCheck (dt : Dt) (s : State) : Answers s (Machine.execSpareStageCheck dt s) := by
  unfold Machine.execSpareStageCheck
  dsimp only
  exact Answers.next
    (by
      split
      · exact reserveNote (raiseHw (wearInc (onWtx (dropSets (tick (refl _))))))
      · exact tick (refl _))

theorem execExtFaultClear (dt : Dt) (f : Nat) (s : State) : Answers s (Machine.execExtFaultClear dt f s) := by
  unfold Machine.execExtFaultClear
  dsimp only
  exact Answers.next (ite (onWtx (tick (refl _))) (tick (refl _)))

theorem execFrameBurstStart (dt : Dt) (f : Nat) (s : State) : Answers s (Machine.execFrameBurstStart dt f s) := by
  unfold Machine.execFrameBurstStart
  dsimp only
  exact Answers.next
    (by
      split
      · exact tick (refl _)
      · exact onFeeder (emit (emit (emit (onRx (onFeeder (applySet (settleFrame (tick (refl _))))))))))

theorem feederEdge {s₀ s : State} {f : Nat} (h : Keeps s₀ s) : Keeps s₀ (s.feederEdge f) := by
  unfold Machine.State.feederEdge
  dsimp only
  exact ite
    (onFeeder (onFeeder (onFeeder (ite (ite (applySet h) h) (applySet (ite (applySet h) h))))))
    (foldl
      (fun _ _ => ite (onNode (refl _)) (refl _))
      (onFeeder (settleFrame (onFeeder (onFeeder (ite (ite (applySet h) h) (applySet (ite (applySet h) h))))))))

theorem fallbackNode {s₀ s : State} {a : Nat} (h : Keeps s₀ s) : Keeps s₀ (s.fallbackNode a) := by
  unfold Machine.State.fallbackNode
  dsimp only
  exact onNode (cutProbe (onNode (nodeFallback h)))

theorem execLinkInactive50 (dt : Dt) (f : Nat) (s : State) : Answers s (Machine.execLinkInactive50 dt f s) := by
  unfold Machine.execLinkInactive50
  dsimp only
  exact Answers.next (ite (foldl (fun _ _ => fallbackNode (refl _)) (tick (refl _))) (tick (refl _)))

theorem deferProbe {s₀ s : State} {p : Probe} {cause : Nat} (h : Keeps s₀ s) : Keeps s₀ (s.deferProbe p cause) := by
  unfold Machine.State.deferProbe
  exact deferReq (onReq (dropProbe h))

theorem judgedAs {s₀ s : State} {p : Probe} {j : Judged} (h : Keeps s₀ s) : Keeps s₀ (s.judgedAs p j) := by
  unfold Machine.State.judgedAs
  exact ite
    (finishProbe h)
    (by
      split
      · exact ackJudged h
      · exact onBlot h)

theorem judge {s₀ s : State} {p : Probe} {x : Nat} (h : Keeps s₀ s) : Keeps s₀ (s.judge p x) := by
  unfold Machine.State.judge
  dsimp only
  exact ite (deferProbe h) (judgedAs h)

theorem judgeUnknown {s₀ s : State} {p : Probe} (h : Keeps s₀ s) : Keeps s₀ (s.judgeUnknown p) := by
  unfold Machine.State.judgeUnknown
  dsimp only
  exact ite
    h
    (ite
      (deferProbe h)
      (by
        split
        · exact judgedAs h
        · exact judge (setModel h)
        · exact deferProbe h))

theorem judgeProbe {s₀ s : State} {x : Nat} {p : Probe} (h : Keeps s₀ s) : Keeps s₀ (s.judgeProbe x p) := by
  unfold Machine.State.judgeProbe
  exact ite (judgeUnknown h) (ite (deferProbe h) (judge h))

theorem execWindowCorrelate (dt : Dt) (x : Nat) (s : State) : Answers s (Machine.execWindowCorrelate dt x s) := by
  unfold Machine.execWindowCorrelate
  dsimp only
  exact Answers.next
    (ite
      (tick (refl _))
      (by
        split
        · exact tick (refl _)
        · exact ite (tick (refl _)) (ite (onBlot (tick (refl _))) (foldl (fun _ _ => judgeProbe (refl _)) (onBlot (tick (refl _)))))))

theorem execProbeAckTimeout (dt : Dt) (addr : Nat) (s : State) : Answers s (Machine.execProbeAckTimeout dt addr s) := by
  unfold Machine.execProbeAckTimeout
  dsimp only
  exact Answers.next
    (by
      split
      · exact tick (refl _)
      · exact by
            split
            · exact ite (finishProbe (tick (refl _))) (tick (refl _))
            · exact tick (refl _))

theorem execRequestRetry (dt : Dt) (req : Nat) (s : State) : Answers s (Machine.execRequestRetry dt req s) := by
  unfold Machine.execRequestRetry
  dsimp only
  exact Answers.next (ite (onReq (tick (refl _))) (tick (refl _)))

theorem execRequestDeadline (dt : Dt) (req : Nat) (s : State) : Answers s (Machine.execRequestDeadline dt req s) := by
  unfold Machine.execRequestDeadline
  dsimp only
  exact Answers.next
    (by
      split
      · exact tick (refl _)
      · exact ite (tick (refl _)) (dropReq (result (tick (refl _)))))

theorem execAutoSweepDue (dt : Dt) (addr : Nat) (s : State) : Answers s (Machine.execAutoSweepDue dt addr s) := by
  unfold Machine.execAutoSweepDue
  dsimp only
  exact Answers.next (ite (onBlot (request (tick (refl _)))) (tick (refl _)))

theorem execBlotterRequest (r : Req) (addr delta deadline : Nat) (s : State) : Answers s (Machine.execBlotterRequest r addr delta deadline s) := by
  unfold Machine.execBlotterRequest
  dsimp only
  exact hostCmd (fun _ _ => AnsKeeps.checked (AnsKeeps.ok (request (refl _)))) _ _ _

theorem execBlotterCancel (r : Req) (req : Nat) (s : State) : Answers s (Machine.execBlotterCancel r req s) := by
  unfold Machine.execBlotterCancel
  exact hostCmd
    (fun _ _ => by
      split
      · exact AnsKeeps.no
      · exact AnsKeeps.ok (ite (onReq (refl _)) (dropReq (refl _)))) _ _ _

theorem execBlotterResultRead (r : Req) (mode key count : Nat) (s : State) : Answers s (Machine.execBlotterResultRead r mode key count s) := by
  unfold Machine.execBlotterResultRead
  dsimp only
  exact hostCmd (fun _ _ => AnsKeeps.checked (AnsKeeps.ok (refl _))) _ _ _

theorem execBlotterNodeRead (r : Req) (first count : Nat) (s : State) : Answers s (Machine.execBlotterNodeRead r first count s) := by
  unfold Machine.execBlotterNodeRead
  exact hostCmd (fun _ _ => AnsKeeps.paged (refl _)) _ _ _

theorem execBlotterClear (r : Req) (addr : Nat) (s : State) : Answers s (Machine.execBlotterClear r addr s) := by
  unfold Machine.execBlotterClear
  dsimp only
  exact hostCmd
    (fun _ _ => AnsKeeps.checked
      (AnsKeeps.ok (ite (foldl (fun _ _ => setSuspect (setFailed (refl _))) (refl _)) (setSuspect (setFailed (refl _))))))
    _
    _
    _

theorem execBlotterCfgSet (r : Req) (bc br : BitVec 32) (s : State) : Answers s (Machine.execBlotterCfgSet r bc br s) := by
  unfold Machine.execBlotterCfgSet
  dsimp only
  exact hostCmd (fun _ _ => AnsKeeps.checked (AnsKeeps.ok (onNv (onBlot (refl _))))) _ _ _

theorem execBlotterStatus (r : Req) (s : State) : Answers s (Machine.execBlotterStatus r s) := by
  unfold Machine.execBlotterStatus
  exact hostCmd (fun _ _ => AnsKeeps.ok (refl _)) _ _ _

theorem onChan {s₀ s : State} {r : Region} {n : Nat} {g : Channel → Channel} (h : Keeps s₀ s) : Keeps s₀ (s.onChan r n g) := by
  unfold Machine.State.onChan
  dsimp only
  exact h

theorem chanGo {s₀ s : State} {r : Region} {n : Nat} (h : Keeps s₀ s) : Keeps s₀ (s.chanGo r n) := by
  unfold Machine.State.chanGo
  dsimp only
  exact ite (onChan h) (ite (onChan h) (ite (ite (busErr (onChan h)) (ite (onChan h) (onChan h))) (ite (onChan h) (onChan h))))

theorem fetchDesc {s₀ s : State} {r : Region} {n : Nat} (h : Keeps s₀ s) : Keeps s₀ (s.fetchDesc r n) := by
  unfold Machine.State.fetchDesc
  dsimp only
  exact ite (busErr (onChan h)) (ite (onChan h) (ite (onChan h) (ite (busErr (onChan h)) (chanGo (onChan h)))))

theorem dmaStart {s₀ s : State} {r : Region} {n : Nat} (h : Keeps s₀ s) : Keeps s₀ (s.dmaStart r n) := by
  unfold Machine.State.dmaStart
  exact ite (fetchDesc h) h

theorem dmaAbort {s₀ s : State} {r : Region} {n : Nat} (h : Keeps s₀ s) : Keeps s₀ (s.dmaAbort r n) := by
  unfold Machine.State.dmaAbort
  split
  · exact h
  · exact onChan h
  · exact onChan h
  · exact onChan h

theorem descEnd {s₀ s : State} {r : Region} {n : Nat} (h : Keeps s₀ s) : Keeps s₀ (s.descEnd r n) := by
  unfold Machine.State.descEnd
  dsimp only
  exact ite
    (busErr (onChan h))
    (ite
      (fetchDesc
        (onChan (ite (record (stuckIf (onChan (setBytes (setBytes (setBytes h)))))) (stuckIf (onChan (setBytes (setBytes (setBytes h))))))))
      (ite (record (stuckIf (onChan (setBytes (setBytes (setBytes h)))))) (stuckIf (onChan (setBytes (setBytes (setBytes h)))))))

theorem execDmaStart (dt : Dt) (region : Region) (ch : Nat) (s : State) : Answers s (Machine.execDmaStart dt region ch s) := by
  unfold Machine.execDmaStart
  dsimp only
  exact Answers.next (ite (dmaStart (tick (refl _))) (tick (refl _)))

theorem execDmaAbort (dt : Dt) (region : Region) (ch : Nat) (s : State) : Answers s (Machine.execDmaAbort dt region ch s) := by
  unfold Machine.execDmaAbort
  dsimp only
  exact Answers.next (ite (dmaAbort (tick (refl _))) (tick (refl _)))

theorem execDmaRequest (dt : Dt) (region : Region) (ch : Nat) (s : State) : Answers s (Machine.execDmaRequest dt region ch s) := by
  unfold Machine.execDmaRequest
  dsimp only
  exact Answers.next (ite (onChan (tick (refl _))) (tick (refl _)))

theorem execDmaDescEnd (dt : Dt) (region : Region) (ch : Nat) (s : State) : Answers s (Machine.execDmaDescEnd dt region ch s) := by
  unfold Machine.execDmaDescEnd
  dsimp only
  exact Answers.next (ite (descEnd (tick (refl _))) (tick (refl _)))

theorem execLinkStatus (r : Req) (s : State) : Answers s (Machine.execLinkStatus r s) := by
  unfold Machine.execLinkStatus
  dsimp only
  exact hostCmd (fun _ _ => AnsKeeps.ok (refl _)) _ _ _

theorem execLinkAttenSet (r : Req) (feeder atten : Nat) (s : State) : Answers s (Machine.execLinkAttenSet r feeder atten s) := by
  unfold Machine.execLinkAttenSet
  exact hostCmd (fun _ _ => AnsKeeps.checked (AnsKeeps.ok (onWtx (onNv (refl _))))) _ _ _

theorem execLinkStageSet (r : Req) (feeder stage : Nat) (s : State) : Answers s (Machine.execLinkStageSet r feeder stage s) := by
  unfold Machine.execLinkStageSet
  exact hostCmd (fun _ _ => AnsKeeps.checked (AnsKeeps.ok (onWtx (refl _)))) _ _ _

theorem execNodeRegister (r : Req) (eui wik wikA addr : Nat) (s : State) : Answers s (Machine.execNodeRegister r eui wik wikA addr s) := by
  unfold Machine.execNodeRegister
  refine hostCmd (fun _ t => AnsKeeps.checked (AnsKeeps.ite AnsKeeps.no (AnsKeeps.checked (AnsKeeps.ok ?_)))) _ _ _
  split
  · exact ite (onReg (refl _)) (refl _)
  · exact onNv (refl _)

theorem unregister {s₀ s : State} {eui : Nat} (h : Keeps s₀ s) : Keeps s₀ (s.unregister eui) := by
  unfold Machine.State.unregister
  dsimp only
  exact onNv (foldl (fun _ _ => onFeeder (refl _)) h)

theorem nodeLeft {s₀ s : State} {a : Nat} (h : Keeps s₀ s) : Keeps s₀ (s.nodeLeft a) := by
  unfold Machine.State.nodeLeft
  dsimp only
  exact nodeNote (unregister (onNcfg (freeAddr h)))

theorem execNodeDeregister (r : Req) (eui : Nat) (s : State) : Answers s (Machine.execNodeDeregister r eui s) := by
  unfold Machine.execNodeDeregister
  dsimp only
  exact hostCmd
    (fun _ _ => by
      split
      · exact AnsKeeps.no
      · exact by
            split
            · exact AnsKeeps.ok (unregister (refl _))
            · exact AnsKeeps.ite (AnsKeeps.ok (refl _)) (AnsKeeps.ok (addBg (refl _)))) _ _ _

theorem execNodeRead (r : Req) (first count : Nat) (s : State) : Answers s (Machine.execNodeRead r first count s) := by
  unfold Machine.execNodeRead
  exact hostCmd (fun _ _ => AnsKeeps.paged (refl _)) _ _ _

theorem execNodeGroupsRead (r : Req) (addr : Nat) (s : State) : Answers s (Machine.execNodeGroupsRead r addr s) := by
  unfold Machine.execNodeGroupsRead
  dsimp only
  exact hostCmd (fun _ _ => AnsKeeps.checked (AnsKeeps.ok (refl _))) _ _ _

theorem AnsKeeps.bgWrite {s₀ s : State} {addr : Nat} {bad : Bool} {i : Item} (h : Keeps s₀ s) : AnsKeeps s₀ (s.bgWrite addr bad i) := by
  unfold Machine.State.bgWrite
  exact AnsKeeps.checked (AnsKeeps.ok (addBg h))

theorem execNodeGroupSet (r : Req) (addr gslot group valid : Nat) (s : State) : Answers s (Machine.execNodeGroupSet r addr gslot group valid s) := by
  unfold Machine.execNodeGroupSet
  exact hostCmd (fun _ _ => AnsKeeps.bgWrite (refl _)) _ _ _

theorem execNodeSceneSet (r : Req) (addr scene level : Nat) (s : State) : Answers s (Machine.execNodeSceneSet r addr scene level s) := by
  unfold Machine.execNodeSceneSet
  exact hostCmd (fun _ _ => AnsKeeps.bgWrite (refl _)) _ _ _

theorem execNodeParamSet (r : Req) (addr param value : Nat) (s : State) : Answers s (Machine.execNodeParamSet r addr param value s) := by
  unfold Machine.execNodeParamSet
  exact hostCmd (fun _ _ => AnsKeeps.bgWrite (refl _)) _ _ _

theorem linkCmd {s₀ s : State} {fs : List Nat} {t : Nat} {w : Who} {cmd : Nat} {item : Item} {what : Nat → ActWhat} (h : Keeps s₀ s) : Keeps s₀
    (s.linkCmd fs t w cmd item what) := by
  unfold Machine.State.linkCmd
  dsimp only
  exact bind (foldl (fun _ _ => onFeeder (refl _)) h)

theorem execNodeLevel (r : Req) (group level tgt : Nat) (s : State) : Answers s (Machine.execNodeLevel r group level tgt s) := by
  unfold Machine.execNodeLevel
  dsimp only
  exact hostCmd (fun _ _ => AnsKeeps.checked (AnsKeeps.deferred (linkCmd (refl _)))) _ _ _

theorem execNodeScene (r : Req) (scope group scene tgt : Nat) (s : State) : Answers s (Machine.execNodeScene r scope group scene tgt s) := by
  unfold Machine.execNodeScene
  dsimp only
  exact hostCmd (fun _ _ => AnsKeeps.checked (AnsKeeps.deferred (linkCmd (refl _)))) _ _ _

theorem execNodeOverride (r : Req) (scope id level tgt endHcn : Nat) (s : State) : Answers s
    (Machine.execNodeOverride r scope id level tgt endHcn s) := by
  unfold Machine.execNodeOverride
  dsimp only
  exact hostCmd (fun _ _ => AnsKeeps.checked (AnsKeeps.deferred (bind (refl _)))) _ _ _

theorem setOvr {s₀ s : State} {a v : Nat} (h : Keeps s₀ s) : Keeps s₀ (s.setOvr a v) := by
  unfold Machine.State.setOvr
  exact onTab h

theorem overrideWrite {s₀ s : State} {ms : List Nat} {level : Option Nat} (h : Keeps s₀ s) : Keeps s₀ (s.overrideWrite ms level) := by
  unfold Machine.State.overrideWrite
  exact foldl (fun _ _ => setOvr (refl _)) h

theorem overrideKeep {s₀ s : State} {ms : List Nat} {level : Option Nat} {endHcn order : Nat} (h : Keeps s₀ s) : Keeps s₀
    (s.overrideKeep ms level endHcn order) := by
  unfold Machine.State.overrideKeep
  exact foldl (fun _ _ => onNv (refl _)) h

theorem overridesOver {s₀ s : State} (h : Keeps s₀ s) : Keeps s₀ (s.overridesOver) := by
  unfold Machine.State.overridesOver
  exact onNv h

theorem overridesEnd {s₀ s : State} (h : Keeps s₀ s) : Keeps s₀ (s.overridesEnd) := by
  unfold Machine.State.overridesEnd
  dsimp only
  exact foldl (fun _ _ => setOvr (refl _)) h

theorem writeLimits {s₀ s : State} {c0 : Option Nat} (h : Keeps s₀ s) : Keeps s₀ (s.writeLimits c0) := by
  unfold Machine.State.writeLimits
  dsimp only
  exact onTab h

theorem bindLimits {s₀ s : State} (h : Keeps s₀ s) : Keeps s₀ (s.bindLimits) := by
  unfold Machine.State.bindLimits
  dsimp only
  exact h

theorem onSched {s₀ s : State} {g : Sched → Sched} (h : Keeps s₀ s) : Keeps s₀ (s.onSched g) := by
  unfold Machine.State.onSched
  exact h

theorem runScene {s₀ s : State} {g i day t : Nat} {w : BitVec 64} (h : Keeps s₀ s) : Keeps s₀ (s.runScene g i day t w).1 := by
  unfold Machine.State.runScene
  exact ite_fst h (record (foldl (fun _ _ => onFeeder (refl _)) h))

theorem finalOne {s₀ s : State} {g i day sec : Nat} (h : Keeps s₀ s) : Keeps s₀ (s.finalOne g i day sec).1 := by
  unfold Machine.State.finalOne
  exact ite_fst (runScene (ite (onSched h) h)) (ite (onSched h) h)

theorem convertOne {s₀ s : State} {g i day : Nat} {r : SchedRec} {w : BitVec 64} (h : Keeps s₀ s) : Keeps s₀ (s.convertOne g i day r w).1 := by
  unfold Machine.State.convertOne
  refine ite_fst h ?_
  split
  · exact ite h (raiseGen (onNv h))
  · exact ite_fst h (ite_fst h (ite_fst (finalOne h) (onSched h)))

theorem convertDay {s₀ s : State} {day : Nat} (h : Keeps s₀ s) : Keeps s₀ (s.convertDay day).1 := by
  unfold Machine.State.convertDay
  exact foldl_fst (fun _ _ => foldl_fst (fun _ _ => convertOne (refl _)) (refl _)) h

theorem convFailed {s₀ s : State} {day n : Nat} (h : Keeps s₀ s) : Keeps s₀ (s.convFailed day n) := by
  unfold Machine.State.convFailed
  exact ite h (notifyClass (raiseGen h))

theorem convert {s₀ s : State} {midnight : Bool} (h : Keeps s₀ s) : Keeps s₀ (s.convert midnight) := by
  unfold Machine.State.convert
  dsimp only
  exact ite (convFailed (convertDay h)) (convFailed (convertDay (convertDay h)))

theorem trigger {s₀ s : State} (h : Keeps s₀ s) : Keeps s₀ (s.trigger) := by
  unfold Machine.State.trigger
  dsimp only
  exact ite h (ite (writeLimits h) (ite (bindLimits h) (convert (onSched (bindLimits h)))))

theorem timeInvalid {s₀ s : State} (h : Keeps s₀ s) : Keeps s₀ (s.timeInvalid) := by
  unfold Machine.State.timeInvalid
  dsimp only
  exact convFailed (raiseGen (onSched (bindLimits h)))

theorem schedEdge {s₀ s : State} (h : Keeps s₀ s) : Keeps s₀ (s.schedEdge) := by
  unfold Machine.State.schedEdge
  exact onSched h

theorem schedTriggers {s₀ s : State} (h : Keeps s₀ s) : Keeps s₀ (s.schedTriggers) := by
  unfold Machine.State.schedTriggers
  dsimp only
  exact ite
    (ite (timeInvalid (schedEdge h)) (schedEdge h))
    (ite (trigger (raiseGen (schedEdge h))) (ite (trigger (schedEdge h)) (ite (convert (schedEdge h)) (schedEdge h))))

theorem limitsDue {s₀ s : State} (h : Keeps s₀ s) : Keeps s₀ (s.limitsDue) := by
  unfold Machine.State.limitsDue
  dsimp only
  exact onSched (ite (foldl (fun _ _ => writeLimits (refl _)) h) (writeLimits (foldl (fun _ _ => writeLimits (refl _)) h)))

theorem schedResume {s₀ s : State} (h : Keeps s₀ s) : Keeps s₀ (s.schedResume) := by
  unfold Machine.State.schedResume
  dsimp only
  exact ite
    (convert (schedEdge (ite (raiseGen (writeLimits (onTab (onSched h)))) (writeLimits (onTab (onSched h))))))
    (schedEdge (ite (raiseGen (writeLimits (onTab (onSched h)))) (writeLimits (onTab (onSched h)))))

theorem execFinalConversion (dt : Dt) (s : State) : Answers s (Machine.execFinalConversion dt s) := by
  unfold Machine.execFinalConversion
  exact Answers.next (ite (tick (refl _)) (convFailed (foldl_fst (fun _ _ => finalOne (refl _)) (onSched (tick (refl _))))))

theorem execSchedWrite (r : Req) (group : Nat) (header : BitVec 32) (entries : List (BitVec 64)) (s : State) : Answers s
    (Machine.execSchedWrite r group header entries s) := by
  unfold Machine.execSchedWrite
  dsimp only
  exact hostCmd (fun _ _ => AnsKeeps.checked (AnsKeeps.ok (trigger (onNv (refl _))))) _ _ _

theorem execSchedRead (r : Req) (group : Nat) (s : State) : Answers s (Machine.execSchedRead r group s) := by
  unfold Machine.execSchedRead
  dsimp only
  exact hostCmd (fun _ _ => AnsKeeps.ok (refl _)) _ _ _

theorem execSchedHolWrite (r : Req) (cal : Nat) (dates : List (BitVec 32)) (s : State) : Answers s (Machine.execSchedHolWrite r cal dates s) := by
  unfold Machine.execSchedHolWrite
  exact hostCmd (fun _ _ => AnsKeeps.checked (AnsKeeps.ok (trigger (onNv (refl _))))) _ _ _

theorem execSchedHolRead (r : Req) (cal : Nat) (s : State) : Answers s (Machine.execSchedHolRead r cal s) := by
  unfold Machine.execSchedHolRead
  dsimp only
  exact hostCmd (fun _ _ => AnsKeeps.checked (AnsKeeps.ok (refl _))) _ _ _

theorem execSchedSiteWrite (r : Req) (site : Site) (s : State) : Answers s (Machine.execSchedSiteWrite r site s) := by
  unfold Machine.execSchedSiteWrite
  exact hostCmd (fun _ _ => AnsKeeps.checked (AnsKeeps.ok (trigger (onNv (refl _))))) _ _ _

theorem execSchedSiteRead (r : Req) (s : State) : Answers s (Machine.execSchedSiteRead r s) := by
  unfold Machine.execSchedSiteRead
  dsimp only
  exact hostCmd (fun _ _ => AnsKeeps.ok (refl _)) _ _ _

theorem execSchedSunRead (r : Req) (date : BitVec 32) (s : State) : Answers s (Machine.execSchedSunRead r date s) := by
  unfold Machine.execSchedSunRead
  dsimp only
  exact hostCmd (fun _ _ => AnsKeeps.checked (AnsKeeps.ok (refl _))) _ _ _

theorem execSchedLimitsRead (r : Req) (addr : Nat) (s : State) : Answers s (Machine.execSchedLimitsRead r addr s) := by
  unfold Machine.execSchedLimitsRead
  dsimp only
  exact hostCmd (fun _ _ => AnsKeeps.checked (AnsKeeps.ok (refl _))) _ _ _

end Keeps
end Sys2Proof.Machine
end

