-- ==== Sys2Proof/Proofs/KeepsNetSign.lean ====
section
/-!
PROOFS. What every command keeps (`Keeps`): one lemma for each operation of the calendar, the network, the sign matrix and the sign bus.
-/
namespace Sys2Proof.Machine
namespace Keeps

theorem rtcAccess {s₀ s : State} {m : Master} {off : Nat} {write : Bool} {k : State → State} (h : Keeps s₀ s) (hk : ∀ u, Keeps u (k u)) :
    Keeps s₀ (s.rtcAccess m off write k) := by
  unfold Machine.State.rtcAccess
  exact ite (busErr h) (access h hk)

theorem rtcYear {s₀ s : State} (h : Keeps s₀ s) : Keeps s₀ (s.rtcYear) := by
  unfold Machine.State.rtcYear
  dsimp only
  split
  · exact emit h
  · exact emit h

theorem rtcBlock {s₀ s : State} {off : Nat} (h : Keeps s₀ s) : Keeps s₀ (s.rtcBlock off) := by
  unfold Machine.State.rtcBlock
  dsimp only
  split
  · exact emit h
  · exact emit h

theorem execRtcBlockRead (dt : Dt) (m : Master) (offset : Nat) (s : State) : Answers s (Machine.execRtcBlockRead dt m offset s) := by
  unfold Machine.execRtcBlockRead
  dsimp only
  exact Answers.next
    (ite
      (rtcAccess (tick (refl _)) (fun _ => rtcBlock (refl _)))
      (ite (rtcAccess (tick (refl _)) (fun _ => rtcYear (refl _))) (tick (refl _))))

theorem execRtcYearRead (dt : Dt) (m : Master) (s : State) : Answers s (Machine.execRtcYearRead dt m s) := by
  unfold Machine.execRtcYearRead
  exact Answers.next (rtcAccess (tick (refl _)) (fun _ => rtcYear (refl _)))

theorem execRtcFreezeTimeout (dt : Dt) (s : State) : Answers s (Machine.execRtcFreezeTimeout dt s) := by
  unfold Machine.execRtcFreezeTimeout
  dsimp only
  exact Answers.next (ite (record (tick (refl _))) (tick (refl _)))

theorem rtcReject {s₀ s : State} {cause : Nat} (h : Keeps s₀ s) : Keeps s₀ (s.rtcReject cause) := by
  unfold Machine.State.rtcReject
  dsimp only
  exact stuckIf h

/-- A set that no check refuses lies within the calendar (13 R410, R416). -/
theorem setCause_zero_lt {s : State} {sec : Nat} (h : s.setCause sec = 0) :
    secsOf (s.rtc.wrYear.getD 0) (s.rtc.wrMonth.getD 1) (s.rtc.wrDay.getD 1) (s.rtc.wrHour.getD 0) (s.rtc.wrMin.getD 0) sec < calSecs := by
  unfold Machine.State.setCause at h
  dsimp only at h
  split_ifs at h
  split at h
  · next mi hr d mo y hmi hhr hd hmo hy =>
    split_ifs at h with hrange hdate
    have date : IsDate y mo d := ⟨by omega, by omega, by omega, by omega⟩
    have hday := date.dayNo_lt.trans_le (daysBeforeYear_mono (show y + 1 ≤ 200 by omega))
    rw [hmi, hhr, hd, hmo, hy, calSecs_eq]
    simp only [Option.getD_some, secsOf]
    omega
  · exact absurd h (by decide)

/-- A set on its way into the backup domain leaves it in its range. -/
theorem crossing_inRange {b : Backup} {c : Nat} (hc : c < calSecs) (h : b.inRange = true) :
    ({ b with crossing := some c } : Backup).inRange = true := by
  simp only [Backup.inRange, Bool.and_eq_true, decide_eq_true_eq] at h ⊢
  exact ⟨⟨h.1.1, hc⟩, h.2⟩

theorem rtcSet {s₀ s : State} {sec : Nat} (h : Keeps s₀ s) : Keeps s₀ (s.rtcSet sec) := by
  unfold Machine.State.rtcSet
  dsimp only
  split_ifs with hc
  · exact rtcReject (record h)
  · exact withBk h (crossing_inRange (setCause_zero_lt (not_not.mp hc)))

theorem execRtcFieldWrite (dt : Dt) (m : Master) (offset : Nat) (value : BitVec 32) (s : State) : Answers s
    (Machine.execRtcFieldWrite dt m offset value s) := by
  unfold Machine.execRtcFieldWrite
  exact Answers.next (rtcAccess (tick (refl _)) (fun _ => refl _))

theorem execRtcSecsWrite (dt : Dt) (m : Master) (value : BitVec 32) (s : State) : Answers s (Machine.execRtcSecsWrite dt m value s) := by
  unfold Machine.execRtcSecsWrite
  exact Answers.next (rtcAccess (tick (refl _)) (fun _ => rtcSet (refl _)))

/-- The calendar, restarted with its prescaler at a second within 2000-2199, is in its range; no step waits. -/
theorem restarted_inRange {b b' : Backup} (h : b.inRange = true) (hsub : b'.sub = 0) (hsecs : b'.secs < calSecs) (hstep : b'.step = none)
    (hx : b'.crossing = b.crossing ∨ b'.crossing = none) : b'.inRange = true := by
  simp only [Backup.inRange, Bool.and_eq_true, decide_eq_true_eq] at h ⊢
  refine ⟨⟨⟨by omega, hsecs⟩, ?_⟩, by rw [hstep]⟩
  rcases hx with hx | hx <;> rw [hx]
  · exact h.1.2
  · decide

theorem execRtcSetApply (dt : Dt) (s : State) : Answers s (Machine.execRtcSetApply dt s) := by
  unfold Machine.execRtcSetApply
  refine Answers.next ?_
  dsimp only
  split
  · exact tick (refl _)
  · next c hc =>
    refine withBk (tick (refl _)) fun h => restarted_inRange h rfl ?_ rfl (.inr rfl)
    simp only [Backup.inRange, Bool.and_eq_true, decide_eq_true_eq, hc, Option.getD_some] at h
    exact h.1.2

theorem rtcStep {s₀ s : State} {fwd both : Bool} (h : Keeps s₀ s) : Keeps s₀ (s.rtcStep fwd both) := by
  unfold Machine.State.rtcStep
  split
  · next hc =>
    refine withBk h fun hb => ?_
    unfold Machine.State.stepCause at hc
    simp only [Backup.inRange, Bool.and_eq_true, decide_eq_true_eq] at hb ⊢
    refine ⟨hb.1, ?_⟩
    cases fwd <;> simp only [Bool.false_eq_true, if_false, if_true] at hc <;> split_ifs at hc <;> simp only [decide_eq_true_eq] <;> omega
  · exact rtcReject h

theorem execStepFwd (dt : Dt) (m : Master) (both : Bool) (s : State) : Answers s (Machine.execStepFwd dt m both s) := by
  unfold Machine.execStepFwd
  exact Answers.next (rtcAccess (tick (refl _)) (fun _ => rtcStep (refl _)))

theorem execStepBack (dt : Dt) (m : Master) (both : Bool) (s : State) : Answers s (Machine.execStepBack dt m both s) := by
  unfold Machine.execStepBack
  exact Answers.next (rtcAccess (tick (refl _)) (fun _ => rtcStep (refl _)))

theorem execDstStepIssue (dt : Dt) (s : State) : Answers s (Machine.execDstStepIssue dt s) := by
  unfold Machine.execDstStepIssue
  dsimp only
  exact Answers.next (ite (ite (record (rtcStep (tick (refl _)))) (rtcStep (tick (refl _)))) (tick (refl _)))

theorem execRtcStepApply (dt : Dt) (s : State) : Answers s (Machine.execRtcStepApply dt s) := by
  unfold Machine.execRtcStepApply
  refine Answers.next ?_
  dsimp only
  split
  · next fwd hs =>
    refine ite (tick (refl _)) (withBk (tick (refl _)) fun h => restarted_inRange h rfl ?_ rfl (.inl rfl))
    simp only [Backup.inRange, Bool.and_eq_true, decide_eq_true_eq, hs] at h
    cases fwd <;> simp only [decide_eq_true_eq] at h <;> simp only [Bool.false_eq_true, if_false, if_true] <;> omega
  · exact tick (refl _)

theorem execRtcCalendarWrap (dt : Dt) (s : State) : Answers s (Machine.execRtcCalendarWrap dt s) := by
  unfold Machine.execRtcCalendarWrap
  refine Answers.next ?_
  dsimp only
  split_ifs with hw
  · exact withBk (tick (refl _)) fun h => restarted_inRange h rfl (show 0 < calSecs by decide) hw.2.2 (.inl rfl)
  · exact tick (refl _)

theorem execBackupSwitchVbat (dt : Dt) (s : State) : Answers s (Machine.execBackupSwitchVbat dt s) :=
  Answers.next (withBk (tick (refl _)) id)

theorem execBackupSwitchRail (dt : Dt) (s : State) : Answers s (Machine.execBackupSwitchRail dt s) :=
  Answers.next (withBk (tick (refl _)) id)

theorem execRtcValidLoss (dt : Dt) (s : State) : Answers s (Machine.execRtcValidLoss dt s) :=
  Answers.next (withBk (tick (refl _)) fun h => restarted_inRange h rfl (by decide : 0 < calSecs) rfl (.inr rfl))

theorem execTlogAck (dt : Dt) (m : Master) (n : Nat) (s : State) : Answers s (Machine.execTlogAck dt m n s) :=
  Answers.next (rtcAccess (tick (refl _)) fun _ => withBk (refl _) id)

theorem execTimeTbStatus (r : Req) (s : State) : Answers s (Machine.execTimeTbStatus r s) := by
  unfold Machine.execTimeTbStatus
  exact hostCmd (fun _ _ => AnsKeeps.ok (refl _)) _ _ _

theorem execTimeStampRead (r : Req) (hcn count : Nat) (s : State) : Answers s (Machine.execTimeStampRead r hcn count s) := by
  unfold Machine.execTimeStampRead
  dsimp only
  exact hostCmd (fun _ _ => AnsKeeps.checked (AnsKeeps.ok (refl _))) _ _ _

theorem execTimeTbSet (r : Req) (profileSel : Nat) (fdrVset : BitVec 8) (s : State) : Answers s (Machine.execTimeTbSet r profileSel fdrVset s) := by
  unfold Machine.execTimeTbSet
  exact hostCmd (fun _ _ => AnsKeeps.checked (AnsKeeps.ok (onNv (refl _)))) _ _ _

theorem execTimeRtcRead (r : Req) (s : State) : Answers s (Machine.execTimeRtcRead r s) := by
  unfold Machine.execTimeRtcRead
  dsimp only
  exact hostCmd (fun _ _ => AnsKeeps.ok (refl _)) _ _ _

theorem execTimeRtcSet (r : Req) (year month day hour min sec dst : Nat) (s : State) :
    Answers s (Machine.execTimeRtcSet r year month day hour min sec dst s) := by
  unfold Machine.execTimeRtcSet
  exact hostCmd (fun _ _ => AnsKeeps.checked (AnsKeeps.ite (AnsKeeps.ended (rtcSet (record (refl _)))) (AnsKeeps.ok (onNv (rtcSet (record (refl _))))))) _ _ _

theorem execTimeRtcStep (r : Req) (dir : Nat) (s : State) : Answers s (Machine.execTimeRtcStep r dir s) := by
  unfold Machine.execTimeRtcStep
  exact hostCmd
    (fun _ _ => AnsKeeps.checked
      (by
        split
        · exact AnsKeeps.ok (rtcStep (refl _))
        · exact AnsKeeps.ended (rtcStep (refl _))))
    _
    _
    _

theorem sendOne {s₀ s : State} {p : Nat} {k : Frame} (h : Keeps s₀ s) : Keeps s₀ (s.sendOne p k) := by
  unfold Machine.State.sendOne
  exact prpNext (emit h)

theorem passUp {s₀ s : State} {p : Nat} {fr : EthFrame} (h : Keeps s₀ s) : Keeps s₀ (s.passUp p fr) := by
  unfold Machine.State.passUp
  dsimp only
  exact ite (emit h) (rxDropped (emit h))

theorem prpRx {s₀ s : State} {a : Arrival} {up : State → State} (h : Keeps s₀ s) (hu : ∀ u, Keeps u (up u)) : Keeps s₀ (s.prpRx a up) := by
  unfold Machine.State.prpRx
  exact ite ((prpTake h).trans (hu _)) (prpTake h)

theorem ptpIgnore {s₀ s : State} (h : Keeps s₀ s) : Keeps s₀ (s.ptpIgnore) := by
  unfold Machine.State.ptpIgnore
  exact stuckFw (onNet h)

theorem ethIn {s₀ s : State} {port : Nat} {fr : EthFrame} (h : Keeps s₀ s) : Keeps s₀ (s.ethIn port fr) := by
  unfold Machine.State.ethIn
  exact ite (ptpIgnore h) (prpRx h (fun _ => passUp (refl _)))

theorem arpIn {s₀ s : State} {a : Arrival} {ip : Nat} (h : Keeps s₀ s) : Keeps s₀ (s.arpIn a ip) := by
  unfold Machine.State.arpIn
  exact prpRx h (fun _ => ite (sendFrame (refl _)) (refl _))

theorem icmpIn {s₀ s : State} {a : Arrival} (h : Keeps s₀ s) : Keeps s₀ (s.icmpIn a) := by
  unfold Machine.State.icmpIn
  dsimp only
  exact prpRx h (fun _ => ite (sendFrame (onNet (refl _))) (refl _))

theorem ptpStep {s₀ s : State} {adj : Int} (h : Keeps s₀ s) : Keeps s₀ (s.ptpStep adj) := by
  unfold Machine.State.ptpStep
  dsimp only
  exact stuckFw (stuckIf (raiseGen (record (onNet h))))

theorem setIncr {s₀ s : State} {v : Nat} (h : Keeps s₀ s) : Keeps s₀ (s.setIncr v) := by
  unfold Machine.State.setIncr
  dsimp only
  exact onNet h

theorem execPtpAdjWrite (dt : Dt) (m : Master) (adj : Int) (s : State) : Answers s (Machine.execPtpAdjWrite dt m adj s) := by
  unfold Machine.execPtpAdjWrite
  exact Answers.next (access (tick (refl _)) (fun _ => ptpStep (refl _)))

theorem execPtpIncrWrite (dt : Dt) (m : Master) (incr : Nat) (s : State) : Answers s (Machine.execPtpIncrWrite dt m incr s) := by
  unfold Machine.execPtpIncrWrite
  exact Answers.next (access (tick (refl _)) (fun _ => setIncr (refl _)))

theorem execPtpTimeNsRead (dt : Dt) (m : Master) (s : State) : Answers s (Machine.execPtpTimeNsRead dt m s) := by
  unfold Machine.execPtpTimeNsRead
  exact Answers.next (access (tick (refl _)) (fun _ => emit (onNet (refl _))))

theorem onSource {s₀ s : State} {n : Nat} {g : PtpSrc → PtpSrc} (h : Keeps s₀ s) : Keeps s₀ (s.onSource n g) := by
  unfold Machine.State.onSource
  exact onNet h

theorem useSource {s₀ s : State} {n : Nat} (h : Keeps s₀ s) : Keeps s₀ (s.useSource n) := by
  unfold Machine.State.useSource
  dsimp only
  exact onSource (onNet h)

theorem takeSource {s₀ s : State} {n : Nat} (h : Keeps s₀ s) : Keeps s₀ (s.takeSource n).1 := by
  unfold Machine.State.takeSource
  exact ite_fst (useSource (ptpStep h)) (ite_fst (useSource (ite (ptpStep h) h)) (ite_fst (useSource h) (raiseFw (onSource h))))

theorem takeFirst {s₀ s : State} {l : List Nat} (h : Keeps s₀ s) : Keeps s₀ (s.takeFirst l).1 := by
  induction l generalizing s with
  | nil => exact h
  | cons n l ih =>
    unfold Machine.State.takeFirst
    split
    · next t heq => exact of_fst heq (takeSource h)
    · next t heq => exact ih (of_fst heq (takeSource h))

theorem freeRun {s₀ s : State} (h : Keeps s₀ s) : Keeps s₀ (s.freeRun) := by
  unfold Machine.State.freeRun
  exact onNet (setIncr h)

theorem reselect {s₀ s : State} (h : Keeps s₀ s) : Keeps s₀ (s.reselect) := by
  unfold Machine.State.reselect
  dsimp only
  split
  · next _ heq => exact (of_fst heq (takeFirst h))
  · next _ heq => exact freeRun ((of_fst heq (takeFirst h)))

theorem loseSources {s₀ s : State} {l : List Nat} (h : Keeps s₀ s) : Keeps s₀ (s.loseSources l) := by
  unfold Machine.State.loseSources
  dsimp only
  exact ite (reselect (foldl (fun _ _ => raiseGen (onSource (refl _))) h)) (foldl (fun _ _ => raiseGen (onSource (refl _))) h)

theorem qualify {s₀ s : State} {n : Nat} (h : Keeps s₀ s) : Keeps s₀ (s.qualify n) := by
  unfold Machine.State.qualify
  dsimp only
  exact ite (raiseGen (onSource h)) h

theorem servo {s₀ s : State} {n : Nat} (h : Keeps s₀ s) : Keeps s₀ (s.servo n) := by
  unfold Machine.State.servo
  dsimp only
  exact ite (onSource (ptpStep h)) (onNet (setIncr (draw (draw (onSource h)))))

theorem exchange {s₀ s : State} {n : Nat} {v : Int} (h : Keeps s₀ s) : Keeps s₀ (s.exchange n v) := by
  unfold Machine.State.exchange
  dsimp only
  exact qualify
    (by
      split
      · exact onSource h
      · exact ite (servo (onSource (onSource h))) (onSource (onSource h)))

theorem dropSync {s₀ s : State} {n : Nat} (h : Keeps s₀ s) : Keeps s₀ (s.dropSync n) := by
  unfold Machine.State.dropSync
  exact ite (onSource h) h

theorem onPtp {s₀ s : State} {port domain : Nat} {k : Nat → State → State} (h : Keeps s₀ s) (hk : ∀ n u, Keeps u (k n u)) :
    Keeps s₀ (s.onPtp port domain k) := by
  unfold Machine.State.onPtp
  refine ite h ?_
  split
  · exact h
  · exact h.trans (hk _ _)

theorem syncSeen {s₀ s : State} {n seq : Nat} {log : Int} (h : Keeps s₀ s) : Keeps s₀ (s.syncSeen n seq log) := by
  unfold Machine.State.syncSeen
  exact onSource (dropSync h)

theorem syncIn {s₀ s : State} {x1 port domain seq : Nat} {twoStep : Bool} {t1 : Int} {stamp : Int × Nat} {corr logInterval : Int} (h : Keeps s₀ s) :
    Keeps s₀ (s.syncIn x1 port domain seq twoStep t1 stamp corr logInterval) := by
  unfold Machine.State.syncIn
  dsimp only
  exact onPtp
    h
    (fun _ _ => ite
       (refl _)
       (ite (ptpIgnore (refl _)) (ite (onSource (syncSeen (refl _))) (ite (onSource (syncSeen (refl _))) (exchange (syncSeen (refl _)))))))

theorem followUpIn {s₀ s : State} {x1 port domain seq : Nat} {t1 corr : Int} (h : Keeps s₀ s) : Keeps s₀
    (s.followUpIn x1 port domain seq t1 corr) := by
  unfold Machine.State.followUpIn
  exact onPtp
    h
    (fun _ _ => by
       split
       · exact refl _
       · exact ite (refl _) (ite (dropSync (refl _)) (exchange (refl _))))

theorem announceIn {s₀ s : State} {x1 port domain master rank : Nat} {time : AnnTime} {udp : Bool} {logInterval : Int} (h : Keeps s₀ s) : Keeps s₀
    (s.announceIn x1 port domain master rank time udp logInterval) := by
  unfold Machine.State.announceIn
  dsimp only
  exact onPtp h (fun _ _ => ite (refl _) (ite (onSource (refl _)) (refl _)))

theorem delayRespIn {s₀ s : State} {x1 port domain seq : Nat} {t4 corr logInterval : Int} (h : Keeps s₀ s) : Keeps s₀
    (s.delayRespIn x1 port domain seq t4 corr logInterval) := by
  unfold Machine.State.delayRespIn
  dsimp only
  exact onPtp
    h
    (fun _ _ => by
       split
       · exact ite (refl _) (ite (onSource (refl _)) (qualify (onSource (onSource (refl _)))))
       · exact refl _)

theorem pdelayReqIn {s₀ s : State} {port : Nat} {udp : Bool} {seq : Nat} {stamp corr out : Int} (h : Keeps s₀ s) : Keeps s₀
    (s.pdelayReqIn port udp seq stamp corr out) := by
  unfold Machine.State.pdelayReqIn
  exact ite h (emit h)

theorem pdelayRespIn {s₀ s : State} {x1 port seq : Nat} {stamp : Int × Nat} {corr : Int} (h : Keeps s₀ s) : Keeps s₀
    (s.pdelayRespIn x1 port seq stamp corr) := by
  unfold Machine.State.pdelayRespIn
  dsimp only
  exact ite
    h
    (by
      split
      · exact ite h (ite (onNet h) (foldl (fun _ _ => qualify (onSource (refl _))) (onNet h)))
      · exact h)

theorem rxHandle {s₀ s : State} {p x2 : Nat} {x3 : RxFrame} (h : Keeps s₀ s) : Keeps s₀ (s.rxHandle p x2 x3) := by
  unfold Machine.State.rxHandle
  split
  · exact ethIn h
  · exact arpIn h
  · exact icmpIn h
  · exact syncIn h
  · exact followUpIn h
  · exact announceIn h
  · exact delayRespIn h
  · exact pdelayReqIn h
  · exact pdelayRespIn h

theorem rxStart {s₀ s : State} {p x2 : Nat} (h : Keeps s₀ s) : Keeps s₀ (s.rxStart p x2) := by
  unfold Machine.State.rxStart
  exact onEport h

theorem rxServe {s₀ s : State} {n p : Nat} (h : Keeps s₀ s) : Keeps s₀ (State.rxServe n s p) := by
  induction n generalizing s with
  | zero => exact h
  | succ n ih =>
    unfold Machine.State.rxServe
    refine ite h ?_
    split
    · exact ih (rxHandle (rxStart (onEport h)))
    · exact ih (rxHandle (rxStart (onEport h)))
    · exact h

theorem receive {s₀ s : State} {a : Arrival} {fr : RxFrame} (h : Keeps s₀ s) : Keeps s₀ (s.receive a fr) := by
  unfold Machine.State.receive
  dsimp only
  exact ite h (ite (rxHandle (rxStart (rxServe h))) (ite (onEport (rxServe h)) (rxDropped (rxServe h))))

theorem execEthFrameRx (dt : Dt) (port : Nat) (fr : EthFrame) (s : State) : Answers s (Machine.execEthFrameRx dt port fr s) := by
  unfold Machine.execEthFrameRx
  exact Answers.next (receive (tick (refl _)))

theorem execArpRequest (dt : Dt) (port : Arrival) (ip : Nat) (s : State) : Answers s (Machine.execArpRequest dt port ip s) := by
  unfold Machine.execArpRequest
  exact Answers.next (receive (tick (refl _)))

theorem execIcmpEchoRequest (dt : Dt) (port : Arrival) (s : State) : Answers s (Machine.execIcmpEchoRequest dt port s) := by
  unfold Machine.execIcmpEchoRequest
  exact Answers.next (receive (tick (refl _)))

theorem execPrpSupervisionTx (dt : Dt) (s : State) : Answers s (Machine.execPrpSupervisionTx dt s) := by
  unfold Machine.execPrpSupervisionTx
  dsimp only
  exact Answers.next (ite (sendFrame (onNet (rxServe (rxServe (tick (refl _)))))) (tick (refl _)))

theorem execPtpSyncRx (dt : Dt) (port : Arrival) (domain seq : Nat) (twoStep : Bool) (t1 err corr logInterval : Int) (s : State) : Answers s
    (Machine.execPtpSyncRx dt port domain seq twoStep t1 err corr logInterval s) := by
  unfold Machine.execPtpSyncRx
  dsimp only
  exact Answers.next (receive (tick (refl _)))

theorem execPtpFollowUpRx (dt : Dt) (port : Arrival) (domain seq : Nat) (t1 corr : Int) (s : State) : Answers s
    (Machine.execPtpFollowUpRx dt port domain seq t1 corr s) := by
  unfold Machine.execPtpFollowUpRx
  exact Answers.next (receive (tick (refl _)))

theorem execPtpAnnounceRx (dt : Dt) (port : Arrival) (domain master rank : Nat) (time : AnnTime) (udp : Bool) (logInterval : Int) (s : State) :
    Answers s (Machine.execPtpAnnounceRx dt port domain master rank time udp logInterval s) := by
  unfold Machine.execPtpAnnounceRx
  exact Answers.next (receive (tick (refl _)))

theorem execPtpDelayRespRx (dt : Dt) (port : Arrival) (domain seq : Nat) (t4 corr logInterval : Int) (s : State) : Answers s
    (Machine.execPtpDelayRespRx dt port domain seq t4 corr logInterval s) := by
  unfold Machine.execPtpDelayRespRx
  exact Answers.next (receive (tick (refl _)))

theorem execPtpPdelayReqRx (dt : Dt) (port : Arrival) (udp : Bool) (seq : Nat) (corr turnaround : Int) (s : State) : Answers s
    (Machine.execPtpPdelayReqRx dt port udp seq corr turnaround s) := by
  unfold Machine.execPtpPdelayReqRx
  dsimp only
  exact Answers.next (receive (tick (refl _)))

theorem execPtpPdelayRespRx (dt : Dt) (port : Arrival) (seq : Nat) (err corr : Int) (s : State) : Answers s
    (Machine.execPtpPdelayRespRx dt port seq err corr s) := by
  unfold Machine.execPtpPdelayRespRx
  dsimp only
  exact Answers.next (receive (tick (refl _)))

theorem pdelayReqOut {s₀ s : State} {p : Nat} {err : Int} (h : Keeps s₀ s) : Keeps s₀ (s.pdelayReqOut p err) := by
  unfold Machine.State.pdelayReqOut
  dsimp only
  exact ite h (onNet (emit h))

theorem delayReqOut {s₀ s : State} {p n : Nat} {spread err : Int} (h : Keeps s₀ s) : Keeps s₀ (s.delayReqOut p n spread err) := by
  unfold Machine.State.delayReqOut
  dsimp only
  exact ite h (onSource (emit h))

theorem execPtpDelayReqTx (dt : Dt) (port domain : Nat) (spread err : Int) (s : State) : Answers s
    (Machine.execPtpDelayReqTx dt port domain spread err s) := by
  unfold Machine.execPtpDelayReqTx
  exact Answers.next (onPtp (tick (refl _)) (fun _ _ => ite (pdelayReqOut (refl _)) (delayReqOut (refl _))))

theorem execPtpSourceLost (dt : Dt) (src : Nat) (s : State) : Answers s (Machine.execPtpSourceLost dt src s) := by
  unfold Machine.execPtpSourceLost
  dsimp only
  exact Answers.next (ite (loseSources (tick (refl _))) (tick (refl _)))

theorem execPtpSourceReturn (dt : Dt) (src : Nat) (s : State) : Answers s (Machine.execPtpSourceReturn dt src s) := by
  unfold Machine.execPtpSourceReturn
  dsimp only
  exact Answers.next (ite (takeFirst (tick (refl _))) (tick (refl _)))

theorem execTimePtpSet (r : Req) (domP domS delayP delayS fallback : Nat) (s : State) : Answers s
    (Machine.execTimePtpSet r domP domS delayP delayS fallback s) := by
  unfold Machine.execTimePtpSet
  dsimp only
  exact hostCmd
    (fun _ _ => AnsKeeps.checked
      (AnsKeeps.ok
        (by
          split
          · exact onNet (onNv (refl _))
          · exact by
                split
                · exact onNet (onNet (onNv (refl _)))
                · exact freeRun (onNet (onNv (refl _))))))
    _
    _
    _

theorem domainOffset {s₀ s : State} {a b : Nat} (h : Keeps s₀ s) : Keeps s₀ (s.domainOffset a b).2 := by
  unfold Machine.State.domainOffset
  split
  · exact h
  · exact draw h

theorem execTimePtpRead (r : Req) (s : State) : Answers s (Machine.execTimePtpRead r s) := by
  unfold Machine.execTimePtpRead
  dsimp only
  exact hostCmd (fun _ _ => AnsKeeps.ok (domainOffset (domainOffset (refl _)))) _ _ _

theorem setCivil {s₀ s : State} {dst : Bool} {secs : Nat} (h : Keeps s₀ s) : Keeps s₀ (s.setCivil dst secs) := by
  unfold Machine.State.setCivil
  exact ite (onNv (rtcSet (record h))) (rtcSet (record h))

theorem execRtcHourlyCheck (dt : Dt) (s : State) : Answers s (Machine.execRtcHourlyCheck dt s) := by
  have noted {p : Prop} [Decidable p] {g : Net → Net} : Keeps s (if p then (s.tick dt).onNet g else s.tick dt) :=
    ite (onNet (tick (refl _))) (tick (refl _))
  unfold Machine.execRtcHourlyCheck
  dsimp only
  refine Answers.next ?_
  split
  · exact tick (refl _)
  · refine ite (tick (refl _)) ?_
    split
    · exact noted
    · refine ite noted (ite ?_ (onNet noted))
      split
      · exact onNet (setCivil noted)
      · exact noted

theorem execEthLinkDown (dt : Dt) (port : Nat) (s : State) : Answers s (Machine.execEthLinkDown dt port s) := by
  unfold Machine.execEthLinkDown
  dsimp only
  exact Answers.next (ite (tick (refl _)) (ite (onEport (tick (refl _))) (loseSources (portCount (raiseHw (onEport (tick (refl _))))))))

theorem execEthLinkUp (dt : Dt) (port speed : Nat) (s : State) : Answers s (Machine.execEthLinkUp dt port speed s) := by
  unfold Machine.execEthLinkUp
  dsimp only
  exact Answers.next (ite (tick (refl _)) (sendOne (ite (onEport (tick (refl _))) (sendOne (onEport (tick (refl _)))))))

theorem onSign {s₀ s : State} {g : Sign → Sign} (h : Keeps s₀ s) : Keeps s₀ (s.onSign g) := by
  unfold Machine.State.onSign
  exact h

theorem slotOver {s₀ s : State} (h : Keeps s₀ s) : Keeps s₀ (s.slotOver) := by
  unfold Machine.State.slotOver
  exact onSign h

theorem signNote {s₀ s : State} {kind row col port daddr dstat : Nat} (h : Keeps s₀ s) : Keeps s₀ (s.signNote kind row col port daddr dstat) := by
  unfold Machine.State.signNote
  exact notifyClass h

theorem colReplace {s₀ s : State} {col : Nat} (h : Keeps s₀ s) : Keeps s₀ (s.colReplace col) := by
  unfold Machine.State.colReplace
  split
  · exact reserveNote (onSign h)
  · exact raiseUnit (onSign h)

theorem execCellFailure (dt : Dt) (cells : List Nat) (s : State) : Answers s (Machine.execCellFailure dt cells s) := by
  unfold Machine.execCellFailure
  dsimp only
  exact Answers.next
    (ite
      (tick (refl _))
      (foldl
        (fun _ _ => by
          split
          · exact refl _
          · exact ite (refl _) (signNote (wearInc (stuckIf (onSign (refl _)))))) (tick (refl _))))

theorem cellsReplaced {s₀ s : State} (h : Keeps s₀ s) : Keeps s₀ (s.cellsReplaced) := by
  unfold Machine.State.cellsReplaced
  dsimp only
  exact foldl (fun _ _ => colReplace (onSign (refl _))) (onSign h)

theorem cellExclude {s₀ s : State} {c : Nat} (h : Keeps s₀ s) : Keeps s₀ (s.cellExclude c) := by
  unfold Machine.State.cellExclude
  exact reserveNote (onSign h)

theorem execSinkCellTest (dt : Dt) (cell : Nat) (pass : Bool) (s : State) : Answers s (Machine.execSinkCellTest dt cell pass s) := by
  unfold Machine.execSinkCellTest
  dsimp only
  exact Answers.next
    (ite
      (tick (refl _))
      (by
        split
        · exact ite
              (ite (raiseHw (onSign (tick (refl _)))) (ite (onSign (onSign (tick (refl _)))) (onSign (tick (refl _)))))
              (ite (raiseHw (onSign (tick (refl _)))) (raiseHw (cellExclude (onSign (tick (refl _))))))
        · exact ite (tick (refl _)) (ite (onSign (tick (refl _))) (wearInc (cellExclude (onSign (tick (refl _))))))))

theorem frameStart {s₀ s : State} (h : Keeps s₀ s) : Keeps s₀ (s.frameStart) := by
  unfold Machine.State.frameStart
  dsimp only
  exact foldl
    (fun _ _ => by
      split
      · exact colReplace (cellExclude (refl _))
      · exact cellExclude (refl _)) (foldl (fun _ _ => ite (reserveNote (onSign (refl _))) (refl _)) (onSign h))

theorem syncEvent {s₀ s : State} {at3 t3 n : Nat} (h : Keeps s₀ s) : Keeps s₀ (s.syncEvent at3 t3 n) := by
  unfold Machine.State.syncEvent
  dsimp only
  exact frameStart (onSign (slotOver (ite (stuckIf (addTotal (onSign h))) h)))

theorem syncFrames {s₀ s : State} {at3 t3 : Nat} (h : Keeps s₀ s) : Keeps s₀ (s.syncFrames at3 t3) := by
  unfold Machine.State.syncFrames
  dsimp only
  exact syncEvent (onSign h)

theorem execScanSyncEvent (dt : Dt) (s : State) : Answers s (Machine.execScanSyncEvent dt s) := by
  unfold Machine.execScanSyncEvent
  dsimp only
  exact Answers.next
    (ite
      (tick (refl _))
      (by
        split
        · exact ite
              (syncEvent (onSign (tick (refl _))))
              (by
                split
                · exact ite (syncEvent (tick (refl _))) (tick (refl _))
                · exact tick (refl _))
        · exact by
              split
              · exact ite (syncFrames (tick (refl _))) (tick (refl _))
              · exact tick (refl _)
        · exact by
              split
              · exact syncEvent (tick (refl _))
              · exact tick (refl _)))

theorem execSignSyncEdge (dt : Dt) (s : State) : Answers s (Machine.execSignSyncEdge dt s) := by
  unfold Machine.execSignSyncEdge
  dsimp only
  exact Answers.next
    (ite (onSign (tick (refl _))) (syncFrames (onSign (ite (raiseUnit (onSign (tick (refl _)))) (onSign (tick (refl _)))))))

theorem execSignSyncLost (dt : Dt) (s : State) : Answers s (Machine.execSignSyncLost dt s) := by
  unfold Machine.execSignSyncLost
  dsimp only
  exact Answers.next (ite (raiseUnit (onSign (tick (refl _)))) (tick (refl _)))

theorem execSwapBoundary (dt : Dt) (s : State) : Answers s (Machine.execSwapBoundary dt s) := by
  unfold Machine.execSwapBoundary
  dsimp only
  exact Answers.next (ite (onSign (tick (refl _))) (tick (refl _)))

theorem execBackCopyDone (dt : Dt) (s : State) : Answers s (Machine.execBackCopyDone dt s) := by
  unfold Machine.execBackCopyDone
  dsimp only
  exact Answers.next (ite (tick (refl _)) (onSign (tick (refl _))))

theorem execRowSlotStart (dt : Dt) (s : State) : Answers s (Machine.execRowSlotStart dt s) := by
  unfold Machine.execRowSlotStart
  dsimp only
  exact Answers.next
    (ite
      (tick (refl _))
      (ite
        (onSign
          (cellsReplaced
            (ite
              (onSign (ite (frameStart (slotOver (tick (refl _)))) (slotOver (tick (refl _)))))
              (ite (frameStart (slotOver (tick (refl _)))) (slotOver (tick (refl _)))))))
        (emit
          (onSign
            (cellsReplaced
              (ite
                (onSign (ite (frameStart (slotOver (tick (refl _)))) (slotOver (tick (refl _)))))
                (ite (frameStart (slotOver (tick (refl _)))) (slotOver (tick (refl _))))))))))

theorem ledMeasured {s₀ s : State} {r : Nat} {probe : Bool} {x : LedRead} (h : Keeps s₀ s) : Keeps s₀ (s.ledMeasured r probe x) := by
  unfold Machine.State.ledMeasured
  dsimp only
  exact ite h (ite (onSign h) (signNote (raiseHw (onSign h))))

theorem probeVerdicts {s₀ s : State} (h : Keeps s₀ s) : Keeps s₀ (s.probeVerdicts) := by
  unfold Machine.State.probeVerdicts
  dsimp only
  exact foldl (fun _ _ => signNote (raiseHw (refl _))) (onSign h)

theorem execLedMeasure (dt : Dt) (probe : Bool) (reads : List LedRead) (s : State) : Answers s (Machine.execLedMeasure dt probe reads s) := by
  unfold Machine.execLedMeasure
  dsimp only
  exact Answers.next
    (ite
      (tick (refl _))
      (by
        split
        · exact tick (refl _)
        · exact ite
              (tick (refl _))
              (ite
                (probeVerdicts (foldl (fun _ _ => ledMeasured (refl _)) (tick (refl _))))
                (foldl (fun _ _ => ledMeasured (refl _)) (tick (refl _))))))

theorem signStart {s₀ s : State} (h : Keeps s₀ s) : Keeps s₀ (s.signStart) := by
  unfold Machine.State.signStart
  dsimp only
  exact onSign h

theorem signEdge {s₀ s : State} (h : Keeps s₀ s) : Keeps s₀ (s.signEdge) := by
  unfold Machine.State.signEdge
  exact onSign h

theorem onSignCfg {s₀ s : State} {f : SignCfg → SignCfg} (h : Keeps s₀ s) : Keeps s₀ (s.onSignCfg f) := by
  unfold Machine.State.onSignCfg
  exact onNv h

theorem execSignCfgSet (r : Req) (cfg : BitVec 32) (gcur : Nat) (s : State) : Answers s (Machine.execSignCfgSet r cfg gcur s) := by
  unfold Machine.execSignCfgSet
  dsimp only
  exact hostCmd (fun _ _ => AnsKeeps.checked (AnsKeeps.ok (onSignCfg (refl _)))) _ _ _

theorem execSignTrimSet (r : Req) (first : Nat) (trims : List Nat) (s : State) : Answers s (Machine.execSignTrimSet r first trims s) := by
  unfold Machine.execSignTrimSet
  exact hostCmd (fun _ _ => AnsKeeps.checked (AnsKeeps.ok (onSignCfg (refl _)))) _ _ _

theorem execSignPopSet (r : Req) (row : Nat) (pop : BitVec 64) (s : State) : Answers s (Machine.execSignPopSet r row pop s) := by
  unfold Machine.execSignPopSet
  exact hostCmd (fun _ _ => AnsKeeps.checked (AnsKeeps.ok (onSignCfg (refl _)))) _ _ _

theorem execSignDefaultSet (r : Req) (offset : Nat) (commit : Bool) (data : List Nat) (s : State) : Answers s
    (Machine.execSignDefaultSet r offset commit data s) := by
  unfold Machine.execSignDefaultSet
  dsimp only
  exact hostCmd (fun _ _ => AnsKeeps.checked (AnsKeeps.ok (ite (onNv (onSign (refl _))) (onSign (refl _))))) _ _ _

theorem execSignFaultRead (r : Req) (row : Nat) (s : State) : Answers s (Machine.execSignFaultRead r row s) := by
  unfold Machine.execSignFaultRead
  dsimp only
  exact hostCmd (fun _ _ => AnsKeeps.checked (AnsKeeps.ok (refl _))) _ _ _

theorem execSignCellSet (r : Req) (col cell : Nat) (s : State) : Answers s (Machine.execSignCellSet r col cell s) := by
  unfold Machine.execSignCellSet
  exact hostCmd (fun _ _ => AnsKeeps.checked (AnsKeeps.ok (onSign (refl _)))) _ _ _

theorem execSignColsRead (r : Req) (s : State) : Answers s (Machine.execSignColsRead r s) := by
  unfold Machine.execSignColsRead
  exact hostCmd (fun _ _ => AnsKeeps.ok (refl _)) _ _ _

theorem onPort {s₀ s : State} {p : Nat} {g : SbusPort → SbusPort} (h : Keeps s₀ s) : Keeps s₀ (s.onPort p g) := by
  unfold Machine.State.onPort
  exact h

theorem transmit {s₀ s : State} {p addr cmd : Nat} {pay : List Nat} (h : Keeps s₀ s) : Keeps s₀ (s.transmit p addr cmd pay) := by
  unfold Machine.State.transmit
  dsimp only
  exact emit (onPort (draw (draw h)))

theorem execSbusSyncSend (dt : Dt) (s : State) : Answers s (Machine.execSbusSyncSend dt s) := by
  unfold Machine.execSbusSyncSend
  dsimp only
  exact Answers.next (ite (tick (refl _)) (foldl (fun _ _ => ite (onPort (transmit (refl _))) (refl _)) (tick (refl _))))

theorem execSbusTransaction (dt : Dt) (port : Nat) (s : State) : Answers s (Machine.execSbusTransaction dt port s) := by
  unfold Machine.execSbusTransaction
  dsimp only
  exact Answers.next
    (ite
      (tick (refl _))
      (by
        split
        · exact tick (refl _)
        · exact ite (tick (refl _)) (transmit (onPort (tick (refl _))))))

theorem remDone {s₀ s : State} {id : Nat} (h : Keeps s₀ s) : Keeps s₀ (s.remDone id) := by
  unfold Machine.State.remDone
  dsimp only
  split
  · exact h
  · exact ite h (answer h)

theorem remAnswer {s₀ s : State} {id p a : Nat} {ok answered : Bool} (h : Keeps s₀ s) : Keeps s₀ (s.remAnswer id p a ok answered) := by
  unfold Machine.State.remAnswer
  exact remDone h

theorem presence {s₀ s : State} {p a : Nat} {on : Bool} (h : Keeps s₀ s) : Keeps s₀ (s.presence p a on) := by
  unfold Machine.State.presence
  dsimp only
  exact ite h (signNote (raiseUnit (onPort h)))

theorem portHeals {s₀ s : State} {p : Nat} (h : Keeps s₀ s) : Keeps s₀ (s.portHeals p) := by
  unfold Machine.State.portHeals
  exact signNote (raiseUnit (onPort h))

theorem attemptCounted {s₀ s : State} {p : Nat} (h : Keeps s₀ s) : Keeps s₀ (s.attemptCounted p) := by
  unfold Machine.State.attemptCounted
  dsimp only
  exact stuckIf (addTotal (onPort h))

theorem txLost {s₀ s : State} {p : Nat} {t : SbusTx} (h : Keeps s₀ s) : Keeps s₀ (s.txLost p t) := by
  unfold Machine.State.txLost
  split
  · exact answer h
  · exact remAnswer h
  · exact h

theorem attemptFails {s₀ s : State} {p : Nat} {t : SbusTx} (h : Keeps s₀ s) : Keeps s₀ (s.attemptFails p t) := by
  unfold Machine.State.attemptFails
  dsimp only
  exact ite (onPort (attemptCounted h)) (txLost (ite (presence (onPort (attemptCounted h))) (onPort (attemptCounted h))))

theorem portFails {s₀ s : State} {p : Nat} (h : Keeps s₀ s) : Keeps s₀ (s.portFails p) := by
  unfold Machine.State.portFails
  dsimp only
  exact foldl (fun _ _ => txLost (refl _)) (signNote (raiseUnit (onPort h)))

theorem txDone {s₀ s : State} {p : Nat} {t : SbusTx} {fr : SbusFrame} (h : Keeps s₀ s) : Keeps s₀ (s.txDone p t fr) := by
  unfold Machine.State.txDone
  dsimp only
  split
  · exact ite
        (answer
          (draw
            (ite
              (ite (signNote (raiseUnit (onPort (ite (presence (onPort h)) (onPort h))))) (onPort (ite (presence (onPort h)) (onPort h))))
              (ite (presence (onPort h)) (onPort h)))))
        (answer
          (refusalPay
            (draw
              (ite
                (ite (signNote (raiseUnit (onPort (ite (presence (onPort h)) (onPort h))))) (onPort (ite (presence (onPort h)) (onPort h))))
                (ite (presence (onPort h)) (onPort h))))))
  · exact remAnswer
        (ite
          (ite (signNote (raiseUnit (onPort (ite (presence (onPort h)) (onPort h))))) (onPort (ite (presence (onPort h)) (onPort h))))
          (ite (presence (onPort h)) (onPort h)))
  · exact ite
        (ite (signNote (raiseUnit (onPort (ite (presence (onPort h)) (onPort h))))) (onPort (ite (presence (onPort h)) (onPort h))))
        (ite (presence (onPort h)) (onPort h))

theorem execSbusResponse (dt : Dt) (port : Nat) (fr : SbusFrame) (s : State) : Answers s (Machine.execSbusResponse dt port fr s) := by
  unfold Machine.execSbusResponse
  dsimp only
  exact Answers.next
    (ite
      (tick (refl _))
      (by
        split
        · exact tick (refl _)
        · exact ite
              (tick (refl _))
              (ite
                (attemptFails (stuckIf (addTotal (onPort (ite (portHeals (onPort (tick (refl _)))) (onPort (tick (refl _))))))))
                (ite
                  (attemptFails (ite (portHeals (onPort (tick (refl _)))) (onPort (tick (refl _)))))
                  (txDone (ite (portHeals (onPort (tick (refl _)))) (onPort (tick (refl _)))))))))

theorem execSbusResponseTimeout (dt : Dt) (port : Nat) (s : State) : Answers s (Machine.execSbusResponseTimeout dt port s) := by
  unfold Machine.execSbusResponseTimeout
  dsimp only
  exact Answers.next
    (ite
      (tick (refl _))
      (by
        split
        · exact tick (refl _)
        · exact ite (tick (refl _)) (attemptFails (ite (portHeals (tick (refl _))) (tick (refl _))))))

theorem execSbusEchoMismatch (dt : Dt) (port : Nat) (s : State) : Answers s (Machine.execSbusEchoMismatch dt port s) := by
  unfold Machine.execSbusEchoMismatch
  dsimp only
  exact Answers.next
    (ite
      (tick (refl _))
      (ite
        (portFails
          (by
            split
            · exact attemptFails (stuckIf (addTotal (onPort (tick (refl _)))))
            · exact attemptCounted (stuckIf (addTotal (onPort (tick (refl _)))))))
        (by
          split
          · exact attemptFails (stuckIf (addTotal (onPort (tick (refl _)))))
          · exact attemptCounted (stuckIf (addTotal (onPort (tick (refl _))))))))

theorem sbusQueue {s₀ s : State} {p : Nat} {t : SbusTx} (h : Keeps s₀ s) : Keeps s₀ (s.sbusQueue p t) := by
  unfold Machine.State.sbusQueue
  exact onPort h

theorem execSignWrite (r : Req) (dest daddr offset : Nat) (data : List Nat) (s : State) : Answers s
    (Machine.execSignWrite r dest daddr offset data s) := by
  unfold Machine.execSignWrite
  dsimp only
  exact hostCmd
    (fun _ _ => AnsKeeps.ite (AnsKeeps.checked (AnsKeeps.ok (onSign (refl _)))) (AnsKeeps.checked (AnsKeeps.later (sbusQueue (refl _)))))
    _
    _
    _

theorem execSignBus (r : Req) (port daddr scmd : Nat) (pay : List Nat) (s : State) : Answers s (Machine.execSignBus r port daddr scmd pay s) := by
  unfold Machine.execSignBus
  exact hostCmd (fun _ _ => AnsKeeps.checked (AnsKeeps.later (sbusQueue (refl _)))) _ _ _

theorem swapRemote {s₀ s : State} {mode target : Nat} {rem : List (Nat × Nat)} {id : Option Nat} (h : Keeps s₀ s) : Keeps s₀
    (s.swapRemote mode target rem id) := by
  unfold Machine.State.swapRemote
  exact foldl (fun _ _ => sbusQueue (refl _)) h

theorem swapCancel {s₀ s : State} (h : Keeps s₀ s) : Keeps s₀ (s.swapCancel) := by
  unfold Machine.State.swapCancel
  dsimp only
  exact foldl (fun _ _ => complete (refl _)) (onSign h)

theorem execSignSwap (r : Req) (mode tgt : Nat) (loc : Bool) (rem : List (Nat × Nat)) (s : State) : Answers s
    (Machine.execSignSwap r mode tgt loc rem s) := by
  unfold Machine.execSignSwap
  dsimp only
  exact hostCmd
    (fun _ _ => by
      split
      · exact AnsKeeps.checked
            (AnsKeeps.deferred
              (swapRemote (ite (ite (onSign (bind (refl _))) (bind (refl _))) (record (ite (onSign (bind (refl _))) (bind (refl _)))))))
      · exact AnsKeeps.checked
            (AnsKeeps.ite
              (AnsKeeps.ok (ite (onSign (refl _)) (refl _)))
              (AnsKeeps.ite
                (AnsKeeps.ended (ite (onSign (refl _)) (refl _)))
                (AnsKeeps.later (swapRemote (record (ite (onSign (refl _)) (refl _)))))))
      · exact AnsKeeps.checked (AnsKeeps.ok (swapRemote (ite (swapCancel (refl _)) (refl _))))) _ _ _

theorem swapLate {s₀ s : State} (h : Keeps s₀ s) : Keeps s₀ (s.swapLate) := by
  unfold Machine.State.swapLate
  exact h

theorem swapAction {s₀ s : State} {ses seq : Nat} (h : Keeps s₀ s) : Keeps s₀ (s.swapAction ses seq) := by
  unfold Machine.State.swapAction
  dsimp only
  exact complete h

theorem execSignStatus (r : Req) (s : State) : Answers s (Machine.execSignStatus r s) := by
  unfold Machine.execSignStatus
  dsimp only
  exact hostCmd (fun _ _ => AnsKeeps.ok (refl _)) _ _ _

end Keeps
end Sys2Proof.Machine
end

