-- ==== Sys2Proof/Proofs/KeepsUpdatePower.lean ====
section
/-!
PROOFS. What every command keeps (`Keeps`): one lemma for each operation of resets, updates, supply and start-up, block registers.
-/
namespace Sys2Proof.Machine
namespace Keeps

theorem moduleReset {s₀ s : State} {cause : Nat} (h : Keeps s₀ s) : Keeps s₀ (s.moduleReset cause) :=
  ⟨h.1, fun w => Mem.wipe_wf _ _ (h.2.1 w), fun _ => rfl, h.2.2.2⟩

theorem resetC {s₀ s : State} (h : Keeps s₀ s) : Keeps s₀ (s.resetC) := by
  unfold Machine.State.resetC
  dsimp only
  exact foldl (fun _ _ => onNode (refl _)) (foldl (fun _ _ => onFeeder (refl _)) (record (discardActs h)))

theorem loseWindows {s₀ s : State} (h : Keeps s₀ s) : Keeps s₀ s.loseWindows := by
  unfold Machine.State.loseWindows
  exact onBlot (foldl (fun _ _ => ite (dropReq (refl _)) (onReq (refl _))) h)

theorem resetD {s₀ s : State} (h : Keeps s₀ s) : Keeps s₀ (s.resetD) := by
  unfold Machine.State.resetD
  dsimp only
  exact record (loseWindows (discardActs h))

theorem resetM {s₀ s : State} (h : Keeps s₀ s) : Keeps s₀ s.resetM := by
  unfold Machine.State.resetM
  exact withEv (discardActs (endAll h)) id

theorem wipes_wf {m : Mem} (l : List (Nat × Nat)) (h : m.wf = true) : (l.foldl (fun m e => m.wipe e.1 e.2) m).wf = true := by
  induction l generalizing m with
  | nil => exact h
  | cons e l ih => exact ih (Mem.wipe_wf _ _ h)

theorem regionReset {s₀ s : State} {r : Region} {cause : Nat} (h : Keeps s₀ s) : Keeps s₀ (s.regionReset r cause) := by
  unfold Machine.State.regionReset
  refine ite h ?_
  dsimp only
  generalize hw : State.raise _ _ _ _ _ = w
  have told : Keeps s₀ w := hw ▸ raise (stuckIf (queueEmptied (withMem h fun hm => wipes_wf _ (Mem.wipe_wf _ _ hm))))
  cases r with
  | c => exact resetC told
  | d => exact resetD told
  | m => exact resetM told

theorem loadGraph {s₀ s : State} (h : Keeps s₀ s) : Keeps s₀ (s.loadGraph) := by
  unfold Machine.State.loadGraph
  dsimp only
  split
  · exact onSil h
  · exact h

theorem loadOverrides {s₀ s : State} (h : Keeps s₀ s) : Keeps s₀ s.loadOverrides := by
  unfold Machine.State.loadOverrides
  refine foldl (fun u e => ?_) h
  split
  · exact setOvr (refl u)
  · exact refl u

theorem loadFallback {s₀ s : State} (h : Keeps s₀ s) : Keeps s₀ (s.loadFallback) := by
  unfold Machine.State.loadFallback
  dsimp only
  exact foldl (fun _ _ => onNode (setLevels (refl _))) (foldl (fun _ _ => setLevels (refl _)) h)

theorem loadSent {s₀ s : State} (h : Keeps s₀ s) : Keeps s₀ (s.loadSent) := by
  unfold Machine.State.loadSent
  split
  · exact h
  · exact foldl (fun _ _ => ite (setLevels (refl _)) (refl _)) h

theorem loadBg {s₀ s : State} (h : Keeps s₀ s) : Keeps s₀ (s.loadBg) := by
  unfold Machine.State.loadBg
  exact onNv h

theorem rollTwins {s₀ s : State} (h : Keeps s₀ s) : Keeps s₀ (s.rollTwins) := by
  unfold Machine.State.rollTwins
  exact foldl
    (fun _ _ => by
      split
      · exact refl _
      · exact ite (setTwin (refl _)) (refl _)) h

theorem loadRolls {s₀ s : State} (h : Keeps s₀ s) : Keeps s₀ (s.loadRolls) := by
  unfold Machine.State.loadRolls
  dsimp only
  exact foldl
    (fun _ _ => by
      split
      · exact refl _
      · exact onFeeder (refl _)) (ite (rollTwins h) h)

theorem loadRR {s₀ s : State} (h : Keeps s₀ s) : Keeps s₀ (s.loadRR) := by
  unfold Machine.State.loadRR
  dsimp only
  exact ite h (foldl (fun _ _ => onFeeder (refl _)) h)

theorem loadC {s₀ s : State} (h : Keeps s₀ s) : Keeps s₀ (s.loadC) := by
  unfold Machine.State.loadC
  dsimp only
  exact loadRR (loadRolls (loadBg (loadOverrides (schedResume (record (onTab (loadGraph h)))))))

theorem blotLost {s₀ s : State} (h : Keeps s₀ s) : Keeps s₀ (s.blotLost) := by
  unfold Machine.State.blotLost
  dsimp only
  exact ite
    (onBlot (foldl (fun _ _ => finishProbe (refl _)) h))
    (foldl (fun _ _ => notify (refl _)) (raiseGen (onBlot (foldl (fun _ _ => finishProbe (refl _)) h))))

theorem alarmsClear {s₀ s : State} (h : Keeps s₀ s) : Keeps s₀ (s.alarmsClear) := by
  unfold Machine.State.alarmsClear
  exact foldl (fun _ _ => ite (residualNote (refl _)) (refl _)) h

theorem onUpd {s₀ s : State} {g : Decant → Decant} (h : Keeps s₀ s) : Keeps s₀ (s.onUpd g) := by
  unfold Machine.State.onUpd
  exact onNv h

theorem toStage {s₀ s : State} {g : Stage} (h : Keeps s₀ s) : Keeps s₀ (s.toStage g) := by
  unfold Machine.State.toStage
  dsimp only
  exact updNote (onUpd h)

theorem wipeBank {s₀ s : State} {b : Bool} (h : Keeps s₀ s) : Keeps s₀ (s.wipeBank b) := withMem h (Mem.wipe_wf _ _)

theorem execUpdHeader (r : Req) (hdr : PkgHeader) (sig : Nat) (s : State) : Answers s (Machine.execUpdHeader r hdr sig s) := by
  unfold Machine.execUpdHeader
  dsimp only
  exact hostCmd (fun _ _ => AnsKeeps.checked (AnsKeeps.ite (AnsKeeps.ok (refl _)) (AnsKeeps.ok (toStage (onUpd (refl _)))))) _ _ _

theorem onErases {s₀ s : State} {b : Bool} {g : Erases → Erases} (h : Keeps s₀ s) : Keeps s₀ (s.onErases b g) := by
  unfold Machine.State.onErases
  exact onNv h

theorem replaceSectors {s₀ s : State} {b : Bool} {n : Nat} (h : Keeps s₀ s) : Keeps s₀ (s.replaceSectors b n) := by
  unfold Machine.State.replaceSectors
  exact foldl (fun _ _ => reserveNote (onNv (refl _))) h

theorem verifyFails {s₀ s : State} {b : Bool} {n : Nat} (h : Keeps s₀ s) : Keeps s₀ (s.verifyFails b n) := by
  unfold Machine.State.verifyFails
  dsimp only
  exact replaceSectors (draw h)

theorem eraseComp {s₀ s : State} {b : Bool} (h : Keeps s₀ s) : Keeps s₀ (s.eraseComp b) := by
  unfold Machine.State.eraseComp
  dsimp only
  exact verifyFails (ite (onErases h) (replaceSectors (onErases h)))

theorem eraseStaging {s₀ s : State} {b : Bool} {n : Nat} (h : Keeps s₀ s) : Keeps s₀ (s.eraseStaging b n) := by
  unfold Machine.State.eraseStaging
  dsimp only
  exact verifyFails (replaceSectors (onErases (onErases h)))

theorem execUpdBlock (r : Req) (offset : Nat) (data : List Nat) (s : State) : Answers s (Machine.execUpdBlock r offset data s) := by
  unfold Machine.execUpdBlock
  refine hostCmd (fun _ t => AnsKeeps.checked (AnsKeeps.ite (AnsKeeps.ok (refl t)) (AnsKeeps.ok ?_))) _ _ _
  generalize hv : State.onUpd _ (fun u => { u with bitmap := offset / 1024 :: u.bitmap }) = v
  have programmed : Keeps t v := hv ▸ onUpd (withMem (refl t) (Mem.put_wf _ _))
  exact ite (toStage (ite (updNote programmed) programmed)) (ite (updNote programmed) programmed)

theorem execStagingEraseDone (dt : Dt) (s : State) : Answers s (Machine.execStagingEraseDone dt s) := by
  unfold Machine.execStagingEraseDone
  exact Answers.next (ite (tick (refl _)) (eraseStaging (onUpd (withMem (tick (refl _)) (Mem.wipe_wf _ _)))))

theorem execPayloadVerifyDone (dt : Dt) (ok : Bool) (s : State) : Answers s (Machine.execPayloadVerifyDone dt ok s) := by
  unfold Machine.execPayloadVerifyDone
  dsimp only
  exact Answers.next (ite (tick (refl _)) (ite (toStage (tick (refl _))) (raiseGen (toStage (onUpd (tick (refl _)))))))

theorem execUpdBitmap (r : Req) (first count : Nat) (s : State) : Answers s (Machine.execUpdBitmap r first count s) := by
  unfold Machine.execUpdBitmap
  dsimp only
  exact hostCmd (fun _ _ => AnsKeeps.checked (AnsKeeps.ok (refl _))) _ _ _

theorem execUpdAbort (r : Req) (s : State) : Answers s (Machine.execUpdAbort r s) := by
  unfold Machine.execUpdAbort
  dsimp only
  exact hostCmd (fun _ _ => AnsKeeps.checked (AnsKeeps.ok (toStage (onUpd (refl _))))) _ _ _

theorem execUpdStatus (r : Req) (s : State) : Answers s (Machine.execUpdStatus r s) := by
  unfold Machine.execUpdStatus
  dsimp only
  exact hostCmd (fun _ _ => AnsKeeps.ok (refl _)) _ _ _

theorem failedIf {s₀ s : State} {run left : List Comp} (h : Keeps s₀ s) : Keeps s₀ (s.failedIf run left).2 := by
  unfold Machine.State.failedIf
  split
  · exact h
  · exact draw h

theorem execUpdActivate (r : Req) (tgt : Nat) (hashOk : Bool) (s : State) : Answers s (Machine.execUpdActivate r tgt hashOk s) := by
  unfold Machine.execUpdActivate
  dsimp only
  exact hostCmd
    (fun _ _ => by
      split
      · exact AnsKeeps.no
      · exact AnsKeeps.checked
            (by
              split
              · exact AnsKeeps.ended (failedIf (refl _))
              · exact AnsKeeps.ite AnsKeeps.no (AnsKeeps.deferred (eraseComp (wipeBank (toStage (record (onUpd (refl _)))))))))
    _
    _
    _

theorem updFinal {s₀ s : State} {st : Status} (h : Keeps s₀ s) : Keeps s₀ (s.updFinal st) := by
  unfold Machine.State.updFinal
  split
  · exact complete (onUpd h)
  · exact h

theorem program_wf {m : Mem} (a : Nat) (l : List (List Nat)) (h : m.wf = true) : (m.program a l).wf = true := by
  induction l generalizing m a with
  | nil => exact h
  | cons b l ih => exact ih _ (Mem.put_wf a b h)

theorem execReconstructionDone (dt : Dt) (ok : Bool) (s : State) : Answers s (Machine.execReconstructionDone dt ok s) := by
  unfold Machine.execReconstructionDone
  dsimp only
  refine Answers.next ?_
  split
  · exact tick (refl _)
  · refine ite (tick (refl _)) ?_
    split
    · exact toStage (onUpd (foldl (fun _ _ => updNote (refl _)) (withMem (tick (refl _)) fun hm => Mem.put_wf _ _ (program_wf _ _ hm))))
    · exact ite (eraseComp (wipeBank (onUpd (tick (refl _))))) (raiseGen (toStage (onUpd (updFinal (tick (refl _))))))

theorem saveNow {s₀ s : State} (h : Keeps s₀ s) : Keeps s₀ (s.saveNow) := by
  unfold Machine.State.saveNow
  dsimp only
  exact ite h (onSlot (ageSave h))

theorem revert {s₀ s : State} {cause : Nat} (h : Keeps s₀ s) : Keeps s₀ (s.revert cause) := by
  unfold Machine.State.revert
  dsimp only
  exact moduleReset (onNv (saveNow h))

theorem revertRecord {s₀ s : State} (h : Keeps s₀ s) : Keeps s₀ (s.revertRecord) := by
  unfold Machine.State.revertRecord
  dsimp only
  split
  · exact h
  · exact raiseFw (onUpd h)

theorem enterTrial {s₀ s : State} (h : Keeps s₀ s) : Keeps s₀ (s.enterTrial) := by
  unfold Machine.State.enterTrial
  exact toStage (onUpd h)

theorem trialBoot {s₀ s : State} {k : State → State} (h : Keeps s₀ s) (hk : ∀ u, Keeps u (k u)) : Keeps s₀ (s.trialBoot k) := by
  unfold Machine.State.trialBoot
  exact ite (h.trans (hk _)) (ite (revert h) ((onUpd h).trans (hk _)))

theorem restartRegion {s₀ s : State} {r : Region} {cause : Nat} (h : Keeps s₀ s) : Keeps s₀ (s.restartRegion r cause) := by
  unfold Machine.State.restartRegion
  dsimp only
  exact ite h (ite (revert h) (trialBoot h (fun _ => regionReset (refl _))))

theorem execTrialMinute (dt : Dt) (s : State) : Answers s (Machine.execTrialMinute dt s) := by
  unfold Machine.execTrialMinute
  dsimp only
  exact Answers.next (ite (tick (refl _)) (ite (revert (onUpd (tick (refl _)))) (onUpd (tick (refl _)))))

theorem execSwitchRunTimeout (dt : Dt) (s : State) : Answers s (Machine.execSwitchRunTimeout dt s) := by
  unfold Machine.execSwitchRunTimeout
  dsimp only
  exact Answers.next
    (by
      split
      · exact ite (revert (tick (refl _))) (tick (refl _))
      · exact tick (refl _))

theorem lastStep {s₀ s : State} (h : Keeps s₀ s) : Keeps s₀ (s.lastStep) := by
  unfold Machine.State.lastStep
  dsimp only
  exact ite (enterTrial (onUpd h)) (onUpd h)

theorem switchStep {s₀ s : State} {type : Nat} (h : Keeps s₀ s) : Keeps s₀ (s.switchStep type) := by
  unfold Machine.State.switchStep
  dsimp only
  split
  · exact regionReset (onUpd (updNote (onUpd h)))
  · exact regionReset (onUpd (updNote (onUpd h)))
  · exact regionReset (onUpd (updNote (onUpd h)))
  · exact record (onUpd (updNote (onUpd h)))
  · exact ite (updNote (onUpd h)) (cfgInForce (onNv (updNote (onUpd h))))

theorem updEdge {s₀ s : State} (h : Keeps s₀ s) : Keeps s₀ (s.updEdge) := by
  unfold Machine.State.updEdge
  dsimp only
  exact ite
    (toStage (onUpd (updFinal h)))
    (ite
      (toStage (onUpd (updFinal h)))
      (ite
        (ite (toStage h) h)
        (ite
          (lastStep
            (ite
              (updFinal
                (by
                  split
                  · exact switchStep (ite (toStage h) h)
                  · exact ite (toStage h) h))
              (by
                split
                · exact switchStep (ite (toStage h) h)
                · exact ite (toStage h) h)))
          (ite
            (updFinal
              (by
                split
                · exact switchStep (ite (toStage h) h)
                · exact ite (toStage h) h))
            (by
              split
              · exact switchStep (ite (toStage h) h)
              · exact ite (toStage h) h)))))

theorem distribute {s₀ s : State} {w : FwSet} {l : List Comp} (h : Keeps s₀ s) : Keeps s₀ (s.distribute w l) := by
  unfold Machine.State.distribute
  exact foldl (fun _ _ => onFeeder (refl _)) h

theorem confirm {s₀ s : State} (h : Keeps s₀ s) : Keeps s₀ (s.confirm) := by
  unfold Machine.State.confirm
  dsimp only
  exact toStage (distribute (onUpd h))

theorem execUpdConfirm (r : Req) (s : State) : Answers s (Machine.execUpdConfirm r s) := by
  unfold Machine.execUpdConfirm
  exact hostCmd (fun _ _ => AnsKeeps.checked (AnsKeeps.ok (confirm (toStage (refl _))))) _ _ _

theorem execUpdNodeActivate (r : Req) (img group tgt : Nat) (s : State) : Answers s (Machine.execUpdNodeActivate r img group tgt s) := by
  unfold Machine.execUpdNodeActivate
  dsimp only
  exact hostCmd
    (fun _ _ => by
      split
      · exact AnsKeeps.checked AnsKeeps.no
      · exact AnsKeeps.checked (AnsKeeps.deferred (linkCmd (refl _)))) _ _ _

theorem execUpdNodeStatus (r : Req) (first count img : Nat) (s : State) : Answers s (Machine.execUpdNodeStatus r first count img s) := by
  unfold Machine.execUpdNodeStatus
  dsimp only
  exact hostCmd (fun _ _ => AnsKeeps.checked (AnsKeeps.paged (refl _))) _ _ _

theorem endDist {s₀ s : State} {f img : Nat} {sts : List ImgState} (h : Keeps s₀ s) : Keeps s₀ (s.endDist f img sts) := by
  unfold Machine.State.endDist
  exact raiseGen (onFeeder h)

theorem roundEnd {s₀ s : State} {f : Nat} {d : ImgDist} (h : Keeps s₀ s) : Keeps s₀ (s.roundEnd f d) := by
  unfold Machine.State.roundEnd
  dsimp only
  exact ite
    h
    (by
      split
      · exact endDist h
      · exact ite (endDist h) (onFeeder h))

theorem execNodeImageRoundEnd (dt : Dt) (f : Nat) (s : State) : Answers s (Machine.execNodeImageRoundEnd dt f s) := by
  unfold Machine.execNodeImageRoundEnd
  dsimp only
  exact Answers.next (ite (foldl (fun _ _ => roundEnd (refl _)) (tick (refl _))) (tick (refl _)))

theorem updResume {s₀ s : State} (h : Keeps s₀ s) : Keeps s₀ (s.updResume) := by
  unfold Machine.State.updResume
  dsimp only
  exact ite (eraseComp (wipeBank (onUpd (onUpd h)))) (ite (confirm (onUpd h)) (onUpd h))

theorem shed {s₀ s : State} (h : Keeps s₀ s) : Keeps s₀ s.shed := by
  unfold Machine.State.shed
  exact pulsesOff (finalSaveBegin (loseSources (record (foldl (fun _ _ => onFeeder (refl _)) (withEv h id)))))

theorem execSupplyFail (dt : Dt) (s : State) : Answers s (Machine.execSupplyFail dt s) := by
  unfold Machine.execSupplyFail
  dsimp only
  exact Answers.next (ite (tick (refl _)) (ite (record (tick (refl _))) (ite (record (tick (refl _))) (shed (record (tick (refl _)))))))

theorem execFinalSaveComplete (dt : Dt) (s : State) : Answers s (Machine.execFinalSaveComplete dt s) := by
  have saved := finalNodePart (tick (d := dt) (refl s))
  unfold Machine.execFinalSaveComplete
  exact Answers.next (ite saved (ite (moduleReset (record (onEv (writeRec saved) id))) (record (onEv (writeRec saved) id))))

theorem execRtcifIsolate (dt : Dt) (s : State) : Answers s (Machine.execRtcifIsolate dt s) := by
  unfold Machine.execRtcifIsolate
  dsimp only
  exact Answers.next (ite (record (tick (refl _))) (tick (refl _)))

theorem execVinReturn (dt : Dt) (s : State) : Answers s (Machine.execVinReturn dt s) := by
  unfold Machine.execVinReturn
  dsimp only
  exact Answers.next (ite (record (tick (refl _))) (tick (refl _)))

theorem execSupplyCycleReset (dt : Dt) (s : State) : Answers s (Machine.execSupplyCycleReset dt s) := by
  unfold Machine.execSupplyCycleReset
  dsimp only
  exact Answers.next (ite (moduleReset (tick (refl _))) (tick (refl _)))

theorem execHoldupEnd (dt : Dt) (s : State) : Answers s (Machine.execHoldupEnd dt s) := by
  unfold Machine.execHoldupEnd
  dsimp only
  exact Answers.next (ite (record (moduleReset (tick (refl _)))) (tick (refl _)))

theorem execRstNLow (dt : Dt) (lowNs : Nat) (s : State) : Answers s (Machine.execRstNLow dt lowNs s) := by
  unfold Machine.execRstNLow
  dsimp only
  exact Answers.next
    (ite (tick (refl _)) (ite (moduleReset (tick (refl _))) (ite (moduleReset (draw (tick (refl _)))) (draw (tick (refl _))))))

theorem execChipFault (dt : Dt) (s : State) : Answers s (Machine.execChipFault dt s) := by
  unfold Machine.execChipFault
  dsimp only
  exact Answers.next (ite (tick (refl _)) (moduleReset (tick (refl _))))

theorem execResetRelease (dt : Dt) (vin bankCap : Nat) (holdupOk : Bool) (pins : BitVec 8) (s : State) :
    Answers s (Machine.execResetRelease dt vin bankCap holdupOk pins s) := by
  unfold Machine.execResetRelease
  exact Answers.next (ite (tick (refl _)) (ite (onUpd (ite (raise (record (tick (refl _)))) (record (tick (refl _)))))
    (trialBoot (ite (raise (record (tick (refl _)))) (record (tick (refl _)))) refl)))

theorem rootStep {s₀ s : State} {programOk : Bool} (h : Keeps s₀ s) : Keeps s₀ (s.rootStep programOk) := by
  unfold Machine.State.rootStep
  dsimp only
  exact record (ite (activate (onNv (draw h))) h)

theorem otherBank {s₀ s : State} (h : Keeps s₀ s) : Keeps s₀ (s.otherBank) := by
  unfold Machine.State.otherBank
  dsimp only
  exact raiseGen (onUpd h)

theorem execBootRomDone (dt : Dt) (manifestOkA manifestOkB programOk : Bool) (s : State) : Answers s
    (Machine.execBootRomDone dt manifestOkA manifestOkB programOk s) := by
  unfold Machine.execBootRomDone
  dsimp only
  exact Answers.next
    (ite
      (tick (refl _))
      (ite
        (ite (record (onUpd (rootStep (tick (refl _))))) (revert (rootStep (tick (refl _)))))
        (ite
          (record (onUpd (rootStep (tick (refl _)))))
          (ite (record (otherBank (rootStep (tick (refl _))))) (record (rootStep (tick (refl _))))))))

theorem mRuns {s₀ s : State} (h : Keeps s₀ s) : Keeps s₀ (s.mRuns) := by
  unfold Machine.State.mRuns
  dsimp only
  exact updResume (evScan h)

theorem execMImageLoaded (dt : Dt) (s : State) : Answers s (Machine.execMImageLoaded dt s) := by
  unfold Machine.execMImageLoaded
  dsimp only
  exact Answers.next (ite (tick (refl _)) (revertRecord (mRuns (record (tick (refl _))))))

theorem signOn {s₀ s : State} (h : Keeps s₀ s) : Keeps s₀ (s.signOn) := by
  unfold Machine.State.signOn
  dsimp only
  exact ite h (record (signStart h))

theorem execKeyStoreReady (dt : Dt) (s : State) : Answers s (Machine.execKeyStoreReady dt s) := by
  unfold Machine.execKeyStoreReady
  dsimp only
  exact Answers.next
    (ite
      (tick (refl _))
      (signOn
        (record
          (draw (ite (activate (drawKey (handOver (loadKeys (record (tick (refl _))))))) (handOver (loadKeys (record (tick (refl _))))))))))

theorem execCdImagesLoaded (dt : Dt) (ok : Bool) (s : State) : Answers s (Machine.execCdImagesLoaded dt ok s) := by
  unfold Machine.execCdImagesLoaded
  dsimp only
  exact Answers.next
    (ite (tick (refl _)) (ite (measureTemp (record (tick (refl _)))) (ite (revert (tick (refl _))) (record (otherBank (tick (refl _)))))))

theorem lostRecords {s₀ s : State} (h : Keeps s₀ s) : Keeps s₀ (s.lostRecords) := by
  unfold Machine.State.lostRecords
  dsimp only
  exact record (foldl (fun _ _ => ite (refl _) (raiseGen (refl _))) h)

theorem execRestoreStep (dt : Dt) (s : State) : Answers s (Machine.execRestoreStep dt s) := by
  unfold Machine.execRestoreStep
  dsimp only
  exact Answers.next
    (ite
      (tick (refl _))
      (record
        (ite
          (raiseGen
            (ite
              (lostRecords (loadFallback (loadC (restoreTotals (loadD (tick (refl _)))))))
              (raiseFw (lostRecords (loadFallback (loadC (restoreTotals (loadD (tick (refl _))))))))))
          (ite
            (lostRecords (loadFallback (loadC (restoreTotals (loadD (tick (refl _)))))))
            (raiseFw (lostRecords (loadFallback (loadC (restoreTotals (loadD (tick (refl _))))))))))))

theorem execLifecycleWipeDone (dt : Dt) (s : State) : Answers s (Machine.execLifecycleWipeDone dt s) := by
  unfold Machine.execLifecycleWipeDone
  exact Answers.next (ite (tick (refl _)) (moduleReset (writeRec (withMem (onNv (tick (refl _))) (Mem.wipe_wf _ _)))))

theorem rcSet {s₀ s t : State} {a : Nat} {v : Nat → Nat} (h : Keeps s₀ s) (e : s.rcSet a v = some t) : Keeps s₀ t := by
  unfold Machine.State.rcSet at e
  dsimp only at e
  split at e <;> try split_ifs at e
  all_goals cases e
  · exact onFeeder h
  · exact onRx h
  · exact record h
  · exact onEport h
  · exact onEport h
  · exact onEport h
  · exact onEport h
  · exact onSign h
  · exact onPort h

theorem regAfter {s₀ s : State} {a : Nat} (h : Keeps s₀ s) : Keeps s₀ (s.regAfter a) := by
  unfold Machine.State.regAfter
  dsimp only
  split
  · next t heq => exact rcSet h heq
  · split
    · exact ite (record h) h
    · exact ite (onSil h) h
    · exact ite (onMeter h) h
    · exact ite (onNet h) h
    · exact ite (record h) (ite (record h) h)
    · exact ite (onSign h) h
    · exact h

theorem dmaWrite {s₀ s : State} {r : Region} {off : Nat} {v : BitVec 32} (h : Keeps s₀ s) : Keeps s₀ (s.dmaWrite r off v) := by
  unfold Machine.State.dmaWrite
  dsimp only
  exact ite
    h
    (ite
      h
      (by
        split
        · exact ite (onChan h) h
        · exact ite (dmaAbort (ite (dmaStart h) h)) (ite (dmaStart h) h)
        · exact h))

theorem mdspWrite {s₀ s : State} {off : Nat} {v : BitVec 32} (h : Keeps s₀ s) : Keeps s₀ (s.mdspWrite off v) := by
  unfold Machine.State.mdspWrite
  dsimp only
  split
  · exact onMeter h
  · exact record (onMeter h)
  · exact record (onMeter h)
  · exact h

theorem pulseWrite {s₀ s : State} {off : Nat} {v : BitVec 32} (h : Keeps s₀ s) : Keeps s₀ (s.pulseWrite off v) := by
  unfold Machine.State.pulseWrite
  dsimp only
  split
  · exact onMeter h
  · exact onMeter h
  · exact onMeter h
  · exact onMeter h
  · exact ite (satClear (ite (satClear h) h)) (ite (satClear h) h)
  · exact h

theorem scanWrite {s₀ s : State} {off : Nat} {v : BitVec 32} (h : Keeps s₀ s) : Keeps s₀ (s.scanWrite off v) := by
  unfold Machine.State.scanWrite
  dsimp only
  exact ite h (ite (onSignCfg h) (ite (onSignCfg h) (ite (onSign h) h)))

theorem rtcWrite {s₀ s : State} {off : Nat} {v : BitVec 32} (h : Keeps s₀ s) : Keeps s₀ (s.rtcWrite off v) := by
  unfold Machine.State.rtcWrite
  split
  · exact rtcSet h
  · exact ite (rtcStep h) (ite (rtcStep h) h)
  · exact withBk h id
  · exact record h

theorem regSet {s₀ s : State} {a : Nat} {v : BitVec 32} (h : Keeps s₀ s) : Keeps s₀ (s.regSet a v) := by
  unfold Machine.State.regSet
  dsimp only
  split
  · exact by
        split
        · exact ringDb h
        · exact ringDb h
        · exact ringDb h
        · exact clearDb h
        · exact clearDb h
        · exact clearDb h
        · exact onNv h
        · exact h
  · exact ite (onSil h) h
  · exact ite (onBlot h) h
  · exact ite (onWtx h) h
  · exact dmaWrite h
  · exact mdspWrite h
  · exact ite h h
  · exact ite (onBlot h) h
  · exact pulseWrite h
  · exact dmaWrite h
  · exact by
        split
        · exact setIncr h
        · exact setIncr h
        · exact h
  · exact ite (onNv h) h
  · exact rtcWrite h
  · exact ite (onSignCfg h) (ite (onSignCfg h) h)
  · exact scanWrite h
  · exact dmaWrite h
  · exact h

theorem readAcc {s₀ s : State} {m : Master} {a width : Nat} {found : Damage} (h : Keeps s₀ s) : Keeps s₀ (s.readAcc m a width found).2 := by
  unfold Machine.State.readAcc
  exact ite_prod (busErr h) (ite_prod (ite_prod (visit h) (busErr (visit h)))
    (ite_prod (ite_prod (regAfter h) (ite_prod h (busErr h))) (busErr h)))

theorem portWrite {s₀ s t : State} {a v : Nat} (h : Keeps s₀ s) (e : s.portWrite a v = some t) : Keeps s₀ t := by
  unfold Machine.State.portWrite at e
  dsimp only at e
  split_ifs at e <;> simp only [Option.some.injEq] at e <;> subst e
  · exact raise (onEv h id)
  · exact onEv h id

theorem writeAcc {s₀ s : State} {m : Master} {a width v : Nat} {found : Damage} (h : Keeps s₀ s) : Keeps s₀ (s.writeAcc m a width v found).2 := by
  unfold Machine.State.writeAcc
  refine ite_prod (busErr h) (ite_prod (ite_prod (setBytes (unpoison h)) (ite_prod (setBytes (visit h)) (busErr (visit h)))) (ite_prod ?_ (busErr h)))
  refine ite_prod (regSet h) (ite_prod (ite (setIncr h) (ptpStep h)) ?_)
  split
  · next t ht =>
    split_ifs at ht
    exact portWrite h ht
  · exact busErr h

theorem execRegisterWrite (dt : Dt) (m : Master) (addr : Nat) (value : BitVec 32) (s : State) : Answers s
    (Machine.execRegisterWrite dt m addr value s) := by
  unfold Machine.execRegisterWrite
  exact Answers.next (writeAcc (tick (refl _)))

theorem execRcCounterRead (dt : Dt) (m : Master) (addr inc : Nat) (s : State) : Answers s (Machine.execRcCounterRead dt m addr inc s) := by
  unfold Machine.execRcCounterRead
  dsimp only
  refine Answers.next (ite (busErr (tick (refl _))) ?_)
  split
  · next u hu => exact emit (rcSet (tick (refl _)) hu)
  · exact tick (refl _)

theorem execJncHcnLoRead (dt : Dt) (x1 : Master) (s : State) : Answers s (Machine.execJncHcnLoRead dt x1 s) := by
  unfold Machine.execJncHcnLoRead
  dsimp only
  exact Answers.next (emit (regAfter (tick (refl _))))

theorem execDbSetWrite (dt : Dt) (x1 : Master) (target : Region) (bits w1c : BitVec 32) (s : State) : Answers s
    (Machine.execDbSetWrite dt x1 target bits w1c s) := by
  unfold Machine.execDbSetWrite
  exact Answers.next (ringDb (clearDb (tick (refl _))))

end Keeps
end Sys2Proof.Machine
end

