-- ==== Sys2Proof/Proofs/KeepsCommands.lean ====
section
/-!
PROOFS. What every command keeps (`Keeps`): one lemma for each operation of tests, regions, the time base, transfers, the uplink, and with them every command.
-/
namespace Sys2Proof.Machine
namespace Keeps

theorem onVoter {s₀ s : State} {r : Region} {g : Voter → Voter} (h : Keeps s₀ s) : Keeps s₀ (s.onVoter r g) := by
  unfold Machine.State.onVoter
  dsimp only
  exact h

theorem execTestSelftest (r : Req) (kind index : Nat) (pass : Bool) (data : Nat) (s : State) : Answers s
    (Machine.execTestSelftest r kind index pass data s) := by
  unfold Machine.execTestSelftest
  exact hostCmd (fun _ _ => AnsKeeps.checked (AnsKeeps.ite (AnsKeeps.ok (refl _)) (AnsKeeps.ended (refl _)))) _ _ _

theorem reenter {s₀ s : State} {kind index : Nat} (h : Keeps s₀ s) : Keeps s₀ (s.reenter kind index) := by
  unfold Machine.State.reenter
  dsimp only
  split
  · exact reserveNote (onVoter h)
  · exact reserveNote (stageSpare (onWtx h))
  · exact reserveNote (onRx h)
  · exact convReturn h
  · exact by
        split
        · exact onSign (reserveNote (onSign h))
        · exact reserveNote (onSign h)

theorem execTestReturn (r : Req) (kind index : Nat) (pass : Bool) (s : State) : Answers s (Machine.execTestReturn r kind index pass s) := by
  unfold Machine.execTestReturn
  exact hostCmd (fun _ _ => AnsKeeps.checked (AnsKeeps.ite (AnsKeeps.ok (reenter (refl _))) (AnsKeeps.ended (wearInc (refl _))))) _ _ _

theorem retireUnit {s₀ s : State} {kind index : Nat} (h : Keeps s₀ s) : Keeps s₀ (s.retireUnit kind index) := by
  unfold Machine.State.retireUnit
  split
  · exact onVoter h
  · exact by
        split
        · exact retireStage h
        · exact h
  · exact h
  · exact tryCal (calAdd h)
  · exact onSign h

theorem execTestRetire (r : Req) (kind index : Nat) (s : State) : Answers s (Machine.execTestRetire r kind index s) := by
  unfold Machine.execTestRetire
  exact hostCmd (fun _ _ => AnsKeeps.checked (AnsKeeps.ok (retireUnit (refl _)))) _ _ _

theorem execTestReserves (r : Req) (s : State) : Answers s (Machine.execTestReserves r s) := by
  unfold Machine.execTestReserves
  exact hostCmd (fun _ _ => AnsKeeps.ok (refl _)) _ _ _

theorem execTestRestart (r : Req) (target : Nat) (s : State) : Answers s (Machine.execTestRestart r target s) := by
  unfold Machine.execTestRestart
  exact hostCmd (fun _ t => AnsKeeps.checked (AnsKeeps.okThen (refl t) fun _ => ite (restartRegion (refl _)) (endAll (shed (record (refl _)))))) _ _ _

theorem execTestWearSet (r : Req) (kind thresh : Nat) (s : State) : Answers s (Machine.execTestWearSet r kind thresh s) := by
  unfold Machine.execTestWearSet
  exact hostCmd (fun _ _ => AnsKeeps.checked (AnsKeeps.ok (onNv (refl _)))) _ _ _

theorem sweepHour {s₀ s : State} (h : Keeps s₀ s) : Keeps s₀ (s.sweepHour) := by
  unfold Machine.State.sweepHour
  dsimp only
  exact foldl (fun _ _ => ite (stuckTable (onBstat (refl _))) (onBstat (refl _))) h

theorem execAgeMinute (dt : Dt) (s : State) : Answers s (Machine.execAgeMinute dt s) := by
  unfold Machine.execAgeMinute
  dsimp only
  exact Answers.next
    (ite
      (tick (refl _))
      (ite
        (sweepHour (ite (raiseGen (onMeter (tick (refl _)))) (onMeter (tick (refl _)))))
        (ite (raiseGen (onMeter (tick (refl _)))) (onMeter (tick (refl _))))))

theorem execVoterDisagree (dt : Dt) (region : Region) (pos : Nat) (allDiffer : Bool) (s : State) : Answers s
    (Machine.execVoterDisagree dt region pos allDiffer s) := by
  unfold Machine.execVoterDisagree
  dsimp only
  exact Answers.next
    (ite
      (tick (refl _))
      (ite
        (restartRegion (stuckIf (onVoter (tick (refl _)))))
        (reserveNote (raise (wearInc (onVoter (stuckIf (onVoter (tick (refl _))))))))))

theorem voterEdge {s₀ s : State} {r : Region} (h : Keeps s₀ s) : Keeps s₀ (s.voterEdge r) := by
  unfold Machine.State.voterEdge
  dsimp only
  exact ite
    h
    (by
      split
      · exact reserveNote
            (onVoter
              (by
                split
                · exact ite (reserveNote (onVoter h)) (onVoter h)
                · exact h))
      · exact by
            split
            · exact ite (reserveNote (onVoter h)) (onVoter h)
            · exact h)

theorem execRegionRestart (dt : Dt) (region : Region) (s : State) : Answers s (Machine.execRegionRestart dt region s) := by
  unfold Machine.execRegionRestart
  dsimp only
  exact Answers.next (restartRegion (tick (refl _)))

theorem switchInterrupted {s₀ s : State} (h : Keeps s₀ s) : Keeps s₀ (s.switchInterrupted) := by
  unfold Machine.State.switchInterrupted
  dsimp only
  exact ite h (ite (regionReset (ite (regionReset (onUpd h)) (onUpd h))) (ite (regionReset (onUpd h)) (onUpd h)))

theorem switchOver {s₀ s : State} (h : Keeps s₀ s) : Keeps s₀ (s.switchOver) := by
  unfold Machine.State.switchOver
  dsimp only
  exact ite (enterTrial h) h

theorem resumeRegion {s₀ s : State} {r : Region} (h : Keeps s₀ s) : Keeps s₀ (s.resumeRegion r) := by
  unfold Machine.State.resumeRegion
  dsimp only
  split
  · exact ite (blotLost (loadSent (loadC h))) (silStopped (blotLost (loadSent (loadC h))))
  · exact record (loseWindows (alarmsClear (restoreTotals (loadD h))))
  · exact switchInterrupted (signOn (rollTwins (handOver (mRuns h))))

theorem execRegionResume (dt : Dt) (region : Region) (s : State) : Answers s (Machine.execRegionResume dt region s) := by
  unfold Machine.execRegionResume
  dsimp only
  exact Answers.next (ite (tick (refl _)) (switchOver (resumeRegion (onVoter (record (tick (refl _)))))))

theorem onTb {s₀ s : State} {g : TimeBase → TimeBase} (h : Keeps s₀ s) : Keeps s₀ (s.onTb g) := by
  unfold Machine.State.onTb
  exact h

theorem tbTo {s₀ s : State} {st : TbState} (h : Keeps s₀ s) : Keeps s₀ (s.tbTo st) := by
  unfold Machine.State.tbTo
  dsimp only
  exact ite h (notifyClass (onTb h))

theorem raiseTb {s₀ s : State} {code : Nat} {pay : List Nat} (h : Keeps s₀ s) : Keeps s₀ (s.raiseTb code pay) := by
  unfold Machine.State.raiseTb
  exact raiseHw h

theorem goVirtual {s₀ s : State} {st : TbState} {e : Nat} (h : Keeps s₀ s) : Keeps s₀ (s.goVirtual st e) := by
  unfold Machine.State.goVirtual
  dsimp only
  exact tbTo (onTb h)

theorem qualified {s₀ s : State} (h : Keeps s₀ s) : Keeps s₀ (s.qualified) := by
  unfold Machine.State.qualified
  dsimp only
  exact onNv (onTb h)

theorem outOfProfile {s₀ s : State} (h : Keeps s₀ s) : Keeps s₀ (s.outOfProfile) := by
  unfold Machine.State.outOfProfile
  dsimp only
  exact ite (onTb h) (ite (tbTo (onTb (onTb h))) (goVirtual (onTb h)))

theorem qualCross {s₀ s : State} {whole missed : Bool} (h : Keeps s₀ s) : Keeps s₀ (s.qualCross whole missed) := by
  unfold Machine.State.qualCross
  dsimp only
  split
  · exact ite (qualified (onTb h)) (onTb h)
  · exact tbTo (onTb h)
  · exact ite (tbTo (onTb h)) h
  · exact ite
        (ite (outOfProfile h) h)
        (ite (ite (qualified (onTb h)) (onTb h)) (ite (tbTo (onTb h)) (ite (outOfProfile (onTb h)) (onTb h))))
  · exact h

theorem restampB {s₀ s : State} (h : Keeps s₀ s) : Keeps s₀ (s.restampB) := by
  unfold Machine.State.restampB
  dsimp only
  exact record (onTb h)

theorem feedersB {s₀ s : State} (h : Keeps s₀ s) : Keeps s₀ (s.feedersB) := by
  unfold Machine.State.feedersB
  exact foldl (fun _ _ => onFeeder (refl _)) h

theorem execSetBCrossing (dt : Dt) (x1 : Bool) (rms : Nat) (s : State) : Answers s (Machine.execSetBCrossing dt x1 rms s) := by
  unfold Machine.execSetBCrossing
  dsimp only
  exact Answers.next
    (ite
      (tick (refl _))
      (ite
        (onTb (tick (refl _)))
        (ite
          (ite (feedersB (restampB (onTb (onTb (tick (refl _)))))) (onTb (tick (refl _))))
          (ite (onTb (onTb (tick (refl _)))) (ite (restampB (onTb (onTb (tick (refl _))))) (onTb (onTb (tick (refl _)))))))))

theorem runAct {s₀ s : State} {a : Action} (h : Keeps s₀ s) : Keeps s₀ (s.runAct a) := by
  unfold Machine.State.runAct
  dsimp only
  split
  · exact complete (silStart h)
  · exact complete (cfgInForce h)
  · exact complete (cfgInForce h)
  · exact complete (cfgInForce h)
  · exact complete (modelInForce h)
  · exact complete (groupEffect h)
  · exact complete (sceneEffect h)
  · exact complete (dropCmd h)
  · exact complete (overrideKeep h)
  · exact probeStart h
  · exact complete (snapBegin h)
  · exact complete (accSnapBegin h)
  · exact swapAction h

theorem snapsDropped {s₀ s : State} {gone : List Action} (h : Keeps s₀ s) : Keeps s₀ (s.snapsDropped gone) := by
  unfold Machine.State.snapsDropped
  dsimp only
  exact ite (record (ite h h)) (ite h h)

theorem dropAct {s₀ s : State} {a : Action} (h : Keeps s₀ s) : Keeps s₀ (s.dropAct a) := by
  unfold Machine.State.dropAct
  exact snapsDropped (complete (raiseGen h))

theorem takeActs {s₀ s : State} {p : Action → Bool} (h : Keeps s₀ s) : Keeps s₀ (s.takeActs p).2 := by
  unfold Machine.State.takeActs
  dsimp only
  exact h

theorem dropDue {s₀ s : State} (h : Keeps s₀ s) : Keeps s₀ (s.dropDue) := by
  unfold Machine.State.dropDue
  dsimp only
  exact foldl (fun _ _ => ite (refl _) (foldl (fun _ _ => complete (refl _)) (snapsDropped (raiseGen (refl _))))) (takeActs h)

theorem runActs {s₀ s : State} {p : Action → Bool} (h : Keeps s₀ s) : Keeps s₀ (s.runActs p) := by
  unfold Machine.State.runActs
  dsimp only
  exact foldl (fun _ _ => ite (dropAct (refl _)) (runAct (refl _))) (takeActs h)

theorem runClass {s₀ s : State} {cls : Nat} (h : Keeps s₀ s) : Keeps s₀ (s.runClass cls) := by
  unfold Machine.State.runClass
  exact runActs h

theorem overridesDue {s₀ s : State} (h : Keeps s₀ s) : Keeps s₀ (s.overridesDue) := by
  unfold Machine.State.overridesDue
  exact foldl
    (fun _ _ => by
      split
      · exact overrideWrite (refl _)
      · exact refl _) h

theorem limitWork {s₀ s : State} (h : Keeps s₀ s) : Keeps s₀ (s.limitWork) := by
  unfold Machine.State.limitWork
  exact limitsDue (overridesOver (overridesEnd (overridesDue h)))

theorem limitEdge {s₀ s : State} (h : Keeps s₀ s) : Keeps s₀ (s.limitEdge) := by
  unfold Machine.State.limitEdge
  exact ite (onSil h) (limitWork h)

theorem execPassCommit (dt : Dt) (mismatch mismatch2 rerunFits : Bool) (timeUs : Nat) (s : State) : Answers s
    (Machine.execPassCommit dt mismatch mismatch2 rerunFits timeUs s) := by
  unfold Machine.execPassCommit
  dsimp only
  exact Answers.next
    (by
      split
      · exact tick (refl _)
      · exact ite
            (ite
              (limitWork
                (onSil
                  (foldl
                    (fun _ _ => applySensor (refl _))
                    (onSil
                      (ite
                        (abandonPass (ite (stuckIf (onSil (tick (refl _)))) (tick (refl _))))
                        (commitPass (ite (stuckIf (onSil (tick (refl _)))) (tick (refl _)))))))))
              (foldl
                (fun _ _ => applySensor (refl _))
                (onSil
                  (ite
                    (abandonPass (ite (stuckIf (onSil (tick (refl _)))) (tick (refl _))))
                    (commitPass (ite (stuckIf (onSil (tick (refl _)))) (tick (refl _))))))))
            (silStopped
              (ite
                (limitWork
                  (onSil
                    (foldl
                      (fun _ _ => applySensor (refl _))
                      (onSil
                        (ite
                          (abandonPass (ite (stuckIf (onSil (tick (refl _)))) (tick (refl _))))
                          (commitPass (ite (stuckIf (onSil (tick (refl _)))) (tick (refl _)))))))))
                (foldl
                  (fun _ _ => applySensor (refl _))
                  (onSil
                    (ite
                      (abandonPass (ite (stuckIf (onSil (tick (refl _)))) (tick (refl _))))
                      (commitPass (ite (stuckIf (onSil (tick (refl _)))) (tick (refl _))))))))))

theorem newHcn {s₀ s : State} {k fl : Nat} (h : Keeps s₀ s) : Keeps s₀ (s.newHcn k fl) := by
  unfold Machine.State.newHcn
  dsimp only
  exact ite (raiseTb (record (onTb h))) (record (onTb h))

theorem retiredKeys {s₀ s : State} (h : Keeps s₀ s) : Keeps s₀ (s.retiredKeys) := by
  unfold Machine.State.retiredKeys
  dsimp only
  exact foldl
    (fun _ _ => by
      split
      · exact ite (refl _) (refl _)
      · exact refl _) h

theorem feedersEdge {s₀ s : State} (h : Keeps s₀ s) : Keeps s₀ (s.feedersEdge) := by
  unfold Machine.State.feedersEdge
  dsimp only
  exact foldl (fun _ _ => ite (feederEdge (refl _)) (onFeeder (feederEdge (refl _)))) h

theorem edgeC {s₀ s : State} (h : Keeps s₀ s) : Keeps s₀ (s.edgeC) := by
  unfold Machine.State.edgeC
  dsimp only
  exact ite
    h
    (ite (publishSnap (ite (onSil h) h)) (publishSnap (planProbes (withdrawProbes (limitEdge (schedTriggers (ite (onSil h) h)))))))

theorem edgeM {s₀ s : State} (h : Keeps s₀ s) : Keeps s₀ (s.edgeM) := by
  unfold Machine.State.edgeM
  exact ite (swapLate (signEdge h)) h

theorem edge {s₀ s : State} {k fl : Nat} (h : Keeps s₀ s) : Keeps s₀ (s.edge k fl) := by
  unfold Machine.State.edge
  dsimp only
  exact ite
    (ite
      (updEdge (runActs (runClass (dropDue (rolloversPassed (voterEdge (voterEdge (voterEdge (record (retiredKeys (newHcn h)))))))))))
      (runActs (runClass (dropDue (rolloversPassed (voterEdge (voterEdge (voterEdge (record (retiredKeys (newHcn h)))))))))))
    (edgeM
      (meterEdge
        (edgeC
          (feedersEdge
            (runClass
              (runClass
                (recordsEffect
                  (runClass
                    (runClass
                      (ite
                        (updEdge
                          (runActs
                            (runClass (dropDue (rolloversPassed (voterEdge (voterEdge (voterEdge (record (retiredKeys (newHcn h)))))))))))
                        (runActs
                          (runClass
                            (dropDue (rolloversPassed (voterEdge (voterEdge (voterEdge (record (retiredKeys (newHcn h))))))))))))))))))))

theorem firstEdge {s₀ s : State} {k : Nat} {st : TbState} (h : Keeps s₀ s) : Keeps s₀ (s.firstEdge k st) := by
  unfold Machine.State.firstEdge
  dsimp only
  exact edge (loadRR (ite (writeLimits (onSil (onNv (raiseTb (tbTo (onTb h)))))) (onSil (onNv (raiseTb (tbTo (onTb h)))))))

theorem execZeroCrossing (dt : Dt) (rising : Bool) (rms : Nat) (s : State) : Answers s (Machine.execZeroCrossing dt rising rms s) := by
  unfold Machine.execZeroCrossing
  dsimp only
  exact Answers.next
    (ite
      (tick (refl _))
      (ite
        (ite (firstEdge (onTb (tick (refl _)))) (qualCross (onTb (tick (refl _)))))
        (ite
          (qualCross (onTb (ite (tbTo (onTb (tick (refl _)))) (tick (refl _)))))
          (ite
            (outOfProfile
              (ite
                (onTb (onTb (ite (tbTo (onTb (tick (refl _)))) (tick (refl _)))))
                (onTb (onTb (ite (tbTo (onTb (tick (refl _)))) (tick (refl _)))))))
            (ite
              (onTb (onTb (ite (tbTo (onTb (tick (refl _)))) (tick (refl _)))))
              (onTb (onTb (ite (tbTo (onTb (tick (refl _)))) (tick (refl _))))))))))

theorem relocked {s₀ s : State} {off slewed : Nat} (h : Keeps s₀ s) : Keeps s₀ (s.relocked off slewed) := by
  unfold Machine.State.relocked
  dsimp only
  exact raiseTb (tbTo (stuckIf (onTb h)))

theorem refEdge {s₀ s : State} {bridged : Nat} (h : Keeps s₀ s) : Keeps s₀ (s.refEdge bridged) := by
  unfold Machine.State.refEdge
  dsimp only
  exact ite (edge (relocked h)) (edge (tbTo (onTb h)))

theorem execHcnEdge (dt : Dt) (found : Bool) (rms : Nat) (s : State) : Answers s (Machine.execHcnEdge dt found rms s) := by
  unfold Machine.execHcnEdge
  dsimp only
  exact Answers.next
    (ite
      (tick (refl _))
      (ite
        (refEdge (tick (refl _)))
        (ite
          (edge (raiseTb (goVirtual (ite (tick (refl _)) (onTb (tick (refl _)))))))
          (ite
            (ite (refEdge (onTb (ite (tick (refl _)) (onTb (tick (refl _)))))) (edge (onTb (ite (tick (refl _)) (onTb (tick (refl _)))))))
            (ite
              (edge (relocked (onTb (onTb (ite (tick (refl _)) (onTb (tick (refl _))))))))
              (edge (onTb (onTb (ite (tick (refl _)) (onTb (tick (refl _))))))))))))

theorem execVirtualEdge (dt : Dt) (s : State) : Answers s (Machine.execVirtualEdge dt s) := by
  unfold Machine.execVirtualEdge
  dsimp only
  exact Answers.next
    (ite
      (tick (refl _))
      (ite
        (refEdge (onTb (tick (refl _))))
        (edge
          (ite
            (tbTo (onTb (ite (onTb (onTb (tick (refl _)))) (ite (onTb (onTb (tick (refl _)))) (onTb (tick (refl _)))))))
            (ite (onTb (onTb (tick (refl _)))) (ite (onTb (onTb (tick (refl _)))) (onTb (tick (refl _)))))))))

theorem execLockStepTimeout (dt : Dt) (s : State) : Answers s (Machine.execLockStepTimeout dt s) := by
  unfold Machine.execLockStepTimeout
  dsimp only
  exact Answers.next (ite (tick (refl _)) (firstEdge (onTb (tick (refl _)))))

theorem readBeats {s₀ s : State} {m : Master} {a width n : Nat} {found : List (Nat × Damage)} (h : Keeps s₀ s) :
    Keeps s₀ (s.readBeats m a width found n).2.2 := by
  induction n generalizing s a with
  | zero => exact h
  | succ n ih =>
    unfold Machine.State.readBeats
    split
    · next t heq => exact of_snd heq (readAcc h)
    · next v t heq => exact ih (of_snd heq (readAcc h))

theorem writeBeats {s₀ s : State} {m : Master} {a width n : Nat} {data : List Nat} {found : List (Nat × Damage)} (h : Keeps s₀ s) :
    Keeps s₀ (s.writeBeats m a width data found n).2.2 := by
  induction n generalizing s a data with
  | zero => exact h
  | succ n ih =>
    unfold Machine.State.writeBeats
    split
    · next t heq => exact of_snd heq (writeAcc h)
    · next t heq => exact ih (of_snd heq (writeAcc h))

theorem chanMoved {s₀ s : State} {r : Region} {n k : Nat} (h : Keeps s₀ s) : Keeps s₀ (s.chanMoved r n k) := by
  unfold Machine.State.chanMoved
  exact onChan h

theorem cellBurst {s₀ s : State} {r : Region} {n : Nat} {data : List Nat} {found : List (Nat × Damage)} {gives : Nat} (h : Keeps s₀ s) :
    Keeps s₀ (s.cellBurst r n data found gives).2 := by
  unfold Machine.State.cellBurst
  exact ite_prod (emit (chanMoved (readBeats h))) (chanMoved (writeBeats h))

theorem tookTurn {s₀ s : State} {r : Region} {n : Nat} (h : Keeps s₀ s) : Keeps s₀ (s.tookTurn r n) := by
  unfold Machine.State.tookTurn
  dsimp only
  exact h

theorem ctxMove {s₀ s : State} {r : Region} {n : Nat} {found : List (Nat × Damage)} (h : Keeps s₀ s) : Keeps s₀ (s.ctxMove r n found).2 := by
  unfold Machine.State.ctxMove
  exact tookTurn (chanMoved (writeBeats (readBeats h)))

theorem execDmaBurstDone (dt : Dt) (region : Region) (ch : Nat) (data : List Nat) (found : List (Nat × Damage)) (request : Bool) (s : State) :
    Answers s (Machine.execDmaBurstDone dt region ch data found request s) := by
  unfold Machine.execDmaBurstDone
  dsimp only
  exact Answers.next
    (ite
      (tick (refl _))
      (ite
        (chanGo (onChan (ite_prod (cellBurst (tick (refl _))) (ctxMove (tick (refl _))))))
        (onChan (onChan (ite_prod (cellBurst (tick (refl _))) (ctxMove (tick (refl _))))))))

theorem execDmaPeriphReset (dt : Dt) (region : Region) (ch beats : Nat) (s : State) : Answers s
    (Machine.execDmaPeriphReset dt region ch beats s) := by
  unfold Machine.execDmaPeriphReset
  dsimp only
  exact Answers.next
    (ite
      (tick (refl _))
      (by
        split
        · exact onChan (tick (refl _))
        · exact onChan (cellBurst (drawBytes (tick (refl _))))
        · exact onChan (tick (refl _))))

theorem memReads {s₀ s : State} {len width a n : Nat} {found : List (Nat × Damage)} {lostAt : Option Nat} (h : Keeps s₀ s) :
    Keeps s₀ (s.memReads len width found lostAt a n).2.2 := by
  induction n generalizing s a with
  | zero => exact h
  | succ n ih =>
    unfold Machine.State.memReads
    split
    · exact h
    · split
      · next t heq => exact of_snd heq (readAcc h)
      · next v t heq => exact ih (of_snd heq (readAcc h))

theorem memWrites {s₀ s : State} {len width a n : Nat} {data : List Nat} {found : List (Nat × Damage)} {lostAt : Option Nat} (h : Keeps s₀ s) :
    Keeps s₀ (s.memWrites len width data found lostAt a n).2 := by
  induction n generalizing s a data with
  | zero => exact h
  | succ n ih =>
    unfold Machine.State.memWrites
    split
    · exact h
    · split
      · next t heq => exact of_snd heq (writeAcc h)
      · next t heq => exact ih (of_snd heq (writeAcc h))

theorem execMemRead (r : Req) (addr width len : Nat) (found : List (Nat × Damage)) (lostAt : Option Nat) (s : State) :
    Answers s (Machine.execMemRead r addr width len found lostAt s) := by
  unfold Machine.execMemRead
  refine hostCmd (fun _ t => AnsKeeps.checked ?_) _ _ _
  dsimp only
  split
  · exact AnsKeeps.ok (memReads (refl t))
  · exact AnsKeeps.ended (memReads (refl t))

theorem execMemWrite (r : Req) (addr width : Nat) (data : List Nat) (found : List (Nat × Damage)) (lostAt : Option Nat) (s : State) : Answers s
    (Machine.execMemWrite r addr width data found lostAt s) := by
  unfold Machine.execMemWrite
  dsimp only
  exact hostCmd
    (fun _ _ => AnsKeeps.checked
      (by
        split
        · exact AnsKeeps.ok (memWrites (refl _))
        · exact AnsKeeps.ended (memWrites (refl _))))
    _
    _
    _

theorem execUplinkBurstDecoded (dt : Dt) (f slot type idx : Nat) (micCurrent micRetiring : Bool) (snr : Nat) (s : State) : Answers s
    (Machine.execUplinkBurstDecoded dt f slot type idx micCurrent micRetiring snr s) := by
  unfold Machine.execUplinkBurstDecoded
  dsimp only
  exact Answers.next
    (ite
      (tick (refl _))
      (ite
        (stuckFw (onRx (addTotal (stuckIf (onRx (tick (refl _)))))))
        (ite
          (ite
            (raiseHw (onFeeder (stuckFw (onRx (addTotal (stuckIf (onRx (tick (refl _)))))))))
            (stuckFw (onRx (addTotal (stuckIf (onRx (tick (refl _))))))))
          (ite
            (stuckFw (onRx (addTotal (stuckIf (onRx (tick (refl _)))))))
            (ite (addTotal (stuckIf (onRx (tick (refl _))))) (onNode (addTotal (stuckIf (onRx (tick (refl _)))))))))))

theorem noiseOf {s₀ s : State} {f k noise : Nat} (h : Keeps s₀ s) : Keeps s₀ (s.noiseOf f k noise) := by
  unfold Machine.State.noiseOf
  exact onRx h

theorem execUplinkMinislotEnd (dt : Dt) (f slot : Nat) (detected : Bool) (noise : Nat) (s : State) : Answers s
    (Machine.execUplinkMinislotEnd dt f slot detected noise s) := by
  unfold Machine.execUplinkMinislotEnd
  dsimp only
  exact Answers.next
    (ite
      (tick (refl _))
      (ite
        (noiseOf (tick (refl _)))
        (ite (tick (refl _)) (ite (addTotal (stuckIf (onRx (noiseOf (tick (refl _)))))) (noiseOf (tick (refl _)))))))

theorem heardNode {s₀ s : State} {rep : Rep} (h : Keeps s₀ s) : Keeps s₀ (s.heardNode rep) := by
  unfold Machine.State.heardNode
  dsimp only
  split
  · exact onNode h
  · exact ite (sensor (onNode h)) (onNode h)

theorem contend {s₀ s : State} {a k : Nat} (h : Keeps s₀ s) : Keeps s₀ (s.contend a k).1 := by
  unfold Machine.State.contend
  exact ite_fst h (ite_fst (nodeNote (raiseHw (onNode h))) (onNode h))

theorem execPresRise (rep : Rep) (sense strength : Nat) (loc : Bool) (s : State) : Answers s (Machine.execPresRise rep sense strength loc s) := by
  unfold Machine.execPresRise
  have heard : Keeps s (if rep.slot = 0 then (s.tick rep.dt).contend (repAddr rep) ((s.tick rep.dt).feeder rep.f).frame
      else (s.tick rep.dt, true)).1 := ite_fst (contend (tick (refl _))) (tick (refl _))
  refine Answers.next (ite (tick (refl _)) ?_)
  dsimp only
  generalize (if rep.slot = 0 then (s.tick rep.dt).contend (repAddr rep) ((s.tick rep.dt).feeder rep.f).frame else (s.tick rep.dt, true)) = q
    at heard ⊢
  exact ite heard (ite (onNode (sensor (heardNode (ite (onFeeder heard) heard)))) (sensor (heardNode (ite (onFeeder heard) heard))))

theorem execPresFall (rep : Rep) (x1 : Nat) (s : State) : Answers s (Machine.execPresFall rep x1 s) := by
  unfold Machine.execPresFall
  dsimp only
  exact Answers.next (ite (tick (refl _)) (sensor (heardNode (tick (refl _)))))

theorem execDaylight (rep : Rep) (lux : Nat) (pres fb : Bool) (temp : Nat) (s : State) : Answers s (Machine.execDaylight rep lux pres fb temp s) := by
  unfold Machine.execDaylight
  dsimp only
  exact Answers.next (ite (tick (refl _)) (sensor (onNode (heardNode (tick (refl _))))))

theorem execStatusReport (rep : Rep) (nflags : BitVec 16) (pver fwver : Nat) (s : State) : Answers s
    (Machine.execStatusReport rep nflags pver fwver s) := by
  unfold Machine.execStatusReport
  dsimp only
  exact Answers.next
    (ite
      (tick (refl _))
      (ite
        (request
          (ite
            (fallbackNode (ite (nodeNote (raiseHw (onNode (heardNode (tick (refl _)))))) (onNode (heardNode (tick (refl _))))))
            (ite (nodeNote (raiseHw (onNode (heardNode (tick (refl _)))))) (onNode (heardNode (tick (refl _)))))))
        (ite
          (fallbackNode (ite (nodeNote (raiseHw (onNode (heardNode (tick (refl _)))))) (onNode (heardNode (tick (refl _))))))
          (ite (nodeNote (raiseHw (onNode (heardNode (tick (refl _)))))) (onNode (heardNode (tick (refl _))))))))

theorem ackBg {s₀ s : State} {f op idx ref result : Nat} (h : Keeps s₀ s) : Keeps s₀ (s.ackBg f op idx ref result) := by
  unfold Machine.State.ackBg
  dsimp only
  split
  · exact h
  · exact by
        split
        · exact nodeLeft (onNv h)
        · exact ite
              (onNv h)
              (by
                split
                · exact ite (bindLimits (onNcfg (onNv h))) (onNcfg (onNv h))
                · exact onNcfg (onNv h))

theorem ackProbe {s₀ s : State} {a ref result : Nat} (h : Keeps s₀ s) : Keeps s₀ (s.ackProbe a ref result) := by
  unfold Machine.State.ackProbe
  split
  · exact h
  · exact by
        split
        · exact onBlot h
        · exact ackJudged h

theorem execAck (rep : Rep) (op result ref : Nat) (s : State) : Answers s (Machine.execAck rep op result ref s) := by
  unfold Machine.execAck
  dsimp only
  exact Answers.next
    (ite
      (tick (refl _))
      (by
        split
        · exact ackProbe (nodeNote (heardNode (tick (refl _))))
        · exact by
              split
              · exact ite (onFeeder (onNode (nodeNote (heardNode (tick (refl _)))))) (nodeNote (heardNode (tick (refl _))))
              · exact nodeNote (heardNode (tick (refl _)))
        · exact ackBg (nodeNote (heardNode (tick (refl _))))))

theorem execImgStatus (rep : Rep) (img state missing first : Nat) (s : State) : Answers s (Machine.execImgStatus rep img state missing first s) := by
  unfold Machine.execImgStatus
  dsimp only
  exact Answers.next (ite (tick (refl _)) (onNode (heardNode (tick (refl _)))))

theorem refuseJoin {s₀ s : State} (h : Keeps s₀ s) : Keeps s₀ (s.refuseJoin) := by
  unfold Machine.State.refuseJoin
  dsimp only
  exact ite (raiseHw h) h

theorem execJoinReq (dt : Dt) (f euiHigh euiLow : Nat) (micOkFor : List Nat) (s : State) :
    Answers s (Machine.execJoinReq dt f euiHigh euiLow micOkFor s) := by
  unfold Machine.execJoinReq
  dsimp only
  refine Answers.next (ite (tick (refl _)) ?_)
  split
  · exact ite (refuseJoin (tick (refl _))) (stuckFw (onRx (tick (refl _))))
  · next g _ =>
    have heard : Keeps s (match g.addr with
        | some a => (s.tick dt).contend a ((s.tick dt).feeder f).frame | none => (s.tick dt, true)).1 := by
      split
      · exact contend (tick (refl _))
      · exact tick (refl _)
    refine ite heard (ite (refuseJoin heard) (ite heard ?_))
    split
    · exact heard
    · exact onFeeder heard

theorem execQuarantineEnd (dt : Dt) (addr : Nat) (s : State) : Answers s (Machine.execQuarantineEnd dt addr s) := by
  unfold Machine.execQuarantineEnd
  dsimp only
  exact Answers.next (ite (nodeNote (onNode (tick (refl _)))) (tick (refl _)))

theorem execPresTimeout (dt : Dt) (addr : Nat) (s : State) : Answers s (Machine.execPresTimeout dt addr s) := by
  unfold Machine.execPresTimeout
  dsimp only
  exact Answers.next (ite (sensor (tick (refl _))) (tick (refl _)))

theorem execDaylightTimeout (dt : Dt) (addr : Nat) (s : State) : Answers s (Machine.execDaylightTimeout dt addr s) := by
  unfold Machine.execDaylightTimeout
  dsimp only
  exact Answers.next (ite (sensor (tick (refl _))) (tick (refl _)))

theorem execNodeKeyResend (dt : Dt) (addr : Nat) (s : State) : Answers s (Machine.execNodeKeyResend dt addr s) := by
  unfold Machine.execNodeKeyResend
  dsimp only
  exact Answers.next (ite (onFeeder (tick (refl _))) (tick (refl _)))

theorem execBackgroundResend (dt : Dt) (f id : Nat) (s : State) : Answers s (Machine.execBackgroundResend dt f id s) := by
  unfold Machine.execBackgroundResend
  dsimp only
  exact Answers.next
    (by
      split
      · exact tick (refl _)
      · exact ite
            (tick (refl _))
            (ite
              (onNv (tick (refl _)))
              (by
                split
                · exact nodeLeft (onNv (tick (refl _)))
                · exact raiseHw (onNv (tick (refl _))))))

theorem exec (i : Instr) (s : State) : Answers s (Machine.exec i s) := by
  unfold Machine.exec
  split
  · exact execSysIdentify _ _
  · exact execSysStatus _ _
  · exact execSysSessionOpen _ _ _ _ _ _ _ _ _ _ _
  · exact execSysSessionConfirm _ _ _
  · exact execSysSessionClose _ _
  · exact execSysSubscribe _ _ _ _
  · exact execSysNotifyRead _ _ _ _
  · exact execSysSessions _ _
  · exact execSysNetSet _ _ _ _ _ _
  · exact execSysNetRead _ _
  · exact execSysLifecycle _ _ _ _
  · exact execTimeTbStatus _ _
  · exact execTimeStampRead _ _ _ _
  · exact execTimeTbSet _ _ _ _
  · exact execTimeRtcRead _ _
  · exact execTimeRtcSet _ _ _ _ _ _ _ _ _
  · exact execTimeRtcStep _ _ _
  · exact execTimePtpSet _ _ _ _ _ _ _
  · exact execTimePtpRead _ _
  · exact execLinkStatus _ _
  · exact execLinkAttenSet _ _ _ _
  · exact execLinkStageSet _ _ _ _
  · exact execNodeRegister _ _ _ _ _ _
  · exact execNodeDeregister _ _ _
  · exact execNodeRead _ _ _ _
  · exact execNodeGroupsRead _ _ _
  · exact execNodeGroupSet _ _ _ _ _ _
  · exact execNodeSceneSet _ _ _ _ _
  · exact execNodeParamSet _ _ _ _ _
  · exact execNodeLevel _ _ _ _ _
  · exact execNodeScene _ _ _ _ _ _
  · exact execNodeOverride _ _ _ _ _ _ _
  · exact execGraphStop _ _
  · exact execGraphEdgeWrite _ _ _ _
  · exact execGraphNodeWrite _ _ _ _
  · exact execGraphCurveWrite _ _ _ _
  · exact execGraphSlewWrite _ _ _ _
  · exact execGraphCfgWrite _ _ _ _
  · exact execGraphRestart _ _ _
  · exact execGraphRead _ _ _ _ _
  · exact execGraphStatus _ _
  · exact execSchedWrite _ _ _ _ _
  · exact execSchedRead _ _ _
  · exact execSchedHolWrite _ _ _ _
  · exact execSchedHolRead _ _ _
  · exact execSchedSiteWrite _ _ _
  · exact execSchedSiteRead _ _
  · exact execSchedSunRead _ _ _
  · exact execSchedLimitsRead _ _ _
  · exact execMeterInputSet _ _ _ _ _ _
  · exact execMeterGlobalSet _ _ _ _ _ _ _
  · exact execMeterPulseSet _ _ _ _ _ _ _
  · exact execMeterCfgRead _ _ _
  · exact execMeterRecordRead _ _ _ _ _
  · exact execMeterSubscribe _ _ _ _
  · exact execMeterSnapshot _ _ _
  · exact execMeterSnapRead _ _ _ _
  · exact execMeterAccRead _ _ _ _
  · exact execMeterGapRead _ _
  · exact execMeterCalibrate _ _ _
  · exact execMeterSatClear _ _ _
  · exact execMeterStatus _ _
  · exact execAccordModelSet _ _ _ _ _
  · exact execAccordDefaultSet _ _ _
  · exact execAccordModelRead _ _ _ _
  · exact execAccordAccountRead _ _ _ _
  · exact execAccordPhaseRead _ _ _ _
  · exact execAccordSnapshot _ _ _
  · exact execAccordSnapRead _ _ _ _ _
  · exact execAccordCfgSet _ _ _ _
  · exact execAccordStatus _ _
  · exact execBlotterRequest _ _ _ _ _
  · exact execBlotterCancel _ _ _
  · exact execBlotterResultRead _ _ _ _ _
  · exact execBlotterNodeRead _ _ _ _
  · exact execBlotterClear _ _ _
  · exact execBlotterCfgSet _ _ _ _
  · exact execBlotterStatus _ _
  · exact execSignWrite _ _ _ _ _ _
  · exact execSignSwap _ _ _ _ _ _
  · exact execSignCfgSet _ _ _ _
  · exact execSignTrimSet _ _ _ _
  · exact execSignPopSet _ _ _ _
  · exact execSignDefaultSet _ _ _ _ _
  · exact execSignStatus _ _
  · exact execSignFaultRead _ _ _
  · exact execSignBus _ _ _ _ _ _
  · exact execSignCellSet _ _ _ _
  · exact execSignColsRead _ _
  · exact execKeySlotRead _ _
  · exact execKeyLoad _ _ _ _ _ _
  · exact execKeyGenerate _ _ _ _
  · exact execKeyCommit _ _ _ _
  · exact execKeyInvalidate _ _ _
  · exact execKeyRollover _ _ _ _
  · exact execKeyRollRead _ _ _
  · exact execKeyOperatorSet _ _ _ _ _
  · exact execKeyDenySet _ _ _
  · exact execKeyDenyRead _ _
  · exact execKeyTamperSet _ _ _ _
  · exact execKeyTamperRead _ _
  · exact execKeyTamperAck _ _ _
  · exact execUpdHeader _ _ _ _
  · exact execUpdBlock _ _ _ _
  · exact execUpdBitmap _ _ _ _
  · exact execUpdActivate _ _ _ _
  · exact execUpdConfirm _ _
  · exact execUpdAbort _ _
  · exact execUpdStatus _ _
  · exact execUpdNodeActivate _ _ _ _ _
  · exact execUpdNodeStatus _ _ _ _ _
  · exact execLogRead _ _ _ _ _ _ _
  · exact execLogClear _ _
  · exact execLogStatus _ _
  · exact execLogRateSet _ _ _ _
  · exact execMemRead _ _ _ _ _ _ _
  · exact execMemWrite _ _ _ _ _ _ _
  · exact execTestSelftest _ _ _ _ _ _
  · exact execTestReturn _ _ _ _ _
  · exact execTestRetire _ _ _ _
  · exact execTestReserves _ _
  · exact execTestRestart _ _ _
  · exact execTestWearSet _ _ _ _
  · exact execRegisterWrite _ _ _ _ _
  · exact execRcCounterRead _ _ _ _ _
  · exact execJncHcnLoRead _ _ _
  · exact execDbSetWrite _ _ _ _ _ _
  · exact execEvtinPortPush _ _ _ _ _ _
  · exact execEventLineEntry _ _ _ _ _ _
  · exact execEventRecordWrite _ _
  · exact execTokenRefill _ _ _
  · exact execLogClearEraseDone _ _
  · exact execVoterDisagree _ _ _ _ _
  · exact execRegionRestart _ _ _
  · exact execRegionResume _ _ _
  · exact execChipFault _ _
  · exact execZeroCrossing _ _ _ _
  · exact execSetBCrossing _ _ _ _
  · exact execHcnEdge _ _ _ _
  · exact execVirtualEdge _ _
  · exact execLockStepTimeout _ _
  · exact execBlockClose _ _ _
  · exact execFrameBurstStart _ _ _
  · exact execUplinkBurstDecoded _ _ _ _ _ _ _ _ _
  · exact execPresRise _ _ _ _ _
  · exact execPresFall _ _ _
  · exact execDaylight _ _ _ _ _ _
  · exact execStatusReport _ _ _ _ _
  · exact execAck _ _ _ _ _
  · exact execImgStatus _ _ _ _ _ _
  · exact execJoinReq _ _ _ _ _ _
  · exact execQuarantineEnd _ _ _
  · exact execPresTimeout _ _ _
  · exact execDaylightTimeout _ _ _
  · exact execLinkInactive50 _ _ _
  · exact execNodeKeyResend _ _ _
  · exact execBackgroundResend _ _ _ _
  · exact execEchoFailure _ _ _
  · exact execStageLoadCheck _ _ _ _ _ _
  · exact execSpareStageCheck _ _
  · exact execExtFaultClear _ _ _
  · exact execSillagePass _ _
  · exact execPassCommit _ _ _ _ _ _
  · exact execSillageAutoRestart _ _
  · exact execFinalConversion _ _
  · exact execDstStepIssue _ _
  · exact execMeterRecordComplete _ _ _ _ _
  · exact execPulseStart _ _ _
  · exact execPulseEnd _ _ _
  · exact execMeterSnapshotComplete _ _
  · exact execPeriodicSave _ _
  · exact execConverterFailure _ _ _
  · exact execSpareDwellEnd _ _ _ _
  · exact execCalibrationDue _ _ _
  · exact execCalibrationStep _ _ _ _ _
  · exact execLevelSnapshotCopy _ _
  · exact execAccordAttribution _ _ _
  · exact execWindowCorrelate _ _ _
  · exact execProbeAckTimeout _ _ _
  · exact execRequestRetry _ _ _
  · exact execRequestDeadline _ _ _
  · exact execAutoSweepDue _ _ _
  · exact execModelTableStore _ _
  · exact execScanSyncEvent _ _
  · exact execSignSyncEdge _ _
  · exact execSignSyncLost _ _
  · exact execRowSlotStart _ _
  · exact execLedMeasure _ _ _ _
  · exact execSwapBoundary _ _
  · exact execBackCopyDone _ _
  · exact execCellFailure _ _ _
  · exact execSinkCellTest _ _ _ _
  · exact execSbusSyncSend _ _
  · exact execSbusTransaction _ _ _
  · exact execSbusResponse _ _ _ _
  · exact execSbusResponseTimeout _ _ _
  · exact execSbusEchoMismatch _ _ _
  · exact execSessionConfirmTimeout _ _ _
  · exact execSessionIdleTimeout _ _ _
  · exact execUsbBusReset _ _
  · exact execNotificationRelease _ _ _
  · exact execEthFrameRx _ _ _ _
  · exact execArpRequest _ _ _ _
  · exact execIcmpEchoRequest _ _ _
  · exact execPrpSupervisionTx _ _
  · exact execPtpSyncRx _ _ _ _ _ _ _ _ _ _
  · exact execPtpFollowUpRx _ _ _ _ _ _ _
  · exact execPtpAnnounceRx _ _ _ _ _ _ _ _ _
  · exact execPtpDelayRespRx _ _ _ _ _ _ _ _
  · exact execPtpPdelayReqRx _ _ _ _ _ _ _
  · exact execPtpPdelayRespRx _ _ _ _ _ _
  · exact execPtpDelayReqTx _ _ _ _ _ _
  · exact execPtpSourceLost _ _ _
  · exact execPtpSourceReturn _ _ _
  · exact execPtpAdjWrite _ _ _ _
  · exact execPtpIncrWrite _ _ _ _
  · exact execPtpTimeNsRead _ _ _
  · exact execRtcHourlyCheck _ _
  · exact execEthLinkDown _ _ _
  · exact execEthLinkUp _ _ _ _
  · exact execRtcBlockRead _ _ _ _
  · exact execRtcYearRead _ _ _
  · exact execRtcFreezeTimeout _ _
  · exact execRtcFieldWrite _ _ _ _ _
  · exact execRtcSecsWrite _ _ _ _
  · exact execRtcSetApply _ _
  · exact execStepFwd _ _ _ _
  · exact execStepBack _ _ _ _
  · exact execRtcStepApply _ _
  · exact execRtcCalendarWrap _ _
  · exact execBackupSwitchVbat _ _
  · exact execBackupSwitchRail _ _
  · exact execRtcValidLoss _ _
  · exact execTamperAssert _ _ _
  · exact execTlogAck _ _ _ _
  · exact execTwinExpiry _ _ _
  · exact execStagingEraseDone _ _
  · exact execPayloadVerifyDone _ _ _
  · exact execReconstructionDone _ _ _
  · exact execSwitchRunTimeout _ _
  · exact execTrialMinute _ _
  · exact execNodeImageRoundEnd _ _ _
  · exact execScrubVisit _ _ _ _
  · exact execMramScrubPass _ _ _ _
  · exact execDmaStart _ _ _ _
  · exact execDmaAbort _ _ _ _
  · exact execDmaRequest _ _ _ _
  · exact execDmaBurstDone _ _ _ _ _ _ _
  · exact execDmaPeriphReset _ _ _ _ _
  · exact execDmaDescEnd _ _ _ _
  · exact execAgeMinute _ _
  · exact execSupplyFail _ _
  · exact execFinalSaveComplete _ _
  · exact execRtcifIsolate _ _
  · exact execSupplyCycleReset _ _
  · exact execRstNLow _ _ _
  · exact execResetRelease _ _ _ _ _ _
  · exact execBootRomDone _ _ _ _ _
  · exact execMImageLoaded _ _
  · exact execKeyStoreReady _ _
  · exact execCdImagesLoaded _ _ _
  · exact execRestoreStep _ _
  · exact execLifecycleWipeDone _ _
  · exact execUnlistedCmdRequest _ _ _
  · exact execUplinkMinislotEnd _ _ _ _ _ _
  · exact execTamperRearm _ _ _
  · exact execVinReturn _ _
  · exact execHoldupEnd _ _
  · exact execCalibrateStartTimeout _ _
  · exact execPeriodicSaveDone _ _

end Keeps
end Sys2Proof.Machine
end

