-- ==== Sys2Proof/Proofs/Invariants.lean ====
section
/-!
PROOFS. The queue (98, log entry 1) and the invariants of every step: memory's form (log entry 50), the depth of intake's queues (16, "Intake")
and the range of the calendar (13 R410, R411, R416).
-/
namespace Sys2Proof.Machine

theorem step_front (c : Instr) (s : State) : step (s.front c) = exec c s := rfl

theorem step_of_empty {s : State} (h : s.pending = []) : step s = .next s := by
  unfold step
  rw [h]

/-- A step leaves memory, intake and calendar as its command does. -/
theorem step_keeps {s t : State} (h : step s = .next t) : (s.mem.wf = true → t.mem.wf = true) ∧ (s.ev.bounded = true → t.ev.bounded = true) ∧
    (s.bk.inRange = true → t.bk.inRange = true) := by
  unfold step at h
  split at h
  · cases h
    exact ⟨id, id, id⟩
  · next c rest _ =>
    obtain ⟨u, hu, -, hkept⟩ := Keeps.exec c { s with pending := rest }
    cases hu.symm.trans h
    exact hkept

/-- Settles O1: each clause is a step lemma. -/
theorem stepsRunTheQueueInOrder : Obligations.StepsRunTheQueueInOrder := by
  unfold Obligations.StepsRunTheQueueInOrder
  exact ⟨step_front, fun s nbits w => ⟨step_of_empty, rfl, rfl⟩⟩

/-- Settles O2: `Keeps` of every command names its next state and the queue. -/
theorem everyCommandAnswersAndLeavesTheQueue : Obligations.EveryCommandAnswersAndLeavesTheQueue := by
  unfold Obligations.EveryCommandAnswersAndLeavesTheQueue
  intro c s
  obtain ⟨t, hexec, hpending, -⟩ := Keeps.exec c s
  exact ⟨t, hexec, hpending⟩

/-- Settles O3: every operation that writes memory writes it through `Mem.set` or drops entries of it. -/
theorem memoryStaysCanonical : Obligations.MemoryStaysCanonical := by
  unfold Obligations.MemoryStaysCanonical
  intro s t hwf h
  obtain ⟨hmem, -, -⟩ := step_keeps h
  exact hmem hwf

/-- Settles O4: an entry is pushed, replaced or taken, and a summary enters a queue only while it has room. -/
theorem intakeQueuesStayWithinTheirDepth : Obligations.IntakeQueuesStayWithinTheirDepth := by
  unfold Obligations.IntakeQueuesStayWithinTheirDepth
  intro s t hbounded h
  obtain ⟨-, hev, -⟩ := step_keeps h
  exact hev hbounded

/-- Settles O5: time stops at the boundaries that belong to a step and to the wrap, and sets and steps are validated before they wait. -/
theorem calendarStaysInRange : Obligations.CalendarStaysInRange := by
  unfold Obligations.CalendarStaysInRange
  intro s t hrange h
  obtain ⟨-, -, hbk⟩ := step_keeps h
  exact hbk hrange

end Sys2Proof.Machine
end

