-- ==== Sys2Proof/Proofs/SequenceWindow.lean ====
section
/-!
PROOFS. The window of request SEQs (10 R342): a number that has been taken is never new again.
-/
namespace Sys2Proof.Machine
open Sys2Proof

theorem setBit_true_eq_or {n : Nat} (w : BitVec n) (k : Nat) : setBit w k true = w ||| BitVec.twoPow n k := by
  have hf : fld w k 1 = (bit w k).toNat := by
    rw [bit, Nat.toNat_testBit, fld, Nat.shiftRight_eq_div_pow, Nat.pow_one]
  have htwo : BitVec.ofNat n (2 ^ k) = BitVec.twoPow n k := by
    apply BitVec.eq_of_toNat_eq; rw [BitVec.toNat_ofNat, BitVec.toNat_twoPow]
  have hget (i : Nat) : (BitVec.twoPow n k).getLsbD i = (decide (k < n) && decide (k = i)) := BitVec.getLsbD_twoPow k i
  unfold setBit setFld
  rw [hf]
  cases hb : bit w k with
  | false =>
    have hz : w &&& BitVec.twoPow n k = 0#n := by
      ext i hi
      have hk : i = k → w[i] = false := by rintro rfl; simpa [bit_eq_getLsbD, hi] using hb
      simpa using fun h e => by simp [hk e] at h
    simp [Nat.shiftLeft_eq, BitVec.ofNat_add, htwo, BitVec.add_eq_or_of_and_eq_zero _ _ hz]
  | true =>
    have hle : 2 ^ k ≤ w.toNat := Nat.ge_two_pow_of_testBit hb
    have hor : w ||| BitVec.twoPow n k = w := by
      ext i hi
      have hk : i = k → w[i] = true := by rintro rfl; simpa [bit_eq_getLsbD, hi] using hb
      simpa using hk
    rw [hor]
    simp [Nat.shiftLeft_eq, Nat.sub_add_cancel hle]

theorem bit_setBit_of_bit {n : Nat} {w : BitVec n} {i : Nat} (k : Nat) (h : bit w i = true) : bit (setBit w k true) i = true := by
  rw [setBit_true_eq_or, bit_or, h, Bool.true_or]

theorem bit_setBit_same {n : Nat} (w : BitVec n) {k : Nat} (h : k < n) : bit (setBit w k true) k = true := by
  rw [setBit_true_eq_or, bit_or, bit_eq_getLsbD (BitVec.twoPow n k), BitVec.getLsbD_twoPow]
  simp [h]

/-- The SEQ `q` is behind the window's top, and out of the window or marked in it (10 R342). -/
def Session.Took (x : Session) (q : Nat) : Prop :=
  q ≤ x.hi ∧ (q + 64 ≤ x.hi ∨ bit x.seen (x.hi - q) = true)

theorem Session.Took.not_fresh {x : Session} {q : Nat} (h : x.Took q) : x.seqVerdict q ≠ .fresh := by
  obtain ⟨hle, hwin⟩ := h
  have hno : (0 < q && decide (x.hi < q + 64) && !bit x.seen (x.hi - q)) = false := by
    rcases hwin with hw | hw
    · simp [show ¬ x.hi < q + 64 by omega]
    · simp [hw]
  unfold Session.seqVerdict
  rw [if_neg (by omega), hno]
  simp only [Bool.false_eq_true, if_false]
  split <;> simp

theorem Session.lt_of_fresh {x : Session} {q : Nat} (h : x.seqVerdict q = .fresh) : x.hi < q ∨ (0 < q ∧ x.hi < q + 64) := by
  unfold Session.seqVerdict at h
  split at h
  · exact .inl ‹_›
  · split at h
    next hin => simp only [Bool.and_eq_true, decide_eq_true_eq] at hin; exact .inr hin.1
    next => split at h <;> cases h

theorem Session.accept_of_lt {x : Session} {q : Nat} (h : x.hi < q) :
    x.accept q = { x with hi := q, seen := BitVec.ofNat 64 ((if q - x.hi < 64 then x.seen.toNat <<< (q - x.hi) else 0) + 1) } := if_pos h

theorem Session.accept_of_le {x : Session} {q : Nat} (h : q ≤ x.hi) :
    x.accept q = { x with seen := setBit x.seen (x.hi - q) true } := if_neg (by omega)

/-- The window moved up by `d` keeps the marks that stay in it. -/
theorem bit_shifted (w : BitVec 64) {d k : Nat} (hd : 0 < d) (hk : d + k < 64) (h : bit w k = true) :
    bit (BitVec.ofNat 64 ((if d < 64 then w.toNat <<< d else 0) + 1)) (d + k) = true := by
  have hb : w.toNat.testBit k = true := h
  obtain ⟨e, rfl⟩ : ∃ e, d = e + 1 := ⟨d - 1, by omega⟩
  have hhalf : (w.toNat <<< (e + 1) + 1) / 2 = w.toNat <<< e := by rw [Nat.shiftLeft_succ]; omega
  rw [bit, BitVec.toNat_ofNat, Nat.testBit_mod_two_pow, if_pos (by omega), decide_eq_true hk, Bool.true_and,
    show e + 1 + k = e + k + 1 by omega, Nat.testBit_succ, hhalf, Nat.testBit_shiftLeft]
  simp [hb]

/-- The window moved up marks its new top. -/
theorem bit_zero_shifted (w : BitVec 64) {d : Nat} (hd : 0 < d) :
    bit (BitVec.ofNat 64 ((if d < 64 then w.toNat <<< d else 0) + 1)) 0 = true := by
  obtain ⟨e, rfl⟩ : ∃ e, d = e + 1 := ⟨d - 1, by omega⟩
  rw [bit, BitVec.toNat_ofNat, Nat.testBit_mod_two_pow, Nat.testBit_zero, Nat.shiftLeft_succ]
  split <;> simp

theorem Session.took_accept_self {x : Session} {q : Nat} (h : x.seqVerdict q = .fresh) : (x.accept q).Took q := by
  by_cases hlt : x.hi < q
  · rw [Session.accept_of_lt hlt]
    refine ⟨Nat.le_refl q, .inr ?_⟩
    rw [Nat.sub_self]
    exact bit_zero_shifted x.seen (by omega)
  · rw [Session.accept_of_le (by omega)]
    exact ⟨by simp; omega, .inr (bit_setBit_same _ (by have := Session.lt_of_fresh h; omega))⟩

theorem Session.Took.accept {x : Session} {p : Nat} (h : x.Took p) (q : Nat) : (x.accept q).Took p := by
  obtain ⟨hle, hwin⟩ := h
  by_cases hlt : x.hi < q
  · rw [Session.accept_of_lt hlt]
    refine ⟨by simp; omega, ?_⟩
    by_cases hout : p + 64 ≤ q
    · exact .inl hout
    · have hb := hwin.resolve_left (by omega)
      refine .inr ?_
      have := bit_shifted x.seen (d := q - x.hi) (k := x.hi - p) (by omega) (by omega) hb
      rwa [show q - x.hi + (x.hi - p) = q - p by omega] at this
  · rw [Session.accept_of_le (by omega)]
    exact ⟨hle, hwin.imp_right (bit_setBit_of_bit _)⟩

theorem Session.Took.meet {x : Session} {p : Nat} (h : x.Took p) (q : Nat) : (x.meet q).Took p := by
  unfold Session.meet
  split
  · exact h.accept q
  · exact h

theorem Session.Took.foldl_meet {p : Nat} (l : List Nat) : ∀ {x : Session}, x.Took p → (l.foldl Session.meet x).Took p := by
  induction l with
  | nil => exact fun h => h
  | cons q l ih => exact fun h => ih (h.meet q)

/-- Settles O9: the SEQ stays out of the window or marked in it whatever the session meets. -/
theorem takenSequenceNumberIsNeverNewAgain : Obligations.TakenSequenceNumberIsNeverNewAgain := fun _ _ l h =>
  ((Session.took_accept_self h).foldl_meet l).not_fresh

end Sys2Proof.Machine
end

