-- ==== Sys2Proof/Proofs/Transport.lean ====
section
/-!
PROOFS. The transport's rules around a command (10 R335-R348): what is dropped, what is answered again, and the order of the refusals.
-/
namespace Sys2Proof.Machine
open Sys2Proof

/-- Settles O6: the reset state and its registers are evaluated. -/
theorem resetMeetsTheInvariants : Obligations.ResetMeetsTheInvariants :=
  ⟨⟨by decide, by decide, by decide, rfl⟩, by decide, by decide, by decide⟩

/-! ## The gate, rule by rule -/

/-- What the gate drops is all that a request does. -/
theorem hostRow_drop {c : Instr} {k : CmdSpec} {r : Req} {s u : State} (h : hostRow c = some (r, k)) (hp : s.pow.phase ≠ .bootStuck)
    (hg : (s.tick r.dt).gate r false = .drop u) : exec c s = .next u := by
  obtain ⟨body, he⟩ := hostRow_exec h hp
  simp only [he, hostCmd, hg]

theorem heardAt_session (s : State) (r : Req) (i : Nat) : (s.heardAt r).session i = s.session i := by
  unfold State.session; rw [(heardAt_came s r).vxc]; rfl

theorem gate_deaf {s : State} {r : Req} (h : s.deaf r = true) : s.gate r false = .drop s := by
  simp [State.gate, h]

theorem gate_notUp {s : State} {r : Req} (hd : s.deaf r = false) (ha : (s.arrived r).1 = false) : s.gate r false = .drop (s.arrived r).2 := by
  simp [State.gate, hd, ha]

theorem gate_malformed {s : State} {r : Req} {n : Nat} (hd : s.deaf r = false) (ha : (s.arrived r).1 = true) (hm : malformed r = some n) :
    s.gate r false = .drop ((s.arrived r).2.discarded (fun d => d.upForm n)) := by
  simp [State.gate, hd, ha, hm]

/-- What the gate makes of a whole message that names no session. -/
theorem gate_noSes {s : State} {r : Req} (h : Heard s r) (hs : r.ses = 0) :
    (s.tick r.dt).gate r false = if r.usb && noTag r then .unauth (s.heardAt r)
      else .drop ((s.heardAt r).discarded (fun d => { d with session := up32 d.session })) := by
  obtain ⟨hd, ha, hm⟩ := h
  simp [State.gate, hd, ha, hm, hs, State.heardAt]

theorem gate_unknownSes {s : State} {r : Req} (h : Heard s r) (hs : r.ses ≠ 0) (hx : s.session r.ses = none) :
    (s.tick r.dt).gate r false = .drop ((s.heardAt r).discarded (fun d => { d with session := up32 d.session })) := by
  obtain ⟨hd, ha, hm⟩ := h
  have hx' := heardAt_session s r r.ses
  simp only [State.heardAt, hx] at hx'
  simp [State.gate, hd, ha, hm, hs, State.heardAt, hx']

/-- The gate's rules on the session `x` that a whole message names (10 R340-R342). -/
def State.sesGate (t : State) (r : Req) (x : Session) : Gate :=
  if x.halfOpen then .drop (t.discarded (fun d => { d with session := up32 d.session }))
  else if x.usb != r.usb || (!r.usb && r.ip != x.ip) then .drop (t.discarded (fun d => { d with source := up32 d.source }))
  else if !x.tagOk r || noTag r then .drop ((t.discarded (fun d => { d with tag := up32 d.tag })).tagFail x)
  else
    let t := t.onSession x.id (fun y => y.heard r t.now)
    match x.seqVerdict r.seq with
    | .stale => .drop (t.discarded (fun d => { d with sequence := up32 d.sequence }))
    | .again a => .again t x a
    | .fresh => .accept (t.onSession x.id (fun y => (y.accept r.seq))) x

theorem gate_ses {s : State} {r : Req} {x : Session} (h : Heard s r) (hs : r.ses ≠ 0) (hx : s.session r.ses = some x) :
    (s.tick r.dt).gate r false = (s.heardAt r).sesGate r x := by
  obtain ⟨hd, ha, hm⟩ := h
  have hx' := heardAt_session s r r.ses
  simp only [State.heardAt, hx] at hx'
  simp only [State.gate, State.sesGate, hd, ha, hm, hs, State.heardAt, hx', Bool.not_false, Bool.and_true, Bool.false_eq_true, if_false,
    Bool.not_true] <;> rfl

theorem sesGate_source {t : State} {r : Req} {x : Session} (ho : x.halfOpen = false) (hs : x.usb ≠ r.usb ∨ (r.usb = false ∧ r.ip ≠ x.ip)) :
    t.sesGate r x = .drop (t.discarded (fun d => { d with source := up32 d.source })) := by
  have h : (x.usb != r.usb || (!r.usb && r.ip != x.ip)) = true := by simpa using hs
  simp [State.sesGate, ho, h]

/-- From here the message comes from the session's source. -/
theorem sesGate_fromSource {t : State} {r : Req} {x : Session} (ho : x.halfOpen = false) (hu : x.usb = r.usb) (hi : r.usb = true ∨ r.ip = x.ip) :
    t.sesGate r x = if !x.tagOk r || noTag r then .drop ((t.discarded (fun d => { d with tag := up32 d.tag })).tagFail x)
      else match x.seqVerdict r.seq with
      | .stale => .drop ((t.onSession x.id (fun y => y.heard r t.now)).discarded (fun d => { d with sequence := up32 d.sequence }))
      | .again a => .again (t.onSession x.id (fun y => y.heard r t.now)) x a
      | .fresh => .accept ((t.onSession x.id (fun y => y.heard r t.now)).onSession x.id (fun y => (y.accept r.seq))) x := by
  have h : (x.usb != r.usb || (!r.usb && r.ip != x.ip)) = false := by
    rcases hi with hi | hi <;> simp [hu, hi]
  simp only [State.sesGate, ho, h, Bool.false_eq_true, if_false] <;> rfl

/-- Settles O7: the gate drops each of these, rule by rule. -/
theorem unansweredTrafficIsDropped : Obligations.UnansweredTrafficIsDropped := by
  intro c k r s hc t
  refine ⟨fun hd hp => hostRow_drop hc hp (gate_deaf hd), fun hd ha => hostRow_drop hc (heard_not_bootStuck hd) (gate_notUp hd ha),
    fun n hd ha hm => hostRow_drop hc (heard_not_bootStuck hd) (gate_malformed hd ha hm), fun hh hs hn => ?_, fun hh hs hx => ?_,
    fun x hh hs hx => ?_⟩
  · refine hostRow_drop hc (heard_not_bootStuck hh.1) ?_
    rw [gate_noSes hh hs, if_neg (by rcases hn with hn | hn <;> simp [hn])]
  · exact hostRow_drop hc (heard_not_bootStuck hh.1) (gate_unknownSes hh hs hx)
  · have drop {u : State} (hg : (s.heardAt r).sesGate r x = .drop u) : exec c s = .next u :=
      hostRow_drop hc (heard_not_bootStuck hh.1) ((gate_ses hh hs hx).trans hg)
    refine ⟨fun ho => drop ?_, fun ho hsrc => drop (sesGate_source ho hsrc), fun ho hu hi ht => drop ?_, fun ho hu hi ht hn hq => drop ?_⟩
    · rw [State.sesGate, if_pos ho]
    · rw [sesGate_fromSource ho hu hi, if_pos (by rcases ht with ht | ht <;> simp [ht])]
    · rw [sesGate_fromSource ho hu hi, if_neg (by simp [ht, hn]), hq]

/-- Settles O8: the gate finds the stored response of a SEQ that is not new. -/
theorem storedResponseGoesOutAgain : Obligations.StoredResponseGoesOutAgain := by
  intro c k r s x a hc hh hs hx ho hu hi ht hn hq
  have hg : (s.tick r.dt).gate r false = .again ((s.heardAt r).onSession x.id (fun y => y.heard r (s.heardAt r).now)) x a := by
    rw [gate_ses hh hs hx, sesGate_fromSource ho hu hi, if_neg (by simp [ht, hn]), hq]
  obtain ⟨body, he⟩ := hostRow_exec hc (heard_not_bootStuck hh.1)
  simp only [he, hostCmd, hg]

/-- The unauthenticated subset (10 R348). -/
theorem hostRow_open {c : Instr} {k : CmdSpec} {r : Req} (h : hostRow c = some (r, k)) (ho : k.openRead = true) :
    (c = .sysIdentify r ∧ k = ⟨0x0101, .read, true⟩) ∨ (c = .sysStatus r ∧ k = ⟨0x0102, .read, true⟩) ∨
    (c = .timeTbStatus r ∧ k = ⟨0x0201, .read, true⟩) ∨ (c = .testReserves r ∧ k = ⟨0x0F04, .read, true⟩) := by
  cases c <;> simp only [hostRow, Option.some.injEq, Prod.mk.injEq, reduceCtorEq] at h <;> obtain ⟨rfl, rfl⟩ := h <;> simp at ho ⊢

/-- Settles O11: the four open reads answer OK with the state as it stands. -/
theorem unauthenticatedSubset : Obligations.UnauthenticatedSubset := by
  intro c k r s hc hh hs hu hn t answer
  have hg : (s.tick r.dt).gate r false = .unauth t := by
    rw [gate_noSes hh hs, if_pos (by simp [hu, hn])]
    simp [State.heardAt, State.arrived, hu, t]
  have hp := heard_not_bootStuck hh.1
  have hans (st : Status) (pay : Payload) : t.say true (openResp r k.cmd st pay) = answer st pay := by simp [answer, openResp, hu]
  refine ⟨fun ho => ?_, fun ho hl => ?_, fun ho hl => ?_⟩
  · obtain ⟨body, he⟩ := hostRow_exec hc hp
    simp [he, hostCmd, hg, ho, hans]
  · obtain ⟨body, he⟩ := hostRow_exec hc hp
    simp [he, hostCmd, hg, ho, hl, hans]
  · have ok {body : Who → State → Ans} {pay : Payload} (hb : body ⟨0, r.seq⟩ t = .ok pay t) :
        ∃ pay, hostCmd k r body s = .next (answer .ok pay) := ⟨pay, by simp [hostCmd, hg, ho, hl, hans, hb, State.settle]⟩
    obtain ⟨rfl, rfl⟩ | ⟨rfl, rfl⟩ | ⟨rfl, rfl⟩ | ⟨rfl, rfl⟩ := hostRow_open hc ho
    · simp only [exec, execSysIdentify, if_neg hp]
      exact ok rfl
    · simp only [exec, execSysStatus]
      exact ok rfl
    · simp only [exec, execTimeTbStatus]
      exact ok rfl
    · simp only [exec, execTestReserves]
      exact ok rfl

/-! ## One answer -/

theorem session_id {s : State} {i : Nat} {x : Session} (h : s.session i = some x) : x.id = i := by
  simpa using List.find?_some h

theorem session_onSession {s : State} {i : Nat} {x : Session} {g : Session → Session} (h : s.session i = some x) (hg : ∀ y, (g y).id = y.id) :
    (s.onSession i g).session i = some (g x) := by
  have hc : ((fun y : Session => y.id == i) ∘ fun y => if y.id == i then g y else y) = fun y => y.id == i := by
    funext y; simp only [Function.comp]; split <;> simp [*]
  unfold State.session at h ⊢
  simp only [State.onSession, List.find?_map, hc, h, Option.map_some, session_id h, beq_self_eq_true, if_true]

/-- A session that stands after one ended stood before. -/
theorem session_of_endSession {s : State} {i j : Nat} {why : EndCause} {z : Session} (h : (s.endSession i why).session j = some z) :
    s.session j = some z := by
  unfold State.endSession at h
  split at h
  · exact h
  · have hf : (s.vxc.sessions.filter (fun y => y.id != i)).find? (fun y => y.id == j) = some z := by
      split at h
      · exact h
      · simpa only [State.session, State.raiseGen, State.raiseFw, raise_vxc] using h
    rw [List.find?_filter] at hf
    by_cases hij : j = i
    · subst hij
      have hz := List.find?_some hf
      simp at hz
    · refine Eq.trans ?_ hf
      unfold State.session
      congr 1; funext y
      by_cases hy : y.id = j <;> simp [hy, hij]

theorem endSession_out (s : State) (i : Nat) (why : EndCause) : (s.endSession i why).out = s.out := by
  unfold State.endSession
  split
  · rfl
  · simp only; split
    · rfl
    · exact raise_out ..

theorem seqLimit_out (s : State) (r : Req) : (s.seqLimit r).out = s.out := by
  unfold State.seqLimit; split
  · exact endSession_out ..
  · rfl

theorem session_of_seqLimit {s : State} {r : Req} {j : Nat} {z : Session} (h : (s.seqLimit r).session j = some z) : s.session j = some z := by
  unfold State.seqLimit at h; split at h
  · exact session_of_endSession h
  · exact h

theorem say_out (s : State) (usb : Bool) (o : Out) : (s.say usb o).out =
    s.out ++ (if usb then [.usb 0x82 (usbPackets o.vxcLen)] else ([0, 1].filter s.linkUp).map (fun p => s.frameOut p .datagram)) ++ [o] := by
  unfold State.say
  cases usb with
  | true => rfl
  | false =>
    simp only [Bool.false_eq_true, if_false, State.sendFrame]
    split
    next hup => rw [List.isEmpty_iff.mp hup]; simp [State.emit]
    next => rfl

theorem say_vxc (s : State) (usb : Bool) (o : Out) : (s.say usb o).vxc = s.vxc := by
  unfold State.say State.sendFrame
  split
  · rfl
  · simp only; split <;> rfl

/-- What a session keeps of an answer: the response, stored for a retransmission, and one request outstanding less (10 R342, R343). -/
def Session.keep (x : Session) (a : Resp) : Session :=
  { x with answered := (a :: x.answered).take 16, outst := x.outst.filter (fun o => o.1 != a.seq) }

/-- An answer before a session's end: the session `y` has kept it and counts one module SEQ more, and the message is out (10 R342, R344). -/
def State.toldOn (t : State) (y : Session) (a : Resp) : State :=
  ((t.onSession y.id (fun z => z.keep a)).onSession y.id (fun z => { z with modSeq := y.modSeq + 1 })).say y.usb
    ((y.keep a).respOut (y.portOf a.seq) (y.modSeq + 1) false a)

theorem respond_of_session {t : State} {i : Nat} {y : Session} {a : Resp} (h : t.session i = some y) :
    t.respond i a = if 0xFFFFFFFF ≤ y.modSeq + 1 then (t.toldOn y a).endSession i .seqEnd else t.toldOn y a := by
  have hk : (t.onSession i (fun z => z.keep a)).session i = some (y.keep a) := session_onSession h (fun _ => rfl)
  have hi := session_id h
  subst hi
  unfold State.respond
  simp only [h, Option.map_some, Option.getD_some]
  change (State.sendOn (t.onSession y.id (fun z => z.keep a)) _ _) = _
  unfold State.sendOn
  rw [hk]
  rfl

theorem toldOn_session {t : State} {i : Nat} {y z : Session} {a : Resp} (h : t.session i = some y) (hz : (t.toldOn y a).session i = some z) :
    z.modSeq = y.modSeq + 1 ∧ z.answered = (a :: y.answered).take 16 := by
  have hi := session_id h
  subst hi
  unfold State.toldOn State.session at hz
  rw [say_vxc] at hz
  have hs := session_onSession (g := fun z => { z with modSeq := y.modSeq + 1 })
    (session_onSession (g := fun z => z.keep a) h (fun _ => rfl)) (fun _ => rfl)
  obtain rfl := Option.some.inj (hz.symm.trans hs)
  exact ⟨rfl, rfl⟩

/-- Settles O12: one message, kept in the session, before whatever ends it. -/
theorem answerIsOneResponse : Obligations.AnswerIsOneResponse := by
  intro t r x y cmd st pay hy u o
  have hu : u = ((t.respond x.id ⟨r.seq, cmd, st, pay⟩).seqLimit r) := rfl
  have hi := session_id hy
  refine ⟨?_, fun z hz => ?_, answered_said ..⟩
  · have hout : (t.respond x.id ⟨r.seq, cmd, st, pay⟩).out = (t.toldOn y ⟨r.seq, cmd, st, pay⟩).out := by
      rw [respond_of_session hy]; split
      · exact endSession_out ..
      · rfl
    rw [hu, seqLimit_out, hout, State.toldOn, say_out]
    rfl
  · refine toldOn_session hy ?_ (a := ⟨r.seq, cmd, st, pay⟩)
    have hr := session_of_seqLimit hz
    rw [respond_of_session hy] at hr
    split at hr
    · exact session_of_endSession hr
    · exact hr

end Sys2Proof.Machine
end

