-- ==== Sys2Proof/Proofs/CheckOrder.lean ====
section
/-!
PROOFS. The order of the checks around a command's own rules (11 R352): what each command's own rules can refuse.
-/
namespace Sys2Proof.Machine
open Sys2Proof

/-- The refusals of a command's own rules: a refusal carries a code of refusal, and one that arises as INTERFACE gives a DETAIL and changes
nothing but what was drawn (11 R352). -/
def Ans.Declines (t : State) : Ans → Prop
  | .no st _ => st ≠ .ok ∧ st ≠ .deferred
  | .ended .interface p u => (∃ d, p = [(d, 4)]) ∧ { u with fresh := t.fresh } = t
  | _ => True

/-- Every check of the list refuses with a code of refusal. -/
def Refusals (cs : List (Bool × Status)) : Prop := ∀ c ∈ cs, c.2 ≠ .ok ∧ c.2 ≠ .deferred

@[simp] theorem refusals_nil : Refusals [] := fun _ h => nomatch h
@[simp] theorem refusals_cons {b : Bool} {st : Status} {cs : List (Bool × Status)} :
    Refusals ((b, st) :: cs) ↔ (st ≠ .ok ∧ st ≠ .deferred) ∧ Refusals cs := List.forall_mem_cons
@[simp] theorem refusals_append {cs ds : List (Bool × Status)} : Refusals (cs ++ ds) ↔ Refusals cs ∧ Refusals ds := List.forall_mem_append
@[simp] theorem refusals_lateTgt {s : State} {t lead : Nat} : Refusals (s.lateTgt t lead) := by simp [State.lateTgt]
@[simp] theorem refusals_keyWriteChecks {s : State} {exist : Bool} : Refusals (s.keyWriteChecks exist) := by simp [State.keyWriteChecks]
@[simp] theorem refusals_needH {s : State} {cs : List (Bool × Status)} : Refusals (s.needH :: cs) ↔ Refusals cs := by simp [State.needH]

namespace Ans.Declines

theorem checked {t : State} {cs : List (Bool × Status)} {k : Ans} (hc : Refusals cs) (hk : k.Declines t) : (Machine.checked cs k).Declines t := by
  unfold Machine.checked
  split
  next c h => exact hc c (List.mem_of_find?_eq_some h)
  next => exact hk

theorem ite {t : State} {p : Prop} [Decidable p] {a b : Ans} (ha : a.Declines t) (hb : b.Declines t) : (if p then a else b).Declines t := by
  split
  · exact ha
  · exact hb

theorem paged {t u : State} {total first count size : Nat} {pre : Payload} {item : Nat → Payload} :
    (Machine.paged total first count size pre item u).Declines t := checked (by simp) trivial

theorem ended {t u : State} {st : Status} {p : Payload} (h : st ≠ .interface) : (Ans.ended st p u).Declines t := by
  cases st
  case interface => exact absurd rfl h
  all_goals trivial

end Ans.Declines

/-- An access that stops ends as a bus error or for a lost peripheral (11 R379). -/
theorem memReads_status {s : State} {len width a n : Nat} {found : List (Nat × Damage)} {lostAt : Option Nat} {e : Status × Nat}
    (h : (s.memReads len width found lostAt a n).1 = some e) : e.1 ≠ .interface := by
  induction n generalizing s a with
  | zero => cases h
  | succ n ih =>
    unfold State.memReads at h
    split at h
    · obtain rfl := Option.some.inj h; simp
    · split at h
      · obtain rfl := Option.some.inj h; simp
      · exact ih h

theorem memWrites_status {s : State} {len width a n : Nat} {data : List Nat} {found : List (Nat × Damage)} {lostAt : Option Nat}
    {e : Status × Nat} (h : (s.memWrites len width data found lostAt a n).1 = some e) : e.1 ≠ .interface := by
  induction n generalizing s a data with
  | zero => cases h
  | succ n ih =>
    unfold State.memWrites at h
    split at h
    · obtain rfl := Option.some.inj h; simp
    · split at h
      · obtain rfl := Option.some.inj h; simp
      · exact ih h

theorem failedIf_drawn (s : State) (run left : List Comp) : { (s.failedIf run left).2 with fresh := s.fresh } = s := by
  unfold State.failedIf; split <;> rfl

/-- A command that the transport hands its own rules, whose refusals are refusals. -/
def Polite (k : CmdSpec) (r : Req) (s : State) (res : Res) : Prop := ∃ body, res = hostCmd k r body s ∧ ∀ w t, (body w t).Declines t

namespace Polite

theorem of {k : CmdSpec} {r : Req} {s : State} {body : Who → State → Ans} (h : ∀ w t, (body w t).Declines t) :
    Polite k r s (hostCmd k r body s) := ⟨body, rfl, h⟩


@[simp] theorem execSysStatus {r : Req} {s : State} : Polite ⟨0x0102, .read, true⟩ r s (Machine.execSysStatus r s) := .of fun _ _ => trivial
@[simp] theorem execSysSessionClose {r : Req} {s : State} : Polite ⟨0x0105, .anyone, false⟩ r s (Machine.execSysSessionClose r s) :=
  .of fun _ _ => trivial
@[simp] theorem execSysSubscribe {r : Req} {classes : BitVec 16} {sevMin : Nat} {s : State} :
    Polite ⟨0x0106, .read, false⟩ r s (Machine.execSysSubscribe r classes sevMin s) :=
  .of fun _ _ => .checked (by simp) trivial
@[simp] theorem execSysNotifyRead {r : Req} {first count : Nat} {s : State} :
    Polite ⟨0x0107, .read, false⟩ r s (Machine.execSysNotifyRead r first count s) :=
  .of fun _ t => by
    dsimp only
    split
    · exact ⟨by simp, by simp⟩
    · exact .checked (by simp) trivial
@[simp] theorem execSysSessions {r : Req} {s : State} : Polite ⟨0x0108, .read, false⟩ r s (Machine.execSysSessions r s) := .of fun _ _ => trivial
@[simp] theorem execSysNetSet {r : Req} {ipv4 mask gw vlan : Nat} {s : State} :
    Polite ⟨0x0109, .configure, false⟩ r s (Machine.execSysNetSet r ipv4 mask gw vlan s) :=
  .of fun _ _ => .checked (by simp) trivial
@[simp] theorem execSysNetRead {r : Req} {s : State} : Polite ⟨0x010A, .read, false⟩ r s (Machine.execSysNetRead r s) := .of fun _ _ => trivial
@[simp] theorem execSysLifecycle {r : Req} {new serialChk : Nat} {s : State} :
    Polite ⟨0x010B, .lifecycle, false⟩ r s (Machine.execSysLifecycle r new serialChk s) :=
  .of fun _ _ => .checked (by simp) trivial
@[simp] theorem execTimeTbStatus {r : Req} {s : State} : Polite ⟨0x0201, .read, true⟩ r s (Machine.execTimeTbStatus r s) := .of fun _ _ => trivial
@[simp] theorem execTimeStampRead {r : Req} {hcn count : Nat} {s : State} :
    Polite ⟨0x0202, .read, false⟩ r s (Machine.execTimeStampRead r hcn count s) :=
  .of fun _ _ => .checked (by simp) trivial
@[simp] theorem execTimeTbSet {r : Req} {profileSel : Nat} {fdrVset : BitVec 8} {s : State} :
    Polite ⟨0x0203, .configure, false⟩ r s (Machine.execTimeTbSet r profileSel fdrVset s) :=
  .of fun _ _ => .checked (by simp) trivial
@[simp] theorem execTimeRtcRead {r : Req} {s : State} : Polite ⟨0x0204, .read, false⟩ r s (Machine.execTimeRtcRead r s) := .of fun _ _ => trivial
@[simp] theorem execTimeRtcSet {r : Req} {year month day hour min sec dst : Nat} {s : State} :
    Polite ⟨0x0205, .configure, false⟩ r s (Machine.execTimeRtcSet r year month day hour min sec dst s) :=
  .of fun _ _ => .checked (by simp) (.ite trivial trivial)
@[simp] theorem execTimeRtcStep {r : Req} {dir : Nat} {s : State} : Polite ⟨0x0206, .configure, false⟩ r s (Machine.execTimeRtcStep r dir s) :=
  .of fun _ t => .checked (by simp) (by
    split
    · trivial
    · exact .ended (by split <;> simp))
@[simp] theorem execTimePtpSet {r : Req} {domP domS delayP delayS fallback : Nat} {s : State} :
    Polite ⟨0x0207, .configure, false⟩ r s (Machine.execTimePtpSet r domP domS delayP delayS fallback s) :=
  .of fun _ _ => .checked (by simp) trivial
@[simp] theorem execTimePtpRead {r : Req} {s : State} : Polite ⟨0x0208, .read, false⟩ r s (Machine.execTimePtpRead r s) := .of fun _ _ => trivial
@[simp] theorem execLinkStatus {r : Req} {s : State} : Polite ⟨0x0301, .read, false⟩ r s (Machine.execLinkStatus r s) := .of fun _ _ => trivial
@[simp] theorem execLinkAttenSet {r : Req} {feeder atten : Nat} {s : State} :
    Polite ⟨0x0302, .configure, false⟩ r s (Machine.execLinkAttenSet r feeder atten s) :=
  .of fun _ _ => .checked (by simp) trivial
@[simp] theorem execLinkStageSet {r : Req} {feeder stage : Nat} {s : State} :
    Polite ⟨0x0303, .configure, false⟩ r s (Machine.execLinkStageSet r feeder stage s) :=
  .of fun _ _ => .checked (by simp) trivial
@[simp] theorem execNodeRegister {r : Req} {eui wik wikA addr : Nat} {s : State} :
    Polite ⟨0x0401, .configure, false⟩ r s (Machine.execNodeRegister r eui wik wikA addr s) :=
  .of fun _ _ => .checked (by simp) (.ite ⟨by simp, by simp⟩ (.checked (by simp) trivial))
@[simp] theorem execNodeDeregister {r : Req} {eui : Nat} {s : State} : Polite ⟨0x0402, .configure, false⟩ r s (Machine.execNodeDeregister r eui s) :=
  .of fun _ t => by
    dsimp only
    split
    · exact ⟨by simp, by simp⟩
    · split
      · trivial
      · exact .ite trivial trivial
@[simp] theorem execNodeRead {r : Req} {first count : Nat} {s : State} : Polite ⟨0x0403, .read, false⟩ r s (Machine.execNodeRead r first count s) :=
  .of fun _ _ => .checked (by simp) trivial
@[simp] theorem execNodeGroupsRead {r : Req} {addr : Nat} {s : State} : Polite ⟨0x0404, .read, false⟩ r s (Machine.execNodeGroupsRead r addr s) :=
  .of fun _ _ => .checked (by simp) trivial
@[simp] theorem execNodeGroupSet {r : Req} {addr gslot group valid : Nat} {s : State} :
    Polite ⟨0x0405, .configure, false⟩ r s (Machine.execNodeGroupSet r addr gslot group valid s) :=
  .of fun _ _ => .checked (by simp) trivial
@[simp] theorem execNodeSceneSet {r : Req} {addr scene level : Nat} {s : State} :
    Polite ⟨0x0406, .configure, false⟩ r s (Machine.execNodeSceneSet r addr scene level s) :=
  .of fun _ _ => .checked (by simp) trivial
@[simp] theorem execNodeParamSet {r : Req} {addr param value : Nat} {s : State} :
    Polite ⟨0x0407, .configure, false⟩ r s (Machine.execNodeParamSet r addr param value s) :=
  .of fun _ _ => .checked (by simp) trivial
@[simp] theorem execNodeLevel {r : Req} {group level tgt : Nat} {s : State} :
    Polite ⟨0x0408, .operate, false⟩ r s (Machine.execNodeLevel r group level tgt s) :=
  .of fun _ _ => .checked (by simp) trivial
@[simp] theorem execNodeScene {r : Req} {scope group scene tgt : Nat} {s : State} :
    Polite ⟨0x0409, .operate, false⟩ r s (Machine.execNodeScene r scope group scene tgt s) :=
  .of fun _ _ => .checked (by simp) trivial
@[simp] theorem execNodeOverride {r : Req} {scope id level tgt endHcn : Nat} {s : State} :
    Polite ⟨0x040A, .operate, false⟩ r s (Machine.execNodeOverride r scope id level tgt endHcn s) :=
  .of fun _ _ => .checked (by simp) trivial
@[simp] theorem execGraphStop {r : Req} {s : State} : Polite ⟨0x0501, .configure, false⟩ r s (Machine.execGraphStop r s) :=
  .of fun _ _ => .checked (by simp) (.ite trivial trivial)
@[simp] theorem execGraphEdgeWrite {r : Req} {first : Nat} {entries : List (BitVec 32)} {s : State} :
    Polite ⟨0x0502, .configure, false⟩ r s (Machine.execGraphEdgeWrite r first entries s) :=
  .of fun _ _ => .checked (by simp) trivial
@[simp] theorem execGraphNodeWrite {r : Req} {first : Nat} {entries : List (BitVec 128)} {s : State} :
    Polite ⟨0x0503, .configure, false⟩ r s (Machine.execGraphNodeWrite r first entries s) :=
  .of fun _ _ => .checked (by simp) trivial
@[simp] theorem execGraphCurveWrite {r : Req} {curve : Nat} {points : List (BitVec 32)} {s : State} :
    Polite ⟨0x0504, .configure, false⟩ r s (Machine.execGraphCurveWrite r curve points s) :=
  .of fun _ _ => .checked (by simp) trivial
@[simp] theorem execGraphSlewWrite {r : Req} {slew : Nat} {profile : BitVec 64} {s : State} :
    Polite ⟨0x0505, .configure, false⟩ r s (Machine.execGraphSlewWrite r slew profile s) :=
  .of fun _ _ => .checked (by simp) trivial
@[simp] theorem execGraphCfgWrite {r : Req} {substeps ageLimit : Nat} {s : State} :
    Polite ⟨0x0506, .configure, false⟩ r s (Machine.execGraphCfgWrite r substeps ageLimit s) :=
  .of fun _ _ => .checked (by simp) trivial
@[simp] theorem execGraphRestart {r : Req} {tgt : Nat} {s : State} : Polite ⟨0x0507, .configure, false⟩ r s (Machine.execGraphRestart r tgt s) :=
  .of fun _ t => .checked (by simp) (by
    split
    · exact ⟨by simp, by simp⟩
    · exact .checked (by simp) trivial)
@[simp] theorem execGraphRead {r : Req} {first count table : Nat} {s : State} :
    Polite ⟨0x0508, .read, false⟩ r s (Machine.execGraphRead r first count table s) :=
  .of fun _ t => by
    dsimp only
    split
    iterate 7 exact .paged
    exact ⟨by simp, by simp⟩
@[simp] theorem execGraphStatus {r : Req} {s : State} : Polite ⟨0x0509, .read, false⟩ r s (Machine.execGraphStatus r s) := .of fun _ _ => trivial
@[simp] theorem execSchedWrite {r : Req} {group : Nat} {header : BitVec 32} {entries : List (BitVec 64)} {s : State} :
    Polite ⟨0x0601, .configure, false⟩ r s (Machine.execSchedWrite r group header entries s) :=
  .of fun _ _ => .checked (by simp) trivial
@[simp] theorem execSchedRead {r : Req} {group : Nat} {s : State} : Polite ⟨0x0602, .read, false⟩ r s (Machine.execSchedRead r group s) :=
  .of fun _ _ => trivial
@[simp] theorem execSchedHolWrite {r : Req} {cal : Nat} {dates : List (BitVec 32)} {s : State} :
    Polite ⟨0x0603, .configure, false⟩ r s (Machine.execSchedHolWrite r cal dates s) :=
  .of fun _ _ => .checked (by simp) trivial
@[simp] theorem execSchedHolRead {r : Req} {cal : Nat} {s : State} : Polite ⟨0x0604, .read, false⟩ r s (Machine.execSchedHolRead r cal s) :=
  .of fun _ _ => .checked (by simp) trivial
@[simp] theorem execSchedSiteWrite {r : Req} {site : Site} {s : State} :
    Polite ⟨0x0605, .configure, false⟩ r s (Machine.execSchedSiteWrite r site s) :=
  .of fun _ _ => .checked (by simp) trivial
@[simp] theorem execSchedSiteRead {r : Req} {s : State} : Polite ⟨0x0606, .read, false⟩ r s (Machine.execSchedSiteRead r s) :=
  .of fun _ _ => trivial
@[simp] theorem execSchedSunRead {r : Req} {date : BitVec 32} {s : State} : Polite ⟨0x0607, .read, false⟩ r s (Machine.execSchedSunRead r date s) :=
  .of fun _ _ => .checked (by simp) trivial
@[simp] theorem execSchedLimitsRead {r : Req} {addr : Nat} {s : State} : Polite ⟨0x0608, .read, false⟩ r s (Machine.execSchedLimitsRead r addr s) :=
  .of fun _ _ => .checked (by simp) trivial
@[simp] theorem execMeterInputSet {r : Req} {tgt input : Nat} {header : BitVec 64} {points : List (BitVec 64)} {s : State} :
    Polite ⟨0x0701, .configure, false⟩ r s (Machine.execMeterInputSet r tgt input header points s) :=
  .of fun _ _ => .checked (by simp) trivial
@[simp] theorem execMeterGlobalSet {r : Req} {tgt vnomA vnomB saveInt calInt : Nat} {s : State} :
    Polite ⟨0x0702, .configure, false⟩ r s (Machine.execMeterGlobalSet r tgt vnomA vnomB saveInt calInt s) :=
  .of fun _ _ => .checked (by simp) trivial
@[simp] theorem execMeterPulseSet {r : Req} {tgt out qty : Nat} {fdrMask : BitVec 8} {const : Nat} {s : State} :
    Polite ⟨0x0703, .configure, false⟩ r s (Machine.execMeterPulseSet r tgt out qty fdrMask const s) :=
  .of fun _ _ => .checked (by simp) trivial
@[simp] theorem execMeterCfgRead {r : Req} {sect : Nat} {s : State} : Polite ⟨0x0704, .read, false⟩ r s (Machine.execMeterCfgRead r sect s) :=
  .of fun _ _ => .checked (by simp) trivial
@[simp] theorem execMeterRecordRead {r : Req} {feeder hcn count : Nat} {s : State} :
    Polite ⟨0x0705, .read, false⟩ r s (Machine.execMeterRecordRead r feeder hcn count s) :=
  .of fun _ _ => .checked (by simp) trivial
@[simp] theorem execMeterSubscribe {r : Req} {fdrMask : BitVec 8} {n : Nat} {s : State} :
    Polite ⟨0x0706, .read, false⟩ r s (Machine.execMeterSubscribe r fdrMask n s) :=
  .of fun _ _ => .checked (by simp) trivial
@[simp] theorem execMeterSnapshot {r : Req} {tgt : Nat} {s : State} : Polite ⟨0x0707, .read, false⟩ r s (Machine.execMeterSnapshot r tgt s) :=
  .of fun _ _ => .checked (by simp) trivial
@[simp] theorem execMeterSnapRead {r : Req} {first count : Nat} {s : State} :
    Polite ⟨0x0708, .read, false⟩ r s (Machine.execMeterSnapRead r first count s) :=
  .of fun _ _ => .checked (by simp) .paged
@[simp] theorem execMeterAccRead {r : Req} {first count : Nat} {s : State} :
    Polite ⟨0x0709, .read, false⟩ r s (Machine.execMeterAccRead r first count s) :=
  .of fun _ _ => .checked (by simp) trivial
@[simp] theorem execMeterGapRead {r : Req} {s : State} : Polite ⟨0x070A, .read, false⟩ r s (Machine.execMeterGapRead r s) :=
  .of fun _ _ => trivial
@[simp] theorem execMeterCalibrate {r : Req} {input : Nat} {s : State} :
    Polite ⟨0x070B, .configure, false⟩ r s (Machine.execMeterCalibrate r input s) :=
  .of fun _ _ => .checked (by simp) (.ite trivial trivial)
@[simp] theorem execMeterSatClear {r : Req} {mask : BitVec 8} {s : State} :
    Polite ⟨0x070C, .operate, false⟩ r s (Machine.execMeterSatClear r mask s) :=
  .of fun _ _ => trivial
@[simp] theorem execMeterStatus {r : Req} {s : State} : Polite ⟨0x070D, .read, false⟩ r s (Machine.execMeterStatus r s) := .of fun _ _ => trivial
@[simp] theorem execAccordModelSet {r : Req} {tgt first : Nat} {entries : List (BitVec 64)} {s : State} :
    Polite ⟨0x0801, .configure, false⟩ r s (Machine.execAccordModelSet r tgt first entries s) :=
  .of fun _ _ => .checked (by simp) trivial
@[simp] theorem execAccordDefaultSet {r : Req} {entry : BitVec 64} {s : State} :
    Polite ⟨0x0802, .configure, false⟩ r s (Machine.execAccordDefaultSet r entry s) :=
  .of fun _ _ => trivial
@[simp] theorem execAccordModelRead {r : Req} {first count : Nat} {s : State} :
    Polite ⟨0x0803, .read, false⟩ r s (Machine.execAccordModelRead r first count s) :=
  .of fun _ _ => .checked (by simp) trivial
@[simp] theorem execAccordAccountRead {r : Req} {first count : Nat} {s : State} :
    Polite ⟨0x0804, .read, false⟩ r s (Machine.execAccordAccountRead r first count s) :=
  .of fun _ _ => .checked (by simp) trivial
@[simp] theorem execAccordPhaseRead {r : Req} {first count : Nat} {s : State} :
    Polite ⟨0x0805, .read, false⟩ r s (Machine.execAccordPhaseRead r first count s) :=
  .of fun _ _ => .checked (by simp) trivial
@[simp] theorem execAccordSnapshot {r : Req} {tgt : Nat} {s : State} : Polite ⟨0x0806, .read, false⟩ r s (Machine.execAccordSnapshot r tgt s) :=
  .of fun _ _ => .checked (by simp) trivial
@[simp] theorem execAccordSnapRead {r : Req} {first count sect : Nat} {s : State} :
    Polite ⟨0x0807, .read, false⟩ r s (Machine.execAccordSnapRead r first count sect s) :=
  .of fun _ _ => .checked (by simp) (.ite .paged .paged)
@[simp] theorem execAccordCfgSet {r : Req} {resThr attTol : Nat} {s : State} :
    Polite ⟨0x0808, .configure, false⟩ r s (Machine.execAccordCfgSet r resThr attTol s) :=
  .of fun _ _ => .checked (by simp) trivial
@[simp] theorem execAccordStatus {r : Req} {s : State} : Polite ⟨0x0809, .read, false⟩ r s (Machine.execAccordStatus r s) :=
  .of fun _ _ => trivial
@[simp] theorem execBlotterRequest {r : Req} {addr delta deadline : Nat} {s : State} :
    Polite ⟨0x0901, .operate, false⟩ r s (Machine.execBlotterRequest r addr delta deadline s) :=
  .of fun _ _ => .checked (by simp) trivial
@[simp] theorem execBlotterCancel {r : Req} {req : Nat} {s : State} : Polite ⟨0x0902, .operate, false⟩ r s (Machine.execBlotterCancel r req s) :=
  .of fun _ t => by
    split
    · exact ⟨by simp, by simp⟩
    · trivial
@[simp] theorem execBlotterResultRead {r : Req} {mode key count : Nat} {s : State} :
    Polite ⟨0x0903, .read, false⟩ r s (Machine.execBlotterResultRead r mode key count s) :=
  .of fun _ _ => .checked (by simp) trivial
@[simp] theorem execBlotterNodeRead {r : Req} {first count : Nat} {s : State} :
    Polite ⟨0x0904, .read, false⟩ r s (Machine.execBlotterNodeRead r first count s) :=
  .of fun _ _ => .checked (by simp) trivial
@[simp] theorem execBlotterClear {r : Req} {addr : Nat} {s : State} : Polite ⟨0x0905, .operate, false⟩ r s (Machine.execBlotterClear r addr s) :=
  .of fun _ _ => .checked (by simp) trivial
@[simp] theorem execBlotterCfgSet {r : Req} {bc br : BitVec 32} {s : State} :
    Polite ⟨0x0906, .configure, false⟩ r s (Machine.execBlotterCfgSet r bc br s) :=
  .of fun _ _ => .checked (by simp) trivial
@[simp] theorem execBlotterStatus {r : Req} {s : State} : Polite ⟨0x0907, .read, false⟩ r s (Machine.execBlotterStatus r s) :=
  .of fun _ _ => trivial
@[simp] theorem execSignWrite {r : Req} {dest daddr offset : Nat} {data : List Nat} {s : State} :
    Polite ⟨0x0A01, .operate, false⟩ r s (Machine.execSignWrite r dest daddr offset data s) :=
  .of fun _ _ => .ite (.checked (by simp) trivial) (.checked (by simp) trivial)
@[simp] theorem execSignSwap {r : Req} {mode tgt : Nat} {loc : Bool} {rem : List (Nat × Nat)} {s : State} :
    Polite ⟨0x0A02, .operate, false⟩ r s (Machine.execSignSwap r mode tgt loc rem s) :=
  .of fun _ t => by
    dsimp only
    split
    · exact .checked (by simp) trivial
    · exact .checked (by simp) (.ite trivial (.ite trivial trivial))
    · exact .checked (by simp) trivial
@[simp] theorem execSignCfgSet {r : Req} {cfg : BitVec 32} {gcur : Nat} {s : State} :
    Polite ⟨0x0A03, .configure, false⟩ r s (Machine.execSignCfgSet r cfg gcur s) :=
  .of fun _ _ => .checked (by simp) trivial
@[simp] theorem execSignTrimSet {r : Req} {first : Nat} {trims : List Nat} {s : State} :
    Polite ⟨0x0A04, .configure, false⟩ r s (Machine.execSignTrimSet r first trims s) :=
  .of fun _ _ => .checked (by simp) trivial
@[simp] theorem execSignPopSet {r : Req} {row : Nat} {pop : BitVec 64} {s : State} :
    Polite ⟨0x0A05, .configure, false⟩ r s (Machine.execSignPopSet r row pop s) :=
  .of fun _ _ => .checked (by simp) trivial
@[simp] theorem execSignDefaultSet {r : Req} {offset : Nat} {commit : Bool} {data : List Nat} {s : State} :
    Polite ⟨0x0A06, .configure, false⟩ r s (Machine.execSignDefaultSet r offset commit data s) :=
  .of fun _ _ => .checked (by simp) trivial
@[simp] theorem execSignStatus {r : Req} {s : State} : Polite ⟨0x0A07, .read, false⟩ r s (Machine.execSignStatus r s) := .of fun _ _ => trivial
@[simp] theorem execSignFaultRead {r : Req} {row : Nat} {s : State} : Polite ⟨0x0A08, .read, false⟩ r s (Machine.execSignFaultRead r row s) :=
  .of fun _ _ => .checked (by simp) trivial
@[simp] theorem execSignBus {r : Req} {port daddr scmd : Nat} {pay : List Nat} {s : State} :
    Polite ⟨0x0A09, .operate, false⟩ r s (Machine.execSignBus r port daddr scmd pay s) :=
  .of fun _ _ => .checked (by simp) trivial
@[simp] theorem execSignCellSet {r : Req} {col cell : Nat} {s : State} :
    Polite ⟨0x0A0A, .configure, false⟩ r s (Machine.execSignCellSet r col cell s) :=
  .of fun _ _ => .checked (by simp) trivial
@[simp] theorem execSignColsRead {r : Req} {s : State} : Polite ⟨0x0A0B, .read, false⟩ r s (Machine.execSignColsRead r s) :=
  .of fun _ _ => trivial
@[simp] theorem execKeySlotRead {r : Req} {s : State} : Polite ⟨0x0B01, .read, false⟩ r s (Machine.execKeySlotRead r s) := .of fun _ _ => trivial
@[simp] theorem execKeyLoad {r : Req} {slot : Nat} {attr : BitVec 64} {wkey wkeyA : Nat} {s : State} :
    Polite ⟨0x0B02, .keys, false⟩ r s (Machine.execKeyLoad r slot attr wkey wkeyA s) :=
  .of fun _ t => .checked (by simp) (by
    split
    · exact ⟨by simp, by simp⟩
    · exact .checked (by simp) trivial)
@[simp] theorem execKeyGenerate {r : Req} {slot : Nat} {attr : BitVec 64} {s : State} :
    Polite ⟨0x0B03, .keys, false⟩ r s (Machine.execKeyGenerate r slot attr s) :=
  .of fun _ _ => .checked (by simp) trivial
@[simp] theorem execKeyCommit {r : Req} {slot kcv : Nat} {s : State} : Polite ⟨0x0B04, .keys, false⟩ r s (Machine.execKeyCommit r slot kcv s) :=
  .of fun _ t => .checked (by simp) (by
    split
    · exact ⟨by simp, by simp⟩
    · exact .checked (by simp) trivial)
@[simp] theorem execKeyInvalidate {r : Req} {slot : Nat} {s : State} : Polite ⟨0x0B05, .keys, false⟩ r s (Machine.execKeyInvalidate r slot s) :=
  .of fun _ _ => .checked (by simp) trivial
@[simp] theorem execKeyRollover {r : Req} {feeder tgt : Nat} {s : State} :
    Polite ⟨0x0B06, .keys, false⟩ r s (Machine.execKeyRollover r feeder tgt s) :=
  .of fun _ _ => .checked (by simp) trivial
@[simp] theorem execKeyRollRead {r : Req} {feeder : Nat} {s : State} : Polite ⟨0x0B07, .read, false⟩ r s (Machine.execKeyRollRead r feeder s) :=
  .of fun _ _ => .checked (by simp) trivial
@[simp] theorem execKeyOperatorSet {r : Req} {pub sigFst sigSnd : Nat} {s : State} :
    Polite ⟨0x0B08, .keys, false⟩ r s (Machine.execKeyOperatorSet r pub sigFst sigSnd s) :=
  .of fun _ _ => .checked (by simp) trivial
@[simp] theorem execKeyDenySet {r : Req} {serials : List Nat} {s : State} : Polite ⟨0x0B09, .keys, false⟩ r s (Machine.execKeyDenySet r serials s) :=
  .of fun _ _ => .checked (by simp) trivial
@[simp] theorem execKeyDenyRead {r : Req} {s : State} : Polite ⟨0x0B0A, .read, false⟩ r s (Machine.execKeyDenyRead r s) := .of fun _ _ => trivial
@[simp] theorem execKeyTamperSet {r : Req} {respA respB : Nat} {s : State} :
    Polite ⟨0x0B0B, .keys, false⟩ r s (Machine.execKeyTamperSet r respA respB s) :=
  .of fun _ _ => .checked (by simp) trivial
@[simp] theorem execKeyTamperRead {r : Req} {s : State} : Polite ⟨0x0B0C, .read, false⟩ r s (Machine.execKeyTamperRead r s) :=
  .of fun _ _ => trivial
@[simp] theorem execKeyTamperAck {r : Req} {input : Nat} {s : State} : Polite ⟨0x0B0D, .keys, false⟩ r s (Machine.execKeyTamperAck r input s) :=
  .of fun _ _ => .checked (by simp) trivial
@[simp] theorem execUpdHeader {r : Req} {hdr : PkgHeader} {sig : Nat} {s : State} :
    Polite ⟨0x0C01, .update, false⟩ r s (Machine.execUpdHeader r hdr sig s) :=
  .of fun _ _ => .checked (by simp) (.ite trivial trivial)
@[simp] theorem execUpdBlock {r : Req} {offset : Nat} {data : List Nat} {s : State} :
    Polite ⟨0x0C02, .update, false⟩ r s (Machine.execUpdBlock r offset data s) :=
  .of fun _ _ => .checked (by simp) (.ite trivial trivial)
@[simp] theorem execUpdBitmap {r : Req} {first count : Nat} {s : State} : Polite ⟨0x0C03, .read, false⟩ r s (Machine.execUpdBitmap r first count s) :=
  .of fun _ _ => .checked (by simp) trivial
@[simp] theorem execUpdActivate {r : Req} {tgt : Nat} {hashOk : Bool} {s : State} :
    Polite ⟨0x0C04, .update, false⟩ r s (Machine.execUpdActivate r tgt hashOk s) :=
  .of fun _ t => by
    dsimp only
    split
    · exact ⟨by simp, by simp⟩
    · refine .checked (by simp) ?_
      split
      · exact ⟨⟨_, rfl⟩, failedIf_drawn ..⟩
      · exact .ite ⟨by simp, by simp⟩ trivial
@[simp] theorem execUpdConfirm {r : Req} {s : State} : Polite ⟨0x0C05, .update, false⟩ r s (Machine.execUpdConfirm r s) :=
  .of fun _ _ => .checked (by simp) trivial
@[simp] theorem execUpdAbort {r : Req} {s : State} : Polite ⟨0x0C06, .update, false⟩ r s (Machine.execUpdAbort r s) :=
  .of fun _ _ => .checked (by simp) trivial
@[simp] theorem execUpdStatus {r : Req} {s : State} : Polite ⟨0x0C07, .read, false⟩ r s (Machine.execUpdStatus r s) := .of fun _ _ => trivial
@[simp] theorem execUpdNodeActivate {r : Req} {img group tgt : Nat} {s : State} :
    Polite ⟨0x0C08, .update, false⟩ r s (Machine.execUpdNodeActivate r img group tgt s) :=
  .of fun _ t => by
    dsimp only
    split
    · exact .checked (by simp) ⟨by simp, by simp⟩
    · exact .checked (by simp) trivial
@[simp] theorem execUpdNodeStatus {r : Req} {first count img : Nat} {s : State} :
    Polite ⟨0x0C09, .read, false⟩ r s (Machine.execUpdNodeStatus r first count img s) :=
  .of fun _ _ => .checked (by simp) .paged
@[simp] theorem execLogRead {r : Req} {area start count sevMin code : Nat} {s : State} :
    Polite ⟨0x0D01, .read, false⟩ r s (Machine.execLogRead r area start count sevMin code s) :=
  .of fun _ _ => .checked (by simp) trivial
@[simp] theorem execLogClear {r : Req} {s : State} : Polite ⟨0x0D02, .clear, false⟩ r s (Machine.execLogClear r s) :=
  .of fun _ _ => .checked (by simp) trivial
@[simp] theorem execLogStatus {r : Req} {s : State} : Polite ⟨0x0D03, .read, false⟩ r s (Machine.execLogStatus r s) := .of fun _ _ => trivial
@[simp] theorem execLogRateSet {r : Req} {code refill : Nat} {s : State} :
    Polite ⟨0x0D04, .configure, false⟩ r s (Machine.execLogRateSet r code refill s) :=
  .of fun _ _ => .checked (by simp) trivial
@[simp] theorem execMemRead {r : Req} {addr width len : Nat} {found : List (Nat × Damage)} {lostAt : Option Nat} {s : State} :
    Polite ⟨0x0E01, .read, false⟩ r s (Machine.execMemRead r addr width len found lostAt s) :=
  .of fun _ t => .checked (by simp) (by
    dsimp only
    split
    · trivial
    next e h => exact .ended (memReads_status h))
@[simp] theorem execMemWrite {r : Req} {addr width : Nat} {data : List Nat} {found : List (Nat × Damage)} {lostAt : Option Nat} {s : State} :
    Polite ⟨0x0E02, .mem, false⟩ r s (Machine.execMemWrite r addr width data found lostAt s) :=
  .of fun _ t => .checked (by simp) (by
    dsimp only
    split
    · trivial
    next e h => exact .ended (memWrites_status h))
@[simp] theorem execTestSelftest {r : Req} {kind index : Nat} {pass : Bool} {data : Nat} {s : State} :
    Polite ⟨0x0F01, .test, false⟩ r s (Machine.execTestSelftest r kind index pass data s) :=
  .of fun _ _ => .checked (by simp) (.ite trivial trivial)
@[simp] theorem execTestReturn {r : Req} {kind index : Nat} {pass : Bool} {s : State} :
    Polite ⟨0x0F02, .test, false⟩ r s (Machine.execTestReturn r kind index pass s) :=
  .of fun _ _ => .checked (by simp) (.ite trivial trivial)
@[simp] theorem execTestRetire {r : Req} {kind index : Nat} {s : State} : Polite ⟨0x0F03, .test, false⟩ r s (Machine.execTestRetire r kind index s) :=
  .of fun _ _ => .checked (by simp) trivial
@[simp] theorem execTestReserves {r : Req} {s : State} : Polite ⟨0x0F04, .read, true⟩ r s (Machine.execTestReserves r s) := .of fun _ _ => trivial
@[simp] theorem execTestRestart {r : Req} {target : Nat} {s : State} : Polite ⟨0x0F05, .test, false⟩ r s (Machine.execTestRestart r target s) :=
  .of fun _ _ => .checked (by simp) trivial
@[simp] theorem execTestWearSet {r : Req} {kind thresh : Nat} {s : State} :
    Polite ⟨0x0F06, .configure, false⟩ r s (Machine.execTestWearSet r kind thresh s) :=
  .of fun _ _ => .checked (by simp) trivial

end Polite

/-- Every host row hands a request to its command's own rules, whose refusals are refusals. -/
theorem hostRow_polite {c : Instr} {k : CmdSpec} {r : Req} {s : State} (h : hostRow c = some (r, k)) (hp : s.pow.phase ≠ .bootStuck) :
    Polite k r s (exec c s) := by
  cases c <;> simp only [hostRow, Option.some.injEq, Prod.mk.injEq, reduceCtorEq] at h <;> obtain ⟨rfl, rfl⟩ := h
  case sysIdentify r =>
    simp only [exec, Machine.execSysIdentify, if_neg hp]
    exact .of fun _ _ => trivial
  all_goals simp [exec]
/-- A ninth outstanding request is refused: as the command's own rules refuse it, or with BUSY (10 R343; 11 R352). -/
theorem settle_ninth {t : State} {a : Ans} (h : a.Declines t) (reply : State → Status → Payload → State) (hold : State → State) :
    ∃ u : State, { u with fresh := t.fresh } = t ∧
      ((∃ ms, t.settle reply hold (a.ninth true) = reply u .busy [(ms, 2)]) ∨
       (∃ st d, st ≠ .ok ∧ st ≠ .deferred ∧ st ≠ .busy ∧ t.settle reply hold (a.ninth true) = reply u st [(d, 4)])) := by
  have busy (d : Nat) : ∃ u : State, { u with fresh := t.fresh } = t ∧ ∃ ms, t.settle reply hold (.no .busy d) = reply u .busy [(ms, 2)] :=
    ⟨_, by rfl, _, rfl⟩
  have full (ha : a.ninth true = .no .busy 0) : ∃ u : State, { u with fresh := t.fresh } = t ∧
      ((∃ ms, t.settle reply hold (a.ninth true) = reply u .busy [(ms, 2)]) ∨
       (∃ st d, st ≠ .ok ∧ st ≠ .deferred ∧ st ≠ .busy ∧ t.settle reply hold (a.ninth true) = reply u st [(d, 4)])) := by
    obtain ⟨u, hu, hms⟩ := busy 0
    exact ⟨u, hu, .inl (by rwa [ha])⟩
  cases a with
  | no st d =>
    by_cases hb : st = .busy
    · subst hb
      obtain ⟨u, hu, hms⟩ := busy d
      exact ⟨u, hu, .inl hms⟩
    · exact ⟨t, rfl, .inr ⟨st, d, h.1, h.2, hb, by simp [Ans.ninth, State.settle, State.refusalPay, hb]⟩⟩
  | ended st p u =>
    by_cases hi : st = .interface
    · subst hi
      obtain ⟨⟨d, rfl⟩, hu⟩ := h
      exact ⟨u, hu, .inr ⟨.interface, d, by simp, by simp, by simp, rfl⟩⟩
    · refine full ?_
      cases st
      case interface => exact absurd rfl hi
      all_goals rfl
  | ok pay u => exact full rfl
  | deferred target u => exact full rfl
  | later u => exact full rfl
  | okThen pay u fin => exact full rfl

theorem gate_inSession {s : State} {r : Req} {x : Session} (hh : Heard s r) (hi : InSession s r x) (ho : x.halfOpen = false) :
    (s.tick r.dt).gate r false = .accept (s.taken r x) x := by
  obtain ⟨hs, hx, hu, hip, ht, hn, hq⟩ := hi
  rw [gate_ses hh hs hx, sesGate_fromSource ho hu hip, if_neg (by simp [ht, hn]), hq]
  rfl

theorem taken_fresh (s : State) (r : Req) (x : Session) : (s.taken r x).fresh = s.fresh := by
  have h := congrArg State.fresh (heardAt_came s r)
  exact h

/-- Settles O10: privilege, length, the command's own refusals, BUSY. -/
theorem deniedThenLengthThenBusy : Obligations.DeniedThenLengthThenBusy := by
  intro c k r s x hc hh hi ho
  have hg := gate_inSession hh hi ho
  obtain ⟨body, he, hb⟩ := hostRow_polite hc (heard_not_bootStuck hh.1)
  refine ⟨fun hp => ?_, fun hp hl => ?_, fun hp hl hn => ?_⟩
  · simp [he, hostCmd, hg, hp, State.settle, State.refusalPay, State.answered]
  · simp [he, hostCmd, hg, hp, hl, State.settle, State.refusalPay, State.answered]
  · have hrun : exec c s = .next (((s.taken r x).settle (fun t st pay => t.respond x.id ⟨r.seq, k.cmd, st, pay⟩)
        (fun t => t.onSession x.id (fun y => { y with outst := y.outst ++ [(r.seq, k.cmd, r.port)] }))
        ((body ⟨x.id, r.seq⟩ (s.taken r x)).ninth true)).seqLimit r) := by
      simp [he, hostCmd, hg, hp, hl, hn]
    obtain ⟨u, hu, hans⟩ := settle_ninth (hb ⟨x.id, r.seq⟩ (s.taken r x)) (fun t st pay => t.respond x.id ⟨r.seq, k.cmd, st, pay⟩)
      (fun t => t.onSession x.id (fun y => { y with outst := y.outst ++ [(r.seq, k.cmd, r.port)] }))
    refine ⟨u, ?_, hans.imp (fun ⟨ms, h⟩ => ⟨ms, ?_⟩) (fun ⟨st, d, h1, h2, h3, h⟩ => ⟨st, d, h1, h2, h3, ?_⟩)⟩
    · rwa [taken_fresh] at hu
    · rw [hrun, h]; rfl
    · rw [hrun, h]; rfl

end Sys2Proof.Machine
end

