-- ==== Sys2Proof/Proofs/Taken.lean ====
section
/-!
SUPPORT. What the state that a command's own rules see (`State.taken`) has of the state before: all but time, the network, the sessions and what
was recorded.
-/
namespace Sys2Proof.Machine
open Sys2Proof

/-! ## The state that a message is looked at in -/

@[simp] theorem State.heardAt_pending (s : State) (r : Req) : (s.heardAt r).pending = s.pending := (congrArg State.pending (heardAt_came s r) :)
@[simp] theorem State.heardAt_fresh (s : State) (r : Req) : (s.heardAt r).fresh = s.fresh := (congrArg State.fresh (heardAt_came s r) :)
@[simp] theorem State.heardAt_order (s : State) (r : Req) : (s.heardAt r).order = s.order := (congrArg State.order (heardAt_came s r) :)
@[simp] theorem State.heardAt_pow (s : State) (r : Req) : (s.heardAt r).pow = s.pow := (congrArg State.pow (heardAt_came s r) :)
@[simp] theorem State.heardAt_tb (s : State) (r : Req) : (s.heardAt r).tb = s.tb := (congrArg State.tb (heardAt_came s r) :)
@[simp] theorem State.heardAt_acts (s : State) (r : Req) : (s.heardAt r).acts = s.acts := (congrArg State.acts (heardAt_came s r) :)
@[simp] theorem State.heardAt_dspFrames (s : State) (r : Req) : (s.heardAt r).dspFrames = s.dspFrames := (congrArg State.dspFrames (heardAt_came s r) :)
@[simp] theorem State.heardAt_joinRefused (s : State) (r : Req) : (s.heardAt r).joinRefused = s.joinRefused := (congrArg State.joinRefused (heardAt_came s r) :)
@[simp] theorem State.heardAt_wtx (s : State) (r : Req) : (s.heardAt r).wtx = s.wtx := (congrArg State.wtx (heardAt_came s r) :)
@[simp] theorem State.heardAt_rx (s : State) (r : Req) : (s.heardAt r).rx = s.rx := (congrArg State.rx (heardAt_came s r) :)
@[simp] theorem State.heardAt_fdr (s : State) (r : Req) : (s.heardAt r).fdr = s.fdr := (congrArg State.fdr (heardAt_came s r) :)
@[simp] theorem State.heardAt_nodes (s : State) (r : Req) : (s.heardAt r).nodes = s.nodes := (congrArg State.nodes (heardAt_came s r) :)
@[simp] theorem State.heardAt_sil (s : State) (r : Req) : (s.heardAt r).sil = s.sil := (congrArg State.sil (heardAt_came s r) :)
@[simp] theorem State.heardAt_sched (s : State) (r : Req) : (s.heardAt r).sched = s.sched := (congrArg State.sched (heardAt_came s r) :)
@[simp] theorem State.heardAt_meter (s : State) (r : Req) : (s.heardAt r).meter = s.meter := (congrArg State.meter (heardAt_came s r) :)
@[simp] theorem State.heardAt_accord (s : State) (r : Req) : (s.heardAt r).accord = s.accord := (congrArg State.accord (heardAt_came s r) :)
@[simp] theorem State.heardAt_blot (s : State) (r : Req) : (s.heardAt r).blot = s.blot := (congrArg State.blot (heardAt_came s r) :)
@[simp] theorem State.heardAt_sign (s : State) (r : Req) : (s.heardAt r).sign = s.sign := (congrArg State.sign (heardAt_came s r) :)
@[simp] theorem State.heardAt_sbus (s : State) (r : Req) : (s.heardAt r).sbus = s.sbus := (congrArg State.sbus (heardAt_came s r) :)
@[simp] theorem State.heardAt_remSwaps (s : State) (r : Req) : (s.heardAt r).remSwaps = s.remSwaps := (congrArg State.remSwaps (heardAt_came s r) :)
@[simp] theorem State.heardAt_rtc (s : State) (r : Req) : (s.heardAt r).rtc = s.rtc := (congrArg State.rtc (heardAt_came s r) :)
@[simp] theorem State.heardAt_keys (s : State) (r : Req) : (s.heardAt r).keys = s.keys := (congrArg State.keys (heardAt_came s r) :)
@[simp] theorem State.heardAt_nvmc (s : State) (r : Req) : (s.heardAt r).nvmc = s.nvmc := (congrArg State.nvmc (heardAt_came s r) :)
@[simp] theorem State.heardAt_nv (s : State) (r : Req) : (s.heardAt r).nv = s.nv := (congrArg State.nv (heardAt_came s r) :)
@[simp] theorem State.heardAt_mem (s : State) (r : Req) : (s.heardAt r).mem = s.mem := (congrArg State.mem (heardAt_came s r) :)
@[simp] theorem State.heardAt_out (s : State) (r : Req) : (s.heardAt r).out = [] := (congrArg State.out (heardAt_came s r) :)
@[simp] theorem State.heardAt_now (s : State) (r : Req) : (s.heardAt r).now = s.now + r.dt.cclk := (congrArg State.now (heardAt_came s r) :)
@[simp] theorem State.heardAt_bk (s : State) (r : Req) : (s.heardAt r).bk = s.bk.tick r.dt.rtc := (congrArg State.bk (heardAt_came s r) :)
@[simp] theorem State.heardAt_jnc (s : State) (r : Req) : (s.heardAt r).jnc = s.jnc.settled s.tb.lastEdge (s.now + r.dt.cclk) := (congrArg State.jnc (heardAt_came s r) :)
@[simp] theorem State.heardAt_vxc (s : State) (r : Req) : (s.heardAt r).vxc = s.vxc := (heardAt_came s r).vxc

/-! ## The state that a command's own rules look at -/

@[simp] theorem State.taken_pending (s : State) (r : Req) (x : Session) : (s.taken r x).pending = s.pending := s.heardAt_pending r
@[simp] theorem State.taken_order (s : State) (r : Req) (x : Session) : (s.taken r x).order = s.order := s.heardAt_order r
@[simp] theorem State.taken_pow (s : State) (r : Req) (x : Session) : (s.taken r x).pow = s.pow := s.heardAt_pow r
@[simp] theorem State.taken_tb (s : State) (r : Req) (x : Session) : (s.taken r x).tb = s.tb := s.heardAt_tb r
@[simp] theorem State.taken_acts (s : State) (r : Req) (x : Session) : (s.taken r x).acts = s.acts := s.heardAt_acts r
@[simp] theorem State.taken_dspFrames (s : State) (r : Req) (x : Session) : (s.taken r x).dspFrames = s.dspFrames := s.heardAt_dspFrames r
@[simp] theorem State.taken_joinRefused (s : State) (r : Req) (x : Session) : (s.taken r x).joinRefused = s.joinRefused := s.heardAt_joinRefused r
@[simp] theorem State.taken_wtx (s : State) (r : Req) (x : Session) : (s.taken r x).wtx = s.wtx := s.heardAt_wtx r
@[simp] theorem State.taken_rx (s : State) (r : Req) (x : Session) : (s.taken r x).rx = s.rx := s.heardAt_rx r
@[simp] theorem State.taken_fdr (s : State) (r : Req) (x : Session) : (s.taken r x).fdr = s.fdr := s.heardAt_fdr r
@[simp] theorem State.taken_nodes (s : State) (r : Req) (x : Session) : (s.taken r x).nodes = s.nodes := s.heardAt_nodes r
@[simp] theorem State.taken_sil (s : State) (r : Req) (x : Session) : (s.taken r x).sil = s.sil := s.heardAt_sil r
@[simp] theorem State.taken_sched (s : State) (r : Req) (x : Session) : (s.taken r x).sched = s.sched := s.heardAt_sched r
@[simp] theorem State.taken_meter (s : State) (r : Req) (x : Session) : (s.taken r x).meter = s.meter := s.heardAt_meter r
@[simp] theorem State.taken_accord (s : State) (r : Req) (x : Session) : (s.taken r x).accord = s.accord := s.heardAt_accord r
@[simp] theorem State.taken_blot (s : State) (r : Req) (x : Session) : (s.taken r x).blot = s.blot := s.heardAt_blot r
@[simp] theorem State.taken_sign (s : State) (r : Req) (x : Session) : (s.taken r x).sign = s.sign := s.heardAt_sign r
@[simp] theorem State.taken_sbus (s : State) (r : Req) (x : Session) : (s.taken r x).sbus = s.sbus := s.heardAt_sbus r
@[simp] theorem State.taken_remSwaps (s : State) (r : Req) (x : Session) : (s.taken r x).remSwaps = s.remSwaps := s.heardAt_remSwaps r
@[simp] theorem State.taken_rtc (s : State) (r : Req) (x : Session) : (s.taken r x).rtc = s.rtc := s.heardAt_rtc r
@[simp] theorem State.taken_keys (s : State) (r : Req) (x : Session) : (s.taken r x).keys = s.keys := s.heardAt_keys r
@[simp] theorem State.taken_nvmc (s : State) (r : Req) (x : Session) : (s.taken r x).nvmc = s.nvmc := s.heardAt_nvmc r
@[simp] theorem State.taken_nv (s : State) (r : Req) (x : Session) : (s.taken r x).nv = s.nv := s.heardAt_nv r
@[simp] theorem State.taken_mem (s : State) (r : Req) (x : Session) : (s.taken r x).mem = s.mem := s.heardAt_mem r
@[simp] theorem State.taken_out (s : State) (r : Req) (x : Session) : (s.taken r x).out = [] := s.heardAt_out r
@[simp] theorem State.taken_now (s : State) (r : Req) (x : Session) : (s.taken r x).now = s.now + r.dt.cclk := s.heardAt_now r
@[simp] theorem State.taken_bk (s : State) (r : Req) (x : Session) : (s.taken r x).bk = s.bk.tick r.dt.rtc := s.heardAt_bk r
@[simp] theorem State.taken_jnc (s : State) (r : Req) (x : Session) : (s.taken r x).jnc = s.jnc.settled s.tb.lastEdge (s.now + r.dt.cclk) := s.heardAt_jnc r

@[simp] theorem State.taken_netInForce (s : State) (r : Req) (x : Session) : (s.taken r x).vxc.netInForce = s.vxc.netInForce :=
  (congrArg Vxc.netInForce (s.heardAt_vxc r) :)
@[simp] theorem State.taken_slot (s : State) (r : Req) (x : Session) (n : Nat) : (s.taken r x).slot n = s.slot n := by simp [State.slot]

/-! ## Free values drawn (log entry 3) -/

/-- `u` is `t` after values were drawn. -/
def Drawn (t u : State) : Prop := { u with fresh := t.fresh } = t

theorem Drawn.refl (t : State) : Drawn t t := rfl
theorem Drawn.trans {t u v : State} (h : Drawn t u) (k : Drawn u v) : Drawn t v := by
  unfold Drawn at *
  rw [← h, ← k]
theorem Drawn.eq {t u : State} (h : Drawn t u) : { u with fresh := t.fresh } = t := h
theorem Drawn.net {t u : State} (h : Drawn t u) : u.net = t.net := (congrArg State.net h.eq :)
theorem Drawn.nv {t u : State} (h : Drawn t u) : u.nv = t.nv := (congrArg State.nv h.eq :)
theorem draw_drawn (t : State) (m : Nat) : Drawn t (t.draw m).2 := rfl

/-! ## The checks of a command's own rules, one by one -/

@[simp] theorem checked_nil (k : Ans) : checked [] k = k := rfl
@[simp] theorem checked_cons (b : Bool) (st : Status) (cs : List (Bool × Status)) (k : Ans) :
    checked ((b, st) :: cs) k = if b then .no st 0 else checked cs k := by
  cases b <;> simp [checked]

end Sys2Proof.Machine
end

