-- ==== Sys2Proof/Proofs/Sessions.lean ====
section
/-!
PROOFS. SYS and sessions (10 R337-R347, 11 R359, R360).
-/
namespace Sys2Proof.Machine
open Sys2Proof

/-! ## How sessions end (10 R340) -/

theorem endSession_sessions (s : State) (i : Nat) (why : EndCause) :
    (s.endSession i why).vxc.sessions = s.vxc.sessions.filter (fun y => y.id != i) := by
  unfold State.endSession
  split
  next h =>
    refine (List.filter_eq_self.mpr fun y hy => ?_).symm
    simpa using List.find?_eq_none.mp h y hy
  next =>
    simp only
    split
    · rfl
    · simp only [State.raiseGen, State.raiseFw, raise_vxc]

theorem foldl_endSession_sessions (l : List Nat) (why : EndCause) (s : State) :
    (l.foldl (fun u i => u.endSession i why) s).vxc.sessions = s.vxc.sessions.filter (fun y => decide (y.id ∉ l)) := by
  induction l generalizing s with
  | nil => simp
  | cons i l ih =>
    rw [List.foldl_cons, ih, endSession_sessions, List.filter_filter]
    congr 1; funext y
    by_cases h : y.id = i <;> simp [h]

theorem endAll_sessions (s : State) (why : EndCause) : (s.endAll why).vxc.sessions = [] := by
  unfold State.endAll
  rw [foldl_endSession_sessions, List.filter_eq_nil_iff]
  intro y hy
  simpa using ⟨y, hy, rfl⟩

/-! ## Life cycle (14 R451-R453) -/

/-- What the destruction of the keys leaves (14 R453): the root slot's cell. -/
@[simp] theorem Nv.destroyKeys_slots (n : Nv) : n.destroyKeys.slots = tset {} [] 0 (tget {} n.slots 0) := by
  simp [Nv.destroyKeys, Nv.slots]

theorem lifecycle_nv (t : State) (new : Nat) : (t.lifecycle new).nv = { t.nv.destroyKeys with
    lcs := new, wipeFrom := t.nv.lcs, otpLeft := t.nv.otpLeft - 1, wipeDue := true, rootOff := new == 3 || t.nv.rootOff } := by
  simp only [State.lifecycle, (endAll_said t .restart).nv]

theorem lifecycle_slots (t : State) (new : Nat) : (t.lifecycle new).nv.slots = tset {} [] 0 (tget {} t.nv.slots 0) := by
  rw [lifecycle_nv]; exact Nv.destroyKeys_slots _

theorem lifecycle_plain (t : State) (new : Nat) : (t.lifecycle new).keys.plain = tset 0 [] 0 (tget 0 t.keys.plain 0) := by
  simp only [State.lifecycle, (endAll_said t .restart).keys]

@[simp] theorem twf_nil {α : Type} [DecidableEq α] (d : α) : twf d ([] : Tbl α) = true := rfl

theorem lifecycle_slot_ne (t : State) (new : Nat) {n : Nat} (h : n ≠ 0) : (t.lifecycle new).slot n = {} := by
  simp only [State.slot, lifecycle_slots, lifecycle_plain, tget_tset_ne _ (twf_nil _) h]
  rfl

theorem lifecycle_slot_zero (t : State) (new : Nat) : (t.lifecycle new).slot 0 = t.slot 0 := by
  simp only [State.slot, lifecycle_slots, lifecycle_plain, tget_tset_same _ _ (twf_nil _)]

/-- Settles O16: the keys go with the copies of the key area and the plain keys, the sessions with `endAll`. -/
theorem lifeCycleChangeDestroysKeys : Obligations.LifeCycleChangeDestroysKeys := by
  intro s r x new hs t
  have hu := respond_said t x.id ⟨r.seq, 0x010B, .ok, []⟩
  refine ⟨fun hok => ⟨_, ?_, rfl, endAll_sessions .., rfl, ?_, rfl, rfl, fun n => lifecycle_slot_ne _ new, ?_⟩, fun chk hno => ?_⟩
  · simp only [exec, execSysLifecycle]
    exact hostCmd_okThen (fin := fun t' => t'.lifecycle new) hs (by simp [hok, t])
  · rw [lifecycle_nv, hu.nv]
    simp [t]
  · rw [lifecycle_slot_zero]
    simp only [State.slot, hu.nv, hu.keys]
    simp [t]
  · simp only [exec, execSysLifecycle]
    exact hostCmd_refused hs (by simp [hno]) (by simp)

/-! ## SYS (11 R359, R360) -/

/-- The session whose SEQ is taken, as the command's own rules find it. -/
theorem taken_session {s : State} {r : Req} {x : Session} (h : InSession s r x) :
    (s.taken r x).session x.id = some ((x.heard r (s.now + r.dt.cclk)).accept r.seq) := by
  obtain ⟨-, hx, -⟩ := h
  have hi := session_id hx
  have h0 : (s.heardAt r).session x.id = some x := by rw [heardAt_session, hi, hx]
  have h1 := session_onSession (g := fun y => y.heard r (s.heardAt r).now) h0 (fun _ => rfl)
  have h2 := session_onSession (g := fun y => y.accept r.seq) h1 (fun y => by unfold Session.accept; split <;> rfl)
  simpa only [State.taken, State.heardAt_now] using h2

theorem accept_ring (x : Session) (q : Nat) : (x.accept q).ring = x.ring ∧ (x.accept q).nseq = x.nseq ∧ (x.accept q).lost = x.lost := by
  unfold Session.accept; split <;> exact ⟨rfl, rfl, rfl⟩

/-- Settles O15. -/
theorem sysCommandsTakeEffect : Obligations.SysCommandsTakeEffect := by
  constructor
  · intro s r x hs t
    refine ⟨?_, ?_, fun first count hf => ⟨_, rfl, ?_⟩, ?_, ?_⟩
    · simp only [exec, execSysIdentify, if_neg (heard_not_bootStuck hs.1.1)]
      exact hostCmd_ok hs rfl
    · simp only [exec, execSysStatus]
      exact hostCmd_ok hs rfl
    · obtain ⟨hr, hn, hl⟩ := accept_ring (x.heard r (s.now + r.dt.cclk)) r.seq
      simp only [exec, execSysNotifyRead]
      refine hostCmd_ok hs ?_
      simp only [Session.who, taken_session hs.2.1, hr, hn, hl]
      simp [Session.heard, Nat.not_le.mpr (Nat.lt_succ_of_le hf), t]
    · simp only [exec, execSysSessions]
      exact hostCmd_ok hs rfl
    · simp only [exec, execSysNetRead]
      exact hostCmd_ok hs (by simp [t])
  · intro s r x t
    refine ⟨fun classes sev hs hsev => ?_, fun ip mask gw vlan hs hv => ?_, fun cmd hs => ?_⟩
    · simp only [exec, execSysSubscribe]
      exact hostCmd_ok hs (by simp [hsev, t, Session.who])
    · simp only [exec, execSysNetSet]
      exact hostCmd_ok hs (by simp [hv, t])
    · simp only [exec, execUnlistedCmdRequest]
      exact hostCmd_refused hs rfl (by simp)

/-! ## Opening a session (10 R337-R340) -/

/-- Of five numbers in a row, one names no session where there are four at most. -/
theorem newId_free {s : State} (v : Nat) (h : s.vxc.sessions.length < 5) : s.session (s.newId v) = none ∧ s.newId v ≠ 0 := by
  have hpos {i : Nat} (hi : i ∈ (rangeFrom 0 5).map (fun k => 1 + (v + k) % 4294967295)) : i ≠ 0 := by
    obtain ⟨k, -, rfl⟩ := List.mem_map.mp hi
    omega
  unfold State.newId
  cases hf : ((rangeFrom 0 5).map (fun k => 1 + (v + k) % 4294967295)).find? (fun i => (s.session i).isNone) with
  | some i => exact ⟨by simpa using List.find?_some hf, hpos (List.mem_of_find?_eq_some hf)⟩
  | none =>
    have hsub : (rangeFrom 0 5).map (fun k => 1 + (v + k) % 4294967295) ⊆ s.vxc.sessions.map Session.id := by
      intro i hi
      have hs : (s.session i).isSome = true := by
        simpa [Option.isSome_iff_ne_none] using List.find?_eq_none.mp hf i hi
      obtain ⟨x, hx⟩ := Option.isSome_iff_exists.mp hs
      exact List.mem_map.mpr ⟨x, List.mem_of_find?_eq_some hx, session_id hx⟩
    have hnodup : ((rangeFrom 0 5).map (fun k => 1 + (v + k) % 4294967295)).Nodup := by
      simp only [rangeFrom, List.map_cons, List.map_nil, List.nodup_cons, List.mem_cons, List.not_mem_nil, or_false, not_false_eq_true,
        List.nodup_nil, and_true]
      omega
    have hlen := (List.subperm_of_subset hnodup hsub).length_le
    simp [rangeFrom] at hlen
    omega

@[simp] theorem State.heardAt_slot (s : State) (r : Req) (n : Nat) : (s.heardAt r).slot n = s.slot n := by simp [State.slot]

/-- A request for a session that passes every rule before it (10 R337-R340). -/
theorem exec_sysSessionOpen {s : State} {r : Req} {priv certPriv : BitVec 16} {nh epk serial certSig notBefore notAfter : Nat} {cert : HostCert}
    (hh : Heard s r) (hs : r.ses = 0) (hn : noTag r = true) (hp : 4 ≤ s.pow.phase.rank)
    (hauth : (s.heardAt r).authFails r.usb serial cert certSig notBefore notAfter = false) (hl : r.lenOk = true) (hlen : s.vxc.sessions.length < 4) :
    exec (.sysSessionOpen r priv certPriv nh epk serial cert certSig notBefore notAfter) s =
      .next ((s.heardAt r).halfOpen r ((s.heardAt r).grant priv certPriv) serial nh epk cert.pub) := by
  obtain ⟨hd, ha, hm⟩ := hh
  have hv := s.heardAt_vxc r
  have hw := s.heardAt_pow r
  simp only [State.heardAt] at hauth hv hw
  simp [exec, execSysSessionOpen, hd, ha, hm, hs, hn, hl, hauth, hv, hw, State.heardAt, Nat.not_lt.mpr hp, Nat.not_le.mpr hlen]

/-- Settles O13: the session's numbers are the four that are drawn. -/
theorem sessionOpenHoldsAHalfOpenSession : Obligations.SessionOpenHoldsAHalfOpenSession := by
  intro s r priv certPriv nh epk serial cert certSig notBefore notAfter t hh hs hn hp hauth hl hlen
  have hv : t.vxc = s.vxc := s.heardAt_vxc r
  have hid (v : Nat) : s.session (t.newId v) = none ∧ t.newId v ≠ 0 := by
    have h := newId_free (s := t) v (by rw [hv]; omega)
    exact ⟨(heardAt_session s r _).symm.trans h.1, h.2⟩
  have hd (v : Nat) : 1 ≤ v % (p256n - 1) + 1 ∧ v % (p256n - 1) + 1 < p256n := by
    have := Nat.mod_lt v (show 0 < p256n - 1 by decide)
    omega
  rw [exec_sysSessionOpen hh hs hn hp hauth hl hlen, ← hv, ← s.heardAt_slot r]
  exact ⟨_, _, _, _, _, rfl, (hid _).1, (hid _).2, (hd _).1, (hd _).2, (hd _).1, (hd _).2, Nat.mod_lt _ (by decide)⟩

/-! ## The life of a session (10 R340, R347) -/

/-- The gate for the message that confirms a session (10 R337). -/
theorem gate_confirm {s : State} {r : Req} {x : Session} (hh : Heard s r) (hi : InSession s r x) :
    (s.tick r.dt).gate r true = .accept (s.taken r x) x := by
  obtain ⟨hd, ha, hm⟩ := hh
  obtain ⟨hs, hx, hu, hip, ht, hn, hq⟩ := hi
  have hx' := heardAt_session s r r.ses
  simp only [State.heardAt, hx] at hx'
  have hsrc : (x.usb != r.usb || (!r.usb && r.ip != x.ip)) = false := by rcases hip with h | h <;> simp [hu, h]
  simp only [State.gate, hd, ha, hm, hs, hx', hsrc, ht, hn, hq, State.taken, State.heardAt, Bool.not_true, Bool.and_false, Bool.or_false,
    Bool.false_eq_true, if_false]

/-- Settles O14. -/
theorem sessionsOpenLiveAndEnd : Obligations.SessionsOpenLiveAndEnd := by
  refine ⟨fun s r x dt => ⟨fun hs => ?_, fun sig hh hi ho hout hnow hsig hl => ?_, fun hx ho hnow => ?_, fun hx ho hnow => ?_, rfl⟩,
    fun s id why x hx => ⟨?_, fun ho => ?_, fun ho => ?_⟩, fun s dt x hx ht hnow => ⟨fun hw => ?_, fun k rest n hw hn => ?_⟩⟩
  · simp only [exec, execSysSessionClose]
    exact hostCmd_okThen (fin := fun t' => t'.endSession x.id .close) hs rfl
  · have hx : (s.tick r.dt).session r.ses = some x := hi.2.1
    have hun : x.unconfirmed (s.now + r.dt.cclk) = false := by
      simpa [Session.unconfirmed, ho] using hnow
    simp [exec, execSysSessionConfirm, hx, hun, gate_confirm hh hi, ho, hsig, hl, Nat.not_le.mpr hout]
  · have hx' : (s.tick dt).session x.id = some x := hx
    simp [exec, execSessionConfirmTimeout, hx', Session.unconfirmed, ho, hnow, State.dropSession]
  · have hx' : (s.tick dt).session x.id = some x := hx
    simp [exec, execSessionIdleTimeout, hx', ho, Nat.not_lt.mpr hnow]
  · refine List.find?_eq_none.mpr fun y hy => ?_
    rw [endSession_sessions] at hy
    simpa using (List.mem_filter.mp hy).2
  · simp [State.endSession, hx, ho]
  · simp [State.endSession, hx, ho]
  · have hx' : (s.tick dt).session x.id = some x := hx
    simp [exec, execNotificationRelease, hx', hw, Nat.ne_of_lt ht, Nat.not_lt.mpr hnow]
  · have hx' : (s.tick dt).session x.id = some x := hx
    simp [exec, execNotificationRelease, hx', hw, hn, Nat.ne_of_lt ht, Nat.not_lt.mpr hnow]

end Sys2Proof.Machine
end

