-- ==== Sys2Proof/Proofs/TimeAndRtc.lean ====
section
/-!
PROOFS. TIME and the RTC (11 R361; 12 R394; 13).
-/
namespace Sys2Proof.Machine
open Sys2Proof

/-! ## TIME (11 R361) -/

theorem rangeFrom_eq_range' (a n : Nat) : rangeFrom a n = List.range' a n := by
  induction n generalizing a with
  | zero => rfl
  | succ n ih => rw [rangeFrom, ih, List.range'_succ]

theorem mem_rangeFrom {a n k : Nat} : k ∈ rangeFrom a n ↔ a ≤ k ∧ k < a + n := by
  rw [rangeFrom_eq_range', List.mem_range'_1]

@[simp] theorem length_rangeFrom (a n : Nat) : (rangeFrom a n).length = n := by
  rw [rangeFrom_eq_range', List.length_range']

theorem length_filterMap_of_isSome {α β : Type} {f : α → Option β} {l : List α} (h : ∀ x ∈ l, (f x).isSome) : (l.filterMap f).length = l.length := by
  induction l with
  | nil => rfl
  | cons x l ih =>
    obtain ⟨y, hy⟩ := Option.isSome_iff_exists.mp (h x (List.mem_cons_self ..))
    rw [List.filterMap_cons_some hy, List.length_cons, List.length_cons, ih fun z hz => h z (List.mem_cons_of_mem _ hz)]

theorem domainOffset_drawn (t : State) (a b : Nat) : Drawn t (t.domainOffset a b).2 := by
  unfold State.domainOffset; split
  · exact .refl t
  · exact draw_drawn ..

/-- PTP_SET's settings, and the sources' entries of the domains that stay (12 R394). -/
def State.withPtp (t : State) (new : PtpCfg) : State :=
  (t.onNv (fun v => { v with ptp := new })).onNet (fun x => { x with
    srcs := [0, 1, 2, 3].foldl (fun l n => match t.nv.ptp.moved new n with | some m => tset {} l m (tget {} t.net.srcs n) | none => l) [] })

/-- The state after PTP_SET: the source in use stays where its domain is still tracked, else the clock runs free (12 R394). -/
def State.ptpSet (t : State) (new : PtpCfg) : State :=
  match t.net.src with
  | none => t.withPtp new
  | some k => match t.nv.ptp.moved new k with
    | some m => (t.withPtp new).onNet (fun x => { x with src := some m, ptpSrc := if m < 2 then 1 else 2 })
    | none => (t.withPtp new).freeRun

theorem ptpSet_nv (t : State) (new : PtpCfg) : (t.ptpSet new).nv = { t.nv with ptp := new } := by
  unfold State.ptpSet
  split
  · rfl
  · split <;> rfl

theorem withPtp_keeps (t : State) (new : PtpCfg) :
    { t.withPtp new with nv := t.nv, net := { (t.withPtp new).net with srcs := t.net.srcs } } = t := by
  unfold State.withPtp
  generalize List.foldl _ _ _ = l
  rfl

theorem ptpSet_of_none {t : State} {new : PtpCfg} (h : t.net.src = none) :
    { t.ptpSet new with nv := t.nv, net := { (t.ptpSet new).net with srcs := t.net.srcs } } = t := by
  have e : t.ptpSet new = t.withPtp new := by simp only [State.ptpSet, h]
  rw [e]
  exact withPtp_keeps t new

theorem ptpSet_of_moved {t : State} {new : PtpCfg} {k m : Nat} (h : t.net.src = some k) (hm : t.nv.ptp.moved new k = some m) :
    (t.ptpSet new).net.src = some m ∧
      { t.ptpSet new with nv := t.nv, net := { (t.ptpSet new).net with srcs := t.net.srcs, src := t.net.src, ptpSrc := t.net.ptpSrc } } = t := by
  have e : t.ptpSet new = (t.withPtp new).onNet (fun x => { x with src := some m, ptpSrc := if m < 2 then 1 else 2 }) := by
    simp only [State.ptpSet, h, hm]
  rw [e]
  refine ⟨rfl, ?_⟩
  simp only [State.withPtp, State.onNet, State.onNv]

theorem ptpSet_of_dropped {t : State} {new : PtpCfg} {k : Nat} (h : t.net.src = some k) (hm : t.nv.ptp.moved new k = none) :
    (t.ptpSet new).net.src = none ∧ (t.ptpSet new).net.ptpSrc = 3 := by
  have e : t.ptpSet new = (t.withPtp new).freeRun := by simp only [State.ptpSet, h, hm]
  rw [e]
  exact ⟨rfl, rfl⟩

theorem execTimePtpSet_eq (r : Req) (p q a b f : Nat) (s : State) : execTimePtpSet r p q a b f s =
    hostCmd { cmd := 0x0207, need := .configure } r (fun _ t =>
      checked [(decide (239 < p ∨ (239 < q ∧ q ≠ 255) ∨ p = q ∨ 1 < a ∨ 1 < b ∨ 1 < f), .range)] (.ok [] (t.ptpSet ⟨p, q, a, b, f⟩))) s := rfl

/-- Settles O17. -/
theorem timeCommandsTakeEffect : Obligations.TimeCommandsTakeEffect := by
  intro s r x t
  refine ⟨fun hs => ?_, fun hcn count hs h1 h42 hst => ?_, fun sel vset hs hsel => ?_, fun hs => ?_,
    fun p q a b f hs hp hq hpq ha hb hf => ?_, fun hs => ?_⟩
  · simp only [exec, execTimeTbStatus]
    exact hostCmd_ok hs rfl
  · have hlen : ((rangeFrom hcn count).filterMap t.stampOf).length = count := by
      rw [length_filterMap_of_isSome fun k hk => hst k (mem_rangeFrom.mp hk).1 (mem_rangeFrom.mp hk).2, length_rangeFrom]
    simp only [exec, execTimeStampRead]
    exact hostCmd_ok hs (checked_pass (by simp [t, hlen] ; omega))
  · simp only [exec, execTimeTbSet]
    exact hostCmd_ok hs (by simp [hsel, t])
  · simp only [exec, execTimeRtcRead]
    exact hostCmd_ok hs (by simp [t])
  · simp only [exec, execTimePtpSet_eq]
    have hin : decide (239 < p ∨ (239 < q ∧ q ≠ 255) ∨ p = q ∨ 1 < a ∨ 1 < b ∨ 1 < f) = false := by simp; omega
    exact ⟨t.ptpSet ⟨p, q, a, b, f⟩, hostCmd_ok hs (by rw [hin]; rfl), by rw [ptpSet_nv, s.taken_nv], fun h => ptpSet_of_none h,
      fun k m h hm => ptpSet_of_moved h (by rw [s.taken_nv, hm]), fun k h hm => ptpSet_of_dropped h (by rw [s.taken_nv, hm])⟩
  · simp only [exec, execTimePtpRead]
    have hu := (domainOffset_drawn t 0 1).trans (domainOffset_drawn (t.domainOffset 0 1).2 2 3)
    exact ⟨_, (t.domainOffset 0 1).1, ((t.domainOffset 0 1).2.domainOffset 2 3).1, hostCmd_ok hs (by simp only [← hu.net, t, s.taken_nv]), hu⟩

/-! ## The host sets and steps the clock (13 R416, R418) -/

theorem monthDays_le (y mo : Nat) : monthDays y mo ≤ 31 := by
  unfold monthDays
  split
  case h_2 => split <;> decide
  all_goals decide

/-- A set that passes every check crosses into the backup domain, and the buffer is empty (13 R416). -/
theorem rtcSet_of_setCause {t : State} {sec mi h d mo y : Nat} (hc : t.setCause sec = 0) (hmi : t.rtc.wrMin = some mi) (hh : t.rtc.wrHour = some h)
    (hd : t.rtc.wrDay = some d) (hmo : t.rtc.wrMonth = some mo) (hy : t.rtc.wrYear = some y) :
    t.rtcSet sec = { t with rtc := t.rtc.clearBuf, bk := { t.bk with crossing := some (secsOf y mo d h mi sec) } } := by
  simp [State.rtcSet, hc, hmi, hh, hd, hmo, hy]

/-- RTC_SET's fields in the write buffer (11 R361). -/
def State.loaded (t : State) (mi h d mo y : Nat) : State :=
  { t with rtc := { t.rtc with wrMin := some mi, wrHour := some h, wrDay := some d, wrMonth := some mo, wrYear := some y } }

theorem execTimeRtcSet_eq (r : Req) (y mo d h mi sec dst : Nat) (s : State) : execTimeRtcSet r y mo d h mi sec dst s =
    hostCmd { cmd := 0x0205, need := .configure } r (fun _ t =>
      checked [(decide (y < 2000 ∨ 2199 < y ∨ 1 < dst ∨ (dst = 1 ∧ t.nv.site.dstEn = false)), .range)]
        (if (t.loaded mi h d mo (y - 2000)).setCause sec ≠ 0 then .ended .range [(0, 4)] ((t.loaded mi h d mo (y - 2000)).rtcSet sec)
         else .ok [] (((t.loaded mi h d mo (y - 2000)).rtcSet sec).onNv (fun v => { v with dstActive := dst == 1, dstStep := none })))) s := rfl

theorem loaded_setCause {t : State} {mi h d mo y sec : Nat} (hy : y ≤ 199) (hmo : 1 ≤ mo) (hmo' : mo ≤ 12) (hd : 1 ≤ d) (hd' : d ≤ monthDays y mo)
    (hh : h ≤ 23) (hmi : mi ≤ 59) (hsec : sec ≤ 59) (hlock : t.rtc.lockout = false) (hcross : t.bk.crossing = none) :
    (t.loaded mi h d mo y).setCause sec = 0 := by
  have hm31 := monthDays_le y mo
  simp [State.setCause, State.loaded, hlock, hcross, Nat.not_lt.mpr hd']
  omega

/-- Settles O18. -/
theorem hostSetsAndStepsTheClock : Obligations.HostSetsAndStepsTheClock := by
  intro s r x hs t
  refine ⟨fun y mo d h mi sec dst hy hy' hmo hmo' hd hd' hh hmi hsec hdst hlock hcross => ?_, fun dir hdir hen hcause => ?_⟩
  · have hbad : decide (y < 2000 ∨ 2199 < y ∨ 1 < dst ∨ (dst = 1 ∧ t.nv.site.dstEn = false)) = false := by
      rcases hdst with h | ⟨h, h'⟩
      · simp [h]; omega
      · simp [h, h', t]; omega
    have hcause : (t.loaded mi h d mo (y - 2000)).setCause sec = 0 :=
      loaded_setCause (by omega) hmo hmo' hd hd' hh hmi hsec (by simp [t, hlock]) (by simp [t, hcross])
    simp only [exec, execTimeRtcSet_eq]
    refine ⟨_, hostCmd_ok hs (by rw [hbad, hcause]; rfl), ?_⟩
    rw [rtcSet_of_setCause hcause rfl rfl rfl rfl rfl, ← show t.nv = s.nv from s.taken_nv r x]
    clear_value t
    exact ⟨rfl, rfl, rfl, rfl⟩
  · simp only [exec, execTimeRtcStep]
    exact hostCmd_ok hs (by simp [t, hen, hdir, hcause, State.rtcStep])

/-! ## Sets (13 R416, R417) -/

/-- A module whose M-region alone runs. -/
def clockOnly : State := { State.reset with
  pow := { State.reset.pow with phase := .complete }
  jnc := { State.reset.jnc with regions := State.reset.jnc.regions.set .d { State.reset.jnc.regions.d with st := .load } } }

/-- Refutes O20: an offset beyond RTCIF's window of 64 KiB names another block, and one in a region that does not run answers with a bus error. -/
theorem not_setsAreValidatedAndApplied : ¬ Obligations.SetsAreValidatedAndApplied := by
  intro h
  have hw := (h.1 clockOnly {} .mem (by decide) (by decide) (by decide)).1 0xE90000 0
  have hout : exec (.rtcFieldWrite {} .mem 0xE90000 0) clockOnly = .next ((clockOnly.tick {}).busErr .mem (wRtcif + 0xE90000) true) := by
    simp only [exec, execRtcFieldWrite, State.rtcAccess, State.access, show (clockOnly.tick {}).reachable (wRtcif + 0xE90000) = false by decide,
      show ((clockOnly.tick {}).rtc.isolated || (clockOnly.tick {}).bk.onVbat) = false by decide, Bool.false_eq_true, if_false]
  have hsame := Host.Outcome.next.inj (hout.symm.trans hw)
  have herr : ((clockOnly.tick {}).busErr .mem (wRtcif + 0xE90000) true).out = [.busError (wRtcif + 0xE90000)] := by
    unfold State.busErr State.raiseHw
    rw [raise_out]
    rfl
  rw [hsame] at herr
  exact absurd herr (by simp [clockOnly])

/-! ## Steps and the backup domain (13 R418-R427) -/

theorem stepCause_of_lockout {t : State} {f b : Bool} (h : t.rtc.lockout = true) : t.stepCause f b = 7 := by
  simp [State.stepCause, h]

theorem stepCause_of_waiting {t : State} {f b : Bool} (h : t.rtc.lockout = false) (hw : t.bk.step.isSome = true ∨ t.bk.crossing.isSome = true) :
    t.stepCause f b = 6 := by
  have hw' : (t.bk.step.isSome || t.bk.crossing.isSome) = true := by simpa using hw
  simp [State.stepCause, h, hw']

theorem rtcStep_of_stepCause {t : State} {f b : Bool} (h : t.stepCause f b = 0) : t.rtcStep f b = { t with bk := { t.bk with step := some f } } := by
  simp only [State.rtcStep, h]

theorem rtcStep_of_refused {t : State} {f b : Bool} (h : t.stepCause f b ≠ 0) : t.rtcStep f b = t.rtcReject (t.stepCause f b) := by
  unfold State.rtcStep
  split
  next h0 => exact absurd h0 h
  next => rfl

theorem exec_stepFwd {s : State} (dt : Dt) (m : Master) (b : Bool) (hiso : s.rtc.isolated = false) (hvbat : s.bk.onVbat = false)
    (hrun : s.runs .m = true) : exec (.stepFwd dt m b) s = .next ((s.tick dt).rtcStep true b) :=
  congrArg Host.Outcome.next (State.rtcAccess_tick_of_answers dt m _ _ hiso hvbat hrun (by decide))

theorem exec_stepBack {s : State} (dt : Dt) (m : Master) (b : Bool) (hiso : s.rtc.isolated = false) (hvbat : s.bk.onVbat = false)
    (hrun : s.runs .m = true) : exec (.stepBack dt m b) s = .next ((s.tick dt).rtcStep false b) :=
  congrArg Host.Outcome.next (State.rtcAccess_tick_of_answers dt m _ _ hiso hvbat hrun (by decide))

/-- A step that waits is applied at the last RTC cycle of a second (13 R419). -/
theorem exec_rtcStepApply {s : State} {dt : Dt} {fwd : Bool} (h : s.bk.step = some fwd) (hsub : (s.tick dt).bk.sub = 32767) :
    ∃ u : State, exec (.rtcStepApply dt) s = .next u ∧
      u.bk = { (s.tick dt).bk with
        sub := 0, secs := if fwd then (s.tick dt).bk.secs + 3601 else (s.tick dt).bk.secs + 1 - 3600, step := none } ∧
      u.tb.rtcStep = true ∧ u.sched.ownStep = none ∧ u.nv.dstActive = s.sched.ownStep.getD s.nv.dstActive := by
  have hs : (s.tick dt).bk.step = some fwd := by rw [State.tick_bk, Backup.tick_step, h]
  simp only [exec, execRtcStepApply, hs, hsub, ne_eq, not_true_eq_false, if_false]
  refine ⟨_, rfl, rfl, rfl, rfl, ?_⟩
  simp only [State.tick_sched]
  cases s.sched.ownStep <;> rfl

/-- Where summer time starts or ends the module requests the step itself (06 R200). -/
theorem exec_dstStepIssue {s : State} {dt : Dt} {fwd : Bool} (hrun : s.runs .m = true) (hen : s.nv.site.dstEn = true)
    (hval : (s.tick dt).bk.valid = true) (hdst : s.nv.dstActive = !fwd)
    (hrule : (s.tick dt).bk.secs + 1 =
      ruleSecs (if fwd then s.nv.site.dstStart else s.nv.site.dstEnd) (yearOf (((s.tick dt).bk.secs + 1) / 86400)))
    (hc : (s.tick dt).stepCause fwd false = 0) :
    exec (.dstStepIssue dt) s = .next { s.tick dt with
      bk := { (s.tick dt).bk with step := some fwd }, sched := { (s.tick dt).sched with ownStep := some fwd } } := by
  have hstep := rtcStep_of_stepCause hc
  cases fwd with
  | true =>
    simp only [if_true] at hrule
    simp only [exec, execDstStepIssue, State.tick_runs, State.tick_nv, hrun, hen, hval, hdst, ← hrule, hc, hstep, Bool.not_true, Bool.not_false,
      beq_self_eq_true, Bool.and_self, Bool.true_or, if_true]
  | false =>
    simp only [Bool.false_eq_true, if_false] at hrule
    simp only [exec, execDstStepIssue, State.tick_runs, State.tick_nv, hrun, hen, hval, hdst, ← hrule, hc, hstep, Bool.not_true, Bool.not_false,
      beq_self_eq_true, Bool.and_self, Bool.false_and, Bool.false_or, if_true]

/-- Settles O21. -/
theorem clockStepsAndBackupDomainEvents : Obligations.ClockStepsAndBackupDomainEvents := by
  refine ⟨fun s dt m => ?_, fun s dt fwd => exec_dstStepIssue, fun s dt m => ?_⟩
  · intro t
    refine ⟨fun hiso hvbat hrun => ⟨fun h => ?_, fun h => ?_, fun b h => ?_, fun b h => ?_⟩, fun hl f b => stepCause_of_lockout hl,
      fun hl hw f b => stepCause_of_waiting hl (by simpa [t] using hw), fun hl hs hc f => ?_, fun fwd => exec_rtcStepApply⟩
    · rw [exec_stepFwd dt m false hiso hvbat hrun, rtcStep_of_stepCause h]
    · rw [exec_stepBack dt m false hiso hvbat hrun, rtcStep_of_stepCause h]
    · rw [exec_stepFwd dt m b hiso hvbat hrun, rtcStep_of_refused h]
    · rw [exec_stepBack dt m b hiso hvbat hrun, rtcStep_of_refused h]
    · simp [State.stepCause, t, hl, hs, hc]
  · intro t
    refine ⟨?_, fun hheld => ?_, rfl, rfl, fun n hn hiso hvbat hrun => ?_⟩
    · simp only [exec, execRtcValidLoss, State.tick_bk, Backup.tick_onVbat, t]
    · simp [t, Backup.tick, hheld]
    · rw [exec_tlogAck dt m hiso hvbat hrun hn]
      simp [t]

end Sys2Proof.Machine
end

