-- ==== Sys2Proof/Proofs/MeterRecords.lean ====
section
/-!
PROOFS. The records of the meter (07 R223-R239).
-/
namespace Sys2Proof.Machine
open Sys2Proof

/-! ## The word of a record -/

theorem recHcn_recWord {hcn flags dur freq : Nat} {a b c : Ph} (h : hcn < 2 ^ 48) : recHcn (recWord hcn flags dur freq a b c) = hcn := by
  simp only [recHcn, recWord, fld, pack, BitVec.toNat_ofNat, Nat.shiftLeft_eq, Nat.shiftRight_eq_div_pow]
  generalize c.word % 2 ^ 160 = x
  generalize b.word % 2 ^ 160 = y
  generalize a.word % 2 ^ 160 = z
  omega

theorem recDur_recWord {hcn flags dur freq : Nat} {a b c : Ph} (h : dur < 2 ^ 32) : recDur (recWord hcn flags dur freq a b c) = dur := by
  simp only [recDur, recWord, fld, pack, BitVec.toNat_ofNat, Nat.shiftLeft_eq, Nat.shiftRight_eq_div_pow]
  generalize c.word % 2 ^ 160 = x
  generalize b.word % 2 ^ 160 = y
  generalize a.word % 2 ^ 160 = z
  omega

/-! ## Tables -/

/-- A value other than the default is read back, whatever the table's form. -/
theorem tget_tset_of_ne {α : Type} [DecidableEq α] {d x : α} {t : Tbl α} {i : Nat} (h : x ≠ d) : tget d (tset d t i x) i = x := by
  rw [tset, if_neg h]; exact tget_tput_same ..

/-! ## What the recording of an interval leaves -/

/-- `u` has of `s` the records with their ends, the time base, the engine, the feeders, the nodes and the sign. -/
structure Recorded (s u : State) : Prop where
  records : u.meter.records = s.meter.records
  next : u.meter.next = s.meter.next
  ended : u.meter.ended = s.meter.ended
  tb : u.tb = s.tb
  sil : u.sil = s.sil
  fdr : u.fdr = s.fdr
  nodes : u.nodes = s.nodes
  sign : u.sign = s.sign

namespace Recorded

theorem refl (s : State) : Recorded s s := ⟨rfl, rfl, rfl, rfl, rfl, rfl, rfl, rfl⟩

theorem trans {s t u : State} (h : Recorded s t) (k : Recorded t u) : Recorded s u :=
  ⟨k.records.trans h.records, k.next.trans h.next, k.ended.trans h.ended, k.tb.trans h.tb, k.sil.trans h.sil, k.fdr.trans h.fdr,
    k.nodes.trans h.nodes, k.sign.trans h.sign⟩

theorem said {s t u : State} (h : Recorded s t) (k : Said t u) : Recorded s u :=
  h.trans ⟨by rw [k.meter], by rw [k.meter], by rw [k.meter], k.tb, k.sil, k.fdr, k.nodes, k.sign⟩

theorem ite {s a b : State} {p : Prop} [Decidable p] (h : Recorded s a) (k : Recorded s b) : Recorded s (if p then a else b) := by
  split
  · exact h
  · exact k

theorem foldl {α : Type} {g : State → α → State} (hg : ∀ t x, Recorded t (g t x)) (l : List α) {s t : State} (h : Recorded s t) :
    Recorded s (l.foldl g t) := by
  induction l generalizing t with
  | nil => exact h
  | cons x l ih => exact ih (h.trans (hg t x))

theorem keepCodes {s t : State} {x n0 : Nat} {l : List Int} (h : Recorded s t) : Recorded s (t.keepCodes x n0 l) :=
  h.trans ⟨rfl, rfl, rfl, rfl, rfl, rfl, rfl, rfl⟩

theorem pulseTake {s t : State} {o f k : Nat} {p q : Int} {sv dur : Nat} (h : Recorded s t) : Recorded s (t.pulseTake o f k p q sv dur) := by
  have hp (g : Pulse → Pulse) : Recorded s (t.onPulse o g) := h.trans ⟨rfl, rfl, rfl, rfl, rfl, rfl, rfl, rfl⟩
  unfold State.pulseTake
  exact ite h (ite ((hp _).said (raiseUnit_said ..)) (hp _))

theorem accumulate {s t : State} {f k : Nat} {adds : List (Nat × Nat)} {p q : Int} {sv dur : Nat} {pulses : Bool} (h : Recorded s t) :
    Recorded s (t.accumulate f k adds p q sv dur pulses) := by
  unfold State.accumulate
  refine ite (pulseTake (pulseTake (h.trans ?_))) (h.trans ?_)
  · exact ⟨rfl, rfl, rfl, rfl, rfl, rfl, rfl, rfl⟩
  · exact ⟨rfl, rfl, rfl, rfl, rfl, rfl, rfl, rfl⟩

theorem serveQueue {s t : State} {i : Nat} {u : MeterSub} (h : Recorded s t) : Recorded s (t.serveQueue i u) := by
  unfold State.serveQueue
  split
  · exact foldl (fun t e => (refl t).said (notify_said ..)) _ (h.said (onSession_said ..))
  · exact h.said (onSession_said ..)
  · have hs (u : MeterSub) (b : Bool) : Recorded s ((t.onSession i (fun x => { x with sub := some u })).stuckFw .d b) :=
      (h.said (onSession_said ..)).said (stuckFw_said ..)
    exact ite ((hs _ _).said (raiseGen_said ..)) (hs _ _)

theorem subRecord {s t : State} {f i : Nat} {w : BitVec 640} (h : Recorded s t) : Recorded s (t.subRecord f w i) := by
  unfold State.subRecord
  split
  · exact h
  · exact ite h (ite (h.said (onSession_said ..)) (serveQueue h))

theorem finalFeederPart {s t : State} (h : Recorded s t) : Recorded s t.finalFeederPart := by
  unfold State.finalFeederPart
  split
  · refine ite (h.trans ?_) h
    exact ⟨rfl, rfl, rfl, rfl, rfl, rfl, rfl, rfl⟩
  · exact h

theorem saveStart {s t : State} (h : Recorded s t) : Recorded s t.saveStart := by
  unfold State.saveStart
  split
  · exact h
  · refine ite h (h.trans ?_)
    exact ⟨rfl, rfl, rfl, rfl, rfl, rfl, rfl, rfl⟩

end Recorded

/-- An interval that has ended has ended a moment later. -/
theorem ivl_tick {s : State} {dt : Dt} {f k : Nat} {iv : Nat × Nat} (h : s.ivl f k = some iv) : (s.tick dt).ivl f k = some iv := by
  have hb : (s.tick dt).onB f = s.onB f := rfl
  have hnow : s.now ≤ (s.tick dt).now := Nat.le_add_right ..
  unfold State.ivl at h ⊢
  simp only [hb, State.tick_tb, State.tick_meter] at h ⊢
  split at h
  · cases h
  · split at h
    · split at h
      next hle => rw [if_pos (Nat.le_trans hle hnow)]; exact h
      next => cases h
    · exact h
    · exact h
    · cases h

/-- The state `v` with the record `w` of the interval `k` of feeder `f` that ended at `b` (07 R223, R237). -/
def State.withRecord (v : State) (f k b : Nat) (w : BitVec 640) (imports : Tbl (List (Nat × Nat))) : State :=
  { v with meter := { v.meter with
    records := tmod [] v.meter.records f (fun l => (w :: l).take 256)
    imports := imports
    next := tset 0 v.meter.next f (k + 1), ended := tset none v.meter.ended f (some b) } }

/-- The record of an interval: its word, and what becomes of the meter and the rest (07 R223-R239). -/
theorem completeRecord_spec (t : State) (f k : Nat) (iv : Nat × Nat) (phs : List (List Sample)) (clip : Bool) :
    ∃ (fl fr : Nat) (a b c : Ph) (imports : Tbl (List (Nat × Nat))) (v : State),
      Recorded (v.withRecord f k iv.2 (recWord k fl (iv.2 - iv.1) fr a b c) imports) (t.completeRecord f k iv phs clip) ∧ Recorded t v :=
  ⟨_, _, _, _, _, _, _, .saveStart (.finalFeederPart (.foldl (fun _ _ => .subRecord (.refl _)) _ (.refl _))),
    .accumulate (.foldl (fun _ _ => .keepCodes (.keepCodes (.refl _))) _ (.refl _))⟩

/-- Settles O31: the record's word carries HCN and duration, and what follows it keeps the records. -/
theorem meterRecordIsTheNewestOfItsFeeder : Obligations.MeterRecordIsTheNewestOfItsFeeder := by
  intro s dt f k a b ph clip hf hrun hnext hivl hk hab hdur
  obtain ⟨fl, fr, x, y, z, imports, v, hu, hv⟩ := completeRecord_spec (s.tick dt) f k (a, b) ph clip
  refine ⟨_, recWord k fl (b - a) fr x y z, ?_, ?_, recHcn_recWord hk, recDur_recWord (by omega), ?_, ?_, hu.tb.trans hv.tb, hu.sil.trans hv.sil,
    hu.fdr.trans hv.fdr, hu.nodes.trans hv.nodes, hu.sign.trans hv.sign⟩
  · simp only [exec, execMeterRecordComplete, show (s.tick dt).ivlNext f = some k from hnext, ivl_tick hivl, State.tick_runs, hrun,
      decide_eq_false (Nat.not_lt.mpr hf), Bool.not_true, Bool.or_self, Bool.false_eq_true, if_false]
  · rw [hu.records, State.withRecord, tmod, tget_tset_of_ne (by simp), hv.records]
    rfl
  · rw [hu.next, State.withRecord, tget_tset_of_ne (by simp)]
  · rw [hu.ended, State.withRecord, tget_tset_of_ne (by simp)]

end Sys2Proof.Machine
end

