-- ==== Sys2Proof/Proofs/Attribution.lean ====
section
/-!
PROOFS. Accord's attribution and its snapshot ring (08 R264-R267).
-/
namespace Sys2Proof.Machine
open Sys2Proof

/-! ## Tables: entries filtered by key, and entries moved -/

theorem twf_filter {α : Type} [DecidableEq α] {d : α} {t : Tbl α} (p : Nat × α → Bool) (h : twf d t = true) : twf d (t.filter p) = true := by
  simp only [twf, Bool.and_eq_true, List.all_eq_true] at h ⊢
  exact ⟨tsorted_filter p h.1, fun e he => h.2 e (List.mem_filter.mp he).1⟩

theorem tget_filter {α : Type} {d : α} {t : Tbl α} {lo : Nat} (q : Nat → Bool) (i : Nat) (h : tsorted lo t = true) :
    tget d (t.filter (fun e => q e.1)) i = if q i then tget d t i else d := by
  induction t generalizing lo with
  | nil => simp [tget]
  | cons e r ih =>
    obtain ⟨k, v⟩ := e
    simp only [tsorted, Bool.and_eq_true, decide_eq_true_eq] at h
    have hr := ih h.2
    have hbelow : i < k → tget d r i = d := fun hik => tget_below h.2 (by omega)
    by_cases hq : q k = true
    · simp only [List.filter_cons, hq, if_true, tget]
      split
      next hik => simp [hik, hq]
      next => split
              · simp
              · exact hr
    · simp only [List.filter_cons, hq, Bool.false_eq_true, if_false, hr, tget]
      split
      next hqi =>
        have hne : i ≠ k := fun e => hq (e ▸ hqi)
        rw [if_neg hne]
        split
        next hik => exact hbelow hik
        next => rfl
      next => rfl

/-- Entries written elsewhere leave a key alone. -/
theorem tget_foldl_tset_ne {α : Type} [DecidableEq α] {d : α} {g : Nat → Nat} {y : Nat} {l t : Tbl α} (ht : twf d t = true)
    (hl : ∀ e ∈ l, g e.1 ≠ y) : tget d (l.foldl (fun t e => tset d t (g e.1) e.2) t) y = tget d t y := by
  induction l generalizing t with
  | nil => rfl
  | cons e r ih =>
    rw [List.foldl_cons, ih (twf_tset _ _ ht) fun e he => hl e (List.mem_cons_of_mem _ he),
      tget_tset_ne _ ht (hl e (List.mem_cons_self ..)).symm]

theorem tsorted_lt {α : Type} {t : Tbl α} {lo : Nat} (h : tsorted lo t = true) : ∀ e ∈ t, lo ≤ e.1 := by
  induction t generalizing lo with
  | nil => simp
  | cons e r ih =>
    obtain ⟨k, v⟩ := e
    simp only [tsorted, Bool.and_eq_true, decide_eq_true_eq] at h
    intro e he
    rcases List.mem_cons.mp he with rfl | he
    · exact h.1
    · exact Nat.le_trans (Nat.le_succ_of_le h.1) (ih h.2 e he)

/-- The entries of a table copied to the keys `g k` of another, at a key that held nothing. -/
theorem tget_foldl_tset {α : Type} [DecidableEq α] {d : α} {g : Nat → Nat} {i y lo : Nat} {l t : Tbl α} (ht : twf d t = true)
    (hy : tget d t y = d) (hs : tsorted lo l = true) (hl : ∀ e ∈ l, g e.1 = y ↔ e.1 = i) :
    tget d (l.foldl (fun t e => tset d t (g e.1) e.2) t) y = tget d l i := by
  induction l generalizing t lo with
  | nil => exact hy
  | cons e r ih =>
    obtain ⟨k, v⟩ := e
    simp only [tsorted, Bool.and_eq_true, decide_eq_true_eq] at hs
    have hk := hl (k, v) (List.mem_cons_self ..)
    have hr : ∀ e ∈ r, g e.1 = y ↔ e.1 = i := fun e he => hl e (List.mem_cons_of_mem _ he)
    rw [List.foldl_cons]
    by_cases hki : k = i
    · subst hki
      have hrest : ∀ e ∈ r, g e.1 ≠ y := fun e he hg => by
        have := tsorted_lt hs.2 e he
        have := (hr e he).mp hg
        omega
      rw [tget_foldl_tset_ne (twf_tset _ _ ht) hrest, hk.mpr rfl, tget_tset_same _ _ ht]
      simp [tget]
    · have hne : y ≠ g k := fun e => hki (hk.mp e.symm)
      rw [ih (twf_tset _ _ ht) (by rw [tget_tset_ne _ ht hne, hy]) hs.2 hr]
      simp only [tget, if_neg (Ne.symm hki)]
      split
      next hik => exact tget_below hs.2 (by omega)
      next => rfl

/-! ## Shares -/

/-- The attributed and the residual part make up the measured energy (08 R267). -/
theorem attribShares_attr_add_res (e : Int) (tol : Nat) (ms : Modelled) : (attribShares true e tol ms).attr + (attribShares true e tol ms).res = e := by
  unfold attribShares
  simp only [Bool.not_true, Bool.false_eq_true, if_false]
  split
  · simp
  · split
    · simp
    · simp only; omega

/-! ## One record attributed -/

/-- `u` has of `s` what an attribution reads and what it leaves, and its phase blocks are `ph` (08 R264-R267). -/
structure Attributed (s : State) (ph : Tbl (BitVec 512)) (u : State) : Prop where
  nv : u.nv = s.nv
  sil : u.sil = s.sil
  nodes : u.nodes = s.nodes
  acc : u.meter.acc = s.meter.acc
  models : u.accord.models = s.accord.models
  modelWas : u.accord.modelWas = s.accord.modelWas
  ring : u.accord.ring = s.accord.ring
  ringHcn : u.accord.ringHcn = s.accord.ringHcn
  attTol : u.accord.attTol = s.accord.attTol
  attr : u.accord.attr = s.accord.attr
  status : u.blot.status = s.blot.status
  failedAt : u.blot.failedAt = s.blot.failedAt
  phases : u.accord.phases = ph

namespace Attributed

variable {s t u : State} {ph : Tbl (BitVec 512)}

theorem refl (s : State) : Attributed s s.accord.phases s := ⟨rfl, rfl, rfl, rfl, rfl, rfl, rfl, rfl, rfl, rfl, rfl, rfl, rfl⟩

theorem trans {q : Tbl (BitVec 512)} (h : Attributed s ph t) (k : Attributed t q u) : Attributed s q u :=
  ⟨k.nv.trans h.nv, k.sil.trans h.sil, k.nodes.trans h.nodes, k.acc.trans h.acc, k.models.trans h.models, k.modelWas.trans h.modelWas,
    k.ring.trans h.ring, k.ringHcn.trans h.ringHcn, k.attTol.trans h.attTol, k.attr.trans h.attr, k.status.trans h.status,
    k.failedAt.trans h.failedAt, k.phases⟩

/-- What changes none of it. -/
theorem keep (h : Attributed s ph t) (k : Attributed t t.accord.phases u) : Attributed s ph u := by
  have e := h.trans k
  rwa [h.phases] at e

theorem said (h : Attributed s ph t) (k : Said t u) : Attributed s ph u := by
  refine h.keep ⟨k.nv, k.sil, k.nodes, ?_, ?_, ?_, ?_, ?_, ?_, ?_, ?_, ?_, ?_⟩
  all_goals simp only [k.meter, k.accord, k.blot]

theorem ite {a b : State} {p : Prop} [Decidable p] (h : Attributed s ph a) (k : Attributed s ph b) : Attributed s ph (if p then a else b) := by
  split
  · exact h
  · exact k

theorem foldl {α : Type} {g : State → α → State} (hg : ∀ t x, Attributed t t.accord.phases (g t x)) (l : List α) (h : Attributed s ph t) :
    Attributed s ph (l.foldl g t) := by
  induction l generalizing t with
  | nil => exact h
  | cons x l ih => exact ih (h.keep (hg t x))

theorem addTotal {addr lsb n : Nat} (h : Attributed s ph t) : Attributed s ph (t.addTotal addr lsb n) := by
  have hv (v : Tbl Nat) : Attributed s ph { t with vxc := { t.vxc with totals := v } } :=
    h.keep ⟨rfl, rfl, rfl, rfl, rfl, rfl, rfl, rfl, rfl, rfl, rfl, rfl, rfl⟩
  exact ite ((hv _).said (raiseFw_said ..)) (hv _)

theorem request {a ses deadline delta prio : Nat} (h : Attributed s ph t) : Attributed s ph (t.request a ses deadline delta prio).2 := by
  unfold State.request
  split
  · exact h.keep ⟨rfl, rfl, rfl, rfl, rfl, rfl, rfl, rfl, rfl, rfl, rfl, rfl, rfl⟩
  · exact h.keep ⟨rfl, rfl, rfl, rfl, rfl, rfl, rfl, rfl, rfl, rfl, rfl, rfl, rfl⟩

theorem residualNote {x : Nat} {on : Bool} {mean : Int} (h : Attributed s ph t) : Attributed s ph (t.residualNote x on mean) := by
  unfold State.residualNote
  refine said (said (h.keep ?_) (raiseGen_said ..)) (notifyClass_said ..)
  exact ⟨rfl, rfl, rfl, rfl, rfl, rfl, rfl, rfl, rfl, rfl, rfl, rfl, rfl⟩

theorem residual {x : Nat} {res : Int} {dur : Nat} (h : Attributed s ph t) : Attributed s ph (t.residual x res dur) := by
  have hm (m : Tbl (List Int)) : Attributed s ph { t with accord := { t.accord with means := m } } :=
    h.keep ⟨rfl, rfl, rfl, rfl, rfl, rfl, rfl, rfl, rfl, rfl, rfl, rfl, rfl⟩
  unfold State.residual
  exact ite h (ite (hm _) (ite (ite (residualNote (hm _)) (foldl (fun _ _ => ite (request (refl _)) (refl _)) _ (residualNote (hm _))))
    (ite (residualNote (hm _)) (hm _))))

theorem corrSample {f p k : Nat} {w : BitVec 640} (h : Attributed s ph t) : Attributed s ph (t.corrSample f p k w) :=
  h.keep ⟨rfl, rfl, rfl, rfl, rfl, rfl, rfl, rfl, rfl, rfl, rfl, rfl, rfl⟩

/-- The attribution itself changes the block of its phase. -/
theorem applyAttrib {x k : Nat} {a : Attrib} (h : Attributed s ph t) : Attributed s (tmod 0 ph x a.block) (t.applyAttrib x k a) := by
  unfold State.applyAttrib
  refine foldl (fun _ _ => (refl _).said (raiseHw_said ..)) _ (h.trans ?_)
  exact ⟨rfl, rfl, rfl, rfl, rfl, rfl, rfl, rfl, rfl, rfl, rfl, rfl, by rw [← h.phases]; rfl⟩

theorem modelled {f p k dur : Nat} {merged : Bool} (h : Attributed s ph t) : t.modelled f p k dur merged = s.modelled f p k dur merged := by
  have hsnap (k : Nat) : t.snapFor k f = s.snapFor k f := by simp only [State.snapFor, State.snapNodes, h.ring, h.ringHcn]
  have hmodel (a : Nat) : t.modelFor a k = s.modelFor a k := by simp only [State.modelFor, State.model, h.modelWas, h.models]
  have hfailed (a : Nat) : t.failed a = s.failed a := by simp only [State.failed, State.bstat, h.status]
  have hnode (a : Nat) : t.node a = s.node a := by simp only [State.node, h.nodes]
  unfold State.modelled
  simp only [hsnap, hmodel, hfailed, hnode, h.failedAt]

theorem unmeas {n : Nat} (h : Attributed s ph t) : Attributed s ph { t with accord := { t.accord with unmeas := n } } :=
  h.keep ⟨rfl, rfl, rfl, rfl, rfl, rfl, rfl, rfl, rfl, rfl, rfl, rfl, rfl⟩

theorem held {n : Nat} (h : Attributed s ph t) : Attributed s ph { t with accord := { t.accord with held := n } } :=
  h.keep ⟨rfl, rfl, rfl, rfl, rfl, rfl, rfl, rfl, rfl, rfl, rfl, rfl, rfl⟩

end Attributed

/-- The block of phase `p` of a feeder's record `w` changes by the attribution of the energy measured on it (08 R267). -/
def State.phaseBlock (s : State) (f k : Nat) (w : BitVec 640) (p : Nat) : BitVec 512 → BitVec 512 :=
  (attribShares (!unmeasured w p) (recEnergy w p) s.accord.attTol (s.modelled f p k (recDur w) ((recFlags w).testBit 11))).block

theorem Attributed.attribPhase {s t : State} {ph : Tbl (BitVec 512)} {f k p : Nat} {w : BitVec 640} (h : Attributed s ph t) :
    Attributed s (tmod 0 ph (3 * f + p) (s.phaseBlock f k w p)) (t.attribPhase f k w p) := by
  have hb : s.phaseBlock f k w p = (attribShares (!unmeasured w p) (recEnergy w p) t.accord.attTol
      (t.modelled f p k (recDur w) ((recFlags w).testBit 11))).block := by rw [h.attTol, h.modelled]; rfl
  rw [hb]
  unfold State.attribPhase
  exact ite (said (addTotal (unmeas (corrSample (applyAttrib h)))) (stuckIf_said ..)) (residual (corrSample (applyAttrib h)))

theorem Attributed.tick (s : State) (dt : Dt) : Attributed s s.accord.phases (s.tick dt) :=
  ⟨rfl, rfl, rfl, rfl, rfl, rfl, rfl, rfl, rfl, rfl, rfl, rfl, rfl⟩

/-- Where the snapshot is ready it alone changes. -/
theorem accSnapIf_eq (t : State) (p : Prop) [Decidable p] :
    ∃ sn, (if p then t.accSnapReady else t) = { t with accord := { t.accord with snap := sn } } := by
  unfold State.accSnapReady
  split
  · split
    · exact ⟨_, rfl⟩
    · exact ⟨_, rfl⟩
  · exact ⟨_, rfl⟩

/-- The phase blocks of feeder `f` after the record `w` (08 R267). -/
def State.phasesAfter (s : State) (f : Nat) (w : BitVec 640) : Tbl (BitVec 512) :=
  [0, 1, 2].foldl (fun ph p => tmod 0 ph (3 * f + p) (s.phaseBlock f (recHcn w) w p)) s.accord.phases

theorem exec_accordAttribution {s : State} {dt : Dt} {f : Nat} {w : BitVec 640} (hf : f ≤ 7) (hrun : s.runs .d = true)
    (hw : s.attribNext f = some w) : ∃ (v : State) (sn : Snap), Attributed s (s.phasesAfter f w) v ∧
      exec (.accordAttribution dt f) s =
        .next { v with accord := { v.accord with attr := tset 0 v.accord.attr f (recHcn w + 1), snap := sn } } := by
  have h3 : Attributed s (s.phasesAfter f w) ([0, 1, 2].foldl (fun (t : State) p => t.attribPhase f (recHcn w) w p) (s.tick dt)) :=
    .attribPhase (.attribPhase (.attribPhase (.tick s dt)))
  simp only [exec, execAccordAttribution, State.tick_runs, hrun, show (s.tick dt).attribNext f = some w from hw,
    decide_eq_false (Nat.not_lt.mpr hf), Bool.not_true, Bool.or_self, Bool.false_eq_true, if_false]
  generalize [0, 1, 2].foldl (fun (t : State) p => t.attribPhase f (recHcn w) w p) (s.tick dt) = t at h3
  have hheld : Attributed s (s.phasesAfter f w) (State.stuckIf (State.addTotal
      { t with accord := { t.accord with held := (bump 0xFFFF t.accord.held).1 } } (wAccord + 8) 16 1) (bump 0xFFFF t.accord.held).2 (wAccord + 8) 16) :=
    .said (.addTotal (.held h3)) (stuckIf_said ..)
  split
  · exact ⟨_, _, hheld, congrArg Host.Outcome.next (accSnapIf_eq _ _).choose_spec⟩
  · exact ⟨_, _, h3, congrArg Host.Outcome.next (accSnapIf_eq _ _).choose_spec⟩

theorem tget_phasesAfter_of_ne {s : State} {f y : Nat} {w : BitVec 640} (hwf : twf 0 s.accord.phases = true) (hy : y / 3 ≠ f) :
    tget 0 (s.phasesAfter f w) y = tget 0 s.accord.phases y := by
  simp only [State.phasesAfter, List.foldl_cons, List.foldl_nil]
  rw [tget_tmod_ne _ (twf_tmod _ _ (twf_tmod _ _ hwf)) (by omega), tget_tmod_ne _ (twf_tmod _ _ hwf) (by omega), tget_tmod_ne _ hwf (by omega)]

theorem tget_phasesAfter_same {s : State} {f p : Nat} {w : BitVec 640} (hwf : twf 0 s.accord.phases = true) (hp : p ≤ 2) :
    tget 0 (s.phasesAfter f w) (3 * f + p) = s.phaseBlock f (recHcn w) w p (tget 0 s.accord.phases (3 * f + p)) := by
  have h1 := twf_tmod (3 * f + 0) (s.phaseBlock f (recHcn w) w 0) hwf
  have h2 := twf_tmod (3 * f + 1) (s.phaseBlock f (recHcn w) w 1) h1
  simp only [State.phasesAfter, List.foldl_cons, List.foldl_nil]
  interval_cases p
  · rw [tget_tmod_ne _ h2 (by omega), tget_tmod_ne _ h1 (by omega), tget_tmod_same _ _ hwf]
  · rw [tget_tmod_ne _ h2 (by omega), tget_tmod_same _ _ h1, tget_tmod_ne _ hwf (by omega)]
  · rw [tget_tmod_same _ _ h2, tget_tmod_ne _ h1 (by omega), tget_tmod_ne _ hwf (by omega)]

/-! ## The snapshot ring -/

/-- The ring after the snapshot of HCN `k` has been copied into its slot (08 R264). -/
def State.ringAfter (s : State) (k : Nat) : Tbl (BitVec 16) :=
  (s.jnc.snap.filter (fun e => decide (16384 * (k % 2) ≤ e.1 ∧ e.1 < 16384 * (k % 2) + 16384))).foldl
    (fun t e => tset absent t (16384 * (k % 4) + (e.1 - 16384 * (k % 2))) e.2)
    (s.accord.ring.filter (fun e => !(decide (16384 * (k % 4) ≤ e.1 ∧ e.1 < 16384 * (k % 4) + 16384))))

theorem tget_ringAfter_same {s : State} {k a : Nat} (hsnap : twf absent s.jnc.snap = true) (hring : twf absent s.accord.ring = true)
    (ha : a < 16384) : tget absent (s.ringAfter k) (16384 * (k % 4) + a) = tget absent s.jnc.snap (16384 * (k % 2) + a) := by
  have hs : tsorted 0 s.jnc.snap = true := by simp only [twf, Bool.and_eq_true] at hsnap; exact hsnap.1
  have hr : tsorted 0 s.accord.ring = true := by simp only [twf, Bool.and_eq_true] at hring; exact hring.1
  unfold State.ringAfter
  rw [tget_foldl_tset (i := 16384 * (k % 2) + a) (g := fun e => 16384 * (k % 4) + (e - 16384 * (k % 2))) (twf_filter _ hring) ?_
    (tsorted_filter _ hs) ?_]
  · rw [tget_filter (fun e => decide (16384 * (k % 2) ≤ e ∧ e < 16384 * (k % 2) + 16384)) _ hs, if_pos (by simp; omega)]
  · rw [tget_filter (fun e => !(decide (16384 * (k % 4) ≤ e ∧ e < 16384 * (k % 4) + 16384))) _ hr, if_neg (by simp; omega)]
  · intro e he
    have := (List.mem_filter.mp he).2
    simp only [decide_eq_true_eq] at this
    omega

theorem tget_ringAfter_of_ne {s : State} {k y : Nat} (hring : twf absent s.accord.ring = true) (hy : y / 16384 ≠ k % 4) :
    tget absent (s.ringAfter k) y = tget absent s.accord.ring y := by
  have hr : tsorted 0 s.accord.ring = true := by simp only [twf, Bool.and_eq_true] at hring; exact hring.1
  unfold State.ringAfter
  rw [tget_foldl_tset_ne (g := fun e => 16384 * (k % 4) + (e - 16384 * (k % 2))) (twf_filter _ hring) ?_]
  · rw [tget_filter (fun e => !(decide (16384 * (k % 4) ≤ e ∧ e < 16384 * (k % 4) + 16384))) _ hr, if_pos (by simp; omega)]
  · intro e he
    have := (List.mem_filter.mp he).2
    simp only [decide_eq_true_eq] at this
    omega

/-- Settles O35. -/
theorem attributionSplitsMeasuredEnergy : Obligations.AttributionSplitsMeasuredEnergy := by
  refine ⟨attribShares_attr_add_res, fun s dt f w hf hrun hw hwf => ?_, fun s dt k hrun hk hdue hsnap hring => ?_, fun s dt hrun hdirty => ?_⟩
  · obtain ⟨v, sn, h, he⟩ := exec_accordAttribution (dt := dt) hf hrun hw
    refine ⟨_, he, by rw [← h.attr], h.nv, h.sil, h.nodes, h.acc, h.models, fun p hp => ?_, fun y hy => ?_⟩
    · rw [← State.phaseBlock, ← tget_phasesAfter_same hwf hp, ← h.phases]
    · rw [← tget_phasesAfter_of_ne hwf hy, ← h.phases]
  · refine ⟨{ (s.tick dt).clearDb .d 1 with
      jnc := { ((s.tick dt).clearDb .d 1).jnc with snapDue := false }
      accord := { s.accord with
        ring := s.ringAfter k, ringHcn := (k :: s.accord.ringHcn.filter (fun j => j % 4 != k % 4)).take 4 } }, ?_, rfl, rfl, rfl, rfl,
      fun a ha => tget_ringAfter_same hsnap hring ha, fun y hy => tget_ringAfter_of_ne hring hy⟩
    simp only [exec, execLevelSnapshotCopy, show (s.tick dt).jnc.snapHcn = some k from hk, show (s.tick dt).jnc.snapDue = true from hdue,
      State.tick_runs, hrun, Bool.not_true, Bool.or_self, Bool.false_eq_true, if_false]
    rfl
  · refine ⟨?_, ?_, fun hacts => ?_⟩
    · simp only [exec, execModelTableStore, State.tick_nv, State.tick_runs, hdirty, hrun, Bool.and_self, if_true]
    · simp [State.storeModels, State.onNv, hrun]
    · simp only [State.storeModels, State.onNv, State.tick_runs, hrun, if_true, State.tick_acts, hacts, List.foldl_nil, State.tick_accord,
        State.tick_blot, State.tick_nv]
      exact Nv.setModelSet_modelSet ..

end Sys2Proof.Machine
end

