-- ==== Sys2Proof/Proofs/Windows.lean ====
section
/-!
PROOFS. The correlation of a window (08 R282-R284).
-/
namespace Sys2Proof.Machine
open Sys2Proof

/-- The newest 48 intervals of a phase end with the window whose last HCN is `h`: one interval per HCN, the newest first, none flagged. -/
abbrev WindowOf (l : List Corr) (h : Nat) : Prop := ∀ i e, l[i]? = some e → e.hcn + i = h ∧ e.flag = false

theorem find_hcn {l : List Corr} {h i : Nat} (hl : WindowOf l h) (hi : i < l.length) : l.find? (fun e => e.hcn == h - i) = some l[i] := by
  have hcn (j : Nat) (hj : j < l.length) : l[j].hcn + j = h := (hl j l[j] (List.getElem?_eq_getElem hj)).1
  have := hcn i hi
  refine List.find?_eq_some_iff_getElem.mpr ⟨by simp; omega, i, hi, rfl, fun j hj => ?_⟩
  have := hcn j (by omega)
  simp
  omega

/-- The intervals of a window of 16, oldest first. -/
theorem window_intervals {l : List Corr} {h : Nat} (hl : WindowOf l h) (hlen : l.length = 16) (hh : 15 ≤ h) :
    (rangeFrom (h - 15) 16).filterMap (fun k => l.find? (fun e => e.hcn == k)) = l.reverse := by
  have hrange : rangeFrom (h - 15) 16 = ((List.range 16).map (fun i => h - i)).reverse := by
    obtain ⟨m, rfl⟩ : ∃ m, h = m + 15 := ⟨h - 15, by omega⟩
    simp [rangeFrom, List.range, List.range.loop]
  have hfind : (List.range 16).filterMap ((fun k => l.find? (fun e => e.hcn == k)) ∘ fun i => h - i) = l := by
    have hsome : ∀ i ∈ List.range 16, ((fun k => l.find? (fun e => e.hcn == k)) ∘ fun i => h - i) i = some (l.getD i ⟨0, 0, false⟩) := by
      intro i hi
      have hi16 : i < l.length := by rw [hlen]; exact List.mem_range.mp hi
      simp only [Function.comp, find_hcn hl hi16, List.getD_eq_getElem?_getD, List.getElem?_eq_getElem hi16, Option.getD_some]
    rw [List.filterMap_congr hsome, List.filterMap_eq_map']
    refine List.ext_getElem (by simp [hlen]) fun i h1 h2 => ?_
    simp [List.getD_eq_getElem?_getD, h2]
  rw [hrange, List.filterMap_reverse, List.filterMap_map, hfind]

theorem correlate_map_p (l : List Corr) (c : Nat) :
    correlate (l.map Corr.p) c = roundDiv ((l.zip (rangeFrom 0 16)).foldl (fun t e => t + walsh c e.2 * e.1.p) 0) (16 * modelDen) := by
  unfold correlate
  rw [List.zip_map_left, List.foldl_map]
  rfl

/-- R of the 15 codes of a window (08 R283, R284). -/
def windowR (l : List Corr) (start : Nat) : List Int :=
  (rangeFrom 1 15).map (fun c => correlate (l.reverse.map Corr.p) c - (if c = 1 then parityBias l start else 0))

theorem windowR_getD {l : List Corr} {start c : Nat} (h2 : 2 ≤ c) (h15 : c ≤ 15) :
    (windowR l start).getD (c - 1) 0 = correlate (l.reverse.map Corr.p) c := by
  have hget : (rangeFrom 1 15)[c - 1]? = some c := by
    rw [rangeFrom_eq_range', List.getElem?_range' (by omega)]
    simp; omega
  rw [windowR, List.getD_eq_getElem?_getD, List.getElem?_map, hget]
  simp [show c ≠ 1 by omega]

/-- A window kept with its noise samples (08 R284). -/
def State.withWindow (s : State) (x start : Nat) (r noise : List Int) : State :=
  s.onBlot (fun b => { b with win := tset {} b.win x ⟨start, false, r⟩, noise := tmod {} b.noise x (fun n => n.add noise) })

theorem withWindow_win (s : State) (x start : Nat) (r noise : List Int) : (s.withWindow x start r noise).win x = ⟨start, false, r⟩ :=
  tget_tset_of_ne (by simp)

theorem withWindow_keeps {s : State} {x start : Nat} {r noise : List Int} :
    (s.withWindow x start r noise).blot.reqs = s.blot.reqs ∧ (s.withWindow x start r noise).blot.status = s.blot.status ∧
      (s.withWindow x start r noise).nv = s.nv ∧ (s.withWindow x start r noise).accord = s.accord := ⟨rfl, rfl, rfl, rfl⟩

theorem withWindow_probes (s : State) (x start : Nat) (r noise : List Int) : (s.withWindow x start r noise).blot.probes = s.blot.probes := rfl

theorem withWindow_samples {s : State} {x start : Nat} {r noise : List Int} (h : noise ≠ []) :
    (tget {} (s.withWindow x start r noise).blot.noise x).samples = (noise ++ (tget {} s.blot.noise x).samples).take 256 := by
  have hs : ((tget {} s.blot.noise x).add noise).samples = (noise ++ (tget {} s.blot.noise x).samples).take 256 := by
    simp [Noise.add, h]
  have hne : (tget {} s.blot.noise x).add noise ≠ {} := by
    intro e
    rw [e] at hs
    simp [h] at hs
  simp only [State.withWindow, State.onBlot, tmod, tget_tset_of_ne hne, hs]

theorem exec_windowCorrelate {s : State} {dt : Dt} {x h : Nat} {l : List Corr} (hx : x ≤ 23) (hrun : s.runs .d = true)
    (hl : tget [] s.blot.corr x = l) (hlen : l.length = 16) (hw : WindowOf l h) (hh : h % 16 = 15)
    (hnew : (s.win x).start < h - 15 ∨ (s.win x).r = []) (hprobes : ∀ p ∈ s.blot.probes, p.start ≠ h - 15)
    (hplan : ∀ p ∈ s.blot.plan, p.1 ≠ h - 15) :
    exec (.windowCorrelate dt x) s = .next ((s.tick dt).withWindow x (h - 15) (windowR l (h - 15))
      ((rangeFrom 1 15).map (fun c => (windowR l (h - 15)).getD (c - 1) 0))) := by
  have h0 : 0 < l.length := by omega
  have h15 : 15 ≤ h := by omega
  have hfirst : l.find? (fun e => e.hcn % 16 == 15) = some l[0] := by
    refine List.find?_eq_some_iff_getElem.mpr ⟨?_, 0, h0, rfl, fun j hj => absurd hj (by omega)⟩
    have he := (hw 0 l[0] (List.getElem?_eq_getElem h0)).1
    simp only [Nat.add_zero] at he
    simpa [he] using hh
  have hgot := window_intervals hw hlen h15
  have hflag : l.reverse.any Corr.flag = false := by
    rw [List.any_reverse, List.any_eq_false]
    intro e he
    obtain ⟨i, hi⟩ := List.mem_iff_getElem?.mp he
    simp [(hw i e hi).2]
  have hused : (s.tick dt).codesUsed (h - 15) x = [] := by
    unfold State.codesUsed
    rw [List.filter_eq_nil_iff.mpr fun p hp => by simp [hplan p hp]]
    rfl
  have he0 : l[0].hcn = h := (hw 0 l[0] (List.getElem?_eq_getElem h0)).1
  have hold : (!((s.tick dt).win x).r.isEmpty && decide (h - 15 ≤ ((s.tick dt).win x).start)) = false := by
    rcases hnew with hlt | hr
    · simp [show ¬ h - 15 ≤ ((s.tick dt).win x).start from Nat.not_le.mpr hlt]
    · simp [show ((s.tick dt).win x).r = [] from hr]
  simp only [exec, execWindowCorrelate, State.tick_blot, State.tick_runs, hl, hfirst, he0, hrun, hgot, hflag, hused, hold,
    decide_eq_false (Nat.not_lt.mpr hx), List.length_reverse, hlen, Bool.not_true, Bool.or_self, Bool.false_eq_true, if_false, ne_eq,
    not_true_eq_false, decide_false, List.contains_nil, Bool.not_false, List.filter_true]
  change Host.Outcome.next (if (!((s.tick dt).withWindow x (h - 15) (windowR l (h - 15)) _).runs .c) = true then _ else _) = _
  split
  · rfl
  · rw [List.filter_eq_nil_iff.mpr fun p hp => ?_]
    · rfl
    · have hne : (p.start == h - 15) = false := by
        have hp' : p ∈ ((s.tick dt).withWindow x (h - 15) (windowR l (h - 15))
            ((rangeFrom 1 15).map (fun c => (windowR l (h - 15)).getD (c - 1) 0))).blot.probes := hp
        rw [withWindow_probes, State.tick_blot] at hp'
        exact beq_eq_false_iff_ne.mpr (hprobes p hp')
      simp only [hne, Bool.false_and, Bool.false_eq_true, not_false_eq_true]

/-- Settles O37. -/
theorem windowsAreCorrelatedOnce : Obligations.WindowsAreCorrelatedOnce := by
  intro s dt x l h hx hrun hl hlen hw hh hnew hprobes hplan
  refine ⟨_, exec_windowCorrelate hx hrun hl hlen hw hh hnew hprobes hplan, ?_⟩
  generalize hn : (rangeFrom 1 15).map (fun c => (windowR l (h - 15)).getD (c - 1) 0) = noise
  refine ⟨?_, ?_, fun c h2 h15 => ?_, ?_, by rw [withWindow_keeps.1, State.tick_blot], by rw [withWindow_keeps.2.1, State.tick_blot],
    by rw [withWindow_keeps.2.2.1, State.tick_nv], by rw [withWindow_keeps.2.2.2, State.tick_accord], fun hwf y hy => ?_⟩
  · rw [withWindow_win]
  · rw [withWindow_win]
  · rw [withWindow_win, Window.of, windowR_getD h2 h15, correlate_map_p]
  · rw [withWindow_win, withWindow_samples (by simp [← hn, rangeFrom]), ← hn]
    rfl
  · exact tget_tset_ne _ hwf hy

end Sys2Proof.Machine
end

