-- ==== Sys2Proof/Proofs/Fields.lean ====
section
/-!
SUPPORT. Fields of a word: what a write of one field leaves of the others.
-/
namespace Sys2Proof.Machine
open Sys2Proof

theorem testBit_fld {n : Nat} (w : BitVec n) (lo len i : Nat) : (fld w lo len).testBit i = (decide (i < len) && w.getLsbD (lo + i)) := by
  rw [fld, Nat.testBit_mod_two_pow, Nat.testBit_shiftRight]
  rfl

/-- A word with a field replaced, as a number. -/
theorem setFld_toNat_eq (w lo len v : Nat) :
    w - ((w >>> lo) % 2 ^ len) <<< lo + (v % 2 ^ len) <<< lo = 2 ^ lo * (2 ^ len * (w / 2 ^ lo / 2 ^ len) + v % 2 ^ len) + w % 2 ^ lo := by
  rw [Nat.shiftLeft_eq, Nat.shiftLeft_eq, Nat.shiftRight_eq_div_pow]
  have h1 := Nat.div_add_mod w (2 ^ lo)
  have h2 := Nat.div_add_mod (w / 2 ^ lo) (2 ^ len)
  generalize w / 2 ^ lo / 2 ^ len = a at *
  generalize w / 2 ^ lo % 2 ^ len = f at *
  generalize w % 2 ^ lo = b at *
  have h3 : w = 2 ^ lo * (2 ^ len * a) + 2 ^ lo * f + b := by rw [← Nat.mul_add, h2, h1]
  rw [Nat.mul_add, Nat.mul_comm f, Nat.mul_comm (v % 2 ^ len)]
  omega

theorem getLsbD_setFld {n : Nat} (w : BitVec n) (lo len v : Nat) {i : Nat} (hi : i < n) :
    (setFld w lo len v).getLsbD i = if lo ≤ i ∧ i < lo + len then v.testBit (i - lo) else w.getLsbD i := by
  have hlo : w.toNat % 2 ^ lo < 2 ^ lo := Nat.mod_lt _ (Nat.two_pow_pos lo)
  have hlen : v % 2 ^ len < 2 ^ len := Nat.mod_lt _ (Nat.two_pow_pos len)
  rw [BitVec.getLsbD, setFld, fld, BitVec.toNat_ofNat, setFld_toNat_eq, Nat.testBit_mod_two_pow, decide_eq_true hi, Bool.true_and,
    Nat.testBit_two_pow_mul_add _ hlo]
  by_cases h1 : i < lo
  · rw [if_pos h1, if_neg (by omega), Nat.testBit_mod_two_pow, decide_eq_true h1, Bool.true_and]
    rfl
  · rw [if_neg h1, Nat.testBit_two_pow_mul_add _ hlen]
    by_cases h2 : i - lo < len
    · rw [if_pos h2, if_pos (by omega), Nat.testBit_mod_two_pow, decide_eq_true h2, Bool.true_and]
    · rw [if_neg h2, if_neg (by omega), Nat.testBit_div_two_pow, Nat.testBit_div_two_pow, BitVec.getLsbD]
      congr 1
      omega

/-- A field reads as written. -/
theorem fld_setFld_same {n : Nat} (w : BitVec n) {lo len : Nat} (v : Nat) (h : lo + len ≤ n) : fld (setFld w lo len v) lo len = v % 2 ^ len := by
  apply Nat.eq_of_testBit_eq
  intro i
  rw [testBit_fld, Nat.testBit_mod_two_pow]
  by_cases hi : i < len
  · rw [getLsbD_setFld _ _ _ _ (by omega), if_pos (by omega), Nat.add_sub_cancel_left]
  · simp [hi]

/-- The other fields stay. -/
theorem fld_setFld_of_disjoint {n : Nat} (w : BitVec n) {lo len lo' len' : Nat} (v : Nat) (h : lo' + len' ≤ lo ∨ lo + len ≤ lo') :
    fld (setFld w lo len v) lo' len' = fld w lo' len' := by
  apply Nat.eq_of_testBit_eq
  intro i
  rw [testBit_fld, testBit_fld]
  by_cases hi : i < len'
  · by_cases hn : lo' + i < n
    · rw [getLsbD_setFld _ _ _ _ hn, if_neg (by omega)]
    · rw [BitVec.getLsbD_of_ge _ _ (by omega), BitVec.getLsbD_of_ge _ _ (by omega)]
  · simp [hi]

end Sys2Proof.Machine
end

