-- ==== Sys2Proof/Proofs/KeySlots.lean ====
section
/-!
PROOFS. Keys: invalidation and rollover (14 R429, R438, R444).
-/
namespace Sys2Proof.Machine
open Sys2Proof

@[simp] theorem State.taken_started (s : State) (r : Req) (x : Session) : (s.taken r x).started = s.started := by simp [State.started]

/-! ## The key slots -/

/-- The tables behind the key slots are canonical. -/
abbrev State.SlotsOk (s : State) : Prop := twf {} s.nv.slots = true ∧ twf 0 s.keys.plain = true

theorem setSlot_slot_same {s : State} (h : s.SlotsOk) (n : Nat) (k : Slot) : (s.setSlot n k).slot n = k := by
  simp only [State.slot, State.setSlot, State.onNv, Nv.setSlots_slots, tget_tset_same _ _ h.1, tget_tset_same _ _ h.2]

theorem setSlot_slot_ne {s : State} (h : s.SlotsOk) {n d : Nat} (k : Slot) (hd : d ≠ n) : (s.setSlot n k).slot d = s.slot d := by
  simp only [State.slot, State.setSlot, State.onNv, Nv.setSlots_slots, tget_tset_ne _ h.1 hd, tget_tset_ne _ h.2 hd]

/-- One slot orphaned (14 R438). -/
def State.orphanOne (s : State) (n : Nat) : State :=
  { s.onNv (fun v => v.setSlots (tset {} v.slots n (let c := tget {} v.slots n; { c with attr := setFld c.attr 62 2 2 }))) with
    keys := { s.keys with plain := tset 0 s.keys.plain n 0 } }

theorem orphanOne_slotsOk {s : State} (h : s.SlotsOk) (n : Nat) : (s.orphanOne n).SlotsOk := by
  simp only [State.SlotsOk, State.orphanOne, State.onNv, Nv.setSlots_slots]
  exact ⟨twf_tset _ _ h.1, twf_tset _ _ h.2⟩

theorem orphanOne_slot_ne {s : State} (h : s.SlotsOk) {n d : Nat} (hd : d ≠ n) : (s.orphanOne n).slot d = s.slot d := by
  simp only [State.slot, State.orphanOne, State.onNv, Nv.setSlots_slots, tget_tset_ne _ h.1 hd, tget_tset_ne _ h.2 hd]

theorem orphanOne_slot_same {s : State} (h : s.SlotsOk) (n : Nat) : ((s.orphanOne n).slot n).st = 2 ∧ ((s.orphanOne n).slot n).key = 0 := by
  simp only [State.slot, State.orphanOne, State.onNv, Nv.setSlots_slots, tget_tset_same _ _ h.1, tget_tset_same _ _ h.2, Slot.st]
  exact ⟨fld_setFld_same _ 2 (by decide), trivial⟩

theorem orphan_spec (l : List Nat) {s : State} (h : s.SlotsOk) : (s.orphan l).SlotsOk ∧ ∀ d,
    (d ∈ l → ((s.orphan l).slot d).st = 2 ∧ ((s.orphan l).slot d).key = 0) ∧ (d ∉ l → (s.orphan l).slot d = s.slot d) ∧
    ((s.slot d).st = 2 ∧ (s.slot d).key = 0 → ((s.orphan l).slot d).st = 2 ∧ ((s.orphan l).slot d).key = 0) := by
  induction l generalizing s with
  | nil => exact ⟨h, fun d => ⟨fun hd => absurd hd List.not_mem_nil, fun _ => rfl, id⟩⟩
  | cons n l ih =>
    obtain ⟨hok, hl⟩ := ih (orphanOne_slotsOk h n)
    refine ⟨hok, fun d => ?_⟩
    obtain ⟨hin, hout, hkeep⟩ := hl d
    by_cases hdn : d = n
    · subst hdn
      have h2 := hkeep (orphanOne_slot_same h d)
      exact ⟨fun _ => h2, fun hd => absurd (List.mem_cons_self ..) hd, fun _ => h2⟩
    · have hsame := orphanOne_slot_ne h hdn
      rw [hsame] at hout hkeep
      exact ⟨fun hd => hin ((List.mem_cons.mp hd).resolve_left hdn), fun hd => hout fun hm => hd (List.mem_cons_of_mem _ hm), hkeep⟩

/-! ## INVALIDATE (14 R429, R438) -/

/-- The state after INVALIDATE of slot `n`. -/
def State.invalidated (t : State) (n : Nat) : State :=
  let u := ((t.orphan (t.descendants n)).setSlot n {}).dropTwin n
  if n = 4 then u.spoilRegs else u

theorem dropTwin_slot (t : State) (n d : Nat) : (t.dropTwin n).slot d = t.slot d := rfl
theorem spoilRegs_slot (t : State) (d : Nat) : t.spoilRegs.slot d = t.slot d := rfl

theorem invalidated_slot (t : State) (n d : Nat) : (t.invalidated n).slot d = ((t.orphan (t.descendants n)).setSlot n {}).slot d := by
  unfold State.invalidated
  split
  · rw [spoilRegs_slot, dropTwin_slot]
  · rw [dropTwin_slot]

theorem execKeyInvalidate_eq (r : Req) (n : Nat) (s : State) : execKeyInvalidate r n s = hostCmd { cmd := 0x0B05, need := .keys } r (fun _ t =>
    checked (t.keyWriteChecks (decide (n < 64)) ++
        [((t.slot n).st == 0, .state), (decide (2 ≤ n) && t.rolloverBelow n, .state), (decide (n < 2), .range)])
      (.ok [(((t.descendants n).map (fun n => 2 ^ n)).foldl (· + ·) 0, 8)] (t.invalidated n))) s := by
  simp only [execKeyInvalidate, State.invalidated]

@[simp] theorem taken_descendants (s : State) (r : Req) (x : Session) (n : Nat) : (s.taken r x).descendants n = s.descendants n := by
  have hu (m : Nat) : (s.taken r x).inUse m = s.inUse m := by simp [State.inUse]
  have hanc (fuel a m : Nat) : (s.taken r x).isAncestor fuel a m = s.isAncestor fuel a m := by
    induction fuel generalizing a m with
    | zero => rfl
    | succ k ih => simp [State.isAncestor, hu, ih]
  simp [State.descendants, hanc]

theorem keyWriteChecks_pass {t : State} (hseal : t.sealed = false) (hlcs : t.nv.lcs ≠ 3) (hroot : t.keys.rootOk = true) :
    t.keyWriteChecks true = [(false, .tamper), (false, .range), (false, .state)] := by
  simp [State.keyWriteChecks, hseal, hlcs, hroot]

theorem answered_slot (t : State) (r : Req) (x : Session) (cmd : Nat) (st : Status) (pay : Payload) (d : Nat) :
    (t.answered r x cmd st pay).slot d = t.slot d := by
  have h := answered_said t r x cmd st pay
  simp only [State.slot, State.answered, h.nv, h.keys]

/-! ## ROLLOVER (14 R444) -/

/-- The state after ROLLOVER of the key of feeder `f` at the frame of HCN `k`. -/
def State.rolledOver (t : State) (f k : Nat) (w : Who) : State :=
  let g := (t.slot (f + 8)).gen + 1
  let u := (t.setTwin (f + 8) (t.slot (f + 8)).attr (t.feederKey f g)).1
  let u := u.onNv (fun v => { v.setRolls (tset none v.rolls f (some ⟨k, g, w.ses, w.seq⟩)) with lastRoll := tset 0 v.lastRoll f k })
  let u := (u.joinedOn f).foldl (fun t a => t.onNode a (fun n => { n with keyAcked := false, keySent := 0 })) u
  u.onFeeder f (fun x => { x with kfStart := u.tb.hcn, kfDue := false, keyQ := (u.joinedOn f).map (fun a => a % 2048) })

theorem foldl_onNode_keeps (g : NodeDyn → NodeDyn) (l : List Nat) (t : State) :
    (l.foldl (fun t a => t.onNode a g) t).nv = t.nv ∧ (l.foldl (fun t a => t.onNode a g) t).keys = t.keys := by
  induction l generalizing t with
  | nil => exact ⟨rfl, rfl⟩
  | cons a l ih => exact ih (t.onNode a g)

theorem rolledOver_nv (t : State) (f k : Nat) (w : Who) : (t.rolledOver f k w).nv =
    { t.nv.setRolls (tset none t.nv.rolls f (some ⟨k, (t.slot (f + 8)).gen + 1, w.ses, w.seq⟩)) with lastRoll := tset 0 t.nv.lastRoll f k } := by
  simp only [State.rolledOver, State.onFeeder, (foldl_onNode_keeps _ _ _).1]
  rfl

theorem rolledOver_keys (t : State) (f k : Nat) (w : Who) : (t.rolledOver f k w).keys =
    (t.setTwin (f + 8) (t.slot (f + 8)).attr (t.feederKey f ((t.slot (f + 8)).gen + 1))).1.keys := by
  simp only [State.rolledOver, State.onFeeder, (foldl_onNode_keeps _ _ _).2]
  rfl

theorem execKeyRollover_eq (r : Req) (f k : Nat) (s : State) : execKeyRollover r f k s = hostCmd { cmd := 0x0B06, need := .keys } r (fun w t =>
    checked (t.keyWriteChecks (decide (f < 8)) ++
        [((t.slot (f + 8)).st != 1, .state), ((tget none t.nv.rolls f).isSome, .state),
         ((t.slot (f + 8)).gen == 0xFFFF, .range), (t.badTgt k, .range)] ++ t.lateTgt k 65536 ++
        [(t.parentOrphaned (t.slot (f + 8)).attr, .orphaned)])
      (.deferred k (t.rolledOver f k w))) s := by
  simp only [execKeyRollover, State.rolledOver]

/-- Settles O42. -/
theorem keysAreInvalidatedAndRolledOver : Obligations.KeysAreInvalidatedAndRolledOver := by
  intro s r x hs hlcs hroot hseal t
  refine ⟨fun n h2 h64 hst hroll hw1 hw2 => ?_, fun n h64 hst => ?_, fun n hn => ?_, fun f k hf hst => ?_,
    fun f k hf hst hroll hgen hk hph hlo hhi hpar => ?_⟩
  · have hslots : t.SlotsOk := ⟨by rw [s.taken_nv]; exact hw1, by rw [s.taken_keys]; exact hw2⟩
    obtain ⟨hok, hl⟩ := orphan_spec (t.descendants n) hslots
    have hn : n ∉ s.descendants n := fun h => by simp [State.descendants] at h
    have hbody : checked (t.keyWriteChecks (decide (n < 64)) ++
        [((t.slot n).st == 0, .state), (decide (2 ≤ n) && t.rolloverBelow n, .state), (decide (n < 2), .range)])
        (.ok [(((t.descendants n).map (fun n => 2 ^ n)).foldl (· + ·) 0, 8)] (t.invalidated n)) =
        .ok [(((t.descendants n).map (fun n => 2 ^ n)).foldl (· + ·) 0, 8)] (t.invalidated n) := by
      rw [decide_eq_true h64, keyWriteChecks_pass hseal (by rwa [s.taken_nv]) (by rwa [s.taken_keys]), show t.rolloverBelow n = false from hroll,
        decide_eq_false (Nat.not_lt.mpr h2)]
      simp [hst, t]
    simp only [exec, execKeyInvalidate_eq]
    refine ⟨_, hostCmd_ok hs hbody, ?_⟩
    have hslot (d : Nat) := answered_slot (t.invalidated n) r x 0x0B05 .ok [(((t.descendants n).map (fun n => 2 ^ n)).foldl (· + ·) 0, 8)] d
    simp only [hslot, invalidated_slot, ← taken_descendants s r x n]
    refine ⟨setSlot_slot_same hok n {}, fun d hd => ?_, fun d hd hnd => ?_⟩
    · rw [setSlot_slot_ne hok _ (fun e => hn (by rw [taken_descendants] at hd; rwa [e] at hd))]
      exact (hl d).1 hd
    · rw [setSlot_slot_ne hok _ hd, (hl d).2.1 hnd, s.taken_slot]
  · simp only [exec, execKeyInvalidate]
    refine hostCmd_refused hs (st := .state) (d := 0) ?_ (by simp)
    have hcs := keyWriteChecks_pass hseal (by rwa [s.taken_nv]) (by rwa [s.taken_keys])
    rw [decide_eq_true h64, hcs]
    rcases hst with h | ⟨h, h'⟩
    · simp [h]
    · simp [h, show (s.taken r x).rolloverBelow n = true from h']
  · simp only [exec, execKeyInvalidate]
    refine hostCmd_refused hs (st := .range) (d := 0) ?_ (by simp)
    rcases hn with ⟨h, h'⟩ | h
    · have hcs := keyWriteChecks_pass hseal (by rwa [s.taken_nv]) (by rwa [s.taken_keys])
      rw [decide_eq_true (show n < 64 by omega), hcs]
      simp [h, h', Nat.not_le.mpr h]
    · simp [State.keyWriteChecks, hseal, Nat.not_lt.mpr h]
  · simp only [exec, execKeyRollover_eq]
    refine hostCmd_refused hs (st := .state) (d := 0) ?_ (by simp)
    rw [decide_eq_true hf, keyWriteChecks_pass hseal (by rwa [s.taken_nv]) (by rwa [s.taken_keys])]
    rcases hst with h | h
    · simp [h]
    · by_cases h1 : (s.slot (f + 8)).st = 1
      · simp [h, h1]
      · simp [h1]
  · have hbody : checked (t.keyWriteChecks (decide (f < 8)) ++
        [((t.slot (f + 8)).st != 1, .state), ((tget none t.nv.rolls f).isSome, .state),
         ((t.slot (f + 8)).gen == 0xFFFF, .range), (t.badTgt k, .range)] ++ t.lateTgt k 65536 ++
        [(t.parentOrphaned (t.slot (f + 8)).attr, .orphaned)]) (.deferred k (t.rolledOver f k (x.who r))) =
        .deferred k (t.rolledOver f k (x.who r)) := by
      rw [decide_eq_true hf, keyWriteChecks_pass hseal (by rwa [s.taken_nv]) (by rwa [s.taken_keys])]
      simp [t, hst, hroll, hgen, hk, hph, hpar, State.badTgt, State.lateTgt, State.started, Nat.not_lt.mpr hlo, Nat.not_lt.mpr hhi]
    simp only [exec, execKeyRollover_eq]
    refine ⟨_, hostCmd_deferred hs hbody, ?_⟩
    have hu := answered_said (t.rolledOver f k (x.who r)) r x 0x0B06 .deferred [(k, 6)]
    simp only [State.answered, hu.nv, hu.keys, rolledOver_nv, rolledOver_keys]
    have hslot : t.slot (f + 8) = s.slot (f + 8) := s.taken_slot r x (f + 8)
    have hkey (g : Nat) : t.feederKey f g = s.feederKey f g := by simp [State.feederKey, t]
    rw [hslot, hkey, show t.nv = s.nv from s.taken_nv r x]
    clear_value t
    refine ⟨?_, ⟨⟨(s.slot (f + 8)).attr, s.feederKey f ((s.slot (f + 8)).gen + 1), _, _⟩, tget_tset_of_ne (Option.some_ne_none _), rfl⟩, rfl⟩
    change tget none (s.nv.setRolls _).rolls f = _
    rw [Nv.setRolls_rolls]
    exact tget_tset_of_ne (by simp)

end Sys2Proof.Machine
end

