-- ==== Sys2Proof/Proofs/MemAccess.lean ====
section
/-!
PROOFS. MEM READ and MEM WRITE (11 R379; 01 R48, R54; 17 R513).
-/
namespace Sys2Proof.Machine
open Sys2Proof

/-! ## Bytes -/

theorem leBytes_ofBytes {l : List Nat} (h : ∀ b ∈ l, b < 256) : leBytes l.length (ofBytes l) = l := by
  induction l with
  | nil => rfl
  | cons b l ih =>
    have hb := h b (List.mem_cons_self ..)
    simp only [List.length_cons, leBytes, ofBytes]
    rw [show (b % 256 + 256 * ofBytes l) % 256 = b by omega, show (b % 256 + 256 * ofBytes l) / 256 = ofBytes l by omega,
      ih fun c hc => h c (List.mem_cons_of_mem _ hc)]

theorem byteAt_lt (s : State) (a : Nat) : s.byteAt a < 256 := by
  unfold State.byteAt Mem.get
  split
  · exact Nat.mod_lt _ (by decide)
  · split
    · exact BitVec.isLt _
    · cases memDefault a with
      | none => exact Nat.mod_lt _ (by decide)
      | some b => exact b.isLt

@[simp] theorem length_bytesAt (s : State) (a n : Nat) : (s.bytesAt a n).length = n := by simp [State.bytesAt]

theorem bytesAt_add (s : State) (a m n : Nat) : s.bytesAt a (m + n) = s.bytesAt a m ++ s.bytesAt (a + m) n := by
  simp only [State.bytesAt, rangeFrom_eq_range', ← List.map_append, List.range'_append_1]

/-! ## Reading -/

theorem visit_undamaged {s : State} {a : Nat} (h : s.isPoisoned a = false) : s.visit a [] = (true, s) := by
  simp only [State.visit, h, Bool.false_eq_true, if_false, show damaged [] = 0 by decide]

theorem readAcc_memory {s : State} {m : Master} {a width : Nat} (ha : a % width = 0) (hans : s.answers a = true)
    (hmem : isRam a = true ∨ isFlash a = true) (hp : s.isPoisoned a = false) :
    s.readAcc m a width [] = (some (ofBytes (s.bytesAt a width)), s) := by
  have hm : (isRam a || isFlash a) = true := by simpa using hmem
  simp [State.readAcc, ha, hans, hm, visit_undamaged hp]

theorem memLost_none (len a : Nat) : memLost len a none = false := by simp [memLost]

theorem memReads_memory {s : State} {len width n : Nat} {a : Nat} (hw : 0 < width) (ha : a % width = 0)
    (h : ∀ i, i < n * width → (isRam (a + i) = true ∨ isFlash (a + i) = true) ∧ s.answers (a + i) = true ∧ s.isPoisoned (a + i) = false) :
    s.memReads len width [] none a n = (none, s.bytesAt a (n * width), s) := by
  induction n generalizing a with
  | zero => simp [State.memReads, State.bytesAt, rangeFrom]
  | succ n ih =>
    obtain ⟨hmem, hans, hp⟩ := h 0 (by rw [Nat.succ_mul]; omega)
    rw [Nat.add_zero] at hmem hans hp
    have hrest := ih (a := a + width) (by rw [Nat.add_mod_right]; exact ha) fun i hi => by
      rw [Nat.add_assoc]
      exact h (width + i) (by rw [Nat.succ_mul]; omega)
    have hbytes : leBytes width (ofBytes (s.bytesAt a width)) = s.bytesAt a width := by
      have := leBytes_ofBytes (l := s.bytesAt a width) fun b hb => by
        obtain ⟨c, -, rfl⟩ := List.mem_map.mp hb
        exact byteAt_lt s c
      rwa [length_bytesAt] at this
    rw [State.memReads, show foundAt [] a = [] from rfl, readAcc_memory ha hans hmem hp]
    simp only [memLost_none, Bool.false_eq_true, if_false, hrest, hbytes]
    rw [Nat.succ_mul, Nat.add_comm (n * width), bytesAt_add]

/-- An access that fails at once (01 R50). -/
theorem readAcc_fails {s : State} {m : Master} {a width : Nat}
    (h : s.answers a = false ∨ ((isRam a = true ∨ isFlash a = true) ∧ s.isPoisoned a = true)) :
    s.readAcc m a width [] = (none, s.busErr m a false) := by
  unfold State.readAcc
  rcases h with h | ⟨hm, hp⟩
  · simp [h]
  · have hm' : (isRam a || isFlash a) = true := by simpa using hm
    have hv : s.visit a [] = (false, s) := by simp [State.visit, hp]
    simp only [hm', hv, if_true, Bool.false_eq_true, if_false]
    split <;> rfl

theorem engineStops_memMaster (s : State) (len : Nat) : s.engineStops (memMaster len) = s := by
  unfold memMaster; split <;> rfl

theorem busErr_mem (s : State) (len a : Nat) (write : Bool) : (s.busErr (memMaster len) a write).mem = s.mem := by
  unfold State.busErr
  rw [engineStops_memMaster]
  exact (raiseHw_said ..).mem

/-! ## Writing -/

theorem Mem.get_put_of_outside {m : Mem} {a y : Nat} (l : List Nat) (h : m.wf = true) (hy : y < a ∨ a + l.length ≤ y) :
    (m.put a l).get y = m.get y := by
  induction l generalizing m a with
  | nil => rfl
  | cons b l ih =>
    rw [List.length_cons] at hy
    rw [Mem.put, ih (Mem.set_wf _ _ h) (by omega), Mem.get_set_ne _ h (by omega)]

theorem Mem.get_put {m : Mem} {a i b : Nat} {l : List Nat} (h : m.wf = true) (hb : l[i]? = some b) (hlt : b < 256) : (m.put a l).get (a + i) = b := by
  induction l generalizing m a i with
  | nil => simp at hb
  | cons c l ih =>
    cases i with
    | zero =>
      obtain rfl : c = b := by simpa using hb
      rw [Mem.put, Mem.get_put_of_outside _ (Mem.set_wf _ _ h) (by omega), Nat.add_zero, Mem.get_set_same _ _ h]
      exact Nat.mod_eq_of_lt hlt
    | succ i =>
      rw [Mem.put, show a + (i + 1) = a + 1 + i by omega]
      exact ih (Mem.set_wf _ _ h) (by simpa using hb)

theorem Mem.put_poisoned (m : Mem) (a : Nat) (l : List Nat) : (m.put a l).poisoned = m.poisoned := by
  induction l generalizing m a with
  | nil => rfl
  | cons b l ih => exact ih ..

/-- Plain memory takes the bytes as they are. -/
theorem setBytes_plain {s : State} {a : Nat} {l : List Nat} (h : ∀ i, i < l.length → viewAt (a + i) = none) :
    s.setBytes a l = { s with mem := s.mem.put a l } := by
  induction l generalizing s a with
  | nil => rfl
  | cons b l ih =>
    have h0 := h 0 (by simp)
    rw [Nat.add_zero] at h0
    have hset : s.setByte a b = { s with mem := s.mem.set a (BitVec.ofNat 8 b) } := by simp only [State.setByte, h0]
    rw [State.setBytes, ih fun i hi => by
      rw [Nat.add_assoc]
      exact h (1 + i) (by simp; omega), hset]
    rfl

/-- A whole word written to plain memory (17 R513): its bytes, and no damage. -/
theorem memWrites_word {s : State} {a : Nat} {data : List Nat} (hlen : data.length = 16) (hdata : ∀ b ∈ data, b < 256) (ha : a % 16 = 0)
    (hram : isRam a = true) (hans : s.answers a = true) (hview : ∀ i, i < 16 → viewAt (a + i) = none) :
    s.memWrites 16 16 data [] none a 1 = (none, { s with mem := (s.unpoison a).mem.put a data }) := by
  have hle : leBytes 16 (ofBytes (data.take 16)) = data := by
    have := leBytes_ofBytes hdata
    rw [List.take_of_length_le (Nat.le_of_eq hlen)]
    rwa [hlen] at this
  have hput := setBytes_plain (s := s.unpoison a) (l := data) fun i hi => hview i (by omega)
  have hacc (v : Nat) : s.writeAcc (memMaster 16) a 16 v [] = (true, (s.unpoison a).setBytes a (leBytes 16 v)) := by
    simp [State.writeAcc, ha, hans, hram]
  simp only [State.memWrites, memLost_none, Bool.false_eq_true, if_false, foundAt, List.find?_nil, Option.map_none, Option.getD_none, hacc, hle, hput]
  rfl

/-! ## The forms of the table (11 R379) -/

theorem memBad_iff {a w n : Nat} :
    memBad a w n = true ↔ w ∉ [1, 2, 4, 8, 16] ∨ n = 0 ∨ 1024 < n ∨ a % w ≠ 0 ∨ n % w ≠ 0 := by
  simp only [memBad, decide_eq_true_eq, Bool.not_eq_true', List.contains_eq_mem, decide_eq_false_iff_not]

/-- A range of the table takes one access at least. -/
theorem accesses_of_ok {a w n : Nat} (h : memBad a w n = false) : ∃ k, n / w = k + 1 := by
  have hno := (not_congr (memBad_iff (a := a) (w := w) (n := n))).mp (by simp [h])
  have hn : n ≠ 0 := fun e => hno (.inr (.inl e))
  obtain ⟨k, rfl⟩ := Nat.dvd_of_mod_eq_zero (Decidable.not_not.mp fun e => hno (.inr (.inr (.inr (.inr e)))))
  have hw : 0 < w := Nat.pos_of_ne_zero fun e => hn (by rw [e, Nat.zero_mul])
  have hk : k ≠ 0 := fun e => hn (by rw [e, Nat.mul_zero])
  exact ⟨k - 1, by rw [Nat.mul_div_cancel_left k hw]; omega⟩

/-- A code that arises during execution (11 R352). -/
theorem hostCmd_ended {c : CmdSpec} {r : Req} {body : Who → State → Ans} {s : State} {x : Session} {st : Status} {pay : Payload} {t : State}
    (h : Served s r x c.need) (hb : body (x.who r) (s.taken r x) = .ended st pay t) :
    hostCmd c r body s = .next (t.answered r x c.cmd st pay) := by
  rw [hostCmd_served h, hb]; rfl

/-- Settles O48. -/
theorem memReadsWhatMemWrote : Obligations.MemReadsWhatMemWrote := by
  intro s r x t
  refine ⟨fun a w n hs hw hn hn' ha hnw h => ?_, fun a data hs hlen hdata ha hram hans hview hwf => ?_, fun a w n l p hs hbad => ?_,
    fun a w data l p hs hbad => ?_, fun a w n hs hok hfail => ?_, fun a w data hs hok hfail => ?_⟩
  · have hok : memBad a w n = false := by simp [memBad] at hw ⊢; omega
    obtain ⟨k, rfl⟩ := Nat.dvd_of_mod_eq_zero hnw
    have hpos : 0 < w := Nat.pos_of_ne_zero fun e => by simp [e] at hn
    have hread := memReads_memory (s := t) (len := w * k) (n := k) hpos ha (fun i hi => h i (by rwa [Nat.mul_comm]))
    rw [Nat.mul_comm k w] at hread
    simp only [exec, execMemRead]
    refine hostCmd_ok hs ?_
    rw [checked_cons, hok, Nat.mul_div_cancel_left k hpos, hread]
    rfl
  · have hok : memBad a 16 16 = false := by simp [memBad, ha]
    have hwrite := memWrites_word (s := t) hlen hdata ha hram hans hview
    have hwf' : t.mem.wf = true := by rw [s.taken_mem]; exact hwf
    have hwf'' : (t.unpoison a).mem.wf = true := hwf'
    simp only [exec, execMemWrite]
    refine ⟨_, hostCmd_ok hs (by rw [checked_cons, hlen, hok, Nat.div_self (by decide), hwrite]; rfl), ?_, fun i b hi => ?_, fun y hy => ?_, ?_⟩
    · simp [State.isPoisoned, Mem.put_poisoned, State.unpoison]
    · exact Mem.get_put hwf'' hi (hdata b (List.mem_of_getElem? hi))
    · rw [Mem.get_put_of_outside _ hwf'' (by omega), ← s.taken_mem r x]
      rfl
    · clear_value t
      rfl
  · have hbad' : memBad a w n = true := memBad_iff.mpr hbad
    simp only [exec, execMemRead]
    exact hostCmd_refused hs (by rw [checked_cons, hbad']; rfl) (by simp)
  · have hbad' : memBad a w data.length = true := memBad_iff.mpr (by rwa [List.length_eq_zero_iff])
    simp only [exec, execMemWrite]
    exact hostCmd_refused hs (by rw [checked_cons, hbad']; rfl) (by simp)
  · obtain ⟨k, hk⟩ := accesses_of_ok hok
    have hread : t.memReads n w [] none a (k + 1) = (some (.busError, a), [], t.busErr (memMaster n) a false) := by
      simp only [State.memReads, memLost_none, Bool.false_eq_true, if_false, show foundAt [] a = [] from rfl, readAcc_fails hfail]
    simp only [exec, execMemRead]
    exact ⟨_, hostCmd_ended hs (by rw [checked_cons, hok, hk, hread]; rfl), busErr_mem ..⟩
  · obtain ⟨k, hk⟩ := accesses_of_ok hok
    have hwrite : t.memWrites data.length w data [] none a (k + 1) = (some (.busError, a), t.busErr (memMaster data.length) a true) := by
      simp [State.memWrites, memLost_none, State.writeAcc, hfail]
    simp only [exec, execMemWrite]
    exact ⟨_, hostCmd_ended hs (by rw [checked_cons, hok, hk, hwrite]; rfl), busErr_mem ..⟩

end Sys2Proof.Machine
end

