-- ==== Sys2Proof/Proofs/HostTables.lean ====
section
/-!
PROOFS. The host commands GRAPH, ACCORD and LINK (11 R362, R366, R367): the commands' own checks, pages and effects.
-/
namespace Sys2Proof.Machine
open Sys2Proof

/-! ## Checks and pages -/

theorem taken_badTgt {s : State} {r : Req} {x : Session} {k : Nat} (h0 : k ≠ 0) (h : k ≤ s.tb.hcn + 2147483648) : (s.taken r x).badTgt k = false := by
  simp [State.badTgt, h0, Nat.not_lt.mpr h]

theorem taken_lateTgt {s : State} {r : Req} {x : Session} {k lead : Nat} (hp : s.pow.phase = .complete) :
    (s.taken r x).lateTgt k lead = [(false, .busy), (decide (k < s.tb.hcn + lead), .late)] := by
  simp [State.lateTgt, State.started, hp]

section
variable {c : CmdSpec} {r : Req} {body : Who → State → Ans} {s : State} {x : Session}

/-- A page of a table inside it (11 R354). -/
theorem hostCmd_page {total first count size head : Nat} {pre : Payload} {item : Nat → Payload} (hs : Served s r x c.need)
    (hb : body (x.who r) (s.taken r x) = paged total first count size pre item (s.taken r x))
    (hhead : (pre.map Prod.snd).foldl (· + ·) 0 = head) (h : first < total) :
    hostCmd c r body s =
      .next ((s.taken r x).answered r x c.cmd .ok (pagePay total first (pageCount total first count size head) pre item)) :=
  hostCmd_ok hs (by simp [hb, paged, Nat.not_le.mpr h, ← hhead])

/-- A page that begins beyond its table (11 R354). -/
theorem hostCmd_pageBeyond {total first count size : Nat} {pre : Payload} {item : Nat → Payload} (hs : Served s r x c.need)
    (hb : body (x.who r) (s.taken r x) = paged total first count size pre item (s.taken r x)) (h : total ≤ first) :
    hostCmd c r body s = .next ((s.taken r x).answered r x c.cmd .range [(0, 4)]) :=
  hostCmd_refused hs (by simp [hb, paged, h]) (by simp)
end

/-! ## LINK (11 R362) -/

/-- Settles O23. -/
theorem linkCommandsTakeEffect : Obligations.LinkCommandsTakeEffect := by
  intro s r x t
  refine ⟨fun hs => ?_, fun f a hs => ⟨fun hf ha => ?_, fun h => ?_⟩, fun f k hs => ⟨fun h => ?_, fun hf hk hsp hv => ?_, fun hf hk h => ?_⟩⟩ <;>
    simp only [exec, execLinkStatus, execLinkAttenSet, execLinkStageSet]
  · exact hostCmd_ok hs rfl
  · exact hostCmd_ok hs (by simp [Nat.not_lt.mpr hf, Nat.not_lt.mpr ha, t, State.onNv, State.onWtx])
  · exact hostCmd_refused hs (by simp [h]) (by simp)
  · exact hostCmd_refused hs (by simp [h]) (by simp)
  · exact hostCmd_ok hs (by simp [Nat.not_lt.mpr hf, Nat.not_lt.mpr hk, hsp, hv, t, State.onWtx])
  · have hno : (s.wtx.spare == some k && s.wtx.spareValid) = false := by
      rcases h with h | h <;> simp [h]
    exact hostCmd_refused hs (by simp [Nat.not_lt.mpr hf, Nat.not_lt.mpr hk, hno]) (by simp)

/-! ## GRAPH: the table writes (05 R190; 11 R366) -/

@[simp] theorem taken_notStopped (s : State) (r : Req) (x : Session) : (s.taken r x).notStopped = (s.sil.st != .stopped) := by
  simp [State.notStopped]

/-- Settles O26. -/
theorem graphWritesOnlyInStopped : Obligations.GraphWritesOnlyInStopped := by
  intro s r x hs t
  refine ⟨fun hst => ⟨fun first l h1 h2 h3 => ?_, fun first l h1 h2 h3 => ?_, fun first l h => ?_, fun first l h => ?_, fun c l hc hl => ?_,
    fun c l hc => ?_, fun k p hk => ?_, fun k p hk => ?_, fun a b ha hb => ?_⟩,
    fun hst => ⟨fun first l => ?_, fun first l => ?_, fun c l => ?_, fun k p => ?_, fun a b => ?_, fun g => ?_⟩⟩ <;>
    simp only [exec, execGraphEdgeWrite, execGraphNodeWrite, execGraphCurveWrite, execGraphSlewWrite, execGraphCfgWrite, execGraphRestart]
  · exact hostCmd_ok hs (by simp [hst, h1, h2, h3, t])
  · exact hostCmd_ok hs (by simp [hst, h1, h2, h3, t])
  · exact hostCmd_refused hs (by rw [decide_eq_false (show ¬ (1 ≤ l.length ∧ _) by omega)]; simp [hst]) (by simp)
  · exact hostCmd_refused hs (by rw [decide_eq_false (show ¬ (1 ≤ l.length ∧ _) by omega)]; simp [hst]) (by simp)
  · exact hostCmd_ok hs (by simp [hst, Nat.not_lt.mpr hc, List.take_of_length_le (Nat.le_of_eq hl), t])
  · exact hostCmd_refused hs (by simp [hst, hc]) (by simp)
  · exact hostCmd_ok hs (by simp [hst, Nat.not_lt.mpr hk, t])
  · exact hostCmd_refused hs (by simp [hst, hk]) (by simp)
  · exact hostCmd_ok hs (by simp [hst, Nat.mod_eq_of_lt ha, Nat.mod_eq_of_lt hb, t])
  · exact hostCmd_refused hs (by simp [hst]) (by simp)
  · exact hostCmd_refused hs (by simp [hst]) (by simp)
  · exact hostCmd_refused hs (by simp [hst]) (by simp)
  · exact hostCmd_refused hs (by simp [hst]) (by simp)
  · exact hostCmd_refused hs (by simp [hst]) (by simp)
  · exact hostCmd_refused hs (by simp [hst]) (by simp)

/-! ## GRAPH: RESTART, STOP and the reads (05 R188, R191, R192; 11 R367) -/

/-- The state after RESTART for HCN `k`. -/
def State.restartBound (t : State) (k : Nat) (w : Who) : State :=
  let b := t.sil.tab
  let u := t.onNv (fun v => v.setGraph ⟨b.edges, b.nodes, b.curves, b.slews, t.sil.substeps, t.sil.ageLimit⟩)
  (u.onSil (fun g => { g with st := .restartPending, rst := k, autoRestarted := false })).bind k w 0x0507 .graphRestart

theorem restartBound_spec (t : State) (k : Nat) (w : Who) :
    (t.restartBound k w).nv = t.nv.setGraph ⟨t.sil.tab.edges, t.sil.tab.nodes, t.sil.tab.curves, t.sil.tab.slews, t.sil.substeps, t.sil.ageLimit⟩ ∧
    (t.restartBound k w).sil = { t.sil with st := .restartPending, rst := k, autoRestarted := false } ∧
    (t.restartBound k w).acts = t.acts ++ [⟨k, 2, t.order, w.ses, w.seq, 0x0507, .graphRestart⟩] ∧ (t.restartBound k w).order = t.order + 1 ∧
    { t.restartBound k w with nv := t.nv, sil := t.sil, acts := t.acts, order := t.order } = t := ⟨rfl, rfl, rfl, rfl, rfl⟩

theorem execGraphRestart_eq (r : Req) (k : Nat) (s : State) : execGraphRestart r k s = hostCmd { cmd := 0x0507, need := .configure } r (fun w t =>
    checked [(t.notStopped, .state), (t.badTgt k, .range)]
      (match t.graphFault with
       | some d => .no .range d
       | none => checked (t.lateTgt k 4 ++ [(t.actsFull, .busy)]) (.deferred k (t.restartBound k w)))) s := rfl

/-- The state of STOP with its restart discarded and its own completion still to come. -/
def State.restartsDiscarded (t : State) : State :=
  (t.acts.filter (fun a => decide (a.what = ActWhat.graphRestart))).foldl (fun (u : State) a => u.complete a.ses a.seq a.cmd .discarded [])
    { t with acts := t.acts.filter (fun a => !decide (a.what = ActWhat.graphRestart)) }

theorem execGraphStop_eq (r : Req) (s : State) : execGraphStop r s = hostCmd { cmd := 0x0501, need := .configure } r (fun w t =>
    checked [(t.sil.st == .stopped, .state)]
      (if t.restartsDiscarded.sil.pass.isSome then .later (t.restartsDiscarded.onSil (fun g => { g with stopBy := g.stopBy ++ [(w.ses, w.seq)] }))
       else .ok [] t.restartsDiscarded.silStopped)) s := rfl

theorem restartsDiscarded_sil (t : State) : t.restartsDiscarded.sil = t.sil :=
  ((foldl_complete_said _ (Said.refl _)).sil :)

theorem silStopped_sil (v : State) : v.silStopped.sil = { v.sil with st := .stopped, stopBy := [] } := by
  have hfold (l : List (Nat × Nat)) {u w : State} (h : Said u w) : Said u (l.foldl (fun s w => s.answer ⟨w.1, w.2⟩ 0x0501 .ok []) w) := by
    induction l generalizing w with
    | nil => exact h
    | cons a l ih => exact ih (h.trans (answer_said ..))
  exact ((hfold v.sil.stopBy (Said.refl _)).sil :)

/-- Settles O27. -/
theorem graphCommandsTakeEffect : Obligations.GraphCommandsTakeEffect := by
  refine ⟨fun s r x hs => ⟨fun k hst hp hk0 hk => ⟨fun hok hk4 hfull => ?_, fun d hd => ?_⟩, fun hst => ?_, fun hst => ⟨fun hpass => ?_,
    fun hpass => ?_⟩, fun v => ⟨by rw [silStopped_sil], by rw [silStopped_sil]⟩⟩, fun s r x hs => ?_⟩
  · refine ⟨(s.taken r x).restartBound k (x.who r), ?_, ?_⟩
    · simp only [exec, execGraphRestart_eq]
      exact hostCmd_deferred hs (by simp [hst, taken_badTgt hk0 hk, taken_lateTgt hp, hok, hfull, Nat.not_lt.mpr hk4])
    · have hsil : (s.taken r x).sil = s.sil := s.taken_sil r x
      have hacts : (s.taken r x).acts = s.acts := s.taken_acts r x
      have horder : (s.taken r x).order = s.order := s.taken_order r x
      have hnv : (s.taken r x).nv = s.nv := s.taken_nv r x
      rw [← hsil, ← hacts, ← horder, ← hnv]
      exact restartBound_spec (s.taken r x) k (x.who r)
  · simp only [exec, execGraphRestart_eq]
    exact hostCmd_refused hs (by simp [hst, taken_badTgt hk0 hk, hd]) (by simp)
  · simp only [exec, execGraphStop_eq]
    exact hostCmd_refused hs (by simp [hst]) (by simp)
  · simp only [exec, execGraphStop_eq]
    exact hostCmd_ok (t := (s.taken r x).restartsDiscarded.silStopped) hs (by simp [hst, restartsDiscarded_sil, hpass])
  · simp only [exec, execGraphStop_eq]
    exact hostCmd_later (t := (s.taken r x).restartsDiscarded.onSil (fun g => { g with stopBy := g.stopBy ++ [(x.id, r.seq)] })) hs
      (by simp [hst, restartsDiscarded_sil, hpass, Session.who])
  · refine ⟨fun first count => ?_, fun first count => ?_, fun first count => ?_, fun first count => ?_, fun first count => ?_, fun first count => ?_,
      fun first count => ?_, fun first count k hk => ?_, ?_⟩ <;> simp only [exec, execGraphRead, execGraphStatus]
    · exact ⟨hostCmd_page hs rfl rfl, hostCmd_pageBeyond hs rfl⟩
    · exact ⟨hostCmd_page hs rfl rfl, hostCmd_pageBeyond hs rfl⟩
    · exact ⟨hostCmd_page hs rfl rfl, hostCmd_pageBeyond hs rfl⟩
    · exact ⟨hostCmd_page hs rfl rfl, hostCmd_pageBeyond hs rfl⟩
    · exact ⟨hostCmd_page hs rfl rfl, hostCmd_pageBeyond hs rfl⟩
    · exact ⟨hostCmd_page hs rfl rfl, hostCmd_pageBeyond hs rfl⟩
    · exact ⟨hostCmd_page hs rfl rfl, hostCmd_pageBeyond hs rfl⟩
    · obtain ⟨m, rfl⟩ : ∃ m, k = m + 7 := ⟨k - 7, by omega⟩
      exact hostCmd_refused hs rfl (by simp)
    · exact hostCmd_ok hs rfl

/-! ## ACCORD (08 R266-R275; 11 R370) -/

/-- The state after ACCORD SNAPSHOT for HCN `k`. -/
def State.accordSnapBound (t : State) (k : Nat) (w : Who) : State :=
  let u := t.bind k w 0x0806 .accordSnap
  { u with accord := { u.accord with snap := if u.accord.snap.st = SnapState.filling then u.accord.snap else { u.accord.snap with st := .pending, t := k } } }

theorem execAccordSnapshot_eq (r : Req) (k : Nat) (s : State) : execAccordSnapshot r k s = hostCmd { cmd := 0x0806, need := .read } r (fun w t =>
    let k := if k = 0 then t.tb.hcn + 4 else k
    checked ([(t.started && decide (t.tb.hcn + 2147483648 < k), .range)] ++ t.lateTgt k 4 ++ [(t.actsFull, .busy)])
      (.deferred k (t.accordSnapBound k w))) s := rfl

/-- Settles O34. -/
theorem accordCommandsTakeEffect : Obligations.AccordCommandsTakeEffect := by
  intro s r x t ahead
  refine ⟨fun k first es hs hp hk0 hk hne hlen hfit hfull => ?_, fun k first es hs h => ?_, fun k first es hs hp hk0 hk hne hlen hfit => ?_,
    fun w hs => ?_, fun thr tol hs h1 h2 h3 => ?_, fun thr tol hs h => ?_, fun k hs hp hk hfull => ?_, fun hs => ?_⟩
  · simp only [exec, execAccordModelSet]
    have hok : ¬ (es.length = 0 ∨ 173 < es.length ∨ 16384 < first + es.length) := by
      have := List.length_pos_iff.mpr hne
      omega
    refine hostCmd_deferred hs ?_
    simp only [taken_badTgt hk0 hk.2, taken_lateTgt hp, decide_eq_false hok, decide_eq_false (Nat.not_lt.mpr hk.1), show (s.taken r x).actsFull = false from hfull]
    rfl
  · simp only [exec, execAccordModelSet]
    exact hostCmd_refused hs (by rw [decide_eq_true (by simpa using h)]; rfl) (by simp)
  · simp only [exec, execAccordModelSet]
    have hok : ¬ (es.length = 0 ∨ 173 < es.length ∨ 16384 < first + es.length) := by
      have := List.length_pos_iff.mpr hne
      omega
    refine hostCmd_refused hs ?_ (by simp)
    simp only [taken_badTgt hk0 (show k ≤ s.tb.hcn + 2147483648 by omega), taken_lateTgt hp, decide_eq_false hok, decide_eq_true hk]
    rfl
  · simp only [exec, execAccordDefaultSet]
    exact hostCmd_ok hs rfl
  · simp only [exec, execAccordCfgSet]
    refine hostCmd_ok hs ?_
    rw [decide_eq_false (by omega)]
    rfl
  · simp only [exec, execAccordCfgSet]
    refine hostCmd_refused hs ?_ (by simp)
    rw [decide_eq_true h]
    rfl
  · intro b
    simp only [exec, execAccordSnapshot_eq]
    have hb : s.tb.hcn + 4 ≤ b ∧ b ≤ s.tb.hcn + 2147483648 := by
      simp only [b, ahead] at hk ⊢
      split <;> omega
    have hfar : ((s.taken r x).started && decide (s.tb.hcn + 2147483648 < b)) = false := by simp [Nat.not_lt.mpr hb.2]
    rw [show s.accord.snap.st = t.accord.snap.st by rw [s.taken_accord]]
    refine hostCmd_deferred (t := t.accordSnapBound b (x.who r)) hs ?_
    simp only [s.taken_tb, taken_lateTgt hp, show (s.taken r x).actsFull = false from hfull]
    simp only [show (if k = 0 then s.tb.hcn + 4 else k) = b from rfl, hfar, decide_eq_false (Nat.not_lt.mpr hb.1)]
    rfl
  · refine ⟨fun first n h => ?_, fun first n h => ?_, fun first n h => ?_, fun first n h hst => ?_, fun first n h hst => ?_,
      fun first n k hk h hst => ?_, fun first n k h => ?_, ?_⟩ <;>
      simp only [exec, execAccordModelRead, execAccordAccountRead, execAccordPhaseRead, execAccordSnapRead, execAccordStatus, ← s.taken_accord r x]
    · exact hostCmd_page hs rfl rfl h
    · exact hostCmd_page hs rfl rfl h
    · exact hostCmd_page hs rfl rfl h
    · exact hostCmd_page hs (by simp [hst, h]) rfl h
    · exact hostCmd_page hs (by simp [hst, h]) rfl h
    · have hin : ¬ (1 < k ∨ (if k = 0 then 16384 else 24) ≤ first) := by omega
      exact hostCmd_refused hs (by simp [hst, hin]) (by simp)
    · exact hostCmd_refused hs (by simp [h]) (by simp)
    · exact hostCmd_ok hs rfl

end Sys2Proof.Machine
end

