-- ==== Sys2Proof/Proofs/EventLog.lean ====
section
/-!
PROOFS. The event recorder (16): reading, clearing and rates (11 R378), and the entry that a total at its limit puts into intake.
-/
namespace Sys2Proof.Machine
open Sys2Proof

/-! ## The events (16 R502-R506) -/

/-- A module whose total of suppressed events is one below its limit, and whose code 0700h has no token. -/
def suppNearLimit : State := { State.reset with
  pow := { State.reset.pow with phase := .complete }
  ev := { State.reset.ev with suppTotal := 0xFFFFFFFE, buckets := [(0x0700, { tokens := 0 })] } }

theorem suppNearLimit_raise : ((suppNearLimit.tick {}).raise (queueOf .m) 0x0700 0 []).ev.qX.length = 1 := by decide

/-- Refutes O47: the suppression that takes the total to its limit puts COUNTER_STUCK (0004h) into the chip's queue, so the queues do change. -/
theorem not_eventsAreQueuedWrittenAndCleared : ¬ Obligations.EventsAreQueuedWrittenAndCleared := by
  intro h
  obtain ⟨-, -, hsupp⟩ := (h suppNearLimit {}).1 .m 0x0700 0 [] (by decide) (by decide) (by decide)
  obtain ⟨u, hu, -, hq⟩ := hsupp (by decide) (by decide)
  have hout : exec (.evtinPortPush {} .m 0x0700 0 []) suppNearLimit = .next ((suppNearLimit.tick {}).raise (queueOf .m) 0x0700 0 []) := by
    simp only [exec, execEvtinPortPush, show (suppNearLimit.tick {}).runs .m = true by decide, if_true]
  have heq := Host.Outcome.next.inj (hout.symm.trans hu)
  have hlen := congrArg List.length (hq .chip)
  rw [← heq] at hlen
  exact absurd (suppNearLimit_raise.symm.trans hlen) (by decide)

/-! ## LOG (11 R378) -/

theorem examine_length (budget n : Nat) (hit : BitVec 512 → Bool) (last : Option Nat) (l : List (BitVec 512)) :
    (examine budget n hit last l).1.length ≤ n := by
  induction l generalizing budget n last with
  | nil => simp [examine]
  | cons w l ih =>
    match budget, n with
    | 0, _ => simp [examine]
    | _ + 1, 0 => simp [examine]
    | b + 1, n + 1 =>
      simp only [examine]
      split
      · simpa using ih b n _
      · exact ih b (n + 1) _

theorem mem_examine {budget n : Nat} {hit : BitVec 512 → Bool} {last : Option Nat} {l : List (BitVec 512)} {w : BitVec 512}
    (h : w ∈ (examine budget n hit last l).1) : w ∈ l ∧ hit w = true := by
  induction l generalizing budget n last with
  | nil => simp [examine] at h
  | cons v l ih =>
    match budget, n with
    | 0, _ => simp [examine] at h
    | _ + 1, 0 => simp [examine] at h
    | b + 1, n + 1 =>
      simp only [examine] at h
      split at h
      · rename_i hv
        rcases List.mem_cons.mp h with rfl | h
        · exact ⟨List.mem_cons_self .., hv⟩
        · exact ⟨List.mem_cons_of_mem _ (ih h).1, (ih h).2⟩
      · exact ⟨List.mem_cons_of_mem _ (ih h).1, (ih h).2⟩

/-! What raises an event, and what sends a message, leaves alone what the recorder has written. -/

/-- Intake without its queues, its drops and suppressions: where the next record goes, and whether one may be written. -/
def Intake.log (e : Intake) : Intake :=
  { e with qC := [], qD := [], qM := [], qX := [], dropC := {}, dropD := {}, dropM := {}, dropX := {}, buckets := [], waitSum := [],
           suppTotal := 0, dropTotal := 0 }

theorem push_log (e : Intake) (k : Queue) (x : EvEntry) : (e.push k x).log = e.log := by
  cases k <;> simp only [Intake.push, Intake.setQ, Intake.setDrop] <;> split <;> rfl

theorem raiseOne_log (s : State) (k : Queue) (code src : Nat) (pay : List Nat) : (s.raiseOne k code src pay).ev.log = s.ev.log := by
  simp only [State.raiseOne]
  split
  · rfl
  · rw [push_log]
    split <;> rfl

theorem raise_log (s : State) (k : Queue) (code src : Nat) (pay : List Nat) : (s.raise k code src pay).ev.log = s.ev.log := by
  simp only [State.raise, State.totalsTold]
  split <;> simp only [raiseOne_log]

theorem endSession_log (s : State) (id : Nat) (why : EndCause) : (s.endSession id why).ev.log = s.ev.log := by
  unfold State.endSession
  split
  · rfl
  · simp only
    split
    · rfl
    · exact raise_log ..

theorem say_ev (s : State) (usb : Bool) (o : Out) : (s.say usb o).ev = s.ev := by
  unfold State.say
  split
  · rfl
  · simp only [State.sendFrame]
    split <;> rfl

theorem sendOn_log (s : State) (id : Nat) (o : Session → Nat → Out) : (s.sendOn id o).ev.log = s.ev.log := by
  unfold State.sendOn
  split
  · rfl
  · simp only
    split
    · rw [endSession_log, say_ev]; rfl
    · rw [say_ev]; rfl

theorem notify_log (s : State) (id cmd : Nat) (final : Bool) (st : Status) (pay : Payload) :
    (s.notify id cmd final st pay).ev.log = s.ev.log := by
  have hstuck (t : State) (b : Bool) : (t.stuckFw .m b).ev.log = t.ev.log := by
    unfold State.stuckFw
    split
    · exact raise_log ..
    · rfl
  unfold State.notify
  split
  · rfl
  · split
    · rfl
    · simp only
      split
      · rw [sendOn_log, hstuck]; rfl
      · split
        · rw [sendOn_log]; exact hstuck ..
        · exact hstuck ..

theorem eventNote_log (s : State) (w : BitVec 512) : (s.eventNote w).ev.log = s.ev.log := by
  unfold State.eventNote
  generalize (List.map _ _) = l
  induction l generalizing s with
  | nil => rfl
  | cons i l ih => exact (ih _).trans (notify_log ..)

theorem eventNote_said (s : State) (w : BitVec 512) : Said s (s.eventNote w) := by
  unfold State.eventNote
  generalize (List.map _ _) = l
  induction l generalizing s with
  | nil => exact .refl s
  | cons i l ih => exact (notify_said ..).trans (ih _)

theorem portCount_log (s : State) (p max addr lsb : Nat) (rd : EthPort → Nat) (wr : EthPort → Nat → EthPort) :
    (s.portCount p max addr lsb rd wr).ev.log = s.ev.log := by
  simp only [State.portCount, State.stuckIf]
  split
  · exact raise_log ..
  · rfl

theorem prpTouch_log (s : State) (p src : Nat) : (s.prpTouch p src).ev.log = s.ev.log := by
  simp only [State.prpTouch]
  split
  · rfl
  · split
    · rfl
    · split
      · rw [State.raiseGen, State.raiseFw, raise_log, portCount_log]; rfl
      · rw [portCount_log]; rfl

theorem prpTake_log (s : State) (a : Arrival) : (s.prpTake a).2.ev.log = s.ev.log := by
  simp only [State.prpTake]
  split
  · exact prpTouch_log ..
  · have hnote (t : State) (src q : Nat) : (t.prpNote src q).ev.log = t.ev.log := rfl
    split <;> split <;> simp only [hnote, portCount_log, prpTouch_log]

theorem taken_log (s : State) (r : Req) (x : Session) : (s.taken r x).ev.log = s.ev.log := by
  change ((s.tick r.dt).arrived r).2.ev.log = (s.tick r.dt).ev.log
  generalize s.tick r.dt = t
  simp only [State.arrived]
  split
  · rfl
  · split
    · rfl
    · split
      · exact portCount_log ..
      · split
        · exact prpTake_log ..
        · split
          · exact (portCount_log ..).trans (prpTake_log ..)
          · exact prpTake_log ..

/-- A record forced into the circular area (R510). -/
theorem writeRec_circular (s : State) (e : EvEntry) : (s.writeRec e true).ev.nextSeq = (s.ev.nextSeq + 1) % 4294967296 ∧
    (s.writeRec e true).nv.permArea = s.nv.permArea ∧
    (s.writeRec e true).nv.circArea = tset 0 s.nv.circArea s.ev.circNext (evWord s.ev.nextSeq false e) := by
  have hperm : ((s.nv.permStarted || (startsPerm e && !true)) && !true && decide (s.ev.permNext < permSlots)) = false := by simp
  have hseq (t : State) (w : BitVec 512) : (t.eventNote w).ev.nextSeq = t.ev.nextSeq := (congrArg Intake.nextSeq (eventNote_log t w) :)
  simp only [State.writeRec, hperm, Bool.false_eq_true, if_false, hseq, (eventNote_said _ _).nv, and_self]

/-- Refused with BUSY, whose RETRY_MS is a free value (R609). -/
theorem hostCmd_busy {c : CmdSpec} {r : Req} {body : Who → State → Ans} {s : State} {x : Session} {d : Nat} (h : Served s r x c.need)
    (hb : body (x.who r) (s.taken r x) = .no .busy d) :
    ∃ ms, hostCmd c r body s = .next (State.answered { s.taken r x with fresh := (s.taken r x).fresh + 1 } r x c.cmd .busy [(ms, 2)]) := by
  rw [hostCmd_served h, hb]
  exact ⟨_, rfl⟩

/-- The state after CLEAR by the session `x` (R510). -/
def State.logCleared (t : State) (serial : Nat) : State :=
  (t.writeRec (t.entry 0x0003 (srcFw .m) (leBytes 20 serial ++ leBytes 4 ((t.ev.nextSeq + 4294967295) % 4294967296)) false) true).onEv
    (fun e => { e with clearing := true, paused := true, suppTotal := 0, dropTotal := 0 })

theorem execLogClear_eq (r : Req) (s : State) : execLogClear r s = hostCmd { cmd := 0x0D02, need := .clear } r (fun w t =>
    checked [(t.ev.clearing, .busy)]
      (.ok [(t.ev.nextSeq, 4)] (t.logCleared (((t.session w.ses).map Session.serial).getD 0)))) s := rfl

/-- Settles O46. -/
theorem logCommandsTakeEffect : Obligations.LogCommandsTakeEffect := by
  intro s r x t
  refine ⟨fun area start n sev code hs => ⟨fun ha h1 h21 hsev => ?_, fun h => ?_⟩, fun hs => ⟨fun hc => ?_, fun hc => ?_⟩,
    fun code n hs => ⟨fun hr h1 h6000 => ?_, fun h => ?_⟩, fun hs => ?_⟩
  · intro l y
    refine ⟨?_, examine_length .., fun w hw => ?_⟩
    · simp only [exec, execLogRead]
      refine hostCmd_ok hs ?_
      rw [decide_eq_false (by omega)]
      rfl
    · obtain ⟨hl, hhit⟩ := mem_examine hw
      simp only [l, List.mem_filter, Bool.not_eq_true'] at hl
      simp only [Bool.and_eq_true, decide_eq_true_eq, Bool.or_eq_true, beq_iff_eq] at hhit
      exact ⟨hl.1, hhit.1, hhit.2, hl.2⟩
  · simp only [exec, execLogRead]
    exact hostCmd_refused hs (by simp [h]) (by simp)
  · have ht : t.ev.clearing = false := ((congrArg Intake.clearing (taken_log s r x) :).trans hc :)
    have hser : ((t.session (x.who r).ses).map Session.serial).getD 0 = x.serial := by
      rw [show (x.who r).ses = x.id from rfl, taken_session hs.2.1]
      simp only [Option.map_some, Option.getD_some, Session.accept]
      split <;> rfl
    obtain ⟨hseq, hperm, hcirc⟩ := writeRec_circular t
      (t.entry 0x0003 (srcFw .m) (leBytes 20 x.serial ++ leBytes 4 ((t.ev.nextSeq + 4294967295) % 4294967296)) false)
    refine ⟨t.logCleared x.serial, ?_, rfl, rfl, rfl, rfl, hseq, ?_, fun hwf => ?_⟩
    · simp only [exec, execLogClear_eq]
      exact hostCmd_ok hs (by rw [hser, checked_cons, ht]; rfl)
    · rw [← s.taken_nv r x]; exact hperm
    · rw [← s.taken_nv r x] at hwf
      exact (congrArg (tget 0 · t.ev.circNext) hcirc).trans (tget_tset_same _ _ hwf)
  · have ht : t.ev.clearing = true := ((congrArg Intake.clearing (taken_log s r x) :).trans hc :)
    simp only [exec, execLogClear_eq]
    exact hostCmd_busy hs (by rw [checked_cons, ht]; rfl)
  · simp only [exec, execLogRateSet]
    refine hostCmd_ok hs ?_
    rw [checked_cons, decide_eq_false (by simp [hr]; omega), ← s.taken_nv r x]
    rfl
  · simp only [exec, execLogRateSet]
    refine hostCmd_refused hs ?_ (by simp)
    rw [decide_eq_true (by simpa using h)]
    rfl
  · simp only [exec, execLogStatus]
    exact hostCmd_ok hs rfl

end Sys2Proof.Machine
end

