-- ==== Sys2Proof/Proofs/Nodes.lean ====
section
/-!
PROOFS. The host commands NODE (11 R363-R365): registration, configuration of a node, and the level actions.
-/
namespace Sys2Proof.Machine
open Sys2Proof

/-! ## Registration (R363; 14 R434, R440) -/

/-- Another EUI holds or waits for the address `fixed`. -/
def State.addrTaken (t : State) (eui : Nat) (fixed : Option Nat) : Bool :=
  match fixed with
  | some a => t.nv.regs.any (fun x => x.eui != eui && (x.fixed == some a || x.addr == some a))
      || (t.feeder (a / 2048)).joins.any (fun j => j.eui != eui && j.idx == a % 2048)
  | none => false

theorem addrTaken_iff {t : State} {eui : Nat} {fixed : Option Nat} : t.addrTaken eui fixed = false ↔ ∀ a, fixed = some a →
    (∀ g ∈ t.nv.regs, g.eui ≠ eui → g.fixed ≠ some a ∧ g.addr ≠ some a) ∧
      ∀ j ∈ (t.feeder (a / 2048)).joins, j.eui = eui ∨ j.idx ≠ a % 2048 := by
  cases fixed with
  | none => simp [State.addrTaken]
  | some a => simp [State.addrTaken, or_iff_not_imp_left]

/-- The registration `old` of an EUI stands against its install key and its address. -/
def regStands (old : Option Reg) (ik : Nat) (fixed : Option Nat) : Bool :=
  match old with
  | some x => x.usable && (x.ik != ik || x.fixed != fixed)
  | none => false

/-- The state with the EUI registered. -/
def State.withReg (t : State) (eui ik : Nat) (fixed : Option Nat) : State :=
  let usable := (t.slot 4).st == 1
  match t.nv.regs.find? (fun x => x.eui == eui) with
  | some g => if (!g.usable) = true then t.onReg eui (fun x => { x with ik := ik, fixed := fixed, usable := usable }) else t
  | none => t.onNv (fun v => { v with regs := v.regs ++ [{ eui := eui, ik := ik, fixed := fixed, usable := usable }] })

/-- What REGISTER answers under a key that unwraps. -/
def State.regAns (t : State) (eui ik : Nat) (fixed : Option Nat) : Ans :=
  let old := t.nv.regs.find? (fun x => x.eui == eui)
  checked [(regStands old ik fixed || t.addrTaken eui fixed, .conflict), (old.isNone && decide (16384 ≤ t.nv.regs.length), .full)]
    (.ok [] (t.withReg eui ik fixed))

theorem execNodeRegister_eq (r : Req) (eui wik wikA addr : Nat) (s : State) : execNodeRegister r eui wik wikA addr s =
    hostCmd { cmd := 0x0401, need := .configure } r (fun w t =>
      let key := unwrapIk (t.kxOf w.ses) wik wikA
      checked [((if addr = 0xFFFF then none else some addr).elim false (fun a => decide (16383 < a)), .range)]
        (if key.isNone then .no .range 1 else t.regAns eui (key.getD 0) (if addr = 0xFFFF then none else some addr))) s := by
  refine congrArg (fun b => hostCmd _ r b s) (funext fun w => funext fun t => ?_)
  unfold State.regAns State.withReg State.addrTaken regStands
  generalize unwrapIk (t.kxOf w.ses) wik wikA = key
  by_cases h : addr = 0xFFFF
  · simp only [if_pos h, Option.elim_none]
    cases t.nv.regs.find? (fun x => x.eui == eui) <;> rfl
  · simp only [if_neg h, Option.elim_some]
    cases t.nv.regs.find? (fun x => x.eui == eui) <;> rfl

section
variable {t : State} {eui ik : Nat} {fixed : Option Nat}

theorem regAns_new (hf : t.addrTaken eui fixed = false) (hold : t.nv.regs.find? (fun x => x.eui == eui) = none) (hroom : t.nv.regs.length < 16384) :
    t.regAns eui ik fixed = .ok [] { t with nv := { t.nv with
      regs := t.nv.regs ++ [{ eui := eui, ik := ik, fixed := fixed, usable := (t.slot 4).st == 1 }] } } := by
  simp [State.regAns, State.withReg, regStands, hold, hf, Nat.not_le.mpr hroom, State.onNv]

theorem regAns_full (hf : t.addrTaken eui fixed = false) (hold : t.nv.regs.find? (fun x => x.eui == eui) = none) (hroom : 16384 ≤ t.nv.regs.length) :
    t.regAns eui ik fixed = .no .full 0 := by
  simp [State.regAns, regStands, hold, hf, hroom]

theorem regAns_replaces {g : Reg} (hf : t.addrTaken eui fixed = false) (hold : t.nv.regs.find? (fun x => x.eui == eui) = some g)
    (hu : g.usable = false) :
    t.regAns eui ik fixed = .ok [] (t.onReg eui (fun x => { x with ik := ik, fixed := fixed, usable := (t.slot 4).st == 1 })) := by
  simp [State.regAns, State.withReg, regStands, hold, hf, hu]

theorem regAns_stands {g : Reg} (hf : t.addrTaken eui fixed = false) (hold : t.nv.regs.find? (fun x => x.eui == eui) = some g)
    (hu : g.usable = true) (hik : g.ik = ik) (hfix : g.fixed = fixed) : t.regAns eui ik fixed = .ok [] t := by
  simp [State.regAns, State.withReg, regStands, hold, hf, hu, hik, hfix]

theorem regAns_conflict {g : Reg} (hold : t.nv.regs.find? (fun x => x.eui == eui) = some g) (hu : g.usable = true)
    (hne : g.ik ≠ ik ∨ g.fixed ≠ fixed) : t.regAns eui ik fixed = .no .conflict 0 := by
  have hclash : (g.ik != ik || g.fixed != fixed) = true := by simpa using hne
  simp [State.regAns, regStands, hold, hu, hclash]

theorem regAns_taken (hf : t.addrTaken eui fixed = true) : t.regAns eui ik fixed = .no .conflict 0 := by
  simp [State.regAns, hf]
end

theorem taken_addrTaken_iff {s : State} {r : Req} {x : Session} {eui : Nat} {fixed : Option Nat} :
    (s.taken r x).addrTaken eui fixed = false ↔ ∀ a, fixed = some a →
      (∀ g ∈ s.nv.regs, g.eui ≠ eui → g.fixed ≠ some a ∧ g.addr ≠ some a) ∧
        ∀ j ∈ (s.feeder (a / 2048)).joins, j.eui = eui ∨ j.idx ≠ a % 2048 := by
  simp only [addrTaken_iff, State.feeder, s.taken_nv, s.taken_fdr]

/-- An address that there is, or none. -/
theorem addr_exists {addr : Nat} (h : addr ≤ 16383 ∨ addr = 0xFFFF) :
    (if addr = 0xFFFF then none else some addr).elim false (fun a => decide (16383 < a)) = false := by
  split
  · rfl
  · simp; omega

theorem nodeRegister_spec {s : State} {r : Req} {x : Session} (hs : Served s r x .configure) {eui wik wikA addr ik : Nat}
    (hk : unwrapIk ((s.taken r x).kxOf x.id) wik wikA = some ik) (ha : addr ≤ 16383 ∨ addr = 0xFFFF) :
    let t := s.taken r x
    let fixed := if addr = 0xFFFF then none else some addr
    (∀ u, t.regAns eui ik fixed = .ok [] u → exec (.nodeRegister r eui wik wikA addr) s = .next (u.answered r x 0x0401 .ok [])) ∧
      (∀ st, st ≠ .busy → t.regAns eui ik fixed = .no st 0 → exec (.nodeRegister r eui wik wikA addr) s = .next (t.answered r x 0x0401 st [(0, 4)])) := by
  intro t fixed
  simp only [exec, execNodeRegister_eq]
  refine ⟨fun u hu => hostCmd_ok hs ?_, fun st hst hno => hostCmd_refused hs ?_ hst⟩
  · simp only [show (x.who r).ses = x.id from rfl, hk, addr_exists ha, checked_cons]
    exact hu
  · simp only [show (x.who r).ses = x.id from rfl, hk, addr_exists ha, checked_cons]
    exact hno

/-! ## Items of the background (04 R146; R364) -/

theorem taken_bgWrite {s : State} {r : Req} {x : Session} {a : Nat} {i : Item} (ha : a ≤ 16383) :
    (s.joinedAt a = true → ¬ 4096 ≤ (tget [] s.nv.bg (a / 2048)).length →
      (s.taken r x).bgWrite a false i = .ok [] ((s.taken r x).addBg (a / 2048) i false)) ∧
    (s.joinedAt a = true → 4096 ≤ (tget [] s.nv.bg (a / 2048)).length → (s.taken r x).bgWrite a false i = .no .full 0) ∧
    (s.joinedAt a = false → (s.taken r x).bgWrite a false i = .no .notFound 0) := by
  have hjoin : (s.taken r x).joinedAt a = s.joinedAt a := by simp [State.joinedAt]
  refine ⟨fun hj hroom => ?_, fun hj hfull => ?_, fun hj => ?_⟩
  · simp [State.bgWrite, Nat.not_lt.mpr ha, hjoin, hj, Nat.not_le.mp hroom]
  · simp [State.bgWrite, Nat.not_lt.mpr ha, hjoin, hj, hfull]
  · simp [State.bgWrite, Nat.not_lt.mpr ha, hjoin, hj]

theorem bgWrite_range {t : State} {a : Nat} {i : Item} {bad : Bool} (h : (decide (16383 < a) || bad) = true) : t.bgWrite a bad i = .no .range 0 := by
  simp [State.bgWrite, h]

/-- Settles O24. -/
theorem nodeCommandsTakeEffect : Obligations.NodeCommandsTakeEffect := by
  refine ⟨fun s r x hs => ?_, fun s r x => ?_⟩
  · intro t
    refine ⟨fun eui wik wikA addr ik hk ha => ?_, fun eui wik wikA addr ha hk => ?_, fun eui wik wikA addr h1 h2 => ?_, fun eui hold => ?_,
      fun eui g hold haddr => ?_, fun eui g a hold haddr => ⟨fun hno => ?_, fun hyes => ?_⟩⟩
    · intro fixed free old
      obtain ⟨hok, hno⟩ := nodeRegister_spec hs hk ha (eui := eui)
      have hfree : free ↔ t.addrTaken eui fixed = false := taken_addrTaken_iff.symm
      have hnv : t.nv = s.nv := s.taken_nv r x
      have hslot : t.slot 4 = s.slot 4 := s.taken_slot r x 4
      have hold : t.nv.regs.find? (fun g => g.eui == eui) = old := by rw [hnv]
      refine ⟨fun hf h hroom => hok _ ?_, fun hf h hroom => hno _ (by simp) ?_, fun g hf h hu => hok _ ?_, fun g hf h hu hik hfix => hok _ ?_,
        fun g h hu hne => hno _ (by simp) ?_, fun hf => hno _ (by simp) ?_⟩
      · rw [regAns_new (hfree.mp hf) (hold.trans h) (by rwa [hnv]), hnv, hslot]
      · exact regAns_full (hfree.mp hf) (hold.trans h) (by rwa [hnv])
      · rw [regAns_replaces (hfree.mp hf) (hold.trans h) hu, hslot]
      · exact regAns_stands (hfree.mp hf) (hold.trans h) hu hik hfix
      · exact regAns_conflict (hold.trans h) hu hne
      · exact regAns_taken (by simpa using mt hfree.mpr hf)
    · simp only [exec, execNodeRegister_eq]
      refine hostCmd_refused hs ?_ (by simp)
      rw [show unwrapIk ((s.taken r x).kxOf (x.who r).ses) wik wikA = none from hk]
      simp [addr_exists ha]
    · simp only [exec, execNodeRegister_eq]
      exact hostCmd_refused hs (by simp [h2, h1]) (by simp)
    · simp only [exec, execNodeDeregister]
      exact hostCmd_refused hs (by simp [hold]) (by simp)
    · simp only [exec, execNodeDeregister]
      exact hostCmd_ok hs (by simp [hold, haddr, t])
    · simp only [exec, execNodeDeregister]
      exact hostCmd_ok hs (by simp only [s.taken_nv, hold, haddr, hno]; rfl)
    · simp only [exec, execNodeDeregister]
      exact hostCmd_ok hs (by simp only [s.taken_nv, hold, haddr, hyes]; rfl)
  · intro t full
    refine ⟨fun first count hs => ⟨fun h => ?_, fun h => ?_⟩, fun a hs => ⟨fun ha hj => ?_, fun ha hj => ?_, fun ha => ?_⟩,
      fun a g k v hs => ?_, fun a k l hs => ?_, fun a k v hs => ?_⟩
    · simp only [exec, execNodeRead]
      exact hostCmd_page hs rfl rfl h
    · simp only [exec, execNodeRead]
      exact hostCmd_pageBeyond hs rfl h
    · simp only [exec, execNodeGroupsRead]
      refine hostCmd_ok hs ?_
      simp only [show (s.taken r x).joinedAt a = true by simpa [State.joinedAt] using hj, checked_cons, decide_eq_false (Nat.not_lt.mpr ha),
        show (s.taken r x).ncfg a = s.ncfg a by simp [State.ncfg]]
      rfl
    · simp only [exec, execNodeGroupsRead]
      have hj' : (s.taken r x).joinedAt a = false := by simpa [State.joinedAt] using hj
      exact hostCmd_refused hs (by simp [hj', Nat.not_lt.mpr ha]) (by simp)
    · simp only [exec, execNodeGroupsRead]
      exact hostCmd_refused hs (by simp [ha]) (by simp)
    all_goals
      simp only [exec, execNodeGroupSet, execNodeSceneSet, execNodeParamSet]
    · refine ⟨fun ha hg hk hv hj hroom => hostCmd_ok hs ?_, fun ha hg hk hv hj hfull => hostCmd_refused hs ?_ (by simp),
        fun ha hg hk hv hj => hostCmd_refused hs ?_ (by simp), fun h => hostCmd_refused hs (bgWrite_range (by simp; omega)) (by simp)⟩
      all_goals rw [decide_eq_false (by omega)]
      · exact (taken_bgWrite ha).1 hj hroom
      · exact (taken_bgWrite ha).2.1 hj hfull
      · exact (taken_bgWrite ha).2.2 hj
    · refine ⟨fun ha hk hl hj hroom => hostCmd_ok hs ?_, fun ha hk hl hj hfull => hostCmd_refused hs ?_ (by simp),
        fun ha hk hl hj => hostCmd_refused hs ?_ (by simp), fun h => hostCmd_refused hs (bgWrite_range (by simp; omega)) (by simp)⟩
      all_goals rw [decide_eq_false (by omega)]
      · exact (taken_bgWrite ha).1 hj hroom
      · exact (taken_bgWrite ha).2.1 hj hfull
      · exact (taken_bgWrite ha).2.2 hj
    · refine ⟨fun ha hk hv hkv hj hroom => hostCmd_ok hs ?_, fun ha hk hv hkv hj hfull => hostCmd_refused hs ?_ (by simp),
        fun ha hk hv hkv hj => hostCmd_refused hs ?_ (by simp), fun h => hostCmd_refused hs (bgWrite_range (by simp; omega)) (by simp)⟩
      all_goals rw [decide_eq_false (by omega)]
      · exact (taken_bgWrite ha).1 hj hroom
      · exact (taken_bgWrite ha).2.1 hj hfull
      · exact (taken_bgWrite ha).2.2 hj

/-! ## Level actions (R365; 02 R86-R88) -/

/-- Settles O25. -/
theorem levelActionsAreBoundToTheirTarget : Obligations.LevelActionsAreBoundToTheirTarget := by
  intro s r x k hs hp hk0 hk t
  have hbad : (s.taken r x).badTgt k = false := taken_badTgt hk0 hk
  have hlate (lead : Nat) := taken_lateTgt (r := r) (x := x) (k := k) (lead := lead) hp
  refine ⟨fun g l hg hl => ⟨fun hlead hfull hlink => ?_, fun hlead => ?_⟩, fun scope g n hsc hg hn => ?_,
    fun scope id l e hid hl he => ⟨fun hlead hfull => ?_, fun hlead => ?_⟩⟩
  · simp only [exec, execNodeLevel]
    have hlink' : (s.taken r x).linkFull (feedersOf ((s.taken r x).members g)) = false := hlink
    have hfull' : (s.taken r x).actsFull = false := hfull
    refine hostCmd_deferred hs ?_
    simp only [hbad, hlate, hfull', hlink', decide_eq_false (show ¬ (255 < g ∨ 10000 < l) by omega), decide_eq_false (Nat.not_lt.mpr hlead)]
    rfl
  · simp only [exec, execNodeLevel]
    refine hostCmd_refused hs ?_ (by simp)
    simp only [hbad, hlate, decide_eq_false (show ¬ (255 < g ∨ 10000 < l) by omega), decide_eq_true hlead]
    rfl
  · simp only [exec, execNodeScene]
    refine ⟨fun hlead hfull hlink => hostCmd_deferred hs ?_, fun hlead => hostCmd_refused hs ?_ (by simp)⟩
    · have hlink' : (s.taken r x).linkFull (feedersOf (if scope = 1 then (s.taken r x).allJoined else (s.taken r x).members g)) = false := hlink
      have hfull' : (s.taken r x).actsFull = false := hfull
      simp only [hbad, hlate, hfull', hlink', decide_eq_false (show ¬ (1 < scope ∨ 255 < g ∨ 63 < n) by omega), decide_eq_false (Nat.not_lt.mpr hlead)]
      rfl
    · simp only [hbad, hlate, decide_eq_false (show ¬ (1 < scope ∨ 255 < g ∨ 63 < n) by omega), decide_eq_true hlead]
      rfl
  all_goals
    have hok : ¬ (1 < scope ∨ (scope = 0 ∧ 16383 < id) ∨ (scope = 1 ∧ 255 < id) ∨ (10000 < l ∧ l ≠ unk) ∨ (e ≠ 0 ∧ e ≤ k)) := by omega
    simp only [exec, execNodeOverride]
  · have hfull' : (s.taken r x).actsFull = false := hfull
    refine hostCmd_deferred hs ?_
    simp only [hbad, hlate, hfull', decide_eq_false hok, decide_eq_false (Nat.not_lt.mpr hlead)]
    rfl
  · refine hostCmd_refused hs ?_ (by simp)
    simp only [hbad, hlate, decide_eq_false hok, decide_eq_true hlead]
    rfl

end Sys2Proof.Machine
end

