-- ==== Sys2Proof/Proofs/MeterCommands.lean ====
section
/-!
PROOFS. The host commands METER (07 R234-R251; 11 R369): the configuration, snapshots, subscriptions and reads.
-/
namespace Sys2Proof.Machine
open Sys2Proof

theorem taken_cfgWrite_free {t : State} {k : Nat} {w : Who} {cmd : Nat} {what : ActWhat} {store : MeterCfg → MeterCfg}
    (h : ∀ a ∈ t.acts, cfgSection a.what ≠ cfgSection what) :
    t.cfgWrite k w cmd what store = (t.onNv (fun v => v.setMeterCfg (store v.meterCfg))).bind k w cmd what := by
  have hnone : t.acts.filter (fun a => decide (cfgSection a.what = cfgSection what)) = [] :=
    List.filter_eq_nil_iff.mpr fun a ha => by simpa using h a ha
  have hall : t.acts.filter (fun a => !decide (cfgSection a.what = cfgSection what)) = t.acts :=
    List.filter_eq_self.mpr fun a ha => by simpa using h a ha
  simp only [State.cfgWrite, hnone, hall]
  rfl

/-- The state after METER SNAPSHOT for HCN `k` (07 R242). -/
def State.meterSnapBound (t : State) (k : Nat) (w : Who) : State :=
  let u := t.bind k w 0x0707 .meterSnap
  { u with meter := { u.meter with snap := if u.meter.snap.st = .filling then u.meter.snap else { u.meter.snap with st := .pending, t := k } } }

theorem execMeterSnapshot_eq (r : Req) (k : Nat) (s : State) : execMeterSnapshot r k s = hostCmd { cmd := 0x0707, need := .read } r (fun w t =>
    let k := if k = 0 then t.tb.hcn + 4 else k
    checked ([(t.started && decide (t.tb.hcn + 2147483648 < k), .range)] ++ t.lateTgt k 4 ++ [(t.actsFull, .busy)])
      (.deferred k (t.meterSnapBound k w))) s := rfl

/-- The records of consecutive HCNs that a history holds, all found. -/
theorem records_found {l ws : List (BitVec 640)} {h : Nat} (hw : ∀ j, j < ws.length → l.find? (fun v => recHcn v == h + j) = ws[j]?) :
    ((rangeFrom h ws.length).map (fun k => l.find? (fun v => recHcn v == k))).filterMap id = ws := by
  have hmap : (rangeFrom h ws.length).map (fun k => l.find? (fun v => recHcn v == k)) = ws.map some := by
    refine List.ext_getElem (by simp) fun i h1 h2 => ?_
    have hi : i < ws.length := by simpa using h1
    simp only [List.getElem_map, rangeFrom_eq_range', List.getElem_range', Nat.one_mul, hw i hi, List.getElem?_eq_getElem hi]
  rw [hmap]
  simp

/-- A record that the history does not hold leaves the answer short. -/
theorem records_missing {l : List (BitVec 640)} {h n j : Nat} (hj : j < n) (hnone : l.find? (fun v => recHcn v == h + j) = none) :
    (((rangeFrom h n).map (fun k => l.find? (fun v => recHcn v == k))).filterMap id).length ≠ n := by
  intro hlen
  have hall : ∀ o ∈ (rangeFrom h n).map (fun k => l.find? (fun v => recHcn v == k)), (id o).isSome := by
    refine List.filterMap_length_eq_length.mp ?_
    simpa using hlen
  have := hall none (List.mem_map.mpr ⟨h + j, mem_rangeFrom.mpr ⟨by omega, by omega⟩, hnone⟩)
  simp at this

theorem checked_append {pre cs : List (Bool × Status)} {k : Ans} (h : ∀ e ∈ pre, e.1 = false) : checked (pre ++ cs) k = checked cs k := by
  have hskip : pre.find? (fun e => e.1) = none := List.find?_eq_none.mpr fun e he => by simp [h e he]
  simp [checked, List.find?_append, hskip]

section
variable {s : State} {r : Req} {x : Session} {k : Nat}

/-- A METER write that stores a section: taken for HCN `k` with its lead, LATE below it. -/
theorem cfg_takes {body : Who → State → Ans} {cmd : Nat} {w : ActWhat} {pre : List (Bool × Status)} {c : CmdSpec} (hs : Served s r x c.need)
    (hp : s.pow.phase = .complete) (hpre : ∀ e ∈ pre, e.1 = false) (hc : c.cmd = cmd)
    (hb : body (x.who r) (s.taken r x) = checked (pre ++ (s.taken r x).lateTgt k 4 ++ [((s.taken r x).cfgFull w, .busy)])
      (.deferred k ((s.taken r x).cfgWrite k (x.who r) cmd w (fun c => c.write w)))) :
    (s.tb.hcn + 4 ≤ k → (s.taken r x).cfgFull w = false → hostCmd c r body s =
      .next (((s.taken r x).cfgWrite k (x.who r) cmd w (fun c => c.write w)).answered r x cmd .deferred [(k, 6)])) ∧
    (k < s.tb.hcn + 4 → hostCmd c r body s = .next ((s.taken r x).answered r x cmd .late [(0, 4)])) := by
  subst hc
  rw [taken_lateTgt hp, List.append_assoc, checked_append hpre, List.cons_append, List.cons_append, checked_cons, checked_cons] at hb
  refine ⟨fun hlead hfull => hostCmd_deferred hs (hb.trans ?_), fun hlead => hostCmd_refused hs (hb.trans ?_) (by simp)⟩
  · rw [decide_eq_false (Nat.not_lt.mpr hlead), hfull]
    rfl
  · rw [decide_eq_true hlead]
    rfl
end

/-- Settles O30. -/
theorem meterCommandsTakeEffect : Obligations.MeterCommandsTakeEffect := by
  refine ⟨fun s r x k hs hp hk0 hk => ?_, fun s r x => ?_, fun s r x hs => ?_⟩
  · intro t takes
    have hbad : (s.taken r x).badTgt k = false := taken_badTgt hk0 hk
    refine ⟨fun i h l hi hl hlo hhi hnlt => ?_, fun a b n c ha1 ha2 hb1 hb2 hn1 hn2 hc1 hc2 => ?_, fun o q m c ho hq hc => ?_, fun cmd w hfree => ?_⟩
    · intro l' htemps
      dsimp only [takes]
      simp only [exec, execMeterInputSet]
      refine cfg_takes hs hp (pre := [(l'.length != 16, .length), (decide (29 < i ∨ inFs h < (if i < 24 then (1000, 2000000) else (50000, 1000000)).1 ∨
        (if i < 24 then (1000, 2000000) else (50000, 1000000)).2 < inFs h ∨ inFs h ≤ 10 * inNlt h) || tempsFall l' || (s.taken r x).badTgt k, .range)])
        ?_ rfl rfl
      have hok : ¬ (29 < i ∨ inFs h < (if i < 24 then (1000, 2000000) else (50000, 1000000)).1 ∨
        (if i < 24 then (1000, 2000000) else (50000, 1000000)).2 < inFs h ∨ inFs h ≤ 10 * inNlt h) := by
        by_cases h24 : i < 24
        · simp only [if_pos h24] at hlo hhi ⊢
          omega
        · simp only [if_neg h24] at hlo hhi ⊢
          omega
      rw [decide_eq_false hok, htemps, hbad]
      simp [l', hl]
    · dsimp only [takes]
      simp only [exec, execMeterGlobalSet]
      refine cfg_takes hs hp (pre := [(decide (a < 50000 ∨ 300000 < a) || decide (b < 50000 ∨ 300000 < b) ||
        decide (n = 0 ∨ 60 < n ∨ c = 0 ∨ 720 < c) || (s.taken r x).badTgt k, .range)]) ?_ rfl rfl
      simp only [decide_eq_false (show ¬ (a < 50000 ∨ 300000 < a) by omega), decide_eq_false (show ¬ (b < 50000 ∨ 300000 < b) by omega),
        decide_eq_false (show ¬ (n = 0 ∨ 60 < n ∨ c = 0 ∨ 720 < c) by omega), hbad]
      simp
    · dsimp only [takes]
      simp only [exec, execMeterPulseSet, Nat.mod_eq_of_lt hc]
      refine cfg_takes hs hp (pre := [(decide (1 < o ∨ 9 < q) || (s.taken r x).badTgt k, .range)]) ?_ rfl rfl
      simp [hbad]; omega
    · exact taken_cfgWrite_free (fun a ha => hfree a (by rwa [s.taken_acts] at ha))
  · intro t
    refine ⟨fun k hs hp hk4 hk hfull => ?_, fun mask n hs h1 h2 => ?_, fun mask n hs h => ?_, fun mask hs => ?_, fun mask hs => ?_⟩
    · intro b
      simp only [exec, execMeterSnapshot_eq]
      have hb : s.tb.hcn + 4 ≤ b ∧ b ≤ s.tb.hcn + 2147483648 := by
        simp only [b]
        split <;> omega
      have hfar : ((s.taken r x).started && decide (s.tb.hcn + 2147483648 < b)) = false := by simp [Nat.not_lt.mpr hb.2]
      rw [show s.meter.snap.st = t.meter.snap.st by rw [s.taken_meter]]
      refine hostCmd_deferred (t := t.meterSnapBound b (x.who r)) hs ?_
      simp only [s.taken_tb, taken_lateTgt hp, show (s.taken r x).actsFull = false from hfull]
      simp only [show (if k = 0 then s.tb.hcn + 4 else k) = b from rfl, hfar, decide_eq_false (Nat.not_lt.mpr hb.1)]
      rfl
    · simp only [exec, execMeterSubscribe]
      exact hostCmd_ok hs (by rw [checked_cons, decide_eq_false (Nat.not_lt.mpr h2), if_neg (show n ≠ 0 by omega)]; rfl)
    · simp only [exec, execMeterSubscribe]
      exact hostCmd_refused hs (by simp [h]) (by simp)
    · simp only [exec, execMeterSubscribe]
      exact hostCmd_ok hs rfl
    · simp only [exec, execMeterSatClear]
      exact hostCmd_ok hs rfl
  · intro t
    have hacts : t.acts = s.acts := s.taken_acts r x
    have hmeter : t.meter = s.meter := s.taken_meter r x
    have hnv : t.nv = s.nv := s.taken_nv r x
    rw [← hacts, ← hmeter, ← hnv]
    refine ⟨fun n hn => ?_, fun h => if_pos (by rwa [s.taken_pow]), fun n hn => ?_, fun f h ws hf h1 h16 hw => ?_, fun f h n hbad => ?_, fun first n h hst => ?_,
      fun first n h hst => ?_, fun first n h => ?_, fun first n h => ⟨?_, ?_⟩, ?_⟩ <;>
      simp only [exec, execMeterCfgRead, execMeterRecordRead, execMeterSnapRead, execMeterAccRead, execMeterGapRead]
    · exact hostCmd_ok hs (by rw [checked_cons, decide_eq_false (Nat.not_lt.mpr hn)]; rfl)
    · exact hostCmd_refused hs (by simp [hn]) (by simp)
    · refine hostCmd_ok hs ?_
      rw [records_found hw, decide_eq_false (by omega)]
      simp [t]
    · refine hostCmd_refused hs ?_ (by simp)
      rw [checked_cons, if_pos]
      rcases hbad with hbad | hbad | hbad | ⟨j, hj, hnone⟩
      · simp [hbad]
      · simp [hbad]
      · simp [hbad]
      · rw [Bool.or_eq_true]
        exact .inr (bne_iff_ne.mpr (records_missing hj hnone))
    · exact hostCmd_page hs (by simp only [show (s.taken r x).meter.snap.st = .ready from hst, decide_eq_false (Nat.not_le.mpr h)]; rfl) rfl h
    · exact hostCmd_refused hs (by simp only [show (s.taken r x).meter.snap.st = .none from hst, decide_eq_false (Nat.not_le.mpr h)]; rfl) (by simp)
    · exact hostCmd_page hs rfl rfl h
    · exact hostCmd_refused hs (by simp [h]) (by simp)
    · exact hostCmd_pageBeyond hs rfl h
    · exact hostCmd_ok hs rfl

end Sys2Proof.Machine
end

