-- ==== Sys2Proof/Proofs/Schedules.lean ====
section
/-!
PROOFS. The schedules (06; 11 R368): what is stored, what the reads give, and the final conversion (06 R211).
-/
namespace Sys2Proof.Machine
open Sys2Proof

/-- The provisional targets of `t` within 256 HCN, which a final conversion takes. -/
def State.nearTargets (t : State) : List SchedTarget := t.sched.targets.filter (fun g => !g.final && decide (g.hcn ≤ t.tb.hcn + 256))

/-- The state whose near targets have left the list. -/
def State.farOnly (t : State) : State :=
  { t with sched := { t.sched with targets := t.sched.targets.filter (fun g => g.final || !decide (g.hcn ≤ t.tb.hcn + 256)) } }

theorem farOnly_eq {t : State} {far : List SchedTarget}
    (h : t.sched.targets.filter (fun g => g.final || !decide (g.hcn ≤ t.tb.hcn + 256)) = far) :
    t.farOnly = { t with sched := { t.sched with targets := far } } := by
  rw [State.farOnly, h]

/-- Targets that are final or farther than 256 HCN stay, and none of them is near. -/
theorem far_stays {far : List SchedTarget} {k : Nat} (h : ∀ g ∈ far, g.final = true ∨ k + 256 < g.hcn) :
    far.filter (fun g => g.final || !decide (g.hcn ≤ k + 256)) = far ∧ far.filter (fun g => !g.final && decide (g.hcn ≤ k + 256)) = [] := by
  refine ⟨List.filter_eq_self.mpr fun g hg => ?_, List.filter_eq_nil_iff.mpr fun g hg => ?_⟩
  · rcases h g hg with hf | hf <;> simp [hf]
  · rcases h g hg with hf | hf <;> simp [hf]

/-- The final conversion of the targets `near` (06 R211). -/
def State.convertAll (t : State) (near : List SchedTarget) : State × Nat :=
  near.foldl (fun (p : State × Nat) g => let q := p.1.finalOne g.group g.entry g.day g.sec; (q.1, p.2 + q.2)) (t, 0)

theorem exec_finalConversion {s : State} (dt : Dt) (hp : s.pow.phase = .complete) (hrun : s.runs .c = true) (hv : (s.tick dt).bk.valid = true) :
    exec (.finalConversion dt) s = .next (((s.tick dt).farOnly.convertAll (s.tick dt).nearTargets).1.convFailed (s.tick dt).today
      ((s.tick dt).farOnly.convertAll (s.tick dt).nearTargets).2) := by
  simp only [exec, execFinalConversion, State.started, State.tick_pow, State.tick_runs, hp, hrun, hv, decide_true, Bool.not_true, Bool.or_self,
    Bool.false_eq_true, if_false]
  rfl

/-- Settles O29. -/
theorem schedCommandsTakeEffect : Obligations.SchedCommandsTakeEffect := by
  refine ⟨fun s r x hs => ?_, fun s r x hs => ?_, fun s dt hp hrun hv => ?_⟩
  · simp only [← s.taken_nv r x]
    refine ⟨fun g h l hg hn hl hok hsum => ?_, fun c l hc hl hok => ?_, fun p hok => ?_, fun g h l hbad => ?_, fun c l hbad => ?_, fun p hbad => ?_⟩ <;>
      simp only [exec, execSchedWrite, execSchedHolWrite, execSchedSiteWrite]
    · refine hostCmd_ok hs (checked_pass ?_)
      rw [List.forall_mem_singleton, Bool.or_eq_false_iff, decide_eq_false_iff_not]
      exact ⟨by omega, List.any_eq_false.mpr fun w hw => by simp [hok w hw]⟩
    · refine hostCmd_ok hs ?_
      rw [checked_cons, decide_eq_false (by omega), List.any_eq_false.mpr fun w hw => by simp [hok w hw]]
      rfl
    · exact hostCmd_ok hs (by rw [checked_cons, hok]; rfl)
    · refine hostCmd_refused hs ?_ (by simp)
      rw [checked_cons, if_pos]
      rw [Bool.or_eq_true, decide_eq_true_eq, List.any_eq_true]
      by_cases he : ∃ w ∈ l, entryBad w = true
      · exact .inr he
      · refine .inl ?_
        simp only [he, false_or] at hbad
        omega
    · refine hostCmd_refused hs ?_ (by simp)
      rw [checked_cons, if_pos]
      rw [Bool.or_eq_true, decide_eq_true_eq, List.any_eq_true]
      exact or_assoc.mpr hbad
    · exact hostCmd_refused hs (by rw [checked_cons, hbad]; rfl) (by simp)
  · intro t
    rw [← show t.nv = s.nv from s.taken_nv r x, ← show t.sil = s.sil from s.taken_sil r x, ← show t.pow = s.pow from s.taken_pow r x]
    refine ⟨fun g hrank => ?_, fun g hrank => ?_, fun c hc => ?_, fun c hc => ?_, ?_, fun d hy hd => ?_, fun d hd => ?_, fun a ha => ?_, fun a ha => ?_⟩ <;>
      simp only [exec, execSchedRead, execSchedHolRead, execSchedSiteRead, execSchedSunRead, execSchedLimitsRead]
    · exact hostCmd_ok hs (by rw [if_pos hrank])
    · exact hostCmd_ok hs (by rw [if_neg (Nat.not_le.mpr hrank)]; rfl)
    · exact hostCmd_ok hs (by rw [checked_cons, decide_eq_false (Nat.not_lt.mpr hc)]; rfl)
    · exact hostCmd_refused hs (by rw [checked_cons, decide_eq_true hc]; rfl) (by simp)
    · exact hostCmd_ok hs rfl
    · exact hostCmd_ok hs (by rw [checked_cons, hd, beq_false_of_ne hy]; rfl)
    · exact hostCmd_refused hs (by rw [checked_cons, if_pos (by simpa using hd)]) (by simp)
    · exact hostCmd_ok hs (by rw [checked_cons, decide_eq_false (Nat.not_lt.mpr ha)]; rfl)
    · exact hostCmd_refused hs (by rw [checked_cons, decide_eq_true ha]; rfl) (by simp)
  · intro t
    have hexec := exec_finalConversion dt hp hrun hv
    have hstays {far : List SchedTarget} (h : ∀ g ∈ far, g.final = true ∨ s.tb.hcn + 256 < g.hcn) := far_stays (k := (s.tick dt).tb.hcn) h
    refine ⟨hexec, fun far hfar hall => ?_, fun g far hfar hg hle hall => ?_⟩
    · have hnil : (s.tick dt).nearTargets = [] := (congrArg _ hfar).trans (hstays hall).2
      have hfull : (s.tick dt).farOnly = s.tick dt := by
        rw [farOnly_eq (t := s.tick dt) ((congrArg _ hfar).trans (hstays hall).1), ← hfar]
        rfl
      rw [hexec, hnil, hfull]
      rfl
    · have hd : decide (g.hcn ≤ (s.tick dt).tb.hcn + 256) = true := decide_eq_true hle
      have hone : (s.tick dt).nearTargets = [g] := (congrArg _ hfar).trans (by rw [List.filter_cons_of_pos (by rw [hg, hd]; rfl), (hstays hall).2])
      have hrest := farOnly_eq (t := s.tick dt) (far := far)
        ((congrArg _ hfar).trans (by rw [List.filter_cons_of_neg (by rw [hg, hd]; simp), (hstays hall).1]))
      rw [hexec, hone, hrest]
      simp only [State.convertAll, List.foldl_cons, List.foldl_nil, Nat.zero_add]
      rfl

end Sys2Proof.Machine
end

