-- ==== Sys2Proof/Proofs/KeyWrites.lean ====
section
/-!
PROOFS. The KEY writes and reads (14 R431-R437, R448, R450, R461; 11 R374) and the tamper inputs (13 R427; 14 R456).
-/
namespace Sys2Proof.Machine
open Sys2Proof

/-! ## The checks of every write -/

theorem checked_sealed {t : State} {e : Bool} {cs : List (Bool × Status)} {k : Ans} (h : t.sealed = true) :
    checked (t.keyWriteChecks e ++ cs) k = .no .tamper 0 := by
  simp [State.keyWriteChecks, h]

theorem checked_keyWrite {t : State} {cs : List (Bool × Status)} {k : Ans} (hseal : t.sealed = false) (hlcs : t.nv.lcs ≠ 3) (hroot : t.keys.rootOk = true) :
    checked (t.keyWriteChecks true ++ cs) k = checked cs k := by
  simp [keyWriteChecks_pass hseal hlcs hroot]

/-- While a seal stands a write is refused with TAMPER (14 R461). -/
theorem hostCmd_sealed {c : CmdSpec} {r : Req} {body : Who → State → Ans} {s : State} {x : Session} {e : Bool} {cs : List (Bool × Status)} {k : Ans}
    (hs : Served s r x c.need) (hseal : (s.taken r x).sealed = true)
    (hb : body (x.who r) (s.taken r x) = checked ((s.taken r x).keyWriteChecks e ++ cs) k) :
    hostCmd c r body s = .next ((s.taken r x).answered r x c.cmd .tamper [(0, 4)]) :=
  hostCmd_refused hs (hb.trans (checked_sealed hseal)) (by simp)

/-! ## LOAD and GENERATE -/

/-- The pending twin `k` of slot `n`, under the KCV of its type (14 R434). -/
theorem setTwin_eq (t : State) (n : Nat) (a : BitVec 64) (k : Nat) : t.setTwin n a k =
    ({ t with keys := { t.keys with twins := tset none t.keys.twins n (some ⟨a, k, kcvOf (fld a 16 4) k, t.now⟩) } }, kcvOf (fld a 16 4) k) := rfl

/-- The key that the entropy source gives lies within the range of its type (14 R431). -/
theorem drawKey_spec (t : State) (type : Nat) : (t.drawKey type).2 = { t with fresh := t.fresh + 1 } ∧
    (type = 1 → (t.drawKey type).1 < 2 ^ 128) ∧ (type = 2 → (t.drawKey type).1 < 2 ^ 256) ∧
    (type = 3 → 1 ≤ (t.drawKey type).1 ∧ (t.drawKey type).1 < p256n) := by
  have hn : 1 < p256n := by decide
  unfold State.drawKey State.draw
  refine ⟨?_, fun h => ?_, fun h => ?_, fun h => ?_⟩
  · split <;> rfl
  · rw [if_neg (by omega), if_pos h]
    exact Nat.mod_lt _ (by decide)
  · rw [if_neg (by omega), if_neg (by omega)]
    exact Nat.mod_lt _ (by decide)
  · rw [if_pos h]
    have := Nat.mod_lt (Config.freeNat t.fresh) (show 0 < p256n - 1 by omega)
    exact ⟨Nat.le_add_left .., by dsimp only; omega⟩

/-- Its attributes fit slot `n`. -/
abbrev State.Fits (t : State) (n : Nat) (a : BitVec 64) : Prop := n < 64 ∧ t.attrBad n a = false ∧ usageBad (fld a 16 4) (fld a 0 6) = false ∧
  t.parentOrphaned a = false ∧ t.parentUsageBad a = false

/-- GENERATE: the key of slot `n`, and the state with a draw of the entropy source where it comes from there. -/
def State.generated (t : State) (n : Nat) (a : BitVec 64) : Nat × State :=
  if n = 4 then (t.segmentKey, t)
  else if 8 ≤ n ∧ n ≤ 15 then (t.feederKey (n - 8) 1, t)
  else t.drawKey (fld a 16 4)

section
variable {s : State} {r : Req} {x : Session} (hs : Served s r x .keys) (hlcs : s.nv.lcs ≠ 3) (hroot : s.keys.rootOk = true)
  (hseal : (s.taken r x).sealed = false)
include hs hlcs hroot hseal

omit hs in
theorem taken_keyWrite {cs : List (Bool × Status)} {k : Ans} : checked ((s.taken r x).keyWriteChecks true ++ cs) k = checked cs k :=
  checked_keyWrite hseal (by rwa [s.taken_nv]) (by rwa [s.taken_keys])

omit hs in
theorem taken_keyWriteOnly {k : Ans} : checked ((s.taken r x).keyWriteChecks true) k = k := by
  simpa using taken_keyWrite (cs := []) (k := k) hlcs hroot hseal

theorem exec_keyGenerate {n : Nat} {a : BitVec 64} (hf : (s.taken r x).Fits n a) (hidle : 8 ≤ n → n ≤ 15 → ((s.taken r x).slot n).st ≠ 1) :
    exec (.keyGenerate r n a) s = .next ((((s.taken r x).generated n a).2.setTwin n a ((s.taken r x).generated n a).1).1.answered r x 0x0B03 .ok
      [(kcvOf (fld a 16 4) ((s.taken r x).generated n a).1, 3)]) := by
  obtain ⟨hn, hattr, huse, horp, hpar⟩ := hf
  simp only [exec, execKeyGenerate]
  refine hostCmd_ok hs ?_
  have hact : (decide (8 ≤ n ∧ n ≤ 15) && ((s.taken r x).slot n).st == 1) = false := by
    by_cases h : 8 ≤ n ∧ n ≤ 15
    · rw [beq_false_of_ne (hidle h.1 h.2), Bool.and_false]
    · simp [h]
  rw [decide_eq_true hn, taken_keyWrite hlcs hroot hseal, hact, hattr, huse, horp, hpar]
  simp only [State.generated]
  split
  · rfl
  · split <;> rfl

theorem exec_keyLoad {n : Nat} {a : BitVec 64} {wkey wkeyA k : Nat} (hf : (s.taken r x).Fits n a) (hslot : ¬ (8 ≤ n ∧ n ≤ 15))
    (hk : unwrapKey ((s.taken r x).kxOf x.id) (fld a 16 4) wkey wkeyA = some k) :
    exec (.keyLoad r n a wkey wkeyA) s =
      .next (((s.taken r x).setTwin n a k).1.answered r x 0x0B02 .ok [(kcvOf (fld a 16 4) k, 3)]) := by
  obtain ⟨hn, hattr, huse, horp, hpar⟩ := hf
  change execKeyLoad r n a wkey wkeyA s = _
  unfold execKeyLoad
  refine hostCmd_ok hs ?_
  rw [show (x.who r).ses = x.id from rfl, hk, decide_eq_true hn, taken_keyWrite hlcs hroot hseal, decide_eq_false hslot, hattr]
  dsimp only
  rw [huse, horp, hpar, setTwin_eq]
  rfl

theorem exec_keyLoad_unwrap {n : Nat} {a : BitVec 64} {wkey wkeyA : Nat} (hn : n < 64) (hslot : ¬ (8 ≤ n ∧ n ≤ 15)) (hattr : (s.taken r x).attrBad n a = false)
    (hk : unwrapKey ((s.taken r x).kxOf x.id) (fld a 16 4) wkey wkeyA = none) :
    exec (.keyLoad r n a wkey wkeyA) s = .next ((s.taken r x).answered r x 0x0B02 .range [(1, 4)]) := by
  change execKeyLoad r n a wkey wkeyA s = _
  unfold execKeyLoad
  refine hostCmd_refused hs ?_ (by simp)
  rw [show (x.who r).ses = x.id from rfl, hk, decide_eq_true hn, taken_keyWrite hlcs hroot hseal, decide_eq_false hslot, hattr]
  rfl

theorem exec_keyLoad_range {n : Nat} {a : BitVec 64} {wkey wkeyA : Nat} (hbad : 64 ≤ n ∨ (8 ≤ n ∧ n ≤ 15) ∨ (s.taken r x).attrBad n a = true) :
    exec (.keyLoad r n a wkey wkeyA) s = .next ((s.taken r x).answered r x 0x0B02 .range [(0, 4)]) := by
  change execKeyLoad r n a wkey wkeyA s = _
  unfold execKeyLoad
  refine hostCmd_refused hs ?_ (by simp)
  by_cases hn : n < 64
  · rw [decide_eq_true hn, taken_keyWrite hlcs hroot hseal, checked_cons, if_pos]
    simpa [Nat.not_le.mpr hn] using hbad
  · rw [decide_eq_false hn]
    simp [State.keyWriteChecks, hseal]

/-- COMMIT of the twin `w` of a slot, after the checks of STATE and RANGE. -/
theorem exec_keyCommit {n : Nat} {w : Twin} (hn : n < 64) (hw : tget none s.keys.twins n = some w)
    (hact : 8 ≤ n ∧ n ≤ 15 → ((s.taken r x).slot n).st ≠ 1)
    (hlink : fld w.attr 14 2 = 2 → (s.taken r x).tooDeep n (fld w.attr 8 6) = false ∧ ((s.taken r x).slot (fld w.attr 8 6)).st ≠ 0) (k : Nat) :
    exec (.keyCommit r n k) s = hostCmd { cmd := 0x0B04, need := .keys } r (fun _ _ =>
      checked [(k != w.kcv, .kcvFail), ((s.taken r x).parentOrphaned w.attr, .orphaned),
        ((s.taken r x).parentUsageBad w.attr || ((s.taken r x).hasChildren n && fld w.attr 3 1 == 0), .usage)]
      (.ok [] (((s.taken r x).activate n (fld w.attr 0 6 + 256 * fld w.attr 8 12) 1 w.key).rewrapped n |>.dropTwin n))) s := by
  change execKeyCommit r n k s = _
  unfold execKeyCommit
  have hidle : (decide (8 ≤ n ∧ n ≤ 15) && ((s.taken r x).slot n).st == 1) = false := by
    by_cases h : 8 ≤ n ∧ n ≤ 15
    · rw [beq_false_of_ne (hact h), Bool.and_false]
    · simp [h]
  have hdeep : (fld w.attr 14 2 == 2 && ((s.taken r x).tooDeep n (fld w.attr 8 6) || ((s.taken r x).slot (fld w.attr 8 6)).st == 0)) = false := by
    by_cases h : fld w.attr 14 2 = 2
    · rw [(hlink h).1, beq_false_of_ne (hlink h).2, Bool.or_false, Bool.and_false]
    · simp [h]
  rw [hostCmd_served (c := { cmd := 0x0B04, need := .keys }) hs, hostCmd_served (c := { cmd := 0x0B04, need := .keys }) hs, decide_eq_true hn]
  rw [taken_keyWriteOnly hlcs hroot hseal, show tget none (s.taken r x).keys.twins n = some w by rwa [s.taken_keys]]
  dsimp only
  rw [hidle, hdeep]
  rfl

theorem exec_keyCommit_none {n k : Nat} (hn : n < 64) (hw : tget none s.keys.twins n = none) :
    exec (.keyCommit r n k) s = .next ((s.taken r x).answered r x 0x0B04 .state [(0, 4)]) := by
  change execKeyCommit r n k s = _
  unfold execKeyCommit
  refine hostCmd_refused hs ?_ (by simp)
  rw [decide_eq_true hn, taken_keyWriteOnly hlcs hroot hseal, show tget none (s.taken r x).keys.twins n = none by rwa [s.taken_keys]]

theorem exec_keyOperatorSet (pub a b : Nat) :
    let good := ecdsaOk (if (s.slot 2).st = 1 then (s.slot 2).key else pub) (ofBe (sha256 (pubBytes pub ++ leBytes 16 s.nv.serial))) (sigOf a b)
    (good = true → exec (.keyOperatorSet r pub a b) s = .next
      (State.seqLimit ((((s.taken r x).activate 2 ((roleAttr 2).getD 0) 1 pub).respond x.id ⟨r.seq, 0x0B08, .ok, []⟩).endAll .operator) r)) ∧
    (good = false → exec (.keyOperatorSet r pub a b) s = .next ((s.taken r x).answered r x 0x0B08 .signature [(0, 4)])) := by
  intro good
  change (_ → execKeyOperatorSet r pub a b s = _) ∧ (_ → execKeyOperatorSet r pub a b s = _)
  unfold execKeyOperatorSet
  have hgood : ecdsaOk (if ((s.taken r x).slot 2).st == 1 then ((s.taken r x).slot 2).key else pub)
      (ofBe (sha256 (pubBytes pub ++ leBytes 16 (s.taken r x).nv.serial))) (sigOf a b) = good := by
    simp only [good, s.taken_slot, s.taken_nv, beq_iff_eq]
  refine ⟨fun h => hostCmd_okThen (fin := fun t' => t'.endAll .operator) hs ?_, fun h => hostCmd_refused hs ?_ (by simp)⟩
  · rw [taken_keyWrite hlcs hroot hseal, hgood, h]
    rfl
  · rw [taken_keyWrite hlcs hroot hseal, hgood, h]
    rfl

end

/-! ## DENY_SET (14 R450) -/

theorem foldl_endSession_said (l : List Nat) (why : EndCause) (t : State) : Said t (l.foldl (fun u i => u.endSession i why) t) := by
  induction l generalizing t with
  | nil => exact .refl t
  | cons i l ih => exact (endSession_said ..).trans (ih _)

theorem seqLimit_sessions {t : State} {r : Req} {y : Session} (h : y ∈ (t.seqLimit r).vxc.sessions) : y ∈ t.vxc.sessions := by
  unfold State.seqLimit at h
  split at h
  · rw [endSession_sessions] at h
    exact (List.mem_filter.mp h).1
  · exact h

/-- The sessions of the hosts on the deny list end (14 R450). -/
def State.denied (t : State) (l : List Nat) : State :=
  ((t.vxc.sessions.filter (fun x => l.contains x.serial)).map Session.id).foldl (fun u i => u.endSession i .deny) t

theorem denied_sessions {t : State} {l : List Nat} {y : Session} (h : y ∈ (t.denied l).vxc.sessions) : y.serial ∉ l := by
  unfold State.denied at h
  rw [foldl_endSession_sessions, List.mem_filter] at h
  obtain ⟨hy, hno⟩ := h
  intro hl
  simp only [decide_eq_true_eq, List.mem_map, List.mem_filter, not_exists] at hno
  exact hno y ⟨⟨hy, by simpa using hl⟩, rfl⟩

theorem execKeyDenySet_eq (r : Req) (l : List Nat) (s : State) : execKeyDenySet r l s = hostCmd { cmd := 0x0B09, need := .keys } r (fun _ t =>
    checked (t.keyWriteChecks true ++ [(decide (32 < l.length), .range)]) (.okThen [] (t.onNv (fun v => v.setDeny l)) (fun t' => t'.denied l))) s := rfl

/-! ## TAMPER_ACK (14 R461) -/

/-- The seal of input `n` cleared. -/
def State.sealCleared (t : State) (n : Nat) : State :=
  let u := t.onNv (fun v => { v with seals := setBit v.seals n false })
  if u.sealed then u else u.rolloversPassed

theorem execKeyTamperAck_eq (r : Req) (n : Nat) (s : State) : execKeyTamperAck r n s = hostCmd { cmd := 0x0B0D, need := .keys } r (fun _ t =>
    checked [(decide (2 < n), .range), (t.nv.lcs == 3 || !t.keys.rootOk, .state), (!(bit t.nv.seals n), .state),
      ((n == 0 && t.bk.inA) || (n == 1 && t.bk.inB), .state)] (.ok [] (t.sealCleared n))) s := rfl

theorem exec_keyDenySet {s : State} {r : Req} {x : Session} (hs : Served s r x .keys) (hlcs : s.nv.lcs ≠ 3) (hroot : s.keys.rootOk = true)
    (hseal : (s.taken r x).sealed = false) {l : List Nat} (hl : l.length ≤ 32) :
    ∃ u : State, exec (.keyDenySet r l) s = .next u ∧ u.nv.deny = l ∧ (∀ y ∈ u.vxc.sessions, y.serial ∉ l) := by
  refine ⟨_, (show execKeyDenySet r l s = _ by
    rw [execKeyDenySet_eq]
    exact hostCmd_okThen (fin := fun t' => t'.denied l) hs (by rw [taken_keyWrite hlcs hroot hseal, decide_eq_false (Nat.not_lt.mpr hl)]; rfl)), ?_,
    fun y hy => denied_sessions (seqLimit_sessions hy)⟩
  rw [(seqLimit_said _ _).nv, State.denied, (foldl_endSession_said _ _ _).nv, (respond_said _ _ _).nv]
  simp [State.onNv, Nv.deny, Nv.setDeny]

/-- Settles O41. -/
theorem keyWritesTakeEffect : Obligations.KeyWritesTakeEffect := by
  intro s r x hs hlcs hroot t twin fits
  have hkeys : t.keys = s.keys := s.taken_keys r x
  have hnv : t.nv = s.nv := s.taken_nv r x
  have htwin (n : Nat) (a : BitVec 64) (k : Nat) : (t.setTwin n a k).1 = twin n a k t := by simp only [setTwin_eq, twin, hkeys]
  refine ⟨fun hseal => ⟨fun n a wkey wkeyA k hf hslot hk => ?_, fun n a wkey wkeyA hn hslot hattr hk => exec_keyLoad_unwrap hs hlcs hroot hseal hn hslot hattr hk,
    fun n a wkey wkeyA hbad => exec_keyLoad_range hs hlcs hroot hseal hbad, fun n a hf => ?_, fun n w hn hw hact hlink => ?_,
    fun n k hn hw => exec_keyCommit_none hs hlcs hroot hseal hn hw, fun pub a b => exec_keyOperatorSet hs hlcs hroot hseal pub a b,
    fun l hl => exec_keyDenySet hs hlcs hroot hseal hl, fun l hl => ?_, fun a b ha hb => ?_,
    fun a b hbad => ?_⟩, fun hseal n a k l => ?_, fun n hn hbit hA hB => ?_, fun n hn hbad => ?_, fun n hn => ?_⟩
  · rw [← htwin]
    exact exec_keyLoad hs hlcs hroot hseal hf hslot hk
  · have hgen := exec_keyGenerate hs hlcs hroot hseal (n := n) (a := a) hf
    refine ⟨fun h4 => ?_, fun h8 h15 hst => ?_, fun h4 h8 => ?_⟩
    · intro k
      have hpick : (s.taken r x).generated n a = (k, t) := if_pos h4
      rw [hgen (by omega), ← htwin, hpick]
    · intro k
      have hpick : (s.taken r x).generated n a = (k, t) := by rw [State.generated, if_neg (by omega), if_pos ⟨h8, h15⟩]
      rw [hgen (fun _ _ => hst), ← htwin, hpick]
    · obtain ⟨hst, h1, h2, h3⟩ := drawKey_spec t (fld a 16 4)
      refine ⟨(t.drawKey (fld a 16 4)).1, h1, h2, h3, ?_⟩
      have hpick : (s.taken r x).generated n a = t.drawKey (fld a 16 4) := by rw [State.generated, if_neg h4, if_neg h8]
      rw [hgen (fun h h' => absurd ⟨h, h'⟩ h8), hpick, setTwin_eq, hst, ← taken_fresh s r x]
      simp only [twin, hkeys]
      rfl
  · have hcom := exec_keyCommit hs hlcs hroot hseal hn hw hact hlink
    refine ⟨fun horp hpar hch => ?_, fun k hk => ?_, fun horp => ?_⟩ <;> rw [hcom]
    · have hchild : ((s.taken r x).hasChildren n && fld w.attr 3 1 == 0) = false := by
        by_cases h : t.hasChildren n = true
        · rw [beq_false_of_ne (hch h), Bool.and_false]
        · rw [show (s.taken r x).hasChildren n = false by simpa using h, Bool.false_and]
      refine hostCmd_ok hs ?_
      rw [show (s.taken r x).parentOrphaned w.attr = false from horp, show (s.taken r x).parentUsageBad w.attr = false from hpar, hchild, bne_self_eq_false]
      rfl
    · refine hostCmd_refused hs ?_ (by simp)
      rw [checked_cons, if_pos (bne_iff_ne.mpr hk)]
    · refine hostCmd_refused hs ?_ (by simp)
      rw [show (s.taken r x).parentOrphaned w.attr = true from horp, bne_self_eq_false]
      rfl
  · change execKeyDenySet r l s = _
    rw [execKeyDenySet_eq]
    exact hostCmd_refused hs (by rw [taken_keyWrite hlcs hroot hseal, decide_eq_true hl]; rfl) (by simp)
  · change execKeyTamperSet r a b s = _
    unfold execKeyTamperSet
    exact hostCmd_ok hs (by rw [taken_keyWrite hlcs hroot hseal, decide_eq_false (Nat.not_lt.mpr ha), decide_eq_false (Nat.not_lt.mpr hb)]; rfl)
  · change execKeyTamperSet r a b s = _
    unfold execKeyTamperSet
    exact hostCmd_refused hs (by rw [taken_keyWrite hlcs hroot hseal, checked_cons, if_pos (by simpa using hbad)]) (by simp)
  · refine ⟨?_, ?_, ?_, ?_, ?_, ?_, fun d => ?_, ?_⟩
    · change execKeyLoad r n a k l s = _
      unfold execKeyLoad
      exact hostCmd_sealed hs hseal rfl
    · change execKeyGenerate r n a s = _
      unfold execKeyGenerate
      exact hostCmd_sealed hs hseal rfl
    · change execKeyCommit r n k s = _
      unfold execKeyCommit
      exact hostCmd_sealed hs hseal (cs := []) (by rw [List.append_nil])
    · change execKeyInvalidate r n s = _
      unfold execKeyInvalidate
      exact hostCmd_sealed hs hseal rfl
    · change execKeyRollover r n k s = _
      unfold execKeyRollover
      exact hostCmd_sealed hs hseal rfl
    · change execKeyOperatorSet r n k l s = _
      unfold execKeyOperatorSet
      exact hostCmd_sealed hs hseal rfl
    · change execKeyDenySet r d s = _
      unfold execKeyDenySet
      exact hostCmd_sealed hs hseal rfl
    · change execKeyTamperSet r n k s = _
      unfold execKeyTamperSet
      exact hostCmd_sealed hs hseal rfl
  all_goals
    have hst : ((s.taken r x).nv.lcs == 3 || !(s.taken r x).keys.rootOk) = false := by
      rw [s.taken_nv, s.taken_keys, beq_false_of_ne hlcs, hroot]
      rfl
    have hin : ((n == 0 && (s.taken r x).bk.inA) || (n == 1 && (s.taken r x).bk.inB)) = ((n == 0 && s.bk.inA) || (n == 1 && s.bk.inB)) := by
      rw [s.taken_bk, Backup.tick_inA, Backup.tick_inB]
    simp only [exec, execKeyTamperAck_eq]
  · have hclear : t.sealCleared n = (let u : State := { t with nv := { t.nv with seals := setBit s.nv.seals n false } }
        if u.sealed then u else u.rolloversPassed) := by
      rw [← hnv]
      rfl
    have hno : ((n == 0 && s.bk.inA) || (n == 1 && s.bk.inB)) = false := by
      rw [Bool.or_eq_false_iff, Bool.and_eq_false_imp, Bool.and_eq_false_imp]
      exact ⟨fun h => hA (by simpa using h), fun h => hB (by simpa using h)⟩
    refine (hostCmd_ok (t := t.sealCleared n) hs ?_).trans (by rw [hclear])
    rw [hin, hno, hst, s.taken_nv, hbit, decide_eq_false (Nat.not_lt.mpr hn)]
    rfl
  · refine hostCmd_refused hs ?_ (by simp)
    rw [hin, hst, s.taken_nv, decide_eq_false (Nat.not_lt.mpr hn)]
    rcases hbad with hbit | ⟨rfl, hA⟩ | ⟨rfl, hB⟩
    · simp [hbit]
    · simp [hA]
    · simp [hB]
  · exact hostCmd_refused hs (by rw [decide_eq_true hn]; rfl) (by simp)

/-- An assertion of an input that was not asserted, whose effect begins at `u` (14 R456). -/
theorem exec_tamperAssert {s u : State} (dt : Dt) {b : Bool} (hin : (if b then s.bk.inB else s.bk.inA) = false)
    (hu : u = { s.tick dt with bk := (s.tick dt).bk.asserted b }) : exec (.tamperAssert dt b) s = .next (
      if s.rtc.lockout || !s.runs .m then
        if s.bk.log.length < 8 then { u with bk := { u.bk with log := s.bk.log ++ [⟨s.rtc.lockout, b, (s.tick dt).bk.valid, (s.tick dt).bk.sub, (s.tick dt).lin⟩] } }
        else { u with bk := { u.bk with ovf := stick 255 (s.bk.ovf + 1) } }
      else if s.pow.phase.rank < 4 then { u.tamperCount with keys := { u.tamperCount.keys with
        early := u.keys.early ++ [(b2n b, tlogItem s.rtc.lockout (b2n b) (s.tick dt).bk.valid (s.tick dt).bk.sub (s.tick dt).lin)] } }
      else u.tamperCount.tamperRespond b) := by
  have hidle : (if b then (s.tick dt).bk.inB else (s.tick dt).bk.inA) = false := by
    rwa [State.tick_bk, Backup.tick_inA, Backup.tick_inB]
  rw [← s.bk.tick_log dt.rtc, ← s.bk.tick_ovf dt.rtc, hu]
  simp only [exec, execTamperAssert, hidle]
  cases b <;> rfl

/-- Settles O43. -/
theorem tamperAndKeyReads : Obligations.TamperAndKeyReads := by
  intro s dt t
  refine ⟨fun b hin => ?_, fun b => rfl, fun n w hw hold hn => ?_, fun r x hs => ?_⟩
  · intro u
    have hu : u = { s.tick dt with bk := (s.tick dt).bk.asserted b } := rfl
    rw [exec_tamperAssert dt hin hu]
    refine ⟨fun h => ⟨fun hroom => ?_, fun hfull => ?_⟩, fun hlock hrun hrank => ?_⟩
    · rw [if_pos (by simpa using h), if_pos hroom]
    · rw [if_pos (by simpa using h), if_neg (Nat.not_lt.mpr hfull)]
    · rw [hlock, hrun, if_neg (by decide), if_neg (Nat.not_lt.mpr hrank)]
  · simp only [exec, execTwinExpiry, State.tick_keys, hw]
    have hnew : ¬ (s.tick dt).now < w.at_ + 600 * secC := Nat.not_lt.mpr hold
    have hno : (decide (8 ≤ n) && (tget none (s.tick dt).nv.rolls (n - 8)).isSome && decide (n ≤ 15)) = false := by
      by_cases h8 : 8 ≤ n
      · simp [show ¬ n ≤ 15 by omega]
      · simp [h8]
    rw [decide_eq_false hnew, hno]
    rfl
  · intro t
    refine ⟨?_, fun f hf => ?_, ?_, ?_⟩ <;> simp only [exec, execKeySlotRead, execKeyRollRead, execKeyDenyRead, execKeyTamperRead]
    · exact hostCmd_ok hs rfl
    · refine hostCmd_ok hs ?_
      have hun : (s.taken r x).unacked f = s.unacked f := by simp [State.unacked, State.joinedOn, State.node]
      rw [checked_cons, decide_eq_false (Nat.not_lt.mpr hf), hun, s.taken_nv, s.taken_slot]
      rfl
    · exact hostCmd_ok hs (by rw [s.taken_nv])
    · refine hostCmd_ok hs ?_
      rw [show (s.taken r x).sealed = s.sealed by simp [State.sealed], s.taken_nv, s.taken_bk, Backup.tick_inA, Backup.tick_inB, Backup.tick_log]

end Sys2Proof.Machine
end

