-- ==== Sys2Proof/Proofs/TestCommands.lean ====
section
/-!
PROOFS. The TEST commands (11 R380; 18 R556-R566).
-/
namespace Sys2Proof.Machine
open Sys2Proof

theorem unitBad_of_lt {k n : Nat} (h : n < unitCount k) : unitBad k n = false := decide_eq_false (Nat.not_le.mpr h)
theorem unitBad_of_le {k n : Nat} (h : unitCount k ≤ n) : unitBad k n = true := decide_eq_true h

section
variable {s : State} {r : Req} {x : Session} {k n : Nat} (hs : Served s r x .test) (hn : n < unitCount k)
include hs hn

theorem exec_testSelftest (d : Nat) (hout : (s.taken r x).unitSpare k n = true ∨ (s.taken r x).unitExcluded k n = true) :
    exec (.testSelftest r k n true d) s = .next ((s.taken r x).answered r x 0x0F01 .ok [(0, 1), (d, 8)]) ∧
      exec (.testSelftest r k n false d) s = .next ((s.taken r x).answered r x 0x0F01 .fault [(0, 4)]) := by
  have hst : ((s.taken r x).unitSpare k n || (s.taken r x).unitExcluded k n) = true := by simpa using hout
  simp only [exec, execTestSelftest]
  exact ⟨hostCmd_ok hs (by rw [unitBad_of_lt hn, hst]; rfl), hostCmd_ended hs (by rw [unitBad_of_lt hn, hst]; rfl)⟩

theorem exec_testReturn (hex : (s.taken r x).unitExcluded k n = true) (hsp : k = 2 → s.wtx.spareValid = true) (hw : (s.taken r x).worn k n = false) :
    exec (.testReturn r k n true) s = .next (((s.taken r x).reenter k n).answered r x 0x0F02 .ok []) ∧
      exec (.testReturn r k n false) s = .next (((s.taken r x).wearInc k n).answered r x 0x0F02 .fault [(0, 4)]) := by
  have hst : (!(s.taken r x).unitExcluded k n || (k == 2 && !(s.taken r x).wtx.spareValid)) = false := by
    by_cases h2 : k = 2
    · simp [hex, hsp h2]
    · simp [hex, h2]
  simp only [exec, execTestReturn]
  exact ⟨hostCmd_ok hs (by rw [unitBad_of_lt hn, hst, hw]; rfl), hostCmd_ended hs (by rw [unitBad_of_lt hn, hst, hw]; rfl)⟩

theorem exec_testReturn_worn (hex : (s.taken r x).unitExcluded k n = true) (hsp : k = 2 → s.wtx.spareValid = true) (hw : (s.taken r x).worn k n = true)
    (b : Bool) : exec (.testReturn r k n b) s = .next ((s.taken r x).answered r x 0x0F02 .fault [(0, 4)]) := by
  have hst : (!(s.taken r x).unitExcluded k n || (k == 2 && !(s.taken r x).wtx.spareValid)) = false := by
    by_cases h2 : k = 2
    · simp [hex, hsp h2]
    · simp [hex, h2]
  simp only [exec, execTestReturn]
  exact hostCmd_refused hs (by rw [unitBad_of_lt hn, hst, hw]; rfl) (by simp)
end

/-- Settles O51. -/
theorem testCommandsTakeEffect : Obligations.TestCommandsTakeEffect := by
  intro s r x t
  refine ⟨fun k n hs hn => ⟨fun d hout => exec_testSelftest hs hn d hout, fun d b hsp hex => ?_, fun hex hsp hw => exec_testReturn hs hn hex hsp hw,
    fun hex hsp hw b => exec_testReturn_worn hs hn hex hsp hw b, fun h b => ?_, fun hserve hready => ?_, fun h => ?_⟩,
    fun k n b d hs hn => ⟨?_, ?_, ?_⟩, fun k th hs => ⟨fun hk => ?_, fun hk => ?_⟩, fun hs => ?_, fun hs => ⟨fun n hn hrun => ?_, fun n hn hrun => ?_,
    fun n hn => ?_, ?_⟩⟩ <;>
    simp only [exec, execTestSelftest, execTestReturn, execTestRetire, execTestWearSet, execTestReserves, execTestRestart]
  · exact hostCmd_refused hs (by
      rw [unitBad_of_lt hn, show (s.taken r x).unitSpare k n = false from hsp, show (s.taken r x).unitExcluded k n = false from hex]; rfl) (by simp)
  · have hst : (!(s.taken r x).unitExcluded k n || (k == 2 && !(s.taken r x).wtx.spareValid)) = true := by
      rcases h with h | ⟨rfl, h⟩
      · simp [show (s.taken r x).unitExcluded k n = false from h]
      · simp [h]
    exact hostCmd_refused hs (by rw [unitBad_of_lt hn, hst]; rfl) (by simp)
  · exact hostCmd_ok hs (by
      rw [unitBad_of_lt hn, show (s.taken r x).unitServes k n = true from hserve, show (s.taken r x).retireReady k n = true from hready]; rfl)
  · have hst : (!(s.taken r x).unitServes k n || !(s.taken r x).retireReady k n) = true := by
      simpa only [Bool.or_eq_true, Bool.not_eq_true'] using h
    exact hostCmd_refused hs (by rw [unitBad_of_lt hn, hst]; rfl) (by simp)
  · exact hostCmd_refused hs (by rw [unitBad_of_le hn]; rfl) (by simp)
  · exact hostCmd_refused hs (by rw [unitBad_of_le hn]; rfl) (by simp)
  · exact hostCmd_refused hs (by rw [unitBad_of_le hn]; rfl) (by simp)
  · exact hostCmd_ok hs (by rw [decide_eq_false (Nat.not_lt.mpr hk), ← s.taken_nv r x]; rfl)
  · exact hostCmd_refused hs (by rw [decide_eq_true hk]; rfl) (by simp)
  · exact hostCmd_ok hs rfl
  · refine (hostCmd_okThen (t := s.taken r x) (fin := fun t => if n < 3 then t.restartRegion (regionFor n) 1
      else ({ t with pow := { t.pow with cmdShutdown := true } } : State).shed.endAll .restart) hs ?_).trans (by rw [if_pos hn])
    rw [show (s.taken r x).runs (regionFor n) = true from hrun, decide_eq_false (show ¬ 3 < n by omega), decide_eq_true hn]
    rfl
  · refine hostCmd_refused hs ?_ (by simp)
    rw [checked_cons, checked_cons, show (s.taken r x).runs (regionFor n) = false from hrun, decide_eq_false (show ¬ 3 < n by omega), decide_eq_true hn]
    rfl
  · exact hostCmd_refused hs (by rw [decide_eq_true hn]; rfl) (by simp)
  · exact hostCmd_okThen (t := s.taken r x) (fin := fun t => ({ t with pow := { t.pow with cmdShutdown := true } } : State).shed.endAll .restart) hs rfl

end Sys2Proof.Machine
end

