-- ==== Sys2Proof/Proofs/Blotter.lean ====
section
/-!
PROOFS. The BLOTTER commands and the timers of identification (08 R277-R296; 11 R371).
-/
namespace Sys2Proof.Machine
open Sys2Proof

/-! ## Requests and results -/

theorem find_some_iff {α : Type} {p : α → Bool} {l : List α} {a : α} (h : l.find? p = some a) : a ∈ l ∧ p a = true :=
  ⟨List.mem_of_find?_eq_some h, List.find?_some h⟩

/-- The node has a request afterwards, the one whose number is given (08 R277). -/
theorem request_has (t : State) (a ses deadline delta prio : Nat) :
    (t.request a ses deadline delta prio).2.blot.reqs.any (fun y => y.addr == a && y.id == (t.request a ses deadline delta prio).1) = true := by
  unfold State.request
  split
  next q hq =>
    obtain ⟨hmem, hp⟩ := find_some_iff hq
    have ha : (q.addr == a) = true := (Bool.and_eq_true_iff.mp hp).1
    rw [List.any_eq_true]
    refine ⟨_, List.mem_map.mpr ⟨q, hmem, rfl⟩, ?_⟩
    simp [ha]
  next => simp [State.onBlot]

/-- A request changes only the requests. -/
theorem request_keeps (t : State) (a ses deadline delta prio : Nat) :
    (t.request a ses deadline delta prio).2.nv = t.nv ∧ (t.request a ses deadline delta prio).2.blot.results = t.blot.results := by
  unfold State.request
  split <;> exact ⟨rfl, rfl⟩

theorem result_blot (t : State) (e : ResultRec) (quiet : Bool) :
    (t.result e quiet).blot.reqs = t.blot.reqs ∧ (t.result e quiet).blot.results = (e.word :: t.blot.results).take 4096 := by
  unfold State.result
  cases quiet <;> simp only [Bool.false_eq_true, if_false, if_true, (notifyClass_said _ _ _ _ _).blot, State.onBstat, State.onBlot, State.onNv, and_self]

/-! ## The commands -/

theorem execBlotterRequest_eq (r : Req) (a d dl : Nat) (s : State) : execBlotterRequest r a d dl s = hostCmd { cmd := 0x0901, need := .operate } r (fun w t =>
    checked [(decide (16383 < a ∨ (d ≠ 0 ∧ (d < 10 ∨ 10000 < d ∨ d % 10 ≠ 0))), .range), (!t.joinedAt a, .notFound), t.needH,
        (dl != 0 && decide (dl < t.tb.hcn + 64), .late)]
      (.ok [((t.request a w.ses (if dl = 0 then t.tb.hcn + t.dayHcn else dl) d 2).1, 4)]
        (t.request a w.ses (if dl = 0 then t.tb.hcn + t.dayHcn else dl) d 2).2)) s := rfl

theorem exec_blotterRequest {s : State} {r : Req} {x : Session} (hs : Served s r x .operate) {a d dl : Nat} (ha : a ≤ 16383)
    (hd : d = 0 ∨ (10 ≤ d ∧ d ≤ 10000 ∧ d % 10 = 0)) (hj : (s.taken r x).joinedAt a = true) (hp : s.pow.phase = .complete) (hdl : dl = 0 ∨ s.tb.hcn + 64 ≤ dl) :
    let q := (s.taken r x).request a x.id (if dl = 0 then s.tb.hcn + (s.taken r x).dayHcn else dl) d 2
    exec (.blotterRequest r a d dl) s = .next (q.2.answered r x 0x0901 .ok [(q.1, 4)]) := by
  intro q
  simp only [exec, execBlotterRequest_eq]
  have hlate : (dl != 0 && decide (dl < s.tb.hcn + 64)) = false := by
    rcases hdl with rfl | hdl
    · rfl
    · simp [Nat.not_lt.mpr hdl]
  have hneed : (s.taken r x).needH = (false, .busy) := by simp [State.needH, State.started, hp]
  refine hostCmd_ok hs ?_
  simp only [s.taken_tb, show (x.who r).ses = x.id from rfl, hj, hneed, hlate, checked_cons,
    decide_eq_false (show ¬ (16383 < a ∨ (d ≠ 0 ∧ (d < 10 ∨ 10000 < d ∨ d % 10 ≠ 0))) by omega)]
  rfl

theorem execBlotterResultRead_eq (r : Req) (mode key n : Nat) (s : State) : execBlotterResultRead r mode key n s =
    hostCmd { cmd := 0x0903, need := .read } r (fun _ t =>
      let l := (t.blot.results.filter (fun w => if mode = 0 then fld w 0 32 == key else if mode = 1 then fld w 48 14 == key else true)).take n
      checked [(decide (2 < mode ∨ n = 0 ∨ 40 < n), .range), (l.isEmpty, .notFound)] (.ok ((l.length, 1) :: l.map (fun w => (w.toNat, 32))) t)) s := by
  match mode with
  | 0 => rfl
  | 1 => rfl
  | _ + 2 => simp [execBlotterResultRead]

/-! ## The timers -/

theorem exec_requestDeadline {s : State} {dt : Dt} {n : Nat} {q : PReq} (hrun : s.runs .c = true)
    (hq : s.blot.reqs.find? (fun y => y.id == n && y.start.isNone && decide (y.deadline ≤ s.tb.hcn)) = some q) :
    ∃ u : State, exec (.requestDeadline dt n) s = .next u ∧ u.blot.reqs = s.blot.reqs.filter (fun y => y.id != q.id) ∧
      u.blot.results = (({ req := q.id, addr := q.addr, outcome := 4, cause := q.cause, attempt := q.attempt, start := q.lastStart } : ResultRec).word ::
        s.blot.results).take 4096 := by
  generalize he : ({ req := q.id, addr := q.addr, outcome := 4, cause := q.cause, attempt := q.attempt, start := q.lastStart } : ResultRec) = e
  obtain ⟨hreqs, hres⟩ := result_blot (s.tick dt) e q.quiet
  refine ⟨((s.tick dt).result e q.quiet).dropReq q.id, ?_, ?_, ?_⟩
  · rw [← he]
    simp only [exec, execRequestDeadline]
    rw [show (s.tick dt).blot.reqs.find? (fun y => y.id == n && y.start.isNone && decide (y.deadline ≤ (s.tick dt).tb.hcn)) = some q from hq]
    dsimp only
    rw [State.tick_runs, hrun]
    rfl
  · simp only [State.dropReq, State.onBlot, hreqs, State.tick_blot]
  · simp only [State.dropReq, State.onBlot, hres, State.tick_blot]

/-- A node swept automatically: requested, and rested from now (08 R277). -/
def State.swept (t : State) (a : Nat) : State :=
  (t.request a 0 (t.tb.hcn + t.dayHcn) 0 5).2.onBlot (fun b => { b with sweptAt := tset none b.sweptAt a (some t.now) })

theorem exec_autoSweepDue {s : State} {dt : Dt} {a : Nat} (hrun : s.runs .c = true) (hauto : s.blot.auto = true) (hj : (s.tick dt).joinedAt a = true)
    (hint : s.blot.sweepInt ≤ fld (s.bstat a) 0 16)
    (hrest : ∀ v, tget none s.blot.sweptAt a = some v → v + s.blot.sweepInt * 3600 * secC ≤ (s.tick dt).now) :
    ∃ u : State, exec (.autoSweepDue dt a) s = .next u ∧ u.blot.reqs.any (fun q => q.addr == a) = true ∧
      tget none u.blot.sweptAt a = some (s.tick dt).now ∧ u.nv = s.nv ∧ u.blot.results = s.blot.results := by
  have hhas := request_has (s.tick dt) a 0 ((s.tick dt).tb.hcn + (s.tick dt).dayHcn) 0 5
  obtain ⟨hnv, hres⟩ := request_keeps (s.tick dt) a 0 ((s.tick dt).tb.hcn + (s.tick dt).dayHcn) 0 5
  refine ⟨(s.tick dt).swept a, ?_, ?_, tget_tset_of_ne (Option.some_ne_none _), hnv.trans (s.tick_nv dt), hres.trans (by rw [State.tick_blot])⟩
  · simp only [exec, execAutoSweepDue, State.tick_blot, State.tick_runs, hrun, hauto, hj, Bool.true_and,
      show (s.tick dt).bstat a = s.bstat a from rfl, decide_eq_true hint]
    cases hv : tget none s.blot.sweptAt a with
    | none => rfl
    | some v =>
      simp only [hrest v hv, decide_true, if_true]
      rfl
  · rw [List.any_eq_true] at hhas ⊢
    obtain ⟨y, hy, hp⟩ := hhas
    exact ⟨y, hy, (Bool.and_eq_true_iff.mp hp).1⟩

/-- Settles O36. -/
theorem blotterCommandsAndTimers : Obligations.BlotterCommandsAndTimers := by
  refine ⟨fun s r x => ?_, fun s dt hrun => ?_⟩
  · intro t
    have hblot : t.blot = s.blot := s.taken_blot r x
    refine ⟨fun a d dl hs ha hd hj hp hdl => ?_, fun n q hs hq hst => ?_, fun n q k hs hq hst => ?_, fun n hs hno => ?_, fun a hs ha => ?_, fun hs => ?_,
      fun a hs ha hne => ?_, fun a d dl hs hbad => ?_, fun bc br hs => ?_, fun hs => ?_⟩
    · intro q
      exact ⟨exec_blotterRequest hs ha hd hj hp hdl, request_has ..⟩
    · simp only [exec, execBlotterCancel]
      exact hostCmd_ok hs (by rw [s.taken_blot, hq]; dsimp only; rw [hst, ← hblot]; rfl)
    · simp only [exec, execBlotterCancel]
      exact hostCmd_ok hs (by rw [s.taken_blot, hq]; dsimp only; rw [hst, ← hblot]; rfl)
    · simp only [exec, execBlotterCancel]
      have hnone : s.blot.reqs.find? (fun y => y.id == n) = none := List.find?_eq_none.mpr fun y hy => by simpa using hno y hy
      exact hostCmd_refused hs (by rw [s.taken_blot, hnone]) (by simp)
    · simp only [exec, execBlotterClear]
      exact hostCmd_ok hs (by rw [decide_eq_false (by omega), if_neg (show a ≠ 65535 by omega)]; rfl)
    · simp only [exec, execBlotterClear]
      exact hostCmd_ok hs rfl
    · simp only [exec, execBlotterClear]
      exact hostCmd_refused hs (by rw [decide_eq_true ⟨ha, hne⟩]; rfl) (by simp)
    · simp only [exec, execBlotterRequest_eq]
      exact hostCmd_refused hs (by rw [decide_eq_true hbad]; rfl) (by simp)
    · intro b v good
      simp only [exec, execBlotterCfgSet]
      refine ⟨fun hg => hostCmd_ok hs ?_, fun hg => hostCmd_refused hs ?_ (by simp)⟩
      · have hok : ¬ (b.sweepInt = 0 ∨ 720 < b.sweepInt ∨ b.delta = 0 ∨ 1000 < b.delta ∨ b.rate = 0 ∨ b.nmK < 5 ∨ 16 < b.nmK ∨ b.devPct < 5 ∨ 50 < b.devPct) := by
          omega
        rw [decide_eq_false hok]
        rfl
      · have hbad : b.sweepInt = 0 ∨ 720 < b.sweepInt ∨ b.delta = 0 ∨ 1000 < b.delta ∨ b.rate = 0 ∨ b.nmK < 5 ∨ 16 < b.nmK ∨ b.devPct < 5 ∨ 50 < b.devPct := by
          omega
        rw [decide_eq_true hbad]
        rfl
    · refine ⟨fun a n ha => ?_, fun mode key n hm h1 h40 => ?_, fun mode key n hbad => ?_, ?_⟩
      · simp only [exec, execBlotterNodeRead, State.bstat]
        rw [← hblot]
        exact hostCmd_page hs rfl rfl ha
      · intro l
        simp only [exec, execBlotterResultRead_eq]
        have hl : ((s.taken r x).blot.results.filter (fun w => if mode = 0 then fld w 0 32 == key else if mode = 1 then fld w 48 14 == key else true)).take n = l := by
          rw [s.taken_blot]
        have hok : ¬ (2 < mode ∨ n = 0 ∨ 40 < n) := by omega
        refine ⟨fun hne => hostCmd_ok hs ?_, fun he => hostCmd_refused hs ?_ (by simp)⟩
        · rw [hl, decide_eq_false hok, show l.isEmpty = false by simpa using hne]
          rfl
        · rw [hl, decide_eq_false hok, he]
          rfl
      · simp only [exec, execBlotterResultRead_eq]
        exact hostCmd_refused hs (by rw [decide_eq_true hbad]; rfl) (by simp)
      · simp only [exec, execBlotterStatus]
        exact hostCmd_ok hs rfl
  · intro t
    refine ⟨fun n => ?_, fun n q hq => ?_, fun a hauto hj hint hrest => ?_, fun a p j hp hjud hturn => ?_⟩
    · simp only [exec, execRequestRetry, State.tick_runs, hrun]
      rfl
    · exact exec_requestDeadline hrun hq
    · exact exec_autoSweepDue hrun hauto hj hint hrest
    · simp only [exec, execProbeAckTimeout, State.tick_blot, hp, hjud]
      rw [if_pos hturn]

end Sys2Proof.Machine
end

