-- ==== Sys2Proof/Proofs/Sign.lean ====
section
/-!
PROOFS. The SIGN commands (09 R308-R331; 11 R372-R374).
-/
namespace Sys2Proof.Machine
open Sys2Proof

@[simp] theorem taken_port (s : State) (r : Req) (x : Session) (p : Nat) : (s.taken r x).port p = s.port p := by simp [State.port]

theorem taken_needH {s : State} {r : Req} {x : Session} (hp : s.pow.phase = .complete) : (s.taken r x).needH = (false, .busy) := by
  simp [State.needH, State.started, hp]

/-! ## WRITE and BUS (R308, R329; 11 R372) -/

section
variable {s : State} {r : Req} {x : Session} (hs : Served s r x .operate)
include hs

theorem exec_signWrite_local {d off : Nat} {data : List Nat} (hpend : s.sign.swapPend = false) (hready : s.sign.backReady = true)
    (hfit : off + data.length ≤ 1024) : exec (.signWrite r 0 d off data) s =
      .next (State.answered ((s.taken r x).onSign (fun g => { g with pix := pixWrite g.pix (1024 - 1024 * b2n g.front) off data })) r x 0x0A01 .ok []) := by
  simp only [exec, execSignWrite, if_true]
  exact hostCmd_ok hs (by rw [s.taken_sign, hpend, hready, decide_eq_false (Nat.not_lt.mpr hfit)]; rfl)

theorem exec_signWrite_beyond {d off : Nat} {data : List Nat} (hout : 1024 < off + data.length) :
    exec (.signWrite r 0 d off data) s = .next ((s.taken r x).answered r x 0x0A01 .range [(0, 4)]) := by
  simp only [exec, execSignWrite, if_true]
  exact hostCmd_refused hs (by rw [decide_eq_true hout]; rfl) (by simp)

theorem exec_signWrite_remote {p d off : Nat} {data : List Nat} (hp : p ≤ 3) (hd : 1 ≤ d ∧ d ≤ 63) (hfault : (s.port p).fault = false) (hne : data ≠ [])
    (hlen : data.length ≤ 236) : exec (.signWrite r (p + 1) d off data) s = .next (((s.taken r x).sbusQueue p
      { daddr := d, cmd := 2, pay := leBytes 2 off ++ data, host := some (x.id, r.seq, 0x0A01) }).held r x 0x0A01) := by
  have hpos := List.length_pos_iff.mpr hne
  simp only [exec, execSignWrite, Nat.add_one_ne_zero, if_false, Nat.add_sub_cancel]
  refine hostCmd_later hs ?_
  rw [taken_port, hfault, decide_eq_false (by omega), decide_eq_false (by omega)]
  rfl

theorem exec_signWrite_fault {p d off : Nat} {data : List Nat} (hp : p ≤ 3) (hd : 1 ≤ d ∧ d ≤ 63) (hfault : (s.port p).fault = true) :
    exec (.signWrite r (p + 1) d off data) s = .next ((s.taken r x).answered r x 0x0A01 .state [(0, 4)]) := by
  simp only [exec, execSignWrite, Nat.add_one_ne_zero, if_false, Nat.add_sub_cancel]
  refine hostCmd_refused hs ?_ (by simp)
  rw [taken_port, hfault, decide_eq_false (by omega)]
  rfl

theorem exec_signBus {p d c : Nat} {pay : List Nat} (hp : p ≤ 3) (hd : d ≤ 63) (hfault : (s.port p).fault = false) (h1 : c ≠ 1) (hc : c ≤ 255)
    (hlen : pay.length ≤ 240) : exec (.signBus r p d c pay) s = .next (((s.taken r x).sbusQueue p
      { daddr := d, cmd := c, pay := pay, host := some (x.id, r.seq, 0x0A09) }).held r x 0x0A09) := by
  simp only [exec, execSignBus]
  refine hostCmd_later hs ?_
  rw [taken_port, hfault, decide_eq_false (by omega), decide_eq_false (by omega), beq_false_of_ne h1]
  rfl

theorem exec_signBus_state {p d c : Nat} {pay : List Nat} (hp : p ≤ 3) (hd : d ≤ 63) (h : c = 1 ∨ (s.port p).fault = true) :
    exec (.signBus r p d c pay) s = .next ((s.taken r x).answered r x 0x0A09 .state [(0, 4)]) := by
  simp only [exec, execSignBus]
  refine hostCmd_refused hs ?_ (by simp)
  rw [taken_port, show (c == 1 || (s.port p).fault) = true by simpa using h, decide_eq_false (by omega)]
  rfl

theorem exec_signBus_range {p d c : Nat} {pay : List Nat} (h : 3 < p ∨ 63 < d) :
    exec (.signBus r p d c pay) s = .next ((s.taken r x).answered r x 0x0A09 .range [(0, 4)]) := by
  simp only [exec, execSignBus]
  exact hostCmd_refused hs (by rw [decide_eq_true h]; rfl) (by simp)
end

/-! ## SWAP (R309, R330, R331; 11 R373) -/

/-- A mode or a driver out of range. -/
def swapBad (m : Nat) (rem : List (Nat × Nat)) : Bool := decide (2 < m) || rem.any (fun d => decide (3 < d.1 ∨ d.2 = 0 ∨ 63 < d.2))

/-- Every driver named exists. -/
abbrev Named (rem : List (Nat × Nat)) : Prop := ∀ d ∈ rem, d.1 ≤ 3 ∧ 1 ≤ d.2 ∧ d.2 ≤ 63

theorem swapBad_iff {m : Nat} {rem : List (Nat × Nat)} : swapBad m rem = true ↔ 2 < m ∨ ¬ Named rem := by
  have hany : (rem.any (fun d => decide (3 < d.1 ∨ d.2 = 0 ∨ 63 < d.2)) = true) ↔ ¬ Named rem := by
    rw [List.any_eq_true]
    constructor
    · rintro ⟨d, hd, hbad⟩ hn
      have := hn d hd
      have := of_decide_eq_true hbad
      omega
    · intro hn
      simp only [Named, not_forall] at hn
      obtain ⟨d, hd, hbad⟩ := hn
      exact ⟨d, hd, decide_eq_true (by omega)⟩
  rw [swapBad, Bool.or_eq_true, decide_eq_true_eq, hany]

theorem swapBad_of_named {m : Nat} {rem : List (Nat × Nat)} (hm : m ≤ 2) (h : Named rem) : swapBad m rem = false := by
  rw [← Bool.not_eq_true, swapBad_iff]
  exact fun hbad => hbad.elim (by omega) (fun hn => hn h)

/-- The local swap armed for the next frame. -/
def State.swapArmed (t : State) (loc : Bool) : State := if loc then t.onSign (fun g => { g with swapPend := true, swapAtHcn := false }) else t

/-- An immediate swap: answered at once without drivers or where all of them are lost, else held for the others. -/
def State.swapNow (t : State) (loc : Bool) (rem : List (Nat × Nat)) (w : Who) : Ans :=
  let u := t.swapArmed loc
  let lost := rem.filter (fun d => (t.port d.1).fault)
  if rem.isEmpty then .ok [] u
  else if lost.length = rem.length then .ended .timeout (lateList rem) u
  else
    let v : State := { u with
      remSwaps := u.remSwaps ++ [(⟨u.order, none, rem.filter (fun d => !(t.port d.1).fault), lost, w.ses, w.seq⟩ : RemSwap)]
      order := u.order + 1 }
    .later (v.swapRemote 0 0 rem (some (v.order - 1)))

/-- A swap bound to HCN `k`. -/
def State.swapBound (t : State) (loc : Bool) (rem : List (Nat × Nat)) (k : Nat) (w : Who) : State :=
  let u : State := t.bind k w 0x0A02 (.signSwap loc rem)
  let u : State := if loc then u.onSign (fun g => { g with swapPend := true, swapAtHcn := true, swapHcn := k }) else u
  let u : State := if rem = [] then u else { u with remSwaps := u.remSwaps ++ [(⟨t.order, some k, rem, [], w.ses, w.seq⟩ : RemSwap)] }
  u.swapRemote 1 k rem (some t.order)

section
variable (r : Req) (k : Nat) (loc : Bool) (rem : List (Nat × Nat)) (s : State)

theorem execSignSwap_now : execSignSwap r 0 k loc rem s = hostCmd { cmd := 0x0A02, need := .operate } r (fun w t =>
    checked [(swapBad 0 rem, .range), t.needH, (loc && t.sign.swapPend, .busy)] (t.swapNow loc rem w)) s := rfl

theorem execSignSwap_bound : execSignSwap r 1 k loc rem s = hostCmd { cmd := 0x0A02, need := .operate } r (fun w t =>
    checked ([(swapBad 1 rem || t.badTgt k, .range)] ++ t.lateTgt k (if rem.isEmpty then 4 else 64) ++ [(loc && t.sign.swapPend || t.actsFull, .busy)])
      (.deferred k (t.swapBound loc rem k w))) s := by
  cases rem <;> rfl

theorem execSignSwap_cancel (m : Nat) : execSignSwap r (m + 2) k loc rem s = hostCmd { cmd := 0x0A02, need := .operate } r (fun _ t =>
    checked [(swapBad (m + 2) rem, .range), t.needH] (.ok [] ((if loc then t.swapCancel else t).swapRemote 2 0 rem none))) s := rfl
end

theorem swapCancel_sign (t : State) : t.swapCancel.sign = { t.sign with swapPend := false, swapAtHcn := false } := by
  unfold State.swapCancel
  exact ((foldl_complete_said _ (Said.refl _)).sign :)

section
variable {s : State} {r : Req} {x : Session} (hs : Served s r x .operate) (hp : s.pow.phase = .complete) {loc : Bool} {rem : List (Nat × Nat)}
  (hrem : Named rem)
include hs hp hrem

theorem exec_signSwap_now (k : Nat) (hfree : loc = true → s.sign.swapPend = false) :
    (rem = [] → exec (.signSwap r 0 k loc rem) s = .next (((s.taken r x).swapArmed loc).answered r x 0x0A02 .ok [])) ∧
    (rem ≠ [] → (rem.filter (fun d => ((s.taken r x).port d.1).fault)).length = rem.length →
      exec (.signSwap r 0 k loc rem) s = .next (((s.taken r x).swapArmed loc).answered r x 0x0A02 .timeout (lateList rem))) ∧
    (rem ≠ [] → (rem.filter (fun d => ((s.taken r x).port d.1).fault)).length ≠ rem.length →
      exec (.signSwap r 0 k loc rem) s = .next ((({ (s.taken r x).swapArmed loc with
        remSwaps := ((s.taken r x).swapArmed loc).remSwaps ++ [(⟨((s.taken r x).swapArmed loc).order, none, rem.filter (fun d => !((s.taken r x).port d.1).fault),
          rem.filter (fun d => ((s.taken r x).port d.1).fault), x.id, r.seq⟩ : RemSwap)]
        order := ((s.taken r x).swapArmed loc).order + 1 } : State).swapRemote 0 0 rem (some ((s.taken r x).swapArmed loc).order)).held r x 0x0A02)) := by
  have hbusy : (loc && (s.taken r x).sign.swapPend) = false := by
    rw [s.taken_sign]
    cases loc with
    | false => rfl
    | true => simpa using hfree rfl
  have hbody {w : Who} : checked [(swapBad 0 rem, .range), (s.taken r x).needH, (loc && (s.taken r x).sign.swapPend, .busy)]
      ((s.taken r x).swapNow loc rem w) = (s.taken r x).swapNow loc rem w := by
    rw [swapBad_of_named (by decide) hrem, taken_needH hp, hbusy]
    rfl
  simp only [exec, execSignSwap_now]
  refine ⟨fun he => hostCmd_ok hs (hbody.trans ?_), fun hne hall => hostCmd_ended hs (hbody.trans ?_), fun hne hsome => hostCmd_later hs (hbody.trans ?_)⟩
  · subst he
    rfl
  · rw [State.swapNow, if_neg (by simpa using hne), if_pos hall]
  · rw [State.swapNow, if_neg (by simpa using hne), if_neg hsome]
    rfl

theorem exec_signSwap_bound {k : Nat} (hk0 : k ≠ 0) (hk : k ≤ s.tb.hcn + 2147483648) :
    (s.tb.hcn + (if rem = [] then 4 else 64) ≤ k → (loc = true → s.sign.swapPend = false) → (s.taken r x).actsFull = false →
      exec (.signSwap r 1 k loc rem) s = .next (((s.taken r x).swapBound loc rem k (x.who r)).answered r x 0x0A02 .deferred [(k, 6)])) ∧
    (k < s.tb.hcn + (if rem = [] then 4 else 64) → exec (.signSwap r 1 k loc rem) s = .next ((s.taken r x).answered r x 0x0A02 .late [(0, 4)])) := by
  have hlead : (if rem.isEmpty then 4 else 64) = (if rem = [] then 4 else 64) := by simp only [List.isEmpty_iff]
  have hbad : (swapBad 1 rem || (s.taken r x).badTgt k) = false := by rw [swapBad_of_named (by decide) hrem, taken_badTgt hk0 hk]; rfl
  simp only [exec, execSignSwap_bound]
  refine ⟨fun hlo hfree hfull => hostCmd_deferred hs ?_, fun hlo => hostCmd_refused hs ?_ (by simp)⟩ <;> rw [hbad, taken_lateTgt hp, hlead]
  · have hbusy : (loc && (s.taken r x).sign.swapPend || (s.taken r x).actsFull) = false := by
      rw [s.taken_sign, hfull]
      cases loc with
      | false => rfl
      | true => simpa using hfree rfl
    rw [hbusy, decide_eq_false (Nat.not_lt.mpr hlo)]
    rfl
  · rw [decide_eq_true hlo]
    rfl

theorem exec_signSwap_cancel (k : Nat) : exec (.signSwap r 2 k loc rem) s =
    .next (((if loc then (s.taken r x).swapCancel else s.taken r x).swapRemote 2 0 rem none).answered r x 0x0A02 .ok []) := by
  change execSignSwap r (0 + 2) k loc rem s = _
  rw [execSignSwap_cancel]
  exact hostCmd_ok hs (by rw [swapBad_of_named (by decide) hrem, taken_needH hp]; rfl)
end

theorem exec_signSwap_range {s : State} {r : Req} {x : Session} (hs : Served s r x .operate) {loc : Bool} {rem : List (Nat × Nat)} {k m : Nat}
    (h : 2 < m ∨ ¬ Named rem) : exec (.signSwap r m k loc rem) s = .next ((s.taken r x).answered r x 0x0A02 .range [(0, 4)]) := by
  have hbad := swapBad_iff.mpr h
  change execSignSwap r m k loc rem s = _
  match m with
  | 0 =>
    rw [execSignSwap_now]
    exact hostCmd_refused hs (by rw [hbad]; rfl) (by simp)
  | 1 =>
    rw [execSignSwap_bound]
    exact hostCmd_refused hs (by rw [hbad]; rfl) (by simp)
  | m + 2 =>
    rw [execSignSwap_cancel]
    exact hostCmd_refused hs (by rw [hbad]; rfl) (by simp)

/-! ## The configuration writes and the reads (11 R374) -/

section
variable {s : State} {r : Req} {x : Session} (hs : Served s r x .configure)
include hs

theorem exec_signCfgSet (w : BitVec 32) (g : Nat) :
    let c : SignCfg := { scan := setFld w 18 1 0 }
    let good := c.syncSrc ≠ 3 ∧ 1 ≤ c.ncol ∧ c.ncol ≤ 50 ∧ 4 ≤ c.blank ∧ c.blank ≤ 64 ∧ g ≤ 255
    (good → exec (.signCfgSet r w g) s =
      .next (((s.taken r x).onSignCfg (fun d => { d with scan := setFld w 18 1 0, gcur := g })).answered r x 0x0A03 .ok [])) ∧
    (¬ good → exec (.signCfgSet r w g) s = .next ((s.taken r x).answered r x 0x0A03 .range [(0, 4)])) := by
  intro c good
  simp only [exec, execSignCfgSet]
  refine ⟨fun hg => hostCmd_ok hs ?_, fun hg => hostCmd_refused hs ?_ (by simp)⟩
  · have hok : ¬ (c.syncSrc = 3 ∨ c.ncol = 0 ∨ 50 < c.ncol ∨ c.blank < 4 ∨ 64 < c.blank ∨ 255 < g) := by omega
    rw [decide_eq_false hok]
    rfl
  · have hbad : c.syncSrc = 3 ∨ c.ncol = 0 ∨ 50 < c.ncol ∨ c.blank < 4 ∨ 64 < c.blank ∨ 255 < g := by omega
    rw [decide_eq_true hbad]
    rfl

theorem exec_signTrimSet (first : Nat) (l : List Nat) :
    (first + l.length ≤ 50 → (∀ v ∈ l, v ≤ 63) → exec (.signTrimSet r first l) s =
      .next (((s.taken r x).onSignCfg (fun d => { d with trims := tsetAll 32 d.trims first l })).answered r x 0x0A04 .ok [])) ∧
    (50 < first + l.length ∨ (∃ v ∈ l, 63 < v) → exec (.signTrimSet r first l) s = .next ((s.taken r x).answered r x 0x0A04 .range [(0, 4)])) := by
  simp only [exec, execSignTrimSet]
  refine ⟨fun hfit hv => hostCmd_ok hs (checked_pass ?_), fun h => hostCmd_refused hs ?_ (by simp)⟩
  · rw [List.forall_mem_singleton, Bool.or_eq_false_iff, decide_eq_false_iff_not, List.any_eq_false]
    exact ⟨by omega, fun v hv' => by simpa using hv v hv'⟩
  · rw [checked_cons, if_pos]
    simpa using h

theorem exec_signCellSet (col c : Nat) :
    (col < s.sign.cfg.ncol → c ≤ 49 → s.sign.spares.contains c = true → exec (.signCellSet r col c) s =
      .next (((s.taken r x).onSign (fun g => { g with cellNext := g.cellNext.filter (fun e => e.1 != col) ++ [(col, c)] })).answered r x 0x0A0A .ok [])) ∧
    (col < s.sign.cfg.ncol → c ≤ 49 → s.sign.spares.contains c = false →
      exec (.signCellSet r col c) s = .next ((s.taken r x).answered r x 0x0A0A .state [(0, 4)])) ∧
    (s.sign.cfg.ncol ≤ col ∨ 49 < c → exec (.signCellSet r col c) s = .next ((s.taken r x).answered r x 0x0A0A .range [(0, 4)])) := by
  simp only [exec, execSignCellSet]
  refine ⟨fun hcol hc hsp => hostCmd_ok hs ?_, fun hcol hc hsp => hostCmd_refused hs ?_ (by simp), fun h => hostCmd_refused hs ?_ (by simp)⟩ <;>
    rw [s.taken_sign]
  · rw [decide_eq_false (show ¬ (s.sign.cfg.ncol ≤ col ∨ 49 < c) by omega), hsp]
    rfl
  · rw [decide_eq_false (show ¬ (s.sign.cfg.ncol ≤ col ∨ 49 < c) by omega), hsp]
    rfl
  · rw [decide_eq_true h]
    rfl
end

/-- Settles O38. -/
theorem signCommandsTakeEffect : Obligations.SignCommandsTakeEffect := by
  intro s r x t cfg named
  have hsign : t.sign = s.sign := s.taken_sign r x
  have hnv : t.nv = s.nv := s.taken_nv r x
  have horder : t.order = s.order := s.taken_order r x
  refine ⟨fun hs => ⟨fun d off data hpend hready hfit => ?_, fun d off data hout => exec_signWrite_beyond hs hout,
    fun p d off data hp h1 h63 hf hne hlen => exec_signWrite_remote hs hp ⟨h1, h63⟩ hf hne hlen, fun p d off data hp h1 h63 hf =>
    exec_signWrite_fault hs hp ⟨h1, h63⟩ hf, fun p d c pay hp hd hf h1 hc hlen => exec_signBus hs hp hd hf h1 hc hlen,
    fun p d c pay hp hd h => exec_signBus_state hs hp hd h, fun p d c pay h => exec_signBus_range hs h,
    fun loc rem k hrem hfree hp => exec_signSwap_now hs hp hrem k hfree, fun loc rem k hrem hp hk0 hk => ?_,
    fun loc rem k hrem hp => exec_signSwap_cancel hs hp hrem k, ⟨by rw [swapCancel_sign], by rw [swapCancel_sign]⟩,
    fun loc rem k m h => exec_signSwap_range hs h⟩,
    fun hs => ⟨fun w g => ?_, fun first l => ?_, fun row w hrow => ?_, fun row w hrow => ?_, fun off commit data hfit => ?_,
      fun off commit data hout => ?_, fun col c hcol hc => ?_, fun col c h => (exec_signCellSet hs col c).2.2 h⟩,
    fun hs => ⟨fun row hrow => ?_, ?_, fun row h15 h255 => ?_, ?_, ?_⟩⟩
  · rw [← hsign]
    exact exec_signWrite_local hs hpend hready hfit
  · obtain ⟨hok, hlate⟩ := exec_signSwap_bound hs hp hrem (loc := loc) hk0 hk
    refine ⟨fun hlo hfree hfull => ?_, hlate⟩
    rw [← horder]
    exact hok hlo hfree hfull
  · intro c good
    dsimp only [cfg]
    rw [← hnv]
    exact exec_signCfgSet hs w g
  · dsimp only [cfg]
    rw [← hnv]
    exact exec_signTrimSet hs first l
  · dsimp only [cfg]
    rw [← hnv]
    simp only [exec, execSignPopSet]
    exact hostCmd_ok hs (by rw [decide_eq_false (Nat.not_lt.mpr hrow)]; rfl)
  · simp only [exec, execSignPopSet]
    exact hostCmd_refused hs (by rw [decide_eq_true hrow]; rfl) (by simp)
  · rw [← hsign]
    simp only [exec, execSignDefaultSet]
    exact hostCmd_ok hs (by rw [decide_eq_false (Nat.not_lt.mpr hfit)]; rfl)
  · simp only [exec, execSignDefaultSet]
    exact hostCmd_refused hs (by rw [decide_eq_true hout]; rfl) (by simp)
  · obtain ⟨hok, hst, -⟩ := exec_signCellSet hs col c
    refine ⟨fun hsp => (hok hcol hc hsp).trans ?_, hst hcol hc⟩
    rw [← hsign]
    rfl
  · simp only [exec, execSignFaultRead]
    refine hostCmd_ok hs ?_
    rw [decide_eq_false (show ¬ (15 < row ∧ row ≠ 255) by omega), if_neg (show row ≠ 255 by omega), List.flatMap_singleton]
    rfl
  · simp only [exec, execSignFaultRead]
    exact hostCmd_ok hs rfl
  · simp only [exec, execSignFaultRead]
    exact hostCmd_refused hs (by rw [decide_eq_true ⟨h15, h255⟩]; rfl) (by simp)
  · simp only [exec, execSignColsRead]
    exact hostCmd_ok hs rfl
  · simp only [exec, execSignStatus]
    rw [← hsign, ← hnv]
    exact hostCmd_ok hs (by simp only [taken_port]; rfl)

end Sys2Proof.Machine
end

