-- ==== Sys2Proof/Proofs/Updates.lean ====
section
/-!
PROOFS. Decant's updates (15 R468-R494; 11 R376): the commands, in the order of their checks, and the events that carry an update on.
-/
namespace Sys2Proof.Machine
open Sys2Proof

theorem toStage_updNv (t : State) (g : Stage) : (t.toStage g).nv = { t.nv with upd := { t.nv.upd with stage := g } } := by
  have h := (notifyClass_said (t.onUpd (fun u => { u with stage := g })) 6 0x0C80 .ok)
  unfold State.toStage State.updNote
  exact (h _).nv

/-- An answer `a` of the body of a command of the session `x` ends in `u`. -/
def Yields (s : State) (r : Req) (x : Session) (c : CmdSpec) (a : Ans) (u : State) : Prop :=
  Served s r x c.need → ∀ body : Who → State → Ans, body (x.who r) (s.taken r x) = a → hostCmd c r body s = .next u

namespace Yields
variable {s : State} {r : Req} {x : Session} {c : CmdSpec}

theorem no {st : Status} {d : Nat} (hst : st ≠ .busy) : Yields s r x c (.no st d) ((s.taken r x).answered r x c.cmd st [(d, 4)]) :=
  fun hs _ hb => hostCmd_refused hs hb hst

theorem ok {pay : Payload} {t : State} : Yields s r x c (.ok pay t) (t.answered r x c.cmd .ok pay) := fun hs _ hb => hostCmd_ok hs hb

theorem ite {P : Prop} [Decidable P] {a b : Ans} {A B : State} (ha : Yields s r x c a A) (hb : Yields s r x c b B) :
    Yields s r x c (if P then a else b) (if P then A else B) := by
  split
  · exact ha
  · exact hb

end Yields

/-! ## UPD HEADER (15 R469-R471) -/

/-- The transfer of `h` opened. -/
def State.transferOpened (t : State) (h : PkgHeader) (sig : Nat) : State :=
  (t.onUpd (fun u => { u with hdr := some h, hdrSig := sig, nblk := ceilDiv h.pkgLen 1024, bitmap := [], eraseDue := true })).toStage .receiving

/-- What HEADER answers: its checks in their order (R469). -/
def State.headerAns (t : State) (sigOk : Bool) (h : PkgHeader) (sig : Nat) : Ans :=
  let u := t.nv.upd
  if 4 ≤ u.stage.no ∨ (∃ o ∈ u.hdr, o.targetHash ≠ h.targetHash) then .no .state 0
  else if hdrBad h = true then .no .range 0
  else if sigOk = false then .no .signature 0
  else if h.productOk = false then .no .product 0
  else if h.baseHash ≠ (u.bank u.active).bankHash then .no .base 0
  else if h.version ≤ (u.bank u.active).version ∨ h.secVer < u.secVer then .no .version 0
  else if u.hdr = some h then .ok [(u.nblk, 4), (u.held, 4)] t
  else .ok [(ceilDiv h.pkgLen 1024, 4), (0, 4)] (t.transferOpened h sig)

theorem execUpdHeader_eq (r : Req) (h : PkgHeader) (sig : Nat) (s : State) : execUpdHeader r h sig s =
    hostCmd { cmd := 0x0C01, need := .update } r (fun _ t => t.headerAns
      (ecdsaOk (Config.releaseKey ()) (ofBe (sha256 (r.payload.take (h.hdrLen - 64)))) sig) h sig) s := by
  refine congrArg (fun b => hostCmd _ r b s) (funext fun _ => funext fun t => ?_)
  have hopen : (t.transferOpened h sig).nv.upd.nblk = ceilDiv h.pkgLen 1024 ∧ (t.transferOpened h sig).nv.upd.held = 0 := by
    simp only [State.transferOpened, toStage_updNv]
    exact ⟨rfl, rfl⟩
  unfold State.headerAns
  simp only [checked_cons, checked_nil, decide_eq_true_eq, Bool.not_eq_true', bne_iff_ne]
  refine if_congr ?_ rfl (if_congr Iff.rfl rfl (if_congr Iff.rfl rfl (if_congr Iff.rfl rfl (if_congr Iff.rfl rfl (if_congr Iff.rfl rfl
    (if_congr Iff.rfl rfl ?_))))))
  · cases t.nv.upd.hdr <;> simp
  · change Ans.ok [((t.transferOpened h sig).nv.upd.nblk, 4), ((t.transferOpened h sig).nv.upd.held, 4)] (t.transferOpened h sig) = _
    rw [hopen.1, hopen.2]

section
variable {s : State} {r : Req} {x : Session} (hs : Served s r x .update)
include hs

theorem exec_updHeader (h : PkgHeader) (sig : Nat) :
    let t := s.taken r x
    let u := s.nv.upd
    let no := fun (st : Status) => t.answered r x 0x0C01 st [(0, 4)]
    let sigOk := ecdsaOk (Config.releaseKey ()) (ofBe (sha256 (r.payload.take (h.hdrLen - 64)))) sig
    exec (.updHeader r h sig) s = .next (
      if 4 ≤ u.stage.no ∨ (∃ o ∈ u.hdr, o.targetHash ≠ h.targetHash) then no .state
      else if hdrBad h = true then no .range
      else if sigOk = false then no .signature
      else if h.productOk = false then no .product
      else if h.baseHash ≠ (u.bank u.active).bankHash then no .base
      else if h.version ≤ (u.bank u.active).version ∨ h.secVer < u.secVer then no .version
      else if u.hdr = some h then t.answered r x 0x0C01 .ok [(u.nblk, 4), (u.held, 4)]
      else (t.transferOpened h sig).answered r x 0x0C01 .ok [(ceilDiv h.pkgLen 1024, 4), (0, 4)]) := by
  intro t u no sigOk
  have hupd : (s.taken r x).nv.upd = u := by rw [s.taken_nv]
  simp only [exec, execUpdHeader_eq]
  refine (show Yields s r x { cmd := 0x0C01, need := .update } ((s.taken r x).headerAns sigOk h sig) _ from ?_) hs _ rfl
  unfold State.headerAns
  rw [hupd]
  exact .ite (.no (by simp)) (.ite (.no (by simp)) (.ite (.no (by simp)) (.ite (.no (by simp)) (.ite (.no (by simp)) (.ite (.no (by simp)) (.ite .ok .ok))))))
end

/-! ## UPD BLOCK (15 R471-R473) -/

/-- A block programmed and its bit set. -/
def State.blockPut (t : State) (off : Nat) (data : List Nat) : State :=
  ({ t with mem := t.mem.put (bankBase (!t.nv.upd.active) + 0x3000000 + off) data } : State).onUpd (fun w => { w with bitmap := off / 1024 :: w.bitmap })

/-- What BLOCK answers for a block in its form. -/
def State.blockAns (t : State) (off : Nat) (data : List Nat) : Ans :=
  if t.nv.upd.bitmap.contains (off / 1024) then .ok [(t.nv.upd.held, 4)] t
  else
    let v := t.blockPut off data
    let w := if (t.nv.upd.held + 1) % 1024 = 0 ∧ t.nv.upd.held + 1 < t.nv.upd.nblk then v.updNote 0 (t.nv.upd.held + 1) t.nv.upd.nblk else v
    .ok [(t.nv.upd.held + 1, 4)] (if t.nv.upd.held + 1 = t.nv.upd.nblk then w.toStage .verifying else w)

theorem execUpdBlock_eq (r : Req) (off : Nat) (data : List Nat) (s : State) : execUpdBlock r off data s =
    hostCmd { cmd := 0x0C02, need := .update } r (fun _ t =>
      let len := (t.nv.upd.hdr.map PkgHeader.pkgLen).getD 0
      checked [(!(t.nv.upd.stage == .receiving || t.nv.upd.stage == .ready), .state),
        (decide (off % 1024 ≠ 0 ∨ len ≤ off ∨ data.length ≠ min 1024 (len - off)), .range), (t.nv.upd.eraseDue, .busy)] (t.blockAns off data)) s := rfl

section
variable {s : State} {r : Req} {x : Session} (hs : Served s r x .update)
include hs

theorem exec_updBlock (off : Nat) (data : List Nat) :
    let t := s.taken r x
    let u := s.nv.upd
    let len := (u.hdr.map PkgHeader.pkgLen).getD 0
    let inForm := off % 1024 = 0 ∧ off < len ∧ data.length = min 1024 (len - off)
    let n := u.held + 1
    let v := t.blockPut off data
    (u.stage ≠ .receiving → u.stage ≠ .ready → exec (.updBlock r off data) s = .next (t.answered r x 0x0C02 .state [(0, 4)])) ∧
    (u.stage = .receiving ∨ u.stage = .ready →
      (¬ inForm → exec (.updBlock r off data) s = .next (t.answered r x 0x0C02 .range [(0, 4)])) ∧
      (inForm → u.eraseDue = true → ∃ ms, exec (.updBlock r off data) s = .next (State.answered { t with fresh := t.fresh + 1 } r x 0x0C02 .busy [(ms, 2)])) ∧
      (inForm → u.eraseDue = false → off / 1024 ∈ u.bitmap → exec (.updBlock r off data) s = .next (t.answered r x 0x0C02 .ok [(u.held, 4)])) ∧
      (inForm → u.eraseDue = false → off / 1024 ∉ u.bitmap →
        (n ≠ u.nblk → n % 1024 ≠ 0 ∨ u.nblk < n → exec (.updBlock r off data) s = .next (v.answered r x 0x0C02 .ok [(n, 4)])) ∧
        (n < u.nblk → n % 1024 = 0 → exec (.updBlock r off data) s = .next ((v.updNote 0 n u.nblk).answered r x 0x0C02 .ok [(n, 4)])) ∧
        (n = u.nblk → exec (.updBlock r off data) s = .next ((v.toStage .verifying).answered r x 0x0C02 .ok [(n, 4)])))) := by
  intro t u len inForm n v
  have hupd : (s.taken r x).nv.upd = u := by rw [s.taken_nv]
  have hform : (decide (off % 1024 ≠ 0 ∨ len ≤ off ∨ data.length ≠ min 1024 (len - off)) = false) ↔ inForm := by
    rw [decide_eq_false_iff_not]
    simp only [inForm]
    omega
  simp only [exec, execUpdBlock_eq]
  refine ⟨fun h1 h2 => hostCmd_refused hs ?_ (by simp), fun hst => ?_⟩
  · rw [hupd, beq_false_of_ne h1, beq_false_of_ne h2]
    rfl
  have hstage : (!(u.stage == .receiving || u.stage == .ready)) = false := by
    rcases hst with h | h <;> rw [h] <;> rfl
  have hans (hin : inForm) (hdue : u.eraseDue = false) : checked [(!((s.taken r x).nv.upd.stage == .receiving || (s.taken r x).nv.upd.stage == .ready), .state),
      (decide (off % 1024 ≠ 0 ∨ ((s.taken r x).nv.upd.hdr.map PkgHeader.pkgLen).getD 0 ≤ off ∨
        data.length ≠ min 1024 (((s.taken r x).nv.upd.hdr.map PkgHeader.pkgLen).getD 0 - off)), .range), ((s.taken r x).nv.upd.eraseDue, .busy)]
      ((s.taken r x).blockAns off data) = (s.taken r x).blockAns off data := by
    rw [hupd, hstage, hform.mpr hin, hdue]
    rfl
  refine ⟨fun hout => hostCmd_refused hs ?_ (by simp), fun hin hdue => hostCmd_busy (d := 0) hs ?_, fun hin hdue hmem => hostCmd_ok hs ((hans hin hdue).trans ?_),
    fun hin hdue hmem => ⟨fun hne hno => hostCmd_ok hs ((hans hin hdue).trans ?_), fun hlt hmul => hostCmd_ok hs ((hans hin hdue).trans ?_),
      fun heq => hostCmd_ok hs ((hans hin hdue).trans ?_)⟩⟩
  · have hbad : off % 1024 ≠ 0 ∨ len ≤ off ∨ data.length ≠ min 1024 (len - off) := by
      by_contra h
      exact hout (hform.mp (decide_eq_false h))
    rw [hupd, hstage, decide_eq_true hbad]
    rfl
  · rw [hupd, hstage, hform.mpr hin, hdue]
    rfl
  all_goals unfold State.blockAns; rw [hupd]
  · rw [if_pos (by simpa using hmem)]
  all_goals rw [if_neg (by simpa using hmem)]; dsimp only
  · rw [if_neg (show ¬ (n % 1024 = 0 ∧ n < u.nblk) by omega), if_neg hne]
  · rw [if_pos (And.intro hmul hlt), if_neg (Nat.ne_of_lt hlt)]
  · rw [if_neg (show ¬ (n % 1024 = 0 ∧ n < u.nblk) by omega), if_pos heq]

end

/-! ## UPD ACTIVATE (15 R475-R477) -/

theorem failedIf_first (t : State) (run left : List Comp) : (t.failedIf run left).1 < 6 ∧
    ((∃ i', i' < 6 ∧ ∀ c ∈ left, agreeOn (withComp run c) i' = false) →
      (∀ c ∈ left, agreeOn (withComp run c) (t.failedIf run left).1 = false) ∧
        ∀ i', i' < (t.failedIf run left).1 → ∃ c ∈ left, agreeOn (withComp run c) i' = true) := by
  unfold State.failedIf
  have hall (i : Nat) : left.all (fun c => !agreeOn (withComp run c) i) = true ↔ ∀ c ∈ left, agreeOn (withComp run c) i = false := by simp
  split
  next i hi =>
    rw [rangeFrom_eq_range'] at hi
    obtain ⟨hp, j, hj, hji, hfirst⟩ := List.find?_eq_some_iff_getElem.mp hi
    rw [List.length_range'] at hj
    have hij : j = i := by simpa using hji
    subst hij
    refine ⟨hj, fun _ => ⟨(hall j).mp hp, fun i' hi' => ?_⟩⟩
    have hno := hfirst i' hi'
    simpa using hno
  next hnone =>
    refine ⟨Nat.mod_lt _ (by decide), fun ⟨i', hi', hno⟩ => ?_⟩
    have := List.find?_eq_none.mp hnone i' (mem_rangeFrom.mpr ⟨by omega, by omega⟩)
    exact absurd ((hall i').mpr hno) this
/-- The activation of the package `h` for HCN `k`, with the components in `order`. -/
def State.activation (t : State) (k : Nat) (order : List Nat) (w : Who) : State :=
  let u := t.onUpd (fun u => { u.setInactive {} with
    t := k, ord := t.order, order := order, pos := 0, by_ := some (w.ses, w.seq), failedOnce := false })
  let u : State := { u with order := u.order + 1 }
  ((u.toStage .reconstructing).wipeBank (!u.nv.upd.active)).eraseComp (!u.nv.upd.active)

theorem setInactive_active (u : Decant) (w : FwSet) : (u.setInactive w).active = u.active := by
  unfold Decant.setInactive
  split <;> rfl

/-- What ACTIVATE answers once its checks have passed. -/
def State.activateAns (t : State) (h : PkgHeader) (k : Nat) (w : Who) : Ans :=
  match switchOrder 5 t.nv.upd.running (t.changed h) with
  | .inr (run, left) => .ended .interface [(2 ^ 28 + (t.failedIf run left).1, 4)] (t.failedIf run left).2
  | .inl order => if t.excludedBy h ≠ 0 then .no .interface (2 * 2 ^ 28 + t.excludedBy h) else .deferred k (t.activation k order w)

/-- ACTIVATE leaves the running bank as it is, so that it is the other one that is wiped. -/
theorem State.activation_eq (t : State) (k : Nat) (order : List Nat) (w : Who) : t.activation k order w =
    let v := t.onUpd (fun u => { u.setInactive {} with
      t := k, ord := t.order, order := order, pos := 0, by_ := some (w.ses, w.seq), failedOnce := false })
    let v : State := { v with order := t.order + 1 }
    ((v.toStage .reconstructing).wipeBank (!t.nv.upd.active)).eraseComp (!t.nv.upd.active) := by
  dsimp only
  rw [← setInactive_active t.nv.upd {}]
  rfl

theorem execUpdActivate_eq (r : Req) (k : Nat) (ok : Bool) (s : State) : execUpdActivate r k ok s = hostCmd { cmd := 0x0C04, need := .update } r (fun w t =>
    match t.nv.upd.hdr with
    | none => .no .state 0
    | some h =>
      checked ([(!(t.nv.upd.stage == .ready), .state), (t.badTgt k, .range)] ++ t.lateTgt k 14760 ++ [(!(ok && t.payloadOk), .hash)])
        (t.activateAns h k w)) s := rfl

section
variable {s : State} {r : Req} {x : Session} (hs : Served s r x .update)
include hs

theorem exec_updActivate_state {k : Nat} {ok : Bool} (h : s.nv.upd.stage ≠ .ready ∨ s.nv.upd.hdr = none) :
    exec (.updActivate r k ok) s = .next ((s.taken r x).answered r x 0x0C04 .state [(0, 4)]) := by
  simp only [exec, execUpdActivate_eq]
  refine hostCmd_refused hs ?_ (by simp)
  rw [s.taken_nv]
  cases hh : s.nv.upd.hdr with
  | none => rfl
  | some g =>
    rw [hh] at h
    simp only [beq_false_of_ne (h.resolve_right (by simp))]
    rfl

/-- ACTIVATE of a package that is READY: its checks, and its answer at a lead of 14 760. -/
theorem exec_updActivate {h : PkgHeader} {k : Nat} {ok : Bool} (hst : s.nv.upd.stage = .ready) (hh : s.nv.upd.hdr = some h) :
    (k = 0 ∨ (s.pow.phase = .complete ∧ s.tb.hcn + 2147483648 < k) →
      exec (.updActivate r k ok) s = .next ((s.taken r x).answered r x 0x0C04 .range [(0, 4)])) ∧
    (s.pow.phase = .complete → k ≠ 0 → k ≤ s.tb.hcn + 2147483648 →
      (k < s.tb.hcn + 14760 → exec (.updActivate r k ok) s = .next ((s.taken r x).answered r x 0x0C04 .late [(0, 4)])) ∧
      (s.tb.hcn + 14760 ≤ k →
        ((ok && (s.taken r x).payloadOk) = false → exec (.updActivate r k ok) s = .next ((s.taken r x).answered r x 0x0C04 .hash [(0, 4)])) ∧
        (ok = true → (s.taken r x).payloadOk = true → exec (.updActivate r k ok) s =
          hostCmd { cmd := 0x0C04, need := .update } r (fun w _ => (s.taken r x).activateAns h k w) s))) := by
  simp only [exec, execUpdActivate_eq]
  have hhdr : (s.taken r x).nv.upd.hdr = some h := by rw [s.taken_nv, hh]
  have hready : (!((s.taken r x).nv.upd.stage == .ready)) = false := by rw [s.taken_nv, hst]; rfl
  refine ⟨fun hbad => hostCmd_refused hs ?_ (by simp), fun hp hk0 hk => ⟨fun hlo => hostCmd_refused hs ?_ (by simp), fun hlo =>
    ⟨fun hno => hostCmd_refused hs ?_ (by simp), fun hok hpay => ?_⟩⟩⟩
  · rw [hhdr]
    have hb : (s.taken r x).badTgt k = true := by
      rcases hbad with rfl | ⟨hp, hk⟩
      · rfl
      · simp [State.badTgt, State.started, hp, hk]
    simp only [hready, hb]
    rfl
  · rw [hhdr]
    simp only [hready, taken_badTgt hk0 hk, taken_lateTgt hp, decide_eq_true hlo]
    rfl
  · rw [hhdr]
    simp only [hready, taken_badTgt hk0 hk, taken_lateTgt hp, decide_eq_false (Nat.not_lt.mpr hlo), hno]
    rfl
  · rw [hostCmd_served (c := { cmd := 0x0C04, need := .update }) hs, hostCmd_served (c := { cmd := 0x0C04, need := .update }) hs, hhdr]
    simp only [hready, taken_badTgt hk0 hk, taken_lateTgt hp, decide_eq_false (Nat.not_lt.mpr hlo), hok, hpay]
    rfl
end

/-! ## NODE_ACTIVATE (15 R490) -/

section
variable {s : State} {r : Req} {x : Session} (hs : Served s r x .update) {img g k : Nat}
include hs

theorem exec_updNodeActivate_state (h : (s.nv.upd.stage = .switching ∨ s.nv.upd.stage = .trial) ∨
    (∃ c ∈ (s.taken r x).imgComp img, c.pver < (s.taken r x).protoRange.1 ∨ (s.taken r x).protoRange.2 < c.pver)) :
    exec (.updNodeActivate r img g k) s = .next ((s.taken r x).answered r x 0x0C08 .state [(0, 4)]) := by
  simp only [exec, execUpdNodeActivate]
  refine hostCmd_refused hs ?_ (by simp)
  rw [s.taken_nv]
  cases hc : (s.taken r x).imgComp img with
  | none =>
    rw [hc] at h
    have hst : (s.nv.upd.stage == .switching || s.nv.upd.stage == .trial) = true := by simpa using h
    simp only [hst]
    rfl
  | some c =>
    rw [hc] at h
    have hst : (!(decide ((s.taken r x).protoRange.1 ≤ c.pver ∧ c.pver ≤ (s.taken r x).protoRange.2)) || s.nv.upd.stage == .switching
        || s.nv.upd.stage == .trial) = true := by
      simp only [Option.mem_def, Option.some.injEq, exists_eq_left'] at h
      rcases h with (h | h) | h
      · rw [h]; simp
      · rw [h]; simp
      · rw [decide_eq_false (by omega)]; rfl
    simp only [hst]
    rfl

theorem exec_updNodeActivate_none (h1 : s.nv.upd.stage ≠ .switching) (h2 : s.nv.upd.stage ≠ .trial) (hc : (s.taken r x).imgComp img = none) :
    exec (.updNodeActivate r img g k) s = .next ((s.taken r x).answered r x 0x0C08 .range [(0, 4)]) := by
  simp only [exec, execUpdNodeActivate]
  refine hostCmd_refused hs ?_ (by simp)
  rw [hc, s.taken_nv]
  simp only [beq_false_of_ne h1, beq_false_of_ne h2]
  rfl

theorem exec_updNodeActivate {c : Comp} (hc : (s.taken r x).imgComp img = some c) (hlo : (s.taken r x).protoRange.1 ≤ c.pver)
    (hhi : c.pver ≤ (s.taken r x).protoRange.2) (h1 : s.nv.upd.stage ≠ .switching) (h2 : s.nv.upd.stage ≠ .trial) :
    let t := s.taken r x
    (15 < img ∨ 255 < g ∨ k = 0 → exec (.updNodeActivate r img g k) s = .next (t.answered r x 0x0C08 .range [(0, 4)])) ∧
    (img ≤ 15 → g ≤ 255 → k ≠ 0 → s.pow.phase = .complete → k ≤ s.tb.hcn + 2147483648 →
      (k < s.tb.hcn + 8 → exec (.updNodeActivate r img g k) s = .next (t.answered r x 0x0C08 .late [(0, 4)])) ∧
      (s.tb.hcn + 8 ≤ k → t.actsFull = true ∨ t.linkFull (feedersOf (t.members g)) = true →
        ∃ ms, exec (.updNodeActivate r img g k) s = .next (State.answered { t with fresh := t.fresh + 1 } r x 0x0C08 .busy [(ms, 2)])) ∧
      (s.tb.hcn + 8 ≤ k → t.actsFull = false → t.linkFull (feedersOf (t.members g)) = false →
        exec (.updNodeActivate r img g k) s = .next ((t.linkCmd (feedersOf (t.members g)) k (x.who r) 0x0C08 (.imgActivate 0 img g k)
          (fun id => .imgActivate id img (t.members g))).answered r x 0x0C08 .deferred [(k, 6)]))) := by
  intro t
  simp only [exec, execUpdNodeActivate]
  have hst : (!(decide ((s.taken r x).protoRange.1 ≤ c.pver ∧ c.pver ≤ (s.taken r x).protoRange.2)) || (s.taken r x).nv.upd.stage == .switching
      || (s.taken r x).nv.upd.stage == .trial) = false := by
    rw [s.taken_nv, decide_eq_true ⟨hlo, hhi⟩, beq_false_of_ne h1, beq_false_of_ne h2]
    rfl
  refine ⟨fun h => hostCmd_refused hs ?_ (by simp), fun hi hg hk0 hp hk => ⟨fun hl => hostCmd_refused hs ?_ (by simp),
    fun hl hfull => hostCmd_busy (d := 0) hs ?_, fun hl hacts hlink => hostCmd_deferred hs ?_⟩⟩ <;> rw [hc] <;> dsimp only <;> rw [hst]
  · have hb : (decide (15 < img ∨ 255 < g) || (s.taken r x).badTgt k) = true := by
      rcases h with h | h | rfl
      · simp [h]
      · simp [h]
      · simp [State.badTgt]
    rw [hb]
    rfl
  all_goals rw [decide_eq_false (show ¬ (15 < img ∨ 255 < g) by omega), taken_badTgt hk0 hk, taken_lateTgt hp]
  · rw [decide_eq_true hl]
    rfl
  · have hb : ((s.taken r x).actsFull || (s.taken r x).linkFull (feedersOf ((s.taken r x).members g))) = true := by
      rw [Bool.or_eq_true]; exact hfull
    rw [decide_eq_false (Nat.not_lt.mpr hl), hb]
    rfl
  · rw [decide_eq_false (Nat.not_lt.mpr hl), show (s.taken r x).actsFull = false from hacts,
      show (s.taken r x).linkFull (feedersOf ((s.taken r x).members g)) = false from hlink]
    rfl
end

/-! ## Decant's own events (15 R468-R483) -/

theorem exec_reconstructionDone {s : State} {dt : Dt} {h : PkgHeader} {ok : Bool} (hrun : s.runs .m = true) (hst : s.nv.upd.stage = .reconstructing)
    (hh : s.nv.upd.hdr = some h) :
    let t := s.tick dt
    let b := !s.nv.upd.active
    (∀ bs, t.rebuilt h = some bs →
      let u : State := { t with mem := (s.mem.program (bankBase b + 0x1000) bs).put (bankBase b) (hdrBytes h ++ leBytes 64 s.nv.upd.hdrSig) }
      let u := (rangeFrom 1 (hdrBuilt h / 4194304)).foldl (fun v i => v.updNote 0 (4096 * i) (ceilDiv (hdrBuilt h) 1024)) u
      exec (.reconstructionDone dt true) s =
        .next ((u.onUpd (fun v => v.setInactive ⟨h.version, h.secVer, setHash h.dir, h.dir, true⟩)).toStage .armed)) ∧
    (ok = false ∨ t.rebuilt h = none →
      (s.nv.upd.failedOnce = false → exec (.reconstructionDone dt ok) s =
        .next (((t.onUpd (fun v => { v with failedOnce := true })).wipeBank b).eraseComp b)) ∧
      (s.nv.upd.failedOnce = true → exec (.reconstructionDone dt ok) s =
        .next ((((t.updFinal .hash).onUpd (fun v => v.drop.dropAct)).toStage .idle).raiseGen .m 0x0C 0 []))) := by
  intro t b
  have hgo : (!(s.nv.upd.stage == .reconstructing && s.runs .m)) = false := by rw [hst, hrun]; rfl
  refine ⟨fun bs hbs => ?_, fun hno => ?_⟩
  · have hbs' : (s.tick dt).rebuilt h = some bs := hbs
    simp only [exec, execReconstructionDone, State.tick_nv, State.tick_runs, hh, hgo, hbs']
    rfl
  · have hnone : (if ok = true then (s.tick dt).rebuilt h else none) = none := by
      rcases hno with rfl | hno
      · rfl
      · rw [show (s.tick dt).rebuilt h = none from hno, ite_self]
    have hnv : (s.tick dt).nv = s.nv := State.tick_nv ..
    simp only [exec, execReconstructionDone, hnv, State.tick_runs, hh, hgo, hnone]
    refine ⟨fun hf => ?_, fun hf => ?_⟩ <;> simp only [hf] <;> rfl

/-- Settles O45, each command by its own lemma and each event by its guard. -/
theorem updateRunsThroughItsStages : Obligations.UpdateRunsThroughItsStages := by
  refine ⟨fun s r x => ?_, fun s dt => ?_⟩
  · intro t u no
    have hnv : t.nv = s.nv := s.taken_nv r x
    have hmem : t.mem = s.mem := s.taken_mem r x
    have horder : t.order = s.order := s.taken_order r x
    refine ⟨fun hs => ⟨fun h sig => exec_updHeader hs h sig, fun off data => ?_, fun k ok h => exec_updActivate_state hs h, fun h k ok hst hh => ?_,
      fun hst => ?_, fun hst => ?_, fun hst => ?_, fun hst => ?_, fun img g k h => exec_updNodeActivate_state hs h,
      fun img g k h1 h2 hc => exec_updNodeActivate_none hs h1 h2 hc, fun img g k c hc hlo hhi h1 h2 => exec_updNodeActivate hs hc hlo hhi h1 h2⟩,
      fun hs => ⟨fun first n h0 h8 hn hfit => ?_, fun first n hbad => ?_, ?_, fun a n img ha himg => ?_, fun a n img hbad => ?_⟩⟩
    · have hb := exec_updBlock hs off data
      have hput : (s.taken r x).blockPut off data = State.onUpd { t with mem := s.mem.put (bankBase (!u.active) + 0x3000000 + off) data }
          (fun w => { w with bitmap := off / 1024 :: w.bitmap }) := by
        rw [State.blockPut, s.taken_mem, s.taken_nv]
      dsimp only at hb
      rw [hput] at hb
      exact hb
    · obtain ⟨hrange, hrest⟩ := exec_updActivate hs (k := k) (ok := ok) hst hh
      refine ⟨hrange, fun hp hk0 hk => ⟨(hrest hp hk0 hk).1, fun hlo => ⟨((hrest hp hk0 hk).2 hlo).1, fun hok hpay => ?_⟩⟩⟩
      rw [((hrest hp hk0 hk).2 hlo).2 hok hpay]
      have hupd : (s.taken r x).nv.upd = u := by rw [s.taken_nv]
      refine ⟨fun run left hsw => ?_, fun l hsw => ⟨fun hex => hostCmd_refused hs ?_ (by simp), fun hex => hostCmd_deferred hs ?_⟩⟩
      · obtain ⟨hlt, hfirst⟩ := failedIf_first t run left
        refine ⟨_, hlt, hfirst, _, failedIf_drawn t run left, hostCmd_ended hs ?_⟩
        unfold State.activateAns
        rw [hupd, hsw]
      · unfold State.activateAns
        rw [hupd, hsw]
        exact if_pos hex
      · unfold State.activateAns
        rw [hupd, hsw]
        refine (if_neg (not_not_intro hex)).trans ?_
        rw [State.activation_eq, s.taken_order, hupd]
        rfl
    · simp only [exec, execUpdConfirm]
      exact hostCmd_ok hs (by rw [s.taken_nv, hst]; rfl)
    · simp only [exec, execUpdConfirm]
      exact hostCmd_refused hs (by rw [s.taken_nv, beq_false_of_ne hst]; rfl) (by simp)
    · simp only [exec, execUpdAbort]
      refine hostCmd_ok hs ?_
      rw [s.taken_nv]
      rcases hst with h | h | h <;> rw [h] <;> rfl
    · simp only [exec, execUpdAbort]
      have hno : (s.nv.upd.stage == .receiving || s.nv.upd.stage == .verifying || s.nv.upd.stage == .ready) = false := by
        rw [← Bool.not_eq_true]
        simpa [or_assoc] using hst
      exact hostCmd_refused hs (by rw [s.taken_nv, hno]; rfl) (by simp)
    · simp only [exec, execUpdBitmap]
      refine hostCmd_ok hs ?_
      have hfit' : first + n ≤ 8 * ceilDiv s.nv.upd.nblk 8 := hfit
      rw [s.taken_nv, decide_eq_false (by omega)]
      rfl
    · simp only [exec, execUpdBitmap]
      refine hostCmd_refused hs ?_ (by simp)
      rw [s.taken_nv, decide_eq_true hbad]
      rfl
    · simp only [exec, execUpdStatus]
      exact hostCmd_ok hs (by rw [s.taken_nv])
    · simp only [exec, execUpdNodeStatus]
      exact hostCmd_page hs (by rw [decide_eq_false (Nat.not_lt.mpr himg)]; rfl) rfl ha
    · simp only [exec, execUpdNodeStatus]
      refine hostCmd_refused hs ?_ (by simp)
      by_cases himg : 15 < img
      · rw [decide_eq_true himg]
        rfl
      · rw [decide_eq_false himg, paged, decide_eq_true (hbad.resolve_right himg)]
        rfl
  · intro t
    refine ⟨fun hrun => ⟨fun hdue => ?_, fun hst => ⟨fun hpay => ?_, fun ok hno => ?_⟩, fun h hst hh => ?_, fun hst hmin => ?_⟩,
      fun k g hst hk hle hg hty hno => ?_, fun f hf hrun => ?_⟩
    · simp only [exec, execStagingEraseDone, State.tick_nv, State.tick_runs, hdue, hrun]
      rfl
    · simp only [exec, execPayloadVerifyDone, State.tick_nv, State.tick_runs, hst, hrun, show (s.tick dt).payloadOk = true from hpay]
      rfl
    · simp only [exec, execPayloadVerifyDone, State.tick_nv, State.tick_runs, hst, hrun, show (ok && (s.tick dt).payloadOk) = false from hno]
      rfl
    · exact ⟨(exec_reconstructionDone hrun hst hh (ok := true)).1, fun ok => (exec_reconstructionDone hrun hst hh (ok := ok)).2⟩
    · have hgo : (!((s.tick dt).nv.upd.stage == .trial && (s.tick dt).runs .m &&
          decide ((s.tick dt).nv.upd.minuteAt + 60 * secC ≤ (s.tick dt).now))) = false := by
        rw [State.tick_nv, State.tick_runs, hst, hrun, decide_eq_true (show s.nv.upd.minuteAt + 60 * secC ≤ (s.tick dt).now from hmin)]
        rfl
      have hnv : (s.tick dt).nv = s.nv := State.tick_nv ..
      simp only [exec, execTrialMinute]
      rw [hgo]
      refine ⟨fun hlo => congrArg Host.Outcome.next ((if_neg (Nat.not_le.mpr (Nat.succ_lt_succ (hnv ▸ hlo)))).trans ?_),
        fun hhi => congrArg Host.Outcome.next ((if_pos (Nat.succ_le_succ (hnv ▸ hhi))).trans ?_)⟩ <;> rw [← hnv] <;> rfl
    · have hdead : (s.nv.upd.order.take s.nv.upd.pos).any (fun y => [Region.c, .d, .m].any (fun r => typeOf r == y && !(s.tick dt).runs r)) = true :=
        List.any_eq_true.mpr ⟨_, hty, List.any_eq_true.mpr ⟨g, hg, by rw [State.tick_runs, hno, beq_self_eq_true]; rfl⟩⟩
      have hnv : (s.tick dt).nv = s.nv := State.tick_nv ..
      simp only [exec, execSwitchRunTimeout, hnv, hk, hst, hdead, show k ≤ (s.tick dt).now from hle, decide_true]
      rfl
    · simp only [exec, execNodeImageRoundEnd]
      rw [if_pos ⟨hf, (State.tick_runs ..).trans hrun⟩]
      rfl

end Sys2Proof.Machine
end

