-- ==== Sys2Proof/Proofs/MeterEvents.lean ====
section
/-!
PROOFS. The pulse outputs, the snapshot and the periodic saves of the meter (07 R242-R248).
-/
namespace Sys2Proof.Machine
open Sys2Proof

theorem onSlot_slotOf_same (s : State) (n : Nat) (g : SaveSlot → SaveSlot) : (s.onSlot n g).slotOf n = g (s.slotOf n) := by
  unfold State.onSlot State.slotOf State.onNv
  dsimp only
  split <;> rfl

theorem onSlot_slotOf_other (s : State) {n m : Nat} (g : SaveSlot → SaveSlot) (h : n = 0 ↔ m ≠ 0) : (s.onSlot n g).slotOf m = s.slotOf m := by
  unfold State.onSlot State.slotOf State.onNv
  by_cases hm : m = 0
  · simp [hm, h]
  · simp [hm, h]

/-- What the save of a feeder part does to the state `t`, whose slot `n` has its header. -/
def State.feederPart (t : State) (n k : Nat) : State :=
  let u := t.ageSave.onSlot n (fun x => { x with markF := true, tot := { t.meter.saveTot with accounts := [], phases := [] }, means := t.meter.means k })
  { u with meter := { u.meter with saveSeq := (u.slotOf n).seq, saveHcn := k } }

theorem feederPart_slotOf_same (t : State) (n k : Nat) : (t.feederPart n k).slotOf n =
    { t.slotOf n with markF := true, tot := { t.meter.saveTot with accounts := [], phases := [] }, means := t.meter.means k } :=
  onSlot_slotOf_same t.ageSave n
    (fun x => { x with markF := true, tot := { t.meter.saveTot with accounts := [], phases := [] }, means := t.meter.means k })

theorem feederPart_slotOf_other (t : State) {n m : Nat} (k : Nat) (h : n = 0 ↔ m ≠ 0) : (t.feederPart n k).slotOf m = t.slotOf m :=
  onSlot_slotOf_other t.ageSave
    (fun x => { x with markF := true, tot := { t.meter.saveTot with accounts := [], phases := [] }, means := t.meter.means k }) h

/-- The header of a save at the HCN `k`, with the sequence number `seq` (R247). -/
def State.saveHead (t : State) (k seq : Nat) : SaveSlot :=
  let w := tget 0 t.jnc.stamps (k % 1024)
  { seq := seq, markF := false, markN := false, final := false, s := k, rtcSec := fld w 160 32, rtcSub := fld w 224 15, rtcValid := bit w 239 }

theorem saveHeader_slotOf_same (t : State) (k n seq : Nat) : (t.saveHeader k n seq).slotOf n = t.saveHead k seq :=
  onSlot_slotOf_same t n (fun _ => t.saveHead k seq)

theorem saveHeader_slotOf_other (t : State) (k seq : Nat) {n m : Nat} (h : n = 0 ↔ m ≠ 0) : (t.saveHeader k n seq).slotOf m = t.slotOf m :=
  onSlot_slotOf_other t (fun _ => t.saveHead k seq) h

theorem saveTarget_or (s : State) : s.saveTarget.1 = 0 ∨ s.saveTarget.1 = 1 := by
  unfold State.saveTarget State.newestSlot
  dsimp only
  split
  next n hn =>
    split at hn
    · simp_all; omega
    · split at hn <;> simp_all
  next => exact Or.inl rfl

/-- Where a header stands, the periodic save writes the feeder part. -/
theorem exec_periodicSave {s : State} {dt : Dt} {n k h : Nat} (hfill : s.meter.saveFill = some k) (hsav : s.meter.saving = some (n, h))
    (hclosed : s.meter.closed = none) (hrun : s.runs .d = true) (hmark : (s.slotOf n).markF = false) :
    exec (.periodicSave dt) s = .next ((s.tick dt).feederPart n k) := by
  have hstart : (s.tick dt).saveStart = s.tick dt := by
    simp only [State.saveStart, State.tick_meter, hfill, hsav]
    rfl
  have hmark' : ((s.tick dt).slotOf n).markF = false := hmark
  simp only [exec, execPeriodicSave, hstart, State.tick_meter, State.tick_runs, hfill, hsav, hclosed, hrun, hmark']
  rfl

/-- With none standing, it writes the header into the slot that does not hold the newest save first. -/
theorem exec_periodicSave_header {s : State} {dt : Dt} {k : Nat} (hfill : s.meter.saveFill = some k) (hsav : s.meter.saving = none)
    (hclosed : s.meter.closed = none) (hrun : s.runs .d = true) (hdone : ∀ f, f < 8 → s.ivlsDone f k = true) :
    exec (.periodicSave dt) s =
      .next (((s.tick dt).saveHeader k s.saveTarget.1 s.saveTarget.2).feederPart s.saveTarget.1 k) := by
  have hall : (rangeFrom 0 8).all (fun f => (s.tick dt).ivlsDone f k) = true :=
    List.all_eq_true.mpr fun f hf => hdone f (by have := mem_rangeFrom.mp hf; omega)
  have hstart : (s.tick dt).saveStart = (s.tick dt).saveHeader k s.saveTarget.1 s.saveTarget.2 := by
    simp only [State.saveStart, State.tick_meter, State.tick_runs, hfill, hsav, hclosed, hrun, hall]
    rfl
  have hmark : (((s.tick dt).saveHeader k s.saveTarget.1 s.saveTarget.2).slotOf s.saveTarget.1).markF = false :=
    congrArg SaveSlot.markF (saveHeader_slotOf_same ..)
  have hruns : ((s.tick dt).saveHeader k s.saveTarget.1 s.saveTarget.2).runs .d = true := hrun
  have hfills : ((s.tick dt).saveHeader k s.saveTarget.1 s.saveTarget.2).meter.saveFill = some k := hfill
  have hsaving : ((s.tick dt).saveHeader k s.saveTarget.1 s.saveTarget.2).meter.saving = some (s.saveTarget.1, k) := rfl
  have hcl : ((s.tick dt).saveHeader k s.saveTarget.1 s.saveTarget.2).meter.closed = none := hclosed
  simp only [exec, execPeriodicSave, hstart, hmark, hruns, hfills, hsaving, hcl]
  rfl

theorem exec_meterSnapshotComplete {s : State} {dt : Dt} (hst : s.meter.snap.st = .filling) (hrun : s.runs .d = true)
    (hdone : ∀ f, f < 8 → s.ivlsDone f s.meter.snap.t = true) : exec (.meterSnapshotComplete dt) s = .next (s.tick dt).snapReady := by
  have hall : (rangeFrom 0 8).all (fun f => (s.tick dt).ivlsDone f (s.tick dt).meter.snap.t) = true :=
    List.all_eq_true.mpr fun f hf => hdone f (by have := mem_rangeFrom.mp hf; omega)
  exact congrArg Host.Outcome.next (if_pos ⟨hst, (State.tick_runs ..).trans hrun, hall⟩)

/-- Settles O32, with the save's feeder part as one operation on its slot. -/
theorem pulsesSnapshotsAndSaves : Obligations.PulsesSnapshotsAndSaves := by
  refine ⟨fun s dt o => ?_, fun s dt => ?_⟩
  · intro t
    refine ⟨fun ho hpend hcond hgap hhiz hrun hclosed hfail hcmd => ?_, fun hcond hover => ?_⟩
    · have hgo : (decide (1 < o) || (s.pulse o).pend == 0 || (s.pulse o).conducting || decide ((s.tick dt).now < (s.pulse o).gapEnd) || s.pow.pulseHiZ
          || !s.runs .d || s.meter.closed.isSome || s.pow.supplyFail || s.pow.cmdShutdown) = false := by
        rw [decide_eq_false (Nat.not_lt.mpr ho), beq_false_of_ne (Nat.ne_of_gt hpend), hcond, decide_eq_false (Nat.not_lt.mpr hgap), hhiz, hrun, hclosed,
          hfail, hcmd]
        rfl
      exact ⟨_, congrArg Host.Outcome.next (if_neg (by
        rw [State.tick_pow, State.tick_runs, State.tick_meter, show (s.tick dt).pulse o = s.pulse o from rfl, hgo]
        simp)), rfl, tget_tset_of_ne (by simp), rfl, rfl⟩
    · simp only [exec, execPulseEnd]
      refine congrArg Host.Outcome.next (if_pos ?_)
      rw [show ((s.tick dt).pulse o).conducting = true from hcond, show ((s.tick dt).pulse o).over (s.tick dt).now = true from hover]
      rfl
  · intro t
    refine ⟨fun hst hrun hdone hacts => ?_, fun a hst hrun hdone hacts => ?_, fun k hfill hsav hclosed hrun hdone => ?_,
      fun n k h hfill hsav hclosed hrun hmark => ?_, fun n k hsav hrun hn hclosed hmark hattr => ?_⟩
    · have hfind : s.acts.find? (fun a => decide (a.what = ActWhat.meterSnap)) = none :=
        List.find?_eq_none.mpr fun a ha => by simpa using hacts a ha
      rw [exec_meterSnapshotComplete hst hrun hdone, State.snapReady, State.tick_acts, hfind]
    · rw [exec_meterSnapshotComplete hst hrun hdone, State.snapReady, State.tick_acts, hacts]
    · have hsame := feederPart_slotOf_same ((s.tick dt).saveHeader k s.saveTarget.1 s.saveTarget.2) s.saveTarget.1 k
      rw [saveHeader_slotOf_same] at hsame
      have hother : s.saveTarget.1 = 0 ↔ 1 - s.saveTarget.1 ≠ 0 := by have := saveTarget_or s; omega
      refine ⟨_, exec_periodicSave_header hfill hsav hclosed hrun hdone, ?_, ?_, ?_, ?_, ?_, ?_, rfl, rfl⟩
      · rw [hsame]
      · rw [hsame]; rfl
      · rw [hsame]; rfl
      · rw [hsame]; rfl
      · rw [hsame]; rfl
      · exact (feederPart_slotOf_other _ _ hother).trans (saveHeader_slotOf_other _ _ _ hother)
    · refine ⟨_, exec_periodicSave hfill hsav hclosed hrun hmark, rfl, hsav, rfl, feederPart_slotOf_same ..⟩
    · have hslot : (s.tick dt).slotOf n = s.slotOf n := rfl
      simp only [exec, execPeriodicSaveDone, State.tick_meter, State.tick_runs, hslot, hsav, hclosed, hrun, hmark,
        show (s.tick dt).attribDone k = true from hattr]
      refine ⟨_, rfl, ?_, rfl⟩
      exact congrArg SaveSlot.markN (onSlot_slotOf_same (s.tick dt) n (fun x => { x with
        markN := true, tot := { x.tot with accounts := s.meter.saveTot.accounts, phases := s.meter.saveTot.phases } }))

end Sys2Proof.Machine
end

