-- ==== Sys2Proof/Proofs/RegistersAndDma.lean ====
section
/-!
PROOFS. The block registers, the DMA channels and the scrubs (00 R12, R13; 01 R38-R42; 17 R518, R531-R544; 18 R561).
-/
namespace Sys2Proof.Machine
open Sys2Proof

/-! ## Registers -/

theorem isRam_of_isReg {a : Nat} (h : isReg a = true) : isRam a = false := by
  have hlo : 0x40000000 ≤ a := by
    rw [isReg, Bool.and_eq_true] at h
    exact of_decide_eq_true h.1
  exact decide_eq_false (by omega)

theorem writeAcc_reg {s : State} {m : Master} {a : Nat} {v : BitVec 32} (ha : a % 4 = 0) (hreg : isReg a = true) (hans : s.answers a = true) :
    s.writeAcc m a 4 v.toNat [] = (true, s.regSet a v) := by
  unfold State.writeAcc
  rw [isRam_of_isReg hreg, hreg, hans, BitVec.ofNat_toNat, BitVec.setWidth_eq]
  simp [ha]

theorem PerRegion.set_set {α : Type} (p : PerRegion α) (r : Region) (x y : α) : (p.set r x).set r y = p.set r y := by
  cases r <;> rfl

/-- A doorbell's set after the clears that coincide with it, by what is left pending. -/
theorem ringDb_clearDb (t : State) (g : Region) (b w : BitVec 32) :
    let p := (t.jnc.dbPend.get g &&& ~~~w) ||| b
    let u : State := { t with jnc := { t.jnc with dbPend := t.jnc.dbPend.set g p } }
    (t.clearDb g w).ringDb g b = if p = 0 then u else u.emit (.irq g) := by
  unfold State.ringDb State.clearDb
  dsimp only
  rw [PerRegion.get_set_same, PerRegion.set_set]

theorem isReg_at {a b : Nat} (hb : b ∈ blockList) (ha : a / 65536 = 0x4000 + b) : isReg a = true := by
  have hlo : 0x40000000 ≤ a := by omega
  rw [isReg, decide_eq_true hlo, Bool.true_and]
  exact List.any_eq_true.mpr ⟨b, hb, by rw [ha]; exact beq_self_eq_true _⟩

/-- A register of the C region answers while the region runs. -/
theorem answers_in_c {s : State} {dt : Dt} {a : Nat} (hlo : 0x40000000 ≤ a) (hb : blockRegion (a / 65536 % 256) = 0) (hrtc : a / 65536 ≠ 0x4037)
    (hrun : s.runs .c = true) : (s.tick dt).answers a = true := by
  have hreg : regionOfAddr a = some .c := by
    rw [regionOfAddr, if_neg (by omega), if_neg (by omega), if_neg (by omega), if_neg (by omega), hb]
    rfl
  rw [State.answers, State.reachable, hreg, beq_false_of_ne hrtc]
  exact (Bool.and_true _).trans ((State.tick_runs ..).trans hrun)

/-- A read of a counter register that answers: its value goes out and its fields keep the coinciding increments. -/
theorem exec_rcCounterRead {s : State} {dt : Dt} {m : Master} {a inc : Nat} {u : State} (ha : a % 4 = 0) (hreg : isReg a = true)
    (hans : (s.tick dt).answers a = true) (hset : (s.tick dt).rcSet a (fun i => b2n (inc.testBit i)) = some u) :
    exec (.rcCounterRead dt m a inc) s = .next (u.emit (.readData a ((s.tick dt).regGet a))) := by
  simp only [exec, execRcCounterRead, hset]
  refine congrArg Host.Outcome.next (if_neg ?_)
  simp [ha, hreg, hans]

theorem onFeeder_feeder_same {s : State} {f : Nat} {g : Feeder → Feeder} (h : twf {} s.fdr = true) : (s.onFeeder f g).feeder f = g (s.feeder f) :=
  tget_tset_same f _ h

/-! ## DMA channels -/

theorem onChan_chan {s : State} {g : Region} {n : Nat} {k : Channel → Channel} (h : k (s.chan g n) ≠ {}) :
    (s.onChan g n k).chan g n = k (s.chan g n) := by
  unfold State.onChan State.chan
  dsimp only
  rw [PerRegion.get_set_same]
  exact tget_tset_of_ne h

section
variable {s : State} {dt : Dt} {g : Region} {n : Nat} (hrun : s.runs g = true) (hn : n < 20)
include hrun hn

theorem tick_chanRuns : (s.tick dt).chanRuns g n = true := by
  rw [State.chanRuns, State.tick_runs, hrun, decide_eq_true hn]
  rfl

theorem exec_dmaStart : exec (.dmaStart dt g n) s = .next (if (s.chan g n).st = .idle then (s.tick dt).fetchDesc g n else s.tick dt) :=
  congrArg Host.Outcome.next (if_pos (tick_chanRuns hrun hn))

theorem exec_dmaAbort : exec (.dmaAbort dt g n) s = .next ((s.tick dt).dmaAbort g n) := congrArg Host.Outcome.next (if_pos (tick_chanRuns hrun hn))

theorem exec_dmaRequest (h16 : n < 16) : exec (.dmaRequest dt g n) s =
    .next ((s.tick dt).onChan g n (fun c => { c with request := true, st := if c.st = .wait then .active else c.st })) :=
  congrArg Host.Outcome.next (if_pos (by rw [tick_chanRuns hrun hn, decide_eq_true h16]; rfl))

theorem exec_dmaPeriphReset_wait (h16 : n < 16) (hw : (s.chan g n).st = .wait) (beats : Nat) : exec (.dmaPeriphReset dt g n beats) s =
    .next ((s.tick dt).onChan g n (fun c => { c with st := .stopping, code := 3, request := false })) := by
  have hgo : (!((s.tick dt).chanRuns g n && decide (n < 16))) = false := by rw [tick_chanRuns hrun hn, decide_eq_true h16]; rfl
  have hst : ((s.tick dt).chan g n).st = .wait := hw
  simp only [exec, execDmaPeriphReset, hgo, hst]
  rfl

theorem exec_dmaBurstDone (data : List Nat) (req : Bool) (hact : (s.chan g n).st = .active) (hturn : (s.tick dt).ctxTurn g n = true) :
    let y := if n < 16 then (s.tick dt).cellBurst g n data [] else (s.tick dt).ctxMove g n []
    let u := y.2.onChan g n (fun c => { c with request := req && decide (n < 16) })
    exec (.dmaBurstDone dt g n data [] req) s = .next (if y.1 then u.chanGo g n else u.onChan g n (fun c => c.stop 2)) := by
  have hst : ((s.tick dt).chan g n).st = .active := hact
  refine congrArg Host.Outcome.next (if_neg ?_)
  rw [tick_chanRuns hrun hn, hst, hturn]
  simp

theorem exec_dmaDescEnd (hstop : (s.chan g n).st = .stopping) : exec (.dmaDescEnd dt g n) s = .next ((s.tick dt).descEnd g n) := by
  have hst : ((s.tick dt).chan g n).st = .stopping := hstop
  refine congrArg Host.Outcome.next (if_pos ?_)
  rw [tick_chanRuns hrun hn, hst]
  rfl
end

/-! ## The scrubs -/

theorem visit_clean {s : State} {a : Nat} (h : s.isPoisoned a = false) : s.visit a [] = (true, s) := by
  unfold State.visit
  rw [h]
  rfl

theorem onMac_mac {s : State} {k : Nat} {f : Macro → Macro} (h : twf {} s.jnc.macros = true) : (s.onMac k f).mac k = f (s.mac k) :=
  tget_tset_same k _ h

theorem onMac_twf {s : State} {k : Nat} {f : Macro → Macro} (h : twf {} s.jnc.macros = true) : twf {} (s.onMac k f).jnc.macros = true :=
  twf_tset k _ h

theorem rank_pos {p : Phase} (h : p ≠ .reset) (h' : p ≠ .bootStuck) : p.rank ≠ 0 := by
  cases p <;> simp_all [Phase.rank]

/-- A scrub visit to a sound word that is not the last of its memory. -/
theorem exec_scrubVisit {s : State} {dt : Dt} {k : Nat} (hk : k < 130) (hph : s.pow.phase.rank ≠ 0) (hp : (s.mac k).ptr + 1 < 8192)
    (hclean : (s.tick dt).isPoisoned (macroBase k + 16 * (s.mac k).ptr) = false) (hat : (s.mac k).visitAt + scrubC ≤ (s.tick dt).now) :
    exec (.scrubVisit dt k []) s =
      .next (((s.tick dt).onMac k (fun x => { x with visitAt := x.visitAt + scrubC })).onMac k (fun x => { x with ptr := (s.mac k).ptr + 1 })) := by
  have hmac : (s.tick dt).mac k = s.mac k := rfl
  simp only [exec, execScrubVisit, hmac, visit_clean hclean]
  rw [if_neg (by rw [State.tick_pow]; omega)]
  exact congrArg Host.Outcome.next (if_pos hp)

theorem poison_now (t : State) (a : Nat) : (t.poison a).now = t.now := by
  unfold State.poison
  dsimp only
  split
  · rfl
  · split
    · exact (raiseHw_said ..).now
    · exact (stuckIf_said ..).now.trans (raiseHw_said ..).now

theorem dedup_singleton (n : Nat) : [n].dedup = [n] := List.dedup_eq_self.mpr (List.nodup_singleton n)

section
variable {s : State} {dt : Dt} (hrun : s.runs .m = true) (hat : s.nvmc.passAt + 86400 * secC ≤ (s.tick dt).now)
include hrun hat

theorem exec_mramScrubPass (l bad : List Nat) : exec (.mramScrubPass dt l bad) s = .next (
    let t := bad.foldl (fun t w => t.poison (0x10000000 + 16 * w)) (s.tick dt)
    (((l.filter (fun w => s.nvmc.corr.contains w) ++ bad).filter (fun w => decide (w < mramWords))).map (fun w => w / sectorWords)).dedup.foldl
      State.moveSector { t with nvmc := { corr := l, passAt := t.now } }) := by
  refine congrArg Host.Outcome.next (if_neg ?_)
  rw [State.tick_runs, hrun, State.tick_nvmc, decide_eq_false (Nat.not_lt.mpr hat)]
  simp
end

/-- Settles O49, each register and channel command by the lemma of its guard. -/
theorem registersAndDmaAct : Obligations.RegistersAndDmaAct := by
  refine ⟨fun s dt m => ?_, fun s dt => ?_⟩
  · intro t
    refine ⟨fun a v ha hreg hans => ?_, fun f hf hrun hwf => ?_, fun f hf hrun => ?_, rfl, fun g b w => ?_⟩
    · exact congrArg (fun p => Host.Outcome.next p.2) (writeAcc_reg ha hreg hans)
    · have hset : (s.tick dt).rcSet (0x40110060 + 4 * f) (fun i => b2n (Nat.testBit 0 i)) =
          some ((s.tick dt).onFeeder f (fun x => { x with aged := 0, satFrames := 0 })) := by
        simp only [State.rcSet, show (0x40110060 + 4 * f) / 65536 % 256 = 0x11 by omega, show (0x40110060 + 4 * f) % 65536 = 0x60 + 4 * f by omega]
        rw [if_pos (by omega), show (0x60 + 4 * f - 0x60) / 4 = f by omega]
        rfl
      have hfdr : ((s.tick dt).onFeeder f (fun x => { x with aged := 0, satFrames := 0 })).feeder f = _ := onFeeder_feeder_same hwf
      refine ⟨_, exec_rcCounterRead (by omega) (isReg_at (b := 0x11) (by decide) (by omega)) (answers_in_c (by omega) ?_ ?_ hrun) hset, rfl, ?_, ?_, rfl, rfl⟩
      · rw [show (0x40110060 + 4 * f) / 65536 % 256 = 0x11 by omega]; rfl
      · omega
      · exact congrArg Feeder.satFrames hfdr
      · exact congrArg Feeder.aged hfdr
    · have hset : (s.tick dt).rcSet (0x40150004 + 16 * f) (fun i => b2n (Nat.testBit 1 i)) =
          some ((s.tick dt).onRx f (fun x => { x with decodeFail := 1, decoded := 0 })) := by
        simp only [State.rcSet, show (0x40150004 + 16 * f) / 65536 % 256 = 0x15 by omega, show (0x40150004 + 16 * f) % 65536 = 16 * f + 4 by omega]
        rw [if_pos (by omega), show (16 * f + 4) / 16 = f by omega]
        rfl
      have hrx : ((s.tick dt).onRx f (fun x => { x with decodeFail := 1, decoded := 0 })).rxp f = _ := tget_tset_of_ne (by simp)
      refine ⟨_, exec_rcCounterRead (by omega) (isReg_at (b := 0x15) (by decide) (by omega)) (answers_in_c (by omega) ?_ ?_ hrun) hset, rfl, ?_, ?_⟩
      · rw [show (0x40150004 + 16 * f) / 65536 % 256 = 0x15 by omega]; rfl
      · omega
      · exact congrArg RxPath.decodeFail hrx
      · exact congrArg RxPath.decoded hrx
    · intro p u
      have h := ringDb_clearDb (s.tick dt) g b w
      exact ⟨fun hp => congrArg Host.Outcome.next (h.trans (if_neg hp)), fun hp => congrArg Host.Outcome.next (h.trans (if_pos hp))⟩
  · intro t
    refine ⟨fun g n hrun hn => ⟨fun hst => ?_, fun hst => ?_, fun hst => ?_, fun hst => ?_, fun h16 hst => ?_,
      fun h16 hst => exec_dmaPeriphReset_wait hrun hn h16 hst 0, fun data req hst hturn => ?_, exec_dmaDescEnd hrun hn⟩,
      fun k hk hr hb hp hclean hwf hat => ?_, fun hrun hat => ⟨fun l hl => ?_, fun w hw => ?_, fun w hw hc => ?_⟩⟩
    · rw [exec_dmaStart hrun hn, if_pos hst]
    · rw [exec_dmaStart hrun hn, if_neg hst]
    · have hst' : ((s.tick dt).chan g n).st = .wait := hst
      rw [exec_dmaAbort hrun hn, State.dmaAbort, hst']
      rfl
    · have hst' : ((s.tick dt).chan g n).st = .active := hst
      rw [exec_dmaAbort hrun hn, State.dmaAbort, hst']
    · have hst' : ((s.tick dt).chan g n).st = .wait := hst
      have hc : ((s.tick dt).onChan g n (fun c => { c with request := true, st := if c.st = .wait then .active else c.st })).chan g n = _ :=
        onChan_chan (by simp)
      exact ⟨_, exec_dmaRequest hrun hn h16, by rw [hc]; exact if_pos hst', by rw [hc], rfl, rfl⟩
    · have h := exec_dmaBurstDone hrun hn data req hst hturn
      exact ⟨fun hy => h.trans (congrArg Host.Outcome.next (if_pos hy)),
        fun hy => h.trans (congrArg Host.Outcome.next (if_neg (by rw [hy]; simp)))⟩
    · refine ⟨_, exec_scrubVisit hk (rank_pos hr hb) hp hclean hat, ?_, rfl⟩
      have hwf' : twf {} (s.tick dt).jnc.macros = true := hwf
      rw [onMac_mac (onMac_twf hwf'), onMac_mac hwf']
      rfl
    · have hnone : l.filter (fun w => s.nvmc.corr.contains w) = [] := List.filter_eq_nil_iff.mpr fun w hw => by simpa using hl w hw
      rw [exec_mramScrubPass hrun hat, hnone]
      rfl
    · have hone : [w].filter (fun w => decide (w < mramWords)) = [w] := List.filter_eq_self.mpr fun v hv => by
        rw [List.mem_singleton.mp hv]
        exact decide_eq_true hw
      rw [exec_mramScrubPass hrun hat, List.filter_nil, List.nil_append, hone, List.map_singleton, dedup_singleton]
      refine congrArg Host.Outcome.next ?_
      change State.moveSector { (s.tick dt).poison _ with nvmc := ⟨[], ((s.tick dt).poison _).now⟩ } _ = _
      rw [poison_now]
      rfl
    · have hagain : [w].filter (fun w => s.nvmc.corr.contains w) = [w] := List.filter_eq_self.mpr fun v hv => by
        rw [List.mem_singleton.mp hv]
        simpa using hc
      have hone : [w].filter (fun w => decide (w < mramWords)) = [w] := List.filter_eq_self.mpr fun v hv => by
        rw [List.mem_singleton.mp hv]
        exact decide_eq_true hw
      rw [exec_mramScrubPass hrun hat, List.append_nil, hagain, hone, List.map_singleton, dedup_singleton]
      rfl

end Sys2Proof.Machine
end

