-- ==== Sys2Proof/Proofs/Stages.lean ====
section
/-!
PROOFS. The bank of line-driver stages (03 R107-R113; 04 R154): what an echo failure counts and marks, the substitution of a stage, and the
checks of suspects and of the idle spare.
-/
namespace Sys2Proof.Machine
open Sys2Proof

theorem onFeeder_feeder {s : State} {f : Nat} {g : Feeder → Feeder} (h : g (s.feeder f) ≠ {}) : (s.onFeeder f g).feeder f = g (s.feeder f) :=
  tget_tset_of_ne h

theorem onFeeder_feeder_other {s : State} {f j : Nat} {g : Feeder → Feeder} (h : g (s.feeder f) ≠ {}) (hj : j ≠ f) :
    (s.onFeeder f g).feeder j = s.feeder j := by
  unfold State.onFeeder State.feeder tmod tset
  rw [if_neg (show g (tget {} s.fdr f) ≠ {} from h)]
  exact tget_tput_ne _ _ _ hj

/-! ## The count and the mark of an echo failure (R108) -/

/-- What an echo failure on feeder `f`, which the stage `m` drives, counts and marks. -/
def State.echoMarked (t : State) (f m : Nat) : State :=
  let b := bump 255 (t.rxp f).echoFail
  (((t.onRx f (fun r => { r with echoFail := b.1 })).stuckIf b.2 (wWrx + 0x10 * f) 24).wearInc 1 m).onFeeder f
    (fun x => { x with damaged := true, extPass := 0 })

theorem wearInc_said (s : State) (kind unit : Nat) :
    Said (s.onNv (fun v => { v with wear := tmod 0 v.wear (kind * 64 + unit) up32 })) (s.wearInc kind unit) := stuckFw_said ..

theorem up32_ne_zero (n : Nat) : up32 n ≠ 0 := by
  unfold up32 stick
  split <;> omega

theorem wearInc_wearOf (s : State) (kind unit : Nat) : (s.wearInc kind unit).wearOf kind unit = up32 (s.wearOf kind unit) := by
  unfold State.wearOf
  rw [(wearInc_said s kind unit).nv]
  exact tget_tset_of_ne (up32_ne_zero _)

/-- What the mark leaves: the stage bank, the time, and of the feeder all but the mark itself. -/
structure EchoMarked (t u : State) (f m : Nat) : Prop where
  wtx : u.wtx = t.wtx
  tb : u.tb = t.tb
  now : u.now = t.now
  feeder : u.feeder f = { t.feeder f with damaged := true, extPass := 0 }
  others : ∀ j, j ≠ f → u.feeder j = t.feeder j
  rxp : (t.rxp f).learn = 17 → u.rxp f = { t.rxp f with echoFail := (bump 255 (t.rxp f).echoFail).1 }
  wear : u.wearOf 1 m = up32 (t.wearOf 1 m)

theorem echoMarked_spec (t : State) (f m : Nat) : EchoMarked t (t.echoMarked f m) f m := by
  have hne (x : Feeder) : { x with damaged := true, extPass := 0 } ≠ ({} : Feeder) := by simp
  have hw := wearInc_said ((t.onRx f (fun r => { r with echoFail := (bump 255 (t.rxp f).echoFail).1 })).stuckIf (bump 255 (t.rxp f).echoFail).2
    (wWrx + 0x10 * f) 24) 1 m
  have hs := stuckIf_said (t.onRx f (fun r => { r with echoFail := (bump 255 (t.rxp f).echoFail).1 })) (bump 255 (t.rxp f).echoFail).2 (wWrx + 0x10 * f) 24
  have hfdr := hw.fdr.trans hs.fdr
  have hx : ∀ j, (((t.onRx f (fun r => { r with echoFail := (bump 255 (t.rxp f).echoFail).1 })).stuckIf (bump 255 (t.rxp f).echoFail).2
    (wWrx + 0x10 * f) 24).wearInc 1 m).feeder j = t.feeder j := fun j => congrArg (fun l => tget ({} : Feeder) l j) hfdr
  refine ⟨hw.wtx.trans hs.wtx, hw.tb.trans hs.tb, hw.now.trans hs.now, ?_, fun j hj => ?_, fun h17 => ?_, ?_⟩
  · unfold State.echoMarked
    rw [onFeeder_feeder (hne _), hx]
  · unfold State.echoMarked
    rw [onFeeder_feeder_other (hne _) hj, hx]
  · exact (congrArg (fun l => tget ({} : RxPath) l f) (hw.rx.trans hs.rx)).trans (tget_tset_of_ne (fun h => by
      have := congrArg RxPath.learn h
      exact absurd (h17.symm.trans this) (by decide)))
  · refine (wearInc_wearOf _ 1 m).trans ?_
    unfold State.wearOf
    rw [hs.nv]
    rfl

/-- An echo failure in the burst of a feeder whose stage is not about to be judged (R108, R109). -/
theorem exec_echoFailure {s : State} {dt : Dt} {f m : Nat} (hf : f < 8) (hlive : (s.feeder f).live = true) (hburst : (s.tick dt).inBurst f = true)
    (hlearn : (s.rxp f).learn = 17) (hrx : (s.rxp f).rxFail = false) (hmuted : bit s.wtx.muted f = false) (hext : bit s.wtx.extFault f = false)
    (hsince : 9 ≤ (s.feeder f).sinceSub) (hblock : (s.feeder f).block = none) (hof : s.wtx.of f = some m) :
    exec (.echoFailure dt f) s = .next (((s.tick dt).echoMarked f m).substitute f false) := by
  have hm := echoMarked_spec (s.tick dt) f m
  have hspoil : ((s.tick dt).echoMarked f m).spoil f = (s.tick dt).echoMarked f m := by
    unfold State.spoil
    rw [hm.feeder, show ((s.tick dt).feeder f).block = none from hblock]
  have hgo : (!(decide (f < 8) && ((s.tick dt).feeder f).live && (s.tick dt).inBurst f && ((s.tick dt).rxp f).learn == 17 &&
      !((s.tick dt).rxp f).rxFail && !(bit (s.tick dt).wtx.muted f))) = false := by
    rw [decide_eq_true hf, show ((s.tick dt).feeder f).live = true from hlive, hburst, show ((s.tick dt).rxp f).learn = 17 from hlearn,
      show ((s.tick dt).rxp f).rxFail = false from hrx, State.tick_wtx, hmuted]
    rfl
  have hof' : (((s.tick dt).onRx f (fun r => { r with echoFail := (bump 255 ((s.tick dt).rxp f).echoFail).1 })).stuckIf
      (bump 255 ((s.tick dt).rxp f).echoFail).2 (wWrx + 0x10 * f) 24).wtx.of f = some m := by
    rw [(stuckIf_said ..).wtx]
    exact hof
  refine congrArg Host.Outcome.next ((if_neg (by rw [hgo]; simp)).trans ?_)
  dsimp only
  rw [hof']
  change (if bit (((s.tick dt).echoMarked f m).spoil f).wtx.extFault f = true then _ else _) = _
  rw [hspoil, hm.wtx, State.tick_wtx, hext, show ((s.tick dt).feeder f).sinceSub = (s.feeder f).sinceSub from rfl,
    decide_eq_false (Nat.not_le.mpr hsince)]
  simp only [Bool.false_and, Bool.false_eq_true, if_false]
  exact congrArg (fun u => State.substitute u f false) hspoil

/-! ## The substitution (R109, R110) -/

/-- A stage that may be faulty waits for its check. -/
def State.suspected (t : State) (m f : Nat) : State := t.onWtx (fun w => { w with suspects := w.suspects ++ [(m, f)] })

/-- Feeder `f` driven by the spare `k`, which is announced. -/
def State.spareConnected (t : State) (f k : Nat) : State :=
  let u := ((t.dropSets k).connect f (some k)).onWtx (fun w => { w with spare := none, spareValid := false, lastSub := some (f, t.now) })
  (u.onFeeder f (fun x => { x with sinceSub := 0, subPassed := false, heldFail := false, suspAt := u.tb.hcn }))

def State.spareGiven (t : State) (f k : Nat) : State := (t.spareConnected f k).reserveNote 1 k 1

theorem substitute_spare {t : State} {f m k : Nat} (hof : t.wtx.of f = some m) (hspare : t.wtx.spare = some k) (hvalid : t.wtx.spareValid = true) :
    t.substitute f false = (t.suspected m f).spareGiven f k := by
  have hs : (t.suspected m f).wtx.spare = some k := hspare
  have hv : (t.suspected m f).wtx.spareValid = true := hvalid
  unfold State.substitute
  dsimp only
  rw [if_neg (by simp), hof]
  dsimp only
  rw [show t.onWtx (fun w => { w with suspects := w.suspects ++ [(m, f)] }) = t.suspected m f from rfl, hs, hv]
  rfl

theorem substitute_mute {t : State} {f m : Nat} (hof : t.wtx.of f = some m) (hvalid : t.wtx.spareValid = false) (hsame : t.sameWindow f = none) :
    t.substitute f false = (t.suspected m f).muteFeeder f := by
  have hv : (t.suspected m f).wtx.spareValid = false := hvalid
  have hw : (t.suspected m f).sameWindow f = none := hsame
  unfold State.substitute
  dsimp only
  rw [if_neg (by simp), hof]
  dsimp only
  rw [show t.onWtx (fun w => { w with suspects := w.suspects ++ [(m, f)] }) = t.suspected m f from rfl, hv, hw]
  cases (t.suspected m f).wtx.spare <;> rfl

theorem suspected_rxp (t : State) (m f j : Nat) : (t.suspected m f).rxp j = t.rxp j := rfl

theorem suspected_wearOf (t : State) (m f kind unit : Nat) : (t.suspected m f).wearOf kind unit = t.wearOf kind unit := rfl

theorem muteFeeder_rxp (t : State) (f j : Nat) : (t.muteFeeder f).rxp j = t.rxp j := rfl

theorem muteFeeder_wearOf (t : State) (f kind unit : Nat) : (t.muteFeeder f).wearOf kind unit = t.wearOf kind unit := rfl

theorem muteFeeder_damaged {t : State} {f : Nat} (h : (t.feeder f).damaged = true) : ((t.muteFeeder f).feeder f).damaged = true := by
  have hx : ((t.connect f none).onWtx (fun w => { w with muted := setBit w.muted f true })).feeder f = t.feeder f := rfl
  unfold State.muteFeeder
  dsimp only
  rw [onFeeder_feeder]
  · exact h
  · exact fun he => absurd ((congrArg Feeder.damaged he).symm.trans h) (by decide)

theorem tget_tset_sorted {α : Type} [DecidableEq α] {d : α} {t : Tbl α} (i : Nat) (x : α) (h : tsorted 0 t = true) : tget d (tset d t i x) i = x := by
  unfold tset
  split
  · subst_vars; exact tget_tdel_same i h
  · exact tget_tput_same ..

/-- What the spare's connection leaves and sets. -/
theorem spareGiven_spec {t : State} {f k : Nat} (hs : tsorted 0 t.wtx.assign = true) (h : (t.feeder f).damaged = true) :
    (t.spareGiven f k).wtx.of f = some k ∧ (t.spareGiven f k).wtx.spare = none ∧ (t.spareGiven f k).wtx.suspects = t.wtx.suspects ∧
      (t.spareGiven f k).rxp f = t.rxp f ∧ (t.spareGiven f k).nv = t.nv ∧ ((t.spareGiven f k).feeder f).damaged = true := by
  have hn : Said (t.spareConnected f k) (t.spareGiven f k) := notifyClass_said ..
  refine ⟨?_, ?_, ?_, ?_, ?_, ?_⟩
  · rw [hn.wtx]
    exact tget_tset_sorted f _ hs
  · rw [hn.wtx]
    rfl
  · rw [hn.wtx]
    rfl
  · exact congrArg (fun l => tget ({} : RxPath) l f) hn.rx
  · exact hn.nv
  · refine (congrArg (fun l => (tget ({} : Feeder) l f).damaged) hn.fdr).trans ?_
    have hx : (((t.dropSets k).connect f (some k)).onWtx (fun w => { w with spare := none, spareValid := false, lastSub := some (f, t.now) })).feeder f =
        t.feeder f := rfl
    unfold State.spareConnected
    refine (congrArg Feeder.damaged (onFeeder_feeder ?_)).trans h
    exact fun he => absurd ((congrArg Feeder.damaged he).symm.trans h) (by decide)

theorem sameWindow_echoMarked {t : State} {f m : Nat} (h : t.sameWindow f = none) : (t.echoMarked f m).sameWindow f = none := by
  have hm := echoMarked_spec t f m
  have hw (j at_ : Nat) : (t.echoMarked f m).echoWindow j at_ = t.echoWindow j at_ := by
    unfold State.echoWindow
    by_cases hj : j = f
    · subst hj
      rw [hm.feeder]
    · rw [hm.others j hj]
  unfold State.sameWindow at h ⊢
  rw [hm.wtx, hm.now]
  simp only [hw]
  exact h

/-- Settles O57, with what an echo failure marks and what a substitution leaves as lemmas of their own. -/
theorem stagesAreSubstitutedAndChecked : Obligations.StagesAreSubstitutedAndChecked := by
  intro s dt t
  refine ⟨fun f h => ?_, fun f m hf hlive hburst hlearn hrx hmuted hext hsince hblock hof hvalid hsame => ?_,
    fun f m k hf hlive hburst hlearn hrx hmuted hext hsince hblock hof hspare hvalid hsorted => ?_,
    fun m f p a b hfind hturn => ?_, fun m f a b hfind hheld hturn => ?_, fun m f a b hfind hheld hturn => ?_, fun m hspare => ?_, fun hspare => ?_,
    fun f hf hext hpass => ?_, fun f hf hph hrun h50 => ?_⟩
  · have hgo : (!(decide (f < 8) && ((s.tick dt).feeder f).live && (s.tick dt).inBurst f && ((s.tick dt).rxp f).learn == 17 &&
        !((s.tick dt).rxp f).rxFail && !(bit (s.tick dt).wtx.muted f))) = true := by
      have h' : ((s.tick dt).feeder f).live = false ∨ (s.tick dt).inBurst f = false ∨ ((s.tick dt).rxp f).learn ≠ 17 ∨
        ((s.tick dt).rxp f).rxFail = true ∨ bit (s.tick dt).wtx.muted f = true := h
      rcases h' with h | h | h | h | h
      · rw [h]; simp
      · rw [h]; simp
      · rw [beq_false_of_ne h]; simp
      · rw [h]; simp
      · rw [h]; simp
    exact congrArg Host.Outcome.next (if_pos hgo)
  · have hm := echoMarked_spec t f m
    have hof' : (t.echoMarked f m).wtx.of f = some m := by rw [hm.wtx]; exact hof
    refine ⟨_, (exec_echoFailure (s := s) (dt := dt) hf hlive hburst hlearn hrx hmuted hext hsince hblock hof).trans (congrArg Host.Outcome.next
      (substitute_mute hof' (by rw [hm.wtx]; exact hvalid) (sameWindow_echoMarked hsame))), ?_, ?_, ?_, ?_, ?_, ?_⟩
    · exact tget_tset_of_ne (d := some f) (x := none) (by simp)
    · exact bit_setBit_same _ hf
    · exact congrArg (fun w : StageBank => w.suspects ++ [(m, f)]) hm.wtx
    · rw [muteFeeder_rxp, suspected_rxp, hm.rxp hlearn]
    · rw [muteFeeder_wearOf, suspected_wearOf, hm.wear]
      rfl
    · exact muteFeeder_damaged (t := (t.echoMarked f m).suspected m f) (congrArg Feeder.damaged hm.feeder)
  · have hm := echoMarked_spec t f m
    have hof' : (t.echoMarked f m).wtx.of f = some m := by rw [hm.wtx]; exact hof
    obtain ⟨hofk, hspare', hsus, hrxp, hnv, hdam⟩ := spareGiven_spec (t := (t.echoMarked f m).suspected m f) (f := f) (k := k)
      (show tsorted 0 (t.echoMarked f m).wtx.assign = true by rw [hm.wtx]; exact hsorted) (congrArg Feeder.damaged hm.feeder)
    refine ⟨_, (exec_echoFailure (s := s) (dt := dt) hf hlive hburst hlearn hrx hmuted hext hsince hblock hof).trans (congrArg Host.Outcome.next
      (substitute_spare hof' (by rw [hm.wtx]; exact hspare) (by rw [hm.wtx]; exact hvalid))), hofk, hspare', ?_, ?_, ?_, hdam⟩
    · exact hsus.trans (congrArg (fun w : StageBank => w.suspects ++ [(m, f)]) hm.wtx)
    · rw [hrxp]
      exact congrArg RxPath.echoFail (hm.rxp hlearn)
    · unfold State.wearOf
      rw [hnv]
      exact hm.wear
  · have h1 : (s.tick dt).wtx.suspects.find? (fun e => e.1 == m) = some (m, f) := hfind
    simp only [exec, execStageLoadCheck, h1, show (s.tick dt).loadTurn m = false from hturn]
    rfl
  · have h1 : (s.tick dt).wtx.suspects.find? (fun e => e.1 == m) = some (m, f) := hfind
    refine ⟨?_, ?_⟩ <;> simp only [exec, execStageLoadCheck, h1, show (s.tick dt).loadTurn m = true from hturn,
      show ((s.tick dt).feeder f).heldFail = false from hheld] <;> rfl
  · have h1 : (s.tick dt).wtx.suspects.find? (fun e => e.1 == m) = some (m, f) := hfind
    refine ⟨?_, ?_⟩ <;> simp only [exec, execStageLoadCheck, h1, show (s.tick dt).loadTurn m = true from hturn,
      show ((s.tick dt).feeder f).heldFail = true from hheld] <;> rfl
  · simp only [exec, execSpareStageCheck, State.tick_wtx, hspare]
    rfl
  · simp only [exec, execSpareStageCheck, State.tick_wtx, hspare]
    rfl
  · refine congrArg Host.Outcome.next (if_pos ?_)
    rw [decide_eq_true hf, State.tick_wtx, hext, decide_eq_true (show 256 ≤ ((s.tick dt).feeder f).extPass + b2n ((s.tick dt).echoPassed f && (s.tick dt).burstOver f) from hpass)]
    rfl
  · refine congrArg Host.Outcome.next (if_pos ?_)
    rw [decide_eq_true hf, State.tick_runs, hrun, decide_eq_true (show 50 ≤ ((s.tick dt).feeder f).inactive from h50), State.started, State.tick_pow, hph]
    rfl

end Sys2Proof.Machine
end

