-- ==== Sys2Proof/Proofs/Ethernet.lean ====
section
/-!
PROOFS. Ethernet frames and the redundancy protocol (12 R383-R389, R407).
-/
namespace Sys2Proof.Machine
open Sys2Proof

/-! ## What only the recorder sees -/

/-- `u` differs from `s` at most in the recorder's intake. -/
def Logged (s u : State) : Prop := { u with ev := s.ev } = s

namespace Logged

theorem refl (s : State) : Logged s s := rfl

theorem trans {s t u : State} (h : Logged s t) (k : Logged t u) : Logged s u := by
  unfold Logged at *
  rw [← h, ← k]

theorem raise (s : State) (k : Queue) (code src : Nat) (pay : List Nat) : Logged s (s.raise k code src pay) := by
  have hone (s : State) (code src : Nat) (k : Queue) (pay : List Nat) : Logged s (s.raiseOne k code src pay) := by
    unfold State.raiseOne Logged
    dsimp only
    split <;> rfl
  unfold State.raise State.totalsTold
  split
  · exact (hone ..).trans (hone ..)
  · exact hone ..

theorem stuckIf (s : State) (b : Bool) (a l : Nat) : Logged s (s.stuckIf b a l) := by
  unfold State.stuckIf
  split
  · exact raise ..
  · exact refl s

theorem stuckFw (s : State) (r : Region) (b : Bool) : Logged s (s.stuckFw r b) := by
  unfold State.stuckFw
  split
  · exact raise ..
  · exact refl s

variable {s u : State} (h : Logged s u)
include h

theorem net : u.net = s.net := by have e := congrArg State.net h; exact e
theorem vxc : u.vxc = s.vxc := by have e := congrArg State.vxc h; exact e
theorem nv : u.nv = s.nv := by have e := congrArg State.nv h; exact e
theorem now : u.now = s.now := by have e := congrArg State.now h; exact e
theorem out : u.out = s.out := by have e := congrArg State.out h; exact e

end Logged

/-! ## Time, ports and counts -/

theorem Net.tick_keeps (n : Net) (k : Nat) : { n.tick k with sec := n.sec, ns := n.ns, frac := n.frac } = n := by
  cases n
  unfold Net.tick
  rfl

/-- Time moves the clock of the network and nothing else of it. -/
theorem tick_net_keeps (s : State) (dt : Dt) : { (s.tick dt).net with sec := s.net.sec, ns := s.net.ns, frac := s.net.frac } = s.net := by
  rw [State.tick_net]
  split
  · exact Net.tick_keeps ..
  · rfl

theorem tick_ports (s : State) (dt : Dt) : (s.tick dt).net.ports = s.net.ports := by have e := congrArg Net.ports (tick_net_keeps s dt); exact e
theorem tick_prpNodes (s : State) (dt : Dt) : (s.tick dt).net.nodes = s.net.nodes := by have e := congrArg Net.nodes (tick_net_keeps s dt); exact e
theorem tick_icmp (s : State) (dt : Dt) : (s.tick dt).net.icmp = s.net.icmp := by have e := congrArg Net.icmp (tick_net_keeps s dt); exact e

theorem onEport_eport {s : State} {p : Nat} {g : EthPort → EthPort} (h : g (s.eport p) ≠ {}) : (s.onEport p g).eport p = g (s.eport p) :=
  tget_tset_of_ne h

theorem onEport_eport_same {s : State} {p : Nat} {g : EthPort → EthPort} (h : twf {} s.net.ports = true) :
    (s.onEport p g).eport p = g (s.eport p) := tget_tset_same p _ h

theorem bump_pos (max v : Nat) (h : 0 < max) : (bump max v).1 ≠ 0 := by
  unfold bump stick
  dsimp only
  split <;> omega

/-- A count of a port, and what stays of the state. -/
theorem portCount_logged (s : State) (p max addr lsb : Nat) (rd : EthPort → Nat) (wr : EthPort → Nat → EthPort) :
    Logged (s.onEport p (fun e => wr e (bump max (rd (s.eport p))).1)) (s.portCount p max addr lsb rd wr) := Logged.stuckIf ..

/-! ## A frame's taking (R389) -/

/-- A frame whose LAN is not its port's is counted. -/
def State.lanCounted (s : State) (a : Arrival) (lan : Nat) : State :=
  if lan ≠ 0xA + a.port then
    s.portCount a.port 0xFFFF (wPrp + 4 + 16 * a.port) 16 EthPort.wrongLan (fun e v => { e with wrongLan := v }) else s

theorem prpTake_eq (s : State) (a : Arrival) : s.prpTake a = match a.trailer with
    | none => (true, s.prpTouch a.port a.src)
    | some e =>
      let v := (s.prpTouch a.port a.src).lanCounted a e.1
      if v.prpDup a.src e.2 then (false, v.portCount a.port 0xFFFFFFFF (wPrp + 16 * a.port) 0 EthPort.dup (fun e n => { e with dup := n }))
      else (true, v.prpNote a.src e.2) := by
  unfold State.prpTake
  cases a.trailer <;> rfl

/-- `u` differs from `s` at most in the redundancy protocol's nodes, the ports' counts and the recorder. -/
def PrpKept (s u : State) : Prop :=
  { u with ev := s.ev, net := { u.net with nodes := s.net.nodes, ports := s.net.ports, evictions := s.net.evictions } } = s

namespace PrpKept

theorem trans {s t u : State} (h : PrpKept s t) (k : PrpKept t u) : PrpKept s u := by
  unfold PrpKept at *
  rw [← h, ← k]

theorem logged {s t u : State} (h : PrpKept s t) (k : Logged t u) : PrpKept s u := by
  unfold PrpKept Logged at *
  rw [← h, ← k]

theorem portCount (s : State) (p max addr lsb : Nat) (rd : EthPort → Nat) (wr : EthPort → Nat → EthPort) :
    PrpKept s (s.portCount p max addr lsb rd wr) := logged (t := s.onEport p (fun e => wr e (bump max (rd (s.eport p))).1)) rfl (portCount_logged ..)

theorem prpTouch (s : State) (p src : Nat) : PrpKept s (s.prpTouch p src) := by
  unfold State.prpTouch
  dsimp only
  split
  · rfl
  · split
    · rfl
    · have h : PrpKept s (State.portCount (s.onNet (fun t => { t with
          nodes := ⟨src, s.now, []⟩ :: (s.net.nodes.filter (fun n => decide (s.now < n.used + 60 * secC))).take 127,
          evictions := (s.net.evictions + 1) % 256 })) p 0xFFFF (wPrp + 4 + 16 * p) 0 EthPort.evict (fun e v => { e with evict := v })) :=
        trans (t := s.onNet (fun t => { t with
          nodes := ⟨src, s.now, []⟩ :: (s.net.nodes.filter (fun n => decide (s.now < n.used + 60 * secC))).take 127,
          evictions := (s.net.evictions + 1) % 256 })) rfl (portCount ..)
      split
      · exact h.logged (Logged.raise ..)
      · exact h

theorem lanCounted (s : State) (a : Arrival) (lan : Nat) : PrpKept s (s.lanCounted a lan) := by
  unfold Machine.State.lanCounted
  split
  · exact portCount ..
  · rfl

theorem prpTake (s : State) (a : Arrival) : PrpKept s (s.prpTake a).2 := by
  have ht := prpTouch s a.port a.src
  rw [prpTake_eq]
  cases a.trailer with
  | none => exact ht
  | some e =>
    have hl := ht.trans (lanCounted (s.prpTouch a.port a.src) a e.1)
    dsimp only
    split
    · exact hl.trans (portCount ..)
    · exact hl.trans rfl

variable {s u : State} (h : PrpKept s u)
include h

theorem vxc : u.vxc = s.vxc := by have e := congrArg State.vxc h; exact e
theorem nv : u.nv = s.nv := by have e := congrArg State.nv h; exact e
theorem now : u.now = s.now := by have e := congrArg State.now h; exact e
theorem icmp : u.net.icmp = s.net.icmp := by have e := congrArg (fun s => s.net.icmp) h; exact e
theorem out : u.out = s.out := by have e := congrArg State.out h; exact e

end PrpKept

/-! ## The loss of sources (R402-R405) -/

/-- The clock and the sources' offsets moved by `a` (R399). -/
def Net.stepped (n : Net) (a : Int) : Net :=
  { n.adjust a with
    stepCnt := (bump 255 n.stepCnt).1, steps := up32 n.steps, epoch := n.epoch + 1
    srcs := n.srcs.map (fun (e : Nat × PtpSrc) => (e.1, { e.2 with offset := e.2.offset + a })) }

def State.clockAdjusted (s : State) (a : Int) : State := { s with net := s.net.stepped a, tb := { s.tb with ptpStep := true } }

theorem ptpStep_logged (s : State) (a : Int) : Logged (s.clockAdjusted a) (s.ptpStep a) :=
  ((Logged.raise (s.clockAdjusted a) ..).trans (Logged.stuckIf ..)).trans (Logged.stuckFw ..)

/-- `u` has of `s` the ports, the redundancy protocol's sequence number and the non-volatile state. -/
structure PortsKept (s u : State) : Prop where
  ports : u.net.ports = s.net.ports
  prpSeq : u.net.prpSeq = s.net.prpSeq
  nv : u.nv = s.nv

namespace PortsKept

theorem refl (s : State) : PortsKept s s := ⟨rfl, rfl, rfl⟩

theorem trans {s t u : State} (h : PortsKept s t) (k : PortsKept t u) : PortsKept s u :=
  ⟨k.ports.trans h.ports, k.prpSeq.trans h.prpSeq, k.nv.trans h.nv⟩

theorem logged {s t u : State} (h : PortsKept s t) (k : Logged t u) : PortsKept s u :=
  h.trans ⟨congrArg Net.ports k.net, congrArg Net.prpSeq k.net, k.nv⟩

theorem onSource (s : State) (n : Nat) (g : PtpSrc → PtpSrc) : PortsKept s (s.onSource n g) := ⟨rfl, rfl, rfl⟩

theorem ptpStep (s : State) (a : Int) : PortsKept s (s.ptpStep a) :=
  have h : PortsKept s (s.clockAdjusted a) := ⟨rfl, rfl, rfl⟩
  h.logged (ptpStep_logged s a)

theorem useSource (s : State) (n : Nat) : PortsKept s (s.useSource n) := ⟨rfl, rfl, rfl⟩

theorem takeSource (s : State) (n : Nat) : PortsKept s (s.takeSource n).1 := by
  unfold State.takeSource
  dsimp only
  split
  · exact (ptpStep ..).trans (useSource ..)
  · split
    · split
      · exact (ptpStep ..).trans (useSource ..)
      · exact useSource ..
    · split
      · exact useSource ..
      · exact (onSource ..).logged (Logged.raise ..)

theorem takeFirst (s : State) (l : List Nat) : PortsKept s (s.takeFirst l).1 := by
  induction l generalizing s with
  | nil => exact refl s
  | cons n r ih =>
    have hn := takeSource s n
    unfold State.takeFirst
    cases ht : s.takeSource n with
    | mk t b =>
      rw [ht] at hn
      cases b
      · exact hn.trans (ih t)
      · exact hn

theorem reselect (s : State) : PortsKept s s.reselect := by
  unfold State.reselect
  dsimp only
  have h := takeFirst s (s.sourceOrder.filter (fun n => (s.ptpSource n).qual && (decide (n < 2) || s.nv.ptp.fallback == 1)))
  split
  next t ht =>
    rw [ht] at h
    exact h
  next t ht =>
    rw [ht] at h
    exact h.trans ⟨rfl, rfl, rfl⟩

theorem loseSources (s : State) (l : List Nat) : PortsKept s (s.loseSources l) := by
  have hfold (l : List Nat) (t : State) (h : PortsKept s t) :
      PortsKept s (l.foldl (fun s n => (s.onSource n (fun _ => {})).raiseGen .m 0x02 0 []) t) := by
    induction l generalizing t with
    | nil => exact h
    | cons n r ih => exact ih _ (h.trans ((onSource ..).logged (Logged.raise ..)))
  unfold State.loseSources
  dsimp only
  split
  · exact (hfold _ _ (refl s)).trans (reselect _)
  · exact hfold _ _ (refl s)

end PortsKept

/-! ## Arrivals (R386) -/

theorem rxDropped_eq (s : State) (p : Nat) :
    s.rxDropped p = s.portCount p 0xFFFF (wEth p) 16 EthPort.rxDrop (fun e v => { e with rxDrop := v }) := rfl

/-- A frame that arrives while the firmware is busy joins its queue. -/
theorem receive_queued {s : State} {a : Arrival} {fr : RxFrame} (ha : s.accepts a fr.peerDelay = true) (h : s.now < (s.eport a.port).rxFree) :
    let q := if fr.isPtp then (s.eport a.port).ptpQ else (s.eport a.port).restQ
    (q.length < 64 → ∃ u : State, s.receive a fr = u ∧
      (if fr.isPtp then (u.eport a.port).ptpQ else (u.eport a.port).restQ) = q ++ [(s.now, fr)] ∧
      { u with net := { u.net with ports := s.net.ports } } = s) ∧
    (64 ≤ q.length → s.receive a fr = s.rxDropped a.port) := by
  intro q
  rw [receive_busy ha h]
  refine ⟨fun hq => ⟨_, if_pos hq, ?_, rfl⟩, fun hq => if_neg (Nat.not_lt.mpr hq)⟩
  rw [onEport_eport]
  · cases hp : fr.isPtp <;> simp [q, hp]
  · intro he
    cases hp : fr.isPtp
    · have := congrArg EthPort.restQ he
      simp [hp] at this
    · have := congrArg EthPort.ptpQ he
      simp [hp] at this

/-! ## Duplicates (R385, R389) -/

/-- A frame of a source all of whose nodes are in force finds the one it would find among all. -/
theorem find_live {l : List PrpNode} {src now : Nat} (hlive : ∀ n ∈ l, n.src = src → now < n.used + 60 * secC) :
    (l.filter (fun n => decide (now < n.used + 60 * secC))).find? (fun n => n.src == src) = l.find? (fun n => n.src == src) := by
  induction l with
  | nil => rfl
  | cons n r ih =>
    have hr := ih fun m hm => hlive m (List.mem_cons_of_mem _ hm)
    by_cases hn : n.src = src
    · rw [List.filter_cons_of_pos (by simpa using hlive n List.mem_cons_self hn), List.find?_cons_of_pos (by simpa using hn),
        List.find?_cons_of_pos (by simpa using hn)]
    · rw [List.find?_cons_of_neg (by simpa using hn), List.filter_cons]
      split
      · rw [List.find?_cons_of_neg (by simpa using hn), hr]
      · exact hr

theorem prpTouch_known {s : State} {p src : Nat} (hknown : ∃ n ∈ s.net.nodes, n.src = src)
    (hlive : ∀ n ∈ s.net.nodes, n.src = src → s.now < n.used + 60 * secC) :
    ∃ (n : PrpNode) (r : List PrpNode), s.prpTouch p src = s.onNet (fun t => { t with nodes := { n with used := s.now } :: r }) ∧ n.src = src ∧
      s.prpSeqs src = n.seqs := by
  obtain ⟨m, hm, hsrc⟩ := hknown
  obtain ⟨n, hn⟩ := Option.isSome_iff_exists.mp (List.find?_isSome.mpr ⟨m, hm, beq_iff_eq.mpr hsrc⟩ :
    (s.net.nodes.find? (fun n => n.src == src)).isSome = true)
  refine ⟨n, (s.net.nodes.filter (fun n => decide (s.now < n.used + 60 * secC))).filter (fun m => m.src != src), ?_,
    by simpa using List.find?_some hn, ?_⟩
  · unfold State.prpTouch
    dsimp only
    rw [find_live hlive, hn]
  · unfold State.prpSeqs
    rw [hn]
    rfl

theorem prpSeqs_head (s : State) (n : PrpNode) (r : List PrpNode) {src : Nat} (h : n.src = src) :
    (s.onNet (fun t => { t with nodes := { n with used := s.now } :: r })).prpSeqs src = n.seqs := by
  unfold State.prpSeqs
  dsimp only [State.onNet]
  rw [List.find?_cons_of_pos (p := fun n : PrpNode => n.src == src) (by simpa using h)]
  rfl

/-- What the port does with a frame of a source it knows, on its own LAN (R385, R389). -/
theorem prpTake_known {s : State} {a : Arrival} {q : Nat} (hq : a.trailer = some (0xA + a.port, q)) (hknown : ∃ n ∈ s.net.nodes, n.src = a.src)
    (hlive : ∀ n ∈ s.net.nodes, n.src = a.src → s.now < n.used + 60 * secC) :
    (s.prpDup a.src q = true → (s.prpTake a).1 = false ∧ (((s.prpTake a).2).eport a.port).dup = (bump 0xFFFFFFFF (s.eport a.port).dup).1) ∧
    (s.prpDup a.src q = false → (s.prpTake a).1 = true ∧ (q, s.now) ∈ ((s.prpTake a).2).prpSeqs a.src) := by
  obtain ⟨n, r, ht, hn, hseqs⟩ := prpTouch_known (p := a.port) hknown hlive
  have hlan : (s.prpTouch a.port a.src).lanCounted a (0xA + a.port) = s.prpTouch a.port a.src := if_neg (not_not_intro rfl)
  have hdup : (s.prpTouch a.port a.src).prpDup a.src q = s.prpDup a.src q := by
    unfold State.prpDup
    rw [ht, prpSeqs_head s n r hn, hseqs]
    rfl
  rw [prpTake_eq, hq]
  dsimp only
  rw [hlan, hdup]
  refine ⟨fun h => ?_, fun h => ?_⟩
  · rw [if_pos h]
    refine ⟨rfl, ?_⟩
    have hnet := (portCount_logged (s.prpTouch a.port a.src) a.port 0xFFFFFFFF (wPrp + 16 * a.port) 0 EthPort.dup (fun e n => { e with dup := n })).net
    refine (congrArg (fun t => (tget ({} : EthPort) t.ports a.port).dup) hnet).trans ?_
    refine (congrArg EthPort.dup (onEport_eport (s := s.prpTouch a.port a.src) ?_)).trans ?_
    · exact fun he => absurd (congrArg EthPort.dup he) (bump_pos _ _ (by decide))
    · rw [ht]
      rfl
  · rw [if_neg (by rw [h]; simp)]
    refine ⟨rfl, ?_⟩
    rw [ht]
    unfold State.prpNote State.prpSeqs
    dsimp only [State.onNet]
    rw [List.map_cons, if_pos (beq_iff_eq.mpr hn), List.find?_cons_of_pos (p := fun m : PrpNode => m.src == a.src) (by simpa using hn)]
    exact List.mem_cons_self

theorem sendFrame_eq {t : State} {k : Frame} {up : List Nat} (h : [0, 1].filter t.linkUp = up) (hne : up ≠ []) :
    t.sendFrame k = State.prpNext { t with out := t.out ++ up.map (fun p => t.frameOut p k) } := by
  unfold State.sendFrame
  rw [h]
  exact if_neg (by simpa using hne)

/-- A port's loss, counted (R407). -/
theorem portLost_spec {t : State} {p : Nat} (hwf : twf {} t.net.ports = true) :
    let v := (t.onEport p (fun e => { e with link := false, speed := 0 })).raiseHw 1 (0x31 + p) 0xFFF 0x0100 (genPay 0 [])
    let u := (v.portCount p 255 (wEth p) 8 EthPort.linkCnt (fun e n => { e with linkCnt := n })).loseSources [p, 2 + p]
    u.eport p = { t.eport p with link := false, speed := 0, linkCnt := (bump 255 (t.eport p).linkCnt).1 } ∧ u.nv = t.nv ∧ u.net.prpSeq = t.net.prpSeq := by
  intro v u
  have hv : v.net = (t.onEport p (fun e => { e with link := false, speed := 0 })).net := (Logged.raise ..).net
  have hc := portCount_logged v p 255 (wEth p) 8 EthPort.linkCnt (fun e n => { e with linkCnt := n })
  have hu : PortsKept _ u := PortsKept.loseSources ..
  have hwf' : twf {} v.net.ports = true := by
    rw [hv]
    exact twf_tset p _ hwf
  have hvp : v.eport p = { t.eport p with link := false, speed := 0 } := by
    refine (congrArg (fun n => tget ({} : EthPort) n.ports p) hv).trans ?_
    exact onEport_eport_same hwf
  refine ⟨?_, ?_, ?_⟩
  · refine (congrArg (fun l => tget ({} : EthPort) l p) (hu.ports.trans (congrArg Net.ports hc.net))).trans ?_
    refine (onEport_eport_same hwf').trans ?_
    dsimp only
    rw [hvp]
  · exact hu.nv.trans (hc.nv.trans (Logged.raise ..).nv)
  · exact hu.prpSeq.trans ((congrArg Net.prpSeq hc.net).trans (show v.net.prpSeq = t.net.prpSeq by rw [hv]; rfl))

/-- Settles O59, with the taking of a frame and the loss of a port as lemmas of their own. -/
theorem framesAreTakenOnceAndAnswered : Obligations.FramesAreTakenOnceAndAnswered := by
  intro s dt a p t0 t y
  refine ⟨fun fr h => receive_refused h, fun fr h hi => receive_idle h hi, fun fr h hb => receive_queued h hb, fun fr n => rfl,
    fun ip => rfl, rfl, fun fr lan q ha hacc hidle hptp htr hlan hknown hlive => ?_, fun hacc hidle hip => ?_, fun hrun hdue => ?_, fun h => ?_,
    fun k => ?_, fun hok hwf => ?_, fun n v hrun hup hn hv => ?_⟩
  · have hrx : exec (.ethFrameRx dt p fr) s = .next (t.prpRx a (fun u => u.passUp p fr)) := by
      have h : exec (.ethFrameRx dt p fr) s = .next (t0.receive a (.eth fr)) := by rw [ha]; rfl
      rw [h, receive_idle hacc hidle]
      refine congrArg Host.Outcome.next ?_
      have hin : t.ethIn p fr = _ := if_neg (by rw [hptp]; simp)
      rw [ha]
      exact hin
    have hsrc : a.src = fr.src := by rw [ha]
    have htake := prpTake_known (s := t) (a := a) (q := q) (by rw [← hlan, ha]; exact htr) (by rw [hsrc]; exact tick_prpNodes s dt ▸ hknown)
      (by rw [hsrc]; exact tick_prpNodes s dt ▸ hlive)
    have htaken := PrpKept.prpTake t a
    refine ⟨fun hdup hh => ?_, fun hdup => ?_⟩
    · obtain ⟨hok, hmem⟩ := htake.2 (by rw [hsrc]; exact hdup)
      refine ⟨_, hrx.trans (congrArg Host.Outcome.next ((if_pos hok).trans (if_pos (by rw [hh]; rfl)))), ?_, by rw [← hsrc]; exact hmem, htaken.nv⟩
      exact congrArg (· ++ [.ethUp p fr]) htaken.out
    · obtain ⟨hno, hcnt⟩ := htake.1 (by rw [hsrc]; exact hdup)
      refine ⟨_, hrx.trans (congrArg Host.Outcome.next (if_neg (by rw [hno]; simp))), htaken.out, ?_⟩
      rw [show p = a.port from rfl]
      exact hcnt
  · have hk := PrpKept.prpTake t a
    have harp (ip : Nat) : exec (.arpRequest dt a ip) s = .next (t.arpIn a ip) := congrArg Host.Outcome.next (receive_idle hacc hidle)
    have hicmp : exec (.icmpEchoRequest dt a) s = .next (t.icmpIn a) := congrArg Host.Outcome.next (receive_idle hacc hidle)
    refine ⟨fun hok => ⟨?_, fun ip hne => ?_, ?_⟩, fun hno => ⟨?_, fun ip => ?_⟩⟩
    · rw [harp]
      refine congrArg Host.Outcome.next ((if_pos hok).trans (if_pos ?_))
      rw [hk.vxc, show (t.vxc.netInForce.ipv4 != 0) = true from bne_iff_ne.mpr hip]
      exact beq_self_eq_true _
    · rw [harp]
      refine congrArg Host.Outcome.next ((if_pos hok).trans (if_neg ?_))
      rw [hk.vxc, show (ip == t.vxc.netInForce.ipv4) = false from beq_false_of_ne hne]
      simp
    · have hicmp' : t.net.icmp = s.net.icmp := tick_icmp s dt
      rw [hicmp]
      refine ⟨fun hn => congrArg Host.Outcome.next ((if_pos hok).trans ?_), fun hn => congrArg Host.Outcome.next ((if_pos hok).trans ?_)⟩ <;>
        rw [hk.now, hk.icmp, hicmp', hk.vxc]
      · exact if_pos (by rw [show (t.vxc.netInForce.ipv4 != 0) = true from bne_iff_ne.mpr hip, decide_eq_true hn]; rfl)
      · exact if_neg (by rw [decide_eq_false (Nat.not_lt.mpr hn)]; simp)
    · rw [hicmp]
      exact congrArg Host.Outcome.next (if_neg (by rw [hno]; simp))
    · rw [harp]
      exact congrArg Host.Outcome.next (if_neg (by rw [hno]; simp))
  · exact congrArg Host.Outcome.next (if_pos (by rw [hrun, hdue]; rfl))
  · refine congrArg Host.Outcome.next (if_neg ?_)
    rcases h with h | h <;> rw [h] <;> simp
  · intro o
    refine ⟨fun h0 h1 => ?_, fun n hn hup hno => ?_⟩
    · have hboth : [0, 1].filter t.linkUp = [0, 1] := by rw [List.filter_cons_of_pos h0, List.filter_cons_of_pos h1, List.filter_nil]
      rw [sendFrame_eq hboth (by simp)]
      exact ⟨rfl, rfl⟩
    · have hone : [0, 1].filter t.linkUp = [n] := by
        obtain rfl | rfl : n = 0 ∨ n = 1 := by omega
        · rw [List.filter_cons_of_pos hup, List.filter_cons_of_neg (by simpa using hno), List.filter_nil]
        · rw [List.filter_cons_of_neg (by simpa using hno), List.filter_cons_of_pos hup, List.filter_nil]
      rw [sendFrame_eq hone (by simp)]
      exact ⟨rfl, rfl⟩
  · obtain ⟨⟨hrun, hp⟩, hup⟩ : (t0.netRuns = true ∧ p < 2) ∧ t0.linkUp p = true := by
      have h : (t0.netRuns && decide (p < 2) && t0.linkUp p) = true := hok
      simpa using h
    obtain ⟨heport, hnv, hseq⟩ := portLost_spec (t := t0) (p := p) (tick_ports s dt ▸ hwf)
    have hexec : exec (.ethLinkDown dt p) s = _ := congrArg Host.Outcome.next ((if_neg (by
      rw [decide_eq_true hp, show t0.linkUp p = true from hup]; simp)).trans (if_neg (by
      rw [show (t0.onEport p (fun e => { e with link := false, speed := 0 })).netRuns = true from hrun]; simp)))
    refine ⟨_, hexec, ?_, ?_, hnv, hseq⟩
    · exact congrArg EthPort.link heport
    · refine (congrArg EthPort.linkCnt heport).trans ?_
      have ht : t.eport p = _ := onEport_eport_same (s := t0) (tick_ports s dt ▸ hwf)
      rw [ht]
  · intro u
    have hu : u.eport n = _ := onEport_eport (s := t0) (g := fun e => { e with link := true, speed := v }) (fun he => by
      have := congrArg EthPort.link he
      simp at this)
    have hexec : exec (.ethLinkUp dt n v) s =
        .next ((if u.vxc.netInForce.ipv4 = 0 then u else u.sendOne n .arpAll).sendOne n .supervision) := by
      refine congrArg Host.Outcome.next (if_neg ?_)
      rw [show t0.netRuns = true from hrun, show t0.linkUp n = false from hup, decide_eq_false (Nat.not_le.mpr hn)]
      rcases hv with rfl | rfl <;> simp
    refine ⟨congrArg EthPort.link hu, congrArg EthPort.speed hu, fun hip => ?_, fun hip => ?_⟩
    · rw [hexec, if_neg (show ¬ u.vxc.netInForce.ipv4 = 0 from hip)]
    · rw [hexec, if_pos (show u.vxc.netInForce.ipv4 = 0 from hip)]

end Sys2Proof.Machine
end

