-- ==== Sys2Proof/Proofs/NetworkTime.lean ====
section
/-!
PROOFS. Network time: the PTP exchanges, the local clock and its sources, and the hourly setting of the RTC (12 R392-R406, R409).
-/
namespace Sys2Proof.Machine
open Sys2Proof

/-! ## Messages of a source -/

theorem portOk_of_accepts {s : State} {a : Arrival} {b : Bool} (h : s.accepts a b = true) : s.portOk a.port = true := by
  unfold State.accepts at h
  simp only [Bool.and_eq_true] at h
  exact h.1.1

theorem onPtp_source {s : State} {p d n : Nat} {k : Nat → State → State} (hp : s.portOk p = true) (hn : s.sourceOf p d = some n) :
    s.onPtp p d k = k n s := by
  unfold State.onPtp
  rw [hp, hn]
  rfl

theorem portOk_rxStart {s : State} {p at_ : Nat} (h : s.portOk p = true) : (s.rxStart p at_).portOk p = true := by
  have hup : (s.eport p).link = true := by
    unfold State.portOk at h
    simp only [Bool.and_eq_true] at h
    exact h.2
  have hlink : ((s.rxStart p at_).eport p).link = true := by
    refine (congrArg EthPort.link (onEport_eport (s := s) (g := fun e => { e with rxFree := rxDone p at_ }) fun he => ?_)).trans hup
    exact absurd ((congrArg EthPort.link he).symm.trans hup) (by decide)
  have hgo : (s.netRuns && decide (p < 2)) = true := by
    unfold State.portOk at h
    rw [Bool.and_eq_true] at h
    exact h.1
  exact (congrArg₂ (· && ·) hgo hlink).trans rfl

theorem stamp_of_le {s : State} {e : Int} (h : e.natAbs ≤ 12) : s.stamp e = ((s.net.sec * 1000000000 + s.net.ns : Nat) + e, s.net.epoch) := by
  unfold State.stamp
  rw [show max (-12) (min 12 e) = e by omega]
  rfl

theorem dropSync_epoch (s : State) (n : Nat) : (s.dropSync n).net.epoch = s.net.epoch := by
  unfold State.dropSync
  split <;> rfl

section
variable {s : State} {dt : Dt} {a : Arrival} {d n : Nat} (hacc : (s.tick dt).accepts a false = true) (hidle : (s.tick dt).rxIdle a.port = true)
  (hn : (s.tick dt).sourceOf a.port d = some n)
include hacc hidle hn

omit hidle in
theorem onPtp_rxStart (k : Nat → State → State) :
    ((s.tick dt).rxStart a.port (s.tick dt).now).onPtp a.port d k = k n ((s.tick dt).rxStart a.port (s.tick dt).now) :=
  onPtp_source (portOk_rxStart (portOk_of_accepts hacc)) hn

theorem exec_ptpSyncRx {q : Nat} {t1 e c li : Int} (two : Bool) (he : e.natAbs ≤ 12) :
    let t := (s.tick dt).rxStart a.port (s.tick dt).now
    let t2 : Int := (t.net.sec * 1000000000 + t.net.ns : Nat) + e
    exec (.ptpSyncRx dt a d q two t1 e c li) s = .next (
      if ((s.tick dt).ptpSource n).master.isNone then t
      else if li < -7 ∨ 1 < li then t.ptpIgnore
      else if two then (t.syncSeen n q li).onSource n (fun x => { x with sync := some (q, t2, c, t.now + logCycles li, t.net.epoch) })
      else (t.syncSeen n q li).exchange n (t2 - t1 - c)) := by
  intro t t2
  have hep : (t.syncSeen n q li).net.epoch = t.net.epoch := dropSync_epoch t n
  refine congrArg Host.Outcome.next ((receive_idle hacc hidle).trans ?_)
  change t.syncIn _ a.port d q two t1 ((s.tick dt).stamp e) c li = _
  unfold State.syncIn
  rw [stamp_of_le he, onPtp_rxStart hacc hn]
  refine ite_congr rfl (fun _ => rfl) fun _ => ite_congr rfl (fun _ => rfl) fun _ => ?_
  dsimp only
  rw [hep]
  exact if_neg (not_not_intro rfl)

theorem exec_ptpFollowUpRx {r q lim ep : Nat} {t1 t2 c c' : Int} (hsync : ((s.tick dt).ptpSource n).sync = some (q, t2, c, lim, ep)) :
    let t := (s.tick dt).rxStart a.port (s.tick dt).now
    exec (.ptpFollowUpRx dt a d r t1 c') s =
      .next (if q ≠ r then t else if lim < t.now ∨ ep ≠ t.net.epoch then t.dropSync n else t.exchange n (t2 - t1 - c - c')) := by
  intro t
  refine congrArg Host.Outcome.next ((receive_idle hacc hidle).trans ?_)
  change t.followUpIn _ a.port d r t1 c' = _
  unfold State.followUpIn
  rw [onPtp_rxStart hacc hn, show (t.ptpSource n).sync = _ from hsync]
  rfl

theorem exec_ptpAnnounceRx {m k : Nat} {tm : AnnTime} {udp : Bool} {li : Int} (hudp : udp = true → s.vxc.netInForce.ipv4 ≠ 0) :
    let t := (s.tick dt).rxStart a.port (s.tick dt).now
    exec (.ptpAnnounceRx dt a d m k tm udp li) s =
      .next (if (((s.tick dt).ptpSource n).master.elim true (fun r => r.1 == m || decide (k < r.2))) = true then
        t.onSource n (fun y => { y with master := some (m, k), udp := udp, annAt := t.now, annInt := logCycles li, time := tm }) else t) := by
  intro t
  have hu : (udp && t.vxc.netInForce.ipv4 == 0) = false := by
    cases udp with
    | false => rfl
    | true => exact beq_false_of_ne (hudp rfl)
  refine congrArg Host.Outcome.next ((receive_idle hacc hidle).trans ?_)
  change t.announceIn _ a.port d m k tm udp li = _
  unfold State.announceIn
  rw [onPtp_rxStart hacc hn]
  dsimp only
  rw [hu, show (t.ptpSource n).master = ((s.tick dt).ptpSource n).master from rfl]
  cases ((s.tick dt).ptpSource n).master <;> rfl

/-- An Announce of another master that is not better changes nothing. -/
theorem exec_ptpAnnounceRx_worse {m k i r : Nat} {tm : AnnTime} {udp : Bool} {li : Int} (hm : ((s.tick dt).ptpSource n).master = some (i, r))
    (hi : i ≠ m) (hk : r ≤ k) : exec (.ptpAnnounceRx dt a d m k tm udp li) s = .next ((s.tick dt).rxStart a.port (s.tick dt).now) := by
  refine congrArg Host.Outcome.next ((receive_idle hacc hidle).trans ?_)
  change State.announceIn _ _ a.port d m k tm udp li = _
  unfold State.announceIn
  rw [onPtp_rxStart hacc hn]
  refine ite_eq_left_iff.mpr fun _ => if_neg ?_
  rw [show (((s.tick dt).rxStart a.port (s.tick dt).now).ptpSource n).master = _ from hm]
  simpa using ⟨hi, hk⟩

theorem exec_ptpDelayRespRx {q at_ ep ev : Nat} {t3 v t4 c li : Int} (hreq : ((s.tick dt).ptpSource n).req = some (q, t3, at_, ep))
    (hv : ((s.tick dt).ptpSource n).t2mt1 = some (v, ev)) :
    let t := (s.tick dt).rxStart a.port (s.tick dt).now
    let u := t.onSource n (fun y => { y with req := none, reqInt := logCycles li })
    exec (.ptpDelayRespRx dt a d q t4 c li) s = .next (
      if at_ + secC < t.now ∨ ep ≠ t.net.epoch ∨ ev ≠ t.net.epoch ∨ t.p2p n = true then u
      else (u.onSource n (fun y => { y with paths := (roundDiv (v + (t4 - t3 - c)) 2 :: y.paths).take 8, delays := y.delays + 1 })).qualify n) := by
  intro t u
  refine congrArg Host.Outcome.next ((receive_idle hacc hidle).trans ?_)
  change t.delayRespIn _ a.port d q t4 c li = _
  unfold State.delayRespIn
  rw [onPtp_rxStart hacc hn]
  dsimp only
  rw [show (t.ptpSource n).req = _ from hreq, show (t.ptpSource n).t2mt1 = _ from hv]
  exact if_neg (not_not_intro rfl)
end

/-! ## Delay requests -/

section
variable {s : State} {dt : Dt} {p d n : Nat} {e : Int} (hp : (s.tick dt).portOk p = true) (hn : (s.tick dt).sourceOf p d = some n)
include hp hn

theorem exec_ptpDelayReqTx (k : Int) : exec (.ptpDelayReqTx dt p d k e) s =
    .next (if (s.tick dt).p2p n then (s.tick dt).pdelayReqOut p e else (s.tick dt).delayReqOut p n k e) :=
  congrArg Host.Outcome.next (onPtp_source hp hn)
end

/-! ## Peer delays -/

theorem qualify_peer (t : State) (n : Nat) : (t.qualify n).net.peer = t.net.peer := by
  unfold State.qualify
  dsimp only
  split
  · exact (congrArg Net.peer (Logged.raise ..).net).trans rfl
  · rfl

theorem foldl_qualify_peer (l : List Nat) (t : State) :
    (l.foldl (fun t n => (t.onSource n (fun x => { x with delays := x.delays + 1 })).qualify n) t).net.peer = t.net.peer := by
  induction l generalizing t with
  | nil => rfl
  | cons n r ih => exact (ih _).trans (qualify_peer _ n)

theorem tick_peer (s : State) (dt : Dt) : (s.tick dt).net.peer = s.net.peer := by have e := congrArg Net.peer (tick_net_keeps s dt); exact e

theorem pdelayReqIn_eq {t : State} {p q : Nat} {udp : Bool} {stamp c r : Int} (hp : t.portOk p = true) (hudp : udp = true → t.vxc.netInForce.ipv4 ≠ 0) :
    t.pdelayReqIn p udp q stamp c r = t.emit (t.ptpOut p 6 q udp (c + (t.net.clock + r - stamp)) (some 0)) := by
  refine if_neg ?_
  have hu : (udp && t.vxc.netInForce.ipv4 == 0) = false := by
    cases udp with
    | false => rfl
    | true => exact beq_false_of_ne (hudp rfl)
  rw [hp, hu]
  simp

/-- A response to the Pdelay_Req that is open, within 1 s of it (R394). -/
theorem pdelayRespIn_spec {t : State} {at_ p q sent : Nat} {t3 w c : Int} (hp : t.portOk p = true)
    (hreq : (tget {} t.net.peer p).req = some (q, t3, sent, t.net.epoch)) (hat : at_ ≤ sent + secC) :
    (tget {} (t.pdelayRespIn at_ p q (w, t.net.epoch) c).net.peer p).delay = some (roundDiv (w - t3 - c) 2) ∧
      (tget {} (t.pdelayRespIn at_ p q (w, t.net.epoch) c).net.peer p).req = none := by
  have hset : (tget {} (tset {} t.net.peer p { tget {} t.net.peer p with delay := some (roundDiv (w - t3 - c) 2), req := none }) p) =
      { tget {} t.net.peer p with delay := some (roundDiv (w - t3 - c) 2), req := none } := tget_tset_of_ne fun h => by
    have := congrArg LinkDelay.delay h
    simp at this
  unfold State.pdelayRespIn
  dsimp only
  rw [hp, hreq]
  simp only [Bool.not_true, Bool.false_eq_true, if_false, ne_eq, not_true_eq_false]
  rw [if_neg (by simpa using hat), foldl_qualify_peer]
  simp only [State.onNet]
  rw [hset]
  exact ⟨rfl, rfl⟩

/-! ## The clock's registers (R399, R409) -/

theorem reachable_ptp {s : State} {dt : Dt} {off : Nat} (hrun : s.runs .m = true) (hoff : off < 65536) : (s.tick dt).reachable (wPtp + off) = true := by
  have hreg : regionOfAddr (wPtp + off) = some .m := by
    unfold regionOfAddr wPtp
    rw [if_neg (by omega), if_neg (by omega), if_neg (by omega), if_neg (by omega), show (0x40340000 + off) / 65536 % 256 = 0x34 by omega]
    rfl
  unfold State.reachable
  rw [hreg]
  exact (State.tick_runs ..).trans hrun

theorem exec_ptpAdjWrite {s : State} {dt : Dt} {m : Master} {a : Int} (hrun : s.runs .m = true) :
    exec (.ptpAdjWrite dt m a) s = .next ((s.tick dt).ptpStep (sext 64 (unsext 64 a))) :=
  congrArg Host.Outcome.next (if_pos (reachable_ptp hrun (by decide)))

theorem exec_ptpIncrWrite {s : State} {dt : Dt} {m : Master} {v : Nat} (hrun : s.runs .m = true) :
    exec (.ptpIncrWrite dt m v) s = .next ((s.tick dt).setIncr (v % 2 ^ 40)) :=
  congrArg Host.Outcome.next (if_pos (reachable_ptp hrun (by decide)))

theorem sext_unsext {a : Int} (hlo : -(2 ^ 63) ≤ a) (hhi : a < 2 ^ 63) : sext 64 (unsext 64 a) = a := by
  unfold sext unsext
  split <;> omega

theorem setIncr_range (t : State) (v : Nat) : incrLo ≤ (t.setIncr v).net.incr ∧ (t.setIncr v).net.incr ≤ incrHi ∧
    (incrLo ≤ v → v ≤ incrHi → (t.setIncr v).net.incr = v) := by
  have h : (t.setIncr v).net.incr = if v < incrLo then incrLo else if incrHi < v then incrHi else v := rfl
  rw [h]
  unfold incrLo incrHi
  split
  · omega
  · split <;> omega

/-- The clock's time of day after a step by `a`, within its range (R399). -/
theorem adjust_clock (n : Net) (a : Int) :
    (((n.adjust a).sec * 1000000000 + (n.adjust a).ns : Nat) : Int) % (2 ^ 48 * 1000000000) =
      ((n.sec * 1000000000 + n.ns : Nat) + a) % (2 ^ 48 * 1000000000) ∧ (n.adjust a).ns < 1000000000 := by
  unfold Net.adjust
  dsimp only
  rw [Int.fdiv_eq_ediv_of_nonneg _ (by decide)]
  omega

/-! ## The hourly setting (R406) -/

theorem setCivil_spec {s : State} {dst : Bool} {secs : Nat} (hlock : s.rtc.lockout = false) (hcross : s.bk.crossing = none) (hsecs : secs < calSecs) :
    (s.setCivil dst secs).bk.crossing = some secs ∧ (s.setCivil dst secs).nv.dstActive = dst := by
  obtain ⟨y, mo, d, hciv⟩ : ∃ y mo d, civil (secs / 86400) = (y, mo, d) := ⟨_, _, _, rfl⟩
  have hday : secs / 86400 < daysBeforeYear 200 := by
    have hd : daysBeforeYear 200 = 73049 := by decide
    unfold calSecs at hsecs
    omega
  obtain ⟨⟨hmo, hmo', hd, hd'⟩, hno⟩ := civil_isDate hday hciv
  have hy := civil_year_le hday hciv
  have h31 : d ≤ 31 := hd'.trans (monthDays_le y mo)
  unfold State.setCivil
  rw [hciv]
  dsimp only
  have hcause : State.setCause { s with rtc := { s.rtc with
      wrMin := some (secs % 86400 / 60 % 60), wrHour := some (secs % 86400 / 3600), wrDay := some d, wrMonth := some mo, wrYear := some y } }
      (secs % 86400 % 60) = 0 := by
    unfold State.setCause
    dsimp only
    rw [hlock, hcross]
    simp only [Bool.false_eq_true, if_false, Option.isSome_none]
    rw [if_neg (by omega), if_neg (by omega)]
  have hsecsOf : secsOf y mo d (secs % 86400 / 3600) (secs % 86400 / 60 % 60) (secs % 86400 % 60) = secs := by
    unfold secsOf
    omega
  rw [hcause, if_pos rfl]
  unfold State.rtcSet
  dsimp only
  rw [hcause, if_neg (by simp)]
  exact ⟨congrArg some hsecsOf, rfl⟩

theorem civilFromPtp_lt {s : State} {off : Int} {sec at_ : Nat} {dst : Bool} (h : s.civilFromPtp off sec = some (dst, at_)) : at_ < calSecs := by
  unfold State.civilFromPtp at h
  dsimp only at h
  split at h
  · cases h
  next hin =>
    obtain ⟨rfl, rfl⟩ := Prod.mk.inj (Option.some.inj h)
    generalize (s.dstRule _ _) = b at *
    split <;> omega

/-- Whether the hour since the last check is over, and the state with the check noted. -/
def State.hourOver (t : State) : Bool := match t.net.lastCheck with | none => true | some a => decide (a + 3600 * secC ≤ t.now)

def State.hourNoted (t : State) : State := if t.hourOver then t.onNet (fun m => { m with lastCheck := some t.now }) else t

/-- The check itself, of the source `x` (R406). -/
def State.civilChecked (t : State) (x : PtpSrc) (hourly : Bool) : State :=
  match t.civilFromPtp x.time.utcOffset t.net.sec with
  | none => t
  | some (_, secs) =>
    if !(t.net.setDue || !t.bk.valid || (hourly && t.bk.offBy500 secs t.net.ns)) then t
    else if t.net.ns < 1000000 ∨ 999000000 < t.net.ns then
      match t.civilFromPtp x.time.utcOffset (if t.net.ns < 1000000 then t.net.sec else t.net.sec + 1) with
      | some (dst, at_) => (t.setCivil dst at_).onNet (fun m => { m with setDue := false })
      | none => t
    else t.onNet (fun m => { m with setDue := true })

theorem exec_rtcHourlyCheck {s : State} {dt : Dt} {n : Nat} (hnet : (s.tick dt).netRuns = true) (hsrc : (s.tick dt).net.src = some n)
    (hscale : ((s.tick dt).ptpSource n).time.ptpScale = true) (hutc : ((s.tick dt).ptpSource n).time.utcValid = true)
    (hslew : (s.tick dt).net.slewing = false) (hiso : s.rtc.isolated = false) :
    exec (.rtcHourlyCheck dt) s = .next ((s.tick dt).hourNoted.civilChecked ((s.tick dt).ptpSource n) (s.tick dt).hourOver) := by
  simp only [exec, execRtcHourlyCheck, hsrc, hnet, hscale, hutc, hslew, show (s.tick dt).rtc.isolated = false from hiso]
  rfl

theorem hourNoted_keeps (t : State) : t.hourNoted.bk = t.bk ∧ t.hourNoted.rtc = t.rtc ∧ t.hourNoted.net.sec = t.net.sec ∧
    t.hourNoted.net.ns = t.net.ns ∧ ∀ off sec, t.hourNoted.civilFromPtp off sec = t.civilFromPtp off sec := by
  unfold State.hourNoted
  split
  · exact ⟨rfl, rfl, rfl, rfl, fun _ _ => rfl⟩
  · exact ⟨rfl, rfl, rfl, rfl, fun _ _ => rfl⟩

theorem civilChecked_first {t : State} {x : PtpSrc} {hourly dst : Bool} {at_ : Nat} (hval : t.bk.valid = false) (hns : t.net.ns < 1000000)
    (hciv : t.civilFromPtp x.time.utcOffset t.net.sec = some (dst, at_)) :
    t.civilChecked x hourly = (t.setCivil dst at_).onNet (fun m => { m with setDue := false }) := by
  unfold State.civilChecked
  rw [if_pos hns, hciv]
  dsimp only
  rw [if_neg (by rw [hval]; simp), if_pos (Or.inl hns)]

/-- Settles O60, with each message by the lemma of its kind. -/
theorem networkTimeIsKept : Obligations.NetworkTimeIsKept := by
  refine ⟨fun s dt a d n => ?_, fun s dt m hrun => ?_⟩
  · intro p t0 t hidle hn x e he t2
    refine ⟨fun hacc => ⟨fun q t1 c li hm hlo hhi => ?_, fun q t1 c c' li hm hli => ?_, fun q t1 c c' li hm => ?_, fun q t1 t2 c c' lim ep hsync => ?_,
      fun m k tm udp li hudp hm => ?_, fun m k tm udp li i r hm hi hk => ?_, fun q t3 at_ ep v ev t4 c li hreq hv => ?_⟩,
      fun hp => ⟨fun k hpp => ⟨fun hm hdue => ?_, fun h => ?_⟩, fun k hpp => ⟨fun hdue => ?_, fun hdue => ?_⟩⟩,
      fun hacc => ⟨fun q t3 at_ c hreq hat => ?_, fun q c r => ?_⟩, fun hacc hip q c r => ?_⟩
    · have hgo (two : Bool) := exec_ptpSyncRx hacc hidle hn (q := q) (t1 := t1) (c := c) (li := li) two he
      have hm' : ¬ ((s.tick dt).ptpSource n).master.isNone = true := by rw [Option.isNone_iff_eq_none]; exact Option.isSome_iff_ne_none.mp hm
      have hli : ¬ (li < -7 ∨ 1 < li) := by omega
      refine ⟨?_, ?_⟩
      · rw [hgo, if_neg hm', if_neg hli]
        rfl
      · rw [hgo, if_neg hm', if_neg hli]
        rfl
    · have hm' : ¬ ((s.tick dt).ptpSource n).master.isNone = true := by rw [Option.isNone_iff_eq_none]; exact Option.isSome_iff_ne_none.mp hm
      rw [exec_ptpSyncRx hacc hidle hn c' he, if_neg hm', if_pos hli]
    · have hm' : ((s.tick dt).ptpSource n).master.isNone = true := Option.isNone_iff_eq_none.mpr hm
      rw [exec_ptpSyncRx hacc hidle hn c' he, if_pos hm']
    · have hgo (r : Nat) := exec_ptpFollowUpRx hacc hidle hn (r := r) (t1 := t1) (c' := c') hsync
      refine ⟨fun hat hep => ?_, fun h => ?_, fun r hr => ?_⟩
      · rw [hgo, if_neg (not_not_intro rfl)]
        exact congrArg Host.Outcome.next (if_neg (not_or.mpr ⟨Nat.not_lt.mpr hat, not_not_intro hep⟩))
      · rw [hgo, if_neg (not_not_intro rfl)]
        exact congrArg Host.Outcome.next (if_pos h)
      · rw [hgo, if_pos (Ne.symm hr)]
    · rw [exec_ptpAnnounceRx hacc hidle hn hudp]
      refine congrArg Host.Outcome.next (if_pos ?_)
      rcases hm with hm | ⟨i, r, hm, hor⟩
      · rw [show ((s.tick dt).ptpSource n).master = none from hm]
        rfl
      · rw [show ((s.tick dt).ptpSource n).master = some (i, r) from hm]
        simpa using hor
    · exact exec_ptpAnnounceRx_worse hacc hidle hn hm hi hk
    · intro u
      have hgo := exec_ptpDelayRespRx hacc hidle hn (t4 := t4) (c := c) (li := li) hreq hv
      refine ⟨fun hat hep hev hpp => ?_, fun h => ?_⟩
      · rw [hgo]
        refine congrArg Host.Outcome.next (if_neg ?_)
        rw [not_or, not_or, not_or]
        exact ⟨Nat.not_lt.mpr hat, not_not_intro hep, not_not_intro hev, by rw [show (State.p2p _ n) = false from hpp]; simp⟩
      · rw [hgo]
        exact congrArg Host.Outcome.next (if_pos h)
    · rw [exec_ptpDelayReqTx hp hn, if_neg (by rw [show (s.tick dt).p2p n = false from hpp]; simp)]
      refine congrArg Host.Outcome.next ((if_neg ?_).trans ?_)
      · have hm' : ((s.tick dt).ptpSource n).master.isNone = false := by rw [Option.isNone_eq_false_iff]; exact hm
        rw [hm', show ((s.tick dt).ptpSource n).due (s.tick dt).now k = true from hdue]
        simp
      · rw [stamp_of_le he]
        rfl
    · rw [exec_ptpDelayReqTx hp hn, if_neg (by rw [show (s.tick dt).p2p n = false from hpp]; simp)]
      refine congrArg Host.Outcome.next (if_pos ?_)
      rcases h with h | h
      · rw [show ((s.tick dt).ptpSource n).master = none from h]
        rfl
      · rw [show ((s.tick dt).ptpSource n).due (s.tick dt).now k = false from h]
        simp
    · rw [exec_ptpDelayReqTx hp hn, if_pos hpp]
      refine congrArg Host.Outcome.next ((if_neg ?_).trans ?_)
      · rw [tick_peer, hdue]
        simp
      · rw [stamp_of_le he, tick_peer]
        rfl
    · rw [exec_ptpDelayReqTx hp hn, if_pos hpp]
      refine congrArg Host.Outcome.next (if_pos ?_)
      rw [tick_peer, hdue]
      rfl
    · have hp := portOk_rxStart (at_ := (s.tick dt).now) (portOk_of_accepts hacc)
      have hspec := pdelayRespIn_spec (t := t) (w := t2) (c := c) (p := p) hp hreq hat
      refine ⟨_, congrArg Host.Outcome.next ((receive_idle hacc hidle).trans ?_), hspec⟩
      rw [stamp_of_le he]
      rfl
    · refine congrArg Host.Outcome.next ((receive_idle hacc hidle).trans ?_)
      exact (pdelayReqIn_eq (portOk_rxStart (portOk_of_accepts hacc)) (by simp)).trans (congrArg (fun i => State.emit _ (State.ptpOut _ p 6 q false i (some 0)))
        (by rw [show t0.net.clock = t.net.clock from rfl]; ring))
    · refine congrArg Host.Outcome.next ((receive_idle hacc hidle).trans ?_)
      exact (pdelayReqIn_eq (portOk_rxStart (portOk_of_accepts hacc)) (fun _ => hip)).trans (congrArg (fun i => State.emit _ (State.ptpOut _ p 6 q true i (some 0)))
        (by rw [show t0.net.clock = t.net.clock from rfl]; ring))
  · intro t
    refine ⟨fun a hlo hhi => ?_, fun a => ?_, fun v hv => ?_, ?_, fun hnet n hn hsil => ?_, fun n hsil => ?_, fun hnet n hret => ?_, fun n hret => ?_,
      fun n dst at_ hnet hsrc hscale hutc hslew hiso hval hns hciv hlock hcross => ?_, fun hsrc => ?_⟩
    · rw [exec_ptpAdjWrite hrun, sext_unsext hlo hhi]
    · obtain ⟨hclock, hns⟩ := adjust_clock t.net a
      have hnet := (ptpStep_logged t a).net
      refine ⟨?_, ?_, ?_, ?_⟩
      · rw [hnet]; exact hclock
      · rw [hnet]; exact hns
      · have e := congrArg (fun u : State => u.tb.ptpStep) (ptpStep_logged t a)
        exact e
      · rw [hnet]; rfl
    · refine ⟨?_, setIncr_range t v⟩
      rw [exec_ptpIncrWrite hrun, Nat.mod_eq_of_lt hv]
    · exact congrArg Host.Outcome.next (if_pos (show (s.tick dt).reachable wPtp = true from reachable_ptp (off := 0) hrun (by decide)))
    · have hone : [n].filter (fun n => (t.ptpSource n).master.isSome || (t.ptpSource n).qual) = [n] := by
        refine List.filter_cons_of_pos ?_
        unfold State.sourceSilent at hsil
        simp only [Bool.and_eq_true] at hsil
        rw [hsil.1]
        rfl
      have hexec : exec (.ptpSourceLost dt n) s = .next (if t.net.src == some n then ((t.onSource n (fun _ => {})).raiseGen .m 0x02 0 []).reselect
          else (t.onSource n (fun _ => {})).raiseGen .m 0x02 0 []) := by
        refine congrArg Host.Outcome.next ((if_pos ?_).trans ?_)
        · rw [show (s.tick dt).netRuns = true from hnet, decide_eq_true hn, show (s.tick dt).sourceSilent n = true from hsil]
          rfl
        · unfold State.loseSources
          dsimp only
          rw [hone]
          simp only [List.any_cons, List.any_nil, Bool.or_false]
          rfl
      refine ⟨fun hsrc => ?_, fun hsrc => ?_⟩
      · rw [hexec, if_pos (beq_iff_eq.mpr hsrc)]
      · rw [hexec, if_neg (by simpa using hsrc)]
    · refine congrArg Host.Outcome.next (if_neg ?_)
      rw [show (s.tick dt).sourceSilent n = false from hsil]
      simp
    · refine congrArg Host.Outcome.next (if_pos ?_)
      rw [show (s.tick dt).netRuns = true from hnet, show (s.tick dt).mayReturn n = true from hret]
      rfl
    · refine congrArg Host.Outcome.next (if_neg ?_)
      rw [show (s.tick dt).mayReturn n = false from hret]
      simp
    · obtain ⟨hbk, hrtc, hsec, hns', hciv'⟩ := hourNoted_keeps t
      have hset := setCivil_spec (s := t.hourNoted) (dst := dst) (secs := at_) (by rw [hrtc]; exact hlock) (by rw [hbk]; exact hcross)
        (civilFromPtp_lt hciv)
      exact ⟨_, (exec_rtcHourlyCheck hnet hsrc hscale hutc hslew hiso).trans (congrArg Host.Outcome.next
        (civilChecked_first (by rw [hbk]; exact hval) (by rw [hns']; exact hns) (by rw [hciv', hsec]; exact hciv))), hset⟩
    · simp only [exec, execRtcHourlyCheck, show (s.tick dt).net.src = none from hsrc]
      rfl

end Sys2Proof.Machine
end

