-- ==== Sys2Proof/Proofs/TimeBaseSteps.lean ====
section
/-!
PROOFS. The time base: crossings, edges and virtual edges (02 R63-R81).
-/
namespace Sys2Proof.Machine
open Sys2Proof

/-! ## What a crossing's judgement leaves -/

/-- `u` has of `s` the last crossing, the count with its newest edge, and the junction. -/
structure CountKept (s u : State) : Prop where
  lastCross : u.tb.lastCross = s.tb.lastCross
  lastRising : u.tb.lastRising = s.tb.lastRising
  hcn : u.tb.hcn = s.tb.hcn
  lastEdge : u.tb.lastEdge = s.tb.lastEdge
  jnc : u.jnc = s.jnc

namespace CountKept

theorem refl (s : State) : CountKept s s := ⟨rfl, rfl, rfl, rfl, rfl⟩

theorem trans {s t u : State} (h : CountKept s t) (k : CountKept t u) : CountKept s u :=
  ⟨k.lastCross.trans h.lastCross, k.lastRising.trans h.lastRising, k.hcn.trans h.hcn, k.lastEdge.trans h.lastEdge, k.jnc.trans h.jnc⟩

theorem said {s t u : State} (h : CountKept s t) (k : Said t u) : CountKept s u :=
  h.trans ⟨congrArg TimeBase.lastCross k.tb, congrArg TimeBase.lastRising k.tb, congrArg TimeBase.hcn k.tb, congrArg TimeBase.lastEdge k.tb, k.jnc⟩

theorem ite {p : Prop} [Decidable p] {s a b : State} (h : CountKept s a) (k : CountKept s b) : CountKept s (if p then a else b) := by
  split
  · exact h
  · exact k

theorem tbTo (s : State) (st : TbState) : CountKept s (s.tbTo st) := by
  unfold State.tbTo
  refine ite (refl s) (said ?_ (notifyClass_said ..))
  exact ⟨rfl, rfl, rfl, rfl, rfl⟩

theorem goVirtual (s : State) (st : TbState) (e : Nat) : CountKept s (s.goVirtual st e) :=
  trans (t := s.onTb (fun t => { t with
    virtPeriod := t.virtualFrom, virtAt := 48 * e, outCnt := 0, phaseCnt := 0, missCnt := 0, qCount := 0, qFromOop := false
    relockNext := false, slewNext := false, refAt := none })) ⟨rfl, rfl, rfl, rfl, rfl⟩ (tbTo ..)

theorem outOfProfile (s : State) : CountKept s s.outOfProfile := by
  unfold State.outOfProfile
  dsimp only
  refine ite ⟨rfl, rfl, rfl, rfl, rfl⟩ (ite (trans ?_ (tbTo ..)) (trans ?_ (goVirtual ..)))
  · exact ⟨rfl, rfl, rfl, rfl, rfl⟩
  · exact ⟨rfl, rfl, rfl, rfl, rfl⟩

theorem onTb (s : State) {g : TimeBase → TimeBase} (h1 : (g s.tb).lastCross = s.tb.lastCross) (h2 : (g s.tb).lastRising = s.tb.lastRising)
    (h3 : (g s.tb).hcn = s.tb.hcn) (h4 : (g s.tb).lastEdge = s.tb.lastEdge) : CountKept s (s.onTb g) := ⟨h1, h2, h3, h4, rfl⟩

theorem qualified (s : State) : CountKept s s.qualified := ⟨rfl, rfl, rfl, rfl, rfl⟩

theorem qualCross (s : State) (whole missed : Bool) : CountKept s (s.qualCross whole missed) := by
  unfold State.qualCross
  dsimp only
  split
  · refine ite (trans ?_ (qualified _)) ?_
    · exact onTb s rfl rfl rfl rfl
    · exact onTb s rfl rfl rfl rfl
  · refine trans ?_ (tbTo ..)
    exact onTb s rfl rfl rfl rfl
  · refine ite (trans ?_ (tbTo ..)) (refl s)
    exact onTb s rfl rfl rfl rfl
  · refine ite (ite (outOfProfile s) (refl s)) (ite (ite (trans ?_ (qualified _)) ?_) (ite (trans ?_ (tbTo ..)) (ite (trans ?_ (outOfProfile _)) ?_)))
    all_goals exact onTb s rfl rfl rfl rfl
  · exact refl s

theorem slewCross (s : State) (now : Nat) (rising : Bool) : CountKept s (s.onTb (fun t => t.slewCross now rising)) := by
  have h (t : TimeBase) : (t.slewCross now rising).lastCross = t.lastCross ∧ (t.slewCross now rising).lastRising = t.lastRising ∧
      (t.slewCross now rising).hcn = t.hcn ∧ (t.slewCross now rising).lastEdge = t.lastEdge := by
    unfold TimeBase.slewCross
    dsimp only
    split
    · exact ⟨rfl, rfl, rfl, rfl⟩
    · split
      · split
        · exact ⟨rfl, rfl, rfl, rfl⟩
        · exact ⟨rfl, rfl, rfl, rfl⟩
      · exact ⟨rfl, rfl, rfl, rfl⟩
  obtain ⟨h1, h2, h3, h4⟩ := h s.tb
  exact onTb s h1 h2 h3 h4

end CountKept

/-! ## The crossing (R63-R67) -/

/-- The break that a late crossing makes in a qualification. -/
def State.breakNoted (s : State) (missed : Bool) : State :=
  if missed && s.tb.st == .qualify && !s.tb.relockNext then
    (s.onTb (fun t => { t with qCount := 0 })).tbTo (if s.tb.qFromOop then .outOfProfile else .virtual) else s

/-- The judgement of the crossing that `s` has measured, against the time base `t` before it. -/
def State.crossJudged (s : State) (t : TimeBase) (rising ok whole missed : Bool) : State :=
  if s.tb.st.isVirtual then s.qualCross whole missed
  else
    let s := if s.tb.st = .slew then s.onTb (fun t => t.slewCross s.now rising)
      else
        let n := if ok && decide (msC < t.phaseErr s.now) then t.phaseCnt + 1 else 0
        s.onTb (fun t => { t with phaseCnt := if 4 ≤ n then 0 else n, slewNext := t.slewNext || decide (4 ≤ n) })
    if whole then s.outOfProfile else s

/-- Whether the crossing at `now` comes late, and whether it ends a half-cycle of the right length and voltage. -/
def TimeBase.crossLate (t : TimeBase) (now : Nat) : Bool := match t.lastCross with | some c => decide (t.crossLimit < now - c) | none => false

def TimeBase.crossWhole (t : TimeBase) (now : Nat) (rising : Bool) (rms : Nat) : Bool := t.unbroken now rising && rmsOk rms t.vnomA

/-- The crossing taken while the count runs: its measurement first, its judgement after it. -/
def State.crossTaken (s : State) (rising : Bool) (rms : Nat) : State :=
  let u := s.breakNoted (s.tb.crossLate s.now)
  (u.onTb (fun t => t.cross u.now rising (rmsOk rms s.tb.vnomA))).crossJudged s.tb rising (rmsOk rms s.tb.vnomA) (s.tb.crossWhole s.now rising rms)
    (s.tb.crossLate s.now)

theorem exec_zeroCrossing {s : State} {dt : Dt} {up : Bool} {rms : Nat} (hrank : 6 ≤ s.pow.phase.rank) (hst : s.tb.st ≠ .hold)
    (hacc : s.tb.accepts (s.tick dt).now = true) : exec (.zeroCrossing dt up rms) s = .next ((s.tick dt).crossTaken up rms) := by
  refine congrArg Host.Outcome.next ((if_neg ?_).trans ((if_neg hst).trans ?_))
  · rw [State.tick_pow, State.tick_tb, hacc, decide_eq_false (Nat.not_lt.mpr hrank)]
    simp
  · rfl

theorem breakNoted_kept (s : State) (missed : Bool) : CountKept s (s.breakNoted missed) := by
  unfold State.breakNoted
  refine .ite (.trans ?_ (.tbTo ..)) (.refl s)
  exact .onTb s rfl rfl rfl rfl

theorem tbTo_now (s : State) (st : TbState) : (s.tbTo st).now = s.now := by
  unfold State.tbTo
  dsimp only
  split
  · rfl
  · exact (notifyClass_said ..).now

theorem breakNoted_now (s : State) (missed : Bool) : (s.breakNoted missed).now = s.now := by
  unfold State.breakNoted
  split
  · exact tbTo_now ..
  · rfl

theorem crossJudged_kept (s : State) (t : TimeBase) (rising ok whole missed : Bool) : CountKept s (s.crossJudged t rising ok whole missed) := by
  unfold State.crossJudged
  refine .ite (.qualCross ..) ?_
  have hs : CountKept s (if s.tb.st = .slew then s.onTb (fun t => t.slewCross s.now rising)
      else
        let n := if ok && decide (msC < t.phaseErr s.now) then t.phaseCnt + 1 else 0
        s.onTb (fun t => { t with phaseCnt := if 4 ≤ n then 0 else n, slewNext := t.slewNext || decide (4 ≤ n) })) :=
    .ite (.slewCross ..) (.onTb s rfl rfl rfl rfl)
  exact .ite (hs.trans (.outOfProfile _)) hs

theorem breakNoted_of_locked {s : State} (h : s.tb.st = .locked) (missed : Bool) : s.breakNoted missed = s := by
  unfold State.breakNoted
  rw [h]
  exact if_neg (by simp)

/-- A crossing in LOCKED, before eight half-cycles have been measured, is out of no profile. -/
theorem outOfProfile_short {s : State} (h : s.tb.hist.length < 8) : s.outOfProfile = s.onTb (fun t => { t with outCnt := 0 }) := by
  unfold State.outOfProfile
  dsimp only
  rw [decide_eq_false (Nat.not_le.mpr h)]
  rfl

theorem cross_hist_le (t : TimeBase) (now : Nat) (rising ok : Bool) : (t.cross now rising ok).hist.length ≤ t.hist.length + 1 := by
  unfold TimeBase.cross
  dsimp only
  split
  · rw [List.length_take, List.length_cons]
    omega
  · omega

/-- A crossing in LOCKED: the count of phase errors and the slew that it asks for (R67). -/
theorem crossTaken_locked {s : State} {up : Bool} {rms : Nat} (hst : s.tb.st = .locked) (hlen : s.tb.hist.length < 7) :
    ∃ o, s.crossTaken up rms = s.onTb (fun t =>
      let v := t.cross s.now up (rmsOk rms s.tb.vnomA)
      let n := if rmsOk rms s.tb.vnomA && decide (msC < s.tb.phaseErr s.now) then s.tb.phaseCnt + 1 else 0
      { v with phaseCnt := if 4 ≤ n then 0 else n, slewNext := v.slewNext || decide (4 ≤ n), outCnt := o }) := by
  have hst' : (s.onTb (fun t => t.cross s.now up (rmsOk rms s.tb.vnomA))).tb.st = .locked := hst
  have hlen' := cross_hist_le s.tb s.now up (rmsOk rms s.tb.vnomA)
  unfold State.crossTaken State.crossJudged
  dsimp only
  rw [breakNoted_of_locked hst, hst', if_neg (by decide), if_neg (show ¬ TbState.locked = .slew by decide)]
  by_cases hw : s.tb.crossWhole s.now up rms = true
  · rw [if_pos hw]
    refine ⟨0, (outOfProfile_short ?_).trans ?_⟩
    · exact Nat.lt_of_le_of_lt hlen' (by omega)
    · rfl
  · rw [if_neg hw]
    exact ⟨_, rfl⟩

/-! ## The edge (R64-R72) -/

section
variable {s : State} {dt : Dt} {found : Bool} {rms : Nat}

/-- An edge in LOCKED (R64, R65). -/
theorem exec_hcnEdge_locked (hst : s.tb.st = .locked) (hdue : s.tb.dueLocked (s.tb.hcn + 1) (s.tick dt).now = true) :
    let t := s.tick dt
    let k := s.tb.hcn + 1
    let here := s.tb.crossed k t.now found rms
    let u := if here then t else t.onTb (fun v => { v.freqMissed with phaseCnt := 0 })
    exec (.hcnEdge dt found rms) s = .next (
      if !here && decide (1 ≤ s.tb.missCnt) then ((u.goVirtual .virtual u.now).raiseTb 0x0200 (genPay (wJnc + 0x48) [])).edge k 1
      else
        let u := u.onTb (fun v => { v with missCnt := if here then 0 else 1 })
        if s.tb.slewNext then u.refEdge (if here then 0 else 4) else u.edge k (if here then 0 else 4)) := by
  intro t k here u
  have hgo : s.tb.edgeDue (s.tick dt).now = true := by
    unfold TimeBase.edgeDue
    rw [hst]
    exact hdue
  refine congrArg Host.Outcome.next ((if_neg ?_).trans ((if_neg ?_).trans ?_))
  · rw [State.tick_tb, hgo]
    simp
  · rw [State.tick_tb, hst]
    decide
  · refine ite_congr rfl (fun _ => rfl) fun _ => ?_
    exact if_pos hst

/-- An edge in SLEW at which a crossing is found (R70). -/
theorem exec_hcnEdge_slew (hst : s.tb.st = .slew) (hdue : s.tb.dueSlew (s.tick dt).now = true)
    (hhere : s.tb.crossed (s.tb.hcn + 1) (s.tick dt).now found rms = true) :
    let t := s.tick dt
    let n := if s.tb.lastEdge + s.tb.measured < t.now then s.tb.slewed + 1 else s.tb.slewed
    let u := t.onTb (fun v => { v with missCnt := 0, target := s.tb.target + s.tb.measured, slewed := n })
    exec (.hcnEdge dt found rms) s = .next (
      if s.tb.target + s.tb.measured < t.now + lockC then (u.relocked s.tb.offset0 n).edge (s.tb.hcn + 1) 0 else u.edge (s.tb.hcn + 1) 2) := by
  intro t n u
  have hgo : s.tb.edgeDue (s.tick dt).now = true := by
    unfold TimeBase.edgeDue
    rw [hst]
    exact hdue
  have hn : (if decide (s.tb.lastEdge + s.tb.measured < t.now) = true then s.tb.slewed + 1 else s.tb.slewed) = n := by simp [n]
  refine congrArg Host.Outcome.next ((if_neg ?_).trans ((if_neg ?_).trans ((if_neg ?_).trans ((if_neg ?_).trans ?_))))
  · rw [State.tick_tb, hgo]
    simp
  · rw [State.tick_tb, hst]
    decide
  · rw [State.tick_tb, hhere]
    simp
  · rw [State.tick_tb, hst]
    decide
  · dsimp only
    rw [State.tick_tb, hhere]
    simp only [if_true, decide_eq_true_eq]
    rfl

end

/-! ## Virtual edges (R68) -/

/-- Whether the last crossing is too long ago to qualify. -/
def TimeBase.crossGone (t : TimeBase) (now : Nat) : Bool := match t.lastCross with | some c => decide (t.crossLimit < now - c) | none => true

theorem exec_virtualEdge {s : State} {dt : Dt} (hrun : s.tb.running = true) (hst : s.tb.st = .virtual ∨ s.tb.st = .outOfProfile)
    (hdue : s.tb.dueVirtual (s.tick dt).now = true) :
    let u := (s.tick dt).onTb (fun v => { v with virtAt := v.virtAt + v.virtPeriod })
    let late := s.tb.crossGone (s.tick dt).now
    let w := if late then u.onTb (fun t => { t.freqMissed with chain := 0 }) else if !s.tb.lastOk then u.onTb (fun t => t.freqMissed) else u
    exec (.virtualEdge dt) s = .next (w.edge (s.tb.hcn + 1) (if s.tb.st = .outOfProfile then 9 else 1)) := by
  intro u late w
  have hvirt : s.tb.st.isVirtual = true ∧ s.tb.st ≠ .qualify := by
    rcases hst with h | h <;> rw [h] <;> exact ⟨rfl, by decide⟩
  have hw : w.tb.st = s.tb.st := by
    simp only [w]
    split
    · rfl
    · split <;> rfl
  refine congrArg Host.Outcome.next ((if_neg ?_).trans ((if_neg ?_).trans ?_))
  · rw [State.tick_tb, hrun, hvirt.1, hdue]
    simp
  · exact fun h => hvirt.2 h.1
  · have hq : (late && s.tb.st == .qualify) = false := by rw [beq_false_of_ne hvirt.2, Bool.and_false]
    change State.edge (if (late && s.tb.st == .qualify) = true then (w.onTb _).tbTo _ else w) _
      (1 + if (if (late && s.tb.st == .qualify) = true then (w.onTb _).tbTo _ else w).tb.st = .outOfProfile then 8 else 0) = _
    rw [if_neg (by rw [hq]; simp), hw]
    congr 1
    split <;> rfl

/-! ## Voltage set B (R76, R77) -/

theorem feedersB_tb (t : State) : t.feedersB.tb = t.tb := by
  unfold State.feedersB
  generalize List.filter _ _ = l
  induction l generalizing t with
  | nil => rfl
  | cons f r ih => exact (ih _).trans rfl

theorem putAt_keeps (b : SetB) (half j c : Nat) : (b.putAt half j c).bofs = b.bofs ∧ (b.putAt half j c).present = b.present := by
  unfold SetB.putAt
  cases b.remap with
  | none => exact ⟨rfl, rfl⟩
  | some m =>
    dsimp only
    split_ifs <;> exact ⟨rfl, rfl⟩

/-- Settles O55, each event by its guards; what a crossing's judgement leaves is `CountKept`. -/
theorem crossingsAndEdgesDriveTheCount : Obligations.CrossingsAndEdgesDriveTheCount := by
  intro s dt t
  refine ⟨fun up rms hacc => ?_, fun up rms hrank hst hacc => ?_, fun up rms hst hrank hcnt hlen hacc herr => ?_, fun up rms hst hrank hre hacc => ?_,
    fun found rms hdue => ?_, fun hst hslew hdue found rms => ?_, fun hst hslew hdue found rms hhere => ?_, fun hst hdue found rms hhere => ?_,
    fun found rms hst hre hdue => ?_, fun hrun hst hdue => ?_, fun hph hre hat => ?_, fun up rms hph hrun hmap hok hlt => ?_,
    fun up rms hph hrun hmap => ?_⟩
  · refine congrArg Host.Outcome.next (if_pos ?_)
    rw [State.tick_tb, hacc]
    simp
  · have hj := (crossJudged_kept ((t.breakNoted (t.tb.crossLate t.now)).onTb (fun v => v.cross (t.breakNoted (t.tb.crossLate t.now)).now up
      (rmsOk rms t.tb.vnomA))) t.tb up (rmsOk rms t.tb.vnomA) (t.tb.crossWhole t.now up rms) (t.tb.crossLate t.now))
    have hb := breakNoted_kept t (t.tb.crossLate t.now)
    refine ⟨_, exec_zeroCrossing hrank hst hacc, hj.lastCross.trans (congrArg some (breakNoted_now ..)), hj.lastRising, hj.hcn.trans hb.hcn,
      hj.lastEdge.trans hb.lastEdge, ?_⟩
    have hstamps := congrArg Junction.stamps hb.jnc
    exact (congrArg Junction.stamps hj.jnc).trans hstamps
  · obtain ⟨o, hu⟩ := crossTaken_locked (s := t) (up := up) (rms := rms) hst hlen
    refine ⟨_, (exec_zeroCrossing hrank (by rw [hst]; simp) hacc).trans (congrArg Host.Outcome.next hu), hst, fun hok => ?_, fun hok => ?_⟩
    · have hn : (if rmsOk rms t.tb.vnomA && decide (msC < t.tb.phaseErr t.now) then t.tb.phaseCnt + 1 else 0) = 4 := by
        rw [show rmsOk rms t.tb.vnomA = true from hok, decide_eq_true (show msC < t.tb.phaseErr t.now from herr), show t.tb.phaseCnt = 3 from hcnt]
        rfl
      exact (congrArg (fun n => t.tb.slewNext || decide (4 ≤ n)) hn).trans (by simp)
    · have hn : (if rmsOk rms t.tb.vnomA && decide (msC < t.tb.phaseErr t.now) then t.tb.phaseCnt + 1 else 0) = 0 := by
        rw [show rmsOk rms t.tb.vnomA = false from hok]
        rfl
      exact ⟨congrArg (fun n => if 4 ≤ n then 0 else n) hn, (congrArg (fun n => t.tb.slewNext || decide (4 ≤ n)) hn).trans (by simp; rfl)⟩
  · refine congrArg Host.Outcome.next ((if_neg ?_).trans ((if_pos hst).trans (if_pos hre)))
    rw [State.tick_pow, State.tick_tb, hacc, decide_eq_false (Nat.not_lt.mpr hrank)]
    simp
  · refine congrArg Host.Outcome.next (if_pos ?_)
    rw [State.tick_tb, hdue]
    rfl
  · intro here
    have hgo := exec_hcnEdge_locked (dt := dt) (found := found) (rms := rms) hst hdue
    dsimp only at hgo
    refine ⟨fun hh => ?_, fun hh hm => ?_, fun hh hm => ?_⟩
    · rw [show s.tb.crossed (s.tb.hcn + 1) (s.tick dt).now found rms = true from hh, hslew] at hgo
      simp only [Bool.not_true, Bool.false_and, Bool.false_eq_true, if_false, if_true] at hgo
      exact hgo
    · rw [show s.tb.crossed (s.tb.hcn + 1) (s.tick dt).now found rms = false from hh, hslew, hm, show decide (1 ≤ 0) = false from rfl] at hgo
      simp only [Bool.and_false, Bool.false_eq_true, if_false] at hgo
      exact hgo
    · rw [show s.tb.crossed (s.tb.hcn + 1) (s.tick dt).now found rms = false from hh, decide_eq_true hm] at hgo
      simp only [Bool.not_false, Bool.true_and, if_true, Bool.false_eq_true, if_false] at hgo
      exact hgo
  · have hgo := exec_hcnEdge_locked (dt := dt) (found := found) (rms := rms) hst hdue
    dsimp only at hgo
    rw [show s.tb.crossed (s.tb.hcn + 1) (s.tick dt).now found rms = true from hhere, hslew] at hgo
    simp only [Bool.not_true, Bool.false_and, Bool.false_eq_true, if_false, if_true] at hgo
    exact hgo
  · intro n g u
    have hgo := exec_hcnEdge_slew (dt := dt) (found := found) (rms := rms) hst hdue hhere
    refine ⟨fun hg => hgo.trans (congrArg Host.Outcome.next (if_neg ?_)), fun hg => hgo.trans (congrArg Host.Outcome.next (if_pos hg))⟩
    exact Nat.not_lt.mpr hg
  · refine congrArg Host.Outcome.next ((if_neg ?_).trans (if_pos hst))
    rw [State.tick_tb, TimeBase.edgeDue, hst, hre, hdue]
    simp
  · intro u fl
    have hgo := exec_virtualEdge (dt := dt) hrun hst hdue
    dsimp only at hgo
    refine ⟨fun c hc hle => ?_, fun hlate => ?_⟩
    · have hin : s.tb.crossGone (s.tick dt).now = false := by
        unfold TimeBase.crossGone
        rw [hc]
        exact decide_eq_false (Nat.not_lt.mpr hle)
      rw [hin] at hgo
      refine ⟨fun hok => ?_, fun hok => ?_⟩ <;> rw [hok] at hgo <;> exact hgo
    · have hout : s.tb.crossGone (s.tick dt).now = true := by
        unfold TimeBase.crossGone
        cases hc : s.tb.lastCross with
        | none => rfl
        | some c => exact decide_eq_true (hlate c hc)
      rw [hout] at hgo
      exact hgo
  · refine congrArg Host.Outcome.next (if_neg ?_)
    rw [State.tick_pow, State.tick_tb, hph, hre, decide_eq_false (show ¬ (s.tick dt).now < s.tb.lockAt + secC from Nat.not_lt.mpr hat)]
    simp
  · refine ⟨_, congrArg Host.Outcome.next ((if_neg hph).trans ((if_neg ?_).trans ((if_pos ?_).trans (if_pos ?_)))), ?_, ?_, ?_, ?_, ?_⟩
    · rw [State.tick_tb, hrun]
      simp
    · rw [State.tick_tb, hmap]
      rfl
    · rw [State.tick_tb, hok, decide_eq_true (show (s.tick dt).now < s.tb.lastEdge + s.tb.measured from hlt)]
      rfl
    · rw [feedersB_tb]
      rfl
    · rw [feedersB_tb]
      rfl
    · rw [feedersB_tb]
      rfl
    · rw [feedersB_tb]
      rfl
    · rw [feedersB_tb]
      exact bit_setBit_same _ (by decide)
  · intro dist next last hd hl
    refine ⟨_, congrArg Host.Outcome.next ((if_neg hph).trans ((if_neg ?_).trans ((if_neg ?_).trans ((if_neg ?_).trans (if_pos ?_))))), ?_, ?_, ?_, ?_⟩
    · rw [State.tick_tb, hrun]
      simp
    · rw [State.tick_tb, hmap]
      simp
    · exact fun h => absurd h.1 (Nat.not_lt.mpr hd)
    · exact hl
    · exact (putAt_keeps ..).1
    · exact (putAt_keeps ..).2
    · rfl
    · rfl

end Sys2Proof.Machine
end

