-- ==== Sys2Proof/Proofs/SteadyOps.lean ====
section
/-!
PROOFS. What the operations of an edge and of a region's start leave: the queue of commands, the time, the backup domain, the time base, the
regions, voters and stamps of the junction, the phase of the run and its shutdown, and the update in hand. `Steady s t` says that `t` has them of
`s`; each operation has one lemma under its own name, as it has one in `Keeps`.
-/
namespace Sys2Proof.Machine

/-- What an operation that is not an edge, a reset or a stage of an update leaves of a state, said of the fields it speaks of. -/
def SteadyOf (s : State) (pending : List Instr) (now : Nat) (bk : Backup) (tb : TimeBase) (regions : PerRegion RegionStat)
    (voters : PerRegion Voter) (stamps : Tbl (BitVec 256)) (phase : Phase) (supplyFail cmdShutdown : Bool) (upd : Decant) (profileSel : Nat)
    (mem : Mem) : Prop :=
  (pending = s.pending ∧ now = s.now ∧ bk = s.bk ∧ tb = s.tb) ∧
  (regions = s.jnc.regions ∧ voters = s.jnc.voters ∧ stamps = s.jnc.stamps ∧ mem = s.mem) ∧
  (phase = s.pow.phase ∧ supplyFail = s.pow.supplyFail ∧ cmdShutdown = s.pow.cmdShutdown ∧ upd = s.nv.upd ∧ profileSel = s.nv.profileSel)

/-- `t` has of `s` what an operation leaves. -/
def Steady (s t : State) : Prop :=
  SteadyOf s t.pending t.now t.bk t.tb t.jnc.regions t.jnc.voters t.jnc.stamps t.pow.phase t.pow.supplyFail t.pow.cmdShutdown t.nv.upd
    t.nv.profileSel t.mem

namespace Steady

theorem refl (s : State) : Steady s s := ⟨⟨rfl, rfl, rfl, rfl⟩, ⟨rfl, rfl, rfl, rfl⟩, rfl, rfl, rfl, rfl, rfl⟩

theorem trans {s t u : State} (h : Steady s t) (k : Steady t u) : Steady s u := by
  obtain ⟨⟨h1, h2, h3, h4⟩, ⟨h5, h6, h7, h8⟩, h9, h10, h11, h12, h13⟩ := h
  obtain ⟨⟨k1, k2, k3, k4⟩, ⟨k5, k6, k7, k8⟩, k9, k10, k11, k12, k13⟩ := k
  exact ⟨⟨k1.trans h1, k2.trans h2, k3.trans h3, k4.trans h4⟩, ⟨k5.trans h5, k6.trans h6, k7.trans h7, k8.trans h8⟩, k9.trans h9,
    k10.trans h10, k11.trans h11, k12.trans h12, k13.trans h13⟩

theorem ite {s a b : State} {p : Prop} [Decidable p] (h : Steady s a) (k : Steady s b) : Steady s (if p then a else b) := by
  split
  · exact h
  · exact k

theorem ite_prod {s : State} {α : Type} {a b : α × State} {p : Prop} [Decidable p] (h : Steady s a.2) (k : Steady s b.2) :
    Steady s (if p then a else b).2 := by
  split
  · exact h
  · exact k

theorem ite_fst {s : State} {α : Type} {a b : State × α} {p : Prop} [Decidable p] (h : Steady s a.1) (k : Steady s b.1) :
    Steady s (if p then a else b).1 := by
  split
  · exact h
  · exact k

theorem foldl {s t : State} {α : Type} {l : List α} {g : State → α → State} (hg : ∀ u x, Steady u (g u x)) (h : Steady s t) :
    Steady s (l.foldl g t) := by
  induction l generalizing t with
  | nil => exact h
  | cons x l ih => exact ih (h.trans (hg t x))

theorem foldl_fst {s : State} {α β : Type} {l : List α} {g : State × β → α → State × β} {q : State × β}
    (hg : ∀ p x, Steady p.1 (g p x).1) (h : Steady s q.1) : Steady s (l.foldl g q).1 := by
  induction l generalizing q with
  | nil => exact h
  | cons x l ih => exact ih (h.trans (hg q x))

theorem foldl_snd {s : State} {α β : Type} {l : List α} {g : β × State → α → β × State} {q : β × State}
    (hg : ∀ p x, Steady p.2 (g p x).2) (h : Steady s q.2) : Steady s (l.foldl g q).2 := by
  induction l generalizing q with
  | nil => exact h
  | cons x l ih => exact ih (h.trans (hg q x))

theorem of_snd {s t : State} {α : Type} {a : α} {p : α × State} (e : p = (a, t)) (h : Steady s p.2) : Steady s t := by
  rwa [e] at h

theorem of_fst {s t : State} {α : Type} {a : α} {p : State × α} (e : p = (t, a)) (h : Steady s p.1) : Steady s t := by
  rwa [e] at h

/-- What was said to the host and recorded leaves all of it. -/
theorem of_said {s t u : State} (k : Said t u) (h : Steady s t) : Steady s u := by
  have e : Steady { u with out := t.out, vxc := t.vxc, net := { u.net with prpSeq := t.net.prpSeq }, ev := t.ev } u := refl u
  rw [show _ = t from k] at e
  exact h.trans e

/-- A state written out in its fields, of which the time base, the junction, the run and the stored area keep what they are to keep. -/
theorem record {s t : State} {out fresh order pow jnc acts dspFrames joinRefused wtx rx fdr nodes sil sched meter accord blot sign sbus
    remSwaps net rtc keys ev vxc nvmc nv} (h : Steady s t)
    (e : ((jnc.regions, jnc.voters, jnc.stamps), (pow.phase, pow.supplyFail, pow.cmdShutdown), nv.upd, nv.profileSel) =
      ((t.jnc.regions, t.jnc.voters, t.jnc.stamps), (t.pow.phase, t.pow.supplyFail, t.pow.cmdShutdown), t.nv.upd,
        t.nv.profileSel)) :
    Steady s ⟨t.pending, out, fresh, t.now, order, pow, jnc, t.tb, acts, dspFrames, joinRefused, wtx, rx, fdr, nodes, sil, sched, meter, accord,
      blot, sign, sbus, remSwaps, net, rtc, t.bk, keys, ev, vxc, nvmc, nv, t.mem⟩ := by
  simp only [Prod.mk.injEq] at e
  obtain ⟨⟨hr, hv, hs⟩, ⟨ha, hb, hc⟩, hu, hq⟩ := e
  exact h.trans ⟨⟨rfl, rfl, rfl, rfl⟩, ⟨hr, hv, hs, rfl⟩, ha, hb, hc, hu, hq⟩

theorem onNv {s₀ s : State} {g : Nv → Nv} (h : Steady s₀ s) (hn : ((g s.nv).upd, (g s.nv).profileSel) = (s.nv.upd, s.nv.profileSel)) :
    Steady s₀ (s.onNv g) := by
  simp only [Prod.mk.injEq] at hn
  exact h.trans ⟨⟨rfl, rfl, rfl, rfl⟩, ⟨rfl, rfl, rfl, rfl⟩, rfl, rfl, rfl, hn⟩

theorem raiseOne {s₀ s : State} {k : Queue} {code src : Nat} {pay : List Nat} (h : Steady s₀ s) : Steady s₀ (s.raiseOne k code src pay) :=
  of_said (raiseOne_said ..) h

theorem totalsTold {s₀ s : State} {e : Intake} (h : Steady s₀ s) : Steady s₀ (s.totalsTold e) := of_said (totalsTold_said ..) h

theorem onEv {s₀ s : State} {g : Intake → Intake} (h : Steady s₀ s) : Steady s₀ (s.onEv g) := h

theorem dropNote {s₀ s : State} {k : Queue} (h : Steady s₀ s) : Steady s₀ (s.dropNote k) := by
  unfold Machine.State.dropNote
  exact ite h (onEv h)

theorem queueEmptied {s₀ s : State} {k : Queue} (h : Steady s₀ s) : Steady s₀ (s.queueEmptied k) := by
  unfold Machine.State.queueEmptied
  exact totalsTold (dropNote (onEv h))

theorem onFeeder {s₀ s : State} {f : Nat} {g : Feeder → Feeder} (h : Steady s₀ s) : Steady s₀ (s.onFeeder f g) := by
  unfold Machine.State.onFeeder
  exact h

theorem onNode {s₀ s : State} {a : Nat} {g : NodeDyn → NodeDyn} (h : Steady s₀ s) : Steady s₀ (s.onNode a g) := by
  unfold Machine.State.onNode
  exact h

theorem onNcfg {s₀ s : State} {a : Nat} {g : NodeCfg → NodeCfg} (h : Steady s₀ s) : Steady s₀ (s.onNcfg a g) := by
  unfold Machine.State.onNcfg
  dsimp only
  exact h

theorem emit {s₀ s : State} {o : Out} (h : Steady s₀ s) : Steady s₀ (s.emit o) := by
  unfold Machine.State.emit
  exact h

theorem draw {s₀ s : State} {m : Nat} (h : Steady s₀ s) : Steady s₀ (s.draw m).2 := by
  unfold Machine.State.draw
  exact h

theorem raise {s₀ s : State} {k : Queue} {code src : Nat} {pay : List Nat} (h : Steady s₀ s) : Steady s₀ (s.raise k code src pay) := by
  unfold Machine.State.raise
  exact totalsTold (raiseOne h)

theorem raiseHw {s₀ s : State} {level block cell code : Nat} {pay : List Nat} (h : Steady s₀ s) : Steady s₀ (s.raiseHw level block cell code pay) := by
  unfold Machine.State.raiseHw
  exact raise h

theorem raiseFw {s₀ s : State} {r : Region} {code : Nat} {pay : List Nat} (h : Steady s₀ s) : Steady s₀ (s.raiseFw r code pay) := by
  unfold Machine.State.raiseFw
  exact raise h

theorem raiseGen {s₀ s : State} {r : Region} {gg addr : Nat} {vals : Payload} (h : Steady s₀ s) : Steady s₀ (s.raiseGen r gg addr vals) := by
  unfold Machine.State.raiseGen
  exact raiseFw h

theorem stuck {s₀ s : State} {addr lsb : Nat} (h : Steady s₀ s) : Steady s₀ (s.stuck addr lsb) := by
  unfold Machine.State.stuck
  dsimp only
  exact raiseHw h

theorem stuckTable {s₀ s : State} {block addr lsb : Nat} (h : Steady s₀ s) : Steady s₀ (s.stuckTable block addr lsb) := by
  unfold Machine.State.stuckTable
  exact raiseHw h

theorem stuckFw {s₀ s : State} {r : Region} {b : Bool} (h : Steady s₀ s) : Steady s₀ (s.stuckFw r b) := by
  unfold Machine.State.stuckFw
  exact ite (raiseFw h) h

theorem stuckIf {s₀ s : State} {b : Bool} {addr lsb : Nat} (h : Steady s₀ s) : Steady s₀ (s.stuckIf b addr lsb) := by
  unfold Machine.State.stuckIf
  exact ite (stuck h) h

theorem onSession {s₀ s : State} {id : Nat} {g : Session → Session} (h : Steady s₀ s) : Steady s₀ (s.onSession id g) := by
  unfold Machine.State.onSession
  dsimp only
  exact h

theorem endSession {s₀ s : State} {id : Nat} {why : EndCause} (h : Steady s₀ s) : Steady s₀ (s.endSession id why) := by
  unfold Machine.State.endSession
  dsimp only
  split
  · exact h
  · exact ite h (raiseGen h)

theorem endAll {s₀ s : State} {why : EndCause} (h : Steady s₀ s) : Steady s₀ (s.endAll why) := by
  unfold Machine.State.endAll
  exact foldl (fun _ _ => endSession (refl _)) h

theorem onNet {s₀ s : State} {g : Net → Net} (h : Steady s₀ s) : Steady s₀ (s.onNet g) := by
  unfold Machine.State.onNet
  exact h

theorem prpNext {s₀ s : State} (h : Steady s₀ s) : Steady s₀ (s.prpNext) := by
  unfold Machine.State.prpNext
  dsimp only
  exact h

theorem sendFrame {s₀ s : State} {k : Frame} (h : Steady s₀ s) : Steady s₀ (s.sendFrame k) := by
  unfold Machine.State.sendFrame
  dsimp only
  exact ite h (prpNext h)

theorem say {s₀ s : State} {usb : Bool} {o : Out} (h : Steady s₀ s) : Steady s₀ (s.say usb o) := by
  unfold Machine.State.say
  exact emit (ite (emit h) (sendFrame h))

theorem sendOn {s₀ s : State} {id : Nat} {o : Session → Nat → Out} (h : Steady s₀ s) : Steady s₀ (s.sendOn id o) := by
  unfold Machine.State.sendOn
  dsimp only
  split
  · exact h
  · exact ite (endSession (say (onSession h))) (say (onSession h))

theorem respond {s₀ s : State} {id : Nat} {r : Resp} (h : Steady s₀ s) : Steady s₀ (s.respond id r) := by
  unfold Machine.State.respond
  dsimp only
  exact sendOn (onSession h)

theorem notify {s₀ s : State} {id cmd : Nat} {final : Bool} {st : Status} {pay : Payload} (h : Steady s₀ s) : Steady s₀
    (s.notify id cmd final st pay) := by
  unfold Machine.State.notify
  dsimp only
  split
  · exact h
  · exact ite
        h
        (ite (sendOn (stuckFw (onSession h))) (ite (sendOn (onSession (stuckFw (onSession h)))) (onSession (stuckFw (onSession h)))))

theorem notifyClass {s₀ s : State} {cls cmd : Nat} {st : Status} {pay : Payload} (h : Steady s₀ s) : Steady s₀ (s.notifyClass cls cmd st pay) := by
  unfold Machine.State.notifyClass
  exact foldl (fun _ _ => notify (refl _)) h

theorem complete {s₀ s : State} {ses seq cmd : Nat} {st : Status} {pay : Payload} (h : Steady s₀ s) : Steady s₀ (s.complete ses seq cmd st pay) := by
  unfold Machine.State.complete
  exact notify h

theorem discard {s₀ s : State} {g : DiscardCnt → DiscardCnt} (h : Steady s₀ s) : Steady s₀ (s.discard g) := by
  unfold Machine.State.discard
  dsimp only
  exact h

theorem discarded {s₀ s : State} {g : DiscardCnt → DiscardCnt} (h : Steady s₀ s) : Steady s₀ (s.discarded g) := by
  unfold Machine.State.discarded
  exact stuckFw (discard h)

theorem seqLimit {s₀ s : State} {r : Req} (h : Steady s₀ s) : Steady s₀ (s.seqLimit r) := by
  unfold Machine.State.seqLimit
  exact ite (endSession h) h

theorem answer {s₀ s : State} {w : Who} {cmd : Nat} {st : Status} {pay : Payload} (h : Steady s₀ s) : Steady s₀ (s.answer w cmd st pay) := by
  unfold Machine.State.answer
  exact respond h

theorem bind {s₀ s : State} {t : Nat} {w : Who} {cmd : Nat} {what : ActWhat} (h : Steady s₀ s) : Steady s₀ (s.bind t w cmd what) := by
  unfold Machine.State.bind
  exact h

theorem discardActs {s₀ s : State} {r : Region} (h : Steady s₀ s) : Steady s₀ (s.discardActs r) := by
  unfold Machine.State.discardActs
  dsimp only
  have hn : (if r = Region.c then s.nv.forgetScenes s.sched.cmds else s.nv).upd = s.nv.upd ∧
      (if r = Region.c then s.nv.forgetScenes s.sched.cmds else s.nv).profileSel = s.nv.profileSel := by
    split
    · exact ⟨rfl, rfl⟩
    · exact ⟨rfl, rfl⟩
  have hscenes {acts sched} : Steady s₀ { s with acts := acts, sched := sched, nv := if r = Region.c then s.nv.forgetScenes s.sched.cmds else s.nv } :=
    h.trans ⟨⟨rfl, rfl, rfl, rfl⟩, ⟨rfl, rfl, rfl, rfl⟩, rfl, rfl, rfl, hn⟩
  exact ite hscenes (foldl (fun _ _ => complete (refl _)) (raiseGen hscenes))

theorem ringDb {s₀ s : State} {r : Region} {bits : BitVec 32} (h : Steady s₀ s) : Steady s₀ (s.ringDb r bits) := by
  unfold Machine.State.ringDb
  dsimp only
  exact ite h (emit h)

theorem reserveNote {s₀ s : State} {kind index action : Nat} (h : Steady s₀ s) : Steady s₀ (s.reserveNote kind index action) := by
  unfold Machine.State.reserveNote
  exact notifyClass h

theorem measureTemp {s₀ s : State} (h : Steady s₀ s) : Steady s₀ (s.measureTemp) := by
  unfold Machine.State.measureTemp
  dsimp only
  exact record (draw (draw h)) rfl

theorem onPulse {s₀ s : State} {o : Nat} {g : Pulse → Pulse} (h : Steady s₀ s) : Steady s₀ (s.onPulse o g) := by
  unfold Machine.State.onPulse
  dsimp only
  exact h

theorem snapBegin {s₀ s : State} {t : Nat} (h : Steady s₀ s) : Steady s₀ (s.snapBegin t) := by
  unfold Machine.State.snapBegin
  dsimp only
  exact h

theorem saveEdge {s₀ s : State} (h : Steady s₀ s) : Steady s₀ (s.saveEdge) := by
  unfold Machine.State.saveEdge
  dsimp only
  exact ite h h

theorem gapRecord {s₀ s : State} {g : Gap} (h : Steady s₀ s) : Steady s₀ (s.gapRecord g) := by
  unfold Machine.State.gapRecord
  exact raiseFw (onNv h rfl)

theorem gapClose {s₀ s : State} {g : GapOpen} (h : Steady s₀ s) : Steady s₀ (s.gapClose g) := by
  unfold Machine.State.gapClose
  dsimp only
  exact gapRecord h

theorem meterEdge {s₀ s : State} (h : Steady s₀ s) : Steady s₀ (s.meterEdge) := by
  unfold Machine.State.meterEdge
  dsimp only
  exact ite
    h
    (saveEdge
      (by
        split
        · exact measureTemp h
        · exact by
              split
              · exact record (gapClose (record (measureTemp h) rfl)) rfl
              · exact record (measureTemp h) rfl))

theorem onTab {s₀ s : State} {g : SilTables → SilTables} (h : Steady s₀ s) : Steady s₀ (s.onTab g) := by
  unfold Machine.State.onTab
  dsimp only
  exact h

theorem onQueue {s₀ s : State} {a : Nat} {g : List QEntry → List QEntry} (h : Steady s₀ s) : Steady s₀ (s.onQueue a g) := by
  unfold Machine.State.onQueue
  exact onFeeder h

theorem emptyQueues {s₀ s : State} (h : Steady s₀ s) : Steady s₀ (s.emptyQueues) := by
  unfold Machine.State.emptyQueues
  exact foldl (fun _ _ => onFeeder (refl _)) h

theorem setLevels {s₀ s : State} {a sent : Nat} {out : Option Nat} (h : Steady s₀ s) : Steady s₀ (s.setLevels a sent out) := by
  unfold Machine.State.setLevels
  dsimp only
  exact record (onTab h) rfl

theorem commandLevel {s₀ s : State} {a : Nat} {level : Option Nat} (h : Steady s₀ s) : Steady s₀ (s.commandLevel a level) := by
  unfold Machine.State.commandLevel
  dsimp only
  exact onQueue
    (by
      split
      · exact setLevels h
      · exact setLevels h)

theorem applySensor {s₀ s : State} {m : SensorMsg} (h : Steady s₀ s) : Steady s₀ (s.applySensor m) := by
  unfold Machine.State.applySensor
  dsimp only
  exact ite (onTab (onTab h)) (onTab h)

theorem sensor {s₀ s : State} {m : SensorMsg} (h : Steady s₀ s) : Steady s₀ (s.sensor m) := by
  unfold Machine.State.sensor
  dsimp only
  exact ite h (applySensor h)

theorem onSil {s₀ s : State} {g : Sillage → Sillage} (h : Steady s₀ s) : Steady s₀ (s.onSil g) := by
  unfold Machine.State.onSil
  exact h

theorem silStopped {s₀ s : State} (h : Steady s₀ s) : Steady s₀ (s.silStopped) := by
  unfold Machine.State.silStopped
  dsimp only
  exact foldl (fun _ _ => answer (refl _)) (emptyQueues (onSil h))

theorem silStart {s₀ s : State} {t : Nat} (h : Steady s₀ s) : Steady s₀ (s.silStart t) := by
  unfold Machine.State.silStart
  dsimp only
  exact onSil (onTab h)

theorem onBlot {s₀ s : State} {g : Blotter → Blotter} (h : Steady s₀ s) : Steady s₀ (s.onBlot g) := by
  unfold Machine.State.onBlot
  exact h

theorem onBstat {s₀ s : State} {a : Nat} {g : BitVec 32 → BitVec 32} (h : Steady s₀ s) : Steady s₀ (s.onBstat a g) := by
  unfold Machine.State.onBstat
  exact onNv (onBlot h) rfl

theorem onReq {s₀ s : State} {id : Nat} {g : PReq → PReq} (h : Steady s₀ s) : Steady s₀ (s.onReq id g) := by
  unfold Machine.State.onReq
  exact onBlot h

theorem dropReq {s₀ s : State} {id : Nat} (h : Steady s₀ s) : Steady s₀ (s.dropReq id) := by
  unfold Machine.State.dropReq
  exact onBlot h

theorem deferReq {s₀ s : State} {id cause : Nat} (h : Steady s₀ s) : Steady s₀ (s.deferReq id cause) := by
  unfold Machine.State.deferReq
  exact ite (dropReq h) (onReq h)

theorem result {s₀ s : State} {x : ResultRec} {quiet : Bool} (h : Steady s₀ s) : Steady s₀ (s.result x quiet) := by
  unfold Machine.State.result
  dsimp only
  exact ite (onBstat (record (onBlot h) rfl)) (notifyClass (onBstat (record (onBlot h) rfl)))

theorem drawInt {s₀ s : State} (h : Steady s₀ s) : Steady s₀ (s.drawInt).2 := by
  unfold Machine.State.drawInt
  dsimp only
  exact h

theorem setModelFrom {s₀ s : State} {t a : Nat} {w : BitVec 64} (h : Steady s₀ s) : Steady s₀ (s.setModelFrom t a w) := by
  unfold Machine.State.setModelFrom
  dsimp only
  exact onNv h rfl

theorem setModel {s₀ s : State} {a : Nat} {w : BitVec 64} (h : Steady s₀ s) : Steady s₀ (s.setModel a w) := by
  unfold Machine.State.setModel
  exact setModelFrom h

theorem freeInfo {s₀ s : State} (h : Steady s₀ s) : Steady s₀ (s.freeInfo).2 := by
  unfold Machine.State.freeInfo
  dsimp only
  exact record (drawInt h) rfl

theorem learn {s₀ s : State} {a hi lo : Nat} {y : Int} {restart : Bool} (h : Steady s₀ s) : Steady s₀ (s.learn a hi lo y restart) := by
  unfold Machine.State.learn
  dsimp only
  refine ite h ?_
  split
  · refine raiseGen (onBlot ?_)
    split
    · exact h
    · exact freeInfo h
  · refine onBlot (ite (stuckTable (onBstat (setModel ?_))) (onBstat (setModel ?_))) <;>
      split
    · exact h
    · exact freeInfo h
    · exact h
    · exact freeInfo h

theorem setFailed {s₀ s : State} {a : Nat} {b : Bool} (h : Steady s₀ s) : Steady s₀ (s.setFailed a b) := by
  unfold Machine.State.setFailed
  exact onBlot (onBstat h)

theorem setSuspect {s₀ s : State} {a : Nat} {b : Bool} (h : Steady s₀ s) : Steady s₀ (s.setSuspect a b) := by
  unfold Machine.State.setSuspect
  exact onBstat h

theorem dropProbe {s₀ s : State} {req : Nat} (h : Steady s₀ s) : Steady s₀ (s.dropProbe req) := by
  unfold Machine.State.dropProbe
  exact onBlot h

theorem finishProbe {s₀ s : State} {p : Probe} {outcome cause ack : Nat} {j : Judged} (h : Steady s₀ s) : Steady s₀
    (s.finishProbe p outcome cause ack j) := by
  unfold Machine.State.finishProbe
  dsimp only
  split
  · exact dropProbe h
  · exact ite
        (dropReq (learn (setSuspect (setFailed (ite (onBstat (dropProbe (result h))) (dropProbe (result h)))))))
        (ite
          (ite
            (dropReq (ite (onBstat (dropProbe (result h))) (dropProbe (result h))))
            (onReq (ite (onBstat (dropProbe (result h))) (dropProbe (result h)))))
          (ite
            (onReq
              (setSuspect
                (ite
                  (ite (onBstat (dropProbe (result h))) (dropProbe (result h)))
                  (dropReq (ite (onBstat (dropProbe (result h))) (dropProbe (result h)))))))
            (ite
              (dropReq (raiseFw (setSuspect (setFailed (ite (onBstat (dropProbe (result h))) (dropProbe (result h)))))))
              (ite
                (dropReq (learn (raiseFw (setSuspect (ite (onBstat (dropProbe (result h))) (dropProbe (result h)))))))
                (dropReq (setSuspect (ite (onBstat (dropProbe (result h))) (dropProbe (result h)))))))))

theorem cutProbe {s₀ s : State} {a k : Nat} (h : Steady s₀ s) : Steady s₀ (s.cutProbe a k) := by
  unfold Machine.State.cutProbe
  split
  · exact finishProbe h
  · exact h

theorem commandProbe {s₀ s : State} {q : PReq} {start c : Nat} (h : Steady s₀ s) : Steady s₀ (s.commandProbe q start c) := by
  unfold Machine.State.commandProbe
  dsimp only
  exact onBlot (onReq (onFeeder (bind h)))

theorem planOne {s₀ s : State} {start id : Nat} (h : Steady s₀ s) : Steady s₀ (s.planOne start id) := by
  unfold Machine.State.planOne
  dsimp only
  split
  · exact h
  · exact ite
        h
        (by
          split
          · exact by
                split
                · exact commandProbe h
                · exact h
          · exact deferReq h)

theorem planProbes {s₀ s : State} (h : Steady s₀ s) : Steady s₀ (s.planProbes) := by
  unfold Machine.State.planProbes
  dsimp only
  exact foldl (fun _ _ => planOne (refl _)) h

theorem withdrawProbes {s₀ s : State} (h : Steady s₀ s) : Steady s₀ (s.withdrawProbes) := by
  unfold Machine.State.withdrawProbes
  dsimp only
  exact foldl (fun _ _ => ite (deferReq (dropProbe (onBlot (record (onFeeder (refl _)) rfl)))) (refl _)) h

theorem probeStart {s₀ s : State} {a c delta start req : Nat} (h : Steady s₀ s) : Steady s₀ (s.probeStart a c delta start req) := by
  unfold Machine.State.probeStart
  dsimp only
  exact ite (onFeeder (onBlot h)) (onNode (onFeeder (onBlot h)))

theorem publishSnap {s₀ s : State} (h : Steady s₀ s) : Steady s₀ (s.publishSnap) := by
  unfold Machine.State.publishSnap
  dsimp only
  exact ringDb h

theorem residualNote {s₀ s : State} {x : Nat} {on : Bool} {mean : Int} (h : Steady s₀ s) : Steady s₀ (s.residualNote x on mean) := by
  unfold Machine.State.residualNote
  dsimp only
  exact notifyClass (raiseGen h)

theorem accSnapBegin {s₀ s : State} {t : Nat} (h : Steady s₀ s) : Steady s₀ (s.accSnapBegin t) := by
  unfold Machine.State.accSnapBegin
  dsimp only
  exact h

theorem restoreTotals {s₀ s : State} {module : Bool} (h : Steady s₀ s) : Steady s₀ (s.restoreTotals module) := by
  unfold Machine.State.restoreTotals
  dsimp only
  split
  · exact h
  · exact ite h (raiseGen h)

theorem loadD {s₀ s : State} (h : Steady s₀ s) : Steady s₀ (s.loadD) := by
  unfold Machine.State.loadD
  dsimp only
  exact h

theorem modelInForce {s₀ s : State} {t first : Nat} {es : List (BitVec 64)} (h : Steady s₀ s) : Steady s₀ (s.modelInForce t first es) := by
  unfold Machine.State.modelInForce
  exact foldl (fun _ _ => onBlot (setModelFrom (refl _))) h

theorem halfOpen {s₀ s : State} {r : Req} {priv : BitVec 16} {serial nh epk hostPub : Nat} (h : Steady s₀ s) : Steady s₀
    (s.halfOpen r priv serial nh epk hostPub) := by
  unfold Machine.State.halfOpen
  dsimp only
  exact say (record (draw (draw (draw (draw h)))) rfl)

theorem setSlot {s₀ s : State} {n : Nat} {k : Slot} (h : Steady s₀ s) : Steady s₀ (s.setSlot n k) := by
  unfold Machine.State.setSlot
  dsimp only
  exact record (onNv h rfl) rfl

theorem setTwin {s₀ s : State} {n : Nat} {attr : BitVec 64} {key : Nat} (h : Steady s₀ s) : Steady s₀ (s.setTwin n attr key).1 := by
  unfold Machine.State.setTwin
  dsimp only
  exact h

theorem dropTwin {s₀ s : State} {n : Nat} (h : Steady s₀ s) : Steady s₀ (s.dropTwin n) := by
  unfold Machine.State.dropTwin
  dsimp only
  exact h

theorem activate {s₀ s : State} {n rw gen key : Nat} (h : Steady s₀ s) : Steady s₀ (s.activate n rw gen key) := by
  unfold Machine.State.activate
  dsimp only
  exact setSlot h

theorem rolloverCommit {s₀ s : State} {f : Nat} (h : Steady s₀ s) : Steady s₀ (s.rolloverCommit f) := by
  unfold Machine.State.rolloverCommit
  dsimp only
  split
  · exact h
  · exact ite h (complete (raiseGen (onFeeder (record (onNv (dropTwin (activate h)) rfl) rfl))))

theorem rolloversPassed {s₀ s : State} (h : Steady s₀ s) : Steady s₀ (s.rolloversPassed) := by
  unfold Machine.State.rolloversPassed
  exact foldl
    (fun _ _ => by
      split
      · exact ite (rolloverCommit (refl _)) (refl _)
      · exact refl _) h

theorem tamperRecord {s₀ s : State} {item resp : Nat} (h : Steady s₀ s) : Steady s₀ (s.tamperRecord item resp) := by
  unfold Machine.State.tamperRecord
  exact raiseHw h

theorem tamperCount {s₀ s : State} (h : Steady s₀ s) : Steady s₀ (s.tamperCount) := by
  unfold Machine.State.tamperCount
  dsimp only
  exact stuckIf h

theorem treatTamper {s₀ s : State} {input item : Nat} (h : Steady s₀ s) : Steady s₀ (s.treatTamper input item) := by
  unfold Machine.State.treatTamper
  dsimp only
  exact ite (onNv (tamperRecord h) rfl) (tamperRecord h)

theorem eventNote {s₀ s : State} {w : BitVec 512} (h : Steady s₀ s) : Steady s₀ (s.eventNote w) := by
  unfold Machine.State.eventNote
  exact foldl (fun _ _ => notify (refl _)) h

theorem writeRec {s₀ s : State} {x : EvEntry} {circ : Bool} (h : Steady s₀ s) : Steady s₀ (s.writeRec x circ) := by
  unfold Machine.State.writeRec
  dsimp only
  refine eventNote (record ?_ rfl)
  exact ite (record h rfl) (record h rfl)

theorem nodeNote {s₀ s : State} {a eui kind dat : Nat} (h : Steady s₀ s) : Steady s₀ (s.nodeNote a eui kind dat) := by
  unfold Machine.State.nodeNote
  exact notifyClass h

theorem onReg {s₀ s : State} {eui : Nat} {g : Reg → Reg} (h : Steady s₀ s) : Steady s₀ (s.onReg eui g) := by
  unfold Machine.State.onReg
  exact onNv h rfl

theorem freeAddr {s₀ s : State} {a : Nat} (h : Steady s₀ s) : Steady s₀ (s.freeAddr a) := by
  unfold Machine.State.freeAddr
  dsimp only
  exact onNv (onFeeder (onNode (onQueue (sensor h)))) rfl

theorem addBg {s₀ s : State} {f : Nat} {i : Item} {joinCfg : Bool} (h : Steady s₀ s) : Steady s₀ (s.addBg f i joinCfg) := by
  unfold Machine.State.addBg
  dsimp only
  exact h

theorem sendCfg {s₀ s : State} {a : Nat} (h : Steady s₀ s) : Steady s₀ (s.sendCfg a) := by
  unfold Machine.State.sendCfg
  dsimp only
  exact foldl (fun _ _ => addBg (refl _)) h

/-- What a join takes with it from the node's old address. -/
theorem moveNode {s₀ s : State} {o : Option Nat} {a eui : Nat} {again : Bool} (h : Steady s₀ s) : Steady s₀ (match o with
    | some old =>
      if again then s
      else (((((s.freeAddr old).onNcfg old (fun _ => {})).onNcfg a (fun _ => { s.ncfg old with groups := [], scenes := [] })).raiseGen .c 0x04 0
        [(old, 2), (a, 2)]).nodeNote old eui 1 0)
    | none => s) := by
  split
  · exact ite h (nodeNote (raiseGen (onNcfg (onNcfg (freeAddr h)))))
  · exact h

theorem completeJoin {s₀ s : State} {f : Nat} {q : JoinKey} (h : Steady s₀ s) : Steady s₀ (s.completeJoin f q) := by
  unfold Machine.State.completeJoin
  dsimp only
  split
  · exact h
  · refine ite (onFeeder (onNode ?_)) ?_
    all_goals refine sendCfg (ite ?_ (nodeNote ?_))
    all_goals refine ite (ite (setModel (onBlot ?_)) (onNv (onBlot ?_) rfl)) ?_
    all_goals exact ite (onReg (moveNode h)) (onNode (onReg (moveNode h)))

theorem takeLevel {s₀ s : State} {a l k : Nat} (h : Steady s₀ s) : Steady s₀ (s.takeLevel a l k) := by
  unfold Machine.State.takeLevel
  exact cutProbe (onNode h)

theorem recordsEffect {s₀ s : State} {k : Nat} (h : Steady s₀ s) : Steady s₀ (s.recordsEffect k) := by
  unfold Machine.State.recordsEffect
  exact foldl (fun _ _ => takeLevel (onNode (refl _))) h

theorem dropCmd {s₀ s : State} {id : Nat} (h : Steady s₀ s) : Steady s₀ (s.dropCmd id) := by
  unfold Machine.State.dropCmd
  exact foldl (fun _ _ => onFeeder (refl _)) h

theorem endProbe {s₀ s : State} {a k : Nat} (h : Steady s₀ s) : Steady s₀ (s.endProbe a k) := by
  unfold Machine.State.endProbe
  exact cutProbe (onNode h)

theorem memberLevel {s₀ s : State} {a l k id : Nat} (h : Steady s₀ s) : Steady s₀ (s.memberLevel a l k id) := by
  unfold Machine.State.memberLevel
  dsimp only
  exact ite h (ite (onNode h) (ite (takeLevel (commandLevel (onNode h))) (endProbe (commandLevel (onNode h)))))

theorem groupEffect {s₀ s : State} {id : Nat} {members : List Nat} {l k : Nat} (h : Steady s₀ s) : Steady s₀ (s.groupEffect id members l k) := by
  unfold Machine.State.groupEffect
  exact dropCmd (foldl (fun _ _ => memberLevel (refl _)) h)

theorem sceneEffect {s₀ s : State} {id : Nat} {members : List Nat} {scene k : Nat} (h : Steady s₀ s) : Steady s₀
    (s.sceneEffect id members scene k) := by
  unfold Machine.State.sceneEffect
  dsimp only
  exact dropCmd (foldl (fun _ _ => ite (ite (onNode (refl _)) (refl _)) (memberLevel (refl _))) h)

theorem settleFrame {s₀ s : State} {f : Nat} (h : Steady s₀ s) : Steady s₀ (s.settleFrame f) := by
  unfold Machine.State.settleFrame
  dsimp only
  split
  · exact by
        split
        · exact ite (onFeeder (completeJoin (onFeeder h))) (onFeeder h)
        · exact onFeeder h
  · exact onFeeder h

theorem updNote {s₀ s : State} {comp done total : Nat} (h : Steady s₀ s) : Steady s₀ (s.updNote comp done total) := by
  unfold Machine.State.updNote
  dsimp only
  exact notifyClass h

theorem onWtx {s₀ s : State} {g : StageBank → StageBank} (h : Steady s₀ s) : Steady s₀ (s.onWtx g) := by
  unfold Machine.State.onWtx
  exact h

theorem onRx {s₀ s : State} {f : Nat} {g : RxPath → RxPath} (h : Steady s₀ s) : Steady s₀ (s.onRx f g) := by
  unfold Machine.State.onRx
  exact h

theorem connect {s₀ s : State} {f : Nat} {m : Option Nat} (h : Steady s₀ s) : Steady s₀ (s.connect f m) := by
  unfold Machine.State.connect
  exact onWtx h

theorem applySet {s₀ s : State} {f : Nat} (h : Steady s₀ s) : Steady s₀ (s.applySet f) := by
  unfold Machine.State.applySet
  dsimp only
  split
  · exact h
  · exact ite
        (reserveNote (onRx (onWtx (connect (onWtx h)))))
        (ite
          (reserveNote
            (by
              split
              · exact reserveNote (onWtx (connect (onWtx h)))
              · exact onWtx (connect (onWtx h))))
          (onWtx (onWtx h)))

theorem feederEdge {s₀ s : State} {f : Nat} (h : Steady s₀ s) : Steady s₀ (s.feederEdge f) := by
  unfold Machine.State.feederEdge
  dsimp only
  exact ite
    (onFeeder (onFeeder (onFeeder (ite (ite (applySet h) h) (applySet (ite (applySet h) h))))))
    (foldl
      (fun _ _ => ite (onNode (refl _)) (refl _))
      (onFeeder (settleFrame (onFeeder (onFeeder (ite (ite (applySet h) h) (applySet (ite (applySet h) h))))))))

theorem setOvr {s₀ s : State} {a v : Nat} (h : Steady s₀ s) : Steady s₀ (s.setOvr a v) := by
  unfold Machine.State.setOvr
  exact onTab h

theorem overrideWrite {s₀ s : State} {ms : List Nat} {level : Option Nat} (h : Steady s₀ s) : Steady s₀ (s.overrideWrite ms level) := by
  unfold Machine.State.overrideWrite
  exact foldl (fun _ _ => setOvr (refl _)) h

theorem overrideKeep {s₀ s : State} {ms : List Nat} {level : Option Nat} {endHcn order : Nat} (h : Steady s₀ s) : Steady s₀
    (s.overrideKeep ms level endHcn order) := by
  unfold Machine.State.overrideKeep
  exact foldl (fun _ _ => onNv (refl _) rfl) h

theorem overridesOver {s₀ s : State} (h : Steady s₀ s) : Steady s₀ (s.overridesOver) := by
  unfold Machine.State.overridesOver
  exact onNv h rfl

theorem overridesEnd {s₀ s : State} (h : Steady s₀ s) : Steady s₀ (s.overridesEnd) := by
  unfold Machine.State.overridesEnd
  dsimp only
  exact foldl (fun _ _ => setOvr (refl _)) h

theorem writeLimits {s₀ s : State} {c0 : Option Nat} (h : Steady s₀ s) : Steady s₀ (s.writeLimits c0) := by
  unfold Machine.State.writeLimits
  dsimp only
  exact onTab h

theorem bindLimits {s₀ s : State} (h : Steady s₀ s) : Steady s₀ (s.bindLimits) := by
  unfold Machine.State.bindLimits
  dsimp only
  exact h

theorem onSched {s₀ s : State} {g : Sched → Sched} (h : Steady s₀ s) : Steady s₀ (s.onSched g) := by
  unfold Machine.State.onSched
  exact h

theorem runScene {s₀ s : State} {g i day t : Nat} {w : BitVec 64} (h : Steady s₀ s) : Steady s₀ (s.runScene g i day t w).1 := by
  unfold Machine.State.runScene
  exact ite_fst h (record (foldl (fun _ _ => onFeeder (refl _)) h) rfl)

theorem finalOne {s₀ s : State} {g i day sec : Nat} (h : Steady s₀ s) : Steady s₀ (s.finalOne g i day sec).1 := by
  unfold Machine.State.finalOne
  exact ite_fst (runScene (ite (onSched h) h)) (ite (onSched h) h)

theorem convertOne {s₀ s : State} {g i day : Nat} {r : SchedRec} {w : BitVec 64} (h : Steady s₀ s) : Steady s₀ (s.convertOne g i day r w).1 := by
  unfold Machine.State.convertOne
  refine ite_fst h ?_
  split
  · exact ite h (raiseGen (onNv h rfl))
  · exact ite_fst h (ite_fst h (ite_fst (finalOne h) (onSched h)))

theorem convertDay {s₀ s : State} {day : Nat} (h : Steady s₀ s) : Steady s₀ (s.convertDay day).1 := by
  unfold Machine.State.convertDay
  exact foldl_fst (fun _ _ => foldl_fst (fun _ _ => convertOne (refl _)) (refl _)) h

theorem convFailed {s₀ s : State} {day n : Nat} (h : Steady s₀ s) : Steady s₀ (s.convFailed day n) := by
  unfold Machine.State.convFailed
  exact ite h (notifyClass (raiseGen h))

theorem convert {s₀ s : State} {midnight : Bool} (h : Steady s₀ s) : Steady s₀ (s.convert midnight) := by
  unfold Machine.State.convert
  dsimp only
  exact ite (convFailed (convertDay h)) (convFailed (convertDay (convertDay h)))

theorem trigger {s₀ s : State} (h : Steady s₀ s) : Steady s₀ (s.trigger) := by
  unfold Machine.State.trigger
  dsimp only
  exact ite h (ite (writeLimits h) (ite (bindLimits h) (convert (onSched (bindLimits h)))))

theorem timeInvalid {s₀ s : State} (h : Steady s₀ s) : Steady s₀ (s.timeInvalid) := by
  unfold Machine.State.timeInvalid
  dsimp only
  exact convFailed (raiseGen (onSched (bindLimits h)))

theorem schedEdge {s₀ s : State} (h : Steady s₀ s) : Steady s₀ (s.schedEdge) := by
  unfold Machine.State.schedEdge
  exact onSched h

theorem schedTriggers {s₀ s : State} (h : Steady s₀ s) : Steady s₀ (s.schedTriggers) := by
  unfold Machine.State.schedTriggers
  dsimp only
  exact ite
    (ite (timeInvalid (schedEdge h)) (schedEdge h))
    (ite (trigger (raiseGen (schedEdge h))) (ite (trigger (schedEdge h)) (ite (convert (schedEdge h)) (schedEdge h))))

theorem limitsDue {s₀ s : State} (h : Steady s₀ s) : Steady s₀ (s.limitsDue) := by
  unfold Machine.State.limitsDue
  dsimp only
  exact onSched (ite (foldl (fun _ _ => writeLimits (refl _)) h) (writeLimits (foldl (fun _ _ => writeLimits (refl _)) h)))

theorem schedResume {s₀ s : State} (h : Steady s₀ s) : Steady s₀ (s.schedResume) := by
  unfold Machine.State.schedResume
  dsimp only
  exact ite
    (convert (schedEdge (ite (raiseGen (writeLimits (onTab (onSched h)))) (writeLimits (onTab (onSched h))))))
    (schedEdge (ite (raiseGen (writeLimits (onTab (onSched h)))) (writeLimits (onTab (onSched h)))))

theorem rtcReject {s₀ s : State} {cause : Nat} (h : Steady s₀ s) : Steady s₀ (s.rtcReject cause) := by
  unfold Machine.State.rtcReject
  dsimp only
  exact stuckIf h

theorem onSign {s₀ s : State} {g : Sign → Sign} (h : Steady s₀ s) : Steady s₀ (s.onSign g) := by
  unfold Machine.State.onSign
  exact h

theorem signStart {s₀ s : State} (h : Steady s₀ s) : Steady s₀ (s.signStart) := by
  unfold Machine.State.signStart
  dsimp only
  exact onSign h

theorem signEdge {s₀ s : State} (h : Steady s₀ s) : Steady s₀ (s.signEdge) := by
  unfold Machine.State.signEdge
  exact onSign h

theorem swapLate {s₀ s : State} (h : Steady s₀ s) : Steady s₀ (s.swapLate) := by
  unfold Machine.State.swapLate
  exact h

theorem swapAction {s₀ s : State} {ses seq : Nat} (h : Steady s₀ s) : Steady s₀ (s.swapAction ses seq) := by
  unfold Machine.State.swapAction
  dsimp only
  exact complete h

theorem resetC {s₀ s : State} (h : Steady s₀ s) : Steady s₀ (s.resetC) := by
  unfold Machine.State.resetC
  dsimp only
  exact foldl (fun _ _ => onNode (refl _)) (foldl (fun _ _ => onFeeder (refl _)) (record (discardActs h) rfl))

theorem loseWindows {s₀ s : State} (h : Steady s₀ s) : Steady s₀ s.loseWindows := by
  unfold Machine.State.loseWindows
  exact onBlot (foldl (fun _ _ => ite (dropReq (refl _)) (onReq (refl _))) h)

theorem resetD {s₀ s : State} (h : Steady s₀ s) : Steady s₀ (s.resetD) := by
  unfold Machine.State.resetD
  dsimp only
  exact record (loseWindows (discardActs h)) rfl

theorem resetM {s₀ s : State} (h : Steady s₀ s) : Steady s₀ s.resetM := by
  unfold Machine.State.resetM
  exact record (discardActs (endAll h)) rfl

theorem loadGraph {s₀ s : State} (h : Steady s₀ s) : Steady s₀ (s.loadGraph) := by
  unfold Machine.State.loadGraph
  dsimp only
  split
  · exact onSil h
  · exact h

theorem loadOverrides {s₀ s : State} (h : Steady s₀ s) : Steady s₀ s.loadOverrides := by
  unfold Machine.State.loadOverrides
  refine foldl (fun u e => ?_) h
  split
  · exact setOvr (refl u)
  · exact refl u

theorem loadFallback {s₀ s : State} (h : Steady s₀ s) : Steady s₀ (s.loadFallback) := by
  unfold Machine.State.loadFallback
  dsimp only
  exact foldl (fun _ _ => onNode (setLevels (refl _))) (foldl (fun _ _ => setLevels (refl _)) h)

theorem loadSent {s₀ s : State} (h : Steady s₀ s) : Steady s₀ (s.loadSent) := by
  unfold Machine.State.loadSent
  split
  · exact h
  · exact foldl (fun _ _ => ite (setLevels (refl _)) (refl _)) h

theorem loadBg {s₀ s : State} (h : Steady s₀ s) : Steady s₀ (s.loadBg) := by
  unfold Machine.State.loadBg
  exact onNv h rfl

theorem rollTwins {s₀ s : State} (h : Steady s₀ s) : Steady s₀ (s.rollTwins) := by
  unfold Machine.State.rollTwins
  exact foldl
    (fun _ _ => by
      split
      · exact refl _
      · exact ite (setTwin (refl _)) (refl _)) h

theorem loadRolls {s₀ s : State} (h : Steady s₀ s) : Steady s₀ (s.loadRolls) := by
  unfold Machine.State.loadRolls
  dsimp only
  exact foldl
    (fun _ _ => by
      split
      · exact refl _
      · exact onFeeder (refl _)) (ite (rollTwins h) h)

theorem loadRR {s₀ s : State} (h : Steady s₀ s) : Steady s₀ (s.loadRR) := by
  unfold Machine.State.loadRR
  dsimp only
  exact ite h (foldl (fun _ _ => onFeeder (refl _)) h)

theorem loadC {s₀ s : State} (h : Steady s₀ s) : Steady s₀ (s.loadC) := by
  unfold Machine.State.loadC
  dsimp only
  exact loadRR (loadRolls (loadBg (loadOverrides (schedResume (record (onTab (loadGraph h)) rfl)))))

theorem blotLost {s₀ s : State} (h : Steady s₀ s) : Steady s₀ (s.blotLost) := by
  unfold Machine.State.blotLost
  dsimp only
  exact ite
    (onBlot (foldl (fun _ _ => finishProbe (refl _)) h))
    (foldl (fun _ _ => notify (refl _)) (raiseGen (onBlot (foldl (fun _ _ => finishProbe (refl _)) h))))

theorem alarmsClear {s₀ s : State} (h : Steady s₀ s) : Steady s₀ (s.alarmsClear) := by
  unfold Machine.State.alarmsClear
  exact foldl (fun _ _ => ite (residualNote (refl _)) (refl _)) h

theorem signOn {s₀ s : State} (h : Steady s₀ s) : Steady s₀ (s.signOn) := by
  unfold Machine.State.signOn
  dsimp only
  exact ite h (record (signStart h) rfl)

theorem lostRecords {s₀ s : State} (h : Steady s₀ s) : Steady s₀ (s.lostRecords) := by
  unfold Machine.State.lostRecords
  dsimp only
  exact record (foldl (fun _ _ => ite (refl _) (raiseGen (refl _))) h) rfl

theorem raiseTb {s₀ s : State} {code : Nat} {pay : List Nat} (h : Steady s₀ s) : Steady s₀ (s.raiseTb code pay) := by
  unfold Machine.State.raiseTb
  exact raiseHw h

theorem snapsDropped {s₀ s : State} {gone : List Action} (h : Steady s₀ s) : Steady s₀ (s.snapsDropped gone) := by
  unfold Machine.State.snapsDropped
  dsimp only
  exact ite (record (ite h h) rfl) (ite h h)

theorem dropAct {s₀ s : State} {a : Action} (h : Steady s₀ s) : Steady s₀ (s.dropAct a) := by
  unfold Machine.State.dropAct
  exact snapsDropped (complete (raiseGen h))

theorem takeActs {s₀ s : State} {p : Action → Bool} (h : Steady s₀ s) : Steady s₀ (s.takeActs p).2 := by
  unfold Machine.State.takeActs
  dsimp only
  exact h

theorem dropDue {s₀ s : State} (h : Steady s₀ s) : Steady s₀ (s.dropDue) := by
  unfold Machine.State.dropDue
  dsimp only
  exact foldl (fun _ _ => ite (refl _) (foldl (fun _ _ => complete (refl _)) (snapsDropped (raiseGen (refl _))))) (takeActs h)

theorem overridesDue {s₀ s : State} (h : Steady s₀ s) : Steady s₀ (s.overridesDue) := by
  unfold Machine.State.overridesDue
  exact foldl
    (fun _ _ => by
      split
      · exact overrideWrite (refl _)
      · exact refl _) h

theorem limitWork {s₀ s : State} (h : Steady s₀ s) : Steady s₀ (s.limitWork) := by
  unfold Machine.State.limitWork
  exact limitsDue (overridesOver (overridesEnd (overridesDue h)))

theorem limitEdge {s₀ s : State} (h : Steady s₀ s) : Steady s₀ (s.limitEdge) := by
  unfold Machine.State.limitEdge
  exact ite (onSil h) (limitWork h)

theorem retiredKeys {s₀ s : State} (h : Steady s₀ s) : Steady s₀ (s.retiredKeys) := by
  unfold Machine.State.retiredKeys
  dsimp only
  exact foldl
    (fun _ _ => by
      split
      · exact ite (refl _) (refl _)
      · exact refl _) h

theorem feedersEdge {s₀ s : State} (h : Steady s₀ s) : Steady s₀ (s.feedersEdge) := by
  unfold Machine.State.feedersEdge
  dsimp only
  exact foldl (fun _ _ => ite (feederEdge (refl _)) (onFeeder (feederEdge (refl _)))) h

theorem edgeC {s₀ s : State} (h : Steady s₀ s) : Steady s₀ (s.edgeC) := by
  unfold Machine.State.edgeC
  dsimp only
  exact ite
    h
    (ite (publishSnap (ite (onSil h) h)) (publishSnap (planProbes (withdrawProbes (limitEdge (schedTriggers (ite (onSil h) h)))))))

theorem edgeM {s₀ s : State} (h : Steady s₀ s) : Steady s₀ (s.edgeM) := by
  unfold Machine.State.edgeM
  exact ite (swapLate (signEdge h)) h

end Steady

/-! ## The actions of an edge, which may change the nominal voltages -/

/-- `t` has of `s` what an operation leaves, but for the nominal voltages, which a change of the metering configuration takes with it. -/
def Renominated (s t : State) : Prop := ∃ a b, Steady { s with tb := { s.tb with vnomA := a, vnomB := b } } t

namespace Renominated

theorem of_steady {s t : State} (h : Steady s t) : Renominated s t := ⟨s.tb.vnomA, s.tb.vnomB, h⟩

theorem trans {s t u : State} (h : Renominated s t) (k : Renominated t u) : Renominated s u := by
  obtain ⟨a, b, ⟨h1, h2, h3, h4⟩, h5, h6⟩ := h
  obtain ⟨c, d, ⟨k1, k2, k3, k4⟩, k5, k6⟩ := k
  have htb : u.tb = { s.tb with vnomA := c, vnomB := d } := by
    rw [k4]
    change { t.tb with vnomA := c, vnomB := d } = _
    rw [h4]
  refine ⟨c, d, ⟨k1.trans h1, k2.trans h2, k3.trans h3, htb⟩, ?_⟩
  exact (Steady.trans (s := { s with tb := t.tb }) (t := { t with tb := t.tb }) ⟨⟨h1, h2, h3, rfl⟩, h5, h6⟩
    (u := { u with tb := t.tb }) ⟨⟨k1, k2, k3, rfl⟩, k5, k6⟩).2

theorem foldl {s t : State} {α : Type} {l : List α} {g : State → α → State} (hg : ∀ u x, Renominated u (g u x)) (h : Renominated s t) :
    Renominated s (l.foldl g t) := by
  induction l generalizing t with
  | nil => exact h
  | cons x l ih => exact ih (h.trans (hg t x))

theorem cfgInForce (s : State) (t : Nat) (c : MeterCfg) : Renominated s (s.cfgInForce t c) := by
  refine ⟨c.vnomA, c.vnomB, ?_⟩
  unfold State.cfgInForce
  exact .foldl (fun u _ => .ite (.refl u) (.raiseGen (.onPulse (.refl u)))) (.record (.refl _) rfl)

theorem complete {s t : State} {ses seq cmd : Nat} {st : Status} {pay : Payload} (h : Renominated s t) : Renominated s (t.complete ses seq cmd st pay) :=
  h.trans (of_steady (.complete (.refl t)))

theorem runAct (s : State) (a : Action) : Renominated s (s.runAct a) := by
  unfold State.runAct
  dsimp only
  split
  · exact of_steady (.complete (.silStart (.refl s)))
  · exact complete (cfgInForce s ..)
  · exact complete (cfgInForce s ..)
  · exact complete (cfgInForce s ..)
  · exact of_steady (.complete (.modelInForce (.refl s)))
  · exact of_steady (.complete (.groupEffect (.refl s)))
  · exact of_steady (.complete (.sceneEffect (.refl s)))
  · exact of_steady (.complete (.dropCmd (.refl s)))
  · exact of_steady (.complete (.overrideKeep (.refl s)))
  · exact of_steady (.probeStart (.refl s))
  · exact of_steady (.complete (.snapBegin (.refl s)))
  · exact of_steady (.complete (.accSnapBegin (.refl s)))
  · exact of_steady (.swapAction (.refl s))

theorem runActs (s : State) (p : Action → Bool) : Renominated s (s.runActs p) := by
  have hact (u : State) (q : Prop) [Decidable q] (a : Action) : Renominated u (if q then u.dropAct a else u.runAct a) := by
    split
    · exact of_steady (.dropAct (.refl u))
    · exact runAct u a
  unfold State.runActs
  exact foldl (fun u a => hact u _ a) (of_steady (.takeActs (.refl s)))

theorem runClass (s : State) (cls : Nat) : Renominated s (s.runClass cls) := runActs s _

end Renominated

end Sys2Proof.Machine
end

