-- ==== Sys2Proof/Proofs/EdgeIssue.lean ====
section
/-!
PROOFS. O54: an edge issues its HCN, takes its time and writes its stamp. `Issued s k fl t` says it of a state on its way through the edge; the
first step of the edge brings it about, and no later one takes it back.
-/
namespace Sys2Proof.Machine
open Sys2Proof

/-! ## The stamp and the flags of an edge -/

theorem fld_newStamp {s : State} {len : Nat} (h : s.tb.hcn < 2 ^ 48) : fld (s.newStamp len) 0 48 = s.tb.hcn := by
  simp only [State.newStamp, fld, pack, BitVec.toNat_ofNat, Nat.shiftLeft_eq, Nat.shiftRight_eq_div_pow]
  generalize s.tb.flags.toNat = f
  omega

theorem fld_edgeFlags {a b c d e fl : Nat} (h : fl < 32) :
    fld (BitVec.ofNat 10 (pack [(9, 1, a), (8, 1, b), (7, 1, c), (6, 1, d), (5, 1, e), (0, 5, fl)])) 0 5 = fl := by
  simp only [fld, pack, BitVec.toNat_ofNat, Nat.shiftLeft_eq, Nat.shiftRight_eq_div_pow]
  omega

/-! ## What an edge issues -/

/-- `t` has the HCN `k` issued at the time of `s`, with the flags `fl` and the stamp of `k`, and else what an edge leaves of `s`. -/
structure Issued (s : State) (k fl : Nat) (t : State) : Prop where
  hcn : t.tb.hcn = k
  lastEdge : t.tb.lastEdge = s.now
  running : t.tb.running = true
  st : t.tb.st = s.tb.st
  flags : fld t.tb.flags 0 5 = fl
  phase : t.pow.phase = .complete
  stamp : fld (tget 0 t.jnc.stamps (k % 1024)) 0 48 = k
  others : ∀ j, j % 1024 ≠ k % 1024 → tget 0 t.jnc.stamps (j % 1024) = tget 0 s.jnc.stamps (j % 1024)
  pending : t.pending = s.pending
  bk : t.bk = s.bk
  stage : t.nv.upd.stage = .idle

namespace Issued

theorem steady {s t u : State} {k fl : Nat} (h : Issued s k fl t) (w : Steady t u) : Issued s k fl u := by
  obtain ⟨⟨hp, -, hb, ht⟩, ⟨-, -, hs, -⟩, hph, -, -, hu, -⟩ := w
  have hcn : u.tb.hcn = t.tb.hcn := congrArg TimeBase.hcn ht
  have hle : u.tb.lastEdge = t.tb.lastEdge := congrArg TimeBase.lastEdge ht
  have hru : u.tb.running = t.tb.running := congrArg TimeBase.running ht
  have hst : u.tb.st = t.tb.st := congrArg TimeBase.st ht
  have hfl : u.tb.flags = t.tb.flags := congrArg TimeBase.flags ht
  refine ⟨hcn.trans h.hcn, hle.trans h.lastEdge, hru.trans h.running, hst.trans h.st, ?_, hph.trans h.phase, ?_, ?_, hp.trans h.pending,
    hb.trans h.bk, ?_⟩
  · rw [hfl]
    exact h.flags
  · rw [hs]
    exact h.stamp
  · rw [hs]
    exact h.others
  · rw [hu]
    exact h.stage

theorem renominated {s t u : State} {k fl : Nat} (h : Issued s k fl t) (w : Renominated t u) : Issued s k fl u := by
  obtain ⟨a, b, hw⟩ := w
  have hn : Issued s k fl { t with tb := { t.tb with vnomA := a, vnomB := b } } :=
    ⟨h.hcn, h.lastEdge, h.running, h.st, h.flags, h.phase, h.stamp, h.others, h.pending, h.bk, h.stage⟩
  exact hn.steady hw

theorem runClass {s t : State} {k fl cls : Nat} (h : Issued s k fl t) : Issued s k fl (t.runClass cls) := h.renominated (.runClass ..)

/-- A change of a voter's mode. -/
theorem onVoter {s t : State} {k fl : Nat} {r : Region} {g : Voter → Voter} (h : Issued s k fl t) : Issued s k fl (t.onVoter r g) :=
  ⟨h.hcn, h.lastEdge, h.running, h.st, h.flags, h.phase, h.stamp, h.others, h.pending, h.bk, h.stage⟩

theorem reserveNote {s t : State} {k fl kind index action : Nat} (h : Issued s k fl t) : Issued s k fl (t.reserveNote kind index action) :=
  h.steady (.reserveNote (.refl t))

theorem voterEdge {s t : State} {k fl : Nat} {r : Region} (h : Issued s k fl t) : Issued s k fl (t.voterEdge r) := by
  unfold State.voterEdge
  dsimp only
  split
  · exact h
  · have hret : Issued s k fl (match (t.jnc.voters.get r).retire, (t.jnc.voters.get r).spare with
        | some pos, some _ =>
          if (t.jnc.voters.get r).mode = VoterMode.triple then
            (t.onVoter r (fun v => { v.exclude pos with retire := none })).reserveNote 0 (4 * regionNo r + pos) 0
          else t.onVoter r (fun v => { v with retire := none })
        | _, _ => t) := by
      split
      · split
        · exact h.onVoter.reserveNote
        · exact h.onVoter
      · exact h
    split
    · exact hret.onVoter.reserveNote
    · exact hret

theorem newHcn {s : State} {k fl : Nat} (hu : s.nv.upd.stage = .idle) (hp : s.pow.phase = .complete) (hk : k < 2 ^ 48) (h0 : k ≠ 0) (hf : fl < 32) :
    Issued s k fl (s.newHcn k fl) := by
  unfold State.newHcn
  dsimp only
  have hstamp (u : State) (len : Nat) (h : u.tb.hcn = k) : u.newStamp len ≠ 0 := by
    intro e
    have h2 := fld_newStamp (s := u) (len := len) (h ▸ hk)
    rw [e, h] at h2
    exact h0 (h2.symm.trans (by simp [fld]))
  refine steady ?_ (.ite (.raiseTb (.refl _)) (.refl _))
  refine ⟨rfl, rfl, rfl, rfl, fld_edgeFlags hf, hp, ?_, fun j hj => ?_, rfl, rfl, hu⟩
  · refine (congrArg (fun w => fld w 0 48) (tget_tset_of_ne (hstamp _ _ rfl))).trans (fld_newStamp hk)
  · refine (congrArg (fun l => tget 0 l (j % 1024)) (if_neg (hstamp _ _ rfl))).trans (tget_tput_ne _ _ _ hj)

theorem updEdge {s t : State} {k fl : Nat} (h : Issued s k fl t) : t.updEdge = t := by
  unfold State.updEdge
  simp [h.stage]

end Issued

/-- Settles O54. -/
theorem everyEdgeStampsItsHalfCycle : Obligations.EveryEdgeStampsItsHalfCycle := by
  unfold Obligations.EveryEdgeStampsItsHalfCycle
  intro s k fl hu hp hk h0 hf
  have h : Issued s k fl (s.edge k fl) := by
    unfold State.edge
    dsimp only
    have hissued : Issued s k fl (s.newHcn k fl) := Issued.newHcn hu hp hk h0 hf
    have hdsp (u : State) : Steady u { u with dspFrames := u.dspFrames - 1 } := .record (.refl u) rfl
    have hvoters := ((((hissued.steady (.retiredKeys (.refl _))).steady (hdsp _)).voterEdge (r := .c)).voterEdge (r := .d)).voterEdge (r := .m)
    have hacts (p : Action → Bool) := ((hvoters.steady (.dropDue (.rolloversPassed (.refl _)))).runClass (cls := 1)).renominated (.runActs _ p)
    rw [(hacts _).updEdge, ite_self, if_neg (by rw [(hacts _).phase]; decide)]
    refine Issued.steady ?_ (.edgeM (.meterEdge (.edgeC (.feedersEdge (.refl _)))))
    exact (((hacts _).runClass.runClass).steady (.recordsEffect (.refl _))).runClass.runClass
  exact ⟨h.hcn, h.lastEdge, h.running, h.st, h.flags, h.phase, h.stamp, h.others, h.pending, h.bk⟩

end Sys2Proof.Machine
end

