-- ==== Sys2Proof/Proofs/CoresAndRegions.lean ====
section
/-!
PROOFS. O52: cores and regions fail safely. What a wiped range of memory reads, the reset of one region by what it leaves (`Steady`), and what the
resumption of a region leaves (`Placed`).
-/
namespace Sys2Proof.Machine
open Sys2Proof

/-! ## Wiped memory -/

theorem Mem.get_wipe_in {m : Mem} {lo hi a : Nat} (h : lo ≤ a ∧ a < hi) (ha : a < 0x10000000) : (m.wipe lo hi).get a = 0 := by
  have hnone : (m.wipe lo hi).bytes.find? (fun c => c.1 == a) = none := by
    refine List.find?_eq_none.mpr fun c hc he => ?_
    have hkey : c.1 = a := eq_of_beq he
    have hout := (List.mem_filter.mp hc).2
    rw [hkey, decide_eq_true h] at hout
    exact Bool.noConfusion hout
  unfold Mem.get
  rw [hnone]
  simp only [memDefault, if_pos ha]
  rfl

theorem Mem.get_wipe_out {m : Mem} {lo hi a : Nat} (h : a < lo ∨ hi ≤ a) : (m.wipe lo hi).get a = m.get a := by
  have hfind : (m.wipe lo hi).bytes.find? (fun c => c.1 == a) = m.bytes.find? (fun c => c.1 == a) := by
    unfold Mem.wipe
    rw [List.find?_filter]
    congr 1
    funext c
    by_cases hc : c.1 = a
    · have hout : ¬ (lo ≤ c.1 ∧ c.1 < hi) := by omega
      simp [hc, hc ▸ hout]
    · simp [hc]
  unfold Mem.get
  rw [hfind]

theorem Mem.get_wipes_out {m : Mem} {l : List (Nat × Nat)} {a : Nat} (h : ∀ e ∈ l, a < e.1 ∨ e.2 ≤ a) :
    (l.foldl (fun m e => m.wipe e.1 e.2) m).get a = m.get a := by
  induction l generalizing m with
  | nil => rfl
  | cons e l ih => exact (ih fun x hx => h x (List.mem_cons_of_mem _ hx)).trans (Mem.get_wipe_out (h e List.mem_cons_self))

/-- What reads 0 reads 0 after any wiping. -/
theorem Mem.get_wipes_zero {m : Mem} {l : List (Nat × Nat)} {a : Nat} (h : m.get a = 0) (ha : a < 0x10000000) :
    (l.foldl (fun m e => m.wipe e.1 e.2) m).get a = 0 := by
  induction l generalizing m with
  | nil => exact h
  | cons e l ih =>
    refine ih ?_
    by_cases hin : e.1 ≤ a ∧ a < e.2
    · exact Mem.get_wipe_in hin ha
    · exact (Mem.get_wipe_out (by omega)).trans h

theorem Mem.get_wipes_in {m : Mem} {l : List (Nat × Nat)} {a : Nat} {e : Nat × Nat} (he : e ∈ l) (h : e.1 ≤ a ∧ a < e.2) (ha : a < 0x10000000) :
    (l.foldl (fun m e => m.wipe e.1 e.2) m).get a = 0 := by
  induction l generalizing m with
  | nil => cases he
  | cons x l ih =>
    obtain rfl | hl := List.mem_cons.mp he
    · exact Mem.get_wipes_zero (m := m.wipe e.1 e.2) (Mem.get_wipe_in h ha) ha
    · exact ih hl

theorem Mem.wipes_poisoned {m : Mem} {l : List (Nat × Nat)} {a : Nat} (h : a ∈ (l.foldl (fun m e => m.wipe e.1 e.2) m).poisoned) : a ∈ m.poisoned := by
  induction l generalizing m with
  | nil => exact h
  | cons e l ih => exact List.mem_of_mem_filter (ih h)

theorem junctionOf_lt {r : Region} {e : Nat × Nat} (h : e ∈ junctionOf r) : e.2 ≤ 0x10000000 := by
  revert e
  cases r <;> decide

theorem sramOf_lt (r : Region) : (sramOf r).2 ≤ 0x10000000 := by cases r <;> decide

theorem wordOf_sramOf {r : Region} {a : Nat} (h : (sramOf r).1 ≤ a ∧ a < (sramOf r).2) : (sramOf r).1 ≤ wordOf a ∧ wordOf a < (sramOf r).2 := by
  have h16 : (sramOf r).1 % 16 = 0 := by cases r <;> decide
  unfold wordOf
  omega

/-! ## What a steady operation leaves, by its field -/

namespace Steady

theorem bk {s u : State} (h : Steady s u) : u.bk = s.bk := h.1.2.2.1
theorem regions {s u : State} (h : Steady s u) : u.jnc.regions = s.jnc.regions := h.2.1.1
theorem voters {s u : State} (h : Steady s u) : u.jnc.voters = s.jnc.voters := h.2.1.2.1
theorem mem {s u : State} (h : Steady s u) : u.mem = s.mem := h.2.1.2.2.2
theorem phase {s u : State} (h : Steady s u) : u.pow.phase = s.pow.phase := h.2.2.1
theorem upd {s u : State} (h : Steady s u) : u.nv.upd = s.nv.upd := h.2.2.2.2.2.1

end Steady

/-! ## The reset of one region -/

/-- What the reset of a region does before it tells of it and lets its region go (01 R31, R43). -/
def State.regionCleared (s : State) (r : Region) : State :=
  { s with
    mem := (junctionOf r).foldl (fun m e => m.wipe e.1 e.2) (s.mem.wipe (sramOf r).1 (sramOf r).2)
    jnc := { s.jnc with
      regions := s.jnc.regions.set r ⟨.load, (bump 15 (s.jnc.regions.get r).restarts).1, s.now⟩
      results := if r = .m then s.jnc.results else []
      resNext := if r = .m then s.jnc.resNext else 0
      voters := s.jnc.voters.set r { s.jnc.voters.get r with mode := .restart, disagree := 0, retire := none }
      dma := s.jnc.dma.set r {} } }

theorem regionReset_steady {s : State} {r : Region} {cause : Nat} (h : s.runs r = true) : Steady (s.regionCleared r) (s.regionReset r cause) := by
  unfold State.regionReset
  rw [if_neg (by simp [h])]
  have hsaid := Steady.raise (k := .chip) (code := 0x0007) (src := srcHw 3 0x00 0xFFF) (pay := [regionNo r, cause])
    (Steady.stuckIf (b := (bump 15 (s.jnc.regions.get r).restarts).2) (addr := wJnc + 0x60) (lsb := 4 * regionNo r)
      (Steady.queueEmptied (k := queueOf r) (Steady.refl (s.regionCleared r))))
  cases r
  case c => exact hsaid.resetC
  case d => exact hsaid.resetD
  case m => exact hsaid.resetM

theorem restartRegion_eq {s : State} {r : Region} {cause : Nat} (hr : s.runs r = true) (ht : s.nv.upd.stage ≠ .trial)
    (hs : s.nv.upd.stage ≠ .switching) : s.restartRegion r cause = s.regionReset r cause := by
  have hst : (s.nv.upd.stage == Stage.switching) = false := beq_false_of_ne hs
  have htr : (s.nv.upd.stage == Stage.trial) = false := beq_false_of_ne ht
  simp only [State.restartRegion, State.trialBoot, hr, hst, htr]
  rfl

theorem PerRegion.get_set_other {α : Type} {p : PerRegion α} {r h : Region} {x : α} (hn : h ≠ r) : (p.set r x).get h = p.get h := by
  revert hn
  cases r <;> cases h <;> simp [PerRegion.set, PerRegion.get]

theorem exec_regionRestart {s : State} {dt : Dt} {g : Region} (hr : s.runs g = true) (ht : s.nv.upd.stage ≠ .trial) (hs : s.nv.upd.stage ≠ .switching) :
    exec (.regionRestart dt g) s = .next ((s.tick dt).regionReset g 0) :=
  congrArg Host.Outcome.next (restartRegion_eq (s := s.tick dt) hr ht hs)

/-- What the reset of a region leaves of memory, the regions and the backup domain. -/
theorem regionReset_spec {t : State} {g : Region} {cause : Nat} (h : t.runs g = true) :
    let u := t.regionReset g cause
    u.jnc.regions.get g = ⟨.load, (bump 15 (t.jnc.regions.get g).restarts).1, t.now⟩ ∧
      (∀ h, h ≠ g → u.jnc.regions.get h = t.jnc.regions.get h) ∧
      (∀ a, (sramOf g).1 ≤ a → a < (sramOf g).2 → u.mem.get a = 0 ∧ u.isPoisoned a = false) ∧
      (∀ e ∈ junctionOf g, ∀ a, e.1 ≤ a → a < e.2 → u.mem.get a = 0) ∧
      (∀ a, (a < (sramOf g).1 ∨ (sramOf g).2 ≤ a) → (∀ e ∈ junctionOf g, a < e.1 ∨ e.2 ≤ a) → u.mem.get a = t.mem.get a) ∧ u.bk = t.bk := by
  intro u
  have hst : Steady (t.regionCleared g) u := regionReset_steady h
  have hreg : u.jnc.regions = t.jnc.regions.set g ⟨.load, (bump 15 (t.jnc.regions.get g).restarts).1, t.now⟩ := hst.regions
  have hmem : u.mem = (junctionOf g).foldl (fun m e => m.wipe e.1 e.2) (t.mem.wipe (sramOf g).1 (sramOf g).2) := hst.mem
  refine ⟨?_, fun h hn => ?_, fun a hlo hhi => ⟨?_, ?_⟩, fun e he a hlo hhi => ?_, fun a hs hj => ?_, hst.bk⟩
  · rw [hreg]
    exact PerRegion.get_set_same ..
  · rw [hreg]
    exact PerRegion.get_set_other hn
  · have ha : a < 0x10000000 := Nat.lt_of_lt_of_le hhi (sramOf_lt g)
    rw [hmem]
    exact Mem.get_wipes_zero (Mem.get_wipe_in ⟨hlo, hhi⟩ ha) ha
  · have hw := wordOf_sramOf ⟨hlo, hhi⟩
    refine eq_false_of_ne_true fun hp => ?_
    have hin : wordOf a ∈ u.mem.poisoned := List.contains_iff_mem.mp hp
    rw [hmem] at hin
    have hout := (List.mem_filter.mp (Mem.wipes_poisoned hin)).2
    rw [decide_eq_true hw] at hout
    exact Bool.noConfusion hout
  · rw [hmem]
    exact Mem.get_wipes_in he ⟨hlo, hhi⟩ (Nat.lt_of_lt_of_le hhi (junctionOf_lt he))
  · rw [hmem]
    exact (Mem.get_wipes_out hj).trans (Mem.get_wipe_out hs)

/-! ## A dissenting member -/

/-- A disagreement counted, before its member is judged (01 R29). -/
def State.disagreed (t : State) (g : Region) : State :=
  (t.onVoter g (fun v => { v with disagree := (bump 255 (t.jnc.voters.get g).disagree).1 })).stuckIf (bump 255 (t.jnc.voters.get g).disagree).2
    (match g with | .c => 0x40100000 | .d => 0x40200000 | .m => 0x40300000) 16

theorem disagreed_said (t : State) (g : Region) :
    Said (t.onVoter g (fun v => { v with disagree := (bump 255 (t.jnc.voters.get g).disagree).1 })) (t.disagreed g) := stuckIf_said ..

theorem exec_voterDisagree_excluded {s : State} {dt : Dt} {g : Region} {p : Nat} (hr : s.runs g = true) (hm : ((s.tick dt).jnc.voters.get g).mode = .triple)
    (hb : bit ((s.tick dt).jnc.voters.get g).members p = true) :
    exec (.voterDisagree dt g p false) s = .next ((((((s.tick dt).disagreed g).onVoter g (fun v => v.exclude p)).wearInc 0 (4 * regionNo g + p)).raise
      (queueOf g) 0x0006 (srcVoter g p) [p, 1]).reserveNote 0 (4 * regionNo g + p) 0) := by
  refine congrArg Host.Outcome.next ((if_neg ?_).trans (if_neg ?_))
  · rw [State.tick_runs, hr, hb]
    simp
  · rw [hm]
    decide

theorem exec_voterDisagree_restart {s : State} {dt : Dt} {g : Region} {p : Nat} {b : Bool} (hr : s.runs g = true)
    (h : ((s.tick dt).jnc.voters.get g).mode ≠ .triple ∨ b = true) :
    exec (.voterDisagree dt g p b) s = .next (((s.tick dt).disagreed g).restartRegion g 0) := by
  refine congrArg Host.Outcome.next ((if_neg ?_).trans (if_pos ?_))
  · rw [State.tick_runs, hr]
    obtain h | rfl := h
    · rw [beq_false_of_ne h]
      exact Bool.false_ne_true
    · simp
  · obtain h | rfl := h
    · rw [bne_iff_ne.mpr h]
      rfl
    · exact Bool.or_true _

theorem exclude_spec {t : State} {g : Region} {p : Nat} :
    let v := t.jnc.voters.get g
    let u := (((((t.disagreed g).onVoter g (fun v => v.exclude p)).wearInc 0 (4 * regionNo g + p)).raise
      (queueOf g) 0x0006 (srcVoter g p) [p, 1]).reserveNote 0 (4 * regionNo g + p) 0)
    u.jnc.voters.get g = { v.exclude p with disagree := (bump 255 v.disagree).1 } ∧ (∀ h, h ≠ g → u.jnc.voters.get h = t.jnc.voters.get h) ∧
      u.mem = t.mem ∧ u.sil = t.sil ∧ u.meter = t.meter := by
  intro v u
  have hd := disagreed_said t g
  have hw : Said (((t.disagreed g).onVoter g (fun v => v.exclude p)).onNv (fun x => { x with wear := tmod 0 x.wear (0 * 64 + (4 * regionNo g + p)) up32 })) u :=
    ((wearInc_said ..).trans (raise_said ..)).trans (notifyClass_said ..)
  have hv : u.jnc.voters = (t.jnc.voters.set g { v with disagree := (bump 255 v.disagree).1 }).set g
      (((t.jnc.voters.set g { v with disagree := (bump 255 v.disagree).1 }).get g).exclude p) := by
    rw [hw.jnc]
    change (t.disagreed g).jnc.voters.set g (((t.disagreed g).jnc.voters.get g).exclude p) = _
    rw [hd.jnc]
    rfl
  rw [PerRegion.get_set_same, PerRegion.set_set] at hv
  refine ⟨?_, fun h hn => ?_, hw.mem.trans hd.mem, hw.sil.trans hd.sil, hw.meter.trans hd.meter⟩
  · rw [hv, PerRegion.get_set_same]
    rfl
  · rw [hv, PerRegion.get_set_other hn]

/-! ## A region resumes -/

/-- What an operation of an update before its switch leaves: the regions, the voters and the phase of the run; and no switch is entered. -/
structure Placed (s t : State) : Prop where
  regions : t.jnc.regions = s.jnc.regions
  voters : t.jnc.voters = s.jnc.voters
  phase : t.pow.phase = s.pow.phase
  stage : s.nv.upd.stage ≠ .switching → t.nv.upd.stage ≠ .switching

namespace Placed

theorem refl (s : State) : Placed s s := ⟨rfl, rfl, rfl, id⟩

theorem trans {s t u : State} (h : Placed s t) (k : Placed t u) : Placed s u :=
  ⟨k.regions.trans h.regions, k.voters.trans h.voters, k.phase.trans h.phase, k.stage ∘ h.stage⟩

theorem steady {s t u : State} (h : Placed s t) (k : Steady t u) : Placed s u :=
  h.trans ⟨k.regions, k.voters, k.phase, fun hs => k.upd ▸ hs⟩

theorem foldl {s t : State} {α : Type} {l : List α} {g : State → α → State} (hg : ∀ u x, Placed u (g u x)) (h : Placed s t) :
    Placed s (l.foldl g t) := by
  induction l generalizing t with
  | nil => exact h
  | cons x l ih => exact ih (h.trans (hg t x))

theorem onUpd {s t : State} {g : Decant → Decant} (h : Placed s t) (hg : t.nv.upd.stage ≠ .switching → (g t.nv.upd).stage ≠ .switching) :
    Placed s (t.onUpd g) := h.trans ⟨rfl, rfl, rfl, hg⟩

/-- A change of the stored area that keeps the update's. -/
theorem onNv {s t : State} {g : Nv → Nv} (h : Placed s t) (hg : (g t.nv).upd = t.nv.upd) : Placed s (t.onNv g) :=
  h.trans ⟨rfl, rfl, rfl, fun hs => hg ▸ hs⟩

theorem toStage {s t : State} {g : Stage} (h : Placed s t) (hg : g ≠ .switching) : Placed s (t.toStage g) := by
  unfold State.toStage
  exact (h.onUpd fun _ => hg).steady (.updNote (.refl _))

theorem wipeBank {s t : State} {b : Bool} (h : Placed s t) : Placed s (t.wipeBank b) := h.trans ⟨rfl, rfl, rfl, id⟩

theorem onErases {s t : State} {b : Bool} {g : Erases → Erases} (h : Placed s t) : Placed s (t.onErases b g) := by
  refine h.onNv ?_
  cases b <;> rfl

theorem replaceSectors {s t : State} {b : Bool} {n : Nat} (h : Placed s t) : Placed s (t.replaceSectors b n) := by
  unfold State.replaceSectors
  refine foldl (fun u _ => steady (onNv (refl u) ?_) (.reserveNote (.refl _))) h
  cases b <;> rfl

theorem verifyFails {s t : State} {b : Bool} {n : Nat} (h : Placed s t) : Placed s (t.verifyFails b n) := by
  unfold State.verifyFails
  exact (h.steady (.draw (m := n + 1) (.refl t))).replaceSectors

theorem eraseComp {s t : State} {b : Bool} (h : Placed s t) : Placed s (t.eraseComp b) := by
  unfold State.eraseComp
  dsimp only
  refine verifyFails ?_
  split
  · exact h.onErases
  · exact h.onErases.replaceSectors

theorem distribute {s t : State} {w : FwSet} {l : List Comp} (h : Placed s t) : Placed s (t.distribute w l) := by
  unfold State.distribute
  exact foldl (fun u _ => steady (refl u) (.onFeeder (.refl _))) h

theorem confirm {s t : State} (h : Placed s t) : Placed s t.confirm := by
  unfold State.confirm
  exact ((h.onUpd fun hs => hs).distribute).toStage (by decide)

theorem updResume {s t : State} (h : Placed s t) : Placed s t.updResume := by
  unfold State.updResume
  dsimp only
  have hminute := h.onUpd (g := fun u => { u with minuteAt := t.now }) id
  split
  · exact ((hminute.onUpd fun _ => (show Stage.reconstructing ≠ Stage.switching by decide)).wipeBank).eraseComp
  · split
    · exact hminute.confirm
    · exact hminute

theorem evScan {s t : State} (h : Placed s t) : Placed s t.evScan := by
  unfold State.evScan
  dsimp only
  refine h.steady (.ite (.onEv (.refl t)) (.writeRec (.onEv (.refl t))))

theorem mRuns {s t : State} (h : Placed s t) : Placed s t.mRuns := by
  unfold State.mRuns
  have hpins : Placed t { t with
      pow := { t.pow with drive := if t.shutting then 0 else 0xFF }
      vxc := { t.vxc with netInForce := t.nv.net, alarms := t.accord.alarm } } := ⟨rfl, rfl, rfl, id⟩
  exact ((h.trans hpins).evScan).updResume

theorem handOver {s t : State} (h : Placed s t) : Placed s t.handOver := by
  unfold State.handOver
  dsimp only
  have hlog := h.steady (.foldl (l := t.bk.log) (fun _ (e : TlogEntry) => .treatTamper (input := b2n e.inputB) (item := e.item) (.tamperCount (.refl _))) (.refl t))
  have hovf := hlog.steady (.ite (p := 0 < (t.bk.log.foldl (fun s e => s.tamperCount.treatTamper (b2n e.inputB) e.item) t).bk.ovf)
    (.treatTamper (input := 2) (item := tlogItem false 2 false 0 0) (.tamperCount (.refl _))) (.refl _))
  exact (hovf.steady (.foldl (fun _ _ => .treatTamper (.refl _)) (.refl _))).trans ⟨rfl, rfl, rfl, id⟩

theorem resumeRegion {s t : State} {r : Region} (h : Placed s t) (hs : s.nv.upd.stage ≠ .switching) : Placed s (t.resumeRegion r) := by
  unfold State.resumeRegion
  cases r
  case c =>
    refine h.steady ?_
    exact .ite (.blotLost (.loadSent (.loadC (.refl t)))) (.silStopped (.blotLost (.loadSent (.loadC (.refl t)))))
  case d =>
    have hload : Steady t (State.loseWindows _) := .loseWindows (.alarmsClear (.restoreTotals (module := false) (.loadD (.refl t))))
    exact (h.steady hload).trans ⟨rfl, rfl, rfl, id⟩
  case m =>
    have hup : Placed t { t with rtc := { t.rtc with lockout := false, isolated := false }, net := { t.net with startAt := t.now } } :=
      ⟨rfl, rfl, rfl, id⟩
    have hsign := (((h.trans hup).mRuns).handOver).steady (.signOn (.rollTwins (.refl _)))
    have hno := beq_false_of_ne (hsign.stage hs)
    refine (?_ : Placed s (State.switchInterrupted _))
    unfold State.switchInterrupted
    dsimp only
    rw [if_pos (by rw [hno]; rfl)]
    exact hsign

end Placed

theorem switchOver_eq {s : State} (h : s.nv.upd.stage ≠ .switching) : s.switchOver = s := by
  have hno : (s.nv.upd.stage == Stage.switching) = false := beq_false_of_ne h
  simp [State.switchOver, hno]

theorem exec_regionResume {s : State} {dt : Dt} {g : Region} (hst : (s.jnc.regions.get g).st ≠ .run)
    (hw : (s.jnc.regions.get g).at_ + wipeC g ≤ (s.tick dt).now) (hu : s.nv.upd.stage ≠ .switching) :
    let t := s.tick dt
    ∃ u : State, exec (.regionResume dt g) s = .next u ∧ u.jnc.regions.get g = { s.jnc.regions.get g with st := .run } ∧
      u.jnc.voters.get g = (t.jnc.voters.get g).form := by
  intro t
  let t1 : State := { t with jnc := { t.jnc with regions := t.jnc.regions.set g { t.jnc.regions.get g with st := .run } } }
  have hp : Placed (t1.onVoter g Voter.form) ((t1.onVoter g Voter.form).resumeRegion g) := Placed.resumeRegion (.refl _) hu
  refine ⟨_, congrArg Host.Outcome.next ((if_neg ?_).trans (switchOver_eq (hp.stage hu))), ?_, ?_⟩
  · rintro (h | h)
    · exact hst h
    · exact absurd h (Nat.not_lt.mpr hw)
  · rw [hp.regions]
    exact PerRegion.get_set_same ..
  · rw [hp.voters]
    exact PerRegion.get_set_same ..

/-! ## A minute of age -/

theorem sweepHour_meter (s : State) : s.sweepHour.meter = s.meter := by
  unfold State.sweepHour
  generalize s.allJoined = l
  induction l generalizing s with
  | nil => rfl
  | cons a l ih =>
    refine (ih _).trans ?_
    dsimp only
    split
    · exact (raise_said ..).meter
    · rfl

theorem exec_ageMinute {s : State} {dt : Dt} (hp : 6 ≤ s.pow.phase.rank) (hr : s.runs .d = true) (ht : s.meter.ageAt + 60 * secC ≤ (s.tick dt).now) :
    ∃ u : State, exec (.ageMinute dt) s = .next u ∧ u.meter.age = s.meter.age + ageStep s.meter.temp + b2n (Config.ageRound s.meter.temp) ∧
      u.meter.hours = s.meter.hours + 60 ∧ u.meter.acc = s.meter.acc := by
  have hmeter {u v : State} (h : Said v u) : (if u.meter.hours % 3600 = 0 then u.sweepHour else u).meter = v.meter := by
    split
    · exact (sweepHour_meter u).trans h.meter
    · exact h.meter
  let t := (s.tick dt).onMeter (fun m => { m with
    age := s.meter.age + ageStep s.meter.temp + b2n (Config.ageRound s.meter.temp), hours := m.hours + 60, ageAt := m.ageAt + 60 * secC })
  have hsaid : Said t (if s.meter.age / ageMark ≠ t.meter.age / ageMark then
      t.raiseGen .m 0x0F (wMafe + 0x8C) [(t.ageReg, 4), (t.hoursReg, 4)] else t) := Said.ite (raiseGen_said ..) (Said.refl _)
  refine ⟨_, congrArg Host.Outcome.next (if_neg ?_), ?_, ?_, ?_⟩
  · rw [State.tick_runs, hr, State.tick_pow, decide_eq_false (Nat.not_lt.mpr hp), decide_eq_false (Nat.not_lt.mpr (show (s.tick dt).meter.ageAt + _ ≤ _ from ht))]
    decide
  · have e := congrArg Meter.age (hmeter (v := t) hsaid)
    exact e
  · have e := congrArg Meter.hours (hmeter (v := t) hsaid)
    exact e
  · have e := congrArg Meter.acc (hmeter (v := t) hsaid)
    exact e

/-- Settles O52. -/
theorem coresAndRegionsFailSafely : Obligations.CoresAndRegionsFailSafely := by
  unfold Obligations.CoresAndRegionsFailSafely
  intro s dt g t v
  refine ⟨fun p hr hm hb => ?_, fun hr ht hs => ⟨_, exec_regionRestart hr ht hs, ?_⟩, fun hr ht hs p b h => ?_, exec_regionResume, fun hp => ?_, exec_ageMinute⟩
  · obtain ⟨hv, ho, hmem, hsil, hmet⟩ := exclude_spec (t := t) (g := g) (p := p)
    exact ⟨_, exec_voterDisagree_excluded hr hm hb, hv, rfl, rfl, rfl, ho, hmem, hsil, hmet⟩
  · exact regionReset_spec (t := t) hr
  · have hd := disagreed_said t g
    have hrun : (t.disagreed g).runs g = true := by
      unfold State.runs
      rw [hd.pow, hd.jnc]
      exact hr
    refine ⟨_, (exec_voterDisagree_restart hr h).trans (congrArg Host.Outcome.next (restartRegion_eq hrun (hd.nv ▸ ht) (hd.nv ▸ hs))), ?_⟩
    exact congrArg RegionStat.st (regionReset_spec hrun).1
  · exact congrArg Host.Outcome.next (if_neg hp)

end Sys2Proof.Machine
end

