-- ==== Sys2Proof/Proofs/StartAndShutdown.lean ====
section
/-!
PROOFS. O53: the shutdown and start-up. The network settings in force as the messages and records of a start leave them (`NetHeld`), the
configurations of metering and power models as the load of the C-region's leaves them (`Configured`), and then each step by its own branch.
-/
namespace Sys2Proof.Machine
open Sys2Proof

/-! ## What leaves the network settings in force -/

/-- `t` has the network settings in force of `s`. -/
def NetHeld (s t : State) : Prop := t.vxc.netInForce = s.vxc.netInForce

namespace NetHeld

theorem refl (s : State) : NetHeld s s := rfl

theorem trans {s t u : State} (h : NetHeld s t) (k : NetHeld t u) : NetHeld s u := Eq.trans k h

theorem foldl {s t : State} {α : Type} {l : List α} {g : State → α → State} (hg : ∀ u x, NetHeld u (g u x)) (h : NetHeld s t) :
    NetHeld s (l.foldl g t) := by
  induction l generalizing t with
  | nil => exact h
  | cons x l ih => exact ih (h.trans (hg t x))

theorem raise (s : State) (k : Queue) (code src : Nat) (pay : List Nat) : NetHeld s (s.raise k code src pay) :=
  congrArg Vxc.netInForce (raise_vxc s k code src pay)

theorem endSession (s : State) (i : Nat) (why : EndCause) : NetHeld s (s.endSession i why) := by
  unfold State.endSession
  split
  · exact refl s
  · dsimp only
    split
    · rfl
    · exact (trans rfl (raise ..))

theorem say (s : State) (usb : Bool) (o : Out) : NetHeld s (s.say usb o) := by
  unfold State.say
  split
  · rfl
  · unfold State.sendFrame
    dsimp only
    split <;> rfl

theorem sendOn (s : State) (i : Nat) (o : Session → Nat → Out) : NetHeld s (s.sendOn i o) := by
  unfold State.sendOn
  split
  · exact refl s
  · rename_i x _
    have hsay : NetHeld s ((s.onSession i (fun y => { y with modSeq := x.modSeq + 1 })).say x.usb (o x (x.modSeq + 1))) := say ..
    dsimp only
    split
    · exact hsay.trans (endSession ..)
    · exact hsay

theorem stuckFw (s : State) (r : Region) (b : Bool) : NetHeld s (s.stuckFw r b) := by
  unfold State.stuckFw
  split
  · exact raise ..
  · exact refl s

theorem notify (s : State) (i cmd : Nat) (final : Bool) (st : Status) (pay : Payload) : NetHeld s (s.notify i cmd final st pay) := by
  unfold State.notify
  split
  · exact refl s
  · split
    · exact refl s
    · dsimp only
      split
      · exact trans (stuckFw (s.onSession ..) ..) (sendOn ..)
      · split
        · exact trans (stuckFw (s.onSession ..) ..) (sendOn (State.onSession ..) ..)
        · exact stuckFw (s.onSession ..) ..

theorem notifyClass (s : State) (cls cmd : Nat) (st : Status) (pay : Payload) : NetHeld s (s.notifyClass cls cmd st pay) :=
  foldl (fun u i => notify u i ..) (refl s)

theorem writeRec (s : State) (x : EvEntry) (c : Bool) : NetHeld s (s.writeRec x c) := by
  unfold State.writeRec State.eventNote
  dsimp only
  refine foldl (fun u i => notify u i ..) ?_
  split <;> rfl

theorem toStage (s : State) (g : Stage) : NetHeld s (s.toStage g) := notifyClass (s.onUpd _) ..

theorem replaceSectors (s : State) (b : Bool) (n : Nat) : NetHeld s (s.replaceSectors b n) :=
  foldl (fun u _ => trans (t := u.onNv _) rfl (notifyClass ..)) (refl s)

theorem eraseComp (s : State) (b : Bool) : NetHeld s (s.eraseComp b) := by
  unfold State.eraseComp State.verifyFails
  dsimp only
  refine trans ?_ (replaceSectors (State.draw _ _).2 ..)
  show NetHeld s (ite _ _ _)
  split
  · rfl
  · exact replaceSectors (s.onErases ..) ..

theorem confirm (s : State) : NetHeld s s.confirm := by
  unfold State.confirm
  refine trans ?_ (toStage ..)
  exact foldl (fun _ _ => rfl) rfl

theorem updResume (s : State) : NetHeld s s.updResume := by
  unfold State.updResume
  dsimp only
  split
  · refine trans ?_ (eraseComp ..)
    rfl
  · split
    · exact confirm (s.onUpd _)
    · rfl

theorem evScan (s : State) : NetHeld s s.evScan := by
  unfold State.evScan
  dsimp only
  split
  · rfl
  · exact writeRec (s.onEv _) ..

theorem revertRecord (s : State) : NetHeld s s.revertRecord := by
  unfold State.revertRecord
  split
  · exact refl s
  · exact raise (s.onUpd _) ..

end NetHeld

theorem revertRecord_phase (s : State) : s.revertRecord.pow.phase = s.pow.phase := by
  unfold State.revertRecord
  split
  · rfl
  · exact congrArg Power.phase (raise_said (s.onUpd _) ..).pow

theorem exec_mImageLoaded {s : State} {dt : Dt} (hp : s.pow.phase = .loadM) :
    ∃ u : State, exec (.mImageLoaded dt) s = .next u ∧ u.pow.phase = .mRuns ∧ u.vxc.netInForce = s.nv.net := by
  refine ⟨_, congrArg Host.Outcome.next (if_neg (not_not_intro hp)), ?_, ?_⟩
  · exact (revertRecord_phase _).trans (Placed.mRuns (.refl _)).phase
  · exact NetHeld.trans (NetHeld.trans (NetHeld.evScan _) (NetHeld.updResume _)) (NetHeld.revertRecord _)

/-! ## The key store becomes ready -/

/-- What the hand-over of the tamper log does before it empties the log (13 R427). -/
theorem handOver_spec (s : State) : ∃ v, Steady s v ∧ s.handOver = { v with bk := { v.bk with log := [], ovf := 0 }, keys := { v.keys with early := [] } } := by
  refine ⟨_, .foldl (fun _ _ => .treatTamper (.refl _)) (.ite (.treatTamper (.tamperCount ?_)) ?_), rfl⟩
  all_goals exact .foldl (fun _ _ => .treatTamper (.tamperCount (.refl _))) (.refl s)

/-- The hand-over leaves the phase and the shutdown, and no log. -/
theorem handOver_log (s : State) : s.handOver.pow.phase = s.pow.phase ∧ s.handOver.shutting = s.shutting ∧ s.handOver.bk.log = [] ∧
    s.handOver.bk.ovf = 0 := by
  obtain ⟨v, ⟨-, -, hp, hf, hc, -, -⟩, he⟩ := handOver_spec s
  rw [he]
  exact ⟨hp, by simp only [State.shutting, hf, hc], rfl, rfl⟩

theorem signOn_spec {s : State} (h : s.shutting = false) : s.signOn.sign.run = true ∧ s.signOn.pow.signHiZ = false := by
  unfold State.signOn
  rw [if_neg (by simp [h])]
  exact ⟨rfl, rfl⟩

theorem exec_keyStoreReady {s : State} {dt : Dt} (hp : s.pow.phase = .mRuns) (hs : (s.tick dt).shutting = false) :
    ∃ u : State, exec (.keyStoreReady dt) s = .next u ∧ u.pow.phase = .keysReady ∧ u.bk.log = [] ∧ u.bk.ovf = 0 ∧ u.sign.run = true ∧
      u.pow.signHiZ = false := by
  let a := ({ s.tick dt with pow := { (s.tick dt).pow with phase := .keysReady } } : State).loadKeys.handOver
  obtain ⟨hph, hsh, hlog, hovf⟩ : a.pow.phase = .keysReady ∧ a.shutting = false ∧ a.bk.log = [] ∧ a.bk.ovf = 0 := by
    obtain ⟨h1, h2, h3, h4⟩ := handOver_log ({ s.tick dt with pow := { (s.tick dt).pow with phase := .keysReady } } : State).loadKeys
    exact ⟨h1, h2.trans hs, h3, h4⟩
  let b := if (a.slot 1).st = 0 && a.keys.rootOk && a.nv.lcs != 3 then
      (a.drawKey 3).2.activate 1 ((roleAttr 1).getD 0) 1 (a.drawKey 3).1 else a
  have hdraw : Steady a (a.drawKey 3).2 := .draw (m := p256n - 1) (.refl a)
  have hkey : Steady a b := .ite (.activate hdraw) (.refl a)
  let c : State := { (b.draw 2).2 with rtc := { (b.draw 2).2.rtc with batLow := decide ((b.draw 2).1 = 1) } }
  have hc : Steady a c := .record (.draw hkey) rfl
  have hcs : c.shutting = false := by
    obtain ⟨-, -, -, hf, hcmd, -, -⟩ := hc
    exact (by simp only [State.shutting, hf, hcmd] : c.shutting = a.shutting).trans hsh
  have hon : Steady a c.signOn := hc.signOn
  refine ⟨c.signOn, congrArg Host.Outcome.next (if_neg (not_not_intro hp)), hon.phase.trans hph, ?_, ?_, signOn_spec hcs⟩
  · exact (congrArg Backup.log hon.bk).trans hlog
  · exact (congrArg Backup.ovf hon.bk).trans hovf

/-! ## The restore step -/

/-- `t` has of `s` the configuration of metering and the power models, and its start-up stands where that of `s` does. -/
def Configured (s t : State) : Prop := t.meter.cfg = s.meter.cfg ∧ t.accord.models = s.accord.models ∧ t.pow.phase = s.pow.phase

namespace Configured

theorem refl (s : State) : Configured s s := ⟨rfl, rfl, rfl⟩

theorem trans {s t u : State} (h : Configured s t) (k : Configured t u) : Configured s u :=
  ⟨k.1.trans h.1, k.2.1.trans h.2.1, k.2.2.trans h.2.2⟩

theorem of_said {s t u : State} (h : Configured s t) (k : Said t u) : Configured s u :=
  h.trans ⟨congrArg Meter.cfg k.meter, congrArg Accord.models k.accord, congrArg Power.phase k.pow⟩

theorem foldl {s t : State} {α : Type} {l : List α} {g : State → α → State} (hg : ∀ u x, Configured u (g u x)) (h : Configured s t) :
    Configured s (l.foldl g t) := by
  induction l generalizing t with
  | nil => exact h
  | cons x l ih => exact ih (h.trans (hg t x))

theorem setLevels (s : State) (a sent : Nat) (out : Option Nat) : Configured s (s.setLevels a sent out) := ⟨rfl, rfl, rfl⟩

theorem setOvr (s : State) (a v : Nat) : Configured s (s.setOvr a v) := ⟨rfl, rfl, rfl⟩

theorem restoreTotals (s : State) (module : Bool) : Configured s (s.restoreTotals module) := by
  unfold State.restoreTotals
  split
  · exact refl s
  · dsimp only
    split
    · exact ⟨rfl, rfl, rfl⟩
    · refine of_said ?_ (raiseGen_said ..)
      exact ⟨rfl, rfl, rfl⟩

theorem loadGraph (s : State) : Configured s s.loadGraph := by
  unfold State.loadGraph
  split
  · exact ⟨rfl, rfl, rfl⟩
  · exact ⟨rfl, rfl, rfl⟩

theorem started {s t : State} (h : Configured s t) : t.started = s.started := by
  unfold State.started
  rw [h.2.2]

/-- Before the run, the schedules are not converted. -/
theorem notConverted {s t : State} (h : Configured s t) (hs : s.started = false) :
    Configured s (if t.bk.valid && t.started then t.convert false else t) := by
  rw [h.started, hs, Bool.and_false]
  exact h

theorem schedResume {s t : State} (h : Configured s t) (hs : s.started = false) : Configured s t.schedResume := by
  unfold State.schedResume
  dsimp only
  refine notConverted ?_ hs
  have htold {v : State} {p : Prop} [Decidable p] (hv : Configured s v) : Configured s (State.schedEdge (if p then v.raiseGen .c 0x06 0 [] else v)) := by
    split
    · exact trans (of_said hv (raiseGen_said ..)) ⟨rfl, rfl, rfl⟩
    · exact trans hv ⟨rfl, rfl, rfl⟩
  refine htold ?_
  exact trans h ⟨rfl, rfl, rfl⟩

theorem loadOverrides (s : State) : Configured s s.loadOverrides := by
  unfold State.loadOverrides
  refine foldl (fun u e => ?_) (refl s)
  split
  · exact setOvr ..
  · exact refl u

theorem rollTwins (s : State) : Configured s s.rollTwins := by
  unfold State.rollTwins
  refine foldl (fun u f => ?_) (refl s)
  split
  · exact refl u
  · split
    · exact ⟨rfl, rfl, rfl⟩
    · exact refl u

theorem loadRolls (s : State) : Configured s s.loadRolls := by
  unfold State.loadRolls
  dsimp only
  refine foldl (fun u f => ?_) ?_
  · split
    · exact refl u
    · exact ⟨rfl, rfl, rfl⟩
  · split
    · exact rollTwins s
    · exact refl s

theorem loadRR (s : State) : Configured s s.loadRR := by
  unfold State.loadRR
  split
  · exact refl s
  · exact foldl (fun _ _ => ⟨rfl, rfl, rfl⟩) (refl s)

theorem loadC {s : State} (hs : s.started = false) : Configured s s.loadC := by
  unfold State.loadC
  dsimp only
  refine trans (schedResume ?_ hs) (trans (loadOverrides _) (trans (t := State.loadBg _) ⟨rfl, rfl, rfl⟩ (trans (loadRolls _) (loadRR _))))
  exact trans (loadGraph s) ⟨rfl, rfl, rfl⟩

theorem loadFallback (s : State) : Configured s s.loadFallback := by
  unfold State.loadFallback
  exact foldl (fun _ _ => ⟨rfl, rfl, rfl⟩) (foldl (fun _ _ => ⟨rfl, rfl, rfl⟩) (refl s))

theorem lostRecords (s : State) : Configured s s.lostRecords := by
  have hraised : Configured s ([Region.c, .d, .m].foldl (fun u r => if s.pow.lostActs.get r = 0 then u else
      u.raiseGen r 0x02 0 [(s.pow.lostActs.get r, 2)]) s) := by
    refine foldl (fun u r => ?_) (refl s)
    split
    · exact refl u
    · exact of_said (refl u) (raiseGen_said ..)
  exact hraised.trans ⟨rfl, rfl, rfl⟩

end Configured

/-- The begin of the lock step with what MRAM holds (19 R582; 02 R56). -/
def State.lockBegun (d : State) : State :=
  { d with
    sil := { d.sil with passLimit := passLimitUs d.nv.profileSel }
    pow := { d.pow with phase := .lockStep, pulseHiZ := d.shutting }
    tb := { d.tb with
      sel := d.nv.profileSel, vset := d.nv.fdrVset, fixed := decide (d.nv.profileSel ≠ 2)
      p60 := decide (d.nv.profileSel = 1) || (decide (d.nv.profileSel = 2) && d.nv.lastP60)
      vnomA := d.nv.meterCfg.vnomA, vnomB := d.nv.meterCfg.vnomB, savedS := d.resumeValue.1, resume := d.resumeValue.2, lockAt := d.now } }

theorem lockBegun_spec {t d : State} (hs : Steady t d) (hc : Configured t.loadD d) :
    d.lockBegun.pow.phase = .lockStep ∧ d.lockBegun.tb.sel = t.nv.profileSel ∧ d.lockBegun.tb.lockAt = t.now ∧ d.lockBegun.pow.pulseHiZ = t.shutting ∧
      d.lockBegun.meter.cfg = t.nv.meterCfg ∧ d.lockBegun.accord.models = t.nv.models := by
  obtain ⟨⟨-, hnow, -, -⟩, -, -, hf, hcmd, -, hprof⟩ := hs
  have hsh : d.shutting = t.shutting := by simp only [State.shutting, hf, hcmd]
  exact ⟨rfl, hprof, hnow, hsh, hc.1, hc.2.1⟩

theorem exec_restoreStep {s : State} {dt : Dt} (hp : s.pow.phase = .cdRun) :
    ∃ d : State, exec (.restoreStep dt) s = .next d.lockBegun ∧ Steady (s.tick dt) d ∧ Configured (s.tick dt).loadD d := by
  have hstart : ((s.tick dt).loadD.restoreTotals true).started = false := by
    rw [(Configured.restoreTotals _ true).started]
    exact decide_eq_false (by rw [show (s.tick dt).loadD.pow.phase = .cdRun from hp]; decide)
  have hb := (((Configured.restoreTotals (s.tick dt).loadD true).trans (.loadC hstart)).trans (.loadFallback _)).trans (.lostRecords _)
  have hs : Steady (s.tick dt) _ := .lostRecords (.loadFallback (.loadC (.restoreTotals (module := true) (.loadD (.refl _)))))
  refine ⟨_, congrArg Host.Outcome.next (if_neg (not_not_intro hp)), ?_, ?_⟩
  · exact .of_said ((Said.ite (.refl _) (raise_said ..)).trans (.ite (raiseGen_said ..) (.refl _))) hs
  · exact .of_said hb ((Said.ite (.refl _) (raise_said ..)).trans (.ite (raiseGen_said ..) (.refl _)))

/-! ## What a record written leaves -/

/-- The stored areas but for the recorder's own are the same. -/
def Nv.LogOnly (v w : Nv) : Prop :=
  ∃ perm circ started wrap, w = { v with permArea := perm, circArea := circ, permStarted := started, evWrap := wrap }

theorem Nv.LogOnly.refl (v : Nv) : v.LogOnly v := ⟨_, _, _, _, rfl⟩

theorem Nv.LogOnly.ite {v : Nv} {p : Prop} [Decidable p] {a b : State} (h : v.LogOnly a.nv) (k : v.LogOnly b.nv) :
    v.LogOnly (if p then a else b).nv := by
  split
  · exact h
  · exact k

theorem Nv.LogOnly.numbered {v w : Nv} {started : Bool} {wrap : Nat} (h : v.LogOnly w) : v.LogOnly { w with permStarted := started, evWrap := wrap } := by
  obtain ⟨perm, circ, a, b, rfl⟩ := h
  exact ⟨perm, circ, started, wrap, rfl⟩

theorem writeRec_nv (s : State) (x : EvEntry) (c : Bool) : s.nv.LogOnly (s.writeRec x c).nv := by
  unfold State.writeRec
  dsimp only
  refine Eq.subst (motive := s.nv.LogOnly) (eventNote_said _ _).nv.symm ?_
  refine Nv.LogOnly.numbered (.ite ?_ ?_)
  · exact ⟨_, _, _, _, rfl⟩
  · exact ⟨_, _, _, _, rfl⟩
theorem writeRec_nextSeq (s : State) (x : EvEntry) (c : Bool) : (s.writeRec x c).ev.nextSeq = (s.ev.nextSeq + 1) % 4294967296 := by
  have hseq (t : State) (w : BitVec 512) : (t.eventNote w).ev.nextSeq = t.ev.nextSeq := (congrArg Intake.nextSeq (eventNote_log t w) :)
  unfold State.writeRec
  dsimp only
  rw [hseq]

/-! ## The end of a shutdown -/

theorem finalNodePart_spec (s : State) : s.finalNodePart.pow = s.pow ∧ s.finalNodePart.ev = s.ev ∧ s.finalNodePart.meter = s.meter ∧
    s.finalNodePart.jnc = s.jnc := by
  unfold State.finalNodePart
  split
  · split
    · exact ⟨rfl, rfl, rfl, rfl⟩
    · exact ⟨rfl, rfl, rfl, rfl⟩
  · exact ⟨rfl, rfl, rfl, rfl⟩

/-- The record of the final save, and what it marks (19 R576; 16 R507). -/
def State.finalRecord (v : State) : State :=
  let w := v.writeRec (v.entry 0x0009 srcClkrst (leBytes 4 (match v.finalSlot with | some n => (v.slotOf n).seq | none => v.meter.saveSeq) ++
    [b2n v.finalSlot.isSome]) false) false
  { w.onEv (fun e => { e with paused := false }) with pow := { w.pow with failRecDone := true, finalDone := v.finalSlot.isSome } }

theorem exec_finalSaveComplete {s : State} {dt : Dt} (hs : s.shutting = true) (hr : s.pow.failRecDone = false) (hm : s.runs .m = true) :
    let v := (s.tick dt).finalNodePart
    (s.meter.closed ≠ none → v.finalSlot = none → exec (.finalSaveComplete dt) s = .next v) ∧
    (s.meter.closed = none ∨ v.finalSlot.isSome = true →
      exec (.finalSaveComplete dt) s = .next (if s.pow.cmdShutdown then v.finalRecord.moduleReset 5 else v.finalRecord)) := by
  intro v
  obtain ⟨hpow, -, hmet, hjnc⟩ := finalNodePart_spec (s.tick dt)
  have hsh : v.shutting = true := by
    unfold State.shutting
    rw [hpow]
    exact hs
  have hrun : v.runs .m = true := by
    unfold State.runs
    rw [hpow, hjnc]
    exact hm
  have hrec : v.pow.failRecDone = false := by
    rw [hpow]
    exact hr
  have hclosed : v.meter.closed = s.meter.closed := congrArg Meter.closed hmet
  refine ⟨fun hc hf => congrArg Host.Outcome.next (if_pos ?_), fun h => congrArg Host.Outcome.next ((if_neg ?_).trans ?_)⟩
  · rw [hsh, hrun, hrec, hclosed, hf]
    simpa [Option.isSome_iff_ne_none] using hc
  · rw [hsh, hrun, hrec, hclosed]
    obtain h | h := h
    · simp [h]
    · have hf : v.finalSlot.isNone = false := by rw [← Option.not_isSome, h]; rfl
      change ¬ (!true || false || !true || (s.meter.closed.isSome && v.finalSlot.isNone)) = true
      rw [hf]
      simp
  · have hcmd : v.finalRecord.pow.cmdShutdown = s.pow.cmdShutdown := by
      obtain ⟨-, -, -, -, hcmd, -, -⟩ : Steady v (v.writeRec (v.entry 0x0009 srcClkrst (leBytes 4 (match v.finalSlot with
        | some n => (v.slotOf n).seq | none => v.meter.saveSeq) ++ [b2n v.finalSlot.isSome]) false) false) := .writeRec (.refl v)
      exact hcmd.trans (congrArg Power.cmdShutdown hpow)
    rw [← hcmd]
    rfl

theorem finalRecord_spec {s : State} {dt : Dt} :
    let v := (s.tick dt).finalNodePart
    v.finalRecord.pow.failRecDone = true ∧ v.finalRecord.pow.finalDone = v.finalSlot.isSome ∧ v.finalRecord.ev.paused = false ∧
      v.finalRecord.ev.nextSeq = (s.ev.nextSeq + 1) % 4294967296 := by
  intro v
  obtain ⟨-, hev, -, -⟩ := finalNodePart_spec (s.tick dt)
  have hseq : v.ev.nextSeq = s.ev.nextSeq := congrArg Intake.nextSeq hev
  refine ⟨rfl, rfl, rfl, ?_⟩
  rw [← hseq]
  exact writeRec_nextSeq ..

/-! ## Supply fail, its return and RST_N -/

theorem exec_supplyFail {s : State} {dt : Dt} (hp : s.pow.phase ≠ .reset) (hf : s.pow.supplyFail = false) :
    let t := s.tick dt
    let u : State := { t with pow := { t.pow with supplyFail := true, cmdShutdown := false, vinBack := false, failAt := t.now } }
    exec (.supplyFail dt) s = .next (if s.pow.cmdShutdown then u else u.shed) := by
  refine congrArg Host.Outcome.next ((if_neg hp).trans (if_neg ?_))
  rw [State.tick_pow, hf]
  exact Bool.false_ne_true

theorem exec_supplyFail_again {s : State} {dt : Dt} (hp : s.pow.phase ≠ .reset) (hf : s.pow.supplyFail = true) :
    exec (.supplyFail dt) s = .next { s.tick dt with pow := { (s.tick dt).pow with vinBack := false } } :=
  congrArg Host.Outcome.next ((if_neg hp).trans (if_pos hf))

/-- When RTCIF is isolated (19 R574). -/
theorem exec_rtcifIsolate {s : State} {dt : Dt} (hs : s.shutting = true) (hl : s.rtc.lockout = true) :
    exec (.rtcifIsolate dt) s = .next (if s.finalSlot.isSome = true ∨ s.pow.finalDone = true ∨ s.pow.shedAt + 20 * msC ≤ (s.tick dt).now then
      { s.tick dt with rtc := { (s.tick dt).rtc with isolated := true } } else s.tick dt) := by
  refine congrArg Host.Outcome.next (ite_congr (propext ?_) (fun _ => rfl) fun _ => rfl)
  rw [show (s.tick dt).shutting = true from hs, show (s.tick dt).rtc.lockout = true from hl]
  simp only [Bool.and_self, Bool.true_and, Bool.or_eq_true, decide_eq_true_eq, or_assoc]
  exact Iff.rfl

theorem exec_supplyCycleReset {s : State} {dt : Dt} (hf : s.pow.supplyFail = true) (hb : s.pow.vinBack = true) (hr : s.pow.failRecDone = true)
    (ht : s.pow.vinAt + 100 * msC ≤ (s.tick dt).now) : exec (.supplyCycleReset dt) s = .next ((s.tick dt).moduleReset 3) := by
  refine congrArg Host.Outcome.next (if_pos ?_)
  rw [State.tick_pow, hf, hb, hr, decide_eq_true ht]
  rfl

theorem exec_holdupEnd {s : State} {dt : Dt} (hf : s.pow.supplyFail = true) (hb : s.pow.vinBack = false) (ht : s.pow.heldTo ≤ (s.tick dt).now) :
    let u := (s.tick dt).moduleReset 1
    exec (.holdupEnd dt) s = .next { u with pow := { u.pow with vin := 0, bankCap := 0, holdupOk := false } } := by
  refine congrArg Host.Outcome.next (if_pos ?_)
  rw [State.tick_pow, hf, hb, decide_eq_true ht]
  rfl

theorem exec_rstNLow_none {s : State} {dt : Dt} {n : Nat} (h : s.pow.supplyFail = true ∨ n < 1000) : exec (.rstNLow dt n) s = .next (s.tick dt) := by
  refine congrArg Host.Outcome.next (if_pos ?_)
  rw [State.tick_pow]
  obtain h | h := h
  · simp [h]
  · simp [h]

theorem exec_rstNLow {s : State} {dt : Dt} {n : Nat} (hf : s.pow.supplyFail = false) (hn : 1000 ≤ n) (hp : s.pow.phase ≠ .reset) :
    let t := s.tick dt
    exec (.rstNLow dt n) s = .next (if 10000 ≤ n then t.moduleReset 2 else if (t.draw 2).1 = 1 then (t.draw 2).2.moduleReset 2 else (t.draw 2).2) := by
  refine congrArg Host.Outcome.next (if_neg ?_)
  rw [State.tick_pow, hf, decide_eq_false (Nat.not_lt.mpr hn)]
  simp [hp]

/-! ## Release from reset, and the boot ROM -/

theorem exec_resetRelease_held {s : State} {dt : Dt} {v c : Nat} {h : Bool} {p : BitVec 8} (hp : s.pow.phase = .reset) (hv : v < 1750 ∨ h = false) :
    exec (.resetRelease dt v c h p) s = .next (s.tick dt) := by
  refine congrArg Host.Outcome.next (if_pos ?_)
  rw [State.tick_pow, hp]
  obtain hv | rfl := hv
  · simp [hv]
  · simp

theorem trialBoot_eq {s : State} {k : State → State} (h : s.nv.upd.stage ≠ .trial) : s.trialBoot k = k s := by
  have hno : (s.nv.upd.stage == Stage.trial) = false := beq_false_of_ne h
  unfold State.trialBoot
  rw [hno]
  rfl

theorem exec_resetRelease {s : State} {dt : Dt} {v c : Nat} {p : BitVec 8} (hp : s.pow.phase = .reset) (hv : 1750 ≤ v) (ht : s.nv.upd.stage ≠ .trial)
    (hs : s.nv.upd.stage ≠ .switching) : ∃ u : State, exec (.resetRelease dt v c true p) s = .next u ∧ u.pow.phase = .bootRom ∧ u.pow.vin = v % 4096 ∧
      u.pow.pinLvl = p ∧ u.nv = s.nv ∧ u.bk = (s.tick dt).bk := by
  have hend {w : State} (hw : w.nv = s.nv) : (if w.nv.upd.stage == .switching then w.onUpd Decant.bootNew else w.trialBoot id) = w := by
    rw [if_neg (by rw [hw, beq_false_of_ne hs]; exact Bool.false_ne_true)]
    exact trialBoot_eq (hw ▸ ht)
  have hsaid {a : State} {q : Prop} [Decidable q] {k : Queue} {code src : Nat} {pay : List Nat} : Said a (if q then a.raise k code src pay else a) :=
    .ite (raise_said ..) (.refl a)
  refine ⟨_, congrArg Host.Outcome.next ((if_neg ?_).trans (hend hsaid.nv)), ?_, ?_, ?_, hsaid.nv, hsaid.bk⟩
  · rw [State.tick_pow, hp, decide_eq_false (Nat.not_lt.mpr hv)]
    decide
  · exact congrArg Power.phase hsaid.pow
  · exact congrArg Power.vin hsaid.pow
  · exact congrArg Power.pinLvl hsaid.pow

theorem rootStep_steady (s : State) (p : Bool) : Steady s (s.rootStep p) := by
  unfold State.rootStep
  dsimp only
  refine .record (.ite (.activate (.onNv (.draw (m := 2 ^ 256) (.refl s)) rfl)) (.refl s)) rfl

theorem otherBank_upd (s : State) : s.otherBank.nv.upd = { s.nv.upd.allOn (!s.nv.upd.active) with active := !s.nv.upd.active } :=
  congrArg Nv.upd (raiseGen_said (s.onUpd _) ..).nv

/-- The bank that the boot ROM may run, by its manifest (15 R479, R484). -/
theorem bankOk_iff {s : State} {b ok : Bool} : s.bankOk b ok = true ↔ ok = true ∧ (s.nv.upd.bank b).valid = true ∧ s.nv.upd.secVer ≤ (s.nv.upd.bank b).secVer := by
  simp [State.bankOk, and_assoc]

/-- The run at its next phase (19 R582). -/
def State.goPhase (s : State) (p : Phase) : State := { s with pow := { s.pow with phase := p } }

theorem exec_bootRomDone_trial {s : State} {dt : Dt} {a b p : Bool} (hp : s.pow.phase = .bootRom) (ht : s.nv.upd.stage = .trial) :
    let r := (s.tick dt).rootStep p
    let n := !s.nv.upd.active
    exec (.bootRomDone dt a b p) s =
      .next (if r.bankOk n (if n then b else a) then (r.onUpd (fun u => u.allOn (!u.active))).goPhase .loadM else r.revert 3) := by
  intro r n
  have hupd : r.nv.upd = s.nv.upd := (rootStep_steady (s.tick dt) p).upd
  refine congrArg Host.Outcome.next ((if_neg (not_not_intro hp)).trans ((if_pos ?_).trans ?_))
  · change (r.nv.upd.stage == Stage.trial) = true
    rw [hupd, ht]
    rfl
  · change (if r.bankOk (!r.nv.upd.active) (if !r.nv.upd.active then b else a) then _ else _) = _
    rw [hupd]
    rfl

theorem exec_bootRomDone {s : State} {dt : Dt} {a b p : Bool} (hp : s.pow.phase = .bootRom) (ht : s.nv.upd.stage ≠ .trial) :
    let r := (s.tick dt).rootStep p
    let n := s.nv.upd.active
    exec (.bootRomDone dt a b p) s =
      .next (if r.bankOk n (if n then b else a) then (r.onUpd (fun u => u.allOn u.active)).goPhase .loadM
        else if r.bankOk (!n) (if !n then b else a) then r.otherBank.goPhase .loadM else r.goPhase .bootStuck) := by
  intro r n
  have hupd : r.nv.upd = s.nv.upd := (rootStep_steady (s.tick dt) p).upd
  refine congrArg Host.Outcome.next ((if_neg (not_not_intro hp)).trans ((if_neg ?_).trans ?_))
  · change ¬ (r.nv.upd.stage == Stage.trial) = true
    rw [hupd, beq_false_of_ne ht]
    exact Bool.false_ne_true
  · change (if r.bankOk r.nv.upd.active (if r.nv.upd.active then b else a) then _
      else if r.bankOk (!r.nv.upd.active) (if !r.nv.upd.active then b else a) then _ else _) = _
    rw [hupd]
    rfl

theorem rootStep_bankOk_iff {s : State} {dt : Dt} {p n ok : Bool} : ((s.tick dt).rootStep p).bankOk n ok = true ↔
    ok = true ∧ (s.nv.upd.bank n).valid = true ∧ s.nv.upd.secVer ≤ (s.nv.upd.bank n).secVer := by
  rw [bankOk_iff, (rootStep_steady (s.tick dt) p).upd, State.tick_nv]

/-- The boot ROM in a trial: the new bank runs, or the trial reverts (15 R480, R483). -/
theorem bootRomDone_trial {s : State} {dt : Dt} {a b p : Bool} (hp : s.pow.phase = .bootRom) (ht : s.nv.upd.stage = .trial) :
    let n := !s.nv.upd.active
    let ok := (if n then b else a) = true ∧ (s.nv.upd.bank n).valid = true ∧ s.nv.upd.secVer ≤ (s.nv.upd.bank n).secVer
    (ok → ∃ u : State, exec (.bootRomDone dt a b p) s = .next u ∧ u.pow.phase = .loadM ∧ u.nv.upd.active = s.nv.upd.active ∧ u.nv.upd.bankM = n) ∧
    (¬ ok → exec (.bootRomDone dt a b p) s = .next (((s.tick dt).rootStep p).revert 3)) := by
  intro n ok
  have hupd : ((s.tick dt).rootStep p).nv.upd = s.nv.upd := (rootStep_steady (s.tick dt) p).upd
  rw [exec_bootRomDone_trial hp ht]
  refine ⟨fun hok => ?_, fun hno => ?_⟩
  · rw [if_pos (rootStep_bankOk_iff.mpr hok)]
    have hactive : ((s.tick dt).rootStep p).nv.upd.active = s.nv.upd.active := congrArg Decant.active hupd
    exact ⟨_, rfl, rfl, hactive, congrArg (!·) hactive⟩
  · rw [if_neg fun h => hno (rootStep_bankOk_iff.mp h)]

/-- The boot ROM outside a trial: the active bank runs, or the other one, or none (15 R484; 19 R582). -/
theorem bootRomDone_spec {s : State} {dt : Dt} {a b p : Bool} (hp : s.pow.phase = .bootRom) (ht : s.nv.upd.stage ≠ .trial) :
    let ok := fun (n : Bool) => (if n then b else a) = true ∧ (s.nv.upd.bank n).valid = true ∧ s.nv.upd.secVer ≤ (s.nv.upd.bank n).secVer
    let n := s.nv.upd.active
    (ok n → ∃ u : State, exec (.bootRomDone dt a b p) s = .next u ∧ u.pow.phase = .loadM ∧ u.nv.upd.active = n ∧ u.nv.upd.bankM = n) ∧
    (¬ ok n → ok (!n) → ∃ u : State, exec (.bootRomDone dt a b p) s = .next u ∧ u.pow.phase = .loadM ∧ u.nv.upd.active = (!n) ∧ u.nv.upd.bankM = (!n)) ∧
    (¬ ok n → ¬ ok (!n) → ∃ u : State, exec (.bootRomDone dt a b p) s = .next u ∧ u.pow.phase = .bootStuck) := by
  intro ok n
  have hactive : ((s.tick dt).rootStep p).nv.upd.active = n := congrArg Decant.active (rootStep_steady (s.tick dt) p).upd
  rw [exec_bootRomDone hp ht]
  refine ⟨fun hok => ?_, fun hno hok => ?_, fun hno hno2 => ?_⟩
  · rw [if_pos (rootStep_bankOk_iff.mpr hok)]
    exact ⟨_, rfl, rfl, hactive, hactive⟩
  · rw [if_neg fun h => hno (rootStep_bankOk_iff.mp h), if_pos (rootStep_bankOk_iff.mpr hok)]
    refine ⟨_, rfl, rfl, ?_, ?_⟩
    · exact (congrArg Decant.active (otherBank_upd _)).trans (congrArg (!·) hactive)
    · exact (congrArg Decant.bankM (otherBank_upd _)).trans (congrArg (!·) hactive)
  · rw [if_neg fun h => hno (rootStep_bankOk_iff.mp h), if_neg fun h => hno2 (rootStep_bankOk_iff.mp h)]
    exact ⟨_, rfl, rfl⟩

/-! ## The images of the C- and D-regions, and the wipe of a life cycle that ends -/

theorem exec_cdImagesLoaded {s : State} {dt : Dt} {ok : Bool} (hp : s.pow.phase = .keysReady) (hw : s.nv.wipeDue = false) :
    let t := s.tick dt
    exec (.cdImagesLoaded dt ok) s = .next (if ok then (t.goPhase .cdRun).measureTemp else if s.nv.upd.stage == .trial then t.revert 3 else
      { t.otherBank with pow := { t.otherBank.pow with phase := .bootRom, drive := 0, signHiZ := true }, sign := t.otherBank.sign.kept }) := by
  refine congrArg Host.Outcome.next (if_neg ?_)
  rw [State.tick_pow, State.tick_nv, hp, hw]
  decide

/-- The state after the wipe of a life cycle that ends (14 R453). -/
theorem exec_lifecycleWipeDone {s : State} {dt : Dt} (hw : s.nv.wipeDue = true) (hr : s.runs .m = true) :
    ∃ (v : State) (x : EvEntry) (z : SaveSlot), exec (.lifecycleWipeDone dt) s = .next ((v.writeRec x false).moduleReset 6) ∧
      v.nv = { s.nv.wiped with slot0 := z } := by
  refine ⟨_, _, (s.tick dt).zeroSlot, congrArg Host.Outcome.next (if_neg ?_), ?_⟩
  · rw [State.tick_nv, State.tick_runs, hw, hr]
    decide
  · rfl

theorem wipeDone_nv {v : State} {x : EvEntry} {n : Nv} {z : SaveSlot} (hv : v.nv = { n.wiped with slot0 := z }) :
    let u := (v.writeRec x false).moduleReset 6
    u.nv.wipeDue = false ∧ u.nv.regs = [] ∧ u.nv.lcs = n.lcs ∧ u.nv.serial = n.serial ∧ u.nv.slots = n.slots := by
  intro u
  obtain ⟨perm, circ, started, wrap, h⟩ := writeRec_nv v x false
  have hu : u.nv = (v.writeRec x false).nv.forgetScenes (v.writeRec x false).sched.cmds := rfl
  rw [hu, h, hv]
  exact ⟨rfl, rfl, rfl, rfl, rfl⟩

/-- Settles O53. -/
theorem shutdownAndStartUp : Obligations.ShutdownAndStartUp := by
  unfold Obligations.ShutdownAndStartUp
  constructor
  · intro s dt t
    refine ⟨exec_supplyFail, exec_supplyFail_again, fun hs hl => ?_, fun hf => ?_, fun hf => ?_, fun hs hr hm => ?_⟩
    · refine ⟨fun h => (exec_rtcifIsolate hs hl).trans (congrArg Host.Outcome.next (if_pos h)), fun hn hd ht => ?_⟩
      refine (exec_rtcifIsolate hs hl).trans (congrArg Host.Outcome.next (if_neg ?_))
      rintro (h | h | h)
      · exact absurd h (by simp [hn])
      · exact absurd h (by simp [hd])
      · exact absurd ht (Nat.not_lt.mpr h)
    · refine ⟨congrArg Host.Outcome.next (if_pos hf), exec_supplyCycleReset hf, fun hb ht => ⟨_, exec_holdupEnd hf hb ht, rfl, rfl, rfl, rfl⟩,
        fun n => exec_rstNLow_none (.inl hf)⟩
    · refine ⟨fun n hn => exec_rstNLow_none (.inr hn), fun n hn hp => ?_, fun n hn hn2 hp => ?_⟩
      · exact (exec_rstNLow hf (Nat.le_trans (by decide) hn) hp).trans (congrArg Host.Outcome.next (if_pos hn))
      · rw [exec_rstNLow hf hn hp, if_neg (Nat.not_le.mpr hn2)]
        split
        · exact .inr rfl
        · exact .inl rfl
    · obtain ⟨hwait, hdone⟩ := exec_finalSaveComplete (dt := dt) hs hr hm
      refine ⟨hwait, fun h => ⟨_, hdone h, fun hc => ?_, fun hc => ?_⟩⟩
      · rw [hc, if_neg Bool.false_ne_true]
        exact finalRecord_spec
      · rw [hc, if_pos rfl]
        exact ⟨rfl, rfl⟩
  · intro s dt t
    refine ⟨fun v c h p => exec_resetRelease_held, fun v c p => exec_resetRelease, fun a b p => bootRomDone_trial,
      fun a b p => bootRomDone_spec, exec_mImageLoaded,
      exec_keyStoreReady, fun hp hw => exec_cdImagesLoaded hp hw, fun hp hw => ?_, fun hp => ?_, fun hw hr => ?_⟩
    · rw [exec_cdImagesLoaded hp hw, if_neg Bool.false_ne_true]
      refine ⟨fun ht => ?_, fun ht => ?_⟩
      · rw [ht, if_pos (beq_self_eq_true Stage.trial)]
      · rw [beq_false_of_ne ht, if_neg Bool.false_ne_true]
        exact ⟨_, rfl, rfl, congrArg Decant.active (otherBank_upd t), rfl, rfl⟩
    · obtain ⟨d, hexec, hsteady, hconf⟩ := exec_restoreStep (dt := dt) hp
      exact ⟨_, hexec, lockBegun_spec hsteady hconf⟩
    · obtain ⟨v, x, z, hexec, hnv⟩ := exec_lifecycleWipeDone (dt := dt) hw hr
      exact ⟨_, hexec, rfl, rfl, wipeDone_nv hnv⟩

end Sys2Proof.Machine
end

