-- ==== Sys2Proof/Proofs/Passes.lean ====
section
/-!
PROOFS. O28: passes commit, are abandoned and restart. `PassHeld s t` says that `t` has of `s` what a pass leaves for its end: the reports held meanwhile,
the limit work and the STOP that wait for it.
-/
namespace Sys2Proof.Machine
open Sys2Proof

/-! ## What waits for the end of a pass -/

/-- `t` has of `s` what waits for the end of a pass. -/
def PassHeld (s t : State) : Prop := t.sil.held = s.sil.held ∧ t.sil.limitWait = s.sil.limitWait ∧ t.sil.stopBy = s.sil.stopBy

namespace PassHeld

theorem refl (s : State) : PassHeld s s := ⟨rfl, rfl, rfl⟩

theorem trans {s t u : State} (h : PassHeld s t) (k : PassHeld t u) : PassHeld s u :=
  ⟨k.1.trans h.1, k.2.1.trans h.2.1, k.2.2.trans h.2.2⟩

theorem of_said {s t : State} (k : Said s t) : PassHeld s t := by
  unfold PassHeld
  rw [k.sil]
  exact ⟨rfl, rfl, rfl⟩

theorem foldl {s t : State} {α : Type} {l : List α} {g : State → α → State} (hg : ∀ u x, PassHeld u (g u x)) (h : PassHeld s t) :
    PassHeld s (l.foldl g t) := by
  induction l generalizing t with
  | nil => exact h
  | cons x l ih => exact ih (h.trans (hg t x))

theorem onTab {s t : State} {g : SilTables → SilTables} (h : PassHeld s t) : PassHeld s (t.onTab g) := h

theorem onFeeder {s t : State} {f : Nat} {g : Feeder → Feeder} (h : PassHeld s t) : PassHeld s (t.onFeeder f g) := h

theorem onNv {s t : State} {g : Nv → Nv} (h : PassHeld s t) : PassHeld s (t.onNv g) := h

theorem onSched {s t : State} {g : Sched → Sched} (h : PassHeld s t) : PassHeld s (t.onSched g) := h

theorem onSil {s t : State} {g : Sillage → Sillage} (h : PassHeld s t)
    (hg : ((g t.sil).held, (g t.sil).limitWait, (g t.sil).stopBy) = (t.sil.held, t.sil.limitWait, t.sil.stopBy)) : PassHeld s (t.onSil g) := by
  simp only [Prod.mk.injEq] at hg
  exact h.trans hg

theorem emptyQueues {s t : State} (h : PassHeld s t) : PassHeld s t.emptyQueues := by
  unfold State.emptyQueues
  exact foldl (fun u _ => onFeeder (refl u)) h

theorem stuckIf {s t : State} {b : Bool} {addr lsb : Nat} (h : PassHeld s t) : PassHeld s (t.stuckIf b addr lsb) :=
  h.trans (of_said (stuckIf_said ..))

theorem raiseHw {s t : State} {level block cell code : Nat} {pay : List Nat} (h : PassHeld s t) : PassHeld s (t.raiseHw level block cell code pay) :=
  h.trans (of_said (raise_said ..))

theorem abandonPass (s : State) (k : Nat) : PassHeld s (s.abandonPass k) := by
  unfold State.abandonPass
  dsimp only
  have htold := raiseHw (level := 1) (block := 0x11) (cell := 0xFFF) (code := 0x0500) (pay := genPay 0 [(k, 6)])
    (stuckIf (b := (bump 255 s.sil.abandonCnt).2) (addr := wSillage + 0xC) (lsb := 24) (onSil
      (g := fun g => { g with abandonCnt := (bump 255 s.sil.abandonCnt).1, abandonRun := s.sil.abandonRun + 1 })
      (onTab (g := fun t => t.carryField k) (refl s)) rfl))
  split
  · exact htold
  · exact raiseHw (stuckIf (emptyQueues (onSil htold rfl)))

theorem passChange {s t : State} {k a goal out : Nat} (h : PassHeld s t) : PassHeld s (t.passChange k a goal out) := by
  unfold State.passChange State.onQueue
  dsimp only
  split
  · exact onFeeder h
  · split
    · exact onFeeder h
    · exact onFeeder h

theorem commitPass (s : State) (k : Nat) : PassHeld s (s.commitPass k) := by
  unfold State.commitPass
  refine onSil (foldl (fun u e => ?_) (onTab (refl s))) rfl
  dsimp only
  split
  · exact onTab (refl u)
  · exact passChange (onTab (refl u))

theorem applySensor {s t : State} {m : SensorMsg} (h : PassHeld s t) : PassHeld s (t.applySensor m) := by
  unfold State.applySensor
  dsimp only
  split
  · exact onTab (onTab h)
  · exact onTab h

theorem setOvr {s t : State} {a v : Nat} (h : PassHeld s t) : PassHeld s (t.setOvr a v) := by
  unfold State.setOvr
  exact onTab h

theorem writeLimits {s t : State} {c : Option Nat} (h : PassHeld s t) : PassHeld s (t.writeLimits c) := by
  unfold State.writeLimits
  dsimp only
  exact onTab h

theorem overridesDue {s t : State} (h : PassHeld s t) : PassHeld s t.overridesDue := by
  unfold State.overridesDue
  refine foldl (fun u a => ?_) h
  split
  · exact foldl (fun u _ => setOvr (refl u)) (refl u)
  · exact refl u

theorem overridesEnd {s t : State} (h : PassHeld s t) : PassHeld s t.overridesEnd := by
  unfold State.overridesEnd
  exact foldl (fun u _ => setOvr (refl u)) h

theorem limitsDue {s t : State} (h : PassHeld s t) : PassHeld s t.limitsDue := by
  unfold State.limitsDue
  dsimp only
  have hacts : PassHeld s ((t.sched.limitActs.filter (fun a => decide (a.t ≤ t.tb.hcn + 2))).foldl (fun s a => s.writeLimits a.civil) t) :=
    foldl (fun u _ => writeLimits (refl u)) h
  split
  · exact onSched hacts
  · exact onSched (writeLimits hacts)

theorem limitWork {s t : State} (h : PassHeld s t) : PassHeld s t.limitWork := by
  unfold State.limitWork State.overridesOver
  exact limitsDue (onNv (overridesEnd (overridesDue h)))

end PassHeld

/-! ## The end of a pass -/

/-- The end of a pass, with what waited for it as `c` has it (05 R159, R168, R188). -/
def State.passEnded (c : State) (us : Nat) (held : List SensorMsg) (limitWait stopped : Bool) : State :=
  let v := c.onSil (fun g => { g with pass := none, newPhi := [], newOut := [], touched := [], held := [], busStops := 0, passTime := us % 65536 })
  let v := held.foldl (fun v w => v.applySensor w) v
  let v := if limitWait then (v.onSil (fun g => { g with limitWait := false })).limitWork else v
  if stopped then v else v.silStopped

/-- What ends a pass has what waited when the pass was to end. -/
theorem passEnd_eq {s c : State} {us : Nat} (h : PassHeld s c) :
    (let held := c.sil.held
     let v := c.onSil (fun g => { g with pass := none, newPhi := [], newOut := [], touched := [], held := [], busStops := 0, passTime := us % 65536 })
     let v := held.foldl (fun t m => t.applySensor m) v
     let v := if v.sil.limitWait then (v.onSil (fun g => { g with limitWait := false })).limitWork else v
     if v.sil.stopBy.isEmpty then v else v.silStopped) = c.passEnded us s.sil.held s.sil.limitWait s.sil.stopBy.isEmpty := by
  obtain ⟨hheld, hlim, hstop⟩ := h
  let a := c.onSil (fun g => { g with pass := none, newPhi := [], newOut := [], touched := [], held := [], busStops := 0, passTime := us % 65536 })
  let b := s.sil.held.foldl (fun t m => t.applySensor m) a
  have hb : PassHeld a b := .foldl (fun u _ => .applySensor (.refl u)) (.refl a)
  have hblim : b.sil.limitWait = s.sil.limitWait := hb.2.1.trans hlim
  have hbstop : b.sil.stopBy = s.sil.stopBy := hb.2.2.trans hstop
  have hd : (if s.sil.limitWait then (b.onSil (fun g => { g with limitWait := false })).limitWork else b).sil.stopBy = s.sil.stopBy := by
    split
    · have hw : PassHeld (b.onSil (fun g => { g with limitWait := false })) (b.onSil (fun g => { g with limitWait := false })).limitWork :=
        .limitWork (.refl _)
      exact hw.2.2.trans hbstop
    · exact hbstop
  dsimp only
  rw [hheld]
  change (if (if b.sil.limitWait then (b.onSil (fun g => { g with limitWait := false })).limitWork else b).sil.stopBy.isEmpty then _ else _) = _
  rw [hblim, hd]
  rfl

/-- A rerun counted (05 R186). -/
def State.reran (t : State) : State :=
  (t.onSil (fun g => { g with rerunCnt := (bump 255 t.sil.rerunCnt).1 })).stuckIf (bump 255 t.sil.rerunCnt).2 (wSillage + 0xC) 16

theorem reran_held (t : State) : PassHeld t t.reran := .stuckIf (.onSil (.refl t) rfl)

theorem reran_passLate (t : State) (k : Nat) : t.reran.passLate k = t.passLate k := by
  have h : Said (t.onSil (fun g => { g with rerunCnt := (bump 255 t.sil.rerunCnt).1 })) t.reran := stuckIf_said ..
  unfold State.passLate
  rw [h.tb, h.now]
  rfl

theorem exec_passCommit {s : State} {dt : Dt} {k us : Nat} {m m2 fits : Bool} (hp : s.sil.pass = some k) :
    let t := s.tick dt
    let failed := m || decide (0 < s.sil.busStops)
    let again := m2 || decide ((if m then 0 else 1) < s.sil.busStops)
    let w := if failed && fits then t.reran else t
    exec (.passCommit dt m m2 fits us) s = .next ((if (failed && (!fits || again)) || t.passLate k then w.abandonPass k else w.commitPass k).passEnded us
      s.sil.held s.sil.limitWait s.sil.stopBy.isEmpty) := by
  intro t failed again w
  have hw : PassHeld t w := by
    unfold w
    split
    · exact reran_held t
    · exact .refl t
  have hlate : w.passLate k = t.passLate k := by
    unfold w
    split
    · exact reran_passLate t k
    · rfl
  have hc : PassHeld t (if (failed && (!fits || again)) || t.passLate k then w.abandonPass k else w.commitPass k) := by
    split
    · exact hw.trans (.abandonPass w k)
    · exact hw.trans (.commitPass w k)
  refine Eq.trans ?_ (congrArg Host.Outcome.next (passEnd_eq hc))
  rw [← hlate]
  have hexec : exec (.passCommit dt m m2 fits us) s = execPassCommit dt m m2 fits us s := rfl
  rw [hexec]
  unfold execPassCommit
  dsimp only
  rw [State.tick_sil, hp]
  rfl

theorem passEnded_isEmpty {c : State} {us : Nat} {held : List SensorMsg} {lim : Bool} {l : List (Nat × Nat)} :
    c.passEnded us held lim l.isEmpty =
      (let v := c.onSil (fun g => { g with pass := none, newPhi := [], newOut := [], touched := [], held := [], busStops := 0, passTime := us % 65536 })
       let v := held.foldl (fun v w => v.applySensor w) v
       let v := if lim then (v.onSil (fun g => { g with limitWait := false })).limitWork else v
       if l = [] then v else v.silStopped) := by
  simp only [State.passEnded, List.isEmpty_iff]

theorem commitPass_last (t : State) (k : Nat) : (t.commitPass k).sil.last = k ∧ (t.commitPass k).sil.abandonRun = 0 := ⟨rfl, rfl⟩

theorem abandonPass_carries {t : State} {k : Nat} (h : t.sil.abandonRun < 2) :
    (t.abandonPass k).sil.tab = t.sil.tab.carryField k ∧ (t.abandonPass k).sil.st = t.sil.st := by
  unfold State.abandonPass
  dsimp only
  rw [if_pos (by omega)]
  have hsaid {u : State} {b : Bool} {addr lsb level block cell code : Nat} {pay : List Nat} : Said u ((u.stuckIf b addr lsb).raiseHw level block cell code pay) :=
    (stuckIf_said ..).trans (raise_said ..)
  rw [hsaid.sil]
  exact ⟨rfl, rfl⟩

/-! ## The start of a pass -/

theorem passNow_cut {t : State} {k : Nat} (h : t.passNow = some k) : ∃ e, (k, e) ∈ t.tb.cuts ∧ e + passStartC t.tb.p60 = t.now := by
  obtain ⟨x, hx, rfl⟩ := Option.map_eq_some_iff.mp h
  have hq := List.find?_some hx
  simp only [Bool.and_eq_true, decide_eq_true_eq] at hq
  exact ⟨x.2, List.mem_of_find?_eq_some hx, hq.1.1⟩

theorem exec_sillagePass {s : State} {dt : Dt} (hst : s.sil.st = .run) (hp : s.sil.pass = none) (hstop : s.sil.stopBy = [])
    (hr : (s.tick dt).runs .c = true) (hb : s.tb.st ≠ .hold) (hf : s.pow.supplyFail = false) (hc : s.pow.cmdShutdown = false) :
    let t := s.tick dt
    (∀ k, t.passNow = some k → ∃ phi outs, exec (.sillagePass dt) s = .next { t with sil := { t.sil with
      pass := some k, started := some k, newPhi := phi, newOut := outs, touched := [], busStops := 0 } }) ∧
    (t.passNow = none → exec (.sillagePass dt) s = .next t) := by
  intro t
  have hgo : ¬ (t.sil.st != .run || t.sil.pass.isSome || !t.runs .c || t.tb.st == .hold || t.pow.supplyFail || t.pow.cmdShutdown ||
      !t.sil.stopBy.isEmpty) = true := by
    rw [hr, State.tick_sil, State.tick_tb, State.tick_pow, hst, hp, hstop, hf, hc, beq_false_of_ne hb]
    decide
  refine ⟨fun k hk => ⟨t.sil.tab.active.map (fun a => (a, tget 0 (t.sil.tab.passField k t.sil.substeps) a)),
    t.sil.tab.active.filterMap (fun a =>
      if nodeManaged (t.sil.tab.node a) then
        some (a, (t.sil.tab.level a (tget 0 (t.sil.tab.passField k t.sil.substeps) a)).1, (t.sil.tab.level a (tget 0 (t.sil.tab.passField k t.sil.substeps) a)).2)
      else none), congrArg Host.Outcome.next ((if_neg hgo).trans ?_)⟩, fun hn => congrArg Host.Outcome.next ((if_neg hgo).trans ?_)⟩
  · rw [show (s.tick dt).passNow = some k from hk]
  · rw [show (s.tick dt).passNow = none from hn]

/-! ## The automatic restart -/

theorem exec_sillageAutoRestart {s : State} {dt : Dt} (hst : s.sil.st = .faulted) (hf : s.sil.faultAt + 16 ≤ s.tb.hcn) :
    let t := s.tick dt
    ((∀ a, s.sil.autoAt = some a → a + 256 < s.sil.faultAt) → exec (.sillageAutoRestart dt) s =
      .next ((t.silStart s.tb.hcn).onSil (fun g => { g with autoRestarted := true, autoAt := some s.tb.hcn }))) ∧
    (∀ a, s.sil.autoAt = some a → s.sil.faultAt ≤ a + 256 → exec (.sillageAutoRestart dt) s = .next t) := by
  intro t
  refine ⟨fun h => congrArg Host.Outcome.next (if_pos ?_), fun a ha h => congrArg Host.Outcome.next (if_neg ?_)⟩
  · rw [State.tick_sil, State.tick_tb, hst, decide_eq_true hf]
    cases ha : s.sil.autoAt with
    | none => rfl
    | some a => simpa using h a ha
  · rw [State.tick_sil, ha]
    simp [h]

/-- A table whose values and default have a property reads only such values. -/
theorem tget_of_forall {α : Type} {P : α → Prop} {d : α} {l : Tbl α} (hd : P d) (hl : ∀ e ∈ l, P e.2) (i : Nat) : P (tget d l i) := by
  induction l with
  | nil => exact hd
  | cons e l ih =>
    obtain ⟨j, v⟩ := e
    unfold tget
    split
    · exact hl _ List.mem_cons_self
    · split
      · exact hd
      · exact ih fun x hx => hl x (List.mem_cons_of_mem _ hx)

/-- The engine starts anew with PHI and the history zeroed (05 R192). -/
theorem silStart_phi (t : State) (k a : Nat) : fld ((t.silStart k).sil.tab.state a) 0 16 = 0 := by
  have hzero (w : BitVec 64) : fld (setFld w 0 16 0) 0 16 = 0 := fld_setFld_same w 0 (by decide)
  refine tget_of_forall (P := fun w => fld w 0 16 = 0) (hzero _) (fun e he => ?_) a
  obtain ⟨x, -, hx⟩ := List.mem_filterMap.mp he
  dsimp only at hx
  split at hx
  · cases hx
  · cases hx
    exact hzero _

/-- Settles O28. -/
theorem passesCommitFaultAndRestart : Obligations.PassesCommitFaultAndRestart := by
  unfold Obligations.PassesCommitFaultAndRestart
  refine ⟨fun s dt => ⟨fun hst hp hstop hr hb hf hc => ?_, fun k us m m2 fits hp => ?_, fun k => commitPass_last .., fun k h => abandonPass_carries h⟩,
    fun s dt => ?_⟩
  · obtain ⟨hstart, hnone⟩ := exec_sillagePass hst hp hstop hr hb hf hc
    refine ⟨fun k hk => ⟨passNow_cut hk, ?_⟩, hnone⟩
    obtain ⟨phi, outs, he⟩ := hstart k hk
    exact ⟨_, he, rfl, rfl, rfl⟩
  · intro failed again b reran done
    have hdone (u : State) : done u = u.passEnded us s.sil.held s.sil.limitWait s.sil.stopBy.isEmpty := passEnded_isEmpty.symm
    have hfailed : (m || decide (0 < s.sil.busStops)) = true ↔ failed := by simp [failed]
    have hagain : (m2 || decide ((if m then 0 else 1) < s.sil.busStops)) = true ↔ again := by simp [again]
    rw [exec_passCommit hp]
    refine ⟨fun hf hl => ?_, fun hf hl => ?_, fun hf hfit => ?_, fun hf hfit h => ?_, fun hf hfit ha hl => ?_⟩
    · rw [hdone, eq_false_of_ne_true (mt hfailed.mp hf), hl]
      rfl
    · rw [hdone, eq_false_of_ne_true (mt hfailed.mp hf), hl]
      rfl
    · rw [hdone, hfailed.mpr hf, hfit]
      rfl
    · rw [hdone, hfailed.mpr hf, hfit]
      obtain h | h := h
      · rw [hagain.mpr h]
        rfl
      · rw [h, Bool.or_true]
        rfl
    · rw [hdone, hfailed.mpr hf, hfit, eq_false_of_ne_true (mt hagain.mp ha), hl]
      rfl
  · intro t hst hf
    obtain ⟨hgo, hno⟩ := exec_sillageAutoRestart (dt := dt) hst hf
    exact ⟨hgo, hno, rfl, rfl, rfl, silStart_phi t s.tb.hcn⟩

end Sys2Proof.Machine
end

