-- ==== Sys2Proof/Proofs/Frames.lean ====
section
/-!
PROOFS. O56: a frame takes its HCN and carries one block. `FeedersHeld s t` says that `t` has the time base and the feeders of `s`, as what a probe's end
leaves; `Closing f s t` that the block of feeder `f`, once closed, is closed in `t` too.
-/
namespace Sys2Proof.Machine
open Sys2Proof

/-! ## What a probe's end leaves of the link -/

def FeedersHeldOf (s : State) (tb : TimeBase) (fdr : Tbl Feeder) : Prop := tb = s.tb ∧ fdr = s.fdr

/-- `t` has the time base and the feeders of `s`. -/
def FeedersHeld (s t : State) : Prop := FeedersHeldOf s t.tb t.fdr

namespace FeedersHeld

theorem refl (s : State) : FeedersHeld s s := ⟨rfl, rfl⟩

theorem of_said {s t u : State} (h : FeedersHeld s t) (k : Said t u) : FeedersHeld s u := ⟨k.tb.trans h.1, k.fdr.trans h.2⟩

theorem ite {s a b : State} {p : Prop} [Decidable p] (h : FeedersHeld s a) (k : FeedersHeld s b) : FeedersHeld s (if p then a else b) := by
  split
  · exact h
  · exact k

/-- A state written out in its fields. -/
theorem record {s t : State} {pending out fresh now order pow jnc acts dspFrames joinRefused wtx rx nodes sil sched meter accord blot sign sbus
    remSwaps net rtc bk keys ev vxc nvmc nv mem} (h : FeedersHeld s t) :
    FeedersHeld s ⟨pending, out, fresh, now, order, pow, jnc, t.tb, acts, dspFrames, joinRefused, wtx, rx, t.fdr, nodes, sil, sched, meter, accord,
      blot, sign, sbus, remSwaps, net, rtc, bk, keys, ev, vxc, nvmc, nv, mem⟩ := h

theorem onBlot {s t : State} {g : Blotter → Blotter} (h : FeedersHeld s t) : FeedersHeld s (t.onBlot g) := h

theorem onNode {s t : State} {a : Nat} {g : NodeDyn → NodeDyn} (h : FeedersHeld s t) : FeedersHeld s (t.onNode a g) := h

theorem onBstat {s t : State} {a : Nat} {g : BitVec 32 → BitVec 32} (h : FeedersHeld s t) : FeedersHeld s (t.onBstat a g) := h

theorem setFailed {s t : State} {a : Nat} {b : Bool} (h : FeedersHeld s t) : FeedersHeld s (t.setFailed a b) := by
  unfold State.setFailed
  exact onBlot (onBstat h)

theorem setSuspect {s t : State} {a : Nat} {b : Bool} (h : FeedersHeld s t) : FeedersHeld s (t.setSuspect a b) := by
  unfold State.setSuspect
  exact onBstat h

theorem setModel {s t : State} {a : Nat} {w : BitVec 64} (h : FeedersHeld s t) : FeedersHeld s (t.setModel a w) := h

theorem dropReq {s t : State} {i : Nat} (h : FeedersHeld s t) : FeedersHeld s (t.dropReq i) := h

theorem dropProbe {s t : State} {i : Nat} (h : FeedersHeld s t) : FeedersHeld s (t.dropProbe i) := h

theorem onReq {s t : State} {i : Nat} {g : PReq → PReq} (h : FeedersHeld s t) : FeedersHeld s (t.onReq i g) := h

theorem setLevels {s t : State} {a sent : Nat} {out : Option Nat} (h : FeedersHeld s t) : FeedersHeld s (t.setLevels a sent out) := h

theorem raiseFw {s t : State} {r : Region} {code : Nat} {pay : List Nat} (h : FeedersHeld s t) : FeedersHeld s (t.raiseFw r code pay) :=
  h.of_said (raise_said ..)

theorem result {s t : State} {x : ResultRec} {quiet : Bool} (h : FeedersHeld s t) : FeedersHeld s (t.result x quiet) := by
  unfold State.result
  dsimp only
  exact ite (onBstat (record (onBlot h))) (of_said (onBstat (record (onBlot h))) (notifyClass_said ..))

theorem learn {s t : State} {a hi lo : Nat} {y : Int} {restart : Bool} (h : FeedersHeld s t) : FeedersHeld s (t.learn a hi lo y restart) := by
  have hinfo {o : Option (Int × Int × Int)} : FeedersHeld s (match o with | some m => (m, t) | none => t.freeInfo).2 := by
    split
    · exact h
    · exact h
  unfold State.learn
  dsimp only
  refine ite h ?_
  split
  · exact of_said (onBlot hinfo) (raise_said ..)
  · exact onBlot (ite (of_said (onBstat (setModel hinfo)) (raise_said ..)) (onBstat (setModel hinfo)))

theorem finishProbe {s t : State} {p : Probe} {outcome cause ack : Nat} {j : Judged} (h : FeedersHeld s t) :
    FeedersHeld s (t.finishProbe p outcome cause ack j) := by
  unfold State.finishProbe
  dsimp only
  split
  · exact dropProbe h
  · have hres {x : ResultRec} {quiet : Bool} {i a : Nat} {g : BitVec 32 → BitVec 32} {q : Prop} [Decidable q] :
        FeedersHeld s (if q then ((t.result x quiet).dropProbe i).onBstat a g else (t.result x quiet).dropProbe i) :=
      ite (onBstat (dropProbe (result h))) (dropProbe (result h))
    refine ite (dropReq (learn (setSuspect (setFailed hres)))) (ite (ite (dropReq hres) (onReq hres)) (ite ?_ ?_))
    · exact onReq (setSuspect (ite hres (dropReq hres)))
    · exact ite (dropReq (raiseFw (setSuspect (setFailed hres)))) (ite (dropReq (learn (raiseFw (setSuspect hres)))) (dropReq (setSuspect hres)))

theorem cutProbe {s t : State} {a k : Nat} (h : FeedersHeld s t) : FeedersHeld s (t.cutProbe a k) := by
  unfold State.cutProbe
  split
  · exact finishProbe h
  · exact h

theorem takeLevel {s t : State} {a l k : Nat} (h : FeedersHeld s t) : FeedersHeld s (t.takeLevel a l k) := by
  unfold State.takeLevel
  exact cutProbe (onNode h)

theorem addTotal {s t : State} {addr lsb n : Nat} (h : FeedersHeld s t) : FeedersHeld s (t.addTotal addr lsb n) := by
  unfold State.addTotal
  dsimp only
  refine ite (of_said ?_ (raise_said ..)) (record h)
  exact record h

end FeedersHeld

/-! ## What the closing of a block leaves -/

/-- `t` has the time base of `s`, and the block of feeder `f` is closed where it is in `s`. -/
structure Closing (f : Nat) (s t : State) : Prop where
  tb : t.tb = s.tb
  closed : (s.feeder f).closed = true → (t.feeder f).closed = true

namespace Closing

variable {f : Nat}

theorem refl (s : State) : Closing f s s := ⟨rfl, id⟩

theorem trans {s t u : State} (h : Closing f s t) (k : Closing f t u) : Closing f s u := ⟨k.tb.trans h.tb, k.closed ∘ h.closed⟩

theorem feeders {s t u : State} (h : Closing f s t) (k : FeedersHeld t u) : Closing f s u := by
  refine h.trans ⟨k.1, fun hc => ?_⟩
  unfold State.feeder at hc ⊢
  rw [show u.fdr = t.fdr from k.2]
  exact hc

theorem said {s t u : State} (h : Closing f s t) (k : Said t u) : Closing f s u := h.feeders (.of_said (.refl t) k)

theorem foldl {s t : State} {α : Type} {l : List α} {g : State → α → State} (hg : ∀ u x, Closing f u (g u x)) (h : Closing f s t) :
    Closing f s (l.foldl g t) := by
  induction l generalizing t with
  | nil => exact h
  | cons x l ih => exact ih (h.trans (hg t x))

/-- A change of the feeder that keeps its block closed. -/
theorem onFeeder {s t : State} {g : Feeder → Feeder} (h : Closing f s t) (hg : ∀ x : Feeder, (g x).closed = x.closed) : Closing f s (t.onFeeder f g) := by
  refine h.trans ⟨rfl, fun hc => ?_⟩
  have hgc : (g (t.feeder f)).closed = true := (hg _).trans hc
  rw [onFeeder_feeder (fun e => by rw [e] at hgc; exact Bool.noConfusion hgc)]
  exact hgc

theorem counted {s t : State} {b : Bool} {addr lsb addr' lsb' n : Nat} (h : Closing f s t) : Closing f s ((t.stuckIf b addr lsb).addTotal addr' lsb' n) :=
  (h.said (stuckIf_said ..)).feeders (.addTotal (.refl _))

theorem raiseGen {s t : State} {r : Region} {gg addr : Nat} {vals : Payload} (h : Closing f s t) : Closing f s (t.raiseGen r gg addr vals) :=
  h.said (raise_said ..)

theorem noteAges {s t : State} {j : Nat} {q p : List QEntry} (h : Closing f s t) : Closing f s (t.noteAges f j q p) := by
  unfold State.noteAges
  dsimp only
  exact counted (h.onFeeder fun _ => by rfl)

theorem noteSat {s t : State} {j : Nat} (h : Closing f s t) : Closing f s (t.noteSat f j) := by
  unfold State.noteSat
  dsimp only
  split
  · split
    · exact raiseGen ((counted (h.onFeeder fun _ => by rfl)).onFeeder fun _ => by rfl)
    · exact counted (h.onFeeder fun _ => by rfl)
  · split
    · exact raiseGen (h.onFeeder fun _ => by rfl)
    · exact h.onFeeder fun _ => by rfl

theorem placedBg {s t : State} {j : Nat} {r : BgRef} (h : Closing f s t) : Closing f s (t.placedBg f j r) := by
  unfold State.placedBg
  cases r with
  | keyFeeder => exact h.onFeeder fun _ => by rfl
  | nodeKey idx => exact (h.onFeeder fun _ => by rfl).feeders (.onNode (.refl _))
  | item id => exact h.feeders (.record (.refl t))
  | img n =>
    dsimp only
    split
    · exact (h.onFeeder fun _ => by rfl).said (notifyClass_said ..)
    · exact h.onFeeder fun _ => by rfl

theorem placedBgs {s t : State} {j : Nat} {l : List (BgRef × Item)} (h : Closing f s t) : Closing f s (l.foldl (fun s e => s.placedBg f j e.1) t) :=
  foldl (fun u _ => placedBg (refl u)) h

end Closing

/-- One level placed in the block of HCN `j`. -/
def State.placeLevel (f j : Nat) (p : State × List LevelRec) (e : QEntry) : State × List LevelRec :=
  let a := 2048 * f + e.idx
  let before := stSent (p.1.sil.tab.state a)
  let n := p.1.node a
  let rank := e.head.getD (p.1.feeder f).headCnt
  let s := (p.1.setLevels a e.level none).onFeeder f (fun x => { x with queue := qDrop x.queue e.idx, headCnt := x.headCnt + 1 })
  let s := if s.tb.hcn ≤ j then s.onNode a (fun n => { n with next := some e.level }) else s.takeLevel a e.level (j + 1)
  let s := s.cutProbe a (j + 1)
  (s, p.2 ++ [⟨e.idx, e.level, e.hcn, before, rank, n.force, n.known⟩])

theorem placeLevels_eq (s : State) (f j : Nat) (l : List QEntry) : s.placeLevels f j l = l.foldl (State.placeLevel f j) (s, []) := rfl

theorem placeLevel_closing {f j : Nat} {p : State × List LevelRec} {e : QEntry} : Closing f p.1 (State.placeLevel f j p e).1 := by
  unfold State.placeLevel
  dsimp only
  have hlevels : Closing f p.1 ((p.1.setLevels (2048 * f + e.idx) e.level none).onFeeder f (fun x =>
      { x with queue := qDrop x.queue e.idx, headCnt := x.headCnt + 1 })) :=
    ((Closing.refl _).feeders (.setLevels (.refl _))).onFeeder fun _ => rfl
  exact hlevels.feeders (.cutProbe (.ite (.onNode (.refl _)) (.takeLevel (.refl _))))

/-- The levels that a block carries: one for each that was chosen. -/
theorem placeLevels_spec (s : State) (f j : Nat) (l : List QEntry) :
    Closing f s (s.placeLevels f j l).1 ∧ (s.placeLevels f j l).2.length = l.length := by
  have hfold (l : List QEntry) (p : State × List LevelRec) : Closing f p.1 (l.foldl (State.placeLevel f j) p).1 ∧
      (l.foldl (State.placeLevel f j) p).2.length = p.2.length + l.length := by
    induction l generalizing p with
    | nil => exact ⟨.refl _, rfl⟩
    | cons e l ih =>
      obtain ⟨hc, hl⟩ := ih (State.placeLevel f j p e)
      have hone : (State.placeLevel f j p e).2.length = p.2.length + 1 := List.length_append
      exact ⟨placeLevel_closing.trans hc, hl.trans (by rw [hone, List.length_cons]; omega)⟩
  obtain ⟨hc, hl⟩ := hfold l (s, [])
  exact ⟨hc, hl.trans (Nat.zero_add _)⟩

/-- What the body of a block is (04 R126, R127). -/
structure BlockBody (f j : Nat) (full : Bool) (s : State) (r : State × Block) : Prop where
  closing : Closing f s r.1
  hcn : r.2.hcn = j
  bt : r.2.bt = if full then 12 else r.2.levels.length
  levels : r.2.levels.length ≤ if s.tb.p60 then 9 else 11

/-- The body made of the levels `l` that were chosen, placed from the state `a` on. -/
theorem blockBody_of {s a : State} {f j gen rn rx rp : Nat} {full : Bool} {l : List QEntry} {m : List (BgRef × Item)} {items : List Item}
    {g : Feeder → Feeder} (ha : Closing f s a) (hl : l.length ≤ if s.tb.p60 then 9 else 11) (hg : ∀ x : Feeder, (g x).closed = x.closed) :
    BlockBody f j full s (if full = true then
      ((m.foldl (fun s e => s.placedBg f j e.1) (a.placeLevels f j l).1).onFeeder f g,
        { hcn := j, bt := if full = true then 12 else (a.placeLevels f j l).2.length, kgen := gen, rrNow := rn, rrNext := rx, rrPrev := rp,
          levels := (a.placeLevels f j l).2, items := items })
      else (m.foldl (fun s e => s.placedBg f j e.1) (a.placeLevels f j l).1,
        { hcn := j, bt := if full = true then 12 else (a.placeLevels f j l).2.length, kgen := gen, levels := (a.placeLevels f j l).2, items := items })) := by
  obtain ⟨hp, hn⟩ := placeLevels_spec a f j l
  have hbg := (ha.trans hp).placedBgs (j := j) (l := m)
  cases full with
  | true => exact ⟨hbg.onFeeder hg, rfl, rfl, Nat.le_trans (Nat.le_of_eq hn) hl⟩
  | false => exact ⟨hbg, rfl, rfl, Nat.le_trans (Nat.le_of_eq hn) hl⟩

theorem closeBody_spec (s : State) (f j : Nat) (full : Bool) : BlockBody f j full s (s.closeBody f j full) := by
  have hmost {n : Nat} {l : List QEntry} :
      (l.take (min (if full then (if s.tb.p60 then 4 else 6) else (if s.tb.p60 then 9 else 11)) n)).length ≤ if s.tb.p60 then 9 else 11 := by
    rw [List.length_take]
    cases full <;> cases s.tb.p60 <;> simp
  unfold State.closeBody
  dsimp only
  refine blockBody_of ?_ hmost (fun _ => by rfl)
  exact ((Closing.refl s).onFeeder fun _ => by rfl).placedBgs.noteAges

/-- A block that opens a join (04 R146). -/
theorem closeOpen_spec (s : State) (f j : Nat) : Closing f s (s.closeOpen f j).1 ∧ (s.closeOpen f j).2.hcn = j ∧ (s.closeOpen f j).2.bt = 13 ∧
    (s.closeOpen f j).2.levels.length = 0 := by
  unfold State.closeOpen
  split
  · exact ⟨.refl s, rfl, rfl, rfl⟩
  · exact ⟨(Closing.refl s).onFeeder fun _ => by rfl, rfl, rfl, rfl⟩

theorem blockType_cases (x : Feeder) (j : Nat) : x.blockType j = 12 ∨ x.blockType j = 13 ∨ x.blockType j = 0 := by
  unfold Feeder.blockType
  split
  · exact .inl rfl
  · split
    · exact .inr (.inl rfl)
    · exact .inr (.inr rfl)

theorem closeBlock_spec {s : State} {f : Nat} (hc : (s.feeder f).closed = true) (hd : (s.feeder f).damaged = false) :
    let j := (s.feeder f).frame
    ∃ b : Block, ((s.closeBlock f).feeder f).block = some b ∧ ((s.closeBlock f).feeder f).closed = true ∧ b.hcn = j ∧
      b.bt = (if (s.feeder f).blockType j = 0 then b.levels.length else (s.feeder f).blockType j) ∧
      b.levels.length ≤ (if s.tb.p60 then 9 else 11) ∧ (s.closeBlock f).tb = s.tb := by
  intro j
  have hmade : ∃ (a : State) (b : Block), (if (s.feeder f).blockType j = 13 then (s.noteAges f j (s.feeder f).queue []).closeOpen f j
      else s.closeBody f j ((s.feeder f).blockType j == 12)) = (a, b) ∧ Closing f s a ∧ b.hcn = j ∧
        b.bt = (if (s.feeder f).blockType j = 0 then b.levels.length else (s.feeder f).blockType j) ∧ b.levels.length ≤ (if s.tb.p60 then 9 else 11) := by
    obtain h | h | h := blockType_cases (s.feeder f) j
    · obtain ⟨hcl, hh, hb, hl⟩ := closeBody_spec s f j true
      rw [h]
      exact ⟨_, _, rfl, hcl, hh, hb, hl⟩
    · obtain ⟨hcl, hh, hb, hl⟩ := closeOpen_spec (s.noteAges f j (s.feeder f).queue []) f j
      rw [h]
      exact ⟨_, _, rfl, (Closing.refl s).noteAges.trans hcl, hh, hb, Nat.le_trans (Nat.le_of_eq hl) (Nat.zero_le _)⟩
    · obtain ⟨hcl, hh, hb, hl⟩ := closeBody_spec s f j false
      rw [h]
      exact ⟨_, _, rfl, hcl, hh, hb, hl⟩
  obtain ⟨a, b, he, hcl, hh, hb, hl⟩ := hmade
  have hsent {u : State} (h : Closing f s u) : Closing f s (if bit u.wtx.muted f then u
      else (blockTheta (s.feeder f).ref (u.blockBits f b)).zipIdx.foldl (fun s e => s.emit (.slot f (e.2 + 2) (sentPhases e.1))) u) := by
    split
    · exact h
    · exact .foldl (fun v _ => (Closing.refl v).feeders (.record (.refl v))) h
  have hlast {u : State} (hu : Closing f s u) : ((u.onFeeder f (fun x => { x with block := some b })).feeder f).block = some b ∧
      ((u.onFeeder f (fun x => { x with block := some b })).feeder f).closed = true := by
    have hne (x : Feeder) : ({ x with block := some b } : Feeder) ≠ {} := fun e => by cases congrArg Feeder.block e
    rw [onFeeder_feeder (hne _)]
    exact ⟨rfl, hu.closed hc⟩
  have hclose : s.closeBlock f = (if bit (a.noteSat f j).wtx.muted f then a.noteSat f j
      else (blockTheta (s.feeder f).ref ((a.noteSat f j).blockBits f b)).zipIdx.foldl (fun s e => s.emit (.slot f (e.2 + 2) (sentPhases e.1)))
        (a.noteSat f j)).onFeeder f (fun x => { x with block := some b }) := by
    unfold State.closeBlock
    dsimp only
    rw [he, hd]
    rfl
  have hu := hsent (hcl.noteSat (j := j))
  obtain ⟨hblock, hclosed⟩ := hlast hu
  rw [hclose]
  exact ⟨b, hblock, hclosed, hh, hb, hl, hu.tb⟩

theorem exec_blockClose {s : State} {dt : Dt} {f : Nat} (hf : f < 8) (hlive : ((s.tick dt).feeder f).live = true) (hb : ((s.tick dt).feeder f).block = none)
    (hc : ((s.tick dt).feeder f).closed = false) (ht : (s.tick dt).now = ((s.tick dt).feeder f).refTime + msC) :
    exec (.blockClose dt f) s = .next (((s.tick dt).onFeeder f (fun x => { x with closed := true })).closeBlock f) := by
  refine congrArg Host.Outcome.next (if_pos ?_)
  rw [hlive, hb, hc, decide_eq_true ht, decide_eq_true hf]
  rfl

/-! ## The begin of a frame -/

/-- The frame of HCN `k` begun on feeder `f`, before its beacon goes out (02 R71, R76; 03 R99). -/
def State.frameBegun (t : State) (f k : Nat) : State :=
  let t := (t.settleFrame f).applySet f
  let t := t.onFeeder f (fun x => { x with
    live := true, closed := false, frame := k, refTime := t.now - 60000, owed := none, resync := decide (0 < x.first8), first8 := x.first8 - 1
    sinceSub := stick 9 (x.sinceSub + 1), sinceSat := stick 16 (x.sinceSat + 1) })
  t.onRx f (fun r => { r with learn := stick 17 (r.learn + 1) })

/-- The beacon of a frame and both its slots (04 R118). -/
def State.beaconSent (t : State) (f : Nat) : State :=
  let bits := t.beaconBits f
  let th := beaconTheta (lsbBits 36 bits.toNat)
  let t := t.emit (.beacon f bits ((t.wtx.of f).getD 15) (tget 0 t.wtx.atten f))
  let t := (t.emit (.slot f 0 (sentPhases th.1))).emit (.slot f 1 (sentPhases th.2))
  t.onFeeder f (fun x => { x with ref := th.2, cack := 31 })

theorem exec_frameBurstStart {s : State} {dt : Dt} {f : Nat} (hf : f < 8) :
    let t := s.tick dt
    ((t.linkActive f = false ∨ t.frameNow f = none) → exec (.frameBurstStart dt f) s = .next t) ∧
    (∀ k, t.linkActive f = true → t.frameNow f = some k → exec (.frameBurstStart dt f) s = .next ((t.frameBegun f k).beaconSent f)) := by
  intro t
  have hexec : exec (.frameBurstStart dt f) s = .next ((if decide (f < 8) && t.linkActive f then t.frameNow f else none).elim t
      fun k => (t.frameBegun f k).beaconSent f) := by
    refine congrArg Host.Outcome.next ?_
    cases (if decide (f < 8) && t.linkActive f then t.frameNow f else none)
    · rfl
    · rfl
  rw [hexec, decide_eq_true hf]
  refine ⟨fun h => ?_, fun k hl hk => ?_⟩
  · obtain h | h := h
    · rw [h]
      rfl
    · rw [h, ite_self]
      rfl
  · rw [hl, hk]
    rfl

theorem frameNow_instant {t : State} {f k : Nat} (h : t.frameNow f = some k) : ∃ i, t.refInstant f k = some i ∧ i + 60000 = t.now := by
  unfold State.frameNow at h
  dsimp only at h
  have hq := List.find?_some h
  simp only [decide_eq_true_eq] at hq
  obtain ⟨i, hi, he⟩ := Option.map_eq_some_iff.mp hq
  exact ⟨i, hi, he⟩

/-- A change that leaves a feeder live is read back, whatever the table's form. -/
theorem onFeeder_live {s : State} {f : Nat} {g : Feeder → Feeder} (h : (g (s.feeder f)).live = true) : (s.onFeeder f g).feeder f = g (s.feeder f) :=
  onFeeder_feeder fun e => by rw [e] at h; cases h

theorem frameBegun_spec (t : State) (f k : Nat) : ((t.frameBegun f k).feeder f).live = true ∧ ((t.frameBegun f k).feeder f).closed = false ∧
    ((t.frameBegun f k).feeder f).frame = k ∧ (t.frameBegun f k).tb = t.tb := by
  have htb : ((t.settleFrame f).applySet f).tb = t.tb := (Steady.applySet (f := f) (.settleFrame (f := f) (.refl t))).1.2.2.2
  have hfeeder {u : State} {g : Feeder → Feeder} {r : RxPath → RxPath} (h : (g (u.feeder f)).live = true) :
      ((u.onFeeder f g).onRx f r).feeder f = g (u.feeder f) := onFeeder_live h
  unfold State.frameBegun
  dsimp only
  rw [hfeeder rfl]
  exact ⟨rfl, rfl, rfl, htb⟩

theorem beaconSent_spec {t : State} {f : Nat} (h : (t.feeder f).live = true) : ∃ (w : BitVec 36) (d g : Nat) (a b : List Nat),
    (t.beaconSent f).out = t.out ++ [.beacon f w d g, .slot f 0 a, .slot f 1 b] ∧
      (t.beaconSent f).feeder f = { t.feeder f with ref := (beaconTheta (lsbBits 36 (t.beaconBits f).toNat)).2, cack := 31 } ∧ (t.beaconSent f).tb = t.tb := by
  have hthree (l : List Out) (x y z : Out) : l ++ [x] ++ [y] ++ [z] = l ++ [x, y, z] := by simp
  exact ⟨_, _, _, _, _, hthree _ _ _ _, onFeeder_live h, rfl⟩

/-- Settles O56. -/
theorem framesCarryOneBlock : Obligations.FramesCarryOneBlock := by
  unfold Obligations.FramesCarryOneBlock
  intro s dt f hf t
  obtain ⟨hno, hgo⟩ := exec_frameBurstStart (s := s) (dt := dt) hf
  refine ⟨hno, fun k hl hk => ⟨frameNow_instant hk, ?_⟩, fun hlive hb hc hd ht => ?_⟩
  · obtain ⟨hlive, hclosed, hframe, htb⟩ := frameBegun_spec t f k
    obtain ⟨w, d, g, a, b, hout, hfeeder, htb'⟩ := beaconSent_spec hlive
    refine ⟨_, _, w, d, g, a, b, hgo k hl hk, hout, ?_, ?_, ?_, ?_, htb'.trans htb⟩
    · rw [hfeeder]
      exact hlive
    · rw [hfeeder]
      exact hclosed
    · rw [hfeeder]
      exact hframe
    · rw [hfeeder]
  · have hclosed : (t.onFeeder f (fun x => { x with closed := true })).feeder f = { t.feeder f with closed := true } :=
      onFeeder_live hlive
    obtain ⟨b, hblock, hcl, hh, hbt, hlen, htb⟩ := closeBlock_spec (s := t.onFeeder f (fun x => { x with closed := true })) (f := f)
      (by rw [hclosed]) (by rw [hclosed]; exact hd)
    rw [hclosed] at hh hbt
    refine ⟨_, b, exec_blockClose hf hlive hb hc ht, hblock, hcl, hh, ?_, hlen, htb⟩
    rw [hh]
    exact hbt

end Sys2Proof.Machine
end

