-- ==== Sys2Proof/Proofs/Uplink.lean ====
section
/-!
PROOFS. O58: what a report does to its node, what the receive paths count, and the timers of a node. `NodesHeld s t` says that `t` has the nodes, the
feeders and the non-volatile content of `s`; `DecodedAs u f …` what a path holds once it has decoded a burst.
-/
namespace Sys2Proof.Machine
open Sys2Proof

/-! ## What a report leaves -/

/-- `t` has the nodes, the feeders and the non-volatile content of `s`. -/
def NodesHeld (s t : State) : Prop := t.nodes = s.nodes ∧ t.fdr = s.fdr ∧ t.nv = s.nv

namespace NodesHeld

theorem of_said {s t : State} (h : Said s t) : NodesHeld s t := ⟨h.nodes, h.fdr, h.nv⟩

theorem ite {s a b : State} {p : Prop} [Decidable p] (h : NodesHeld s a) (k : NodesHeld s b) : NodesHeld s (if p then a else b) := by
  split
  · exact h
  · exact k

theorem onTab {s t : State} {g : SilTables → SilTables} (h : NodesHeld s t) : NodesHeld s (t.onTab g) := h

theorem sensor (s : State) (m : SensorMsg) : NodesHeld s (s.sensor m) := by
  unfold State.sensor
  refine ite ⟨rfl, rfl, rfl⟩ ?_
  unfold State.applySensor
  dsimp only
  exact ite (onTab ((onTab ⟨rfl, rfl, rfl⟩))) (onTab ⟨rfl, rfl, rfl⟩)

theorem nodeNote (s : State) (a eui kind dat : Nat) : NodesHeld s (s.nodeNote a eui kind dat) := of_said (notifyClass_said ..)

theorem node {s t : State} (h : NodesHeld s t) (a : Nat) : t.node a = s.node a := congrArg (fun x => tget ({} : NodeDyn) x a) h.1

theorem feeder {s t : State} (h : NodesHeld s t) (f : Nat) : t.feeder f = s.feeder f := congrArg (fun x => tget ({} : Feeder) x f) h.2.1

end NodesHeld

/-- The node as an accepted report leaves it: heard in the frame, with the level reported. -/
def NodeDyn.heardIn (n : NodeDyn) (k : Nat) (level : Option Nat) : NodeDyn := { n with lastRx := k, level := level.getD n.level }

/-- An accepted report leaves its node's frame and level, and of a level off the one in force a message to the engine. -/
theorem heardNode_held (s : State) (rep : Rep) :
    NodesHeld (s.onNode (repAddr rep) (fun n => n.heardIn (s.feeder rep.f).frame rep.level)) (s.heardNode rep) := by
  unfold State.heardNode
  dsimp only
  split
  · next e => rw [e]; exact ⟨rfl, rfl, rfl⟩
  · next l e =>
    rw [e]
    exact .ite (.sensor (s.onNode (repAddr rep) (fun n => n.heardIn (s.feeder rep.f).frame (some l))) _) ⟨rfl, rfl, rfl⟩

theorem heardNode_nodes (s : State) (rep : Rep) :
    (s.heardNode rep).nodes = tmod {} s.nodes (repAddr rep) (fun n => n.heardIn (s.feeder rep.f).frame rep.level) := (heardNode_held s rep).1

theorem heardNode_fdr (s : State) (rep : Rep) : (s.heardNode rep).fdr = s.fdr := (heardNode_held s rep).2.1

theorem heardNode_nv (s : State) (rep : Rep) : (s.heardNode rep).nv = s.nv := (heardNode_held s rep).2.2

theorem heardNode_twf {s : State} (rep : Rep) (h : twf {} s.nodes = true) : twf {} (s.heardNode rep).nodes = true :=
  (heardNode_nodes s rep).symm ▸ twf_tmod _ _ h

theorem heardNode_lastRx {s : State} (rep : Rep) (h : twf {} s.nodes = true) :
    ((s.heardNode rep).node (repAddr rep)).lastRx = (s.feeder rep.f).frame := by
  rw [(heardNode_held s rep).node, State.onNode_same _ _ _ h]
  rfl

/-- A node is read back after a change to a value other than the default, whatever the table's form. -/
theorem onNode_node {s : State} {a : Nat} {g : NodeDyn → NodeDyn} (h : g (s.node a) ≠ {}) : (s.onNode a g).node a = g (s.node a) := tget_tset_of_ne h

/-- A receive path is read back after a change to a value other than the default, whatever the table's form. -/
theorem onRx_rxp {s : State} {f : Nat} {g : RxPath → RxPath} (h : g (s.rxp f) ≠ {}) : (s.onRx f g).rxp f = g (s.rxp f) := tget_tset_of_ne h

theorem takes_hears {t : State} {rep : Rep} {y : Nat} (h : t.takes rep y = true) : t.hears rep.f = true := by
  unfold State.takes at h
  simp only [Bool.and_eq_true] at h
  exact h.1.1.1

theorem hears_live {t : State} {f : Nat} (h : t.hears f = true) : (t.feeder f).live = true := by
  unfold State.hears at h
  simp only [Bool.and_eq_true] at h
  exact h.1.1.1.2

theorem hears_pathUp {t : State} {f : Nat} (h : t.hears f = true) : t.pathUp f = true := by
  unfold State.hears at h
  unfold State.pathUp
  simp only [Bool.and_eq_true] at h ⊢
  obtain ⟨⟨⟨⟨⟨hf, hr⟩, -⟩, hx⟩, hs⟩, hc⟩ := h
  exact ⟨⟨⟨⟨hf, hr⟩, hx⟩, hs⟩, hc⟩

/-! ## Contention (04 R137) -/

/-- The node with a contention report of frame `k` more. -/
def NodeDyn.contended (n : NodeDyn) (k : Nat) : NodeDyn :=
  let l := k :: n.contention.filter (fun c => decide (k < c + 1024))
  { n with contention := l, quarNext := decide (32 < l.length) }

/-- Of a node that is not and will not be quarantined a contention report is counted. -/
theorem contend_counts {t : State} {a : Nat} (k : Nat) (hq : (t.node a).quarantined = false) (hn : (t.node a).quarNext = false) :
    t.contend a k = (t.onNode a (fun n => n.contended k), true) := by
  unfold State.contend
  dsimp only
  rw [hq, hn]
  rfl

theorem contend_fdr (t : State) (a k : Nat) : (t.contend a k).1.fdr = t.fdr := by
  unfold State.contend
  dsimp only
  split
  · rfl
  · split
    · exact (NodesHeld.nodeNote ..).2.1.trans (raise_said ..).fdr
    · rfl

theorem contend_nv (t : State) (a k : Nat) : (t.contend a k).1.nv = t.nv := by
  unfold State.contend
  dsimp only
  split
  · rfl
  · split
    · exact (NodesHeld.nodeNote ..).2.2.trans (raise_said ..).nv
    · rfl

/-- The index that a join gets rests on the registrations and the feeder alone. -/
theorem joinIdx_congr {s t : State} (f : Nat) (r : Reg) (hn : t.nv = s.nv) (hf : t.fdr = s.fdr) : t.joinIdx f r = s.joinIdx f r := by
  have hfree : t.freeIdx f = s.freeIdx f := by
    unfold State.freeIdx State.joinedAt State.feeder
    rw [hn, hf]
  unfold State.joinIdx
  rw [hfree]

/-! ## Reports of a node (04 R134, R137, R144-R148; 05 R166) -/

theorem presRise_apart {s : State} {rep : Rep} (x y : Nat) (h : (s.tick rep.dt).takes rep 1 = true) (hslot : rep.slot ≠ 0) :
    exec (.presRise rep x y false) s = .next (((s.tick rep.dt).heardNode rep).sensor ⟨repAddr rep, 0x3#32, 0x1#32, false⟩) := by
  simp only [exec, execPresRise, h, if_neg hslot, Bool.not_true, Bool.false_eq_true, if_false]

/-- A presence report of minislot 0 is acknowledged in the next beacon; a local raise is taken up to two frames on. -/
theorem presRise_acknowledged {s : State} {rep : Rep} (x y : Nat) (h : (s.tick rep.dt).takes rep 1 = true) (hslot : rep.slot = 0)
    (hq : ((s.tick rep.dt).node (repAddr rep)).quarantined = false) (hn : ((s.tick rep.dt).node (repAddr rep)).quarNext = false) :
    ∃ u : State, exec (.presRise rep x y true) s = .next u ∧ (u.feeder rep.f).cack = rep.idx % 31 ∧
      (u.node (repAddr rep)).localUntil = some (((s.tick rep.dt).feeder rep.f).frame + 2) := by
  refine ⟨_, by simp only [exec, execPresRise, h, if_pos hslot, contend_counts _ hq hn, Bool.not_true, Bool.false_eq_true, if_false, if_true]; rfl, ?_, ?_⟩
  · have hl : ((s.tick rep.dt).feeder rep.f).live = true := hears_live (takes_hears h)
    rw [show ∀ (v : State) (a : Nat) (g : NodeDyn → NodeDyn), (v.onNode a g).feeder rep.f = v.feeder rep.f from fun _ _ _ => rfl,
      (NodesHeld.sensor ..).feeder, State.feeder, heardNode_fdr]
    exact congrArg Feeder.cack (onFeeder_live (s := (s.tick rep.dt).onNode (repAddr rep) _) (f := rep.f) (g := fun x => { x with cack := rep.idx % 31 }) hl)
  · rw [onNode_node fun e => Option.some_ne_none _ (congrArg NodeDyn.localUntil e)]

theorem presFall_sensed {s : State} {rep : Rep} (x : Nat) (h : (s.tick rep.dt).takes rep 2 = true) :
    exec (.presFall rep x) s = .next (((s.tick rep.dt).heardNode rep).sensor ⟨repAddr rep, 0x1#32, 0, false⟩) :=
  congrArg Host.Outcome.next (if_neg (by rw [h]; decide))

theorem daylight_kept {s : State} {rep : Rep} (lux : Nat) (pres fb : Bool) (temp : Nat) (h : (s.tick rep.dt).takes rep 3 = true)
    (hw : twf {} s.nodes = true) : ∃ u : State, exec (.daylight rep lux pres fb temp) s = .next u ∧ (u.node (repAddr rep)).temp = temp % 256 ∧
      (u.node (repAddr rep)).lastDl = ((s.tick rep.dt).feeder rep.f).frame ∧ (u.node (repAddr rep)).lastRx = ((s.tick rep.dt).feeder rep.f).frame := by
  have hw' : twf {} (s.tick rep.dt).nodes = true := hw
  refine ⟨_, congrArg Host.Outcome.next (if_neg (by rw [h]; decide)), ?_⟩
  dsimp only
  rw [(NodesHeld.sensor ..).node, State.onNode_same _ _ _ (heardNode_twf rep hw')]
  exact ⟨rfl, rfl, heardNode_lastRx rep hw'⟩

theorem statusReport_kept {s : State} {rep : Rep} {w : BitVec 16} {pv : Nat} (fw : Nat) (h : (s.tick rep.dt).takes rep 4 = true)
    (hpv : (s.tick rep.dt).pverOk pv = true) (h0 : bit w 0 = false) (h1 : bit w 1 = false) (h4 : bit w 4 = false) (h5 : bit w 5 = false) :
    exec (.statusReport rep w pv fw) s = .next (((s.tick rep.dt).heardNode rep).onNode (repAddr rep) (fun n =>
      { n with nflags := w, pver := pv % 16, fwver := fw % 16384, incompatible := false })) := by
  simp only [exec, execStatusReport, h, hpv, h0, h1, h4, h5, Bool.not_true, Bool.false_eq_true, if_false, Bool.or_self, Bool.false_and]

/-- The state after a report and the notification of an ACK that it carries. -/
def State.heardAck (s : State) (rep : Rep) (op res ref : Nat) : State :=
  (s.heardNode rep).nodeNote (repAddr rep) ((s.heardNode rep).euiAt (repAddr rep)) 2 (pack [(0, 4, op), (4, 4, res), (8, 20, ref)])

theorem heardAck_held (s : State) (rep : Rep) (op res ref : Nat) : NodesHeld (s.heardNode rep) (s.heardAck rep op res ref) := .nodeNote ..

theorem ack_probe {s : State} {rep : Rep} (res ref : Nat) (h : (s.tick rep.dt).takes rep 5 = true) :
    exec (.ack rep 4 res ref) s = .next (((s.tick rep.dt).heardAck rep 4 res ref).ackProbe (repAddr rep) (ref % 1048576) res) :=
  congrArg Host.Outcome.next (if_neg (by rw [h]; decide))

theorem ack_background {s : State} {rep : Rep} {op : Nat} (res ref : Nat) (h : (s.tick rep.dt).takes rep 5 = true) (h4 : op ≠ 4) (h9 : op ≠ 9) :
    exec (.ack rep op res ref) s = .next (((s.tick rep.dt).heardAck rep op res ref).ackBg rep.f op rep.idx ref res) := by
  refine congrArg Host.Outcome.next ((if_neg (by rw [h]; decide)).trans ?_)
  dsimp only
  split
  · exact absurd rfl h4
  · exact absurd rfl h9
  · rfl

/-- The ACK of the key of the rollover under way: the node has it, and it leaves the queue. -/
theorem ack_key {s : State} {rep : Rep} {p : Roll} {ref : Nat} (h : (s.tick rep.dt).takes rep 5 = true) (hp : tget none s.nv.rolls rep.f = some p)
    (hg : p.gen % 16 = ref) (hw : twf {} s.nodes = true) : ∃ u : State, exec (.ack rep 9 0 ref) s = .next u ∧
      (u.node (repAddr rep)).keyAcked = true ∧ rep.idx ∉ (u.feeder rep.f).keyQ ∧ (u.node (repAddr rep)).lastRx = ((s.tick rep.dt).feeder rep.f).frame := by
  have hw' : twf {} (s.tick rep.dt).nodes = true := hw
  have hheld := heardAck_held (s.tick rep.dt) rep 9 0 ref
  have hrolls : tget none ((s.tick rep.dt).heardAck rep 9 0 ref).nv.rolls rep.f = some p := by rw [hheld.2.2, heardNode_nv]; exact hp
  have hexec : exec (.ack rep 9 0 ref) s = .next ((((s.tick rep.dt).heardAck rep 9 0 ref).onNode (repAddr rep) (fun n => { n with keyAcked := true })).onFeeder
      rep.f (fun x => { x with keyQ := x.keyQ.filter (· != rep.idx) })) := by
    refine congrArg Host.Outcome.next ((if_neg (by rw [h]; decide)).trans ?_)
    dsimp only
    split
    · contradiction
    · split
      · next q hq =>
        cases (show some q = some p from hq.symm.trans hrolls)
        exact if_pos ⟨rfl, hg⟩
      · next hq => exact absurd (hq.symm.trans hrolls) (Option.some_ne_none p).symm
    · contradiction
  have hlive : ((s.tick rep.dt).heardAck rep 9 0 ref |>.feeder rep.f).live = true := by
    rw [hheld.feeder, State.feeder, heardNode_fdr]; exact hears_live (takes_hears h)
  have hnode := State.onNode_same ((s.tick rep.dt).heardAck rep 9 0 ref) (repAddr rep) (fun n => { n with keyAcked := true })
    (hheld.1.symm ▸ heardNode_twf rep hw')
  refine ⟨_, hexec, ?_, ?_, ?_⟩
  · exact congrArg NodeDyn.keyAcked hnode
  · rw [onFeeder_live (by exact hlive)]
    simp
  · refine (congrArg NodeDyn.lastRx hnode).trans ?_
    exact (congrArg NodeDyn.lastRx (hheld.node _)).trans (heardNode_lastRx rep hw')

theorem imgStatus_kept {s : State} {rep : Rep} {img : Nat} (st miss first : Nat) (h : (s.tick rep.dt).takes rep 6 = true) (hi : img ≤ 15)
    (hw : twf {} s.nodes = true) : ∃ u : State, exec (.imgStatus rep img st miss first) s = .next u ∧
      (tget {} (u.node (repAddr rep)).img img).st = st ∧ (tget {} (u.node (repAddr rep)).img img).missing = miss ∧
      (tget {} (u.node (repAddr rep)).img img).first = first ∧ (u.node (repAddr rep)).lastRx = ((s.tick rep.dt).feeder rep.f).frame := by
  have hw' : twf {} (s.tick rep.dt).nodes = true := hw
  refine ⟨_, congrArg Host.Outcome.next (if_neg (by rw [h]; decide)), ?_⟩
  dsimp only
  rw [State.onNode_same _ _ _ (heardNode_twf rep hw'), Nat.mod_eq_of_lt (show img < 16 by omega)]
  dsimp only
  rw [tget_tput_same]
  exact ⟨rfl, rfl, rfl, heardNode_lastRx rep hw'⟩

/-! ## Join requests (04 R145, R146) -/

/-- The usable registrations whose EUI has the bits of the request. -/
def State.joinCands (s : State) (hi lo : Nat) : List Reg := s.nv.regs.filter (fun g => g.usable && g.eui % 2 ^ 59 == hi * 2048 + lo)

theorem joinReq_unknown {s : State} {dt : Dt} {f hi lo : Nat} (l : List Nat) (h : (s.tick dt).hears f = true) (hc : s.joinCands hi lo = []) :
    exec (.joinReq dt f hi lo l) s = .next (s.tick dt).refuseJoin := by
  refine congrArg Host.Outcome.next ((if_neg (by rw [h]; decide)).trans ?_)
  dsimp only
  rw [show List.filter _ (s.tick dt).nv.regs = [] from hc]
  rfl

/-- A request that no candidate's key signed is counted, and nothing of the nodes or the feeders changes. -/
theorem joinReq_unsigned {s : State} {dt : Dt} {f hi lo : Nat} {l : List Nat} (h : (s.tick dt).hears f = true) (hc : s.joinCands hi lo ≠ [])
    (hl : ∀ g ∈ s.joinCands hi lo, g.eui ∉ l) : ∃ u : State, exec (.joinReq dt f hi lo l) s = .next u ∧
      (u.rxp f).badMic = up32 ((s.tick dt).rxp f).badMic ∧ u.nodes = s.nodes ∧ u.fdr = s.fdr := by
  have hnone : (s.joinCands hi lo).find? (fun r => l.contains r.eui) = none :=
    List.find?_eq_none.mpr fun g hg => by rw [List.contains_iff_mem]; exact hl g hg
  have hsaid := stuckFw_said ((s.tick dt).onRx f (fun r => { r with badMic := up32 r.badMic })) .c (fills32 ((s.tick dt).rxp f).badMic)
  refine ⟨_, congrArg Host.Outcome.next ((if_neg (by rw [h]; decide)).trans ?_), ?_, hsaid.nodes, hsaid.fdr⟩
  · dsimp only
    rw [show List.find? _ (List.filter _ (s.tick dt).nv.regs) = none from hnone]
    exact if_neg (by rw [List.isEmpty_iff]; exact hc)
  · rw [State.rxp, hsaid.rx]
    exact congrArg RxPath.badMic (onRx_rxp fun e => up32_ne_zero _ (congrArg RxPath.badMic e))

/-- The join of registration `r` at index `i` on feeder `f`, waiting in the order it came. -/
def State.takeJoin (u : State) (f : Nat) (r : Reg) (i k : Nat) : State :=
  u.onFeeder f (fun y => { y with joins := y.joins ++ [{ eui := r.eui, idx := i, jhcn := k % 65536 }] })

/-- What becomes of the request of a registration whose contention left `u`. -/
def State.joinOn (u : State) (heard : Bool) (f : Nat) (r : Reg) : State :=
  if !heard then u
  else if (match r.fixed with | some a => decide (a / 2048 ≠ f) | none => false) then u.refuseJoin
  else if (u.feeder f).joins.any (fun j => j.eui == r.eui) || 64 ≤ (u.feeder f).joins.length then u
  else match u.joinIdx f r with
    | none => u
    | some i => u.takeJoin f r i (u.feeder f).frame

section
variable {s : State} {dt : Dt} {f hi lo i : Nat} {l : List Nat} {r : Reg}

/-- A request is taken where the registration is free to join the feeder, is not joining yet, and 64 are not. -/
theorem joinOn_taken {t u : State} (hfix : ∀ n, r.fixed = some n → n / 2048 = f) (hnew : ∀ w ∈ (t.feeder f).joins, w.eui ≠ r.eui)
    (hlen : (t.feeder f).joins.length < 64) (hidx : t.joinIdx f r = some i) (hn : u.nv = t.nv) (hf : u.fdr = t.fdr) :
    u.joinOn true f r = u.takeJoin f r i (t.feeder f).frame := by
  have hfeeder : u.feeder f = t.feeder f := congrArg (fun x => tget ({} : Feeder) x f) hf
  have hfixed : (match r.fixed with | some a => decide (a / 2048 ≠ f) | none => false) = false := by
    cases hx : r.fixed with
    | none => rfl
    | some n => exact decide_eq_false (not_not.mpr (hfix n hx))
  have hany : ((u.feeder f).joins.any (fun j => j.eui == r.eui) || decide (64 ≤ (u.feeder f).joins.length)) = false := by
    rw [hfeeder, decide_eq_false (Nat.not_le.mpr hlen), Bool.or_false, List.any_eq_false]
    exact fun w hw => by rw [beq_iff_eq]; exact hnew w hw
  refine (if_neg (by decide)).trans ((if_neg (by rw [hfixed]; decide)).trans ((if_neg (by rw [hany]; decide)).trans ?_))
  rw [joinIdx_congr f r hn hf, hidx, hfeeder]

variable (h : (s.tick dt).hears f = true) (hr : (s.joinCands hi lo).find? (fun g => l.contains g.eui) = some r)
include h hr

theorem joinReq_fresh (ha : r.addr = none) : exec (.joinReq dt f hi lo l) s = .next ((s.tick dt).joinOn true f r) := by
  refine congrArg Host.Outcome.next ((if_neg (by rw [h]; decide)).trans ?_)
  dsimp only
  rw [show List.find? _ (List.filter _ (s.tick dt).nv.regs) = some r from hr]
  dsimp only
  rw [ha]
  rfl

theorem joinReq_contends {n : Nat} (ha : r.addr = some n) : exec (.joinReq dt f hi lo l) s =
    .next (((s.tick dt).contend n ((s.tick dt).feeder f).frame).1.joinOn ((s.tick dt).contend n ((s.tick dt).feeder f).frame).2 f r) := by
  refine congrArg Host.Outcome.next ((if_neg (by rw [h]; decide)).trans ?_)
  dsimp only
  rw [show List.find? _ (List.filter _ (s.tick dt).nv.regs) = some r from hr]
  dsimp only
  rw [ha]
  rfl

end

/-! ## The receive paths (03 R106) -/

/-- Path `f` has decoded `b` bursts, the newest in minislot `m` of frame `k`, and `n` in all. -/
def DecodedAs (u : State) (f b n k m : Nat) : Prop :=
  (u.rxp f).decoded = b ∧ u.total (wWrx + 4 + 0x10 * f) 16 = n ∧ (u.rxp f).got = some (k, m)

namespace DecodedAs

variable {u v : State} {f b n k m : Nat}

theorem congr (h : DecodedAs u f b n k m) (hr : v.rx = u.rx) (hv : v.vxc = u.vxc) : DecodedAs v f b n k m := by
  unfold DecodedAs State.rxp State.total at h ⊢
  rw [hr, hv]
  exact h

theorem raise (h : DecodedAs u f b n k m) (q : Queue) (code src : Nat) (pay : List Nat) : DecodedAs (u.raise q code src pay) f b n k m :=
  h.congr (raise_said ..).rx (raise_vxc ..)

theorem stuckFw (h : DecodedAs u f b n k m) (r : Region) (c : Bool) : DecodedAs (u.stuckFw r c) f b n k m := by
  unfold State.stuckFw
  split
  · exact h.raise ..
  · exact h

theorem onNode (h : DecodedAs u f b n k m) (a : Nat) (g : NodeDyn → NodeDyn) : DecodedAs (u.onNode a g) f b n k m := h

theorem onFeeder (h : DecodedAs u f b n k m) (j : Nat) (g : Feeder → Feeder) : DecodedAs (u.onFeeder j g) f b n k m := h

/-- The path is read back after a change that keeps its newest burst. -/
theorem rxp_onRx (h : DecodedAs u f b n k m) {g : RxPath → RxPath} (hg : (g (u.rxp f)).got = (u.rxp f).got) : (u.onRx f g).rxp f = g (u.rxp f) :=
  onRx_rxp fun e => Option.some_ne_none _ (h.2.2.symm.trans (hg.symm.trans (congrArg RxPath.got e)))

theorem onRx (h : DecodedAs u f b n k m) {g : RxPath → RxPath} (hg : (g (u.rxp f)).got = (u.rxp f).got)
    (hd : (g (u.rxp f)).decoded = (u.rxp f).decoded) : DecodedAs (u.onRx f g) f b n k m := by
  have hx := h.rxp_onRx hg
  exact ⟨by rw [hx, hd]; exact h.1, h.2.1, by rw [hx, hg]; exact h.2.2⟩

end DecodedAs

theorem stuckIf_vxc (s : State) (b : Bool) (a l : Nat) : (s.stuckIf b a l).vxc = s.vxc := by
  unfold State.stuckIf
  split
  · exact raise_vxc ..
  · rfl

theorem stick_succ_ne_zero (n : Nat) : stick 0xFFFFFFFF (n + 1) ≠ 0 := up32_ne_zero n

theorem addTotal_rx (s : State) (a l n : Nat) : (s.addTotal a l n).rx = s.rx := by
  unfold State.addTotal
  dsimp only
  split
  · exact (raise_said ..).rx
  · rfl

/-- A total reads one more after an increment, at most 2³² - 1. -/
theorem addTotal_one (s : State) (a l : Nat) : (s.addTotal a l 1).total a l = stick 0xFFFFFFFF (s.total a l + 1) := by
  have hread : tget 0 (tmod 0 s.vxc.totals (a * 32 + l) (fun v => stick 0xFFFFFFFF (v + 1))) (a * 32 + l) = stick 0xFFFFFFFF (s.total a l + 1) :=
    tget_tset_of_ne (stick_succ_ne_zero _)
  unfold State.addTotal
  dsimp only
  split
  · rw [State.total, State.raiseFw, raise_vxc]
    exact hread
  · exact hread

/-- The state once path `f` has decoded a burst in minislot `m`, before what the report does. -/
def State.burstHeard (t : State) (f m snr : Nat) : State :=
  let k := (t.feeder f).frame
  let b := bump 65535 (t.rxp f).decoded
  ((t.onRx f (fun r => { r with decoded := b.1, got := some (k, m), snrs := keep256 k snr r.snrs })).stuckIf b.2 (wWrx + 4 + 0x10 * f) 16).addTotal
    (wWrx + 4 + 0x10 * f) 16 1

theorem burstHeard_rxp (t : State) (f m snr : Nat) : (t.burstHeard f m snr).rxp f =
    { t.rxp f with decoded := (bump 65535 (t.rxp f).decoded).1, got := some ((t.feeder f).frame, m),
                   snrs := keep256 (t.feeder f).frame snr (t.rxp f).snrs } := by
  unfold State.burstHeard State.rxp
  dsimp only
  rw [addTotal_rx, (stuckIf_said ..).rx]
  exact onRx_rxp fun e => Option.some_ne_none _ (congrArg RxPath.got e)

theorem burstHeard_decoded (t : State) (f m snr : Nat) : DecodedAs (t.burstHeard f m snr) f (bump 65535 (t.rxp f).decoded).1
    (stick 0xFFFFFFFF (t.total (wWrx + 4 + 0x10 * f) 16 + 1)) (t.feeder f).frame m := by
  refine ⟨congrArg RxPath.decoded (burstHeard_rxp ..), ?_, congrArg RxPath.got (burstHeard_rxp ..)⟩
  unfold State.burstHeard
  dsimp only
  rw [addTotal_one, State.total, stuckIf_vxc]
  rfl

/-- What a counted burst of type `y` does on path `f`: it counts as bad in its kind, or it is a report heard. -/
def State.burstSorted (v : State) (f m y i : Nat) (c r : Bool) (k : Nat) : State :=
  if !((1 ≤ y && y ≤ 6) || y == 0x1F) then (v.onRx f (fun x => { x with badType := up32 x.badType })).stuckFw .c (fills32 (v.rxp f).badType)
  else if y ≠ 0x1F ∧ !(v.joinedAt (2048 * f + i) && v.micOk f c r) then
    let w := (v.onRx f (fun x => { x with badMic := up32 x.badMic })).stuckFw .c (fills32 (v.rxp f).badMic)
    if r && !c && !(w.feeder f).oldGenEvent then
      (w.onFeeder f (fun x => { x with oldGenEvent := true })).raiseHw 1 0x13 0xFFF 0x0400 (genPay 0 [(f, 1)])
    else w
  else if !v.slotOk f m i y then (v.onRx f (fun x => { x with badSlot := up32 x.badSlot })).stuckFw .c (fills32 (v.rxp f).badSlot)
  else if y = 0x1F then v
  else v.onNode (2048 * f + i) (fun n => { n with lastRx := k })

theorem burstSorted_decoded {v : State} {f m b n k : Nat} (h : DecodedAs v f b n k m) (y i : Nat) (c r : Bool) (k' : Nat) :
    DecodedAs (v.burstSorted f m y i c r k') f b n k m := by
  have hmic := (h.onRx (g := fun r => { r with badMic := up32 r.badMic }) rfl rfl).stuckFw .c (fills32 (v.rxp f).badMic)
  unfold State.burstSorted
  dsimp only
  split
  · exact (h.onRx (g := fun x => { x with badType := up32 x.badType }) rfl rfl).stuckFw ..
  · split
    · split
      · exact (hmic.onFeeder f _).raise ..
      · exact hmic
    · split
      · exact (h.onRx (g := fun x => { x with badSlot := up32 x.badSlot }) rfl rfl).stuckFw ..
      · split
        · exact h
        · exact h.onNode ..

theorem burstSorted_badType {v : State} {f m b n k y : Nat} (h : DecodedAs v f b n k m) (i : Nat) (c r : Bool) (k' : Nat) (hy : ¬ (1 ≤ y ∧ y ≤ 6))
    (hj : y ≠ 0x1F) : ((v.burstSorted f m y i c r k').rxp f).badType = up32 (v.rxp f).badType := by
  have htype : (!((decide (1 ≤ y) && decide (y ≤ 6)) || y == 0x1F)) = true := by
    rw [beq_false_of_ne hj, ← Bool.decide_and, decide_eq_false hy]; rfl
  unfold State.burstSorted
  rw [if_pos htype, State.rxp, (stuckFw_said ..).rx]
  exact congrArg RxPath.badType (h.rxp_onRx rfl)

/-- A decoded burst counts, and one of an unknown type counts as such. -/
theorem uplinkBurstDecoded_counts {s : State} {dt : Dt} {f m : Nat} (y i : Nat) (c r : Bool) (snr : Nat) (h : (s.tick dt).hears f = true)
    (hm : (s.tick dt).slotExists m = true) (hgot : ((s.tick dt).rxp f).got ≠ some (((s.tick dt).feeder f).frame, m)) :
    ∃ u : State, exec (.uplinkBurstDecoded dt f m y i c r snr) s = .next u ∧
      DecodedAs u f (bump 65535 ((s.tick dt).rxp f).decoded).1 (stick 0xFFFFFFFF (s.total (wWrx + 4 + 0x10 * f) 16 + 1)) ((s.tick dt).feeder f).frame m ∧
      (¬ (1 ≤ y ∧ y ≤ 6) → y ≠ 0x1F → (u.rxp f).badType = up32 ((s.tick dt).rxp f).badType) := by
  have hb := burstHeard_decoded (s.tick dt) f m snr
  have hexec : exec (.uplinkBurstDecoded dt f m y i c r snr) s =
      .next (((s.tick dt).burstHeard f m snr).burstSorted f m y i c r ((s.tick dt).feeder f).frame) :=
    congrArg Host.Outcome.next (if_neg (by rw [h, hm, beq_false_of_ne hgot]; decide))
  exact ⟨_, hexec, burstSorted_decoded hb .., fun hy hj => (burstSorted_badType hb i c r _ hy hj).trans
    (congrArg (fun x => up32 x.badType) (burstHeard_rxp (s.tick dt) f m snr))⟩

/-- A noise measurement is kept as the newest of its path. -/
theorem noiseOf_rxp (t : State) (f k n : Nat) : (t.noiseOf f k n).rxp f = { t.rxp f with noises := keep256 k n (t.rxp f).noises } :=
  onRx_rxp fun e => List.cons_ne_nil _ _ (congrArg RxPath.noises e)

theorem noiseOf_mem (t : State) (f k n : Nat) : (k, n) ∈ ((t.noiseOf f k n).rxp f).noises := by
  rw [noiseOf_rxp]; exact List.mem_cons_self ..

theorem uplinkMinislotEnd_inactive {s : State} {dt : Dt} {f m : Nat} (b : Bool) (n : Nat) (h : (s.tick dt).pathUp f = true)
    (hm : (s.tick dt).slotExists m = true) (hl : ((s.tick dt).feeder f).live = false) :
    exec (.uplinkMinislotEnd dt f m b n) s = .next ((s.tick dt).noiseOf f s.tb.hcn n) :=
  congrArg Host.Outcome.next ((if_neg (by rw [h, hm]; decide)).trans (if_pos (by rw [hl]; rfl)))

theorem uplinkMinislotEnd_decoded {s : State} {dt : Dt} {f m : Nat} (b : Bool) (n : Nat) (h : (s.tick dt).hears f = true)
    (hm : (s.tick dt).slotExists m = true) (hgot : ((s.tick dt).rxp f).got = some (((s.tick dt).feeder f).frame, m)) :
    exec (.uplinkMinislotEnd dt f m b n) s = .next (s.tick dt) :=
  congrArg Host.Outcome.next ((if_neg (by rw [hears_pathUp h, hm]; decide)).trans ((if_neg (by rw [hears_live h]; decide)).trans
    (if_pos (by rw [hgot, beq_self_eq_true]))))

section
variable {s : State} {dt : Dt} {f m : Nat} (n : Nat) (h : (s.tick dt).hears f = true) (hm : (s.tick dt).slotExists m = true)
  (hgot : ((s.tick dt).rxp f).got ≠ some (((s.tick dt).feeder f).frame, m))
include h hm hgot

/-- A minislot without a decoded burst is measured; one in which a burst was detected counts as a failure to decode. -/
theorem uplinkMinislotEnd_detected : ∃ u : State, exec (.uplinkMinislotEnd dt f m true n) s = .next u ∧
    (u.rxp f).decodeFail = (bump 65535 ((s.tick dt).rxp f).decodeFail).1 ∧ (((s.tick dt).feeder f).frame, n) ∈ (u.rxp f).noises := by
  refine ⟨_, congrArg Host.Outcome.next ((if_neg (by rw [hears_pathUp h, hm]; decide)).trans ((if_neg (by rw [hears_live h]; decide)).trans
    ((if_neg (by rw [beq_false_of_ne hgot]; decide)).trans (if_pos rfl)))), ?_⟩
  have hn := noiseOf_rxp (s.tick dt) f ((s.tick dt).feeder f).frame n
  have hmem := noiseOf_mem (s.tick dt) f ((s.tick dt).feeder f).frame n
  dsimp only
  rw [State.rxp, addTotal_rx, (stuckIf_said ..).rx]
  rw [show ∀ v : State, tget {} v.rx f = v.rxp f from fun _ => rfl, onRx_rxp fun e => List.ne_nil_of_mem hmem (congrArg RxPath.noises e)]
  exact ⟨by rw [hn], hmem⟩

theorem uplinkMinislotEnd_silent : ∃ u : State, exec (.uplinkMinislotEnd dt f m false n) s = .next u ∧
    (u.rxp f).decodeFail = ((s.tick dt).rxp f).decodeFail ∧ (((s.tick dt).feeder f).frame, n) ∈ (u.rxp f).noises := by
  refine ⟨_, congrArg Host.Outcome.next ((if_neg (by rw [hears_pathUp h, hm]; decide)).trans ((if_neg (by rw [hears_live h]; decide)).trans
    ((if_neg (by rw [beq_false_of_ne hgot]; decide)).trans (if_neg (by decide))))), ?_, noiseOf_mem ..⟩
  rw [noiseOf_rxp]

end

/-! ## The timers of a node (04 R137, R144, R147; 05 R166, R167) -/

theorem nodeKeyResend_queues {s : State} {dt : Dt} {a : Nat} (hj : (s.tick dt).joinedAt a = true) (hr : (tget none s.nv.rolls (a / 2048)).isSome = true)
    (hk : ((s.tick dt).node a).keyAcked = false) (h1 : 1 ≤ ((s.tick dt).node a).keySent) (h8 : ((s.tick dt).node a).keySent ≤ 8)
    (hq : a % 2048 ∉ ((s.tick dt).feeder (a / 2048)).keyQ)
    (ht : 2 ≤ (s.tick dt).turns (a / 2048) (a % 2048) ((s.tick dt).node a).keySentAt ((s.tick dt).feeder (a / 2048)).frame) :
    exec (.nodeKeyResend dt a) s = .next ((s.tick dt).onFeeder (a / 2048) (fun y => { y with keyQ := y.keyQ ++ [a % 2048] })) := by
  refine congrArg Host.Outcome.next (if_pos ?_)
  have hq' : ((s.tick dt).feeder (a / 2048)).keyQ.contains (a % 2048) = false := by
    rw [← Bool.not_eq_true, List.contains_iff_mem]; exact hq
  rw [hj, hk, decide_eq_true ⟨h1, h8⟩, decide_eq_true ht, State.tick_nv, hr, hq']
  rfl

section
variable {s : State} {dt : Dt} {f n : Nat} {b : BgItem} (hb : (tget [] s.nv.bg f).find? (fun y => y.id == n) = some b) (hdue : b.due = false)
  (ht : 2 ≤ (s.tick dt).turns f b.item.node b.sentAt ((s.tick dt).feeder f).frame)
include hb hdue ht

/-- An item not acknowledged by the node's second turn goes again, up to eight times. -/
theorem backgroundResend_again (hs : b.sent < 8) : exec (.backgroundResend dt f n) s = .next ((s.tick dt).onNv (fun v =>
    { v with bg := tmod [] v.bg f (fun l => l.map (fun y => if y.id == n then { y with due := true } else y)) })) := by
  refine congrArg Host.Outcome.next ?_
  dsimp only
  rw [State.tick_nv, hb]
  exact (if_neg (by rw [hdue, decide_eq_false (Nat.not_lt.mpr ht)]; decide)).trans (if_pos hs)

theorem backgroundResend_left {i : Nat} (hs : 8 ≤ b.sent) (hi : b.item = .leave i) : exec (.backgroundResend dt f n) s =
    .next (((s.tick dt).onNv (fun v => { v with bg := tmod [] v.bg f (fun l => l.filter (fun y => y.id != n)) })).nodeLeft (2048 * f + i)) := by
  refine congrArg Host.Outcome.next ?_
  dsimp only
  rw [State.tick_nv, hb]
  refine (if_neg (by rw [hdue, decide_eq_false (Nat.not_lt.mpr ht)]; decide)).trans ((if_neg (Nat.not_lt.mpr hs)).trans ?_)
  rw [hi]
  rfl

end

end Sys2Proof.Machine

namespace Sys2Proof.Machine
open Sys2Proof

/-- Settles O58: each report and timer takes the one branch that its premises leave, and what the branch changes is read back. -/
theorem uplinkReportsAndTimers : Obligations.UplinkReportsAndTimers := by
  unfold Obligations.UplinkReportsAndTimers
  refine ⟨fun s rep => ?_, fun s dt => ?_⟩
  · refine ⟨fun x y h hs => presRise_apart x y h hs, fun x y h hs hq hn => presRise_acknowledged x y h hs hq hn, fun x h => presFall_sensed x h,
      fun lux pres fb temp h hw => daylight_kept lux pres fb temp h hw, fun w pv fw h hpv _ h0 h1 h4 h5 => statusReport_kept fw h hpv h0 h1 h4 h5,
      fun ref res h => ack_probe res ref h, fun p ref h hp hg hw => ack_key h hp hg hw, fun op ref res h h4 h9 => ack_background res ref h h4 h9,
      fun img st miss first h hi hw => imgStatus_kept st miss first h hi hw, fun f hi lo l h => ⟨joinReq_unknown l h, joinReq_unsigned h, ?_⟩⟩
    intro r i hr hfix hnew hlen hidx
    refine ⟨fun ha => (joinReq_fresh h hr ha).trans (congrArg Host.Outcome.next (joinOn_taken hfix hnew hlen hidx rfl rfl)), fun n ha => ⟨fun hq => ?_, fun hq => ?_⟩⟩
    · rw [joinReq_contends h hr ha, hq]
      exact congrArg Host.Outcome.next (joinOn_taken hfix hnew hlen hidx (contend_nv ..) (contend_fdr ..))
    · rw [joinReq_contends h hr ha, hq]
      rfl
  · refine ⟨fun f m y i c r snr h hm hg => ?_, fun f m h hm hg => ⟨fun y i c r snr => ?_, fun b n => uplinkMinislotEnd_decoded b n h hm hg⟩,
      fun f m b n h hm hl => uplinkMinislotEnd_inactive b n h hm hl,
      fun f m n h hm hg => ⟨uplinkMinislotEnd_detected n h hm hg, uplinkMinislotEnd_silent n h hm hg⟩,
      fun a hq ht => congrArg Host.Outcome.next (if_pos (by rw [hq]; exact decide_eq_true ht)),
      fun a hj ht => congrArg Host.Outcome.next (if_pos (by rw [hj]; exact decide_eq_true ht)),
      fun a hj ht => congrArg Host.Outcome.next (if_pos (by rw [hj]; exact decide_eq_true ht)),
      fun a hj hr hk h1 h8 hq ht => nodeKeyResend_queues hj hr hk h1 h8 hq ht,
      fun f n b hb hd ht => ⟨backgroundResend_again hb hd ht, fun i hs hi => backgroundResend_left hb hd ht hs hi⟩⟩
    · obtain ⟨u, hu, ⟨hdec, htot, hgot⟩, hbad⟩ := uplinkBurstDecoded_counts y i c r snr h hm hg
      exact ⟨u, hu, hdec, htot, hbad, hgot⟩
    · exact congrArg Host.Outcome.next (if_pos (by rw [hg, beq_self_eq_true, Bool.or_true]))

end Sys2Proof.Machine
end

