-- ==== Sys2Proof/Proofs/Converters.lean ====
section
/-!
PROOFS. O33: converters that fail, rotate, drift and are calibrated. A failure is followed in three operations: the exclusion (`convDropped`), the event
(`convDropTold`) and what takes the input (`convReplaced`).
-/
namespace Sys2Proof.Machine
open Sys2Proof

/-! ## A converter that fails (07 R254, R255) -/

/-- The converter is counted, excluded and worn. -/
def State.convDropped (t : State) (c : Nat) : State :=
  let b := bump 255 t.meter.failCnt
  (((t.onMeter (fun m => { m with failCnt := b.1 })).stuckIf b.2 (wMafe + 0x84) 24).convExclude c).wearInc 3 c

/-- Its event, at the region's level where nothing can take the input. -/
def State.convDropTold (t e : State) (c : Nat) : State :=
  e.raiseUnit (if (t.conv c).role = .measure ∧ e.substituteFor (t.conv c).input = none ∧ t.meter.calib = none then 2 else 1) 0x21 c 0x07
    (wMafe + 4 * c) [((t.conv c).input, 1)]

/-- What becomes of the input and of the calibration of converter `c`, which was in `k`. -/
def State.convReplaced (e : State) (c : Nat) (k : Conv) : State :=
  match k.role with
  | .measure =>
    match e.substituteFor k.input with
    | some (d, valid) =>
      let u := e.convTakes d k.input valid
      match u.meter.calib with
      | some b => if b.conv = c ∨ b.spare = c then
          (let (o, v) := u.calAbandon c
           match o with
           | some o => if o = d then v else v.setConv o .spare b.dwell
           | none => v)
        else u
      | none => u
    | none =>
      match e.calAbandon c with
      | (some o, v) => v.convTakes o k.input (decide ((v.conv o).role = Role.shadow ∧ (v.conv o).input = k.input))
      | (none, v) => v.inputFails k.input
  | .shadow | .cal =>
    match e.meter.calib with
    | some b => if b.conv = c ∨ b.spare = c then (e.calAbandon c).2 else e
    | none => e
  | .spare =>
    match e.meter.calib with
    | some b => if b.spare = c then (e.onMeter (fun m => { m with calib := none })).calAdd b.input b.retire else e
    | none => e
  | .excluded => e

theorem convDropped_calib (t : State) (c : Nat) : (t.convDropped c).meter.calib = t.meter.calib := by
  unfold State.convDropped State.wearInc State.convExclude State.reserveNote
  dsimp only
  rw [(stuckFw_said ..).meter]
  show (State.notifyClass _ 9 0x0F80 .ok _).meter.calib = _
  rw [(notifyClass_said ..).meter]
  show (State.stuckIf _ _ _ _).meter.calib = _
  rw [(stuckIf_said ..).meter]
  rfl

theorem convDropTold_meter (t e : State) (c : Nat) : (t.convDropTold e c).meter = e.meter := (raise_said ..).meter

theorem convDropTold_tick (s e : State) (dt : Dt) (c : Nat) : (s.tick dt).convDropTold e c =
    e.raiseUnit (if (s.conv c).role = .measure ∧ e.substituteFor (s.conv c).input = none ∧ s.meter.calib = none then 2 else 1) 0x21 c 0x07
      (wMafe + 4 * c) [((s.conv c).input, 1)] := rfl

theorem calAbandon_none {e : State} (c : Nat) (h : e.meter.calib = none) : e.calAbandon c = (none, e) := by
  unfold State.calAbandon; rw [h]

theorem calAbandon_isSome {e : State} {k : Calib} (c : Nat) (h : e.meter.calib = some k) : ∃ o, (e.calAbandon c).1 = some o := by
  unfold State.calAbandon; rw [h]; exact ⟨_, rfl⟩

theorem calAbandon_eq_none_iff (e : State) (c : Nat) : (e.calAbandon c).1 = none ↔ e.meter.calib = none := by
  cases h : e.meter.calib with
  | none => rw [calAbandon_none c h]; simp
  | some k => obtain ⟨o, ho⟩ := calAbandon_isSome c h; rw [ho]; simp

/-- The converters are those of before once a calibration is given up. -/
theorem calAbandon_conv (e : State) (c o : Nat) : (e.calAbandon c).2.conv o = e.conv o := by
  unfold State.calAbandon
  split <;> rfl

theorem exec_converterFailure {s : State} (dt : Dt) {c : Nat} (hc : c ≤ 31) (hr : s.runs .d = true) (hx : (s.conv c).role ≠ .excluded) :
    exec (.converterFailure dt c) s =
      .next (((s.tick dt).convDropTold ((s.tick dt).convDropped c) c).convReplaced c (s.conv c)).tryCal := by
  have hconv : (s.tick dt).conv c = s.conv c := rfl
  have hgo : ¬ ((decide (31 < c) || decide (((s.tick dt).conv c).role = .excluded) || !(s.tick dt).runs .d) = true) := by
    rw [decide_eq_false (Nat.not_lt.mpr hc), hconv, decide_eq_false hx, State.tick_runs, hr]
    decide
  have halone : (decide ((s.conv c).role = .measure) && (((s.tick dt).convDropped c).substituteFor (s.conv c).input).isNone &&
      (((s.tick dt).convDropped c).calAbandon c).1.isNone) = true ↔
      (s.conv c).role = .measure ∧ ((s.tick dt).convDropped c).substituteFor (s.conv c).input = none ∧ s.meter.calib = none := by
    simp only [Bool.and_eq_true, decide_eq_true_eq, Option.isNone_iff_eq_none, and_assoc, calAbandon_eq_none_iff, convDropped_calib, State.tick_meter]
  have htold : (s.tick dt).convDropTold ((s.tick dt).convDropped c) c = ((s.tick dt).convDropped c).raiseUnit
      (if (decide ((s.conv c).role = .measure) && (((s.tick dt).convDropped c).substituteFor (s.conv c).input).isNone &&
        (((s.tick dt).convDropped c).calAbandon c).1.isNone) = true then 2 else 1) 0x21 c 0x07 (wMafe + 4 * c) [((s.conv c).input, 1)] := by
    rw [if_congr halone rfl rfl]
    rfl
  refine congrArg Host.Outcome.next ((if_neg hgo).trans ?_)
  rw [htold]
  generalize hd : (s.tick dt).convDropped c = d
  unfold State.convDropped at hd
  dsimp only at hd ⊢
  rw [hd, hconv]
  generalize d.raiseUnit _ 0x21 c 0x07 (wMafe + 4 * c) [((s.conv c).input, 1)] = e
  rfl

section
variable {e : State} {c d o : Nat} {v : Bool} {k : Conv}

/-- A shadow or a spare takes the input. -/
theorem convReplaced_substituted (hk : k.role = .measure) (hs : e.substituteFor k.input = some (d, v))
    (hc : ∀ b, (e.convTakes d k.input v).meter.calib = some b → b.conv ≠ c ∧ b.spare ≠ c) : e.convReplaced c k = e.convTakes d k.input v := by
  unfold State.convReplaced
  rw [hk]
  dsimp only
  rw [hs]
  dsimp only
  split
  · next b hb => exact if_neg (not_or.mpr (hc b hb))
  · rfl

/-- Where the failed converter was in a calibration, its other converter becomes a spare unless it is the one that took the input. -/
theorem convReplaced_given {b : Calib} (hk : k.role = .measure) (hs : e.substituteFor k.input = some (d, v))
    (hb : (e.convTakes d k.input v).meter.calib = some b) (hc : b.conv = c ∨ b.spare = c) (ho : ((e.convTakes d k.input v).calAbandon c).1 = some o) :
    e.convReplaced c k = if o = d then ((e.convTakes d k.input v).calAbandon c).2 else ((e.convTakes d k.input v).calAbandon c).2.setConv o .spare b.dwell := by
  unfold State.convReplaced
  rw [hk]
  dsimp only
  rw [hs]
  dsimp only
  rw [hb]
  dsimp only
  rw [if_pos hc, ho]

/-- With no substitute the other converter of the calibration takes the input. -/
theorem convReplaced_abandoned (hk : k.role = .measure) (hs : e.substituteFor k.input = none) (ho : (e.calAbandon c).1 = some o) :
    e.convReplaced c k = (e.calAbandon c).2.convTakes o k.input (decide ((e.conv o).role = Role.shadow ∧ (e.conv o).input = k.input)) := by
  unfold State.convReplaced
  rw [hk]
  dsimp only
  rw [hs]
  dsimp only
  rw [← calAbandon_conv e c o]
  split
  · next p q hp =>
    have hpo : o = p := by rw [hp] at ho; exact (Option.some.inj ho).symm
    rw [hp, hpo]
  · next q hq => rw [hq] at ho; exact absurd ho (Option.some_ne_none o).symm

/-- With no converter left the input fails. -/
theorem convReplaced_failed (hk : k.role = .measure) (hs : e.substituteFor k.input = none) (hc : e.meter.calib = none) :
    e.convReplaced c k = e.inputFails k.input := by
  unfold State.convReplaced
  rw [hk]
  dsimp only
  rw [hs]
  dsimp only
  rw [calAbandon_none c hc]

theorem convReplaced_apart (hk : k.role = .shadow ∨ k.role = .cal) (hc : ∀ b, e.meter.calib = some b → b.conv ≠ c ∧ b.spare ≠ c) :
    e.convReplaced c k = e := by
  have hcal : (match e.meter.calib with | some b => if b.conv = c ∨ b.spare = c then (e.calAbandon c).2 else e | none => e) = e := by
    split
    · next b hb => exact if_neg (not_or.mpr (hc b hb))
    · rfl
  unfold State.convReplaced
  obtain hr | hr := hk <;> rw [hr] <;> exact hcal

theorem convReplaced_inCalibration {b : Calib} (hk : k.role = .shadow ∨ k.role = .cal) (hb : e.meter.calib = some b) (hc : b.conv = c ∨ b.spare = c) :
    e.convReplaced c k = (e.calAbandon c).2 := by
  unfold State.convReplaced
  obtain hr | hr := hk <;> rw [hr] <;> dsimp only <;> rw [hb] <;> exact if_pos hc

theorem convReplaced_idle (hk : k.role = .spare) (hc : ∀ b, e.meter.calib = some b → b.spare ≠ c) : e.convReplaced c k = e := by
  unfold State.convReplaced
  rw [hk]
  dsimp only
  split
  · next b hb => exact if_neg (hc b hb)
  · rfl

theorem convReplaced_spareOf {b : Calib} (hk : k.role = .spare) (hb : e.meter.calib = some b) (hc : b.spare = c) :
    e.convReplaced c k = (e.onMeter (fun m => { m with calib := none })).calAdd b.input b.retire := by
  unfold State.convReplaced
  rw [hk]
  dsimp only
  rw [hb]
  exact if_pos hc

end

/-! ## Rotation and drift (07 R253) -/

/-- A spare whose dwell is over goes on to the next input. -/
theorem spareDwellEnd_rotates {s : State} {dt : Dt} {c : Nat} (l : List Nat) (hr : s.runs .d = true) (hc : (s.conv c).role = .spare)
    (hb : s.meter.begun.isSome = true) (hd : (s.tick dt).dwelt c = true) :
    exec (.spareDwellEnd dt c l) s = .next (match if 8 < (s.tick dt).differing c l then
        ((s.tick dt).setConv c .spare (((s.conv c).input + 1) % 30)).convOn .measure (s.conv c).input else none with
      | none => (s.tick dt).setConv c .spare (((s.conv c).input + 1) % 30)
      | some d => (((((((s.tick dt).setConv c .spare (((s.conv c).input + 1) % 30)).onMeter (fun m => { m with driftCnt := (bump 255 s.meter.driftCnt).1 })).stuckIf
          (bump 255 s.meter.driftCnt).2 (wMafe + 0x84) 16).wearInc 3 d).raiseUnit 1 0x21 d 0x07
          (wMafe + 4 * d) [((s.conv c).input, 1)]).calAdd (s.conv c).input false).convWorn d |>.tryCal) := by
  refine congrArg Host.Outcome.next ((if_neg ?_).trans rfl)
  rw [show (s.tick dt).conv c = s.conv c from rfl, hc, hd, State.tick_runs, hr, State.tick_meter, ← Option.not_isSome, hb]
  decide

theorem spareDwellEnd_early {s : State} {dt : Dt} (c : Nat) (l : List Nat) (hd : (s.tick dt).dwelt c = false) :
    exec (.spareDwellEnd dt c l) s = .next (s.tick dt) :=
  congrArg Host.Outcome.next (if_pos (by rw [hd, Bool.not_false, Bool.or_true]))

/-! ## Calibration (07 R257, R258) -/

/-- The calibration under way with step `n` reached. -/
def Calib.goes (k : Calib) (u : State) (n : Nat) : State := u.onMeter (fun m => { m with calib := some { k with step := n } })

section
variable {s : State} {dt : Dt} {k : Calib} (hk : s.meter.calib = some k) (hr : s.runs .d = true) (w : Bool) (o g : Int)
include hk hr

theorem calibrationStep_first (hs : k.step = 0) (hb : (s.tick dt).atBoundary k.input (k.b + 0) = true) :
    exec (.calibrationStep dt w o g) s = .next (k.goes ((s.tick dt).setConv k.spare .shadow k.input) 1) := by
  simp only [exec, execCalibrationStep, State.tick_meter, State.tick_runs, hk, hr, hs, hb, Bool.not_true, Bool.false_eq_true, if_false, if_true]
  rfl

theorem calibrationStep_swapped (hs : k.step = 1) (hb : (s.tick dt).atBoundary k.input (k.b + 8) = true) (hret : k.retire = false) :
    exec (.calibrationStep dt w o g) s = .next (k.goes (((s.tick dt).setConv k.spare .measure k.input).setConv k.conv .cal 63) 2) := by
  simp only [exec, execCalibrationStep, State.tick_meter, State.tick_runs, hk, hr, hs, hb, hret, Bool.not_true, Bool.false_eq_true, if_false,
    Calib.goes]

theorem calibrationStep_retired (hs : k.step = 1) (hb : (s.tick dt).atBoundary k.input (k.b + 8) = true) (hret : k.retire = true) :
    exec (.calibrationStep dt w o g) s =
      .next ((((s.tick dt).setConv k.spare .measure k.input).convExclude k.conv).reserveNote 3 k.spare 1).calEnd := by
  simp only [exec, execCalibrationStep, State.tick_meter, State.tick_runs, hk, hr, hs, hb, hret, Bool.not_true, Bool.false_eq_true, if_false, if_true]

theorem calibrationStep_compared (hs : k.step = 2) (hb : (s.tick dt).atBoundary k.input (k.b + 72) = true) :
    exec (.calibrationStep dt w o g) s = .next (k.goes ((s.tick dt).setConv k.conv .shadow k.input) 3) := by
  simp only [exec, execCalibrationStep, State.tick_meter, State.tick_runs, hk, hr, hs, hb, Bool.not_true, Bool.false_eq_true, if_false, if_true]
  rfl

/-- Before the boundary of its step a calibration waits. -/
theorem calibrationStep_waits (h : ∀ n ∈ [0, 8, 72, 80], ¬ (s.tick dt).atBoundary k.input (k.b + n) = true) :
    exec (.calibrationStep dt w o g) s = .next (s.tick dt) := by
  have h0 := eq_false_of_ne_true (h 0 (by simp))
  have h8 := eq_false_of_ne_true (h 8 (by simp))
  have h72 := eq_false_of_ne_true (h 72 (by simp))
  have h80 := eq_false_of_ne_true (h 80 (by simp))
  simp only [exec, execCalibrationStep, State.tick_meter, State.tick_runs, hk, hr, h0, h8, h72, h80, Bool.not_true, Bool.not_false, Bool.false_eq_true,
    if_false, if_true]
  split <;> rfl

end

@[simp] theorem taken_convsIn (s : State) (r : Req) (x : Session) (ρ : Role) : (s.taken r x).convsIn ρ = s.convsIn ρ := by
  unfold State.convsIn State.conv
  rw [State.taken_meter]

@[simp] theorem taken_convOn (s : State) (r : Req) (x : Session) (ρ : Role) (i : Nat) : (s.taken r x).convOn ρ i = s.convOn ρ i := by
  unfold State.convOn State.conv
  rw [taken_convsIn, State.taken_meter]

/-- METER CALIBRATE starts at once where nothing calibrates or waits and both spares are free. -/
theorem meterCalibrate_starts {s : State} {r : Req} {x : Session} {i : Nat} (h : Served s r x .configure) (hi : i ≤ 29) (hc : s.meter.calib = none)
    (hd : s.meter.calDue = []) (hsp : 2 ≤ (s.convsIn .spare).length) (hon : (s.convOn .measure i).isSome = true) : exec (.meterCalibrate r i) s =
      .next ((((s.taken r x).onMeter (fun m => { m with calDue := [{ input := i }] })).tryCal).answered r x 0x070B .ok []) := by
  simp only [exec, execMeterCalibrate]
  refine hostCmd_ok h ((checked_pass ?_).trans (if_pos ?_))
  · simp; omega
  · rw [State.taken_meter, hc, hd, taken_convsIn, taken_convOn, hon, decide_eq_true hsp]
    rfl

/-- Else it waits for its start. -/
theorem meterCalibrate_waits {s : State} {r : Req} {x : Session} {i : Nat} (h : Served s r x .configure) (hi : i ≤ 29)
    (hn : ¬ (s.meter.calib = none ∧ s.meter.calDue = [] ∧ 2 ≤ (s.convsIn .spare).length ∧ (s.convOn .measure i).isSome = true)) :
    exec (.meterCalibrate r i) s = .next (((s.taken r x).onMeter (fun m =>
      { m with calDue := m.calDue ++ [{ input := i, who := some (x.id, r.seq, (s.taken r x).now) }] })).held r x 0x070B) := by
  simp only [exec, execMeterCalibrate]
  refine hostCmd_later h ((checked_pass ?_).trans (if_neg ?_))
  · simp; omega
  · rw [State.taken_meter, taken_convsIn, taken_convOn]
    simp only [Bool.and_eq_true, Option.isNone_iff_eq_none, List.isEmpty_iff, decide_eq_true_eq]
    exact fun ⟨⟨⟨h1, h2⟩, h3⟩, h4⟩ => hn ⟨h1, h2, h3, h4⟩

/-- Settles O33, a converter's failure by the role that it had and the others by the branch that their premises leave. -/
theorem convertersRotateCalibrateAndFail : Obligations.ConvertersRotateCalibrateAndFail := by
  unfold Obligations.ConvertersRotateCalibrateAndFail
  refine ⟨fun s dt c hc hr => ?_, fun s dt hr => ⟨?_, ?_, ?_, ?_⟩, fun s r x dt => ⟨?_, ?_, ?_, ?_, ?_⟩⟩
  · intro t y b e0 e
    have hexec := exec_converterFailure dt hc hr
    have he : (s.tick dt).convDropTold ((s.tick dt).convDropped c) c = e := convDropTold_tick s e0 dt c
    rw [he] at hexec
    have hcal : e.meter.calib = s.meter.calib := by rw [← he, convDropTold_meter, convDropped_calib, State.tick_meter]
    clear_value e
    have hrole {ρ : Role} (hk : (s.conv c).role = ρ) (hne : ρ ≠ .excluded) := hexec fun h => hne (hk.symm.trans h)
    refine ⟨fun hk d v hs => ⟨fun hn => ?_, fun k hu hkc => ?_⟩, fun hk hs hn => ?_, fun hk hs hn => ?_, fun hk => ⟨fun hn => ?_, fun k hkk hkc => ?_⟩,
      fun hk => ⟨fun hn => ?_, fun k hkk hkc => ?_⟩, fun hk => ?_⟩
    · rw [hrole hk (by decide), convReplaced_substituted hk hs hn]
    · obtain ⟨o, ho⟩ := calAbandon_isSome c hu
      exact ⟨o, ho, by rw [hrole hk (by decide), convReplaced_given hk hs hu hkc ho]⟩
    · rw [hrole hk (by decide), convReplaced_failed hk hs (hcal.trans hn)]
    · obtain ⟨k, hkk⟩ := Option.isSome_iff_exists.mp hn
      obtain ⟨o, ho⟩ := calAbandon_isSome c (hcal.trans hkk)
      exact ⟨o, ho, by rw [hrole hk (by decide), convReplaced_abandoned hk hs ho]⟩
    · rw [hexec (by obtain h | h := hk <;> rw [h] <;> decide), convReplaced_apart hk (by rw [hcal]; exact hn)]
    · rw [hexec (by obtain h | h := hk <;> rw [h] <;> decide), convReplaced_inCalibration hk (hcal.trans hkk) hkc]
    · rw [hrole hk (by decide), convReplaced_idle hk (by rw [hcal]; exact hn)]
    · rw [hrole hk (by decide), convReplaced_spareOf hk (hcal.trans hkk) hkc]
    · exact congrArg Host.Outcome.next (if_pos (by rw [show t.conv c = s.conv c from rfl, hk, decide_eq_true rfl, Bool.or_true, Bool.true_or]))
  · intro c l hc hb hd y u b
    have hrot := spareDwellEnd_rotates l hr hc hb hd
    refine ⟨fun h => ?_, fun d hdiff hon => ?_⟩
    · have hnone : (if 8 < (s.tick dt).differing c l then u.convOn .measure y else none) = none := by
        obtain h | h := h
        · exact if_neg (Nat.not_lt.mpr h)
        · rw [h, ite_self]
      rw [hrot, show (if 8 < (s.tick dt).differing c l then _ else none) = none from hnone]
    · rw [hrot, show (if 8 < (s.tick dt).differing c l then _ else none) = some d from (if_pos hdiff).trans hon]
  · exact fun c l h => spareDwellEnd_early c l h
  · intro i hi hon hat
    refine congrArg Host.Outcome.next (if_neg ?_)
    rw [decide_eq_false (Nat.not_lt.mpr hi), State.tick_runs, hr, show (s.tick dt).convOn .measure i = s.convOn .measure i from rfl, ← Option.not_isSome,
      hon, State.tick_meter, decide_eq_false (Nat.not_lt.mpr hat)]
    decide
  · intro k o g w hk came goes
    refine ⟨fun hs hb => calibrationStep_first hk hr w o g hs hb, fun hs hb hret => calibrationStep_swapped hk hr w o g hs hb hret,
      fun hs hb hret => calibrationStep_retired hk hr w o g hs hb hret, fun hs hb => calibrationStep_compared hk hr w o g hs hb, fun hs hb => ?_,
      fun hs hb => ?_, fun hn => calibrationStep_waits hk hr w o g hn⟩
    · have hb' : (s.tick dt).atBoundary k.input (k.b + 80) = true := hb
      simp only [exec, execCalibrationStep, State.tick_meter, State.tick_runs, hk, hr, hs, hb', Bool.not_true, Bool.false_eq_true, if_false, if_true]
      rfl
    · have hb' : (s.tick dt).atBoundary k.input (k.b + 80) = true := hb
      simp only [exec, execCalibrationStep, State.tick_meter, State.tick_runs, hk, hr, hs, hb', Bool.not_true, Bool.false_eq_true, if_false]
  · exact fun i h hi hn => meterCalibrate_starts h hi hn.1 hn.2.1 hn.2.2.1 hn.2.2.2
  · exact fun i h hi hn => meterCalibrate_waits h hi hn
  · intro i h hi
    simp only [exec, execMeterCalibrate]
    refine hostCmd_refused h ?_ (by decide)
    simp [checked, hi]
  · rfl
  · intro h
    simp only [exec, execMeterStatus]
    exact hostCmd_ok h rfl

end Sys2Proof.Machine
end

