-- ==== Sys2Proof/Proofs/SignScan.lean ====
section
/-!
PROOFS. O39: the scan of the local matrix. `Rewired s t` says that of the sign `t` differs from `s` at most in which cells drive the columns, which are
excluded and which wait; the other fields of a row slot are then read off its own writes.
-/
namespace Sys2Proof.Machine
open Sys2Proof

/-! ## Cells that are connected and excluded -/

/-- `g` with the cells of `h`: those that drive the columns, the excluded ones, and those that failed or wait for a test. -/
def Sign.wiredAs (g h : Sign) : Sign := { g with cells := h.cells, dead := h.dead, excl := h.excl, tests := h.tests, failed := h.failed }

/-- `t` differs from `s` at most in its sign's cells, and not in its power. -/
def Rewired (s t : State) : Prop := t.sign.wiredAs s.sign = s.sign ∧ t.pow = s.pow

namespace Rewired

theorem refl (s : State) : Rewired s s := ⟨rfl, rfl⟩

theorem trans {s t u : State} (h : Rewired s t) (k : Rewired t u) : Rewired s u :=
  ⟨(congrArg (fun g => Sign.wiredAs g s.sign) k.1).trans h.1, k.2.trans h.2⟩

theorem of_said {s t u : State} (h : Rewired s t) (k : Said t u) : Rewired s u := by
  unfold Rewired
  rw [k.sign, k.pow]
  exact h

theorem onSign {s t : State} {g : Sign → Sign} (h : Rewired s t) (hg : (g t.sign).wiredAs t.sign = t.sign) : Rewired s (t.onSign g) :=
  h.trans ⟨hg, rfl⟩

theorem foldl {α : Type} {f : State → α → State} (hf : ∀ u e, Rewired u (f u e)) (l : List α) (s : State) : Rewired s (l.foldl f s) := by
  induction l generalizing s with
  | nil => exact refl s
  | cons e r ih => exact (hf s e).trans (ih _)

theorem connect (s : State) (col : Nat) (cell : Option Nat) : Rewired s (s.onSign (fun g => g.connect col cell)) := by
  refine onSign (refl s) ?_
  unfold Sign.connect
  cases cell <;> rfl

theorem reserveNote {s t : State} {kind index action : Nat} (h : Rewired s t) : Rewired s (t.reserveNote kind index action) :=
  h.of_said (notifyClass_said ..)

theorem colReplace (s : State) (col : Nat) : Rewired s (s.colReplace col) := by
  unfold State.colReplace
  split
  · exact reserveNote (connect ..)
  · exact of_said (connect ..) (raise_said ..)

theorem cellExclude (s : State) (c : Nat) : Rewired s (s.cellExclude c) := by
  unfold State.cellExclude
  exact reserveNote (onSign (refl s) rfl)

theorem cellsReplaced (s : State) : Rewired s s.cellsReplaced := by
  unfold State.cellsReplaced
  dsimp only
  refine trans (t := s.onSign (fun g => { g with failed := [] })) (onSign (refl s) rfl) (foldl (fun u e => ?_) _ _)
  exact trans (t := u.onSign (fun g => { g with tests := g.tests ++ [⟨e.2, e.1, false⟩] })) (onSign (refl u) rfl) (colReplace ..)

variable {s t : State} (h : Rewired s t)
include h

theorem row : t.sign.row = s.sign.row := show (t.sign.wiredAs s.sign).row = _ from congrArg Sign.row h.1
theorem pix : t.sign.pix = s.sign.pix := show (t.sign.wiredAs s.sign).pix = _ from congrArg Sign.pix h.1
theorem cfg : t.sign.cfg = s.sign.cfg := show (t.sign.wiredAs s.sign).cfg = _ from congrArg Sign.cfg h.1

end Rewired

/-- The sign as a frame starts: the configuration written last is in force, and the lists of its boundary are taken. -/
def Sign.frameBegun (g : Sign) (c : SignCfg) : Sign :=
  { g with cfg := g.cfg.atBoundary c, probeOpen := [], probePass := [], rowTold := [], frameNo := g.frameNo + 1, cellNext := [], retireNext := [] }

theorem frameStart_rewired (s : State) : Rewired (s.onSign (fun g => g.frameBegun s.nv.signCfg)) s.frameStart := by
  unfold State.frameStart
  dsimp only
  refine .trans (.foldl (fun u e => ?_) _ _) (.foldl (fun u e => ?_) _ _)
  · split
    · exact .reserveNote (.connect ..)
    · exact .refl u
  · split
    · exact .trans (.cellExclude ..) (.colReplace ..)
    · exact .cellExclude ..

/-- The end of a row slot changes its record alone. -/
theorem slotOver_sign (s : State) : s.slotOver.sign = { s.sign with slot := none, selPrev := s.slotOver.sign.selPrev } := by
  unfold State.slotOver State.onSign
  dsimp only
  split
  · rfl
  · next h => conv => lhs; rw [← show ({ s.sign with slot := s.sign.slot } : Sign) = s.sign from rfl, h]

theorem slotOver_pow (s : State) : s.slotOver.pow = s.pow := rfl

theorem slotOver_nv (s : State) : s.slotOver.nv = s.nv := rfl

/-! ## Sync events (09 R303-R307) -/

/-- The sign as a sync event leaves it, but for its cells: `at3` is its time, `t3` the reference period, `n` the frames in it. -/
structure SyncBegun (g : Sign) (c : SignCfg) (at3 t3 n : Nat) (u : Sign) : Prop where
  frameLen : u.frameLen = frameLength t3 n
  slotLen : u.slotLen = frameLength t3 n / g.cfg.nrows
  row : u.row = 0
  inFrame : u.inFrame = true
  edgeDue : u.edgeDue = false
  syncAt : u.syncAt = some at3
  frameNo : u.frameNo = g.frameNo + 1
  cfg : u.cfg = g.cfg.atBoundary c
  pix : u.pix = g.pix
  freeRun : u.freeRun = g.freeRun
  syncLost : u.syncLost = g.syncLost
  lastEdge : u.lastEdge = g.lastEdge
  syncPin : u.syncPin = g.syncPin

/-- A frame cut short by a sync event is counted. -/
def State.frameCut (s : State) : State :=
  if s.sign.syncAt.isSome && !s.inGuard then
    let b := bump 255 s.sign.cutCnt
    ((s.onSign (fun g => { g with cutCnt := b.1 })).addTotal (wScan + 4) 24 1).stuckIf b.2 (wScan + 4) 24
  else s

theorem addTotal_sign (s : State) (a l n : Nat) : (s.addTotal a l n).sign = s.sign := by
  unfold State.addTotal
  dsimp only
  split
  · exact (raise_said ..).sign
  · rfl

theorem addTotal_nv (s : State) (a l n : Nat) : (s.addTotal a l n).nv = s.nv := by
  unfold State.addTotal
  dsimp only
  split
  · exact (raise_said ..).nv
  · rfl

theorem frameCut_sign (s : State) : s.frameCut.sign = { s.sign with cutCnt := s.frameCut.sign.cutCnt } := by
  unfold State.frameCut
  dsimp only
  split
  · rw [(stuckIf_said ..).sign, addTotal_sign]
    rfl
  · rfl

theorem frameCut_nv (s : State) : s.frameCut.nv = s.nv := by
  unfold State.frameCut
  dsimp only
  split
  · rw [(stuckIf_said ..).nv, addTotal_nv]
    rfl
  · rfl

/-- The sign as a sync event begins its period, before the frame starts. -/
def Sign.periodBegun (g : Sign) (at3 t3 n : Nat) : Sign := { g with
  frameLen := frameLength t3 n, slotLen := frameLength t3 n / g.cfg.nrows, perPeriod := n, frameOfPeriod := 0, row := 0, inFrame := true
  syncAt := some at3, periodNo := g.periodNo + 1, edgeDue := false }

theorem syncBegun_of {g u x : Sign} {c : SignCfg} {at3 t3 n cut : Nat} {sel : Option (Nat × Nat)}
    (h : u.wiredAs x = (Sign.periodBegun { g with cutCnt := cut, slot := none, selPrev := sel } at3 t3 n).frameBegun c) : SyncBegun g c at3 t3 n u := by
  unfold Sign.wiredAs Sign.periodBegun Sign.frameBegun at h
  have hu {α : Type} (p : Sign → α) := congrArg p h
  exact ⟨hu Sign.frameLen, hu Sign.slotLen, hu Sign.row, hu Sign.inFrame, hu Sign.edgeDue, hu Sign.syncAt, hu Sign.frameNo, hu Sign.cfg, hu Sign.pix,
    hu Sign.freeRun, hu Sign.syncLost, hu Sign.lastEdge, hu Sign.syncPin⟩

theorem syncEvent_eq (s : State) (at3 t3 n : Nat) :
    s.syncEvent at3 t3 n = State.frameStart (s.frameCut.slotOver.onSign (fun g => g.periodBegun at3 t3 n)) := rfl

theorem syncEvent_begun (s : State) (at3 t3 n : Nat) : SyncBegun s.sign s.nv.signCfg at3 t3 n (s.syncEvent at3 t3 n).sign := by
  have h := (frameStart_rewired (s.frameCut.slotOver.onSign (fun g => g.periodBegun at3 t3 n))).1
  have hy : s.frameCut.slotOver.sign =
      { s.sign with cutCnt := s.frameCut.sign.cutCnt, slot := none, selPrev := s.frameCut.slotOver.sign.selPrev } := by
    rw [slotOver_sign, frameCut_sign]
  have hbegun : ((s.frameCut.slotOver.onSign (fun g => g.periodBegun at3 t3 n)).onSign (fun g => g.frameBegun s.frameCut.slotOver.nv.signCfg)).sign =
      (s.frameCut.slotOver.sign.periodBegun at3 t3 n).frameBegun s.nv.signCfg := by rw [← frameCut_nv s]; rfl
  rw [hy] at hbegun
  rw [syncEvent_eq]
  exact syncBegun_of (h.trans hbegun)

/-- A period of SIGN_SYNC begins frame 0 and leaves the pixels and what is known of SIGN_SYNC. -/
theorem syncFrames_begun (s : State) (at3 t3 : Nat) : (s.syncFrames at3 t3).sign.row = 0 ∧ (s.syncFrames at3 t3).sign.inFrame = true ∧
    (s.syncFrames at3 t3).sign.pix = s.sign.pix ∧ (s.syncFrames at3 t3).sign.syncLost = s.sign.syncLost ∧
    (s.syncFrames at3 t3).sign.lastEdge = s.sign.lastEdge ∧ (s.syncFrames at3 t3).sign.syncPin = s.sign.syncPin := by
  unfold State.syncFrames
  exact ⟨(syncEvent_begun ..).row, (syncEvent_begun ..).inFrame, (syncEvent_begun ..).pix, (syncEvent_begun ..).syncLost,
    (syncEvent_begun ..).lastEdge, (syncEvent_begun ..).syncPin⟩

/-- The sign once an active edge of SIGN_SYNC at `now` ended a period of length `p`. -/
def Sign.edgeTaken (g : Sign) (now p : Nat) : Sign := { g with syncLost := false, lastEdge := some now, syncPeriod := p }

section
variable {s : State} {dt : Dt} (hr : s.runs .m = true) (hg : s.sign.run = true)
include hr hg

/-- The scan goes on where the region runs and the scan does. -/
theorem scan_goes : ¬ ((!(s.tick dt).runs .m || !(s.tick dt).sign.run) = true) := by
  rw [State.tick_runs, hr, State.tick_sign, hg]
  decide

theorem scanSyncEvent_edge (hsrc : s.sign.cfg.syncSrc = 0) (hdue : s.sign.edgeDue = true) (hat : (s.tick dt).now ≤ s.tb.lastEdge + 25) :
    exec (.scanSyncEvent dt) s =
      .next (((s.tick dt).onSign (fun g => { g with freeRun := false })).syncEvent (3 * (s.tick dt).now) (3 * s.tb.period) 8) := by
  refine congrArg Host.Outcome.next ((if_neg (scan_goes hr hg)).trans ?_)
  rw [State.tick_sign, hsrc]
  refine if_pos ?_
  unfold State.edgeHere
  rw [State.tick_sign, hdue, State.tick_tb, decide_eq_true hat]
  rfl

theorem scanSyncEvent_timed {a : Nat} (ha : (s.tick dt).selfDue (s.tick dt).nominal3 = some a) (hsrc : s.sign.cfg.syncSrc = 2 ∨
    (s.sign.cfg.syncSrc = 0 ∧ (s.tick dt).edgeHere = false ∧ s.sign.freeRun = true)) :
    exec (.scanSyncEvent dt) s = .next ((s.tick dt).syncEvent a (s.tick dt).nominal3 8) := by
  refine congrArg Host.Outcome.next ((if_neg (scan_goes hr hg)).trans ?_)
  rw [State.tick_sign]
  obtain h | ⟨h, he, hf⟩ := hsrc
  · rw [h]
    dsimp only
    rw [ha]
    rfl
  · rw [h]
    refine (if_neg (by rw [he]; decide)).trans ?_
    rw [ha]
    exact if_pos hf

theorem scanSyncEvent_lost {a : Nat} (hsrc : s.sign.cfg.syncSrc = 1) (hl : s.sign.syncLost = true)
    (ha : (s.tick dt).selfDue (3 * (if s.sign.syncPeriod = 0 then 8000000 else s.sign.syncPeriod)) = some a) :
    exec (.scanSyncEvent dt) s = .next ((s.tick dt).syncFrames a (3 * (if s.sign.syncPeriod = 0 then 8000000 else s.sign.syncPeriod))) := by
  refine congrArg Host.Outcome.next ((if_neg (scan_goes hr hg)).trans ?_)
  rw [State.tick_sign, hsrc]
  dsimp only
  rw [ha]
  exact if_pos hl

/-- An active edge of SIGN_SYNC that comes 1 ms or more after the last begins a period. -/
theorem signSyncEdge_begins (hsrc : s.sign.cfg.syncSrc = 1) (hlast : ∀ a, s.sign.lastEdge = some a → a + msC ≤ (s.tick dt).now) :
    ∃ u : State, exec (.signSyncEdge dt) s = .next u ∧ u.sign.lastEdge = some (s.tick dt).now ∧ u.sign.syncLost = false ∧ u.sign.row = 0 ∧
      u.sign.inFrame = true ∧ u.sign.pix = s.sign.pix ∧ u.sign.syncPin = !s.sign.cfg.syncFalling := by
  have hearly : (match s.sign.lastEdge with | some a => decide ((s.tick dt).now < a + msC) | none => false) = false := by
    split
    · next a h => exact decide_eq_false (Nat.not_lt.mpr (hlast a h))
    · rfl
  have hgo : ¬ ((!(s.tick dt).runs .m || !(s.tick dt).sign.run || s.sign.cfg.syncSrc != 1 ||
      (match s.sign.lastEdge with | some a => decide ((s.tick dt).now < a + msC) | none => false)) = true) := by
    rw [hearly, hsrc, Bool.or_false, bne_self_eq_false, Bool.or_false]
    exact scan_goes hr hg
  have hexec : ∃ v p t3, exec (.signSyncEdge dt) s = .next ((v.onSign (fun g => g.edgeTaken v.now p)).syncFrames (3 * v.now) t3) ∧
      Said ((s.tick dt).onSign (fun g => { g with syncPin := !g.cfg.syncFalling })) v :=
    ⟨_, _, _, congrArg Host.Outcome.next (if_neg hgo), .ite (raise_said ..) (.refl _)⟩
  obtain ⟨v, p, t3, he, hsaid⟩ := hexec
  obtain ⟨hrow, hin, hpix, hlost, hedge, hpin⟩ := syncFrames_begun (v.onSign (fun g => g.edgeTaken v.now p)) (3 * v.now) t3
  refine ⟨_, he, hedge.trans (congrArg some hsaid.now), hlost, hrow, hin, hpix.trans ?_, hpin.trans ?_⟩
  · show v.sign.pix = s.sign.pix
    rw [hsaid.sign]
    rfl
  · show v.sign.syncPin = !s.sign.cfg.syncFalling
    rw [hsaid.sign]
    rfl

theorem signSyncLost_told (hsrc : s.sign.cfg.syncSrc = 1) (hl : s.sign.syncLost = false)
    (hlate : (match s.sign.lastEdge with
      | some a => a + 2 * (if s.sign.syncPeriod = 0 then 8000000 else s.sign.syncPeriod)
      | none => s.sign.startAt + 40 * msC) ≤ (s.tick dt).now) :
    exec (.signSyncLost dt) s = .next (((s.tick dt).onSign (fun g => { g with syncLost := true })).raiseUnit 1 0x39 0xFFF 0x0A (wScan + 4) []) := by
  have hdue : (match s.sign.lastEdge with
      | some a => decide (a + 2 * (if s.sign.syncPeriod = 0 then 8000000 else s.sign.syncPeriod) ≤ (s.tick dt).now)
      | none => decide (s.sign.startAt + 40 * msC ≤ (s.tick dt).now)) = true := by
    cases h : s.sign.lastEdge with
    | none => rw [h] at hlate; exact decide_eq_true hlate
    | some a => rw [h] at hlate; exact decide_eq_true hlate
  refine congrArg Host.Outcome.next (if_pos ?_)
  rw [State.tick_runs, hr, State.tick_sign, hg, hsrc, hl]
  exact hdue

end

/-! ## Buffers (09 R309, R310) -/

/-- The pixels of the buffer that is displayed. -/
def Sign.frontPix (g : Sign) : Tbl Nat := g.pix.filter (fun e => decide (1024 * b2n g.front ≤ e.1 ∧ e.1 < 1024 * b2n g.front + 1024))

/-- Both buffers with what is displayed. -/
def Sign.copiedPix (g : Sign) : Tbl Nat :=
  g.frontPix.foldl (fun t e => tset 0 t (1024 - 1024 * b2n g.front + (e.1 - 1024 * b2n g.front)) e.2) g.frontPix

theorem frontPix_key {g : Sign} {e : Nat × Nat} (he : e ∈ g.frontPix) : 1024 * b2n g.front ≤ e.1 ∧ e.1 < 1024 * b2n g.front + 1024 :=
  of_decide_eq_true (List.mem_filter.mp he).2

section
variable {g : Sign} (hw : twf 0 g.pix = true) {i : Nat} (hi : i < 1024)
include hw hi

theorem frontPix_front : tget 0 g.frontPix (1024 * b2n g.front + i) = tget 0 g.pix (1024 * b2n g.front + i) := by
  have hs : tsorted 0 g.pix = true := by simp only [twf, Bool.and_eq_true] at hw; exact hw.1
  exact (tget_filter (fun k => decide (1024 * b2n g.front ≤ k ∧ k < 1024 * b2n g.front + 1024)) _ hs).trans (if_pos (decide_eq_true ⟨by omega, by omega⟩))

theorem frontPix_back : tget 0 g.frontPix (1024 - 1024 * b2n g.front + i) = 0 := by
  have hs : tsorted 0 g.pix = true := by simp only [twf, Bool.and_eq_true] at hw; exact hw.1
  refine (tget_filter (fun k => decide (1024 * b2n g.front ≤ k ∧ k < 1024 * b2n g.front + 1024)) _ hs).trans (if_neg ?_)
  rw [decide_eq_true_eq]
  cases g.front
  · simp [b2n]
  · simp [b2n]; omega

theorem copiedPix_front : tget 0 g.copiedPix (1024 * b2n g.front + i) = tget 0 g.pix (1024 * b2n g.front + i) := by
  refine (tget_foldl_tset_ne (g := fun k => 1024 - 1024 * b2n g.front + (k - 1024 * b2n g.front)) (twf_filter _ hw) fun e he => ?_).trans
    (frontPix_front hw hi)
  obtain ⟨hlo, hhi⟩ := frontPix_key he
  have hbuf : b2n g.front = 0 ∨ b2n g.front = 1 := by cases g.front <;> simp [b2n]
  omega

theorem copiedPix_back : tget 0 g.copiedPix (1024 - 1024 * b2n g.front + i) = tget 0 g.pix (1024 * b2n g.front + i) := by
  have hs : tsorted 0 g.frontPix = true := by
    have := twf_filter (fun e => decide (1024 * b2n g.front ≤ e.1 ∧ e.1 < 1024 * b2n g.front + 1024)) hw
    simp only [twf, Bool.and_eq_true] at this
    exact this.1
  refine (tget_foldl_tset (g := fun k => 1024 - 1024 * b2n g.front + (k - 1024 * b2n g.front)) (i := 1024 * b2n g.front + i) (twf_filter _ hw)
    (frontPix_back hw hi) hs fun e he => ?_).trans (frontPix_front hw hi)
  obtain ⟨hlo, hhi⟩ := frontPix_key he
  omega

end

theorem backCopyDone_copies {s : State} {dt : Dt} (hr : s.runs .m = true) (hg : s.sign.run = true) (hb : s.sign.backReady = false) :
    exec (.backCopyDone dt) s = .next ((s.tick dt).onSign (fun g => { g with backReady := true, pix := g.copiedPix })) := by
  refine congrArg Host.Outcome.next (if_neg ?_)
  rw [State.tick_sign, hg, hb, State.tick_runs, hr]
  decide

/-! ## Row slots (09 R302) -/

/-- The configuration of a boundary keeps the rows of the scan (R305). -/
theorem nrows_atBoundary (old new : SignCfg) : (old.atBoundary new).nrows = old.nrows := by
  have hlt : fld old.scan 20 4 < 2 ^ 4 := Nat.mod_lt _ (by decide)
  unfold SignCfg.atBoundary SignCfg.nrows
  dsimp only
  rw [fld_setFld_of_disjoint _ _ (by omega), fld_setFld_same _ _ (by omega), Nat.add_sub_cancel, Nat.mod_eq_of_lt hlt]

/-- A frame other than the first of its period starts with row 0. -/
def State.frameDue (u : State) : State := if u.sign.row = 0 ∧ 0 < u.sign.frameOfPeriod then u.frameStart else u

/-- A swap that is due is made. -/
def State.swapMade (u : State) : State := if u.swapDue then u.onSign Sign.swap else u

/-- What a row slot begins on: the row before is over, a frame that is due starts, a swap that is due is made, and failed cells are replaced. -/
def State.slotReady (t : State) : State := t.slotOver.frameDue.swapMade.cellsReplaced

theorem slotOver_kept (t : State) : t.slotOver.sign.row = t.sign.row ∧ t.slotOver.sign.pix = t.sign.pix ∧ t.slotOver.sign.cfg = t.sign.cfg ∧
    t.slotOver.sign.frameOfPeriod = t.sign.frameOfPeriod := by
  rw [slotOver_sign]
  exact ⟨rfl, rfl, rfl, rfl⟩

theorem frameBegun_kept (g : Sign) (c : SignCfg) : (g.frameBegun c).row = g.row ∧ (g.frameBegun c).pix = g.pix ∧
    (g.frameBegun c).cfg = g.cfg.atBoundary c := by
  simp only [Sign.frameBegun, and_self]

theorem frameStart_kept (t : State) : t.frameStart.sign.row = t.sign.row ∧ t.frameStart.sign.pix = t.sign.pix ∧
    t.frameStart.sign.cfg = t.sign.cfg.atBoundary t.nv.signCfg ∧ t.frameStart.pow = t.pow := by
  have h := frameStart_rewired t
  have hk := frameBegun_kept t.sign t.nv.signCfg
  rw [h.row, h.pix, h.cfg, h.2, State.onSign_sign, State.onSign_pow]
  exact ⟨hk.1, hk.2.1, hk.2.2, rfl⟩

theorem frameDue_kept (t : State) : t.frameDue.sign.row = t.sign.row ∧ t.frameDue.sign.pix = t.sign.pix ∧
    t.frameDue.sign.cfg.nrows = t.sign.cfg.nrows ∧ t.frameDue.pow = t.pow := by
  obtain ⟨hrow, hpix, hcfg, hpow⟩ := frameStart_kept t
  unfold State.frameDue
  split
  · exact ⟨hrow, hpix, by rw [hcfg, nrows_atBoundary], hpow⟩
  · exact ⟨rfl, rfl, rfl, rfl⟩

theorem swapMade_kept (t : State) : t.swapMade.sign.row = t.sign.row ∧ t.swapMade.sign.pix = t.sign.pix ∧
    t.swapMade.sign.cfg = t.sign.cfg ∧ t.swapMade.pow = t.pow := by
  unfold State.swapMade
  split
  · exact ⟨rfl, rfl, rfl, rfl⟩
  · exact ⟨rfl, rfl, rfl, rfl⟩

theorem slotReady_kept (t : State) : t.slotReady.sign.row = t.sign.row ∧ t.slotReady.sign.pix = t.sign.pix ∧
    t.slotReady.sign.cfg.nrows = t.sign.cfg.nrows ∧ t.slotReady.pow = t.pow := by
  obtain ⟨hrow, hpix, hcfg, -⟩ := slotOver_kept t
  obtain ⟨frow, fpix, frows, fpow⟩ := frameDue_kept t.slotOver
  obtain ⟨wrow, wpix, wcfg, wpow⟩ := swapMade_kept t.slotOver.frameDue
  have h := Rewired.cellsReplaced t.slotOver.frameDue.swapMade
  refine ⟨h.row.trans (wrow.trans (frow.trans hrow)), h.pix.trans (wpix.trans (fpix.trans hpix)), ?_, h.2.trans (wpow.trans fpow)⟩
  exact (congrArg SignCfg.nrows (h.cfg.trans wcfg)).trans (frows.trans (congrArg SignCfg.nrows hcfg))

/-- The sign with its next row slot begun. -/
def Sign.slotBegun (g : Sign) : Sign :=
  let last := decide (g.cfg.nrows ≤ g.row + 1)
  { g with
    slot := some (g.row, g.slotDue, g.slotDue + aux3 g.slotLen)
    row := if last then 0 else g.row + 1
    frameOfPeriod := if last then g.frameOfPeriod + 1 else g.frameOfPeriod
    inFrame := !last || decide (g.frameOfPeriod + 1 < g.perPeriod) }

/-- What a row slot drives. -/
def Sign.rowOut (g : Sign) : Out :=
  .row g.row (g.cfg.selects (some g.row)) (if g.probeFrame then (rangeFrom 0 50).map (fun c => g.probeCurrent g.row c) else [])
    ((rangeFrom 0 50).map (fun c => g.current g.row c))

/-- The state with its next row slot begun and driven. -/
def State.slotDriven (v : State) : State := if v.pow.signHiZ then v.onSign Sign.slotBegun else (v.onSign Sign.slotBegun).emit v.sign.rowOut

theorem exec_rowSlotStart {s : State} {dt : Dt} (hr : s.runs .m = true) (hg : s.sign.run = true) (hin : s.sign.inFrame = true)
    (hat : (s.tick dt).atThird s.sign.slotDue = true) : exec (.rowSlotStart dt) s = .next (s.tick dt).slotReady.slotDriven := by
  have hgo : ¬ ((!(s.tick dt).runs .m || !(s.tick dt).sign.run || !(s.tick dt).sign.inFrame || !(s.tick dt).atThird (s.tick dt).sign.slotDue) = true) := by
    rw [State.tick_runs, hr, State.tick_sign, hg, hin, hat]
    decide
  exact congrArg Host.Outcome.next ((if_neg hgo).trans rfl)

theorem slotDriven_sign (v : State) : v.slotDriven.sign = v.sign.slotBegun := by
  unfold State.slotDriven
  split <;> rfl

theorem slotDriven_out (v : State) : v.slotDriven.out = v.out ++ (if v.pow.signHiZ then [] else [v.sign.rowOut]) := by
  unfold State.slotDriven
  split
  · exact (List.append_nil _).symm
  · rfl

/-! ## Measurements (09 R312-R318) -/

/-- What a measurement leaves in the history of its position. -/
theorem ledMeasured_led {t : State} {k : Nat} {probe : Bool} {y : LedRead} (hfits : t.sign.windowFits = true)
    (hon : (if probe then t.sign.driven k y.col && !t.sign.lost y.col else t.sign.measurable k y.col) = true) (hw : twf {} t.sign.leds = true) :
    tget {} (t.ledMeasured k probe y).sign.leds (50 * k + y.col) = (t.sign.led k y.col).take t.sign.frameNo (ledReads t.sign.cfg.shortThr y.volt) := by
  have hgo : ¬ ((!(t.sign.windowFits && if probe then t.sign.driven k y.col && !t.sign.lost y.col else t.sign.measurable k y.col)) = true) := by
    rw [hfits, hon]
    decide
  have hread := tget_tset_same (50 * k + y.col) ((t.sign.led k y.col).take t.sign.frameNo (ledReads t.sign.cfg.shortThr y.volt)) hw
  unfold State.ledMeasured
  rw [if_neg hgo]
  dsimp only
  split
  · exact hread
  · unfold State.signNote State.raiseHw
    rw [(notifyClass_said ..).sign, (raise_said ..).sign]
    exact hread

theorem probeVerdicts_leds (t : State) : t.probeVerdicts.sign.leds = t.sign.leds := by
  have htold (l : List Nat) (u : State) : Said u (l.foldl (fun s r => (s.raiseHw 1 0x39 0xFFF 0x0A02 [r]).signNote 3 r 255 255 255 0) u) := by
    induction l generalizing u with
    | nil => exact .refl u
    | cons r l ih => exact ((raise_said ..).trans (notifyClass_said ..)).trans (ih _)
  unfold State.probeVerdicts
  dsimp only
  rw [(htold _ _).sign]
  rfl

section
variable {s : State} {dt : Dt} (hr : s.runs .m = true) (hg : s.sign.run = true)
include hr hg

theorem ledMeasure_row {y : LedRead} {k st en : Nat} (hs : s.sign.slot = some (k, st, en)) (hat : (s.tick dt).atThird (s.sign.measureAt false st en) = true)
    : exec (.ledMeasure dt false [y]) s = .next ((s.tick dt).ledMeasured k false y) := by
  refine congrArg Host.Outcome.next ((if_neg ?_).trans ?_)
  · rw [State.tick_runs, hr, State.tick_sign, hg, Bool.false_and]
    decide
  · rw [State.tick_sign, hs]
    exact if_neg (by rw [hat]; decide)

theorem ledMeasure_probe {y : LedRead} {k st en : Nat} (hs : s.sign.slot = some (k, st, en)) (hat : (s.tick dt).atThird (s.sign.measureAt true st en) = true)
    (hp : s.sign.probeFrame = true) : exec (.ledMeasure dt true [y]) s = .next ((s.tick dt).ledMeasured k true y).probeVerdicts := by
  refine congrArg Host.Outcome.next ((if_neg ?_).trans ?_)
  · rw [State.tick_runs, hr, State.tick_sign, hg, hp]
    decide
  · rw [State.tick_sign, hs]
    exact if_neg (by rw [hat]; decide)

/-! ## Sink cells (09 R318-R320) -/

theorem cellFailure_waits {c col d : Nat} (hc : s.sign.cells.find? (fun e => e.2 == c) = some (col, d))
    (hf : s.sign.failed.any (fun e => e.2 == c) = false) (ht : twoMa ≤ (s.tick dt).cellSetting col) :
    exec (.cellFailure dt [c]) s = .next (((((s.tick dt).onSign (fun g => { g with
      failCnt := (bump 255 s.sign.failCnt).1, failed := g.failed ++ [(col, c)] })).stuckIf (bump 255 s.sign.failCnt).2 (wSink + 4) 24).wearInc 4 c).signNote
        4 255 col 255 c 0) := by
  refine congrArg Host.Outcome.next ((if_neg (scan_goes hr hg)).trans ?_)
  rw [List.foldl_cons, List.foldl_nil, State.tick_sign, hc]
  refine (if_neg ?_).trans rfl
  rw [hf, decide_eq_false (Nat.not_lt.mpr ht)]
  decide

theorem sinkCellTest_goes {c : Nat} (hc : c ≤ 49) (hin : (s.tick dt).inGuard = true) :
    ¬ ((!(s.tick dt).runs .m || !(s.tick dt).sign.run || !(s.tick dt).inGuard || decide (49 < c)) = true) := by
  rw [State.tick_runs, hr, State.tick_sign, hg, hin, decide_eq_false (Nat.not_lt.mpr hc)]
  decide

/-- A spare in its turn is tested: it stays when it passes and is excluded when it fails. -/
theorem sinkCellTest_spare {c : Nat} (hc : c ≤ 49) (hin : (s.tick dt).inGuard = true) (hf : s.sign.tests.find? (fun e => e.cell == c) = none)
    (hs : s.sign.spareDue c = true) (pass : Bool) : let v := (s.tick dt).onSign (fun g => { g with testedAt := tset 0 g.testedAt c g.periodNo })
    exec (.sinkCellTest dt c pass) s = .next (if pass then v else (v.cellExclude c).wearInc 4 c) := by
  refine congrArg Host.Outcome.next ((if_neg (sinkCellTest_goes hr hg hc hin)).trans ?_)
  rw [State.tick_sign, hf]
  exact if_neg (by rw [hs]; decide)

/-- The state with the test of cell `c` taken. -/
def State.cellTested (t : State) (c : Nat) : State :=
  t.onSign (fun g => { g with tests := g.tests.filter (fun u => u.cell != c), testedAt := tset 0 g.testedAt c g.periodNo })

/-- A cell that waits for its test: a suspect one, which may wait for its replacement, or one that was replaced. -/
theorem sinkCellTest_waiting {c : Nat} {k : CellTest} (hc : c ≤ 49) (hin : (s.tick dt).inGuard = true)
    (hf : s.sign.tests.find? (fun e => e.cell == c) = some k) (pass : Bool) : let v := (s.tick dt).cellTested c
    exec (.sinkCellTest dt c pass) s = .next (if k.suspect then
        if pass then v.raiseHw 1 0x38 c 0x0A05 [k.col]
        else if s.sign.cellOf k.col == some c && !s.sign.lost k.col then v.onSign (fun g => { g with failed := g.failed ++ [(k.col, c)] })
        else v
      else if pass then v.raiseHw 1 0x38 c 0x0A04 [c, k.col]
      else (v.cellExclude c).raiseHw 1 0x38 c 0x0A03 [c, k.col]) := by
  refine congrArg Host.Outcome.next ((if_neg (sinkCellTest_goes hr hg hc hin)).trans ?_)
  rw [State.tick_sign, hf]
  rfl

end

/-- Settles O39: each event takes the branch that its premises leave, and what a row slot or a sync event writes is read off its own fields. -/
theorem matrixIsScannedAndMeasured : Obligations.MatrixIsScannedAndMeasured := by
  unfold Obligations.MatrixIsScannedAndMeasured
  refine ⟨fun s dt hr hg => ⟨?_, ?_, ?_, ?_, ?_, ?_, ?_, ?_⟩, fun s dt hr hg => ⟨?_, ?_, ?_, ?_, ?_⟩⟩
  · intro hsrc hdue hat
    have h := syncEvent_begun ((s.tick dt).onSign (fun g => { g with freeRun := false })) (3 * (s.tick dt).now) (3 * s.tb.period) 8
    refine ⟨_, scanSyncEvent_edge hr hg hsrc hdue hat, h.frameLen, ?_, h.row, h.inFrame, h.edgeDue, h.syncAt, h.freeRun, h.frameNo, h.cfg, h.pix⟩
    rw [h.slotLen, h.frameLen]
    rfl
  · exact fun a hsrc ha => scanSyncEvent_timed hr hg ha hsrc
  · intro a p hsrc hl ha
    exact scanSyncEvent_lost hr hg hsrc hl ha
  · exact fun hsrc hlast => signSyncEdge_begins hr hg hsrc hlast
  · exact fun hsrc hl hlate => signSyncLost_told hr hg hsrc hl hlate
  · exact fun hd => congrArg Host.Outcome.next (if_pos (by rw [hd, State.tick_runs, hr]; rfl))
  · exact fun hb hw => ⟨_, backCopyDone_copies hr hg hb, rfl, rfl, fun i hi => ⟨copiedPix_front hw hi, copiedPix_back hw hi⟩⟩
  · intro hin hat a v
    obtain ⟨hrow, hpix, hrows, hpow⟩ := slotReady_kept (s.tick dt)
    obtain ⟨orow, -, -, operiod⟩ := slotOver_kept (s.tick dt)
    have hv : (s.tick dt).slotReady = v := by
      unfold State.slotReady State.frameDue State.swapMade
      rw [orow, operiod]
      rfl
    rw [hv] at hrow hpix hrows hpow
    have hrow' : v.sign.row = s.sign.row := hrow
    refine ⟨_, exec_rowSlotStart hr hg hin hat, ?_, ?_, ?_, ?_, ?_⟩
    · rw [hv, slotDriven_out, hpow, ← hrow']
      rfl
    · rw [hv, slotDriven_sign, ← hrow']
      rfl
    · rw [hv, slotDriven_sign, ← hrow', show s.sign.cfg.nrows = v.sign.cfg.nrows from hrows.symm]
      simp only [Sign.slotBegun, decide_eq_true_eq]
    · rw [hv, slotDriven_sign]
      exact hpix
    · rw [hv, slotDriven_sign]
      rfl
  · intro y k st en hs hat hfits hm hw
    exact ⟨_, ledMeasure_row hr hg hs hat, ledMeasured_led hfits hm hw⟩
  · intro y k st en hs hat hfits hp hdr hl hw
    refine ⟨_, ledMeasure_probe hr hg hs hat hp, ?_⟩
    rw [probeVerdicts_leds]
    exact ledMeasured_led (t := s.tick dt) hfits (by rw [State.tick_sign, hdr, hl]; rfl) hw
  · exact fun c col d hc hf ht => cellFailure_waits hr hg hc hf ht
  · exact fun c hc hin hf hs => ⟨sinkCellTest_spare hr hg hc hin hf hs true, sinkCellTest_spare hr hg hc hin hf hs false⟩
  · intro c k hc hin hf v
    have h := sinkCellTest_waiting hr hg hc hin hf
    refine ⟨fun hk => ?_, fun hk => ?_, fun hk => ?_, fun hk hcell hl => ?_, fun hk hcell => ?_⟩
    · rw [h, hk]; rfl
    · rw [h, hk]; rfl
    · rw [h, hk]; rfl
    · rw [h, hk, hcell, hl, beq_self_eq_true]; rfl
    · rw [h, hk, if_pos rfl, if_neg (by decide), if_neg ?_]
      · rfl
      · rw [Bool.and_eq_true, beq_iff_eq, Bool.not_eq_true']
        exact fun ⟨h1, h2⟩ => hcell.elim (fun h => h h1) (fun h => by rw [h] at h2; cases h2)

end Sys2Proof.Machine
end

