-- ==== Sys2Proof/Proofs/SignBus.lean ====
section
/-!
PROOFS. O40: the sign bus. `LineAs p l u` says what the line of port `p` holds in `u`; the attempts that fail leave it, but for the transaction on the wire.
-/
namespace Sys2Proof.Machine
open Sys2Proof

/-! ## SYNC (09 R326) -/

/-- The frame of a SYNC on a port. -/
def State.syncOut (s : State) (p : Nat) : Out := .sbus p (sbusFrame 0 1 (s.port p).seq s.syncPay) (sbusLine (sbusFrame 0 1 (s.port p).seq s.syncPay))

/-- The state with SYNC sent on port `p`. -/
def State.syncSent (s : State) (p : Nat) : State :=
  (s.transmit p 0 1 s.syncPay).onPort p (fun x => { x with syncHcn := some s.tb.hcn, syncPass := x.fault })

theorem onPort_other {s : State} {p j : Nat} {g : SbusPort → SbusPort} (hw : twf {} s.sbus = true) (hj : j ≠ p) : (s.onPort p g).port j = s.port j :=
  tget_tset_ne _ hw hj

theorem onPort_twf {s : State} (p : Nat) (g : SbusPort → SbusPort) (hw : twf {} s.sbus = true) : twf {} (s.onPort p g).sbus = true := twf_tmod _ _ hw

/-- A transmission writes its port's line and counts its SEQ. -/
theorem transmit_sbus (s : State) (p addr cmd : Nat) (pay : List Nat) : ∃ (run : SbusPort → Nat) (le : Nat) (de : Nat × Nat),
    (s.transmit p addr cmd pay).sbus =
      (s.onPort p (fun x => { x with seq := ((s.port p).seq + 1) % 256, echoRun := run x, txOk := true, lineEnd := le, de := de })).sbus :=
  ⟨fun x => if x.txOk then 0 else x.echoRun, s.now + (6 + pay.length) * us10C,
    (s.now - 400 - (s.draw 4401).1, s.now + (6 + pay.length) * us10C + 400 + ((s.draw 4401).2.draw 401).1), rfl⟩

theorem syncSent_sbus (s : State) (p : Nat) : ∃ (run : SbusPort → Nat) (le : Nat) (de : Nat × Nat), (s.syncSent p).sbus =
    ((s.onPort p (fun x => { x with seq := ((s.port p).seq + 1) % 256, echoRun := run x, txOk := true, lineEnd := le, de := de })).onPort p
      (fun x => { x with syncHcn := some s.tb.hcn, syncPass := x.fault })).sbus := by
  obtain ⟨run, le, de, h⟩ := transmit_sbus s p 0 1 s.syncPay
  exact ⟨run, le, de, congrArg
    (fun (b : Tbl SbusPort) => tmod ({} : SbusPort) b p (fun x : SbusPort => { x with syncHcn := some s.tb.hcn, syncPass := x.fault })) h⟩

/-- A port depends on the ports alone. -/
theorem port_congr {s t : State} (h : t.sbus = s.sbus) (j : Nat) : t.port j = s.port j := by
  unfold State.port
  rw [h]

section
variable {s : State} (hw : twf {} s.sbus = true) (p : Nat)
include hw

theorem syncSent_twf : twf {} (s.syncSent p).sbus = true := by
  obtain ⟨run, le, de, h⟩ := syncSent_sbus s p
  rw [h]
  exact onPort_twf p _ (onPort_twf p _ hw)

theorem syncSent_other {j : Nat} (hj : j ≠ p) : (s.syncSent p).port j = s.port j := by
  obtain ⟨run, le, de, h⟩ := syncSent_sbus s p
  exact (port_congr h j).trans ((onPort_other (onPort_twf p _ hw) hj).trans (onPort_other hw hj))

theorem syncSent_port : ((s.syncSent p).port p).syncHcn = some s.tb.hcn ∧ ((s.syncSent p).port p).syncPass = (s.port p).fault ∧
    ((s.syncSent p).port p).seq = ((s.port p).seq + 1) % 256 ∧ ((s.syncSent p).port p).cur = (s.port p).cur := by
  obtain ⟨run, le, de, h⟩ := syncSent_sbus s p
  rw [port_congr h, State.onPort_same _ _ _ (onPort_twf p _ hw), State.onPort_same _ _ _ hw]
  exact ⟨rfl, rfl, rfl, rfl⟩

end

theorem syncSent_out (s : State) (p : Nat) : (s.syncSent p).out = s.out ++ [s.syncOut p] := rfl

theorem syncSent_tb (s : State) (p : Nat) : (s.syncSent p).tb = s.tb := rfl

/-- SYNC sent on the ports of a list on which it is due. -/
def State.syncAll (u : State) (l : List Nat) : State := l.foldl (fun v p => if v.syncDue p then v.syncSent p else v) u

/-- What SYNC leaves of port `p`, whose half-cycle is that of `s`. -/
def SyncLeaves (s r : State) (p : Nat) : Prop :=
  (s.syncDue p = true → (r.port p).syncHcn = some s.tb.hcn ∧ (r.port p).syncPass = (s.port p).fault ∧
    (r.port p).seq = ((s.port p).seq + 1) % 256 ∧ (r.port p).cur = (s.port p).cur) ∧ (s.syncDue p = false → r.port p = s.port p)

/-- SYNC goes out on the ports of `l` on which it is due, in their order. -/
theorem syncAll_spec {s : State} {l : List Nat} (hn : l.Nodup) {u : State} (htb : u.tb = s.tb) (hl : ∀ p ∈ l, u.port p = s.port p)
    (hw : twf {} u.sbus = true) : (u.syncAll l).out = u.out ++ (l.filter s.syncDue).map s.syncOut ∧ (∀ p, p ∉ l → (u.syncAll l).port p = u.port p) ∧
      ∀ p ∈ l, SyncLeaves s (u.syncAll l) p := by
  induction l generalizing u with
  | nil => exact ⟨(List.append_nil _).symm, fun _ _ => rfl, fun _ h => absurd h List.not_mem_nil⟩
  | cons p l ih =>
    obtain ⟨hp, hn⟩ := List.nodup_cons.mp hn
    have hport : u.port p = s.port p := hl p (List.mem_cons_self ..)
    have hdue : u.syncDue p = s.syncDue p := by unfold State.syncDue; rw [hport, htb]
    have hout : u.syncOut p = s.syncOut p := by unfold State.syncOut State.syncPay; rw [hport, htb]
    have hne : ∀ q ∈ l, q ≠ p := fun q hq e => hp (e ▸ hq)
    have hcons : u.syncAll (p :: l) = (if s.syncDue p then u.syncSent p else u).syncAll l := by rw [← hdue]; rfl
    rw [hcons]
    cases hd : s.syncDue p with
    | true =>
      obtain ⟨ho, hother, hall⟩ := ih (u := u.syncSent p) hn htb
        (fun q hq => (syncSent_other hw p (hne q hq)).trans (hl q (List.mem_cons_of_mem _ hq))) (syncSent_twf hw p)
      refine ⟨?_, fun q hq => ?_, fun q hq => ?_⟩
      · rw [if_pos rfl, ho, syncSent_out, hout, List.filter_cons, hd, if_pos rfl, List.map_cons, List.append_assoc]
        rfl
      · obtain ⟨hqp, hql⟩ := not_or.mp (mt List.mem_cons.mpr hq)
        exact (hother q hql).trans (syncSent_other hw p hqp)
      · obtain rfl | hq := List.mem_cons.mp hq
        · refine ⟨fun _ => ?_, fun h => absurd (hd.symm.trans h) (by decide)⟩
          rw [if_pos rfl, hother q hp, ← htb, ← hport]
          exact syncSent_port hw q
        · exact hall q hq
    | false =>
      obtain ⟨ho, hother, hall⟩ := ih hn htb (fun q hq => hl q (List.mem_cons_of_mem _ hq)) hw
      refine ⟨?_, fun q hq => ?_, fun q hq => ?_⟩
      · rw [if_neg (by decide), ho, List.filter_cons, hd, if_neg (by decide)]
      · exact hother q (not_or.mp (mt List.mem_cons.mpr hq)).2
      · obtain rfl | hq := List.mem_cons.mp hq
        · exact ⟨fun h => absurd (hd.symm.trans h) (by decide), fun _ => (hother q hp).trans hport⟩
        · exact hall q hq

/-! ## Attempts that fail (09 R328, R329) -/

/-- What the line of a port holds: its echo failures, its last transmission, and the transaction on the wire. -/
def SbusPort.line (x : SbusPort) : Nat × Bool × Nat × Nat × Bool × Option (SbusTx × Nat) :=
  (x.echoFail, x.txOk, x.echoRun, x.lineEnd, x.fault, x.cur)

/-- The line of port `p` holds `l`. -/
def LineAs (p : Nat) (l : Nat × Bool × Nat × Nat × Bool × Option (SbusTx × Nat)) (u : State) : Prop := twf {} u.sbus = true ∧ (u.port p).line = l

namespace LineAs

variable {p : Nat} {l : Nat × Bool × Nat × Nat × Bool × Option (SbusTx × Nat)} {u v : State}

theorem congr (h : LineAs p l u) (e : v.sbus = u.sbus) : LineAs p l v := by
  unfold LineAs State.port
  rw [e]
  exact h

theorem said (h : LineAs p l u) (k : Said u v) : LineAs p l v := h.congr k.sbus

theorem addTotal (h : LineAs p l u) (a b n : Nat) : LineAs p l (u.addTotal a b n) := by
  refine h.congr ?_
  unfold State.addTotal
  dsimp only
  split
  · exact (raise_said ..).sbus
  · rfl

theorem onPort (h : LineAs p l u) {g : SbusPort → SbusPort} (hg : (g (u.port p)).line = (u.port p).line) : LineAs p l (u.onPort p g) :=
  ⟨onPort_twf p g h.1, by rw [State.onPort_same _ _ _ h.1, hg, h.2]⟩

/-- A change of port `p` is read back. -/
theorem onPortAs {k : Nat × Bool × Nat × Nat × Bool × Option (SbusTx × Nat)} (h : LineAs p l u) {g : SbusPort → SbusPort}
    (hg : (g (u.port p)).line = k) : LineAs p k (u.onPort p g) :=
  ⟨onPort_twf p g h.1, by rw [State.onPort_same _ _ _ h.1, hg]⟩

theorem remDone (h : LineAs p l u) (id : Nat) : LineAs p l (u.remDone id) := by
  unfold State.remDone
  split
  · exact h
  · split
    · exact h
    · exact LineAs.said (u := { u with remSwaps := u.remSwaps.filter (fun x => x.id != id) }) h (answer_said ..)

theorem remAnswer (h : LineAs p l u) (id q a : Nat) (ok answered : Bool) : LineAs p l (u.remAnswer id q a ok answered) := by
  unfold State.remAnswer
  exact remDone (by exact h) id

theorem txLost (h : LineAs p l u) (j : Nat) (t : SbusTx) : LineAs p l (u.txLost j t) := by
  unfold State.txLost
  split
  · exact h.said (answer_said ..)
  · exact h.remAnswer ..
  · exact h

theorem presence (h : LineAs p l u) (a : Nat) (on : Bool) : LineAs p l (u.presence p a on) := by
  unfold State.presence
  split
  · exact h
  · exact (h.onPort (g := fun x => { x with pres := setBit x.pres a on }) rfl).said ((raise_said ..).trans (notifyClass_said ..))

theorem attemptCounted {e r n : Nat} {x f : Bool} {c : Option (SbusTx × Nat)} (h : LineAs p (e, x, r, n, f, c) u) :
    LineAs p (e, x, r, n, f, none) (u.attemptCounted p) := by
  have hp : LineAs p (e, x, r, n, f, none) (u.onPort p (fun y => { y with timeouts := (bump 255 (u.port p).timeouts).1, cur := none })) := by
    refine h.onPortAs ?_
    cases h.2
    rfl
  exact (hp.addTotal (wSbus + 16 * p) 16 1).said (stuckIf_said _ (bump 255 (u.port p).timeouts).2 (wSbus + 16 * p) 16)

theorem attemptFails {e r n : Nat} {x f : Bool} {c : Option (SbusTx × Nat)} (h : LineAs p (e, x, r, n, f, c) u) (t : SbusTx) :
    LineAs p (e, x, r, n, f, none) (u.attemptFails p t) := by
  have hc := h.attemptCounted
  unfold State.attemptFails
  dsimp only
  split
  · exact hc.onPort rfl
  · split
    · exact ((hc.onPort rfl).presence ..).txLost ..
    · exact (hc.onPort rfl).txLost ..

/-- A port that fails keeps the rest of its line. -/
theorem portFails {e r n : Nat} {x f : Bool} {c : Option (SbusTx × Nat)} (h : LineAs p (e, x, r, n, f, c) u) :
    LineAs p (e, x, r, n, true, c) (u.portFails p) := by
  have hfold (q : List SbusTx) {w : State} (hw : LineAs p (e, x, r, n, true, c) w) : LineAs p (e, x, r, n, true, c) (q.foldl (fun s t => s.txLost p t) w) := by
    induction q generalizing w with
    | nil => exact hw
    | cons t q ih => exact ih (hw.txLost p t)
  have hp : LineAs p (e, x, r, n, true, c) (u.onPort p (fun y => { y with fault := true, retry := none, queue := [], syncPass := false })) := by
    refine h.onPortAs ?_
    cases h.2
    rfl
  exact hfold _ (hp.said ((raise_said ..).trans (notifyClass_said ..)))

end LineAs

/-! ## Transactions (09 R327, R328) -/

theorem tick_nextTx (s : State) (dt : Dt) (p : Nat) : (s.tick dt).nextTx p = s.nextTx p := rfl

section
variable {s : State} {dt : Dt} (hr : s.runs .m = true) {p : Nat} (hp : p ≤ 3)
include hr hp

theorem sbusTransaction_starts {k : SbusTx} {y : SbusPort} (hz : s.pow.signHiZ = false) (hi : (s.port p).idleAt (s.tick dt).now = true)
    (hh : (s.port p).syncHcn = some s.tb.hcn) (hn : s.nextTx p = some (k, y))
    (hfits : (s.tick dt).now + k.worst + 10 * us10C ≤ s.tb.lastEdge + s.tb.period) : exec (.sbusTransaction dt p) s =
      .next (((s.tick dt).onPort p (fun _ => { y with cur := some ({ k with attempt := k.attempt + 1 }, y.seq) })).transmit p k.daddr k.cmd k.pay) := by
  have hport : (s.tick dt).port p = s.port p := rfl
  refine congrArg Host.Outcome.next ((if_neg ?_).trans ?_)
  · rw [decide_eq_false (Nat.not_lt.mpr hp), State.tick_runs, hr, State.tick_pow, hz, hport, hi, hh, State.tick_tb, bne_self_eq_false]
    decide
  · rw [tick_nextTx, hn]
    exact if_neg (Nat.not_lt.mpr hfits)

theorem sbus_goes : ¬ ((decide (3 < p) || !(s.tick dt).runs .m) = true) := by
  rw [decide_eq_false (Nat.not_lt.mpr hp), State.tick_runs, hr]
  decide

/-- The end of a response: the line's time is kept, and an IDENT that passes its echo check heals a port in FAULT. -/
def State.responseTaken (t : State) (p : Nat) (k : SbusTx) : State :=
  let v := t.onPort p (fun y => { y with lineEnd := t.now })
  if (v.port p).identPasses k then v.portHeals p else v

theorem exec_sbusResponse {k : SbusTx} {q : Nat} {fr : SbusFrame} (hc : (s.port p).cur = some (k, q))
    (hm : (s.port p).mayEnd (s.tick dt).now (7 + fr.pay.length) = true) : let v := (s.tick dt).responseTaken p k
    exec (.sbusResponse dt p fr) s = .next (if !fr.crcOk then
        ((((v.onPort p (fun y => { y with crcErr := (bump 255 (v.port p).crcErr).1 })).addTotal (wSbus + 16 * p) 8 1).stuckIf
          (bump 255 (v.port p).crcErr).2 (wSbus + 16 * p) 8).attemptFails p k)
      else if fr.cmd ≠ k.cmd ∨ fr.seq ≠ q then v.attemptFails p k
      else v.txDone p k fr) := by
  have hport : (s.tick dt).port p = s.port p := rfl
  refine congrArg Host.Outcome.next ((if_neg (sbus_goes hr hp)).trans ?_)
  rw [hport, hc]
  exact (if_neg (by rw [hm]; decide)).trans rfl

theorem sbusResponseTimeout_fails {k : SbusTx} {q : Nat} (hc : (s.port p).cur = some (k, q)) (hl : (s.port p).lineEnd + 60000 ≤ (s.tick dt).now) :
    exec (.sbusResponseTimeout dt p) s =
      .next ((if (s.port p).identPasses k then (s.tick dt).portHeals p else s.tick dt).attemptFails p k) := by
  have hport : (s.tick dt).port p = s.port p := rfl
  refine congrArg Host.Outcome.next ((if_neg (sbus_goes hr hp)).trans ?_)
  rw [hport, hc]
  exact (if_neg (Nat.not_lt.mpr hl)).trans rfl

/-! ## Echo mismatches (09 R329) -/

/-- The mismatch counted. -/
def State.mismatchCounted (t : State) (p : Nat) : State :=
  ((t.onPort p (fun x => { x with
      echoFail := (bump 255 (t.port p).echoFail).1, txOk := false, echoRun := x.echoRun + 1, syncPass := false, lineEnd := t.now
      de := (x.de.1, t.now) })).addTotal (wSbus + 16 * p) 24 1).stuckIf (bump 255 (t.port p).echoFail).2 (wSbus + 16 * p) 24

/-- The transaction on the wire has failed. -/
def State.wireFails (u : State) (p : Nat) : State :=
  match (u.port p).cur with
  | some (k, _) => u.attemptFails p k
  | none => u.attemptCounted p

theorem exec_sbusEchoMismatch (hx : (s.port p).txOk = true) (hl : (s.tick dt).now < (s.port p).lineEnd) :
    let v := ((s.tick dt).mismatchCounted p).wireFails p
    exec (.sbusEchoMismatch dt p) s = .next (if 16 ≤ (v.port p).echoRun ∧ (v.port p).fault = false then v.portFails p else v) := by
  have hport : (s.tick dt).port p = s.port p := rfl
  refine congrArg Host.Outcome.next ((if_neg ?_).trans rfl)
  rw [decide_eq_false (Nat.not_lt.mpr hp), State.tick_runs, hr, hport, hx, decide_eq_false (Nat.not_le.mpr hl)]
  decide

end

theorem wireFails_line {u : State} {p e r n : Nat} {x f : Bool} {c : Option (SbusTx × Nat)} (h : LineAs p (e, x, r, n, f, c) u) :
    LineAs p (e, x, r, n, f, none) (u.wireFails p) := by
  unfold State.wireFails
  split
  · exact h.attemptFails _
  · exact h.attemptCounted

/-- An echo mismatch cuts the transmission; the sixteenth in a row puts the port in FAULT. -/
theorem mismatch_line {t : State} {p : Nat} (hw : twf {} t.sbus = true) : let v := (t.mismatchCounted p).wireFails p
    LineAs p ((bump 255 (t.port p).echoFail).1, false, (t.port p).echoRun + 1, t.now, (t.port p).fault || decide (15 ≤ (t.port p).echoRun), none)
      (if 16 ≤ (v.port p).echoRun ∧ (v.port p).fault = false then v.portFails p else v) := by
  intro v
  have hv : LineAs p ((bump 255 (t.port p).echoFail).1, false, (t.port p).echoRun + 1, t.now, (t.port p).fault, none) v :=
    wireFails_line (c := (t.port p).cur) (((LineAs.onPortAs (l := (t.port p).line) ⟨hw, rfl⟩ rfl).addTotal ..).said (stuckIf_said ..))
  have hrun : (v.port p).echoRun = (t.port p).echoRun + 1 := congrArg (fun l => l.2.2.1) hv.2
  have hfault : (v.port p).fault = (t.port p).fault := congrArg (fun l => l.2.2.2.2.1) hv.2
  rw [hrun, hfault]
  clear_value v
  by_cases h : 15 ≤ (t.port p).echoRun
  · cases hf : (t.port p).fault with
    | true =>
      rw [hf] at hv
      rw [if_neg fun h => nomatch h.2, Bool.true_or]
      exact hv
    | false =>
      rw [if_pos ⟨by omega, rfl⟩, Bool.false_or, decide_eq_true h]
      exact hv.portFails
  · rw [if_neg (by omega), decide_eq_false h, Bool.or_false]
    exact hv

/-- Settles O40: SYNC port by port, the transactions by the branch of their premises, and a mismatch by what its port's line holds. -/
theorem signBusTransactionsComplete : Obligations.SignBusTransactionsComplete := by
  unfold Obligations.SignBusTransactionsComplete
  intro s dt hr
  refine ⟨fun ht hz hw => ?_, fun p k y hp hz hi hh hn hfits => sbusTransaction_starts hr hp hz hi hh hn hfits, fun p k q hp hc => ⟨fun fr hm => ?_, fun hl => ?_⟩,
    fun p hp hx hl hw => ?_⟩
  · have hexec : exec (.sbusSyncSend dt) s = .next ((s.tick dt).syncAll (rangeFrom 0 4)) :=
      congrArg Host.Outcome.next (if_neg (by rw [State.tick_runs, hr, ht, State.tick_pow, hz]; decide))
    obtain ⟨hout, -, hall⟩ := syncAll_spec (s := s) (l := rangeFrom 0 4) (by decide) (u := s.tick dt) rfl (fun _ _ => rfl) hw
    exact ⟨_, hexec, hout, fun p hp => hall p (mem_rangeFrom.mpr ⟨Nat.zero_le p, by omega⟩)⟩
  · intro v0 v
    have h := exec_sbusResponse hr hp hc hm
    refine ⟨fun h1 h2 h3 => ?_, fun h1 h2 => ?_, fun h1 => ?_⟩
    · rw [h, h1, if_neg (by decide), if_neg (by rw [h2, h3]; simp)]
      rfl
    · rw [h, h1, if_neg (by decide), if_pos h2]
      rfl
    · intro b
      rw [h, h1, if_pos (by decide)]
      rfl
  · exact sbusResponseTimeout_fails hr hp hc hl
  · obtain ⟨-, hline⟩ := mismatch_line (p := p) (t := s.tick dt) hw
    refine ⟨_, exec_sbusEchoMismatch hr hp hx hl, ?_, ?_, ?_, ?_, ?_, ?_⟩
    · exact congrArg (fun l => l.1) hline
    · exact congrArg (fun l => l.2.1) hline
    · exact congrArg (fun l => l.2.2.1) hline
    · exact congrArg (fun l => l.2.2.2.2.2) hline
    · exact congrArg (fun l => l.2.2.2.1) hline
    · exact congrArg (fun l => l.2.2.2.2.1) hline

end Sys2Proof.Machine
end
